-- ==== Sys2Proof/Word.lean ====
section
/-!
DEFINITION. The word types of the 8804 and the operand shapes that instructions are built from.
A shape is plain data: register numbers are naturals, bounded by `WellFormed` and by the decode
checks of R61.
-/

namespace Sys2Proof

/-- A byte (R3). -/
abbrev Byte := BitVec 8

/-- A 32-bit register value (R3). -/
abbrev Word := BitVec 32

/-- A 64-bit value: a register pair, a special register or an instruction word (R3). -/
abbrev DWord := BitVec 64

/-- The guard predicate of a full word (Table 3-3): predicate `p`, inverted when `neg`. -/
structure Guard where
  neg : Bool
  p   : Nat
deriving DecidableEq, Repr

/-- A register field with its k bit, or an immediate (Tables 3-5 and 5-1).
`w n` names a w register, or the low half of a pair under `.d`. -/
inductive Src where
  | w (n : Nat)
  | k (n : Nat)
  | imm (n : Nat)
deriving DecidableEq, Repr

/-- Static rounding (Table 3-5, bits 11:10). -/
inductive Rnd where
  | ne | rz | rp | rm
deriving DecidableEq, Repr

/-- The conditions of `cmp` and `set` (Table 5-4). -/
inductive Cond where
  | eq | ne | lt | le | gt | ge | ltu | leu | gtu | geu
deriving DecidableEq, Repr

/-- The conditions of `fcmp` (Table 6-3). -/
inductive FCond where
  | eq | ne | lt | le | gt | ge | un | ord
deriving DecidableEq, Repr

/-- The modes of `frnd` (Table 6-3). -/
inductive FrMode where
  | even | trunc | ceil | floor | away
deriving DecidableEq, Repr

/-- The wide formats of `fcvt`, `icvt` and `fcvti` (Table 6-3). -/
inductive WFmt where
  | fp32 | fp16 | bf16 | fa48
deriving DecidableEq, Repr

/-- The modes of `shfl` (Table 5-1). -/
inductive ShflMode where
  | atLane | rise | fall | swap
deriving DecidableEq, Repr

/-- The modes of `vote` (Table 5-1). -/
inductive VoteMode where
  | every | some | agree | mask
deriving DecidableEq, Repr

/-- The operations of `redux` (Table 5-1). -/
inductive RedOp where
  | add | min | max | minu | maxu | and | or | xor
deriving DecidableEq, Repr

/-- The atomic operations of Table 8-7. -/
inductive AtomOp where
  | swap | cas | add | and | or | xor | min | max | minu | maxu | addF32 | minF32 | maxF32 | addBf16x2
deriving DecidableEq, Repr

/-- The scopes of Table 3-6. -/
inductive Scope where
  | core | cl | die | pkg | sys
deriving DecidableEq, Repr

/-- The access sizes of Table 3-6. -/
inductive Size where
  | byte | half | word | dword | quad
deriving DecidableEq, Repr

/-- The fence kinds of Table 8-5. -/
inductive FenceKind where
  | rel | acq | ar
deriving DecidableEq, Repr

/-- What `tlread` reads (Table 8-5). -/
inductive TlSel where
  | copy | tile | fail | status
deriving DecidableEq, Repr

/-- What `chstat` reads (Table 14-6). -/
inductive ChSel where
  | mark | stat | sq
deriving DecidableEq, Repr

/-- What `tstat` reads (Table 17-2). -/
inductive TsSel where
  | tile | fail | status
deriving DecidableEq, Repr

/-- What `hstat` reads (Table 20-4). -/
inductive HsSel where
  | depth | gen | tok
deriving DecidableEq, Repr

/-- The barrier selectors of Table 12-1. -/
inductive BarSel where
  | lv (l : Nat)
  | cl | die | pkg | grp
deriving DecidableEq, Repr

/-- The compact operations of Table 3-8, in the order of their codes. -/
inductive CompactOp where
  | add | sub | and | or | xor | shl | shr | mov | min | max | fadd | fmul | fmin | fmax | hadd2 | hmul2
deriving DecidableEq, Repr

/-- One compact operation with its registers (Table 3-7). -/
structure Compact where
  op : CompactOp
  d  : Nat
  a  : Nat
  b  : Nat
deriving DecidableEq, Repr

/-- A paired word whose first operation is named by the constructor that carries it
(Table 3-7): the first operation's registers and the whole second operation. -/
structure Paired where
  d   : Nat
  a   : Nat
  b   : Nat
  snd : Compact
deriving DecidableEq, Repr

/-- Two sources (Table 5-2): `u` is `.u`, `dd` is `.d`. -/
structure R3 where
  g  : Guard
  u  : Bool
  dd : Bool
  d  : Src
  a  : Src
  b  : Src
deriving DecidableEq, Repr

/-- A comparison into predicate `p` (Tables 5-2 and 6-4). -/
structure Cmp where
  g  : Guard
  u  : Bool
  dd : Bool
  p  : Nat
  a  : Src
  b  : Src
deriving DecidableEq, Repr

/-- One source (Tables 5-2 and 6-4). -/
structure R2 where
  g  : Guard
  u  : Bool
  dd : Bool
  d  : Src
  a  : Src
deriving DecidableEq, Repr

/-- Two sources and a static rounding: `fadd`, `fmul` (Table 6-4). -/
structure R3r where
  g   : Guard
  u   : Bool
  rnd : Rnd
  d   : Src
  a   : Src
  b   : Src
deriving DecidableEq, Repr

/-- Three sources: `mad` (no rounding) and `ffma` (Tables 5-2, 6-4). -/
structure R4 where
  g   : Guard
  u   : Bool
  rnd : Rnd
  d   : Src
  a   : Src
  b   : Src
  c   : Nat
deriving DecidableEq, Repr

/-- The bit-field operations (Table 5-2): `c` may be a w register or an immediate. -/
structure Bf where
  g : Guard
  u : Bool
  d : Src
  a : Src
  b : Src
  c : Src
deriving DecidableEq, Repr

/-- A predicate combination (Table 5-2). -/
structure P3 where
  g  : Guard
  na : Bool
  nb : Bool
  d  : Nat
  a  : Nat
  b  : Nat
deriving DecidableEq, Repr

/-- A packed 16-bit operation on w registers (Table 6-4): `bf` is `.b`. -/
structure H3 where
  g  : Guard
  bf : Bool
  d  : Nat
  a  : Nat
  b  : Nat
deriving DecidableEq, Repr

/-- A plain unary operation on w registers (Table 6-4). -/
structure W2 where
  g : Guard
  d : Nat
  a : Nat
deriving DecidableEq, Repr

/-- `dot4` and `dot8` (Table 6-4): `c` names a pair, `sa` and `sb` are slots. -/
structure Dot where
  g  : Guard
  d  : Nat
  a  : Nat
  b  : Nat
  c  : Nat
  sa : Nat
  sb : Nat
deriving DecidableEq, Repr

/-- `ncvt` and `nunp` (Table 6-4). -/
structure Cv where
  g    : Guard
  d    : Nat
  a    : Nat
  b    : Nat
  slot : Nat
  pos  : Nat
deriving DecidableEq, Repr

/-- A global load (Table 8-5). `sel` is the flag select of R52. -/
structure Ldg where
  g    : Guard
  d    : Nat
  a    : Nat
  off  : Int
  sz   : Size
  sc   : Scope
  acq  : Bool
  poll : Bool
  sx   : Bool
  sel  : Nat
deriving DecidableEq, Repr

/-- A global store (Table 8-5). -/
structure Stg where
  g   : Guard
  a   : Nat
  b   : Nat
  off : Int
  sz  : Size
  sc  : Scope
  rel : Bool
deriving DecidableEq, Repr

/-- A scratchpad load, `lds` (rank and select zero) or `ldx` (Table 8-5). -/
structure Lds where
  g    : Guard
  d    : Nat
  a    : Nat
  off  : Int
  sz   : Size
  sx   : Bool
  rank : Nat
  sel  : Nat
deriving DecidableEq, Repr

/-- A scratchpad store, `sts` (rank zero) or `stx` (Table 8-5). -/
structure Sts where
  g    : Guard
  a    : Nat
  b    : Nat
  off  : Int
  sz   : Size
  rank : Nat
deriving DecidableEq, Repr

/-- `atom` and `atoms` (scope zero) (Table 8-5). -/
structure Atm where
  g   : Guard
  d   : Nat
  a   : Nat
  b   : Nat
  off : Int
  sz  : Size
  sc  : Scope
  op  : AtomOp
  sel : Nat
deriving DecidableEq, Repr

/-- `red` (Table 8-5). -/
structure Rdg where
  g   : Guard
  a   : Nat
  b   : Nat
  off : Int
  sz  : Size
  sc  : Scope
  op  : AtomOp
  rel : Bool
deriving DecidableEq, Repr

/-- A barrier instruction (Table 12-3): `r` is the register the form uses, 0 for `bar`. -/
structure Bar where
  g   : Guard
  sel : BarSel
  id  : Nat
  r   : Nat
deriving DecidableEq, Repr

/-- `tld` and `tst` (Table 17-3). -/
structure Tls where
  g    : Guard
  tile : Nat
  d    : Nat
  a    : Nat
  b    : Nat
  slot : Nat
  sel  : Nat
deriving DecidableEq, Repr

/-- A factorisation (Table 18-2): `sec` is the field Second, `c` the second size operand. -/
structure Fac where
  g    : Guard
  tile : Nat
  sec  : Nat
  d    : Nat
  a    : Nat
  b    : Nat
  c    : Nat
  sel  : Nat
deriving DecidableEq, Repr

/-- The integer and floating-point parts of the common register image (Table 23-2), sparse:
an unlisted register holds zero. -/
structure Image where
  x      : List (Nat × DWord)
  f      : List (Nat × DWord)
  fflags : Nat
  frm    : Nat
deriving DecidableEq, Repr

/-- A drain-add that a peer package sends (R296, R297): its package and sender context number, the core
and tile it names, and its elements as FA48 containers by 32 × i + j. -/
structure PeerAdd where
  pkg  : Nat
  ctx  : Nat
  core : Nat
  tile : Nat
  el   : List (Nat × DWord)
deriving DecidableEq, Repr

/-- A command ring entry as the supervisor writes it (R405): a code and six operands. -/
structure RingCmd where
  code : Nat
  ops  : List DWord
deriving DecidableEq, Repr

/-- A Trethar message from the host (R384): its requester ID, its vendor ID and its payload. -/
structure TMsg where
  req     : Nat
  vendor  : Nat
  payload : List Byte
deriving DecidableEq, Repr

/-- What a headland hart's access is (R268). -/
inductive HartOp where
  | load | store | amo (op : AtomOp) | lr | sc | fence (rel acq : Bool)
  /-- Reads of the CSRs that the spec gives a hart: `cycle`, `time` (R18), `wwidth`, `wstack` (Table 23-4). -/
  | rdCycle | rdTime | rdWwidth | rdWstack
  /-- The fetch of the next instruction in sequence (Table 23-3). -/
  | fetch
deriving DecidableEq, Repr

/-- One access of a headland hart (R268): the issuing hart of a die, its translation (mode, ASID and root of its
satp), its world, its mode with the SUM and MXR bits of `sstatus`, the address, the size in bytes and the value
stored. A visitor context is hart 8 + v: its translation, world and mode are its thread's (R360), and `img` and `pc`
are the state that its code has reached. -/
structure HartAcc where
  die  : Nat
  hart : Nat
  satp : DWord
  world : Bool
  umode : Bool
  sum  : Bool := false
  mxr  : Bool := false
  img  : Image := ⟨[], [], 0, 0⟩
  pc   : Nat := 0
  op   : HartOp
  va   : Nat
  n    : Nat
  val  : Nat
  aq   : Bool
  rl   : Bool
deriving DecidableEq, Repr

/-- What a supply does: a droop starts, with the module inside the envelope of R17 or outside it, or ends (R16). -/
inductive Supply where
  | droops (outside : Bool)
  | recovers
deriving DecidableEq, Repr

/-- A jump or taken branch of RV64 code: its own address, and its target (R372). -/
structure Jump where
  target : Nat
  src    : Nat
deriving DecidableEq, Repr

/-- The exceptions of a visitor that become built-in effects (R364). -/
inductive VisExc where
  | illegal (bits : Nat)
  | misalign (ea size : Nat)
  | brk (compressed : Bool)
  | linkLost (ea cause : Nat)
deriving DecidableEq, Repr

/-- The structures of Table 27-6 in which a soft error may strike, with where it struck. -/
inductive SoftAt where
  | registers (gid tix : Nat)
  | uniform (gid : Nat)
  | scratch (gid off : Nat)
  | tile (gid tile : Nat)
  | wbuf (gid off : Nat)
  | codeTab (core : Nat)
  | ftab (core ft : Nat)
  | l1 (core pa : Nat)
  | cluster (cl pa : Nat)
  | l2 (pa : Nat) (dirty : Bool)
  | tags (core : Nat)
  | l2tags (die : Nat)
  | secondTier (pa : Nat)
deriving DecidableEq, Repr

/-- Where a cache line lives that is evicted (DIRTY_EVICT): an L1, a cluster cache or the
holder's copy of a host line (R195, R388). -/
inductive CacheAt where
  | l1 (core : Nat)
  | cluster (cl : Nat)
  | holder (part : Nat)
deriving DecidableEq, Repr

/-- The kinds of host snoop (R387), with the bytes the host writes for an invalidating one. -/
inductive Snoop where
  | inv | data | cur
deriving DecidableEq, Repr

/-- A standard SPDM request of the parts that R7 names. -/
inductive SpdmReq where
  | version | capabilities | algorithms | certificate | challenge
  | measurement (index : Nat)
  | keyExchange
deriving DecidableEq, Repr

end Sys2Proof
end

