-- ==== Sys2Proof/Syntax.lean ====
section
/-!
DEFINITION. The instructions of the 8804: one constructor per row of the opcode table.
The first group are the words of Ubhus code (Table 3-9), with the sixteen compact operations
that may stand first in a paired word (Table 3-8). The second group are the events of the
device: what it does at some point of its own choosing, or when another agent acts on it. An
event carries the data of that choice and has no encoding.
-/

namespace Sys2Proof

/-- The instructions: words of Ubhus code, then the events of the device. -/
inductive Instr where
  | nop (g : Guard)
  | add (x : R3)
  | sub (x : R3)
  | mul (x : R3)
  | mulh (x : R3)
  | mulhu (x : R3)
  | mad (x : R4)
  | div (x : R3)
  | divu (x : R3)
  | rem (x : R3)
  | remu (x : R3)
  | and (x : R3)
  | or (x : R3)
  | xor (x : R3)
  | andn (x : R3)
  | shl (x : R3)
  | shr (x : R3)
  | sra (x : R3)
  | rol (x : R3)
  | shladd (sh : Nat) (x : R3)
  | min (x : R3)
  | max (x : R3)
  | minu (x : R3)
  | maxu (x : R3)
  | abs (x : R2)
  | clz (x : R2)
  | popc (x : R2)
  | brev (x : R2)
  | bfx (x : Bf)
  | bfxu (x : Bf)
  | bfi (x : Bf)
  | sel (np : Bool) (sp : Nat) (x : R3)
  | cmp (cc : Cond) (x : Cmp)
  | set (cc : Cond) (x : R3)
  | mov (x : R2)
  | movi (g : Guard) (kind d : Nat) (imm : Int)
  | movx (g : Guard) (d val : Nat)
  | pand (x : P3)
  | por (x : P3)
  | pxor (x : P3)
  | smov (g : Guard) (u : Bool) (d : Src) (sreg : Nat)
  | swr (g : Guard) (sreg a : Nat)
  | rand (g : Guard) (d : Nat)
  | widf (g : Guard) (u : Bool) (n : Nat) (d : Src)
  | addPaired (x : Paired)
  | subPaired (x : Paired)
  | andPaired (x : Paired)
  | orPaired (x : Paired)
  | xorPaired (x : Paired)
  | shlPaired (x : Paired)
  | shrPaired (x : Paired)
  | movPaired (x : Paired)
  | minPaired (x : Paired)
  | maxPaired (x : Paired)
  | faddPaired (x : Paired)
  | fmulPaired (x : Paired)
  | fminPaired (x : Paired)
  | fmaxPaired (x : Paired)
  | hadd2Paired (x : Paired)
  | hmul2Paired (x : Paired)
  | shfl (g : Guard) (mode : ShflMode) (d a : Nat) (b : Src) (c : Nat)
  | vote (g : Guard) (mode : VoteMode) (na : Bool) (d a c : Nat)
  | redux (g : Guard) (op : RedOp) (d a c : Nat)
  | matchL (g : Guard) (whole : Bool) (d a c : Nat)
  | elect (g : Guard) (d c : Nat)
  | lsync (g : Guard) (d c : Nat)
  | bra (g : Guard) (target : Int)
  | jmp (g : Guard) (a : Nat)
  | call (g : Guard) (target : Int)
  | callr (g : Guard) (d a : Nat)
  | ret (g : Guard) (a : Nat)
  | rjarm (g : Guard) (j a : Nat)
  | rjwait (g : Guard) (j : Nat)
  | exit (g : Guard)
  | brk (g : Guard) (n : Nat)
  | yield (g : Guard)
  | fadd (x : R3r)
  | fsub (x : R3)
  | fmul (x : R3r)
  | ffma (x : R4)
  | fmin (x : R3)
  | fmax (x : R3)
  | fcmp (cc : FCond) (x : Cmp)
  | fclass (x : R2)
  | frnd (mode : FrMode) (x : R2)
  | fcvt (g : Guard) (rnd : Rnd) (dst src : WFmt) (d a : Nat)
  | icvt (g : Guard) (uns : Bool) (dst : WFmt) (d a : Nat)
  | fcvti (g : Guard) (rnd : Rnd) (uns : Bool) (src : WFmt) (d a : Nat)
  | hadd2 (x : H3)
  | hmul2 (x : H3)
  | hfma2 (c : Nat) (x : H3)
  | hmin2 (x : H3)
  | hmax2 (x : H3)
  | rcp (x : W2)
  | rsq (x : W2)
  | sqrt (x : W2)
  | exp2 (x : W2)
  | log2 (x : W2)
  | fdiv (x : R3)
  | feval (ft : Nat) (x : W2)
  | ftld (g : Guard) (ft a fl : Nat)
  | dot4 (x : Dot)
  | dot8 (x : Dot)
  | ncvt (x : Cv)
  | nunp (x : Cv)
  | ld (x : Ldg)
  | st (x : Stg)
  | lds (x : Lds)
  | sts (x : Sts)
  | ldx (x : Lds)
  | stx (x : Sts)
  | atom (x : Atm)
  | red (x : Rdg)
  | atoms (x : Atm)
  | fence (g : Guard) (kind : FenceKind) (sc : Scope)
  | acqr (g : Guard) (a : Nat)
  | waita (g : Guard) (global : Bool) (d a b : Nat)
  | cpy (g : Guard) (d a fl : Nat)
  | tlwait (g : Guard) (tile : Bool) (a : Nat)
  | tlread (g : Guard) (fl : TlSel) (d : Nat)
  | pref (g : Guard) (sc : Scope) (a : Nat) (off : Int)
  | chend (g : Guard)
  | chstat (g : Guard) (fl : ChSel) (d : Nat)
  | bar (x : Bar)
  | barv (x : Bar)
  | barw (x : Bar)
  | barst (x : Bar)
  | tzero (g : Guard) (tile : Nat) (free : Bool) (d : Nat)
  | tld (x : Tls)
  | tst (x : Tls)
  | tmma (g : Guard) (d a fl : Nat)
  | tdadd (g : Guard) (tx ty d a fl : Nat)
  | twait (g : Guard) (tile d a : Nat)
  | tcode (g : Guard) (d a fl : Nat)
  | tlu (x : Fac)
  | tchol (x : Fac)
  | tqr (x : Fac)
  | ttrsm (tr unit up : Bool) (x : Fac)
  | pvap (g : Guard) (tile pv : Nat) (inv : Bool) (d fl : Nat)
  | tstat (g : Guard) (fl : TsSel) (tile d : Nat)
  | handle (g : Guard) (id d : Nat) (off : Int) (entry : Nat)
  | endh (g : Guard)
  | perform (g : Guard) (multi : Bool) (id : Nat)
  | resume (g : Guard) (a : Nat)
  | drop (g : Guard) (a : Nat)
  | hret (g : Guard)
  | hstat (g : Guard) (fl : HsSel) (d a : Nat)
  | svc (g : Guard) (n : Nat)
  | launch (g : Guard) (d a b : Nat)
  | sleep (g : Guard) (absT : Bool) (a : Nat)
  /-- CLAUSE_ISSUE (R50, R142): the core takes an issue opportunity for a pack of these threads. -/
  | clauseIssue (core gid : Nat) (tixs : List Nat)
  /-- FTLD_FLIP (R137): the oldest load of a table is done and the table flips. -/
  | ftldFlip (core ft : Nat)
  /-- LOAD_DATA_ARRIVE (R51): the value of an outstanding load reaches its registers. -/
  | loadDataArrive (gid tix id : Nat)
  /-- STX_PERFORM (R170): a remote scratchpad store is performed at the peer bank. -/
  | stxPerform (id : Nat)
  /-- STX_ACK (R170): its acknowledgement returns. -/
  | stxAck (id : Nat)
  /-- WAITA_WAKE (R179): a change, or a spurious wake, makes the waiter read the word again. -/
  | waitaWake (gid tix : Nat)
  /-- WAITA_REPOLL (R179): a word that is not watched is read again. -/
  | waitaRepoll (gid tix : Nat)
  /-- COPY_PIECE (R181): the engine performs the next piece of its current copy. -/
  | copyPiece (core : Nat)
  /-- COPY_COMPLETE (R182): the current copy has moved its last byte. -/
  | copyComplete (core : Nat)
  /-- ESCAPING_REISSUE (R188): the thread issues again at its word, in an empty chunk. -/
  | escapingReissue (gid tix : Nat)
  /-- BROKEN_STOP_TIMEOUT (R243): 1 ms after BAR.BROKEN the stop reaches the thread. -/
  | brokenStopTimeout (gid tix : Nat)
  /-- TDADD_ARRIVAL (R298): a drain-add arrives: one by its sender group and number, or one of a peer package. -/
  | tdaddArrival (gid n : Nat) (peer : Option PeerAdd)
  /-- TDADD_ACK (R297): its acknowledgement reaches the sender. -/
  | tdaddAck (gid n : Nat)
  /-- TILE_COMMAND_COMPLETE (R283): a tile command is performed and completes. -/
  | tileCommandComplete (core gid n : Nat)
  /-- FACTORISATION_STEP (R306): one step of a factorisation. -/
  | factorisationStep (core gid n : Nat)
  /-- BUILTIN_EFFECT_DELIVERY (R330): a pending built-in effect is delivered. -/
  | builtinEffectDelivery (gid tix : Nat)
  /-- SLEEP_WAKE (R214): `TIME` has passed the wake time. -/
  | sleepWake (gid tix : Nat)
  /-- CHUNK_CLOSE (R250): the open chunk closes at a clause boundary. -/
  | chunkClose (core : Nat)
  /-- CHUNK_TIMER_EXPIRE (R257): the open chunk has been open for 262,144 cycles. -/
  | chunkTimerExpire (core : Nat)
  /-- SIGNATURE_PARITY_ERROR (R249): in the open or the committing chunk. -/
  | signatureParityError (core : Nat) (committing : Bool)
  /-- TIDEMARK_GRANT (R252): the committing chunk is published. -/
  | tidemarkGrant (core : Nat)
  /-- RUN_COUNT_LIMIT (R256): the run count is 4 and the core asks for solo priority. -/
  | runCountLimit (core : Nat)
  /-- SOLO_GRANT (R256): the grant reaches the core. -/
  | soloGrant (core : Nat)
  /-- REJOIN_CYCLE_DETECT (R153): these threads form a rejoin cycle. -/
  | rejoinCycleDetect (gid : Nat) (tixs : List Nat)
  /-- AGEING_THRESHOLD (R157): an ageing counter has reached 4,096. -/
  | ageingThreshold (gid tix : Nat)
  /-- GROUP_PLACE (R221): the next pending group or cluster set of a die, on a core (the set on the cores of its cluster). -/
  | groupPlace (kid die core : Nat)
  /-- GROUP_EXIT (R231). -/
  | groupExit (gid : Nat)
  /-- KERNEL_CLOSE (R218): the completion word is written. -/
  | kernelClose (kid : Nat)
  /-- STOP_REQUEST (R225, R347): the groups of a core choose how to leave it. -/
  | stopRequest (core : Nat)
  /-- DRAIN_LIMIT_EXPIRE (R227): groups still draining are saved. -/
  | drainLimitExpire (core : Nat)
  /-- GROUP_SAVE (R228): a group that is being saved leaves its core. -/
  | groupSave (gid : Nat)
  /-- GROUP_RESTORE (R228): a saved group is loaded onto a core. -/
  | groupRestore (gid core : Nat)
  /-- CORE_GIVE_UP (R346): a core leaves its context. -/
  | coreGiveUp (core : Nat)
  /-- PREEMPT_TRIGGER (R377): a head that fits nowhere ends a lower-ranked slice. -/
  | preemptTrigger (kid core : Nat)
  /-- KERNEL_SUSPEND (R382): a kernel at the service-wait threshold is pre-empted whole. -/
  | kernelSuspend (kid : Nat)
  /-- THERMAL_MOVE (R230): a group of a hot core begins to move. -/
  | thermalMove (gid : Nat)
  /-- THERMAL_TRIP (R24): 115 °C. -/
  | thermalTrip (die : Nat)
  /-- CLOCK_SETTING_CHANGE (R17). -/
  | clockSettingChange (die mhz : Nat)
  /-- SUPPLY_DROOP (R16): a droop begins or ends. -/
  | supplyDroop (die : Nat) (on : Supply)
  /-- FAULT_QUEUE_CONSUME (R352): the supervisor advances Consumed by n. -/
  | faultQueueConsume (cid n : Nat)
  /-- COMMAND_RING_PRODUCE (R405): the supervisor appends entries. -/
  | commandRingProduce (part : Nat) (cmds : List RingCmd)
  /-- CREATE_CONTEXT (R405): the device performs the ring entry at Consumer, which is command 1. -/
  | createContext (part : Nat)
  /-- DESTROY_CONTEXT (R405): the device performs the ring entry at Consumer, which is command 2. -/
  | destroyContext (part : Nat)
  /-- STOP_MODE (R405): the device performs the ring entry at Consumer, which is command 3. -/
  | stopMode (part : Nat)
  /-- RESUME_THREAD_CONTINUE (R405): the device performs the ring entry at Consumer, which is command 4, action 0. -/
  | resumeThreadContinue (part : Nat)
  /-- RESUME_THREAD_RETRY (R405): the device performs the ring entry at Consumer, which is command 4, action 1. -/
  | resumeThreadRetry (part : Nat)
  /-- RESUME_THREAD_ABANDON (R405): the device performs the ring entry at Consumer, which is command 4, action 2. -/
  | resumeThreadAbandon (part : Nat)
  /-- RESUME_THREAD_VALUE (R405): the device performs the ring entry at Consumer, which is command 4, action 3. -/
  | resumeThreadValue (part : Nat)
  /-- SAVE_GROUP (R405): the device performs the ring entry at Consumer, which is command 5. -/
  | saveGroup (part : Nat)
  /-- SERVICE_REPLY (R405): the device performs the ring entry at Consumer, which is command 14. -/
  | serviceReply (part : Nat)
  /-- CREATE_QUEUE (R405): the device performs the ring entry at Consumer, which is command 6. -/
  | createQueue (part : Nat)
  /-- QUIESCE (R405): the device performs the ring entry at Consumer, which is command 7. -/
  | quiesce (part : Nat)
  /-- REOPEN (R405): the device performs the ring entry at Consumer, which is command 8. -/
  | reopen (part : Nat)
  /-- DESTROY_QUEUE (R405): the device performs the ring entry at Consumer, which is command 9. -/
  | destroyQueue (part : Nat)
  /-- QUEUE_STATUS (R405): the device performs the ring entry at Consumer, which is command 10. -/
  | queueStatus (part : Nat)
  /-- ADMIT_ADD (R405): the device performs the ring entry at Consumer, which is command 11, add. -/
  | admitAdd (part : Nat)
  /-- ADMIT_REMOVE (R405): the device performs the ring entry at Consumer, which is command 11, remove. -/
  | admitRemove (part : Nat)
  /-- BIND (R405): the device performs the ring entry at Consumer, which is command 12, bind. -/
  | bind (part : Nat)
  /-- UNBIND (R405): the device performs the ring entry at Consumer, which is command 12, unbind. -/
  | unbind (part : Nat)
  /-- SET_PACKAGE_NUMBER (R405): the device performs the ring entry at Consumer, which is command 13. -/
  | setPackageNumber (part : Nat)
  /-- MIGRATE_OUT (R357): a thread that has landed on an RV64 page leaves its core. -/
  | migrateOut (gid tix : Nat)
  /-- VISITOR_TAKE (R360): a free visitor takes the head record. -/
  | visitorTake (die vis : Nat)
  /-- VISITOR_DISPLACE (R360): a visitor is displaced, with the state its code has reached. -/
  | visitorDisplace (die vis : Nat) (img : Image) (pc : Nat)
  /-- VISITOR_LAND_UBHUS (R361): a jump of its code lands on a Ubhus page. -/
  | visitorLandUbhus (die vis : Nat) (img : Image) (pc : Jump)
  /-- RETURN_HOME (R362): a returning thread re-enters its home slot. -/
  | returnHome (gid tix : Nat)
  /-- VISITOR_EXCEPTION (R364). -/
  | visitorException (die vis : Nat) (img : Image) (pc : Nat) (exc : VisExc)
  /-- SFENCE_VMA (R199): none stands for `x0`. -/
  | sfenceVma (die hart : Nat) (va asid : Option Nat)
  /-- WWIDTH_WRITE (R367). -/
  | wwidthWrite (die hart : Nat) (v : DWord)
  /-- WSTACK_WRITE (R367). -/
  | wstackWrite (die hart : Nat) (v : DWord)
  /-- WIDENED_CALL_LANDING (R367): a native hart lands on a Ubhus page. -/
  | widenedCallLanding (die hart : Nat) (img : Image) (pc cid : Nat)
  /-- WIDENED_CALL_RETURN (R367). -/
  | widenedCallReturn (die hart : Nat)
  /-- TRETHAR_ATTACH: a Trethar request (R384, R385). -/
  | tretharAttach (part : Nat) (msg : TMsg)
  /-- TRETHAR_CREATE_CONTEXT: a Trethar request (R384, R385). -/
  | tretharCreateContext (part : Nat) (msg : TMsg)
  /-- TRETHAR_CREATE_QUEUE: a Trethar request (R384, R385). -/
  | tretharCreateQueue (part : Nat) (msg : TMsg)
  /-- SUBMIT: a Trethar request (R384, R385). -/
  | submit (part : Nat) (msg : TMsg)
  /-- READ_STATUS: a Trethar request (R384, R385). -/
  | readStatus (part : Nat) (msg : TMsg)
  /-- DETACH: a Trethar request (R384, R385). -/
  | detach (part : Nat) (msg : TMsg)
  /-- DISPOSE_DISCARD: a Trethar request (R384, R385). -/
  | disposeDiscard (part : Nat) (msg : TMsg)
  /-- DISPOSE_REPLAY: a Trethar request (R384, R385). -/
  | disposeReplay (part : Nat) (msg : TMsg)
  /-- DISPOSE_READ: a Trethar request (R384, R385). -/
  | disposeRead (part : Nat) (msg : TMsg)
  /-- RECOVERY_WRITE: a Trethar request (R384, R385). -/
  | recoveryWrite (part : Nat) (msg : TMsg)
  /-- DISPOSE_REPLAY_ACK (R390): the host has acknowledged every write of a replayed entry. -/
  | disposeReplayAck (part idx : Nat)
  /-- HOLD_TIME_EXPIRE (R381). -/
  | holdTimeExpire (qid : Nat)
  /-- HOST_LINK_UP (R383, R390): training reaches L0, on the port that the supervisor named with the quarantine area. -/
  | hostLinkUp (part port area : Nat)
  /-- HOST_LINK_LOSS (R389). -/
  | hostLinkLoss (part : Nat)
  /-- HOST_SNOOP (R387): with the bytes the host writes after an invalidating snoop. -/
  | hostSnoop (part : Nat) (kind : Snoop) (pa : Nat) (bytes : List Byte)
  /-- GO_WRITEPULL (R388). -/
  | goWritepull (part : Nat) (pa : Nat)
  /-- PORT_FAIL (R391). -/
  | portFail (port : Nat)
  /-- FLIT_CRC_ERROR (R393). -/
  | flitCrcError (die port : Nat)
  /-- LANE_FAIL (R393). -/
  | laneFail (die port : Nat)
  /-- FABRIC_PORT_DOWN (R394). -/
  | fabricPortDown (die port : Nat)
  /-- FABRIC_REQUEST_ARRIVE (R395): a peer package reads, writes or performs an atomic here. -/
  | fabricRequestArrive (pkg pa n : Nat) (op : Option AtomOp) (wr : Bool) (val : Nat)
  /-- SET_PARTITION_TABLE (R399). -/
  | setPartitionTable (table : List (Nat × List Nat))
  /-- SET_REGION_TABLE (R404). -/
  | setRegionTable (die : Nat) (entries : List (Nat × Nat))
  /-- WRITE_FIRMWARE_IMAGE (R402). -/
  | writeFirmwareImage (img : List Byte)
  /-- SPDM_REQUEST (R7). -/
  | spdmRequest (req : SpdmReq)
  /-- PACKAGE_RESET (R401). -/
  | packageReset
  /-- PARTITION_HELD (R399). -/
  | partitionHeld (part : Nat)
  /-- SCRUB_COMPLETE (R399). -/
  | scrubComplete (part : Nat)
  /-- FATAL_DIE_ERROR (R400). -/
  | fatalDieError (die : Nat)
  /-- DEVICE_MARK_FAILED (R408). -/
  | deviceMarkFailed (die dev : Nat)
  /-- PATROL_SCRUB (R408). -/
  | patrolScrub (die : Nat)
  /-- CORE_FENCE (R409): with the groups whose own state was lost. -/
  | coreFence (core : Nat) (lost : List Nat)
  /-- ARBITER_TAKEOVER (R410): with the numbers that are skipped. -/
  | arbiterTakeover (die skip : Nat)
  /-- SOFT_ERROR (R411). -/
  | softError (at_ : SoftAt) (correctable : Bool)
  /-- DIRTY_EVICT (R388). -/
  | dirtyEvict (cache : CacheAt) (pa : Nat)
  /-- REPLICA_PROPAGATION (R266). -/
  | replicaPropagation (id : Nat)
  /-- WRITE_ACKNOWLEDGEMENT (R177). -/
  | writeAcknowledgement (id : Nat)
  /-- HEADLAND_ACCESS (R268). -/
  | headlandAccess (acc : HartAcc)
  /-- KERNEL_CANCEL (R217). -/
  | kernelCancel (kid : Nat)
  /-- PARTITION_RESET_REQUEST (R400). -/
  | partitionResetRequest (part : Nat)
deriving DecidableEq, Repr

end Sys2Proof
end

