-- ==== Sys2Proof/WellFormed.lean ====
section
/-!
DEFINITION. Which instructions a word can encode: the bounds of R61 and of the entries' own
tables that do not depend on the group (its `NREG`, its format slots) or on the clause
(its class, its Set fields). Those are checked where a clause is started (R68).
-/

namespace Sys2Proof

/-- Predicates p0 to p7, and no inverted "always" (Table 3-3). -/
def Guard.ok (g : Guard) : Bool := decide (g.p < 8) && !(g.neg && g.p == 0)

/-- An even register number names a pair (R61). -/
def okPair (n : Nat) : Bool := decide (n < 256) && n % 2 == 0

/-- A multiple of four names a quad (R164). -/
def okQuad (n : Nat) : Bool := decide (n < 256) && n % 4 == 0

/-- A register group of an access size: w, pair or quad (R164). -/
def okSized (sz : Size) (n : Nat) : Bool :=
  match sz with
  | .byte | .half | .word => decide (n < 256)
  | .dword => okPair n
  | .quad  => okQuad n

/-- A signed field of `n` bits holds it. -/
def okSext (n : Nat) (v : Int) : Bool :=
  decide (-(2 : Int) ^ (n - 1) ≤ v) && decide (v < (2 : Int) ^ (n - 1))

/-- An effect id that a word may name (R325): the built-ins 1 to 11 and 0x0040 up. -/
def okEffect (id : Nat) : Bool :=
  decide (0 < id) && decide (id < 65536) && !(decide (12 ≤ id) && decide (id ≤ 0x3F))

/-- The 64-bit special registers of Table 5-5. -/
def sregWide (n : Nat) : Bool :=
  n == 2 || n == 9 || n == 10 || n == 13 || n == 16 || n == 17 || n == 18 || n == 19

/-- The writable special registers of Table 5-5. -/
def sregWritable (n : Nat) : Bool :=
  n == 11 || n == 12 || n == 13 || n == 16 || n == 17

/-- A register of a wide format: a pair for FA48, a w register otherwise (Table 6-4). -/
def okFmt (f : WFmt) (n : Nat) : Bool :=
  match f with
  | .fa48 => okPair n
  | _ => decide (n < 256)

/-- A destination: a w register, or under `.u` a uniform register (R96). -/
def Src.okDst (u : Bool) : Src → Bool
  | .w n => decide (n < 256)
  | .k n => u && decide (n < 64)
  | .imm _ => false

/-- A source that may be uniform. -/
def Src.okA : Src → Bool
  | .w n => decide (n < 256)
  | .k n => decide (n < 64)
  | .imm _ => false

/-- A second source: as the first, or an unsigned value 0 to 255 where `imm` allows (Table 5-1). -/
def Src.okB (imm : Bool) : Src → Bool
  | .w n => decide (n < 256)
  | .k n => decide (n < 64)
  | .imm n => imm && decide (n < 256)

/-- A w register or an immediate. -/
def Src.okWI : Src → Bool
  | .w n => decide (n < 256)
  | .k _ => false
  | .imm n => decide (n < 256)

/-- Under `.d` a field names a pair and no uniform register (R96, R97). -/
def Src.okD : Src → Bool
  | .w n => n % 2 == 0
  | .k _ => false
  | .imm _ => true

/-- A w field whose number is even. -/
def Src.okPairW : Src → Bool
  | .w n => n % 2 == 0
  | _ => false

/-- Two-source words: `dd` says whether `.d` is allowed, `imm` whether Bimm is. -/
def R3.ok (x : R3) (dd imm : Bool) : Bool :=
  x.g.ok && x.d.okDst x.u && x.a.okA && x.b.okB imm &&
    (!x.dd || (dd && x.d.okD && x.a.okD && x.b.okD))

/-- Comparisons: the destination is a predicate. -/
def Cmp.ok (x : Cmp) (dd imm : Bool) : Bool :=
  x.g.ok && decide (x.p < 8) && x.a.okA && x.b.okB imm &&
    (!x.dd || (dd && x.a.okD && x.b.okD))

/-- One-source words. -/
def R2.ok (x : R2) (dd : Bool) : Bool :=
  x.g.ok && x.d.okDst x.u && x.a.okA && (!x.dd || (dd && x.d.okD && x.a.okD))

/-- Two sources with a rounding. -/
def R3r.ok (x : R3r) : Bool :=
  x.g.ok && x.d.okDst x.u && x.a.okA && x.b.okA

/-- Three sources; `rnd` says whether a rounding other than nearest is allowed. -/
def R4.ok (x : R4) (rnd : Bool) : Bool :=
  x.g.ok && x.d.okDst x.u && x.a.okA && x.b.okA && decide (x.c < 256) &&
    (rnd || x.rnd == .ne)

/-- Bit-field words. -/
def Bf.ok (x : Bf) : Bool :=
  x.g.ok && x.d.okDst x.u && x.a.okA && x.b.okB true && x.c.okWI

/-- Predicate combinations. -/
def P3.ok (x : P3) : Bool :=
  x.g.ok && decide (x.d < 8) && decide (x.a < 8) && decide (x.b < 8)

/-- Packed 16-bit words. -/
def H3.ok (x : H3) : Bool :=
  x.g.ok && decide (x.d < 256) && decide (x.a < 256) && decide (x.b < 256)

/-- Plain unary words. -/
def W2.ok (x : W2) : Bool :=
  x.g.ok && decide (x.d < 256) && decide (x.a < 256)

/-- Dot products: `c` names a pair (Table 6-4). -/
def Dot.ok (x : Dot) : Bool :=
  x.g.ok && decide (x.d < 256) && decide (x.a < 256) && decide (x.b < 256) && okPair x.c &&
    decide (x.sa < 8) && decide (x.sb < 8)

/-- Narrowing and widening through a slot; the position's limit depends on the slot (R133). -/
def Cv.ok (x : Cv) : Bool :=
  x.g.ok && decide (x.d < 256) && decide (x.a < 256) && decide (x.b < 256) &&
    decide (x.slot < 8) && decide (x.pos < 8)

/-- Sign extension is for sizes byte and half (Table 8-4). -/
def okSx (sx : Bool) (sz : Size) : Bool := !sx || sz == .byte || sz == .half

/-- Global loads. -/
def Ldg.ok (x : Ldg) : Bool :=
  x.g.ok && okSized x.sz x.d && okPair x.a && okSext 17 x.off && okSx x.sx x.sz && decide (x.sel < 3)

/-- Global stores. -/
def Stg.ok (x : Stg) : Bool :=
  x.g.ok && okSized x.sz x.b && okPair x.a && okSext 17 x.off

/-- Scratchpad loads. -/
def Lds.ok (x : Lds) : Bool :=
  x.g.ok && okSized x.sz x.d && decide (x.a < 256) && okSext 17 x.off && okSx x.sx x.sz &&
    decide (x.rank < 4) && decide (x.sel < 3)

/-- Scratchpad stores. -/
def Sts.ok (x : Sts) : Bool :=
  x.g.ok && okSized x.sz x.b && decide (x.a < 256) && okSext 17 x.off && decide (x.rank < 4)

/-- Operations of Table 8-7 that are admitted for words only. -/
def AtomOp.wordOnly : AtomOp → Bool
  | .addF32 | .minF32 | .maxF32 | .addBf16x2 => true
  | _ => false

/-- Sizes of Table 8-7. -/
def AtomOp.okSize (op : AtomOp) (sz : Size) : Bool :=
  match sz with
  | .word => true
  | .dword => !op.wordOnly
  | _ => false

/-- The data registers of an atomic: a pair or quad for `.cas` (R171). -/
def AtomOp.okData (op : AtomOp) (sz : Size) (b : Nat) : Bool :=
  match op, sz with
  | .cas, .dword => okQuad b
  | .cas, _ => okPair b
  | _, .dword => okPair b
  | _, _ => decide (b < 256)

/-- `atom` (`glob`) and `atoms`. -/
def Atm.ok (x : Atm) (glob : Bool) : Bool :=
  x.g.ok && x.op.okSize x.sz && okSized x.sz x.d && x.op.okData x.sz x.b &&
    (if glob then okPair x.a else decide (x.a < 256)) && okSext 12 x.off && decide (x.sel < 3)

/-- `red`: `.swap` and `.cas` are not admitted (Table 8-7). -/
def Rdg.ok (x : Rdg) : Bool :=
  x.g.ok && x.op != .swap && x.op != .cas && x.op.okSize x.sz && x.op.okData x.sz x.b &&
    okPair x.a && okSext 12 x.off

/-- Barrier selectors of Table 12-1. -/
def BarSel.ok : BarSel → Bool
  | .lv l => decide (l < 7)
  | _ => true

/-- Barrier words. -/
def Bar.ok (x : Bar) : Bool := x.g.ok && x.sel.ok && decide (x.id < 4)

/-- Tile loads and stores. -/
def Tls.ok (x : Tls) : Bool :=
  x.g.ok && decide (x.tile < 4) && okPair x.d && decide (x.a < 256) && decide (x.b < 256) &&
    decide (x.slot < 8) && decide (x.sel < 3)

/-- Factorisations (Table 18-2). -/
def Fac.ok (x : Fac) : Bool :=
  x.g.ok && decide (x.tile < 4) && decide (x.sec < 4) && okPair x.d && decide (x.a < 256) &&
    okPair x.b && decide (x.c < 256) && decide (x.sel < 3)

/-- The registers of one compact operation; the `b` of a `mov` is zero (R64). -/
def Compact.ok (c : Compact) : Bool :=
  decide (c.d < 256) && decide (c.a < 256) && decide (c.b < 256) && (c.op != .mov || c.b == 0)

/-- The operations that use the special-function unit (R64). -/
def CompactOp.sfu : CompactOp → Bool
  | .hadd2 | .hmul2 => true
  | _ => false

/-- Source registers of a compact operation. -/
def Compact.srcs (c : Compact) : List Nat := if c.op = .mov then [c.a] else [c.a, c.b]

/-- The first operation of a paired word. -/
def Paired.fst (x : Paired) (op : CompactOp) : Compact := ⟨op, x.d, x.a, x.b⟩

/-- The distinct sources of a paired word, `w0` and `w1` not counted (R64). -/
def Paired.srcs (x : Paired) (op : CompactOp) : List Nat :=
  ((((x.fst op).srcs ++ x.snd.srcs).filter (fun n => decide (2 ≤ n))).eraseDups)

/-- The rules of R64: destinations in different banks, at most three distinct sources, at most
one use of the special-function unit. -/
def Paired.ok (x : Paired) (op : CompactOp) : Bool :=
  (x.fst op).ok && x.snd.ok && x.d % 2 != x.snd.d % 2 &&
    decide ((x.srcs op).length ≤ 3) && !(op.sfu && x.snd.op.sfu)

/-- Well-formed instructions. An event is data of the schedule and always well formed. A `nop` may have a predicate: every
field of R109 is one of its operands and modifiers (log 94, DESIGN CHOICE). -/
def Instr.wf : Instr → Bool
  | .nop g => g.ok
  | .add x => x.ok true true
  | .sub x => x.ok true true
  | .mul x => x.ok false true
  | .mulh x => x.ok false false
  | .mulhu x => x.ok false false
  | .mad x => x.ok false
  | .div x => x.ok false false
  | .divu x => x.ok false false
  | .rem x => x.ok false false
  | .remu x => x.ok false false
  | .and x => x.ok true true
  | .or x => x.ok true true
  | .xor x => x.ok true true
  | .andn x => x.ok false true
  | .shl x => x.ok true true
  | .shr x => x.ok true true
  | .sra x => x.ok true true
  | .rol x => x.ok false true
  | .shladd sh x => x.ok true true && decide (sh < (if x.dd then 64 else 32))
  | .min x => x.ok true true
  | .max x => x.ok true true
  | .minu x => x.ok false true
  | .maxu x => x.ok false true
  | .abs x => x.ok false
  | .clz x => x.ok false
  | .popc x => x.ok false
  | .brev x => x.ok false
  | .bfx x => x.ok
  | .bfxu x => x.ok
  | .bfi x => x.ok
  | .sel _ sp x => x.ok false false && decide (sp < 8)
  | .cmp _ x => x.ok true true
  | .set _ x => x.ok false true
  | .mov x => x.ok true
  | .movi g kind d imm => g.ok && okSext 33 imm && (match kind with | 0 => decide (d < 256) | 1 => okPair d | 2 => decide (d < 64) | _ => false)
  | .movx g d val => g.ok && okPair d && decide (val < 2 ^ 64)
  | .pand x => x.ok
  | .por x => x.ok
  | .pxor x => x.ok
  | .smov g u d sreg => g.ok && d.okDst u && decide (sreg < 22) && (if sregWide sreg then d.okPairW else true)
  | .swr g sreg a => g.ok && sregWritable sreg && (if sregWide sreg then okPair a else decide (a < 256))
  | .rand g d => g.ok && decide (d < 256)
  | .widf g u n d => g.ok && d.okDst u && decide (n < 6)
  | .addPaired x => x.ok .add
  | .subPaired x => x.ok .sub
  | .andPaired x => x.ok .and
  | .orPaired x => x.ok .or
  | .xorPaired x => x.ok .xor
  | .shlPaired x => x.ok .shl
  | .shrPaired x => x.ok .shr
  | .movPaired x => x.ok .mov
  | .minPaired x => x.ok .min
  | .maxPaired x => x.ok .max
  | .faddPaired x => x.ok .fadd
  | .fmulPaired x => x.ok .fmul
  | .fminPaired x => x.ok .fmin
  | .fmaxPaired x => x.ok .fmax
  | .hadd2Paired x => x.ok .hadd2
  | .hmul2Paired x => x.ok .hmul2
  | .shfl g _ d a b c => g.ok && decide (d < 256) && decide (a < 256) && b.okWI && decide (c < 256)
  | .vote g mode _ d a c => g.ok && decide (d < (if mode = .mask then 256 else 8)) && decide (a < 8) && decide (c < 256)
  | .redux g _ d a c => g.ok && decide (d < 256) && decide (a < 256) && decide (c < 256)
  | .matchL g _ d a c => g.ok && decide (d < 256) && decide (a < 256) && decide (c < 256)
  | .elect g d c => g.ok && decide (d < 8) && decide (c < 256)
  | .lsync g d c => g.ok && decide (d < 256) && decide (c < 256)
  | .bra g target => g.ok && okSext 33 target
  | .jmp g a => g.ok && okPair a
  | .call g target => g.ok && okSext 33 target
  | .callr g d a => g.ok && okPair d && okPair a
  | .ret g a => g.ok && okPair a
  | .rjarm g j a => g.ok && decide (j < 16) && decide (a < 256)
  | .rjwait g j => g.ok && decide (j < 16)
  | .exit g => g.ok
  | .brk g n => g.ok && decide (n < 256)
  | .yield g => g.ok
  | .fadd x => x.ok
  | .fsub x => x.ok false false
  | .fmul x => x.ok
  | .ffma x => x.ok true
  | .fmin x => x.ok false false
  | .fmax x => x.ok false false
  | .fcmp _ x => x.ok false false
  | .fclass x => x.ok false
  | .frnd _ x => x.ok false
  | .fcvt g _ dst src d a => g.ok && decide (dst ≠ src) && okFmt dst d && okFmt src a
  | .icvt g _ dst d a => g.ok && okFmt dst d && decide (a < 256)
  | .fcvti g _ _ src d a => g.ok && decide (d < 256) && okFmt src a
  | .hadd2 x => x.ok
  | .hmul2 x => x.ok
  | .hfma2 c x => x.ok && decide (c < 256)
  | .hmin2 x => x.ok
  | .hmax2 x => x.ok
  | .rcp x => x.ok
  | .rsq x => x.ok
  | .sqrt x => x.ok
  | .exp2 x => x.ok
  | .log2 x => x.ok
  | .fdiv x => x.ok false false
  | .feval ft x => x.ok && decide (ft < 4)
  | .ftld g ft a fl => g.ok && decide (ft < 4) && decide (a < 256) && decide (fl < 3)
  | .dot4 x => x.ok
  | .dot8 x => x.ok
  | .ncvt x => x.ok
  | .nunp x => x.ok
  | .ld x => x.ok
  | .st x => x.ok
  | .lds x => x.ok && x.rank == 0 && x.sel == 0
  | .sts x => x.ok && x.rank == 0
  | .ldx x => x.ok
  | .stx x => x.ok
  | .atom x => x.ok true
  | .red x => x.ok
  | .atoms x => x.ok false && x.sc == .core
  | .fence g _ _ => g.ok
  | .acqr g a => g.ok && decide (a < 256)
  | .waita g global d a b => g.ok && decide (d < 256) && (if global then okPair a else decide (a < 256)) && decide (b < 256)
  | .cpy g d a fl => g.ok && okPair d && decide (a < 256) && decide (fl < 3)
  | .tlwait g _ a => g.ok && okPair a
  | .tlread g _ d => g.ok && okPair d
  | .pref g sc a off => g.ok && (sc == .core || sc == .cl || sc == .die) && okPair a && okSext 17 off
  | .chend g => g.ok
  | .chstat g _ d => g.ok && okPair d
  | .bar x => x.ok && x.r == 0
  | .barv x => x.ok && decide (x.r < 256)
  | .barw x => x.ok && decide (x.r < 256)
  | .barst x => x.ok && okPair x.r
  | .tzero g tile _ d => g.ok && decide (tile < 4) && okPair d
  | .tld x => x.ok
  | .tst x => x.ok
  | .tmma g d a fl => g.ok && okPair d && decide (a < 256) && decide (fl < 3)
  | .tdadd g tx ty d a fl => g.ok && decide (tx < 4) && decide (ty < 4) && okPair d && okPair a && decide (fl < 3)
  | .twait g tile d a => g.ok && decide (tile < 4) && decide (d < 256) && decide (a < 256)
  | .tcode g d a fl => g.ok && okPair d && decide (a < 256) && decide (fl < 3)
  | .tlu x => x.ok && x.c == 0
  | .tchol x => x.ok && x.c == 0 && x.sec == 0
  | .tqr x => x.ok
  | .ttrsm _ _ _ x => x.ok
  | .pvap g tile pv _ d fl => g.ok && decide (tile < 4) && decide (pv < 4) && okPair d && decide (fl < 3)
  | .tstat g fl tile d => g.ok && decide (tile < 4) && (fl == .tile || tile == 0) && okPair d
  | .handle g id d off entry => g.ok && okEffect id && okPair d && okSext 17 off && decide (entry < 2 ^ 64)
  | .endh g => g.ok
  | .perform g _ id => g.ok && okEffect id
  | .resume g a => g.ok && decide (a < 256)
  | .drop g a => g.ok && decide (a < 256)
  | .hret g => g.ok
  | .hstat g fl d a => g.ok && decide (d < 256) && decide (a < 256) && (fl == .tok || a == 0)
  | .svc g n => g.ok && decide (n < 65536)
  | .launch g d a b => g.ok && okPair d && okPair a && decide (b < 256)
  | .sleep g _ a => g.ok && okPair a
  | .clauseIssue _ _ _ => true
  | .ftldFlip _ _ => true
  | .loadDataArrive _ _ _ => true
  | .stxPerform _ => true
  | .stxAck _ => true
  | .waitaWake _ _ => true
  | .waitaRepoll _ _ => true
  | .copyPiece _ => true
  | .copyComplete _ => true
  | .escapingReissue _ _ => true
  | .brokenStopTimeout _ _ => true
  | .tdaddArrival _ _ _ => true
  | .tdaddAck _ _ => true
  | .tileCommandComplete _ _ _ => true
  | .factorisationStep _ _ _ => true
  | .builtinEffectDelivery _ _ => true
  | .sleepWake _ _ => true
  | .chunkClose _ => true
  | .chunkTimerExpire _ => true
  | .signatureParityError _ _ => true
  | .tidemarkGrant _ => true
  | .runCountLimit _ => true
  | .soloGrant _ => true
  | .rejoinCycleDetect _ _ => true
  | .ageingThreshold _ _ => true
  | .groupPlace _ _ _ => true
  | .groupExit _ => true
  | .kernelClose _ => true
  | .stopRequest _ => true
  | .drainLimitExpire _ => true
  | .groupSave _ => true
  | .groupRestore _ _ => true
  | .coreGiveUp _ => true
  | .preemptTrigger _ _ => true
  | .kernelSuspend _ => true
  | .thermalMove _ => true
  | .thermalTrip _ => true
  | .clockSettingChange _ _ => true
  | .supplyDroop _ _ => true
  | .faultQueueConsume _ _ => true
  | .commandRingProduce _ _ => true
  | .createContext _ => true
  | .destroyContext _ => true
  | .stopMode _ => true
  | .resumeThreadContinue _ => true
  | .resumeThreadRetry _ => true
  | .resumeThreadAbandon _ => true
  | .resumeThreadValue _ => true
  | .saveGroup _ => true
  | .serviceReply _ => true
  | .createQueue _ => true
  | .quiesce _ => true
  | .reopen _ => true
  | .destroyQueue _ => true
  | .queueStatus _ => true
  | .admitAdd _ => true
  | .admitRemove _ => true
  | .bind _ => true
  | .unbind _ => true
  | .setPackageNumber _ => true
  | .migrateOut _ _ => true
  | .visitorTake _ _ => true
  | .visitorDisplace _ _ _ _ => true
  | .visitorLandUbhus _ _ _ _ => true
  | .returnHome _ _ => true
  | .visitorException _ _ _ _ _ => true
  | .sfenceVma _ _ _ _ => true
  | .wwidthWrite _ _ _ => true
  | .wstackWrite _ _ _ => true
  | .widenedCallLanding _ _ _ _ _ => true
  | .widenedCallReturn _ _ => true
  | .tretharAttach _ _ => true
  | .tretharCreateContext _ _ => true
  | .tretharCreateQueue _ _ => true
  | .submit _ _ => true
  | .readStatus _ _ => true
  | .detach _ _ => true
  | .disposeDiscard _ _ => true
  | .disposeReplay _ _ => true
  | .disposeRead _ _ => true
  | .recoveryWrite _ _ => true
  | .disposeReplayAck _ _ => true
  | .holdTimeExpire _ => true
  | .hostLinkUp _ _ _ => true
  | .hostLinkLoss _ => true
  | .hostSnoop _ _ _ _ => true
  | .goWritepull _ _ => true
  | .portFail _ => true
  | .flitCrcError _ _ => true
  | .laneFail _ _ => true
  | .fabricPortDown _ _ => true
  | .fabricRequestArrive _ _ _ _ _ _ => true
  | .setPartitionTable _ => true
  | .setRegionTable _ _ => true
  | .writeFirmwareImage _ => true
  | .spdmRequest _ => true
  | .packageReset => true
  | .partitionHeld _ => true
  | .scrubComplete _ => true
  | .fatalDieError _ => true
  | .deviceMarkFailed _ _ => true
  | .patrolScrub _ => true
  | .coreFence _ _ => true
  | .arbiterTakeover _ _ => true
  | .softError _ _ => true
  | .dirtyEvict _ _ => true
  | .replicaPropagation _ => true
  | .writeAcknowledgement _ => true
  | .headlandAccess _ => true
  | .kernelCancel _ => true
  | .partitionResetRequest _ => true

end Sys2Proof
end

