-- ==== Sys2Proof/Decode.lean ====
section
/-!
DEFINITION. From words to instructions and back, from Tables 3-3 to 3-9 and the entries' own
field tables. A word is accepted only when the instruction read from it is well formed and
encodes to that very word, so a field an entry does not use must be zero (R61).
-/

namespace Sys2Proof

/-- `len` bits of `w` from bit `lo`. -/
def bits (w lo len : Nat) : Nat := w / 2 ^ lo % 2 ^ len

/-- Bit `i` of `w`. -/
def bit (w i : Nat) : Bool := w / 2 ^ i % 2 == 1

/-- The value of an `n`-bit two's complement field. -/
def sext (n v : Nat) : Int :=
  if v % 2 ^ n < 2 ^ (n - 1) then (v % 2 ^ n : Nat) else (v % 2 ^ n : Nat) - (2 ^ n : Nat)

/-- The `n`-bit field of a signed value. -/
def unsext (n : Nat) (v : Int) : Nat := (v % (2 ^ n : Nat)).toNat

/-- The guard in bits 52:49. -/
def guardOf (w : Nat) : Guard := ⟨bit w 52, bits w 49 3⟩

/-- Bits 52:49 of a guard, in place. -/
def Guard.word (g : Guard) : Nat := 2 ^ 49 * g.p + 2 ^ 52 * g.neg.toNat

/-- The fields of layout R (Tables 3-3 to 3-5). -/
structure RF where
  guard : Guard
  op   : Nat
  d    : Nat
  a    : Nat
  b    : Nat
  c    : Nat
  u    : Bool
  dk   : Bool
  ak   : Bool
  bk   : Bool
  dd   : Bool
  rnd  : Nat
  spec : Nat
  sel  : Nat

/-- A word of layout R with no field set. -/
def RF.zero (g : Guard) (op : Nat) : RF :=
  ⟨g, op, 0, 0, 0, 0, false, false, false, false, false, 0, 0, 0⟩

/-- The word of layout R. -/
def RF.word (f : RF) : Nat :=
  f.sel + 2 ^ 2 * f.spec + 2 ^ 10 * f.rnd + 2 ^ 12 * f.dd.toNat + 2 ^ 13 * f.bk.toNat +
    2 ^ 14 * f.ak.toNat + 2 ^ 15 * f.dk.toNat + 2 ^ 16 * f.u.toNat + 2 ^ 17 * f.c +
    2 ^ 25 * f.b + 2 ^ 33 * f.a + 2 ^ 41 * f.d + f.guard.word + 2 ^ 53 * f.op

/-- The fields of a word of layout R. -/
def RF.ofWord (w : Nat) : RF :=
  ⟨guardOf w, bits w 53 10, bits w 41 8, bits w 33 8, bits w 25 8, bits w 17 8, bit w 16, bit w 15,
    bit w 14, bit w 13, bit w 12, bits w 10 2, bits w 2 8, bits w 0 2⟩

/-- The fields of layouts I and B. -/
structure IF where
  g   : Guard
  op  : Nat
  d   : Nat
  a   : Nat
  imm : Nat

/-- The word of layouts I and B. -/
def IF.word (f : IF) : Nat :=
  f.imm + 2 ^ 33 * f.a + 2 ^ 41 * f.d + f.g.word + 2 ^ 53 * f.op

/-- The fields of a word of layout I or B. -/
def IF.ofWord (w : Nat) : IF := ⟨guardOf w, bits w 53 10, bits w 41 8, bits w 33 8, bits w 0 33⟩

/-- The fields of layout E. -/
structure EF where
  g    : Guard
  op   : Nat
  d    : Nat
  a    : Nat
  id   : Nat
  mods : Nat

/-- The word of layout E. -/
def EF.word (f : EF) : Nat :=
  f.mods + 2 ^ 17 * f.id + 2 ^ 33 * f.a + 2 ^ 41 * f.d + f.g.word + 2 ^ 53 * f.op

/-- The fields of a word of layout E. -/
def EF.ofWord (w : Nat) : EF :=
  ⟨guardOf w, bits w 53 10, bits w 41 8, bits w 33 8, bits w 17 16, bits w 0 17⟩

/-- The fields of layout M (Tables 3-4, 3-6). -/
structure MF where
  g     : Guard
  op    : Nat
  d     : Nat
  a     : Nat
  b     : Nat
  scope : Nat
  size  : Nat
  sel   : Nat
  off   : Nat

/-- The word of layout M. -/
def MF.word (f : MF) : Nat :=
  f.off + 2 ^ 17 * f.sel + 2 ^ 19 * f.size + 2 ^ 22 * f.scope + 2 ^ 25 * f.b + 2 ^ 33 * f.a +
    2 ^ 41 * f.d + f.g.word + 2 ^ 53 * f.op

/-- The fields of a word of layout M. -/
def MF.ofWord (w : Nat) : MF :=
  ⟨guardOf w, bits w 53 10, bits w 41 8, bits w 33 8, bits w 25 8, bits w 22 3, bits w 19 3,
    bits w 17 2, bits w 0 17⟩

/-! Codes of the enumerated fields. -/

/-- Code of a `Rnd`. -/
def Rnd.code : Rnd → Nat
  | .ne => 0
  | .rz => 1
  | .rp => 2
  | .rm => 3

/-- `Rnd` of a two-bit code. -/
def Rnd.ofCode : Nat → Rnd
  | 0 => .ne
  | 1 => .rz
  | 2 => .rp
  | _ => .rm

/-- Code of a `Cond`. -/
def Cond.code : Cond → Nat
  | .eq => 0
  | .ne => 1
  | .lt => 2
  | .le => 3
  | .gt => 4
  | .ge => 5
  | .ltu => 6
  | .leu => 7
  | .gtu => 8
  | .geu => 9

/-- `Cond` of a code. -/
def Cond.ofCode : Nat → Option Cond
  | 0 => Option.some .eq
  | 1 => Option.some .ne
  | 2 => Option.some .lt
  | 3 => Option.some .le
  | 4 => Option.some .gt
  | 5 => Option.some .ge
  | 6 => Option.some .ltu
  | 7 => Option.some .leu
  | 8 => Option.some .gtu
  | 9 => Option.some .geu
  | _ => none

/-- Code of a `FCond`. -/
def FCond.code : FCond → Nat
  | .eq => 0
  | .ne => 1
  | .lt => 2
  | .le => 3
  | .gt => 4
  | .ge => 5
  | .un => 6
  | .ord => 7

/-- `FCond` of a code. -/
def FCond.ofCode : Nat → Option FCond
  | 0 => Option.some .eq
  | 1 => Option.some .ne
  | 2 => Option.some .lt
  | 3 => Option.some .le
  | 4 => Option.some .gt
  | 5 => Option.some .ge
  | 6 => Option.some .un
  | 7 => Option.some .ord
  | _ => none

/-- Code of a `FrMode`. -/
def FrMode.code : FrMode → Nat
  | .even => 0
  | .trunc => 1
  | .ceil => 2
  | .floor => 3
  | .away => 4

/-- `FrMode` of a code. -/
def FrMode.ofCode : Nat → Option FrMode
  | 0 => Option.some .even
  | 1 => Option.some .trunc
  | 2 => Option.some .ceil
  | 3 => Option.some .floor
  | 4 => Option.some .away
  | _ => none

/-- Code of a `WFmt`. -/
def WFmt.code : WFmt → Nat
  | .fp32 => 0
  | .fp16 => 1
  | .bf16 => 2
  | .fa48 => 3

/-- `WFmt` of a two-bit code. -/
def WFmt.ofCode : Nat → WFmt
  | 0 => .fp32
  | 1 => .fp16
  | 2 => .bf16
  | _ => .fa48

/-- Code of a `ShflMode`. -/
def ShflMode.code : ShflMode → Nat
  | .atLane => 0
  | .rise => 1
  | .fall => 2
  | .swap => 3

/-- `ShflMode` of a code. -/
def ShflMode.ofCode : Nat → Option ShflMode
  | 0 => Option.some .atLane
  | 1 => Option.some .rise
  | 2 => Option.some .fall
  | 3 => Option.some .swap
  | _ => none

/-- Code of a `VoteMode`. -/
def VoteMode.code : VoteMode → Nat
  | .every => 0
  | .some => 1
  | .agree => 2
  | .mask => 3

/-- `VoteMode` of a code. -/
def VoteMode.ofCode : Nat → Option VoteMode
  | 0 => Option.some .every
  | 1 => Option.some .some
  | 2 => Option.some .agree
  | 3 => Option.some .mask
  | _ => none

/-- Code of a `RedOp`. -/
def RedOp.code : RedOp → Nat
  | .add => 0
  | .min => 1
  | .max => 2
  | .minu => 3
  | .maxu => 4
  | .and => 5
  | .or => 6
  | .xor => 7

/-- `RedOp` of a code. -/
def RedOp.ofCode : Nat → Option RedOp
  | 0 => Option.some .add
  | 1 => Option.some .min
  | 2 => Option.some .max
  | 3 => Option.some .minu
  | 4 => Option.some .maxu
  | 5 => Option.some .and
  | 6 => Option.some .or
  | 7 => Option.some .xor
  | _ => none

/-- Code of a `AtomOp`. -/
def AtomOp.code : AtomOp → Nat
  | .swap => 0
  | .cas => 1
  | .add => 2
  | .and => 3
  | .or => 4
  | .xor => 5
  | .min => 6
  | .max => 7
  | .minu => 8
  | .maxu => 9
  | .addF32 => 10
  | .minF32 => 11
  | .maxF32 => 12
  | .addBf16x2 => 13

/-- `AtomOp` of a code. -/
def AtomOp.ofCode : Nat → Option AtomOp
  | 0 => Option.some .swap
  | 1 => Option.some .cas
  | 2 => Option.some .add
  | 3 => Option.some .and
  | 4 => Option.some .or
  | 5 => Option.some .xor
  | 6 => Option.some .min
  | 7 => Option.some .max
  | 8 => Option.some .minu
  | 9 => Option.some .maxu
  | 10 => Option.some .addF32
  | 11 => Option.some .minF32
  | 12 => Option.some .maxF32
  | 13 => Option.some .addBf16x2
  | _ => none

/-- Code of a `Scope`. -/
def Scope.code : Scope → Nat
  | .core => 0
  | .cl => 1
  | .die => 2
  | .pkg => 3
  | .sys => 4

/-- `Scope` of a code. -/
def Scope.ofCode : Nat → Option Scope
  | 0 => Option.some .core
  | 1 => Option.some .cl
  | 2 => Option.some .die
  | 3 => Option.some .pkg
  | 4 => Option.some .sys
  | _ => none

/-- Code of a `Size`. -/
def Size.code : Size → Nat
  | .byte => 0
  | .half => 1
  | .word => 2
  | .dword => 3
  | .quad => 4

/-- `Size` of a code. -/
def Size.ofCode : Nat → Option Size
  | 0 => Option.some .byte
  | 1 => Option.some .half
  | 2 => Option.some .word
  | 3 => Option.some .dword
  | 4 => Option.some .quad
  | _ => none

/-- Code of a `TlSel`. -/
def TlSel.code : TlSel → Nat
  | .copy => 0
  | .tile => 1
  | .fail => 2
  | .status => 3

/-- `TlSel` of a code. -/
def TlSel.ofCode : Nat → Option TlSel
  | 0 => Option.some .copy
  | 1 => Option.some .tile
  | 2 => Option.some .fail
  | 3 => Option.some .status
  | _ => none

/-- Code of a `ChSel`. -/
def ChSel.code : ChSel → Nat
  | .mark => 0
  | .stat => 1
  | .sq => 2

/-- `ChSel` of a code. -/
def ChSel.ofCode : Nat → Option ChSel
  | 0 => Option.some .mark
  | 1 => Option.some .stat
  | 2 => Option.some .sq
  | _ => none

/-- Code of a `TsSel`. -/
def TsSel.code : TsSel → Nat
  | .tile => 0
  | .fail => 1
  | .status => 2

/-- `TsSel` of a code. -/
def TsSel.ofCode : Nat → Option TsSel
  | 0 => Option.some .tile
  | 1 => Option.some .fail
  | 2 => Option.some .status
  | _ => none

/-- Code of a `HsSel`. -/
def HsSel.code : HsSel → Nat
  | .depth => 0
  | .gen => 1
  | .tok => 2

/-- `HsSel` of a code. -/
def HsSel.ofCode : Nat → Option HsSel
  | 0 => Option.some .depth
  | 1 => Option.some .gen
  | 2 => Option.some .tok
  | _ => none

/-- Code of a `CompactOp`. -/
def CompactOp.code : CompactOp → Nat
  | .add => 0
  | .sub => 1
  | .and => 2
  | .or => 3
  | .xor => 4
  | .shl => 5
  | .shr => 6
  | .mov => 7
  | .min => 8
  | .max => 9
  | .fadd => 10
  | .fmul => 11
  | .fmin => 12
  | .fmax => 13
  | .hadd2 => 14
  | .hmul2 => 15

/-- `CompactOp` of a code. -/
def CompactOp.ofCode : Nat → Option CompactOp
  | 0 => Option.some .add
  | 1 => Option.some .sub
  | 2 => Option.some .and
  | 3 => Option.some .or
  | 4 => Option.some .xor
  | 5 => Option.some .shl
  | 6 => Option.some .shr
  | 7 => Option.some .mov
  | 8 => Option.some .min
  | 9 => Option.some .max
  | 10 => Option.some .fadd
  | 11 => Option.some .fmul
  | 12 => Option.some .fmin
  | 13 => Option.some .fmax
  | 14 => Option.some .hadd2
  | 15 => Option.some .hmul2
  | _ => none

/-- Code of a fence kind (Table 8-5). -/
def FenceKind.code : FenceKind → Nat
  | .rel => 1
  | .acq => 2
  | .ar => 3

/-- Fence kind of a code. -/
def FenceKind.ofCode : Nat → Option FenceKind
  | 1 => some .rel
  | 2 => some .acq
  | 3 => some .ar
  | _ => none

/-- Code of a barrier selector (Table 12-1). -/
def BarSel.code : BarSel → Nat
  | .lv l => l
  | .cl => 8
  | .die => 9
  | .pkg => 10
  | .grp => 11

/-- Barrier selector of a code. -/
def BarSel.ofCode (n : Nat) : Option BarSel :=
  if n < 7 then some (.lv n)
  else if n = 8 then some .cl
  else if n = 9 then some .die
  else if n = 10 then some .pkg
  else if n = 11 then some .grp
  else none

/-! Register fields with their k bit or immediate bit. -/

/-- The number in the register field. -/
def Src.num : Src → Nat
  | .w n | .k n | .imm n => n

/-- The k bit. -/
def Src.isK : Src → Bool
  | .k _ => true
  | _ => false

/-- The immediate bit. -/
def Src.isImm : Src → Bool
  | .imm _ => true
  | _ => false

/-- A field from its number, k bit and immediate bit. -/
def Src.mk (n : Nat) (k imm : Bool) : Src := if imm then .imm n else if k then .k n else .w n

/-- Field d. -/
def RF.dSrc (f : RF) : Src := Src.mk f.d f.dk false

/-- Field a. -/
def RF.aSrc (f : RF) : Src := Src.mk f.a f.ak false

/-- Field b, with Bimm (word bit 9). -/
def RF.bSrc (f : RF) : Src := Src.mk f.b f.bk (bit f.spec 7)

/-! The operand shapes of layout R. -/

/-- Word of a two-source shape; `extra` is the part of the specific field its entry adds. -/
def R3.rf (x : R3) (op extra : Nat) : RF :=
  { RF.zero x.g op with
    u := x.u, dd := x.dd, d := x.d.num, dk := x.d.isK, a := x.a.num, ak := x.a.isK,
    b := x.b.num, bk := x.b.isK, spec := extra + 128 * x.b.isImm.toNat }

/-- Two-source shape of a word. -/
def R3.ofRF (f : RF) : R3 := ⟨f.guard, f.u, f.dd, f.dSrc, f.aSrc, f.bSrc⟩

/-- Word of a comparison. -/
def Cmp.rf (x : Cmp) (op extra : Nat) : RF :=
  { RF.zero x.g op with
    u := x.u, dd := x.dd, d := x.p, a := x.a.num, ak := x.a.isK,
    b := x.b.num, bk := x.b.isK, spec := extra + 128 * x.b.isImm.toNat }

/-- Comparison shape of a word. -/
def Cmp.ofRF (f : RF) : Cmp := ⟨f.guard, f.u, f.dd, f.d, f.aSrc, f.bSrc⟩

/-- Word of a one-source shape. -/
def R2.rf (x : R2) (op extra : Nat) : RF :=
  { RF.zero x.g op with
    u := x.u, dd := x.dd, d := x.d.num, dk := x.d.isK, a := x.a.num, ak := x.a.isK, spec := extra }

/-- One-source shape of a word. -/
def R2.ofRF (f : RF) : R2 := ⟨f.guard, f.u, f.dd, f.dSrc, f.aSrc⟩

/-- Word of a two-source shape with rounding. -/
def R3r.rf (x : R3r) (op : Nat) : RF :=
  { RF.zero x.g op with
    u := x.u, rnd := x.rnd.code, d := x.d.num, dk := x.d.isK, a := x.a.num, ak := x.a.isK,
    b := x.b.num, bk := x.b.isK }

/-- Two-source shape with rounding of a word. -/
def R3r.ofRF (f : RF) : R3r := ⟨f.guard, f.u, Rnd.ofCode f.rnd, f.dSrc, f.aSrc, Src.mk f.b f.bk false⟩

/-- Word of a three-source shape. -/
def R4.rf (x : R4) (op : Nat) : RF :=
  { RF.zero x.g op with
    u := x.u, rnd := x.rnd.code, d := x.d.num, dk := x.d.isK, a := x.a.num, ak := x.a.isK,
    b := x.b.num, bk := x.b.isK, c := x.c }

/-- Three-source shape of a word. -/
def R4.ofRF (f : RF) : R4 :=
  ⟨f.guard, f.u, Rnd.ofCode f.rnd, f.dSrc, f.aSrc, Src.mk f.b f.bk false, f.c⟩

/-- Word of a bit-field shape: Cimm is word bit 8. -/
def Bf.rf (x : Bf) (op : Nat) : RF :=
  { RF.zero x.g op with
    u := x.u, d := x.d.num, dk := x.d.isK, a := x.a.num, ak := x.a.isK, b := x.b.num, bk := x.b.isK,
    c := x.c.num, spec := 64 * x.c.isImm.toNat + 128 * x.b.isImm.toNat }

/-- Bit-field shape of a word. -/
def Bf.ofRF (f : RF) : Bf :=
  ⟨f.guard, f.u, f.dSrc, f.aSrc, f.bSrc, Src.mk f.c false (bit f.spec 6)⟩

/-- Word of a predicate combination: Na and Nb are word bits 2 and 3. -/
def P3.rf (x : P3) (op : Nat) : RF :=
  { RF.zero x.g op with d := x.d, a := x.a, b := x.b, spec := x.na.toNat + 2 * x.nb.toNat }

/-- Predicate combination of a word. -/
def P3.ofRF (f : RF) : P3 := ⟨f.guard, bit f.spec 0, bit f.spec 1, f.d, f.a, f.b⟩

/-- Word of a packed 16-bit shape: Bh is word bit 2. -/
def H3.rf (x : H3) (op c : Nat) : RF :=
  { RF.zero x.g op with d := x.d, a := x.a, b := x.b, c := c, spec := x.bf.toNat }

/-- Packed 16-bit shape of a word. -/
def H3.ofRF (f : RF) : H3 := ⟨f.guard, bit f.spec 0, f.d, f.a, f.b⟩

/-- Word of a plain unary shape. -/
def W2.rf (x : W2) (op : Nat) : RF := { RF.zero x.g op with d := x.d, a := x.a }

/-- Plain unary shape of a word. -/
def W2.ofRF (f : RF) : W2 := ⟨f.guard, f.d, f.a⟩

/-- Word of a dot product: SA and SB (Table 6-3). -/
def Dot.rf (x : Dot) (op : Nat) : RF :=
  { RF.zero x.g op with d := x.d, a := x.a, b := x.b, c := x.c, spec := x.sa + 8 * x.sb }

/-- Dot product of a word. -/
def Dot.ofRF (f : RF) : Dot := ⟨f.guard, f.d, f.a, f.b, f.c, f.spec % 8, f.spec / 8 % 8⟩

/-- Word of `ncvt` and `nunp`: Slot and Pos (Table 6-3). -/
def Cv.rf (x : Cv) (op : Nat) : RF :=
  { RF.zero x.g op with d := x.d, a := x.a, b := x.b, spec := x.slot + 8 * x.pos }

/-- `ncvt` or `nunp` of a word. -/
def Cv.ofRF (f : RF) : Cv := ⟨f.guard, f.d, f.a, f.b, f.spec % 8, f.spec / 8 % 8⟩

/-- Word of a barrier: Sel in bits 5:2, the id in bits 7:6 (R236). -/
def Bar.rf (x : Bar) (op d a : Nat) : RF :=
  { RF.zero x.g op with d := d, a := a, spec := x.sel.code + 16 * x.id }

/-- Barrier of a word, with the register its form uses. -/
def Bar.ofRF (f : RF) (r : Nat) : Option Bar :=
  (BarSel.ofCode (f.spec % 16)).map (fun s => ⟨f.guard, s, f.spec / 16 % 4, r⟩)

/-- Word of a tile load or store: Tile and Slot (Table 17-2). -/
def Tls.rf (x : Tls) (op : Nat) : RF :=
  { RF.zero x.g op with
    d := x.d, a := x.a, b := x.b, spec := x.tile + 16 * x.slot, sel := x.sel }

/-- Tile load or store of a word. -/
def Tls.ofRF (f : RF) : Tls := ⟨f.guard, f.spec % 4, f.d, f.a, f.b, f.spec / 16 % 8, f.sel⟩

/-- Word of a factorisation (Table 18-1); `extra` holds the modes of `ttrsm`. -/
def Fac.rf (x : Fac) (op extra : Nat) : RF :=
  { RF.zero x.g op with
    d := x.d, a := x.a, b := x.b, c := x.c, spec := x.tile + 4 * x.sec + extra, sel := x.sel }

/-- Factorisation of a word. -/
def Fac.ofRF (f : RF) : Fac :=
  ⟨f.guard, f.spec % 4, f.spec / 4 % 4, f.d, f.a, f.b, f.c, f.sel⟩

/-! The operand shapes of layout M. -/

/-- The free field of a load (Table 8-4). -/
def ordBits (poll ord sx : Bool) (rank : Nat) : Nat :=
  rank + 32 * sx.toNat + 64 * ord.toNat + 128 * poll.toNat

/-- Fields of `ld`. -/
def Ldg.mf (x : Ldg) : MF :=
  ⟨x.g, 0x1C0, x.d, x.a, ordBits x.poll x.acq x.sx 0, x.sc.code, x.sz.code, x.sel, unsext 17 x.off⟩

/-- `ld` of its fields. -/
def Ldg.ofMF (h : MF) : Option Ldg := do
  let sz ← Size.ofCode h.size
  let sc ← Scope.ofCode h.scope
  pure ⟨h.g, h.d, h.a, sext 17 h.off, sz, sc, bit h.b 6, bit h.b 7, bit h.b 5, h.sel⟩

/-- Fields of `st`. -/
def Stg.mf (x : Stg) : MF :=
  ⟨x.g, 0x1C1, ordBits false x.rel false 0, x.a, x.b, x.sc.code, x.sz.code, 0, unsext 17 x.off⟩

/-- `st` of its fields. -/
def Stg.ofMF (h : MF) : Option Stg := do
  let sz ← Size.ofCode h.size
  let sc ← Scope.ofCode h.scope
  pure ⟨h.g, h.a, h.b, sext 17 h.off, sz, sc, bit h.d 6⟩

/-- Fields of `lds` and `ldx`. -/
def Lds.mf (x : Lds) (op : Nat) : MF :=
  ⟨x.g, op, x.d, x.a, ordBits false false x.sx x.rank, 0, x.sz.code, x.sel, unsext 17 x.off⟩

/-- `lds` or `ldx` of its fields. -/
def Lds.ofMF (h : MF) : Option Lds := do
  let sz ← Size.ofCode h.size
  pure ⟨h.g, h.d, h.a, sext 17 h.off, sz, bit h.b 5, h.b % 4, h.sel⟩

/-- Fields of `sts` and `stx`. -/
def Sts.mf (x : Sts) (op : Nat) : MF :=
  ⟨x.g, op, ordBits false false false x.rank, x.a, x.b, 0, x.sz.code, 0, unsext 17 x.off⟩

/-- `sts` or `stx` of its fields. -/
def Sts.ofMF (h : MF) : Option Sts := do
  let sz ← Size.ofCode h.size
  pure ⟨h.g, h.a, h.b, sext 17 h.off, sz, h.d % 4⟩

/-- Fields of `atom` and `atoms`: the operation in bits 16:12, the offset in 11:0. -/
def Atm.mf (x : Atm) (op : Nat) : MF :=
  ⟨x.g, op, x.d, x.a, x.b, x.sc.code, x.sz.code, x.sel, unsext 12 x.off + 4096 * x.op.code⟩

/-- `atom` or `atoms` of its fields. -/
def Atm.ofMF (h : MF) : Option Atm := do
  let sz ← Size.ofCode h.size
  let sc ← Scope.ofCode h.scope
  let op ← AtomOp.ofCode (h.off / 4096)
  pure ⟨h.g, h.d, h.a, h.b, sext 12 h.off, sz, sc, op, h.sel⟩

/-- Fields of `red`: Ord in the free field d. -/
def Rdg.mf (x : Rdg) : MF :=
  ⟨x.g, 0x1C7, ordBits false x.rel false 0, x.a, x.b, x.sc.code, x.sz.code, 0,
    unsext 12 x.off + 4096 * x.op.code⟩

/-- `red` of its fields. -/
def Rdg.ofMF (h : MF) : Option Rdg := do
  let sz ← Size.ofCode h.size
  let sc ← Scope.ofCode h.scope
  let op ← AtomOp.ofCode (h.off / 4096)
  pure ⟨h.g, h.a, h.b, sext 12 h.off, sz, sc, op, bit h.d 6⟩

/-! Paired words (Table 3-7). -/

/-- The word of a pair of compact operations. -/
def Paired.word (x : Paired) (op : CompactOp) : Nat :=
  2 * x.snd.b + 2 ^ 9 * x.snd.a + 2 ^ 17 * x.snd.d + 2 ^ 25 * x.snd.op.code + 2 ^ 32 * x.b +
    2 ^ 40 * x.a + 2 ^ 48 * x.d + 2 ^ 56 * op.code + 2 ^ 63

/-- The first operation's code and the pair that a paired word holds. -/
def Paired.ofWord (w : Nat) : Option (CompactOp × Paired) := do
  let o0 ← CompactOp.ofCode (bits w 56 7)
  let o1 ← CompactOp.ofCode (bits w 25 7)
  pure (o0, ⟨bits w 48 8, bits w 40 8, bits w 32 8, ⟨o1, bits w 17 8, bits w 9 8, bits w 1 8⟩⟩)

/-- The instruction a full word names, fields unchecked (Table 3-9); `ext` is the word after it. -/
def extractFull (w ext : Nat) : Option Instr :=
  let f := RF.ofWord w
  match f.op with
  | 0x000 => some (.nop f.guard)
  | 0x001 => some (.add (R3.ofRF f))
  | 0x002 => some (.sub (R3.ofRF f))
  | 0x003 => some (.mul (R3.ofRF f))
  | 0x004 => some (.mulh (R3.ofRF f))
  | 0x005 => some (.mulhu (R3.ofRF f))
  | 0x006 => some (.mad (R4.ofRF f))
  | 0x007 => some (.div (R3.ofRF f))
  | 0x008 => some (.divu (R3.ofRF f))
  | 0x009 => some (.rem (R3.ofRF f))
  | 0x00A => some (.remu (R3.ofRF f))
  | 0x00B => some (.and (R3.ofRF f))
  | 0x00C => some (.or (R3.ofRF f))
  | 0x00D => some (.xor (R3.ofRF f))
  | 0x00E => some (.andn (R3.ofRF f))
  | 0x00F => some (.shl (R3.ofRF f))
  | 0x010 => some (.shr (R3.ofRF f))
  | 0x011 => some (.sra (R3.ofRF f))
  | 0x012 => some (.rol (R3.ofRF f))
  | 0x013 => some (.shladd (f.spec % 64) (R3.ofRF f))
  | 0x014 => some (.min (R3.ofRF f))
  | 0x015 => some (.max (R3.ofRF f))
  | 0x016 => some (.minu (R3.ofRF f))
  | 0x017 => some (.maxu (R3.ofRF f))
  | 0x018 => some (.abs (R2.ofRF f))
  | 0x019 => some (.clz (R2.ofRF f))
  | 0x01A => some (.popc (R2.ofRF f))
  | 0x01B => some (.brev (R2.ofRF f))
  | 0x01C => some (.bfx (Bf.ofRF f))
  | 0x01D => some (.bfxu (Bf.ofRF f))
  | 0x01E => some (.bfi (Bf.ofRF f))
  | 0x01F => some (.sel (bit f.spec 3) (f.spec % 8) (R3.ofRF f))
  | 0x020 => (Cond.ofCode (f.spec % 16)).map (fun cc => .cmp cc (Cmp.ofRF f))
  | 0x021 => (Cond.ofCode (f.spec % 16)).map (fun cc => .set cc (R3.ofRF f))
  | 0x022 => some (.mov (R2.ofRF f))
  | 0x023 => let h := IF.ofWord w; some (.movi h.g h.a h.d (sext 33 h.imm))
  | 0x024 => some (.movx f.guard f.d ext)
  | 0x025 => some (.pand (P3.ofRF f))
  | 0x026 => some (.por (P3.ofRF f))
  | 0x027 => some (.pxor (P3.ofRF f))
  | 0x028 => some (.smov f.guard f.u f.dSrc f.a)
  | 0x029 => some (.swr f.guard f.d f.a)
  | 0x02A => some (.rand f.guard f.d)
  | 0x02B => some (.widf f.guard f.u (f.spec % 8) f.dSrc)
  | 0x040 => (ShflMode.ofCode (f.spec % 4)).map (fun m => .shfl f.guard m f.d f.a f.bSrc f.c)
  | 0x041 => (VoteMode.ofCode (f.spec % 4)).map (fun m => .vote f.guard m (bit f.spec 2) f.d f.a f.c)
  | 0x042 => (RedOp.ofCode (f.spec % 8)).map (fun o => .redux f.guard o f.d f.a f.c)
  | 0x043 => some (.matchL f.guard (bit f.spec 0) f.d f.a f.c)
  | 0x044 => some (.elect f.guard f.d f.c)
  | 0x045 => some (.lsync f.guard f.d f.c)
  | 0x080 => let h := IF.ofWord w; some (.bra h.g (sext 33 h.imm))
  | 0x081 => some (.jmp f.guard f.a)
  | 0x082 => let h := IF.ofWord w; some (.call h.g (sext 33 h.imm))
  | 0x083 => some (.callr f.guard f.d f.a)
  | 0x084 => some (.ret f.guard f.a)
  | 0x085 => some (.rjarm f.guard f.d f.a)
  | 0x086 => some (.rjwait f.guard f.d)
  | 0x087 => some (.exit f.guard)
  | 0x088 => some (.brk f.guard f.spec)
  | 0x089 => some (.yield f.guard)
  | 0x100 => some (.fadd (R3r.ofRF f))
  | 0x101 => some (.fsub (R3.ofRF f))
  | 0x102 => some (.fmul (R3r.ofRF f))
  | 0x103 => some (.ffma (R4.ofRF f))
  | 0x104 => some (.fmin (R3.ofRF f))
  | 0x105 => some (.fmax (R3.ofRF f))
  | 0x106 => (FCond.ofCode (f.spec % 16)).map (fun cc => .fcmp cc (Cmp.ofRF f))
  | 0x107 => some (.fclass (R2.ofRF f))
  | 0x108 => (FrMode.ofCode (f.spec % 8)).map (fun m => .frnd m (R2.ofRF f))
  | 0x109 => some (.fcvt f.guard (Rnd.ofCode f.rnd) (WFmt.ofCode (f.spec / 4 % 4)) (WFmt.ofCode (f.spec % 4)) f.d f.a)
  | 0x10A => some (.icvt f.guard (bit f.spec 0) (WFmt.ofCode (f.spec / 4 % 4)) f.d f.a)
  | 0x10B => some (.fcvti f.guard (Rnd.ofCode f.rnd) (bit f.spec 2) (WFmt.ofCode (f.spec % 4)) f.d f.a)
  | 0x10C => some (.hadd2 (H3.ofRF f))
  | 0x10D => some (.hmul2 (H3.ofRF f))
  | 0x10E => some (.hfma2 f.c (H3.ofRF f))
  | 0x10F => some (.hmin2 (H3.ofRF f))
  | 0x110 => some (.hmax2 (H3.ofRF f))
  | 0x111 => some (.rcp (W2.ofRF f))
  | 0x112 => some (.rsq (W2.ofRF f))
  | 0x113 => some (.sqrt (W2.ofRF f))
  | 0x114 => some (.exp2 (W2.ofRF f))
  | 0x115 => some (.log2 (W2.ofRF f))
  | 0x116 => some (.fdiv (R3.ofRF f))
  | 0x117 => some (.feval (f.spec % 4) (W2.ofRF f))
  | 0x118 => some (.ftld f.guard (f.spec % 4) f.a f.sel)
  | 0x119 => some (.dot4 (Dot.ofRF f))
  | 0x11A => some (.dot8 (Dot.ofRF f))
  | 0x11B => some (.ncvt (Cv.ofRF f))
  | 0x11C => some (.nunp (Cv.ofRF f))
  | 0x1C0 => Ldg.ofMF (MF.ofWord w) |>.map .ld
  | 0x1C1 => Stg.ofMF (MF.ofWord w) |>.map .st
  | 0x1C2 => Lds.ofMF (MF.ofWord w) |>.map .lds
  | 0x1C3 => Sts.ofMF (MF.ofWord w) |>.map .sts
  | 0x1C4 => Lds.ofMF (MF.ofWord w) |>.map .ldx
  | 0x1C5 => Sts.ofMF (MF.ofWord w) |>.map .stx
  | 0x1C6 => Atm.ofMF (MF.ofWord w) |>.map .atom
  | 0x1C7 => Rdg.ofMF (MF.ofWord w) |>.map .red
  | 0x1C8 => Atm.ofMF (MF.ofWord w) |>.map .atoms
  | 0x1C9 => do let k ← FenceKind.ofCode (f.spec / 8 % 4); let s ← Scope.ofCode (f.spec % 8); pure (.fence f.guard k s)
  | 0x1CA => some (.acqr f.guard f.a)
  | 0x1CB => some (.waita f.guard (bit f.spec 0) f.d f.a f.b)
  | 0x1CC => some (.cpy f.guard f.d f.a f.sel)
  | 0x1CD => some (.tlwait f.guard (bit f.spec 0) f.a)
  | 0x1CE => (TlSel.ofCode (f.spec % 4)).map (fun s => .tlread f.guard s f.d)
  | 0x1CF => let h := MF.ofWord w; (Scope.ofCode h.scope).map (fun s => .pref h.g s h.a (sext 17 h.off))
  | 0x240 => some (.chend f.guard)
  | 0x241 => (ChSel.ofCode (f.spec % 4)).map (fun s => .chstat f.guard s f.d)
  | 0x242 => (Bar.ofRF f 0).map .bar
  | 0x243 => (Bar.ofRF f f.d).map .barv
  | 0x244 => (Bar.ofRF f f.a).map .barw
  | 0x245 => (Bar.ofRF f f.d).map .barst
  | 0x280 => some (.tzero f.guard (f.spec % 4) (bit f.spec 2) f.d)
  | 0x281 => some (.tld (Tls.ofRF f))
  | 0x282 => some (.tst (Tls.ofRF f))
  | 0x283 => some (.tmma f.guard f.d f.a f.sel)
  | 0x284 => some (.tdadd f.guard (f.spec % 4) (f.spec / 4 % 4) f.d f.a f.sel)
  | 0x285 => some (.twait f.guard (f.spec % 4) f.d f.a)
  | 0x286 => some (.tcode f.guard f.d f.a f.sel)
  | 0x287 => some (.tlu (Fac.ofRF f))
  | 0x288 => some (.tchol (Fac.ofRF f))
  | 0x289 => some (.tqr (Fac.ofRF f))
  | 0x28A => some (.ttrsm (bit f.spec 6) (bit f.spec 5) (bit f.spec 4) (Fac.ofRF f))
  | 0x28B => some (.pvap f.guard (f.spec % 4) (f.spec / 4 % 4) (bit f.spec 4) f.d f.sel)
  | 0x28C => (TsSel.ofCode (f.spec / 4 % 4)).map (fun s => .tstat f.guard s (f.spec % 4) f.d)
  | 0x300 => let h := EF.ofWord w; some (.handle h.g h.id h.d (sext 17 h.mods) ext)
  | 0x301 => some (.endh f.guard)
  | 0x302 => let h := EF.ofWord w; some (.perform h.g (bit h.mods 2) h.id)
  | 0x303 => some (.resume f.guard f.a)
  | 0x304 => some (.drop f.guard f.a)
  | 0x305 => some (.hret f.guard)
  | 0x306 => (HsSel.ofCode (f.spec % 4)).map (fun s => .hstat f.guard s f.d f.a)
  | 0x340 => let h := IF.ofWord w; some (.svc h.g h.imm)
  | 0x341 => some (.launch f.guard f.d f.a f.b)
  | 0x342 => some (.sleep f.guard (bit f.spec 0) f.a)
  | _ => none

/-- The instruction of a pair of compact operations: the first operation names it. -/
def pairedInstr (op : CompactOp) (x : Paired) : Instr :=
  match op with
  | .add => .addPaired x
  | .sub => .subPaired x
  | .and => .andPaired x
  | .or => .orPaired x
  | .xor => .xorPaired x
  | .shl => .shlPaired x
  | .shr => .shrPaired x
  | .mov => .movPaired x
  | .min => .minPaired x
  | .max => .maxPaired x
  | .fadd => .faddPaired x
  | .fmul => .fmulPaired x
  | .fmin => .fminPaired x
  | .fmax => .fmaxPaired x
  | .hadd2 => .hadd2Paired x
  | .hmul2 => .hmul2Paired x

/-- The instruction a word names, fields unchecked: bit 63 is the form (R60, R63). -/
def extractWord (w ext : Nat) : Option Instr :=
  if bit w 63 then (Paired.ofWord w).map (fun p => pairedInstr p.1 p.2) else extractFull w ext

/-- Words that an extension word follows (R62). -/
def Instr.hasExt : Instr → Bool
  | .movx .. | .handle .. => true
  | .nop .. => false
  | .add .. => false
  | .sub .. => false
  | .mul .. => false
  | .mulh .. => false
  | .mulhu .. => false
  | .mad .. => false
  | .div .. => false
  | .divu .. => false
  | .rem .. => false
  | .remu .. => false
  | .and .. => false
  | .or .. => false
  | .xor .. => false
  | .andn .. => false
  | .shl .. => false
  | .shr .. => false
  | .sra .. => false
  | .rol .. => false
  | .shladd .. => false
  | .min .. => false
  | .max .. => false
  | .minu .. => false
  | .maxu .. => false
  | .abs .. => false
  | .clz .. => false
  | .popc .. => false
  | .brev .. => false
  | .bfx .. => false
  | .bfxu .. => false
  | .bfi .. => false
  | .sel .. => false
  | .cmp .. => false
  | .set .. => false
  | .mov .. => false
  | .movi .. => false
  | .pand .. => false
  | .por .. => false
  | .pxor .. => false
  | .smov .. => false
  | .swr .. => false
  | .rand .. => false
  | .widf .. => false
  | .addPaired .. => false
  | .subPaired .. => false
  | .andPaired .. => false
  | .orPaired .. => false
  | .xorPaired .. => false
  | .shlPaired .. => false
  | .shrPaired .. => false
  | .movPaired .. => false
  | .minPaired .. => false
  | .maxPaired .. => false
  | .faddPaired .. => false
  | .fmulPaired .. => false
  | .fminPaired .. => false
  | .fmaxPaired .. => false
  | .hadd2Paired .. => false
  | .hmul2Paired .. => false
  | .shfl .. => false
  | .vote .. => false
  | .redux .. => false
  | .matchL .. => false
  | .elect .. => false
  | .lsync .. => false
  | .bra .. => false
  | .jmp .. => false
  | .call .. => false
  | .callr .. => false
  | .ret .. => false
  | .rjarm .. => false
  | .rjwait .. => false
  | .exit .. => false
  | .brk .. => false
  | .yield .. => false
  | .fadd .. => false
  | .fsub .. => false
  | .fmul .. => false
  | .ffma .. => false
  | .fmin .. => false
  | .fmax .. => false
  | .fcmp .. => false
  | .fclass .. => false
  | .frnd .. => false
  | .fcvt .. => false
  | .icvt .. => false
  | .fcvti .. => false
  | .hadd2 .. => false
  | .hmul2 .. => false
  | .hfma2 .. => false
  | .hmin2 .. => false
  | .hmax2 .. => false
  | .rcp .. => false
  | .rsq .. => false
  | .sqrt .. => false
  | .exp2 .. => false
  | .log2 .. => false
  | .fdiv .. => false
  | .feval .. => false
  | .ftld .. => false
  | .dot4 .. => false
  | .dot8 .. => false
  | .ncvt .. => false
  | .nunp .. => false
  | .ld .. => false
  | .st .. => false
  | .lds .. => false
  | .sts .. => false
  | .ldx .. => false
  | .stx .. => false
  | .atom .. => false
  | .red .. => false
  | .atoms .. => false
  | .fence .. => false
  | .acqr .. => false
  | .waita .. => false
  | .cpy .. => false
  | .tlwait .. => false
  | .tlread .. => false
  | .pref .. => false
  | .chend .. => false
  | .chstat .. => false
  | .bar .. => false
  | .barv .. => false
  | .barw .. => false
  | .barst .. => false
  | .tzero .. => false
  | .tld .. => false
  | .tst .. => false
  | .tmma .. => false
  | .tdadd .. => false
  | .twait .. => false
  | .tcode .. => false
  | .tlu .. => false
  | .tchol .. => false
  | .tqr .. => false
  | .ttrsm .. => false
  | .pvap .. => false
  | .tstat .. => false
  | .endh .. => false
  | .perform .. => false
  | .resume .. => false
  | .drop .. => false
  | .hret .. => false
  | .hstat .. => false
  | .svc .. => false
  | .launch .. => false
  | .sleep .. => false
  | .clauseIssue .. => false
  | .ftldFlip .. => false
  | .loadDataArrive .. => false
  | .stxPerform .. => false
  | .stxAck .. => false
  | .waitaWake .. => false
  | .waitaRepoll .. => false
  | .copyPiece .. => false
  | .copyComplete .. => false
  | .escapingReissue .. => false
  | .brokenStopTimeout .. => false
  | .tdaddArrival .. => false
  | .tdaddAck .. => false
  | .tileCommandComplete .. => false
  | .factorisationStep .. => false
  | .builtinEffectDelivery .. => false
  | .sleepWake .. => false
  | .chunkClose .. => false
  | .chunkTimerExpire .. => false
  | .signatureParityError .. => false
  | .tidemarkGrant .. => false
  | .runCountLimit .. => false
  | .soloGrant .. => false
  | .rejoinCycleDetect .. => false
  | .ageingThreshold .. => false
  | .groupPlace .. => false
  | .groupExit .. => false
  | .kernelClose .. => false
  | .stopRequest .. => false
  | .drainLimitExpire .. => false
  | .groupSave .. => false
  | .groupRestore .. => false
  | .coreGiveUp .. => false
  | .preemptTrigger .. => false
  | .kernelSuspend .. => false
  | .thermalMove .. => false
  | .thermalTrip .. => false
  | .clockSettingChange .. => false
  | .supplyDroop .. => false
  | .faultQueueConsume .. => false
  | .commandRingProduce .. => false
  | .createContext .. => false
  | .destroyContext .. => false
  | .stopMode .. => false
  | .resumeThreadContinue .. => false
  | .resumeThreadRetry .. => false
  | .resumeThreadAbandon .. => false
  | .resumeThreadValue .. => false
  | .saveGroup .. => false
  | .serviceReply .. => false
  | .createQueue .. => false
  | .quiesce .. => false
  | .reopen .. => false
  | .destroyQueue .. => false
  | .queueStatus .. => false
  | .admitAdd .. => false
  | .admitRemove .. => false
  | .bind .. => false
  | .unbind .. => false
  | .setPackageNumber .. => false
  | .migrateOut .. => false
  | .visitorTake .. => false
  | .visitorDisplace .. => false
  | .visitorLandUbhus .. => false
  | .returnHome .. => false
  | .visitorException .. => false
  | .sfenceVma .. => false
  | .wwidthWrite .. => false
  | .wstackWrite .. => false
  | .widenedCallLanding .. => false
  | .widenedCallReturn .. => false
  | .tretharAttach .. => false
  | .tretharCreateContext .. => false
  | .tretharCreateQueue .. => false
  | .submit .. => false
  | .readStatus .. => false
  | .detach .. => false
  | .disposeDiscard .. => false
  | .disposeReplay .. => false
  | .disposeRead .. => false
  | .recoveryWrite .. => false
  | .disposeReplayAck .. => false
  | .holdTimeExpire .. => false
  | .hostLinkUp .. => false
  | .hostLinkLoss .. => false
  | .hostSnoop .. => false
  | .goWritepull .. => false
  | .portFail .. => false
  | .flitCrcError .. => false
  | .laneFail .. => false
  | .fabricPortDown .. => false
  | .fabricRequestArrive .. => false
  | .setPartitionTable .. => false
  | .setRegionTable .. => false
  | .writeFirmwareImage .. => false
  | .spdmRequest .. => false
  | .packageReset .. => false
  | .partitionHeld .. => false
  | .scrubComplete .. => false
  | .fatalDieError .. => false
  | .deviceMarkFailed .. => false
  | .patrolScrub .. => false
  | .coreFence .. => false
  | .arbiterTakeover .. => false
  | .softError .. => false
  | .dirtyEvict .. => false
  | .replicaPropagation .. => false
  | .writeAcknowledgement .. => false
  | .headlandAccess .. => false
  | .kernelCancel .. => false
  | .partitionResetRequest .. => false

/-- The words of an instruction (Tables 3-4 to 3-9): one, or two with an extension word (R62).
An event has no encoding. -/
def encode : Instr → List Nat
  | .nop g => [(RF.zero g 0x000).word]
  | .add x => [(x.rf 0x001 0).word]
  | .sub x => [(x.rf 0x002 0).word]
  | .mul x => [(x.rf 0x003 0).word]
  | .mulh x => [(x.rf 0x004 0).word]
  | .mulhu x => [(x.rf 0x005 0).word]
  | .mad x => [(x.rf 0x006).word]
  | .div x => [(x.rf 0x007 0).word]
  | .divu x => [(x.rf 0x008 0).word]
  | .rem x => [(x.rf 0x009 0).word]
  | .remu x => [(x.rf 0x00A 0).word]
  | .and x => [(x.rf 0x00B 0).word]
  | .or x => [(x.rf 0x00C 0).word]
  | .xor x => [(x.rf 0x00D 0).word]
  | .andn x => [(x.rf 0x00E 0).word]
  | .shl x => [(x.rf 0x00F 0).word]
  | .shr x => [(x.rf 0x010 0).word]
  | .sra x => [(x.rf 0x011 0).word]
  | .rol x => [(x.rf 0x012 0).word]
  | .shladd sh x => [(x.rf 0x013 sh).word]
  | .min x => [(x.rf 0x014 0).word]
  | .max x => [(x.rf 0x015 0).word]
  | .minu x => [(x.rf 0x016 0).word]
  | .maxu x => [(x.rf 0x017 0).word]
  | .abs x => [(x.rf 0x018 0).word]
  | .clz x => [(x.rf 0x019 0).word]
  | .popc x => [(x.rf 0x01A 0).word]
  | .brev x => [(x.rf 0x01B 0).word]
  | .bfx x => [(x.rf 0x01C).word]
  | .bfxu x => [(x.rf 0x01D).word]
  | .bfi x => [(x.rf 0x01E).word]
  | .sel np sp x => [(x.rf 0x01F (sp + 8 * np.toNat)).word]
  | .cmp cc x => [(x.rf 0x020 cc.code).word]
  | .set cc x => [(x.rf 0x021 cc.code).word]
  | .mov x => [(x.rf 0x022 0).word]
  | .movi g kind d imm => [(⟨g, 0x023, d, kind, unsext 33 imm⟩ : IF).word]
  | .movx g d val => [({ RF.zero g 0x024 with d := d }).word, val]
  | .pand x => [(x.rf 0x025).word]
  | .por x => [(x.rf 0x026).word]
  | .pxor x => [(x.rf 0x027).word]
  | .smov g u d sreg => [({ RF.zero g 0x028 with u := u, d := d.num, dk := d.isK, a := sreg }).word]
  | .swr g sreg a => [({ RF.zero g 0x029 with d := sreg, a := a }).word]
  | .rand g d => [({ RF.zero g 0x02A with d := d }).word]
  | .widf g u n d => [({ RF.zero g 0x02B with u := u, d := d.num, dk := d.isK, spec := n }).word]
  | .addPaired x => [x.word .add]
  | .subPaired x => [x.word .sub]
  | .andPaired x => [x.word .and]
  | .orPaired x => [x.word .or]
  | .xorPaired x => [x.word .xor]
  | .shlPaired x => [x.word .shl]
  | .shrPaired x => [x.word .shr]
  | .movPaired x => [x.word .mov]
  | .minPaired x => [x.word .min]
  | .maxPaired x => [x.word .max]
  | .faddPaired x => [x.word .fadd]
  | .fmulPaired x => [x.word .fmul]
  | .fminPaired x => [x.word .fmin]
  | .fmaxPaired x => [x.word .fmax]
  | .hadd2Paired x => [x.word .hadd2]
  | .hmul2Paired x => [x.word .hmul2]
  | .shfl g mode d a b c => [({ RF.zero g 0x040 with d := d, a := a, b := b.num, c := c, spec := mode.code + 128 * b.isImm.toNat }).word]
  | .vote g mode na d a c => [({ RF.zero g 0x041 with d := d, a := a, c := c, spec := mode.code + 4 * na.toNat }).word]
  | .redux g op d a c => [({ RF.zero g 0x042 with d := d, a := a, c := c, spec := op.code }).word]
  | .matchL g whole d a c => [({ RF.zero g 0x043 with d := d, a := a, c := c, spec := whole.toNat }).word]
  | .elect g d c => [({ RF.zero g 0x044 with d := d, c := c }).word]
  | .lsync g d c => [({ RF.zero g 0x045 with d := d, c := c }).word]
  | .bra g target => [(⟨g, 0x080, 0, 0, unsext 33 target⟩ : IF).word]
  | .jmp g a => [({ RF.zero g 0x081 with a := a }).word]
  | .call g target => [(⟨g, 0x082, 0, 0, unsext 33 target⟩ : IF).word]
  | .callr g d a => [({ RF.zero g 0x083 with d := d, a := a }).word]
  | .ret g a => [({ RF.zero g 0x084 with a := a }).word]
  | .rjarm g j a => [({ RF.zero g 0x085 with d := j, a := a }).word]
  | .rjwait g j => [({ RF.zero g 0x086 with d := j }).word]
  | .exit g => [(RF.zero g 0x087).word]
  | .brk g n => [({ RF.zero g 0x088 with spec := n }).word]
  | .yield g => [(RF.zero g 0x089).word]
  | .fadd x => [(x.rf 0x100).word]
  | .fsub x => [(x.rf 0x101 0).word]
  | .fmul x => [(x.rf 0x102).word]
  | .ffma x => [(x.rf 0x103).word]
  | .fmin x => [(x.rf 0x104 0).word]
  | .fmax x => [(x.rf 0x105 0).word]
  | .fcmp cc x => [(x.rf 0x106 cc.code).word]
  | .fclass x => [(x.rf 0x107 0).word]
  | .frnd mode x => [(x.rf 0x108 mode.code).word]
  | .fcvt g rnd dst src d a => [({ RF.zero g 0x109 with d := d, a := a, rnd := rnd.code, spec := src.code + 4 * dst.code }).word]
  | .icvt g uns dst d a => [({ RF.zero g 0x10A with d := d, a := a, spec := uns.toNat + 4 * dst.code }).word]
  | .fcvti g rnd uns src d a => [({ RF.zero g 0x10B with d := d, a := a, rnd := rnd.code, spec := src.code + 4 * uns.toNat }).word]
  | .hadd2 x => [(x.rf 0x10C 0).word]
  | .hmul2 x => [(x.rf 0x10D 0).word]
  | .hfma2 c x => [(x.rf 0x10E c).word]
  | .hmin2 x => [(x.rf 0x10F 0).word]
  | .hmax2 x => [(x.rf 0x110 0).word]
  | .rcp x => [(x.rf 0x111).word]
  | .rsq x => [(x.rf 0x112).word]
  | .sqrt x => [(x.rf 0x113).word]
  | .exp2 x => [(x.rf 0x114).word]
  | .log2 x => [(x.rf 0x115).word]
  | .fdiv x => [(x.rf 0x116 0).word]
  | .feval ft x => [({ x.rf 0x117 with spec := ft }).word]
  | .ftld g ft a fl => [({ RF.zero g 0x118 with a := a, spec := ft, sel := fl }).word]
  | .dot4 x => [(x.rf 0x119).word]
  | .dot8 x => [(x.rf 0x11A).word]
  | .ncvt x => [(x.rf 0x11B).word]
  | .nunp x => [(x.rf 0x11C).word]
  | .ld x => [x.mf.word]
  | .st x => [x.mf.word]
  | .lds x => [(x.mf 0x1C2).word]
  | .sts x => [(x.mf 0x1C3).word]
  | .ldx x => [(x.mf 0x1C4).word]
  | .stx x => [(x.mf 0x1C5).word]
  | .atom x => [(x.mf 0x1C6).word]
  | .red x => [x.mf.word]
  | .atoms x => [(x.mf 0x1C8).word]
  | .fence g kind sc => [({ RF.zero g 0x1C9 with spec := sc.code + 8 * kind.code }).word]
  | .acqr g a => [({ RF.zero g 0x1CA with a := a }).word]
  | .waita g global d a b => [({ RF.zero g 0x1CB with d := d, a := a, b := b, spec := global.toNat }).word]
  | .cpy g d a fl => [({ RF.zero g 0x1CC with d := d, a := a, sel := fl }).word]
  | .tlwait g tile a => [({ RF.zero g 0x1CD with a := a, spec := tile.toNat }).word]
  | .tlread g fl d => [({ RF.zero g 0x1CE with d := d, spec := fl.code }).word]
  | .pref g sc a off => [(⟨g, 0x1CF, 0, a, 0, sc.code, 0, 0, unsext 17 off⟩ : MF).word]
  | .chend g => [(RF.zero g 0x240).word]
  | .chstat g fl d => [({ RF.zero g 0x241 with d := d, spec := fl.code }).word]
  | .bar x => [(x.rf 0x242 0 0).word]
  | .barv x => [(x.rf 0x243 x.r 0).word]
  | .barw x => [(x.rf 0x244 0 x.r).word]
  | .barst x => [(x.rf 0x245 x.r 0).word]
  | .tzero g tile free d => [({ RF.zero g 0x280 with d := d, spec := tile + 4 * free.toNat }).word]
  | .tld x => [(x.rf 0x281).word]
  | .tst x => [(x.rf 0x282).word]
  | .tmma g d a fl => [({ RF.zero g 0x283 with d := d, a := a, sel := fl }).word]
  | .tdadd g tx ty d a fl => [({ RF.zero g 0x284 with d := d, a := a, spec := tx + 4 * ty, sel := fl }).word]
  | .twait g tile d a => [({ RF.zero g 0x285 with d := d, a := a, spec := tile }).word]
  | .tcode g d a fl => [({ RF.zero g 0x286 with d := d, a := a, sel := fl }).word]
  | .tlu x => [(x.rf 0x287 0).word]
  | .tchol x => [(x.rf 0x288 0).word]
  | .tqr x => [(x.rf 0x289 0).word]
  | .ttrsm tr unit up x => [(x.rf 0x28A (16 * up.toNat + 32 * unit.toNat + 64 * tr.toNat)).word]
  | .pvap g tile pv inv d fl => [({ RF.zero g 0x28B with d := d, spec := tile + 4 * pv + 16 * inv.toNat, sel := fl }).word]
  | .tstat g fl tile d => [({ RF.zero g 0x28C with d := d, spec := tile + 4 * fl.code }).word]
  | .handle g id d off entry => [(⟨g, 0x300, d, 0, id, unsext 17 off⟩ : EF).word, entry]
  | .endh g => [(RF.zero g 0x301).word]
  | .perform g multi id => [(⟨g, 0x302, 0, 0, id, 4 * multi.toNat⟩ : EF).word]
  | .resume g a => [({ RF.zero g 0x303 with a := a }).word]
  | .drop g a => [({ RF.zero g 0x304 with a := a }).word]
  | .hret g => [(RF.zero g 0x305).word]
  | .hstat g fl d a => [({ RF.zero g 0x306 with d := d, a := a, spec := fl.code }).word]
  | .svc g n => [(⟨g, 0x340, 0, 0, n⟩ : IF).word]
  | .launch g d a b => [({ RF.zero g 0x341 with d := d, a := a, b := b }).word]
  | .sleep g absT a => [({ RF.zero g 0x342 with a := a, spec := absT.toNat }).word]
  | .clauseIssue .. => []
  | .ftldFlip .. => []
  | .loadDataArrive .. => []
  | .stxPerform .. => []
  | .stxAck .. => []
  | .waitaWake .. => []
  | .waitaRepoll .. => []
  | .copyPiece .. => []
  | .copyComplete .. => []
  | .escapingReissue .. => []
  | .brokenStopTimeout .. => []
  | .tdaddArrival .. => []
  | .tdaddAck .. => []
  | .tileCommandComplete .. => []
  | .factorisationStep .. => []
  | .builtinEffectDelivery .. => []
  | .sleepWake .. => []
  | .chunkClose .. => []
  | .chunkTimerExpire .. => []
  | .signatureParityError .. => []
  | .tidemarkGrant .. => []
  | .runCountLimit .. => []
  | .soloGrant .. => []
  | .rejoinCycleDetect .. => []
  | .ageingThreshold .. => []
  | .groupPlace .. => []
  | .groupExit .. => []
  | .kernelClose .. => []
  | .stopRequest .. => []
  | .drainLimitExpire .. => []
  | .groupSave .. => []
  | .groupRestore .. => []
  | .coreGiveUp .. => []
  | .preemptTrigger .. => []
  | .kernelSuspend .. => []
  | .thermalMove .. => []
  | .thermalTrip .. => []
  | .clockSettingChange .. => []
  | .supplyDroop .. => []
  | .faultQueueConsume .. => []
  | .commandRingProduce .. => []
  | .createContext .. => []
  | .destroyContext .. => []
  | .stopMode .. => []
  | .resumeThreadContinue .. => []
  | .resumeThreadRetry .. => []
  | .resumeThreadAbandon .. => []
  | .resumeThreadValue .. => []
  | .saveGroup .. => []
  | .serviceReply .. => []
  | .createQueue .. => []
  | .quiesce .. => []
  | .reopen .. => []
  | .destroyQueue .. => []
  | .queueStatus .. => []
  | .admitAdd .. => []
  | .admitRemove .. => []
  | .bind .. => []
  | .unbind .. => []
  | .setPackageNumber .. => []
  | .migrateOut .. => []
  | .visitorTake .. => []
  | .visitorDisplace .. => []
  | .visitorLandUbhus .. => []
  | .returnHome .. => []
  | .visitorException .. => []
  | .sfenceVma .. => []
  | .wwidthWrite .. => []
  | .wstackWrite .. => []
  | .widenedCallLanding .. => []
  | .widenedCallReturn .. => []
  | .tretharAttach .. => []
  | .tretharCreateContext .. => []
  | .tretharCreateQueue .. => []
  | .submit .. => []
  | .readStatus .. => []
  | .detach .. => []
  | .disposeDiscard .. => []
  | .disposeReplay .. => []
  | .disposeRead .. => []
  | .recoveryWrite .. => []
  | .disposeReplayAck .. => []
  | .holdTimeExpire .. => []
  | .hostLinkUp .. => []
  | .hostLinkLoss .. => []
  | .hostSnoop .. => []
  | .goWritepull .. => []
  | .portFail .. => []
  | .flitCrcError .. => []
  | .laneFail .. => []
  | .fabricPortDown .. => []
  | .fabricRequestArrive .. => []
  | .setPartitionTable .. => []
  | .setRegionTable .. => []
  | .writeFirmwareImage .. => []
  | .spdmRequest .. => []
  | .packageReset .. => []
  | .partitionHeld .. => []
  | .scrubComplete .. => []
  | .fatalDieError .. => []
  | .deviceMarkFailed .. => []
  | .patrolScrub .. => []
  | .coreFence .. => []
  | .arbiterTakeover .. => []
  | .softError .. => []
  | .dirtyEvict .. => []
  | .replicaPropagation .. => []
  | .writeAcknowledgement .. => []
  | .headlandAccess .. => []
  | .kernelCancel .. => []
  | .partitionResetRequest .. => []

/-- Why a word is no instruction. -/
inductive DecodeError where
  /-- No assigned opcode, or an enumerated field with a code that its table does not give
  (R67, R68). -/
  | unassigned
  /-- A register number, predicate or pair that R61 or the entry forbids. -/
  | field
  /-- A bit that the entry does not use is set (R61). -/
  | unused
  /-- The bytes end inside an instruction. -/
  | truncated
deriving DecidableEq, Repr

/-- The instruction of a word, `ext` being the word that follows it. -/
def decodeWord (w ext : Nat) : Except DecodeError Instr :=
  match extractWord w ext with
  | none => .error .unassigned
  | some i =>
    if i.wf then
      if encode i = (if i.hasExt then [w, ext] else [w]) then .ok i else .error .unused
    else .error .field

/-- The number in little-endian bytes (R4). -/
def leNat : List Byte → Nat
  | [] => 0
  | b :: bs => b.toNat + 256 * leNat bs

/-- `n` little-endian bytes of a number. -/
def leBytes : Nat → Nat → List Byte
  | 0, _ => []
  | n + 1, v => BitVec.ofNat 8 v :: leBytes n (v / 256)

/-- The instruction at the head of a byte stream, and the bytes after it. -/
def decodeBytes (bs : List Byte) : Except DecodeError (Instr × List Byte) :=
  if bs.length < 8 then .error .truncated
  else
    match decodeWord (leNat (bs.take 8)) (leNat ((bs.drop 8).take 8)) with
    | .error e => .error e
    | .ok i =>
      if i.hasExt then
        if bs.length < 16 then .error .truncated else .ok (i, bs.drop 16)
      else .ok (i, bs.drop 8)

/-- The bytes of an instruction. -/
def encodeBytes (i : Instr) : List Byte := ((encode i).map (leBytes 8)).flatten

/-- The instruction read from a word of the opcode table's numbering: the first word is bits
63:0 and an extension word follows it. -/
def decodeTableWord (_nbits w : Nat) : Option Instr :=
  match decodeBytes (leBytes 16 (w % 2 ^ 128)) with
  | .ok p => some p.1
  | .error _ => none

end Sys2Proof
end

