-- ==== Sys2Proof/Config.lean ====
section
/-!
DEFINITION. What an implementation fixes and the spec leaves open: constants with no body, so
that nothing can be proved about their values (log entry 8), and the sizes of Tables 1-2, 11-1
and 14-1 that the spec does fix.
-/

namespace Sys2Proof.Config

/-- SHA-384 of a byte string, as a number (R401, R402): a constant with no body. -/
opaque digest : List Byte → Nat

/-- Whether a firmware image bears a valid signature of the chain (R401): a constant with no body. -/
opaque signed : List Byte → Bool

/-- The version a firmware image carries, and the least that the fuses admit (R401): constants with no body. -/
opaque version : List Byte → Nat

/-- The minimum version in the fuses (R401): a constant with no body. -/
opaque minVersion : Nat

/-- Bytes of the flash's image area (R402): a constant with no body. -/
opaque flashArea : Nat

/-- The digest that a firmware image gives for a die (R401): a constant with no body. -/
opaque imageDigest : List Byte → Nat → Nat

/-- The measurement of a die's image as it stands (R401): a constant with no body. -/
opaque dieDigest : Nat → Nat

/-- The fixed measurements of Table 27-4, of the boot ROM and of the fuses: a constant with no body. -/
opaque fixedDigest : Nat → Nat

/-- The Vendor ID of the host-link function 0 (R384): a constant with no body. -/
opaque vendorId : Nat

/-- The capacity of the memory behind a second-tier port, in bytes (R391): a constant with no body. -/
opaque tierBytes : Nat → Nat

/-- Where a partition's supervisor puts the descriptor of a context that a session asks for (R343): a constant with
no body. -/
opaque descAt : Nat → Nat

/-- The slice length that a partition's supervisor sets, in µs (R376): a constant with no body. -/
opaque sliceUs : Nat → Nat

/-- The hold time that a partition's supervisor sets, in ns (R381): a constant with no body. -/
opaque holdNs : Nat → Nat

/-- The keys that the Zynrak die draws from its random source (R403), in order: a constant with no body. -/
opaque dataKey : Nat → BitVec 256

/-- The answer of the SPDM responder to a request, from the request's kind and the measurements
(R7, R402): a constant with no body. -/
opaque spdmAnswer : SpdmReq → List (Nat × Nat) → List Byte

/-- Whether a signature that holds some grains reports one that was never entered (R246, the hash
functions are not architected): a constant with no body. -/
opaque sigAlias : List (Nat × Nat) → Nat × Nat → Bool

/-- Whether a read signature that holds these grains, one or more, has a population of at least 1,536 bits
(Table 14-3, cause 2): a constant with no body. -/
opaque sigFull : List (Nat × Nat) → Bool

/-- Whether a peer package admits a fabric access (R395), by the time, the package, the address and the
access code: its supervisor decides. A constant with no body. -/
opaque peerAdmits : Nat → Nat → Nat → Nat → Bool

/-- Whether a peer package accepts a drain-add (R297): its own state decides. Applied to the drain-add's
number: a constant with no body. -/
opaque peerAccepts : Nat → Bool

/-- Whether the supervisor of a partition, by its number, runs in the secure world (R343): its image decides. A constant
with no body. -/
opaque supervisorSecure : Nat → Bool

/-- Thread slots of a core (Table 11-1). -/
def slots : Nat := 2048

/-- Groups of a core (Table 11-1). -/
def groups : Nat := 32

/-- Registers of a core (Table 11-1). -/
def regs : Nat := 65536

/-- Scratchpad bytes of a core (Table 11-1). -/
def scratch : Nat := 393216

/-- Grains of a write set, and deferred reductions (Table 14-1). -/
def writeSet : Nat := 1024

/-- Undo entries (Table 14-1). -/
def undoLog : Nat := 8192

/-- Weight-buffer bytes (R290). -/
def weights : Nat := 524288

/-- Tags of 512 bytes of an L1 of 256 KiB (Table 1-1). -/
def l1Tags : Nat := 512

/-- Tags of a cluster cache of 2 MiB (Table 1-1). -/
def clusterTags : Nat := 4096

/-- Lines of 512 bytes of a die's L2 of 72 MiB (Table 1-1, R390). -/
def l2Lines : Nat := 147456

/-- Cycles after which a chunk closes (Table 14-3 cause 5). -/
def chunkCycles : Nat := 262144

end Sys2Proof.Config
end

