-- ==== Sys2Proof/Machine/State.lean ====
section
/-!
DEFINITION. The state of the 8804: everything the spec gives the package, as plain data.
Registers and memories are sparse lists in one canonical form: keys strictly rising, and no
entry that holds the default. `Machine/Table.lean` has their operations.
-/

namespace Sys2Proof.Machine

/-- What stops the model. -/
inductive Fault where
  /-- Raised by `step` when a clause in flight holds a word that does not decode. No clause that
  CLAUSE_ISSUE starts holds one (R68). Safe: the machine stops where it could not be. -/
  | undecodedWord
deriving DecidableEq, Repr

/-- Instructions without a meaning. -/
inductive Refusal where
  /-- Raised by `exec` for an instruction that is not modelled. Safe: nothing follows from it. -/
  | notModelled (mnemonic : String)
deriving DecidableEq, Repr

/-- A thread's position (R56): clause header address and word index. -/
structure Pos where
  hdr : Nat := 0
  idx : Nat := 0
deriving DecidableEq, Repr

/-- Sparse registers by number. -/
abbrev Regs := List (Nat × Word)

/-- Where a resumed ARITH writes its value (R120). -/
inductive Dest where
  | w (n : Nat)
  | pair (n : Nat)
  | pred (n : Nat)
  | k (n : Nat)
deriving DecidableEq, Repr

/-- A built-in effect that a thread has raised and that is not delivered yet (R330): its
arguments, the saved position, the value a resume writes where (ARITH, R120), and the halt of a tile
command that it belongs to (R307). -/
structure Raise where
  eff  : Nat
  a0   : DWord := 0
  a1   : DWord := 0
  a2   : DWord := 0
  a3   : DWord := 0
  /-- The saved position (R56). -/
  save : Pos := {}
  /-- The word that raised it, for its record (R330). -/
  word : Pos := {}
  /-- ARITH: where a resume value goes (R120). -/
  dest : Option Dest := none
  /-- PIVOT.ZERO, NOT.PD: the halt (R307), 64 × the command's number + its step. -/
  cmd  : Option Nat := none
deriving DecidableEq, Repr

/-- A load, atomic or other long-latency operation whose registers have not been written (R52). -/
structure Load where
  id   : Nat
  regs : Regs
  flag : Option Nat := none
deriving DecidableEq, Repr

/-- What a waiting thread waits for (Table 7-1). -/
inductive Wait where
  /-- In `rjwait` of barrier `j`, at `at_`. -/
  | rejoin (j : Nat) (at_ : Pos)
  /-- On a barrier object, of the instruction at `at_`: `past` is the wait of `bar` and `barw` past
  `phase` (R238); else the wait of a second arrival (R237). -/
  | barrier (bid : Nat) (phase : Word) (sel id : Nat) (at_ : Pos) (past : Bool)
  /-- `waita` on a word: its address, its watch point, the value it waits past (R179). -/
  | addr (glob : Bool) (ea wp : Nat) (val : Word) (d : Nat) (woken : Bool) (at_ : Pos)
  | copyTl (n : Nat) (at_ : Pos)
  | tileTl (n : Nat) (at_ : Pos)
  | tile (t n d : Nat)
  | svc (ticket : Nat)
  | sleep (till : Nat)
deriving DecidableEq, Repr

/-- The state a parked thread left (R155, R186). -/
inductive Back where
  | ready | held | raised | escaping
  | wait (w : Wait)
deriving DecidableEq, Repr

/-- Why a thread is parked, which decides what command 4 may do (R415). -/
inductive Park where
  /-- A supervisor fault of Kinds 1 to 5 at the thread's position; `retry` is Flags bit 2. -/
  | fault (kind cause : Nat) (retry : Bool)
  /-- An unhandled built-in effect (Kind 6). -/
  | effect (r : Raise)
  /-- A fault of the copy with this number (R186). -/
  | copy (n : Nat) (back : Back)
  /-- Stop-group mode (R155). -/
  | group (back : Back)
deriving DecidableEq, Repr

/-- Thread states (Table 7-1). `escaping` is a thread that left its pack at an escaping word and
issues again once the chunk has closed (R188); `raised` one whose built-in effect waits for its
delivery (R330). Demoted is ready with the demotion bit. -/
inductive TStat where
  | ready | held | issuing
  | waiting (w : Wait)
  | parked (p : Park)
  | transit | exited
  | escaping | raised
deriving DecidableEq, Repr

/-- One thread slot (R141). -/
structure Thread where
  gid    : Nat
  tix    : Nat
  slot   : Nat := 0
  pack   : Nat := 0
  pos    : Pos := {}
  /-- The position was reached by a landing (R356): by no fall-through. -/
  landed : Bool := true
  stat   : TStat := .ready
  w      : Regs := []
  pr     : BitVec 8 := 0
  fstat  : Word := 0
  fctl   : Word := 0
  hsp    : DWord := 0
  rngk   : DWord := 0
  rngc   : DWord := 0
  gen    : Nat := 0
  prs    : Nat := 0
  loads  : List Load := []
  demoted : Bool := false
  /-- A `.poll` load was performed in the running clause (R167). -/
  poll   : Bool := false
  ageing : Nat := 0
  /-- AGEING_THRESHOLD has marked its 4,096 issue opportunities (R157). -/
  aged   : Bool := false
  /-- What holds a held thread (Table 7-1): the flags that must be clear, and those that must be below their
  limit (R50). -/
  holdW  : Nat := 0
  holdS  : List Nat := []
  pend   : Option Raise := none
  /-- LINK.LOST with cause 2 reaches the thread at its next clause boundary (R389). -/
  lost   : Bool := false
  /-- The model's own: destinations of ARITH activations, by handler generation (log 6). -/
  arith  : List (Nat × Dest) := []
  /-- The model's own: the halt of a delivered token, as in `Raise.cmd`, by handler generation (R309, log 6). -/
  halts  : List (Nat × Nat) := []
  /-- When BAR.BROKEN of a lost or cancelled kernel was received (R243). -/
  brokenAt : Option Nat := none
  /-- Let go on by the supervisor while stop-group mode still holds its group (R415). -/
  goes   : Bool := false
  /-- The serial of the chunk in which the thread requested a close: its next clause is in a later one (R260). -/
  nextChunk : Option Nat := none
  /-- Where `escaping`: the cause of the close that it waits for, and the serial of the chunk in which it left its
  pack, while it has not closed (R188, R251). -/
  escFor : Nat := 6
  escAt  : Option Nat := none
  /-- Ready at the word of a retry, which comes first in its empty chunk (Table 9-7). -/
  retrying : Bool := false
  /-- Stop at the next clause boundary: the group ends faulted or its kernel is stopped (R217, R232). -/
  stop   : Bool := false
deriving DecidableEq, Repr

/-- One lane set of one rejoin barrier (R149): named and arrived masks. -/
structure Rejoin where
  named   : Word := 0
  arrived : Word := 0
deriving DecidableEq, Repr

/-- Group states (Table 11-2) that are not derived from its threads: a pending group holds no entry, a
placement loads at once, and a flushed group is pending again. -/
inductive GStat where
  | live | draining | saving | saved | exited | faulted
deriving DecidableEq, Repr

/-- A launch record (Table 10-1). -/
structure LaunchRec where
  entry : Nat := 0
  args  : DWord := 0
  stackBase : DWord := 0
  done  : Nat := 0
  deadline : Nat := 0
  stack : Nat := 0
  scratch : Nat := 0
  regs  : Nat := 16
  glevel : Nat := 0
  clevel : Nat := 0
  band  : Nat := 0
  idem  : Bool := false
  tag   : Word := 0
  widths  : List Nat := []
  extents : List Nat := []
  slots   : List Word := []
  /-- First group and count of each die (R206). -/
  ranges  : List (Nat × Nat) := []
deriving DecidableEq, Repr

/-- Kernel states (Table 10-2). -/
inductive KStat where
  | queued | running | suspended | closing | ended
deriving DecidableEq, Repr

/-- One kernel (10). -/
structure Kernel where
  kid   : Nat
  cid   : Nat
  qid   : Nat
  seq   : Nat
  rc    : LaunchRec := {}
  stat  : KStat := .queued
  /-- 0 while it runs; the status of its completion word when decided (R218). -/
  status : Nat := 0
  /-- Groups placed so far on each die (R208, R221). -/
  placed : List (Nat × Nat) := []
  /-- Flushed groups that are pending again (R229). -/
  again  : List Nat := []
  endedG : List Nat := []
  faulted : Nat := 0
  /-- Threads whose exits have committed, by group index and thread index (R234). -/
  exits  : List (Nat × Nat) := []
  /-- Resident ns of the last 64 groups that exited on each die, latest first (R224). -/
  recent : List (Nat × List Nat) := []
  /-- What breaks its barriers (R242): the cause of Table 12-4, the first group and the count. -/
  breaks : List (Nat × Nat × Nat) := []
  /-- Its groups were saved whole, and return ahead of its pending ones (R382). -/
  preempted : Bool := false
  /-- The kernel of a widened call of this hart (R367). -/
  hart : Option Nat := none
deriving DecidableEq, Repr

/-- The member set of a barrier (R233): `gN` groups from `gLo`, `tN` threads from `tLo` of each. -/
structure BarKey where
  gLo : Nat
  gN  : Nat
  tLo : Nat
  tN  : Nat
deriving DecidableEq, Repr

/-- One barrier object (R234). -/
structure Barrier where
  bid   : Nat
  kid   : Nat
  key   : BarKey
  id    : Nat
  phase : Word := 0
  arrived : List (Nat × Nat) := []
  /-- The cause of Table 12-4, when broken. -/
  broken  : Option Nat := none
deriving DecidableEq, Repr

/-- A clause in flight for a pack (R50). -/
structure Running where
  rid   : Nat
  core  : Nat
  gid   : Nat
  hdr   : Nat
  count : Nat := 0
  setA  : Nat := 15
  setB  : Nat := 15
  yield : Bool := false
  code  : List Nat := []
  idx   : Nat := 0
  /-- Threads of the pack that have not left it. -/
  tixs  : List Nat := []
  /-- Threads for which the word at `idx` is still to be performed. -/
  act   : List Nat := []
  /-- Threads at which the word being performed has stalled. -/
  stall : List Nat := []
  /-- The clause has performed an access on a chunked page (R248, R276). -/
  l1 : Bool := false
deriving DecidableEq, Repr

/-- A valid sector of 32 bytes of an L1 or cluster-cache line, with what the 512-byte tag of its line holds: in an
L1 the virtual tag, and the class, grain, world and leaf of the translation that installed it (R195, R198). In the
holder's L2 it is a whole host line of 512 bytes (R387). `dirty` is a mask by byte. -/
structure Line where
  asid : Nat := 0
  va   : Nat := 0
  pa   : Nat
  size : Nat
  cls  : Nat := 1
  world : Bool := false
  data : List Byte := []
  dirty : List Bool := []
  grain : Nat := 32
  leaf : Nat := 0
  /-- The size of the page of `leaf`. -/
  span : Nat := 0
deriving DecidableEq, Repr

/-- A deferred reduction (R173): one thread's contribution. -/
structure Red where
  pa : Nat
  op : AtomOp
  n  : Nat
  v  : Nat
  grain : Nat
deriving DecidableEq, Repr

/-- An undo entry (R169): the prior content of an 8-byte scratchpad word of a group. -/
structure Undo where
  gid : Nat
  off : Nat
  old : List Byte
deriving DecidableEq, Repr

/-- A chunk (Table 14-1). Grains are (physical base, size). -/
structure Chunk where
  serial : Nat := 0
  opened : Nat := 0
  rd     : List (Nat × Nat) := []
  wr     : List (Nat × Nat) := []
  cells  : List (Nat × Byte) := []
  reds   : List Red := []
  undo   : List Undo := []
  /-- Pages it holds, by ASID and virtual page (R199). -/
  pages  : List (Nat × Nat) := []
  parity : Bool := false
  solo   : Bool := false
deriving DecidableEq, Repr

/-- A register checkpoint (R246): threads, and per group the uniform registers and rejoin state. -/
structure Ckpt where
  threads : List Thread := []
  groups  : List (Nat × Regs × List (Nat × Rejoin)) := []
deriving DecidableEq, Repr

/-- A copy of the engine (R180): its block, its progress and how it stands. -/
structure Copy where
  n     : Nat
  gid   : Nat
  tix   : Nat
  flag  : Option Nat := none
  blkAt : Nat := 0
  dst   : Nat := 0
  src   : Nat := 0
  rows  : Nat := 0
  bytes : Nat := 0
  dstr  : Nat := 0
  sstr  : Nat := 0
  dsp   : Nat := 0
  rank  : Nat := 0
  ssp   : Nat := 0
  flags : Nat := 0
  flagOff : Nat := 0
  flagVal : Word := 0
  zero  : Bool := true
  row   : Nat := 0
  col   : Nat := 0
  started : Bool := false
  stopped : Option (Nat × Nat) := none
  status  : Nat := 0
deriving DecidableEq, Repr

/-- Tile commands by what they do (17, 18). -/
inductive TOp where
  | zero (free : Bool)
  | ld (off stride elem : Nat) (code : List Nat)
  | st (off stride elem : Nat)
  | mma (blk : List Byte) (sa sb : Word) (code : List Nat)
  | dadd (desc : Nat) (ty : Nat)
  | code (img : List Nat)
  | lu (pv n : Nat)
  | chol (n : Nat)
  | qr (t m n : Nat)
  | trsm (t n k : Nat) (tr unit up : Bool)
  | pvap (pv : Nat) (inv : Bool)
deriving DecidableEq, Repr

/-- A tile command in flight (R282). -/
structure TCmd where
  n    : Nat
  gid  : Nat
  tix  : Nat
  tile : Nat
  op   : TOp
  flag : Option Nat := none
  /-- The result pair (R303), if any. -/
  res  : Option Nat := none
  hdr  : Nat := 0
  opc  : Nat := 0
  begun : Bool := false
  /-- It holds the matrix array (R283): from its beginning or its turn after a resume to its end or a halt (R310). -/
  holds : Bool := false
  step : Nat := 0
  resumed : Bool := false
  /-- The maxima of R303, as FA48 containers: taken at the beginning. -/
  mx   : Nat := 0
  /-- Halted with this effect and offending container (R307); effect 0 is MACHINE 0x0504 (R411). -/
  halt : Option (Nat × Nat) := none
  /-- The code-table bank it captured, which it pins (R294). -/
  bank : Option Bool := none
  /-- Mode 1 or 2 of a drain-add: the group it follows into a save (R413). -/
  meant : Option Nat := none
  /-- The value of a resume that enters the failing step (R308). -/
  val  : Option Nat := none
  /-- A drain-add whose read is done and which waits for its acknowledgement (R297). -/
  sent : Bool := false
deriving DecidableEq, Repr

/-- A tile (R278): elements are FA48 containers by 32 × i + j. -/
structure Tile where
  gid   : Nat
  el    : List (Nat × DWord) := []
  inbound : Nat := 0
  step  : Nat := 0
  waiters : List Nat := []
deriving DecidableEq, Repr

/-- A permutation register (R305). -/
structure Pv where
  gid : Nat
  c   : Nat := 0
  p   : List (Nat × Nat) := []
deriving DecidableEq, Repr

/-- What a save record carries of the core (R349, R295, R140, R228, R311): the images, the group's units of
the weight buffer, its tiles, permutation registers and commands, and the copies that no save waits for. -/
structure SaveRec where
  codeTab : List Nat := []
  fts     : List (Nat × List Byte × Bool) := []
  units   : List Nat := []
  wbuf    : List Host.Cell := []
  /-- The highest numbers the group was given (R183). -/
  topCopy : Nat := 0
  topTile : Nat := 0
  tiles   : List (Nat × Tile) := []
  pvs     : List (Nat × Pv) := []
  tcmds   : List TCmd := []
  copies  : List Copy := []
deriving DecidableEq, Repr

/-- One group (11). Pending groups hold no entry. -/
structure Group where
  gid   : Nat
  kid   : Nat
  gix   : Nat
  die   : Nat
  core  : Nat
  stat  : GStat := .live
  k     : Regs := []
  /-- Rejoin barriers by 32 × number + lane set. -/
  rj    : List (Nat × Rejoin) := []
  spad  : List Host.Cell := []
  escaped : Bool := false
  /-- ns resident, summed over restores (R224), but for the time since `placedAt`. -/
  ns    : Nat := 0
  placedAt : Nat := 0
  save  : SaveRec := {}
  /-- The offset of its save record in the context's save area (R349). -/
  recAt : Nat := 0
  /-- The scratchpad of an exited group of a cluster set stays reserved (R231). -/
  keeps : Bool := false
  /-- Saved to make room for a pending group that its barrier counts (R241). -/
  room  : Bool := false
  /-- The core that a thermal move left (R230). -/
  avoid : Option Nat := none
  /-- Stop-group mode holds the group since a thread of it parked (R155). -/
  halted : Bool := false
  /-- Started by a widened call: its lanes, the hart that waits, and the return address (R367). -/
  width : Nat := 1
  caller : Option (Nat × Nat) := none
  /-- Lane 0's a0 and a1 at its return (R367). -/
  ret0  : DWord := 0
  ret1  : DWord := 0
deriving DecidableEq, Repr

/-- A drain-add on its way to a tile (R297). -/
structure DAdd where
  core  : Nat
  n     : Nat
  gid   : Nat
  cid   : Nat
  /-- Target core, target package when on a peer (R296). -/
  target : Nat
  pkg   : Option Nat := none
  /-- Mode 0: the group meant (R413). -/
  toGid : Option Nat := none
  ok    : Bool := true
  ty    : Nat
  el    : List (Nat × DWord)
  /-- The status to acknowledge once it has been applied or refused. -/
  ans   : Option Nat := none
deriving DecidableEq, Repr

/-- A function table (R136): two banks of an image with its validity, and the current one. -/
structure Ft where
  img0 : List Byte := []
  ok0  : Bool := false
  img1 : List Byte := []
  ok1  : Bool := false
  cur  : Bool := false
deriving DecidableEq, Repr

/-- An `ftld` in flight (R137). -/
structure Ftld where
  gid : Nat
  tix : Nat
  ft  : Nat
  off : Nat
  flag : Option Nat := none
deriving DecidableEq, Repr

/-- A cached translation (R198): the leaf of a page by ASID, as under Sx48. -/
structure Tlb where
  asid : Nat
  root : Nat
  va   : Nat
  size : Nat
  leaf : Nat
deriving DecidableEq, Repr

/-- A fetched clause (R59, R198). -/
structure Fetched where
  asid : Nat
  hdr  : Nat
  code : List Nat
deriving DecidableEq, Repr

/-- A Ubhus core. -/
structure Core where
  cid    : Option Nat := none
  lines  : List Line := []
  openC  : Chunk := {}
  comC   : Option Chunk := none
  ck     : Ckpt := {}
  comCk  : Ckpt := {}
  due    : List Nat := []
  mark   : Nat := 0
  run    : Nat := 0
  sq     : Nat := 0
  lastClose : Nat := 0
  lastSq : Nat := 0
  /-- Holds the solo grant (R256). -/
  soloHas : Bool := false
  /-- The close that lets the solo chunk open has happened: the next chunk opens alone. -/
  soloNext : Bool := false
  copyCtr : Nat := 0
  copies : List Copy := []
  copyFail : Nat := 0
  copyStat : Nat := 0
  tileCtr : Nat := 0
  tcmds  : List TCmd := []
  tileFail : Nat := 0
  tileStat : Nat := 0
  tiles  : List (Nat × Tile) := []
  pvs    : List (Nat × Pv) := []
  wbuf   : List Host.Cell := []
  wown   : List (Nat × Nat) := []
  code0  : List Nat := []
  code1  : List Nat := []
  codeCur : Bool := false
  fts    : List (Nat × Ft) := []
  ftlds  : List Ftld := []
  fetched : List Fetched := []
  sliceStart : Nat := 0
  sliceEnd : Option Nat := none
  /-- Overruns carried by contexts (R347). -/
  overrun : List (Nat × Nat) := []
  /-- A stop request stands (R347). -/
  stopping : Bool := false
  /-- The threads that may not have the next issue slot (R54). -/
  yielded : List (Nat × Nat) := []
  fenced : Bool := false
deriving DecidableEq, Repr

/-- A transit record (R358, R359): the thread and its image, where it lands, and an effect that it parks on
at home (R364). -/
structure Transit where
  gid : Nat
  tix : Nat
  img : Image
  pc  : Nat
  park : Option Raise := none
deriving DecidableEq, Repr

/-- A visitor context that runs a thread (R360), since when. -/
structure Visitor where
  gid : Nat
  tix : Nat
  img : Image
  pc  : Nat
  since : Nat
deriving DecidableEq, Repr

/-- What a hart's latest access or widened call gave it (R268, R367, Table 23-3). -/
inductive HartRes where
  | val (n : Nat)
  | pair (a0 a1 : DWord)
  /-- A trap, with `sepc`: the address of the instruction that it names (R372, Table 23-3). -/
  | trap (scause stval sepc : Nat)
deriving DecidableEq, Repr

/-- A widened call in flight (R367): its context, its kernel once the dispatcher has taken it, where the hart
landed, the caller's image, the lanes and the stack stride that the hart's CSRs gave at the call, and whether the hart
waits for it now: a supervisor may have switched it to another thread. -/
structure WCall where
  cid : Nat
  kid : Option Nat := none
  pc  : Nat
  img : Image
  lanes  : Nat := 1
  stride : Nat := 0
  cur    : Bool := true
deriving DecidableEq, Repr

/-- A hart of the headland (15/R268, 23/R367). -/
structure Hart where
  /-- N of `wwidth` (Table 23-4). -/
  lanes  : Nat := 0
  /-- Busy of `wwidth`. -/
  busy   : Bool := false
  /-- Calls in flight that are bound to the hart: one for each thread that waits. -/
  calls  : List WCall := []
  wstack : DWord := 0
  /-- The reservation of an LR: grain, size and tidemark (R253). -/
  resv   : Option (Nat × Nat × Nat) := none
  /-- Results of its accesses and calls, latest first. -/
  got    : List HartRes := []
  /-- Its own translation caches (R199). -/
  tlb    : List Tlb := []
deriving DecidableEq, Repr

/-- A Fliaz port (R392 to R394): failed lanes, and whether it is up. -/
structure FPort where
  failed : Nat := 0
  up     : Bool := true
deriving DecidableEq, Repr

/-- One die. -/
structure Die where
  /-- Held in reset. -/
  held   : Bool := true
  fatal  : Bool := false
  clk    : Nat := 0
  /-- The part of the next arithmetic cycle that has passed, in thousandths. -/
  phase  : Nat := 0
  mhz    : Nat := 2000
  /-- Since when the supply droops, and whether the module is outside the envelope of R17 (R16). -/
  droop  : Option (Nat × Bool) := none
  /-- The stretched time of the last µs: when each piece of it began, and its ns (R16). -/
  stretched : List (Nat × Nat) := []
  /-- Cycles of the headland's clock of 3.0 GHz since the release, as `cycle` counts them (R18). -/
  hclk   : Nat := 0
  /-- The region table: 16 entries (Table 27-5). -/
  regions : List (Nat × Nat) := []
  /-- Memory devices marked failed (R408). -/
  failed : List Nat := []
  /-- The standby copy of the arbiter node is in use (R410). -/
  standby : Bool := false
  /-- The visitor queue (R360), and the returning records (R362). -/
  vq     : List Transit := []
  homing : List Transit := []
  visitors : List (Nat × Visitor) := []
  tlb    : List Tlb := []
  fports : List (Nat × FPort) := []
  harts  : List (Nat × Hart) := []
  /-- Quadrants whose spare is in use, and the core it replaced (R409, R11). -/
  spares : List (Nat × Nat) := []
  /-- Kernels that have cut a slice short here, by the core they took (R377). -/
  trig   : List (Nat × Nat) := []
deriving DecidableEq, Repr

/-- A record of a fault queue (Table 9-5). -/
structure FRec where
  kind  : Nat
  cause : Nat := 0
  access : Nat := 0
  flags : Nat := 0
  asid  : Nat := 0
  addr  : Nat := 0
  clause : Nat := 0
  place : Nat := 0
  timeline : Nat := 0
deriving DecidableEq, Repr

/-- Context states (Table 21-2) that are not derived. -/
inductive CStat where
  | defined | serving | away | ending | gone
deriving DecidableEq, Repr

/-- A context (21). -/
structure Ctx where
  cid   : Nat
  part  : Nat
  num   : Nat := 1
  desc  : Nat := 0
  satp  : DWord := 0
  saveBase : Nat := 0
  saveSize : Nat := 0
  fqBase : Nat := 0
  entries : Nat := 16
  drain : Nat := 0
  threshold : Nat := 0
  secure : Bool := false
  stopGroup : Bool := false
  stat  : CStat := .defined
  produced : Nat := 0
  held  : List FRec := []
  ticket : Nat := 1
  /-- Replies posted for tickets of saved groups (R213). -/
  replies : List (Nat × DWord × DWord) := []
  session : Option Nat := none
deriving DecidableEq, Repr

/-- Queue states (Table 25-2). -/
inductive QStat where
  | active | quiesced | drained | destroyed
deriving DecidableEq, Repr

/-- A queue (25). -/
structure Queue where
  qid  : Nat
  part : Nat
  num  : Nat := 0
  cid  : Nat
  gen  : Nat := 1
  cap  : Nat := 1
  dropLate : Bool := false
  stat : QStat := .active
  seq  : Nat := 1
  /-- Kernels in it that have not ended, in sequence order. -/
  kids : List Nat := []
  /-- The Trethar session that owns it; none is the supervisor, or an ended session. -/
  session : Option Nat := none
  /-- Orphaned until then (R381). -/
  holdTill : Option Nat := none
  /-- The requester of the ended session that owned it. -/
  orphanOf : Option Nat := none
deriving DecidableEq, Repr

/-- A Trethar session (R386) and its requester. -/
structure Session where
  sid  : Nat
  req  : Nat
deriving DecidableEq, Repr

/-- Host link states (Table 26-1). -/
inductive LinkStat where
  | down | up | lost
deriving DecidableEq, Repr

/-- Partition states (Table 27-1); dies of no partition are unassigned. -/
inductive PStat where
  | measuring | running | degraded | draining | held | scrubbing
deriving DecidableEq, Repr

/-- An admission of peer packages (R395, Table 26-8). -/
structure Admit where
  num   : Nat
  first : Nat
  count : Nat
  base  : Nat
  len   : Nat
  rights : Nat
deriving DecidableEq, Repr

/-- A binding of a peer's context to a context (R395, Table 26-8). -/
structure Bind where
  num : Nat
  cid : Nat
  pkg : Nat
  ctx : Nat
deriving DecidableEq, Repr

/-- A quarantined line (R389, R390): its entry number, its host address, the replay writes that the host has not
acknowledged. -/
structure Quar where
  idx : Nat
  pa  : Nat
  replay : Bool := false
deriving DecidableEq, Repr

/-- A partition (27). -/
structure Part where
  pid   : Nat
  dies  : List Nat
  stat  : PStat := .measuring
  grants : Nat := 0
  /-- The data keys of its two worlds, which the Zynrak die generates at its release (R403). -/
  keyOpen : BitVec 256 := 0
  keySecure : BitVec 256 := 0
  /-- Cores that asked for the solo grant, in order; the first may hold it (R256). -/
  solo  : List Nat := []
  /-- Slice length in µs (R376) and hold time in ns (R381), as the supervisor sets them. -/
  slice : Nat := 100
  hold  : Nat := 1000000000
  link  : LinkStat := .down
  /-- The port of the host link, and the quarantine area, that the supervisor names (R383, R390). -/
  linkPort : Option Nat := none
  area  : Nat := 0
  /-- Supervisor external interrupts raised (R352, R405). -/
  irq   : Nat := 0
  /-- The group that the SAVE_GROUP command at Consumer has named (R344). -/
  saving : Option Nat := none
  sessions : List Session := []
  admits : List Admit := []
  binds  : List Bind := []
  quarantine : List Quar := []
  /-- Lines of host memory cached by the holder, and write-backs in flight (R387, R388). -/
  lines : List Line := []
  wbs   : List Line := []
  /-- Trethar replies, latest first, with the time at which each is sent (R384, R407). -/
  replies : List (Nat × List Byte) := []
deriving DecidableEq, Repr

/-- A peer scratchpad store in flight (R170). -/
structure Stx where
  id   : Nat
  gid  : Nat
  tix  : Nat
  toGid : Nat
  off  : Nat
  data : List Byte
  done : Bool := false
deriving DecidableEq, Repr

/-- A replicated store on its way to one die's copy (R161, R266). -/
structure Repl where
  id  : Nat
  gid : Nat
  tix : Nat
  die : Nat
  pa  : Nat
  data : List Byte
deriving DecidableEq, Repr

/-- A write to host or peer memory not yet acknowledged (R177). -/
structure HostWr where
  id  : Nat
  gid : Nat
  tix : Nat
  pa  : Nat
  data : List Byte
deriving DecidableEq, Repr

/-- The Zynrak die (27). -/
structure Zynrak where
  /-- The one image of the flash (R402). -/
  flash : List Byte := []
  /-- In recovery: the bytes of a new image held so far (R402). -/
  recovery : Option (List Host.Cell) := none
  /-- The end of the last piece, once it has arrived (R402). -/
  recEnd : Option Nat := none
  /-- The partition table: a partition's number and its dies (R397). -/
  table : List (Nat × List Nat) := []
  /-- SPDM measurements by index (Table 27-4). -/
  meas  : List (Nat × Nat) := []
  answers : List (List Byte) := []
deriving DecidableEq, Repr

/-- The machine without its schedule. -/
structure Mach where
  time   : Nat := 0
  /-- The model's own: the clause in flight whose word is being performed. -/
  cur    : Option Nat := none
  /-- The model's own: the next number for a new object. -/
  nextId : Nat := 0
  running : List Running := []
  threads : List Thread := []
  groups  : List Group := []
  kernels : List Kernel := []
  barriers : List Barrier := []
  ctxs    : List Ctx := []
  queues  : List Queue := []
  cores   : List (Nat × Core) := []
  clusters : List (Nat × List Line) := []
  dies    : List (Nat × Die) := []
  parts   : List Part := []
  mem     : List Host.Cell := []
  poison  : List Nat := []
  /-- Uncorrectable soft errors that no access has met yet (R411). -/
  bad     : List SoftAt := []
  stxs    : List Stx := []
  dadds   : List DAdd := []
  repls   : List Repl := []
  hostWrs : List HostWr := []
  /-- Failed x16 ports (R391). -/
  xfailed : List Nat := []
  zyn     : Zynrak := {}
  /-- Reset-sequence data that reads as the package's number (R110, R406). -/
  pkg     : Nat := 0
  pkgSet  : Bool := false
  /-- Replies sent to hosts and peers, latest first (R384, R395). -/
  outbox  : List (List Nat) := []
deriving DecidableEq, Repr

/-- What a turn of the schedule does: perform the next word of a clause in flight, or an event. -/
inductive Move where
  | word (rid : Nat)
  | event (i : Instr)
deriving DecidableEq, Repr

/-- One turn of the schedule (log 1): the package time that passes (ns), how many of them each die's
clock is stretched for (R16), whether the caches of translations and fetched clauses are dropped first, and
the move. -/
structure Turn where
  dt    : Nat := 0
  cyc   : List Nat := []
  evict : Bool := false
  move  : Move
deriving DecidableEq, Repr

/-- The whole state: the schedule still to come, and the machine. -/
structure State where
  agenda : List Turn
  m      : Mach
deriving DecidableEq, Repr

/-- Apply a change to the machine, leaving the schedule alone. -/
def State.onMach (s : State) (f : Mach → Mach) : State := ⟨s.agenda, f s.m⟩

/-- The machine right after reset, before the Zynrak die has read an image: PACKAGE_RESET is the
event that does so (R401). Every die is held, there is no thread, `TIME` is 0 (R20). -/
def State.reset : State := ⟨[], {}⟩

end Sys2Proof.Machine
end

