-- ==== Sys2Proof/Machine/Table.lean ====
section
/-!
DEFINITION. The lists that hold sparse state, in their one canonical form, and the lookups of
the objects of a machine by name.
-/

namespace Sys2Proof.Machine

/-! Tables: keys strictly rising. -/

/-- The entry of a key. -/
def lget {α : Type} : List (Nat × α) → Nat → Option α
  | [], _ => none
  | (j, v) :: r, k => if j = k then some v else lget r k

/-- Put an entry in its place, over an older one. -/
def lput {α : Type} : List (Nat × α) → Nat → α → List (Nat × α)
  | [], k, v => [(k, v)]
  | (j, u) :: r, k, v =>
    if k < j then (k, v) :: (j, u) :: r
    else if k = j then (k, v) :: r
    else (j, u) :: lput r k v

/-- Remove an entry. -/
def ldel {α : Type} (l : List (Nat × α)) (k : Nat) : List (Nat × α) :=
  l.filter (fun e => e.1 != k)

/-! Bytes: an unlisted address holds 0 (log 2). -/

/-- The byte at an address. -/
def cget (l : List Host.Cell) (a : Nat) : Byte := (lget l a).getD 0

/-- Write a byte; a zero is not listed. -/
def cput (l : List Host.Cell) (a : Nat) (b : Byte) : List Host.Cell :=
  if b = 0 then ldel l a else lput l a b

/-- `n` bytes from an address. -/
def cread (l : List Host.Cell) : Nat → Nat → List Byte
  | _, 0 => []
  | a, n + 1 => cget l a :: cread l (a + 1) n

/-- Write bytes from an address. -/
def cwrite (l : List Host.Cell) : Nat → List Byte → List Host.Cell
  | _, [] => l
  | a, b :: bs => cwrite (cput l a b) (a + 1) bs

/-- Write bytes under a mask. -/
def cwriteMask (l : List Host.Cell) : Nat → List Byte → List Bool → List Host.Cell
  | a, b :: bs, d :: ds => cwriteMask (if d then cput l a b else l) (a + 1) bs ds
  | _, _, _ => l

/-- Keys strictly rising. -/
def keysRise : List Host.Cell → Bool
  | (a, _) :: (b, v) :: r => decide (a < b) && keysRise ((b, v) :: r)
  | _ => true

/-- The canonical form of a memory: rising addresses, no zero listed. -/
def Memory.wf (l : List Host.Cell) : Bool := keysRise l && l.all (fun c => c.2 != 0)

/-! Registers: `w0` and `w1` read as zero and discard writes (R61). -/

/-- A w register. -/
def rget (r : Regs) (n : Nat) : Word := if n < 2 then 0 else (lget r n).getD 0

/-- Write a w register. -/
def rput (r : Regs) (n : Nat) (v : Word) : Regs :=
  if n < 2 then r else if v = 0 then ldel r n else lput r n v

/-- A uniform register: all 64 are plain. -/
def kget (r : Regs) (n : Nat) : Word := (lget r n).getD 0

/-- Write a uniform register. -/
def kput (r : Regs) (n : Nat) (v : Word) : Regs := if v = 0 then ldel r n else lput r n v

/-- The low and high words of a 64-bit value. -/
def loW (v : DWord) : Word := v.truncate 32

/-- The high word. -/
def hiW (v : DWord) : Word := (v >>> 32).truncate 32

/-- A pair from its words, low first. -/
def mkD (lo hi : Word) : DWord := hi ++ lo

namespace Thread

/-- Read w register `n`. -/
def rd (t : Thread) (n : Nat) : Word := rget t.w n

/-- Write w register `n`. -/
def wr (t : Thread) (n : Nat) (v : Word) : Thread := { t with w := rput t.w n v }

/-- Read pair `n`. -/
def rdD (t : Thread) (n : Nat) : DWord := mkD (t.rd n) (t.rd (n + 1))

/-- Write pair `n`. -/
def wrD (t : Thread) (n : Nat) (v : DWord) : Thread := (t.wr n (loW v)).wr (n + 1) (hiW v)

/-- Read predicate `n`: p0 is true (R107). -/
def rdP (t : Thread) (n : Nat) : Bool := if n = 0 then true else t.pr.getLsbD n

/-- Write predicate `n`: writes to p0 are discarded (R61). -/
def wrP (t : Thread) (n : Nat) (v : Bool) : Thread :=
  if n = 0 then t
  else { t with pr := if v then t.pr ||| (1#8 <<< n) else t.pr &&& ~~~(1#8 <<< n) }

/-- The guard of a word (Table 3-3). -/
def guard (t : Thread) (g : Guard) : Bool := t.rdP g.p != g.neg

end Thread

namespace Mach

/-! Objects by name. A core that has never been touched is fresh. -/

/-- Core `c` of the package: 64 × die + logical core. -/
def core (m : Mach) (c : Nat) : Core := (lget m.cores c).getD {}

/-- Change a core. -/
def updCore (m : Mach) (c : Nat) (f : Core → Core) : Mach :=
  { m with cores := lput m.cores c (f (m.core c)) }

/-- A die. -/
def die (m : Mach) (d : Nat) : Die := (lget m.dies d).getD {}

/-- Change a die. -/
def updDie (m : Mach) (d : Nat) (f : Die → Die) : Mach :=
  { m with dies := lput m.dies d (f (m.die d)) }

/-- The lines of a cluster cache: 16 × die + cluster. -/
def cluster (m : Mach) (c : Nat) : List Line := (lget m.clusters c).getD []

/-- Replace the lines of a cluster cache. -/
def setCluster (m : Mach) (c : Nat) (l : List Line) : Mach :=
  { m with clusters := lput m.clusters c l }

/-- A thread by group and index. -/
def thread? (m : Mach) (gid tix : Nat) : Option Thread :=
  m.threads.find? (fun t => t.gid == gid && t.tix == tix)

/-- Change one thread. -/
def updThread (m : Mach) (gid tix : Nat) (f : Thread → Thread) : Mach :=
  { m with threads := m.threads.map (fun t => if t.gid == gid && t.tix == tix then f t else t) }

/-- A group. -/
def group? (m : Mach) (gid : Nat) : Option Group := m.groups.find? (fun g => g.gid == gid)

/-- Change a group. -/
def updGroup (m : Mach) (gid : Nat) (f : Group → Group) : Mach :=
  { m with groups := m.groups.map (fun g => if g.gid == gid then f g else g) }

/-- A kernel. -/
def kernel? (m : Mach) (kid : Nat) : Option Kernel := m.kernels.find? (fun k => k.kid == kid)

/-- Change a kernel. -/
def updKernel (m : Mach) (kid : Nat) (f : Kernel → Kernel) : Mach :=
  { m with kernels := m.kernels.map (fun k => if k.kid == kid then f k else k) }

/-- A context. -/
def ctx? (m : Mach) (cid : Nat) : Option Ctx := m.ctxs.find? (fun c => c.cid == cid)

/-- Change a context. -/
def updCtx (m : Mach) (cid : Nat) (f : Ctx → Ctx) : Mach :=
  { m with ctxs := m.ctxs.map (fun c => if c.cid == cid then f c else c) }

/-- A queue. -/
def queue? (m : Mach) (qid : Nat) : Option Queue := m.queues.find? (fun q => q.qid == qid)

/-- Change a queue. -/
def updQueue (m : Mach) (qid : Nat) (f : Queue → Queue) : Mach :=
  { m with queues := m.queues.map (fun q => if q.qid == qid then f q else q) }

/-- A partition. -/
def part? (m : Mach) (pid : Nat) : Option Part := m.parts.find? (fun p => p.pid == pid)

/-- Change a partition. -/
def updPart (m : Mach) (pid : Nat) (f : Part → Part) : Mach :=
  { m with parts := m.parts.map (fun p => if p.pid == pid then f p else p) }

/-- The partition that owns a die. -/
def partOf (m : Mach) (d : Nat) : Option Part := m.parts.find? (fun p => p.dies.contains d)

/-- A barrier object. -/
def barrier? (m : Mach) (bid : Nat) : Option Barrier := m.barriers.find? (fun b => b.bid == bid)

/-- Change a barrier object. -/
def updBarrier (m : Mach) (bid : Nat) (f : Barrier → Barrier) : Mach :=
  { m with barriers := m.barriers.map (fun b => if b.bid == bid then f b else b) }

/-- The clause in flight whose word is being performed. -/
def curRun (m : Mach) : Option Running :=
  match m.cur with
  | none => none
  | some rid => m.running.find? (fun r => r.rid == rid)

/-- Change a clause in flight. -/
def updRun (m : Mach) (rid : Nat) (f : Running → Running) : Mach :=
  { m with running := m.running.map (fun r => if r.rid == rid then f r else r) }

/-- The kernel of a group. -/
def kernelOf (m : Mach) (gid : Nat) : Option Kernel :=
  match m.group? gid with
  | none => none
  | some g => m.kernel? g.kid

/-- The launch record that governs a group. -/
def recOf (m : Mach) (gid : Nat) : LaunchRec :=
  match m.kernelOf gid with
  | none => {}
  | some k => k.rc

/-- The context of a group. -/
def ctxOf (m : Mach) (gid : Nat) : Option Ctx :=
  match m.kernelOf gid with
  | none => none
  | some k => m.ctx? k.cid

/-- The core a group is on. -/
def coreOf (m : Mach) (gid : Nat) : Nat :=
  match m.group? gid with
  | none => 0
  | some g => g.core

/-- The die a group is on. -/
def dieOf (m : Mach) (gid : Nat) : Nat :=
  match m.group? gid with
  | none => 0
  | some g => g.die

/-- A fresh number. -/
def fresh (m : Mach) : Mach := { m with nextId := m.nextId + 1 }

end Mach

/-! Numbers in bytes and words. -/

/-- The number in little-endian bytes. -/
def bytesNat : List Byte → Nat
  | [] => 0
  | b :: bs => b.toNat + 256 * bytesNat bs

/-- `n` little-endian bytes of a number. -/
def natBytes : Nat → Nat → List Byte
  | 0, _ => []
  | n + 1, v => BitVec.ofNat 8 v :: natBytes n (v / 256)

/-- A little-endian field of a byte block. -/
def fieldAt (bs : List Byte) (off n : Nat) : Nat := bytesNat ((bs.drop off).take n)

/-- Addresses wrap at 64 bits (R159). -/
def addr64 (a : Int) : Nat := (a % (2 ^ 64 : Nat)).toNat

/-- Scratchpad offsets wrap at 32 bits (R159). -/
def addr32 (a : Int) : Nat := (a % (2 ^ 32 : Nat)).toNat

end Sys2Proof.Machine
end

