-- ==== Sys2Proof/Machine/Num.lean ====
section
/-!
DEFINITION. Exact numbers and their one rounding (R69 to R84): values are decoded to an exact
dyadic number, computed with in integers, and rounded once. Flags are the five bits of Table 6-1.
-/

namespace Sys2Proof.Machine

/-- Flag bits (Table 6-1). -/
def fNV : Nat := 16
/-- Divide by zero. -/
def fDZ : Nat := 8
/-- Overflow. -/
def fOF : Nat := 4
/-- Underflow. -/
def fUF : Nat := 2
/-- Inexact. -/
def fNX : Nat := 1

/-- A decoded value: a NaN (signalling or not), an infinity, or (-1)^neg × m × 2^e. -/
inductive FVal where
  | nan (sig : Bool)
  | inf (neg : Bool)
  | fin (neg : Bool) (m : Nat) (e : Int)
deriving DecidableEq, Repr

/-- An IEEE-style format: precision with the hidden bit, exponent bits (Table 4-1). -/
structure Fmt where
  p  : Nat
  eb : Nat
deriving DecidableEq, Repr

/-- FP32. -/
def FP32 : Fmt := ⟨24, 8⟩
/-- FP16. -/
def FP16 : Fmt := ⟨11, 5⟩
/-- BF16. -/
def BF16 : Fmt := ⟨8, 8⟩
/-- FA48: the top 48 bits of binary64 (R71). -/
def FA48 : Fmt := ⟨37, 11⟩
/-- The grid of Q8F (R81). -/
def Q8F : Fmt := ⟨4, 4⟩
/-- The grid of Q8W. -/
def Q8W : Fmt := ⟨3, 5⟩

namespace Fmt

/-- The unit exponent of subnormals: the smallest positive value is 2^umin. -/
def umin (f : Fmt) : Int := 3 - (2 ^ (f.eb - 1) : Nat) - f.p

/-- The code of +infinity. -/
def infCode (f : Fmt) : Nat := (2 ^ f.eb - 1) * 2 ^ (f.p - 1)

/-- The sign bit's weight. -/
def signW (f : Fmt) : Nat := 2 ^ (f.eb + f.p - 1)

/-- The canonical NaN (Table 4-4). -/
def nanCode (f : Fmt) : Nat := f.infCode + 2 ^ (f.p - 2)

end Fmt

/-- Decode an IEEE-style code. -/
def decodeF (f : Fmt) (c : Nat) : FVal :=
  let neg := c / f.signW % 2 == 1
  let mag := c % f.signW
  let ex := mag / 2 ^ (f.p - 1)
  let fr := mag % 2 ^ (f.p - 1)
  if ex = 2 ^ f.eb - 1 then
    if fr = 0 then .inf neg else .nan (fr / 2 ^ (f.p - 2) == 0)
  else if ex = 0 then .fin neg fr f.umin
  else .fin neg (fr + 2 ^ (f.p - 1)) (f.umin + (ex - 1 : Nat))

/-- Whether to go up from a truncated magnitude: `r` against a divisor `d`, with more below if
`st`, at an odd or even quotient (R79). -/
def roundUp (rnd : Rnd) (neg odd : Bool) (r d : Nat) (st : Bool) : Bool :=
  match rnd with
  | .ne => decide (d < 2 * r) || (2 * r == d && (st || odd))
  | .rz => false
  | .rp => !neg && (r != 0 || st)
  | .rm => neg && (r != 0 || st)

/-- A magnitude m × 2^e, with more below if `st`, rounded at unit exponent `u`: the multiple of
2^u, and whether it is inexact. -/
def roundAt (rnd : Rnd) (neg : Bool) (m : Nat) (e u : Int) (st : Bool) : Nat × Bool :=
  if u ≤ e then (m * 2 ^ (e - u).toNat, st)
  else
    let d := 2 ^ (u - e).toNat
    let q := m / d
    let r := m % d
    (if roundUp rnd neg (q % 2 == 1) r d st then q + 1 else q, r != 0 || st)

/-- The unit exponent that keeps `p` bits of m × 2^e. -/
def unitOf (p : Nat) (m : Nat) (e : Int) : Int := e + (Nat.log2 m + 1 : Nat) - p

/-- The code of a magnitude on a format's grid, which goes on past the top exponent (R79, R81):
the code, whether it is inexact, and whether it is tiny (after rounding, exponent unbounded). -/
def gridCode (f : Fmt) (rnd : Rnd) (neg : Bool) (m : Nat) (e : Int) (st : Bool) : Nat × Bool × Bool :=
  let u0 := unitOf f.p m e
  let u := max u0 f.umin
  let (q, nx) := roundAt rnd neg m e u st
  let (q0, _) := roundAt rnd neg m e u0 st
  -- below the smallest normal, unless the rounding with unbounded exponent reaches it
  let tiny := decide (u0 < f.umin) && !(u0 == f.umin - 1 && q0 == 2 ^ f.p)
  ((u - f.umin).toNat * 2 ^ (f.p - 1) + q, nx, tiny)

/-- The result of overflow (R79 step 3). -/
def overflowCode (f : Fmt) (rnd : Rnd) (neg : Bool) : Nat :=
  match rnd, neg with
  | .ne, _ => f.infCode
  | .rz, _ => f.infCode - 1
  | .rp, false => f.infCode
  | .rp, true => f.infCode - 1
  | .rm, false => f.infCode - 1
  | .rm, true => f.infCode

/-- Round a nonzero magnitude (with more below if `st`) into an IEEE-style format: code, flags. -/
def roundMag (f : Fmt) (rnd : Rnd) (neg : Bool) (m : Nat) (e : Int) (st : Bool) : Nat × Nat :=
  let s := if neg then f.signW else 0
  let (c, nx, tiny) := gridCode f rnd neg m e st
  if f.infCode ≤ c then (s + overflowCode f rnd neg, fOF + fNX)
  else (s + c, (if nx then fNX else 0) + (if nx && tiny then fUF else 0))

/-- Round a value into an IEEE-style format: code, flags. A NaN gives the canonical NaN (R76);
the caller adds NV. -/
def roundV (f : Fmt) (rnd : Rnd) (v : FVal) : Nat × Nat :=
  match v with
  | .nan _ => (f.nanCode, 0)
  | .inf neg => ((if neg then f.signW else 0) + f.infCode, 0)
  | .fin neg m e => if m = 0 then ((if neg then f.signW else 0), 0) else roundMag f rnd neg m e false

namespace FVal

/-- A NaN of either kind. -/
def isNaN : FVal → Bool
  | .nan _ => true
  | _ => false

/-- A signalling NaN. -/
def isSig : FVal → Bool
  | .nan s => s
  | _ => false

/-- An infinity. -/
def isInf : FVal → Bool
  | .inf _ => true
  | _ => false

/-- A zero of either sign. -/
def isZero : FVal → Bool
  | .fin _ m _ => m == 0
  | _ => false

/-- The sign bit. -/
def sign : FVal → Bool
  | .nan _ => false
  | .inf n => n
  | .fin n _ _ => n

/-- The opposite sign. -/
def neg : FVal → FVal
  | .nan s => .nan s
  | .inf n => .inf (!n)
  | .fin n m e => .fin (!n) m e

/-- The magnitude. -/
def abs : FVal → FVal
  | .nan s => .nan s
  | .inf _ => .inf false
  | .fin _ m e => .fin false m e

/-- The exact product; a NaN that was made here is quiet (R77). -/
def mul (a b : FVal) : FVal :=
  match a, b with
  | .nan s, .nan r => .nan (s || r)
  | .nan s, _ => .nan s
  | _, .nan s => .nan s
  | .inf n, .inf k => .inf (n != k)
  | .inf n, .fin k m _ => if m = 0 then .nan false else .inf (n != k)
  | .fin k m _, .inf n => if m = 0 then .nan false else .inf (n != k)
  | .fin n m e, .fin k l d => .fin (n != k) (m * l) (e + d)

/-- A product that is invalid: an infinity by a zero. -/
def mulInvalid (a b : FVal) : Bool := (a.isInf && b.isZero) || (a.isZero && b.isInf)

/-- The signed integer m × 2^(e - u) for u ≤ e. -/
def scaled (v : FVal) (u : Int) : Int :=
  match v with
  | .fin n m e => if n then -((m * 2 ^ (e - u).toNat : Nat) : Int) else ((m * 2 ^ (e - u).toNat : Nat) : Int)
  | _ => 0

/-- The exponent of a finite value. -/
def expo : FVal → Int
  | .fin _ _ e => e
  | _ => 0

/-- A value from a signed multiple of 2^u; a zero takes the sign given. -/
def ofInt (i : Int) (u : Int) (zneg : Bool) : FVal :=
  if i = 0 then .fin zneg 0 u else .fin (decide (i < 0)) i.natAbs u

/-- The exact sum of two values; an exact zero of unlike signs takes the sign `zneg` (R123). -/
def add (a b : FVal) (zneg : Bool) : FVal :=
  match a, b with
  | .nan s, .nan r => .nan (s || r)
  | .nan s, _ => .nan s
  | _, .nan s => .nan s
  | .inf n, .inf k => if n = k then .inf n else .nan false
  | .inf n, .fin .. => .inf n
  | .fin .., .inf n => .inf n
  | .fin n m e, .fin k l d =>
    let u := min e d
    let i := (FVal.fin n m e).scaled u + (FVal.fin k l d).scaled u
    if m = 0 && l = 0 then .fin (if n = k then n else zneg) 0 u else ofInt i u zneg

/-- A sum that is invalid: infinities of unlike signs. -/
def addInvalid (a b : FVal) : Bool :=
  match a, b with
  | .inf n, .inf k => n != k
  | _, _ => false

/-- The exact sum of a list of terms (R77): −0 only when every term is −0. -/
def sum (ts : List FVal) : FVal :=
  if ts.any FVal.isNaN then .nan (ts.any FVal.isSig)
  else if ts.any (fun t => t.isInf && !t.sign) && ts.any (fun t => t.isInf && t.sign) then .nan false
  else match ts.find? FVal.isInf with
    | some t => t
    | none =>
      let u := ts.foldl (fun u t => min u t.expo) (ts.headD (.fin false 0 0)).expo
      let i := ts.foldl (fun i t => i + t.scaled u) 0
      ofInt i u (ts.all (fun t => t.isZero && t.sign) && !ts.isEmpty)

/-- Compare finite or infinite values: -1, 0, 1; zeros are equal. -/
def cmp (a b : FVal) : Int :=
  match a, b with
  | .nan _, _ | _, .nan _ => 0
  | .inf n, .inf k => if n = k then 0 else if n then -1 else 1
  | .inf n, _ => if n then -1 else 1
  | _, .inf k => if k then 1 else -1
  | .fin n m e, .fin k l d =>
    let u := min e d
    let x := (FVal.fin n m e).scaled u
    let y := (FVal.fin k l d).scaled u
    if x < y then -1 else if x = y then 0 else 1

end FVal

/-! Division and roots: truncated to enough bits, with a sticky rest. -/

/-- The integer square root below 2^k, by bits. -/
def isqrtAux : Nat → Nat → Nat → Nat
  | 0, r, _ => r
  | k + 1, r, n => isqrtAux k (if (r + 2 ^ k) * (r + 2 ^ k) ≤ n then r + 2 ^ k else r) n

/-- The integer square root. -/
def isqrt (n : Nat) : Nat := isqrtAux (Nat.log2 n / 2 + 1) 0 n

/-- Quotient of magnitudes with at least `p` + 3 bits: mantissa, exponent, sticky. -/
def divMag (p m : Nat) (e : Int) (l : Nat) (d : Int) : Nat × Int × Bool :=
  let k := (p + 3 + Nat.log2 l) - Nat.log2 m
  let n := m * 2 ^ k
  (n / l, e - d - k, n % l != 0)

/-- Square root of a magnitude with at least `p` + 3 bits. -/
def sqrtMag (p m : Nat) (e : Int) : Nat × Int × Bool :=
  let k := 2 * (p + 4) + (e % 2).toNat
  let n := m * 2 ^ k
  let r := isqrt n
  (r, (e - k) / 2, r * r != n)

/-- Reciprocal square root of a magnitude: r with r² m ≤ 2^A. -/
def rsqMag (p m : Nat) (e : Int) : Nat × Int × Bool :=
  -- value = 2^(-e/2) / sqrt m; A makes (-e - A) even
  let a := 2 * (p + 4) + 2 * (Nat.log2 m + 1) + ((-e) % 2).toNat
  let r := isqrt (2 ^ a / m)
  (r, (-e - a) / 2, r * r * m != 2 ^ a)

/-- IEEE division in a format (R123): code, flags. -/
def divF (f : Fmt) (rnd : Rnd) (a b : FVal) : Nat × Nat :=
  match a, b with
  | .nan s, .nan r => (f.nanCode, if s || r then fNV else 0)
  | .nan s, _ => (f.nanCode, if s then fNV else 0)
  | _, .nan s => (f.nanCode, if s then fNV else 0)
  | .inf _, .inf _ => (f.nanCode, fNV)
  | .inf n, .fin k _ _ => roundV f rnd (.inf (n != k))
  | .fin n _ _, .inf k => roundV f rnd (.fin (n != k) 0 0)
  | .fin n m e, .fin k l d =>
    if l = 0 then
      if m = 0 then (f.nanCode, fNV) else ((roundV f rnd (.inf (n != k))).1, fDZ)
    else if m = 0 then roundV f rnd (.fin (n != k) 0 0)
    else
      let (q, x, st) := divMag f.p m e l d
      roundMag f rnd (n != k) q x st

/-- Square root in a format (Table 6-6): code, flags. -/
def sqrtF (f : Fmt) (a : FVal) : Nat × Nat :=
  match a with
  | .nan s => (f.nanCode, if s then fNV else 0)
  | .inf n => if n then (f.nanCode, fNV) else roundV f .ne (.inf false)
  | .fin n m e =>
    if m = 0 then roundV f .ne (.fin n 0 0)
    else if n then (f.nanCode, fNV)
    else
      let (q, x, st) := sqrtMag f.p m e
      roundMag f .ne false q x st

/-- Reciprocal square root in a format (Table 6-6): code, flags. -/
def rsqF (f : Fmt) (a : FVal) : Nat × Nat :=
  match a with
  | .nan s => (f.nanCode, if s then fNV else 0)
  | .inf n => if n then (f.nanCode, fNV) else roundV f .ne (.fin false 0 0)
  | .fin n m e =>
    if m = 0 then ((roundV f .ne (.inf n)).1, fDZ)
    else if n then (f.nanCode, fNV)
    else
      let (q, x, st) := rsqMag f.p m e
      roundMag f .ne false q x st

/-! Powers and logarithms of two: bounds in fixed point, tightened until both round alike. -/

/-- The sum of ⌊2^P / (k 2^k)⌋ for k from 1: below ln 2 × 2^P by less than n + 1 (with the tail). -/
def ln2Sum : Nat → Nat → Nat
  | 0, _ => 0
  | k + 1, P => 2 ^ P / ((k + 1) * 2 ^ (k + 1)) + ln2Sum k P

/-- ln 2 in units of 2^-P, from below, short by less than P + 2. -/
def ln2Lo (P : Nat) : Nat := ln2Sum P P

/-- The exponential series of y (units 2^-P), truncated term by term: `n` terms from term `k`. -/
def expSum : Nat → Nat → Nat → Nat → Nat → Nat
  | 0, _, _, _, acc => acc
  | n + 1, P, y, k, acc =>
    -- acc carries sum × 2^(2P) + term
    let s := acc / 2 ^ (2 * P)
    let t := acc % 2 ^ (2 * P)
    let t' := t * y / (2 ^ P * (k + 1))
    expSum n P y (k + 1) ((s + t') * 2 ^ (2 * P) + t')

/-- 2^f for a fraction f (units 2^-P) from below, with the width of the bound. -/
def exp2Lo (P f : Nat) : Nat × Nat :=
  let y := f * ln2Lo P / 2 ^ P
  (expSum (P / 2) P y 0 (2 ^ P * 2 ^ (2 * P) + 2 ^ P) / 2 ^ (2 * P), 8 * P)

/-- Round a bounded magnitude once both bounds agree, else with more bits: `lo` × 2^e up to
(`lo` + `w`) × 2^e. -/
def agree (f : Fmt) (neg : Bool) (lo w : Nat) (e : Int) : Option (Nat × Nat) :=
  let a := roundMag f .ne neg lo e true
  let b := roundMag f .ne neg (lo + w) e true
  if a = b then some a else none

/-- 2^x of a finite nonzero x that is no integer, by bounds of rising precision. -/
def exp2Try : Nat → Nat → Bool → Nat → Int → Nat × Nat
  | 0, _, _, _, _ => (FP32.nanCode, 0)
  | n + 1, P, neg, m, e =>
    -- x = ± m 2^e in units 2^-P, with a sticky rest folded into the width
    let xs : Nat := if 0 ≤ e + P then m * 2 ^ (e + P).toNat else m / 2 ^ (-(e + P)).toNat
    let rest : Nat := if 0 ≤ e + P then 0 else 1
    let x : Int := if neg then -((xs + rest : Nat) : Int) else (xs : Int)
    let ip : Int := x / (2 ^ P : Nat)
    let fr : Nat := (x % (2 ^ P : Nat)).toNat
    let (lo, w) := exp2Lo P fr
    match agree FP32 false lo (w + 4) (ip - P) with
    | some r => r
    | none => exp2Try n (2 * P) neg m e

/-- `exp2` (R128, Table 6-6). -/
def exp2F (a : FVal) : Nat × Nat :=
  match a with
  | .nan s => (FP32.nanCode, if s then fNV else 0)
  | .inf n => if n then (0, 0) else (FP32.infCode, 0)
  | .fin n m e =>
    if m = 0 then (0x3F800000, 0)
    else if e ≥ 8 || (e ≥ -30 && decide (m * 2 ^ (e + 30).toNat ≥ 200 * 2 ^ 30)) then
      -- beyond every finite result
      if n then (0, fUF + fNX) else (FP32.infCode, fOF + fNX)
    else if e ≥ 0 || m % 2 ^ (-e).toNat == 0 then
      let i : Nat := if e ≥ 0 then m * 2 ^ e.toNat else m / 2 ^ (-e).toNat
      roundMag FP32 .ne false 1 (if n then -(i : Int) else i) false
    else exp2Try 4 160 n m e

/-- The series of atanh z in units of 2^-P, z² given: `n` terms z^(2k+1)/(2k+1). -/
def atanhSum : Nat → Nat → Nat → Nat → Nat → Nat → Nat
  | 0, _, _, _, _, acc => acc
  | n + 1, P, zz, t, k, acc => atanhSum n P zz (t * zz / 2 ^ P) (k + 1) (acc + t / (2 * k + 1))

/-- log2 of a magnitude that is no power of two, by bounds of rising precision. -/
def log2Try : Nat → Nat → Nat → Int → Nat × Nat
  | 0, _, _, _ => (FP32.nanCode, 0)
  | n + 1, P, m, e =>
    let lg := Nat.log2 m
    let ex : Int := e + lg
    -- y = m / 2^lg in [1, 2); z = (y - 1)/(y + 1)
    let z := (m - 2 ^ lg) * 2 ^ P / (m + 2 ^ lg)
    let l := 2 * atanhSum (P / 2) P (z * z / 2 ^ P) z 0 0
    let q := l * 2 ^ P / ln2Lo P
    -- q is log2 y within 8 P units
    let v : Int := ex * (2 ^ P : Nat) + q
    let w : Nat := 8 * P
    let r := if v - w ≥ 0 then agree FP32 false (v - w).toNat (2 * w) (-P)
             else agree FP32 true (-(v + w)).toNat (2 * w) (-P)
    match r with
    | some x => x
    | none => log2Try n (2 * P) m e

/-- `log2` (R128, Table 6-6). -/
def log2F (a : FVal) : Nat × Nat :=
  match a with
  | .nan s => (FP32.nanCode, if s then fNV else 0)
  | .inf n => if n then (FP32.nanCode, fNV) else (FP32.infCode, 0)
  | .fin n m e =>
    if m = 0 then (FP32.signW + FP32.infCode, fDZ)
    else if n then (FP32.nanCode, fNV)
    else if m = 2 ^ Nat.log2 m then
      let i : Int := e + Nat.log2 m
      roundV FP32 .ne (FVal.ofInt i 0 false)
    else log2Try 4 160 m e

/-! Narrow formats. -/

/-- The elements of Table 4-1 by code. -/
inductive Elem where
  | fp32 | fp16 | bf16 | fa48 | q8f | q8w | q8i | q4l | q4i | q4t
deriving DecidableEq, Repr

/-- Element format of a slot's code. -/
def Elem.ofCode : Nat → Option Elem
  | 0x01 => some .fp32
  | 0x02 => some .fp16
  | 0x03 => some .bf16
  | 0x04 => some .fa48
  | 0x10 => some .q8f
  | 0x11 => some .q8w
  | 0x12 => some .q8i
  | 0x20 => some .q4l
  | 0x21 => some .q4i
  | 0x22 => some .q4t
  | _ => none

/-- Element size in bits; an FA48 container has 64 (R288). -/
def Elem.bits : Elem → Nat
  | .fp32 => 32
  | .fp16 | .bf16 => 16
  | .fa48 => 64
  | .q8f | .q8w | .q8i => 8
  | .q4l | .q4i | .q4t => 4

/-- A two's complement value of `n` bits. -/
def signedOf (n v : Nat) : Int := if v < 2 ^ (n - 1) then v else (v : Int) - (2 ^ n : Nat)

/-- Decode an element (R72, R73): `tab` is the captured code-table bank. -/
def decodeE (el : Elem) (tab : List Nat) (c : Nat) : FVal :=
  match el with
  | .fp32 => decodeF FP32 c
  | .fp16 => decodeF FP16 c
  | .bf16 => decodeF BF16 c
  | .fa48 => decodeF FA48 (c / 2 ^ 16)
  | .q8f =>
    if c = 0x80 then .nan false
    else let ex := c / 8 % 16; let fr := c % 8
         if ex = 0 then .fin (c / 128 == 1) fr (-9) else .fin (c / 128 == 1) (fr + 8) (ex - 10)
  | .q8w =>
    if c = 0x80 then .nan false
    else let ex := c / 4 % 32; let fr := c % 4
         if ex = 0 then .fin (c / 128 == 1) fr (-16) else .fin (c / 128 == 1) (fr + 4) (ex - 17)
  | .q8i => FVal.ofInt (signedOf 8 c) 0 false
  | .q4l => let ex := c % 8; if ex = 0 then .fin (c / 8 == 1) 0 0 else .fin (c / 8 == 1) 1 (ex - 4)
  | .q4i => FVal.ofInt (signedOf 4 c) 0 false
  | .q4t => decodeF BF16 (tab.getD c 0)

/-- Round to an integer in a mode, and whether it is exact. -/
def roundInt (rnd : Rnd) (v : FVal) : Int × Bool :=
  match v with
  | .fin n m e =>
    let (q, nx) := roundAt rnd n m e 0 false
    (if n then -(q : Int) else q, nx)
  | _ => (0, false)

/-- Conversion into an integer range (R83, Table 4-5): value, flags. -/
def toIntRange (rnd : Rnd) (lo hi : Int) (v : FVal) : Int × Nat :=
  match v with
  | .nan _ => (0, fNV)
  | .inf n => (if n then lo else hi, fNV)
  | .fin .. =>
    let (i, nx) := roundInt rnd v
    if i < lo then (lo, fNV) else if hi < i then (hi, fNV) else (i, if nx then fNX else 0)

/-- Conversion into Q8F or Q8W (R81, Table 4-5): code, flags. -/
def toQ8 (f : Fmt) (v : FVal) : Nat × Nat :=
  match v with
  | .nan s => (0x80, if s then fNV else 0)
  | .inf n => ((if n then 0x80 else 0) + 0x7F, fNX)
  | .fin n m e =>
    if m = 0 then (0, 0)
    else
      let (c, nx, _) := gridCode f .ne n m e false
      if 0x7F < c then ((if n then 0x80 else 0) + 0x7F, fOF + fNX)
      else if c = 0 then (0, fUF + fNX)
      else ((if n then 0x80 else 0) + c,
        (if nx then fNX else 0) + (if nx && decide (c < 2 ^ (f.p - 1)) then fUF else 0))

/-- Conversion into Q4L (R82, Table 4-5): code, flags. The midpoints are in units of 2^-4. -/
def toQ4L (v : FVal) : Nat × Nat :=
  match v with
  | .nan _ => (0, fNV)
  | .inf n => ((if n then 8 else 0) + 7, fNX)
  | .fin n m e =>
    let past (mid : Nat) (incl : Bool) : Bool :=
      let c := (FVal.fin false m e).cmp (.fin false mid (-4))
      c == 1 || (c == 0 && incl)
    let k := [(1, false), (3, true), (6, false), (12, true), (24, false), (48, true), (96, false)].countP
      (fun p => past p.1 p.2)
    let big := (FVal.fin false m e).cmp (.fin false 8 0) == 1
    let exact := (FVal.fin false m e).cmp (if k = 0 then .fin false 0 0 else .fin false 1 (k - 4)) == 0
    ((if n then 8 else 0) + k,
      (if big then fOF else 0) + (if m != 0 && k == 0 then fUF else 0) + (if exact then 0 else fNX))

/-- Conversion of a value into an element format: code, flags (R79 to R84). -/
def toElem (el : Elem) (v : FVal) : Nat × Nat :=
  let nv := if v.isSig then fNV else 0
  match el with
  | .fp32 => let r := roundV FP32 .ne v; (r.1, r.2 ||| nv)
  | .fp16 => let r := roundV FP16 .ne v; (r.1, r.2 ||| nv)
  | .bf16 => let r := roundV BF16 .ne v; (r.1, r.2 ||| nv)
  | .fa48 => let r := roundV FA48 .ne v; (r.1 * 2 ^ 16, r.2 ||| nv)
  | .q8f => toQ8 Q8F v
  | .q8w => toQ8 Q8W v
  | .q8i => let r := toIntRange .ne (-128) 127 v; ((r.1 % 256).toNat, r.2)
  | .q4l => toQ4L v
  | .q4i => let r := toIntRange .ne (-8) 7 v; ((r.1 % 16).toNat, r.2)
  | .q4t => (0, 0)

/-- `round48`: to FA48, nearest even; the result as a container (R6, R71). -/
def round48 (v : FVal) : Nat := (roundV FA48 .ne v).1 * 2 ^ 16

/-- The value of an FA48 container. -/
def val48 (c : Nat) : FVal := decodeF FA48 (c / 2 ^ 16 % 2 ^ 48)

/-- minimumNumber and maximumNumber of two codes in a format (R91, R124): code, flags. -/
def minMaxF (f : Fmt) (isMax : Bool) (a b : Nat) : Nat × Nat :=
  let x := decodeF f a
  let y := decodeF f b
  let nv := if x.isSig || y.isSig then fNV else 0
  if x.isNaN then (if y.isNaN then f.nanCode else b, nv)
  else if y.isNaN then (a, nv)
  else
    let c := x.cmp y
    let xLess := c == -1 || (c == 0 && x.sign && !y.sign)
    (if xLess != isMax then a else if c == 0 && x.sign == y.sign then a else b, nv)

/-- A sum rounded once (R123): code, flags. -/
def addF (f : Fmt) (rnd : Rnd) (a b : Nat) : Nat × Nat :=
  let x := decodeF f a
  let y := decodeF f b
  let nv := if x.isSig || y.isSig || x.addInvalid y then fNV else 0
  let r := roundV f rnd (x.add y (rnd == .rm))
  (r.1, r.2 ||| nv)

/-- The code of the opposite sign. -/
def negCode (f : Fmt) (a : Nat) : Nat := if a / f.signW % 2 = 1 then a - f.signW else a + f.signW

/-- A product rounded once (R123). -/
def mulF (f : Fmt) (rnd : Rnd) (a b : Nat) : Nat × Nat :=
  let x := decodeF f a
  let y := decodeF f b
  let nv := if x.isSig || y.isSig || x.mulInvalid y then fNV else 0
  let r := roundV f rnd (x.mul y)
  (r.1, r.2 ||| nv)

/-- A fused multiply and add of values: the exact result, and whether it is invalid (R123). -/
def fmaV (x y z : FVal) (zneg : Bool) : FVal × Bool :=
  let p := x.mul y
  (p.add z zneg,
    x.isSig || y.isSig || z.isSig || x.mulInvalid y || (!x.isNaN && !y.isNaN && p.addInvalid z))

/-- A fused multiply and add rounded once. -/
def fmaF (f : Fmt) (rnd : Rnd) (a b c : Nat) : Nat × Nat :=
  let v := fmaV (decodeF f a) (decodeF f b) (decodeF f c) (rnd == .rm)
  let r := roundV f rnd v.1
  (r.1, r.2 ||| (if v.2 then fNV else 0))

end Sys2Proof.Machine
end

