-- ==== Sys2Proof/Machine/Mem.lean ====
section
/-!
DEFINITION. Memory: the physical map, the Sx48 walk and its checks (09), the caches and the point
at which an access of each order class is performed (08), and the open chunk's view of chunked
pages (14).
-/

namespace Sys2Proof.Machine

/-! The physical map (Table 9-2). -/

/-- What stands behind a physical address. -/
inductive Home where
  | gddr (d : Nat)
  | second (p : Nat)
  | host
  | fabric (k : Nat)
  | unbacked
deriving DecidableEq, Repr

/-- Table 9-2. -/
def homeOf (pa : Nat) : Home :=
  if pa < 2 ^ 39 then
    if pa % 2 ^ 37 < 72 * 2 ^ 30 then .gddr (pa / 2 ^ 37) else .unbacked
  else if 2 ^ 44 ≤ pa ∧ pa < 2 ^ 44 + 8 * 2 ^ 40 then
    let p := (pa - 2 ^ 44) / 2 ^ 40
    if pa % 2 ^ 40 < Config.tierBytes p then .second p else .unbacked
  else if 2 ^ 48 ≤ pa ∧ pa < 2 ^ 49 then .host
  else if 2 ^ 52 ≤ pa ∧ pa < 2 ^ 52 + 8192 * 2 ^ 39 then
    if pa % 2 ^ 37 < 72 * 2 ^ 30 then .fabric ((pa - 2 ^ 52) / 2 ^ 39) else .unbacked
  else .unbacked

/-- The home die of device memory. -/
def homeDie (pa : Nat) : Option Nat :=
  match homeOf pa with
  | .gddr d => some d
  | .second p => some (p / 2)
  | _ => none

/-- Memory of the package itself, which its caches may hold. -/
def deviceMem (pa : Nat) : Bool := (homeDie pa).isSome

/-- A row of Table 9-2 that allows an order class. -/
def classAllowed (h : Home) (cls : Nat) : Bool :=
  match h with
  | .gddr _ | .second _ => true
  | .host | .fabric _ => cls == 1 || cls == 3
  | .unbacked => false

/-! Who accesses, and how. -/

/-- The access kinds of Table 9-5. -/
inductive Acc where
  | load | store | atomic | fetch | engineR | engineW | wait
deriving DecidableEq, Repr

/-- Access code of Table 9-5. -/
def Acc.code : Acc → Nat
  | .load => 0
  | .store => 1
  | .atomic => 2
  | .fetch => 3
  | .engineR => 4
  | .engineW => 5
  | .wait => 6

/-- Whether an access writes. -/
def Acc.writes : Acc → Bool
  | .store | .atomic | .engineW => true
  | _ => false

/-- The address space and place of an accessor. -/
structure Who where
  core   : Nat
  die    : Nat
  asid   : Nat
  root   : Nat
  secure : Bool
  part   : List Nat
  user   : Bool := true
  /-- The translation mode: 14 is Sx48, 9 Sv48, 0 Bare (R189). -/
  mode   : Nat := 14
  /-- A thread of the core `core`, whose L1 it looks up (R198). -/
  l1     : Bool := false
  /-- A headland hart, which has translation caches of its own (R199). -/
  hart   : Option Nat := none
  /-- SUM and MXR of the hart's `sstatus` (the RISC-V privileged architecture, R8). -/
  sum    : Bool := false
  mxr    : Bool := false
deriving DecidableEq, Repr

/-- What stops an access: a supervisor fault (Table 9-6) or LINK.LOST (Table 26-6). -/
inductive MemErr where
  | fault (kind cause : Nat)
  | link (cause : Nat)
deriving DecidableEq, Repr

/-- A translation: the physical address and what its leaf says (Table 9-1). -/
structure Xlat where
  pa    : Nat
  cls   : Nat
  grain : Nat
  world : Bool
  /-- The leaf that it comes from, and the size of its page. -/
  leaf  : Nat := 0
  span  : Nat := 0
deriving DecidableEq, Repr

/-- Bits of an entry. -/
def pte (w lo len : Nat) : Nat := w / 2 ^ lo % 2 ^ len

/-- The 48-bit canonical form (Table 9-3, check 1). -/
def canonical (va : Nat) : Bool := pte va 47 17 == 0 || pte va 47 17 == 2 ^ 17 - 1

/-- A little-endian number in memory. -/
def memNat (m : Mach) (pa n : Nat) : Nat := bytesNat (cread m.mem pa n)

/-- The size of a leaf's page at a level, or none where the leaf is not legal (R192). Sv48 has the leaves of level 3
and no run at level 2. -/
def leafSize (mode leaf lvl : Nat) : Option Nat :=
  let n := pte leaf 63 1 == 1
  match lvl with
  | 0 => if n then (if pte leaf 10 4 == 8 then some (2 ^ 16) else none) else some (2 ^ 12)
  | 1 => if n || pte leaf 10 9 != 0 then none else some (2 ^ 21)
  | 2 =>
    if pte leaf 10 18 != 0 then none
    else if n then (if mode != 9 && pte leaf 28 5 == 16 then some (2 ^ 35) else none)
    else some (2 ^ 30)
  | _ => if mode == 9 && !n && pte leaf 10 27 == 0 then some (2 ^ 39) else none

/-- A leaf as under Sx48. Under Sv48 bits 60:54 are reserved, and the page is a scoped one of grain 512 in the open
world, with the tag RV64 (R189). -/
def leafView (mode leaf : Nat) : Option Nat :=
  if mode = 9 then (if pte leaf 54 7 = 0 then some (leaf + 2 ^ 56 + 2 * 2 ^ 58) else none) else some leaf

/-- The walk from a table at a level: the leaf, as under Sx48, and its page size (R190 to R192). -/
def walkFrom (m : Mach) (mode va : Nat) : Nat → Nat → Option (Nat × Nat)
  | lvl, base =>
    let e := memNat m (base + 8 * pte va (12 + 9 * lvl) 9) 8
    if pte e 0 1 = 0 ∨ (pte e 2 1 = 1 ∧ pte e 1 1 = 0) then none
    else if pte e 1 1 = 1 ∨ pte e 3 1 = 1 then
      match leafSize mode e lvl, leafView mode e with
      | some sz, some e => some (e, sz)
      | _, _ => none
    else
      match lvl with
      | 0 => none
      | l + 1 =>
        -- a non-leaf entry: bits 63:54 zero, D, A and U zero
        if pte e 54 10 != 0 || pte e 6 2 != 0 || pte e 4 1 != 0 then none
        else walkFrom m mode va l (pte e 10 44 * 4096)

/-- Under Bare an address is physical: the page behaves as one of Sv48 that allows everything (log 88). -/
def bareLeaf (who : Who) (va : Nat) : Nat :=
  va / 4096 * 1024 + 2 ^ 56 + 2 * 2 ^ 58 + 0xCF + (if who.user then 0x10 else 0)

/-- Whether an L1 line is tagged with a virtual address of a context (R198). -/
def Line.tagged (l : Line) (who : Who) (va : Nat) : Bool := l.asid == who.asid && l.va / 512 == va / 512

/-- The translation caches of an accessor: its die's, or its hart's own. -/
def tlbOf (m : Mach) (who : Who) : List Tlb :=
  match who.hart with
  | none => (m.die who.die).tlb
  | some h => match lget (m.die who.die).harts h with | some h => h.tlb | none => []

/-- A leaf in hand: that of the L1 line that the address hits, which uses no translation, or a cached one (R198). -/
def heldLeaf (m : Mach) (who : Who) (va : Nat) : Option (Nat × Nat) :=
  match (if who.l1 then (m.core who.core).lines.find? (fun l => l.tagged who va) else none) with
  | some l => some (l.leaf, l.span)
  | none => ((tlbOf m who).find? (fun e =>
      (e.asid == who.asid || pte e.leaf 5 1 == 1) && decide (e.va ≤ va) && decide (va < e.va + e.size))).map
      (fun e => (e.leaf, e.size))

/-- The leaf of an address that a fresh walk finds. -/
def walkLeaf (m : Mach) (who : Who) (va : Nat) : Option (Nat × Nat) :=
  if who.mode = 0 then (if va < 2 ^ 56 then some (bareLeaf who va, 4096) else none)
  else walkFrom m who.mode va 3 (who.root * 4096)

/-- The leaf in hand, or a walk. -/
def findLeaf (m : Mach) (who : Who) (va : Nat) : Option (Nat × Nat) :=
  match (if who.mode = 0 then none else heldLeaf m who va) with
  | some e => some e
  | none => walkLeaf m who va

/-- Put a leaf into some translation caches, over an older one of its page. -/
def putTlb (l : List Tlb) (who : Who) (va leaf size : Nat) : List Tlb :=
  ⟨who.asid, who.root, va / size * size, size, leaf⟩ :: l.filter (fun e => !(e.asid == who.asid && e.va == va / size * size))

/-- Keep a leaf that a walk has found (R198). -/
def keepLeaf (m : Mach) (who : Who) (va leaf size : Nat) : Mach :=
  if who.mode = 0 then m
  else m.updDie who.die (fun d => match who.hart with
    | none => { d with tlb := putTlb d.tlb who va leaf size }
    | some h =>
      let x := (lget d.harts h).getD {}
      { d with harts := lput d.harts h { x with tlb := putTlb x.tlb who va leaf size } })

/-- World that the region tables give a physical address (R404). -/
def regionSecure (m : Mach) (pa : Nat) : Bool :=
  match homeDie pa with
  | none => false
  | some d =>
    ((m.die d).regions).any (fun r =>
      let w := r.2
      pte w 63 1 == 1 && pte w 62 1 == 1 && decide (pte w 28 28 * 2 ^ 21 ≤ pa) &&
        decide (pa < (pte w 28 28 + pte w 0 28) * 2 ^ 21))

/-- The physical address of a virtual one under a leaf, NAPOT runs included. -/
def leafPa (leaf size va : Nat) : Nat :=
  let base := pte leaf 10 44 * 4096 / size * size
  base + va % size

/-- The copy of a replicated page that a die uses (R196). -/
def replica (pa d : Nat) : Nat := pa - pte pa 37 2 * 2 ^ 37 + d * 2 ^ 37

/-- The class that a leaf gives its page, PBMT applied (R194); none where PBMT is not legal. -/
def leafClass (leaf : Nat) : Option Nat :=
  let cls := pte leaf 56 2
  match pte leaf 61 2 with
  | 0 => some cls
  | 3 => none
  | _ => if cls = 1 ∨ cls = 3 then some 3 else none

/-- The checks of Table 9-3 after the walk, in order. Of a replicated page the region table is asked on the address that
the leaf names (log 99, DESIGN CHOICE: R197 does not say which copy). -/
def checkLeaf (m : Mach) (who : Who) (acc : Acc) (leaf size va : Nat) : Except MemErr Xlat :=
  let pa := leafPa leaf size va
  let base := pa / size * size
  let h := homeOf base
  let w := pte leaf 60 1 == 1
  match leafClass leaf with
  | none => .error (.fault 1 0x0103)
  | some cls =>
    if pte leaf 58 2 = 3 then .error (.fault 1 0x0103)
    else if h ≠ homeOf (base + size - 1) ∨ !classAllowed h cls then .error (.fault 1 0x0103)
    else if (match homeDie base with | some d => !who.part.contains d | none => false) then
      .error (.fault 1 0x0103)
    else if (match h with
        | .fabric k => m.pkgSet && k == m.pkg
        | .second p => m.parts.any (fun q => q.linkPort == some p)
        | _ => false) then .error (.fault 1 0x0103)
    else if pte leaf 6 1 = 0 then .error (.fault 1 0x0104)
    else if acc.writes ∧ pte leaf 7 1 = 0 then .error (.fault 1 0x0105)
    else if who.user ∧ pte leaf 4 1 = 0 then .error (.fault 2 0x0201)
    else if !who.user ∧ pte leaf 4 1 = 1 ∧ (!who.sum ∨ acc = .fetch) then .error (.fault 2 0x0201)
    else if (match acc with
        | .fetch => pte leaf 3 1 == 0
        | .store | .engineW => pte leaf 2 1 == 0
        | .atomic => pte leaf 2 1 == 0
        | _ => pte leaf 1 1 == 0 && !(who.mxr && pte leaf 3 1 == 1)) then .error (.fault 2 0x0201)
    else if cls = 2 ∧ acc = .atomic then .error (.fault 2 0x0202)
    else if w ∧ !who.secure then .error (.fault 4 0x0401)
    else if w != regionSecure m pa then .error (.fault 4 0x0402)
    else if acc = .fetch ∧ 2 ≤ pte leaf 54 2 then .error (.fault 3 0x0301)
    else .ok ⟨if cls = 2 then replica pa who.die else pa, cls, [32, 128, 512].getD (pte leaf 58 2) 32, w, leaf, size⟩

/-- Check 8 of Table 9-3: whether a line of the core's L1, held under another tag, differs from a translation in
class, grain or world (R198). -/
def tagClash (m : Mach) (who : Who) (va : Nat) (x : Xlat) : Bool :=
  who.l1 && (m.core who.core).lines.any (fun l => l.pa / 512 == x.pa / 512 && !l.tagged who va &&
    (l.cls != x.cls || l.grain != x.grain || l.world != x.world))

/-- The checks of Table 9-3 on a leaf. -/
def checkAll (m : Mach) (who : Who) (acc : Acc) (leaf size va : Nat) : Except MemErr Xlat :=
  match checkLeaf m who acc leaf size va with
  | .error e => .error e
  | .ok x => if tagClash m who va x then .error (.fault 2 0x0204) else .ok x

/-- Translate by a walk, keeping the leaf that passes. -/
def walkXlat (m : Mach) (who : Who) (acc : Acc) (va : Nat) : Except MemErr (Mach × Xlat) :=
  match walkLeaf m who va with
  | none => .error (.fault 1 0x0102)
  | some (leaf, size) =>
    match checkAll m who acc leaf size va with
    | .error e => .error e
    | .ok x => .ok (keepLeaf m who va leaf size, x)

/-- The virtual address that translation uses. -/
def Who.va (who : Who) (va : Nat) : Nat := if who.mode = 0 then va else va % 2 ^ 48

/-- Translate a virtual address (R189 to R198, Table 9-3). A leaf in hand serves where it passes the checks; what it
refuses is walked afresh before it faults (R199, R201). -/
def translate (m : Mach) (who : Who) (acc : Acc) (va : Nat) : Except MemErr (Mach × Xlat) :=
  if who.mode ≠ 0 ∧ !canonical va then .error (.fault 1 0x0101)
  else
    match (if who.mode = 0 then none else heldLeaf m who (who.va va)) with
    | none => walkXlat m who acc (who.va va)
    | some (leaf, size) =>
      match checkAll m who acc leaf size (who.va va) with
      | .ok x => .ok (m, x)
      | .error _ => walkXlat m who acc (who.va va)

/-- The ISA tag of a page (R57): none where it does not translate. -/
def isaTag (m : Mach) (who : Who) (va : Nat) : Option Nat :=
  (findLeaf m who (who.va va)).map (fun p => pte p.1 54 2)

/-- The order class of the page that holds an address, however it may be accessed (R161). -/
def pageClass (m : Mach) (who : Who) (va : Nat) : Option Nat :=
  if who.mode = 0 || canonical va then (findLeaf m who (who.va va)).bind (fun p => leafClass p.1) else none

/-- The partition that owns a die, its dies. -/
def partDies (m : Mach) (d : Nat) : List Nat :=
  match m.partOf d with
  | some p => p.dies
  | none => []

/-- What the target of an access answers before any byte is accessed: a lost die (R400), a failed
port (R391), the host link (R389), a fabric window without a package number (R406) or without the peer's
admission (R395). -/
def reachable (m : Mach) (acc : Acc) (die pa n : Nat) : Except MemErr Unit :=
  match homeOf pa with
  | .gddr d => if (m.die d).fatal then .error (.fault 5 0x0502) else .ok ()
  | .second p =>
    if (m.die (p / 2)).fatal then .error (.fault 5 0x0502)
    else if m.xfailed.contains p then .error (.fault 5 0x0503) else .ok ()
  | .host =>
    match m.partOf die with
    | none => .error (.link 1)
    | some p =>
      if p.quarantine.any (fun q => q.pa / 512 == pa / 512 || q.pa / 512 == (pa + n - 1) / 512) then .error (.link 2)
      else if p.link = .up then .ok () else .error (.link 1)
  | .fabric k =>
    if !m.pkgSet then .error (.link 3)
    else if (List.range 6).all (fun i =>
        match lget (m.die die).fports i with | some f => !f.up | none => false) then .error (.link 3)
    else if Config.peerAdmits m.time k pa acc.code then .ok () else .error (.fault 2 0x0205)
  | .unbacked => .error (.fault 1 0x0103)

/-- A read of a poisoned sector, or of a die with two failed devices (R408), or of poisoned second-tier
data (R391). -/
def poisoned (m : Mach) (pa n : Nat) : Option MemErr :=
  let dead := match homeOf pa with | .gddr d => decide (1 < (m.die d).failed.length) | _ => false
  if dead then some (.fault 5 0x0501)
  else if m.poison.any (fun s => decide (s * 32 < pa + n) && decide (pa < s * 32 + 32)) then
    match homeOf pa with
    | .second _ => some (.fault 5 0x0503)
    | _ => some (.fault 5 0x0501)
  else none

/-! Atomic operations (Table 8-7). -/

/-- A value as two's complement of `n` bytes. -/
def signedN (n v : Nat) : Int := signedOf (8 * n) v

/-- The new value of an atomic of `n` bytes from the old one, `v` and the comparand `e`. Both halves of a BF16 pair
are updated at one instant: no access comes between them (log 97, DESIGN CHOICE: Table 4-10 leaves it open). -/
def atomNew (op : AtomOp) (n old v e : Nat) : Nat :=
  let w := 2 ^ (8 * n)
  match op with
  | .swap => v
  | .cas => if old = e then v else old
  | .add => (old + v) % w
  | .and => old &&& v
  | .or => old ||| v
  | .xor => old ^^^ v
  | .min => if signedN n v < signedN n old then v else old
  | .max => if signedN n old < signedN n v then v else old
  | .minu => min old v
  | .maxu => max old v
  | .addF32 => (addF FP32 .ne old v).1
  | .minF32 => (minMaxF FP32 false old v).1
  | .maxF32 => (minMaxF FP32 true old v).1
  | .addBf16x2 => (addF BF16 .ne (old % 65536) (v % 65536)).1 + 65536 * (addF BF16 .ne (old / 65536) (v / 65536)).1

/-! Cache lines: sectors of 32 bytes, under tags of 512 bytes (R195). -/

/-- Whether a line holds a physical byte. -/
def Line.has (l : Line) (pa : Nat) : Bool := decide (l.pa ≤ pa) && decide (pa < l.pa + l.size)

/-- Bytes of a line from a physical address. -/
def Line.bytes (l : Line) (pa n : Nat) : List Byte := (l.data.drop (pa - l.pa)).take n

/-- Put bytes at an offset of a list. -/
def putAt {α : Type} (xs : List α) (off : Nat) (ys : List α) : List α :=
  xs.take off ++ ys ++ xs.drop (off + ys.length)

/-- Store bytes into a line, marking them dirty or clean. -/
def Line.store (l : Line) (pa : Nat) (bs : List Byte) (d : Bool) : Line :=
  { l with data := putAt l.data (pa - l.pa) bs,
           dirty := putAt l.dirty (pa - l.pa) (List.replicate bs.length d) }

/-- No dirty byte. -/
def Line.clean (l : Line) : Bool := l.dirty.all (fun d => !d)

/-- The line that holds a physical byte. -/
def lineAt (ls : List Line) (pa : Nat) : Option Line := ls.find? (fun l => l.has pa)

/-- What a write of bytes at home does besides: the threads that watch them wake (R179), and the
reservations of harts that name them end (R253). -/
def wakeWatch (m : Mach) (pa n : Nat) : Mach :=
  { m with
    threads := m.threads.map (fun t =>
      match t.stat with
      | .waiting (.addr true ea wp v d false p) =>
        if decide (pa < wp + 4) && decide (wp < pa + n) then
          { t with stat := .waiting (.addr true ea wp v d true p) } else t
      | _ => t)
    dies := m.dies.map (fun d => (d.1, { d.2 with harts := d.2.harts.map (fun h =>
      match h.2.resv with
      | some r =>
        if decide (pa < r.1 + r.2.1) && decide (r.1 < pa + n) then (h.1, { h.2 with resv := none }) else h
      | none => h) })) }

/-- Write a line's dirty bytes home under its mask (R177); a clean line writes nothing. -/
def homePush (m : Mach) (l : Line) : Mach :=
  if l.clean then m else wakeWatch { m with mem := cwriteMask m.mem l.pa l.data l.dirty } l.pa l.size

/-- Cluster of a core: 16 × die + cluster, four cores each. -/
def clusterOf (c : Nat) : Nat := c / 64 * 16 + c % 64 / 4

/-- Merge a sector's dirty bytes into the cluster cache's sector of the same bytes. -/
def mergeMask : List Byte → List Bool → List Byte → List Bool → List Byte × List Bool
  | b :: bs, d :: ds, x :: xs, e :: es =>
    let r := mergeMask bs ds xs es
    ((if e then x else b) :: r.1, (d || e) :: r.2)
  | bs, ds, _, _ => (bs, ds)

/-- The sectors of the grain that holds a physical address: a grain moves as one. -/
def sectorsOf (pa grain : Nat) : List Nat := (List.range (grain / 32)).map (fun i => pa / grain * grain + 32 * i)

/-- The 512-byte tags in use. -/
def tagsOf (ls : List Line) : List Nat := (ls.map (fun l => l.pa / 512)).eraseDups

/-- The tag that a cache of `n` tags gives up for a new one: that of the line brought in first (log 89, DESIGN CHOICE). -/
def outTag (ls : List Line) (n pa : Nat) : Option Nat :=
  if (tagsOf ls).contains (pa / 512) || decide ((tagsOf ls).length < n) then none
  else ls.getLast?.map (fun l => l.pa / 512)

/-- A cluster cache gives a tag up: its dirty bytes go home. -/
def clusterOut (m : Mach) (cl tag : Nat) : Mach :=
  let m := ((m.cluster cl).filter (fun l => l.pa / 512 == tag)).foldl homePush m
  m.setCluster cl ((m.cluster cl).filter (fun l => l.pa / 512 != tag))

/-- A cluster cache has room for a sector. -/
def clusterRoom (m : Mach) (cl pa : Nat) : Mach :=
  match outTag (m.cluster cl) Config.clusterTags pa with
  | some t => clusterOut m cl t
  | none => m

/-- The sector of a physical address as home has it. -/
def homeSector (m : Mach) (pa cls grain : Nat) (w : Bool) : Line :=
  { pa := pa / 32 * 32, size := 32, cls := cls, world := w, grain := grain, data := cread m.mem (pa / 32 * 32) 32
    dirty := List.replicate 32 false }

/-- A cluster cache takes a sector from home, where it lacks it. -/
def clusterSector (m : Mach) (cl grain cls : Nat) (w : Bool) (b : Nat) : Mach :=
  if (lineAt (m.cluster cl) b).isSome then m
  else
    let m := clusterRoom m cl b
    m.setCluster cl (homeSector m b cls grain w :: m.cluster cl)

/-- The cluster cache's sector for a physical address, its grain filled from home where absent. -/
def clusterLine (m : Mach) (cl pa grain cls : Nat) (w : Bool) : Mach × Line :=
  let m := (sectorsOf pa grain).foldl (fun m b => clusterSector m cl grain cls w b) m
  (m, (lineAt (m.cluster cl) pa).getD (homeSector m pa cls grain w))

/-- Replace the line with the same base. -/
def setLine (ls : List Line) (l : Line) : List Line :=
  l :: ls.filter (fun x => x.pa != l.pa)

/-- Push an L1 line's dirty bytes to the cluster cache (R177, at `.cl`). -/
def pushToCluster (m : Mach) (cl : Nat) (l : Line) : Mach :=
  if l.clean then m
  else
    let (m, c) := clusterLine m cl l.pa l.grain l.cls l.world
    let r := mergeMask c.data c.dirty l.data l.dirty
    m.setCluster cl (setLine (m.cluster cl) { c with data := r.1, dirty := r.2 })

/-- A line with nothing dirty. -/
def Line.asClean (l : Line) : Line := { l with dirty := List.replicate l.size false }

/-- Push a line out of a core's L1 to the cluster, and to home when `far` (R177). -/
def pushLine (m : Mach) (c : Nat) (far : Bool) (l : Line) : Mach :=
  let m := pushToCluster m (clusterOf c) l
  let m := m.updCore c (fun k => { k with lines := k.lines.map (fun x => if x.pa == l.pa then x.asClean else x) })
  if far then
    match lineAt (m.cluster (clusterOf c)) l.pa with
    | none => m
    | some x =>
      let m := homePush m x
      m.setCluster (clusterOf c) (setLine (m.cluster (clusterOf c)) x.asClean)
  else m

/-- Push every dirty scoped line of a core's L1, and when `far` of its cluster cache too (R177). -/
def pushAll (m : Mach) (c : Nat) (far : Bool) : Mach :=
  let m := (m.core c).lines.foldl (fun m l => if l.clean || l.cls != 1 then m else pushLine m c far l) m
  if far then
    (m.cluster (clusterOf c)).foldl (fun m x =>
      if x.clean then m
      else (homePush m x).setCluster (clusterOf c) (setLine (m.cluster (clusterOf c)) x.asClean)) m
  else m

/-- Invalidate the clean scoped sectors of an L1, and when `far` of the cluster cache (R177): a sector with a dirty
byte stays. -/
def dropClean (m : Mach) (c : Nat) (far : Bool) : Mach :=
  let m := m.updCore c (fun k => { k with lines := k.lines.filter (fun l => !l.clean || l.cls != 1) })
  if far then m.setCluster (clusterOf c) ((m.cluster (clusterOf c)).filter (fun l => !l.clean)) else m

/-- An L1 gives a tag up: its dirty scoped bytes go to the cluster cache. -/
def l1Out (m : Mach) (c tag : Nat) : Mach :=
  let m := ((m.core c).lines.filter (fun l => l.pa / 512 == tag && l.cls == 1)).foldl (fun m l => pushToCluster m (clusterOf c) l) m
  m.updCore c (fun k => { k with lines := k.lines.filter (fun l => l.pa / 512 != tag) })

/-- An L1 has room for a sector. -/
def l1Room (m : Mach) (c pa : Nat) : Mach :=
  match outTag (m.core c).lines Config.l1Tags pa with
  | some t => l1Out m c t
  | none => m

/-- The L1 takes a sector from the cluster cache, or home, where it lacks it. -/
def l1Sector (m : Mach) (who : Who) (va : Nat) (x : Xlat) (b : Nat) : Mach :=
  if (lineAt (m.core who.core).lines b).isSome then m
  else
    let m := l1Room m who.core b
    let r : Mach × Line :=
      if x.cls = 1 then clusterLine m (clusterOf who.core) b x.grain x.cls x.world
      else (m, homeSector m b x.cls x.grain x.world)
    let l : Line := { homeSector m b x.cls x.grain x.world with
      asid := who.asid, va := va / 512 * 512 + b % 512, leaf := x.leaf, span := x.span, data := r.2.data }
    r.1.updCore who.core (fun k => { k with lines := l :: k.lines })

/-- The sectors of a physical line that the L1 holds move to a tag; what an older mapping left under the tag goes
home (R198). -/
def l1Tag (m : Mach) (who : Who) (va : Nat) (x : Xlat) : Mach :=
  let old (l : Line) : Bool := l.tagged who va && l.pa / 512 != x.pa / 512
  let m := ((m.core who.core).lines.filter old).foldl (fun m l => if l.cls = 1 then pushLine m who.core true l else m) m
  m.updCore who.core (fun k => { k with lines := (k.lines.filter (fun l => !old l)).map (fun l =>
    if l.pa / 512 == x.pa / 512 then
      { l with asid := who.asid, va := va / 512 * 512 + l.pa % 512, leaf := x.leaf, span := x.span } else l) })

/-- Bring the grain of a physical address into the L1 under a virtual tag (R198), and its sector. -/
def l1Line (m : Mach) (who : Who) (va : Nat) (x : Xlat) : Mach × Line :=
  let m := (sectorsOf x.pa x.grain).foldl (fun m b => l1Sector m who (va % 2 ^ 48) x b) (l1Tag m who (va % 2 ^ 48) x)
  (m, (lineAt (m.core who.core).lines x.pa).getD (homeSector m x.pa x.cls x.grain x.world))

/-- A chunked line is held in the L1 where its home is on the core's die (R195). -/
def l1Chunked (m : Mach) (who : Who) (va : Nat) (x : Xlat) : Mach :=
  if homeDie x.pa = some who.die then (l1Line m who va x).1 else m

/-! Scoped accesses (R161 to R163). -/

/-- The point at which a scoped access is performed: 0 L1, 1 cluster cache, 2 home (Table 8-3).
Lines homed on another die, and memory outside the package, are reached uncached (R162, R195). -/
def scopedPoint (die : Nat) (sc : Scope) (pa : Nat) : Nat :=
  if homeDie pa ≠ some die then 2
  else match sc with
    | .core => 0
    | .cl => 1
    | _ => 2

/-- A line with only the dirty marks of an access. -/
def Line.only (l : Line) (pa n : Nat) : Line :=
  { l with dirty := putAt (List.replicate l.size false) (pa - l.pa) ((l.dirty.drop (pa - l.pa)).take n) }

/-- A line without the dirty marks of an access. -/
def Line.without (l : Line) (pa n : Nat) : Line :=
  { l with dirty := putAt l.dirty (pa - l.pa) (List.replicate n false) }

/-- Push the dirty bytes that an access finds in the L1 to the cluster cache. -/
def pushForL1 (m : Mach) (c pa n : Nat) : Mach :=
  match lineAt (m.core c).lines pa with
  | none => m
  | some l =>
    if (l.only pa n).clean then m
    else (pushToCluster m (clusterOf c) (l.only pa n)).updCore c (fun k => { k with
      lines := setLine k.lines (l.without pa n) })

/-- Push the dirty bytes that an access finds in the cluster cache home. -/
def pushForCl (m : Mach) (c pa n : Nat) : Mach :=
  match lineAt (m.cluster (clusterOf c)) pa with
  | none => m
  | some l =>
    (homePush m (l.only pa n)).setCluster (clusterOf c)
      (setLine (m.cluster (clusterOf c)) (l.without pa n))

/-- Push the dirty bytes that an access finds at inner levels to its point (R163). -/
def pushFor (m : Mach) (c : Nat) (point pa n : Nat) : Mach :=
  match point with
  | 0 => m
  | 1 => pushForL1 m c pa n
  | _ => pushForCl (pushForL1 m c pa n) c pa n

/-- Whether the holder's L2 has a line of host memory, and its bytes (R387). -/
def hostLine (m : Mach) (die pa : Nat) : Option Line :=
  match homeOf pa with
  | .host => match m.partOf die with
    | some p => lineAt p.lines pa
    | none => none
  | _ => none

/-- Bytes at the home of an address. -/
def homeRead (m : Mach) (die pa n : Nat) : List Byte :=
  match hostLine m die pa with
  | some l => l.bytes pa n
  | none => cread m.mem pa n

/-- Sectors that a write covers whole lose their poison (R408). -/
def unpoison (ps : List Nat) (pa n : Nat) : List Nat :=
  ps.filter (fun s => !(decide (pa ≤ s * 32) && decide (s * 32 + 32 ≤ pa + n)))

/-- Write bytes at the home of an address: every hart's reservation of the grain is the caller's
concern. A held host line takes the bytes dirty. -/
def homeWrite (m : Mach) (die pa : Nat) (bs : List Byte) : Mach :=
  match hostLine m die pa, m.partOf die with
  | some l, some p =>
    m.updPart p.pid (fun p => { p with lines := setLine p.lines (l.store pa bs true) })
  | _, _ => { m with mem := cwrite m.mem pa bs, poison := unpoison m.poison pa bs.length }

/-- The holder gives a host line up: a dirty one is a write-back in flight (R388). -/
def holderOut (m : Mach) (p : Nat) (l : Line) : Mach :=
  let m1 : Mach := { m with mem := cwriteMask m.mem l.pa l.data l.dirty }
  m1.updPart p (fun q => { q with
    lines := q.lines.filter (fun x => x.pa != l.pa)
    wbs := if l.clean then q.wbs else q.wbs ++ [l] })

/-- Bring the 512-byte line of host memory into the holder's L2 (R195, R387); a full one gives up the line it
took first (log 89). -/
def hostFetch (m : Mach) (die pa : Nat) : Mach :=
  match homeOf pa, m.partOf die with
  | .host, some p =>
    if (lineAt p.lines pa).isSome then m
    else
      let m := match (if p.lines.length < Config.l2Lines then none else p.lines.getLast?) with
        | some l => holderOut m p.pid l
        | none => m
      let b : Nat := pa / 512 * 512
      let l : Line := { pa := b, size := 512, data := cread m.mem b 512, dirty := List.replicate 512 false }
      m.updPart p.pid (fun p => { p with lines := l :: p.lines })
  | _, _ => m

/-- The context that last dirtied a host line (Table 26-5). -/
def hostOwner (m : Mach) (who : Who) (pa : Nat) : Mach :=
  match m.partOf who.die with
  | none => m
  | some p => m.updPart p.pid (fun p => { p with lines := p.lines.map (fun l => if l.has pa then { l with asid := who.asid } else l) })

/-- A scoped load at its point. -/
def scopedRead (m : Mach) (who : Who) (sc : Scope) (va : Nat) (x : Xlat) (n : Nat) :
    Except MemErr (Mach × List Byte) :=
  let pt := scopedPoint who.die sc x.pa
  match pt with
  | 0 =>
    let r := l1Line m who va x
    .ok (r.1, r.2.bytes x.pa n)
  | 1 =>
    let m := pushFor m who.core 1 x.pa n
    let (m, l) := clusterLine m (clusterOf who.core) x.pa x.grain x.cls x.world
    .ok (m, l.bytes x.pa n)
  | _ =>
    let m := hostFetch (pushFor m who.core 2 x.pa n) who.die x.pa
    .ok (m, homeRead m who.die x.pa n)

/-- Bring the copies that a core and its cluster hold up to date with a store (R163). -/
def refresh (m : Mach) (c : Nat) (far : Bool) (pa : Nat) (bs : List Byte) : Mach :=
  let fix (ls : List Line) := match lineAt ls pa with
    | some l => setLine ls (l.store pa bs false)
    | none => ls
  let m := m.updCore c (fun k => { k with lines := fix k.lines })
  if far then m.setCluster (clusterOf c) (fix (m.cluster (clusterOf c))) else m

/-- A scoped store at its point. -/
def scopedWrite (m : Mach) (who : Who) (sc : Scope) (va : Nat) (x : Xlat) (bs : List Byte) :
    Except MemErr Mach :=
  match scopedPoint who.die sc x.pa with
  | 0 =>
    let r := l1Line m who va x
    .ok (r.1.updCore who.core (fun k => { k with lines := setLine k.lines (r.2.store x.pa bs true) }))
  | 1 =>
    let (m, l) := clusterLine m (clusterOf who.core) x.pa x.grain x.cls x.world
    let m := m.setCluster (clusterOf who.core) (setLine (m.cluster (clusterOf who.core)) (l.store x.pa bs true))
    .ok (refresh m who.core false x.pa bs)
  | _ =>
    let m := pushFor m who.core 2 x.pa bs.length
    .ok (refresh (homeWrite m who.die x.pa bs) who.core true x.pa bs)

/-! Chunked accesses (R161, R247, R248). -/

/-- A memory after some deferred reductions, in issue order. -/
def redsOn (l : List Host.Cell) : List Red → List Host.Cell
  | [] => l
  | r :: rs => redsOn (cwrite l r.pa (natBytes r.n (atomNew r.op r.n (bytesNat (cread l r.pa r.n)) r.v 0))) rs

/-- The bytes that a chunk's cells put over a memory, from an address. -/
def cellsOn (l : List Host.Cell) (cells : List (Nat × Byte)) : Nat → Nat → List Host.Cell
  | _, 0 => l
  | pa, n + 1 => cellsOn (match lget cells pa with | some b => cput l pa b | none => l) cells (pa + 1) n

/-- Memory as a core's committing chunk leaves it, at an address: its cells, and over them its deferred reductions,
which the open chunk's tracked reads come after (R252, R254). -/
def comByte (m : Mach) (y : Chunk) (pa : Nat) : Byte :=
  match y.reds.filter (fun r => decide (r.pa ≤ pa) && decide (pa < r.pa + r.n)) with
  | [] => match lget y.cells pa with
    | some b => b
    | none => cget m.mem pa
  | r :: _ =>
    let a := r.pa / 8 * 8
    cget (redsOn (cellsOn m.mem y.cells a 8) (y.reds.filter (fun r => decide (r.pa < a + 8) && decide (a < r.pa + r.n)))) pa

/-- A byte as a core's threads see it: its open chunk, its committing chunk, home. -/
def chunkByte (m : Mach) (c pa : Nat) : Byte :=
  let k := m.core c
  match lget k.openC.cells pa with
  | some b => b
  | none =>
    match k.comC with
    | some y => comByte m y pa
    | none => cget m.mem pa

/-- Bytes as a core's threads see them. -/
def chunkBytes (m : Mach) (c : Nat) : Nat → Nat → List Byte
  | _, 0 => []
  | pa, n + 1 => chunkByte m c pa :: chunkBytes m c (pa + 1) n

/-- Enter a grain once. -/
def enter (l : List (Nat × Nat)) (pa size : Nat) : List (Nat × Nat) :=
  if l.contains (pa / size * size, size) then l else (pa / size * size, size) :: l

/-- An empty chunk holds no tracked read, no grain and no reduction (R247). -/
def Chunk.empty (k : Chunk) : Bool := k.rd.isEmpty && k.wr.isEmpty && k.reds.isEmpty

/-- Record the page of a tracked access (R199). -/
def Chunk.page (k : Chunk) (asid va : Nat) : Chunk :=
  if k.pages.contains (asid, va / 4096) then k else { k with pages := (asid, va / 4096) :: k.pages }

/-- A tracked read. -/
def chunkRead (m : Mach) (who : Who) (va : Nat) (x : Xlat) (n : Nat) : Mach × List Byte :=
  (m.updCore who.core (fun k => { k with
      openC := { k.openC.page who.asid va with rd := enter k.openC.rd x.pa x.grain } }),
   chunkBytes m who.core x.pa n)

/-- Put speculative bytes. -/
def specPut (l : List (Nat × Byte)) : Nat → List Byte → List (Nat × Byte)
  | _, [] => l
  | pa, b :: bs => specPut (lput l pa b) (pa + 1) bs

/-- A store into the write set. -/
def chunkWrite (m : Mach) (who : Who) (va : Nat) (x : Xlat) (bs : List Byte) : Mach :=
  m.updCore who.core (fun k => { k with
    openC := { k.openC.page who.asid va with
               wr := enter k.openC.wr x.pa x.grain, cells := specPut k.openC.cells x.pa bs } })

/-- Whether a chunked store would pass the write set's capacity (R251). -/
def writeFull (m : Mach) (c : Nat) (x : Xlat) : Bool :=
  let k := m.core c
  let g := (x.pa / x.grain * x.grain, x.grain)
  !k.openC.wr.contains g &&
    decide (Config.writeSet ≤ k.openC.wr.length + (match k.comC with | some y => y.wr.length | none => 0))

/-! Replicated pages (R161, R196). -/

/-- A replicated store: the writer's copy at once, the others later. -/
def replWrite (m : Mach) (who : Who) (gid tix pa : Nat) (bs : List Byte) : Mach :=
  let m := { m with mem := cwrite m.mem pa bs }
  (who.part.filter (fun d => d != who.die)).foldl (fun m d =>
    { m with repls := m.repls ++ [⟨m.nextId, gid, tix, d, replica pa d, bs⟩], nextId := m.nextId + 1 }) m

/-- A write to memory outside the package waits for its acknowledgement (R177 step 5), and dirties a host line for its
context. -/
def hostWrite (m : Mach) (who : Who) (gid tix pa : Nat) (bs : List Byte) : Mach :=
  let m := hostOwner (homeWrite m who.die pa bs) who pa
  { m with hostWrs := m.hostWrs ++ [⟨m.nextId, gid, tix, pa, bs⟩], nextId := m.nextId + 1 }

/-! The accesses of threads. -/

/-- Read `n` bytes at a virtual address as a thread's load does (R161, R166). -/
def gRead (m : Mach) (who : Who) (acc : Acc) (sc : Scope) (va n : Nat) : Except MemErr (Mach × List Byte) :=
  match translate m who acc va with
  | .error e => .error e
  | .ok (m, x) =>
    match reachable m acc who.die x.pa n with
    | .error e => .error e
    | .ok () =>
      match poisoned m x.pa n with
      | some e => .error e
      | none =>
        match x.cls with
        | 0 => .ok (chunkRead (l1Chunked m who va x) who va x n)
        | 1 => scopedRead m who sc va x n
        | _ => .ok (m, homeRead m who.die x.pa n)

/-- Write bytes at a virtual address as a thread's store does (R161, R166). -/
def gWrite (m : Mach) (who : Who) (sc : Scope) (gid tix va : Nat) (bs : List Byte) : Except MemErr Mach :=
  match translate m who .store va with
  | .error e => .error e
  | .ok (m, x) =>
    match reachable m .store who.die x.pa bs.length with
    | .error e => .error e
    | .ok () =>
      match x.cls with
      | 0 => .ok (chunkWrite (l1Chunked m who va x) who va x bs)
      | 1 =>
        if deviceMem x.pa then
          match scopedWrite m who sc va x bs with
          | .error e => .error e
          | .ok m => .ok (wakeWatch m x.pa bs.length)
        else .ok (hostWrite (hostFetch m who.die x.pa) who gid tix x.pa bs)
      | 2 => .ok (replWrite m who gid tix x.pa bs)
      | _ =>
        if deviceMem x.pa then .ok (wakeWatch (homeWrite m who.die x.pa bs) x.pa bs.length)
        else .ok (hostWrite m who gid tix x.pa bs)

/-- The address space of a group's threads. -/
def whoOf (m : Mach) (gid : Nat) : Who :=
  let c := m.coreOf gid
  let d := m.dieOf gid
  match m.ctxOf gid with
  | some x => { core := c, die := d, asid := pte x.satp.toNat 44 16, root := pte x.satp.toNat 0 44, secure := x.secure
                part := partDies m d, l1 := true }
  | none => { core := c, die := d, asid := 0, root := 0, secure := false, part := partDies m d, l1 := true }

/-- The address space of a group's accesses outside its core's L1: those of the copy engine. -/
def engineWho (m : Mach) (gid : Nat) : Who := { whoOf m gid with l1 := false }

/-! The accesses of headland harts (R253, R268). -/

/-- The next tidemark of a partition. -/
def nextMark (m : Mach) (pid : Nat) : Mach × Nat :=
  match m.part? pid with
  | none => (m, 0)
  | some p => (m.updPart pid (fun p => { p with grants := p.grants + 1 }), p.grants + 1)

/-- The tidemark of a single-access commit of a die's partition. -/
def dieMark (m : Mach) (d : Nat) : Mach × Nat :=
  match m.partOf d with
  | some p => nextMark m p.pid
  | none => (m, 0)

/-- A hart's read: at the home L2, or, on a chunked page, at a tidemark of its own where `mark` asks for one: an AMO or
SC takes it with its write (R253). It answers the translation too. -/
def hartRead (m : Mach) (who : Who) (acc : Acc) (mark : Bool) (va n : Nat) : Except MemErr (Mach × List Byte × Xlat) :=
  match translate m who acc va with
  | .error e => .error e
  | .ok (m, x) =>
    match reachable m acc who.die x.pa n with
    | .error e => .error e
    | .ok () =>
      match poisoned m x.pa n with
      | some e => .error e
      | none =>
        let m := if x.cls = 0 && mark then (dieMark m who.die).1 else m
        .ok (m, homeRead m who.die x.pa n, x)

/-! Ranges (R181, R210, R331). -/

/-- The parts of a range that lie in one page each: address and length. -/
def pageParts (va n : Nat) : List (Nat × Nat) :=
  let a := min n (4096 - va % 4096)
  if a < n then [(va, a), ((va + a) % 2 ^ 64, n - a)] else [(va, n)]

/-- Translate and check every part of a range. -/
def engineXlat (m : Mach) (who : Who) (acc : Acc) : List (Nat × Nat) →
    Except (Nat × MemErr) (Mach × List (Nat × Nat × Xlat))
  | [] => .ok (m, [])
  | (va, n) :: l =>
    match translate m who acc va with
    | .error e => .error (va, e)
    | .ok (m, x) =>
      match reachable m acc who.die x.pa n with
      | .error e => .error (va, e)
      | .ok () =>
        match (if acc.writes then none else poisoned m x.pa n) with
        | some e => .error (va, e)
        | none =>
          match engineXlat m who acc l with
          | .error e => .error e
          | .ok (m, xs) => .ok (m, (va, n, x) :: xs)

/-- The grains of a range of a chunked page. -/
def grainsOf (pa n grain : Nat) : List (Nat × Nat) :=
  (List.range ((pa + n - 1) / grain - pa / grain + 1)).map (fun i => ((pa / grain + i) * grain, grain))

/-! Scratchpad (R168, R169). -/

/-- Log the prior content of the 8-byte words that a write changes, once per chunk (R247). -/
def undoLog (m : Mach) (c gid off n : Nat) : Mach :=
  match m.group? gid with
  | none => m
  | some g =>
    m.updCore c (fun k => { k with openC := { k.openC with
      undo := (List.range ((off + n - 1) / 8 - off / 8 + 1)).foldl (fun u i =>
        let o := (off / 8 + i) * 8
        if u.any (fun e => e.gid == gid && e.off == o) then u
        else ⟨gid, o, cread g.spad o 8⟩ :: u) k.openC.undo } })

/-- Undo entries that a write would add. -/
def undoNew (m : Mach) (c gid off n : Nat) : Nat :=
  (List.range ((off + n - 1) / 8 - off / 8 + 1)).countP (fun i =>
    !(m.core c).openC.undo.any (fun e => e.gid == gid && e.off == (off / 8 + i) * 8))

/-- Wake the threads of a group that watch a word of its scratchpad which has changed (R179). -/
def wakePad (m : Mach) (gid : Nat) (old new : List Host.Cell) : Mach :=
  { m with threads := m.threads.map (fun t =>
      match t.stat with
      | .waiting (.addr false ea wp v d false p) =>
        if t.gid == gid && cread old ea 4 != cread new ea 4 then
          { t with stat := .waiting (.addr false ea wp v d true p) } else t
      | _ => t) }

/-- A soft error of the 8-byte word of a group's scratchpad that some bytes meet (R411). -/
def SoftAt.inPad (s : SoftAt) (gid off n : Nat) : Bool :=
  match s with
  | .scratch g o => g == gid && decide (o / 8 * 8 < off + n) && decide (off < o / 8 * 8 + 8)
  | _ => false

/-- Whether a range of a group's scratchpad has an uncorrectable soft error (R411). -/
def padBad (m : Mach) (gid off n : Nat) : Bool := m.bad.any (fun s => SoftAt.inPad s gid off n)

/-- Write a group's scratchpad: words written whole are good again. -/
def padPut (m : Mach) (gid off : Nat) (bs : List Byte) : Mach :=
  let m1 : Mach := { m with bad := m.bad.filter (fun s =>
    match s with
    | .scratch g o => !(g == gid && decide (off ≤ o / 8 * 8) && decide (o / 8 * 8 + 8 ≤ off + bs.length))
    | _ => true) }
  match m.group? gid with
  | none => m1
  | some g =>
    let new := cwrite g.spad off bs
    wakePad (m1.updGroup gid (fun g => { g with spad := new })) gid g.spad new

/-- A scratchpad store of the group's own threads: undo-logged (R169). -/
def padWrite (m : Mach) (c gid off : Nat) (bs : List Byte) : Mach :=
  padPut (undoLog m c gid off bs.length) gid off bs

/-- A scratchpad write from outside the core's threads: a word that the log holds takes the word's new
content there (R169). -/
def padWriteOut (m : Mach) (gid off : Nat) (bs : List Byte) : Mach :=
  let m := padPut m gid off bs
  match m.group? gid with
  | none => m
  | some g =>
    let fix (u : List Undo) := u.map (fun e =>
      if e.gid == gid && decide (off < e.off + 8) && decide (e.off < off + bs.length) then
        { e with old := cread g.spad e.off 8 } else e)
    m.updCore (m.coreOf gid) (fun k => { k with
      openC := { k.openC with undo := fix k.openC.undo },
      comC := k.comC.map (fun y => { y with undo := fix y.undo }) })

/-- The bytes of a group's scratchpad. -/
def padRead (m : Mach) (gid off n : Nat) : List Byte :=
  match m.group? gid with
  | none => []
  | some g => cread g.spad off n

/-- A range inside a group's allocation (R160, R220). -/
def padIn (m : Mach) (gid off n : Nat) : Bool := decide (off + n ≤ (m.recOf gid).scratch)

/-- A range that a thread may access: inside the allocation, with no uncorrectable error. -/
def padOk (m : Mach) (gid off n : Nat) : Bool := padIn m gid off n && !padBad m gid off n

end Sys2Proof.Machine
end

