-- ==== Sys2Proof/Machine/Squash.lean ====
section
/-!
DEFINITION. What a commit does to the chunks of other cores (14): signatures, the conflict check, and the squash.
-/

namespace Sys2Proof.Machine

/-! Grains and signatures (R246, R249). -/

/-- Whether two grains meet. -/
def grainsMeet (a b : Nat × Nat) : Bool := decide (a.1 < b.1 + b.2) && decide (b.1 < a.1 + a.2)

/-- Whether a signature holds a grain: entered, or reported by its hash. -/
def sigHas (l : List (Nat × Nat)) (g : Nat × Nat) : Bool :=
  l.any (grainsMeet g) || (!l.isEmpty && Config.sigAlias l g)

/-- Whether a chunk's signatures meet some grains; one with a parity error holds every grain. -/
def Chunk.meets (k : Chunk) (gs : List (Nat × Nat)) : Bool :=
  gs.any (fun g => k.parity || sigHas k.rd g || sigHas k.wr g)

/-- The grains of a commit: the write set and those of the deferred reductions (R252). -/
def Chunk.grains (k : Chunk) : List (Nat × Nat) := k.wr ++ k.reds.map (fun r => (r.pa / r.grain * r.grain, r.grain))

/-- The clock of a core's die. -/
def clkOf (m : Mach) (c : Nat) : Nat := (m.die (c / 64)).clk

/-! Squash (R255). -/

/-- Replay an undo log, newest entry first. -/
def replay (m : Mach) (u : List Undo) : Mach := u.foldl (fun m e => padPut m e.gid e.off e.old) m

/-- A thread as a squash restores it: `PRS` never rolls back, demotion and ageing are
reset (R158). -/
def Thread.restored (old now : Thread) : Thread :=
  { old with prs := now.prs, demoted := false, ageing := 0, aged := false, poll := false }

/-- Take a core's threads and groups back to a checkpoint: clauses in flight end. -/
def rollBack (m : Mach) (c : Nat) (ck : Ckpt) : Mach :=
  { m with
    running := m.running.filter (fun r => r.core != c)
    threads := m.threads.map (fun t =>
      match ck.threads.find? (fun o => o.gid == t.gid && o.tix == t.tix) with
      | some o => Thread.restored o t
      | none => t)
    groups := m.groups.map (fun g =>
      match ck.groups.find? (fun o => o.1 == g.gid) with
      | some o => { g with k := o.2.1, rj := o.2.2 }
      | none => g) }

/-- Causes of a close that outlive a squash. -/
def dueAfter (l : List Nat) : List Nat := l.filter (fun d => d == 11 || d == 12 || d == 13)

/-- Squash a core's chunks: all of them, to the checkpoint of the oldest. `kind` is the code that `CHS`
keeps (Table 14-5). -/
def squash (m : Mach) (c kind : Nat) : Mach :=
  let k := m.core c
  let ck : Ckpt := if k.comC.isSome then k.comCk else k.ck
  let m := replay m k.openC.undo
  let m : Mach := match k.comC with
    | some y => replay m y.undo
    | none => m
  (rollBack m c ck).updCore c (fun k => { k with
    openC := { serial := k.openC.serial + 1, opened := clkOf m c,
               solo := k.openC.solo || k.soloNext || (match k.comC with | some y => y.solo | none => false) }
    comC := none, soloNext := false, ck := ck, comCk := {}, yielded := []
    due := dueAfter k.due, run := min (k.run + 1) 4, sq := k.sq + 1, lastSq := kind })

/-! Commits against the chunks of others (R252, R253, R256). -/

/-- Some other party's solo chunk holds up a commit of these grains (R256). -/
def soloBlocks (m : Mach) (dies : List Nat) (but : Option Nat) (gs : List (Nat × Nat)) : Bool :=
  m.cores.any (fun e => some e.1 != but && dies.contains (e.1 / 64) &&
    ((e.2.openC.solo && e.2.openC.meets gs) ||
      (match e.2.comC with | some y => y.solo && y.meets gs | none => false)))

/-- Squash every other core of a partition whose chunks a commit's grains meet. -/
def conflicts (m : Mach) (dies : List Nat) (but : Option Nat) (gs : List (Nat × Nat)) (kind : Nat) : Mach :=
  (m.cores.filter (fun e => some e.1 != but && dies.contains (e.1 / 64) &&
    (e.2.openC.meets gs || (match e.2.comC with | some y => y.meets gs | none => false)))).foldl
    (fun m e => squash m e.1 kind) m

/-- Write published bytes home (R252): watchers wake. -/
def publishBytes (m : Mach) (pa : Nat) (bs : List Byte) : Mach :=
  wakeWatch { m with mem := cwrite m.mem pa bs, poison := unpoison m.poison pa bs.length } pa bs.length

end Sys2Proof.Machine
end

