-- ==== Sys2Proof/Machine/Ops.lean ====
section
/-!
DEFINITION. The operations that instructions share: performing a word for a pack, leaving it,
taking an exception (a built-in effect, a supervisor fault) and returning from one.
-/

namespace Sys2Proof.Machine

/-! Words and packs. -/

/-- Threads that perform the word of a clause in flight: still in the pack, with the word to do,
and a true predicate (R93). -/
def Running.sel (r : Running) (g : Guard) (t : Thread) : Bool :=
  t.gid == r.gid && r.act.contains t.tix && t.stat == .issuing && t.guard g

/-- Change every thread that performs the word. -/
def vecWord (m : Mach) (g : Guard) (f : Thread → Thread) : Mach :=
  match m.curRun with
  | none => m
  | some r => { m with threads := m.threads.map (fun t => if r.sel g t then f t else t) }

/-- Perform the word thread by thread in ascending `TIX`. -/
def seqWord (m : Mach) (g : Guard) (f : Mach → Running → Thread → Mach) : Mach :=
  match m.curRun with
  | none => m
  | some r =>
    r.act.foldl (fun m i =>
      match m.thread? r.gid i with
      | some t => if r.sel g t then f m r t else m
      | none => m) m

/-- Threads that perform the word, in ascending `TIX`. -/
def performers (m : Mach) (g : Guard) : List Thread :=
  match m.curRun with
  | none => []
  | some r => r.act.filterMap (fun i =>
      match m.thread? r.gid i with
      | some t => if r.sel g t then some t else none
      | none => none)

/-- The end of a thread's part in a clause: a `.poll` load that it performed demotes it (R156, R167). -/
def Thread.polled (t : Thread) : Thread := { t with demoted := t.demoted || t.poll, poll := false }

/-- A thread that leaves its pack is in none (R142): no tag binds it to the others. -/
def Thread.leave (t : Thread) (st : TStat) (p : Pos) : Thread := { t.polled with stat := st, pos := p, pack := 0 }

/-- Ready at a header after a clause: a thread that is demoted leaves its pack (R142). -/
def Thread.endsAt (t : Thread) (hdr : Nat) (landed : Bool) : Thread :=
  let u := t.polled
  { u with stat := .ready, pos := ⟨hdr, 0⟩, landed := landed, pack := if u.demoted then 0 else u.pack }

/-- A control transfer: ready at a target header, reached by a landing (R143, R356). -/
def Thread.goTo (t : Thread) (hdr : Nat) : Thread := t.endsAt hdr true

/-- The word has not completed at a thread: it is performed again for it (R170, R177). -/
def stallAt (m : Mach) (rid tix : Nat) : Mach := m.updRun rid (fun r => { r with stall := r.stall ++ [tix] })

/-- The header after a clause (R49). -/
def Running.nextHdr (r : Running) : Nat := (r.hdr + 8 * (r.count + 2)) % 2 ^ 64

/-- The position after `n` words at the current one (R56). -/
def Running.after (r : Running) (n : Nat) : Pos :=
  if r.count < r.idx + n then ⟨r.nextHdr, 0⟩ else ⟨r.hdr, r.idx + n⟩

/-- The position of the current word. -/
def Running.here (r : Running) : Pos := ⟨r.hdr, r.idx⟩

/-- The flag that a select names (R52). -/
def Running.flag (r : Running) (sel : Nat) : Option Nat :=
  match sel with
  | 1 => if r.setA < 12 then some r.setA else none
  | 2 => if r.setB < 12 then some r.setB else none
  | _ => none

/-! Completion flags and the register interlock (R51, R52). -/

/-- Outstanding operations of a thread on a flag. -/
def flagCount (m : Mach) (t : Thread) (n : Nat) : Nat :=
  let k := m.core (m.coreOf t.gid)
  t.loads.countP (fun l => l.flag == some n) +
    k.copies.countP (fun c => c.gid == t.gid && c.tix == t.tix && c.flag == some n) +
    k.ftlds.countP (fun c => c.gid == t.gid && c.tix == t.tix && c.flag == some n) +
    k.tcmds.countP (fun c => c.gid == t.gid && c.tix == t.tix && c.flag == some n)

/-- Flags that refuse a thread a start (R50): one of a Wait field that is pending, or of a Set field that has 48
operations outstanding. -/
def flagsRefuse (m : Mach) (t : Thread) (wait : Nat) (sets : List Nat) : Bool :=
  (List.range 12).any (fun n => wait / 2 ^ n % 2 == 1 && flagCount m t n != 0) ||
    sets.any (fun n => decide (n < 12) && decide (47 < flagCount m t n))

/-- Registers of a thread that an outstanding operation will write (R52, R304). -/
def awaited (m : Mach) (t : Thread) : List Nat :=
  (t.loads.map (fun l => l.regs.map Prod.fst)).flatten ++
    ((m.core (m.coreOf t.gid)).tcmds.filterMap (fun c =>
      if c.gid == t.gid && c.tix == t.tix then c.res else none)).flatMap (fun b => [b, b + 1])

/-! The order of commands (R283, R293, R305, R310), and what a halt holds up (R307). -/

/-- The tiles that a command keeps in its order; a drain-add only until its read. -/
def TCmd.tiles (x : TCmd) : List Nat :=
  match x.op with
  | .code _ => []
  | .qr t _ _ => [x.tile, t]
  | .trsm t _ _ _ _ _ => [x.tile, t]
  | .dadd _ _ => if x.sent then [] else [x.tile]
  | _ => [x.tile]

/-- The permutation register of an operation. -/
def TOp.pv? : TOp → Option Nat
  | .lu pv _ => some pv
  | .pvap pv _ => some pv
  | _ => none

/-- The factorisations. -/
def TOp.factor : TOp → Bool
  | .lu .. | .chol .. | .qr .. | .trsm .. | .pvap .. => true
  | _ => false

/-- What uses the matrix array. -/
def TOp.array : TOp → Bool
  | .mma .. => true
  | op => op.factor

/-- Two commands in one order: they share a tile or a permutation register. -/
def TCmd.shares (x y : TCmd) : Bool :=
  y.tiles.any (fun i => x.tiles.contains i) || (y.op.pv?.isSome && y.op.pv? == x.op.pv?)

/-- The commands of a core, in order, that a halt holds up: the halted ones, and each that an earlier one
of these keeps from beginning. -/
def stuckCmds (l : List TCmd) : List TCmd :=
  l.foldl (fun st y =>
    if y.halt.isSome || st.any (fun z => y.shares z || (y.op.array && z.op.array && z.halt.isNone)) then st ++ [y]
    else st) []

/-- Whether a register write of the thread is outstanding (R52), as `svc` and `perform` ask (R212, R328). -/
def outstanding (m : Mach) (t : Thread) : Bool := !(awaited m t).isEmpty

/-- Whether a register write of the thread is on its way, as a delivery and the words that restore registers from a
record ask (R330, R333, R334). The result pair of a command that a halt holds up is not: it cannot arrive before the
halt's effect is delivered and resumed (log 28, DEDUCED from Table 18-6 and step 10 of Table 22-4). -/
def arriving (m : Mach) (t : Thread) : Bool :=
  let st := stuckCmds (m.core (m.coreOf t.gid)).tcmds
  !t.loads.all (fun l => l.regs.isEmpty) ||
    (m.core (m.coreOf t.gid)).tcmds.any (fun c =>
      c.gid == t.gid && c.tix == t.tix && c.res.isSome && !st.contains c)

/-! The register checkpoint (R246, R188). -/

/-- Change a thread in the checkpoints of its core. -/
def updCk (m : Mach) (gid tix : Nat) (f : Thread → Thread) : Mach :=
  let fix (k : Ckpt) : Ckpt :=
    { k with threads := k.threads.map (fun t => if t.gid == gid && t.tix == tix then f t else t) }
  m.updCore (m.coreOf gid) (fun k => { k with ck := fix k.ck, comCk := fix k.comCk })

/-- Change a thread and its checkpointed state alike: what no squash undoes. -/
def updBoth (m : Mach) (gid tix : Nat) (f : Thread → Thread) : Mach :=
  updCk (m.updThread gid tix f) gid tix f

/-- After an escaping operation in an empty chunk, the thread's checkpointed state is its state just
after it, at position `p` (R188). -/
def credit (m : Mach) (gid tix : Nat) (p : Pos) : Mach :=
  match m.thread? gid tix with
  | none => m
  | some t =>
    m.updCore (m.coreOf gid) (fun k => { k with ck := { k.ck with
      threads := k.ck.threads.map (fun c =>
        if c.gid == gid && c.tix == tix then
          { t with pos := p, stat := if t.stat = .issuing then .ready else t.stat } else c) } })

/-- A thread of the group has performed an escaping operation (R226). -/
def markEsc (m : Mach) (gid : Nat) : Mach := m.updGroup gid (fun g => { g with escaped := true })

/-- A close of the open chunk is due for a cause of Table 14-3. -/
def addDue (m : Mach) (c cause : Nat) : Mach :=
  m.updCore c (fun k => { k with due := if k.due.contains cause then k.due else cause :: k.due })

/-- The open chunk of a core is empty (R247). -/
def chunkEmpty (m : Mach) (c : Nat) : Bool := (m.core c).openC.empty

/-- An escaping word in a chunk that is not empty: the thread leaves its pack at the word, and the
chunk closes with the cause (R188, R251). -/
def escape (m : Mach) (r : Running) (t : Thread) (cause : Nat) : Mach :=
  addDue (m.updThread t.gid t.tix (fun t => { t.leave .escaping r.here with
    escFor := cause, escAt := some (m.core r.core).openC.serial })) r.core cause

/-- The word stalls whole: it is performed again for each thread that performs it (R177). -/
def stallWord (m : Mach) (g : Guard) : Mach :=
  match m.curRun with
  | none => m
  | some r => (performers m g).foldl (fun m t => stallAt m r.rid t.tix) m

/-- A word that waits for a release: until no thread that performs it is waited for, it stalls whole, so that its
threads go on together and in ascending `TIX` (R92, R177, R211, R212, R237). -/
def relWord (m : Mach) (g : Guard) (waits : Mach → Running → Thread → Bool) (go : Mach) : Mach :=
  match m.curRun with
  | none => go
  | some r => if (performers m g).any (waits m r) then stallWord m g else go

/-- A thread of a core stands ready at the word of a retry, in an empty chunk (Table 9-7). -/
def retryOn (m : Mach) (c : Nat) : Bool :=
  m.threads.any (fun t => t.retrying && t.stat == .ready && m.coreOf t.gid == c)

/-- The word being performed has stalled at a thread. -/
def stalledAt (m : Mach) (rid tix : Nat) : Bool := m.running.any (fun r => r.rid == rid && r.stall.contains tix)

/-- Credit an escaping word of `len` words to its thread, when the thread has performed it: it is
still issuing, or waits (R188). A blocking wait (cause 7) is no escaping operation of R226. -/
def creditWord (m : Mach) (r : Running) (t : Thread) (cause len : Nat) : Mach :=
  let done (p : Pos) : Mach :=
    let m := credit m t.gid t.tix p
    if cause = 7 then m else markEsc m t.gid
  match m.thread? t.gid t.tix with
  | none => m
  | some u =>
    match u.stat with
    | .issuing => if stalledAt m r.rid t.tix then m else done (r.after len)
    | .waiting _ => done u.pos
    | _ => m

/-- An escaping word for one thread (R188): in a chunk that is not empty it leaves its pack; while an
earlier chunk of the core commits it stalls (R267); else it is performed and credited. -/
def escDo (m : Mach) (r : Running) (t : Thread) (cause len : Nat) (go : Mach) : Mach :=
  if !chunkEmpty m r.core then escape m r t cause
  else if (m.core r.core).comC.isSome then stallAt m r.rid t.tix
  else creditWord go r t cause len

/-- An escaping word for its pack, thread by thread. -/
def escWord (m : Mach) (g : Guard) (cause len : Nat) (f : Mach → Running → Thread → Mach) : Mach :=
  seqWord m g (fun m r t => escDo m r t cause len (f m r t))

/-! Fault records (Table 9-5, R352). -/

/-- The Place word of a thread. -/
def placeOf (m : Mach) (t : Thread) (idx : Nat) : Nat :=
  t.slot + m.coreOf t.gid % 64 * 2 ^ 11 + m.dieOf t.gid * 2 ^ 17 + idx % 16 * 2 ^ 19

/-- The 32 bytes of a record. -/
def FRec.bytes (f : FRec) : List Byte :=
  natBytes 2 f.kind ++ natBytes 2 f.cause ++ natBytes 1 f.access ++ natBytes 1 f.flags ++
    natBytes 2 f.asid ++ natBytes 8 f.addr ++ natBytes 8 f.clause ++ natBytes 4 f.place ++
    natBytes 4 f.timeline

/-- Write a record at Produced and raise the supervisor's interrupt (R352). -/
def writeRec (m : Mach) (x : Ctx) (f : FRec) : Mach :=
  let p := (x.produced + 1) % 2 ^ 64
  let m := publishBytes (publishBytes m (x.fqBase + x.produced % x.entries * 32) f.bytes) (x.desc + 0x30) (natBytes 8 p)
  (m.updCtx x.cid (fun c => { c with produced := p })).updPart x.part (fun q => { q with irq := q.irq + 1 })

/-- Post a record to a context's fault queue, or hold it while the queue is full (R352). -/
def postRec (m : Mach) (cid : Nat) (f : FRec) : Mach :=
  match m.ctx? cid with
  | none => m
  | some x =>
    if x.held.isEmpty && decide (x.produced - memNat m (x.desc + 0x38) 8 < x.entries) then writeRec m x f
    else m.updCtx cid (fun c => { c with held := c.held ++ [f] })

/-- The ASID of a context. -/
def asidOf (m : Mach) (cid : Nat) : Nat :=
  match m.ctx? cid with
  | some x => pte x.satp.toNat 44 16
  | none => 0

/-- The context number of a group. -/
def cidOf (m : Mach) (gid : Nat) : Nat :=
  match m.kernelOf gid with
  | some k => k.cid
  | none => 0

/-! Taking an exception. -/

/-- A thread parks: it stops alone, and in stop-group mode its group stops with it (R155). -/
def parkThread (m : Mach) (gid tix : Nat) (p : Park) : Mach :=
  let m := m.updThread gid tix (fun t => { t.leave (.parked p) t.pos with goes := false })
  match m.ctxOf gid with
  | some x =>
    if x.stopGroup then
      let m1 : Mach := { m with threads := m.threads.map (fun t => if t.gid == gid then { t with goes := false } else t) }
      m1.updGroup gid (fun g => { g with halted := true })
    else m
  | none => m

/-- A supervisor fault (R200): the word is not performed, the thread parks at it, the chunk closes
with cause 10, and a record is posted. PAGE and PROT are retryable (R201). The record names position `at_`: the
thread's, but for a fetch, which is reported at the header (R57). -/
def superFault (m : Mach) (t : Thread) (kind cause : Nat) (acc : Nat) (flags addr : Nat) (p : Pos)
    (at_ : Pos := p) : Mach :=
  let retry := kind == 1 || kind == 2
  let m := m.updThread t.gid t.tix (fun t => { t with pos := p })
  let m := parkThread m t.gid t.tix (.fault kind cause retry)
  let m := addDue m (m.coreOf t.gid) 10
  postRec m (cidOf m t.gid) {
    kind := kind, cause := cause, access := acc,
    flags := flags + (if retry then 4 else 0), asid := asidOf m (cidOf m t.gid), addr := addr,
    clause := at_.hdr, place := placeOf m t at_.idx }

/-- A built-in effect (R330): the thread leaves its pack, with its saved position and the effect's
arguments kept until the delivery. -/
def raiseEff (m : Mach) (t : Thread) (x : Raise) : Mach :=
  m.updThread t.gid t.tix (fun t => { t.leave .raised x.save with pend := some x })

/-- MISALIGN at the current word (Tables 7-4 and 8-1): the saved position is the word after (R56). -/
def misalign (m : Mach) (r : Running) (t : Thread) (a2 a3 len : Nat) : Mach :=
  raiseEff m t { eff := 2, a0 := BitVec.ofNat 64 r.hdr, a1 := BitVec.ofNat 64 r.idx,
                 a2 := BitVec.ofNat 64 a2, a3 := BitVec.ofNat 64 a3, save := r.after len, word := r.here }

/-- LINK.LOST at the current word (Table 26-6). -/
def linkLost (m : Mach) (r : Running) (t : Thread) (ea cause : Nat) : Mach :=
  raiseEff m t { eff := 9, a0 := BitVec.ofNat 64 r.hdr, a1 := BitVec.ofNat 64 r.idx,
                 a2 := BitVec.ofNat 64 ea, a3 := BitVec.ofNat 64 cause, save := r.after 1, word := r.here }

/-- What an access's failure does to its thread. -/
def memStop (m : Mach) (r : Running) (t : Thread) (acc : Acc) (ea : Nat) (e : MemErr) : Mach :=
  match e with
  | .fault k c => superFault m t k c acc.code 0 ea r.here
  | .link c => linkLost m r t ea c

/-- A scratchpad access outside the allocation (R160). -/
def padStop (m : Mach) (r : Running) (t : Thread) (acc : Acc) (ea : Nat) : Mach :=
  superFault m t 2 0x0203 acc.code 0 ea r.here

/-- A scratchpad access that `padOk` refuses: outside the allocation, or an uncorrectable error (R411). -/
def padFault (m : Mach) (r : Running) (t : Thread) (gid n : Nat) (acc : Acc) (ea : Nat) : Mach :=
  if padIn m gid ea n then superFault m t 5 0x0504 acc.code 0 ea r.here else padStop m r t acc ea

/-! Handler frames (20). -/

/-- `a0` is pair 20 and so on (R325). -/
def ra0 : Nat := 20
/-- The link register `ra`, pair 2. -/
def rRA : Nat := 2
/-- The stack pointer, pair 4. -/
def rSP : Nat := 4

/-- s0 to s11 by pair number, s0 first. -/
def savedPairs : List Nat := [16, 18, 36, 38, 40, 42, 44, 46, 48, 50, 52, 54]

/-- Sign-extend a 48-bit address (R320). -/
def sx48 (a : Nat) : Nat := if pte a 47 1 = 1 then a % 2 ^ 48 + (2 ^ 64 - 2 ^ 48) else a % 2 ^ 48

/-- A frame's fields (Table 20-1). -/
structure Frame where
  id    : Nat
  entry : Nat
  state : Nat
  p     : Nat
  exit  : Nat
  s     : Nat
  top   : Nat
  ov  : Nat
  depth : Nat
  link  : Nat
deriving DecidableEq, Repr

/-- A frame of its four dwords. -/
def Frame.ofDwords (d0 d1 d2 d3 : Nat) : Frame :=
  { id := pte d0 48 16, entry := sx48 (pte d0 3 45 * 8), state := pte d0 0 3,
    p := pte d1 48 16, exit := sx48 (pte d1 3 45 * 8),
    s := pte d2 48 16, top := sx48 (pte d2 4 44 * 16), ov := pte d2 0 1,
    depth := pte d3 48 16, link := sx48 (pte d3 5 43 * 32) }

/-- The 32 bytes of a frame. -/
def Frame.bytes (f : Frame) : List Byte :=
  natBytes 8 (f.id * 2 ^ 48 + f.entry % 2 ^ 48 / 8 * 8 + f.state) ++
    natBytes 8 (f.p * 2 ^ 48 + f.exit % 2 ^ 48 / 8 * 8) ++
    natBytes 8 (f.s * 2 ^ 48 + f.top % 2 ^ 48 / 16 * 16 + f.ov) ++
    natBytes 8 (f.depth * 2 ^ 48 + f.link % 2 ^ 48 / 32 * 32)

/-- Why an effect instruction stops before it has written anything, and the addresses that it has read from. -/
inductive FxStop where
  | mem (e : MemErr) (acc : Acc) (addr : Nat) (rds : List (Nat × Nat))
  /-- An effect with its a2 and a3. -/
  | eff (id a2 a3 : Nat) (rds : List (Nat × Nat))
deriving DecidableEq, Repr

/-- The machine of an effect instruction as it reads, and what it has read. -/
structure Fx where
  m   : Mach
  who : Who
  rds : List (Nat × Nat) := []
  /-- The accesses are those of a headland hart (R342). -/
  hart : Bool := false

/-- Loads of 8 bytes at `.core` scope (R331): none crosses a page. -/
def Fx.readN : Nat → Fx → Nat → Nat → List Byte → Except FxStop (Fx × List Byte)
  | 0, x, _, _, acc => .ok (x, acc)
  | k + 1, x, a, n, acc =>
    if n = 0 then .ok (x, acc)
    else
      let got : Except MemErr (Mach × List Byte) :=
        if x.hart then (hartRead x.m x.who .load true a (min n 8)).map (fun r => (r.1, r.2.1))
        else gRead x.m x.who .load .core a (min n 8)
      match got with
      | .error e => .error (.mem e .load a ((a, min n 8) :: x.rds))
      | .ok (m, bs) =>
        Fx.readN k { x with m := m, rds := (a, min n 8) :: x.rds } ((a + 8) % 2 ^ 64) (n - min n 8) (acc ++ bs)

/-- Load `n` bytes. -/
def Fx.read (x : Fx) (a n : Nat) : Except FxStop (Fx × List Byte) := Fx.readN (n / 8 + 1) x a n []

/-- An address below another; addresses wrap. -/
def below (a n : Nat) : Nat := addr64 ((a : Int) - n)

/-- Read a frame. -/
def Fx.frame (x : Fx) (f : Nat) : Except FxStop (Fx × Frame) :=
  match x.read f 32 with
  | .error e => .error e
  | .ok (x, bs) => .ok (x, Frame.ofDwords (fieldAt bs 0 8) (fieldAt bs 8 8) (fieldAt bs 16 8) (fieldAt bs 24 8))

/-- The search of R327: the frame that answers effect `e`, none, or too many frames. -/
def Fx.search (e : Nat) : Nat → Fx → Nat → Except FxStop (Fx × Option (Nat × Frame))
  | 0, x, f => if f = 0 then .ok (x, none) else .error (.eff 10 e 2 x.rds)
  | n + 1, x, f =>
    if f = 0 then .ok (x, none)
    else match x.frame f with
      | .error s => .error s
      | .ok (x, fr) =>
        if fr.state ≠ 2 ∧ fr.id = e then .ok (x, some (f, fr)) else Fx.search e n x fr.link

/-- Store bytes for the sake of later reads: what fails is left out. -/
def fxSim (m : Mach) (who : Who) (gid tix : Nat) : Nat → Nat → List Byte → Mach
  | 0, _, _ => m
  | k + 1, a, bs =>
    if bs.isEmpty then m
    else
      let m := match gWrite m who .core gid tix a (bs.take 8) with | .ok m => m | .error _ => m
      fxSim m who gid tix k ((a + 8) % 2 ^ 64) (bs.drop 8)

/-- The machine after some stores of a plan, as its later reads find it; what a store would raise is found before any
of them (R331). -/
def Fx.stored (x : Fx) (gid tix : Nat) : List (Nat × List Byte) → Fx
  | [] => x
  | (a, bs) :: l => Fx.stored { x with m := fxSim x.m x.who gid tix (bs.length / 8 + 1) a bs } gid tix l

/-- What an effect instruction will write, in order, the thread after it, and what else it does: `esc` where that is
escaping (R341); `quiet` for `hstat`, which neither waits nor closes a chunk (R337). -/
structure FxPlan where
  x   : Fx
  wrs : List (Nat × List Byte)
  f   : Thread → Thread
  esc : Bool := false
  k   : Mach → Mach := id
  quiet : Bool := false

/-- Whether some of the pages of a range are scoped or direct, or, for a store, replicated: the access is then escaping
(R331, R341, Table 8-12). -/
def fxHotRange (m : Mach) (who : Who) (store : Bool) (a n : Nat) : Bool :=
  (pageParts a n).any (fun p => match pageClass m who p.1 with
    | some c => c == 1 || c == 3 || (store && c == 2)
    | none => false)

/-- Whether some reads fell on a scoped or direct page (R331). -/
def fxHotReads (m : Mach) (who : Who) (rds : List (Nat × Nat)) : Bool := rds.any (fun a => fxHotRange m who false a.1 a.2)

/-- Translate every address of the writes before any of them (R331): the first that fails. -/
def fxProbe (m : Mach) (who : Who) : List (Nat × List Byte) → Option (MemErr × Nat)
  | [] => none
  | (a, bs) :: r =>
    match engineXlat m who .store (pageParts a bs.length) with
    | .error (va, e) => some (e, va)
    | .ok _ => fxProbe m who r

/-- Whether an effect instruction or delivery is escaping (R331, R341). -/
def fxEscapes (p : FxPlan) : Bool :=
  !p.quiet && (p.esc || fxHotReads p.x.m p.x.who p.x.rds ||
    p.wrs.any (fun a => fxHotRange p.x.m p.x.who true a.1 a.2.length))

/-- Store 8 bytes at a time, as the thread's stores at `.core` scope. -/
def fxStore (m : Mach) (who : Who) (gid tix : Nat) : Nat → Nat → List Byte → Except (MemErr × Nat) Mach
  | 0, _, _ => .ok m
  | k + 1, a, bs =>
    if bs.isEmpty then .ok m
    else
      match gWrite m who .core gid tix a (bs.take 8) with
      | .ok m => fxStore m who gid tix k ((a + 8) % 2 ^ 64) (bs.drop 8)
      | .error e => .error (e, a)

/-- A part of a write in one page, by an escaping instruction: on a chunked page it adds nothing to the chunk, and is a
solo commit, as an `atom` is (R188, R253, log 86). -/
def fxSolo (m : Mach) (who : Who) (gid tix a : Nat) (bs : List Byte) : Except (MemErr × Nat) Mach :=
  match translate m who .store a with
  | .error e => .error (e, a)
  | .ok (m, x) =>
    if x.cls = 0 then
      let (m, mark) := dieMark m who.die
      let m := (publishBytes m x.pa bs).updCore who.core (fun k => { k with mark := mark })
      .ok (conflicts m who.part (some who.core) (grainsOf x.pa bs.length x.grain) 1)
    else fxStore m who gid tix (bs.length / 8 + 1) a bs

/-- The parts of a write with their bytes. -/
def splitParts (a : Nat) (bs : List Byte) : List (Nat × List Byte) :=
  match pageParts a bs.length with
  | [(a, n), (b, _)] => [(a, bs.take n), (b, bs.drop n)]
  | _ => [(a, bs)]

/-- Perform the writes of a plan in order: one that fails leaves nothing written. -/
def fxPuts (m : Mach) (who : Who) (gid tix : Nat) (esc : Bool) : List (Nat × List Byte) → Except (MemErr × Nat) Mach
  | [] => .ok m
  | (a, bs) :: l =>
    match (if esc then fxSolo m who gid tix a bs else fxStore m who gid tix (bs.length / 8 + 1) a bs) with
    | .error e => .error e
    | .ok m => fxPuts m who gid tix esc l

/-- The writes of a plan, page by page. -/
def FxPlan.parts (p : FxPlan) : List (Nat × List Byte) := p.wrs.flatMap (fun w => splitParts w.1 w.2)

/-- The grains that the writes of a plan have on chunked pages. -/
def fxGrains (p : FxPlan) : List (Nat × Nat) :=
  (p.parts.flatMap (fun w =>
    match translate p.x.m p.x.who .store w.1 with
    | .ok (_, x) => if x.cls = 0 then grainsOf x.pa w.2.length x.grain else []
    | .error _ => [])).eraseDups

/-- Whether the chunked writes of a plan would pass the core's write set (R251). -/
def fxFull (m : Mach) (c : Nat) (p : FxPlan) : Bool :=
  let k := m.core c
  decide (Config.writeSet < k.openC.wr.length + (match k.comC with | some y => y.wr.length | none => 0) +
    ((fxGrains p).filter (fun g => !k.openC.wr.contains g)).length)

/-- An escaping effect instruction or delivery of the thread, at the position it has reached (R188, R226,
R341): no squash undoes it. -/
def fxCredit (m : Mach) (gid tix : Nat) (q : Pos) : Mach := markEsc (credit m gid tix q) gid

/-- The registers, predicates and pointers of a record header (Table 20-3). -/
def recHeader (t : Thread) (pos : Pos) (kind eff body prevTop : Nat) (ov multi : Bool) (seg : Nat) : List Byte :=
  natBytes 8 pos.hdr ++ natBytes 2 pos.idx ++ natBytes 2 kind ++ natBytes 2 eff ++ natBytes 2 body ++
    natBytes 8 (t.rdD rSP).toNat ++ natBytes 8 (t.rdD rRA).toNat ++ natBytes 8 t.hsp.toNat ++
    natBytes 8 prevTop ++ natBytes 1 (t.pr.toNat / 2 * 2 + 1) ++ natBytes 1 (ov.toNat + 2 * multi.toNat) ++
    natBytes 6 0 ++ natBytes 4 seg ++ natBytes 4 0

/-- The body of a call or resumer record: s0 to s11, each zero where it lies beyond `NREG`. -/
def savedBody (t : Thread) (nreg : Nat) : List Byte :=
  (savedPairs.map (fun n =>
    natBytes 4 (if n < nreg then (t.rd n).toNat else 0) ++
    natBytes 4 (if n + 1 < nreg then (t.rd (n + 1)).toNat else 0))).flatten

/-- The body of a full record. -/
def fullBody (t : Thread) (nreg : Nat) : List Byte :=
  ((List.range nreg).map (fun n => natBytes 4 (t.rd n).toNat)).flatten

/-- The next handler generation (R322). -/
def nextGen (g : Nat) : Nat := g % 65535 + 1

/-- The entry of an activation of frame `fr` at `f` (R328, R330): the frame becomes active with a
new token, `HSP` names it, `sp` lies below the record, `a4` and `a5` hold the token and the id. -/
def enterThread (t : Thread) (f : Nat) (fr : Frame) (eff sp : Nat) : Thread :=
  let g := nextGen t.gen
  let t := { t with gen := g, hsp := BitVec.ofNat 64 f, pos := ⟨fr.entry, 0⟩, landed := true, stat := .ready, pend := none }
  ((t.wrD rSP (BitVec.ofNat 64 sp)).wrD (ra0 + 8) (BitVec.ofNat 64 (g * 2 ^ 16 + fr.depth))).wrD
    (ra0 + 10) (BitVec.ofNat 64 eff)

/-- Taking a built-in effect (R330): a full record with the saved position below the frame's Top, the
frame active with a one-shot token, the arguments in `a0` to `a3`, and the thread at the entry; or, where no frame
answers, what the search read. -/
def deliverPlan (m : Mach) (t : Thread) (x : Raise) (who : Who) (hart : Bool) : Except FxStop (FxPlan ⊕ List (Nat × Nat)) :=
  let nreg := (m.recOf t.gid).regs
  match Fx.search x.eff 64 ⟨m, who, [], hart⟩ t.hsp.toNat with
  | .error e => .error e
  | .ok (fx, none) => .ok (.inr fx.rds)
  | .ok (fx, some (f, fr)) =>
    let size := 64 + 4 * nreg
    let g := nextGen t.gen
    let rec_ := fullBody t nreg ++ recHeader t x.save 1 x.eff (4 * nreg) 0 false false 0
    let fr' : Frame := { fr with state := 2, p := g }
    let plan : FxPlan := {
      x := fx, wrs := [(below fr.top size, rec_), (f, fr'.bytes)]
      f := fun t =>
        let t := enterThread t f fr x.eff (below fr.top size)
        let t := (((t.wrD ra0 x.a0).wrD (ra0 + 2) x.a1).wrD (ra0 + 4) x.a2).wrD (ra0 + 6) x.a3
        { t with arith := match x.dest with | some d => lput t.arith g d | none => ldel t.arith g
                 halts := match x.cmd with | some n => lput t.halts g n | none => ldel t.halts g } }
    .ok (.inl plan)

/-- The thread parks on an unhandled built-in with a record of Kind 6 (R330), and the chunk closes
with cause 10. -/
def parkEffect (m : Mach) (t : Thread) (x : Raise) : Mach :=
  let m := m.updThread t.gid t.tix (fun t => { t with
    pend := none, brokenAt := if x.eff = 6 then none else t.brokenAt })
  let m := addDue (parkThread m t.gid t.tix (.effect x)) (m.coreOf t.gid) 10
  postRec m (cidOf m t.gid) {
    kind := 6, cause := x.eff, asid := asidOf m (cidOf m t.gid),
    addr := x.a2.toNat, clause := x.word.hdr, place := placeOf m t x.word.idx }

/-- Whether another clause of a core, which the thread is not in, has performed accesses on chunked pages and
has not ended: the accesses of clauses interleave as whole clauses in the L1's order (R248, R276). -/
def l1Held (m : Mach) (c gid tix : Nat) : Bool :=
  m.running.any (fun x => x.core == c && x.l1 && !(x.gid == gid && x.tixs.contains tix))

/-- Whether a plan accesses a chunked page. -/
def fxChunked (p : FxPlan) : Bool :=
  p.x.rds.any (fun a => pageClass p.x.m p.x.who a.1 == some 0) ||
    p.wrs.any (fun w => (pageParts w.1 w.2.length).any (fun a => pageClass p.x.m p.x.who a.1 == some 0))

/-- The clause that a thread is in has performed an access on a chunked page. -/
def markL1 (m : Mach) (gid tix : Nat) : Mach :=
  { m with running := m.running.map (fun x => if x.gid == gid && x.tixs.contains tix then { x with l1 := true } else x) }

/-- The machine of a plan's reads: an escaping instruction adds nothing to the open chunk (R188). -/
def fxStart (m : Mach) (c : Nat) (p : FxPlan) (esc : Bool) : Mach :=
  if esc then p.x.m.updCore c (fun k => { k with openC := (m.core c).openC }) else p.x.m

/-- Perform what an effect instruction or delivery has planned. It waits for an empty chunk where an access is
escaping; translates every address first; waits for the end of an earlier chunk's commit (R267) or of a solo chunk that
it meets (R256) where it is escaping, and for room in the write set and the end of a clause whose chunked accesses it
may not divide where it is not; and then writes (R331). The two continuations say what a fault does to the thread, and
what a wait does: for a close of the chunk with a cause, or for a commit. -/
def fxApply (m : Mach) (gid tix : Nat) (p : FxPlan)
    (fault : MemErr → Acc → Nat → Mach) (wait : Option Nat → Mach) : Mach × Bool :=
  let c := m.coreOf gid
  let esc := fxEscapes p
  if esc && !chunkEmpty m c then (wait (some 6), false)
  else match fxProbe p.x.m p.x.who p.wrs with
  | some (e, a) => (fault e .store a, false)
  | none =>
    if esc && ((m.core c).comC.isSome || soloBlocks m p.x.who.part (some c) (fxGrains p)) then (wait none, false)
    else if !esc && fxChunked p && l1Held m c gid tix then (wait none, false)
    else if !esc && fxFull m c p then (wait (if chunkEmpty m c then none else some 3), false)
    else
      match fxPuts (fxStart m c p esc) p.x.who gid tix esc p.parts with
      | .error (e, a) => (fault e .store a, false)
      | .ok m =>
        let m := if !esc && fxChunked p then markL1 m gid tix else m
        (p.k (m.updThread gid tix p.f), esc)

/-- A fault or LINK.LOST of a delivery's accesses (R331): the retry runs the delivery again, so the
pending effect stays with the thread. -/
def deliverFault (m : Mach) (t : Thread) (x : Raise) (e : MemErr) (acc : Acc) (a : Nat) : Mach :=
  match e with
  | .fault k c => superFault m t k c acc.code 0 a x.word
  | .link c => raiseEff m t { eff := 9, a0 := BitVec.ofNat 64 x.word.hdr, a1 := BitVec.ofNat 64 x.word.idx,
                              a2 := BitVec.ofNat 64 a, a3 := BitVec.ofNat 64 c, save := x.save, word := x.word }

/-- Deliver a thread's pending built-in effect (R330), once no register write of it is outstanding. A
search of too many frames becomes HANDLER.DEPTH, itself searched for once; unhandled, the thread parks. -/
def deliver (m : Mach) (gid tix : Nat) : Mach :=
  match m.thread? gid tix with
  | none => m
  | some t =>
    match t.pend with
    | none => m
    | some x =>
      if t.stat ≠ .raised ∨ arriving m t then m
      else
        let who := whoOf m gid
        let c := m.coreOf gid
        -- what a search on a scoped or direct page ends in comes only in an empty chunk (R331)
        let late (rds : List (Nat × Nat)) (n : Mach) : Mach :=
          if fxHotReads m who rds && !chunkEmpty m c then addDue m c 6 else n
        let go (x : Raise) (onDeep : Mach) : Mach :=
          match deliverPlan m t x who false with
          | .error (.mem e acc a rds) => late rds (deliverFault m t x e acc a)
          | .error (.eff _ _ _ rds) => late rds onDeep
          | .ok (.inr rds) => late rds (parkEffect m t x)
          | .ok (.inl p) =>
            let r := fxApply m gid tix p (fun e acc a => deliverFault m t x e acc a)
              (fun w => match w with | some cause => addDue m c cause | none => m)
            if r.2 then
              match r.1.thread? gid tix with
              | some t' => fxCredit r.1 gid tix t'.pos
              | none => r.1
            else r.1
        let depth : Raise := { eff := 10, a0 := BitVec.ofNat 64 x.word.hdr, a1 := BitVec.ofNat 64 x.word.idx,
                               a2 := BitVec.ofNat 64 x.eff, a3 := 2, save := x.save, word := x.word }
        go x (if x.eff = 10 then parkEffect m t x else go depth (parkEffect m t depth))

/-! Returning from an exception: the registers a record restores (R333, R334). -/

/-- A record header's fields (Table 20-3). -/
structure RecHdr where
  pos   : Pos
  kind  : Nat
  eff   : Nat
  sp    : Nat
  ra    : Nat
  hsp   : Nat
  prev  : Nat
  preds : Nat
  ov  : Bool
  multi : Bool
  seg   : Nat
deriving DecidableEq, Repr

/-- Header of its 64 bytes. A record lies in memory that programs write: a Word above 15 is taken mod 16, and a
Position as it stands (log 91, DESIGN CHOICE: Table 20-3 gives no other values). -/
def RecHdr.ofBytes (bs : List Byte) : RecHdr :=
  { pos := ⟨fieldAt bs 0 8, fieldAt bs 8 2 % 16⟩, kind := fieldAt bs 0x0A 2, eff := fieldAt bs 0x0C 2,
    sp := fieldAt bs 0x10 8, ra := fieldAt bs 0x18 8, hsp := fieldAt bs 0x20 8, prev := fieldAt bs 0x28 8,
    preds := fieldAt bs 0x30 1, ov := fieldAt bs 0x31 1 % 2 == 1, multi := fieldAt bs 0x31 1 / 2 % 2 == 1,
    seg := fieldAt bs 0x38 4 }

/-- Put words back from a record body, w numbers given. -/
def restoreWords (t : Thread) (nreg : Nat) : List Nat → List Byte → Thread
  | n :: ns, b0 :: b1 :: b2 :: b3 :: bs =>
    restoreWords (if n < nreg then t.wr n (BitVec.ofNat 32 (bytesNat [b0, b1, b2, b3])) else t) nreg ns bs
  | _, _ => t

/-- The return of R333 and R334: the body's registers, then `sp`, `ra`, `HSP`, p1 to p7, and the
position of the record. -/
def returnThread (t : Thread) (nreg : Nat) (h : RecHdr) (body : List Byte) (full : Bool) : Thread :=
  let t := restoreWords t nreg
    (if full then List.range nreg else savedPairs.flatMap (fun n => [n, n + 1])) body
  let t := (t.wrD rSP (BitVec.ofNat 64 h.sp)).wrD rRA (BitVec.ofNat 64 h.ra)
  { t with hsp := BitVec.ofNat 64 h.hsp, pr := BitVec.ofNat 8 (h.preds / 2 * 2), pos := h.pos, landed := true, stat := .ready }

end Sys2Proof.Machine
end

