-- ==== Sys2Proof/Machine/Flags.lean ====
section
/-!
DEFINITION. Conditions (Tables 5-4 and 6-3), the sticky flags of `FSTAT`, and the trap of an
enabled flag (R118 to R120).
-/

namespace Sys2Proof.Machine

/-- The conditions of `cmp` and `set` on values of one width (Table 5-4). -/
def condHolds {n : Nat} (c : Cond) (a b : BitVec n) : Bool :=
  match c with
  | .eq => a == b
  | .ne => a != b
  | .lt => a.slt b
  | .le => a.sle b
  | .gt => b.slt a
  | .ge => b.sle a
  | .ltu => a.ult b
  | .leu => a.ule b
  | .gtu => b.ult a
  | .geu => b.ule a

/-- The conditions of `fcmp` and the flags they set (R125). -/
def fcondHolds (c : FCond) (a b : Word) : Bool × Nat :=
  let x := decodeF FP32 a.toNat
  let y := decodeF FP32 b.toNat
  let un := x.isNaN || y.isNaN
  let quiet := if x.isSig || y.isSig then fNV else 0
  let loud := if un then fNV else 0
  let k := x.cmp y
  match c with
  | .eq => (!un && k == 0, quiet)
  | .ne => (un || k != 0, quiet)
  | .lt => (!un && k == -1, loud)
  | .le => (!un && k != 1, loud)
  | .gt => (!un && k == 1, loud)
  | .ge => (!un && k != -1, loud)
  | .un => (un, quiet)
  | .ord => (!un, quiet)

/-- The class mask of R126. -/
def fclassMask (a : Word) : Word :=
  let n := a.toNat
  let neg := n / 2 ^ 31 == 1
  let ex := n / 2 ^ 23 % 256
  let fr := n % 2 ^ 23
  let i :=
    if ex = 255 then
      if fr = 0 then (if neg then 0 else 7) else if fr < 2 ^ 22 then 8 else 9
    else if ex = 0 then
      if fr = 0 then (if neg then 3 else 4) else (if neg then 2 else 5)
    else (if neg then 1 else 6)
  BitVec.ofNat 32 (2 ^ i)

/-- OR flags into `FSTAT` (R118). -/
def Thread.setFlags (t : Thread) (fl : Nat) : Thread := { t with fstat := t.fstat ||| BitVec.ofNat 32 (fl % 32) }

/-- The flags among `fl` whose trap is enabled. -/
def Thread.traps (t : Thread) (fl : Nat) : Nat := (t.fctl.toNat % 32) &&& (fl % 32)

/-- ARITH, where a flag that was set traps (R119): the destination and `FSTAT` are written already,
and the saved position is the following word. `op` is 0 for a full word (Table 6-2). -/
def Thread.arithTrap (r : Running) (t : Thread) (d : Dest) (op : Nat) (val : Word) (fl : Nat) : Thread :=
  if t.traps fl = 0 then t
  else
    { t.leave .raised (r.after 1) with
      pend := some {
        eff := 3, a0 := BitVec.ofNat 64 r.hdr, a1 := BitVec.ofNat 64 op,
        a2 := BitVec.ofNat 64 (r.idx % 16 + fl % 32 * 256 + t.traps fl * 65536),
        a3 := val.zeroExtend 64, save := r.after 1, word := r.here, dest := some d } }

/-- The value that a resume of ARITH writes (R120). -/
def Thread.putDest (t : Thread) (d : Dest) (v : DWord) : Thread :=
  match d with
  | .w n => t.wr n (loW v)
  | .pair n => t.wrD n v
  | .pred n => t.wrP n (v.getLsbD 0)
  | .k _ => t

end Sys2Proof.Machine
end

