-- ==== Sys2Proof/Machine/Operands.lean ====
section
/-!
DEFINITION. The operand forms of layout R (R95 to R97): w registers, pairs, uniform registers and
immediates as sources, the destinations with and without `.u`, the special registers (Table 5-5).
-/

namespace Sys2Proof.Machine

/-! Sources. -/

/-- A 32-bit source: `k` are the group's uniform registers. -/
def srcW (k : Regs) (t : Thread) : Src → Word
  | .w n => t.rd n
  | .k n => kget k n
  | .imm n => BitVec.ofNat 32 n

/-- A 64-bit source under `.d`: a pair, or an immediate zero-extended (R97). -/
def srcD (t : Thread) : Src → DWord
  | .w n => t.rdD n
  | .k _ => 0
  | .imm n => BitVec.ofNat 64 n

/-- The uniform registers of the group of the clause in flight. -/
def curK (m : Mach) : Regs :=
  match m.curRun with
  | none => []
  | some r => match m.group? r.gid with
    | none => []
    | some g => g.k

/-- Write a uniform register of the group of the clause in flight. -/
def putK (m : Mach) (n : Nat) (v : Word) : Mach :=
  match m.curRun with
  | none => m
  | some r => m.updGroup r.gid (fun g => { g with k := kput g.k n v })

/-- The lowest-numbered thread that performs the word (R95). -/
def leader (m : Mach) (g : Guard) : Option Thread := (performers m g).head?

/-! Destinations: `.u` computes once from the leader (R95). -/

/-- A 32-bit result. -/
def setW (m : Mach) (g : Guard) (u : Bool) (d : Src) (f : Thread → Word) : Mach :=
  if u then
    match leader m g with
    | none => m
    | some l =>
      match d with
      | .k n => putK m n (f l)
      | .w n => vecWord m g (fun t => t.wr n (f l))
      | .imm _ => m
  else
    match d with
    | .w n => vecWord m g (fun t => t.wr n (f t))
    | _ => m

/-- A 64-bit result into a pair. -/
def setD (m : Mach) (g : Guard) (u : Bool) (d : Src) (f : Thread → DWord) : Mach :=
  match d with
  | .w n =>
    if u then
      match leader m g with
      | none => m
      | some l => vecWord m g (fun t => t.wrD n (f l))
    else vecWord m g (fun t => t.wrD n (f t))
  | _ => m

/-- A predicate result. -/
def setP (m : Mach) (g : Guard) (u : Bool) (p : Nat) (f : Thread → Bool) : Mach :=
  if u then
    match leader m g with
    | none => m
    | some l => vecWord m g (fun t => t.wrP p (f l))
  else vecWord m g (fun t => t.wrP p (f t))

/-- A two-source word of the integer class, 32 or 64 bits wide (R101). -/
def alu3 (m : Mach) (x : R3) (f : Word → Word → Word) (f64 : DWord → DWord → DWord) : Mach :=
  let k := curK m
  if x.dd then setD m x.g x.u x.d (fun t => f64 (srcD t x.a) (srcD t x.b))
  else setW m x.g x.u x.d (fun t => f (srcW k t x.a) (srcW k t x.b))

/-- A one-source word of the integer class. -/
def alu2 (m : Mach) (x : R2) (f : Word → Word) : Mach :=
  let k := curK m
  setW m x.g x.u x.d (fun t => f (srcW k t x.a))

/-! Results with flags (R118, R119). -/

/-- A result with flags and its trap, for one thread. -/
def fpPut (r : Running) (t : Thread) (n : Nat) (v : Word × Nat) : Thread :=
  Thread.arithTrap r ((t.wr n v.1).setFlags v.2) (.w n) 0 v.1 v.2

/-- A 32-bit floating-point result: with `.u` and a uniform destination, flags and trap are the
leader's only. -/
def setF (m : Mach) (g : Guard) (u : Bool) (d : Src) (f : Thread → Word × Nat) : Mach :=
  match m.curRun with
  | none => m
  | some r =>
    if u then
      match leader m g with
      | none => m
      | some l =>
        match d with
        | .k n =>
          (putK m n (f l).1).updThread l.gid l.tix (fun t =>
            Thread.arithTrap r (t.setFlags (f l).2) (.k n) 0 (f l).1 (f l).2)
        | .w n => vecWord m g (fun t => fpPut r t n (f l))
        | .imm _ => m
    else
      match d with
      | .w n => vecWord m g (fun t => fpPut r t n (f t))
      | _ => m

/-- A predicate result with flags. -/
def setFP (m : Mach) (g : Guard) (u : Bool) (p : Nat) (f : Thread → Bool × Nat) : Mach :=
  match m.curRun with
  | none => m
  | some r =>
    let put (t : Thread) (v : Bool × Nat) : Thread :=
      Thread.arithTrap r ((t.wrP p v.1).setFlags v.2) (.pred p) 0 (if v.1 then 1 else 0) v.2
    if u then
      match leader m g with
      | none => m
      | some l => vecWord m g (fun t => put t (f l))
    else vecWord m g (fun t => put t (f t))

/-- A pair result with flags: a3 of the trap is the high word (Table 6-2). -/
def setFD (m : Mach) (g : Guard) (n : Nat) (f : Thread → DWord × Nat) : Mach :=
  match m.curRun with
  | none => m
  | some r => vecWord m g (fun t =>
      let v := f t
      Thread.arithTrap r ((t.wrD n v.1).setFlags v.2) (.pair n) 0 (hiW v.1) v.2)

/-- A two-source FP32 word. -/
def fp3 (m : Mach) (x : R3) (f : Nat → Nat → Nat × Nat) : Mach :=
  let k := curK m
  setF m x.g x.u x.d (fun t =>
    let r := f (srcW k t x.a).toNat (srcW k t x.b).toNat
    (BitVec.ofNat 32 r.1, r.2))

/-! The work identifier (R203, R204, R112). -/

/-- The bits of field `n`, from the widths. -/
def widOff (ws : List Nat) (n : Nat) : Nat := (ws.take n).sum

/-- The extent of a field: 0 counts as 1 (Table 10-1). -/
def extentOf (x : LaunchRec) (n : Nat) : Nat := max 1 (x.extents.getD n 1)

/-- Product of the extents of fields `lo` to `hi` − 1. -/
def extentProd (x : LaunchRec) (lo hi : Nat) : Nat :=
  (List.range (hi - lo)).foldl (fun p i => p * extentOf x (lo + i)) 1

/-- Threads of a group. -/
def LaunchRec.threads (x : LaunchRec) : Nat := extentProd x 0 x.glevel

/-- Groups of a cluster set. -/
def LaunchRec.setSize (x : LaunchRec) : Nat := extentProd x x.glevel x.clevel

/-- Groups of the kernel. -/
def LaunchRec.groupCount (x : LaunchRec) : Nat := extentProd x x.glevel 6

/-- The value of field `n` in a mixed-radix number whose least significant field is `lo`. -/
def mixedField (x : LaunchRec) (lo n i : Nat) : Nat := i / extentProd x lo n % extentOf x n

/-- The value of field `n` for a thread of a group (R203). -/
def fieldVal (x : LaunchRec) (gix tix n : Nat) : Nat :=
  if n < x.glevel then mixedField x 0 n tix else mixedField x x.glevel n gix

/-- `WID` (R203). -/
def widOf (x : LaunchRec) (gix tix : Nat) : Nat :=
  ((List.range 6).map (fun n => fieldVal x gix tix n * 2 ^ widOff x.widths n)).sum % 2 ^ 64

/-- `WID` of a thread. -/
def widT (m : Mach) (t : Thread) : Nat :=
  match m.group? t.gid with
  | none => 0
  | some g => widOf (m.recOf t.gid) g.gix t.tix

/-- Field `n` of `WID`, as `widf` reads it: its low 32 bits (R112). -/
def widField (m : Mach) (t : Thread) (n : Nat) : Word :=
  let x := m.recOf t.gid
  BitVec.ofNat 32 (widT m t / 2 ^ widOff x.widths n % 2 ^ (x.widths.getD n 0))

/-! Special registers (Table 5-5). -/

/-- `CHS` (Table 14-5). -/
def chsOf (k : Core) : Nat :=
  (if k.openC.solo then 1 else 0) + (if k.comC.isSome then 2 else 0) + 4 * k.run + 32 * k.lastSq +
    256 * k.lastClose + 65536 * min k.sq 65535

/-- A special register's value for a thread (R110). `TIME` is one count of the package: two cores that read it at one
instant read one value (log 90, DESIGN CHOICE: R20 allows them 4 ns). -/
def sregRead (m : Mach) (t : Thread) (n : Nat) : DWord :=
  let g := m.group? t.gid
  let gix := match g with | some g => g.gix | none => 0
  let c := m.coreOf t.gid
  let x := m.recOf t.gid
  let v : Nat := match n with
    | 0 => t.tix
    | 1 => gix
    | 2 => widT m t
    | 3 => t.tix % 32
    | 4 => t.tix / 32
    | 5 => c % 64
    | 6 => c % 4 + c % 64 / 4 * 4 + (if x.setSize > 1 then 64 else 0)
    | 7 => m.dieOf t.gid
    | 8 => m.pkg
    | 9 => (m.die (m.dieOf t.gid)).clk
    | 10 => m.time
    | 11 => t.fstat.toNat
    | 12 => t.fctl.toNat
    | 13 => t.hsp.toNat
    | 14 => t.prs
    | 15 => chsOf (m.core c)
    | 16 => t.rngk.toNat
    | 17 => t.rngc.toNat
    | 18 => (m.core c).copyCtr
    | 19 => (m.core c).tileCtr
    | 20 => x.regs
    | 21 => match g with | some g => g.width | none => 1
    | _ => 0
  BitVec.ofNat 64 v

/-- Write a special register (R111); `HSP` is checked by its word. -/
def sregWrite (t : Thread) (n : Nat) (v : DWord) : Thread :=
  match n with
  | 11 => { t with fstat := loW v &&& 31 }
  | 12 => { t with fctl := loW v &&& 31 }
  | 13 => { t with hsp := v }
  | 16 => { t with rngk := v }
  | 17 => { t with rngc := v }
  | _ => t

end Sys2Proof.Machine
end

