-- ==== Sys2Proof/Machine/Meet.lean ====
section
/-!
DEFINITION. What makes threads meet: the release and acquire of a fence (R177), and the barrier
objects of a kernel (12).
-/

namespace Sys2Proof.Machine

/-! Fences (R177). -/

/-- The steps of `fence.rel` at a scope that wait: earlier `stx` performed, `PRS` zero, replicated
stores at every replica, host and peer writes acknowledged. -/
def relReady (m : Mach) (t : Thread) (sc : Nat) : Bool :=
  !m.stxs.any (fun x => x.gid == t.gid && x.tix == t.tix && !x.done) &&
    (decide (sc < 1) || t.prs == 0) &&
    (decide (sc < 3) || !m.repls.any (fun x => x.gid == t.gid && x.tix == t.tix)) &&
    (decide (sc < 4) || !m.hostWrs.any (fun x => x.gid == t.gid && x.tix == t.tix))

/-- Those steps for a thread by its names, whose slot may have been freed: its pending stores are its `PRS`. -/
def relReadyOf (m : Mach) (gid tix sc : Nat) : Bool :=
  relReady m { gid := gid, tix := tix, prs := m.stxs.countP (fun x => x.gid == gid && x.tix == tix) } sc

/-- Whether an escaping word would be performed now (R188, R267). -/
def escNow (m : Mach) (c : Nat) : Bool := chunkEmpty m c && (m.core c).comC.isNone

/-- The push of `fence.rel` at a scope. -/
def relPush (m : Mach) (c sc : Nat) : Mach :=
  match sc with
  | 0 => m
  | 1 => pushAll m c false
  | _ => pushAll m c true

/-- `fence.acq` at a scope; at `.die` and wider it also discards the core's fetched clauses (R59). -/
def acqDo (m : Mach) (c sc : Nat) : Mach :=
  match sc with
  | 0 => m
  | 1 => dropClean m c false
  | _ => (dropClean m c true).updCore c (fun k => { k with fetched := [] })

/-- Scope codes of Table 3-6. -/
def scopeNum (sc : Scope) : Nat :=
  match sc with
  | .core => 0
  | .cl => 1
  | .die => 2
  | .pkg => 3
  | .sys => 4

/-! Barrier objects (R233 to R235). -/

/-- The nominal level of a selector, none for `.die` (Table 12-1). -/
def selLevel (x : LaunchRec) (sel : BarSel) : Option Nat :=
  match sel with
  | .lv l => some l
  | .cl => some x.clevel
  | .pkg => some 6
  | .grp => some x.glevel
  | .die => none

/-- The selector's code (Table 12-1). -/
def selCode (sel : BarSel) : Nat :=
  match sel with
  | .lv l => l
  | .cl => 8
  | .die => 9
  | .pkg => 10
  | .grp => 11

/-- The reach of a barrier as a scope code (R239). -/
def selReach (x : LaunchRec) (sel : BarSel) : Nat :=
  match selLevel x sel with
  | none => 2
  | some l => if l ≤ x.glevel then 0 else if l ≤ x.clevel then 1 else 3

/-- The member set that a selector names for a thread (R233): names of one set are one object. -/
def selKey (x : LaunchRec) (gix tix die : Nat) (sel : BarSel) : BarKey :=
  match selLevel x sel with
  | none => let r := x.ranges.getD die (0, 0); ⟨r.1, r.2, 0, x.threads⟩
  | some l =>
    if l < x.glevel then
      let n := extentProd x 0 l
      ⟨gix, 1, tix / n * n, n⟩
    else
      let n := extentProd x x.glevel l
      ⟨gix / n * n, n, 0, x.threads⟩

/-- Whether a thread is a member. -/
def BarKey.has (k : BarKey) (gix tix : Nat) : Bool :=
  decide (k.gLo ≤ gix) && decide (gix < k.gLo + k.gN) && decide (k.tLo ≤ tix) && decide (tix < k.tLo + k.tN)

/-- Members whose exits have not committed (R234). -/
def expectedOf (k : Kernel) (b : BarKey) : Nat :=
  b.gN * b.tN - k.exits.countP (fun e => b.has e.1 e.2)

/-- Whether a member of groups `lo` to `lo + n` − 1 has not exited. -/
def liveIn (k : Kernel) (b : BarKey) (lo n : Nat) : Bool :=
  let a := max b.gLo lo
  let z := min (b.gLo + b.gN) (lo + n)
  decide (a < z) &&
    decide (k.exits.countP (fun e => b.has e.1 e.2 && decide (a ≤ e.1) && decide (e.1 < z)) < (z - a) * b.tN)

/-- The cause with which a break of a kernel reaches a member set, if it does (R242): that of a lost die, where a member
there has not exited; sets with no member there break because their groups end faulted. -/
def breakCause (k : Kernel) (b : BarKey) (e : Nat × Nat × Nat) : Option Nat :=
  let meets := decide (max b.gLo e.2.1 < min (b.gLo + b.gN) (e.2.1 + e.2.2))
  if e.1 = 1 then (if !meets then some 2 else if liveIn k b e.2.1 e.2.2 then some 1 else none)
  else if meets then some e.1 else none

/-- The cause that breaks a member set of a kernel, if any (R242): that of the first break. -/
def brokenBy (k : Kernel) (b : BarKey) : Option Nat := k.breaks.findSome? (breakCause k b)

/-- The barrier object of a member set and id, made when it is first named. -/
def getBarrier (m : Mach) (kid : Nat) (key : BarKey) (id : Nat) : Mach × Barrier :=
  match m.barriers.find? (fun b => b.kid == kid && b.key == key && b.id == id) with
  | some b => (m, b)
  | none =>
    let b : Barrier := { bid := m.nextId, kid := kid, key := key, id := id,
                         broken := (m.kernel? kid).bind (fun k => brokenBy k key) }
    ({ m with barriers := b :: m.barriers, nextId := m.nextId + 1 }, b)

/-- What a waiter of a released phase becomes: ready after its wait, or at its word again for a second
arrival. -/
def Thread.freed (t : Thread) : Thread := { t with stat := .ready, landed := false }

/-- The reach of a waiter's barrier. -/
def waitReach (m : Mach) (t : Thread) (sel : Nat) : Nat :=
  match BarSel.ofCode sel with
  | some s => selReach (m.recOf t.gid) s
  | none => 0

/-- BAR.BROKEN for a waiter or an arriver (Table 12-4). -/
def barBroken (at_ save : Pos) (sel id cause : Nat) : Raise :=
  { eff := 6, a0 := BitVec.ofNat 64 at_.hdr, a1 := BitVec.ofNat 64 at_.idx,
    a2 := BitVec.ofNat 64 (sel + 16 * id), a3 := BitVec.ofNat 64 cause, save := save, word := at_ }

/-- Release one resident waiter of a barrier object that has released or broken (R235, R238, R243). The
release stands in every checkpoint, as the wait does. -/
def freeWaiter (m : Mach) (b : Barrier) (t : Thread) : Mach :=
  match t.stat with
  | .waiting (.barrier bid ph sel id at_ past) =>
    if bid ≠ b.bid then m
    else if !past then
      if b.broken.isSome ∨ b.phase ≠ ph then updBoth m t.gid t.tix Thread.freed else m
    else if b.phase ≠ ph then
      acqDo (updBoth m t.gid t.tix Thread.freed) (m.coreOf t.gid) (waitReach m t sel)
    else match b.broken with
      | none => m
      | some c => updBoth m t.gid t.tix (fun t =>
          { t.leave .raised t.pos with pend := some (barBroken at_ t.pos sel id c), brokenAt := if c = 2 then t.brokenAt else some m.time })
  | _ => m

/-- Release every resident waiter that may go. -/
def freeWaiters (m : Mach) (b : Barrier) : Mach :=
  (m.threads.filter (fun t => match m.group? t.gid with
    | some g => g.stat == .live || g.stat == .draining
    | none => false)).foldl (fun m t => freeWaiter m b t) m

/-- Check a barrier object for its release (R235). -/
def checkBarrier (m : Mach) (bid : Nat) : Mach :=
  match m.barrier? bid with
  | none => m
  | some b =>
    match m.kernel? b.kid with
    | none => m
    | some k =>
      if b.broken.isSome ∨ b.arrived.length = 0 ∨ b.arrived.length < expectedOf k b.key then m
      else
        let b' := { b with phase := b.phase + 1, arrived := [] }
        freeWaiters (m.updBarrier bid (fun _ => b')) b'

/-- Committed exits of threads: they leave the expected count, their arrivals are withdrawn, and each
barrier object they belong to is checked (R235). -/
def exitsCommit (m : Mach) (kid : Nat) (l : List (Nat × Nat)) : Mach :=
  let m := m.updKernel kid (fun k => { k with exits := l ++ k.exits })
  let bs := m.barriers.filter (fun b => b.kid == kid && l.any (fun e => b.key.has e.1 e.2))
  bs.foldl (fun m b =>
    checkBarrier (m.updBarrier b.bid (fun b => { b with arrived := b.arrived.filter (fun a => !l.contains a) })) b.bid) m

/-- A break of a kernel's barriers (R242): those that count an affected member, now and later. -/
def breakBarriers (m : Mach) (kid cause lo n : Nat) : Mach :=
  let m := m.updKernel kid (fun k => { k with breaks := k.breaks ++ [(cause, lo, n)] })
  match m.kernel? kid with
  | none => m
  | some k =>
    (m.barriers.filter (fun b => b.kid == kid && b.broken.isNone)).foldl (fun m b =>
      match brokenBy k b.key with
      | none => m
      | some c =>
        let b' := { b with broken := some c }
        freeWaiters (m.updBarrier b.bid (fun _ => b')) b') m

end Sys2Proof.Machine
end

