-- ==== Sys2Proof/Machine/Barrier.lean ====
section
/-!
DEFINITION. The barrier instructions (12).
-/

namespace Sys2Proof.Machine

/-- The barrier object that a word names for a thread (R233). -/
def barOf (m : Mach) (t : Thread) (sel : BarSel) (id : Nat) : Mach × Barrier :=
  match m.group? t.gid with
  | none => getBarrier m 0 ⟨0, 0, 0, 0⟩ id
  | some g => getBarrier m g.kid (selKey (m.recOf t.gid) g.gix t.tix g.die sel) id

/-- BAR.BROKEN at the current word (R243, Table 12-4). -/
def barRaise (m : Mach) (r : Running) (t : Thread) (sel : BarSel) (id cause : Nat) : Mach :=
  (raiseEff m t (barBroken r.here (r.after 1) (selCode sel) id cause)).updThread t.gid t.tix (fun t =>
    { t with brokenAt := if cause = 2 then t.brokenAt else some m.time })

/-- A thread waits on a barrier object: `past` waits past phase `p` at the next clause; else it waits
for the release that lets its second arrival count (R237, R238). -/
def barWait (m : Mach) (r : Running) (t : Thread) (b : Barrier) (x : Bar) (p : Word) (past : Bool) : Mach :=
  m.updThread t.gid t.tix (fun t =>
    t.leave (.waiting (.barrier b.bid p (selCode x.sel) x.id r.here past))
      (if past then ⟨r.nextHdr, 0⟩ else r.here))

/-- The group index of a thread. -/
def gixOf (m : Mach) (gid : Nat) : Nat :=
  match m.group? gid with
  | none => 0
  | some g => g.gix

/-- The phase of a barrier object. -/
def phaseOf (m : Mach) (bid : Nat) : Word :=
  match m.barrier? bid with
  | none => 0
  | some b => b.phase

/-- Whether an arrival of a thread waits for the release of its fence (R237). -/
def barWaits (x : Bar) (m : Mach) (r : Running) (t : Thread) : Bool :=
  let b := (barOf m t x.sel x.id).2
  escNow m r.core && b.broken.isNone && !b.arrived.contains (gixOf m t.gid, t.tix) &&
    !relReady m t (selReach (m.recOf t.gid) x.sel)

/-- Arrive (R237), once no thread of the word waits for its fence: the push of the release, then `k` with the phase
arrived in. -/
def arrive (m : Mach) (r : Running) (t : Thread) (x : Bar) (k : Mach → Word → Mach) : Mach :=
  let (m, b) := barOf m t x.sel x.id
  let me := (gixOf m t.gid, t.tix)
  let sc := selReach (m.recOf t.gid) x.sel
  match b.broken with
  | some c => barRaise m r t x.sel x.id c
  | none =>
    if b.arrived.contains me then barWait m r t b x b.phase false
    else
      let m := markEsc (relPush m r.core sc) t.gid
      let m := m.updBarrier b.bid (fun b => { b with arrived := me :: b.arrived })
      k (checkBarrier m b.bid) b.phase

/-- Wait past a phase (R238). -/
def waitPast (m : Mach) (r : Running) (t : Thread) (x : Bar) (p : Word) : Mach :=
  let (m, b) := barOf m t x.sel x.id
  match b.broken with
  | some c => barRaise m r t x.sel x.id c
  | none =>
    if b.phase = p then barWait m r t b x p true
    else acqDo m r.core (selReach (m.recOf t.gid) x.sel)

/-- `bar` (R238): arrive, then wait. A phase that this arrival released is passed even if it broke. -/
def execBar (x : Bar) (s : State) : Host.Outcome State Fault Refusal :=
  .next (s.onMach (fun m => relWord m x.g (barWaits x)
    (escWord m x.g 7 1 (fun m r t => arrive m r t x (fun m p => waitPast m r t x p)))))

/-- `barv` (R237): the fence stalls the word whole, and the arrivals of a pack in one word are counted together. -/
def execBarv (x : Bar) (s : State) : Host.Outcome State Fault Refusal :=
  .next (s.onMach (fun m => relWord m x.g (barWaits x) (escWord m x.g 6 1 (fun m r t =>
    arrive m r t x (fun m p => m.updThread t.gid t.tix (fun t => t.wr x.r p))))))

/-- `barw` (R238). -/
def execBarw (x : Bar) (s : State) : Host.Outcome State Fault Refusal :=
  .next (s.onMach (fun m => escWord m x.g 7 1 (fun m r t => waitPast m r t x (t.rd x.r))))

/-- What `barst` writes (R240). -/
def barState (b : Barrier) : DWord :=
  BitVec.ofNat 64 (b.phase.toNat + min b.arrived.length (2 ^ 31 - 1) * 2 ^ 32 +
    (if b.broken.isSome then 2 ^ 63 else 0))

/-- `barst` (R240). -/
def execBarst (x : Bar) (s : State) : Host.Outcome State Fault Refusal :=
  .next (s.onMach (fun m => seqWord m x.g (fun m _ t =>
    let (m, b) := barOf m t x.sel x.id
    m.updThread t.gid t.tix (fun t => t.wrD x.r (barState b)))))

/-- BROKEN_STOP_TIMEOUT (R243): 1 ms after BAR.BROKEN nothing holds up the thread's stop. -/
def execBrokenStopTimeout (gid tix : Nat) (s : State) : Host.Outcome State Fault Refusal :=
  .next (s.onMach (fun m => m.updThread gid tix (fun t =>
    match t.brokenAt with
    | some x => if x + 1000000 ≤ m.time then { t with brokenAt := none } else t
    | none => t)))

end Sys2Proof.Machine
end

