-- ==== Sys2Proof/Machine/Names.lean ====
section
/-!
DEFINITION. The registers that a word names, which its group's `NREG` bounds (R61) and which the
interlock waits for (R52), and the checks of a word that depend on its clause or its kernel (R68).
-/

namespace Sys2Proof

open Sys2Proof.Machine

/-- Registers of a field: a pair's two under `.d`. -/
def Src.regs (s : Src) (dd : Bool) : List Nat :=
  match s with
  | .w n => if dd then [n, n + 1] else [n]
  | _ => []

/-- Registers of a two-source word. -/
def R3.regs (x : R3) : List Nat := x.d.regs x.dd ++ x.a.regs x.dd ++ x.b.regs x.dd

/-- Registers of a comparison. -/
def Cmp.regs (x : Cmp) : List Nat := x.a.regs x.dd ++ x.b.regs x.dd

/-- Registers of a one-source word. -/
def R2.regs (x : R2) : List Nat := x.d.regs x.dd ++ x.a.regs x.dd

/-- Registers of a two-source word with rounding. -/
def R3r.regs (x : R3r) : List Nat := x.d.regs false ++ x.a.regs false ++ x.b.regs false

/-- Registers of a three-source word. -/
def R4.regs (x : R4) : List Nat := x.c :: (x.d.regs false ++ x.a.regs false ++ x.b.regs false)

/-- Registers of a bit-field word. -/
def Bf.regs (x : Bf) : List Nat :=
  x.d.regs false ++ x.a.regs false ++ x.b.regs false ++ x.c.regs false

/-- Registers of a packed word. -/
def H3.regs (x : H3) : List Nat := [x.d, x.a, x.b]

/-- Registers of a plain unary word. -/
def W2.regs (x : W2) : List Nat := [x.d, x.a]

/-- Registers of a dot product. -/
def Dot.regs (x : Dot) : List Nat := [x.d, x.a, x.b, x.c, x.c + 1]

/-- The element format of a slot word, when the slot breaks no condition of R86. -/
def slotElem (w : Nat) : Option Elem :=
  if w / 2 ^ 24 = 0 ∧ w / 2 ^ 16 % 256 ≤ 13 ∧ w / 2 ^ 8 % 256 ≤ 2 then Elem.ofCode (w % 256) else none

/-- The element format of a slot of a launch. -/
def slotOf (slots : List Word) (n : Nat) : Option Elem := slotElem ((slots.getD n 0).toNat)

/-- Registers of `ncvt` or `nunp`: the packed side is a pair for FA48. -/
def Cv.regs (x : Cv) (slots : List Word) (narrow : Bool) : List Nat :=
  let p := if slotOf slots x.slot = some .fa48 then [if narrow then x.d + 1 else x.a + 1] else []
  [x.d, x.a, x.b] ++ p

/-- Registers of a wide format. -/
def fmtRegs (f : WFmt) (n : Nat) : List Nat :=
  match f with
  | .fa48 => [n, n + 1]
  | _ => [n]

/-- Registers of an access size. -/
def sizedRegs (sz : Size) (n : Nat) : List Nat :=
  match sz with
  | .byte | .half | .word => [n]
  | .dword => [n, n + 1]
  | .quad => [n, n + 1, n + 2, n + 3]

/-- Registers of `ld`. -/
def Ldg.regs (x : Ldg) : List Nat := sizedRegs x.sz x.d ++ [x.a, x.a + 1]

/-- Registers of `st`. -/
def Stg.regs (x : Stg) : List Nat := sizedRegs x.sz x.b ++ [x.a, x.a + 1]

/-- Registers of `lds` and `ldx`. -/
def Lds.regs (x : Lds) : List Nat := x.a :: sizedRegs x.sz x.d

/-- Registers of `sts` and `stx`. -/
def Sts.regs (x : Sts) : List Nat := x.a :: sizedRegs x.sz x.b

/-- Data registers of an atomic (R171). -/
def AtomOp.dataRegs (op : AtomOp) (sz : Size) (b : Nat) : List Nat :=
  match op, sz with
  | .cas, .dword => [b, b + 1, b + 2, b + 3]
  | .cas, _ => [b, b + 1]
  | _, sz => sizedRegs sz b

/-- Registers of `atom` (`glob`) and `atoms`. -/
def Atm.regs (x : Atm) (glob : Bool) : List Nat :=
  sizedRegs x.sz x.d ++ x.op.dataRegs x.sz x.b ++ (if glob then [x.a, x.a + 1] else [x.a])

/-- Registers of `red`. -/
def Rdg.regs (x : Rdg) : List Nat := x.op.dataRegs x.sz x.b ++ [x.a, x.a + 1]

/-- Registers of a tile load or store. -/
def Tls.regs (x : Tls) : List Nat := [x.d, x.d + 1, x.a, x.b]

/-- Registers of a paired word. -/
def Paired.regs (x : Paired) : List Nat := [x.d, x.a, x.b, x.snd.d, x.snd.a, x.snd.b]

/-- The registers that a word names (R61): `slots` are the launch's format slots. -/
def Instr.regs (slots : List Word) : Instr → List Nat
  | .nop _ => []
  | .add x => x.regs
  | .sub x => x.regs
  | .mul x => x.regs
  | .mulh x => x.regs
  | .mulhu x => x.regs
  | .mad x => x.regs
  | .div x => x.regs
  | .divu x => x.regs
  | .rem x => x.regs
  | .remu x => x.regs
  | .and x => x.regs
  | .or x => x.regs
  | .xor x => x.regs
  | .andn x => x.regs
  | .shl x => x.regs
  | .shr x => x.regs
  | .sra x => x.regs
  | .rol x => x.regs
  | .shladd _ x => x.regs
  | .min x => x.regs
  | .max x => x.regs
  | .minu x => x.regs
  | .maxu x => x.regs
  | .abs x => x.regs
  | .clz x => x.regs
  | .popc x => x.regs
  | .brev x => x.regs
  | .bfx x => x.regs
  | .bfxu x => x.regs
  | .bfi x => x.regs
  | .sel _ _ x => x.regs
  | .cmp _ x => x.regs
  | .set _ x => x.regs
  | .mov x => x.regs
  | .movi _ kind d _ => (match kind with | 0 => [d] | 1 => [d, d + 1] | _ => [])
  | .movx _ d _ => [d, d + 1]
  | .pand _ => []
  | .por _ => []
  | .pxor _ => []
  | .smov _ _ d sreg => (if sregWide sreg then d.regs true else d.regs false)
  | .swr _ sreg a => (if sregWide sreg then [a, a + 1] else [a])
  | .rand _ d => [d]
  | .widf _ _ _ d => (d.regs false)
  | .addPaired x => x.regs
  | .subPaired x => x.regs
  | .andPaired x => x.regs
  | .orPaired x => x.regs
  | .xorPaired x => x.regs
  | .shlPaired x => x.regs
  | .shrPaired x => x.regs
  | .movPaired x => x.regs
  | .minPaired x => x.regs
  | .maxPaired x => x.regs
  | .faddPaired x => x.regs
  | .fmulPaired x => x.regs
  | .fminPaired x => x.regs
  | .fmaxPaired x => x.regs
  | .hadd2Paired x => x.regs
  | .hmul2Paired x => x.regs
  | .shfl _ _ d a b c => ([d, a, c] ++ b.regs false)
  | .vote _ mode _ d _ c => (c :: (if mode = .mask then [d] else []))
  | .redux _ _ d a c => [d, a, c]
  | .matchL _ _ d a c => [d, a, c]
  | .elect _ _ c => [c]
  | .lsync _ d c => [d, c]
  | .bra _ _ => []
  | .jmp _ a => [a, a + 1]
  | .call _ _ => [2, 3]
  | .callr _ d a => [d, d + 1, a, a + 1]
  | .ret _ a => [a, a + 1]
  | .rjarm _ _ a => [a]
  | .rjwait _ _ => []
  | .exit _ => []
  | .brk _ _ => []
  | .yield _ => []
  | .fadd x => x.regs
  | .fsub x => x.regs
  | .fmul x => x.regs
  | .ffma x => x.regs
  | .fmin x => x.regs
  | .fmax x => x.regs
  | .fcmp _ x => x.regs
  | .fclass x => x.regs
  | .frnd _ x => x.regs
  | .fcvt _ _ dst src d a => (fmtRegs dst d ++ fmtRegs src a)
  | .icvt _ _ dst d a => (a :: fmtRegs dst d)
  | .fcvti _ _ _ src d a => (d :: fmtRegs src a)
  | .hadd2 x => x.regs
  | .hmul2 x => x.regs
  | .hfma2 c x => (c :: x.regs)
  | .hmin2 x => x.regs
  | .hmax2 x => x.regs
  | .rcp x => x.regs
  | .rsq x => x.regs
  | .sqrt x => x.regs
  | .exp2 x => x.regs
  | .log2 x => x.regs
  | .fdiv x => x.regs
  | .feval _ x => x.regs
  | .ftld _ _ a _ => [a]
  | .dot4 x => x.regs
  | .dot8 x => x.regs
  | .ncvt x => x.regs slots true
  | .nunp x => x.regs slots false
  | .ld x => x.regs
  | .st x => x.regs
  | .lds x => x.regs
  | .sts x => x.regs
  | .ldx x => x.regs
  | .stx x => x.regs
  | .atom x => x.regs true
  | .red x => x.regs
  | .atoms x => x.regs false
  | .fence _ _ _ => []
  | .acqr _ a => [a]
  | .waita _ global d a b => ([d, b, a] ++ (if global then [a + 1] else []))
  | .cpy _ d a _ => [d, d + 1, a]
  | .tlwait _ _ a => [a, a + 1]
  | .tlread _ _ d => [d, d + 1]
  | .pref _ _ a _ => [a, a + 1]
  | .chend _ => []
  | .chstat _ _ d => [d, d + 1]
  | .bar _ => []
  | .barv x => [x.r]
  | .barw x => [x.r]
  | .barst x => [x.r, x.r + 1]
  | .tzero _ _ _ d => [d, d + 1]
  | .tld x => x.regs
  | .tst x => x.regs
  | .tmma _ d a _ => [d, d + 1, a]
  | .tdadd _ _ _ d a _ => [d, d + 1, a, a + 1]
  | .twait _ _ d a => [d, a]
  | .tcode _ d a _ => [d, d + 1, a]
  | .tlu x => [x.d, x.d + 1, x.a, x.b, x.b + 1]
  | .tchol x => [x.d, x.d + 1, x.a, x.b, x.b + 1]
  | .tqr x => [x.d, x.d + 1, x.a, x.b, x.b + 1, x.c]
  | .ttrsm _ _ _ x => [x.d, x.d + 1, x.a, x.b, x.b + 1, x.c]
  | .pvap _ _ _ _ d _ => [d, d + 1]
  | .tstat _ _ _ d => [d, d + 1]
  | .handle _ _ d _ _ => [d, d + 1, 4, 5]
  | .endh _ => []
  | .perform _ _ _ => []
  | .resume _ a => [a]
  | .drop _ a => [a]
  | .hret _ => []
  | .hstat _ fl d a => (d :: (if fl = .tok then [a] else []))
  | .svc _ _ => []
  | .launch _ d a b => [d, d + 1, a, a + 1, b]
  | .sleep _ _ a => [a, a + 1]
  | _ => []

/-- Words that wait until no register write of their thread is outstanding (R212, R328). -/
def Instr.waitsAll : Instr → Bool
  | .perform .. | .svc .. => true
  | _ => false

/-- Words that restore registers from a record: they wait for what is on its way (R333, R334, log 28). -/
def Instr.restores : Instr → Bool
  | .resume .. | .endh .. | .hret .. => true
  | _ => false

/-- Groups of Table 3-2. -/
inductive WordGroup where
  | integer | cross | control | float | memory | chunk | tile | effects | system | paired
deriving DecidableEq, Repr

/-- The group of a word by its opcode (Table 3-9). -/
def wordGroup (w : Nat) : WordGroup :=
  if w / 2 ^ 63 % 2 = 1 then .paired
  else
    let op := w / 2 ^ 53 % 1024
    if op < 0x040 then .integer
    else if op < 0x080 then .cross
    else if op < 0x100 then .control
    else if op < 0x1C0 then .float
    else if op < 0x240 then .memory
    else if op < 0x280 then .chunk
    else if op < 0x300 then .tile
    else if op < 0x340 then .effects
    else .system

/-- What a clause class admits (Table 3-2, R53). -/
def classAdmits (cls : Nat) (g : WordGroup) : Bool :=
  match g with
  | .integer => true
  | .cross | .float | .paired => cls == 0
  | .memory => cls == 1
  | .tile => cls == 2
  | .control | .chunk | .effects | .system => cls == 3

/-- Operations that end a clause (R55). -/
def Instr.ends : Instr → Bool
  | .bra .. | .jmp .. | .call .. | .callr .. | .ret .. | .rjarm .. | .rjwait .. | .exit .. | .brk ..
  | .yield .. | .perform .. | .resume .. | .endh .. | .hret .. | .svc .. | .sleep .. | .bar ..
  | .barw .. | .waita .. | .tlwait .. | .twait .. => true
  | _ => false

/-- The flag select of a word (R52). -/
def Instr.sel? : Instr → Nat
  | .ld x => x.sel
  | .ldx x => x.sel
  | .atom x => x.sel
  | .atoms x => x.sel
  | .ftld _ _ _ n => n
  | .cpy _ _ _ n => n
  | .tld x => x.sel
  | .tst x => x.sel
  | .tmma _ _ _ n => n
  | .tdadd _ _ _ _ _ n => n
  | .tcode _ _ _ n => n
  | .tlu x => x.sel
  | .tchol x => x.sel
  | .tqr x => x.sel
  | .ttrsm _ _ _ x => x.sel
  | .pvap _ _ _ _ _ n => n
  | _ => 0

/-- Formats widened from or narrowed into (Table 4-8). -/
def Machine.Elem.cvt (narrow : Bool) : Elem → Bool
  | .q4t => !narrow
  | _ => true

/-- The largest element position of `ncvt` and `nunp` (R133). -/
def Machine.Elem.maxPos : Elem → Nat
  | .fp32 | .fa48 => 0
  | .fp16 | .bf16 => 1
  | .q8f | .q8w | .q8i => 3
  | .q4l | .q4i | .q4t => 7

/-- Formats of `dot4` and `dot8` (Table 4-8). -/
def Machine.Elem.dot (eight : Bool) : Elem → Bool
  | .q8f | .q8w | .q8i => !eight
  | .q4l | .q4i | .q4t => eight
  | _ => false

/-- The slots a word names are legal for their use (R86), and so are its registers that depend on
them. -/
def Instr.slotsOk (slots : List Word) : Instr → Bool
  | .ncvt x => match slotOf slots x.slot with
    | some e => e.cvt true && decide (x.pos ≤ e.maxPos) && (e != .fa48 || x.d % 2 == 0)
    | none => false
  | .nunp x => match slotOf slots x.slot with
    | some e => e.cvt false && decide (x.pos ≤ e.maxPos) && (e != .fa48 || x.a % 2 == 0)
    | none => false
  | .dot4 x => match slotOf slots x.sa, slotOf slots x.sb with
    | some a, some b => a.dot false && b.dot false
    | _, _ => false
  | .dot8 x => match slotOf slots x.sa, slotOf slots x.sb with
    | some a, some b => a.dot true && b.dot true
    | _, _ => false
  | .tld x => match slotOf slots x.slot with
    | some e => e.cvt false
    | none => false
  | .tst x => match slotOf slots x.slot with
    | some e => e.cvt true
    | none => false
  | _ => true

end Sys2Proof
end

