-- ==== Sys2Proof/Machine/Tide.lean ====
section
/-!
DEFINITION. Chunks as a whole (14): checkpoints, closing, and publication at a tidemark.
-/

namespace Sys2Proof.Machine

/-! Checkpoints (R250, R99, R141, R149). -/

/-- A group that holds its core: one that ended faulted until its resources are freed (R232). -/
def Group.onCore (g : Group) : Bool :=
  g.stat == .live || g.stat == .draining || g.stat == .saving || (g.stat == .faulted && !g.keeps)

/-- Groups resident on a core. -/
def residents (m : Mach) (c : Nat) : List Group := m.groups.filter (fun g => g.core == c && g.onCore)

/-- The threads of the groups on a core. -/
def threadsOn (m : Mach) (c : Nat) : List Thread :=
  m.threads.filter (fun t => (residents m c).any (fun g => g.gid == t.gid))

/-- The state of a core's threads and groups, as a checkpoint keeps it. -/
def checkpoint (m : Mach) (c : Nat) : Ckpt :=
  { threads := threadsOn m c, groups := (residents m c).map (fun g => (g.gid, g.k, g.rj)) }

/-- No clause of a core is running: a clause boundary (R250). -/
def atBoundary (m : Mach) (c : Nat) : Bool := !m.running.any (fun r => r.core == c)

/-! Exits (R147). -/

/-- Free the slots of threads of a core whose exits stand: the thread is gone, and the kernel counts its
exit. -/
def freeExited (m : Mach) (c : Nat) (ts : List Thread) : Mach :=
  (residents m c).foldl (fun m g =>
    let out := ts.filter (fun t => t.gid == g.gid && t.stat == .exited)
    if out.isEmpty then m
    else
      let m := { m with threads := m.threads.filter (fun t => !(t.gid == g.gid && out.any (fun o => o.tix == t.tix))) }
      let m : Mach := match out.find? (fun o => o.tix == 0) with
        | some o => m.updGroup g.gid (fun g => { g with ret0 := o.rdD ra0, ret1 := o.rdD (ra0 + 2) })
        | none => m
      exitsCommit m g.kid (out.map (fun o => (g.gix, o.tix)))) m

/-- Forget freed threads in the checkpoints. -/
def trimCk (m : Mach) (c : Nat) : Mach :=
  let keep (k : Ckpt) : Ckpt :=
    { k with threads := k.threads.filter (fun t => m.threads.any (fun u => u.gid == t.gid && u.tix == t.tix)) }
  m.updCore c (fun k => { k with ck := keep k.ck })

/-! Closing (R250, R251, R256). -/

/-- The lowest of the causes that hold (R251). -/
def minCause : List Nat → Nat
  | [] => 0
  | [a] => a
  | a :: l => min a (minCause l)

/-- A thread of a core has exited in its open chunk (R147). -/
def exitWaits (m : Mach) (c : Nat) : Bool := (threadsOn m c).any (fun t => t.stat == .exited)

/-- The timer of cause 5 has run out, of an empty chunk only where a thread has exited in it (R257). -/
def timerOut (m : Mach) (c : Nat) : Bool :=
  decide ((m.core c).openC.opened + Config.chunkCycles ≤ clkOf m c) && (!chunkEmpty m c || exitWaits m c)

/-- Whether a chunk's read signature has a population of at least 1,536 bits; an empty one has none (Table 14-3). -/
def Chunk.readFull (x : Chunk) : Bool := !x.rd.isEmpty && Config.sigFull x.rd

/-- The causes of a close that hold at a clause boundary (R251): those that are due, and the two that are checked only
there. -/
def causesNow (m : Mach) (c : Nat) : List Nat :=
  (m.core c).due ++ (if (m.core c).openC.readFull then [2] else []) ++ (if timerOut m c then [5] else [])

/-- Close the open chunk of a core. An empty one ends there, once no earlier chunk is committing; one that
is not empty begins to commit. A core that holds the solo grant opens its solo chunk next. -/
def closeChunk (m : Mach) (c : Nat) : Mach :=
  let k := m.core c
  if k.comC.isSome || !atBoundary m c then m
  else
    let fresh : Chunk := { serial := k.openC.serial + 1, opened := clkOf m c }
    if k.openC.empty then
      let m := freeExited m c (threadsOn m c)
      m.updCore c (fun k => { k with
        openC := { fresh with solo := k.openC.solo || k.soloHas }
        soloNext := false, ck := checkpoint m c, due := [] })
    else
      m.updCore c (fun k => { k with
        comC := some k.openC, comCk := k.ck, openC := fresh, ck := checkpoint m c
        lastClose := minCause (causesNow m c), due := [], soloNext := k.soloHas && !k.openC.solo })

/-! Commits (R252, R253). -/

/-- The partition of a core. -/
def partOfCore (m : Mach) (c : Nat) : Option Part := m.partOf (c / 64)

/-- Publish the written bytes of a chunk. -/
def publishCells (m : Mach) : List (Nat × Byte) → Mach
  | [] => m
  | (pa, b) :: l => publishCells (publishBytes m pa [b]) l

end Sys2Proof.Machine
end

