-- ==== Sys2Proof/Machine/Memory.lean ====
section
/-!
DEFINITION. The memory class (08): loads, stores, atomics, reductions, fences, address waits; the
arrivals, acknowledgements and evictions that complete them.
-/

namespace Sys2Proof.Machine

/-! Addresses and data. -/

/-- A global effective address (R159). -/
def eaG (t : Thread) (a : Nat) (off : Int) : Nat := addr64 (((t.rdD a).toNat : Int) + off)

/-- A scratchpad effective address (R159). -/
def eaS (t : Thread) (a : Nat) (off : Int) : Nat := addr32 (((t.rd a).toNat : Int) + off)

/-- Bytes of an access size. -/
def sizeN (sz : Size) : Nat :=
  match sz with
  | .byte => 1
  | .half => 2
  | .word => 4
  | .dword => 8
  | .quad => 16

/-- Four bytes as a word. -/
def wordOf (bs : List Byte) : Word := BitVec.ofNat 32 (bytesNat bs)

/-- The registers that loaded bytes go to: a byte or half is extended to 32 bits (R164, R166). -/
def loadRegs (d : Nat) (sz : Size) (sx : Bool) (bs : List Byte) : Regs :=
  match sz with
  | .byte =>
    [(d, if sx then (BitVec.ofNat 8 (bytesNat bs)).signExtend 32 else wordOf bs)]
  | .half =>
    [(d, if sx then (BitVec.ofNat 16 (bytesNat bs)).signExtend 32 else wordOf bs)]
  | .word => [(d, wordOf bs)]
  | .dword => [(d, wordOf (bs.take 4)), (d + 1, wordOf (bs.drop 4))]
  | .quad => [(d, wordOf (bs.take 4)), (d + 1, wordOf ((bs.drop 4).take 4)),
      (d + 2, wordOf ((bs.drop 8).take 4)), (d + 3, wordOf (bs.drop 12))]

/-- The bytes that a store takes from register `b`. -/
def storeBytes (t : Thread) (b : Nat) (sz : Size) : List Byte :=
  match sz with
  | .byte => natBytes 1 (t.rd b).toNat
  | .half => natBytes 2 (t.rd b).toNat
  | .word => natBytes 4 (t.rd b).toNat
  | .dword => natBytes 8 (t.rdD b).toNat
  | .quad => natBytes 8 (t.rdD b).toNat ++ natBytes 8 (t.rdD (b + 2)).toNat

/-- Write a list of registers. -/
def putRegs (t : Thread) (l : Regs) : Thread := l.foldl (fun t e => t.wr e.1 e.2) t

/-- A long-latency operation whose value waits for LOAD_DATA_ARRIVE (R51, R52). -/
def addLoad (m : Mach) (gid tix : Nat) (regs : Regs) (flag : Option Nat) : Mach :=
  let n := m.nextId
  let m1 : Mach := { m with nextId := n + 1 }
  m1.updThread gid tix (fun t => { t with loads := t.loads ++ [⟨n, regs, flag⟩] })

/-- An access on a chunked page waits for the end of another clause with such accesses (R276). -/
def l1Do (m : Mach) (r : Running) (t : Thread) (go : Mach) : Mach :=
  if l1Held m r.core t.gid t.tix then stallAt m r.rid t.tix
  else go.updRun r.rid (fun r => { r with l1 := true })

/-- An access that is escaping on pages of some classes (Table 8-12): it raises nothing while the chunk is
not empty (R188). An address that no page gives a class is escaping for no access: what it raises it raises at once
(log 96, DESIGN CHOICE: Table 8-12 has no row for it). -/
def byClass (m : Mach) (r : Running) (t : Thread) (esc : Nat → Bool) (ea : Nat) (go : Mach) : Mach :=
  match pageClass m (whoOf m t.gid) ea with
  | some c => if esc c then escDo m r t 6 1 go else if c = 0 then l1Do m r t go else go
  | none => go

/-- `.acq` and `.rel` act on scoped and replicated pages, and on memory outside the package (R167, R176). -/
def ordActs (m : Mach) (t : Thread) (ea : Nat) : Bool :=
  match pageClass m (whoOf m t.gid) ea with
  | some c => c == 1 || c == 2
  | none => false

/-- `.rel` before an access: the push of the fence (R167, R177). -/
def relThen (m : Mach) (r : Running) (t : Thread) (rel : Bool) (sc : Scope) (ea : Nat) (go : Mach → Mach) : Mach :=
  go (if rel && ordActs m t ea then relPush m r.core (scopeNum sc) else m)

/-- Whether a thread that performs an access with `.rel` waits for the release of its fence. -/
def relWaits (rel : Bool) (sc : Scope) (n : Nat) (ea : Thread → Nat) (m : Mach) (r : Running) (t : Thread) : Bool :=
  rel && escNow m r.core && ea t % n == 0 && ordActs m t (ea t) && !relReady m t (scopeNum sc)

/-! Atomic operations (R171, R172). -/

/-- The number in register `b` of an atomic's size. -/
def atomReg (t : Thread) (b : Nat) (sz : Size) : Nat :=
  match sz with
  | .dword => (t.rdD b).toNat
  | _ => (t.rd b).toNat

/-- The operands of an atomic: v and, for `.cas`, e (R171). -/
def atomOperands (op : AtomOp) (t : Thread) (b : Nat) (sz : Size) : Nat × Nat :=
  match op with
  | .cas => (atomReg t (b + (match sz with | .dword => 2 | _ => 1)) sz, atomReg t b sz)
  | _ => (atomReg t b sz, 0)

/-- What an atomic at its point does. -/
inductive AtomDone where
  | done (m : Mach) (old : Nat)
  | err (e : MemErr)
  | wait

/-- An atomic at its point (Table 8-8). On a chunked page it is a solo commit: it takes a tidemark, waits
for another party's solo chunk that it meets, and squashes what it meets (R188, R253, R256). -/
def atomAt (m : Mach) (who : Who) (sc : Scope) (ea n : Nat) (f : Nat → Nat) : AtomDone :=
  match translate m who .atomic ea with
  | .error e => .err e
  | .ok (m, x) =>
    match reachable m .atomic who.die x.pa n with
    | .error e => .err e
    | .ok () =>
      match poisoned m x.pa n with
      | some e => .err e
      | none =>
        match x.cls with
        | 0 =>
          let g := [(x.pa / x.grain * x.grain, x.grain)]
          if soloBlocks m who.part (some who.core) g then .wait
          else
            let old := memNat m x.pa n
            let pid := match m.partOf who.die with | some p => p.pid | none => 0
            let (m, mark) := nextMark m pid
            let m := publishBytes m x.pa (natBytes n (f old))
            let m := m.updCore who.core (fun k => { k with mark := mark })
            .done (conflicts m who.part (some who.core) g 1) old
        | 1 =>
          let at_ := if deviceMem x.pa then sc else .sys
          match scopedRead m who at_ ea x n with
          | .error e => .err e
          | .ok (m, bs) =>
            let old := bytesNat bs
            match scopedWrite m who at_ ea x (natBytes n (f old)) with
            | .error e => .err e
            | .ok m => .done (wakeWatch m x.pa n) old
        | _ =>
          let old := bytesNat (homeRead m who.die x.pa n)
          .done (wakeWatch (homeWrite m who.die x.pa (natBytes n (f old))) x.pa n) old

/-! Scratchpad of the thread's own group and of a peer (R168 to R170). -/

/-- The group of a rank in a group's cluster set, on a core: itself for its own rank (R170). One that has exited or
ended faulted keeps its allocation (R231). -/
def peerOf (m : Mach) (gid rank : Nat) : Option Nat :=
  match m.group? gid with
  | none => none
  | some g =>
    let c := (m.recOf gid).setSize
    if c ≤ 1 then none
    else (m.groups.find? (fun p => p.kid == g.kid && p.gix == g.gix / c * c + rank && decide (rank < c) &&
      p.stat != .saved)).map (fun p => p.gid)

/-- The undo log has no room for a write (R251). -/
def undoFull (m : Mach) (c gid off n : Nat) : Bool :=
  let k := m.core c
  decide (Config.undoLog < k.openC.undo.length + (match k.comC with | some y => y.undo.length | none => 0) +
    undoNew m c gid off n)

/-! The meanings. -/

/-- `ld` (R166, R167). -/
def execLd (x : Ldg) (s : State) : Host.Outcome State Fault Refusal :=
  .next (s.onMach (fun m => seqWord m x.g (fun m r t =>
    let ea := eaG t x.a x.off
    let n := sizeN x.sz
    byClass m r t (· == 3) ea
      (if ea % n ≠ 0 then misalign m r t ea n 1
       else
        match gRead m (whoOf m t.gid) .load x.sc ea n with
        | .error e => memStop m r t .load ea e
        | .ok (m', bs) =>
          let m' := addLoad m' t.gid t.tix (loadRegs x.d x.sz x.sx bs) (r.flag x.sel)
          let m' := m'.updThread t.gid t.tix (fun t => { t with poll := t.poll || x.poll })
          if x.acq && ordActs m t ea then acqDo m' r.core (scopeNum x.sc) else m'))))

/-- `st` (R166, R167): a chunked store past the write set leaves its pack (R251). -/
def execSt (x : Stg) (s : State) : Host.Outcome State Fault Refusal :=
  .next (s.onMach (fun m => relWord m x.g (relWaits x.rel x.sc (sizeN x.sz) (fun t => eaG t x.a x.off)) (seqWord m x.g (fun m r t =>
    let ea := eaG t x.a x.off
    let n := sizeN x.sz
    let who := whoOf m t.gid
    byClass m r t (· != 0) ea
      (if ea % n ≠ 0 then misalign m r t ea n 1
       else relThen m r t x.rel x.sc ea (fun m =>
        match gWrite m who x.sc t.gid t.tix ea (storeBytes t x.b x.sz) with
        | .error e => memStop m r t .store ea e
        | .ok m' =>
          match translate m who .store ea with
          | .ok (_, y) => if y.cls = 0 ∧ writeFull m r.core y then escape m r t 3 else m'
          | .error _ => m'))))))

/-- `lds` (R168): the value is in the register at once. -/
def execLds (x : Lds) (s : State) : Host.Outcome State Fault Refusal :=
  .next (s.onMach (fun m => seqWord m x.g (fun m r t =>
    let ea := eaS t x.a x.off
    let n := sizeN x.sz
    if ea % n ≠ 0 then misalign m r t ea n 1
    else if !padOk m t.gid ea n then padFault m r t t.gid n .load ea
    else m.updThread t.gid t.tix (fun u => putRegs u (loadRegs x.d x.sz x.sx (padRead m t.gid ea n))))))

/-- `sts` (R168, R169). -/
def execSts (x : Sts) (s : State) : Host.Outcome State Fault Refusal :=
  .next (s.onMach (fun m => seqWord m x.g (fun m r t =>
    let ea := eaS t x.a x.off
    let n := sizeN x.sz
    if ea % n ≠ 0 then misalign m r t ea n 1
    else if !padOk m t.gid ea n then padFault m r t t.gid n .store ea
    else if undoFull m r.core t.gid ea n then escape m r t 4
    else padWrite m r.core t.gid ea (storeBytes t x.b x.sz))))

/-- `ldx` (R170). -/
def execLdx (x : Lds) (s : State) : Host.Outcome State Fault Refusal :=
  .next (s.onMach (fun m => seqWord m x.g (fun m r t =>
    let ea := eaS t x.a x.off
    let n := sizeN x.sz
    if ea % n ≠ 0 then misalign m r t ea n 1
    else
      match peerOf m t.gid x.rank with
      | none => padStop m r t .load ea
      | some p =>
        if !padOk m p ea n then padFault m r t p n .load ea
        else addLoad m t.gid t.tix (loadRegs x.d x.sz x.sx (padRead m p ea n)) (r.flag x.sel))))

/-- `stx` (R170): escaping; it holds at 65,535 pending stores. -/
def execStx (x : Sts) (s : State) : Host.Outcome State Fault Refusal :=
  .next (s.onMach (fun m => escWord m x.g 6 1 (fun m r t =>
    let ea := eaS t x.a x.off
    let n := sizeN x.sz
    if ea % n ≠ 0 then misalign m r t ea n 1
    else
      match peerOf m t.gid x.rank with
      | none => padStop m r t .store ea
      | some p =>
        if !padOk m p ea n then padFault m r t p n .store ea
        else if 65535 ≤ t.prs then stallAt m r.rid t.tix
        else
          let m1 : Mach := { m with
            nextId := m.nextId + 1
            stxs := m.stxs ++ [⟨m.nextId, t.gid, t.tix, p, ea, storeBytes t x.b x.sz, false⟩] }
          m1.updThread t.gid t.tix (fun t => { t with prs := t.prs + 1 }))))

/-- `atom` (R172, R188). -/
def execAtom (x : Atm) (s : State) : Host.Outcome State Fault Refusal :=
  .next (s.onMach (fun m => seqWord m x.g (fun m r t =>
    let ea := eaG t x.a x.off
    let n := sizeN x.sz
    byClass m r t (· != 2) ea
      (if ea % n ≠ 0 then misalign m r t ea n 1
       else
        let v := atomOperands x.op t x.b x.sz
        match atomAt m (whoOf m t.gid) x.sc ea n (fun old => atomNew x.op n old v.1 v.2) with
        | .err e => memStop m r t .atomic ea e
        | .wait => stallAt m r.rid t.tix
        | .done m' old =>
          let m' := addLoad m' t.gid t.tix (loadRegs x.d x.sz false (natBytes n old)) (r.flag x.sel)
          if x.op = .cas ∧ old ≠ v.2 then m'.updThread t.gid t.tix (fun t => { t with demoted := true }) else m'))))

/-- `red` (R173): deferred on a chunked page; a reduction past the capacity leaves its pack (R251). -/
def execRed (x : Rdg) (s : State) : Host.Outcome State Fault Refusal :=
  .next (s.onMach (fun m => relWord m x.g (relWaits x.rel x.sc (sizeN x.sz) (fun t => eaG t x.a x.off)) (seqWord m x.g (fun m r t =>
    let ea := eaG t x.a x.off
    let n := sizeN x.sz
    let who := whoOf m t.gid
    byClass m r t (fun c => c == 1 || c == 3) ea
      (if ea % n ≠ 0 then misalign m r t ea n 1
       else relThen m r t x.rel x.sc ea (fun m =>
        let v := atomOperands x.op t x.b x.sz
        match translate m who .atomic ea with
        | .error e => memStop m r t .atomic ea e
        | .ok (m', y) =>
          if y.cls = 0 then
            match reachable m' .atomic who.die y.pa n with
            | .error e => memStop m r t .atomic ea e
            | .ok () =>
              let k := m.core r.core
              if Config.writeSet ≤ k.openC.reds.length + (match k.comC with | some z => z.reds.length | none => 0) then
                escape m r t 3
              else m'.updCore r.core (fun k => { k with
                openC := { k.openC.page who.asid ea with reds := k.openC.reds ++ [⟨y.pa, x.op, n, v.1, y.grain⟩] } })
          else
            match atomAt m who x.sc ea n (fun old => atomNew x.op n old v.1 v.2) with
            | .err e => memStop m r t .atomic ea e
            | .wait => stallAt m r.rid t.tix
            | .done m' _ =>
              if deviceMem y.pa then m'
              else { m' with
                nextId := m'.nextId + 1
                hostWrs := m'.hostWrs ++ [⟨m'.nextId, t.gid, t.tix, y.pa, []⟩] }))))))

/-- `atoms` (R174). -/
def execAtoms (x : Atm) (s : State) : Host.Outcome State Fault Refusal :=
  .next (s.onMach (fun m => seqWord m x.g (fun m r t =>
    let ea := eaS t x.a x.off
    let n := sizeN x.sz
    if ea % n ≠ 0 then misalign m r t ea n 1
    else if !padOk m t.gid ea n then padFault m r t t.gid n .atomic ea
    else if undoFull m r.core t.gid ea n then escape m r t 4
    else
      let v := atomOperands x.op t x.b x.sz
      let old := bytesNat (padRead m t.gid ea n)
      let m' := padWrite m r.core t.gid ea (natBytes n (atomNew x.op n old v.1 v.2))
      let m' := addLoad m' t.gid t.tix (loadRegs x.d x.sz false (natBytes n old)) (r.flag x.sel)
      if x.op = .cas ∧ old ≠ v.2 then m'.updThread t.gid t.tix (fun t => { t with demoted := true }) else m')))

/-- `fence` (R177): a release stalls the word, for its whole pack, until its waits are over. -/
def execFence (g : Guard) (kind : FenceKind) (sc : Scope) (s : State) : Host.Outcome State Fault Refusal :=
  let n := scopeNum sc
  .next (s.onMach (fun m => relWord m g (fun m _ t => kind != .acq && !relReady m t n) (seqWord m g (fun m r _ =>
    match kind with
    | .acq => acqDo m r.core n
    | .rel => relPush m r.core n
    | .ar => acqDo (relPush m r.core n) r.core n))))

/-- `acqr` (R178). -/
def execAcqr (g : Guard) (a : Nat) (s : State) : Host.Outcome State Fault Refusal :=
  .next (s.onMach (fun m => seqWord m g (fun m r t =>
    let v := (t.rd a).toNat
    let base := r.core / 64 * 64
    let vs := if v < 64 then [base + v] else (List.range 64).map (fun i => base + i)
    acqDo (vs.foldl (fun m c => dropClean (pushAll m c true) c true) m) r.core 2)))

/-- The word at a watch point, as a number (R179). -/
def watchRead (m : Mach) (t : Thread) (glob : Bool) (ea wp : Nat) : Word :=
  if glob then wordOf (homeRead m (m.dieOf t.gid) wp 4) else wordOf (padRead m t.gid ea 4)

/-- The end of an address wait: the value, the acquire, and the next clause. -/
def waitaDone (m : Mach) (t : Thread) (d : Nat) (x : Word) : Mach :=
  acqDo (updBoth m t.gid t.tix (fun t => { t.wr d x with stat := .ready, landed := false })) (m.coreOf t.gid) 2

/-- `waita` (R179). -/
def execWaita (g : Guard) (global : Bool) (d a b : Nat) (s : State) : Host.Outcome State Fault Refusal :=
  .next (s.onMach (fun m => escWord m g 7 1 (fun m r t =>
    let ea := if global then (t.rdD a).toNat else (t.rd a).toNat
    let who := whoOf m t.gid
    let go (m : Mach) (wp : Nat) : Mach :=
      let x := watchRead m t global ea wp
      if x ≠ t.rd b then
        acqDo (m.updThread t.gid t.tix (fun t => t.wr d x)) r.core 2
      else m.updThread t.gid t.tix (fun t => t.leave (.waiting (.addr global ea wp x d false r.here)) ⟨r.nextHdr, 0⟩)
    if ea % 4 ≠ 0 then misalign m r t ea 4 1
    else if !global then (if padOk m t.gid ea 4 then go m 0 else padFault m r t t.gid 4 .wait ea)
    else
      match translate m who .wait ea with
      | .error e => memStop m r t .wait ea e
      | .ok (m', x) =>
        match reachable m' .wait who.die x.pa 4 with
        | .error e => memStop m r t .wait ea e
        | .ok () =>
          match poisoned m' x.pa 4 with
          | some e => memStop m r t .wait ea e
          | none => go (if x.cls = 1 then pushFor m' r.core 2 x.pa 4 else m') x.pa)))

/-- `pref` (R187): it changes no value; where the address may be read it brings the 512-byte line in. -/
def execPref (g : Guard) (sc : Scope) (a : Nat) (off : Int) (s : State) : Host.Outcome State Fault Refusal :=
  .next (s.onMach (fun m => seqWord m g (fun m r t =>
    let ea := eaG t a off
    let who := whoOf m t.gid
    match translate m who .load ea with
    | .error _ => m
    | .ok (m', x) =>
      if homeDie x.pa = some who.die ∧ (x.cls = 0 ∨ x.cls = 1) then
        let line := (List.range 16).map (fun i => x.pa / 512 * 512 + 32 * i)
        match sc with
        | .core => line.foldl (fun m b => l1Sector m who (ea % 2 ^ 48) x b) (l1Tag m' who (ea % 2 ^ 48) x)
        | .cl =>
          if x.cls = 1 then line.foldl (fun m b => clusterSector m (clusterOf r.core) x.grain x.cls x.world b) m' else m'
        | _ => m'
      else m')))

/-- LOAD_DATA_ARRIVE (R51, R52): the value reaches its registers and the flag's operation completes; no
squash undoes it. -/
def execLoadDataArrive (gid tix id : Nat) (s : State) : Host.Outcome State Fault Refusal :=
  .next (s.onMach (fun m => updBoth m gid tix (fun t =>
    match t.loads.find? (fun l => l.id == id) with
    | none => t
    | some l => { putRegs t l.regs with loads := t.loads.filter (fun l => l.id != id) })))

/-- A group of a waiting thread is on a core, where its waits end (R351). -/
def waitsHere (m : Mach) (gid : Nat) : Bool :=
  match m.group? gid with
  | some g => g.onCore && g.stat != .saving
  | none => true

/-- STX_PERFORM (R170): the store is performed at the peer's bank, in issue order of its thread to that
peer; a squash of the peer keeps it (R169). -/
def execStxPerform (id : Nat) (s : State) : Host.Outcome State Fault Refusal :=
  .next (s.onMach (fun m =>
    match m.stxs.find? (fun x => x.id == id) with
    | none => m
    | some x =>
      let first := m.stxs.find? (fun y => y.gid == x.gid && y.tix == x.tix && y.toGid == x.toGid && !y.done)
      if x.done || first != some x then m
      else padWriteOut { m with stxs := m.stxs.map (fun y => if y.id == id then { y with done := true } else y) }
        x.toGid x.off x.data))

/-- STX_ACK (R170): `PRS` falls when the peer's acknowledgement returns. -/
def execStxAck (id : Nat) (s : State) : Host.Outcome State Fault Refusal :=
  .next (s.onMach (fun m =>
    match m.stxs.find? (fun x => x.id == id && x.done) with
    | none => m
    | some x =>
      let m1 : Mach := { m with stxs := m.stxs.filter (fun y => y.id != id) }
      m1.updThread x.gid x.tix (fun t => { t with prs := t.prs - 1 })))

/-- WAITA_WAKE (R179): a wake, which may be spurious, ends the wait with the word as it is; while its group is away
the thread waits on (R351). -/
def execWaitaWake (gid tix : Nat) (s : State) : Host.Outcome State Fault Refusal :=
  .next (s.onMach (fun m =>
    match (if waitsHere m gid then m.thread? gid tix else none) with
    | none => m
    | some t =>
      match t.stat with
      | .waiting (.addr glob ea wp _ d _ _) => waitaDone m t d (watchRead m t glob ea wp)
      | _ => m))

/-- WAITA_REPOLL (R179): the word is read again, and a changed one ends the wait; not while its group is away
(R351). -/
def execWaitaRepoll (gid tix : Nat) (s : State) : Host.Outcome State Fault Refusal :=
  .next (s.onMach (fun m =>
    match (if waitsHere m gid then m.thread? gid tix else none) with
    | none => m
    | some t =>
      match t.stat with
      | .waiting (.addr glob ea wp v d _ _) =>
        let x := watchRead m t glob ea wp
        if x ≠ v then waitaDone m t d x else m
      | _ => m))

/-- ESCAPING_REISSUE (R188, R251, R267, R274): once the chunk in which it left its pack has closed, the thread may issue
again from its word: at once where the word needs room, else in an empty chunk with no earlier chunk of the core
committing, for which a chunk that others have begun to fill closes. -/
def execEscapingReissue (gid tix : Nat) (s : State) : Host.Outcome State Fault Refusal :=
  .next (s.onMach (fun m =>
    let c := m.coreOf gid
    let k := m.core c
    match m.thread? gid tix with
    | none => m
    | some t =>
      if t.stat ≠ .escaping ∨ t.escAt = some k.openC.serial ∨ !waitsHere m gid then m
      else if t.escFor = 3 ∨ t.escFor = 4 ∨ (k.openC.empty ∧ k.comC.isNone ∧ k.due.isEmpty) then
        if t.escFor = 10 ∧ (!atBoundary m c ∨ retryOn m c) then m
        else m.updThread gid tix (fun t => { t with stat := .ready, escAt := none, retrying := t.escFor == 10 })
      else if k.openC.empty then m
      else addDue m c t.escFor))

/-- REPLICA_PROPAGATION (R266): a replicated store reaches one further replica, at its own instant, and after the
earlier stores of its thread to the same bytes (R163). -/
def execReplicaPropagation (id : Nat) (s : State) : Host.Outcome State Fault Refusal :=
  .next (s.onMach (fun m =>
    match m.repls.find? (fun x => x.id == id) with
    | none => m
    | some x =>
      let first := m.repls.find? (fun y => y.gid == x.gid && y.tix == x.tix && decide (y.pa < x.pa + x.data.length) &&
        decide (x.pa < y.pa + y.data.length))
      if first != some x then m
      else wakeWatch { m with mem := cwrite m.mem x.pa x.data, repls := m.repls.filter (fun y => y.id != id) }
        x.pa x.data.length))

/-- WRITE_ACKNOWLEDGEMENT (R177 step 5). -/
def execWriteAcknowledgement (id : Nat) (s : State) : Host.Outcome State Fault Refusal :=
  .next (s.onMach (fun m => { m with hostWrs := m.hostWrs.filter (fun x => x.id != id) }))

/-- DIRTY_EVICT (R177, R388): a cache sends a line's dirty bytes outward and gives the line up. A host line
of the holder leaves as a write-back in flight. -/
def execDirtyEvict (cache : CacheAt) (pa : Nat) (s : State) : Host.Outcome State Fault Refusal :=
  .next (s.onMach (fun m =>
    match cache with
    | .l1 c => if (lineAt (m.core c).lines pa).isSome then l1Out m c (pa / 512) else m
    | .cluster cl => if (lineAt (m.cluster cl) pa).isSome then clusterOut m cl (pa / 512) else m
    | .holder p =>
      match m.part? p with
      | none => m
      | some q =>
        match lineAt q.lines pa with
        | none => m
        | some l => holderOut m p l))

end Sys2Proof.Machine
end

