-- ==== Sys2Proof/Machine/Chunk.lean ====
section
/-!
DEFINITION. The chunk class (14): `chend`, `chstat`, and the life of a chunk from its close to its
tidemark.
-/

namespace Sys2Proof.Machine

/-- Apply the deferred reductions of a chunk at home, in issue order (R252). -/
def publishReds (m : Mach) : List Red → Mach
  | [] => m
  | r :: l =>
    publishReds (publishBytes m r.pa (natBytes r.n (atomNew r.op r.n (memNat m r.pa r.n) r.v 0))) l

/-- The earlier stores of a core's threads have been performed at their points (R267). -/
def storesDone (m : Mach) (c : Nat) : Bool :=
  !m.stxs.any (fun x => !x.done && m.coreOf x.gid == c)

/-- The end of a commit: the run count is 0, and a solo chunk gives up its grant (R256). The chunk that
a waiting solo grant is for is now alone. -/
def endCommit (m : Mach) (c pid mark : Nat) (solo : Bool) : Mach :=
  let m := m.updCore c (fun k => { k with
    mark := mark, run := 0, comC := none, comCk := {}
    openC := { k.openC with solo := k.openC.solo || k.soloNext }
    soloNext := false, soloHas := k.soloHas && !solo })
  if solo then m.updPart pid (fun p => { p with solo := p.solo.filter (fun x => x != c) }) else m

/-! The meanings. -/

/-- `chend` (R260): the close is asked for, and the thread's next clause belongs to the new chunk. -/
def execChend (g : Guard) (s : State) : Host.Outcome State Fault Refusal :=
  .next (s.onMach (fun m => seqWord m g (fun m r t =>
    addDue (m.updThread t.gid t.tix (fun t => { t with nextChunk := some (m.core r.core).openC.serial })) r.core 1)))

/-- What `chstat` writes (R261). -/
def chstatVal (k : Core) (fl : ChSel) : DWord :=
  match fl with
  | .mark => BitVec.ofNat 64 k.mark
  | .stat => BitVec.ofNat 64 (chsOf k)
  | .sq => BitVec.ofNat 64 k.sq

/-- `chstat` (R261). -/
def execChstat (g : Guard) (fl : ChSel) (d : Nat) (s : State) : Host.Outcome State Fault Refusal :=
  .next (s.onMach (fun m => seqWord m g (fun m r t =>
    m.updThread t.gid t.tix (fun t => t.wrD d (chstatVal (m.core r.core) fl)))))

/-- CHUNK_CLOSE (R250, R251): the open chunk closes when a cause holds. -/
def execChunkClose (core : Nat) (s : State) : Host.Outcome State Fault Refusal :=
  .next (s.onMach (fun m =>
    if (causesNow m core).isEmpty then m else closeChunk m core))

/-- CHUNK_TIMER_EXPIRE (R257, R147): cause 5, of an empty chunk only when a thread has exited in it. -/
def execChunkTimerExpire (core : Nat) (s : State) : Host.Outcome State Fault Refusal :=
  .next (s.onMach (fun m =>
    if timerOut m core then addDue m core 5 else m))

/-- SIGNATURE_PARITY_ERROR (R249): the signature is taken to hold every grain, and the open chunk closes
with cause 15. -/
def execSignatureParityError (core : Nat) (committing : Bool) (s : State) : Host.Outcome State Fault Refusal :=
  .next (s.onMach (fun m =>
    if committing then
      m.updCore core (fun k => { k with comC := k.comC.map (fun y => { y with parity := true }) })
    else addDue (m.updCore core (fun k => { k with openC := { k.openC with parity := true } })) core 15))

/-- TIDEMARK_GRANT (R252): the committing chunk is published at the next tidemark, the chunks of other cores
that it meets are squashed, and the slots of its exits are freed. It waits for the stores before its close
(R267) and for another party's solo chunk that it meets (R256). -/
def execTidemarkGrant (core : Nat) (s : State) : Host.Outcome State Fault Refusal :=
  .next (s.onMach (fun m =>
    match (m.core core).comC, partOfCore m core with
    | some y, some p =>
      if !storesDone m core || soloBlocks m p.dies (some core) y.grains || (m.die (core / 64)).fatal then m
      else
        let gone := (m.core core).ck.threads
        let (m, mark) := nextMark m p.pid
        let m := publishReds (publishCells m y.cells) y.reds
        let m := conflicts m p.dies (some core) y.grains 1
        let m := endCommit m core p.pid mark y.solo
        trimCk (freeExited m core gone) core
    | _, _ => m))

/-- RUN_COUNT_LIMIT (R256): at a run count of 4 the core asks for solo priority. -/
def execRunCountLimit (core : Nat) (s : State) : Host.Outcome State Fault Refusal :=
  .next (s.onMach (fun m =>
    let k := m.core core
    match partOfCore m core with
    | some p =>
      if k.run = 4 ∧ !p.solo.contains core then
        m.updPart p.pid (fun p => { p with solo := p.solo ++ [core] })
      else m
    | none => m))

/-- SOLO_GRANT (R256): the one grant of the partition, in order of request. -/
def execSoloGrant (core : Nat) (s : State) : Host.Outcome State Fault Refusal :=
  .next (s.onMach (fun m =>
    match partOfCore m core with
    | some p =>
      if p.solo.head? = some core then m.updCore core (fun k => { k with soloHas := true })
      else m
    | none => m))

end Sys2Proof.Machine
end

