-- ==== Sys2Proof/Machine/Image.lean ====
section
/-!
DEFINITION. The common register image (R359) and the transit record (R358).
-/

namespace Sys2Proof.Machine

/-- An image register is carried when the high half of its pair lies below `NREG`. -/
def carries (nreg pair : Nat) : Bool := decide (pair + 1 < nreg)

/-- Some registers of an image side, sparse: register `i` is the pair at `base + 2 × i`. -/
def sideOf (t : Thread) (nreg base : Nat) : List (Nat × DWord) :=
  (List.range 32).filterMap (fun i =>
    let v := t.rdD (base + 2 * i)
    if carries nreg (base + 2 * i) && v != 0 then some (i, v) else none)

/-- The image of a thread as it leaves its core. -/
def imageOf (t : Thread) (nreg : Nat) : Image :=
  { x := sideOf t nreg 0, f := sideOf t nreg 64, fflags := t.fstat.toNat % 32, frm := 0 }

/-- Write a side of an image. -/
def putSide (t : Thread) (nreg base : Nat) (l : List (Nat × DWord)) : Thread :=
  l.foldl (fun t e => if e.1 < 32 ∧ carries nreg (base + 2 * e.1) then t.wrD (base + 2 * e.1) e.2 else t) t

/-- A thread with an image's registers: what the image does not carry is zero, p1 to p7 are false, and
`FSTAT` holds its flags. -/
def withImage (t : Thread) (nreg : Nat) (g : Image) : Thread :=
  putSide (putSide { t with w := [], pr := 0, fstat := BitVec.ofNat 32 (g.fflags % 32) } nreg 0 g.x) nreg 64 g.f

/-- A register of an image. -/
def xreg (g : Image) (n : Nat) : DWord := if n = 0 then 0 else (lget g.x n).getD 0

/-- The firmware area of a partition: the top 1 GiB of its lowest die's memory (R405). -/
def firmwareBase (dies : List Nat) : Nat := (dies.foldl min 3) * 2 ^ 37 + 71 * 2 ^ 30

/-- The address of a thread's transit record (R358). -/
def recordAddr (m : Mach) (t : Thread) : Nat :=
  firmwareBase (partDies m (m.dieOf t.gid)) +
    ((m.dieOf t.gid * 64 + m.coreOf t.gid % 64) * 2048 + t.slot) * 1024

/-- The bytes of a transit record (Table 23-1). -/
def recordBytes (m : Mach) (t : Thread) (g : Image) (pc state : Nat) : List Byte :=
  let x := m.recOf t.gid
  let world := match m.ctxOf t.gid with | some c => c.secure | none => false
  let width := match m.group? t.gid with | some g => g.width | none => 1
  natBytes 8 pc ++ natBytes 8 t.hsp.toNat ++ natBytes 2 (asidOf m (cidOf m t.gid)) ++ natBytes 2 t.gen ++
    natBytes 4 (t.slot + m.coreOf t.gid % 64 * 2 ^ 11 + m.dieOf t.gid * 2 ^ 17) ++ natBytes 4 width ++
    natBytes 1 state ++ natBytes 1 (world.toNat + 2 * (carries x.regs 64).toNat) ++ natBytes 2 x.regs ++
    natBytes 8 (g.fflags % 32 + g.frm % 8 * 32) ++ natBytes 24 0 ++
    (List.range 32).flatMap (fun i => natBytes 8 (xreg g i).toNat) ++
    (List.range 32).flatMap (fun i => natBytes 8 ((lget g.f i).getD 0).toNat) ++ natBytes 448 0

/-- Write a thread's transit record. -/
def putRecord (m : Mach) (t : Thread) (g : Image) (pc state : Nat) : Mach :=
  publishBytes m (recordAddr m t) (recordBytes m t g pc state)

/-- Change the State of a thread's record. -/
def putRecState (m : Mach) (t : Thread) (state : Nat) : Mach :=
  publishBytes m (recordAddr m t + 0x1C) (natBytes 1 state)

/-- The address of a visitor context's pointer (R358). -/
def pointerAt (m : Mach) (d v : Nat) : Nat := firmwareBase (partDies m d) + 2 ^ 29 + 256 * d + 8 * v

/-- The pointer of a visitor context to the record it runs, or 0 (R358). -/
def putPointer (m : Mach) (d v a : Nat) : Mach := publishBytes m (pointerAt m d v) (natBytes 8 a)

end Sys2Proof.Machine
end

