-- ==== Sys2Proof/Machine/Record.lean ====
section
/-!
DEFINITION. The bytes of a group's save record (R349, Table 21-4): its sections, in the order and with the sizes that the
rule gives. What stands where inside a section is the model's (log 25, DESIGN CHOICE: the rule leaves it open). Nothing
reads the record back: the supervisor does not write it, and a restore takes the same state from `Group.save`.
-/

namespace Sys2Proof.Machine

/-- A thread's state by its row of Table 7-1. -/
def TStat.code : TStat → Nat
  | .ready | .escaping | .raised => 0
  | .held => 1
  | .issuing => 2
  | .waiting _ => 3
  | .parked _ => 4
  | .transit => 5
  | .exited => 6

/-- The wait of a saved thread: armed address and value, barrier phase, wake time, ticket and its reply. -/
def waitBytes (m : Mach) (t : Thread) : List Byte :=
  let z := fun n => natBytes n 0
  match t.stat with
  | .waiting (.addr _ ea _ v _ _ _) => natBytes 8 ea ++ natBytes 4 v.toNat ++ z 36
  | .waiting (.barrier _ ph _ _ _ _) => z 12 ++ natBytes 4 ph.toNat ++ z 32
  | .waiting (.sleep w) => z 16 ++ natBytes 8 w ++ z 24
  | .waiting (.svc n) =>
    let r := match ((m.ctxOf t.gid).map (fun x => x.replies)).bind (fun l => l.find? (fun r => r.1 == n)) with
      | some r => natBytes 8 r.2.1.toNat ++ natBytes 8 r.2.2.toNat
      | none => z 16
    z 24 ++ natBytes 8 n ++ r
  | _ => z 48

/-- The latest of a thread's carried operations on a flag. -/
def flagOp (s : SaveRec) (t : Thread) (n : Nat) : Nat :=
  ((s.tcmds.filter (fun x => x.gid == t.gid && x.tix == t.tix && x.flag == some n)).map (fun x => x.n) ++
    (s.copies.filter (fun x => x.gid == t.gid && x.tix == t.tix && x.flag == some n)).map (fun x => x.n)).foldl max 0

/-- A barrier object of a member set: phase, arrival count and broken bit. -/
def objBytes (m : Mach) (g : Group) (key : BarKey) (id : Nat) : List Byte :=
  match m.barriers.find? (fun b => b.kid == g.kid && b.key == key && b.id == id) with
  | some b => natBytes 4 b.phase.toNat ++ natBytes 4 (b.arrived.length % 2 ^ 31 + (if b.broken.isSome then 2 ^ 31 else 0))
  | none => natBytes 8 0

/-- Whether a thread has arrived at an object of a level up to the group level. -/
def arrivedAt (m : Mach) (g : Group) (x : LaunchRec) (tix l id : Nat) : Bool :=
  decide (l ≤ x.glevel) && m.barriers.any (fun b => b.kid == g.kid && b.id == id &&
    b.key == selKey x g.gix tix g.die (.lv l) && b.arrived.contains (g.gix, tix))

/-- A thread's 128 bytes. -/
def threadBytes (m : Mach) (g : Group) (t : Thread) : List Byte :=
  let x := m.recOf g.gid
  let ops := (List.range 12).map (flagOp g.save t)
  let bit (p : Nat → Bool) (n : Nat) : Nat := ((List.range n).map (fun i => if p i then 2 ^ i else 0)).sum
  natBytes 8 t.pos.hdr ++ natBytes 1 t.pos.idx ++ natBytes 1 t.stat.code ++ natBytes 1 (t.pr.toNat / 2 * 2) ++ natBytes 1 0 ++
    natBytes 4 t.fstat.toNat ++ natBytes 4 t.fctl.toNat ++ natBytes 4 t.prs ++ natBytes 8 t.hsp.toNat ++
    natBytes 8 t.rngk.toNat ++ natBytes 8 t.rngc.toNat ++ natBytes 2 t.gen ++ natBytes 2 (bit (fun n => ops.getD n 0 != 0) 12) ++
    natBytes 4 (bit (fun i => arrivedAt m g x t.tix (i / 4) (i % 4)) 28) ++ waitBytes m t ++
    ops.flatMap (natBytes 2)

/-- The objects below the group level whose lowest member is a thread: 192 bytes. -/
def threadObjs (m : Mach) (g : Group) (tix : Nat) : List Byte :=
  let x := m.recOf g.gid
  (List.range 24).flatMap (fun i =>
    let key := selKey x g.gix tix g.die (.lv (i / 4))
    if i / 4 < x.glevel ∧ key.tLo = tix then objBytes m g key (i % 4) else natBytes 8 0)

/-- Sizes and modifier bits of a command (R311). -/
def TOp.fields : TOp → List Nat
  | .lu _ n => [n, 0, 0]
  | .chol n => [n, 0, 0]
  | .qr _ a n => [a, n, 0]
  | .trsm _ n k tr unit up => [n, k, tr.toNat + 2 * unit.toNat + 4 * up.toNat]
  | .pvap _ inv => [0, 0, inv.toNat]
  | _ => [0, 0, 0]

/-- The state of a tile with its command (R311): 128 bytes. -/
def tileCmdBytes (g : Group) (i : Nat) (tl : Tile) : List Byte :=
  let on := g.save.tcmds.filter (fun x => x.tiles.contains i)
  let st := if on.any (fun x => x.halt.isSome) then 3 else if on.isEmpty then 1 else 2
  natBytes 4 tl.inbound ++ natBytes 1 (match on.head? with | some x => x.step | none => tl.step) ++ natBytes 1 st ++
    (match on.head? with
      | none => natBytes 122 0
      | some x => natBytes 2 x.opc ++ x.op.fields.flatMap (natBytes 1) ++
          natBytes 1 ((x.tiles.filter (fun j => j != i)).headD 0) ++ natBytes 1 (x.op.pv?.getD 0) ++ natBytes 1 (x.res.getD 0) ++
          natBytes 2 x.tix ++ natBytes 8 x.mx ++ natBytes 8 x.n ++ natBytes 8 ((x.halt.map Prod.snd).getD 0) ++ natBytes 88 0)

/-- The tiles' sections: each 1,024 containers, then the command state. -/
def tileSections (g : Group) (base : Nat) : List (Nat × List Byte) :=
  g.save.tiles.map (fun t => (base + 8320 * t.1,
    (List.range 1024).flatMap (fun e => natBytes 8 ((lget t.2.el e).getD 0).toNat) ++ tileCmdBytes g t.1 t.2))

/-- A carried copy: 128 bytes. -/
def copyBytes (k : Copy) : List Byte :=
  natBytes 8 k.n ++ natBytes 2 k.tix ++ natBytes 2 (k.flag.getD 0xFFFF) ++ natBytes 4 k.blkAt ++ natBytes 8 k.dst ++ natBytes 8 k.src ++
    natBytes 4 k.rows ++ natBytes 4 k.bytes ++ natBytes 4 k.dstr ++ natBytes 4 k.sstr ++ natBytes 1 k.dsp ++ natBytes 1 k.rank ++
    natBytes 1 k.ssp ++ natBytes 1 k.flags ++ natBytes 4 k.flagOff ++ natBytes 4 k.flagVal.toNat ++ natBytes 4 k.row ++
    natBytes 4 k.col ++ natBytes 2 ((k.stopped.map Prod.fst).getD 0) ++ natBytes 2 ((k.stopped.map Prod.snd).getD 0) ++ natBytes 56 0

/-- The section of the group's own state. -/
def groupSection (m : Mach) (g : Group) : List Byte :=
  let x := m.recOf g.gid
  (List.range 64).flatMap (fun n => natBytes 4 (kget g.k n).toNat) ++
    (List.range 512).flatMap (fun i =>
      let r := (lget g.rj i).getD {}
      natBytes 4 r.named.toNat ++ natBytes 4 r.arrived.toNat) ++
    (List.range 4).flatMap (fun i => objBytes m g (selKey x g.gix 0 g.die .grp) i ++ natBytes 24 0) ++
    (List.range 1024).map (fun i => BitVec.ofNat 8 (((List.range 8).map (fun b =>
      if g.save.units.contains (8 * i + b) then 2 ^ b else 0)).sum)) ++
    g.save.copies.flatMap copyBytes

/-- The header: 256 bytes. -/
def headSection (m : Mach) (g : Group) : List Byte :=
  let mask (l : List Nat) : Nat := ((List.range 4).map (fun i => if l.contains i then 2 ^ i else 0)).sum
  let s := g.save
  natBytes 8 (match m.kernel? g.kid with | some k => k.seq | none => 0) ++ natBytes 4 g.gix ++ natBytes 1 (if g.halted then 1 else 0) ++
    natBytes 1 (g.gix % max 1 (m.recOf g.gid).setSize) ++ natBytes 1 (mask (s.tiles.map Prod.fst)) ++
    natBytes 1 (mask (s.pvs.map Prod.fst)) ++ natBytes 8 s.topCopy ++ natBytes 8 s.topTile ++
    natBytes 2 (if s.units.isEmpty then 0 else 1) ++ natBytes 222 0

/-- The sections of Table 21-4 that a saved group uses, by their offset in its record. -/
def recordSections (m : Mach) (g : Group) : List (Nat × List Byte) :=
  let x := m.recOf g.gid
  let t := x.threads
  let ts := m.threads.filter (fun u => u.gid == g.gid)
  let o1 := 256 + 128 * t
  let o2 := o1 + 192 * t
  let o3 := o2 + 4 * x.regs * t
  let o4 := o3 + (x.scratch + 63) / 64 * 64
  let o5 := o4 + 4 * 8320
  let o6 := o5 + 4 * 64
  let o7 := o6 + 4 * 1088
  let o8 := o7 + 64
  (0, headSection m g) :: ts.map (fun u => (256 + 128 * u.tix, threadBytes m g u)) ++
    (List.range t).map (fun i => (o1 + 192 * i, threadObjs m g i)) ++
    ts.map (fun u => (o2 + 4 * x.regs * u.tix, (List.range x.regs).flatMap (fun n => natBytes 4 (u.rd n).toNat))) ++
    [(o3, cread g.spad 0 x.scratch)] ++ tileSections g o4 ++
    g.save.pvs.map (fun p => (o5 + 64 * p.1, natBytes 1 p.2.c ++ (List.range 32).flatMap (fun i => natBytes 1 ((lget p.2.p i).getD 0)))) ++
    g.save.fts.map (fun f => (o6 + 1088 * f.1, f.2.1 ++ natBytes (1087 - f.2.1.length) 0 ++ natBytes 1 f.2.2.toNat)) ++
    [(o7, g.save.codeTab.flatMap (natBytes 2))] ++
    g.save.units.map (fun u => (o8 + 64 * u, cread g.save.wbuf (64 * u) 64)) ++
    [(o8 + 524288, groupSection m g)]

/-- Write the record of a group that has been saved into its place in the context's save area (R228 step 5). -/
def writeRecord (m : Mach) (gid : Nat) : Mach :=
  match m.group? gid, m.ctxOf gid with
  | some g, some x => (recordSections m g).foldl (fun m s => publishBytes m (x.saveBase + g.recAt + s.1) s.2) m
  | _, _ => m

end Sys2Proof.Machine
end

