-- ==== Sys2Proof/Machine/Copy.lean ====
section
/-!
DEFINITION. The copy engine (R180 to R186): the parameter block, the pieces, completion, and the
copy timeline.
-/

namespace Sys2Proof.Machine

/-! The parameter block (Table 8-10). -/

/-- The copy of a block. -/
def parseCopy (bs : List Byte) (n gid tix blkAt : Nat) (flag : Option Nat) : Copy :=
  { n := n, gid := gid, tix := tix, flag := flag, blkAt := blkAt
    dst := fieldAt bs 0 8, src := fieldAt bs 8 8, rows := fieldAt bs 16 4, bytes := fieldAt bs 20 4
    dstr := fieldAt bs 24 4, sstr := fieldAt bs 28 4, dsp := fieldAt bs 32 1, rank := fieldAt bs 33 1
    ssp := fieldAt bs 34 1, flags := fieldAt bs 35 1, flagOff := fieldAt bs 36 4
    flagVal := wordOf ((bs.drop 40).take 4), zero := (bs.drop 44).all (fun b => b == 0) }

/-- Every row of a range lies below a limit. -/
def rowsIn (base rows stride bytes limit : Nat) : Bool := decide (base + (rows - 1) * stride + bytes ≤ limit)

/-- A block that breaks a limit of Table 8-10, with `scratch` bytes of scratchpad. -/
def Copy.bad (k : Copy) (scratch : Nat) : Bool :=
  !k.zero || k.rows == 0 || decide (65536 < k.rows) || k.bytes == 0 || decide (16777216 < k.bytes) ||
    decide (3 < k.dsp) || decide (2 < k.ssp) || decide (1 < k.flags) ||
    ((k.dsp == 2 || k.ssp == 2) && decide (3 < k.rank)) ||
    (k.dsp == 3 && (k.bytes % 64 != 0 || k.dstr % 64 != 0 || k.dst % 64 != 0 ||
      !rowsIn k.dst k.rows k.dstr k.bytes Config.weights)) ||
    ((k.dsp == 1 || k.dsp == 2) && !rowsIn k.dst k.rows k.dstr k.bytes scratch) ||
    ((k.ssp == 1 || k.ssp == 2) && !rowsIn k.src k.rows k.sstr k.bytes scratch) ||
    (k.flags == 1 && (k.flagOff % 4 != 0 || decide (scratch < k.flagOff + 4)))

/-- The group of the named rank, whatever has become of it (R412): a set keeps its allocations until
all of it is done. -/
def setPeer (m : Mach) (gid rank : Nat) : Option Nat :=
  match m.group? gid with
  | none => none
  | some g =>
    let c := (m.recOf gid).setSize
    if c ≤ 1 ∨ c ≤ rank then none
    else (m.groups.find? (fun p => p.kid == g.kid && p.gix == g.gix / c * c + rank)).map (fun p => p.gid)

/-- The group whose scratchpad a space names: the own one, or the peer's. -/
def Copy.padOf (k : Copy) (m : Mach) (space : Nat) : Option Nat :=
  if space = 2 then setPeer m k.gid k.rank else some k.gid

/-! The timelines (R183). -/

/-- The completed mark: every number up to it is complete, with these outstanding. -/
def markOf (ctr : Nat) (ns : List Nat) : Nat := ns.foldl (fun c n => min c (n - 1)) ctr

/-- C of a core's copy timeline. -/
def copyMark (k : Core) : Nat := markOf k.copyCtr (k.copies.map (fun c => c.n))

/-- C of a core's tile timeline. -/
def tileMark (k : Core) : Nat := markOf k.tileCtr (k.tcmds.map (fun c => c.n))

/-- The number that a thread waits for on a timeline. -/
def tlNeed (t : Thread) (tile : Bool) : Option Nat :=
  match t.stat with
  | .waiting (.copyTl n _) => if tile then none else some n
  | .waiting (.tileTl n _) => if tile then some n else none
  | _ => none

/-- Release the waiters of a timeline that its mark has reached (R184): `fence.acq.die` after the wait. -/
def freeTl (m : Mach) (c : Nat) (tile : Bool) : Mach :=
  let mark := if tile then tileMark (m.core c) else copyMark (m.core c)
  (threadsOn m c).foldl (fun m t =>
    match tlNeed t tile with
    | some n => if n ≤ mark then acqDo (updBoth m t.gid t.tix Thread.freed) c 2 else m
    | none => m) m

/-- Put a copy in its place in timeline order. -/
def insertCopy (k : Copy) : List Copy → List Copy
  | [] => [k]
  | x :: l => if k.n < x.n then k :: x :: l else x :: insertCopy k l

/-- Change the copy at the head of a core's engine. -/
def updHead (m : Mach) (c : Nat) (f : Copy → Copy) : Mach :=
  m.updCore c (fun k => { k with copies := match k.copies with | [] => [] | x :: l => f x :: l })

/-! Faults of the engine (R186). -/

/-- A thread that waits for a stopped copy parks on its fault. -/
def parkWaiter (m : Mach) (c : Nat) (x : Copy) : Mach :=
  match m.thread? x.gid x.tix with
  | none => m
  | some t =>
    match t.stat with
    | .waiting (.copyTl n p) =>
      if x.n ≤ n then addDue (parkThread m t.gid t.tix (.copy x.n (.wait (.copyTl n p)))) c 10 else m
    | _ => m

/-- The engine stops at a piece and posts the record at once. -/
def engineFault (m : Mach) (c : Nat) (x : Copy) (kind cause : Nat) (acc : Acc) (va : Nat) : Mach :=
  let m := updHead m c (fun k => { k with stopped := some (kind, cause) })
  let slot := match m.thread? x.gid x.tix with | some t => t.slot | none => 0
  let m := postRec m (cidOf m x.gid) {
    kind := kind, cause := cause, access := acc.code, flags := 2 + (if kind = 1 ∨ kind = 2 then 4 else 0),
    asid := asidOf m (cidOf m x.gid), addr := va, clause := x.blkAt,
    place := slot + c % 64 * 2 ^ 11 + c / 64 * 2 ^ 17, timeline := x.n % 2 ^ 32 }
  parkWaiter m c x

/-- A group ends faulted, or its kernel is stopped (R232, R312). -/
def endsFaulted (m : Mach) (gid : Nat) : Bool := match m.group? gid with | some g => g.stat == .faulted | none => false

/-- What a failed access of the engine does: a lost link ends the copy as an unrepaired fault. -/
def engineStop (m : Mach) (c : Nat) (x : Copy) (acc : Acc) (va : Nat) (e : MemErr) : Mach :=
  match e with
  | .fault k d =>
    let m := engineFault m c x k d acc va
    -- nothing can answer the record of a group that ends faulted
    if endsFaulted m x.gid then
      updHead m c (fun k => { k with stopped := none, status := 2 }) else m
  | .link _ => updHead m c (fun k => { k with status := 2 })

/-! Pieces (R181). -/

/-- Range commits of a write wait for another party's solo chunk that they meet (R256). -/
def rangeWaits (m : Mach) (who : Who) (xs : List (Nat × Nat × Xlat)) : Bool :=
  xs.any (fun p => p.2.2.cls == 0 && soloBlocks m who.part none (grainsOf p.2.2.pa p.2.1 p.2.2.grain))

/-- Write one part of a piece at its point. -/
def engineWrite (m : Mach) (who : Who) (gid tix : Nat) (x : Xlat) (bs : List Byte) : Mach :=
  match x.cls with
  | 0 =>
    let pid := match m.partOf who.die with | some p => p.pid | none => 0
    let (m, _) := nextMark m pid
    conflicts (publishBytes m x.pa bs) who.part none (grainsOf x.pa bs.length x.grain) 2
  | 2 => replWrite m who gid tix x.pa bs
  | _ =>
    if deviceMem x.pa then wakeWatch (homeWrite m who.die x.pa bs) x.pa bs.length
    else hostWrite m who gid tix x.pa bs

/-- Write the parts of a piece in order. -/
def engineWrites (m : Mach) (who : Who) (gid tix : Nat) : List (Nat × Nat × Xlat) → List Byte → Mach
  | [], _ => m
  | (_, n, x) :: l, bs => engineWrites (engineWrite m who gid tix x (bs.take n)) who gid tix l (bs.drop n)

/-- Units of the weight buffer that a write covers (R295). -/
def ownUnits (l : List (Nat × Nat)) (off n gid : Nat) : List (Nat × Nat) :=
  (List.range ((off + n - 1) / 64 - off / 64 + 1)).foldl (fun l i => lput l (off / 64 + i) gid) l

/-- After a piece: the next one of the row, or the next row. -/
def Copy.advance (k : Copy) (n : Nat) : Copy :=
  if k.col + n < k.bytes then { k with col := k.col + n } else { k with row := k.row + 1, col := 0 }

/-- Read a piece whole. On a page that is not chunked the engine reads at the home, of a replicated page its die's own
copy (log 98, DESIGN CHOICE: R181 names the points of its writes, and its chunked reads). -/
def pieceRead (m : Mach) (who : Who) (x : Copy) (n : Nat) : Except (Nat × MemErr) (Mach × List Byte) :=
  let a := x.src + x.row * x.sstr + x.col
  if x.ssp = 0 then
    match engineXlat m who .engineR (pageParts (a % 2 ^ 64) n) with
    | .error e => .error e
    | .ok (m, xs) => .ok (m, xs.flatMap (fun p => homeRead m who.die p.2.2.pa p.2.1))
  else
    match x.padOf m x.ssp with
    | none => .ok (m, List.replicate n 0)
    | some g => if padBad m g a n then .error (a, .fault 5 0x0504) else .ok (m, padRead m g a n)

/-- One piece of the copy at the head of a core's engine. -/
def pieceDo (m : Mach) (c : Nat) (x : Copy) : Mach :=
  let who := engineWho m x.gid
  let n := min 512 (x.bytes - x.col)
  let b := x.dst + x.row * x.dstr + x.col
  match pieceRead m who x n with
  | .error (va, e) => engineStop m c x .engineR va e
  | .ok (m, bs) =>
    match x.dsp with
    | 0 =>
      match engineXlat m who .engineW (pageParts (b % 2 ^ 64) n) with
      | .error (va, e) => engineStop m c x .engineW va e
      | .ok (m, xs) =>
        if rangeWaits m who xs then m
        else updHead (engineWrites m who x.gid x.tix xs bs) c (fun k => k.advance n)
    | 3 =>
      let m := m.updCore c (fun k => { k with wbuf := cwrite k.wbuf b bs, wown := ownUnits k.wown b n x.gid })
      updHead m c (fun k => k.advance n)
    | d =>
      match x.padOf m d with
      | none => m
      | some g => updHead (padWriteOut m g b bs) c (fun k => k.advance n)

/-- The copy reaches the engine: it is rejected, its peer is absent, or its release is performed (R181,
R185, R412). -/
def copyStart (m : Mach) (c : Nat) (x : Copy) : Mach :=
  if x.bad (m.recOf x.gid).scratch then updHead m c (fun k => { k with status := 1 })
  else if (x.dsp == 2 || x.ssp == 2) && (setPeer m x.gid x.rank).isNone then
    updHead m c (fun k => { k with status := 3 })
  else
    if relReadyOf m x.gid x.tix 2 then updHead (relPush m c 2) c (fun k => { k with started := true }) else m

/-! The meanings. -/

/-- `cpy` (R180): at 64 copies it holds its thread at the word. -/
def execCpy (g : Guard) (d a fl : Nat) (s : State) : Host.Outcome State Fault Refusal :=
  .next (s.onMach (fun m => escWord m g 6 1 (fun m r t =>
    let off := (t.rd a).toNat
    if off % 64 ≠ 0 then misalign m r t off 64 1
    else if !padOk m t.gid off 64 then padFault m r t t.gid 64 .load off
    else if 64 ≤ (m.core r.core).copies.length then stallAt m r.rid t.tix
    else
      let n := (m.core r.core).copyCtr + 1
      let k := parseCopy (padRead m t.gid off 64) n t.gid t.tix off (r.flag fl)
      let m := m.updGroup t.gid (fun gr => { gr with save := { gr.save with topCopy := n } })
      (m.updCore r.core (fun c => { c with copyCtr := n, copies := insertCopy k c.copies })).updThread
        t.gid t.tix (fun t => t.wrD d (BitVec.ofNat 64 n)))))

/-- COPY_PIECE (R181, R186): the engine takes up the copy at its head, or performs its next piece. -/
def execCopyPiece (core : Nat) (s : State) : Host.Outcome State Fault Refusal :=
  .next (s.onMach (fun m =>
    match (m.core core).copies with
    | [] => m
    | x :: _ =>
      if x.stopped.isSome || x.status != 0 || (m.die (core / 64)).fatal then m
      else if !x.started then copyStart m core x
      else if x.row < x.rows then pieceDo m core x
      else m))

/-- COPY_COMPLETE (R182, R185): the flag word after the last byte; a copy with a nonzero status completes
at once and writes none. -/
def execCopyComplete (core : Nat) (s : State) : Host.Outcome State Fault Refusal :=
  .next (s.onMach (fun m =>
    match (m.core core).copies with
    | [] => m
    | x :: l =>
      let gone (m : Mach) : Mach := freeTl (m.updCore core (fun k => { k with copies := l })) core false
      if x.status ≠ 0 then
        gone (m.updCore core (fun k => { k with copyFail := x.n, copyStat := x.status }))
      else if x.started && x.stopped.isNone && decide (x.rows ≤ x.row) then
        let m := if x.flags = 1 then
            match x.padOf m x.dsp with
            | some g => padWriteOut m g x.flagOff (natBytes 4 x.flagVal.toNat)
            | none => m
          else m
        gone m
      else m))

end Sys2Proof.Machine
end

