-- ==== Sys2Proof/Machine/System.lean ====
section
/-!
DEFINITION. The system class (10): `launch` with the launch record, `svc` and `sleep`.
-/

namespace Sys2Proof.Machine

/-! The launch record (Table 10-1). -/

/-- The record of its 192 bytes. -/
def LaunchRec.ofBytes (b : List Byte) : LaunchRec :=
  { entry := fieldAt b 0 8, args := BitVec.ofNat 64 (fieldAt b 8 8), stackBase := BitVec.ofNat 64 (fieldAt b 16 8)
    done := fieldAt b 24 8, deadline := fieldAt b 32 8, stack := fieldAt b 0x28 4, scratch := fieldAt b 0x2C 4
    regs := fieldAt b 0x30 2, glevel := fieldAt b 0x32 1, clevel := fieldAt b 0x33 1, band := fieldAt b 0x34 1
    idem := fieldAt b 0x35 1 % 2 == 1, tag := wordOf ((b.drop 0x38).take 4)
    widths := (List.range 6).map (fun i => fieldAt b (0x40 + i) 1)
    extents := (List.range 6).map (fun i => fieldAt b (0x48 + 4 * i) 4)
    slots := (List.range 8).map (fun i => wordOf ((b.drop (0x60 + 4 * i)).take 4))
    ranges := (List.range 4).map (fun d => (fieldAt b (0x80 + 8 * d) 4, fieldAt b (0x84 + 8 * d) 4)) }

/-- A field of a record's bytes is out of range, or a reserved one is not zero (reason 1). -/
def recFieldBad (b : List Byte) : Bool :=
  let x := LaunchRec.ofBytes b
  x.entry % 8 != 0 || x.stackBase.toNat % 16 != 0 || x.done % 8 != 0 || x.stack % 16 != 0 ||
    decide (393216 < x.scratch) || decide (x.regs < 16) || decide (256 < x.regs) || x.regs % 8 != 0 ||
    decide (6 < x.glevel) || decide (x.clevel < x.glevel) || decide (6 < x.clevel) || decide (3 < x.band) ||
    decide (1 < fieldAt b 0x35 1) || fieldAt b 0x36 2 != 0 || fieldAt b 0x3C 4 != 0 || fieldAt b 0x46 2 != 0 ||
    (b.drop 0xA0).any (fun y => y != 0) || decide (64 < x.widths.sum) ||
    (x.widths.zip x.extents).any (fun p => if p.1 = 0 then decide (1 < p.2) else decide (2 ^ p.1 < p.2))

/-- A shape that breaks R204 (reason 6). -/
def LaunchRec.shapeBad (x : LaunchRec) : Bool :=
  decide (1024 < x.threads) || decide (4 < x.setSize) || decide (2 ^ 32 - 1 < x.groupCount)

/-- The nonzero ranges cover 0 to G − 1, one after the other, from `at_`: `n` is a bound on the ranges. -/
def rangesCover (rs : List (Nat × Nat)) (g : Nat) : Nat → Nat → Bool
  | 0, at_ => at_ == g
  | n + 1, at_ =>
    at_ == g || (match rs.find? (fun r => r.1 == at_) with
      | some r => rangesCover (rs.filter (fun q => q.1 != at_)) g n (at_ + r.2)
      | none => false)

/-- A die range table that breaks R206 (reason 2). -/
def LaunchRec.rangesBad (x : LaunchRec) (dies : List Nat) : Bool :=
  let nz := x.ranges.filter (fun r => r.2 != 0)
  !nz.isEmpty &&
    ((List.range 4).any (fun d => (x.ranges.getD d (0, 0)).2 != 0 && !dies.contains d) ||
      nz.any (fun r => r.1 % x.setSize != 0 || r.2 % x.setSize != 0) ||
      (nz.map Prod.snd).sum != x.groupCount || !rangesCover nz x.groupCount 4 0)

/-- The ranges used: the device cuts a table of zero counts itself (R207). -/
def LaunchRec.cut (x : LaunchRec) (dies : List Nat) : List (Nat × Nat) :=
  if x.ranges.any (fun r => r.2 != 0) then x.ranges
  else
    let g := x.groupCount
    let n := (g + x.setSize * dies.length - 1) / (x.setSize * dies.length) * x.setSize
    (List.range 4).map (fun d =>
      if dies.contains d then
        let i := (dies.filter (fun e => decide (e < d))).length
        if i * n < g then (i * n, min n (g - i * n)) else (0, 0)
      else (0, 0))

/-- The queue that a handle names for a context (Table 25-1): never its widening queue (R368). -/
def queueOf (m : Mach) (cid handle : Nat) : Option Queue :=
  match m.ctx? cid with
  | none => none
  | some x =>
    m.queues.find? (fun q => q.cid == cid && q.stat != .destroyed && q.num != 1023 && handle == x.num * 65536 + q.num)

/-- The kernels of a queue that hold an entry. -/
def Queue.full (q : Queue) : Bool := decide (q.cap ≤ q.kids.length)

/-- Append a record to a queue, and the pair that `launch` writes (R210). -/
def appendRec (m : Mach) (cid handle : Nat) (b : List Byte) (dies : List Nat) : Mach × Nat :=
  let x := LaunchRec.ofBytes b
  match queueOf m cid handle with
  | none => (m, 2 ^ 63 + 3)
  | some q =>
    if recFieldBad b then (m, 2 ^ 63 + 1)
    else if x.shapeBad then (m, 2 ^ 63 + 6)
    else if x.rangesBad dies then (m, 2 ^ 63 + 2)
    else if Config.regs < x.threads * x.regs then (m, 2 ^ 63 + 5)
    else if q.stat ≠ .active ∨ q.full then (m, 2 ^ 63 + 4)
    else
      let k : Kernel := { kid := m.nextId, cid := cid, qid := q.qid, seq := q.seq, rc := { x with ranges := x.cut dies } }
      let m1 : Mach := { m with nextId := m.nextId + 1, kernels := m.kernels ++ [k] }
      (m1.updQueue q.qid (fun q => { q with seq := q.seq + 1, kids := q.kids ++ [k.kid] }), q.seq)

/-! The meanings. -/

/-- `launch` (R210, R211): the release stalls the word whole, so that the threads of a pack append in ascending `TIX`. -/
def execLaunch (g : Guard) (d a b : Nat) (s : State) : Host.Outcome State Fault Refusal :=
  .next (s.onMach (fun m => relWord m g (fun m r t => escNow m r.core && (t.rdD a).toNat % 64 == 0 && !relReady m t 4)
    (escWord m g 6 1 (fun m r t =>
    let ea := (t.rdD a).toNat
    let who := whoOf m t.gid
    if ea % 64 ≠ 0 then misalign m r t ea 192 1
    else
      let m := relPush m r.core 4
      match engineXlat m who .load (pageParts ea 192) with
      | .error (va, e) => memStop m r t .load va e
      | .ok (m, xs) =>
        let bs := xs.flatMap (fun p => homeRead m who.die p.2.2.pa p.2.1)
        let (m, v) := appendRec m (cidOf m t.gid) (t.rd b).toNat bs who.part
        m.updThread t.gid t.tix (fun t => t.wrD d (BitVec.ofNat 64 v))))))

/-- The next service ticket of a context: 1 to 2^32 − 1. -/
def nextTicket (n : Nat) : Nat := if n < 2 ^ 32 - 1 then n + 1 else 1

/-- `svc` (R212): the release stalls the word whole, so that the threads of a pack post in ascending `TIX`. -/
def execSvc (g : Guard) (n : Nat) (s : State) : Host.Outcome State Fault Refusal :=
  .next (s.onMach (fun m => relWord m g (fun m r t => escNow m r.core && !relReady m t 4) (escWord m g 8 1 (fun m r t =>
      let m := relPush m r.core 4
      let cid := cidOf m t.gid
      let ticket := match m.ctx? cid with | some x => x.ticket | none => 1
      let m := m.updCtx cid (fun x => { x with ticket := nextTicket x.ticket })
      let m := postRec m cid {
        kind := 11, cause := n, asid := asidOf m cid, addr := (t.rdD ra0).toNat, clause := r.hdr
        place := placeOf m t r.idx, timeline := ticket }
      m.updThread t.gid t.tix (fun t => t.leave (.waiting (.svc ticket)) ⟨r.nextHdr, 0⟩)))))

/-- `sleep` (R214). -/
def execSleep (g : Guard) (absT : Bool) (a : Nat) (s : State) : Host.Outcome State Fault Refusal :=
  .next (s.onMach (fun m => escWord m g 7 1 (fun m r t =>
    let v := (t.rdD a).toNat
    let w := if absT then v else min (m.time + v) (2 ^ 64 - 1)
    if w ≤ m.time then m
    else m.updThread t.gid t.tix (fun t => t.leave (.waiting (.sleep w)) ⟨r.nextHdr, 0⟩))))

/-- SLEEP_WAKE (R214): not before its time, while its group is on a core; a stopped one's handler of BAR.BROKEN too
(R243). -/
def execSleepWake (gid tix : Nat) (s : State) : Host.Outcome State Fault Refusal :=
  .next (s.onMach (fun m =>
    match m.thread? gid tix, m.group? gid with
    | some t, some gr =>
      match t.stat with
      | .waiting (.sleep w) =>
        if w ≤ m.time ∧ gr.onCore ∧ gr.stat ≠ .saving then updBoth m gid tix Thread.freed else m
      | _ => m
    | _, _ => m))

end Sys2Proof.Machine
end

