-- ==== Sys2Proof/Machine/Array.lean ====
section
/-!
DEFINITION. The matrix array: the arithmetic of its commands on FA48 tiles (04, 17, 18), tiles and
permutation registers as objects, and the life of a command from issue to completion.
-/

namespace Sys2Proof.Machine

/-! Elements: FA48 containers by 32 × i + j, a zero container unlisted. -/

/-- Element (i, j) as a container. -/
def tget (l : List (Nat × DWord)) (i j : Nat) : Nat := ((lget l (32 * i + j)).getD 0).toNat

/-- Put an element. -/
def tput (l : List (Nat × DWord)) (i j v : Nat) : List (Nat × DWord) :=
  if v = 0 then ldel l (32 * i + j) else lput l (32 * i + j) (BitVec.ofNat 64 v)

/-- The value of an element. -/
def tval (l : List (Nat × DWord)) (i j : Nat) : FVal := val48 (tget l i j)

/-- `round48(a + x * y)`, fused. -/
def fma48 (a x y : FVal) : Nat := round48 (FVal.sum [a, x.mul y])

/-- `round48(a - x * y)`, fused. -/
def fms48 (a x y : FVal) : Nat := round48 (FVal.sum [a, (x.mul y).neg])

/-- A quotient, correctly rounded. -/
def div48 (a b : FVal) : Nat := (divF FA48 .ne a b).1 * 2 ^ 16

/-- A square root, correctly rounded. -/
def sqrt48 (a : FVal) : Nat := (sqrtF FA48 a).1 * 2 ^ 16

/-- The value 1. -/
def one48 : FVal := .fin false 1 0

/-- Swap two whole rows. -/
def swapRows (l : List (Nat × DWord)) (p q : Nat) : List (Nat × DWord) :=
  if p = q then l
  else (List.range 32).foldl (fun l j =>
    let x := tget l p j
    tput (tput l p j (tget l q j)) q j x) l

/-- The rank of a magnitude (R313): every NaN above infinity. -/
def magKey (c : Nat) : Nat := min (c / 2 ^ 16 % 2 ^ 47) (FA48.infCode + 1)

/-- A container without its sign. -/
def mag48 (c : Nat) : Nat := c % 2 ^ 63

/-- The largest magnitude of some containers. -/
def maxMag (l : List Nat) : Nat := l.foldl (fun a c => if magKey a < magKey c then mag48 c else a) (mag48 (l.headD 0))

/-- The smallest magnitude of some containers. -/
def minMag (l : List Nat) : Nat := l.foldl (fun a c => if magKey c < magKey a then mag48 c else a) (mag48 (l.headD 0))

/-- The one rounding of an estimate (R303). -/
def estimate (a b : Nat) : Nat := (divF FP32 .ne (val48 a) (val48 b)).1

/-- The containers of a corner. -/
def corner (l : List (Nat × DWord)) (rows cols : Nat) (p : Nat → Nat → Bool) : List Nat :=
  (List.range rows).flatMap (fun i => (List.range cols).filterMap (fun j => if p i j then some (tget l i j) else none))

/-! Steps of the factorisations (R313 to R317). -/

/-- What a factorisation works on: its tile, the second tile, the permutation register. -/
structure Work where
  a  : List (Nat × DWord)
  b  : List (Nat × DWord)
  pv : Pv

/-- Step `k` of `tlu` (R313); `v` is a resume value. A halt answers the effect and the container. -/
def luStep (w : Work) (n k : Nat) (v : Option Nat) : Except (Nat × Nat) Work :=
  let p := (List.range (n - (k + 1))).foldl (fun p d =>
    let i := k + 1 + d
    if magKey (tget w.a p k) < magKey (tget w.a i k) then i else p) k
  let go (a : List (Nat × DWord)) (p : Nat) : Work :=
    let a := swapRows a k p
    let q := val48 (div48 one48 (tval a k k))
    let a := (List.range (n - (k + 1))).foldl (fun a d =>
      let i := k + 1 + d
      let l := round48 ((tval a i k).mul q)
      (List.range (n - (k + 1))).foldl (fun a e =>
        let j := k + 1 + e
        tput a i j (fms48 (tval a i j) (val48 l) (tval a k j))) (tput a i k l)) a
    { w with a := a, pv := { w.pv with c := k + 1, p := lput w.pv.p k p } }
  match v with
  | some x => if (val48 x).isZero then .error (4, x) else .ok (go (tput w.a k k x) k)
  | none => if (tval w.a p k).isZero then .error (4, tget w.a k k) else .ok (go w.a p)

/-- Whether the test of `tchol` fails: e ≤ 0, or a NaN (R314). -/
def notPd (e : FVal) : Bool := e.isNaN || e.isZero || e.sign

/-- Step `j` of `tchol` (R314). -/
def cholStep (w : Work) (n j : Nat) (v : Option Nat) : Except (Nat × Nat) Work :=
  let e := match v with
    | some x => x
    | none => (List.range j).foldl (fun e k => fms48 (val48 e) (tval w.a j k) (tval w.a j k)) (tget w.a j j)
  if notPd (val48 e) then .error (5, e)
  else
    let d := sqrt48 (val48 e)
    let q := val48 (div48 one48 (val48 d))
    let a := tput w.a j j d
    let a := (List.range (n - (j + 1))).foldl (fun a x =>
      let i := j + 1 + x
      let s := (List.range j).foldl (fun s k => fms48 (val48 s) (tval a i k) (tval a j k)) (tget a i j)
      tput a i j (round48 ((val48 s).mul q))) a
    .ok { w with a := (List.range j).foldl (fun a i => tput a i j 0) a }

/-- Step `k` of `tqr` (R315). -/
def qrStep (w : Work) (m k : Nat) : Work :=
  let rows := (List.range (m - (k + 1))).map (fun d => k + 1 + d)
  let x := tval w.a k k
  let s := rows.foldl (fun s i => fma48 (val48 s) (tval w.a i k) (tval w.a i k)) 0
  if s = 0 then { w with b := tput w.b 0 k 0 }
  else
    let nrm := sqrt48 (val48 (fma48 (val48 s) x x))
    let bt := if x.sign then nrm else round48 (val48 nrm).neg
    let bv := val48 bt
    let t := div48 (val48 (round48 (FVal.sum [bv, x.neg]))) bv
    let g := val48 (div48 one48 (val48 (round48 (FVal.sum [x, bv.neg]))))
    let a := rows.foldl (fun a i => tput a i k (round48 ((tval a i k).mul g))) w.a
    let a := tput a k k bt
    let a := (List.range (31 - k)).foldl (fun a d =>
      let j := k + 1 + d
      let u := rows.foldl (fun u i => fma48 (val48 u) (tval a i k) (tval a i j)) (tget a k j)
      let u := val48 (round48 ((val48 t).mul (val48 u)))
      let a := tput a k j (round48 (FVal.sum [tval a k j, u.neg]))
      rows.foldl (fun a i => tput a i j (fms48 (tval a i j) (tval a i k) u)) a) a
    { w with a := a, b := tput w.b 0 k t }

/-- Step `s` of `ttrsm` (R316). -/
def trsmStep (w : Work) (n k : Nat) (tr unit up : Bool) (s : Nat) (v : Option Nat) : Except (Nat × Nat) Work :=
  let fwd := up == tr
  let i := if fwd then s else n - 1 - s
  let solved := if fwd then List.range i else (List.range (n - 1 - i)).map (fun d => i + 1 + d)
  let go (b : List (Nat × DWord)) : Work :=
    let e (i h : Nat) : FVal := if tr then tval b h i else tval b i h
    let a := (List.range k).foldl (fun a col =>
      let x := solved.foldl (fun x h => fms48 (val48 x) (e i h) (tval a h col)) (tget a i col)
      tput a i col (if unit then x else div48 (val48 x) (e i i))) w.a
    { w with a := a, b := b }
  if unit then .ok (go w.b)
  else match v with
    | some x => if (val48 x).isZero then .error (4, x) else .ok (go (tput w.b i i x))
    | none => if (tval w.b i i).isZero then .error (4, tget w.b i i) else .ok (go w.b)

/-- Step `k` of `pvap` (R317). -/
def pvapStep (w : Work) (inv : Bool) (k : Nat) : Work :=
  let e := if inv then w.pv.c - 1 - k else k
  { w with a := swapRows w.a e ((lget w.pv.p e).getD 0) }

/-- The steps of a command. -/
def TOp.steps (op : TOp) (pv : Pv) : Nat :=
  match op with
  | .lu _ n => n
  | .chol n => n
  | .qr _ _ n => n
  | .trsm _ n _ _ _ _ => n
  | .pvap _ _ => pv.c
  | _ => 0

/-- One step of a factorisation. -/
def TOp.step (op : TOp) (w : Work) (k : Nat) (v : Option Nat) : Except (Nat × Nat) Work :=
  match op with
  | .lu _ n => luStep w n k v
  | .chol n => cholStep w n k v
  | .qr _ m _ => .ok (qrStep w m k)
  | .trsm _ n c tr unit up => trsmStep w n c tr unit up k v
  | .pvap _ inv => .ok (pvapStep w inv k)
  | _ => .ok w

/-- The maximum that a command takes when it begins (R303). -/
def TOp.maxIn (op : TOp) (a : List (Nat × DWord)) : Nat :=
  match op with
  | .lu _ n => maxMag (corner a n n (fun _ _ => true))
  | .trsm _ n k _ _ _ => maxMag (corner a n k (fun _ _ => true))
  | _ => 0

/-- The estimate of the result pair (R303). -/
def TOp.estimateOf (op : TOp) (a : List (Nat × DWord)) (mx : Nat) : Nat :=
  match op with
  | .lu _ n => estimate (maxMag (corner a n n (fun i j => decide (i ≤ j)))) mx
  | .chol n => let d := corner a n n (fun i j => i == j); estimate (minMag d) (maxMag d)
  | .qr _ _ n => let d := corner a n n (fun i j => i == j); estimate (minMag d) (maxMag d)
  | .trsm _ n k _ _ _ => estimate (maxMag (corner a n k (fun _ _ => true))) mx
  | _ => 0

/-! The multiply (R88, R89, R291, R292). -/

/-- Element `i` of a packed array in memory (R75). -/
def packedMem (l : List Host.Cell) (base bits i : Nat) : Nat :=
  if bits < 8 then (cget l (base + i / 2)).toNat / 2 ^ (4 * (i % 2)) % 16
  else bytesNat (cread l (base + i * (bits / 8)) (bits / 8))

/-- The block of Table 17-5. -/
structure Mma where
  tile : Nat
  ow : Bool
  aslot : Nat
  bslot : Nat
  m : Nat
  n : Nat
  k : Nat
  aoff : Nat
  astr : Nat
  asc : Nat
  boff : Nat
  bsc : Nat
  zero : Bool

/-- The block of its 64 bytes; `zero` says that every bit that must be zero is. -/
def Mma.ofBytes (b : List Byte) : Mma :=
  { tile := fieldAt b 0 1, ow := fieldAt b 1 1 == 1, aslot := fieldAt b 2 1, bslot := fieldAt b 3 1
    m := fieldAt b 4 2, n := fieldAt b 6 2, k := fieldAt b 8 4, aoff := fieldAt b 12 4, astr := fieldAt b 16 4
    asc := fieldAt b 20 4, boff := fieldAt b 24 4, bsc := fieldAt b 28 4
    zero := decide (fieldAt b 1 1 < 2) && (b.drop 32).all (fun x => x == 0) }

/-- Scale size of a slot word in bytes; 0 for none. -/
def scaleSize (w : Nat) : Nat := w / 256 % 256

/-- The block field of a slot word. -/
def blockOf (w : Nat) : Nat := w / 65536 % 256

/-- Matrix A admits an element format (Table 4-8). -/
def Elem.inA : Elem → Bool
  | .fa48 | .q4t => false
  | _ => true

/-- Matrix B admits an element format (Table 4-8). -/
def Elem.inB : Elem → Bool
  | .fa48 => false
  | _ => true

/-- Scales of an operand: how many bytes they take, from where, inside what. -/
def scalesOk (w off n limit : Nat) : Bool :=
  let s := scaleSize w
  s == 0 || (off % s == 0 && decide (off + n * s ≤ limit))

/-- A block within the limits of R291. -/
def Mma.ok (b : Mma) (wa wb scratch : Nat) : Bool :=
  match slotElem wa, slotElem wb with
  | some ea, some eb =>
    let row := b.k * ea.bits / 8
    b.zero && decide (b.tile < 4) && decide (b.aslot < 8) && decide (b.bslot < 8) &&
      decide (0 < b.m) && decide (b.m ≤ 32) && decide (0 < b.n) && decide (b.n ≤ 32) &&
      b.k % 32 == 0 && decide (32 ≤ b.k) && decide (b.k ≤ 8192) && ea.inA && eb.inB &&
      b.aoff % 8 == 0 && b.astr % 8 == 0 && decide (row ≤ b.astr) &&
      decide (b.aoff + (b.m - 1) * b.astr + row ≤ scratch) &&
      b.boff % 64 == 0 && decide (b.boff + b.k / 32 * (128 * eb.bits) ≤ Config.weights) &&
      scalesOk wa b.asc (b.m * ((b.k + 2 ^ blockOf wa - 1) / 2 ^ blockOf wa)) scratch && scalesOk wb b.bsc b.n scratch
  | _, _ => false

/-- The value of a scale (R74). -/
def scaleVal (w : Nat) (l : List Host.Cell) (base i : Nat) : FVal :=
  match scaleSize w with
  | 1 =>
    let e := (cget l (base + i)).toNat
    if e = 255 then .nan false else .fin false 1 ((e : Int) - 127)
  | 2 => decodeF FP16 (bytesNat (cread l (base + 2 * i) 2))
  | _ => one48

/-- The k-group (R88). -/
def kGroup (a b : Nat) : Nat :=
  match max a b with
  | 4 => 16
  | 8 => 8
  | 16 => 4
  | _ => 1

/-- One element of a multiply (R89). -/
def mmaElem (b : Mma) (wa wb : Nat) (ea eb : Elem) (code : List Nat) (pad wbuf : List Host.Cell) (i j old : Nat) : Nat :=
  let nb := (b.k + 2 ^ blockOf wa - 1) / 2 ^ blockOf wa
  let term (k : Nat) : FVal :=
    let x := decodeE ea [] (packedMem pad (b.aoff + i * b.astr) ea.bits k)
    let s := scaleVal wa pad b.asc (i * nb + k / 2 ^ blockOf wa)
    let y := decodeE eb code (packedMem wbuf (b.boff + k / 32 * (128 * eb.bits)) eb.bits (j * 32 + k % 32))
    (x.mul s).mul y
  let g := kGroup ea.bits eb.bits
  let t := (List.range (b.k / g)).foldl (fun t q =>
    let s := FVal.sum ((List.range g).map (fun k => term (q * g + k)))
    round48 (FVal.sum [val48 t, val48 (round48 s)])) 0
  let u := round48 ((val48 t).mul (scaleVal wb pad b.bsc j))
  if b.ow then u else round48 (FVal.sum [val48 old, val48 u])

/-- A multiply on a tile. -/
def mmaTile (b : Mma) (wa wb : Nat) (code : List Nat) (pad wbuf : List Host.Cell) (el : List (Nat × DWord)) :
    List (Nat × DWord) :=
  match slotElem wa, slotElem wb with
  | some ea, some eb =>
    (List.range b.m).foldl (fun el i =>
      (List.range b.n).foldl (fun el j =>
        tput el i j (mmaElem b wa wb ea eb code pad wbuf i j (tget el i j))) el) el
  | _, _ => el

/-! Loads and drains (R288, R289). -/

/-- A tile loaded from scratchpad. -/
def loadTile (pad : List Host.Cell) (off stride : Nat) (e : Elem) (code : List Nat) : List (Nat × DWord) :=
  (List.range 32).foldl (fun l i =>
    (List.range 32).foldl (fun l j =>
      tput l i j (round48 (decodeE e code (packedMem pad (off + i * stride) e.bits j)))) l) []

/-- Codes packed into bytes. -/
def packCodes (bits : Nat) (cs : List Nat) : List Byte :=
  if bits < 8 then
    (List.range (cs.length / 2)).map (fun i => BitVec.ofNat 8 (cs.getD (2 * i) 0 + 16 * cs.getD (2 * i + 1) 0))
  else cs.flatMap (fun c => natBytes (bits / 8) c)

/-- The bytes of row `i` of a drained tile. -/
def drainRow (el : List (Nat × DWord)) (e : Elem) (i : Nat) : List Byte :=
  packCodes e.bits ((List.range 32).map (fun j => (toElem e (tval el i j)).1))

/-! Commands (R282 to R285). -/

/-- The second tile of an operation. -/
def TOp.second : TOp → Option Nat
  | .qr t _ _ => some t
  | .trsm t _ _ _ _ _ => some t
  | _ => none

/-- The same command of a core. -/
def TCmd.same (x y : TCmd) : Bool := x.gid == y.gid && x.n == y.n

/-- The order of commands on one core (R283): by timeline number; of two groups' commands with one number, which a
restore brings together, by group. -/
def TCmd.before (x y : TCmd) : Bool := decide (x.n < y.n) || (x.n == y.n && decide (x.gid < y.gid))

/-- A group is being saved. -/
def savingGid (m : Mach) (gid : Nat) : Bool := match m.group? gid with | some g => g.stat == .saving | none => false

/-- A factorisation that a save has stopped at a step boundary (R281, R311). -/
def frozen (m : Mach) (x : TCmd) : Bool := x.op.factor && savingGid m x.gid

/-- The commands of a core, in order, that do not go on now: the halted and the frozen, each that one of these keeps
its tile or register from, and a `tcode` behind a bank that one of these pins. -/
def restingCmds (m : Mach) (l : List TCmd) : List TCmd :=
  l.foldl (fun st y =>
    if y.halt.isSome || frozen m y || st.any (fun z => y.shares z || (y.tiles.isEmpty && (z.bank.isSome || z.tiles.isEmpty))) then
      st ++ [y]
    else st) []

/-- A factorisation that has begun and waits for its turn on the array: resumed, or restored (R310, R311). -/
def TCmd.returning (x : TCmd) : Bool := x.begun && !x.holds

/-- Whether a command keeps another from the array (R283, R310): one that holds it, one that takes it at the next
boundary, and an earlier one, but one that is halted or frozen. A save does not wait for what rests (R281). -/
def keepsArray (m : Mach) (k : Core) (y x : TCmd) : Bool :=
  x.op.array && y.op.array && y.halt.isNone && !frozen m y &&
    (y.begun || (y.before x && !(savingGid m x.gid && (restingCmds m k.tcmds).contains y)))

/-- A command may begin (R283, R293, R305, R310): every earlier command on its tiles and its register has
completed, no other keeps the array from it, and no captured bank is overwritten. -/
def mayBegin (m : Mach) (k : Core) (x : TCmd) : Bool :=
  k.tcmds.all (fun y => x.same y ||
    ((x.before y || !x.shares y) && !keepsArray m k y x &&
      (match x.op, y.op with
        | .code _, .code _ => x.before y
        | .code _, _ => y.bank != some (!k.codeCur)
        | _, _ => true)))

/-- Whether a group may not use one of these tiles or registers (R278, R305). -/
def foreign (k : Core) (gid : Nat) (tiles : List Nat) (pv : Option Nat) : Bool :=
  tiles.any (fun i => match lget k.tiles i with | some t => t.gid != gid | none => false) ||
    (match pv with
      | some i => (match lget k.pvs i with | some p => p.gid != gid | none => false)
      | none => false)

/-- Claim free tiles and a free register (R278, R305). -/
def claim (k : Core) (gid : Nat) (tiles : List Nat) (pv : Option Nat) : Core :=
  { k with
    tiles := tiles.foldl (fun l i => if (lget l i).isSome then l else lput l i { gid := gid }) k.tiles
    pvs := match pv with
      | some i => if (lget k.pvs i).isSome then k.pvs else lput k.pvs i { gid := gid }
      | none => k.pvs }

/-- The even word of a result pair (Table 18-4). -/
def resultWord (x : TCmd) (st : Nat) : Word :=
  BitVec.ofNat 32 (st + 256 * x.step + (if x.resumed then 65536 else 0))

/-- Write a result pair: to the registers and to the checkpoint (R304). -/
def putResult (m : Mach) (x : TCmd) (st est : Nat) : Mach :=
  match x.res with
  | none => m
  | some b => updBoth m x.gid x.tix (fun t => (t.wr b (resultWord x st)).wr (b + 1) (BitVec.ofNat 32 est))

/-- A command ends with a status (R285). -/
def finishCmd (m : Mach) (c : Nat) (x : TCmd) (st est : Nat) : Mach :=
  let m := m.updCore c (fun k => { k with
    tcmds := k.tcmds.filter (fun y => !x.same y)
    tileFail := if st = 0 then k.tileFail else x.n
    tileStat := if st = 0 then k.tileStat else st })
  freeTl (putResult m x st est) c true

/-- Issue a command (R282): the next number of the tile timeline, to pair `d`; a breach of its limits is
status 1 and a foreign tile status 4, at issue. -/
def issueCmd (m : Mach) (r : Running) (t : Thread) (d : Nat) (ok : Bool) (x : TCmd) : Mach :=
  let k := m.core r.core
  let n := k.tileCtr + 1
  let x : TCmd := { x with n := n, gid := t.gid, tix := t.tix, hdr := r.hdr }
  let m := m.updThread t.gid t.tix (fun t => t.wrD d (BitVec.ofNat 64 n))
  let m := m.updCore r.core (fun k => { k with tileCtr := n })
  let m := m.updGroup t.gid (fun g => { g with save := { g.save with topTile := n } })
  if !ok then finishCmd m r.core x 1 0
  else if foreign k t.gid x.tiles x.op.pv? then finishCmd m r.core x 4 0
  else m.updCore r.core (fun k => { claim k t.gid x.tiles x.op.pv? with tcmds := k.tcmds ++ [x] })

/-! Drain-adds reach a tile, and waiters are served (R298, R299). -/

/-- Serve the waiters of a tile in order. -/
def serveTile (c i : Nat) : List Nat → Mach → Mach
  | [], m => m
  | w :: ws, m =>
    match lget (m.core c).tiles i with
    | none => m
    | some tl =>
      let put (m : Mach) (n : Nat) : Mach := m.updCore c (fun k => { k with
        tiles := lput k.tiles i { tl with inbound := tl.inbound - n, waiters := ws } })
      match m.thread? tl.gid w with
      | none => serveTile c i ws (put m 0)
      | some t =>
        match t.stat with
        | .waiting (.tile j n d) =>
          if j ≠ i then serveTile c i ws (put m 0)
          else if n ≤ tl.inbound then
            serveTile c i ws (updBoth (put m n) tl.gid w (fun t =>
              (t.wr d (BitVec.ofNat 32 (tl.inbound - n))).freed))
          else m
        | _ => serveTile c i ws (put m 0)

/-- Serve a tile. -/
def serve (m : Mach) (c i : Nat) : Mach :=
  match lget (m.core c).tiles i with
  | none => m
  | some tl => serveTile c i tl.waiters m

/-- Add a whole arriving tile (R90, R298). -/
def addTile (a x : List (Nat × DWord)) : List (Nat × DWord) :=
  (List.range 32).foldl (fun a i =>
    (List.range 32).foldl (fun a j => tput a i j (round48 (FVal.sum [tval a i j, tval x i j]))) a) a

/-- A command that has begun on a tile and has not ended. -/
def tileBegun (k : Core) (i : Nat) : Bool := k.tcmds.any (fun y => y.begun && y.tiles.contains i)

/-- An arrival at a tile: it waits for a command that has begun, and for a full count. -/
def applyAdd (m : Mach) (c i : Nat) (x : List (Nat × DWord)) : Option Mach :=
  match lget (m.core c).tiles i with
  | none => none
  | some tl =>
    if tileBegun (m.core c) i || decide (2 ^ 32 ≤ tl.inbound + 1) then none
    else some (serve (m.updCore c (fun k => { k with
      tiles := lput k.tiles i { tl with el := addTile tl.el x, inbound := tl.inbound + 1 } })) c i)

/-! Halts (R285, R307 to R309). -/

/-- The name of a halt: the command's number and the step it has stopped at. A command may halt again at a
later step, and a token of the earlier halt, which a squash has brought back, is not that halt's (R341). -/
def TCmd.haltName (x : TCmd) : Nat := x.n * 64 + x.step

/-- The halt of a name has been raised in its thread: it is pending, parked on, or answered by a handler. -/
def Thread.told (t : Thread) (n : Nat) : Bool :=
  (match t.pend with | some x => x.cmd == some n | none => false) ||
    (match t.stat with | .parked (.effect x) => x.cmd == some n | _ => false) || t.halts.any (fun h => h.2 == n)

/-- A halted command of a thread that it has not been told of. -/
def haltedFor (m : Mach) (t : Thread) (p : TCmd → Bool) : Option TCmd :=
  (m.core (m.coreOf t.gid)).tcmds.find? (fun x =>
    x.gid == t.gid && x.tix == t.tix && x.halt.isSome && p x && !t.told x.haltName)

/-- Raise a halt in the issuing thread at a delivery point (Table 18-5): an effect, or MACHINE for what an
uncorrectable soft error has stopped (R411). -/
def haltRaise (m : Mach) (t : Thread) (x : TCmd) (p : Pos) : Mach :=
  match x.halt with
  | none => m
  | some (0, _) => superFault m t 5 0x0504 0 0 0 p
  | some (eff, c) => raiseEff m t {
      eff := eff, a0 := BitVec.ofNat 64 x.n
      a1 := BitVec.ofNat 64 (x.tile + x.step * 256 + x.opc * 65536), a2 := BitVec.ofNat 64 c
      a3 := BitVec.ofNat 64 x.hdr, save := p, word := p, cmd := some x.haltName }

/-- Change a command. -/
def updCmd (m : Mach) (c : Nat) (x : TCmd) (f : TCmd → TCmd) : Mach :=
  m.updCore c (fun k => { k with tcmds := k.tcmds.map (fun y => if x.same y then f y else y) })

/-- A command that has just halted is raised in a thread that waits for its number (R285). -/
def haltNotify (m : Mach) (x : TCmd) : Mach :=
  match m.thread? x.gid x.tix with
  | none => m
  | some t =>
    match t.stat with
    | .waiting (.tileTl n p) => if x.n ≤ n then haltRaise m t x p else m
    | _ => m

/-- Whether what a command reads has an uncorrectable soft error (R411). -/
def cmdBad (m : Mach) (c : Nat) (x : TCmd) : Bool :=
  let tile (i : Nat) : Bool := m.bad.contains (.tile x.gid i)
  let rows (off stride count bytes : Nat) : Bool := (List.range count).any (fun i => padBad m x.gid (off + i * stride) bytes)
  (x.bank.isSome && m.bad.contains (.codeTab c)) ||
    (match x.op with
      | .zero _ => false
      | .ld off stride w _ =>
        (match slotElem w with | some e => rows off stride 32 (4 * e.bits) | none => false)
      | .mma blk sa sb _ =>
        let b := Mma.ofBytes blk
        (match slotElem sa.toNat, slotElem sb.toNat with
          | some ea, some eb =>
            x.tiles.any tile || rows b.aoff b.astr b.m (b.k * ea.bits / 8) ||
              padBad m x.gid b.asc (b.m * ((b.k + 2 ^ blockOf sa.toNat - 1) / 2 ^ blockOf sa.toNat) * scaleSize sa.toNat) ||
              padBad m x.gid b.bsc (b.n * scaleSize sb.toNat) ||
              m.bad.any (fun s => match s with
                | .wbuf g o => g == x.gid && decide (b.boff ≤ o) && decide (o < b.boff + b.k / 32 * (128 * eb.bits))
                | _ => false)
          | _, _ => false)
      | _ => x.tiles.any tile)

/-- A command halts, and gives up the array (R307, R310); one of a group that ends faulted ends with status 2 and
raises nothing (R312). -/
def haltCmd (m : Mach) (c : Nat) (x : TCmd) (h : Nat × Nat) : Mach :=
  if endsFaulted m x.gid then finishCmd m c x 2 0
  else haltNotify (updCmd m c x (fun y => { y with halt := some h, val := none, holds := false })) { x with halt := some h }

/-- A command that meets an uncorrectable soft error: MACHINE waits for its delivery point. -/
def softHalt (m : Mach) (c : Nat) (x : TCmd) : Mach := haltCmd m c x (0, 0)

/-- Forget the error of a tile that is written whole. -/
def tileGood (m : Mach) (gid i : Nat) : Mach := { m with bad := m.bad.filter (fun s => s != .tile gid i) }

/-- What a wait meets again after a squash has brought it back: a stopped copy of its thread (R186), and a halted
command that it has not been told of (R285, R307). -/
def waitMeets (m : Mach) (t : Thread) : Mach :=
  match t.stat with
  | .waiting (.copyTl n _) =>
    (match (m.core (m.coreOf t.gid)).copies.find? (fun x =>
        x.gid == t.gid && x.tix == t.tix && x.stopped.isSome && decide (x.n ≤ n)) with
      | some x => parkWaiter m (m.coreOf t.gid) x
      | none => m)
  | .waiting (.tileTl n p) =>
    (match haltedFor m t (fun x => decide (x.n ≤ n)) with
      | some x => haltRaise m t x p
      | none => m)
  | _ => m

/-- Resume the halt of a name with a value (R308), on the core or in the save record: one that is settled stays as it
is. -/
def resumeCmd (m : Mach) (gid n v : Nat) : Mach :=
  let fix (l : List TCmd) : List TCmd := l.map (fun x =>
    if x.gid == gid && x.haltName == n && x.halt.isSome then
      { x with halt := none, val := some (v / 65536 * 65536), resumed := true } else x)
  (m.updCore (m.coreOf gid) (fun k => { k with tcmds := fix k.tcmds })).updGroup gid (fun g => { g with
    save := { g.save with tcmds := fix g.save.tcmds } })

/-- A halted command of a name. -/
def TCmd.haltIs (gid n : Nat) (x : TCmd) : Bool := x.gid == gid && x.haltName == n && x.halt.isSome

/-- A table of tiles with a tile's step counter. -/
def stepTile (l : List (Nat × Tile)) (i n : Nat) : List (Nat × Tile) :=
  match lget l i with
  | some tl => lput l i { tl with step := n }
  | none => l

/-- Drop the halt of a name (R309), on the core or in the save record: its command completes with status 2, and its
tile keeps the counter. -/
def dropCmd (m : Mach) (gid n : Nat) : Mach :=
  let c := m.coreOf gid
  match (m.core c).tcmds.find? (TCmd.haltIs gid n) with
  | some x => finishCmd (m.updCore c (fun k => { k with tiles := stepTile k.tiles x.tile x.step })) c x 2 0
  | none =>
    match (m.group? gid).bind (fun g => g.save.tcmds.find? (TCmd.haltIs gid n)) with
    | some x => (putResult m x 2 0).updGroup gid (fun g => { g with save := { g.save with
        tcmds := g.save.tcmds.filter (fun y => !x.same y), tiles := stepTile g.save.tiles x.tile x.step } })
    | none => m

end Sys2Proof.Machine
end

