-- ==== Sys2Proof/Machine/Int.lean ====
section
/-!
DEFINITION. The integer and scalar class (05): arithmetic, bit fields, moves, special registers,
random numbers, and the paired words of integer operations (R63 to R65).
-/

namespace Sys2Proof.Machine

/-! Values. -/

/-- Truncating signed division (R102). -/
def divS (a b : Word) : Word :=
  if b = 0 then BitVec.allOnes 32 else BitVec.ofInt 32 (a.toInt.tdiv b.toInt)

/-- Signed remainder, with the sign of the dividend (R102). -/
def remS (a b : Word) : Word := if b = 0 then a else BitVec.ofInt 32 (a.toInt.tmod b.toInt)

/-- Unsigned division (R102). -/
def divU (a b : Word) : Word := if b = 0 then BitVec.allOnes 32 else a.udiv b

/-- Unsigned remainder (R102). -/
def remU (a b : Word) : Word := if b = 0 then a else a.umod b

/-- The high word of a signed product (Table 5-4). -/
def mulHi (a b : Word) : Word := BitVec.ofInt 32 (a.toInt * b.toInt / 2 ^ 32)

/-- The high word of an unsigned product. -/
def mulHiU (a b : Word) : Word := BitVec.ofNat 32 (a.toNat * b.toNat / 2 ^ 32)

/-- Shift left by a count modulo the width. -/
def shlN {n : Nat} (a b : BitVec n) : BitVec n := a <<< (b.toNat % n)

/-- Shift right with zeros in. -/
def shrN {n : Nat} (a b : BitVec n) : BitVec n := a >>> (b.toNat % n)

/-- Shift right with copies of the sign in. -/
def sraN {n : Nat} (a b : BitVec n) : BitVec n := a.sshiftRight (b.toNat % n)

/-- Rotate left. -/
def rolN (a b : Word) : Word := a.rotateLeft (b.toNat % 32)

/-- The smaller by sign. -/
def minS {n : Nat} (a b : BitVec n) : BitVec n := if b.slt a then b else a

/-- The larger by sign. -/
def maxS {n : Nat} (a b : BitVec n) : BitVec n := if a.slt b then b else a

/-- The smaller unsigned. -/
def minU {n : Nat} (a b : BitVec n) : BitVec n := if b.ult a then b else a

/-- The larger unsigned. -/
def maxU {n : Nat} (a b : BitVec n) : BitVec n := if a.ult b then b else a

/-- Leading zeros. -/
def clzW (a : Word) : Word := if a = 0 then 32 else BitVec.ofNat 32 (31 - Nat.log2 a.toNat)

/-- One bits. -/
def popcW (a : Word) : Word := BitVec.ofNat 32 ((List.range 32).countP (fun i => a.getLsbD i))

/-- Bits inside the word of a bit field (R104). -/
def fieldLen (b c : Word) : Nat := min (b.toNat % 32 + c.toNat % 64) 32 - b.toNat % 32

/-- `bfxu` (R104). -/
def bfxuW (a b c : Word) : Word := BitVec.ofNat 32 (a.toNat / 2 ^ (b.toNat % 32) % 2 ^ fieldLen b c)

/-- `bfx` (R104). -/
def bfxW (a b c : Word) : Word :=
  let n := fieldLen b c
  let v := a.toNat / 2 ^ (b.toNat % 32) % 2 ^ n
  if n = 0 then 0
  else if v < 2 ^ (n - 1) then BitVec.ofNat 32 v else BitVec.ofInt 32 ((v : Int) - (2 ^ n : Nat))

/-- `bfi` (R104). -/
def bfiW (d a b c : Word) : Word :=
  let m : Word := BitVec.ofNat 32 ((2 ^ fieldLen b c - 1) * 2 ^ (b.toNat % 32))
  (d &&& ~~~m) ||| ((a <<< (b.toNat % 32)) &&& m)

/-! Random numbers (R113). -/

/-- One round of Philox 4×32 on a counter and key. -/
def philoxRound (k0 k1 c0 c1 c2 c3 : Word) : Word × Word × Word × Word :=
  let pa := 0xD2511F53 * c0.toNat
  let pb := 0xCD9E8D57 * c2.toNat
  (BitVec.ofNat 32 (pb / 2 ^ 32) ^^^ c1 ^^^ k0, BitVec.ofNat 32 pb,
    BitVec.ofNat 32 (pa / 2 ^ 32) ^^^ c3 ^^^ k1, BitVec.ofNat 32 pa)

/-- Rounds of Philox, the key bumped between them. -/
def philox : Nat → Word → Word → Word × Word × Word × Word → Word × Word × Word × Word
  | 0, _, _, c => c
  | n + 1, k0, k1, (c0, c1, c2, c3) =>
    philox n (k0 + 0x9E3779B9) (k1 + 0xBB67AE85) (philoxRound k0 k1 c0 c1 c2 c3)

/-- The word that `rand` draws from a key, a counter and a work identifier. -/
def randWord (key ctr : DWord) (wid : Nat) : Word :=
  let b := ctr.toNat / 4
  let r := philox 10 (loW key) (hiW key)
    (BitVec.ofNat 32 b, BitVec.ofNat 32 (ctr.toNat / 2 ^ 34), BitVec.ofNat 32 wid,
      BitVec.ofNat 32 (wid / 2 ^ 32))
  match ctr.toNat % 4 with
  | 0 => r.1
  | 1 => r.2.1
  | 2 => r.2.2.1
  | _ => r.2.2.2

/-! Compact operations and paired words (R63 to R65). -/

/-- The result of a compact operation and the flags it sets (R64). -/
def compactVal (op : CompactOp) (a b : Word) : Word × Nat :=
  let half (f : Nat → Nat → Nat × Nat) : Word × Nat :=
    let lo := f (a.toNat % 65536) (b.toNat % 65536)
    let hi := f (a.toNat / 65536) (b.toNat / 65536)
    (BitVec.ofNat 32 (lo.1 + 65536 * hi.1), lo.2 ||| hi.2)
  let fp (r : Nat × Nat) : Word × Nat := (BitVec.ofNat 32 r.1, r.2)
  match op with
  | .add => (a + b, 0)
  | .sub => (a - b, 0)
  | .and => (a &&& b, 0)
  | .or => (a ||| b, 0)
  | .xor => (a ^^^ b, 0)
  | .shl => (shlN a b, 0)
  | .shr => (shrN a b, 0)
  | .mov => (a, 0)
  | .min => (minS a b, 0)
  | .max => (maxS a b, 0)
  | .fadd => fp (addF FP32 .ne a.toNat b.toNat)
  | .fmul => fp (mulF FP32 .ne a.toNat b.toNat)
  | .fmin => fp (minMaxF FP32 false a.toNat b.toNat)
  | .fmax => fp (minMaxF FP32 true a.toNat b.toNat)
  | .hadd2 => half (addF FP16 .ne)
  | .hmul2 => half (mulF FP16 .ne)

/-- A paired word for one thread: all sources are read, both destinations written, and the first
operation that traps is reported (R65). -/
def pairedThread (r : Running) (op : CompactOp) (x : Paired) (t : Thread) : Thread :=
  let u := compactVal op (t.rd x.a) (t.rd x.b)
  let v := compactVal x.snd.op (t.rd x.snd.a) (t.rd x.snd.b)
  let t' := ((t.wr x.d u.1).wr x.snd.d v.1).setFlags (u.2 ||| v.2)
  if t.traps u.2 ≠ 0 then Thread.arithTrap r t' (.w x.d) 0 u.1 u.2
  else Thread.arithTrap r t' (.w x.snd.d) 1 v.1 v.2

/-- A paired word: it has no predicate (R65). -/
def paired (m : Mach) (op : CompactOp) (x : Paired) : Mach :=
  match m.curRun with
  | none => m
  | some r => vecWord m ⟨false, 0⟩ (pairedThread r op x)

/-- A predicate combination (R107). -/
def predOp (m : Mach) (x : P3) (f : Bool → Bool → Bool) : Mach :=
  vecWord m x.g (fun t => t.wrP x.d (f (t.rdP x.a != x.na) (t.rdP x.b != x.nb)))

/-- A bit-field word. -/
def bitField (m : Mach) (x : Bf) (f : Word → Word → Word → Word → Word) : Mach :=
  let k := curK m
  setW m x.g x.u x.d (fun t => f (srcW k t x.d) (srcW k t x.a) (srcW k t x.b) (srcW k t x.c))

/-! The meanings. -/

/-- `nop` (R109). -/
def execNop (_g : Guard) (s : State) : Host.Outcome State Fault Refusal := .next s

/-- `add` (Table 5-4). -/
def execAdd (x : R3) (s : State) : Host.Outcome State Fault Refusal :=
  .next (s.onMach (fun m => alu3 m x (· + ·) (· + ·)))

/-- `sub` (Table 5-4). -/
def execSub (x : R3) (s : State) : Host.Outcome State Fault Refusal :=
  .next (s.onMach (fun m => alu3 m x (· - ·) (· - ·)))

/-- `mul` (Table 5-4). -/
def execMul (x : R3) (s : State) : Host.Outcome State Fault Refusal :=
  .next (s.onMach (fun m => alu3 m x (· * ·) (fun a _ => a)))

/-- `mulh` (Table 5-4). -/
def execMulh (x : R3) (s : State) : Host.Outcome State Fault Refusal :=
  .next (s.onMach (fun m => alu3 m x mulHi (fun a _ => a)))

/-- `mulhu` (Table 5-4). -/
def execMulhu (x : R3) (s : State) : Host.Outcome State Fault Refusal :=
  .next (s.onMach (fun m => alu3 m x mulHiU (fun a _ => a)))

/-- `mad` (R103). -/
def execMad (x : R4) (s : State) : Host.Outcome State Fault Refusal :=
  .next (s.onMach (fun m => let k := curK m; setW m x.g x.u x.d (fun t => srcW k t x.a * srcW k t x.b + t.rd x.c)))

/-- `div` (R102). -/
def execDiv (x : R3) (s : State) : Host.Outcome State Fault Refusal :=
  .next (s.onMach (fun m => alu3 m x divS (fun a _ => a)))

/-- `divu` (R102). -/
def execDivu (x : R3) (s : State) : Host.Outcome State Fault Refusal :=
  .next (s.onMach (fun m => alu3 m x divU (fun a _ => a)))

/-- `rem` (R102). -/
def execRem (x : R3) (s : State) : Host.Outcome State Fault Refusal :=
  .next (s.onMach (fun m => alu3 m x remS (fun a _ => a)))

/-- `remu` (R102). -/
def execRemu (x : R3) (s : State) : Host.Outcome State Fault Refusal :=
  .next (s.onMach (fun m => alu3 m x remU (fun a _ => a)))

/-- `and` (Table 5-4). -/
def execAnd (x : R3) (s : State) : Host.Outcome State Fault Refusal :=
  .next (s.onMach (fun m => alu3 m x (· &&& ·) (· &&& ·)))

/-- `or` (Table 5-4). -/
def execOr (x : R3) (s : State) : Host.Outcome State Fault Refusal :=
  .next (s.onMach (fun m => alu3 m x (· ||| ·) (· ||| ·)))

/-- `xor` (Table 5-4). -/
def execXor (x : R3) (s : State) : Host.Outcome State Fault Refusal :=
  .next (s.onMach (fun m => alu3 m x (· ^^^ ·) (· ^^^ ·)))

/-- `andn` (Table 5-4). -/
def execAndn (x : R3) (s : State) : Host.Outcome State Fault Refusal :=
  .next (s.onMach (fun m => alu3 m x (fun a b => a &&& ~~~b) (fun a _ => a)))

/-- `shl` (Table 5-4). -/
def execShl (x : R3) (s : State) : Host.Outcome State Fault Refusal :=
  .next (s.onMach (fun m => alu3 m x shlN shlN))

/-- `shr` (Table 5-4). -/
def execShr (x : R3) (s : State) : Host.Outcome State Fault Refusal :=
  .next (s.onMach (fun m => alu3 m x shrN shrN))

/-- `sra` (Table 5-4). -/
def execSra (x : R3) (s : State) : Host.Outcome State Fault Refusal :=
  .next (s.onMach (fun m => alu3 m x sraN sraN))

/-- `rol` (Table 5-4). -/
def execRol (x : R3) (s : State) : Host.Outcome State Fault Refusal :=
  .next (s.onMach (fun m => alu3 m x rolN (fun a _ => a)))

/-- `shladd` (R103). -/
def execShladd (sh : Nat) (x : R3) (s : State) : Host.Outcome State Fault Refusal :=
  .next (s.onMach (fun m => alu3 m x (fun a b => (a <<< sh) + b) (fun a b => (a <<< sh) + b)))

/-- `min` (Table 5-4). -/
def execMin (x : R3) (s : State) : Host.Outcome State Fault Refusal :=
  .next (s.onMach (fun m => alu3 m x minS minS))

/-- `max` (Table 5-4). -/
def execMax (x : R3) (s : State) : Host.Outcome State Fault Refusal :=
  .next (s.onMach (fun m => alu3 m x maxS maxS))

/-- `minu` (Table 5-4). -/
def execMinu (x : R3) (s : State) : Host.Outcome State Fault Refusal :=
  .next (s.onMach (fun m => alu3 m x minU (fun a _ => a)))

/-- `maxu` (Table 5-4). -/
def execMaxu (x : R3) (s : State) : Host.Outcome State Fault Refusal :=
  .next (s.onMach (fun m => alu3 m x maxU (fun a _ => a)))

/-- `abs` (R103). -/
def execAbs (x : R2) (s : State) : Host.Outcome State Fault Refusal :=
  .next (s.onMach (fun m => alu2 m x (fun a => if a.slt 0 then -a else a)))

/-- `clz` (R103). -/
def execClz (x : R2) (s : State) : Host.Outcome State Fault Refusal :=
  .next (s.onMach (fun m => alu2 m x clzW))

/-- `popc` (R103). -/
def execPopc (x : R2) (s : State) : Host.Outcome State Fault Refusal :=
  .next (s.onMach (fun m => alu2 m x popcW))

/-- `brev` (R103). -/
def execBrev (x : R2) (s : State) : Host.Outcome State Fault Refusal :=
  .next (s.onMach (fun m => alu2 m x BitVec.reverse))

/-- `bfx` (R104). -/
def execBfx (x : Bf) (s : State) : Host.Outcome State Fault Refusal :=
  .next (s.onMach (fun m => bitField m x (fun _ a b c => bfxW a b c)))

/-- `bfxu` (R104). -/
def execBfxu (x : Bf) (s : State) : Host.Outcome State Fault Refusal :=
  .next (s.onMach (fun m => bitField m x (fun _ a b c => bfxuW a b c)))

/-- `bfi` (R104). -/
def execBfi (x : Bf) (s : State) : Host.Outcome State Fault Refusal :=
  .next (s.onMach (fun m => bitField m x bfiW))

/-- `sel` (R106). -/
def execSel (np : Bool) (sp : Nat) (x : R3) (s : State) : Host.Outcome State Fault Refusal :=
  .next (s.onMach (fun m => let k := curK m; setW m x.g x.u x.d (fun t => if t.rdP sp != np then srcW k t x.a else srcW k t x.b)))

/-- `cmp` (R105). -/
def execCmp (cc : Cond) (x : Cmp) (s : State) : Host.Outcome State Fault Refusal :=
  .next (s.onMach (fun m => 
    let k := curK m
    setP m x.g x.u x.p (fun t =>
      if x.dd then condHolds cc (srcD t x.a) (srcD t x.b)
      else condHolds cc (srcW k t x.a) (srcW k t x.b))))

/-- `set` (R105). -/
def execSet (cc : Cond) (x : R3) (s : State) : Host.Outcome State Fault Refusal :=
  .next (s.onMach (fun m => alu3 m x (fun a b => if condHolds cc a b then 1 else 0) (fun a _ => a)))

/-- `mov` (R108). -/
def execMov (x : R2) (s : State) : Host.Outcome State Fault Refusal :=
  .next (s.onMach (fun m => 
    if x.dd then setD m x.g x.u x.d (fun t => srcD t x.a) else alu2 m x (fun a => a)))

/-- `movi` (R108): a w register, a pair, or a uniform register written once. -/
def execMovi (g : Guard) (kind d : Nat) (imm : Int) (s : State) : Host.Outcome State Fault Refusal :=
  .next (s.onMach (fun m => 
    match kind with
    | 0 => vecWord m g (fun t => t.wr d (BitVec.ofInt 32 imm))
    | 1 => vecWord m g (fun t => t.wrD d (BitVec.ofInt 64 imm))
    | _ => if (leader m g).isSome then putK m d (BitVec.ofInt 32 imm) else m))

/-- `movx` (R108). -/
def execMovx (g : Guard) (d val : Nat) (s : State) : Host.Outcome State Fault Refusal :=
  .next (s.onMach (fun m => vecWord m g (fun t => t.wrD d (BitVec.ofNat 64 val))))

/-- `pand` (R107). -/
def execPand (x : P3) (s : State) : Host.Outcome State Fault Refusal :=
  .next (s.onMach (fun m => predOp m x (fun a b => a && b)))

/-- `por` (R107). -/
def execPor (x : P3) (s : State) : Host.Outcome State Fault Refusal :=
  .next (s.onMach (fun m => predOp m x (fun a b => a || b)))

/-- `pxor` (R107). -/
def execPxor (x : P3) (s : State) : Host.Outcome State Fault Refusal :=
  .next (s.onMach (fun m => predOp m x (fun a b => a != b)))

/-- `smov` (R110). -/
def execSmov (g : Guard) (u : Bool) (d : Src) (sreg : Nat) (s : State) : Host.Outcome State Fault Refusal :=
  .next (s.onMach (fun m => 
    if sregWide sreg then setD m g u d (fun t => sregRead m t sreg)
    else setW m g u d (fun t => loW (sregRead m t sreg))))

/-- `swr` (R110, R111): a value for `HSP` that is no multiple of 32 raises MISALIGN and is not written. -/
def execSwr (g : Guard) (sreg a : Nat) (s : State) : Host.Outcome State Fault Refusal :=
  .next (s.onMach (fun m => 
    seqWord m g (fun m r t =>
      let v := if sregWide sreg then t.rdD a else (t.rd a).zeroExtend 64
      if sreg = 13 ∧ v.toNat % 32 ≠ 0 then misalign m r t v.toNat 32 1
      else m.updThread t.gid t.tix (fun t => sregWrite t sreg v))))

/-- `rand` (R113). -/
def execRand (g : Guard) (d : Nat) (s : State) : Host.Outcome State Fault Refusal :=
  .next (s.onMach (fun m => 
    vecWord m g (fun t => (({ t with rngc := t.rngc + 1 } : Thread).wr d (randWord t.rngk t.rngc (widT m t))))))

/-- `widf` (R112). -/
def execWidf (g : Guard) (u : Bool) (n : Nat) (d : Src) (s : State) : Host.Outcome State Fault Refusal :=
  .next (s.onMach (fun m => setW m g u d (fun t => widField m t n)))

/-- A paired word whose first operation is `add` (R64, R65). -/
def execAddPaired (x : Paired) (s : State) : Host.Outcome State Fault Refusal :=
  .next (s.onMach (fun m => paired m .add x))

/-- A paired word whose first operation is `sub` (R64, R65). -/
def execSubPaired (x : Paired) (s : State) : Host.Outcome State Fault Refusal :=
  .next (s.onMach (fun m => paired m .sub x))

/-- A paired word whose first operation is `and` (R64, R65). -/
def execAndPaired (x : Paired) (s : State) : Host.Outcome State Fault Refusal :=
  .next (s.onMach (fun m => paired m .and x))

/-- A paired word whose first operation is `or` (R64, R65). -/
def execOrPaired (x : Paired) (s : State) : Host.Outcome State Fault Refusal :=
  .next (s.onMach (fun m => paired m .or x))

/-- A paired word whose first operation is `xor` (R64, R65). -/
def execXorPaired (x : Paired) (s : State) : Host.Outcome State Fault Refusal :=
  .next (s.onMach (fun m => paired m .xor x))

/-- A paired word whose first operation is `shl` (R64, R65). -/
def execShlPaired (x : Paired) (s : State) : Host.Outcome State Fault Refusal :=
  .next (s.onMach (fun m => paired m .shl x))

/-- A paired word whose first operation is `shr` (R64, R65). -/
def execShrPaired (x : Paired) (s : State) : Host.Outcome State Fault Refusal :=
  .next (s.onMach (fun m => paired m .shr x))

/-- A paired word whose first operation is `mov` (R64, R65). -/
def execMovPaired (x : Paired) (s : State) : Host.Outcome State Fault Refusal :=
  .next (s.onMach (fun m => paired m .mov x))

/-- A paired word whose first operation is `min` (R64, R65). -/
def execMinPaired (x : Paired) (s : State) : Host.Outcome State Fault Refusal :=
  .next (s.onMach (fun m => paired m .min x))

/-- A paired word whose first operation is `max` (R64, R65). -/
def execMaxPaired (x : Paired) (s : State) : Host.Outcome State Fault Refusal :=
  .next (s.onMach (fun m => paired m .max x))

/-- A paired word whose first operation is `fadd` (R64, R65). -/
def execFaddPaired (x : Paired) (s : State) : Host.Outcome State Fault Refusal :=
  .next (s.onMach (fun m => paired m .fadd x))

/-- A paired word whose first operation is `fmul` (R64, R65). -/
def execFmulPaired (x : Paired) (s : State) : Host.Outcome State Fault Refusal :=
  .next (s.onMach (fun m => paired m .fmul x))

/-- A paired word whose first operation is `fmin` (R64, R65). -/
def execFminPaired (x : Paired) (s : State) : Host.Outcome State Fault Refusal :=
  .next (s.onMach (fun m => paired m .fmin x))

/-- A paired word whose first operation is `fmax` (R64, R65). -/
def execFmaxPaired (x : Paired) (s : State) : Host.Outcome State Fault Refusal :=
  .next (s.onMach (fun m => paired m .fmax x))

/-- A paired word whose first operation is `hadd2` (R64, R65). -/
def execHadd2Paired (x : Paired) (s : State) : Host.Outcome State Fault Refusal :=
  .next (s.onMach (fun m => paired m .hadd2 x))

/-- A paired word whose first operation is `hmul2` (R64, R65). -/
def execHmul2Paired (x : Paired) (s : State) : Host.Outcome State Fault Refusal :=
  .next (s.onMach (fun m => paired m .hmul2 x))

end Sys2Proof.Machine
end

