-- ==== Sys2Proof/Machine/Vector.lean ====
section
/-!
DEFINITION. The float and vector class (06): FP32 and packed arithmetic, special functions,
conversions, dot products and function tables.
-/

namespace Sys2Proof.Machine

/-! Operands. -/

/-- The format of a wide operand (Table 6-3). -/
def fmtOf (f : WFmt) : Fmt :=
  match f with
  | .fp32 => FP32
  | .fp16 => FP16
  | .bf16 => BF16
  | .fa48 => FA48

/-- The code of a wide source: a pair's container for FA48, the low half for 16 bits (R122). -/
def wideCode (f : WFmt) (t : Thread) (a : Nat) : Nat :=
  match f with
  | .fp32 => (t.rd a).toNat
  | .fp16 | .bf16 => (t.rd a).toNat % 65536
  | .fa48 => (t.rdD a).toNat / 65536

/-- A result in a wide format, with flags. -/
def setWide (m : Mach) (g : Guard) (dst : WFmt) (d : Nat) (f : Thread → Nat × Nat) : Mach :=
  match dst with
  | .fa48 => setFD m g d (fun t => let r := f t; (BitVec.ofNat 64 (r.1 * 65536), r.2))
  | _ => setF m g false (.w d) (fun t => let r := f t; (BitVec.ofNat 32 r.1, r.2))

/-- A one-source FP32 word. -/
def fp1 (m : Mach) (x : W2) (f : FVal → Nat × Nat) : Mach :=
  setF m x.g false (.w x.d) (fun t => let r := f (decodeF FP32 (t.rd x.a).toNat); (BitVec.ofNat 32 r.1, r.2))

/-- A packed word: each half alone, the flags together (R129). -/
def halves (m : Mach) (x : H3) (f : Fmt → Nat → Nat → Thread → Nat → Nat × Nat) : Mach :=
  let fm := if x.bf then BF16 else FP16
  setF m x.g false (.w x.d) (fun t =>
    let half (sh : Nat) := f fm ((t.rd x.a).toNat / sh % 65536) ((t.rd x.b).toNat / sh % 65536) t sh
    let lo := half 1
    let hi := half 65536
    (BitVec.ofNat 32 (lo.1 + 65536 * hi.1), lo.2 ||| hi.2))

/-! Rounding to an integral value (R127). -/

/-- The integral magnitude of m × 2^e in a mode. -/
def integral (mode : FrMode) (neg : Bool) (m : Nat) (e : Int) : Nat :=
  match mode with
  | .even => (roundAt .ne neg m e 0 false).1
  | .trunc => (roundAt .rz neg m e 0 false).1
  | .ceil => (roundAt .rp neg m e 0 false).1
  | .floor => (roundAt .rm neg m e 0 false).1
  | .away =>
    if 0 ≤ e then m * 2 ^ e.toNat
    else
      let d := 2 ^ (-e).toNat
      if d ≤ 2 * (m % d) then m / d + 1 else m / d

/-- `frnd`. -/
def frndF (mode : FrMode) (v : FVal) : Nat × Nat :=
  match v with
  | .nan s => (FP32.nanCode, if s then fNV else 0)
  | .inf n => roundV FP32 .ne (.inf n)
  | .fin n m e => ((roundV FP32 .ne (.fin n (integral mode n m e) 0)).1, 0)

/-! Packed elements (R75, R133, R134). -/

/-- The code-table bank of a core that is current (R73). -/
def codeTab (m : Mach) (c : Nat) : List Nat :=
  let k := m.core c
  if k.codeCur then k.code1 else k.code0

/-- Element `pos` of a packed register; FA48 takes the pair. -/
def packedAt (el : Elem) (t : Thread) (a pos : Nat) : Nat :=
  match el with
  | .fa48 => (t.rdD a).toNat
  | _ => (t.rd a).toNat / 2 ^ (el.bits * pos) % 2 ^ el.bits

/-- Put a code at element `pos` of a packed register, keeping the rest. -/
def putPacked (bits : Nat) (old : Word) (pos code : Nat) : Word :=
  let mk : Word := BitVec.ofNat 32 ((2 ^ bits - 1) * 2 ^ (bits * pos))
  (old &&& ~~~mk) ||| (BitVec.ofNat 32 (code * 2 ^ (bits * pos)) &&& mk)

/-- Invalid flag of an exact product of two values that a conversion reads. -/
def productNV (x y : FVal) : Nat := if x.isSig || y.isSig || x.mulInvalid y then fNV else 0

/-- A dot product (R87): code, flags. -/
def dotF (ea eb : Elem) (tab : List Nat) (n : Nat) (a b : Word) (c sc : Nat) : Nat × Nat :=
  let at_ (el : Elem) (w : Word) (i : Nat) : FVal :=
    decodeE el tab (w.toNat / 2 ^ (el.bits * i) % 2 ^ el.bits)
  let xs := (List.range n).map (at_ ea a)
  let ys := (List.range n).map (at_ eb b)
  let ps := (xs.zip ys).map (fun p => p.1.mul p.2)
  let s := FVal.sum ps
  let cv := decodeF FP32 c
  let sv := decodeF FP32 sc
  let p := sv.mul s
  let r := roundV FP32 .ne (FVal.sum [cv, p])
  let bad := (xs ++ ys).any (fun v => v.isSig) || (xs.zip ys).any (fun p => p.1.mulInvalid p.2) ||
    (s.isNaN && !ps.any (fun v => v.isNaN)) || cv.isSig || sv.isSig || sv.mulInvalid s ||
    (!cv.isNaN && !p.isNaN && cv.addInvalid p)
  (r.1, r.2 ||| (if bad then fNV else 0))

/-- A dot-product word. -/
def dotWord (m : Mach) (x : Dot) (n : Nat) : Mach :=
  match m.curRun with
  | none => m
  | some r =>
    let sl := (m.recOf r.gid).slots
    match slotOf sl x.sa, slotOf sl x.sb with
    | some ea, some eb =>
      let tab := codeTab m r.core
      setF m x.g false (.w x.d) (fun t =>
        let v := dotF ea eb tab n (t.rd x.a) (t.rd x.b) (t.rd x.c).toNat (t.rd (x.c + 1)).toNat
        (BitVec.ofNat 32 v.1, v.2))
    | _, _ => m

/-! Function tables (R136 to R139). -/

/-- Bytes of a table image (R136). -/
def ftBytes : Nat := 1056

/-- A word of an image. -/
def ftWord (img : List Byte) (off : Nat) : Nat := fieldAt img off 4

/-- The exponent field of an image. -/
def ftExp (img : List Byte) : Int := signedOf 32 (ftWord img 4)

/-- Validity of an image (R136). -/
def ftValid (img : List Byte) : Bool :=
  let x0 := decodeF FP32 (ftWord img 0)
  !x0.isNaN && !x0.isInf && decide (-126 ≤ ftExp img) && decide (ftExp img ≤ 127) &&
    decide (ftWord img 8 < 2) && ((img.drop 12).take 20).all (fun b => b == 0)

/-- The current bank of a table. -/
def Ft.bank (f : Ft) : List Byte × Bool := if f.cur then (f.img1, f.ok1) else (f.img0, f.ok0)

/-- Load an image into the bank that is not current, and flip (R137). -/
def Ft.flip (f : Ft) (img : List Byte) (ok : Bool) : Ft :=
  if f.cur then { f with img0 := img, ok0 := ok, cur := false } else { f with img1 := img, ok1 := ok, cur := true }

/-- The segment of u: ⌊u × 2^-e⌋ (R139), with an infinity beyond every segment. -/
def segOf (u : FVal) (e : Int) : Int :=
  match u with
  | .nan _ => 0
  | .inf n => if n then -1 else 64
  | .fin n m x =>
    let i : Int := if n then -(m : Int) else m
    if 0 ≤ x - e then i * (2 ^ (x - e).toNat : Nat) else i / (2 ^ (e - x).toNat : Nat)

/-- `feval` of a bank (R139): code, flags. -/
def fevalF (bank : List Byte × Bool) (x : Nat) : Nat × Nat :=
  let img := bank.1
  let v := decodeF FP32 x
  if !bank.2 then (FP32.nanCode, fNV)
  else if v.isNaN || v.isInf then (FP32.nanCode, if v.isSig || v.isInf then fNV else 0)
  else
    let u := addF FP32 .ne x (negCode FP32 (ftWord img 0))
    let q := segOf (decodeF FP32 u.1) (ftExp img)
    if (q < 0 ∨ 63 < q) ∧ ftWord img 8 % 2 = 1 then (FP32.nanCode, u.2)
    else
      let s := (min (max q 0) 63).toNat
      let c (i : Nat) := ftWord img (0x20 + 16 * s + 4 * i)
      let t := roundV FP32 .ne ((decodeF FP32 u.1).add (.fin true s (ftExp img)) false)
      let y2 := fmaF FP32 .ne (c 3) t.1 (c 2)
      let y1 := fmaF FP32 .ne y2.1 t.1 (c 1)
      let y0 := fmaF FP32 .ne y1.1 t.1 (c 0)
      (y0.1, u.2 ||| t.2 ||| y2.2 ||| y1.2 ||| y0.2)

/-! The meanings. -/

/-- `fadd` (R123). -/
def execFadd (x : R3r) (s : State) : Host.Outcome State Fault Refusal :=
  .next (s.onMach (fun m => 
    let k := curK m
    setF m x.g x.u x.d (fun t =>
      let r := addF FP32 x.rnd (srcW k t x.a).toNat (srcW k t x.b).toNat
      (BitVec.ofNat 32 r.1, r.2))))

/-- `fmul` (R123). -/
def execFmul (x : R3r) (s : State) : Host.Outcome State Fault Refusal :=
  .next (s.onMach (fun m => 
    let k := curK m
    setF m x.g x.u x.d (fun t =>
      let r := mulF FP32 x.rnd (srcW k t x.a).toNat (srcW k t x.b).toNat
      (BitVec.ofNat 32 r.1, r.2))))

/-- `fsub`: the sum with b negated (R123). -/
def execFsub (x : R3) (s : State) : Host.Outcome State Fault Refusal :=
  .next (s.onMach (fun m => fp3 m x (fun a b => addF FP32 .ne a (negCode FP32 b))))

/-- `ffma` (R123). -/
def execFfma (x : R4) (s : State) : Host.Outcome State Fault Refusal :=
  .next (s.onMach (fun m => 
    let k := curK m
    setF m x.g x.u x.d (fun t =>
      let r := fmaF FP32 x.rnd (srcW k t x.a).toNat (srcW k t x.b).toNat (t.rd x.c).toNat
      (BitVec.ofNat 32 r.1, r.2))))

/-- `fmin` (R124). -/
def execFmin (x : R3) (s : State) : Host.Outcome State Fault Refusal :=
  .next (s.onMach (fun m => fp3 m x (minMaxF FP32 false)))

/-- `fmax` (R124). -/
def execFmax (x : R3) (s : State) : Host.Outcome State Fault Refusal :=
  .next (s.onMach (fun m => fp3 m x (minMaxF FP32 true)))

/-- `fcmp` (R125). -/
def execFcmp (cc : FCond) (x : Cmp) (s : State) : Host.Outcome State Fault Refusal :=
  .next (s.onMach (fun m => let k := curK m; setFP m x.g x.u x.p (fun t => fcondHolds cc (srcW k t x.a) (srcW k t x.b))))

/-- `fclass` (R126). -/
def execFclass (x : R2) (s : State) : Host.Outcome State Fault Refusal :=
  .next (s.onMach (fun m => alu2 m x fclassMask))

/-- `frnd` (R127). -/
def execFrnd (mode : FrMode) (x : R2) (s : State) : Host.Outcome State Fault Refusal :=
  .next (s.onMach (fun m => 
    let k := curK m
    setF m x.g x.u x.d (fun t =>
      let r := frndF mode (decodeF FP32 (srcW k t x.a).toNat)
      (BitVec.ofNat 32 r.1, r.2))))

/-- `fcvt` (R130). -/
def execFcvt (g : Guard) (rnd : Rnd) (dst src : WFmt) (d a : Nat) (s : State) : Host.Outcome State Fault Refusal :=
  .next (s.onMach (fun m => 
    setWide m g dst d (fun t =>
      let v := decodeF (fmtOf src) (wideCode src t a)
      let r := roundV (fmtOf dst) rnd v
      (r.1, r.2 ||| (if v.isSig then fNV else 0)))))

/-- `icvt` (R131). -/
def execIcvt (g : Guard) (uns : Bool) (dst : WFmt) (d a : Nat) (s : State) : Host.Outcome State Fault Refusal :=
  .next (s.onMach (fun m => 
    setWide m g dst d (fun t =>
      roundV (fmtOf dst) .ne (FVal.ofInt (if uns then ((t.rd a).toNat : Int) else (t.rd a).toInt) 0 false))))

/-- `fcvti` (R132). -/
def execFcvti (g : Guard) (rnd : Rnd) (uns : Bool) (src : WFmt) (d a : Nat) (s : State) : Host.Outcome State Fault Refusal :=
  .next (s.onMach (fun m => 
    setF m g false (.w d) (fun t =>
      let v := decodeF (fmtOf src) (wideCode src t a)
      let r := if uns then toIntRange rnd 0 4294967295 v else toIntRange rnd (-2147483648) 2147483647 v
      (BitVec.ofInt 32 r.1, r.2))))

/-- `hadd2` (R129). -/
def execHadd2 (x : H3) (s : State) : Host.Outcome State Fault Refusal :=
  .next (s.onMach (fun m => halves m x (fun fm a b _ _ => addF fm .ne a b)))

/-- `hmul2` (R129). -/
def execHmul2 (x : H3) (s : State) : Host.Outcome State Fault Refusal :=
  .next (s.onMach (fun m => halves m x (fun fm a b _ _ => mulF fm .ne a b)))

/-- `hfma2` (R129). -/
def execHfma2 (c : Nat) (x : H3) (s : State) : Host.Outcome State Fault Refusal :=
  .next (s.onMach (fun m => halves m x (fun fm a b t sh => fmaF fm .ne a b ((t.rd c).toNat / sh % 65536))))

/-- `hmin2` (R129). -/
def execHmin2 (x : H3) (s : State) : Host.Outcome State Fault Refusal :=
  .next (s.onMach (fun m => halves m x (fun fm a b _ _ => minMaxF fm false a b)))

/-- `hmax2` (R129). -/
def execHmax2 (x : H3) (s : State) : Host.Outcome State Fault Refusal :=
  .next (s.onMach (fun m => halves m x (fun fm a b _ _ => minMaxF fm true a b)))

/-- `rcp` (R128). -/
def execRcp (x : W2) (s : State) : Host.Outcome State Fault Refusal :=
  .next (s.onMach (fun m => fp1 m x (fun v => divF FP32 .ne (.fin false 1 0) v)))

/-- `rsq` (R128). -/
def execRsq (x : W2) (s : State) : Host.Outcome State Fault Refusal :=
  .next (s.onMach (fun m => fp1 m x (rsqF FP32)))

/-- `sqrt` (R128). -/
def execSqrt (x : W2) (s : State) : Host.Outcome State Fault Refusal :=
  .next (s.onMach (fun m => fp1 m x (sqrtF FP32)))

/-- `exp2` (R128). -/
def execExp2 (x : W2) (s : State) : Host.Outcome State Fault Refusal :=
  .next (s.onMach (fun m => fp1 m x exp2F))

/-- `log2` (R128). -/
def execLog2 (x : W2) (s : State) : Host.Outcome State Fault Refusal :=
  .next (s.onMach (fun m => fp1 m x log2F))

/-- `fdiv` (R123, R128). -/
def execFdiv (x : R3) (s : State) : Host.Outcome State Fault Refusal :=
  .next (s.onMach (fun m => fp3 m x (fun a b => divF FP32 .ne (decodeF FP32 a) (decodeF FP32 b))))

/-- A word that reads a table with an uncorrectable soft error (R411). -/
def tableFault (m : Mach) (g : Guard) : Mach := seqWord m g (fun m r t => superFault m t 5 0x0504 0 0 0 r.here)

/-- `feval`: every thread evaluates the bank that is current at the word (R138, R139). -/
def execFeval (ft : Nat) (x : W2) (s : State) : Host.Outcome State Fault Refusal :=
  .next (s.onMach (fun m => 
    match m.curRun with
    | none => m
    | some r =>
      let bank := ((lget (m.core r.core).fts ft).getD {}).bank
      if m.bad.contains (.ftab r.core ft) then tableFault m x.g
      else setF m x.g false (.w x.d) (fun t =>
        let v := fevalF bank (t.rd x.a).toNat
        (BitVec.ofNat 32 v.1, v.2))))

/-- `ftld`: an escaping word; the load stands with its flag pending until FTLD_FLIP performs it (R137). -/
def execFtld (g : Guard) (ft a fl : Nat) (s : State) : Host.Outcome State Fault Refusal :=
  .next (s.onMach (fun m => 
    escWord m g 6 1 (fun m r t =>
      let off := (t.rd a).toNat
      if off % 32 ≠ 0 then misalign m r t off ftBytes 1
      else if !padOk m t.gid off ftBytes then padFault m r t t.gid ftBytes .load off
      else m.updCore r.core (fun k => { k with ftlds := k.ftlds ++ [⟨t.gid, t.tix, ft, off, r.flag fl⟩] }))))

/-- `dot4` (R135). -/
def execDot4 (x : Dot) (s : State) : Host.Outcome State Fault Refusal :=
  .next (s.onMach (fun m => dotWord m x 4))

/-- `dot8` (R135). -/
def execDot8 (x : Dot) (s : State) : Host.Outcome State Fault Refusal :=
  .next (s.onMach (fun m => dotWord m x 8))

/-- `ncvt` (R133): an exact product rounded once into the slot's format. -/
def execNcvt (x : Cv) (s : State) : Host.Outcome State Fault Refusal :=
  .next (s.onMach (fun m => 
    match m.curRun with
    | none => m
    | some r =>
      match slotOf (m.recOf r.gid).slots x.slot with
      | none => m
      | some el =>
        let val (t : Thread) : Nat × Nat :=
          let a := decodeF FP32 (t.rd x.a).toNat
          let b := decodeF FP32 (t.rd x.b).toNat
          let v := toElem el (a.mul b)
          (v.1, v.2 ||| productNV a b)
        match el with
        | .fa48 => setFD m x.g x.d (fun t => let v := val t; (BitVec.ofNat 64 v.1, v.2))
        | _ => setF m x.g false (.w x.d) (fun t =>
            let v := val t
            (putPacked el.bits (t.rd x.d) x.pos v.1, v.2))))

/-- `nunp` (R134). -/
def execNunp (x : Cv) (s : State) : Host.Outcome State Fault Refusal :=
  .next (s.onMach (fun m => 
    match m.curRun with
    | none => m
    | some r =>
      match slotOf (m.recOf r.gid).slots x.slot with
      | none => m
      | some el =>
        let tab := codeTab m r.core
        if el = .q4t ∧ m.bad.contains (.codeTab r.core) then tableFault m x.g
        else setF m x.g false (.w x.d) (fun t =>
          let a := decodeE el tab (packedAt el t x.a x.pos)
          let b := decodeF FP32 (t.rd x.b).toNat
          let v := roundV FP32 .ne (a.mul b)
          (BitVec.ofNat 32 v.1, v.2 ||| productNV a b))))

/-- FTLD_FLIP: the oldest `ftld` to a table of a core is performed (R137): its image goes into the bank
that is not current, which becomes current, and its flag clears. An uncorrectable error of the image is
the table's. The image is read whole at the flip, with every store performed by then (log 95, DESIGN CHOICE: R137 lets a
store after the issue be seen or not). -/
def execFtldFlip (core ft : Nat) (s : State) : Host.Outcome State Fault Refusal :=
  .next (s.onMach (fun m =>
    match (m.core core).ftlds.find? (fun x => x.ft == ft) with
    | none => m
    | some x =>
      let img := padRead m x.gid x.off ftBytes
      let rest := m.bad.filter (fun s => s != .ftab core ft)
      let m1 : Mach := { m with bad := if padBad m x.gid x.off ftBytes then .ftab core ft :: rest else rest }
      m1.updCore core (fun k => { k with
        fts := lput k.fts ft (((lget k.fts ft).getD {}).flip img (ftValid img))
        ftlds := k.ftlds.erase x })))

end Sys2Proof.Machine
end

