-- ==== Sys2Proof/Machine/Tile.lean ====
section
/-!
DEFINITION. The tile class (17): issue of its commands, `twait`, `tstat`, the timelines' words, and the
events that perform commands and drain-adds.
-/

namespace Sys2Proof.Machine

/-- The slot word of a group's launch. -/
def slotWord (m : Mach) (gid n : Nat) : Nat := ((m.recOf gid).slots.getD n 0).toNat

/-- The scratchpad of a group. -/
def padOf (m : Mach) (gid : Nat) : List Host.Cell :=
  match m.group? gid with
  | none => []
  | some g => g.spad

/-- The checks of `tld` and `tst` at issue (R288): alignment, then the range. -/
def tlsCheck (m : Mach) (r : Running) (t : Thread) (o st bits : Nat) (acc : Acc) (go : Mach) : Mach :=
  if o % 8 ≠ 0 ∨ st % 8 ≠ 0 then misalign m r t o 8 1
  else if (m.recOf t.gid).scratch < o + 31 * st + 32 * bits / 8 then padStop m r t acc o
  else go

/-- The code-table bank that an element format captures (R294): its entries, and which it is. -/
def capture (m : Mach) (c : Nat) (e : Elem) : List Nat × Option Bool :=
  if e = .q4t then (codeTab m c, some (m.core c).codeCur) else ([], none)

/-! Issue. -/

/-- `tzero` (R287). -/
def execTzero (g : Guard) (tile : Nat) (free : Bool) (d : Nat) (s : State) : Host.Outcome State Fault Refusal :=
  .next (s.onMach (fun m => escWord m g 6 1 (fun m r t =>
    issueCmd m r t d true { n := 0, gid := t.gid, tix := t.tix, tile := tile, op := .zero free, opc := 0x280 })))

/-- `tld` (R288). -/
def execTld (x : Tls) (s : State) : Host.Outcome State Fault Refusal :=
  .next (s.onMach (fun m => escWord m x.g 6 1 (fun m r t =>
    match slotOf (m.recOf t.gid).slots x.slot with
    | none => m
    | some e =>
      let o := (t.rd x.a).toNat
      let st := (t.rd x.b).toNat
      let cap := capture m r.core e
      tlsCheck m r t o st e.bits .load
        (issueCmd m r t x.d true { n := 0, gid := t.gid, tix := t.tix, tile := x.tile, op := .ld o st (slotWord m t.gid x.slot) cap.1,
                                   flag := r.flag x.sel, opc := 0x281, bank := cap.2 }))))

/-- `tst` (R289). -/
def execTst (x : Tls) (s : State) : Host.Outcome State Fault Refusal :=
  .next (s.onMach (fun m => escWord m x.g 6 1 (fun m r t =>
    match slotOf (m.recOf t.gid).slots x.slot with
    | none => m
    | some e =>
      let o := (t.rd x.a).toNat
      let st := (t.rd x.b).toNat
      tlsCheck m r t o st e.bits .store
        (issueCmd m r t x.d true { n := 0, gid := t.gid, tix := t.tix, tile := x.tile, op := .st o st (slotWord m t.gid x.slot),
                                   flag := r.flag x.sel, opc := 0x282 }))))

/-- `tmma` (R291). -/
def execTmma (g : Guard) (d a fl : Nat) (s : State) : Host.Outcome State Fault Refusal :=
  .next (s.onMach (fun m => escWord m g 6 1 (fun m r t =>
    let off := (t.rd a).toNat
    if off % 64 ≠ 0 then misalign m r t off 64 1
    else if !padOk m t.gid off 64 then padFault m r t t.gid 64 .load off
    else
      let blk := padRead m t.gid off 64
      let b := Mma.ofBytes blk
      let wa := slotWord m t.gid b.aslot
      let wb := slotWord m t.gid b.bslot
      let cap := capture m r.core ((slotElem wb).getD .fp32)
      issueCmd m r t d (b.ok wa wb (m.recOf t.gid).scratch) {
        n := 0, gid := t.gid, tix := t.tix, tile := b.tile % 4
        op := .mma blk (BitVec.ofNat 32 wa) (BitVec.ofNat 32 wb) cap.1, flag := r.flag fl, opc := 0x283, bank := cap.2 })))

/-- The peer descriptor of `tdadd` is legal (Table 17-9). -/
def descOk (pkg d : Nat) : Bool :=
  let mode := d % 4
  let rank := d / 4 % 4
  let core := d / 16 % 64
  let die := d / 1024 % 4
  let peer := d / 4096 % 8192
  d / 2 ^ 25 == 0 &&
    (match mode with
      | 0 => core == 0 && die == 0 && peer == 0
      | 1 => rank == 0 && die == 0 && peer == 0
      | 2 => rank == 0 && peer != pkg
      | _ => false)

/-- `tdadd` (R296, R297). -/
def execTdadd (g : Guard) (tx ty d a fl : Nat) (s : State) : Host.Outcome State Fault Refusal :=
  .next (s.onMach (fun m => escWord m g 6 1 (fun m r t =>
    let desc := (t.rdD a).toNat
    issueCmd m r t d (descOk m.pkg desc) {
      n := 0, gid := t.gid, tix := t.tix, tile := tx, op := .dadd desc ty, flag := r.flag fl, opc := 0x284 })))

/-- `tcode` (R293): its image is read at issue. -/
def execTcode (g : Guard) (d a fl : Nat) (s : State) : Host.Outcome State Fault Refusal :=
  .next (s.onMach (fun m => escWord m g 6 1 (fun m r t =>
    let off := (t.rd a).toNat
    if off % 32 ≠ 0 then misalign m r t off 32 1
    else if !padOk m t.gid off 32 then padFault m r t t.gid 32 .load off
    else
      let bs := padRead m t.gid off 32
      issueCmd m r t d true {
        n := 0, gid := t.gid, tix := t.tix, tile := 0, op := .code ((List.range 16).map (fun i => fieldAt bs (2 * i) 2))
        flag := r.flag fl, opc := 0x286 })))

/-- `twait` (R299). -/
def execTwait (g : Guard) (tile d a : Nat) (s : State) : Host.Outcome State Fault Refusal :=
  .next (s.onMach (fun m => escWord m g 7 1 (fun m r t =>
    if foreign (m.core r.core) t.gid [tile] none then m.updThread t.gid t.tix (fun t => t.wr d 0xFFFFFFFF)
    else
      let m := m.updCore r.core (fun k => claim k t.gid [tile] none)
      match lget (m.core r.core).tiles tile with
      | none => m
      | some tl =>
        let n := (t.rd a).toNat
        if n = 0 ∨ (tl.waiters.isEmpty ∧ n ≤ tl.inbound) then
          (m.updCore r.core (fun k => { k with
            tiles := lput k.tiles tile { tl with inbound := tl.inbound - n } })).updThread t.gid t.tix (fun t =>
              t.wr d (BitVec.ofNat 32 (tl.inbound - n)))
        else
          (m.updCore r.core (fun k => { k with
            tiles := lput k.tiles tile { tl with waiters := tl.waiters ++ [t.tix] } })).updThread t.gid t.tix (fun t =>
              t.leave (.waiting (.tile tile n d)) ⟨r.nextHdr, 0⟩))))

/-- The state of a tile (Table 17-1). -/
def tileState (k : Core) (i : Nat) : Nat :=
  if (lget k.tiles i).isNone then 0
  else
    let on := k.tcmds.filter (fun x => x.tiles.contains i)
    if on.any (fun x => x.halt.isSome) then 3 else if on.isEmpty then 1 else 2

/-- The step counter of a tile: of the factorisation in flight, halted or dropped on it (Table 17-11). -/
def tileStep (k : Core) (i : Nat) : Nat :=
  match k.tcmds.find? (fun x => x.op.factor && x.tile == i) with
  | some x => x.step
  | none => match lget k.tiles i with | some tl => tl.step | none => 0

/-- What `tstat` writes (R300). -/
def tstatVal (k : Core) (gid : Nat) (fl : TsSel) (i : Nat) : DWord :=
  match fl with
  | .tile =>
    match lget k.tiles i with
    | none => 0
    | some tl => BitVec.ofNat 64 (tl.inbound * 2 ^ 32 + tileStep k i * 256 +
        (if tl.gid = gid then 16 else 0) + tileState k i)
  | .fail => BitVec.ofNat 64 k.tileFail
  | .status => BitVec.ofNat 64 k.tileStat

/-- `tstat` (R300). -/
def execTstat (g : Guard) (fl : TsSel) (tile d : Nat) (s : State) : Host.Outcome State Fault Refusal :=
  .next (s.onMach (fun m => seqWord m g (fun m r t =>
    m.updThread t.gid t.tix (fun t => t.wrD d (tstatVal (m.core r.core) t.gid fl tile)))))

/-! The timelines (R184, R185). -/

/-- `tlwait` (R184, R186, R285): a halted command of the thread is raised here, and a stopped copy parks it. -/
def execTlwait (g : Guard) (tile : Bool) (a : Nat) (s : State) : Host.Outcome State Fault Refusal :=
  .next (s.onMach (fun m => escWord m g 7 1 (fun m r t =>
    let k := m.core r.core
    let n := min (t.rdD a).toNat (if tile then k.tileCtr else k.copyCtr)
    let go (w : Wait) : Mach := m.updThread t.gid t.tix (fun t => t.leave (.waiting w) ⟨r.nextHdr, 0⟩)
    if n ≤ (if tile then tileMark k else copyMark k) then acqDo m r.core 2
    else if tile then
      match haltedFor m t (fun x => decide (x.n ≤ n)) with
      | some x => haltRaise m t x r.here
      | none => go (.tileTl n r.here)
    else
      match k.copies.find? (fun x => x.gid == t.gid && x.tix == t.tix && x.stopped.isSome && decide (x.n ≤ n)) with
      | some x => parkWaiter (go (.copyTl n r.here)) r.core x
      | none => go (.copyTl n r.here))))

/-- What `tlread` writes (R185). -/
def tlreadVal (k : Core) (fl : TlSel) : DWord :=
  match fl with
  | .copy => BitVec.ofNat 64 (copyMark k)
  | .tile => BitVec.ofNat 64 (tileMark k)
  | .fail => BitVec.ofNat 64 k.copyFail
  | .status => BitVec.ofNat 64 k.copyStat

/-- `tlread` (R185). -/
def execTlread (g : Guard) (fl : TlSel) (d : Nat) (s : State) : Host.Outcome State Fault Refusal :=
  .next (s.onMach (fun m => seqWord m g (fun m r t =>
    m.updThread t.gid t.tix (fun t => t.wrD d (tlreadVal (m.core r.core) fl)))))

/-! Performing. -/

/-- Change the elements of a tile. -/
def updTile (m : Mach) (c i : Nat) (f : Tile → Tile) : Mach :=
  m.updCore c (fun k => { k with tiles := match lget k.tiles i with | some tl => lput k.tiles i (f tl) | none => k.tiles })

/-- The effect of `tzero` (R280): released, unless a later command of the owner names the tile. -/
def zeroDo (m : Mach) (c : Nat) (x : TCmd) (free : Bool) : Mach :=
  if !free then updTile m c x.tile (fun tl => { tl with el := [] })
  else if (m.core c).tcmds.any (fun y => decide (x.n < y.n) && y.gid == x.gid && y.tiles.contains x.tile) then
    updTile m c x.tile (fun tl => { tl with el := [], inbound := 0, step := 0 })
  else m.updCore c (fun k => { k with tiles := ldel k.tiles x.tile })

/-- The target of a drain-add: its core and group when it names them (R296, R297). -/
def daddTarget (m : Mach) (c : Nat) (x : TCmd) (desc : Nat) : DAdd :=
  let base : DAdd := { core := c, n := x.n, gid := x.gid, cid := cidOf m x.gid, target := 0, ty := 0, el := [] }
  match desc % 4 with
  | 0 =>
    match setPeer m x.gid (desc / 4 % 4) with
    | some g => { base with toGid := some g }
    | none => { base with ok := false }
  | 1 => { base with target := c / 64 * 64 + desc / 16 % 64, toGid := x.meant }
  | _ => { base with target := desc / 1024 % 4 * 64 + desc / 16 % 64, pkg := some (desc / 4096 % 8192) }

/-- Some Fliaz port of a die is up (R394). -/
def fabricUp (m : Mach) (d : Nat) : Bool :=
  m.pkgSet && !(List.range 6).all (fun i => match lget (m.die d).fports i with | some f => !f.up | none => false)

/-- Perform a command that is no factorisation, in its place in the order. -/
def performCmd (m : Mach) (c : Nat) (x : TCmd) : Mach :=
  let el := match lget (m.core c).tiles x.tile with | some tl => tl.el | none => []
  let pad := padOf m x.gid
  match x.op with
  | .zero free => finishCmd (zeroDo (tileGood m x.gid x.tile) c x free) c x 0 0
  | .ld off stride w code =>
    match slotElem w with
    | some e => finishCmd (updTile (tileGood m x.gid x.tile) c x.tile (fun tl => { tl with el := loadTile pad off stride e code })) c x 0 0
    | none => m
  | .st off stride w =>
    match slotElem w with
    | some e =>
      finishCmd ((List.range 32).foldl (fun m i => padWriteOut m x.gid (off + i * stride) (drainRow el e i)) m) c x 0 0
    | none => m
  | .mma blk sa sb code =>
    finishCmd (updTile m c x.tile (fun tl => { tl with
      el := mmaTile (Mma.ofBytes blk) sa.toNat sb.toNat code pad (m.core c).wbuf tl.el })) c x 0 0
  | .code img =>
    let m1 : Mach := { m with bad := m.bad.filter (fun s => s != .codeTab c) }
    finishCmd (m1.updCore c (fun k =>
      if k.codeCur then { k with code0 := img, codeCur := false } else { k with code1 := img, codeCur := true })) c x 0 0
  | .dadd desc ty =>
    if x.sent then m
    else
      let d := daddTarget m c x desc
      if d.pkg.isSome && !fabricUp m (c / 64) then finishCmd m c x 3 0
      else
        let m := m.updCore c (fun k => { k with tcmds := k.tcmds.map (fun y => if x.same y then { y with sent := true } else y) })
        { m with dadds := m.dadds ++ [{ d with ty := ty, el := el }] }
  | _ => m

/-- The end of a factorisation whose last step is done: its estimate, and a step counter of 0. -/
def finishFactor (m : Mach) (c : Nat) (x : TCmd) : Mach :=
  let el := match lget (m.core c).tiles x.tile with | some tl => tl.el | none => []
  finishCmd (updTile m c x.tile (fun tl => { tl with step := 0 })) c x 0 (x.op.estimateOf el x.mx)

/-- TILE_COMMAND_COMPLETE (R283, R284): a command is performed in its place and completes; a factorisation
completes after its last step; a drain-add is read and sent. -/
def execTileCommandComplete (core gid n : Nat) (s : State) : Host.Outcome State Fault Refusal :=
  .next (s.onMach (fun m =>
    let k := m.core core
    match k.tcmds.find? (fun x => x.gid == gid && x.n == n && !(x.halt.isSome || x.sent)) with
    | none => m
    | some x =>
      if x.op.factor then
        let pv := match x.op.pv? with | some i => (lget k.pvs i).getD { gid := x.gid } | none => { gid := x.gid }
        if (x.begun || mayBegin m k x) && x.step == x.op.steps pv then finishFactor m core x else m
      else if mayBegin m k x then (if cmdBad m core x then softHalt m core x else performCmd m core x)
      else m))

/-- Answer a drain-add. -/
def answerAdd (m : Mach) (d : DAdd) (st : Nat) : Mach :=
  { m with dadds := m.dadds.map (fun y => if y.gid == d.gid && y.n == d.n then { y with ans := some st } else y) }

/-- A resident group that owns a tile of a core. -/
def tileOwner (m : Mach) (c i : Nat) : Option Group :=
  match lget (m.core c).tiles i with
  | none => none
  | some tl => m.group? tl.gid

/-- The drain-add of a sender arrives (R297, R298, R413): applied, refused, or not yet. -/
def daddArrive (m : Mach) (d : DAdd) : Mach :=
  if !d.ok then answerAdd m d 3
  else if d.pkg.isSome then
    answerAdd { m with nextId := m.nextId + 1 } d (if Config.peerAccepts m.nextId then 0 else 3)
  else
    let onCore (c : Nat) : Mach :=
      match applyAdd m c d.ty d.el with
      | some m => answerAdd m d 0
      | none => m
    match d.toGid with
    | some g =>
      match m.group? g with
      | none => answerAdd m d 3
      | some gr =>
        if gr.stat = .exited ∨ gr.stat = .faulted then answerAdd m d 3
        else if gr.stat = .saved then m
        else if (tileOwner m gr.core d.ty).map (fun o => o.gid) ≠ some g then answerAdd m d 3
        else onCore gr.core
    | none =>
      match tileOwner m d.target d.ty with
      | none => answerAdd m d 3
      | some o => if cidOf m o.gid = d.cid then onCore d.target else answerAdd m d 3

/-- A drain-add of a peer package arrives (R297, R395): its package and context must be bound to the
context of the tile's owner. The status goes back over the fabric. -/
def peerArrive (m : Mach) (a : PeerAdd) : Mach :=
  let reply (m : Mach) (st : Nat) : Mach := { m with outbox := [a.pkg, a.ctx, st] :: m.outbox }
  match tileOwner m a.core a.tile with
  | none => reply m 3
  | some o =>
    let bound := match m.partOf (a.core / 64) with
      | some p => p.binds.any (fun b => b.pkg == a.pkg && b.ctx == a.ctx && b.cid == cidOf m o.gid)
      | none => false
    if !bound then reply m 3
    else match applyAdd m a.core a.tile a.el with
      | some m => reply m 0
      | none => m

/-- The tile that a drain-add is for: its package, core and number. -/
def daddPlace (m : Mach) (d : DAdd) : Option Nat × Nat × Nat :=
  (d.pkg, (match d.toGid with | some g => m.coreOf g | none => d.target), d.ty)

/-- An unsent drain-add of a core as it would be sent, where it is for the same tile as a later one that was sent. -/
def daddAhead (m : Mach) (d : DAdd) (x : TCmd) : Bool :=
  decide (x.n < d.n) && !x.sent &&
    (match x.op with
      | .dadd desc ty => daddPlace m { daddTarget m d.core x desc with ty := ty } == daddPlace m d
      | _ => false)

/-- From one core to one tile, drain-adds arrive in that core's timeline order (R297): the earlier ones first, sent or
not. -/
def daddWaits (m : Mach) (d : DAdd) : Bool :=
  m.dadds.any (fun e => e.core == d.core && decide (e.n < d.n) && e.ans.isNone && daddPlace m e == daddPlace m d) ||
    (m.core d.core).tcmds.any (daddAhead m d)

/-- TDADD_ARRIVAL (R297): from one core to one tile in that core's timeline order. -/
def execTdaddArrival (gid n : Nat) (peer : Option PeerAdd) (s : State) : Host.Outcome State Fault Refusal :=
  .next (s.onMach (fun m =>
    match peer with
    | some a => peerArrive m a
    | none =>
      match m.dadds.find? (fun d => d.gid == gid && d.n == n && d.ans.isNone) with
      | none => m
      | some d => if daddWaits m d then m else daddArrive m d))

/-- TDADD_ACK (R297): the command completes with the target's status, on the core its group is on. -/
def execTdaddAck (gid n : Nat) (s : State) : Host.Outcome State Fault Refusal :=
  .next (s.onMach (fun m =>
    match m.dadds.find? (fun d => d.gid == gid && d.n == n && d.ans.isSome) with
    | none => m
    | some d =>
      let m1 : Mach := { m with dadds := m.dadds.filter (fun y => !(y.gid == gid && y.n == n)) }
      let c := m.coreOf d.gid
      match (m.core c).tcmds.find? (fun x => x.gid == d.gid && x.n == n && x.sent) with
      | some x => finishCmd m1 c x (d.ans.getD 0) 0
      | none =>
        match m.group? d.gid with
        | some g => if g.stat = .saved then m else m1
        | none => m1))

end Sys2Proof.Machine
end

