-- ==== Sys2Proof/Machine/Place.lean ====
section
/-!
DEFINITION. How groups come onto cores (11, 21, 25): the ranking of heads, what fits, taking a core,
placement and restore.
-/

namespace Sys2Proof.Machine

/-! What a group takes (R219, R349). -/

/-- Scratchpad that a group reserves (Table 11-1). -/
def LaunchRec.pad (x : LaunchRec) : Nat := (x.scratch + 767) / 768 * 768

/-- Bytes of a group's save record (R349). -/
def LaunchRec.saveBytes (x : LaunchRec) : Nat :=
  578880 + x.threads * (320 + 4 * x.regs) + (x.scratch + 63) / 64 * 64

/-- Groups that hold something on a core: resident, or with a reserved allocation (R231). -/
def holders (m : Mach) (c : Nat) : List Group := m.groups.filter (fun g => g.core == c && (g.onCore || g.keeps))

/-- Whether a group of a context and a record fits on a core under every limit at once (R219); none comes beside a group
that drains (R227). -/
def coreFits (m : Mach) (cid : Nat) (x : LaunchRec) (c : Nat) : Bool :=
  let hs := holders m c
  let rs := (hs.filter (fun g => g.onCore)).map (fun g => m.recOf g.gid)
  let d := m.die (c / 64)
  let k := m.core c
  !d.held && !d.fatal && !k.fenced && !k.stopping && !hs.any (fun g => g.stat == .draining) && (k.cid.isNone || k.cid == some cid) &&
    decide (rs.length < Config.groups) &&
    decide ((rs.map (fun y => y.threads)).sum + x.threads ≤ Config.slots) &&
    decide ((rs.map (fun y => y.threads * y.regs)).sum + x.threads * x.regs ≤ Config.regs) &&
    decide ((hs.map (fun g => (m.recOf g.gid).pad)).sum + x.pad ≤ Config.scratch)

/-- The cores of a placement on core `c`: a cluster set takes the cores of its ranks (R221). -/
def LaunchRec.coresAt (x : LaunchRec) (c : Nat) : List Nat :=
  if x.setSize ≤ 1 then [c] else (List.range x.setSize).map (fun r => c / 4 * 4 + r)

/-- The core of a group within a placement on `c`. -/
def LaunchRec.coreFor (x : LaunchRec) (c gix : Nat) : Nat :=
  if x.setSize ≤ 1 then c else c / 4 * 4 + gix % x.setSize

/-! Pending groups (R208, R221). -/

/-- Groups of a die placed so far. -/
def Kernel.placedOn (k : Kernel) (d : Nat) : Nat := (lget k.placed d).getD 0

/-- The least of some numbers. -/
def leastOf : List Nat → Option Nat
  | [] => none
  | a :: l => match leastOf l with
    | none => some a
    | some b => some (min a b)

/-- The next pending group of a die, or the first of its next set: flushed groups come first (R229). -/
def Kernel.nextGix (k : Kernel) (d : Nat) : Option Nat :=
  let r := k.rc.ranges.getD d (0, 0)
  match leastOf (k.again.filter (fun g => decide (r.1 ≤ g) && decide (g < r.1 + r.2))) with
  | some g => some g
  | none => if k.placedOn d < r.2 then some (r.1 + k.placedOn d) else none

/-- Whether a group is pending. -/
def Kernel.pendingGix (k : Kernel) (g : Nat) : Bool :=
  k.status == 0 && (k.again.contains g || (List.range 4).any (fun d =>
    let r := k.rc.ranges.getD d (0, 0)
    decide (r.1 + k.placedOn d ≤ g) && decide (g < r.1 + r.2)))

/-- Whether a kernel has no pending group on any die: a decided end drops them (R217). -/
def Kernel.allPlaced (k : Kernel) : Bool :=
  k.status != 0 || (List.range 4).all (fun d => (k.nextGix d).isNone)

/-! Ranking (R375). -/

/-- Whether the first kernel ranks above the second: band, deadline, queue creation; of the widened calls of one context,
which are all heads, sequence number (R375, R368). -/
def Kernel.above (a b : Kernel) : Bool :=
  let da := if a.rc.deadline = 0 then 2 ^ 64 else a.rc.deadline
  let db := if b.rc.deadline = 0 then 2 ^ 64 else b.rc.deadline
  decide (b.rc.band < a.rc.band) || (a.rc.band == b.rc.band &&
    (decide (da < db) || (da == db && (decide (a.qid < b.qid) || (a.qid == b.qid && decide (a.seq < b.seq))))))

/-- A kernel at the head of its queue; the queue of widened calls keeps no order (R367). -/
def isHead (m : Mach) (k : Kernel) : Bool :=
  match m.queue? k.qid with
  | some q => q.num == 1023 || q.kids.head? == some k.kid
  | none => false

/-- A head whose groups may be placed. -/
def placeable (m : Mach) (k : Kernel) : Bool :=
  k.status == 0 && (k.stat == .queued || k.stat == .running) && isHead m k

/-- A late kernel (R216). -/
def Kernel.late (k : Kernel) (now : Nat) : Bool := k.rc.deadline != 0 && decide (k.rc.deadline < now)

/-- Its next pending group, or set, of the die fits on a core (R219). -/
def fitsOn (m : Mach) (k : Kernel) (c : Nat) : Bool :=
  placeable m k && (k.nextGix (c / 64)).isSome && (k.rc.coresAt c).all (coreFits m k.cid k.rc)

/-- The reserved records of a context: offset and size. -/
def recsOf (m : Mach) (cid : Nat) : List (Nat × Nat) :=
  (m.groups.filter (fun g => g.stat != .exited && cidOf m g.gid == cid)).map (fun g => (g.recAt, (m.recOf g.gid).saveBytes))

/-- The lowest place in a save area where a record fits beside others (log 25). -/
def roomAt (size len : Nat) (used : List (Nat × Nat)) : Option Nat :=
  leastOf ((0 :: used.map (fun u => u.1 + u.2)).filter (fun a =>
    decide (a + len ≤ size) && used.all (fun u => decide (a + len ≤ u.1) || decide (u.1 + u.2 ≤ a))))

/-- Places for some records of one size. -/
def recPlaces (size len : Nat) : Nat → List (Nat × Nat) → Option (List Nat)
  | 0, _ => some []
  | n + 1, used =>
    match roomAt size len used with
    | none => none
    | some a => (recPlaces size len n ((a, len) :: used)).map (fun l => a :: l)

/-- Places for the save records of a kernel's next group or set (R349). -/
def recRoom (m : Mach) (k : Kernel) : Option (List Nat) :=
  match m.ctx? k.cid with
  | some x =>
    if x.stat = .ending ∨ x.stat = .gone then none
    else recPlaces x.saveSize k.rc.saveBytes (max 1 k.rc.setSize) (recsOf m k.cid)
  | none => none

/-- It fits on a core, and its save records can be reserved. -/
def pendingFits (m : Mach) (k : Kernel) (c : Nat) : Bool := fitsOn m k c && (recRoom m k).isSome

/-! Saved groups. -/

/-- The groups of a set, whatever their state: the group itself outside one. -/
def setOf (m : Mach) (g : Group) : List Group :=
  let c := max 1 (m.recOf g.gid).setSize
  m.groups.filter (fun h => h.kid == g.kid && h.gix / c == g.gix / c)

/-- The members of a group's set that have not exited or ended. -/
def liveSet (m : Mach) (g : Group) : List Group :=
  (setOf m g).filter (fun h => h.stat != .exited && h.stat != .faulted)

/-- A wait on a barrier object that has released or broken since (R241). -/
def waitOver (m : Mach) (t : Thread) : Bool :=
  match t.stat with
  | .waiting (.barrier bid ph _ _ _ _) =>
    (match m.barrier? bid with | some b => b.phase != ph || b.broken.isSome | none => true)
  | _ => false

/-- A group saved to make room whose barrier has released. -/
def roomOver (m : Mach) (g : Group) : Bool :=
  !g.room || m.threads.any (fun t => t.gid == g.gid && waitOver m t)

/-- An image that a core does not hold can be loaded: its bank is not pinned (R293, R295). -/
def codeLoads (k : Core) (img : List Nat) : Bool :=
  img == (if k.codeCur then k.code1 else k.code0) || !k.tcmds.any (fun x => x.bank == some (!k.codeCur))

/-- Whether a saved group may return to a core: its tiles and registers are free there (R281), and it is not
the hot core it left (R230). -/
def savedFits (m : Mach) (g : Group) (c : Nat) : Bool :=
  let k := m.core c
  let x := m.recOf g.gid
  g.die == c / 64 && coreFits m (cidOf m g.gid) x c &&
    g.save.tiles.all (fun t => (lget k.tiles t.1).isNone) && g.save.pvs.all (fun p => (lget k.pvs p.1).isNone) &&
    codeLoads k g.save.codeTab &&
    (match g.avoid with
      | some a => if x.setSize ≤ 1 then a != c else a / 4 != c / 4
      | none => true)

/-- Whether the whole set of a saved group may return to core `c`, or the cores of its cluster. -/
def setReturns (m : Mach) (g : Group) (c : Nat) : Bool :=
  let hs := liveSet m g
  hs.all (fun h => h.stat == .saved && savedFits m h ((m.recOf h.gid).coreFor c h.gix)) && hs.any (roomOver m) &&
    (match m.kernel? g.kid with | some k => k.status == 0 && k.stat == .running | none => false)

/-! What goes first (R375, R376, R382, R241). -/

/-- A saved set of a kernel that could return to a core. -/
def returns (m : Mach) (k : Kernel) (c : Nat) : Bool :=
  m.groups.any (fun g => g.kid == k.kid && g.stat == .saved && setReturns m g c)

/-- A saved set of a kernel's on a die comes back before the kernel's pending groups there: all of a kernel that was
suspended (R382), and one that has made room and whose barrier has released (R241). -/
def returnsFirst (m : Mach) (k : Kernel) (d : Nat) : Bool :=
  m.groups.any (fun g => g.kid == k.kid && g.die == d && g.stat == .saved &&
    (k.preempted || (liveSet m g).any (fun h => h.room && roomOver m h)))

/-- A kernel could use a core. -/
def wants (m : Mach) (k : Kernel) (c : Nat) : Bool := pendingFits m k c || returns m k c

/-- Cores of a die that serve a context. -/
def serving (m : Mach) (cid d : Nat) : List Nat :=
  (m.cores.filter (fun e => e.1 / 64 == d && e.2.cid == some cid)).map Prod.fst

/-- A head that ranks above a kernel comes before it on a core: of the same context where it fits on the
core or on another that serves the context (R375), of any context of the partition for a free core that the placement
takes (R376). No two rank equal: queue creation is an order. -/
def outranked (m : Mach) (k : Kernel) (c : Nat) : Bool :=
  m.kernels.any (fun h => h.kid != k.kid && h.above k &&
    ((h.cid == k.cid && (c :: serving m k.cid (c / 64)).any (wants m h)) ||
      ((m.ctx? h.cid).map (fun x => x.part) == (m.ctx? k.cid).map (fun x => x.part) &&
        (k.rc.coresAt c).any (fun c => (m.core c).cid.isNone && wants m h c))))

/-! Taking a core (R345, R347, R376). -/

/-- The slice length of the partition of a die, in ns. -/
def sliceOf (m : Mach) (c : Nat) : Nat := match partOfCore m c with | some p => p.slice * 1000 | none => 0

/-- A slice of a context on a free core would be skipped: its overrun takes all of it. -/
def sliceSkipped (m : Mach) (c cid : Nat) : Bool :=
  (m.core c).cid.isNone && decide (sliceOf m c ≤ (lget (m.core c).overrun cid).getD 0)

/-- Skip a slice: the rest of the overrun carries forward. -/
def skipSlice (m : Mach) (c cid : Nat) : Mach :=
  m.updCore c (fun k => { k with overrun := lput k.overrun cid ((lget k.overrun cid).getD 0 - sliceOf m c) })

/-- Whether a core holds a group, or the scratchpad of an exited one of a set (R231). -/
def coreHeld (m : Mach) (c : Nat) : Bool := m.groups.any (fun g => g.core == c && (g.onCore || g.keeps))

/-- The state that a context which takes a core finds fresh (R345). -/
def Core.emptied (k : Core) : Core :=
  { k with
    sq := 0, lastSq := 0, copyCtr := 0, copies := [], copyFail := 0, copyStat := 0
    tileCtr := 0, tcmds := [], tileFail := 0, tileStat := 0, tiles := [], pvs := []
    wbuf := [], wown := [], code0 := [], code1 := [], codeCur := false, fts := [], ftlds := [] }

/-- A placement or a restore takes a core that held no groups, or another context's (R345): fresh state,
and for another context no line or clause of before, and a slice shortened by its overrun. -/
def takeCore (m : Mach) (c cid : Nat) : Mach :=
  let len := sliceOf m c
  let same := (m.core c).cid == some cid
  if same && coreHeld m c then m
  else
    let m1 : Mach := { m with bad := m.bad.filter (fun s =>
      match s with | .codeTab k | .ftab k _ => k != c | _ => true) }
    m1.updCore c (fun k =>
      if same then k.emptied
      else { k.emptied with
        cid := some cid, lines := [], fetched := [], due := [], yielded := []
        openC := { serial := k.openC.serial + 1, opened := clkOf m c, solo := k.openC.solo }
        comC := none, ck := {}, comCk := {}
        sliceStart := m.time, sliceEnd := some (m.time + len - (lget k.overrun cid).getD 0)
        overrun := ldel k.overrun cid, stopping := false })

/-- A context that gets a core serves (Table 21-2). -/
def ctxServes (m : Mach) (cid : Nat) : Mach :=
  m.updCtx cid (fun x => if x.stat = .ending ∨ x.stat = .gone then x else { x with stat := .serving })

/-- The lowest slots of a core that no thread holds. -/
def freeSlots (m : Mach) (c n : Nat) : List Nat :=
  ((List.range Config.slots).filter (fun s => !(threadsOn m c).any (fun t => t.slot == s))).take n

/-- Threads and a group that come onto a core enter its checkpoints as they are. -/
def enterCk (m : Mach) (c gid : Nat) : Mach :=
  let ts := m.threads.filter (fun t => t.gid == gid)
  let gs := (m.groups.filter (fun g => g.gid == gid)).map (fun g => (g.gid, g.k, g.rj))
  let add (k : Ckpt) : Ckpt := { threads := k.threads ++ ts, groups := k.groups ++ gs }
  m.updCore c (fun k => { k with ck := add k.ck, comCk := if k.comC.isSome then add k.comCk else k.comCk })

/-! Placement (R209, R221). -/

/-- The stack pointer of a new thread (R209). -/
def LaunchRec.spOf (x : LaunchRec) (gix tix : Nat) : Nat :=
  if x.stack = 0 then 0 else (x.stackBase.toNat + (gix * x.threads + tix + 1) * x.stack) % 2 ^ 64

/-- A thread as it starts (R209). -/
def startThread (x : LaunchRec) (gid gix tix slot : Nat) : Thread :=
  let t : Thread := { gid := gid, tix := tix, slot := slot, pos := ⟨x.entry, 0⟩, landed := true }
  (t.wrD ra0 x.args).wrD rSP (BitVec.ofNat 64 (x.spOf gix tix))

/-- The call of a hart that waits for a kernel (R367). -/
def callOf (m : Mach) (d : Nat) (k : Kernel) : Option (Nat × WCall) :=
  k.hart.bind (fun h => (((lget (m.die d).harts h).getD {}).calls.find? (fun w => w.kid == some k.kid)).map (fun w => (h, w)))

/-- A lane of a widened call: the caller's image, with its own stack (R367). -/
def laneThread (t : Thread) (w : WCall) : Thread :=
  let sp := addr64 ((xreg w.img 2).toNat - 256 - (t.tix * w.stride : Nat))
  (withImage t 128 w.img).wrD rSP (BitVec.ofNat 64 sp)

/-- Place one group on a core, with its save record at an offset: the threads of each lane set form one pack (R142). The
lanes of a widened call acquire at `.die` before they start. -/
def placeGroup (m : Mach) (k : Kernel) (gix c at_ : Nat) : Mach :=
  let gid := m.nextId
  let slots := freeSlots m c k.rc.threads
  let call := callOf m (c / 64) k
  let m := takeCore m c k.cid
  let g : Group := { gid := gid, kid := k.kid, gix := gix, die := c / 64, core := c, placedAt := m.time, recAt := at_ }
  let ts := (List.range k.rc.threads).map (fun i =>
    { startThread k.rc gid gix i (slots.getD i 0) with pack := gid + 1 + i / 32 })
  let next := gid + 1 + (k.rc.threads + 31) / 32
  let m : Mach := match call with
    | some (h, w) => acqDo { m with
        nextId := next
        groups := m.groups ++ [{ g with width := k.rc.threads, caller := some (h, (xreg w.img 1).toNat) }]
        threads := m.threads ++ ts.map (fun t => laneThread t w) } c 2
    | none => { m with nextId := next, groups := m.groups ++ [g], threads := m.threads ++ ts }
  addDue (enterCk m c gid) c 12

/-- The kernel after a group, or a set, of a die has been placed. -/
def Kernel.afterPlace (k : Kernel) (d gix n : Nat) : Kernel :=
  { k with
    stat := .running
    again := k.again.filter (fun g => decide (g < gix) || decide (gix + n ≤ g))
    placed := if k.again.contains gix then k.placed else lput k.placed d (k.placedOn d + n) }

/-- Place the next pending group or set of a kernel, with its save records. -/
def placeNext (m : Mach) (k : Kernel) (c gix : Nat) : Mach :=
  let n := max 1 k.rc.setSize
  let at_ := (recRoom m k).getD []
  let m := (List.range n).foldl (fun m r => placeGroup m k (gix + r) (k.rc.coreFor c (gix + r)) (at_.getD r 0)) m
  ctxServes (m.updKernel k.kid (fun k => k.afterPlace (c / 64) gix n)) k.cid

/-! Leaving by save: its beginning (R228, R413). -/

/-- Drain-adds in modes 1 and 2, issued before a save begins, that the tiles of a set's groups will take; and the groups'
own commands give up the array. -/
def markMeant (m : Mach) (gids : List Nat) : Mach :=
  let owner (c i cid : Nat) : Option Nat :=
    match tileOwner m c i with
    | some o => if gids.contains o.gid && cidOf m o.gid == cid then some o.gid else none
    | none => none
  { m with
    dadds := m.dadds.map (fun d =>
      if d.ok && d.pkg.isNone && d.toGid.isNone && d.ans.isNone then { d with toGid := owner d.target d.ty d.cid } else d)
    cores := m.cores.map (fun e => (e.1, { e.2 with tcmds := (e.2.tcmds.map (fun x =>
      if gids.contains x.gid then { x with holds := false } else x)).map (fun x =>
      match x.op with
      | .dadd desc ty =>
        if x.meant.isNone && !x.sent && desc % 4 == 1 then
          { x with meant := owner (e.1 / 64 * 64 + desc / 16 % 64) ty (cidOf m x.gid) } else x
      | _ => x) })) }

/-- Begin the save of some groups: issue stops for them, and their cores close with cause 11. -/
def beginSave (m : Mach) (gs : List Group) (room : Bool) (avoid : Bool) : Mach :=
  let m := gs.foldl (fun m g => addDue (m.updGroup g.gid (fun g => { g with
    stat := .saving, room := room, avoid := if avoid then some g.core else none })) g.core 11) m
  markMeant m (gs.map (fun g => g.gid))

/-- Every live thread of a group waits in `bar` or `barw` on a barrier that counts a pending group (R241). -/
def waitsPending (m : Mach) (k : Kernel) (g : Group) : Bool :=
  let ts := m.threads.filter (fun t => t.gid == g.gid && t.stat != .exited)
  !ts.isEmpty && ts.all (fun t =>
    match t.stat with
    | .waiting (.barrier bid ph _ _ _ true) =>
      (match m.barrier? bid with
        | some b => b.phase == ph && b.broken.isNone &&
            (k.again.any (fun p => decide (b.key.gLo ≤ p) && decide (p < b.key.gLo + b.key.gN)) ||
              (List.range 4).any (fun d =>
                let r := k.rc.ranges.getD d (0, 0)
                decide (max b.key.gLo (r.1 + k.placedOn d) < min (b.key.gLo + b.key.gN) (r.1 + r.2))))
        | none => false)
    | _ => false)

/-- The group that makes room on a die for a kernel's next: the eligible one, of an eligible set, with the
highest index (R241). -/
def makesRoom (m : Mach) (k : Kernel) (d : Nat) : Option Group :=
  (m.groups.filter (fun g => g.kid == k.kid && g.die == d && g.stat == .live &&
    (liveSet m g).all (fun h => h.stat == .live && waitsPending m k h))).foldl (fun a g =>
      match a with
      | none => some g
      | some b => if b.gix < g.gix then some g else some b) none

/-- The first group of a head is late, and its queue drops late kernels (R216, R380). -/
def dropsLate (m : Mach) (k : Kernel) : Bool :=
  k.stat == .queued && k.late m.time && (match m.queue? k.qid with | some q => q.dropLate | none => false)

/-- GROUP_PLACE (R208, R221, R375, R376): the dispatcher of a die places the next pending group, or set, of
a head. At the instant of its first placement a late one of a drop-late queue is dropped (R380). Where the group fits on
no core of the die, a group that waits for it makes room (R241). -/
def execGroupPlace (kid die core : Nat) (s : State) : Host.Outcome State Fault Refusal :=
  .next (s.onMach (fun m =>
    match m.kernel? kid with
    | none => m
    | some k =>
      match k.nextGix die with
      | none => m
      | some gix =>
        if core / 64 ≠ die ∨ !placeable m k then m
        else if pendingFits m k core then
          if outranked m k core || returnsFirst m k die then m
          else
            match (k.rc.coresAt core).find? (fun c => sliceSkipped m c k.cid) with
            | some c => skipSlice m c k.cid
            | none =>
              if dropsLate m k then m.updKernel kid (fun k => { k with status := 3, stat := .closing })
              else placeNext m k core gix
        else if (List.range 64).any (fun i => fitsOn m k (die * 64 + i)) then m
        else
          match makesRoom m k die with
          | some g => beginSave m (liveSet m g) true false
          | none => m))

/-! Restore (R228, R350, R351, R140, R295, R311). -/

/-- What a core takes over from a save record. -/
def Core.restore (k : Core) (g : Group) : Core :=
  let s := g.save
  let cur := if k.codeCur then k.code1 else k.code0
  { k with
    copyCtr := max k.copyCtr s.topCopy, copies := s.copies ++ k.copies
    tileCtr := max k.tileCtr s.topTile, tcmds := k.tcmds ++ s.tcmds
    tiles := s.tiles.foldl (fun l t => lput l t.1 t.2) k.tiles
    pvs := s.pvs.foldl (fun l p => lput l p.1 p.2) k.pvs
    fts := s.fts.foldl (fun l f => let x := (lget l f.1).getD {}
      if x.bank = (f.2.1, f.2.2) then l else lput l f.1 (x.flip f.2.1 f.2.2)) k.fts
    code0 := if s.codeTab ≠ cur ∧ k.codeCur then s.codeTab else k.code0
    code1 := if s.codeTab ≠ cur ∧ !k.codeCur then s.codeTab else k.code1
    codeCur := if s.codeTab = cur then k.codeCur else !k.codeCur
    wbuf := s.units.foldl (fun l u => cwrite l (64 * u) (cread s.wbuf (64 * u) 64)) k.wbuf
    wown := s.units.foldl (fun l u => lput l u g.gid) k.wown }

/-- What a thread's wait has become while it was saved (R241, R213, R214, R351, R184). -/
def rewait (m : Mach) (t : Thread) : Mach :=
  match t.stat with
  | .waiting (.barrier bid _ _ _ _ _) =>
    (match m.barrier? bid with
      | some b => freeWaiter m b t
      | none => m)
  | .waiting (.svc n) =>
    (match ((m.ctxOf t.gid).map (fun x => x.replies)).bind (fun l => l.find? (fun r => r.1 == n)) with
      | some r =>
        let m := updBoth m t.gid t.tix (fun t => ((t.wrD ra0 r.2.1).wrD (ra0 + 2) r.2.2).freed)
        m.updCtx (cidOf m t.gid) (fun x => { x with replies := x.replies.filter (fun r => r.1 != n) })
      | none => m)
  | .waiting (.sleep w) => if w ≤ m.time then updBoth m t.gid t.tix Thread.freed else m
  | .waiting (.addr glob ea wp v d woken _) =>
    let x := wordOf (if glob then homeRead m (m.dieOf t.gid) wp 4 else padRead m t.gid ea 4)
    if woken ∨ x ≠ v then updBoth m t.gid t.tix (fun t => (t.wr d x).freed) else m
  | _ => m

/-- The transit record of a thread that is away moves to its new home slot, and the pointer of its visitor context with it
(R228, R358). -/
def reRecord (m : Mach) (t : Thread) : Mach :=
  let die := m.dieOf t.gid
  let d := m.die die
  let mine (x : Transit) : Bool := x.gid == t.gid && x.tix == t.tix
  match d.vq.find? mine, d.homing.find? mine, d.visitors.find? (fun v => v.2.gid == t.gid && v.2.tix == t.tix) with
  | some x, _, _ => putRecord m t x.img x.pc 0
  | none, some x, _ => putRecord m t x.img x.pc 2
  | none, none, some v => putPointer (putRecord m t v.2.img v.2.pc 1) die v.1 (recordAddr m t)
  | none, none, none => m

/-- Restore one saved group onto a core. -/
def restoreGroup (m : Mach) (g : Group) (c : Nat) : Mach :=
  let slots := freeSlots m c (m.recOf g.gid).threads
  let m := takeCore m c (cidOf m g.gid)
  let m := m.updGroup g.gid (fun g => { g with
    stat := .live, core := c, placedAt := m.time, avoid := none, room := false
    save := { topCopy := g.save.topCopy, topTile := g.save.topTile } })
  let m : Mach := { m with threads := m.threads.map (fun t =>
    if t.gid == g.gid then { t with slot := slots.getD t.tix 0, pack := 0, demoted := false, ageing := 0, aged := false } else t) }
  let m := (m.threads.filter (fun t => t.gid == g.gid && t.stat == .transit)).foldl reRecord m
  let m := acqDo (enterCk (m.updCore c (fun k => k.restore g)) c g.gid) c 2
  let m := (m.threads.filter (fun t => t.gid == g.gid)).foldl rewait m
  let m := g.save.tiles.foldl (fun m t => serve m c t.1) m
  addDue (freeTl (freeTl m c false) c true) c 12

/-- GROUP_RESTORE (R228, R221, R281): a saved group, with its whole set, is loaded onto a core of its die. The last of a
suspended kernel's ends its precedence (R382). -/
def execGroupRestore (gid core : Nat) (s : State) : Host.Outcome State Fault Refusal :=
  .next (s.onMach (fun m =>
    match m.group? gid, m.kernelOf gid with
    | some g, some k =>
      if g.stat ≠ .saved ∨ !setReturns m g core ∨ outranked m k core then m
      else
        match (k.rc.coresAt core).find? (fun c => sliceSkipped m c k.cid) with
        | some c => skipSlice m c k.cid
        | none =>
          let m := ctxServes ((liveSet m g).foldl (fun m h => restoreGroup m h (k.rc.coreFor core h.gix)) m) k.cid
          m.updKernel k.kid (fun k => { k with
            preempted := k.preempted && m.groups.any (fun h => h.kid == k.kid && h.stat == .saved) })
    | _, _ => m))

end Sys2Proof.Machine
end

