-- ==== Sys2Proof/Machine/Leave.lean ====
section
/-!
DEFINITION. How groups and kernels leave cores (10, 11, 21, 25): stop requests, saves, exits, faulted
groups and stopped kernels, and a core's end for its context.
-/

namespace Sys2Proof.Machine

/-! Stop requests (R224, R225, R347). -/

/-- The context a core serves. -/
def ctxOn (m : Mach) (c : Nat) : Option Ctx := (m.core c).cid.bind m.ctx?

/-- Live threads of a group (R223). -/
def liveThreads (m : Mach) (gid : Nat) : List Thread := m.threads.filter (fun t => t.gid == gid && t.stat != .exited)

/-- Resident time of a group (R224). -/
def residentNs (m : Mach) (g : Group) : Nat := g.ns + (m.time - g.placedAt)

/-- The progress estimate of a group (R224). -/
def progress (m : Mach) (g : Group) : Nat :=
  let t := (m.recOf g.gid).threads
  let x := t - (liveThreads m g.gid).length
  let l := match m.kernel? g.kid with
    | some k => (lget k.recent g.die).getD []
    | none => []
  min 100 (max (100 * x / t) (if l.sum = 0 then 0 else 100 * residentNs m g * l.length / l.sum))

/-- A parked thread, or one in transit. -/
def TStat.away : TStat → Bool
  | .parked _ | .transit => true
  | _ => false

/-- Row 1 of Table 11-3. -/
def mayDrain (m : Mach) (g : Group) : Bool :=
  decide (90 ≤ progress m g) && !(liveThreads m g.gid).any (fun t => t.stat.away)

/-- Row 2 of Table 11-3. -/
def mayFlush (m : Mach) (g : Group) : Bool := (m.recOf g.gid).idem && !g.escaped

/-- Free what a group holds of its core. -/
def Core.without (k : Core) (gid : Nat) : Core :=
  { k with
    tiles := k.tiles.filter (fun t => t.2.gid != gid), pvs := k.pvs.filter (fun p => p.2.gid != gid)
    wown := k.wown.filter (fun w => w.2 != gid)
    tcmds := k.tcmds.filter (fun x => x.gid != gid), copies := k.copies.filter (fun x => x.gid != gid) }

/-- Forget a group in the checkpoints of a core. -/
def leaveCk (k : Core) (gid : Nat) : Core :=
  let cut (x : Ckpt) : Ckpt :=
    { threads := x.threads.filter (fun t => t.gid != gid), groups := x.groups.filter (fun g => g.1 != gid) }
  { k with ck := cut k.ck, comCk := cut k.comCk }

/-- A group's barrier objects are those of its own threads, up to the group level (R234). -/
def ownBarrier (b : Barrier) (kid gix : Nat) : Bool := b.kid == kid && b.key.gN == 1 && b.key.gLo == gix

/-- Some threads leave the headland: no queue, return or visitor context of the die holds them, and the pointer of such a
context is 0 (R358, R360). -/
def leaveHeadland (m : Mach) (die gid : Nat) : Mach :=
  let vs := (m.die die).visitors.filter (fun v => v.2.gid == gid)
  let m := vs.foldl (fun m v => putPointer m die v.1 0) m
  m.updDie die (fun d => { d with
    vq := d.vq.filter (fun x => x.gid != gid), homing := d.homing.filter (fun x => x.gid != gid)
    visitors := d.visitors.filter (fun v => v.2.gid != gid) })

/-- The squash of a flush (R229, R255): kind 4, and cause 14 where it closes a chunk that is not empty. -/
def flushSquash (m : Mach) (c : Nat) : Mach :=
  let full := !chunkEmpty m c
  (squash m c 4).updCore c (fun k => { k with lastClose := if full then 14 else k.lastClose })

/-- Flush one group (R229): it is pending again. -/
def flushGroup (m : Mach) (g : Group) : Mach :=
  let m := (flushSquash m g.core).updCore g.core (fun k => leaveCk (k.without g.gid) g.gid)
  let m := m.updKernel g.kid (fun k => { k with
    again := g.gix :: k.again, exits := k.exits.filter (fun e => e.1 != g.gix) })
  leaveHeadland { m with
    groups := m.groups.filter (fun h => h.gid != g.gid)
    threads := m.threads.filter (fun t => t.gid != g.gid)
    barriers := m.barriers.filter (fun b => !ownBarrier b g.kid g.gix) } g.die g.gid

/-- The choice of a group, with its set, at a stop request (Table 11-3). A set changes as a whole, and an exited group is
flushed no more: a set with one that has ended is not flushed (R223, log 103). -/
def chooseLeave (m : Mach) (gid : Nat) : Mach :=
  match m.group? gid with
  | none => m
  | some g =>
    let hs := liveSet m g
    if g.stat ≠ .live ∨ !hs.all (fun h => h.stat == .live) then m
    else if hs.all (mayDrain m) then hs.foldl (fun m h => m.updGroup h.gid (fun h => { h with stat := .draining })) m
    else if hs.length == (setOf m g).length && hs.all (mayFlush m) then hs.foldl flushGroup m
    else beginSave m hs false false

/-- STOP_REQUEST (R225, R347). -/
def execStopRequest (core : Nat) (s : State) : Host.Outcome State Fault Refusal :=
  .next (s.onMach (fun m =>
    match (m.core core).sliceEnd, ctxOn m core with
    | some e, some x =>
      if (m.core core).stopping ∨ m.time + x.drain < e then m
      else
        let gs := residents m core
        gs.foldl (fun m g => chooseLeave m g.gid) (m.updCore core (fun k => { k with stopping := true }))
    | _, _ => m))

/-- DRAIN_LIMIT_EXPIRE (R227): what still drains a drain time after the slice end is saved. -/
def execDrainLimitExpire (core : Nat) (s : State) : Host.Outcome State Fault Refusal :=
  .next (s.onMach (fun m =>
    match (m.core core).sliceEnd, ctxOn m core with
    | some e, some x =>
      if m.time < e + x.drain then m
      else (residents m core).foldl (fun m g =>
        match m.group? g.gid with
        | some h => if h.stat = .draining then beginSave m ((liveSet m h).filter (fun y => y.stat == .draining)) false false else m
        | none => m) m
    | _, _ => m))

/-! Saves (R228, R281, R295, R311, R350). -/

/-- The copies that a save carries: the group's copy that is stopped on a fault, and the later ones. -/
def carried (k : Core) (gid : Nat) : List Copy :=
  (k.copies.filter (fun x => x.gid == gid)).dropWhile (fun x => x.stopped.isNone)

/-- A command that a save does not wait for: one that rests (R281, R311), or whose read is done. -/
def restsAt (m : Mach) (k : Core) (x : TCmd) : Bool := x.sent || (restingCmds m k.tcmds).contains x

/-- Every drain-add aimed at a group that was issued before its save began has been applied or refused, but for one that an
unfinished command of its tile or of its sender holds back (R350, R413). -/
def addsDone (m : Mach) (g : Group) : Bool :=
  !m.dadds.any (fun d => d.toGid == some g.gid && d.ok && d.ans.isNone && !tileBegun (m.core g.core) d.ty &&
      !(m.core d.core).tcmds.any (fun x => daddAhead m d x && (restingCmds m (m.core d.core).tcmds).contains x)) &&
    !m.cores.any (fun e => e.2.tcmds.any (fun x => x.meant == some g.gid && !x.sent && !(restingCmds m e.2.tcmds).contains x))

/-- Everything that the save of a group waits for has happened. -/
def saveReady (m : Mach) (g : Group) : Bool :=
  let k := m.core g.core
  g.stat == .saving && !m.running.any (fun r => r.gid == g.gid) && !k.due.contains 11 && k.comC.isNone &&
    (k.copies.filter (fun x => x.gid == g.gid)).length == (carried k g.gid).length &&
    (k.tcmds.filter (fun x => x.gid == g.gid)).all (restsAt m k) && !k.ftlds.any (fun x => x.gid == g.gid) &&
    !m.stxs.any (fun x => !x.done && (x.gid == g.gid || x.toGid == g.gid)) &&
    !m.repls.any (fun x => x.gid == g.gid) && !m.hostWrs.any (fun x => x.gid == g.gid) && addsDone m g

/-- The save record of a group on its core. -/
def recordOf (k : Core) (g : Group) : SaveRec :=
  let units := (k.wown.filter (fun w => w.2 == g.gid)).map Prod.fst
  { g.save with
    codeTab := if k.codeCur then k.code1 else k.code0
    fts := (List.range 4).map (fun i => let f := (lget k.fts i).getD {}; (i, f.bank.1, f.bank.2))
    units := units, wbuf := k.wbuf.filter (fun c => units.contains (c.1 / 64))
    tiles := k.tiles.filter (fun t => t.2.gid == g.gid), pvs := k.pvs.filter (fun p => p.2.gid == g.gid)
    tcmds := k.tcmds.filter (fun x => x.gid == g.gid), copies := carried k g.gid }

/-- A thread as it is saved: demotion and ageing are not (R158), and no word is in flight. -/
def Thread.saved (t : Thread) : Thread :=
  { t with pack := 0, demoted := false, ageing := 0, aged := false, poll := false, escAt := none, nextChunk := none
           stat := if t.retrying then .escaping else t.stat, retrying := false }

/-- Save one group: its release, its record, in the save area too, and its core's resources are free. -/
def saveGroup (m : Mach) (g : Group) : Mach :=
  let m := pushAll m g.core true
  let k := m.core g.core
  let m := m.updGroup g.gid (fun x => { x with stat := .saved, ns := residentNs m g, save := recordOf k g })
  let m : Mach := { m with threads := m.threads.map (fun t => if t.gid == g.gid then t.saved else t) }
  (writeRecord m g.gid).updCore g.core (fun k => leaveCk (k.without g.gid) g.gid)

/-- GROUP_SAVE (R228): a group, with its set, leaves its core. -/
def execGroupSave (gid : Nat) (s : State) : Host.Outcome State Fault Refusal :=
  .next (s.onMach (fun m =>
    match m.group? gid with
    | none => m
    | some g =>
      let hs := liveSet m g
      if g.stat = .saving ∧ hs.all (saveReady m) then hs.foldl saveGroup m else m))

/-! The end of a group and of a kernel (R217, R218, R231, R232). -/

/-- Groups of a kernel that have not exited. -/
def openGroups (m : Mach) (kid : Nat) : List Group := m.groups.filter (fun g => g.kid == kid && g.stat != .exited)

/-- A kernel with no group left closes (Table 10-2). -/
def closeIfDone (m : Mach) (kid : Nat) : Mach :=
  if (openGroups m kid).isEmpty then
    m.updKernel kid (fun k => if k.allPlaced ∧ k.stat ≠ .ended then { k with stat := .closing } else k)
  else m

/-- A suspended kernel returns to running when every reply that its threads await has been posted (R382). -/
def wakeKernel (m : Mach) (kid : Nat) : Mach :=
  match m.kernel? kid with
  | none => m
  | some k =>
    let waits (t : Thread) : Bool :=
      (match m.group? t.gid with | some g => g.kid == kid | none => false) &&
        (match t.stat with
          | .waiting (.svc n) => !((m.ctx? k.cid).map (fun x => x.replies.any (fun r => r.1 == n))).getD false
          | _ => false)
    if k.stat = .suspended ∧ !m.threads.any waits then m.updKernel kid (fun k => { k with stat := .running }) else m

/-- A group has ended: its resources are free but for a set's scratchpad (R231), its save record is
released (R349), its threads are away no more, its kernel counts it, and a suspended one may need no reply now (R382). -/
def endGroup (m : Mach) (g : Group) : Mach :=
  let x := m.recOf g.gid
  let fine := g.stat != .faulted && g.stat != .saved
  let ns := residentNs m g
  let m := m.updCore g.core (fun k => leaveCk (k.without g.gid) g.gid)
  let m := m.updKernel g.kid (fun k => { k with
    endedG := g.gix :: k.endedG
    recent := if fine then lput k.recent g.die ((ns :: (lget k.recent g.die).getD []).take 64) else k.recent })
  let m := leaveHeadland { m with threads := m.threads.filter (fun t => t.gid != g.gid) } g.die g.gid
  let m := m.updGroup g.gid (fun h => { h with stat := .exited, keeps := g.onCore && decide (1 < x.setSize) })
  let m : Mach := if (setOf m g).all (fun h => h.stat == .exited || h.stat == .faulted) then
      (setOf m g).foldl (fun m h => m.updGroup h.gid (fun h => { h with keeps := false })) m
    else m
  closeIfDone (wakeKernel m g.kid) g.kid

/-- GROUP_EXIT (R231): every exit has committed, and every copy and tile operation of the group is over. -/
def execGroupExit (gid : Nat) (s : State) : Host.Outcome State Fault Refusal :=
  .next (s.onMach (fun m =>
    match m.group? gid with
    | none => m
    | some g =>
      let k := m.core g.core
      if g.onCore && !m.threads.any (fun t => t.gid == gid) && !k.copies.any (fun x => x.gid == gid) &&
          !k.tcmds.any (fun x => x.gid == gid) && !k.ftlds.any (fun x => x.gid == gid) then endGroup m g
      else m))

/-- The factorisations and halted commands of a group that stops end with status 2 (R312), and its copy that waits on a fault is
abandoned. -/
def stopFactors (m : Mach) (g : Group) : Mach :=
  let m := m.updCore g.core (fun k => { k with copies := k.copies.map (fun x =>
    if x.gid == g.gid && x.stopped.isSome then { x with stopped := none, status := 2 } else x) })
  ((m.core g.core).tcmds.filter (fun x => x.gid == g.gid && (x.op.factor || x.halt.isSome))).foldl (fun m x => finishCmd m g.core x 2 0) m

/-- The threads of a group that ends: they stop at their next clause boundary, and leave the headland. -/
def stopThreads (m : Mach) (g : Group) : Mach :=
  leaveHeadland ((m.threads.filter (fun t => t.gid == g.gid)).foldl (fun m t =>
    updBoth m t.gid t.tix (fun t => { t with stop := true })) m) g.die g.gid

/-- Stop one group of a kernel that ends, or a group that ends faulted: a saved one ends at once. -/
def stopGroup (m : Mach) (g : Group) : Mach :=
  if g.stat = .saved then endGroup m g
  else addDue (stopThreads (stopFactors m g) g) g.core 10

/-- A group ends faulted (R232): its barriers break with cause 2 (R242), and its kernel runs on (R217). -/
def faultGroup (m : Mach) (gid : Nat) : Mach :=
  match m.group? gid with
  | none => m
  | some g =>
    if g.stat = .exited ∨ g.stat = .faulted then m
    else
      let m := breakBarriers m g.kid 2 g.gix 1
      let m := m.updKernel g.kid (fun k => { k with faulted := k.faulted + 1 })
      let m := m.updGroup gid (fun g => { g with stat := if g.stat = .saved then g.stat else .faulted })
      stopGroup m g

/-- A kernel stops with a status (R217): 4 cancelled, 5 lost. Its pending groups are dropped, and its barriers
break: with cause 1 for the groups of a lost die, else 3. Its placed groups end faulted (R232). -/
def stopKernel (m : Mach) (kid st : Nat) (lost : Option (Nat × Nat)) : Mach :=
  match m.kernel? kid with
  | none => m
  | some k =>
    if k.stat = .ended ∨ k.stat = .closing ∨ k.status ≠ 0 then m
    else
      let m := m.updKernel kid (fun k => { k with status := st, again := [] })
      let m := m.updKernel kid (fun k => { k with
        faulted := k.faulted + (openGroups m kid).countP (fun g => g.stat != .faulted) })
      let m : Mach := { m with groups := m.groups.map (fun g =>
        if g.kid == kid && g.stat == .saving then { g with stat := .live } else g) }
      let m : Mach := match lost with
        | some r => breakBarriers m kid 1 r.1 r.2
        | none => breakBarriers m kid 3 0 k.rc.groupCount
      let m : Mach := { m with groups := m.groups.map (fun g =>
        if g.kid == kid && (g.stat == .live || g.stat == .draining) then { g with stat := .faulted } else g) }
      closeIfDone ((openGroups m kid).foldl stopGroup m) kid

/-- KERNEL_CANCEL (R217): status 4. -/
def execKernelCancel (kid : Nat) (s : State) : Host.Outcome State Fault Refusal :=
  .next (s.onMach (fun m => stopKernel m kid 4 none))

/-! Closing a kernel (R218). -/

/-- The status of a completion word. -/
def Kernel.final (k : Kernel) : Nat := if k.status ≠ 0 then k.status else if k.faulted = 0 then 1 else 2

/-- The completion word (R218). -/
def Kernel.doneWord (k : Kernel) : Nat :=
  k.final + min k.faulted (2 ^ 24 - 1) * 256 + k.rc.tag.toNat * 2 ^ 32

/-- A destroyed queue with no kernel left is gone (Table 25-5), and a destroyed context with none (R344). -/
def endEmpty (m : Mach) (cid : Nat) : Mach :=
  let m : Mach := { m with queues := m.queues.map (fun q =>
    if q.stat == .drained && q.kids.isEmpty then { q with stat := .destroyed } else q) }
  match m.ctx? cid with
  | none => m
  | some x =>
    if x.stat ≠ .ending ∨ m.kernels.any (fun k => k.cid == cid && k.stat != .ended) then m
    else
      let m1 : Mach := { m with queues := m.queues.map (fun q => if q.cid == cid then { q with stat := .destroyed } else q) }
      (m1.updCtx cid (fun x => { x with stat := .gone })).updPart x.part (fun p => { p with
        binds := p.binds.filter (fun b => b.cid != cid) })

/-- A kernel ends: its entry is free, and nothing of it is left but what a widened call still reads. -/
def endKernel (m : Mach) (k : Kernel) : Mach :=
  let m := m.updKernel k.kid (fun k => { k with stat := .ended })
  let m := m.updQueue k.qid (fun q => { q with kids := q.kids.filter (fun x => x != k.kid) })
  endEmpty { m with
    groups := m.groups.filter (fun g => g.kid != k.kid || g.caller.isSome)
    barriers := m.barriers.filter (fun b => b.kid != k.kid) } k.cid

/-- The die whose dispatcher closes a kernel: the lowest with groups (log 26). -/
def Kernel.die (k : Kernel) : Nat :=
  ((List.range 4).find? (fun d => (k.rc.ranges.getD d (0, 0)).2 != 0)).getD 0

/-- Every write of a kernel has been performed at `.sys`, those of its threads as visitors with them. -/
def writesDone (m : Mach) (kid : Nat) : Bool :=
  let mine (gid : Nat) : Bool := m.groups.any (fun g => g.gid == gid && g.kid == kid)
  !m.stxs.any (fun x => mine x.gid) && !m.repls.any (fun x => mine x.gid) && !m.hostWrs.any (fun x => mine x.gid)

/-- Write the completion word at its point: none where another party's solo chunk holds it up (R256). -/
def writeDone (m : Mach) (who : Who) (k : Kernel) (x : Xlat) : Option Mach :=
  let bs := natBytes 8 k.doneWord
  match x.cls with
  | 0 =>
    let gs := grainsOf x.pa 8 x.grain
    if soloBlocks m who.part none gs then none
    else
      let pid := match m.partOf who.die with | some p => p.pid | none => 0
      let (m, _) := nextMark m pid
      some (conflicts (publishBytes m x.pa bs) who.part none gs 3)
  | 2 => some (replWrite m who k.kid 0 x.pa bs)
  | _ => some (if deviceMem x.pa then wakeWatch (homeWrite m who.die x.pa bs) x.pa 8 else hostWrite m who k.kid 0 x.pa bs)

/-- The record of a completion address that fails a check (R218). -/
def doneFault (m : Mach) (k : Kernel) (kind cause : Nat) : Mach :=
  postRec m k.cid {
    kind := kind, cause := cause, access := 1, asid := asidOf m k.cid, addr := k.rc.done, clause := k.rc.entry
    place := k.die * 2 ^ 17 }

/-- The partition of a kernel drains: completion words go to host memory only (R399). -/
def drainingOf (m : Mach) (k : Kernel) : Bool :=
  match (m.ctx? k.cid).bind (fun x => m.part? x.part) with
  | some p => p.stat == .draining
  | none => false

/-- Queued kernels of a queue that end with status 4 end in sequence order (R378): an earlier one comes first. -/
def closesLater (m : Mach) (k : Kernel) : Bool :=
  let bare (h : Kernel) : Bool := h.stat == .closing && h.status == 4 && h.placed.isEmpty
  bare k && m.kernels.any (fun h => h.qid == k.qid && decide (h.seq < k.seq) && bare h)

/-- KERNEL_CLOSE (R218): once every write is performed at `.sys`, the completion word, and the end. -/
def execKernelClose (kid : Nat) (s : State) : Host.Outcome State Fault Refusal :=
  .next (s.onMach (fun m =>
    match m.kernel? kid with
    | none => m
    | some k =>
      if k.stat ≠ .closing ∨ !writesDone m kid ∨ closesLater m k then m
      else
        let m := (m.groups.filter (fun g => g.kid == kid)).foldl (fun m g => pushAll m g.core true) m
        if k.rc.done = 0 then endKernel m k
        else
          let who : Who := match m.ctx? k.cid with
            | some x => { core := k.die * 64, die := k.die, asid := pte x.satp.toNat 44 16, root := pte x.satp.toNat 0 44
                          secure := x.secure, part := partDies m k.die }
            | none => { core := k.die * 64, die := k.die, asid := 0, root := 0, secure := false, part := partDies m k.die }
          match translate m who .store k.rc.done with
          | .error (.fault kind c) => endKernel (doneFault m k kind c) k
          | .error (.link _) => endKernel m k
          | .ok (m, x) =>
            if drainingOf m k && homeOf x.pa != .host then endKernel m k else
            match reachable m .store who.die x.pa 8 with
            | .error (.fault kind c) => endKernel (if kind = 5 then m else doneFault m k kind c) k
            | .error (.link _) => endKernel m k
            | .ok () =>
              match writeDone m who k x with
              | some m => endKernel m k
              | none => m))

/-! A core's end for its context (R346, R347). -/

/-- The context no longer holds a core. -/
def ctxAway (m : Mach) (cid : Nat) : Mach :=
  if m.cores.any (fun e => e.2.cid == some cid) then m
  else m.updCtx cid (fun x => if x.stat = .serving then { x with stat := .away } else x)

/-- CORE_GIVE_UP (R346): nothing of the context is left on the core; an overrun is carried, and recorded when
it exceeds the drain time (R347). -/
def execCoreGiveUp (core : Nat) (s : State) : Host.Outcome State Fault Refusal :=
  .next (s.onMach (fun m =>
    let k := m.core core
    match k.cid, k.sliceEnd with
    | some cid, some e =>
      if !(holders m core).isEmpty || !k.openC.empty || k.comC.isSome then m
      else
        let m := pushAll m core true
        let o := m.time - e
        let m := m.updCore core (fun k => { k with
          cid := none, sliceEnd := none, stopping := false, lines := [], fetched := []
          overrun := if o = 0 then k.overrun else lput k.overrun cid ((lget k.overrun cid).getD 0 + o) })
        let m := m.updDie (core / 64) (fun d => { d with trig := d.trig.filter (fun t => t.2 != core) })
        let drain := match m.ctx? cid with | some x => x.drain | none => 0
        let m := if drain < o then postRec m cid {
            kind := 7, asid := asidOf m cid, addr := o, place := core % 64 * 2 ^ 11 + core / 64 * 2 ^ 17 } else m
        ctxAway m cid
    | _, _ => m))

/-! Pre-emption by rank and by service waits (R377, R382). -/

/-- The best kernel with a group resident on a core. -/
def bestOn (m : Mach) (c : Nat) : Option Kernel :=
  ((residents m c).filterMap (fun g => m.kernel? g.kid)).foldl (fun a k =>
    match a with
    | none => some k
    | some b => if k.above b then some k else some b) none

/-- A core whose slice a head may end. -/
def mayTrigger (m : Mach) (h : Kernel) (c : Nat) : Bool :=
  let k := m.core c
  (match k.cid with | some y => y != h.cid | none => false) && decide (k.sliceStart + 100000 ≤ m.time) &&
    (match bestOn m c with | some b => h.above b | none => false)

/-- One core comes before another as the one to take: its best kernel ranks lower, or equal with a lower
number. -/
def takenBefore (m : Mach) (a b : Nat) : Bool :=
  match bestOn m a, bestOn m b with
  | some x, some y => y.above x || (!x.above y && decide (a ≤ b))
  | _, _ => true

/-- PREEMPT_TRIGGER (R377): a head that is not late and fits on no core of the die ends the slice of the core
whose best kernel ranks lowest. -/
def execPreemptTrigger (kid core : Nat) (s : State) : Host.Outcome State Fault Refusal :=
  .next (s.onMach (fun m =>
    match m.kernel? kid with
    | none => m
    | some h =>
      let d := core / 64
      let cores := (List.range 64).map (fun i => d * 64 + i)
      if placeable m h && !h.late m.time && (h.nextGix d).isSome && !cores.any (fitsOn m h) &&
          partDies m d == (match m.ctx? h.cid with | some x => (match m.part? x.part with | some p => p.dies | none => []) | none => []) &&
          mayTrigger m h core && cores.all (fun c => !mayTrigger m h c || takenBefore m core c) &&
          !(m.die d).trig.any (fun t => t.1 == kid) then
        (m.updCore core (fun k => { k with sliceEnd := k.sliceEnd.map (fun e => min e m.time) })).updDie d (fun x =>
          { x with trig := (kid, core) :: x.trig })
      else m))

/-- A group in service wait (R348). -/
def inService (m : Mach) (g : Group) : Bool :=
  let ts := liveThreads m g.gid
  ts.all (fun t => t.stat.away || (match t.stat with | .waiting _ => true | _ => false)) &&
    ts.any (fun t => match t.stat with | .waiting (.svc _) => true | _ => false)

/-- KERNEL_SUSPEND (R348, R382): at the threshold every group of the kernel on a core is saved. -/
def execKernelSuspend (kid : Nat) (s : State) : Host.Outcome State Fault Refusal :=
  .next (s.onMach (fun m =>
    match m.kernel? kid with
    | none => m
    | some k =>
      let th := match m.ctx? k.cid with | some x => x.threshold | none => 0
      let gs := m.groups.filter (fun g => g.kid == kid && g.stat == .live)
      if k.stat = .running ∧ k.status = 0 ∧ th ≠ 0 ∧ !gs.isEmpty ∧
          (th * gs.length + 99) / 100 ≤ gs.countP (inService m) then
        beginSave (m.updKernel kid (fun k => { k with stat := .suspended, preempted := true }))
          (m.groups.filter (fun g => g.kid == kid && (g.stat == .live || g.stat == .draining))) false false
      else m))

/-! Thermal moves and the clock (R16, R17, R230). -/

/-- THERMAL_MOVE (R230): after 2 ms resident, a group of a hot core, with its set, begins to move. -/
def execThermalMove (gid : Nat) (s : State) : Host.Outcome State Fault Refusal :=
  .next (s.onMach (fun m =>
    match m.group? gid with
    | none => m
    | some g =>
      let hs := liveSet m g
      if hs.all (fun h => h.stat == .live && decide (h.placedAt + 2000000 ≤ m.time)) && !hs.isEmpty then beginSave m hs false true
      else m))

/-- CLOCK_SETTING_CHANGE (R17): 1.2 to 2.0 GHz in steps of 100 MHz, on one of the four dies. -/
def execClockSettingChange (die mhz : Nat) (s : State) : Host.Outcome State Fault Refusal :=
  .next (s.onMach (fun m =>
    if die < 4 ∧ 1200 ≤ mhz ∧ mhz ≤ 2000 ∧ mhz % 100 = 0 then m.updDie die (fun d => { d with mhz := mhz }) else m))

/-- SUPPLY_DROOP (R16): it begins or ends on one of the four dies, with the module inside the envelope of R17 or outside
it. Inside, what it stretches is bounded as `stretchRoom` says, however late its end is. -/
def execSupplyDroop (die : Nat) (on : Supply) (s : State) : Host.Outcome State Fault Refusal :=
  .next (s.onMach (fun m =>
    if die < 4 then m.updDie die (fun d => { d with
      droop := match on with
        | .droops outside => some ((d.droop.map Prod.fst).getD m.time, outside)
        | .recovers => none }) else m))

end Sys2Proof.Machine
end

