-- ==== Sys2Proof/Machine/Commands.lean ====
section
/-!
DEFINITION. The supervisor's side (21, 25, 27): the fault queue, the command ring and its commands.
-/

namespace Sys2Proof.Machine

/-! The fault queue (R352). -/

/-- Post the held records that there is room for, oldest first. -/
def postHeld (cid : Nat) : List FRec → Mach → Mach
  | [], m => m
  | f :: l, m =>
    match m.ctx? cid with
    | none => m
    | some x =>
      if x.produced - memNat m (x.desc + 0x38) 8 < x.entries then
        postHeld cid l ((writeRec m x f).updCtx cid (fun x => { x with held := l }))
      else m

/-- FAULT_QUEUE_CONSUME (R352): the supervisor has read `n` more records. -/
def execFaultQueueConsume (cid n : Nat) (s : State) : Host.Outcome State Fault Refusal :=
  .next (s.onMach (fun m =>
    match m.ctx? cid with
    | none => m
    | some x =>
      let c := memNat m (x.desc + 0x38) 8
      if x.produced < c + n then m
      else
        postHeld cid x.held (publishBytes m (x.desc + 0x38) (natBytes 8 (c + n)))))

/-! The command ring (R405). -/

/-- The ring's header. -/
def ringBase (p : Part) : Nat := firmwareBase p.dies + 0x30000000

/-- The address of an entry. -/
def ringEntry (p : Part) (n : Nat) : Nat := ringBase p + 64 + n % 4096 * 64

/-- A supervisor runs in the partition. -/
def Part.live (p : Part) : Bool := p.stat == .running || p.stat == .degraded

/-- Operand `i` of a command. -/
def opAt (ops : List Nat) (i : Nat) : Nat := ops.getD i 0

/-- Write the entries of some commands from an index. -/
def ringPut (p : Part) : Nat → List RingCmd → Mach → Mach
  | _, [], m => m
  | n, c :: cs, m =>
    let bs := natBytes 4 c.code ++ natBytes 4 0 ++ (List.range 6).flatMap (fun i => natBytes 8 (c.ops.getD i 0).toNat) ++ natBytes 8 0
    ringPut p (n + 1) cs (publishBytes m (ringEntry p n) bs)

/-- COMMAND_RING_PRODUCE (R405): entries, then Producer; none past Consumer + 4,095. -/
def execCommandRingProduce (part : Nat) (cmds : List RingCmd) (s : State) : Host.Outcome State Fault Refusal :=
  .next (s.onMach (fun m =>
    match m.part? part with
    | none => m
    | some p =>
      let n := memNat m (ringBase p) 8
      if !p.live ∨ memNat m (ringBase p + 8) 8 + 4096 < n + cmds.length then m
      else publishBytes (ringPut p n cmds m) (ringBase p) (natBytes 8 (n + cmds.length))))

/-- What a command answers. -/
inductive Answer where
  /-- Status 1 with a result. -/
  | done (m : Mach) (res : Nat)
  /-- Status 2, result 0, and nothing changes. -/
  | refuse
  /-- Not yet. -/
  | wait (m : Mach)

/-- Write status and result, advance Consumer, and interrupt the supervisor. -/
def ringDone (m : Mach) (p : Part) (n st res : Nat) : Mach :=
  let a := ringEntry p n
  let m := publishBytes (publishBytes m (a + 4) (natBytes 4 st)) (a + 56) (natBytes 8 res)
  (publishBytes m (ringBase p + 8) (natBytes 8 (n + 1))).updPart p.pid (fun p => { p with irq := p.irq + 1, saving := none })

/-- Perform the entry at Consumer when it is a command of this code that `mine` picks. -/
def ringDo (s : State) (pid code : Nat) (mine : List Nat → Bool) (f : Mach → Part → List Nat → Answer) :
    Host.Outcome State Fault Refusal :=
  .next (s.onMach (fun m =>
    match m.part? pid with
    | none => m
    | some p =>
      let n := memNat m (ringBase p + 8) 8
      let a := ringEntry p n
      let ops := (List.range 6).map (fun i => memNat m (a + 8 + 8 * i) 8)
      if !p.live ∨ n = memNat m (ringBase p) 8 ∨ memNat m a 4 ≠ code ∨ !mine ops then m
      else
        match f m p ops with
        | .done m res => ringDone m p n 1 res
        | .refuse => ringDone m p n 2 0
        | .wait m => m))

/-- Every command of a code. -/
def anyOps : List Nat → Bool := fun _ => true

/-! Contexts (R343, R344). -/

/-- A range of a partition's own memory: one row of Table 9-2. -/
def ownRange (p : Part) (base len : Nat) : Bool :=
  decide (0 < len) && (match homeDie base with | some d => p.dies.contains d | none => false) &&
    homeOf base == homeOf (base + len - 1)

/-- The ranges of the valid secure region entries of the die that holds an address (R404). -/
def secureSpans (m : Mach) (pa : Nat) : List (Nat × Nat) :=
  match homeDie pa with
  | none => []
  | some d => ((m.die d).regions.filter (fun r => pte r.2 62 2 == 3)).map (fun r =>
      (pte r.2 28 28 * 2 ^ 21, (pte r.2 28 28 + pte r.2 0 28) * 2 ^ 21))

/-- How far from an address some ranges reach without a gap. -/
def spanEnd (l : List (Nat × Nat)) : Nat → Nat → Nat
  | 0, a => a
  | n + 1, a => spanEnd l n (l.foldl (fun a s => if s.1 ≤ a then max a s.2 else a) a)

/-- A range of a die lies wholly in a world: in secure entries, or in none (R343). -/
def inWorld (m : Mach) (secure : Bool) (base len : Nat) : Bool :=
  let l := secureSpans m base
  if secure then decide (base + len ≤ spanEnd l 16 base)
  else l.all (fun s => decide (base + len ≤ s.1) || decide (s.2 ≤ base))

/-- A context of a partition by its number. -/
def ctxNum (m : Mach) (p : Part) (n : Nat) : Option Ctx :=
  m.ctxs.find? (fun x => x.part == p.pid && x.num == n && x.stat != .gone)

/-- The fields of a descriptor (Table 21-1). -/
def Ctx.ofDesc (b : List Byte) (desc cid pid num : Nat) : Ctx :=
  let fl := fieldAt b 0x29 1
  { cid := cid, part := pid, num := num, desc := desc, satp := BitVec.ofNat 64 (fieldAt b 0 8), saveBase := fieldAt b 8 8
    saveSize := fieldAt b 16 8, fqBase := fieldAt b 24 8, entries := fieldAt b 0x20 4, drain := fieldAt b 0x24 4
    threshold := fieldAt b 0x28 1, secure := fl % 2 == 1, stopGroup := fl / 2 % 2 == 1 }

/-- A descriptor breaks a limit of Table 21-1, or an open supervisor asks for a secure context (R343, log 104). -/
def descBad (m : Mach) (p : Part) (b : List Byte) (x : Ctx) : Bool :=
  let asid := pte x.satp.toNat 44 16
  pte x.satp.toNat 60 4 != 14 ||
    m.ctxs.any (fun y => y.part == p.pid && y.stat != .gone && pte y.satp.toNat 44 16 == asid) ||
    (x.secure && !Config.supervisorSecure p.pid) ||
    x.saveBase % 4096 != 0 || x.saveSize % 4096 != 0 || !ownRange p x.saveBase (max 1 x.saveSize) ||
    !inWorld m x.secure x.saveBase x.saveSize ||
    !(List.range 17).any (fun i => decide (4 ≤ i) && x.entries == 2 ^ i) ||
    x.fqBase % 32 != 0 || !ownRange p x.fqBase (32 * x.entries) || decide (x.drain < 1000) || decide (10000000 < x.drain) ||
    decide (100 < x.threshold) || decide (3 < fieldAt b 0x29 1) || fieldAt b 0x2A 6 != 0

/-- The lowest number of a range that is not taken. -/
def lowestFree (lo n : Nat) (used : List Nat) : Option Nat :=
  ((List.range n).map (fun i => lo + i)).find? (fun i => !used.contains i)

/-- Create a context from a descriptor's bytes, with its widening queue (R343, R368). -/
def newContext (m : Mach) (p : Part) (desc : Nat) (b : List Byte) (session : Option Nat) : Option (Mach × Nat) :=
  let used := (m.ctxs.filter (fun x => x.part == p.pid && x.stat != .gone)).map (fun x => x.num)
  match lowestFree 1 4095 used with
  | none => none
  | some num =>
    let x : Ctx := { Ctx.ofDesc b desc m.nextId p.pid num with session := session }
    if descBad m p b x then none
    else
      let q : Queue := { qid := m.nextId + 1, part := p.pid, num := 1023, cid := m.nextId, cap := 4096 }
      some ({ m with nextId := m.nextId + 2, ctxs := m.ctxs ++ [x], queues := m.queues ++ [q] }, num)

/-- CREATE_CONTEXT, command 1 (R343). -/
def execCreateContext (part : Nat) (s : State) : Host.Outcome State Fault Refusal :=
  ringDo s part 1 anyOps (fun m p ops =>
    let a := opAt ops 0
    if a % 64 ≠ 0 ∨ !ownRange p a 64 then .refuse
    else
      match newContext m p a (cread m.mem a 48) none with
      | some r => .done r.1 r.2
      | none => .refuse)

/-- Destroy a context: its kernels are cancelled (R217, R344). -/
def destroyCtx (m : Mach) (x : Ctx) : Mach :=
  let m := m.updCtx x.cid (fun x => { x with stat := .ending })
  endEmpty ((m.kernels.filter (fun k => k.cid == x.cid)).foldl (fun m k => stopKernel m k.kid 4 none) m) x.cid

/-- DESTROY_CONTEXT, command 2. -/
def execDestroyContext (part : Nat) (s : State) : Host.Outcome State Fault Refusal :=
  ringDo s part 2 anyOps (fun m p ops =>
    match ctxNum m p (opAt ops 0) with
    | some x => if x.stat = .ending then .refuse else .done (destroyCtx m x) 0
    | none => .refuse)

/-- STOP_MODE, command 3: bit 1 of the descriptor's Flags is read again (R155). -/
def execStopMode (part : Nat) (s : State) : Host.Outcome State Fault Refusal :=
  ringDo s part 3 anyOps (fun m p ops =>
    match ctxNum m p (opAt ops 0) with
    | some x => .done (m.updCtx x.cid (fun x => { x with stopGroup := memNat m (x.desc + 0x29) 1 / 2 % 2 == 1 })) 0
    | none => .refuse)

/-! Command 4 (R415). -/

/-- The parked thread at a Place, on its core before one that was saved from it. -/
def parkedAt (m : Mach) (p : Part) (place : Nat) : Option (Thread × Park) :=
  let slot := place % 2048
  let core := place / 2 ^ 11 % 64
  let die := place / 2 ^ 17 % 4
  let here (t : Thread) : Bool := p.dies.contains die && t.slot == slot && m.coreOf t.gid == die * 64 + core &&
    (match t.stat with | .parked _ => true | _ => false)
  let off (t : Thread) : Bool := match m.group? t.gid with | some g => g.stat == .saved | none => true
  let t := match m.threads.find? (fun t => here t && !off t) with
    | some t => some t
    | none => m.threads.find? here
  t.bind (fun t => match t.stat with | .parked k => some (t, k) | _ => none)

/-- The state that a parked thread goes back to. -/
def Back.stat (b : Back) : TStat :=
  match b with
  | .ready => .ready
  | .held => .held
  | .raised => .raised
  | .escaping => .escaping
  | .wait w => .waiting w

/-- Change a thread that the supervisor acts on, and its checkpointed state where that holds it in the same state; one
that it had before it came to this is left to a squash (R158). -/
def goOn (m : Mach) (t : Thread) (f : Thread → Thread) : Mach :=
  updBoth m t.gid t.tix (fun u => if u.stat = t.stat then f u else u)

/-- A parked thread goes on, though stop-group mode still holds its group (R155, R415). -/
def letGo (m : Mach) (t : Thread) (f : Thread → Thread) : Mach := goOn m t (fun u => { f u with goes := true })

/-- A thread goes on at a saved position. Its next clause counts as reached by a landing (log 93, DESIGN CHOICE: R356
does not list the supervisor's resumption). -/
def Thread.goSaved (t : Thread) (p : Pos) : Thread := { t with stat := .ready, pos := p, landed := true, pack := 0 }

/-- Write a uniform register of a parked thread's group, and in the checkpoints that hold the thread so. -/
def putKBoth (m : Mach) (t : Thread) (n : Nat) (v : Word) : Mach :=
  let fix (k : Ckpt) : Ckpt :=
    if k.threads.any (fun u => u.gid == t.gid && u.tix == t.tix && u.stat == t.stat) then
      { k with groups := k.groups.map (fun g => if g.1 == t.gid then (g.1, kput g.2.1 n v, g.2.2) else g) }
    else k
  (m.updGroup t.gid (fun g => { g with k := kput g.k n v })).updCore (m.coreOf t.gid) (fun k => { k with ck := fix k.ck, comCk := fix k.comCk })

/-- Resume every thread that stop-group mode parked (R155, R353): each returns to the state it left. -/
def resumeGroup (m : Mach) (gid : Nat) : Mach :=
  let m := m.updGroup gid (fun g => { g with halted := false })
  (m.threads.filter (fun t => t.gid == gid)).foldl (fun m t =>
    match t.stat with
    | .parked (.group b) => goOn m t (fun t => { t with stat := b.stat, goes := false })
    | _ => m.updThread gid t.tix (fun t => { t with goes := false })) m

/-- RESUME_THREAD_CONTINUE, command 4 with action 0: after stop-group mode, BREAK or ARITH. An action above 3 is
refused. -/
def execResumeThreadContinue (part : Nat) (s : State) : Host.Outcome State Fault Refusal :=
  ringDo s part 4 (fun ops => opAt ops 1 == 0 || decide (3 < opAt ops 1)) (fun m p ops =>
    match (if opAt ops 1 = 0 then parkedAt m p (opAt ops 0) else none) with
    | some (t, .group _) => .done (resumeGroup m t.gid) 0
    | some (t, .effect r) => if r.eff = 11 ∨ r.eff = 3 then .done (letGo m t (fun t => t.goSaved r.save)) 0 else .refuse
    | _ => .refuse)

/-- The copy of a number of a group, on its core or in its save record. -/
def updCopyOf (m : Mach) (gid n : Nat) (f : Copy → Copy) : Mach :=
  let fix (l : List Copy) : List Copy := l.map (fun x => if x.gid == gid && x.n == n then f x else x)
  (m.updCore (m.coreOf gid) (fun k => { k with copies := fix k.copies })).updGroup gid (fun g => { g with
    save := { g.save with copies := fix g.save.copies } })

/-- The fault that a copy of a group has stopped on. -/
def copyFault (m : Mach) (gid n : Nat) : Option (Nat × Nat) :=
  let l := (m.core (m.coreOf gid)).copies ++ (match m.group? gid with | some g => g.save.copies | none => [])
  (l.find? (fun x => x.gid == gid && x.n == n)).bind (fun x => x.stopped)

/-- A retried thread (Table 9-7): its word, or its delivery, comes again in an empty chunk, which a filled one closes for
with the cause of the fault (R274). -/
def Thread.retried (t : Thread) : Thread :=
  { t with stat := if t.pend.isSome then .raised else .escaping, pack := 0, escFor := 10, escAt := none }

/-- RESUME_THREAD_RETRY, command 4 with action 1: a retryable record of Kind 1 to 4 (R201, R186). -/
def execResumeThreadRetry (part : Nat) (s : State) : Host.Outcome State Fault Refusal :=
  ringDo s part 4 (fun ops => opAt ops 1 == 1) (fun m p ops =>
    match parkedAt m p (opAt ops 0) with
    | some (t, .fault kind _ retry) =>
      if retry ∧ kind ≤ 4 then
        .done (letGo m t Thread.retried) 0
      else .refuse
    | some (t, .copy n b) =>
      match copyFault m t.gid n with
      | some (kind, _) =>
        if kind = 1 ∨ kind = 2 then
          .done (letGo (updCopyOf m t.gid n (fun x => { x with stopped := none })) t (fun t => { t with stat := b.stat })) 0
        else .refuse
      | none => .refuse
    | _ => .refuse)

/-- RESUME_THREAD_ABANDON, command 4 with action 2 (R201): the group ends faulted; of an engine record, only the
copy ends. -/
def execResumeThreadAbandon (part : Nat) (s : State) : Host.Outcome State Fault Refusal :=
  ringDo s part 4 (fun ops => opAt ops 1 == 2) (fun m p ops =>
    match parkedAt m p (opAt ops 0) with
    | some (t, .fault _ _ _) => .done (faultGroup m t.gid) 0
    | some (t, .effect r) => .done (faultGroup (match r.cmd with | some n => dropCmd m t.gid n | none => m) t.gid) 0
    | some (t, .copy n b) =>
      .done (letGo (updCopyOf m t.gid n (fun x => { x with stopped := none, status := 2 })) t (fun t => { t with stat := b.stat })) 0
    | _ => .refuse)

/-- RESUME_THREAD_VALUE, command 4 with action 3: ARITH (R120), PIVOT.ZERO and NOT.PD (R308), and BREAK. -/
def execResumeThreadValue (part : Nat) (s : State) : Host.Outcome State Fault Refusal :=
  ringDo s part 4 (fun ops => opAt ops 1 == 3) (fun m p ops =>
    let v := opAt ops 2
    match parkedAt m p (opAt ops 0) with
    | some (t, .effect r) =>
      if r.eff = 3 then
        let m := match r.dest with | some (.k n) => putKBoth m t n (BitVec.ofNat 32 v) | _ => m
        .done (letGo m t (fun t =>
          (match r.dest with | some d => t.putDest d (BitVec.ofNat 64 v) | none => t).goSaved r.save)) 0
      else if r.eff = 4 ∨ r.eff = 5 then
        let m := match r.cmd with | some n => resumeCmd m t.gid n v | none => m
        .done (letGo m t (fun t => t.goSaved r.save)) 0
      else if r.eff = 11 then .done (letGo m t (fun t => t.goSaved r.save)) 0
      else .refuse
    | _ => .refuse)

/-- SAVE_GROUP, command 5: the group that holds a slot, with its set, is saved (R228); the core operand is
64 × die + core. It is done once the record of that group is complete, whatever holds the slot by then. -/
def execSaveGroup (part : Nat) (s : State) : Host.Outcome State Fault Refusal :=
  ringDo s part 5 anyOps (fun m p ops =>
    match ctxNum m p (opAt ops 0), p.saving with
    | none, _ => .refuse
    | some _, some gid =>
      (match m.group? gid with
        | none => .refuse
        | some g =>
          if g.stat = .saving then .wait m
          else if g.stat = .exited ∨ g.stat = .faulted then .refuse
          else .done m 0)
    | some x, none =>
      match (m.threads.find? (fun t => t.slot == opAt ops 2 && m.coreOf t.gid == opAt ops 1 && cidOf m t.gid == x.cid &&
          (match m.group? t.gid with | some g => g.stat == .live || g.stat == .draining || g.stat == .saving | none => false))).bind
          (fun t => m.group? t.gid) with
      | none => .refuse
      | some g =>
        let m := m.updPart p.pid (fun p => { p with saving := some g.gid })
        .wait (if g.stat = .saving then m else beginSave m (liveSet m g) false false))

/-! Command 14 (R213, R382). -/

/-- SERVICE_REPLY, command 14. -/
def execServiceReply (part : Nat) (s : State) : Host.Outcome State Fault Refusal :=
  ringDo s part 14 anyOps (fun m p ops =>
    match ctxNum m p (opAt ops 0) with
    | none => .refuse
    | some x =>
      let n := opAt ops 1
      let v0 := BitVec.ofNat 64 (opAt ops 2)
      let v1 := BitVec.ofNat 64 (opAt ops 3)
      match m.threads.find? (fun t => cidOf m t.gid == x.cid && (match t.stat with | .waiting (.svc k) => k == n | _ => false)) with
      | none => .refuse
      | some t =>
        match m.group? t.gid with
        | none => .refuse
        | some g =>
          if x.replies.any (fun r => r.1 == n) then .refuse
          else if g.stat = .saved then
            .done (wakeKernel (m.updCtx x.cid (fun x => { x with replies := x.replies ++ [(n, v0, v1)] })) g.kid) 0
          else
            let m := goOn m t (fun t => ((t.wrD ra0 v0).wrD (ra0 + 2) v1).freed)
            .done (wakeKernel (acqDo m g.core 4) g.kid) 0)

/-! Queues (R373, R378 to R381). -/

/-- The next generation: modulo 2^32, skipping 0. -/
def Queue.nextGen (q : Queue) : Nat := if (q.gen + 1) % 2 ^ 32 = 0 then 1 else (q.gen + 1) % 2 ^ 32

/-- Quiesce a queue (R378): its queued kernels end with status 4. -/
def quiesceQueue (m : Mach) (q : Queue) : Mach :=
  let m := m.updQueue q.qid (fun q => { q with stat := .quiesced, gen := q.nextGen, holdTill := none })
  q.kids.foldl (fun m k => match m.kernel? k with
    | some x => if x.stat = .queued then stopKernel m k 4 none else m
    | none => m) m

/-- A queue of a partition by its handle, for a command: the widening queue, and a queue that is gone, only for command
10 (R368, Table 25-4). -/
def queueNum (m : Mach) (p : Part) (handle : Nat) (any : Bool) : Option Queue :=
  (ctxNum m p (handle / 65536)).bind (fun x =>
    match queueOf m x.cid handle with
    | some q => some q
    | none => if any then m.queues.reverse.find? (fun q => q.cid == x.cid && q.num == handle % 65536) else none)

/-- Create a queue. -/
def newQueue (m : Mach) (p : Part) (cn cap flags : Nat) (session : Option Nat) : Option (Mach × Nat) :=
  match ctxNum m p cn with
  | none => none
  | some x =>
    let used := (m.queues.filter (fun q => q.cid == x.cid && q.stat != .destroyed)).map (fun q => q.num)
    match lowestFree 0 1023 used with
    | none => none
    | some n =>
      if x.stat = .ending ∨ cap = 0 ∨ 4096 < cap ∨ 1 < flags then none
      else
        let q : Queue := { qid := m.nextId, part := p.pid, num := n, cid := x.cid, cap := cap, dropLate := flags == 1, session := session }
        some ({ m with nextId := m.nextId + 1, queues := m.queues ++ [q] }, cn * 65536 + n)

/-- CREATE_QUEUE, command 6. -/
def execCreateQueue (part : Nat) (s : State) : Host.Outcome State Fault Refusal :=
  ringDo s part 6 anyOps (fun m p ops =>
    let o := opAt ops 3
    if 2 ^ 16 ≤ o then .refuse
    else
      match newQueue m p (opAt ops 0) (opAt ops 1) (opAt ops 2) (if o = 0 then none else some o) with
      | some r => .done r.1 r.2
      | none => .refuse)

/-- QUIESCE, command 7 (R378). -/
def execQuiesce (part : Nat) (s : State) : Host.Outcome State Fault Refusal :=
  ringDo s part 7 anyOps (fun m p ops =>
    match queueNum m p (opAt ops 0) false with
    | some q => if q.stat = .active then .done (quiesceQueue m q) 0 else .refuse
    | none => .refuse)

/-- REOPEN, command 8: quiesced to active. A queue of an ended session is still one of its queues (R381). -/
def execReopen (part : Nat) (s : State) : Host.Outcome State Fault Refusal :=
  ringDo s part 8 anyOps (fun m p ops =>
    match queueNum m p (opAt ops 0) false with
    | some q =>
      if q.stat = .quiesced then .done (m.updQueue q.qid (fun q => { q with stat := .active, gen := q.nextGen })) 0
      else .refuse
    | none => .refuse)

/-- DESTROY_QUEUE, command 9: quiesced at once, and gone once no kernel remains. -/
def execDestroyQueue (part : Nat) (s : State) : Host.Outcome State Fault Refusal :=
  ringDo s part 9 anyOps (fun m p ops =>
    match queueNum m p (opAt ops 0) false with
    | some q =>
      if q.stat = .drained then .refuse
      else
        let m := if q.stat = .active then quiesceQueue m q else m
        .done (endEmpty (m.updQueue q.qid (fun q => { q with stat := .drained })) q.cid) 0
    | none => .refuse)

/-- State of a queue as Table 25-4 shows it. -/
def Queue.shown (q : Queue) : Nat :=
  match q.stat with
  | .active => if q.holdTill.isSome then 1 else 0
  | .quiesced | .drained => 2
  | .destroyed => 3

/-- The 64 bytes of Table 25-4. -/
def statusBytes (m : Mach) (q : Queue) : List Byte :=
  let handle := (match m.ctx? q.cid with | some x => x.num | none => 0) * 65536 + q.num
  let head := q.kids.head?.bind m.kernel?
  natBytes 4 handle ++ natBytes 4 q.gen ++ natBytes 1 q.shown ++ natBytes 1 q.dropLate.toNat ++
    natBytes 2 (q.session.getD 0) ++ natBytes 4 q.kids.length ++ natBytes 8 (q.seq - 1) ++
    natBytes 8 (match head with | some k => k.seq | none => 0) ++
    (List.range 4).flatMap (fun d =>
      let r := match head with | some k => k.rc.ranges.getD d (0, 0) | none => (0, 0)
      natBytes 4 r.1 ++ natBytes 4 r.2)

/-- QUEUE_STATUS, command 10. -/
def execQueueStatus (part : Nat) (s : State) : Host.Outcome State Fault Refusal :=
  ringDo s part 10 anyOps (fun m p ops =>
    let a := opAt ops 1
    match queueNum m p (opAt ops 0) true with
    | some q => if a % 64 ≠ 0 ∨ !ownRange p a 64 then .refuse else .done (publishBytes m a (statusBytes m q)) 0
    | none => .refuse)

/-- HOLD_TIME_EXPIRE (R381): an orphaned queue is quiesced. -/
def execHoldTimeExpire (qid : Nat) (s : State) : Host.Outcome State Fault Refusal :=
  .next (s.onMach (fun m =>
    match m.queue? qid with
    | some q =>
      match q.holdTill with
      | some w => if q.stat = .active ∧ w ≤ m.time then quiesceQueue m q else m
      | none => m
    | none => m))

/-! Commands 11 to 13 (R396, R406). -/

/-- ADMIT_ADD, command 11 with op5 other than 1: op5 above 1 breaks Table 26-8. -/
def execAdmitAdd (part : Nat) (s : State) : Host.Outcome State Fault Refusal :=
  ringDo s part 11 (fun ops => opAt ops 5 != 1) (fun m p ops =>
    let a : Admit := { num := (lowestFree 0 64 (p.admits.map (fun a => a.num))).getD 64, first := opAt ops 0, count := opAt ops 1,
                       base := opAt ops 2, len := opAt ops 3, rights := opAt ops 4 }
    if opAt ops 5 ≠ 0 ∨ 8191 < a.first ∨ a.count = 0 ∨ 8192 - a.first < a.count ∨ a.base % 4096 ≠ 0 ∨ a.len % 4096 ≠ 0 ∨
        !ownRange p a.base a.len ∨ a.rights = 0 ∨ 3 < a.rights ∨ 64 ≤ p.admits.length then .refuse
    else .done (m.updPart p.pid (fun p => { p with admits := p.admits ++ [a] })) a.num)

/-- ADMIT_REMOVE, command 11 with op5 = 1. -/
def execAdmitRemove (part : Nat) (s : State) : Host.Outcome State Fault Refusal :=
  ringDo s part 11 (fun ops => opAt ops 5 == 1) (fun m p ops =>
    if [1, 2, 3, 4].any (fun i => opAt ops i != 0) ∨ !p.admits.any (fun a => a.num == opAt ops 0) then .refuse
    else .done (m.updPart p.pid (fun p => { p with admits := p.admits.filter (fun a => a.num != opAt ops 0) })) (opAt ops 0))

/-- The operands of command 12 that both forms check. -/
def bindBad (m : Mach) (ops : List Nat) : Bool :=
  decide (8191 < opAt ops 1) || (m.pkgSet && opAt ops 1 == m.pkg) || opAt ops 2 == 0 || decide (4095 < opAt ops 2) ||
    opAt ops 4 != 0 || opAt ops 5 != 0

/-- BIND, command 12 with op3 other than 1: op3 above 1 breaks Table 26-8. -/
def execBind (part : Nat) (s : State) : Host.Outcome State Fault Refusal :=
  ringDo s part 12 (fun ops => opAt ops 3 != 1) (fun m p ops =>
    match ctxNum m p (opAt ops 0) with
    | none => .refuse
    | some x =>
      let mine := p.binds.filter (fun b => b.cid == x.cid)
      let n := (lowestFree 0 64 (mine.map (fun b => b.num))).getD 64
      if opAt ops 3 ≠ 0 ∨ bindBad m ops ∨ !m.pkgSet ∨ 64 ≤ mine.length then .refuse
      else .done (m.updPart p.pid (fun p => { p with binds := p.binds ++ [⟨n, x.cid, opAt ops 1, opAt ops 2⟩] })) n)

/-- UNBIND, command 12 with op3 = 1. -/
def execUnbind (part : Nat) (s : State) : Host.Outcome State Fault Refusal :=
  ringDo s part 12 (fun ops => opAt ops 3 == 1) (fun m p ops =>
    match ctxNum m p (opAt ops 0) with
    | none => .refuse
    | some x =>
      match p.binds.find? (fun b => b.cid == x.cid && b.pkg == opAt ops 1 && b.ctx == opAt ops 2) with
      | none => .refuse
      | some b =>
        if bindBad m ops then .refuse
        else .done (m.updPart p.pid (fun p => { p with binds := p.binds.filter (fun c => c != b) })) b.num)

/-- SET_PACKAGE_NUMBER, command 13 (R406). -/
def execSetPackageNumber (part : Nat) (s : State) : Host.Outcome State Fault Refusal :=
  ringDo s part 13 anyOps (fun m _ ops =>
    let n := opAt ops 0
    if 8191 < n ∨ [1, 2, 3, 4, 5].any (fun i => opAt ops i != 0) ∨ (m.pkgSet ∧ m.pkg ≠ n) then .refuse
    else .done { m with pkg := n, pkgSet := true } n)

end Sys2Proof.Machine
end

