-- ==== Sys2Proof/Machine/CrossLane.lean ====
section
/-!
DEFINITION. The cross-lane class (05, R114 to R117): every participant offers a value, and computes
its result from the offers of the lanes it sees.
-/

namespace Sys2Proof.Machine

/-- A thread's lane in its lane set. -/
def Thread.lane (t : Thread) : Nat := t.tix % 32

/-- Participants of a cross-lane word whose member masks are in register `c` (R114). -/
def participants (m : Mach) (g : Guard) (c : Nat) : List Thread :=
  (performers m g).filter (fun t => (t.rd c).getLsbD t.lane)

/-- The participants of its own lane set that a thread listens to (R114). -/
def viewOf (ps : List Thread) (c : Nat) (t : Thread) : List Thread :=
  ps.filter (fun p => p.tix / 32 == t.tix / 32 && (t.rd c).getLsbD p.lane)

/-- The mask of the lanes of some threads. -/
def laneMask (v : List Thread) : Word := v.foldl (fun m p => m ||| (1#32 <<< p.lane)) 0

/-- A cross-lane word: every participant computes from its view of the state before the word
(R115, R116). -/
def crossWord (m : Mach) (g : Guard) (c : Nat) (f : Thread → List Thread → Thread) : Mach :=
  let ps := participants m g c
  vecWord m g (fun t => if (t.rd c).getLsbD t.lane then f t (viewOf ps c t) else t)

/-- The source lane of `shfl`, which may be outside the lane set (Table 5-7). -/
def shflLane (mode : ShflMode) (i b : Nat) : Int :=
  match mode with
  | .atLane => ((b % 32 : Nat) : Int)
  | .rise => (i : Int) - b
  | .fall => (i : Int) + b
  | .swap => ((i ^^^ (b % 32) : Nat) : Int)

/-- `shfl` for one participant: the source lane's offer, or its own. -/
def shflVal (k : Regs) (mode : ShflMode) (a : Nat) (b : Src) (t : Thread) (v : List Thread) : Word :=
  match v.find? (fun p => (p.lane : Int) == shflLane mode t.lane (srcW k t b).toNat) with
  | some p => p.rd a
  | none => t.rd a

/-- `redux` combines two offers. -/
def redCombine (op : RedOp) (a b : Word) : Word :=
  match op with
  | .add => a + b
  | .min => minS a b
  | .max => maxS a b
  | .minu => minU a b
  | .maxu => maxU a b
  | .and => a &&& b
  | .or => a ||| b
  | .xor => a ^^^ b

/-- `redux` over a list of offers. -/
def redTotal (op : RedOp) : List Word → Word
  | [] => 0
  | a :: l => l.foldl (redCombine op) a

/-! The meanings. -/

/-- `shfl` (Table 5-7). -/
def execShfl (g : Guard) (mode : ShflMode) (d a : Nat) (b : Src) (c : Nat) (s : State) :
    Host.Outcome State Fault Refusal :=
  .next (s.onMach (fun m => let k := curK m; crossWord m g c (fun t v => t.wr d (shflVal k mode a b t v))))

/-- `vote` (Table 5-7). -/
def execVote (g : Guard) (mode : VoteMode) (na : Bool) (d a c : Nat) (s : State) :
    Host.Outcome State Fault Refusal :=
  .next (s.onMach (fun m => crossWord m g c (fun t v =>
    let offer (p : Thread) : Bool := p.rdP a != na
    match mode with
    | .every => t.wrP d (v.all offer)
    | .some => t.wrP d (v.any offer)
    | .agree => t.wrP d (v.all offer || v.all (fun p => !offer p))
    | .mask => t.wr d (laneMask (v.filter offer)))))

/-- `redux` (Table 5-7). -/
def execRedux (g : Guard) (op : RedOp) (d a c : Nat) (s : State) : Host.Outcome State Fault Refusal :=
  .next (s.onMach (fun m => crossWord m g c (fun t v => t.wr d (redTotal op (v.map (fun p => p.rd a))))))

/-- `match` (Table 5-7). -/
def execMatchL (g : Guard) (whole : Bool) (d a c : Nat) (s : State) : Host.Outcome State Fault Refusal :=
  .next (s.onMach (fun m => crossWord m g c (fun t v =>
    t.wr d (if whole then (if v.all (fun p => p.rd a == t.rd a) then laneMask v else 0)
            else laneMask (v.filter (fun p => p.rd a == t.rd a))))))

/-- `elect` (Table 5-7). -/
def execElect (g : Guard) (d c : Nat) (s : State) : Host.Outcome State Fault Refusal :=
  .next (s.onMach (fun m => crossWord m g c (fun t v => t.wrP d (v.all (fun p => decide (t.lane ≤ p.lane))))))

/-- `lsync` (Table 5-7). -/
def execLsync (g : Guard) (d c : Nat) (s : State) : Host.Outcome State Fault Refusal :=
  .next (s.onMach (fun m => crossWord m g c (fun t v => t.wr d (laneMask v))))

end Sys2Proof.Machine
end

