-- ==== Sys2Proof/Machine/Control.lean ====
section
/-!
DEFINITION. The control class (07): branches, calls, rejoin barriers, exit and breakpoints; and
clause issue (R50, R142, R156, R157, R57, R68).
-/

namespace Sys2Proof.Machine

/-! Control transfers. -/

/-- The target of `bra` and `call` (R145). -/
def Running.target (r : Running) (t : Int) : Nat := addr64 ((r.hdr : Int) + 8 * t)

/-- A jump through a pair: MISALIGN with the position left at the instruction, when the target is no
multiple of 8 (R146). -/
def jumpTo (m : Mach) (r : Running) (t : Thread) (a : Nat) (link : Option Nat) : Mach :=
  let v := (t.rdD a).toNat
  if v % 8 ≠ 0 then
    raiseEff m t { eff := 2, a0 := BitVec.ofNat 64 r.hdr, a1 := BitVec.ofNat 64 r.idx,
                   a2 := BitVec.ofNat 64 v, a3 := 0, save := r.here, word := r.here }
  else
    m.updThread t.gid t.tix (fun t =>
      (match link with
        | some d => t.wrD d (BitVec.ofNat 64 r.nextHdr)
        | none => t).goTo v)

/-! Rejoin barriers (R149 to R153). -/

/-- The state of a rejoin barrier for a lane set. -/
def Group.rejoin (g : Group) (j ls : Nat) : Rejoin := (lget g.rj (32 * j + ls)).getD {}

/-- Replace it: an empty one is not listed. -/
def Group.setRejoin (g : Group) (j ls : Nat) (x : Rejoin) : Group :=
  { g with rj := if x = {} then ldel g.rj (32 * j + ls) else lput g.rj (32 * j + ls) x }

/-- Lanes of a lane set whose thread has not exited (R149). -/
def presentLanes (m : Mach) (gid ls : Nat) : Word :=
  m.threads.foldl (fun v t =>
    if t.gid == gid && t.tix / 32 == ls && t.stat != .exited then v ||| (1#32 <<< (t.tix % 32)) else v) 0

/-- A barrier's release: its waiters are ready at their next clause, in one pack per position (R152). -/
def rejoinRelease (m : Mach) (gid j ls : Nat) : Mach :=
  match m.group? gid with
  | none => m
  | some g =>
    let x := g.rejoin j ls
    if x.named = 0 ∨ x.named &&& ~~~x.arrived &&& presentLanes m gid ls ≠ 0 then m
    else
      let tag := m.nextId + 1
      let m := m.updGroup gid (fun g => g.setRejoin j ls {})
      { m with
        nextId := m.nextId + 1
        threads := m.threads.map (fun t =>
          match t.stat with
          | .waiting (.rejoin i _) =>
            if t.gid == gid && t.tix / 32 == ls && i == j then
              { t with stat := .ready, landed := false, pack := tag } else t
          | _ => t) }

/-- Check every rejoin barrier of a lane set (R151 step 3). -/
def rejoinCheck (m : Mach) (gid ls : Nat) : Mach :=
  (List.range 16).foldl (fun m j => rejoinRelease m gid j ls) m

/-! Clause issue. -/

/-- The fields of a clause header (Table 3-1). -/
structure Header where
  cls   : Nat
  count : Nat
  wait  : Nat
  setA  : Nat
  setB  : Nat
  yield : Bool
  legal : Bool
deriving DecidableEq, Repr

/-- Header of its word. -/
def Header.ofWord (w : Nat) : Header :=
  { cls := bits w 60 4, count := bits w 56 4, wait := bits w 44 12, setA := bits w 40 4,
    setB := bits w 36 4, yield := bit w 35, legal := decide (bits w 60 4 < 4) && bits w 0 35 == 0 }

/-- Words of a clause that break R68: whether the word at an index is legal. -/
def wordLegal (h : Header) (x : LaunchRec) (w ext : Nat) (last : Bool) (lastExt : Bool) : Option Instr :=
  match decodeWord w ext with
  | .error _ => none
  | .ok i =>
    if classAdmits h.cls (wordGroup w) && (!i.ends || last) &&
        (i.sel? != 1 || decide (h.setA < 12)) && (i.sel? != 2 || decide (h.setB < 12)) &&
        (i.regs x.slots).all (fun n => decide (n < x.regs)) && i.slotsOk x.slots &&
        (!i.hasExt || lastExt) then some i
    else none

/-- The first offending word of a clause, if any (R68): its index and itself. -/
def firstBad (h : Header) (x : LaunchRec) : Nat → Nat → List Nat → Option (Nat × Nat)
  | 0, _, _ => none
  | _ + 1, _, [] => none
  | n + 1, i, w :: ws =>
    match wordLegal h x w (ws.headD 0) ws.isEmpty (!ws.isEmpty) with
    | none => some (i, w)
    | some ins =>
      if ins.hasExt then
        if ins.ends && !(ws.drop 1).isEmpty then some (i, w) else firstBad h x n (i + 2) (ws.drop 1)
      else firstBad h x n (i + 1) ws

/-- What a fetch finds. -/
inductive Fetch where
  | ok (m : Mach) (code : List Nat)
  | foreign (addr : Nat)
  | fault (kind cause addr : Nat)
  | link (cause addr : Nat)

/-- Fetch words from an address: each page is checked (R57); `foreign` is an RV64 tag. -/
def fetchWords (who : Who) : Nat → Mach → Nat → List Nat → Fetch
  | 0, m, _, acc => .ok m acc
  | n + 1, m, va, acc =>
    match translate m who .fetch va with
    | .error (.fault k c) => .fault k c va
    | .error (.link c) => .link c va
    | .ok (m, x) =>
      match reachable m .fetch who.die x.pa 8 with
      | .error (.fault k c) => .fault k c va
      | .error (.link c) => .link c va
      | .ok () =>
        match poisoned m x.pa 8 with
        | some (.fault k c) => .fault k c va
        | some (.link c) => .link c va
        | none =>
          if isaTag m who va ≠ some 1 then .foreign va
          else fetchWords who n m ((va + 8) % 2 ^ 64) (acc ++ [bytesNat (homeRead m who.die x.pa 8)])

/-- Fetch a clause whole: its header and its words, from the fetched clauses of the core or from memory.
A foreign tag on a word after the header is ISA (R57). A thread that restarts inside a clause fetches it as well: it
runs the words as they are fetched then (log 92, DESIGN CHOICE: R59 speaks of clauses that have started). -/
def fetchClause (m : Mach) (who : Who) (hdr : Nat) : Fetch :=
  match (m.core who.core).fetched.find? (fun f => f.asid == who.asid && f.hdr == hdr) with
  | some f => .ok m f.code
  | none =>
    match fetchWords who 1 m hdr [] with
    | .ok m hw =>
      match fetchWords who (bits (hw.headD 0) 56 4 + 1) m ((hdr + 8) % 2 ^ 64) hw with
      | .ok m code =>
        .ok (m.updCore who.core (fun k => { k with fetched := ⟨who.asid, hdr, code⟩ :: k.fetched })) code
      | .foreign a => .fault 3 0x0302 a
      | .fault k c a => .fault k c a
      | .link c a => .link c a
    | .foreign a => .foreign a
    | .fault k c a => .fault k c a
    | .link c a => .link c a

/-- The threads of a pack are together and may issue: one group, one position, ready, no more than 32, in ascending
`TIX`, in a chunk that they may start in (R260), and with them every thread that their packs bind to them (R142). -/
def packOk (m : Mach) (core gid : Nat) (tixs : List Nat) (ts : List Thread) : Bool :=
  match ts with
  | [] => false
  | t :: _ =>
    ts.length == tixs.length && decide (tixs.length ≤ 32) && tixs.Pairwise (· < ·) &&
      ts.all (fun u => u.pos == t.pos && u.stat == .ready && u.nextChunk != some (m.core core).openC.serial) &&
      m.threads.all (fun u =>
        !(u.gid == gid && u.stat == .ready && u.pack != 0 && !tixs.contains u.tix &&
          ts.any (fun v => v.pack == u.pack && v.pos == u.pos)))

/-- A group whose threads may issue: those that stop-group mode holds are parked. -/
def groupRuns (m : Mach) (gid : Nat) : Bool :=
  match m.group? gid with
  | some g => g.stat == .live || g.stat == .draining || (g.stat == .faulted && !g.keeps)
  | none => false

/-- Ready threads of the groups on a core that may issue. -/
def readyOn (m : Mach) (c : Nat) : List Thread :=
  m.threads.filter (fun t => t.stat == .ready && m.coreOf t.gid == c && groupRuns m t.gid &&
    t.nextChunk != some (m.core c).openC.serial)

/-- A thread that has been ready at 4,096 issue opportunities (R157). -/
def Thread.old (t : Thread) : Bool := decide (4096 ≤ t.ageing)

/-- Demotion, ageing and the yield bit allow this pack the slot (R54, R156, R157). The yield bit gives the slot to
another pack only where one may take it, and never from a pack with a thread that is old. The word of a retry comes
first (Table 9-7). -/
def mayIssue (m : Mach) (c gid : Nat) (tixs : List Nat) (ts : List Thread) : Bool :=
  let rs := readyOn m c
  let mine (u : Thread) : Bool := u.gid == gid && tixs.contains u.tix
  -- a demoted thread only when no thread of its group is ready and not demoted
  let behind (u : Thread) : Bool := u.demoted && rs.any (fun v => v.gid == u.gid && !v.demoted)
  let old := rs.filter (fun u => u.old && !behind u && !mine u)
  if rs.any (fun u => u.retrying) then ts.any (fun u => u.retrying)
  else !ts.any behind &&
    old.all (fun u => ts.any (fun t => t.old && decide (u.ageing ≤ t.ageing))) &&
    !(ts.any (fun t => (m.core c).yielded.contains (t.gid, t.tix)) && !ts.any Thread.old &&
      rs.any (fun u => !mine u && !behind u && !(m.core c).yielded.contains (u.gid, u.tix)))

/-- A core may start a clause: its die runs, no close is due that nothing holds up, and no commit holds
the core (R250, R251, R256). At a boundary the causes count that are checked only there. -/
def coreIssues (m : Mach) (c : Nat) : Bool :=
  let k := m.core c
  let d := m.die (c / 64)
  !d.held && !d.fatal &&
    (if atBoundary m c then (causesNow m c).isEmpty else k.due.isEmpty || k.comC.isNone) && !(k.soloNext && k.comC.isSome)

/-- Whether flags of the Wait or Set fields of a header refuse a thread the start (R50). -/
def startHeld (m : Mach) (h : Header) (t : Thread) : Bool := flagsRefuse m t h.wait [h.setA, h.setB]

/-- The thread's copy that stopped on a fault and holds a flag of the Wait field (R186 point 3). -/
def waitsOnFault (m : Mach) (h : Header) (t : Thread) : Option Nat :=
  ((m.core (m.coreOf t.gid)).copies.find? (fun c => c.gid == t.gid && c.tix == t.tix && c.stopped.isSome &&
    (match c.flag with | some n => bit h.wait n | none => false))).map (fun c => c.n)

/-- ILLEGAL for a thread of a pack, at the position where it stands: word index 0, but for a restart (R68,
Table 3-10). -/
def illegal (p : Pos) (idx w : Nat) : Raise :=
  { eff := 1, a0 := BitVec.ofNat 64 p.hdr, a1 := BitVec.ofNat 64 idx, a2 := BitVec.ofNat 64 w, a3 := 0,
    save := p, word := ⟨p.hdr, min idx 15⟩ }

/-- Start a clause for a pack. -/
def startClause (m : Mach) (c gid : Nat) (tixs : List Nat) (p : Pos) (h : Header) (code : List Nat) : Mach :=
  let n := m.nextId + 1
  let m : Mach := { m with
    nextId := n + 1
    running := m.running ++ [{ rid := n, core := c, gid := gid, hdr := p.hdr, count := h.count, setA := h.setA,
                               setB := h.setB, yield := h.yield, code := code.drop 1, idx := p.idx,
                               tixs := tixs, act := tixs }]
    threads := m.threads.map (fun t =>
      if t.gid == gid && tixs.contains t.tix then
        { t with stat := .issuing, pack := n, ageing := 0, aged := false, poll := false, retrying := false,
                 demoted := t.demoted && decide (tixs.length = 1), nextChunk := none }
      else if t.gid == gid then { t with demoted := false } else t) }
  m.updCore c (fun k => { k with yielded := if h.yield then tixs.map (fun x => (gid, x)) else [] })

/-- Issue a clause whose words have been fetched. -/
def issueClause (m : Mach) (c gid : Nat) (tixs : List Nat) (ts : List Thread) (p : Pos) (code : List Nat) : Mach :=
  let hw := code.headD 0
  let h := Header.ofWord hw
  let bad := if h.legal then firstBad h (m.recOf gid) 16 0 (code.drop 1) else some (16, hw)
  match bad with
  | some (i, w) => ts.foldl (fun m t => raiseEff m t (illegal p i w)) m
  | none =>
    if ts.any (startHeld m h) then
      ts.foldl (fun m t =>
        match waitsOnFault m h t with
        | some n => addDue (parkThread m gid t.tix (.copy n .ready)) c 10
        | none =>
          match haltedFor m t (fun x => match x.flag with | some n => bit h.wait n | none => false) with
          | some x => haltRaise m t x p
          | none =>
          if startHeld m h t then m.updThread gid t.tix (fun t => { t with
            stat := .held, pack := 0, holdW := h.wait, holdS := [h.setA, h.setB] }) else m) m
    else startClause m c gid tixs p h code

/-! The meanings. -/

/-- `bra` (R145). -/
def execBra (g : Guard) (target : Int) (s : State) : Host.Outcome State Fault Refusal :=
  .next (s.onMach (fun m => seqWord m g (fun m r t => m.updThread t.gid t.tix (fun t => t.goTo (r.target target)))))

/-- `jmp` (R146). -/
def execJmp (g : Guard) (a : Nat) (s : State) : Host.Outcome State Fault Refusal :=
  .next (s.onMach (fun m => seqWord m g (fun m r t => jumpTo m r t a none)))

/-- `call` (R145). -/
def execCall (g : Guard) (target : Int) (s : State) : Host.Outcome State Fault Refusal :=
  .next (s.onMach (fun m => seqWord m g (fun m r t =>
    m.updThread t.gid t.tix (fun t => (t.wrD rRA (BitVec.ofNat 64 r.nextHdr)).goTo (r.target target)))))

/-- `callr`: the target is read before the link is written (R146). -/
def execCallr (g : Guard) (d a : Nat) (s : State) : Host.Outcome State Fault Refusal :=
  .next (s.onMach (fun m => seqWord m g (fun m r t => jumpTo m r t a (some d))))

/-- `ret` (R146). -/
def execRet (g : Guard) (a : Nat) (s : State) : Host.Outcome State Fault Refusal :=
  .next (s.onMach (fun m => seqWord m g (fun m r t => jumpTo m r t a none)))

/-- `rjarm` (R150). -/
def execRjarm (g : Guard) (j a : Nat) (s : State) : Host.Outcome State Fault Refusal :=
  .next (s.onMach (fun m => seqWord m g (fun m _ t =>
    m.updGroup t.gid (fun g =>
      let x := g.rejoin j (t.tix / 32)
      g.setRejoin j (t.tix / 32) { x with named := x.named ||| t.rd a }))))

/-- `rjwait` (R151, R152). -/
def execRjwait (g : Guard) (j : Nat) (s : State) : Host.Outcome State Fault Refusal :=
  .next (s.onMach (fun m => seqWord m g (fun m r t =>
    match m.group? t.gid with
    | none => m
    | some gr =>
      let ls := t.tix / 32
      let x := gr.rejoin j ls
      if x.named = 0 then m
      else
        let m := m.updGroup t.gid (fun g =>
          g.setRejoin j ls { x with arrived := x.arrived ||| (1#32 <<< (t.tix % 32)) })
        let m := m.updThread t.gid t.tix (fun t => t.leave (.waiting (.rejoin j r.here)) ⟨r.nextHdr, 0⟩)
        rejoinRelease m t.gid j ls)))

/-- `exit` (R147): held while a flag is pending; a stopped copy parks it (R186), and a halted command is
raised here (R285). -/
def execExit (g : Guard) (s : State) : Host.Outcome State Fault Refusal :=
  .next (s.onMach (fun m => seqWord m g (fun m r t =>
    let pending := (List.range 12).any (fun n => flagCount m t n != 0)
    match (m.core r.core).copies.find? (fun c => c.gid == t.gid && c.tix == t.tix && c.stopped.isSome),
        haltedFor m t (fun _ => true) with
    | some c, _ => addDue (parkThread (m.updThread t.gid t.tix (fun t => { t with pos := r.here })) t.gid t.tix
        (.copy c.n .ready)) r.core 10
    | none, some x => haltRaise m t x r.here
    | none, none =>
      if pending then m.updThread t.gid t.tix (fun t => { t.leave .held r.here with holdW := 4095, holdS := [] })
      else rejoinCheck (m.updThread t.gid t.tix (fun t => t.leave .exited ⟨r.nextHdr, 0⟩)) t.gid (t.tix / 32))))

/-- `brk` (R154). -/
def execBrk (g : Guard) (n : Nat) (s : State) : Host.Outcome State Fault Refusal :=
  .next (s.onMach (fun m => seqWord m g (fun m r t =>
    raiseEff m t { eff := 11, a0 := BitVec.ofNat 64 r.hdr, a1 := BitVec.ofNat 64 r.idx,
                   a2 := BitVec.ofNat 64 n, a3 := 0, save := ⟨r.nextHdr, 0⟩, word := r.here })))

/-- `yield` (R148). -/
def execYield (g : Guard) (s : State) : Host.Outcome State Fault Refusal :=
  .next (s.onMach (fun m => vecWord m g (fun t => { t with demoted := true, pack := 0 })))

/-- CLAUSE_ISSUE (R50, R57, R68, R142): the core starts the clause at which a pack stands. A thread whose
flags refuse the start is held; a fetch fault parks the threads; an illegal clause raises ILLEGAL. -/
def execClauseIssue (core gid : Nat) (tixs : List Nat) (s : State) : Host.Outcome State Fault Refusal :=
  .next (s.onMach (fun m =>
    let ts := tixs.filterMap (fun i => m.thread? gid i)
    if m.coreOf gid ≠ core ∨ !groupRuns m gid ∨ !packOk m core gid tixs ts ∨ !mayIssue m core gid tixs ts ∨
        !coreIssues m core then m
    else
      let p := (ts.headD { gid := gid, tix := 0 }).pos
      match fetchClause m (whoOf m gid) p.hdr with
      | .fault k c a => ts.foldl (fun m t => superFault m t k c 3 (if t.landed then 1 else 0) a p ⟨p.hdr, 0⟩) m
      | .link c a => ts.foldl (fun m t => raiseEff m t {
          eff := 9, a0 := BitVec.ofNat 64 p.hdr, a1 := 0, a2 := BitVec.ofNat 64 a, a3 := BitVec.ofNat 64 c,
          save := p, word := ⟨p.hdr, 0⟩ }) m
      | .foreign a => (ts.filter (fun t => !t.landed)).foldl (fun m t =>
          superFault m t 3 0x0302 3 0 a p ⟨p.hdr, 0⟩) m
      | .ok m code => issueClause m core gid tixs ts p code))

/-- REJOIN_CYCLE_DETECT (R153): the threads of a cycle are released with REJOIN.CYCLE, and their barriers
cleared in their lane sets. -/
def execRejoinCycleDetect (gid : Nat) (tixs : List Nat) (s : State) : Host.Outcome State Fault Refusal :=
  .next (s.onMach (fun m =>
    match m.group? gid with
    | none => m
    | some g =>
      let ts := tixs.filterMap (fun i => m.thread? gid i)
      let onJ (t : Thread) : Option (Nat × Pos) := match t.stat with | .waiting (.rejoin j p) => some (j, p) | _ => none
      let waitsFor (t : Thread) : Word := match onJ t with
        | some (j, _) =>
          let x := g.rejoin j (t.tix / 32)
          x.named &&& ~~~x.arrived &&& presentLanes m gid (t.tix / 32)
        | none => 0
      let inS (ls i : Nat) : Bool := tixs.contains (32 * ls + i)
      let cyc := !ts.isEmpty && ts.length == tixs.length && tixs.Pairwise (· < ·) &&
        ts.all (fun t => (onJ t).isSome && (List.range 32).all (fun i =>
          !(waitsFor t).getLsbD i || inS (t.tix / 32) i))
      if !cyc then m
      else
        let m := ts.foldl (fun m t => match onJ t with
          | some (j, _) => m.updGroup gid (fun g => g.setRejoin j (t.tix / 32) {})
          | none => m) m
        ts.foldl (fun m t => match onJ t with
          | some (j, p) => raiseEff m t {
              eff := 7, a0 := BitVec.ofNat 64 p.hdr, a1 := BitVec.ofNat 64 j,
              a2 := (laneMask (ts.filter (fun u => u.tix / 32 == t.tix / 32))).zeroExtend 64,
              a3 := BitVec.ofNat 64 ts.length, save := t.pos, word := p }
          | none => m) m))

/-- AGEING_THRESHOLD (R157): a ready thread whose counter has reached 4,096, which has priority, is marked. -/
def execAgeingThreshold (gid tix : Nat) (s : State) : Host.Outcome State Fault Refusal :=
  .next (s.onMach (fun m => m.updThread gid tix (fun t =>
    if t.stat = .ready ∧ 4096 ≤ t.ageing then { t with aged := true } else t)))

end Sys2Proof.Machine
end

