-- ==== Sys2Proof/Machine/Effects.lean ====
section
/-!
DEFINITION. The effect instructions (20): opening and closing a scope, performing, resuming and
dropping; and the delivery of built-in effects.
-/

namespace Sys2Proof.Machine

/-- What a thread's effect instruction starts from. -/
def fxOf (m : Mach) (t : Thread) : Fx := ⟨m, whoOf m t.gid, [], false⟩

/-- An effect word for one thread: its plan is made, and performed, or it stops, waits or escapes. What ends in a fault
or an effect after reads on a scoped or direct page comes in an empty chunk too (R331, R341). -/
def fxThread (m : Mach) (r : Running) (t : Thread) (len : Nat) (esc : Bool)
    (plan : Mach → Thread → Except FxStop FxPlan) (quiet : Bool := false) : Mach :=
  let late (rds : List (Nat × Nat)) (n : Mach) : Mach :=
    if !quiet && fxHotReads m (whoOf m t.gid) rds && !chunkEmpty m r.core then escape m r t 6 else n
  if esc && !chunkEmpty m r.core then escape m r t 6
  else
    match plan m t with
    | .error (.mem e acc a rds) => late rds (memStop m r t acc a e)
    | .error (.eff id a2 a3 rds) =>
      late rds (raiseEff m t { eff := id, a0 := BitVec.ofNat 64 r.hdr, a1 := BitVec.ofNat 64 r.idx, a2 := BitVec.ofNat 64 a2,
                               a3 := BitVec.ofNat 64 a3, save := r.after len, word := r.here })
    | .ok p =>
      let d := fxApply m t.gid t.tix { p with esc := p.esc || esc, quiet := quiet } (fun e acc a => memStop m r t acc a e)
        (fun w => match w with
          | some cause => escape m r t cause
          | none => stallAt m r.rid t.tix)
      if d.2 then
        match d.1.thread? t.gid t.tix with
        | some u => fxCredit d.1 t.gid t.tix (if u.stat = .issuing then r.after len else u.pos)
        | none => d.1
      else d.1

/-- An effect word for its pack (R339). -/
def fxWord (m : Mach) (g : Guard) (len : Nat) (esc : Bool)
    (plan : Running → Mach → Thread → Except FxStop FxPlan) (quiet : Bool := false) : Mach :=
  seqWord m g (fun m r t => fxThread m r t len esc (plan r) quiet)

/-! Tokens (R332). -/

/-- What the search for a token's frame finds: the frame, or the reason that the token is dead. -/
inductive Found where
  | live (f : Nat) (fr : Frame)
  | dead (reason : Nat)

/-- The frame of a token, within 64 frames. -/
def Fx.find (tok : Nat) : Nat → Fx → Nat → Except FxStop (Fx × Found)
  | 0, x, _ => .ok (x, .dead 2)
  | n + 1, x, f =>
    if f = 0 then .ok (x, .dead 2)
    else match x.frame f with
      | .error e => .error e
      | .ok (x, fr) =>
        if fr.depth ≠ tok % 65536 then Fx.find tok n x fr.link
        else
          let g := tok / 65536
          if g = 0 ∨ (g ≠ fr.p ∧ g ≠ fr.s) then .ok (x, .dead 1)
          else if fr.state ≠ 2 then .ok (x, .dead 4)
          else .ok (x, .live f fr)

/-- The header of the record below a frame's Top. -/
def Fx.header (x : Fx) (a : Nat) : Except FxStop (Fx × RecHdr) :=
  match x.read a 64 with
  | .error e => .error e
  | .ok (x, bs) => .ok (x, RecHdr.ofBytes bs)

/-- Whether a record may be resumed (Table 20-6). -/
def RecHdr.resumable (h : RecHdr) : Bool := h.kind != 1 || [3, 4, 5, 11].contains h.eff

/-- Whether a record is that of a halted factorisation. -/
def RecHdr.halted (h : RecHdr) : Bool := h.kind == 1 && (h.eff == 4 || h.eff == 5)

/-- The halt of a token's generation. -/
def Thread.haltOf (t : Thread) (g : Nat) : Option Nat := lget t.halts g

/-- Forget what a dead one-shot token kept. -/
def Thread.forget (t : Thread) (g : Nat) : Thread := { t with arith := ldel t.arith g, halts := ldel t.halts g }

/-- A read that comes after some stores of the plan: its bytes are those that the stores leave. -/
def Fx.readAfter (x : Fx) (t : Thread) (ws : List (Nat × List Byte)) (a n : Nat) : Except FxStop (Fx × List Byte) :=
  match x.read a n with
  | .error e => .error e
  | .ok (y, _) =>
    match (x.stored t.gid t.tix ws).read a n with
    | .error e => .error e
    | .ok (_, bs) => .ok (y, bs)

/-- The one-shot generations of the active frames that only some chains reach, each from a frame up to one that does not
count: chains of links, of suspended activations and of resumers. What they name is lost with their frames (R323). -/
def Fx.lost : Nat → Fx → List (Nat × Nat) → List Nat
  | 0, _, _ => []
  | _, _, [] => []
  | n + 1, x, (a, z) :: l =>
    if a = z ∨ a = 0 then Fx.lost n x l
    else match x.frame a with
      | .error _ => Fx.lost n x l
      | .ok (x, fr) =>
        let chain (h : Nat) : List (Nat × Nat) := match x.header h with | .ok (_, h) => [(h.hsp, a)] | .error _ => []
        (if fr.state = 2 then [fr.p] else []) ++
          Fx.lost n x ((if fr.state = 2 then chain (below fr.top 64) else []) ++
            (if fr.ov = 1 then chain ((fr.top + 96) % 2 ^ 64) else []) ++ (fr.link, z) :: l)

/-- Bytes in pieces of 16, from an address. -/
def pieces : Nat → Nat → List Byte → List (Nat × List Byte)
  | 0, _, _ => []
  | k + 1, a, bs => if bs.isEmpty then [] else (a, bs.take 16) :: pieces k ((a + 16) % 2 ^ 64) (bs.drop 16)

/-! `handle` (R326). -/

/-- The plan of `handle`. -/
def handlePlan (r : Running) (id d : Nat) (off : Int) (entry : Nat) (m : Mach) (t : Thread) : Except FxStop FxPlan :=
  let sp := (t.rdD rSP).toNat
  let top := (t.rdD d).toNat
  if sp % 32 ≠ 0 then .error (.eff 2 sp 32 [])
  else if top % 16 ≠ 0 then .error (.eff 2 top 16 [])
  else if entry % 8 ≠ 0 ∨ !canonical entry then .error (.eff 2 entry 8 [])
  else
    let hsp := t.hsp.toNat
    let outer : Except FxStop (Fx × Nat) :=
      if hsp = 0 then .ok (fxOf m t, 0)
      else match (fxOf m t).frame hsp with
        | .error e => .error e
        | .ok (x, fr) => .ok (x, fr.depth)
    match outer with
    | .error e => .error e
    | .ok (x, dp) =>
      if 65535 < dp + 1 then .error (.eff 10 0 3 x.rds)
      else
        let f := below sp 32
        let fr : Frame := { id := id, entry := entry, state := 1, p := 0, exit := addr64 ((r.hdr : Int) + 8 * off),
                            s := 0, top := top, ov := 0, depth := dp + 1, link := hsp }
        .ok { x := x, wrs := [(f, fr.bytes)], f := fun t =>
          { t.wrD rSP (BitVec.ofNat 64 f) with hsp := BitVec.ofNat 64 f } }

/-! `perform` (R328). -/

/-- The plan of `perform`. -/
def performPlan (r : Running) (multi : Bool) (id : Nat) (m : Mach) (t : Thread) : Except FxStop FxPlan :=
  let sp := (t.rdD rSP).toNat
  if multi ∧ sp % 16 ≠ 0 then .error (.eff 2 sp 16 [])
  else
    match Fx.search id 64 (fxOf m t) t.hsp.toNat with
    | .error e => .error e
    | .ok (x, none) => .error (.eff 10 id 1 x.rds)
    | .ok (x, some (f, fr)) =>
      let z := if multi then f - sp else 0
      if (multi ∧ f < sp) ∨ 4096 < z then .error (.eff 10 id 5 x.rds)
      else
        let g := nextGen t.gen
        let at_ := below fr.top 160
        let rec_ := savedBody t (m.recOf t.gid).regs ++ recHeader t ⟨r.nextHdr, 0⟩ 0 id 96 0 false multi z
        match x.readAfter t [(at_, rec_)] sp z with
        | .error e => .error e
        | .ok (x, snap) =>
          let fr' : Frame := if multi then { fr with state := 2, s := g } else { fr with state := 2, p := g }
          let low := below at_ z
          .ok { x := x, wrs := (at_, rec_) :: pieces (z / 16 + 1) low snap ++ [(f, fr'.bytes)],
                f := fun t => { enterThread t f fr id low with pend := t.pend } }

/-! `resume` (R333). -/

/-- What the value of a resume does besides the return (R333, R120). -/
def resumeValue (t : Thread) (h : RecHdr) (g : Nat) (v : DWord) (u : Thread) : Thread :=
  if h.kind = 1 then
    if h.eff = 3 then
      match lget t.arith g with
      | some d => u.putDest d v
      | none => u
    else u
  else u.wrD ra0 v

/-- A resume's effect on the machine: an ARITH's uniform destination, or the halted command. -/
def resumeMach (t : Thread) (h : RecHdr) (g : Nat) (v : DWord) (m : Mach) : Mach :=
  if h.kind = 1 ∧ h.eff = 3 then
    match lget t.arith g with
    | some (.k n) => m.updGroup t.gid (fun gr => { gr with k := kput gr.k n (loW v) })
    | _ => m
  else if h.halted then
    match t.haltOf g with
    | some n => resumeCmd m t.gid n v.toNat
    | none => m
  else m

/-- The plan of `resume`: the header is read once, and the snapshot and the body after the writes that come before them
(log 102). -/
def resumePlan (r : Running) (a : Nat) (m : Mach) (t : Thread) : Except FxStop FxPlan :=
  let tok := (t.rd a).toNat
  let v := t.rdD ra0
  let sp := (t.rdD rSP).toNat
  let nreg := (m.recOf t.gid).regs
  match Fx.find tok 64 (fxOf m t) t.hsp.toNat with
  | .error e => .error e
  | .ok (x, .dead n) => .error (.eff 8 tok n x.rds)
  | .ok (x, .live f fr) =>
    match x.header (below fr.top 64) with
    | .error e => .error e
    | .ok (x, h) =>
      if !h.resumable then .error (.eff 8 tok 3 x.rds)
      else if sp % 16 ≠ 0 then .error (.eff 2 sp 16 x.rds)
      else
        let g := tok / 65536
        let multi := g = fr.s
        let size := if h.kind = 1 then 4 * nreg else 96
        let body := below fr.top (64 + size)
        let at_ := below sp 160
        let rec_ := savedBody t nreg ++ recHeader t ⟨r.nextHdr, 0⟩ 2 0 96 fr.top (fr.ov == 1) false 0
        let fr' : Frame := { fr with top := at_, ov := 1, state := 3, p := if multi then fr.p else 0 }
        let ws : List (Nat × List Byte) := [(at_, rec_), (f, fr'.bytes)]
        match (if multi then x.readAfter t ws (below body h.seg) h.seg else .ok (x, [])) with
        | .error e => .error e
        | .ok (x, snap) =>
          let ws := ws ++ pieces (snap.length / 16 + 1) h.sp snap
          match x.readAfter t ws body size with
          | .error e => .error e
          | .ok (x, bs) =>
            .ok { x := x, wrs := ws,
                  f := fun u =>
                    let u := returnThread u nreg h bs (h.kind == 1)
                    let u := resumeValue t h g v u
                    if multi then u else u.forget g,
                  esc := h.halted, k := resumeMach t h g v }

/-! `endh`, `hret` and `drop` (R334 to R336). -/

/-- The return to the latest resumer of a frame (R334): `fr` is the frame with what the instruction has
already changed. -/
def toResumer (x : Fx) (t : Thread) (nreg f : Nat) (fr : Frame) (v : DWord) : Except FxStop FxPlan :=
  match x.header ((fr.top + 96) % 2 ^ 64) with
  | .error e => .error e
  | .ok (x, h) =>
    let fr' : Frame := { fr with top := h.prev, ov := if h.ov then 1 else 0, state := 2 }
    match x.readAfter t [(f, fr'.bytes)] fr.top 96 with
    | .error e => .error e
    | .ok (x, bs) =>
      .ok { x := x, wrs := [(f, fr'.bytes)], f := fun t => (returnThread t nreg h bs false).wrD ra0 v }

/-- The plan of `endh`. -/
def endhPlan (m : Mach) (t : Thread) : Except FxStop FxPlan :=
  let f := t.hsp.toNat
  if f = 0 then .error (.eff 10 0 3 [])
  else
    match (fxOf m t).frame f with
    | .error e => .error e
    | .ok (x, fr) =>
      if fr.state = 1 then
        .ok { x := x, wrs := [(f, { fr with state := 0, p := 0, s := 0 : Frame }.bytes)], f := fun t =>
          { t.wrD rSP (BitVec.ofNat 64 ((f + 32) % 2 ^ 64)) with hsp := BitVec.ofNat 64 fr.link } }
      else if fr.state = 3 then toResumer x t (m.recOf t.gid).regs f fr (t.rdD ra0)
      else .error (.eff 10 0 4 x.rds)

/-- The first active frame of a chain, within 64 frames. -/
def Fx.active : Nat → Fx → Nat → Except FxStop (Fx × Option (Nat × Frame))
  | 0, x, _ => .ok (x, none)
  | n + 1, x, f =>
    if f = 0 then .ok (x, none)
    else match x.frame f with
      | .error e => .error e
      | .ok (x, fr) => if fr.state = 2 then .ok (x, some (f, fr)) else Fx.active n x fr.link

/-- The halts of the tokens that die with some generations (R309): each drops its command. -/
def haltsOf (t : Thread) (gs : List Nat) : List Nat := (gs.filter (fun g => g != 0)).filterMap t.haltOf

/-- The end of tokens on the machine. -/
def dropMach (gid : Nat) (ns : List Nat) (m : Mach) : Mach := ns.foldl (fun m n => dropCmd m gid n) m

/-- Forget what some dead one-shot tokens kept. -/
def Thread.forgetAll (t : Thread) (gs : List Nat) : Thread := gs.foldl Thread.forget t

/-- The plan of `hret`: with its token those die whose frames only the ended activation, or the frames inside it, still
reached (R309). -/
def hretPlan (m : Mach) (t : Thread) : Except FxStop FxPlan :=
  match Fx.active 64 (fxOf m t) t.hsp.toNat with
  | .error e => .error e
  | .ok (x, none) => .error (.eff 10 0 4 x.rds)
  | .ok (x, some (f, fr)) =>
    match x.header (below fr.top 64) with
    | .error e => .error e
    | .ok (x, h) =>
      let gs := fr.p :: Fx.lost 256 x [(t.hsp.toNat, f), (h.hsp, f)]
      let ns := haltsOf t gs
      let fr1 : Frame := { fr with p := 0, s := if h.multi then 0 else fr.s }
      let fin (t : Thread) : Thread :=
        { t.forgetAll gs with brokenAt := if h.kind = 1 ∧ h.eff = 6 then none else t.brokenAt }
      if fr.ov = 1 then
        match toResumer x t (m.recOf t.gid).regs f fr1 (t.rdD ra0) with
        | .error e => .error e
        | .ok p => .ok { p with f := fun t => fin (p.f t), esc := !ns.isEmpty, k := dropMach t.gid ns }
      else
        .ok { x := x, wrs := [(f, { fr1 with state := 0, s := 0 : Frame }.bytes)], f := fun t =>
                fin ({ t.wrD rSP (BitVec.ofNat 64 ((f + 32) % 2 ^ 64)) with hsp := BitVec.ofNat 64 fr.link }.goTo fr.exit),
              esc := !ns.isEmpty, k := dropMach t.gid ns }

/-- The plan of `drop`: with the token those die whose frames only its suspended activation still reached (R309). -/
def dropPlan (a : Nat) (m : Mach) (t : Thread) : Except FxStop FxPlan :=
  let tok := (t.rd a).toNat
  match Fx.find tok 64 (fxOf m t) t.hsp.toNat with
  | .error e => .error e
  | .ok (x, .dead n) => .error (.eff 8 tok n x.rds)
  | .ok (x, .live f fr) =>
    let g := tok / 65536
    let fr' : Frame := if g = fr.s then { fr with s := 0 } else { fr with p := 0 }
    let gs := (if g = fr.s then [] else [g]) ++
      (match x.header (below fr.top 64) with | .ok (_, h) => Fx.lost 256 x [(h.hsp, f)] | .error _ => [])
    let ns := haltsOf t gs
    .ok { x := x, wrs := [(f, fr'.bytes)], f := fun t => t.forgetAll gs, esc := !ns.isEmpty, k := dropMach t.gid ns }

/-! `hstat` (R337). -/

/-- The plan of `hstat`. -/
def hstatPlan (fl : HsSel) (d a : Nat) (m : Mach) (t : Thread) : Except FxStop FxPlan :=
  let out (x : Fx) (v : Nat) : Except FxStop FxPlan :=
    .ok { x := x, wrs := [], f := fun t => t.wr d (BitVec.ofNat 32 v) }
  let x := fxOf m t
  match fl with
  | .gen => out x t.gen
  | .depth =>
    if t.hsp = 0 then out x 0
    else match x.frame t.hsp.toNat with
      | .error e => .error e
      | .ok (x, fr) => out x fr.depth
  | .tok =>
    let tok := (t.rd a).toNat
    match Fx.find tok 64 x t.hsp.toNat with
    | .error e => .error e
    | .ok (x, .dead _) => out x 0
    | .ok (x, .live _ fr) =>
      if tok / 65536 = fr.s then out x 2
      else match x.header (below fr.top 64) with
        | .error e => .error e
        | .ok (x, h) => out x (if h.resumable then 1 else 3)

/-! The meanings. -/

/-- `handle` (R326). -/
def execHandle (g : Guard) (id d : Nat) (off : Int) (entry : Nat) (s : State) : Host.Outcome State Fault Refusal :=
  .next (s.onMach (fun m => fxWord m g 2 false (fun r => handlePlan r id d off entry)))

/-- `endh` (R334). -/
def execEndh (g : Guard) (s : State) : Host.Outcome State Fault Refusal :=
  .next (s.onMach (fun m => fxWord m g 1 false (fun _ => endhPlan)))

/-- `perform` (R328): `.m` is escaping. -/
def execPerform (g : Guard) (multi : Bool) (id : Nat) (s : State) : Host.Outcome State Fault Refusal :=
  .next (s.onMach (fun m => fxWord m g 1 multi (fun r => performPlan r multi id)))

/-- `resume` (R333). -/
def execResume (g : Guard) (a : Nat) (s : State) : Host.Outcome State Fault Refusal :=
  .next (s.onMach (fun m => fxWord m g 1 false (fun r => resumePlan r a)))

/-- `drop` (R336). -/
def execDrop (g : Guard) (a : Nat) (s : State) : Host.Outcome State Fault Refusal :=
  .next (s.onMach (fun m => fxWord m g 1 false (fun _ => dropPlan a)))

/-- `hret` (R335). -/
def execHret (g : Guard) (s : State) : Host.Outcome State Fault Refusal :=
  .next (s.onMach (fun m => fxWord m g 1 false (fun _ => hretPlan)))

/-- `hstat` (R337). -/
def execHstat (g : Guard) (fl : HsSel) (d a : Nat) (s : State) : Host.Outcome State Fault Refusal :=
  .next (s.onMach (fun m => fxWord m g 1 false (fun _ => hstatPlan fl d a) true))

/-- BUILTIN_EFFECT_DELIVERY (R330). -/
def execBuiltinEffectDelivery (gid tix : Nat) (s : State) : Host.Outcome State Fault Refusal :=
  .next (s.onMach (fun m =>
    match m.group? gid with
    | none => m
    | some g => if g.onCore ∧ g.stat ≠ .saving ∧ !retryOn m g.core then deliver m gid tix else m))

end Sys2Proof.Machine
end

