-- ==== Sys2Proof/Machine/Factor.lean ====
section
/-!
DEFINITION. The factorisations (18): issue, and the event that performs one step.
-/

namespace Sys2Proof.Machine

/-- Issue a factorisation: its sizes are legal, or it ends with status 1. -/
def factorIssue (x : Fac) (opc : Nat) (op : Nat → Nat → TOp) (ok : Nat → Nat → Bool) (s : State) : State :=
  s.onMach (fun m => escWord m x.g 6 1 (fun m r t =>
    let n := (t.rd x.a).toNat
    let k := (t.rd x.c).toNat
    issueCmd m r t x.d (ok n k) {
      n := 0, gid := t.gid, tix := t.tix, tile := x.tile, op := op n k, flag := r.flag x.sel, res := some x.b, opc := opc }))

/-- A size operand of Table 18-2. -/
def sizeOk (n : Nat) : Bool := decide (1 ≤ n) && decide (n ≤ 32)

/-- `tlu` (R313). -/
def execTlu (x : Fac) (s : State) : Host.Outcome State Fault Refusal :=
  .next (factorIssue x 0x287 (fun n _ => .lu x.sec n) (fun n _ => sizeOk n) s)

/-- `tchol` (R314). -/
def execTchol (x : Fac) (s : State) : Host.Outcome State Fault Refusal :=
  .next (factorIssue x 0x288 (fun n _ => .chol n) (fun n _ => sizeOk n) s)

/-- `tqr` (R315). -/
def execTqr (x : Fac) (s : State) : Host.Outcome State Fault Refusal :=
  .next (factorIssue x 0x289 (fun m n => .qr x.sec m n)
    (fun m n => sizeOk m && decide (1 ≤ n) && decide (n ≤ m) && x.sec != x.tile) s)

/-- `ttrsm` (R316). -/
def execTtrsm (tr unit up : Bool) (x : Fac) (s : State) : Host.Outcome State Fault Refusal :=
  .next (factorIssue x 0x28A (fun n k => .trsm x.sec n k tr unit up)
    (fun n k => sizeOk n && sizeOk k && x.sec != x.tile) s)

/-- `pvap` (R317). -/
def execPvap (g : Guard) (tile pv : Nat) (inv : Bool) (d fl : Nat) (s : State) : Host.Outcome State Fault Refusal :=
  .next (s.onMach (fun m => escWord m g 6 1 (fun m r t =>
    issueCmd m r t d true {
      n := 0, gid := t.gid, tix := t.tix, tile := tile, op := .pvap pv inv, flag := r.flag fl, opc := 0x28B })))

/-- What a command works on. -/
def workOf (k : Core) (x : TCmd) : Work :=
  { a := match lget k.tiles x.tile with | some tl => tl.el | none => []
    b := match x.op.second.bind (lget k.tiles) with | some tl => tl.el | none => []
    pv := match x.op.pv?.bind (lget k.pvs) with | some p => p | none => { gid := x.gid } }

/-- Put back what a step changed. -/
def putWork (k : Core) (x : TCmd) (w : Work) : Core :=
  let put (l : List (Nat × Tile)) (i : Nat) (el : List (Nat × DWord)) : List (Nat × Tile) :=
    match lget l i with
    | some tl => lput l i { tl with el := el }
    | none => l
  let l := put k.tiles x.tile w.a
  { k with
    tiles := match x.op.second with | some i => put l i w.b | none => l
    pvs := match x.op.pv? with | some i => lput k.pvs i w.pv | none => k.pvs }

/-- A command begins (R303, R313): its maximum, and a `tlu`'s empty register. -/
def beginCmd (m : Mach) (c : Nat) (x : TCmd) : Mach :=
  let w := workOf (m.core c) x
  let m := updCmd m c x (fun y => { y with begun := true, holds := true, mx := x.op.maxIn w.a })
  let m := m.updCore c (fun k => { k with tiles := stepTile k.tiles x.tile 0 })
  match x.op with
  | .lu i _ => m.updCore c (fun k => { k with pvs := lput k.pvs i { w.pv with c := 0 } })
  | _ => m

/-- One step of a command that has begun (R306, R307). -/
def stepCmd (m : Mach) (c : Nat) (x : TCmd) : Mach :=
  let w := workOf (m.core c) x
  if x.op.steps w.pv ≤ x.step then m
  else
    match x.op.step w x.step x.val with
    | .error h => haltCmd m c x h
    | .ok w' =>
      (m.updCore c (fun k => putWork k x w')).updCore c (fun k => { k with
        tcmds := k.tcmds.map (fun y => if x.same y then { y with step := x.step + 1, val := none, holds := true } else y) })

/-- A command that has begun goes on: it holds the array, or takes it between two array commands, in order (R310). -/
def arrayFree (m : Mach) (k : Core) (x : TCmd) : Bool :=
  x.holds || k.tcmds.all (fun y => x.same y || !y.op.array || y.halt.isSome || frozen m y ||
    (!y.holds && !(y.returning && y.before x)))

/-- FACTORISATION_STEP (R306): a command begins, once the order lets it, or does its next step; a saved
group's stops at a step boundary (R281), and one of a group that ends faulted ends there (R312). -/
def execFactorisationStep (core gid n : Nat) (s : State) : Host.Outcome State Fault Refusal :=
  .next (s.onMach (fun m =>
    let k := m.core core
    match k.tcmds.find? (fun x => x.gid == gid && x.n == n && x.op.factor && x.halt.isNone) with
    | none => m
    | some x =>
      if endsFaulted m x.gid then finishCmd m core x 2 0
      else if frozen m x || !(if x.begun then arrayFree m k x else mayBegin m k x) then m
      else if cmdBad m core x then softHalt m core x
      else if x.begun then stepCmd m core x
      else beginCmd m core x))

end Sys2Proof.Machine
end

