-- ==== Sys2Proof/Machine/Link.lean ====
section
/-!
DEFINITION. The links (26): Trethar messages and sessions, host lines, link loss and quarantine, second-tier
ports, and the fabric.
-/

namespace Sys2Proof.Machine

/-! Trethar (R384 to R386). -/

/-- The time at which the next reply leaves a partition (R407): at most 1,000,000 each second. -/
def replyTime (m : Mach) (p : Part) : Nat := max m.time (match p.replies with | r :: _ => r.1 + 1000 | [] => 0)

/-- The bytes of a reply (Table 26-2). -/
def replyBytes (msg : List Byte) (st sid : Nat) (body : List Byte) : List Byte :=
  natBytes 1 1 ++ natBytes 1 1 ++ natBytes 1 (fieldAt msg 2 1) ++ natBytes 1 st ++ natBytes 2 sid ++
    natBytes 2 (fieldAt msg 6 2) ++ natBytes 4 body.length ++ natBytes 4 0 ++ body

/-- Reply to a message. -/
def reply (m : Mach) (p : Part) (msg : List Byte) (st sid : Nat) (body : List Byte) : Mach :=
  m.updPart p.pid (fun q => { q with replies := (replyTime m q, replyBytes msg st sid body) :: q.replies })

/-- Requests of a session whose replies have not left. -/
def unanswered (m : Mach) (p : Part) (sid : Nat) : Nat :=
  p.replies.countP (fun r => decide (m.time < r.1) && fieldAt r.2 4 2 == sid)

/-- What a request answers: the machine, a status, the session and a body. -/
structure TAns where
  m    : Mach
  st   : Nat
  sid  : Nat
  body : List Byte := []

/-- A word of a message's body. -/
def bodyWord (b : List Byte) (i : Nat) : Nat := fieldAt b (4 * i) 4

/-- Perform a request of an opcode that `mine` picks, by its body (R384, R385): `sess` asks for a live session,
and `fits` says whether the body keeps its limits. -/
def onRequest (s : State) (pid : Nat) (msg : TMsg) (mine : Nat → List Byte → Bool) (sess : Bool)
    (fits : List Byte → Bool) (f : Mach → Part → Nat → List Byte → TAns) : Host.Outcome State Fault Refusal :=
  .next (s.onMach (fun m =>
    let b := msg.payload
    let body := b.drop 16
    let sid := fieldAt b 4 2
    if msg.vendor ≠ Config.vendorId ∨ b.length < 16 ∨ 1024 < b.length ∨ fieldAt b 0 1 ≠ 1 ∨ fieldAt b 1 1 ≠ 0 ∨
        !mine (fieldAt b 2 1) body then m
    else if m.zyn.recovery.isSome then
      { m with zyn := { m.zyn with answers := replyBytes b 3 sid [] :: m.zyn.answers } }
    else
      match m.part? pid with
      | none => m
      | some p =>
        if !p.live ∨ p.link ≠ .up then m
        else if fieldAt b 8 4 % 4 ≠ 0 ∨ fieldAt b 8 4 ≠ body.length ∨ !fits body then reply m p b 1 sid []
        else if sess ∧ !p.sessions.any (fun x => x.sid == sid) then reply m p b 2 sid []
        else if sess ∧ 64 ≤ unanswered m p sid then reply m p b 4 sid []
        else
          let a := f m p sid body
          reply a.m p b a.st a.sid a.body))

/-- An opcode. -/
def opcodeIs (n : Nat) : Nat → List Byte → Bool := fun o _ => o == n

/-- A session ends (R386, R381): its queues are orphaned for the hold time, its contexts are no session's. -/
def endSession (m : Mach) (p : Part) (x : Session) : Mach :=
  let m1 : Mach := { m with
    queues := m.queues.map (fun q =>
      if q.part == p.pid && q.session == some x.sid then
        { q with session := none, orphanOf := some x.req
                 holdTill := if q.stat = .active then some (m.time + p.hold) else none } else q)
    ctxs := m.ctxs.map (fun c => if c.part == p.pid && c.session == some x.sid then { c with session := none } else c) }
  m1.updPart p.pid (fun p => { p with sessions := p.sessions.filter (fun y => y.sid != x.sid) })

/-- Every session of a partition ends by loss. -/
def endSessions (m : Mach) (p : Part) : Mach := p.sessions.foldl (fun m x => endSession m p x) m

/-- The named generation of a handle in an attach body. -/
def namedGen (body : List Byte) (handle : Nat) : Option Nat :=
  ((List.range (bodyWord body 1)).find? (fun i => bodyWord body (2 + 2 * i) == handle)).map (fun i => bodyWord body (3 + 2 * i))

/-- The handle of a queue (Table 25-1). -/
def handleOf (m : Mach) (q : Queue) : Nat := (match m.ctx? q.cid with | some x => x.num | none => 0) * 65536 + q.num

/-- Hand over a queue of an old session to a new one, or quiesce and report it (R381). -/
def handOver (body : List Byte) (sid : Nat) (a : Mach × List Byte) (q : Queue) : Mach × List Byte :=
  let h := handleOf a.1 q
  if q.stat = .active ∧ q.holdTill.isSome ∧ namedGen body h = some q.gen then
    (a.1.updQueue q.qid (fun q => { q with session := some sid, holdTill := none, orphanOf := none }), a.2)
  else
    let m := if q.stat = .active then quiesceQueue a.1 q else a.1
    let m := m.updQueue q.qid (fun q => { q with orphanOf := none })
    match m.queue? q.qid with
    | some q' => (m, a.2 ++ natBytes 4 h ++ natBytes 4 q'.shown ++ natBytes 4 q'.gen)
    | none => (m, a.2)

/-- TRETHAR_ATTACH (R386, R381). It answers an opcode of no request too, with status 1. -/
def execTretharAttach (part : Nat) (msg : TMsg) (s : State) : Host.Outcome State Fault Refusal :=
  onRequest s part msg (fun o _ => o == 1 || o == 0 || decide (8 < o)) false
    (fun b => fieldAt msg.payload 2 1 == 1 && b.length == 8 + 8 * bodyWord b 1 && decide (bodyWord b 1 ≤ 64) &&
      decide (bodyWord b 0 ≤ 1))
    (fun m p _ body =>
      let m := if bodyWord body 0 = 1 then
          (p.sessions.filter (fun x => x.req == msg.req)).foldl (fun m x => endSession m p x) m else m
      let live := match m.part? p.pid with | some p => p.sessions | none => []
      match lowestFree 1 65535 (live.map (fun x => x.sid)) with
      | none => ⟨m, 3, 0, []⟩
      | some sid =>
        if 16 ≤ live.length then ⟨m, 3, 0, []⟩
        else
          let m := m.updPart p.pid (fun p => { p with sessions := p.sessions ++ [⟨sid, msg.req⟩] })
          let old := m.queues.filter (fun q => q.part == p.pid && q.orphanOf == some msg.req && q.stat != .destroyed)
          let r := old.foldl (handOver body sid) (m, [])
          ⟨r.1, 0, 0, natBytes 4 sid ++ natBytes 4 p.quarantine.length ++ r.2⟩)

/-- Where the supervisor puts a descriptor (log 82). -/
def descFor (m : Mach) (p : Part) : Nat := p.dies.foldl min 3 * 2 ^ 37 + Config.descAt m.nextId % (71 * 2 ^ 24) * 64

/-- TRETHAR_CREATE_CONTEXT (R343): the supervisor creates the context from the descriptor's first 48 bytes. -/
def execTretharCreateContext (part : Nat) (msg : TMsg) (s : State) : Host.Outcome State Fault Refusal :=
  onRequest s part msg (opcodeIs 2) true (fun b => b.length == 48) (fun m p sid body =>
    let a := descFor m p
    match newContext m p a body (some sid) with
    | some r => ⟨publishBytes r.1 a (body ++ natBytes 16 0), 0, sid, natBytes 4 r.2⟩
    | none => ⟨m, 3, sid, natBytes 4 0⟩)

/-- TRETHAR_CREATE_QUEUE (Table 26-3). -/
def execTretharCreateQueue (part : Nat) (msg : TMsg) (s : State) : Host.Outcome State Fault Refusal :=
  onRequest s part msg (opcodeIs 3) true (fun b => b.length == 12) (fun m p sid body =>
    match ctxNum m p (bodyWord body 0) with
    | none => ⟨m, 3, sid, natBytes 4 0⟩
    | some x =>
      if x.session ≠ some sid then ⟨m, 3, sid, natBytes 4 0⟩
      else
        match newQueue m p (bodyWord body 0) (bodyWord body 1) (bodyWord body 2) (some sid) with
        | some r => ⟨r.1, 0, sid, natBytes 4 r.2⟩
        | none => ⟨m, 3, sid, natBytes 4 0⟩)

/-- The queue of a session by its handle. -/
def sessionQueue (m : Mach) (p : Part) (sid handle : Nat) : Option Queue :=
  match queueNum m p handle false with
  | some q => if q.session = some sid then some q else none
  | none => none

/-- SUBMIT (R385): `launch` on the session's behalf. -/
def execSubmit (part : Nat) (msg : TMsg) (s : State) : Host.Outcome State Fault Refusal :=
  onRequest s part msg (opcodeIs 4) true (fun b => b.length == 200 && bodyWord b 1 == 0) (fun m p sid body =>
    match sessionQueue m p sid (bodyWord body 0) with
    | none => ⟨m, 3, sid, []⟩
    | some q =>
      let r := appendRec m q.cid (bodyWord body 0) (body.drop 8) p.dies
      ⟨r.1, 0, sid, natBytes 8 r.2⟩)

/-- READ_STATUS (Table 26-3). -/
def execReadStatus (part : Nat) (msg : TMsg) (s : State) : Host.Outcome State Fault Refusal :=
  onRequest s part msg (opcodeIs 5) true (fun b => b.length == 4) (fun m p sid body =>
    match sessionQueue m p sid (bodyWord body 0) with
    | none => ⟨m, 3, sid, []⟩
    | some q => ⟨m, 0, sid, statusBytes m q⟩)

/-- DETACH (R386). -/
def execDetach (part : Nat) (msg : TMsg) (s : State) : Host.Outcome State Fault Refusal :=
  onRequest s part msg (opcodeIs 6) true (fun b => b.isEmpty) (fun m p sid _ =>
    match p.sessions.find? (fun x => x.sid == sid) with
    | none => ⟨m, 2, sid, []⟩
    | some x => ⟨endSession m p x, 0, sid, []⟩)

/-! Quarantine (R389, R390). -/

/-- The address of a quarantine entry. -/
def quarAddr (p : Part) (i : Nat) : Nat := p.area + 576 * i

/-- Free an entry. -/
def freeQuar (m : Mach) (p : Part) (i : Nat) : Mach :=
  (publishBytes m (quarAddr p i + 12) (natBytes 4 0)).updPart p.pid (fun p => { p with quarantine := p.quarantine.filter (fun q => q.idx != i) })

/-- A dispose request of an action on entries that are all held. -/
def onDispose (s : State) (part : Nat) (msg : TMsg) (action : Nat) (f : Mach → Part → Nat → Nat → Mach × List Byte) :
    Host.Outcome State Fault Refusal :=
  onRequest s part msg (fun o b => o == 7 && (bodyWord b 2 == action || (action == 0 && decide (2 < bodyWord b 2)))) true
    (fun b => b.length == 12 && decide (bodyWord b 2 ≤ 2) && (bodyWord b 2 != 2 || bodyWord b 1 == 1))
    (fun m p sid body =>
      let i := bodyWord body 0
      let n := bodyWord body 1
      if p.quarantine.countP (fun q => decide (i ≤ q.idx) && decide (q.idx < i + n)) ≠ n then ⟨m, 3, sid, natBytes 4 0⟩
      else
        let r := f m p i n
        ⟨r.1, 0, sid, natBytes 4 n ++ r.2⟩)

/-- The entries of a range, in order. -/
def quarIn (p : Part) (i n : Nat) : List Quar := p.quarantine.filter (fun q => decide (i ≤ q.idx) && decide (q.idx < i + n))

/-- DISPOSE_DISCARD (R390). -/
def execDisposeDiscard (part : Nat) (msg : TMsg) (s : State) : Host.Outcome State Fault Refusal :=
  onDispose s part msg 0 (fun m p i n => ((quarIn p i n).foldl (fun m q => freeQuar m p q.idx) m, []))

/-- Write the dirty sectors of an entry to host memory, each whole. -/
def replayQuar (m : Mach) (p : Part) (q : Quar) : Mach :=
  let a := quarAddr p q.idx
  let mask := memNat m (a + 10) 2
  let m : Mach := (List.range 16).foldl (fun m i =>
    if mask / 2 ^ i % 2 = 1 then publishBytes m (q.pa + 32 * i) (cread m.mem (a + 64 + 32 * i) 32) else m) m
  m.updPart p.pid (fun p => { p with quarantine := p.quarantine.map (fun x => if x.idx == q.idx then { x with replay := true } else x) })

/-- DISPOSE_REPLAY (R390): the entries are free once the host has acknowledged the writes. -/
def execDisposeReplay (part : Nat) (msg : TMsg) (s : State) : Host.Outcome State Fault Refusal :=
  onDispose s part msg 1 (fun m p i n => ((quarIn p i n).foldl (fun m q => replayQuar m p q) m, []))

/-- DISPOSE_REPLAY_ACK (R390). -/
def execDisposeReplayAck (part idx : Nat) (s : State) : Host.Outcome State Fault Refusal :=
  .next (s.onMach (fun m =>
    match m.part? part with
    | some p => if p.quarantine.any (fun q => q.idx == idx && q.replay) then freeQuar m p idx else m
    | none => m))

/-- DISPOSE_READ (R390): the entry of Table 26-5. -/
def execDisposeRead (part : Nat) (msg : TMsg) (s : State) : Host.Outcome State Fault Refusal :=
  onDispose s part msg 2 (fun m p i _ => (m, cread m.mem (quarAddr p i) 576))

/-! The host link (R383, R387 to R389). -/

/-- Bytes of the quarantine area (R390). -/
def quarBytes : Nat := 84934656

/-- HOST_LINK_UP (R383): on a port of the partition that attaches nothing else, with the quarantine area. -/
def execHostLinkUp (part port area : Nat) (s : State) : Host.Outcome State Fault Refusal :=
  .next (s.onMach (fun m =>
    match m.part? part with
    | none => m
    | some p =>
      if !p.live ∨ p.link ≠ .down ∨ !p.dies.contains (port / 2) ∨ (m.die (port / 2)).fatal ∨ !ownRange p area quarBytes ∨
          (p.linkPort.isSome ∧ (p.linkPort ≠ some port ∨ p.area ≠ area)) then m
      else m.updPart part (fun p => { p with link := .up, linkPort := some port, area := area })))

/-- The dirty sectors of a line (Table 26-5). -/
def dirtySectors (l : Line) : Nat :=
  ((List.range 16).map (fun i => if ((l.dirty.drop (32 * i)).take 32).any (fun d => d) then 2 ^ i else 0)).sum

/-- The bytes of a quarantine entry (Table 26-5). -/
def quarEntry (l : Line) : List Byte :=
  natBytes 8 l.pa ++ natBytes 2 l.asid ++ natBytes 2 (dirtySectors l) ++ natBytes 4 1 ++ natBytes 48 0 ++ l.data

/-- Put a line in its place in ascending host address. -/
def insertLine (l : Line) : List Line → List Line
  | [] => [l]
  | x :: r => if l.pa < x.pa then l :: x :: r else x :: insertLine l r

/-- The numbers of `n` new entries: from 0, but for those of entries that are still held (R390). -/
def quarNums (p : Part) (n : Nat) : List Nat :=
  ((List.range (n + p.quarantine.length)).filter (fun i => !p.quarantine.any (fun q => q.idx == i))).take n

/-- Write dirty lines into the quarantine area, each as the entry of its number. -/
def quarLines (p : Part) (ls : List (Nat × Line)) (m : Mach) : Mach :=
  ls.foldl (fun m l => (publishBytes m (quarAddr p l.1) (quarEntry l.2)).updPart p.pid (fun p => { p with
    quarantine := p.quarantine ++ [⟨l.1, l.2.pa, false⟩] })) m

/-- Every thread of a context receives LINK.LOST with cause 2, and its supervisor a record (R389). -/
def loseCtx (m : Mach) (x : Ctx) (n : Nat) : Mach :=
  let m := (m.threads.filter (fun t => cidOf m t.gid == x.cid)).foldl (fun m t =>
    updBoth m t.gid t.tix (fun t => { t with lost := true })) m
  postRec m x.cid { kind := 10, asid := asidOf m x.cid, addr := n }

/-- Writes to the host that wait for an acknowledgement wait no longer. -/
def dropHostWrs (m : Mach) (p : Part) : Mach :=
  { m with hostWrs := m.hostWrs.filter (fun x => homeOf x.pa != .host ||
      !(p.dies.contains (m.dieOf x.gid) || decide (2 ^ 64 ≤ x.gid))) }

/-- The host link leaves up (R389): dirty lines are quarantined where `keep`, sessions end, and it is down. -/
def linkLoss (m : Mach) (pid : Nat) (keep : Bool) : Mach :=
  match m.part? pid with
  | none => m
  | some p =>
    if p.link ≠ .up then m
    else
      let m := dropHostWrs (m.updPart pid (fun p => { p with link := .lost, lines := [], wbs := [] })) p
      let dirty := if keep then (p.lines.filter (fun l => !l.clean)).foldl (fun r l => insertLine l r) [] else []
      let m := quarLines p ((quarNums p dirty.length).zip dirty) m
      let m := (m.ctxs.filter (fun x => x.part == pid && x.stat != .gone)).foldl (fun m x =>
        let n := dirty.countP (fun l => l.asid == pte x.satp.toNat 44 16)
        if n = 0 then m else loseCtx m x n) m
      (endSessions m p).updPart pid (fun p => { p with link := .down })

/-- HOST_LINK_LOSS (R389). -/
def execHostLinkLoss (part : Nat) (s : State) : Host.Outcome State Fault Refusal :=
  .next (s.onMach (fun m => linkLoss m part true))

/-- HOST_SNOOP (R387, R388): the holder answers from its L2; against a write-back in flight, with RspIHitI and no
data. The host's write to the line follows an invalidating snoop. -/
def execHostSnoop (part : Nat) (kind : Snoop) (pa : Nat) (bytes : List Byte) (s : State) : Host.Outcome State Fault Refusal :=
  .next (s.onMach (fun m =>
    match m.part? part with
    | none => m
    | some p =>
      if p.link ≠ .up ∨ homeOf pa ≠ .host ∨ 512 < pa % 512 + bytes.length then m
      else
        let hostPuts (m : Mach) : Mach :=
          wakeWatch { m with mem := cwrite m.mem pa bytes } pa bytes.length
        let hasWord (m : Mach) (r : List Nat) : Mach := { m with outbox := r :: m.outbox }
        let base := pa / 512 * 512
        match lineAt p.lines base with
        | none =>
          let m := hasWord m [pa, if (lineAt p.wbs base).isSome then 1 else 0]
          (match kind with | .inv => hostPuts m | _ => m)
        | some l =>
          let home : Mach := { m with mem := cwriteMask m.mem l.pa l.data l.dirty }
          match kind with
          | .inv =>
            hostPuts (hasWord (home.updPart part (fun p => { p with lines := p.lines.filter (fun x => x.pa != l.pa) }))
              [pa, 2, bytesNat l.data])
          | .data =>
            hasWord (home.updPart part (fun p => { p with lines := setLine p.lines l.asClean })) [pa, 3, bytesNat l.data]
          | .cur => hasWord m [pa, 4, bytesNat l.data]))

/-- GO_WRITEPULL (R388): the data of a write-back in flight is sent. -/
def execGoWritepull (part pa : Nat) (s : State) : Host.Outcome State Fault Refusal :=
  .next (s.onMach (fun m => m.updPart part (fun p => { p with wbs := p.wbs.filter (fun l => l.pa != pa / 512 * 512) })))

/-! Second-tier ports (R391). -/

/-- A line behind a second-tier port. -/
def behindPort (port : Nat) (l : Line) : Bool := homeOf l.pa == .second port

/-- PORT_FAIL (R391): the port's dirty lines are lost, and one MACHINE record is posted, to the partition's first
context. -/
def execPortFail (port : Nat) (s : State) : Host.Outcome State Fault Refusal :=
  .next (s.onMach (fun m =>
    match m.partOf (port / 2) with
    | none => m
    | some p =>
      if m.xfailed.contains port ∨ p.linkPort = some port ∨ 8 ≤ port then m
      else
        let m : Mach := { m with
          xfailed := port :: m.xfailed
          cores := m.cores.map (fun e => (e.1, { e.2 with lines := e.2.lines.filter (fun l => !behindPort port l) }))
          clusters := m.clusters.map (fun e => (e.1, e.2.filter (fun l => !behindPort port l))) }
        match m.ctxs.find? (fun x => x.part == p.pid && x.stat != .gone) with
        | some x => postRec m x.cid { kind := 5, cause := 0x0503, asid := asidOf m x.cid, addr := port }
        | none => m))

/-! The fabric (R392 to R395). -/

/-- A port of a die's fabric. -/
def updPort (m : Mach) (d i : Nat) (f : FPort → FPort) : Mach :=
  m.updDie d (fun x => { x with fports := lput x.fports i (f ((lget x.fports i).getD {})) })

/-- With no route left, the drain-adds on their way to a peer are refused (R394). -/
def noRoute (m : Mach) (d : Nat) : Mach :=
  if fabricUp m d then m
  else { m with dadds := m.dadds.map (fun x =>
    if x.pkg.isSome && x.core / 64 == d && x.ans.isNone then { x with ans := some 3 } else x) }

/-- FLIT_CRC_ERROR (R393): the sender replays the port's unacknowledged flits in order; none is lost, doubled or
reordered, so nothing but time changes. -/
def execFlitCrcError (_die _port : Nat) (s : State) : Host.Outcome State Fault Refusal := .next (s.onMach (fun m => m))

/-- LANE_FAIL (R393): the spare, half rate, and at the third the port is down. -/
def execLaneFail (die port : Nat) (s : State) : Host.Outcome State Fault Refusal :=
  .next (s.onMach (fun m =>
    if 4 ≤ die ∨ 6 ≤ port then m
    else noRoute (updPort m die port (fun f => { failed := f.failed + 1, up := f.up && decide (f.failed < 2) })) die))

/-- FABRIC_PORT_DOWN (R394): flits in flight take another route. -/
def execFabricPortDown (die port : Nat) (s : State) : Host.Outcome State Fault Refusal :=
  .next (s.onMach (fun m => if 4 ≤ die ∨ 6 ≤ port then m else noRoute (updPort m die port (fun f => { f with up := false })) die))

/-- An admission covers an access of a peer (R395, Table 26-8). -/
def Admit.covers (a : Admit) (pkg pa n : Nat) (rd wr : Bool) : Bool :=
  decide (a.first ≤ pkg) && decide (pkg < a.first + a.count) && decide (a.base ≤ pa) && decide (pa + n ≤ a.base + a.len) &&
    (!rd || a.rights % 2 == 1) && (!wr || a.rights / 2 == 1)

/-- FABRIC_REQUEST_ARRIVE (R395): a peer's read, write or atomic on memory of this package; refused, it is not
performed. The answer goes back: the package, the address, whether it was performed, and a value. -/
def execFabricRequestArrive (pkg pa n : Nat) (op : Option AtomOp) (wr : Bool) (val : Nat) (s : State) : Host.Outcome State Fault Refusal :=
  .next (s.onMach (fun m =>
    let hasWord (m : Mach) (ok v : Nat) : Mach := { m with outbox := [pkg, pa, ok, v] :: m.outbox }
    match (homeDie pa).bind m.partOf with
    | none => hasWord m 0 0
    | some p =>
      let d := (homeDie pa).getD 0
      let rd := op.isSome || !wr
      let ok := p.live && p.admits.any (fun a => a.covers pkg pa n rd (op.isSome || wr)) && (reachable m .load d pa n).isOk &&
        (!rd || (poisoned m pa n).isNone)
      if !ok then hasWord m 0 0
      else
        let old := memNat m pa n
        let put (v : Nat) : Mach := wakeWatch (homeWrite m d pa (natBytes n v)) pa n
        match op with
        | some o => hasWord (put (atomNew o n old (val % 2 ^ (8 * n)) (val / 2 ^ (8 * n)))) 1 old
        | none => if wr then hasWord (put val) 1 0 else hasWord m 1 old))

end Sys2Proof.Machine
end

