-- ==== Sys2Proof/Machine/Migrate.lean ====
section
/-!
DEFINITION. Calls across instruction sets (23) and the headland's accesses (R199, R268): departures,
visitors, returns, exceptions on visitors, widened calls.
-/

namespace Sys2Proof.Machine

/-! Harts: 0 to 7 of a die are its native ones, 8 + v runs visitor context v (R14, R360). -/

/-- A hart of a die. -/
def hartOf (m : Mach) (d h : Nat) : Hart := (lget (m.die d).harts h).getD {}

/-- Change a hart. -/
def updHart (m : Mach) (d h : Nat) (f : Hart → Hart) : Mach :=
  m.updDie d (fun x => { x with harts := lput x.harts h (f ((lget x.harts h).getD {})) })

/-- What an access or a call gives a hart. -/
def hartGot (m : Mach) (d h : Nat) (r : HartRes) : Mach := updHart m d h (fun h => { h with got := r :: h.got })

/-- The thread that a visitor context runs. -/
def visThread (m : Mach) (die vis : Nat) : Option Thread :=
  (lget (m.die die).visitors vis).bind (fun v => m.thread? v.gid v.tix)

/-- Whether a hart executes: its die is out of reset, and a visitor context has a thread (R13, R360). -/
def hartLives (m : Mach) (die hart : Nat) : Bool :=
  !(m.die die).held && !(m.die die).fatal && (decide (hart < 8) || (decide (hart < 40) && (visThread m die (hart - 8)).isSome))

/-- The address space of a visitor context: that of its thread's context, in U-mode, with caches of its own (R360). -/
def visWho (m : Mach) (vis : Nat) (t : Thread) : Who := { whoOf m t.gid with l1 := false, hart := some (8 + vis) }

/-- The owner number that a native hart's writes carry while they are not acknowledged: no group's. -/
def hartGid (d h : Nat) : Nat := 2 ^ 64 + 64 * d + h

/-- Whose writes those of a hart are: a visitor's are its thread's (R218). -/
def hartOwner (m : Mach) (d h : Nat) : Nat × Nat :=
  match (if h < 8 then none else visThread m d (h - 8)) with
  | some t => (t.gid, t.tix)
  | none => (hartGid d h, 0)

/-- Earlier writes of a hart that a release at `.sys` waits for. -/
def hartPending (m : Mach) (own : Nat × Nat) : Bool :=
  m.repls.any (fun x => x.gid == own.1 && x.tix == own.2) || m.hostWrs.any (fun x => x.gid == own.1 && x.tix == own.2)

/-! A hart's stores (R253, R268). -/

/-- A hart's write at its home: none while another party's solo chunk holds up its commit (R256). -/
def hartWrite (m : Mach) (who : Who) (own : Nat × Nat) (x : Xlat) (bs : List Byte) : Option Mach :=
  match x.cls with
  | 0 =>
    let gs := grainsOf x.pa bs.length x.grain
    if soloBlocks m who.part none gs then none
    else some (conflicts (publishBytes (dieMark m who.die).1 x.pa bs) who.part none gs 3)
  | 2 => some (replWrite m who own.1 own.2 x.pa bs)
  | _ => some (if deviceMem x.pa then wakeWatch (homeWrite m who.die x.pa bs) x.pa bs.length
      else hostWrite m who own.1 own.2 x.pa bs)

/-- Store bytes, 8 at a time. -/
def hartStore (who : Who) (own : Nat × Nat) : Nat → Mach → Nat → List Byte → Option Mach
  | 0, m, _, _ => some m
  | k + 1, m, a, bs =>
    if bs.isEmpty then some m
    else
      match translate m who .store a with
      | .error _ => none
      | .ok (m, x) =>
        match hartWrite m who own x (bs.take 8) with
        | none => none
        | some m => hartStore who own k m ((a + 8) % 2 ^ 64) (bs.drop 8)

/-- Store some blocks in order. -/
def hartStores (who : Who) (own : Nat × Nat) : Mach → List (Nat × List Byte) → Option Mach
  | m, [] => some m
  | m, (a, bs) :: l =>
    match hartStore who own (bs.length / 8 + 1) m a bs with
    | none => none
    | some m => hartStores who own m l

/-! Departure (R356, R357). -/

/-- The record of a thread that leaves its core joins the visitor queue. -/
def departs (m : Mach) (t : Thread) : Mach :=
  let g := imageOf t (m.recOf t.gid).regs
  let m := relPush m (m.coreOf t.gid) 2
  let m := putRecord m t g t.pos.hdr 0
  let m := updBoth m t.gid t.tix (fun u => { t.leave .transit t.pos with loads := u.loads })
  m.updDie (m.dieOf t.gid) (fun d => { d with vq := d.vq ++ [⟨t.gid, t.tix, g, t.pos.hdr, none⟩] })

/-- MIGRATE_OUT (R356, R357, R367): a thread that has landed on an RV64 page leaves in an empty chunk, once
nothing of it is outstanding. A lane of a widened call that lands at the return address exits. -/
def execMigrateOut (gid tix : Nat) (s : State) : Host.Outcome State Fault Refusal :=
  .next (s.onMach (fun m =>
    match m.thread? gid tix, m.group? gid with
    | some t, some gr =>
      let c := gr.core
      let ok := (t.stat == .ready || t.stat == .held) && t.landed && t.pos.idx == 0 && groupRuns m gid &&
        !m.running.any (fun r => r.gid == gid && r.tixs.contains tix) && (awaited m t).isEmpty &&
        (List.range 12).all (fun n => flagCount m t n == 0)
      let foreign : Option Mach := match translate m (whoOf m gid) .fetch t.pos.hdr with
        | .ok (m', _) => if isaTag m' (whoOf m gid) t.pos.hdr = some 0 then some m' else none
        | .error _ => none
      match (if ok then foreign else none) with
      | none => m
      | some m =>
        if gr.caller.map Prod.snd = some t.pos.hdr then
          rejoinCheck (m.updThread gid tix (fun t => t.leave .exited t.pos)) gid (tix / 32)
        else if !chunkEmpty m c then addDue m c 9
        else if (m.core c).comC.isSome || !relReady m t 2 then m
        else departs m t
    | _, _ => m))

/-! Visitors (R360, R361). -/

/-- VISITOR_TAKE (R360): a free visitor context takes the head record, and holds no reservation of before. -/
def execVisitorTake (die vis : Nat) (s : State) : Host.Outcome State Fault Refusal :=
  .next (s.onMach (fun m =>
    let d := m.die die
    match d.vq with
    | [] => m
    | x :: l =>
      if 32 ≤ vis ∨ (lget d.visitors vis).isSome ∨ d.held then m
      else
        match m.thread? x.gid x.tix with
        | none => m
        | some t =>
          let m := m.updDie die (fun d => { d with vq := l, visitors := lput d.visitors vis ⟨x.gid, x.tix, x.img, x.pc, m.time⟩ })
          let m := updHart m die (8 + vis) (fun h => { h with resv := none })
          putPointer (putRecState m t 1) die vis (recordAddr m t)))

/-- A visitor context gives its thread up: the image goes to the record. -/
def leavesVisitor (m : Mach) (die vis : Nat) (t : Thread) (img : Image) (pc state : Nat) : Mach :=
  putPointer (putRecord (m.updDie die (fun d => { d with visitors := ldel d.visitors vis })) t img pc state) die vis 0

/-- VISITOR_DISPLACE (R360): after 50 µs, with the queue not empty, its thread joins the tail. -/
def execVisitorDisplace (die vis : Nat) (img : Image) (pc : Nat) (s : State) : Host.Outcome State Fault Refusal :=
  .next (s.onMach (fun m =>
    let d := m.die die
    match lget d.visitors vis with
    | none => m
    | some v =>
      match m.thread? v.gid v.tix with
      | none => m
      | some t =>
        if d.held ∨ d.vq.isEmpty ∨ m.time < v.since + 50000 then m
        else (leavesVisitor m die vis t img pc 0).updDie die (fun d => { d with
          vq := d.vq ++ [⟨v.gid, v.tix, img, pc, none⟩] })))

/-- A thread goes home: its record is returning. -/
def goesHome (m : Mach) (die vis : Nat) (t : Thread) (img : Image) (pc : Nat) (park : Option Raise) : Mach :=
  (leavesVisitor m die vis t img pc 2).updDie die (fun d => { d with
    homing := d.homing ++ [⟨t.gid, t.tix, img, pc, park⟩] })

/-- VISITOR_LAND_UBHUS (R361): the fetch of the target of a jump or taken branch. It passes its checks with ISA
tag 1: the hart releases, and the thread goes home. A target that fails is a trap of the hart, and the jump does not
retire (R365, R372, Table 23-3); one on an RV64 page is no landing. -/
def execVisitorLandUbhus (die vis : Nat) (img : Image) (pc : Jump) (s : State) : Host.Outcome State Fault Refusal :=
  .next (s.onMach (fun m =>
    let trap (n : Nat) : Mach := hartGot m die (8 + vis) (.trap n pc.target pc.src)
    match visThread m die vis with
    | none => m
    | some t =>
      if !hartLives m die (8 + vis) then m
      else
        match translate m (visWho m vis t) .fetch pc.target with
        | .error (.fault 3 _) => trap 25
        | .error (.fault 4 _) => trap 26
        | .error _ => trap 24
        | .ok (m', _) =>
          if isaTag m' (visWho m vis t) pc.target ≠ some 1 then m
          else if pc.target % 8 ≠ 0 then trap 0
          else if !relReady m' t 2 then m
          else goesHome m' die vis t img pc.target none))

/-- RETURN_HOME (R362): a returning thread re-enters its home slot at a clause boundary, in an empty chunk; it
waits while its group is saved. -/
def execReturnHome (gid tix : Nat) (s : State) : Host.Outcome State Fault Refusal :=
  .next (s.onMach (fun m =>
    match m.thread? gid tix, m.group? gid with
    | some t, some gr =>
      match (m.die gr.die).homing.find? (fun x => x.gid == gid && x.tix == tix) with
      | none => m
      | some x =>
        if gr.stat = .saved ∨ gr.stat = .saving then putRecState m t 3
        else if !atBoundary m gr.core then m
        else if !chunkEmpty m gr.core then addDue m gr.core 9
        else if (m.core gr.core).comC.isSome then m
        else
          let m := m.updDie gr.die (fun d => { d with homing := d.homing.filter (fun y => !(y.gid == gid && y.tix == tix)) })
          let m := updBoth m gid tix (fun t => { withImage t (m.recOf gid).regs x.img with
            pos := ⟨x.pc, 0⟩, landed := true, stat := .ready, pack := 0 })
          let m := acqDo m gr.core 2
          match x.park, m.thread? gid tix with
          | some r, some t => parkEffect (m.updThread gid tix (fun t => { t with pos := r.save })) t r
          | _, _ => m
    | _, _ => m))

/-! Exceptions on a visitor (R364, R342). -/

/-- The effect of an exception (R364): the saved position is the faulting pc, or that after an `ebreak`. -/
def visRaise (pc : Nat) (e : VisExc) : Raise :=
  let base : Raise := { eff := 1, a0 := BitVec.ofNat 64 pc, save := ⟨pc, 0⟩, word := ⟨pc, 0⟩ }
  match e with
  | .illegal bits => { base with a2 := BitVec.ofNat 64 bits }
  | .misalign ea size => { base with eff := 2, a2 := BitVec.ofNat 64 ea, a3 := BitVec.ofNat 64 size }
  | .brk compressed => { base with eff := 11, save := ⟨(pc + if compressed then 2 else 4) % 2 ^ 64, 0⟩ }
  | .linkLost ea cause => { base with eff := 9, a2 := BitVec.ofNat 64 ea, a3 := BitVec.ofNat 64 cause }

/-- The trap of a failed access at an address, of the instruction at `pc` (Table 23-3). -/
def trapOf (writes : Bool) (va pc : Nat) (e : MemErr) : HartRes :=
  match e with
  | .fault 1 _ | .fault 2 0x0201 | .fault 2 0x0202 => .trap (if writes then 15 else 13) va pc
  | .fault 4 _ => .trap 26 va pc
  | _ => .trap (if writes then 7 else 5) va pc

/-- No frame handles an effect: the thread goes home and parks there (R364). -/
def parksHome (m : Mach) (die vis : Nat) (t : Thread) (img : Image) (x : Raise) : Mach :=
  goesHome (updBoth m t.gid t.tix (fun c => { c with lost := t.lost })) die vis t img x.save.hdr (some x)

/-- Deliver an effect on a visitor: the record is written by the hart, and the thread goes home to its
handler's entry, with its `HSP` and g, which no squash takes back (R357, R359). A fault of an access traps to the
supervisor, and the delivery is tried again. -/
def visDeliver (m : Mach) (die vis : Nat) (t : Thread) (img : Image) (x : Raise) (onDeep : Mach) : Mach :=
  let trap (w : Bool) (a : Nat) (e : MemErr) : Mach := hartGot m die (8 + vis) (trapOf w a x.word.hdr e)
  match deliverPlan m t x (visWho m vis t) true with
  | .error (.mem (.link _) _ _ _) => m
  | .error (.mem e _ a _) => trap false a e
  | .error (.eff _ _ _ _) => onDeep
  | .ok (.inr _) => parksHome m die vis t img x
  | .ok (.inl p) =>
    match fxProbe p.x.m p.x.who p.wrs with
    | some (.link _, _) => m
    | some (e, a) => trap true a e
    | none =>
      match hartStores p.x.who (t.gid, t.tix) p.x.m p.wrs with
      | none => m
      | some m' =>
        let u := p.f t
        let m' := updBoth m' t.gid t.tix (fun c => { c with
          hsp := u.hsp, gen := u.gen, arith := u.arith, halts := u.halts, lost := u.lost })
        goesHome m' die vis u (imageOf u (m.recOf t.gid).regs) u.pos.hdr none

/-- The exception of R364 in the thread that a visitor context runs, with the state that its code has reached. LINK.LOST
of a link's end reaches it once (R389). -/
def visRaises (m : Mach) (die vis : Nat) (img : Image) (pc : Nat) (exc : VisExc) : Mach :=
  match visThread m die vis with
  | none => m
  | some t =>
    let ends : Bool := match exc with | .linkLost 0 2 => true | _ => false
    if !hartLives m die (8 + vis) ∨ (ends ∧ !t.lost) then m
    else
      let u := { withImage t (m.recOf t.gid).regs img with lost := t.lost && !ends }
      let x := visRaise pc exc
      let depth : Raise := { x with eff := 10, a2 := BitVec.ofNat 64 x.eff, a3 := 2 }
      visDeliver m die vis u img x
        (visDeliver m die vis u img depth (parksHome m die vis u img depth))

/-- VISITOR_EXCEPTION (R364). -/
def execVisitorException (die vis : Nat) (img : Image) (pc : Nat) (exc : VisExc) (s : State) : Host.Outcome State Fault Refusal :=
  .next (s.onMach (fun m => visRaises m die vis img pc exc))

/-! `sfence.vma` (R199). -/

/-- A tag matches the operands: `x0` matches any, and a page may be as large as 2^39 bytes, so that addresses
as near match (what else goes, an eviction could have taken). -/
def fenceHits (va asid : Option Nat) (a v : Nat) : Bool :=
  (match asid with | some n => n == a | none => true) &&
    (match va with | some n => n % 2 ^ 48 / 2 ^ 39 == v % 2 ^ 48 / 2 ^ 39 | none => true)

/-- Discard the matching lines and clauses of a core, once their dirty scoped bytes are home. -/
def fenceCore (m : Mach) (va asid : Option Nat) (c : Nat) : Mach :=
  let hit (l : Line) : Bool := fenceHits va asid l.asid l.va
  let m := ((m.core c).lines.filter hit).foldl (fun m l => if l.clean || l.cls != 1 then m else pushLine m c true l) m
  m.updCore c (fun k => { k with
    lines := k.lines.filter (fun l => !hit l), fetched := k.fetched.filter (fun f => !fenceHits va asid f.asid f.hdr) })

/-- Discard the lines of a cluster cache, once their dirty bytes are home: no virtual tag tells which page they were read
through, so all go, as an eviction could take them. -/
def fenceCluster (m : Mach) (cl : Nat) : Mach :=
  ((m.cluster cl).foldl homePush m).setCluster cl []

/-- The cached translations of a die's unit, and of the hart that executes the fence, that match go. -/
def fenceTlbs (m : Mach) (va asid : Option Nat) (dies : List Nat) (die hart : Nat) : Mach :=
  let cut (l : List Tlb) : List Tlb := l.filter (fun e => !fenceHits va asid e.asid e.va)
  updHart (dies.foldl (fun m d => m.updDie d (fun d => { d with tlb := cut d.tlb })) m) die hart (fun h => { h with tlb := cut h.tlb })

/-- SFENCE_VMA (R199): it retires once every core that holds speculative sectors of a matching page has closed
its chunk, with cause 13. Visitor contexts run in U-mode, which has no fence. -/
def execSfenceVma (die hart : Nat) (va asid : Option Nat) (s : State) : Host.Outcome State Fault Refusal :=
  .next (s.onMach (fun m =>
    let dies := partDies m die
    let cores := (m.cores.map Prod.fst).filter (fun c => dies.contains (c / 64))
    let busy := cores.filter (fun c => (m.core c).openC.pages.any (fun p => fenceHits va asid p.1 (p.2 * 4096)))
    if 8 ≤ hart ∨ !hartLives m die hart ∨ m.repls.any (fun x => x.gid == hartGid die hart) then m
    else if !busy.isEmpty then busy.foldl (fun m c => addDue m c 13) m
    else
      let m := cores.foldl (fun m c => fenceCluster (fenceCore m va asid c) (clusterOf c)) m
      fenceTlbs m va asid dies die hart))

/-! The headland's accesses (R268, R253). -/

/-- What an access gives its hart. -/
def hartGets (m : Mach) (a : HartAcc) (r : HartRes) : Mach := hartGot m a.die a.hart r

/-- The trap of a failed access (Table 23-3). -/
def hartTrap (a : HartAcc) (writes : Bool) (e : MemErr) : HartRes := trapOf writes a.va a.pc e

/-- Whose access it is: a visitor's is its thread's (R360), a native hart's that of its `satp` and mode (R189). -/
def accWho (m : Mach) (a : HartAcc) : Who :=
  match (if a.hart < 8 then none else visThread m a.die (a.hart - 8)) with
  | some t => visWho m (a.hart - 8) t
  | none =>
    { core := a.die * 64, die := a.die, asid := pte a.satp.toNat 44 16, root := pte a.satp.toNat 0 44, secure := a.world
      part := partDies m a.die, user := a.umode, mode := pte a.satp.toNat 60 4, hart := some a.hart, sum := a.sum, mxr := a.mxr }

/-- The owner of an access's writes. -/
def accOwner (m : Mach) (a : HartAcc) : Nat × Nat := hartOwner m a.die a.hart

/-- A failed access: LINK.LOST is an effect of a visitor's thread (R364), all else a trap. -/
def hartFails (m : Mach) (a : HartAcc) (writes : Bool) (e : MemErr) : Mach :=
  match e with
  | .link c =>
    if a.hart < 8 then hartGets m a (hartTrap a writes e) else visRaises m a.die (a.hart - 8) a.img a.pc (.linkLost a.va c)
  | .fault _ _ => hartGets m a (hartTrap a writes e)

/-- A misaligned access: MISALIGN of a visitor's thread (R364), a trap of a native hart. -/
def hartSkew (m : Mach) (a : HartAcc) (writes : Bool) : Mach :=
  if a.hart < 8 then hartGets m a (.trap (if writes then 6 else 4) a.va a.pc)
  else visRaises m a.die (a.hart - 8) a.img a.pc (.misalign a.va a.n)

/-- An access that reads: what it does with the value, and what it stores when it writes too. An AMO's read and write are
one commit with one tidemark (R253). -/
def hartDo (m : Mach) (a : HartAcc) (acc : Acc) (f : Mach → Xlat → Nat → Mach × HartRes × Option (List Byte)) : Mach :=
  match hartRead m (accWho m a) acc (!acc.writes) a.va a.n with
  | .error e => hartFails m a acc.writes e
  | .ok (m', bs, x) =>
    let r := f m' x (bytesNat bs)
    match r.2.2 with
    | none => hartGets r.1 a r.2.1
    | some w =>
      match hartWrite r.1 (accWho m a) (accOwner m a) x w with
      | none => m
      | some m' => hartGets m' a r.2.1

/-- A store of a hart, with what else it does once it may: a poisoned sector is no fault of it. -/
def hartPut (m : Mach) (a : HartAcc) (f : Mach → Mach) : Mach :=
  let who := accWho m a
  match translate m who .store a.va with
  | .error e => hartFails m a true e
  | .ok (m', x) =>
    match reachable m' .store who.die x.pa a.n with
    | .error e => hartFails m a true e
    | .ok () =>
      match hartWrite (f m') who (accOwner m a) x (natBytes a.n a.val) with
      | none => m
      | some m' => hartGets m' a (.val 0)

/-- The reservation of an LR that has read an address: its grain on a chunked page (R253). -/
def takeResv (m : Mach) (a : HartAcc) (x : Xlat) : Mach :=
  let mark := match m.partOf a.die with | some p => p.grants | none => 0
  updHart m a.die a.hart (fun h => { h with
    resv := some (if x.cls = 0 then (x.pa / x.grain * x.grain, x.grain, mark) else (x.pa, a.n, mark)) })

/-- Whether a hart's reservation covers an access. -/
def resvHolds (m : Mach) (a : HartAcc) (x : Xlat) : Bool :=
  match (hartOf m a.die a.hart).resv with
  | some r => decide (r.1 ≤ x.pa) && decide (x.pa + a.n ≤ r.1 + r.2.1)
  | none => false

/-- An SC: it fails where its reservation has gone, and takes one tidemark on a chunked page either way (R253). -/
def hartSc (m : Mach) (a : HartAcc) : Mach :=
  let drop (m : Mach) : Mach := updHart m a.die a.hart (fun h => { h with resv := none })
  match translate m (accWho m a) .store a.va with
  | .error e => hartFails m a true e
  | .ok (m', x) =>
    if resvHolds m a x then hartPut m a drop
    else hartGets (drop (if x.cls = 0 then (dieMark m' a.die).1 else m')) a (.val 1)

/-- The fetch of the next instruction in sequence (Table 23-3): the code of a hart lies on RV64 pages. -/
def hartFetch (m : Mach) (a : HartAcc) : Mach :=
  let trap (n : Nat) : Mach := hartGets m a (.trap n a.va a.pc)
  match translate m (accWho m a) .fetch a.va with
  | .error (.fault 1 _) => trap 12
  | .error (.fault 3 _) => trap 25
  | .error (.fault 4 _) => trap 26
  | .error _ => trap 1
  | .ok (m', _) => if isaTag m' (accWho m a) a.va = some 0 then m' else trap 25

/-- What the CSRs of R18 and Table 23-4 read: the cycles of the headland's clock, `TIME`, and those of widened calls, which
read 1 and 0 in a visitor context (R360). -/
def hartCsr (m : Mach) (a : HartAcc) : HartOp → Nat
  | .rdCycle => (m.die a.die).hclk % 2 ^ 64
  | .rdTime => m.time % 2 ^ 64
  | .rdWwidth =>
    if a.hart < 8 then (hartOf m a.die a.hart).lanes + 2 ^ 63 * (hartOf m a.die a.hart).busy.toNat else 1
  | .rdWstack => if a.hart < 8 then (hartOf m a.die a.hart).wstack.toNat else 0
  | _ => 0

/-- Whether a hart may make an access: it lives, and a native one translates by a mode of R189. -/
def accLives (m : Mach) (a : HartAcc) : Bool :=
  hartLives m a.die a.hart && (decide (8 ≤ a.hart) || [0, 9, 14].contains (pte a.satp.toNat 60 4))

/-- HEADLAND_ACCESS (R268): an access of a native hart or of a visitor context, which a release waits for. -/
def execHeadlandAccess (acc : HartAcc) (s : State) : Host.Outcome State Fault Refusal :=
  .next (s.onMach (fun m =>
    let a := acc
    if !accLives m a ∨ (a.rl ∧ hartPending m (accOwner m a)) then m
    else
      match a.op with
      | .fence rel _ => if rel && hartPending m (accOwner m a) then m else hartGets m a (.val 0)
      | .load => if a.va % a.n ≠ 0 then hartSkew m a false else hartDo m a .load (fun m _ v => (m, .val v, none))
      | .store => if a.va % a.n ≠ 0 then hartSkew m a true else hartPut m a id
      | .amo op =>
        if a.va % a.n ≠ 0 then hartSkew m a true
        else hartDo m a .atomic (fun m _ v => (m, .val v, some (natBytes a.n (atomNew op a.n v a.val 0))))
      | .lr =>
        if a.va % a.n ≠ 0 then hartSkew m a false
        else hartDo m a .load (fun m x v => (takeResv m a x, .val v, none))
      | .sc => if a.va % a.n ≠ 0 then hartSkew m a true else hartSc m a
      | .fetch => hartFetch m a
      | op => hartGets m a (.val (hartCsr m a op))))

/-! Widened calls (R367, R368). -/

/-- WWIDTH_WRITE (Table 23-4): N is at most 512; visitor contexts ignore it. A hart that writes it waits for no call. -/
def execWwidthWrite (die hart : Nat) (v : DWord) (s : State) : Host.Outcome State Fault Refusal :=
  .next (s.onMach (fun m =>
    if 8 ≤ hart ∨ !hartLives m die hart then m
    else updHart m die hart (fun h => { h with
      lanes := min 512 (v.toNat % 1024), busy := v.getLsbD 63, calls := h.calls.map (fun w => { w with cur := false }) })))

/-- WSTACK_WRITE (Table 23-4). -/
def execWstackWrite (die hart : Nat) (v : DWord) (s : State) : Host.Outcome State Fault Refusal :=
  .next (s.onMach (fun m =>
    if 8 ≤ hart ∨ !hartLives m die hart then m
    else updHart m die hart (fun h => { h with wstack := BitVec.ofNat 64 (v.toNat % 2 ^ 32 / 16 * 16) })))

/-- The launch record of a widened call: one group of N lanes on a die. -/
def wideRec (die pc n : Nat) : LaunchRec :=
  { entry := pc, regs := 128, glevel := 1, clevel := 1, band := 3, widths := [10, 0, 0, 0, 0, 0]
    extents := [n, 0, 0, 0, 0, 0], slots := List.replicate 8 0
    ranges := (List.range 4).map (fun d => if d = die then (0, 1) else (0, 0)) }

/-- The queue of widened calls of a context (R368). -/
def wideQueue (m : Mach) (cid : Nat) : Option Queue := m.queues.find? (fun q => q.cid == cid && q.num == 1023)

/-- A landing's kernel enters its context's widening queue, once an entry is free. -/
def enterWide (m : Mach) (die hart : Nat) (w : WCall) : Mach :=
  match wideQueue m w.cid with
  | none => m
  | some q =>
    if q.cap ≤ q.kids.length then m
    else
      let kid := m.nextId
      let k : Kernel := { kid := kid, cid := w.cid, qid := q.qid, seq := q.seq, rc := wideRec die w.pc w.lanes, hart := some hart }
      let m1 : Mach := { m with nextId := kid + 1, kernels := m.kernels ++ [k] }
      let m2 := m1.updQueue q.qid (fun q => { q with seq := q.seq + 1, kids := q.kids ++ [kid] })
      updHart m2 die hart (fun h => { h with calls := h.calls.map (fun c => if c = w then { w with kid := some kid } else c) })

/-- The calls of a hart when it waits for one of them. -/
def waitFor (w : WCall) (l : List WCall) : List WCall := l.map (fun c => { c with cur := c = w })

/-- A landing with Busy set (R367): the hart, with the thread that it has been given back, waits again for the call of this
address and image; where it has none in flight, it raises scause 25 (log 105). -/
def landAgain (m : Mach) (die hart : Nat) (img : Image) (pc cid : Nat) : Mach :=
  match (hartOf m die hart).calls.find? (fun w => w.cid == cid && w.pc == pc && w.img == img) with
  | none => hartGot m die hart (.trap 25 pc pc)
  | some w =>
    let m := updHart m die hart (fun h => { h with calls := waitFor w h.calls })
    if w.kid.isNone then enterWide m die hart { w with cur := true } else m

/-- The address space of a native hart that runs a context. -/
def nativeWho (m : Mach) (die hart : Nat) (x : Ctx) : Who :=
  { core := die * 64, die := die, asid := pte x.satp.toNat 44 16, root := pte x.satp.toNat 0 44, secure := x.secure
    part := partDies m die, hart := some hart }

/-- The call of a landing, with the lanes and the stride that the hart's CSRs hold. -/
def callAt (m : Mach) (die hart : Nat) (img : Image) (pc cid : Nat) : WCall :=
  let h := hartOf m die hart
  { cid := cid, pc := pc, img := img, lanes := max 1 h.lanes, stride := h.wstack.toNat }

/-- WIDENED_CALL_LANDING (R367): a native hart of a context has landed on a Ubhus page. The checks are those of R361. -/
def execWidenedCallLanding (die hart : Nat) (img : Image) (pc cid : Nat) (s : State) : Host.Outcome State Fault Refusal :=
  .next (s.onMach (fun m =>
    let trap (n : Nat) : Mach := hartGot m die hart (.trap n pc pc)
    if 8 ≤ hart ∨ !hartLives m die hart then m
    else
      match m.ctx? cid with
      | none => m
      | some x =>
        let who := nativeWho m die hart x
        if x.stat = .ending ∨ x.stat = .gone then m
        else
          match translate m who .fetch pc with
          | .error (.fault 1 _) => trap 12
          | .error (.fault 2 _) => trap 1
          | .error (.fault 4 _) => trap 26
          | .error _ => trap 25
          | .ok (m', _) =>
            if isaTag m' who pc ≠ some 1 then m
            else if pc % 8 ≠ 0 then trap 0
            else if (hartOf m die hart).busy then landAgain m' die hart img pc cid
            else if m.repls.any (fun x => x.gid == hartGid die hart) then m
            else
              let w := callAt m die hart img pc cid
              enterWide (updHart m' die hart (fun h => { h with busy := true, calls := h.calls ++ [w] })) die hart w))

/-- WIDENED_CALL_RETURN (R367): the group of the call that the hart waits for has exited, and lane 0's a0 and a1 reach the
hart; or it ended faulted or was lost, and the hart raises scause 27. -/
def execWidenedCallReturn (die hart : Nat) (s : State) : Host.Outcome State Fault Refusal :=
  .next (s.onMach (fun m =>
    let h := hartOf m die hart
    let gone (w : WCall) : Bool := match w.kid.bind m.kernel? with | some k => k.stat == .ended | none => false
    match h.calls.find? (fun w => w.cur && gone w) with
    | none => m
    | some w =>
      if !h.busy ∨ !hartLives m die hart then m
      else
        match w.kid.bind m.kernel? with
        | none => m
        | some k =>
          let g := m.groups.find? (fun g => g.kid == k.kid)
          let res : HartRes := match g with
            | some g => if k.final = 1 then .pair g.ret0 g.ret1 else .trap 27 w.pc w.pc
            | none => .trap 27 w.pc w.pc
          let m1 : Mach := { m with groups := m.groups.filter (fun g => g.kid != k.kid) }
          updHart m1 die hart (fun h => { h with busy := false, calls := h.calls.erase w, got := res :: h.got })))

end Sys2Proof.Machine
end

