-- ==== Sys2Proof/Machine/Partition.lean ====
section
/-!
DEFINITION. Partitions, trust and reliability (27): the boot ROM, the partition and region tables, draining
and scrubbing, fatal die errors, fences, soft errors, recovery.
-/

namespace Sys2Proof.Machine

/-! Tables and measurements (R397, R401, R404, Table 27-4). -/

/-- The sets of dies that a partition may have (R397). -/
def legalSets : List (List Nat) :=
  [[0], [1], [2], [3], [0, 1], [2, 3], [0, 2], [1, 3], [0, 1, 2, 3]]

/-- A legal partition table: legal sets, apart, each numbered by its lowest die. -/
def tableOk (t : List (Nat × List Nat)) : Bool :=
  t.all (fun e => legalSets.contains e.2 && e.2.head? == some e.1) &&
    (List.range 4).all (fun d => decide (t.countP (fun e => e.2.contains d) ≤ 1))

/-- The bytes of the partition table, for its measurement. -/
def tableBytes (t : List (Nat × List Nat)) : List Byte :=
  t.flatMap (fun e => natBytes 1 e.1 ++ natBytes 1 ((e.2.map (fun d => 2 ^ d)).sum))

/-- The bytes of the region tables of all four dies. -/
def regionBytes (m : Mach) : List Byte :=
  (List.range 4).flatMap (fun d => (List.range 16).flatMap (fun i => natBytes 8 ((lget (m.die d).regions i).getD 0)))

/-- Record a measurement. -/
def measure (m : Mach) (i v : Nat) : Mach := { m with zyn := { m.zyn with meas := lput m.zyn.meas i v } }

/-- Record the measurements of the tables. -/
def measureTables (m : Mach) : Mach :=
  measure (measure m 7 (Config.digest (tableBytes m.zyn.table))) 8 (Config.digest (regionBytes m))

/-- A valid region entry (Table 27-5): where it begins and ends, in 2 MiB units. -/
def regionSpan (w : Nat) : Nat × Nat := (pte w 28 28, pte w 28 28 + pte w 0 28)

/-- A region table that the Zynrak die accepts (R404). -/
def regionsOk (l : List (Nat × Nat)) : Bool :=
  let on := l.filter (fun e => pte e.2 63 1 == 1)
  l.all (fun e => decide (e.1 < 16) && decide (e.2 < 2 ^ 64) && pte e.2 56 6 == 0) &&
    (List.range 16).all (fun i => decide (l.countP (fun e => e.1 == i) ≤ 1)) &&
    on.all (fun e => pte e.2 0 28 != 0) &&
    on.all (fun e => on.all (fun f => e.1 == f.1 ||
      decide ((regionSpan e.2).2 ≤ (regionSpan f.2).1) || decide ((regionSpan f.2).2 ≤ (regionSpan e.2).1)))

/-! Release (R401, R409, R11). -/

/-- The core that the spare of a quadrant takes over at a release: the lowest fenced one, while the spare is
free. Quadrant `q` is clusters 4q to 4q + 3 (log 87, DESIGN CHOICE: R11 says four clusters, not which). -/
def spareFor (m : Mach) (d q : Nat) : Option Nat :=
  if (lget (m.die d).spares q).isSome then none
  else ((List.range 16).map (fun i => d * 64 + q * 16 + i)).find? (fun c => (m.core c).fenced)

/-- The spares of a die take over. -/
def takeSpares (m : Mach) (d : Nat) : Mach :=
  (List.range 4).foldl (fun m q =>
    match spareFor m d q with
    | some c => (m.updCore c (fun k => { k with fenced := false })).updDie d (fun x => { x with spares := lput x.spares q c })
    | none => m) m

/-- A die that has been reset: what its region table, its failures and its spares are stays (log 3). -/
def Die.afterReset (d : Die) : Die :=
  { regions := d.regions, failed := d.failed, standby := d.standby, spares := d.spares, fports := d.fports, held := true }

/-- Release a die: `CLK` and the headland's clock start at zero, and its harts afresh (R13, R18, R19, log 100). -/
def releaseDie (m : Mach) (d : Nat) : Mach :=
  measure ((takeSpares m d).updDie d (fun x => { x.afterReset with held := false })) (3 + d) (Config.dieDigest d)

/-- A number within bounds. -/
def clamp (lo hi n : Nat) : Nat := max lo (min hi n)

/-- A partition as it is assigned, with its keys (R403) and the slice and hold times that its
supervisor sets (R376, R381). -/
def newPart (n pid : Nat) (dies : List Nat) (stat : PStat) : Part :=
  { keyOpen := Config.dataKey n, keySecure := Config.dataKey (n + 1), pid := pid, dies := dies, stat := stat, slice := clamp 100 100000 (Config.sliceUs pid)
    hold := clamp 1000000000 3600000000000 (Config.holdNs pid) }

/-- The partitions of the table whose dies are free: each die is measured, and all are released when every
measurement matches the signed image; else the partition is held (R401). -/
def formParts (m : Mach) : Mach :=
  m.zyn.table.foldl (fun m e =>
    if m.parts.any (fun p => p.dies.any (fun d => e.2.contains d)) then m
    else
      let good := e.2.all (fun d => Config.dieDigest d == Config.imageDigest m.zyn.flash d)
      let m : Mach := if good then e.2.foldl releaseDie m
        else e.2.foldl (fun m d => measure (m.updDie d (fun x => { x with held := true })) (3 + d) 0) m
      { m with nextId := m.nextId + 2, parts := m.parts ++ [newPart m.nextId e.1 e.2 (if good then .running else .held)] }) (measureTables m)

/-! Package reset (R401, R402). -/

/-- The package right after a reset, before the boot ROM reads the image. -/
def resetPackage (m : Mach) : Mach :=
  { nextId := m.nextId
    dies := m.dies.map (fun e => (e.1, e.2.afterReset))
    cores := (m.cores.filter (fun e => e.2.fenced)).map (fun e => (e.1, { fenced := true }))
    xfailed := m.xfailed
    zyn := { flash := m.zyn.flash, table := m.zyn.table, answers := m.zyn.answers }
    outbox := m.outbox }

/-- The image passes its signature and version checks. -/
def imageGood (img : List Byte) : Bool :=
  Config.signed img && decide (Config.minVersion ≤ Config.version img) && decide (img.length ≤ Config.flashArea)

/-- The boot ROM (R401, R402). -/
def bootPackage (m : Mach) : Mach :=
  let m := resetPackage m
  let m := measure (measure (measure m 1 (Config.fixedDigest 1)) 2 (Config.digest m.zyn.flash)) 9 (Config.fixedDigest 9)
  let m := (List.range 4).foldl (fun m d => measure m (3 + d) 0) m
  if imageGood m.zyn.flash then formParts m
  else measureTables { m with zyn := { m.zyn with recovery := some [], recEnd := none } }

/-- PACKAGE_RESET (R401). -/
def execPackageReset (s : State) : Host.Outcome State Fault Refusal := .next (s.onMach bootPackage)

/-! Draining, holding and scrubbing (R399). -/

/-- A resize or reset of a partition begins: its contexts are destroyed and its sessions end. One that is held
with nothing running goes on to its scrub. -/
def startDrain (m : Mach) (pid : Nat) : Mach :=
  match m.part? pid with
  | none => m
  | some p =>
    match p.stat with
    | .running | .degraded =>
      let m := m.updPart pid (fun p => { p with stat := .draining })
      let m := (m.ctxs.filter (fun x => x.part == pid && x.stat != .gone && x.stat != .ending)).foldl destroyCtx m
      endSessions m p
    | .held => m.updPart pid (fun p => { p with stat := .scrubbing })
    | .measuring | .draining | .scrubbing => m

/-- PARTITION_HELD (R399): every kernel of a draining partition has ended; the host link goes down without
quarantine, the dies are held, and the scrub starts. -/
def execPartitionHeld (part : Nat) (s : State) : Host.Outcome State Fault Refusal :=
  .next (s.onMach (fun m =>
    match m.part? part with
    | none => m
    | some p =>
      let mine (cid : Nat) : Bool := match m.ctx? cid with | some x => x.part == part | none => false
      if p.stat ≠ .draining ∨ m.kernels.any (fun k => mine k.cid && k.stat != .ended) then m
      else
        let m := linkLoss m part false
        (p.dies.foldl (fun m d => m.updDie d (fun x => { x with held := true })) m).updPart part (fun p => { p with stat := .scrubbing })))

/-- Everything of a partition is cleared: its memory, its caches, its cores, and what ran on them. -/
def scrub (m : Mach) (p : Part) : Mach :=
  let at_ (d : Nat) : Bool := p.dies.contains d
  let home (pa : Nat) : Bool := match homeDie pa with | some d => at_ d | none => false
  let cids := (m.ctxs.filter (fun x => x.part == p.pid)).map (fun x => x.cid)
  let kids := (m.kernels.filter (fun k => cids.contains k.cid)).map (fun k => k.kid)
  let gids := (m.groups.filter (fun g => kids.contains g.kid)).map (fun g => g.gid)
  let hart (gid : Nat) : Bool := decide (2 ^ 64 ≤ gid) && at_ ((gid - 2 ^ 64) / 64)
  let off (gid : Nat) : Bool := gids.contains gid || hart gid
  { m with
    running := m.running.filter (fun r => !at_ (r.core / 64))
    threads := m.threads.filter (fun t => !gids.contains t.gid)
    groups := m.groups.filter (fun g => !kids.contains g.kid)
    kernels := m.kernels.filter (fun k => !cids.contains k.cid)
    barriers := m.barriers.filter (fun b => !kids.contains b.kid)
    ctxs := m.ctxs.filter (fun x => x.part != p.pid)
    queues := m.queues.filter (fun q => q.part != p.pid)
    cores := (m.cores.filter (fun e => !at_ (e.1 / 64) || e.2.fenced)).map (fun e =>
      if at_ (e.1 / 64) then (e.1, { fenced := true }) else e)
    clusters := m.clusters.filter (fun e => !at_ (e.1 / 16))
    dies := m.dies.map (fun e => if at_ e.1 then (e.1, e.2.afterReset) else e)
    mem := m.mem.filter (fun c => !home c.1)
    poison := m.poison.filter (fun s => !home (32 * s))
    bad := m.bad.filter (fun s => match s with
      | .scratch g _ | .tile g _ | .wbuf g _ => !gids.contains g
      | .codeTab c | .ftab c _ => !at_ (c / 64)
      | _ => true)
    stxs := m.stxs.filter (fun x => !off x.gid)
    dadds := m.dadds.filter (fun x => !off x.gid)
    repls := m.repls.filter (fun x => !off x.gid)
    hostWrs := m.hostWrs.filter (fun x => !off x.gid)
    parts := m.parts.filter (fun q => q.pid != p.pid) }

/-- SCRUB_COMPLETE (R399): the dies are measured and released, under the new partition table. -/
def execScrubComplete (part : Nat) (s : State) : Host.Outcome State Fault Refusal :=
  .next (s.onMach (fun m =>
    match m.part? part with
    | some p => if p.stat = .scrubbing then formParts (scrub m p) else m
    | none => m))

/-- PARTITION_RESET_REQUEST (R400, Table 27-1). -/
def execPartitionResetRequest (part : Nat) (s : State) : Host.Outcome State Fault Refusal :=
  .next (s.onMach (fun m =>
    match m.part? part with
    | some p => if p.live then startDrain m part else m
    | none => m))

/-! Zynrak requests (Table 27-3, R7). -/

/-- SET_PARTITION_TABLE (R398, R399): every partition whose set of dies changes drains; free dies are assigned. -/
def execSetPartitionTable (table : List (Nat × List Nat)) (s : State) : Host.Outcome State Fault Refusal :=
  .next (s.onMach (fun m =>
    if !tableOk table ∨ m.zyn.recovery.isSome then m
    else
      let m1 : Mach := { m with zyn := { m.zyn with table := table } }
      formParts ((m1.parts.filter (fun p => !table.contains (p.pid, p.dies))).foldl (fun m p => startDrain m p.pid) m1)))

/-- SET_REGION_TABLE (R404): only while the die is unassigned or held. -/
def execSetRegionTable (die : Nat) (entries : List (Nat × Nat)) (s : State) : Host.Outcome State Fault Refusal :=
  .next (s.onMach (fun m =>
    if 4 ≤ die ∨ !(m.die die).held ∨ !regionsOk entries ∨ m.zyn.recovery.isSome then m
    else measureTables (m.updDie die (fun d => { d with regions := entries }))))

/-- WRITE_FIRMWARE_IMAGE (R402): checked before it is accepted; it takes effect at the next package reset. -/
def execWriteFirmwareImage (img : List Byte) (s : State) : Host.Outcome State Fault Refusal :=
  .next (s.onMach (fun m =>
    if imageGood img && m.zyn.recovery.isNone then { m with zyn := { m.zyn with flash := img } } else m))

/-- SPDM_REQUEST (R7): the responder answers from its measurements. -/
def execSpdmRequest (req : SpdmReq) (s : State) : Host.Outcome State Fault Refusal :=
  .next (s.onMach (fun m =>
    { m with zyn := { m.zyn with answers := Config.spdmAnswer req m.zyn.meas :: m.zyn.answers } }))

/-! Recovery (R402). -/

/-- A reply of the boot ROM. -/
def bootReply (m : Mach) (b : List Byte) (st : Nat) (body : List Byte) : Mach :=
  { m with zyn := { m.zyn with answers := replyBytes b st 0 body :: m.zyn.answers } }

/-- Every byte below an end has been received. -/
def pieceWhole (l : List Host.Cell) (e : Nat) : Bool := l.countP (fun c => decide (c.1 < e)) == e

/-- A piece of a recovery image: held, and the image is checked once it is whole. -/
def recoverPiece (m : Mach) (b : List Byte) (cells : List Host.Cell) : Mach :=
  let body := b.drop 16
  let off := bodyWord body 0 % 2 ^ 31
  let last := 2 ^ 31 ≤ bodyWord body 0
  let len := bodyWord body 1
  if fieldAt b 8 4 ≠ body.length ∨ body.length ≠ 8 + len ∨ len % 4 ≠ 0 ∨ len < 4 ∨ 1000 < len ∨ off % 4 ≠ 0 then
    bootReply m b 1 []
  else if fieldAt b 4 2 ≠ 0 then bootReply m b 2 []
  else if Config.flashArea < off + len then bootReply m b 1 []
  else
    let cells := specPut cells off (body.drop 8)
    let end_ := if last then some (off + len) else m.zyn.recEnd
    let answer (n : Nat) : List Byte := natBytes 4 cells.length ++ natBytes 4 n
    match end_ with
    | none => bootReply { m with zyn := { m.zyn with recovery := some cells } } b 0 (answer 0)
    | some e =>
      if !pieceWhole cells e then
        bootReply { m with zyn := { m.zyn with recovery := some cells, recEnd := some e } } b 0 (answer 0)
      else
        let img := cread cells 0 e
        if imageGood img then
          bootPackage (bootReply { m with zyn := { m.zyn with flash := img } } b 0 (answer 1))
        else bootReply { m with zyn := { m.zyn with recovery := some [], recEnd := none } } b 0 (answer 2)

/-- RECOVERY_WRITE (R402, R384): in recovery the boot ROM answers; else the request receives status 3. -/
def execRecoveryWrite (part : Nat) (msg : TMsg) (s : State) : Host.Outcome State Fault Refusal :=
  .next (s.onMach (fun m =>
    let b := msg.payload
    if msg.vendor ≠ Config.vendorId ∨ b.length < 16 ∨ 1024 < b.length ∨ fieldAt b 0 1 ≠ 1 ∨ fieldAt b 1 1 ≠ 0 ∨
        fieldAt b 2 1 ≠ 8 then m
    else
      match m.zyn.recovery with
      | some cells => recoverPiece m b cells
      | none =>
        match m.part? part with
        | some p => if p.live ∧ p.link = .up then reply m p b 3 (fieldAt b 4 2) [] else m
        | none => m))

/-! Fatal die errors (R400, R366, R24). -/

/-- A chunk holds a grain homed on a die. -/
def Chunk.homedOn (k : Chunk) (d : Nat) : Bool := (k.rd ++ k.grains).any (fun g => homeDie g.1 == some d)

/-- The groups on a lost die are gone: nothing of it runs, and what it held is lost. -/
def dropDie (m : Mach) (d : Nat) : Mach :=
  let gone := m.groups.filter (fun g => g.die == d && g.stat != .exited)
  let lost (gid : Nat) : Bool := gone.any (fun g => g.gid == gid) || (decide (2 ^ 64 ≤ gid) && (gid - 2 ^ 64) / 64 == d)
  let m1 : Mach := { m with
    running := m.running.filter (fun r => r.core / 64 != d)
    stxs := m.stxs.filter (fun x => !lost x.gid)
    dadds := m.dadds.filter (fun x => !lost x.gid)
    repls := m.repls.filter (fun x => !lost x.gid && x.die != d)
    hostWrs := m.hostWrs.filter (fun x => !lost x.gid)
    cores := m.cores.map (fun e => if e.1 / 64 == d then (e.1, { cid := none, fenced := e.2.fenced })
      else (e.1, { e.2 with lines := e.2.lines.filter (fun l => homeDie l.pa != some d) }))
    clusters := (m.clusters.filter (fun e => e.1 / 16 != d)).map (fun e => (e.1, e.2.filter (fun l => homeDie l.pa != some d)))
    parts := m.parts.map (fun p => { p with solo := p.solo.filter (fun c => c / 64 != d) }) }
  gone.foldl endGroup m1

/-- A thread whose record lay in the lost visitor area, of a group that survives (R366). -/
def transitLost (m : Mach) (t : Thread) (pos : Nat) : Mach :=
  faultGroup (postRec m (cidOf m t.gid) {
    kind := 9, asid := asidOf m (cidOf m t.gid), addr := pos, place := placeOf m t 0 }) t.gid

/-- The threads in transit of a die, with the last known Position of their records. -/
def inTransit (d : Die) : List (Nat × Nat × Nat) :=
  (d.vq ++ d.homing).map (fun x => (x.gid, x.tix, x.pc)) ++ d.visitors.map (fun v => (v.2.gid, v.2.tix, v.2.pc))

/-- A kernel has a group on a die that has not exited, or one that only that die could take. -/
def onDie (m : Mach) (k : Kernel) (d : Nat) : Bool :=
  (k.nextGix d).isSome || m.groups.any (fun g => g.kid == k.kid && g.die == d && g.stat != .exited)

/-- A fatal error of a die (R400): it is held, kernels with a group on it end with status 5, chunks that hold a
grain of it are squashed, a host link on it is lost, and its partition is degraded; when it is the lowest die,
which holds the visitor area and the firmware area, threads in transit are lost and the partition is reset. -/
def loseDie (m : Mach) (d : Nat) : Mach :=
  if (m.die d).fatal then m
  else
    let m := m.updDie d (fun x => { x with held := true, fatal := true })
    let m := measure m (3 + d) 0
    match m.partOf d with
    | none => m
    | some p =>
      let low := d == p.dies.foldl min 3
      let away := if low then (p.dies.filter (fun e => e != d)).flatMap (fun e => inTransit (m.die e)) else []
      let m := m.updPart p.pid (fun p => { p with stat := if p.stat = .running then .degraded else p.stat })
      let m := (m.kernels.filter (fun k => onDie m k d)).foldl (fun m k =>
        stopKernel m k.kid 5 (some (k.rc.ranges.getD d (0, 0)))) m
      let m := dropDie m d
      let m := (m.cores.filter (fun e => p.dies.contains (e.1 / 64) &&
        (e.2.openC.homedOn d || (match e.2.comC with | some y => y.homedOn d | none => false)))).foldl (fun m e => squash m e.1 5) m
      let m : Mach := if (p.linkPort.map (fun i => i / 2)) == some d then linkLoss m p.pid false else m
      let m := away.foldl (fun m x => match m.thread? x.1 x.2.1 with
        | some t => transitLost m t x.2.2
        | none => m) m
      let m := m.updDie d (fun x => { x with vq := [], homing := [], visitors := [], tlb := [], harts := [], trig := [] })
      if low ∧ p.live then startDrain m p.pid else m

/-- FATAL_DIE_ERROR (R400). -/
def execFatalDieError (die : Nat) (s : State) : Host.Outcome State Fault Refusal :=
  .next (s.onMach (fun m => if die < 4 then loseDie m die else m))

/-- THERMAL_TRIP (R24): 115 °C. -/
def execThermalTrip (die : Nat) (s : State) : Host.Outcome State Fault Refusal :=
  .next (s.onMach (fun m => if die < 4 then loseDie m die else m))

/-- ARBITER_TAKEOVER (R410): the standby takes over and tidemarks may skip; an error in both copies is fatal to
the die (R400). -/
def execArbiterTakeover (die skip : Nat) (s : State) : Host.Outcome State Fault Refusal :=
  .next (s.onMach (fun m =>
    if 4 ≤ die then m
    else if (m.die die).standby then loseDie m die
    else
      let m := m.updDie die (fun d => { d with standby := true })
      match m.partOf die with
      | some p => m.updPart p.pid (fun p => { p with grants := p.grants + skip })
      | none => m))

/-! Memory devices, fences and soft errors (R408, R409, R411). -/

/-- DEVICE_MARK_FAILED (R408): one of a die's 13 devices. -/
def execDeviceMarkFailed (die dev : Nat) (s : State) : Host.Outcome State Fault Refusal :=
  .next (s.onMach (fun m =>
    if 4 ≤ die ∨ 13 ≤ dev ∨ (m.die die).failed.contains dev then m
    else m.updDie die (fun d => { d with failed := dev :: d.failed })))

/-- PATROL_SCRUB (R408): it corrects what reads would have corrected, so no byte changes. -/
def execPatrolScrub (_die : Nat) (s : State) : Host.Outcome State Fault Refusal := .next (s.onMach (fun m => m))

/-- CORE_FENCE (R409): groups whose own state was lost end faulted, and the others move as a thermal move does,
without the minimum residency. -/
def execCoreFence (core : Nat) (lost : List Nat) (s : State) : Host.Outcome State Fault Refusal :=
  .next (s.onMach (fun m =>
    if 256 ≤ core then m
    else
      let gs := residents m core
      let m := m.updCore core (fun k => { k with fenced := true })
      let m := (gs.filter (fun g => lost.contains g.gid)).foldl (fun m g => faultGroup m g.gid) m
      (gs.filter (fun g => !lost.contains g.gid)).foldl (fun m g =>
        match m.group? g.gid with
        | some h => if h.stat = .live ∨ h.stat = .draining then
            beginSave m ((liveSet m h).filter (fun y => y.stat == .live || y.stat == .draining)) false true else m
        | none => m) m))

/-- A thread parks with MACHINE 0x0504 where it stands (R411). -/
def softPark (m : Mach) (t : Thread) : Mach :=
  match t.stat with
  | .exited | .transit | .parked _ => m
  | .issuing =>
    match m.running.find? (fun r => r.gid == t.gid && r.tixs.contains t.tix) with
    | some r => superFault m t 5 0x0504 0 0 0 r.here
    | none => m
  | _ => superFault m t 5 0x0504 0 0 0 t.pos

/-- A group is on a core. -/
def onCoreNow (m : Mach) (gid : Nat) : Bool := match m.group? gid with | some g => g.onCore | none => false

/-- The 32-byte sector of a line around an address holds a dirty byte. -/
def sectorDirty (l : Line) (pa : Nat) : Bool := ((l.dirty.drop (pa / 32 * 32 - l.pa)).take 32).any (fun d => d)

/-- A core's chunks hold speculative bytes of a sector. -/
def sectorSpec (k : Core) (pa : Nat) : Bool :=
  let hit (y : Chunk) : Bool := y.cells.any (fun c => c.1 / 32 == pa / 32)
  hit k.openC || (match k.comC with | some y => hit y | none => false)

/-- An uncorrectable error in one of some cache lines: what is clean is fetched again, a dirty sector is poisoned, and the
other dirty bytes of the line go home. -/
def softLine (m : Mach) (ls : List Line) (pa : Nat) (put : Mach → List Line → Mach) : Mach :=
  match lineAt ls pa with
  | none => m
  | some l =>
    let bad := sectorDirty l pa
    let m := put m (ls.filter (fun x => x.pa != l.pa))
    let m : Mach := { m with poison := if bad && !m.poison.contains (pa / 32) then pa / 32 :: m.poison else m.poison }
    let l := if bad then l.without (pa / 32 * 32) 32 else l
    homePush m l

/-- SOFT_ERROR (R411, Table 27-6). -/
def execSoftError (at_ : SoftAt) (correctable : Bool) (s : State) : Host.Outcome State Fault Refusal :=
  .next (s.onMach (fun m =>
    let later (ok : Bool) : Mach := if ok then { m with bad := at_ :: m.bad } else m
    if correctable then m
    else
      match at_ with
      | .registers gid tix =>
        (match m.thread? gid tix with
          | some t => if onCoreNow m gid then softPark m t else m
          | none => m)
      | .uniform gid =>
        if onCoreNow m gid then (m.threads.filter (fun t => t.gid == gid)).foldl (fun m t => softPark m t) m else m
      | .scratch gid off => later (onCoreNow m gid && padIn m gid off 1)
      | .tile gid i =>
        later (onCoreNow m gid && (match lget (m.core (m.coreOf gid)).tiles i with | some t => t.gid == gid | none => false))
      | .wbuf gid off => later (onCoreNow m gid && (lget (m.core (m.coreOf gid)).wown (off / 64) == some gid))
      | .codeTab _ | .ftab _ _ => later true
      | .l1 c pa =>
        if sectorSpec (m.core c) pa then squash m c 5
        else softLine m (m.core c).lines pa (fun m ls => m.updCore c (fun k => { k with lines := ls }))
      | .cluster cl pa => softLine m (m.cluster cl) pa (fun m ls => m.setCluster cl ls)
      | .l2 pa dirty =>
        (match m.parts.find? (fun p => (lineAt p.lines pa).isSome) with
          | some p => softLine m p.lines pa (fun m ls => m.updPart p.pid (fun p => { p with lines := ls }))
          | none =>
            if dirty && deviceMem pa && !m.poison.contains (pa / 32) then { m with poison := pa / 32 :: m.poison } else m)
      | .tags c =>
        (dropClean m c true).updCore c (fun k => { k with fetched := [] }) |>.updDie (c / 64) (fun d => { d with tlb := [] })
      | .l2tags d => if d < 4 then loseDie m d else m
      | .secondTier pa =>
        (match homeOf pa with
          | .second _ => if m.poison.contains (pa / 32) then m else { m with poison := pa / 32 :: m.poison }
          | _ => m)))

end Sys2Proof.Machine
end

