-- ==== Sys2Proof/Machine/Dispatch.lean ====
section
/-!
DEFINITION. One arm per instruction: the meaning it calls.
-/

namespace Sys2Proof.Machine

def exec (i : Instr) (s : State) : Host.Outcome State Fault Refusal :=
  match i with
  | .nop g => Sys2Proof.Machine.execNop g s
  | .add x => Sys2Proof.Machine.execAdd x s
  | .sub x => Sys2Proof.Machine.execSub x s
  | .mul x => Sys2Proof.Machine.execMul x s
  | .mulh x => Sys2Proof.Machine.execMulh x s
  | .mulhu x => Sys2Proof.Machine.execMulhu x s
  | .mad x => Sys2Proof.Machine.execMad x s
  | .div x => Sys2Proof.Machine.execDiv x s
  | .divu x => Sys2Proof.Machine.execDivu x s
  | .rem x => Sys2Proof.Machine.execRem x s
  | .remu x => Sys2Proof.Machine.execRemu x s
  | .and x => Sys2Proof.Machine.execAnd x s
  | .or x => Sys2Proof.Machine.execOr x s
  | .xor x => Sys2Proof.Machine.execXor x s
  | .andn x => Sys2Proof.Machine.execAndn x s
  | .shl x => Sys2Proof.Machine.execShl x s
  | .shr x => Sys2Proof.Machine.execShr x s
  | .sra x => Sys2Proof.Machine.execSra x s
  | .rol x => Sys2Proof.Machine.execRol x s
  | .shladd sh x => Sys2Proof.Machine.execShladd sh x s
  | .min x => Sys2Proof.Machine.execMin x s
  | .max x => Sys2Proof.Machine.execMax x s
  | .minu x => Sys2Proof.Machine.execMinu x s
  | .maxu x => Sys2Proof.Machine.execMaxu x s
  | .abs x => Sys2Proof.Machine.execAbs x s
  | .clz x => Sys2Proof.Machine.execClz x s
  | .popc x => Sys2Proof.Machine.execPopc x s
  | .brev x => Sys2Proof.Machine.execBrev x s
  | .bfx x => Sys2Proof.Machine.execBfx x s
  | .bfxu x => Sys2Proof.Machine.execBfxu x s
  | .bfi x => Sys2Proof.Machine.execBfi x s
  | .sel np sp x => Sys2Proof.Machine.execSel np sp x s
  | .cmp cc x => Sys2Proof.Machine.execCmp cc x s
  | .set cc x => Sys2Proof.Machine.execSet cc x s
  | .mov x => Sys2Proof.Machine.execMov x s
  | .movi g kind d imm => Sys2Proof.Machine.execMovi g kind d imm s
  | .movx g d val => Sys2Proof.Machine.execMovx g d val s
  | .pand x => Sys2Proof.Machine.execPand x s
  | .por x => Sys2Proof.Machine.execPor x s
  | .pxor x => Sys2Proof.Machine.execPxor x s
  | .smov g u d sreg => Sys2Proof.Machine.execSmov g u d sreg s
  | .swr g sreg a => Sys2Proof.Machine.execSwr g sreg a s
  | .rand g d => Sys2Proof.Machine.execRand g d s
  | .widf g u n d => Sys2Proof.Machine.execWidf g u n d s
  | .addPaired x => Sys2Proof.Machine.execAddPaired x s
  | .subPaired x => Sys2Proof.Machine.execSubPaired x s
  | .andPaired x => Sys2Proof.Machine.execAndPaired x s
  | .orPaired x => Sys2Proof.Machine.execOrPaired x s
  | .xorPaired x => Sys2Proof.Machine.execXorPaired x s
  | .shlPaired x => Sys2Proof.Machine.execShlPaired x s
  | .shrPaired x => Sys2Proof.Machine.execShrPaired x s
  | .movPaired x => Sys2Proof.Machine.execMovPaired x s
  | .minPaired x => Sys2Proof.Machine.execMinPaired x s
  | .maxPaired x => Sys2Proof.Machine.execMaxPaired x s
  | .faddPaired x => Sys2Proof.Machine.execFaddPaired x s
  | .fmulPaired x => Sys2Proof.Machine.execFmulPaired x s
  | .fminPaired x => Sys2Proof.Machine.execFminPaired x s
  | .fmaxPaired x => Sys2Proof.Machine.execFmaxPaired x s
  | .hadd2Paired x => Sys2Proof.Machine.execHadd2Paired x s
  | .hmul2Paired x => Sys2Proof.Machine.execHmul2Paired x s
  | .shfl g mode d a b c => Sys2Proof.Machine.execShfl g mode d a b c s
  | .vote g mode na d a c => Sys2Proof.Machine.execVote g mode na d a c s
  | .redux g op d a c => Sys2Proof.Machine.execRedux g op d a c s
  | .matchL g whole d a c => Sys2Proof.Machine.execMatchL g whole d a c s
  | .elect g d c => Sys2Proof.Machine.execElect g d c s
  | .lsync g d c => Sys2Proof.Machine.execLsync g d c s
  | .bra g target => Sys2Proof.Machine.execBra g target s
  | .jmp g a => Sys2Proof.Machine.execJmp g a s
  | .call g target => Sys2Proof.Machine.execCall g target s
  | .callr g d a => Sys2Proof.Machine.execCallr g d a s
  | .ret g a => Sys2Proof.Machine.execRet g a s
  | .rjarm g j a => Sys2Proof.Machine.execRjarm g j a s
  | .rjwait g j => Sys2Proof.Machine.execRjwait g j s
  | .exit g => Sys2Proof.Machine.execExit g s
  | .brk g n => Sys2Proof.Machine.execBrk g n s
  | .yield g => Sys2Proof.Machine.execYield g s
  | .fadd x => Sys2Proof.Machine.execFadd x s
  | .fsub x => Sys2Proof.Machine.execFsub x s
  | .fmul x => Sys2Proof.Machine.execFmul x s
  | .ffma x => Sys2Proof.Machine.execFfma x s
  | .fmin x => Sys2Proof.Machine.execFmin x s
  | .fmax x => Sys2Proof.Machine.execFmax x s
  | .fcmp cc x => Sys2Proof.Machine.execFcmp cc x s
  | .fclass x => Sys2Proof.Machine.execFclass x s
  | .frnd mode x => Sys2Proof.Machine.execFrnd mode x s
  | .fcvt g rnd dst src d a => Sys2Proof.Machine.execFcvt g rnd dst src d a s
  | .icvt g uns dst d a => Sys2Proof.Machine.execIcvt g uns dst d a s
  | .fcvti g rnd uns src d a => Sys2Proof.Machine.execFcvti g rnd uns src d a s
  | .hadd2 x => Sys2Proof.Machine.execHadd2 x s
  | .hmul2 x => Sys2Proof.Machine.execHmul2 x s
  | .hfma2 c x => Sys2Proof.Machine.execHfma2 c x s
  | .hmin2 x => Sys2Proof.Machine.execHmin2 x s
  | .hmax2 x => Sys2Proof.Machine.execHmax2 x s
  | .rcp x => Sys2Proof.Machine.execRcp x s
  | .rsq x => Sys2Proof.Machine.execRsq x s
  | .sqrt x => Sys2Proof.Machine.execSqrt x s
  | .exp2 x => Sys2Proof.Machine.execExp2 x s
  | .log2 x => Sys2Proof.Machine.execLog2 x s
  | .fdiv x => Sys2Proof.Machine.execFdiv x s
  | .feval ft x => Sys2Proof.Machine.execFeval ft x s
  | .ftld g ft a fl => Sys2Proof.Machine.execFtld g ft a fl s
  | .dot4 x => Sys2Proof.Machine.execDot4 x s
  | .dot8 x => Sys2Proof.Machine.execDot8 x s
  | .ncvt x => Sys2Proof.Machine.execNcvt x s
  | .nunp x => Sys2Proof.Machine.execNunp x s
  | .ld x => Sys2Proof.Machine.execLd x s
  | .st x => Sys2Proof.Machine.execSt x s
  | .lds x => Sys2Proof.Machine.execLds x s
  | .sts x => Sys2Proof.Machine.execSts x s
  | .ldx x => Sys2Proof.Machine.execLdx x s
  | .stx x => Sys2Proof.Machine.execStx x s
  | .atom x => Sys2Proof.Machine.execAtom x s
  | .red x => Sys2Proof.Machine.execRed x s
  | .atoms x => Sys2Proof.Machine.execAtoms x s
  | .fence g kind sc => Sys2Proof.Machine.execFence g kind sc s
  | .acqr g a => Sys2Proof.Machine.execAcqr g a s
  | .waita g global d a b => Sys2Proof.Machine.execWaita g global d a b s
  | .cpy g d a fl => Sys2Proof.Machine.execCpy g d a fl s
  | .tlwait g tile a => Sys2Proof.Machine.execTlwait g tile a s
  | .tlread g fl d => Sys2Proof.Machine.execTlread g fl d s
  | .pref g sc a off => Sys2Proof.Machine.execPref g sc a off s
  | .chend g => Sys2Proof.Machine.execChend g s
  | .chstat g fl d => Sys2Proof.Machine.execChstat g fl d s
  | .bar x => Sys2Proof.Machine.execBar x s
  | .barv x => Sys2Proof.Machine.execBarv x s
  | .barw x => Sys2Proof.Machine.execBarw x s
  | .barst x => Sys2Proof.Machine.execBarst x s
  | .tzero g tile free d => Sys2Proof.Machine.execTzero g tile free d s
  | .tld x => Sys2Proof.Machine.execTld x s
  | .tst x => Sys2Proof.Machine.execTst x s
  | .tmma g d a fl => Sys2Proof.Machine.execTmma g d a fl s
  | .tdadd g tx ty d a fl => Sys2Proof.Machine.execTdadd g tx ty d a fl s
  | .twait g tile d a => Sys2Proof.Machine.execTwait g tile d a s
  | .tcode g d a fl => Sys2Proof.Machine.execTcode g d a fl s
  | .tlu x => Sys2Proof.Machine.execTlu x s
  | .tchol x => Sys2Proof.Machine.execTchol x s
  | .tqr x => Sys2Proof.Machine.execTqr x s
  | .ttrsm tr unit up x => Sys2Proof.Machine.execTtrsm tr unit up x s
  | .pvap g tile pv inv d fl => Sys2Proof.Machine.execPvap g tile pv inv d fl s
  | .tstat g fl tile d => Sys2Proof.Machine.execTstat g fl tile d s
  | .handle g id d off entry => Sys2Proof.Machine.execHandle g id d off entry s
  | .endh g => Sys2Proof.Machine.execEndh g s
  | .perform g multi id => Sys2Proof.Machine.execPerform g multi id s
  | .resume g a => Sys2Proof.Machine.execResume g a s
  | .drop g a => Sys2Proof.Machine.execDrop g a s
  | .hret g => Sys2Proof.Machine.execHret g s
  | .hstat g fl d a => Sys2Proof.Machine.execHstat g fl d a s
  | .svc g n => Sys2Proof.Machine.execSvc g n s
  | .launch g d a b => Sys2Proof.Machine.execLaunch g d a b s
  | .sleep g absT a => Sys2Proof.Machine.execSleep g absT a s
  | .clauseIssue core gid tixs => Sys2Proof.Machine.execClauseIssue core gid tixs s
  | .ftldFlip core ft => Sys2Proof.Machine.execFtldFlip core ft s
  | .loadDataArrive gid tix id => Sys2Proof.Machine.execLoadDataArrive gid tix id s
  | .stxPerform id => Sys2Proof.Machine.execStxPerform id s
  | .stxAck id => Sys2Proof.Machine.execStxAck id s
  | .waitaWake gid tix => Sys2Proof.Machine.execWaitaWake gid tix s
  | .waitaRepoll gid tix => Sys2Proof.Machine.execWaitaRepoll gid tix s
  | .copyPiece core => Sys2Proof.Machine.execCopyPiece core s
  | .copyComplete core => Sys2Proof.Machine.execCopyComplete core s
  | .escapingReissue gid tix => Sys2Proof.Machine.execEscapingReissue gid tix s
  | .brokenStopTimeout gid tix => Sys2Proof.Machine.execBrokenStopTimeout gid tix s
  | .tdaddArrival gid n peer => Sys2Proof.Machine.execTdaddArrival gid n peer s
  | .tdaddAck gid n => Sys2Proof.Machine.execTdaddAck gid n s
  | .tileCommandComplete core gid n => Sys2Proof.Machine.execTileCommandComplete core gid n s
  | .factorisationStep core gid n => Sys2Proof.Machine.execFactorisationStep core gid n s
  | .builtinEffectDelivery gid tix => Sys2Proof.Machine.execBuiltinEffectDelivery gid tix s
  | .sleepWake gid tix => Sys2Proof.Machine.execSleepWake gid tix s
  | .chunkClose core => Sys2Proof.Machine.execChunkClose core s
  | .chunkTimerExpire core => Sys2Proof.Machine.execChunkTimerExpire core s
  | .signatureParityError core committing => Sys2Proof.Machine.execSignatureParityError core committing s
  | .tidemarkGrant core => Sys2Proof.Machine.execTidemarkGrant core s
  | .runCountLimit core => Sys2Proof.Machine.execRunCountLimit core s
  | .soloGrant core => Sys2Proof.Machine.execSoloGrant core s
  | .rejoinCycleDetect gid tixs => Sys2Proof.Machine.execRejoinCycleDetect gid tixs s
  | .ageingThreshold gid tix => Sys2Proof.Machine.execAgeingThreshold gid tix s
  | .groupPlace kid die core => Sys2Proof.Machine.execGroupPlace kid die core s
  | .groupExit gid => Sys2Proof.Machine.execGroupExit gid s
  | .kernelClose kid => Sys2Proof.Machine.execKernelClose kid s
  | .stopRequest core => Sys2Proof.Machine.execStopRequest core s
  | .drainLimitExpire core => Sys2Proof.Machine.execDrainLimitExpire core s
  | .groupSave gid => Sys2Proof.Machine.execGroupSave gid s
  | .groupRestore gid core => Sys2Proof.Machine.execGroupRestore gid core s
  | .coreGiveUp core => Sys2Proof.Machine.execCoreGiveUp core s
  | .preemptTrigger kid core => Sys2Proof.Machine.execPreemptTrigger kid core s
  | .kernelSuspend kid => Sys2Proof.Machine.execKernelSuspend kid s
  | .thermalMove gid => Sys2Proof.Machine.execThermalMove gid s
  | .thermalTrip die => Sys2Proof.Machine.execThermalTrip die s
  | .clockSettingChange die mhz => Sys2Proof.Machine.execClockSettingChange die mhz s
  | .supplyDroop die on => Sys2Proof.Machine.execSupplyDroop die on s
  | .faultQueueConsume cid n => Sys2Proof.Machine.execFaultQueueConsume cid n s
  | .commandRingProduce part cmds => Sys2Proof.Machine.execCommandRingProduce part cmds s
  | .createContext part => Sys2Proof.Machine.execCreateContext part s
  | .destroyContext part => Sys2Proof.Machine.execDestroyContext part s
  | .stopMode part => Sys2Proof.Machine.execStopMode part s
  | .resumeThreadContinue part => Sys2Proof.Machine.execResumeThreadContinue part s
  | .resumeThreadRetry part => Sys2Proof.Machine.execResumeThreadRetry part s
  | .resumeThreadAbandon part => Sys2Proof.Machine.execResumeThreadAbandon part s
  | .resumeThreadValue part => Sys2Proof.Machine.execResumeThreadValue part s
  | .saveGroup part => Sys2Proof.Machine.execSaveGroup part s
  | .serviceReply part => Sys2Proof.Machine.execServiceReply part s
  | .createQueue part => Sys2Proof.Machine.execCreateQueue part s
  | .quiesce part => Sys2Proof.Machine.execQuiesce part s
  | .reopen part => Sys2Proof.Machine.execReopen part s
  | .destroyQueue part => Sys2Proof.Machine.execDestroyQueue part s
  | .queueStatus part => Sys2Proof.Machine.execQueueStatus part s
  | .admitAdd part => Sys2Proof.Machine.execAdmitAdd part s
  | .admitRemove part => Sys2Proof.Machine.execAdmitRemove part s
  | .bind part => Sys2Proof.Machine.execBind part s
  | .unbind part => Sys2Proof.Machine.execUnbind part s
  | .setPackageNumber part => Sys2Proof.Machine.execSetPackageNumber part s
  | .migrateOut gid tix => Sys2Proof.Machine.execMigrateOut gid tix s
  | .visitorTake die vis => Sys2Proof.Machine.execVisitorTake die vis s
  | .visitorDisplace die vis img pc => Sys2Proof.Machine.execVisitorDisplace die vis img pc s
  | .visitorLandUbhus die vis img pc => Sys2Proof.Machine.execVisitorLandUbhus die vis img pc s
  | .returnHome gid tix => Sys2Proof.Machine.execReturnHome gid tix s
  | .visitorException die vis img pc exc => Sys2Proof.Machine.execVisitorException die vis img pc exc s
  | .sfenceVma die hart va asid => Sys2Proof.Machine.execSfenceVma die hart va asid s
  | .wwidthWrite die hart v => Sys2Proof.Machine.execWwidthWrite die hart v s
  | .wstackWrite die hart v => Sys2Proof.Machine.execWstackWrite die hart v s
  | .widenedCallLanding die hart img pc cid => Sys2Proof.Machine.execWidenedCallLanding die hart img pc cid s
  | .widenedCallReturn die hart => Sys2Proof.Machine.execWidenedCallReturn die hart s
  | .tretharAttach part msg => Sys2Proof.Machine.execTretharAttach part msg s
  | .tretharCreateContext part msg => Sys2Proof.Machine.execTretharCreateContext part msg s
  | .tretharCreateQueue part msg => Sys2Proof.Machine.execTretharCreateQueue part msg s
  | .submit part msg => Sys2Proof.Machine.execSubmit part msg s
  | .readStatus part msg => Sys2Proof.Machine.execReadStatus part msg s
  | .detach part msg => Sys2Proof.Machine.execDetach part msg s
  | .disposeDiscard part msg => Sys2Proof.Machine.execDisposeDiscard part msg s
  | .disposeReplay part msg => Sys2Proof.Machine.execDisposeReplay part msg s
  | .disposeRead part msg => Sys2Proof.Machine.execDisposeRead part msg s
  | .recoveryWrite part msg => Sys2Proof.Machine.execRecoveryWrite part msg s
  | .disposeReplayAck part idx => Sys2Proof.Machine.execDisposeReplayAck part idx s
  | .holdTimeExpire qid => Sys2Proof.Machine.execHoldTimeExpire qid s
  | .hostLinkUp part port area => Sys2Proof.Machine.execHostLinkUp part port area s
  | .hostLinkLoss part => Sys2Proof.Machine.execHostLinkLoss part s
  | .hostSnoop part kind pa bytes => Sys2Proof.Machine.execHostSnoop part kind pa bytes s
  | .goWritepull part pa => Sys2Proof.Machine.execGoWritepull part pa s
  | .portFail port => Sys2Proof.Machine.execPortFail port s
  | .flitCrcError die port => Sys2Proof.Machine.execFlitCrcError die port s
  | .laneFail die port => Sys2Proof.Machine.execLaneFail die port s
  | .fabricPortDown die port => Sys2Proof.Machine.execFabricPortDown die port s
  | .fabricRequestArrive pkg pa n op wr val => Sys2Proof.Machine.execFabricRequestArrive pkg pa n op wr val s
  | .setPartitionTable table => Sys2Proof.Machine.execSetPartitionTable table s
  | .setRegionTable die entries => Sys2Proof.Machine.execSetRegionTable die entries s
  | .writeFirmwareImage img => Sys2Proof.Machine.execWriteFirmwareImage img s
  | .spdmRequest req => Sys2Proof.Machine.execSpdmRequest req s
  | .packageReset => Sys2Proof.Machine.execPackageReset s
  | .partitionHeld part => Sys2Proof.Machine.execPartitionHeld part s
  | .scrubComplete part => Sys2Proof.Machine.execScrubComplete part s
  | .fatalDieError die => Sys2Proof.Machine.execFatalDieError die s
  | .deviceMarkFailed die dev => Sys2Proof.Machine.execDeviceMarkFailed die dev s
  | .patrolScrub die => Sys2Proof.Machine.execPatrolScrub die s
  | .coreFence core lost => Sys2Proof.Machine.execCoreFence core lost s
  | .arbiterTakeover die skip => Sys2Proof.Machine.execArbiterTakeover die skip s
  | .softError at_ correctable => Sys2Proof.Machine.execSoftError at_ correctable s
  | .dirtyEvict cache pa => Sys2Proof.Machine.execDirtyEvict cache pa s
  | .replicaPropagation id => Sys2Proof.Machine.execReplicaPropagation id s
  | .writeAcknowledgement id => Sys2Proof.Machine.execWriteAcknowledgement id s
  | .headlandAccess acc => Sys2Proof.Machine.execHeadlandAccess acc s
  | .kernelCancel kid => Sys2Proof.Machine.execKernelCancel kid s
  | .partitionResetRequest part => Sys2Proof.Machine.execPartitionResetRequest part s

end Sys2Proof.Machine
end

