-- ==== Sys2Proof/Machine/Sched.lean ====
section
/-!
DEFINITION. What a step does around the meaning of an instruction: time, the interlock, the next
word of a clause and its end, and what happens at a clause boundary.
-/

namespace Sys2Proof.Machine

/-! Time (R16 to R20). -/

/-- The stretched time that a droop may still take: outside the envelope of R17 no more than the turn; inside it the
droop ends within 100 ns, and no more than 300 ns of any µs are stretched (R16). -/
def stretchRoom (d : Die) (now dt : Nat) : Nat :=
  match d.droop with
  | none => 0
  | some (_, true) => dt
  | some (since, false) =>
    min dt (min (since + 100 - now)
      (300 - ((d.stretched.filter (fun e => decide (now < e.1 + e.2 + 1000))).map Prod.snd).sum))

/-- Thousandths of an arithmetic cycle that a die completes in `dt` ns, `x` of them stretched by one half: at its
setting, never faster (R16, R17). -/
def milliIn (d : Die) (dt x : Nat) : Nat := dt * d.mhz - x * d.mhz / 3

/-- The cycles a die completes in `dt` ns from a time; the schedule asks for `want` ns stretched. -/
def cyclesIn (d : Die) (now dt want : Nat) : Nat :=
  (d.phase + milliIn d dt (min want (stretchRoom d now dt))) / 1000

/-- Time passes on a released die: `CLK`, the headland's clock of 3.0 GHz, and what of a cycle is left (R16 to R19). -/
def Die.tick (d : Die) (now dt want : Nat) : Die :=
  if d.held then d
  else
    let x := min want (stretchRoom d now dt)
    { d with
      clk := d.clk + cyclesIn d now dt want
      phase := (d.phase + milliIn d dt x) % 1000
      hclk := d.hclk + 3 * dt
      stretched := (if x = 0 then [] else [(now, x)]) ++ d.stretched.filter (fun e => decide (now < e.1 + e.2 + 1000)) }

/-- The ns that a turn stretches on a die. -/
def Turn.stretch (t : Turn) (d : Nat) : Nat := t.cyc.getD d 0

/-- The ageing counter of R157: issue opportunities at which the thread, on a core, was ready and not issued. -/
def Thread.age (t : Thread) (resident : Bool) (n : Nat) : Thread :=
  if t.stat = .ready then (if resident then { t with ageing := t.ageing + n } else t)
  else { t with ageing := 0, aged := false }

/-- Time passes before a turn's move. -/
def advance (m : Mach) (t : Turn) : Mach :=
  { m with
    time := m.time + t.dt
    cur := none
    dies := m.dies.map (fun e =>
      let d := e.2.tick m.time t.dt (t.stretch e.1)
      (e.1, if t.evict then { d with tlb := [], harts := d.harts.map (fun h => (h.1, { h.2 with tlb := [] })) } else d))
    cores := if t.evict then m.cores.map (fun e => (e.1, { e.2 with fetched := [] })) else m.cores
    threads := m.threads.map (fun x =>
      let d := m.dieOf x.gid
      x.age (match m.group? x.gid with | some g => g.onCore | none => false)
        (cyclesIn (m.die d) m.time t.dt (t.stretch d))) }

/-! The words of a clause. -/

/-- The word at an index of a clause, and the one after it. -/
def Running.wordAt (r : Running) : Nat × Nat := (r.code.getD r.idx 0, r.code.getD (r.idx + 1) 0)

/-- A word waits while a thread of the pack has an outstanding write to a register it names (R52). -/
def interlocked (m : Mach) (r : Running) (i : Instr) : Bool :=
  r.act.any (fun n =>
    match m.thread? r.gid n with
    | none => false
    | some t =>
      let w := awaited m t
      (i.waitsAll && outstanding m t) || (i.restores && arriving m t) || (i.regs (m.recOf r.gid).slots).any (fun n => 2 ≤ n && w.contains n))

/-- Words an instruction takes. -/
def Instr.wordLen (i : Instr) : Nat := if i.hasExt then 2 else 1

/-- Threads of the pack that are still in it. -/
def stillIn (m : Mach) (r : Running) (l : List Nat) : List Nat :=
  l.filter (fun n => match m.thread? r.gid n with | some t => t.stat == .issuing | none => false)

/-- A thread at the end of its clause: ready at the next header (R55). -/
def Thread.endClause (t : Thread) (hdr : Nat) : Thread := t.endsAt hdr false

/-- After a word: it is performed again where it stalled; else the next word, or the clause ends. -/
def endWord (m : Mach) (rid len : Nat) : Mach :=
  match m.running.find? (fun r => r.rid == rid) with
  | none => m
  | some r =>
    let live := stillIn m r r.tixs
    if live.isEmpty then { m with running := m.running.filter (fun x => x.rid != rid) }
    else if !r.stall.isEmpty then
      m.updRun rid (fun r => { r with tixs := live, act := stillIn m r r.stall, stall := [] })
    else if r.count < r.idx + len then
      { m with
        running := m.running.filter (fun x => x.rid != rid)
        threads := m.threads.map (fun t =>
          if t.gid == r.gid && live.contains t.tix then t.endClause r.nextHdr else t) }
    else m.updRun rid (fun r => { r with tixs := live, act := live, idx := r.idx + len, stall := [] })

/-- The state that a thread which stop-group mode parks goes back to (R155): none where it does not park. -/
def TStat.back : TStat → Option Back
  | .ready => some .ready
  | .held => some .held
  | .raised => some .raised
  | .escaping => some .escaping
  | _ => none

/-- What happens at a clause boundary: a stopped thread ends (R217, R232) once BAR.BROKEN has had its time (R243);
LINK.LOST with cause 2 reaches a ready thread (R389); a thread of a group that stop-group mode holds parks, but one that
the supervisor has let go on (R155, R415); and a held thread is ready once its flags allow the start (Table 7-1). -/
def Thread.settle (t : Thread) (halted : Bool) (free : Bool) : Thread :=
  if t.stat = .issuing ∨ t.stat = .exited then t
  else if t.stop ∧ t.brokenAt = none then { t with stat := .exited, pend := none, loads := [] }
  else if t.lost ∧ (t.stat = .ready ∨ t.stat = .held) then
    { t.leave .raised t.pos with
      lost := false
      pend := some { eff := 9, a0 := BitVec.ofNat 64 t.pos.hdr, a1 := BitVec.ofNat 64 t.pos.idx, a2 := 0, a3 := 2,
                     save := t.pos, word := t.pos } }
  else
    match (if halted && !t.goes then t.stat.back else none) with
    | some b => { t with stat := .parked (.group b) }
    | none => if t.stat = .held ∧ free then { t with stat := .ready } else t

/-- Settle every thread; then what a wait meets again after a squash reaches its thread: a stopped copy (R186), and the
effect of a halted command (R307). -/
def settle (m : Mach) : Mach :=
  let m1 : Mach := { m with threads := m.threads.map (fun t =>
    t.settle (match m.group? t.gid with | some g => g.halted | none => false)
      (t.stat == .held && !flagsRefuse m t t.holdW t.holdS)) }
  m1.threads.foldl waitMeets m1

/-! A fetched word in place (for `State.withFetchWord`). -/

/-- A clause in flight with these words, run by one thread of a group of its own, whose kernel gives
every register number, on core 0 of die 0. -/
def placeWord (m : Mach) (code : List Nat) : Mach :=
  let n := m.nextId
  { m with
    nextId := n + 1
    kernels := { kid := n, cid := n, qid := n, seq := 1, rc := { regs := 256, scratch := 4096 }, stat := .running } :: m.kernels
    groups := { gid := n, kid := n, gix := 0, die := 0, core := 0 } :: m.groups
    threads := { gid := n, tix := 0, stat := .issuing, pos := ⟨4096, 0⟩ } :: m.threads
    running := { rid := n, core := 0, gid := n, hdr := 4096, count := 15, setA := 0, setB := 1,
                 code := code, tixs := [0], act := [0] } :: m.running }

end Sys2Proof.Machine
end

