-- ==== Sys2Proof/Machine/Step.lean ====
section
/-!
DEFINITION. One step: the next turn of the schedule.
-/

namespace Sys2Proof.Machine

/-- A meaning's answer, with what the step adds after it. -/
def after (o : Host.Outcome State Fault Refusal) (f : Mach → Mach) : Host.Outcome State Fault Refusal :=
  match o with
  | .next s => .next (s.onMach f)
  | .fault e => .fault e
  | .refused e => .refused e

/-- The next word of a clause in flight: decoded and performed, once no outstanding write is named
(R50, R52). -/
def stepWord (s : State) (r : Running) : Host.Outcome State Fault Refusal :=
  match decodeWord r.wordAt.1 r.wordAt.2 with
  | .error _ => .fault .undecodedWord
  | .ok i =>
    if interlocked s.m r i then .next s
    else after (exec i (s.onMach (fun m => { m with cur := some r.rid }))) (fun m => settle (endWord m r.rid (Instr.wordLen i)))

/-- One turn of the schedule; with none left the device idles. -/
def step (s : State) : Host.Outcome State Fault Refusal :=
  match s.agenda with
  | [] => .next s
  | t :: rest =>
    let s' : State := ⟨rest, advance s.m t⟩
    match t.move with
    | .event i => after (exec i s') settle
    | .word rid =>
      match s'.m.running.find? (fun r => r.rid == rid) with
      | none => .next s'
      | some r => stepWord s' r

/-- The state with an instruction where `step` fetches its next: a clause in flight that holds the
word (and an extension word), and a schedule whose next turn performs it (log 1). -/
def State.withFetchWord (s : State) (_nbits w : Nat) : State :=
  ⟨{ move := .word s.m.nextId } :: s.agenda, placeWord s.m [w % 2 ^ 64, w / 2 ^ 64 % 2 ^ 64]⟩

end Sys2Proof.Machine
end

