-- ==== Sys2Proof/Safety.lean ====
section
/-!
DEFINITION. What counts as a safe run: no step of it faults or is refused. And the terms in which claims speak of
one word or event: who performs it, and the machine after it, written out whole.
-/

namespace Sys2Proof

open Sys2Proof.Machine

/-- A step answers a next state. -/
def goesOn (s : State) : Bool :=
  match step s with
  | .next _ => true
  | _ => false

/-- The first `n` steps from a state all answer a next state. -/
def safeFor : Nat → State → Bool
  | 0, _ => true
  | n + 1, s =>
    match step s with
    | .next s' => safeFor n s'
    | _ => false

/-- Every clause in flight holds only words that decode: what keeps a step from its one fault. -/
def Machine.Mach.decodes (m : Mach) : Bool :=
  m.running.all (fun r =>
    match decodeWord r.wordAt.1 r.wordAt.2 with
    | .ok _ => true
    | .error _ => false)

/-! Words: what a whole pack does. `r` is the clause in flight whose word is performed. -/

/-- The machine in which the threads that perform the word have changed by `f`, and nothing else has. -/
def lanes (m : Mach) (r : Running) (g : Guard) (f : Thread → Thread) : Mach :=
  { m with threads := m.threads.map (fun t => if r.sel g t then f t else t) }

/-- The word changes each thread that performs it, by what that thread and the machine hold before it. -/
def EachThread (i : Instr) (g : Guard) (f : Mach → Running → Thread → Thread) : Prop :=
  ∀ (s : State) (r : Running), s.m.curRun = some r →
    exec i s = .next ⟨s.agenda, lanes s.m r g (f s.m r)⟩

/-- The word runs once for its pack, from its leader (R95): `f` is given the leader first. -/
def FromLeader (i : Instr) (g : Guard) (f : Mach → Running → Thread → Thread → Thread) : Prop :=
  ∀ (s : State) (r : Running) (l : Thread), s.m.curRun = some r → leader s.m g = some l →
    exec i s = .next ⟨s.agenda, lanes s.m r g (f s.m r l)⟩

/-- The word writes uniform register `n` of its group once, from its leader. -/
def UniformOnce (i : Instr) (g : Guard) (n : Nat) (f : Mach → Thread → Word) : Prop :=
  ∀ (s : State) (r : Running) (l : Thread), s.m.curRun = some r → leader s.m g = some l →
    exec i s = .next ⟨s.agenda, { s.m with groups := s.m.groups.map (fun x =>
      if x.gid == r.gid then { x with k := kput x.k n (f s.m l) } else x) }⟩

/-- A 32-bit result in the destination forms of R95: each thread its own, the leader's in every thread, or the
leader's in a uniform register. -/
def Writes32 (i : Instr) (g : Guard) (u : Bool) (d : Src) (f : Mach → Thread → Word) : Prop :=
  (∀ n, d = .w n → u = false → EachThread i g (fun m _ t => t.wr n (f m t))) ∧
  (∀ n, d = .w n → u = true → FromLeader i g (fun m _ l t => t.wr n (f m l))) ∧
  (∀ n, d = .k n → u = true → UniformOnce i g n f)

/-- A 64-bit result in a pair, each thread its own or the leader's. -/
def Writes64 (i : Instr) (g : Guard) (u : Bool) (d : Src) (f : Mach → Thread → DWord) : Prop :=
  (∀ n, d = .w n → u = false → EachThread i g (fun m _ t => t.wrD n (f m t))) ∧
  (∀ n, d = .w n → u = true → FromLeader i g (fun m _ l t => t.wrD n (f m l)))

/-- A predicate result. -/
def WritesPred (i : Instr) (g : Guard) (u : Bool) (p : Nat) (f : Mach → Thread → Bool) : Prop :=
  (u = false → EachThread i g (fun m _ t => t.wrP p (f m t))) ∧
  (u = true → FromLeader i g (fun m _ l t => t.wrP p (f m l)))

/-- A two-source word of the integer class on 32 bits. -/
def Computes32 (i : R3 → Instr) (f : Word → Word → Word) : Prop :=
  ∀ x : R3, x.dd = false →
    Writes32 (i x) x.g x.u x.d (fun m t => f (srcW (curK m) t x.a) (srcW (curK m) t x.b))

/-- The same under `.d`, on 64 bits. -/
def Computes64 (i : R3 → Instr) (f : DWord → DWord → DWord) : Prop :=
  ∀ x : R3, x.dd = true → Writes64 (i x) x.g x.u x.d (fun _ t => f (srcD t x.a) (srcD t x.b))

/-- A one-source word of the integer class. -/
def Computes1 (i : R2 → Instr) (f : Word → Word) : Prop :=
  ∀ x : R2, Writes32 (i x) x.g x.u x.d (fun m t => f (srcW (curK m) t x.a))

/-- A bit-field word (R104): `f` is given d, a, b and c. -/
def ComputesField (i : Bf → Instr) (f : Word → Word → Word → Word → Word) : Prop :=
  ∀ x : Bf, Writes32 (i x) x.g x.u x.d (fun m t =>
    f (srcW (curK m) t x.d) (srcW (curK m) t x.a) (srcW (curK m) t x.b) (srcW (curK m) t x.c))

/-- The position of a bit field: `pos` of R104. -/
def fieldPos (b : Word) : Nat := b.toNat % 32

/-- Its bits that lie inside the word: `n` of R104. -/
def fieldBits (b c : Word) : Nat := min (fieldPos b + c.toNat % 64) 32 - fieldPos b

/-- The conditions of Table 5-4, on the numbers that two operands of one width are. -/
def condOn {n : Nat} (c : Cond) (a b : BitVec n) : Bool :=
  match c with
  | .eq => decide (a.toNat = b.toNat)
  | .ne => decide (a.toNat ≠ b.toNat)
  | .lt => decide (a.toInt < b.toInt)
  | .le => decide (a.toInt ≤ b.toInt)
  | .gt => decide (b.toInt < a.toInt)
  | .ge => decide (b.toInt ≤ a.toInt)
  | .ltu => decide (a.toNat < b.toNat)
  | .leu => decide (a.toNat ≤ b.toNat)
  | .gtu => decide (b.toNat < a.toNat)
  | .geu => decide (b.toNat ≤ a.toNat)

/-- A floating-point result with its flags in the destination forms of R95 and R118: the flags are set and an
enabled one traps in every thread that is written, or in the leader when a uniform register is. -/
def WritesFlt (i : Instr) (g : Guard) (u : Bool) (d : Src) (f : Mach → Thread → Word × Nat) : Prop :=
  (∀ n, d = .w n → u = false → EachThread i g (fun m r t =>
    Thread.arithTrap r ((t.wr n (f m t).1).setFlags (f m t).2) (.w n) 0 (f m t).1 (f m t).2)) ∧
  (∀ n, d = .w n → u = true → FromLeader i g (fun m r l t =>
    Thread.arithTrap r ((t.wr n (f m l).1).setFlags (f m l).2) (.w n) 0 (f m l).1 (f m l).2)) ∧
  (∀ n, d = .k n → u = true → ∀ (s : State) (r : Running) (l : Thread),
    s.m.curRun = some r → leader s.m g = some l →
    exec i s = .next ⟨s.agenda, { s.m with
      groups := s.m.groups.map (fun x => if x.gid == r.gid then { x with k := kput x.k n (f s.m l).1 } else x)
      threads := s.m.threads.map (fun t => if t.gid == l.gid && t.tix == l.tix then
        Thread.arithTrap r (t.setFlags (f s.m l).2) (.k n) 0 (f s.m l).1 (f s.m l).2 else t) }⟩)

/-- A pair result with flags: the argument of a trap is the high word (Table 6-2). -/
def WritesFltPair (i : Instr) (g : Guard) (n : Nat) (f : Mach → Thread → DWord × Nat) : Prop :=
  EachThread i g (fun m r t =>
    Thread.arithTrap r ((t.wrD n (f m t).1).setFlags (f m t).2) (.pair n) 0 (hiW (f m t).1) (f m t).2)

/-- A predicate result with flags (R125): the argument of a trap is 0 or 1 (Table 6-2). -/
def WritesFltPred (i : Instr) (g : Guard) (u : Bool) (p : Nat) (f : Mach → Thread → Bool × Nat) : Prop :=
  (u = false → EachThread i g (fun m r t =>
    Thread.arithTrap r ((t.wrP p (f m t).1).setFlags (f m t).2) (.pred p) 0 (if (f m t).1 then 1 else 0) (f m t).2)) ∧
  (u = true → FromLeader i g (fun m r l t =>
    Thread.arithTrap r ((t.wrP p (f m l).1).setFlags (f m l).2) (.pred p) 0 (if (f m l).1 then 1 else 0) (f m l).2))

/-- A 32-bit result from two 32-bit sources, with flags. -/
def ComputesFlt (i : R3 → Instr) (f : Word → Word → Word × Nat) : Prop :=
  ∀ x : R3, WritesFlt (i x) x.g x.u x.d (fun m t => f (srcW (curK m) t x.a) (srcW (curK m) t x.b))

/-- What a thread sees in a cross-lane word (R114): the participants of its own lane set that its mask, in
register `c`, names. A participant performs the word and has its own bit set in its own mask. -/
def seen (m : Mach) (g : Guard) (c : Nat) (t : Thread) : List Thread :=
  (performers m g).filter (fun p => (p.rd c).getLsbD (p.tix % 32) && p.tix / 32 == t.tix / 32 &&
    (t.rd c).getLsbD (p.tix % 32))

/-- A cross-lane word: each participant gets a result of what it sees before the word; the others get
nothing. -/
def EachParticipant (i : Instr) (g : Guard) (c : Nat) (f : Mach → Thread → Thread) : Prop :=
  EachThread i g (fun m _ t => if (t.rd c).getLsbD (t.tix % 32) then f m t else t)

/-- A number's word in which exactly the lanes of some threads are set. -/
def IsMask (w : Word) (ps : List Thread) : Prop :=
  ∀ j, j < 32 → w.getLsbD j = ps.any (fun p => p.tix % 32 == j)

/-- The source lane of `shfl` at lane `i` (Table 5-7). -/
def sourceLane (mode : ShflMode) (i : Nat) (b : Word) : Int :=
  match mode with
  | .atLane => ((b.toNat % 32 : Nat) : Int)
  | .rise => (i : Int) - b.toNat
  | .fall => (i : Int) + b.toNat
  | .swap => ((i ^^^ (b.toNat % 32) : Nat) : Int)

/-! Numbers (04): a value is a rational number, and one rounding takes a number to a code. -/

/-- The FP32 value of a register. -/
def fp (w : Word) : FVal := decodeF FP32 w.toNat

/-- A finite value. -/
def finite : FVal → Bool
  | .fin .. => true
  | _ => false

/-- The number that a finite value is. -/
def numOf : FVal → ℚ
  | .fin n m e => (if n then -1 else 1) * m * 2 ^ e
  | _ => 0

/-- A magnitude, rounded in the mode to the bits of the format with `w` the unit in the last place, reaches the next
power of two. -/
def Reaches (f : Fmt) (rnd : Rnd) (neg : Bool) (y w : ℝ) : Prop :=
  match rnd, neg with
  | .ne, _ => (2 ^ f.p - 1 / 2) * w ≤ y
  | .rz, _ | .rp, true | .rm, false => 2 ^ f.p * w ≤ y
  | .rp, false | .rm, true => (2 ^ f.p - 1) * w < y

/-- A code is the best one for a number in the mode (R79): the nearest, and the even one of two nearest; or the
nearest on the side that the mode chooses. -/
def Best (f : Fmt) (rnd : Rnd) (neg : Bool) (x : ℝ) (c : Nat) : Prop :=
  match rnd, neg with
  | .ne, _ => ∀ d, finite (decodeF f d) = true →
      |(numOf (decodeF f c) : ℝ) - x| ≤ |(numOf (decodeF f d) : ℝ) - x| ∧
      (|(numOf (decodeF f c) : ℝ) - x| = |(numOf (decodeF f d) : ℝ) - x| → numOf (decodeF f d) = numOf (decodeF f c) ∨ c % 2 = 0)
  | .rz, _ | .rp, true | .rm, false => |(numOf (decodeF f c) : ℝ)| ≤ |x| ∧ ∀ d, finite (decodeF f d) = true →
      |(numOf (decodeF f d) : ℝ)| ≤ |x| → |(numOf (decodeF f d) : ℝ)| ≤ |(numOf (decodeF f c) : ℝ)|
  | .rp, false | .rm, true => |x| ≤ |(numOf (decodeF f c) : ℝ)| ∧ ∀ d, finite (decodeF f d) = true →
      |x| ≤ |(numOf (decodeF f d) : ℝ)| → |(numOf (decodeF f c) : ℝ)| ≤ |(numOf (decodeF f d) : ℝ)|

/-- R79 and its flags (R84): a number of the given sign rounded once to a code and the flags that the rounding
raises. -/
structure Rounds (f : Fmt) (rnd : Rnd) (neg : Bool) (x : ℝ) (c fl : Nat) : Prop where
  beyond : Reaches f rnd neg |x| (2 ^ ((2 ^ (f.eb - 1) : Nat) - f.p : Int)) →
             c = (if neg then f.signW else 0) + overflowCode f rnd neg ∧ fl = fOF + fNX
  within : ¬ Reaches f rnd neg |x| (2 ^ ((2 ^ (f.eb - 1) : Nat) - f.p : Int)) →
             finite (decodeF f c) = true ∧ (decodeF f c).sign = neg ∧ c < 2 * f.signW ∧ Best f rnd neg x c
  exact  : ¬ Reaches f rnd neg |x| (2 ^ ((2 ^ (f.eb - 1) : Nat) - f.p : Int)) → (numOf (decodeF f c) : ℝ) = x → fl = 0
  inexact : ¬ Reaches f rnd neg |x| (2 ^ ((2 ^ (f.eb - 1) : Nat) - f.p : Int)) → (numOf (decodeF f c) : ℝ) ≠ x →
             fl = fNX + (if fl / fUF % 2 = 1 then fUF else 0) ∧
             (fl / fUF % 2 = 1 ↔ ¬ Reaches f rnd neg |x| (2 ^ (f.umin - 1)))

/-- The canonical NaN of FP32, with NV where it is invalid (R76). -/
def nan32 (invalid : Bool) : Word × Nat := (0x7FC00000, if invalid then fNV else 0)

/-- An FP32 infinity or zero of a sign, with flags. -/
def inf32 (neg : Bool) (fl : Nat) : Word × Nat := (if neg then 0xFF800000 else 0x7F800000, fl)

/-- See `inf32`. -/
def zero32 (neg : Bool) : Word × Nat := (if neg then 0x80000000 else 0, 0)

/-- An FP32 result and its flags are a number rounded once (R79). -/
def Rounds32 (rnd : Rnd) (x : ℝ) (v : Word × Nat) : Prop := Rounds FP32 rnd (decide (x < 0)) x v.1.toNat v.2

/-- FP32 addition (R123). -/
structure IsSum (f : Rnd → Word → Word → Word × Nat) : Prop where
  nan   : ∀ rnd a b, ((fp a).isNaN || (fp b).isNaN) = true → f rnd a b = nan32 ((fp a).isSig || (fp b).isSig)
  infs  : ∀ rnd a b, (fp a).isInf = true → (fp b).isInf = true →
            f rnd a b = if (fp a).sign = (fp b).sign then (a, 0) else nan32 true
  left  : ∀ rnd a b, (fp a).isInf = true → finite (fp b) = true → f rnd a b = (a, 0)
  right : ∀ rnd a b, finite (fp a) = true → (fp b).isInf = true → f rnd a b = (b, 0)
  num   : ∀ rnd a b, finite (fp a) = true → finite (fp b) = true → numOf (fp a) + numOf (fp b) ≠ 0 →
            Rounds32 rnd ((numOf (fp a) + numOf (fp b) : ℚ) : ℝ) (f rnd a b)
  zero  : ∀ rnd a b, finite (fp a) = true → finite (fp b) = true → numOf (fp a) + numOf (fp b) = 0 →
            f rnd a b = zero32 (if (fp a).isZero && (fp a).sign == (fp b).sign then (fp a).sign else rnd == .rm)

/-- FP32 multiplication (R123). -/
structure IsProduct (f : Rnd → Word → Word → Word × Nat) : Prop where
  nan   : ∀ rnd a b, ((fp a).isNaN || (fp b).isNaN) = true → f rnd a b = nan32 ((fp a).isSig || (fp b).isSig)
  inv   : ∀ rnd a b, ((fp a).isInf && (fp b).isZero || (fp a).isZero && (fp b).isInf) = true → f rnd a b = nan32 true
  inf   : ∀ rnd a b, ((fp a).isInf && !(fp b).isNaN && !(fp b).isZero || (fp b).isInf && !(fp a).isNaN && !(fp a).isZero) = true →
            f rnd a b = inf32 ((fp a).sign != (fp b).sign) 0
  num   : ∀ rnd a b, finite (fp a) = true → finite (fp b) = true → numOf (fp a) * numOf (fp b) ≠ 0 →
            Rounds32 rnd ((numOf (fp a) * numOf (fp b) : ℚ) : ℝ) (f rnd a b)
  zero  : ∀ rnd a b, finite (fp a) = true → finite (fp b) = true → numOf (fp a) * numOf (fp b) = 0 →
            f rnd a b = zero32 ((fp a).sign != (fp b).sign)

/-- FP32 fused multiply and add (R123). -/
structure IsFused (f : Rnd → Word → Word → Word → Word × Nat) : Prop where
  inv   : ∀ rnd a b c, ((fp a).isInf && (fp b).isZero || (fp a).isZero && (fp b).isInf) = true → f rnd a b c = nan32 true
  nan   : ∀ rnd a b c, ((fp a).isInf && (fp b).isZero || (fp a).isZero && (fp b).isInf) = false →
            ((fp a).isNaN || (fp b).isNaN || (fp c).isNaN) = true →
            f rnd a b c = nan32 ((fp a).isSig || (fp b).isSig || (fp c).isSig)
  inf   : ∀ rnd a b c, ((fp a).isInf && !(fp b).isNaN && !(fp b).isZero || (fp b).isInf && !(fp a).isNaN && !(fp a).isZero) = true →
            (fp c).isNaN = false →
            f rnd a b c = if (fp c).isInf && (fp c).sign != ((fp a).sign != (fp b).sign) then nan32 true
              else inf32 ((fp a).sign != (fp b).sign) 0
  infc  : ∀ rnd a b c, finite (fp a) = true → finite (fp b) = true → (fp c).isInf = true → f rnd a b c = (c, 0)
  num   : ∀ rnd a b c, finite (fp a) = true → finite (fp b) = true → finite (fp c) = true →
            numOf (fp a) * numOf (fp b) + numOf (fp c) ≠ 0 →
            Rounds32 rnd ((numOf (fp a) * numOf (fp b) + numOf (fp c) : ℚ) : ℝ) (f rnd a b c)
  zero  : ∀ rnd a b c, finite (fp a) = true → finite (fp b) = true → finite (fp c) = true →
            numOf (fp a) * numOf (fp b) + numOf (fp c) = 0 →
            f rnd a b c = zero32 (if (fp c).isZero && (fp c).sign == ((fp a).sign != (fp b).sign) then (fp c).sign else rnd == .rm)

/-- FP32 division (R123, R128). -/
structure IsQuotient (f : Word → Word → Word × Nat) : Prop where
  nan   : ∀ a b, ((fp a).isNaN || (fp b).isNaN) = true → f a b = nan32 ((fp a).isSig || (fp b).isSig)
  inv   : ∀ a b, ((fp a).isInf && (fp b).isInf || (fp a).isZero && (fp b).isZero) = true → f a b = nan32 true
  inf   : ∀ a b, ((fp a).isInf && finite (fp b)) = true → f a b = inf32 ((fp a).sign != (fp b).sign) 0
  dz    : ∀ a b, (finite (fp a) && !(fp a).isZero && (fp b).isZero) = true → f a b = inf32 ((fp a).sign != (fp b).sign) fDZ
  zero  : ∀ a b, (finite (fp a) && (fp b).isInf || (fp a).isZero && finite (fp b) && !(fp b).isZero) = true →
            f a b = zero32 ((fp a).sign != (fp b).sign)
  num   : ∀ a b, finite (fp a) = true → finite (fp b) = true → numOf (fp a) ≠ 0 → numOf (fp b) ≠ 0 →
            Rounds32 .ne ((numOf (fp a) / numOf (fp b) : ℚ) : ℝ) (f a b)

/-- An integer is a number rounded in a mode (R79, R83). -/
def IntRounds (rnd : Rnd) (q : ℚ) (z : ℤ) : Prop :=
  match rnd with
  | .ne => |z - q| ≤ 1 / 2 ∧ (|z - q| = 1 / 2 → z % 2 = 0)
  | .rz => z = if 0 ≤ q then ⌊q⌋ else ⌈q⌉
  | .rp => z = ⌈q⌉
  | .rm => z = ⌊q⌋

/-- An integer is a number rounded in a mode of `frnd` (R127). -/
def IntegralOf (mode : FrMode) (q : ℚ) (z : ℤ) : Prop :=
  match mode with
  | .even => IntRounds .ne q z
  | .trunc => IntRounds .rz q z
  | .ceil => IntRounds .rp q z
  | .floor => IntRounds .rm q z
  | .away => |z - q| ≤ 1 / 2 ∧ (|z - q| = 1 / 2 → |q| ≤ |z|)

/-- The order of numbers and infinities; −0 and +0 are equal. -/
def Less (x y : FVal) : Prop :=
  match x, y with
  | .inf n, .inf k => n = true ∧ k = false
  | .inf n, _ => n = true
  | _, .inf k => k = false
  | _, _ => numOf x < numOf y

/-- −0 beside +0. -/
def ZeroBelow (x y : FVal) : Prop := x.isZero = true ∧ y.isZero = true ∧ x.sign = true ∧ y.sign = false

/-- A value converted to a wide format: code and flags (R130, Table 4-5). -/
structure Converts (f : Fmt) (rnd : Rnd) (v : FVal) (r : Nat × Nat) : Prop where
  nan  : v.isNaN = true → r = (f.nanCode, if v.isSig then fNV else 0)
  inf  : v.isInf = true → r = ((if v.sign then f.signW else 0) + f.infCode, 0)
  zero : v.isZero = true → r = (if v.sign then f.signW else 0, 0)
  num  : finite v = true → v.isZero = false → Rounds f rnd v.sign (numOf v : ℝ) r.1 r.2

/-- A one-source FP32 word on w registers. -/
def Unary (i : W2 → Instr) (f : Word → Word × Nat) : Prop :=
  ∀ x : W2, WritesFlt (i x) x.g false (.w x.d) (fun _ t => f (t.rd x.a))

/-- The guard of a word; a paired word and an event have none (R65). -/
def wordGuard : Instr → Option Guard
  | .nop g => some g
  | .add x => some x.g
  | .sub x => some x.g
  | .mul x => some x.g
  | .mulh x => some x.g
  | .mulhu x => some x.g
  | .mad x => some x.g
  | .div x => some x.g
  | .divu x => some x.g
  | .rem x => some x.g
  | .remu x => some x.g
  | .and x => some x.g
  | .or x => some x.g
  | .xor x => some x.g
  | .andn x => some x.g
  | .shl x => some x.g
  | .shr x => some x.g
  | .sra x => some x.g
  | .rol x => some x.g
  | .shladd _ x => some x.g
  | .min x => some x.g
  | .max x => some x.g
  | .minu x => some x.g
  | .maxu x => some x.g
  | .abs x => some x.g
  | .clz x => some x.g
  | .popc x => some x.g
  | .brev x => some x.g
  | .bfx x => some x.g
  | .bfxu x => some x.g
  | .bfi x => some x.g
  | .sel _ _ x => some x.g
  | .cmp _ x => some x.g
  | .set _ x => some x.g
  | .mov x => some x.g
  | .movi g _ _ _ => some g
  | .movx g _ _ => some g
  | .pand x => some x.g
  | .por x => some x.g
  | .pxor x => some x.g
  | .smov g _ _ _ => some g
  | .swr g _ _ => some g
  | .rand g _ => some g
  | .widf g _ _ _ => some g
  | .shfl g _ _ _ _ _ => some g
  | .vote g _ _ _ _ _ => some g
  | .redux g _ _ _ _ => some g
  | .matchL g _ _ _ _ => some g
  | .elect g _ _ => some g
  | .lsync g _ _ => some g
  | .bra g _ => some g
  | .jmp g _ => some g
  | .call g _ => some g
  | .callr g _ _ => some g
  | .ret g _ => some g
  | .rjarm g _ _ => some g
  | .rjwait g _ => some g
  | .exit g => some g
  | .brk g _ => some g
  | .yield g => some g
  | .fadd x => some x.g
  | .fsub x => some x.g
  | .fmul x => some x.g
  | .ffma x => some x.g
  | .fmin x => some x.g
  | .fmax x => some x.g
  | .fcmp _ x => some x.g
  | .fclass x => some x.g
  | .frnd _ x => some x.g
  | .fcvt g _ _ _ _ _ => some g
  | .icvt g _ _ _ _ => some g
  | .fcvti g _ _ _ _ _ => some g
  | .hadd2 x => some x.g
  | .hmul2 x => some x.g
  | .hfma2 _ x => some x.g
  | .hmin2 x => some x.g
  | .hmax2 x => some x.g
  | .rcp x => some x.g
  | .rsq x => some x.g
  | .sqrt x => some x.g
  | .exp2 x => some x.g
  | .log2 x => some x.g
  | .fdiv x => some x.g
  | .feval _ x => some x.g
  | .ftld g _ _ _ => some g
  | .dot4 x => some x.g
  | .dot8 x => some x.g
  | .ncvt x => some x.g
  | .nunp x => some x.g
  | .ld x => some x.g
  | .st x => some x.g
  | .lds x => some x.g
  | .sts x => some x.g
  | .ldx x => some x.g
  | .stx x => some x.g
  | .atom x => some x.g
  | .red x => some x.g
  | .atoms x => some x.g
  | .fence g _ _ => some g
  | .acqr g _ => some g
  | .waita g _ _ _ _ => some g
  | .cpy g _ _ _ => some g
  | .tlwait g _ _ => some g
  | .tlread g _ _ => some g
  | .pref g _ _ _ => some g
  | .chend g => some g
  | .chstat g _ _ => some g
  | .bar x => some x.g
  | .barv x => some x.g
  | .barw x => some x.g
  | .barst x => some x.g
  | .tzero g _ _ _ => some g
  | .tld x => some x.g
  | .tst x => some x.g
  | .tmma g _ _ _ => some g
  | .tdadd g _ _ _ _ _ => some g
  | .twait g _ _ _ => some g
  | .tcode g _ _ _ => some g
  | .tlu x => some x.g
  | .tchol x => some x.g
  | .tqr x => some x.g
  | .ttrsm _ _ _ x => some x.g
  | .pvap g _ _ _ _ _ => some g
  | .tstat g _ _ _ => some g
  | .handle g _ _ _ _ => some g
  | .endh g => some g
  | .perform g _ _ => some g
  | .resume g _ => some g
  | .drop g _ => some g
  | .hret g => some g
  | .hstat g _ _ _ => some g
  | .svc g _ => some g
  | .launch g _ _ _ => some g
  | .sleep g _ _ => some g
  | _ => none

/-! Words: what one thread does. -/

/-- `t` is the one thread of the clause in flight `r`, and it performs a word under guard `g`. -/
structure Alone (s : State) (r : Running) (t : Thread) (g : Guard) : Prop where
  run  : s.m.curRun = some r
  act  : r.act = [t.tix]
  here : s.m.thread? r.gid t.tix = some t
  sel  : r.sel g t = true

/-- `t` performs an escaping word: alone, in an empty chunk, with no earlier chunk of its core committing (R188,
R267). -/
structure Escapes (s : State) (r : Running) (t : Thread) (g : Guard) : Prop extends Alone s r t g where
  empty : chunkEmpty s.m r.core = true
  free  : (s.m.core r.core).comC = none

/-- The machine with one thread changed by `f`. -/
def withThread (m : Mach) (t : Thread) (f : Thread → Thread) : Mach :=
  { m with threads := m.threads.map (fun u => if u.gid == t.gid && u.tix == t.tix then f u else u) }

/-- The thread has raised a built-in effect: it has left its pack at the saved position, and the effect with its
arguments waits for its delivery (R330). -/
def raised (x : Raise) (t : Thread) : Thread :=
  { t with stat := .raised, pos := x.save, pack := 0, pend := some x, demoted := t.demoted || t.poll, poll := false }

/-- MISALIGN at the current word (Table 20-6): a0 the clause header address, a1 the word index. -/
def misalignAt (r : Running) (a2 a3 len : Nat) : Raise :=
  { eff := 2, a0 := BitVec.ofNat 64 r.hdr, a1 := BitVec.ofNat 64 r.idx, a2 := BitVec.ofNat 64 a2,
    a3 := BitVec.ofNat 64 a3, save := r.after len, word := r.here }

/-- The machine with one group changed by `f`. -/
def withGroup (m : Mach) (gid : Nat) (f : Group → Group) : Mach :=
  { m with groups := m.groups.map (fun x => if x.gid == gid then f x else x) }

/-- A thread at a clause header where it has landed (R143). A `.poll` load of the clause has demoted it (R156), and a
demoted thread leaves its pack (R142). -/
def landedAt (a : Nat) (t : Thread) : Thread :=
  { t with stat := .ready, pos := ⟨a, 0⟩, landed := true, demoted := t.demoted || t.poll, poll := false
           pack := if t.demoted || t.poll then 0 else t.pack }

/-- The thread has left its pack (R142), demoted where it has performed a `.poll` load (R156). -/
def leftPack (st : TStat) (p : Pos) (t : Thread) : Thread :=
  { t with stat := st, pos := p, pack := 0, demoted := t.demoted || t.poll, poll := false }

/-- An escaping word in a chunk that is not empty: its thread leaves its pack at the word, and the chunk closes with the
cause (R188, R251). -/
def wordEscapes (m : Mach) (r : Running) (t : Thread) (cause : Nat) : Mach :=
  addDue (withThread m t (fun u => { leftPack .escaping ⟨r.hdr, r.idx⟩ u with
    escFor := cause, escAt := some (m.core r.core).openC.serial })) r.core cause

/-- The thread of a lane set's lane is there and has not exited (R149). -/
def present (m : Mach) (gid ls i : Nat) : Prop :=
  ∃ u ∈ m.threads, u.gid = gid ∧ u.tix = 32 * ls + i ∧ u.stat ≠ .exited

/-- The address of the header after the clause, which a call links (R144). -/
def linkOf (r : Running) : DWord := BitVec.ofNat 64 (r.hdr + 8 * (r.count + 2))

/-- The barrier that a thread waits on in `rjwait`, and where. -/
def inRjwait (t : Thread) : Option (Nat × Pos) :=
  match t.stat with
  | .waiting (.rejoin j p) => some (j, p)
  | _ => none

/-- These threads are a rejoin cycle (R153): each waits in `rjwait`, and each lane that it still waits for is one
of them. -/
def IsCycle (m : Mach) (g : Group) (ts : List Thread) : Prop :=
  ts ≠ [] ∧ ∀ t ∈ ts, ∃ j p, inRjwait t = some (j, p) ∧ ∀ i, i < 32 →
    (g.rejoin j (t.tix / 32)).named.getLsbD i = true → (g.rejoin j (t.tix / 32)).arrived.getLsbD i = false →
    present m g.gid (t.tix / 32) i → ∃ u ∈ ts, u.tix = 32 * (t.tix / 32) + i

/-- A global effective address (R159). -/
def globalEa (t : Thread) (a : Nat) (off : Int) : Nat := (t.rdD a + BitVec.ofInt 64 off).toNat

/-- A scratchpad effective address (R159). -/
def scratchEa (t : Thread) (a : Nat) (off : Int) : Nat := (t.rd a + BitVec.ofInt 32 off).toNat

/-- An access of the thread may be performed now: one that is escaping on its page (Table 8-12) has an empty chunk
and no earlier chunk committing (R188, R267); one on a chunked page divides no other clause's accesses (R276). -/
def MayAccess (m : Mach) (r : Running) (t : Thread) (esc : Nat → Bool) (ea : Nat) : Prop :=
  ∀ c, pageClass m (whoOf m t.gid) ea = some c →
    (esc c = true → chunkEmpty m r.core = true ∧ (m.core r.core).comC = none) ∧
    (esc c = false → c = 0 → l1Held m r.core t.gid t.tix = false)

/-- The machine after an access: an escaping one is credited to its thread (R188), and a clause that has accessed a
chunked page is marked (R276). -/
def accessed (m : Mach) (r : Running) (t : Thread) (esc : Nat → Bool) (ea : Nat) (go : Mach) : Mach :=
  match pageClass m (whoOf m t.gid) ea with
  | some c => if esc c then creditWord go r t 6 1
      else if c = 0 then { go with running := go.running.map (fun x => if x.rid == r.rid then { x with l1 := true } else x) }
      else go
  | none => go

/-- The machine with an outstanding operation of the thread: its value waits for LOAD_DATA_ARRIVE (R51). -/
def withLoad (m : Mach) (t : Thread) (regs : Regs) (flag : Option Nat) (f : Thread → Thread) : Mach :=
  withThread { m with nextId := m.nextId + 1 } t (fun u => f { u with loads := u.loads ++ [⟨m.nextId, regs, flag⟩] })

/-- What a supervisor fault or LINK.LOST does to the thread whose access met it (R200, Table 26-6). -/
def stopped (m : Mach) (r : Running) (t : Thread) (acc ea : Nat) (e : MemErr) : Mach :=
  match e with
  | .fault k c => superFault m t k c acc 0 ea ⟨r.hdr, r.idx⟩
  | .link c => withThread m t (raised {
      eff := 9, a0 := BitVec.ofNat 64 r.hdr, a1 := BitVec.ofNat 64 r.idx, a2 := BitVec.ofNat 64 ea,
      a3 := BitVec.ofNat 64 c, save := r.after 1, word := ⟨r.hdr, r.idx⟩ })

/-- The word is performed again at this thread: it has stalled (R170, R177). -/
def stalled (m : Mach) (r : Running) (t : Thread) : Mach :=
  { m with running := m.running.map (fun x => if x.rid == r.rid then { x with stall := x.stall ++ [t.tix] } else x) }

/-- The cause (Table 14-3) with which an escaping word, or a blocking wait, closes a chunk that is not empty (R188,
R251): its thread performs it in an empty chunk. -/
def escapeCause : Instr → Option Nat
  | .ftld .. | .stx _ | .cpy .. | .barv _ | .tzero .. | .tld _ | .tst _ | .tmma .. | .tdadd .. | .tcode .. | .tlu _
  | .tchol _ | .tqr _ | .ttrsm .. | .pvap .. | .launch .. => some 6
  | .waita .. | .tlwait .. | .bar _ | .barw _ | .twait .. | .sleep .. => some 7
  | .svc .. => some 8
  | _ => none

/-- A register checkpoint in which one thread's state is `u` (R188). -/
def Machine.Ckpt.withThread (k : Ckpt) (u : Thread) : Ckpt :=
  { k with threads := k.threads.map (fun c => if c.gid == u.gid && c.tix == u.tix then u else c) }

/-- BAR.BROKEN at the current word (Table 12-4), for a thread that arrives or waits at a broken barrier: it has left
its pack, and the time of it is kept but for a faulted group (R243). -/
def meetsBroken (r : Running) (x : Bar) (cause now : Nat) (t : Thread) : Thread :=
  { raised { eff := 6, a0 := BitVec.ofNat 64 r.hdr, a1 := BitVec.ofNat 64 r.idx
             a2 := BitVec.ofNat 64 (selCode x.sel + 16 * x.id), a3 := BitVec.ofNat 64 cause
             save := r.after 1, word := ⟨r.hdr, r.idx⟩ } t with
    brokenAt := if cause = 2 then t.brokenAt else some now }

/-- The machine after an arrival (R237): the push of the release, the group counted as escaped, the arrival, and the
release of the phase if this was the last. -/
def arrived (m : Mach) (r : Running) (t : Thread) (x : Bar) (b : Barrier) (gix : Nat) : Mach :=
  checkBarrier ((withGroup (relPush m r.core (selReach (m.recOf t.gid) x.sel)) t.gid
    (fun g => { g with escaped := true })).updBarrier b.bid (fun b => { b with arrived := (gix, t.tix) :: b.arrived })) b.bid

/-- The thread waits on a barrier (R237, R238): past a phase, at the next clause, or for a second arrival, at the
word. -/
def waitsAt (r : Running) (x : Bar) (b : Barrier) (p : Word) (past : Bool) : Thread → Thread :=
  leftPack (.waiting (.barrier b.bid p (selCode x.sel) x.id ⟨r.hdr, r.idx⟩ past))
    (if past then ⟨(linkOf r).toNat, 0⟩ else ⟨r.hdr, r.idx⟩)

/-- The machine with the copy at the head of a core's engine changed by `f`. -/
def withHead (m : Mach) (c : Nat) (f : Copy → Copy) : Mach :=
  m.updCore c (fun k => { k with copies := k.copies.head?.toList.map f ++ k.copies.tail })

/-- A scratchpad access that is refused: outside the allocation, or of bytes with an uncorrectable error (R160,
R411). -/
def padRefused (m : Mach) (r : Running) (t : Thread) (acc : Acc) (off n : Nat) : Mach :=
  if off + n ≤ (m.recOf t.gid).scratch then superFault m t 5 0x0504 acc.code 0 off ⟨r.hdr, r.idx⟩
  else superFault m t 2 0x0203 acc.code 0 off ⟨r.hdr, r.idx⟩

/-- What a fault does to the copy at the head of an engine (R186): it stops and a record is posted at once; a thread
that waits for the copy parks. An access that a lost link ends, ends the copy with status 2, and so does a fault where
the copy's group ends faulted, whose record nothing can answer (R232). -/
def engineStops (m : Mach) (c : Nat) (x : Copy) (acc va : Nat) (e : MemErr) : Mach :=
  match e with
  | .link _ => withHead m c (fun y => { y with status := 2 })
  | .fault k d =>
    let m' := parkWaiter (postRec (withHead m c (fun y => { y with stopped := some (k, d) })) (cidOf m x.gid) {
      kind := k, cause := d, access := acc, flags := if k = 1 ∨ k = 2 then 6 else 2, asid := asidOf m (cidOf m x.gid)
      addr := va, clause := x.blkAt, timeline := x.n % 2 ^ 32
      place := (match m.thread? x.gid x.tix with | some t => t.slot | none => 0) + c % 64 * 2 ^ 11 + c / 64 * 2 ^ 17 }) c x
    if endsFaulted m' x.gid then withHead m' c (fun y => { y with stopped := none, status := 2 }) else m'

/-- A tile command is issued (R282, R285): it takes the next number of the core's tile timeline, which pair `d` gets; a
command that breaks a limit of its entry (`ok`) ends with status 1, one that names another group's tile or register
with status 4, and any other claims what is free and is in flight. -/
def issued (m : Mach) (r : Running) (t : Thread) (d : Nat) (ok : Bool) (y : Nat → TCmd) : Mach :=
  let x := y ((m.core r.core).tileCtr + 1)
  let m' := withGroup ((withThread m t (fun u => u.wrD d (BitVec.ofNat 64 x.n))).updCore r.core (fun k =>
    { k with tileCtr := x.n })) t.gid (fun g => { g with save := { g.save with topTile := x.n } })
  if ok = false then finishCmd m' r.core x 1 0
  else if foreign (m.core r.core) t.gid x.tiles x.op.pv? = true then finishCmd m' r.core x 4 0
  else m'.updCore r.core (fun _ => { claim (m.core r.core) t.gid x.tiles x.op.pv? with
    tileCtr := x.n, tcmds := (m.core r.core).tcmds ++ [x] })

/-- A command of a thread, with what it does. -/
def commandOf (r : Running) (t : Thread) (tile opc : Nat) (op : TOp) (flag : Option Nat) (n : Nat) : TCmd :=
  { n := n, gid := t.gid, tix := t.tix, tile := tile, op := op, flag := flag, opc := opc, hdr := r.hdr }

/-- What a thread's escaping word does when its operand is not aligned. -/
def Misaligned (i : Instr) (s : State) (r : Running) (t : Thread) (off size : Nat) : Prop :=
  off % size ≠ 0 → exec i s = .next ⟨s.agenda, withThread s.m t (raised (misalignAt r off size 1))⟩

/-- The two maxima of a size operand (Table 18-2). -/
def inSize (n : Nat) : Bool := decide (1 ≤ n ∧ n ≤ 32)

/-- The machine in which the writes of a plan, page by page, are done in order from what its reads have left (R331). -/
def Writes (m : Mach) (t : Thread) (p : FxPlan) (m' : Mach) : Prop :=
  fxPuts (fxStart m (m.coreOf t.gid) p (fxEscapes p)) p.x.who t.gid t.tix (fxEscapes p) p.parts = .ok m'

/-- The machine after an effect instruction or a delivery whose writes have given `w`: the mark of a clause that has
accessed a chunked page (R276), and the thread. -/
def acted (w : Mach) (t : Thread) (p : FxPlan) : Mach :=
  let w : Mach := if !fxEscapes p && fxChunked p then { w with running := w.running.map (fun x =>
    if x.gid == t.gid && x.tixs.contains t.tix then { x with l1 := true } else x) } else w
  p.k (withThread w t p.f)

/-- What a plan needs to be performed now (R331): every address of its writes is mapped. Where it is escaping, the chunk is
empty, no earlier one commits and no solo chunk holds it up; else it divides no other clause's accesses (R276) and does not
pass the write set. -/
structure MayAct (m : Mach) (t : Thread) (p : FxPlan) : Prop where
  mapped : fxProbe p.x.m p.x.who p.wrs = none
  alone  : fxEscapes p = true → chunkEmpty m (m.coreOf t.gid) = true ∧ (m.core (m.coreOf t.gid)).comC = none ∧
    soloBlocks m p.x.who.part (some (m.coreOf t.gid)) (fxGrains p) = false
  whole  : fxEscapes p = false → fxChunked p = true → l1Held m (m.coreOf t.gid) t.gid t.tix = false
  room   : fxEscapes p = false → fxFull m (m.coreOf t.gid) p = false

/-- An escaping effect is credited to its thread at the position it has reached, and its group counts as escaped (R188,
R226, R341). -/
def creditedAt (m : Mach) (r : Running) (t : Thread) (len : Nat) : Mach :=
  match m.thread? t.gid t.tix with
  | some u => markEsc (credit m t.gid t.tix (if u.stat = .issuing then r.after len else u.pos)) t.gid
  | none => m

/-- The word `i`, of `len` words, does for thread `t` what its plan says; `esc` where it is escaping on any page, `quiet`
where it neither waits nor closes a chunk. What is escaping, and what ends in a fault or an effect after reads on a scoped
or direct page, comes in an empty chunk (R331, R341). -/
def Performs (s : State) (r : Running) (t : Thread) (i : Instr) (len : Nat) (esc : Bool)
    (plan : Mach → Thread → Except FxStop FxPlan) (quiet : Bool := false) : Prop :=
  let whole (p : FxPlan) : FxPlan := { p with esc := p.esc || esc, quiet := quiet }
  let hot (rds : List (Nat × Nat)) : Prop := quiet = false ∧ fxHotReads s.m (whoOf s.m t.gid) rds = true ∧ chunkEmpty s.m r.core = false
  (esc = true → chunkEmpty s.m r.core = false → exec i s = .next ⟨s.agenda, wordEscapes s.m r t 6⟩) ∧
  (esc = false ∨ chunkEmpty s.m r.core = true →
    (∀ p, plan s.m t = .ok p → fxEscapes (whole p) = true → chunkEmpty s.m (s.m.coreOf t.gid) = false →
      exec i s = .next ⟨s.agenda, wordEscapes s.m r t 6⟩) ∧
    (∀ p w, plan s.m t = .ok p → MayAct s.m t (whole p) → Writes s.m t (whole p) w → exec i s = .next ⟨s.agenda,
      if fxEscapes (whole p) then creditedAt (acted w t (whole p)) r t len else acted w t (whole p)⟩) ∧
    (∀ id a2 a3 rds, plan s.m t = .error (.eff id a2 a3 rds) →
      (hot rds → exec i s = .next ⟨s.agenda, wordEscapes s.m r t 6⟩) ∧
      (¬ hot rds → exec i s = .next ⟨s.agenda, withThread s.m t (raised {
        eff := id, a0 := BitVec.ofNat 64 r.hdr, a1 := BitVec.ofNat 64 r.idx, a2 := BitVec.ofNat 64 a2
        a3 := BitVec.ofNat 64 a3, save := r.after len, word := ⟨r.hdr, r.idx⟩ })⟩)) ∧
    (∀ e acc a rds, plan s.m t = .error (.mem e acc a rds) →
      (hot rds → exec i s = .next ⟨s.agenda, wordEscapes s.m r t 6⟩) ∧
      (¬ hot rds → exec i s = .next ⟨s.agenda, stopped s.m r t acc.code a e⟩)))

/-- Reading along a chain of handler frames from address `f`: the frames `l`, each with its address, and then `g`. -/
def Chain : Fx → Nat → List (Nat × Frame) → Fx → Nat → Prop
  | x, f, [], y, g => y = x ∧ g = f
  | x, f, (a, fr) :: l, y, g => f ≠ 0 ∧ a = f ∧ ∃ z, x.frame f = .ok (z, fr) ∧ Chain z fr.link l y g

/-- The command at the partition's Consumer (R405, Table 27-6): an entry with code `code` and operands `ops`, in a
partition whose supervisor runs. -/
structure RingHead (m : Mach) (p : Part) (code : Nat) (ops : List Nat) : Prop where
  part : m.part? p.pid = some p
  live : p.stat = .running ∨ p.stat = .degraded
  some : memNat m (ringBase p + 8) 8 ≠ memNat m (ringBase p) 8
  code : memNat m (ringEntry p (memNat m (ringBase p + 8) 8)) 4 = code
  ops  : ops = (List.range 6).map (fun i => memNat m (ringEntry p (memNat m (ringBase p + 8) 8) + 8 + 8 * i) 8)

/-- The answer to the command at Consumer (R405): status 1 and the result, or status 2; the entry is consumed and the
supervisor interrupted. `m'` is the machine as the command leaves it. -/
def answers (s : State) (p : Part) (m' : Mach) (st res : Nat) : Host.Outcome State Fault Refusal :=
  .next ⟨s.agenda, ringDone m' p (memNat s.m (ringBase p + 8) 8) st res⟩

/-- Command `i` refuses its entry: status 2, result 0, and nothing else. -/
def Refuses (i : Instr) (s : State) (p : Part) : Prop := exec i s = answers s p s.m 2 0

/-- A message that a partition's firmware takes (R384): a request of opcode `op` of version 1 with body `b`, under the
device's Vendor ID, over a link that is up, and outside recovery. -/
structure Asks (m : Mach) (p : Part) (msg : TMsg) (op sid : Nat) (b : List Byte) : Prop where
  vendor  : msg.vendor = Config.vendorId
  long    : 16 ≤ msg.payload.length
  short   : msg.payload.length ≤ 1024
  version : fieldAt msg.payload 0 1 = 1
  kind    : fieldAt msg.payload 1 1 = 0
  opcode  : fieldAt msg.payload 2 1 = op
  session : fieldAt msg.payload 4 2 = sid
  body    : b = msg.payload.drop 16
  runs    : m.zyn.recovery = none
  part    : m.part? p.pid = some p
  live    : p.live = true
  up      : p.link = .up

/-- The Length of a message is a multiple of 4 and that of its body (Table 26-2). -/
def LengthFits (msg : TMsg) (b : List Byte) : Prop := fieldAt msg.payload 8 4 % 4 = 0 ∧ fieldAt msg.payload 8 4 = b.length

/-- A request that is well formed, of a live session with fewer than 64 requests unanswered (R384, R385). -/
structure Served (m : Mach) (p : Part) (msg : TMsg) (op sid : Nat) (b : List Byte) : Prop extends Asks m p msg op sid b where
  length : LengthFits msg b
  mine   : ∃ x ∈ p.sessions, x.sid = sid
  room   : unanswered m p sid < 64

/-- The requests of opcodes 2 to 6 (Table 26-3). -/
def requestOf (op part : Nat) (msg : TMsg) : Instr :=
  match op with
  | 2 => .tretharCreateContext part msg
  | 3 => .tretharCreateQueue part msg
  | 4 => .submit part msg
  | 5 => .readStatus part msg
  | _ => .detach part msg

/-- The limits of their bodies (Table 26-3). -/
def BodyFits (op : Nat) (b : List Byte) : Prop :=
  match op with
  | 2 => b.length = 48
  | 3 => b.length = 12
  | 4 => b.length = 200 ∧ bodyWord b 1 = 0
  | 5 => b.length = 4
  | _ => b = []

/-- Dispose requests, by their action (Table 26-3). -/
def disposeOf (action part : Nat) (msg : TMsg) : Instr :=
  match action with
  | 0 => .disposeDiscard part msg
  | 1 => .disposeReplay part msg
  | _ => .disposeRead part msg

/-- The request is answered: the machine that it leaves, with its reply. -/
def replied (s : State) (p : Part) (msg : TMsg) (m' : Mach) (st sid : Nat) (body : List Byte) : Host.Outcome State Fault Refusal :=
  .next ⟨s.agenda, reply m' p msg.payload st sid body⟩

/-- The word is performed by its pack's threads one after another, in ascending thread index: what one
thread does, `f`, does not depend on which others take part. -/
def InOrder (i : Instr) (g : Guard) : Prop :=
  ∃ f : Mach → Running → Thread → Mach, (∀ m r t as, f m { r with act := as } t = f m r t) ∧
    ∀ (s : State) (r : Running), s.m.curRun = some r →
      exec i s = .next ⟨s.agenda, r.act.foldl (fun m n =>
        match m.thread? r.gid n with
        | some t => if r.sel g t then f m r t else m
        | none => m) s.m⟩

/-- As `InOrder`, of a word that may wait for a release: if a thread that performs it is waited for, all of
them stall at it, and the word does nothing else. -/
def InOrderOnceReady (i : Instr) (g : Guard) : Prop :=
  ∃ (waits : Mach → Running → Thread → Bool) (f : Mach → Running → Thread → Mach),
    (∀ m r t as, waits m { r with act := as } t = waits m r t ∧ f m { r with act := as } t = f m r t) ∧
    ∀ (s : State) (r : Running), s.m.curRun = some r →
      let each (h : Mach → Running → Thread → Mach) : Mach := r.act.foldl (fun m n =>
        match m.thread? r.gid n with
        | some t => if r.sel g t then h m r t else m
        | none => m) s.m
      exec i s = .next ⟨s.agenda,
        if ∃ n ∈ r.act, ∃ t, s.m.thread? r.gid n = some t ∧ r.sel g t = true ∧ waits s.m r t = true then
          each (fun m r t => stallAt m r.rid t.tix)
        else each f⟩

end Sys2Proof
end

