-- ==== Sys2Proof/Certificates/Slice0/Obligations.lean ====
section
/-!
DEFINITION. The statements for the provers.
-/

open Sys2Proof Sys2Proof.Machine

/-- R60 to R63: the words of a well-formed instruction decode to it, whatever bytes follow; and bytes that
decode are those words, of a well-formed instruction, and the bytes after them. -/
def Obligations.DecodeEncode : Prop :=
  (∀ (i : Instr) (rest : List Byte), i.wf = true → encode i ≠ [] → decodeBytes (encodeBytes i ++ rest) = .ok (i, rest)) ∧
  (∀ (bs : List Byte) (i : Instr) (rest : List Byte), decodeBytes bs = .ok (i, rest) →
    i.wf = true ∧ encode i ≠ [] ∧ encodeBytes i ++ rest = bs)

/-- Words worked out in Tables 5-3, 6-5, 8-6, 12-3, 14-6, 17-4, 18-3, 20-5 and 3-7 decode to the instructions
they stand for. -/
def Obligations.SpecWords : Prop :=
  decodeTableWord 64 0x00200A0420018200 = some (.add ⟨⟨false, 0⟩, true, false, .k 5, .w 2, .imm 16⟩) ∧
  decodeTableWord 64 0x0402060C0E000018 = some (.cmp .ltu ⟨⟨false, 1⟩, false, false, 3, .w 6, .w 7⟩) ∧
  decodeTableWord 64 0x04601003FFFFFFFF = some (.movi ⟨false, 0⟩ 1 8 (-1)) ∧
  decodeTableWord 64 0x80040203160E0612 = some (.addPaired ⟨4, 2, 3, ⟨.fmul, 7, 3, 9⟩⟩) ∧
  decodeTableWord 64 0x200014080A000400 = some (.fadd ⟨⟨false, 0⟩, false, .rz, .w 10, .w 4, .w 5⟩) ∧
  decodeTableWord 64 0x236010060C000068 = some (.ncvt ⟨⟨false, 0⟩, 8, 3, 6, 2, 3⟩) ∧
  decodeTableWord 64 0x1012000000000002 = some (.bra ⟨true, 1⟩ 2) ∧
  decodeTableWord 64 0x3800100C001A0040 = some (.ld ⟨⟨false, 0⟩, 8, 6, 64, .dword, .core, false, false, false, 1⟩) ∧
  decodeTableWord 64 0x38C0182812902004 = some (.atom ⟨⟨false, 0⟩, 12, 20, 9, 4, .word, .die, .add, 0⟩) ∧
  decodeTableWord 64 0x48A01000000000A4 = some (.barst ⟨⟨false, 0⟩, .die, 2, 8⟩) ∧
  decodeTableWord 64 0x4820100000000004 = some (.chstat ⟨false, 0⟩ .stat 8) ∧
  decodeTableWord 64 0x5080180C00000031 = some (.tdadd ⟨false, 0⟩ 0 3 12 6 1) ∧
  decodeTableWord 64 0x5140100614080119 = some (.ttrsm true false false ⟨⟨false, 0⟩, 2, 1, 8, 3, 10, 4, 1⟩) ∧
  decodeTableWord 64 0x6040000000800004 = some (.perform ⟨false, 0⟩ true 0x40)

/-- The schedule is the model's (log 1). What a turn runs: an event's meaning, then `settle`; or the word at
which a clause in flight stands, decoded (R50) and, unless a thread of the pack has an outstanding write to
a register it names (R52), performed with the clause as the current one, followed by `endWord`, which moves
past its words. Before either, `advance` lets time pass and changes no register and no memory. Bytes that do
not decode stop the machine, and an instruction that is decoded is well formed. -/
def Obligations.StepRuns : Prop :=
  (∀ s : State, s.agenda = [] → step s = .next s) ∧
  (∀ (s : State) (t : Turn) (rest : List Turn) (i : Instr), s.agenda = t :: rest → t.move = .event i →
    step s = after (exec i ⟨rest, advance s.m t⟩) settle) ∧
  (∀ (s : State) (t : Turn) (rest : List Turn) (rid : Nat) (r : Running), s.agenda = t :: rest → t.move = .word rid →
    (advance s.m t).running.find? (fun x => x.rid == rid) = some r →
    (∀ (i : Instr) (more : List Byte), decodeBytes (leBytes 8 (r.code.getD r.idx 0) ++ leBytes 8 (r.code.getD (r.idx + 1) 0)) = .ok (i, more) →
      r.code.getD r.idx 0 < 2 ^ 64 → r.code.getD (r.idx + 1) 0 < 2 ^ 64 →
      i.wf = true ∧
      (interlocked (advance s.m t) r i = false →
        step s = after (exec i ⟨rest, { advance s.m t with cur := some r.rid }⟩)
          (fun m => settle (endWord m r.rid (if i.hasExt then 2 else 1)))) ∧
      (interlocked (advance s.m t) r i = true → step s = .next ⟨rest, advance s.m t⟩)) ∧
    (∀ e, decodeWord (r.code.getD r.idx 0) (r.code.getD (r.idx + 1) 0) = .error e → step s = .fault .undecodedWord)) ∧
  (∀ (s : State) (t : Turn) (rest : List Turn) (rid : Nat), s.agenda = t :: rest → t.move = .word rid →
    (advance s.m t).running.find? (fun x => x.rid == rid) = none → step s = .next ⟨rest, advance s.m t⟩) ∧
  (∀ (m : Mach) (t : Turn), (advance m t).time = m.time + t.dt ∧ (advance m t).mem = m.mem ∧
    (advance m t).running = m.running ∧ (advance m t).groups = m.groups ∧
    (advance m t).threads.map (fun x => (x.gid, x.tix, x.pos, x.stat, x.w, x.pr, x.fstat, x.fctl, x.hsp)) =
      m.threads.map (fun x => (x.gid, x.tix, x.pos, x.stat, x.w, x.pr, x.fstat, x.fctl, x.hsp)))

/-- Words whose threads act on shared state are performed by the pack's threads in ascending thread index (R92, R175;
for the words that the spec gives no order, log 1): what each thread does is one function of the machine that the
threads before it have left, and does not depend on which others take part. A word with a release stalls whole while a
thread of the pack must wait (R92, R237). With the statements about a thread alone in its pack, this gives the word's
effect on any pack. -/
def Obligations.PackOrder : Prop :=
  (∀ g t, InOrder (.bra g t) g) ∧ (∀ g a, InOrder (.jmp g a) g) ∧ (∀ g t, InOrder (.call g t) g) ∧
  (∀ g d a, InOrder (.callr g d a) g) ∧ (∀ g a, InOrder (.ret g a) g) ∧ (∀ g j a, InOrder (.rjarm g j a) g) ∧
  (∀ g j, InOrder (.rjwait g j) g) ∧ (∀ g, InOrder (.exit g) g) ∧ (∀ g n, InOrder (.brk g n) g) ∧
  (∀ g r a, InOrder (.swr g r a) g) ∧ (∀ g f a fl, InOrder (.ftld g f a fl) g) ∧
  (∀ x, InOrder (.ld x) x.g) ∧ (∀ x, InOrderOnceReady (.st x) x.g) ∧ (∀ x, InOrder (.lds x) x.g) ∧
  (∀ x, InOrder (.sts x) x.g) ∧ (∀ x, InOrder (.ldx x) x.g) ∧ (∀ x, InOrder (.stx x) x.g) ∧
  (∀ x, InOrder (.atom x) x.g) ∧ (∀ x, InOrderOnceReady (.red x) x.g) ∧ (∀ x, InOrder (.atoms x) x.g) ∧
  (∀ g k sc, InOrderOnceReady (.fence g k sc) g) ∧ (∀ g a, InOrder (.acqr g a) g) ∧ (∀ g gl d a b, InOrder (.waita g gl d a b) g) ∧
  (∀ g d a fl, InOrder (.cpy g d a fl) g) ∧ (∀ g t a, InOrder (.tlwait g t a) g) ∧ (∀ g fl d, InOrder (.tlread g fl d) g) ∧
  (∀ g sc a off, InOrder (.pref g sc a off) g) ∧ (∀ g, InOrder (.chend g) g) ∧ (∀ g fl d, InOrder (.chstat g fl d) g) ∧
  (∀ x, InOrderOnceReady (.bar x) x.g) ∧ (∀ x, InOrderOnceReady (.barv x) x.g) ∧ (∀ x, InOrder (.barw x) x.g) ∧ (∀ x, InOrder (.barst x) x.g) ∧
  (∀ g t fr d, InOrder (.tzero g t fr d) g) ∧ (∀ x, InOrder (.tld x) x.g) ∧ (∀ x, InOrder (.tst x) x.g) ∧
  (∀ g d a fl, InOrder (.tmma g d a fl) g) ∧ (∀ g x y d a fl, InOrder (.tdadd g x y d a fl) g) ∧
  (∀ g t d a, InOrder (.twait g t d a) g) ∧ (∀ g d a fl, InOrder (.tcode g d a fl) g) ∧ (∀ x, InOrder (.tlu x) x.g) ∧
  (∀ x, InOrder (.tchol x) x.g) ∧ (∀ x, InOrder (.tqr x) x.g) ∧ (∀ tr un up x, InOrder (.ttrsm tr un up x) x.g) ∧
  (∀ g t p inv d fl, InOrder (.pvap g t p inv d fl) g) ∧ (∀ g fl t d, InOrder (.tstat g fl t d) g) ∧
  (∀ g id d off e, InOrder (.handle g id d off e) g) ∧ (∀ g, InOrder (.endh g) g) ∧ (∀ g m id, InOrder (.perform g m id) g) ∧
  (∀ g a, InOrder (.resume g a) g) ∧ (∀ g a, InOrder (.drop g a) g) ∧ (∀ g, InOrder (.hret g) g) ∧
  (∀ g fl d a, InOrder (.hstat g fl d a) g) ∧ (∀ g n, InOrderOnceReady (.svc g n) g) ∧ (∀ g d a b, InOrderOnceReady (.launch g d a b) g) ∧
  (∀ g ab a, InOrder (.sleep g ab a) g)

/-- After reset: `TIME` is 0 (R20), every die is held and its `CLK` is 0 (R13, R19), no thread, group, kernel,
context, queue, partition or clause exists, every memory byte reads 0 (the model's choice, log 2), and memory lists
nothing, in the canonical form. Where it rests on a reading or a choice of the model, that is logs 2, 3 and 4. -/
def Obligations.ResetState : Prop :=
  State.reset.agenda = [] ∧ State.reset.m.time = 0 ∧
  (∀ d, (State.reset.m.die d).held = true ∧ (State.reset.m.die d).clk = 0) ∧
  State.reset.m.threads = [] ∧ State.reset.m.groups = [] ∧ State.reset.m.kernels = [] ∧ State.reset.m.ctxs = [] ∧
  State.reset.m.queues = [] ∧ State.reset.m.parts = [] ∧ State.reset.m.running = [] ∧ State.reset.m.barriers = [] ∧
  (∀ c, State.reset.m.core c = {}) ∧ State.reset.m.mem = [] ∧ Memory.wf State.reset.m.mem = true ∧
  (∀ a, cget State.reset.m.mem a = 0)

/-- Every step keeps the package's memory in its one canonical form: addresses strictly rising, no entry that
holds what an unlisted address reads as. So equal memories are equal data. The form is the model's own (log
2). -/
def Obligations.MemoryCanonical : Prop :=
  ∀ s s' : State, Memory.wf s.m.mem = true → step s = .next s' → Memory.wf s'.m.mem = true

/-- R101 with Table 5-4: the two-source operations, on 32 bits, and on 64 where `.d` is legal (R97). -/
def Obligations.TwoSourceOperations : Prop :=
  Computes32 .add (fun a b => BitVec.ofNat 32 (a.toNat + b.toNat)) ∧
  Computes64 .add (fun a b => BitVec.ofNat 64 (a.toNat + b.toNat)) ∧
  Computes32 .sub (fun a b => BitVec.ofInt 32 ((a.toNat : Int) - b.toNat)) ∧
  Computes64 .sub (fun a b => BitVec.ofInt 64 ((a.toNat : Int) - b.toNat)) ∧
  Computes32 .mul (fun a b => BitVec.ofNat 32 (a.toNat * b.toNat)) ∧
  Computes32 .mulh (fun a b => BitVec.ofInt 32 (a.toInt * b.toInt / 2 ^ 32)) ∧
  Computes32 .mulhu (fun a b => BitVec.ofNat 32 (a.toNat * b.toNat / 2 ^ 32)) ∧
  Computes32 .and (· &&& ·) ∧ Computes64 .and (· &&& ·) ∧
  Computes32 .or (· ||| ·) ∧ Computes64 .or (· ||| ·) ∧
  Computes32 .xor (· ^^^ ·) ∧ Computes64 .xor (· ^^^ ·) ∧
  Computes32 .andn (fun a b => a &&& ~~~b) ∧
  Computes32 .shl (fun a b => BitVec.ofNat 32 (a.toNat * 2 ^ (b.toNat % 32))) ∧
  Computes64 .shl (fun a b => BitVec.ofNat 64 (a.toNat * 2 ^ (b.toNat % 64))) ∧
  Computes32 .shr (fun a b => BitVec.ofNat 32 (a.toNat / 2 ^ (b.toNat % 32))) ∧
  Computes64 .shr (fun a b => BitVec.ofNat 64 (a.toNat / 2 ^ (b.toNat % 64))) ∧
  Computes32 .sra (fun a b => BitVec.ofInt 32 (a.toInt / 2 ^ (b.toNat % 32))) ∧
  Computes64 .sra (fun a b => BitVec.ofInt 64 (a.toInt / 2 ^ (b.toNat % 64))) ∧
  Computes32 .rol (fun a b => if b.toNat % 32 = 0 then a
    else (a <<< (b.toNat % 32)) ||| (a >>> (32 - b.toNat % 32))) ∧
  Computes32 .min (fun a b => if a.toInt ≤ b.toInt then a else b) ∧
  Computes64 .min (fun a b => if a.toInt ≤ b.toInt then a else b) ∧
  Computes32 .max (fun a b => if b.toInt ≤ a.toInt then a else b) ∧
  Computes64 .max (fun a b => if b.toInt ≤ a.toInt then a else b) ∧
  Computes32 .minu (fun a b => if a.toNat ≤ b.toNat then a else b) ∧
  Computes32 .maxu (fun a b => if b.toNat ≤ a.toNat then a else b)

/-- R102: division truncates toward zero, a remainder has the sign of the dividend, and the two corners. -/
def Obligations.Division : Prop :=
  Computes32 .div (fun a b => if b = 0 then 0xFFFFFFFF else BitVec.ofInt 32 (a.toInt.tdiv b.toInt)) ∧
  Computes32 .rem (fun a b => if b = 0 then a else BitVec.ofInt 32 (a.toInt - b.toInt * a.toInt.tdiv b.toInt)) ∧
  Computes32 .divu (fun a b => if b = 0 then 0xFFFFFFFF else BitVec.ofNat 32 (a.toNat / b.toNat)) ∧
  Computes32 .remu (fun a b => if b = 0 then a else BitVec.ofNat 32 (a.toNat % b.toNat)) ∧
  (∀ x : R3, x.dd = false → x.u = false → ∀ n, x.d = .w n →
    ∀ (s : State) (r : Running), s.m.curRun = some r →
      (∀ t ∈ s.m.threads, srcW (curK s.m) t x.a = 0x80000000 ∧ srcW (curK s.m) t x.b = 0xFFFFFFFF) →
      exec (.div x) s = .next ⟨s.agenda, lanes s.m r x.g (fun t => t.wr n 0x80000000)⟩ ∧
      exec (.rem x) s = .next ⟨s.agenda, lanes s.m r x.g (fun t => t.wr n 0)⟩)

/-- R103: `mad`, `shladd`, `abs`, `clz`, `popc` and `brev`. -/
def Obligations.RemainingArithmetic : Prop :=
  (∀ x : R4, Writes32 (.mad x) x.g x.u x.d (fun m t =>
    BitVec.ofNat 32 ((srcW (curK m) t x.a).toNat * (srcW (curK m) t x.b).toNat + (t.rd x.c).toNat))) ∧
  (∀ sh, Computes32 (.shladd sh) (fun a b => BitVec.ofNat 32 (a.toNat * 2 ^ sh + b.toNat))) ∧
  (∀ sh, Computes64 (.shladd sh) (fun a b => BitVec.ofNat 64 (a.toNat * 2 ^ sh + b.toNat))) ∧
  Computes1 .abs (fun a => BitVec.ofNat 32 a.toInt.natAbs) ∧
  (∀ f : Word → Word, f 0 = 32 →
    (∀ a, a ≠ 0 → (f a).toNat < 32 ∧ 2 ^ (31 - (f a).toNat) ≤ a.toNat ∧ a.toNat < 2 ^ (32 - (f a).toNat)) →
    Computes1 .clz f) ∧
  Computes1 .popc (fun a => BitVec.ofNat 32 ((List.range 32).map (fun i => (a.getLsbD i).toNat)).sum) ∧
  (∀ f : Word → Word, (∀ a i, i < 32 → (f a).getLsbD (31 - i) = a.getLsbD i) → Computes1 .brev f)

/-- R104: the bit-field operations. -/
def Obligations.BitFields : Prop :=
  ComputesField .bfxu (fun _ a b c => BitVec.ofNat 32 (a.toNat / 2 ^ fieldPos b % 2 ^ fieldBits b c)) ∧
  ComputesField .bfx (fun _ a b c =>
    if fieldBits b c = 0 then 0
    else if a.toNat / 2 ^ fieldPos b % 2 ^ fieldBits b c < 2 ^ (fieldBits b c - 1) then
      BitVec.ofNat 32 (a.toNat / 2 ^ fieldPos b % 2 ^ fieldBits b c)
    else BitVec.ofInt 32 ((a.toNat / 2 ^ fieldPos b % 2 ^ fieldBits b c : Nat) - (2 ^ fieldBits b c : Nat))) ∧
  (∀ f : Word → Word → Word → Word → Word,
    (∀ d a b c i, i < 32 → (f d a b c).getLsbD i =
      if fieldPos b ≤ i ∧ i < fieldPos b + fieldBits b c then a.getLsbD (i - fieldPos b) else d.getLsbD i) →
    ComputesField .bfi f)

/-- R105 with the conditions of Table 5-4, and R106. -/
def Obligations.CompareAndSelect : Prop :=
  (∀ (cc : Cond) (x : Cmp), x.dd = false → WritesPred (.cmp cc x) x.g x.u x.p (fun m t =>
    condOn cc (srcW (curK m) t x.a) (srcW (curK m) t x.b))) ∧
  (∀ (cc : Cond) (x : Cmp), x.dd = true → WritesPred (.cmp cc x) x.g x.u x.p (fun _ t =>
    condOn cc (srcD t x.a) (srcD t x.b))) ∧
  (∀ cc : Cond, Computes32 (.set cc) (fun a b => if condOn cc a b then 1 else 0)) ∧
  (∀ t : Thread, ∀ v, t.wrP 0 v = t) ∧
  (∀ (np : Bool) (sp : Nat) (x : R3), Writes32 (.sel np sp x) x.g x.u x.d (fun m t =>
    if t.rdP sp != np then srcW (curK m) t x.a else srcW (curK m) t x.b))

/-- R108 and R109: the moves and `nop`. -/
def Obligations.Moves : Prop :=
  (∀ x : R2, x.dd = false → Writes32 (.mov x) x.g x.u x.d (fun m t => srcW (curK m) t x.a)) ∧
  (∀ x : R2, x.dd = true → Writes64 (.mov x) x.g x.u x.d (fun _ t => srcD t x.a)) ∧
  (∀ g d imm, EachThread (.movi g 0 d imm) g (fun _ _ t => t.wr d (BitVec.ofInt 32 imm))) ∧
  (∀ g d imm, EachThread (.movi g 1 d imm) g (fun _ _ t => t.wrD d (BitVec.ofInt 64 imm))) ∧
  (∀ g d imm, UniformOnce (.movi g 2 d imm) g d (fun _ _ => BitVec.ofInt 32 imm)) ∧
  (∀ g d val, EachThread (.movx g d val) g (fun _ _ t => t.wrD d (BitVec.ofNat 64 val))) ∧
  (∀ g s, exec (.nop g) s = .next s)

/-- R107: the predicate combinations, and p0 reads true. -/
def Obligations.PredicateCombinations : Prop :=
  (∀ t : Thread, t.rdP 0 = true) ∧
  (∀ x : P3, EachThread (.pand x) x.g (fun _ _ t => t.wrP x.d ((t.rdP x.a != x.na) && (t.rdP x.b != x.nb)))) ∧
  (∀ x : P3, EachThread (.por x) x.g (fun _ _ t => t.wrP x.d ((t.rdP x.a != x.na) || (t.rdP x.b != x.nb)))) ∧
  (∀ x : P3, EachThread (.pxor x) x.g (fun _ _ t => t.wrP x.d ((t.rdP x.a != x.na) != (t.rdP x.b != x.nb)))) ∧
  (∀ (t : Thread) (p q : Nat) (v : Bool), 0 < p → p < 8 → 0 < q → q < 8 →
    (t.wrP p v).rdP q = if q = p then v else t.rdP q)

/-- R61, R97 and Table 5-1: what the operand forms read. -/
def Obligations.OperandForms : Prop :=
  ∀ (k : Regs) (t : Thread) (n : Nat) (v : Word),
    srcW k t (.w 0) = 0 ∧ srcW k t (.w 1) = 0 ∧
    t.wr 0 v = t ∧ t.wr 1 v = t ∧
    (2 ≤ n → (t.wr n v).rd n = v) ∧
    (∀ j, j ≠ n → (t.wr n v).rd j = t.rd j) ∧
    (∀ j, kget (kput k n v) j = if j = n then v else kget k j) ∧
    srcW k t (.imm n) = BitVec.ofNat 32 n ∧ srcD t (.imm n) = BitVec.ofNat 64 n ∧
    (srcD t (.w n)).toNat = (t.rd n).toNat + 2 ^ 32 * (t.rd (n + 1)).toNat ∧
    (∀ w : DWord, 2 ≤ n → (t.wrD n w).rdD n = w)

/-- R93: a word whose guard is false in every thread of its pack changes nothing. -/
def Obligations.FalsePredicate : Prop :=
  ∀ (i : Instr) (g : Guard) (s : State) (r : Running), wordGuard i = some g → s.m.curRun = some r →
    (∀ t ∈ s.m.threads, t.guard g = false) → exec i s = .next s

/-- R110, R111, R112 and R113: the special registers (Table 5-5), `widf` and `rand`. Where it rests on a reading or a
choice of the model, that is logs 5 and 14. -/
def Obligations.SpecialRegisters : Prop :=
  (∀ g u d sreg, sregWide sreg = true → Writes64 (.smov g u d sreg) g u d (fun m t => sregRead m t sreg)) ∧
  (∀ g u d sreg, sregWide sreg = false →
    Writes32 (.smov g u d sreg) g u d (fun m t => (sregRead m t sreg).truncate 32)) ∧
  (∀ (m : Mach) (t : Thread) (x : Group), m.group? t.gid = some x →
    sregRead m t 0 = BitVec.ofNat 64 t.tix ∧ sregRead m t 1 = BitVec.ofNat 64 x.gix ∧
    sregRead m t 2 = BitVec.ofNat 64 (widOf (m.recOf t.gid) x.gix t.tix) ∧
    sregRead m t 3 = BitVec.ofNat 64 (t.tix % 32) ∧ sregRead m t 4 = BitVec.ofNat 64 (t.tix / 32) ∧
    sregRead m t 5 = BitVec.ofNat 64 (x.core % 64) ∧
    sregRead m t 6 = BitVec.ofNat 64 (x.core % 4 + 4 * (x.core % 64 / 4) +
      (if 1 < (m.recOf t.gid).setSize then 64 else 0)) ∧
    sregRead m t 7 = BitVec.ofNat 64 x.die ∧ sregRead m t 8 = BitVec.ofNat 64 m.pkg ∧
    sregRead m t 9 = BitVec.ofNat 64 (m.die x.die).clk ∧ sregRead m t 10 = BitVec.ofNat 64 m.time ∧
    sregRead m t 11 = t.fstat.zeroExtend 64 ∧ sregRead m t 12 = t.fctl.zeroExtend 64 ∧
    sregRead m t 13 = t.hsp ∧ sregRead m t 14 = BitVec.ofNat 64 t.prs ∧
    sregRead m t 15 = BitVec.ofNat 64 (chsOf (m.core x.core)) ∧
    sregRead m t 16 = t.rngk ∧ sregRead m t 17 = t.rngc ∧
    sregRead m t 18 = BitVec.ofNat 64 (m.core x.core).copyCtr ∧
    sregRead m t 19 = BitVec.ofNat 64 (m.core x.core).tileCtr ∧
    sregRead m t 20 = BitVec.ofNat 64 (m.recOf t.gid).regs ∧ sregRead m t 21 = BitVec.ofNat 64 x.width) ∧
  (∀ (s : State) (r : Running) (t : Thread) (g : Guard) (a : Nat), Alone s r t g →
    exec (.swr g 11 a) s = .next ⟨s.agenda, withThread s.m t (fun u => { u with fstat := t.rd a &&& 31 })⟩ ∧
    exec (.swr g 12 a) s = .next ⟨s.agenda, withThread s.m t (fun u => { u with fctl := t.rd a &&& 31 })⟩ ∧
    exec (.swr g 16 a) s = .next ⟨s.agenda, withThread s.m t (fun u => { u with rngk := t.rdD a })⟩ ∧
    exec (.swr g 17 a) s = .next ⟨s.agenda, withThread s.m t (fun u => { u with rngc := t.rdD a })⟩ ∧
    ((t.rdD a).toNat % 32 = 0 →
      exec (.swr g 13 a) s = .next ⟨s.agenda, withThread s.m t (fun u => { u with hsp := t.rdD a })⟩) ∧
    ((t.rdD a).toNat % 32 ≠ 0 →
      exec (.swr g 13 a) s = .next ⟨s.agenda, withThread s.m t (raised (misalignAt r (t.rdD a).toNat 32 1))⟩)) ∧
  (∀ g u n d, Writes32 (.widf g u n d) g u d (fun m t => BitVec.ofNat 32
    (widT m t / 2 ^ ((m.recOf t.gid).widths.take n).sum % 2 ^ ((m.recOf t.gid).widths.getD n 0)))) ∧
  (∀ g d, EachThread (.rand g d) g (fun m _ t =>
    ({ t with rngc := t.rngc + 1 }).wr d (randWord t.rngk t.rngc (widT m t)))) ∧
  randWord 0 0 0 = 0x6627E8D5 ∧ randWord 0 1 0 = 0xE169C58D ∧ randWord 0 2 0 = 0xBC57AC4C ∧ randWord 0 3 0 = 0x9B00DBD8

/-- R64: a compact operation has the effect of its full-form mnemonic, with no modifiers. -/
def Obligations.CompactOperations : Prop :=
  Computes32 .add (fun a b => (compactVal .add a b).1) ∧ Computes32 .sub (fun a b => (compactVal .sub a b).1) ∧
  Computes32 .and (fun a b => (compactVal .and a b).1) ∧ Computes32 .or (fun a b => (compactVal .or a b).1) ∧
  Computes32 .xor (fun a b => (compactVal .xor a b).1) ∧ Computes32 .shl (fun a b => (compactVal .shl a b).1) ∧
  Computes32 .shr (fun a b => (compactVal .shr a b).1) ∧
  (∀ x : R2, x.dd = false → ∀ b, Writes32 (.mov x) x.g x.u x.d (fun m t => (compactVal .mov (srcW (curK m) t x.a) b).1)) ∧
  Computes32 .min (fun a b => (compactVal .min a b).1) ∧ Computes32 .max (fun a b => (compactVal .max a b).1) ∧
  (∀ x : R3r, x.rnd = .ne → WritesFlt (.fadd x) x.g x.u x.d (fun m t =>
    compactVal .fadd (srcW (curK m) t x.a) (srcW (curK m) t x.b))) ∧
  (∀ x : R3r, x.rnd = .ne → WritesFlt (.fmul x) x.g x.u x.d (fun m t =>
    compactVal .fmul (srcW (curK m) t x.a) (srcW (curK m) t x.b))) ∧
  (∀ x : R3, WritesFlt (.fmin x) x.g x.u x.d (fun m t =>
    compactVal .fmin (srcW (curK m) t x.a) (srcW (curK m) t x.b))) ∧
  (∀ x : R3, WritesFlt (.fmax x) x.g x.u x.d (fun m t =>
    compactVal .fmax (srcW (curK m) t x.a) (srcW (curK m) t x.b))) ∧
  (∀ x : H3, x.bf = false → WritesFlt (.hadd2 x) x.g false (.w x.d) (fun _ t =>
    compactVal .hadd2 (t.rd x.a) (t.rd x.b))) ∧
  (∀ x : H3, x.bf = false → WritesFlt (.hmul2 x) x.g false (.w x.d) (fun _ t =>
    compactVal .hmul2 (t.rd x.a) (t.rd x.b))) ∧
  (∀ a b : Word, ∀ op ∈ [CompactOp.add, .sub, .and, .or, .xor, .shl, .shr, .mov, .min, .max],
    (compactVal op a b).2 = 0)

/-- R65: a paired word has no predicate; all sources are read, both destinations are written, and the first
operation that traps is reported. -/
def Obligations.PairedWords : Prop :=
  ∀ p ∈ [(Instr.addPaired, CompactOp.add), (.subPaired, .sub), (.andPaired, .and), (.orPaired, .or),
      (.xorPaired, .xor), (.shlPaired, .shl), (.shrPaired, .shr), (.movPaired, .mov), (.minPaired, .min),
      (.maxPaired, .max), (.faddPaired, .fadd), (.fmulPaired, .fmul), (.fminPaired, .fmin), (.fmaxPaired, .fmax),
      (.hadd2Paired, .hadd2), (.hmul2Paired, .hmul2)],
    ∀ x : Paired, EachThread (p.1 x) ⟨false, 0⟩ (fun _ r t =>
      let u := compactVal p.2 (t.rd x.a) (t.rd x.b)
      let v := compactVal x.snd.op (t.rd x.snd.a) (t.rd x.snd.b)
      let w := { (t.wr x.d u.1).wr x.snd.d v.1 with fstat := t.fstat ||| BitVec.ofNat 32 (u.2 % 32) ||| BitVec.ofNat 32 (v.2 % 32) }
      if t.traps u.2 ≠ 0 then Thread.arithTrap r w (.w x.d) 0 u.1 u.2
      else if t.traps v.2 ≠ 0 then Thread.arithTrap r w (.w x.snd.d) 1 v.1 v.2
      else w)

/-- R114, R115 and R116 with Table 5-7, and the order rule of R117: the cross-lane words; the result of `redux`
does not depend on the order of lanes, `.add` is the sum modulo 2^32, and `.min` is an offer below every
other. -/
def Obligations.CrossLane : Prop :=
  ((∀ g mode d a b c, ∀ f : Mach → Thread → Word,
    (∀ m t,
      (∀ p ∈ seen m g c t, ((p.tix % 32 : Nat) : Int) = sourceLane mode (t.tix % 32) (srcW (curK m) t b) →
        f m t = p.rd a) ∧
      ((∀ p ∈ seen m g c t, ((p.tix % 32 : Nat) : Int) ≠ sourceLane mode (t.tix % 32) (srcW (curK m) t b)) →
        f m t = t.rd a)) →
    EachParticipant (.shfl g mode d a b c) g c (fun m t => t.wr d (f m t))) ∧
  (∀ g na d a c, EachParticipant (.vote g .every na d a c) g c (fun m t =>
    t.wrP d ((seen m g c t).all (fun p => p.rdP a != na)))) ∧
  (∀ g na d a c, EachParticipant (.vote g .some na d a c) g c (fun m t =>
    t.wrP d ((seen m g c t).any (fun p => p.rdP a != na)))) ∧
  (∀ g na d a c, EachParticipant (.vote g .agree na d a c) g c (fun m t =>
    t.wrP d ((seen m g c t).all (fun p => p.rdP a) || (seen m g c t).all (fun p => !p.rdP a)))) ∧
  (∀ g na d a c, ∀ f : Mach → Thread → Word,
    (∀ m t, IsMask (f m t) ((seen m g c t).filter (fun p => p.rdP a != na))) →
    EachParticipant (.vote g .mask na d a c) g c (fun m t => t.wr d (f m t))) ∧
  (∀ g op d a c, EachParticipant (.redux g op d a c) g c (fun m t =>
    t.wr d (redTotal op ((seen m g c t).map (fun p => p.rd a))))) ∧
  (∀ g d a c, ∀ f : Mach → Thread → Word,
    (∀ m t, IsMask (f m t) ((seen m g c t).filter (fun p => p.rd a == t.rd a))) →
    EachParticipant (.matchL g false d a c) g c (fun m t => t.wr d (f m t))) ∧
  (∀ g d a c, ∀ f : Mach → Thread → Word,
    (∀ m t, IsMask (f m t) (if (seen m g c t).all (fun p => p.rd a == t.rd a) then seen m g c t else [])) →
    EachParticipant (.matchL g true d a c) g c (fun m t => t.wr d (f m t))) ∧
  (∀ g d c, EachParticipant (.elect g d c) g c (fun m t =>
    t.wrP d ((seen m g c t).all (fun p => decide (t.tix % 32 ≤ p.tix % 32))))) ∧
  (∀ g d c, ∀ f : Mach → Thread → Word, (∀ m t, IsMask (f m t) (seen m g c t)) →
    EachParticipant (.lsync g d c) g c (fun m t => t.wr d (f m t)))) ∧
  (∀ l : List Word,
    (∀ (op : RedOp) (l' : List Word), l.Perm l' → redTotal op l = redTotal op l') ∧
    redTotal .add l = BitVec.ofNat 32 (l.map BitVec.toNat).sum ∧
    (∀ a ∈ l, redTotal .min l ∈ l ∧ (redTotal .min l).toInt ≤ a.toInt) ∧
    (∀ a ∈ l, redTotal .max l ∈ l ∧ a.toInt ≤ (redTotal .max l).toInt) ∧
    (∀ a ∈ l, redTotal .minu l ∈ l ∧ (redTotal .minu l).toNat ≤ a.toNat) ∧
    (∀ a ∈ l, redTotal .maxu l ∈ l ∧ a.toNat ≤ (redTotal .maxu l).toNat) ∧
    (∀ i, l ≠ [] → i < 32 → (redTotal .and l).getLsbD i = l.all (fun a => a.getLsbD i)) ∧
    (∀ i, i < 32 → (redTotal .or l).getLsbD i = l.any (fun a => a.getLsbD i)))

/-- R123: FP32 arithmetic, each word one exact operation and one rounding, with its special cases. -/
def Obligations.FloatArithmetic : Prop :=
  (∃ f : Rnd → Word → Word → Word × Nat, IsSum f ∧
    (∀ x : R3r, WritesFlt (.fadd x) x.g x.u x.d (fun m t => f x.rnd (srcW (curK m) t x.a) (srcW (curK m) t x.b))) ∧
    ComputesFlt .fsub (fun a b => f .ne a (b ^^^ 0x80000000))) ∧
  (∃ f : Rnd → Word → Word → Word × Nat, IsProduct f ∧
    ∀ x : R3r, WritesFlt (.fmul x) x.g x.u x.d (fun m t => f x.rnd (srcW (curK m) t x.a) (srcW (curK m) t x.b))) ∧
  (∃ f : Rnd → Word → Word → Word → Word × Nat, IsFused f ∧
    ∀ x : R4, WritesFlt (.ffma x) x.g x.u x.d (fun m t =>
      f x.rnd (srcW (curK m) t x.a) (srcW (curK m) t x.b) (t.rd x.c))) ∧
  (∃ f : Word → Word → Word × Nat, IsQuotient f ∧ ComputesFlt .fdiv f)

/-- R124, R125, R126 and R127: minimum and maximum, comparison, class and rounding to an integral value. -/
def Obligations.FloatCompare : Prop :=
  (∃ f : Word → Word → Word × Nat, ComputesFlt .fmin f ∧ ∀ a b,
    (f a b).2 = (if (fp a).isSig || (fp b).isSig then fNV else 0) ∧
    ((fp a).isNaN = true → (f a b).1 = if (fp b).isNaN then 0x7FC00000 else b) ∧
    ((fp a).isNaN = false → ((fp b).isNaN = true ∨ Less (fp a) (fp b) ∨ ZeroBelow (fp a) (fp b)) → (f a b).1 = a) ∧
    ((fp a).isNaN = false → (fp b).isNaN = false → (Less (fp b) (fp a) ∨ ZeroBelow (fp b) (fp a)) → (f a b).1 = b)) ∧
  (∃ f : Word → Word → Word × Nat, ComputesFlt .fmax f ∧ ∀ a b,
    (f a b).2 = (if (fp a).isSig || (fp b).isSig then fNV else 0) ∧
    ((fp a).isNaN = true → (f a b).1 = if (fp b).isNaN then 0x7FC00000 else b) ∧
    ((fp a).isNaN = false → ((fp b).isNaN = true ∨ Less (fp b) (fp a) ∨ ZeroBelow (fp b) (fp a)) → (f a b).1 = a) ∧
    ((fp a).isNaN = false → (fp b).isNaN = false → (Less (fp a) (fp b) ∨ ZeroBelow (fp a) (fp b)) → (f a b).1 = b)) ∧
  (∃ f : FCond → Word → Word → Bool × Nat,
    (∀ cc x, WritesFltPred (.fcmp cc x) x.g x.u x.p (fun m t => f cc (srcW (curK m) t x.a) (srcW (curK m) t x.b))) ∧
    ∀ a b, let un : Prop := ((fp a).isNaN || (fp b).isNaN) = true
      ((f .eq a b).1 = true ↔ ¬ un ∧ ¬ Less (fp a) (fp b) ∧ ¬ Less (fp b) (fp a)) ∧
      ((f .ne a b).1 = true ↔ un ∨ Less (fp a) (fp b) ∨ Less (fp b) (fp a)) ∧
      ((f .lt a b).1 = true ↔ ¬ un ∧ Less (fp a) (fp b)) ∧ ((f .le a b).1 = true ↔ ¬ un ∧ ¬ Less (fp b) (fp a)) ∧
      ((f .gt a b).1 = true ↔ ¬ un ∧ Less (fp b) (fp a)) ∧ ((f .ge a b).1 = true ↔ ¬ un ∧ ¬ Less (fp a) (fp b)) ∧
      ((f .un a b).1 = true ↔ un) ∧ ((f .ord a b).1 = true ↔ ¬ un) ∧
      (∀ cc ∈ [FCond.eq, .ne, .un, .ord], (f cc a b).2 = if (fp a).isSig || (fp b).isSig then fNV else 0) ∧
      (∀ cc ∈ [FCond.lt, .le, .gt, .ge], (f cc a b).2 = if (fp a).isNaN || (fp b).isNaN then fNV else 0)) ∧
  (∃ f : Word → Word, Computes1 .fclass f ∧ ∀ a, f a = match fp a with
    | .inf n => if n then 1 else 0x80
    | .nan s => if s then 0x100 else 0x200
    | .fin n m e => if m = 0 then (if n then 8 else 0x10)
      else if |numOf (.fin n m e)| < 2 ^ (-126 : Int) then (if n then 4 else 0x20) else (if n then 2 else 0x40)) ∧
  (∃ f : FrMode → Word → Word × Nat,
    (∀ mode x, WritesFlt (.frnd mode x) x.g x.u x.d (fun m t => f mode (srcW (curK m) t x.a))) ∧
    ∀ mode a,
      ((fp a).isNaN = true → f mode a = nan32 (fp a).isSig) ∧ ((fp a).isInf = true → f mode a = (a, 0)) ∧
      (finite (fp a) = true → (f mode a).2 = 0 ∧ (fp (f mode a).1).sign = (fp a).sign ∧ finite (fp (f mode a).1) = true ∧
        ∃ z : ℤ, numOf (fp (f mode a).1) = z ∧ IntegralOf mode (numOf (fp a)) z))

/-- R130, R131 and R132: the conversions between the wide formats and integers. -/
def Obligations.FloatConversions : Prop :=
  (∃ f : WFmt → Rnd → FVal → Nat × Nat, (∀ dst rnd v, Converts (fmtOf dst) rnd v (f dst rnd v)) ∧
    (∀ g rnd dst src d a, dst ≠ .fa48 → WritesFlt (.fcvt g rnd dst src d a) g false (.w d) (fun _ t =>
      let r := f dst rnd (decodeF (fmtOf src) (wideCode src t a)); (BitVec.ofNat 32 r.1, r.2))) ∧
    (∀ g rnd src d a, WritesFltPair (.fcvt g rnd .fa48 src d a) g d (fun _ t =>
      let r := f .fa48 rnd (decodeF (fmtOf src) (wideCode src t a)); (BitVec.ofNat 64 (r.1 * 65536), r.2))) ∧
    (∀ g uns dst d a, dst ≠ .fa48 → WritesFlt (.icvt g uns dst d a) g false (.w d) (fun _ t =>
      let i : Int := if uns then (t.rd a).toNat else (t.rd a).toInt
      let r := f dst .ne (.fin (decide (i < 0)) i.natAbs 0); (BitVec.ofNat 32 r.1, r.2))) ∧
    (∀ g uns d a, WritesFltPair (.icvt g uns .fa48 d a) g d (fun _ t =>
      let i : Int := if uns then (t.rd a).toNat else (t.rd a).toInt
      let r := f .fa48 .ne (.fin (decide (i < 0)) i.natAbs 0); (BitVec.ofNat 64 (r.1 * 65536), r.2)))) ∧
  (∃ f : Rnd → Int → Int → FVal → Int × Nat,
    (∀ g rnd src d a, WritesFlt (.fcvti g rnd true src d a) g false (.w d) (fun _ t =>
      let r := f rnd 0 (2 ^ 32 - 1) (decodeF (fmtOf src) (wideCode src t a)); (BitVec.ofInt 32 r.1, r.2))) ∧
    (∀ g rnd src d a, WritesFlt (.fcvti g rnd false src d a) g false (.w d) (fun _ t =>
      let r := f rnd (-2 ^ 31) (2 ^ 31 - 1) (decodeF (fmtOf src) (wideCode src t a)); (BitVec.ofInt 32 r.1, r.2))) ∧
    ∀ rnd lo hi v, lo ≤ hi →
      (v.isNaN = true → f rnd lo hi v = (0, fNV)) ∧
      (v.isInf = true → f rnd lo hi v = (if v.sign then lo else hi, fNV)) ∧
      (finite v = true → ∀ z : ℤ, IntRounds rnd (numOf v) z →
        f rnd lo hi v = if z < lo then (lo, fNV) else if hi < z then (hi, fNV)
          else (z, if numOf v = z then 0 else fNX)))

/-- R129: the packed words; each half alone, one word of flags. -/
def Obligations.PackedHalves : Prop :=
  (∀ x : H3, ∀ i op, (i, op) ∈ [(Instr.hadd2, fun fm => addF fm .ne), (.hmul2, fun fm => mulF fm .ne),
      (.hmin2, fun fm => minMaxF fm false), (.hmax2, fun fm => minMaxF fm true)] →
    WritesFlt (i x) x.g false (.w x.d) (fun _ t =>
      let lo := op (if x.bf then BF16 else FP16) ((t.rd x.a).toNat % 2 ^ 16) ((t.rd x.b).toNat % 2 ^ 16)
      let hi := op (if x.bf then BF16 else FP16) ((t.rd x.a).toNat / 2 ^ 16) ((t.rd x.b).toNat / 2 ^ 16)
      (BitVec.ofNat 32 (lo.1 + 2 ^ 16 * hi.1), lo.2 ||| hi.2))) ∧
  (∀ c (x : H3), WritesFlt (.hfma2 c x) x.g false (.w x.d) (fun _ t =>
      let lo := fmaF (if x.bf then BF16 else FP16) .ne ((t.rd x.a).toNat % 2 ^ 16) ((t.rd x.b).toNat % 2 ^ 16) ((t.rd c).toNat % 2 ^ 16)
      let hi := fmaF (if x.bf then BF16 else FP16) .ne ((t.rd x.a).toNat / 2 ^ 16) ((t.rd x.b).toNat / 2 ^ 16) ((t.rd c).toNat / 2 ^ 16)
      (BitVec.ofNat 32 (lo.1 + 2 ^ 16 * hi.1), lo.2 ||| hi.2))) ∧
  (∀ fm ∈ [FP16, BF16], ∀ a b c,
    (finite (decodeF fm a) = true → finite (decodeF fm b) = true → numOf (decodeF fm a) + numOf (decodeF fm b) ≠ 0 →
      Rounds fm .ne (decide (numOf (decodeF fm a) + numOf (decodeF fm b) < 0))
        ((numOf (decodeF fm a) + numOf (decodeF fm b) : ℚ) : ℝ) (addF fm .ne a b).1 (addF fm .ne a b).2) ∧
    (finite (decodeF fm a) = true → finite (decodeF fm b) = true → numOf (decodeF fm a) * numOf (decodeF fm b) ≠ 0 →
      Rounds fm .ne (decide (numOf (decodeF fm a) * numOf (decodeF fm b) < 0))
        ((numOf (decodeF fm a) * numOf (decodeF fm b) : ℚ) : ℝ) (mulF fm .ne a b).1 (mulF fm .ne a b).2) ∧
    (finite (decodeF fm a) = true → finite (decodeF fm b) = true → finite (decodeF fm c) = true →
      numOf (decodeF fm a) * numOf (decodeF fm b) + numOf (decodeF fm c) ≠ 0 →
      Rounds fm .ne (decide (numOf (decodeF fm a) * numOf (decodeF fm b) + numOf (decodeF fm c) < 0))
        ((numOf (decodeF fm a) * numOf (decodeF fm b) + numOf (decodeF fm c) : ℚ) : ℝ)
        (fmaF fm .ne a b c).1 (fmaF fm .ne a b c).2)) ∧
  addF BF16 .ne 0x3F80 0x3B80 = (0x3F80, fNX) ∧ addF BF16 .ne 0x3F80 0 = (0x3F80, 0)

/-- R128 with Table 6-6: the special functions, with `exp2` and `log2` stated where the table and the rule give the
result itself. R136 to R139: the function tables. Where it rests on a reading or a choice of the model, that is logs
40, 41 and 56. -/
def Obligations.SpecialFunctions : Prop :=
  ((∃ f, Unary .rcp f ∧ ∀ a,
    ((fp a).isNaN = true → f a = nan32 (fp a).isSig) ∧
    ((fp a).isZero = true → f a = inf32 (fp a).sign fDZ) ∧ ((fp a).isInf = true → f a = zero32 (fp a).sign) ∧
    (finite (fp a) = true → (fp a).isZero = false → Rounds32 .ne (1 / (numOf (fp a) : ℝ)) (f a))) ∧
  (∃ f, Unary .rsq f ∧ ∀ a,
    ((fp a).isNaN = true → f a = nan32 (fp a).isSig) ∧
    ((fp a).isZero = true → f a = inf32 (fp a).sign fDZ) ∧ (a = 0x7F800000 → f a = zero32 false) ∧
    (((fp a).isInf && (fp a).sign || finite (fp a) && !(fp a).isZero && (fp a).sign) = true → f a = nan32 true) ∧
    (finite (fp a) = true → 0 < numOf (fp a) → Rounds32 .ne (1 / Real.sqrt (numOf (fp a))) (f a))) ∧
  (∃ f, Unary .sqrt f ∧ ∀ a,
    ((fp a).isNaN = true → f a = nan32 (fp a).isSig) ∧
    ((fp a).isZero = true → f a = (a, 0)) ∧ (a = 0x7F800000 → f a = (a, 0)) ∧
    (((fp a).isInf && (fp a).sign || finite (fp a) && !(fp a).isZero && (fp a).sign) = true → f a = nan32 true) ∧
    (finite (fp a) = true → 0 < numOf (fp a) → Rounds32 .ne (Real.sqrt (numOf (fp a))) (f a))) ∧
  (∃ f, Unary .log2 f ∧ ∀ a,
    ((fp a).isNaN = true → f a = nan32 (fp a).isSig) ∧
    ((fp a).isZero = true → f a = inf32 true fDZ) ∧ (a = 0x7F800000 → f a = (a, 0)) ∧
    (((fp a).isInf && (fp a).sign || finite (fp a) && !(fp a).isZero && (fp a).sign) = true → f a = nan32 true) ∧
    (∀ k : ℤ, finite (fp a) = true → numOf (fp a) = 2 ^ k → (f a).2 = 0 ∧ finite (fp (f a).1) = true ∧ numOf (fp (f a).1) = k)) ∧
  (∃ f, Unary .exp2 f ∧ ∀ a,
    ((fp a).isNaN = true → f a = nan32 (fp a).isSig) ∧
    ((fp a).isInf = true → f a = if (fp a).sign then (0, 0) else (0x7F800000, 0)) ∧
    (∀ k : ℤ, finite (fp a) = true → numOf (fp a) = k → -149 ≤ k → k < 128 →
      (f a).2 = 0 ∧ finite (fp (f a).1) = true ∧ numOf (fp (f a).1) = 2 ^ k) ∧
    (∀ k : ℤ, finite (fp a) = true → numOf (fp a) = k → 128 ≤ k → f a = inf32 false (fOF + fNX)) ∧
    (∀ k : ℤ, finite (fp a) = true → numOf (fp a) = k → k < -150 → f a = (0, fUF + fNX)))) ∧
  ((∀ (ft : Nat) (x : W2) (s : State) (r : Running), s.m.curRun = some r → s.m.bad = [] →
    exec (.feval ft x) s = .next ⟨s.agenda, lanes s.m r x.g (fun t =>
      let v := fevalF ((lget (s.m.core r.core).fts ft).getD {}).bank (t.rd x.a).toNat
      fpPut r t x.d (BitVec.ofNat 32 v.1, v.2))⟩) ∧
  (∀ (s : State) (r : Running) (t : Thread) (g : Guard) (ft a fl : Nat), Escapes s r t g →
    ((t.rd a).toNat % 32 = 0 → padOk s.m t.gid (t.rd a).toNat 1056 = true →
      exec (.ftld g ft a fl) s = .next ⟨s.agenda, creditWord (s.m.updCore r.core (fun k =>
        { k with ftlds := k.ftlds ++ [⟨t.gid, t.tix, ft, (t.rd a).toNat, r.flag fl⟩] })) r t 6 1⟩) ∧
    ((t.rd a).toNat % 32 ≠ 0 →
      exec (.ftld g ft a fl) s = .next ⟨s.agenda, withThread s.m t (raised (misalignAt r (t.rd a).toNat 1056 1))⟩)) ∧
  (∀ (s : State) (core ft : Nat) (x : Ftld), (s.m.core core).ftlds.find? (fun x => x.ft == ft) = some x → s.m.bad = [] →
    exec (.ftldFlip core ft) s = .next ⟨s.agenda, s.m.updCore core (fun k => { k with
      ftlds := k.ftlds.erase x
      fts := lput k.fts ft (((lget k.fts ft).getD {}).flip (padRead s.m x.gid x.off 1056)
        (ftValid (padRead s.m x.gid x.off 1056))) })⟩) ∧
  (∀ (f : Ft) (img : List Byte) (ok : Bool), (f.flip img ok).bank = (img, ok) ∧ (f.flip img ok).cur = !f.cur ∧
    (if f.cur then ((f.flip img ok).img1, (f.flip img ok).ok1) else ((f.flip img ok).img0, (f.flip img ok).ok0)) = f.bank) ∧
  (∀ (img : List Byte) (x : Word),
    fevalF (img, false) x.toNat = (0x7FC00000, fNV) ∧
    ((fp x).isNaN = true → fevalF (img, true) x.toNat = (0x7FC00000, if (fp x).isSig then fNV else 0)) ∧
    ((fp x).isInf = true → fevalF (img, true) x.toNat = (0x7FC00000, fNV)) ∧
    (let u := addF FP32 .ne x.toNat (BitVec.ofNat 32 (ftWord img 0) ^^^ 0x80000000).toNat
     let q := ⌊numOf (decodeF FP32 u.1) / 2 ^ ftExp img⌋
     ftWord img 0 < 2 ^ 32 → finite (fp x) = true → finite (decodeF FP32 u.1) = true →
      ((q < 0 ∨ 63 < q) → ftWord img 8 % 2 = 1 → fevalF (img, true) x.toNat = (0x7FC00000, u.2)) ∧
      (0 ≤ q ∧ q ≤ 63 ∨ ftWord img 8 % 2 = 0 → ∃ t : Nat × Nat,
        let s := (min (max q 0) 63).toNat
        let y2 := fmaF FP32 .ne (ftWord img (0x20 + 16 * s + 12)) t.1 (ftWord img (0x20 + 16 * s + 8))
        let y1 := fmaF FP32 .ne y2.1 t.1 (ftWord img (0x20 + 16 * s + 4))
        let y0 := fmaF FP32 .ne y1.1 t.1 (ftWord img (0x20 + 16 * s))
        (numOf (decodeF FP32 u.1) - s * 2 ^ ftExp img = 0 → (t.1 = 0 ∨ t.1 = 0x80000000) ∧ t.2 = 0) ∧
        (numOf (decodeF FP32 u.1) - s * 2 ^ ftExp img ≠ 0 →
          Rounds FP32 .ne (decide (numOf (decodeF FP32 u.1) - s * 2 ^ ftExp img < 0))
            ((numOf (decodeF FP32 u.1) - s * 2 ^ ftExp img : ℚ) : ℝ) t.1 t.2) ∧
        fevalF (img, true) x.toNat = (y0.1, u.2 ||| t.2 ||| y2.2 ||| y1.2 ||| y0.2)))))

/-- R133, R134 and R135: conversion through a format slot, and the dot products. -/
def Obligations.SlotWords : Prop :=
  (∀ (x : Cv) (s : State) (r : Running) (el : Elem), s.m.curRun = some r →
    slotOf (s.m.recOf r.gid).slots x.slot = some el → el ≠ .fa48 →
    exec (.ncvt x) s = .next ⟨s.agenda, lanes s.m r x.g (fun t =>
      fpPut r t x.d (putPacked el.bits (t.rd x.d) x.pos (toElem el ((fp (t.rd x.a)).mul (fp (t.rd x.b)))).1,
        (toElem el ((fp (t.rd x.a)).mul (fp (t.rd x.b)))).2 ||| productNV (fp (t.rd x.a)) (fp (t.rd x.b))))⟩) ∧
  (∀ (x : Cv) (s : State) (r : Running), s.m.curRun = some r →
    slotOf (s.m.recOf r.gid).slots x.slot = some .fa48 →
    exec (.ncvt x) s = .next ⟨s.agenda, lanes s.m r x.g (fun t =>
      let v := toElem .fa48 ((fp (t.rd x.a)).mul (fp (t.rd x.b)))
      let fl := v.2 ||| productNV (fp (t.rd x.a)) (fp (t.rd x.b))
      Thread.arithTrap r ((t.wrD x.d (BitVec.ofNat 64 v.1)).setFlags fl) (.pair x.d) 0 (hiW (BitVec.ofNat 64 v.1)) fl)⟩) ∧
  (∀ (x : Cv) (s : State) (r : Running) (el : Elem), s.m.curRun = some r →
    slotOf (s.m.recOf r.gid).slots x.slot = some el → s.m.bad = [] →
    exec (.nunp x) s = .next ⟨s.agenda, lanes s.m r x.g (fun t =>
      let a := decodeE el (codeTab s.m r.core) (packedAt el t x.a x.pos)
      fpPut r t x.d (BitVec.ofNat 32 (roundV FP32 .ne (a.mul (fp (t.rd x.b)))).1,
        (roundV FP32 .ne (a.mul (fp (t.rd x.b)))).2 ||| productNV a (fp (t.rd x.b))))⟩) ∧
  (∀ i n, (i, n) ∈ [(Instr.dot4, 4), (.dot8, 8)] →
    ∀ (x : Dot) (s : State) (r : Running) (ea eb : Elem), s.m.curRun = some r →
    slotOf (s.m.recOf r.gid).slots x.sa = some ea → slotOf (s.m.recOf r.gid).slots x.sb = some eb →
    exec (i x) s = .next ⟨s.agenda, lanes s.m r x.g (fun t =>
      let v := dotF ea eb (codeTab s.m r.core) n (t.rd x.a) (t.rd x.b) (t.rd x.c).toNat (t.rd (x.c + 1)).toNat
      fpPut r t x.d (BitVec.ofNat 32 v.1, v.2))⟩) ∧
  (∀ (bits pos code i : Nat) (old : Word), bits * pos + bits ≤ 32 → i < 32 →
    (putPacked bits old pos code).getLsbD i =
      if bits * pos ≤ i ∧ i < bits * pos + bits then code.testBit (i - bits * pos) else old.getLsbD i) ∧
  (∀ (ea eb : Elem) (tab : List Nat) (n : Nat) (a b c sc : Word),
    let A i := decodeE ea tab (a.toNat / 2 ^ (ea.bits * i) % 2 ^ ea.bits)
    let B i := decodeE eb tab (b.toNat / 2 ^ (eb.bits * i) % 2 ^ eb.bits)
    let sum := ((List.range n).map (fun i => numOf (A i) * numOf (B i))).sum
    (∀ i < n, finite (A i) = true ∧ finite (B i) = true) → finite (fp c) = true → finite (fp sc) = true →
    numOf (fp c) + numOf (fp sc) * sum ≠ 0 →
    Rounds32 .ne ((numOf (fp c) + numOf (fp sc) * sum : ℚ) : ℝ)
      (BitVec.ofNat 32 (dotF ea eb tab n a b c.toNat sc.toNat).1, (dotF ea eb tab n a b c.toNat sc.toNat).2)) ∧
  dotF .q8f .q8i [] 4 0x7F30C03C 0x00FC0302 0x41200000 0x3E800000 = (0x410C0000, 0) ∧
  (toElem .q8f ((decodeF FP32 0x45680000).mul (decodeF FP32 0x3E000000))) = (0x7E, fNX) ∧
  putPacked 8 0x11111111 1 0x7E = 0x11117E11

/-- R119 with Tables 6-1 and 6-2: flags are sticky, and an enabled one takes the thread out of its pack at the
following word, with ARITH and its arguments waiting for the delivery. Where it rests on a reading or a choice of the
model, that is logs 6 and 14. -/
def Obligations.ArithTrap : Prop :=
  ∀ (r : Running) (t : Thread) (d : Dest) (op fl : Nat) (v : Word), fl < 32 →
    t.setFlags fl = { t with fstat := t.fstat ||| BitVec.ofNat 32 fl } ∧
    (t.fctl &&& BitVec.ofNat 32 fl = 0 → Thread.arithTrap r t d op v fl = t) ∧
    (t.fctl &&& BitVec.ofNat 32 fl ≠ 0 → ∃ x : Raise, Thread.arithTrap r t d op v fl = raised x t ∧
      x.eff = 3 ∧ x.a0 = BitVec.ofNat 64 r.hdr ∧ x.a1 = BitVec.ofNat 64 op ∧
      x.a2 = BitVec.ofNat 64 (r.idx % 16) ||| BitVec.ofNat 64 fl <<< 8 |||
        (t.fctl &&& BitVec.ofNat 32 fl).zeroExtend 64 <<< 16 ∧
      x.a3 = v.zeroExtend 64 ∧ x.save = r.after 1 ∧ x.word = r.here ∧ x.dest = some d ∧ x.cmd = none) ∧
    r.after 1 = (if r.idx + 1 ≤ r.count then ⟨r.hdr, r.idx + 1⟩ else ⟨(r.hdr + 8 * (r.count + 2)) % 2 ^ 64, 0⟩)

/-- R145 and R146, with R144's link: where each control transfer takes its thread; and MISALIGN with the position left
at the instruction. Where it rests on a reading or a choice of the model, that is log 14. -/
def Obligations.Branches : Prop :=
  ∀ (s : State) (r : Running) (t : Thread) (g : Guard), Alone s r t g →
    (∀ n : Int, exec (.bra g n) s = .next ⟨s.agenda,
      withThread s.m t (landedAt (BitVec.ofNat 64 r.hdr + BitVec.ofInt 64 (8 * n)).toNat)⟩) ∧
    (∀ n : Int, exec (.call g n) s = .next ⟨s.agenda, withThread s.m t (fun u =>
      landedAt (BitVec.ofNat 64 r.hdr + BitVec.ofInt 64 (8 * n)).toNat (u.wrD 2 (linkOf r)))⟩) ∧
    (∀ a d, (t.rdD a).toNat % 8 = 0 →
      exec (.jmp g a) s = .next ⟨s.agenda, withThread s.m t (landedAt (t.rdD a).toNat)⟩ ∧
      exec (.ret g a) s = .next ⟨s.agenda, withThread s.m t (landedAt (t.rdD a).toNat)⟩ ∧
      exec (.callr g d a) s = .next ⟨s.agenda, withThread s.m t (fun u => landedAt (t.rdD a).toNat (u.wrD d (linkOf r)))⟩) ∧
    (∀ a d i, (t.rdD a).toNat % 8 ≠ 0 → i ∈ [Instr.jmp g a, .ret g a, .callr g d a] →
      exec i s = .next ⟨s.agenda, withThread s.m t (raised {
        eff := 2, a0 := BitVec.ofNat 64 r.hdr,
        a1 := BitVec.ofNat 64 r.idx, a2 := t.rdD a, a3 := 0, save := ⟨r.hdr, r.idx⟩, word := ⟨r.hdr, r.idx⟩ })⟩)

/-- R149 to R152: arming, waiting and the release. R153: a rejoin cycle is released with REJOIN.CYCLE and its barriers
are cleared; what is no cycle is left alone. The numbers of new objects (`nextId`) are the model's (log 1). Where it
rests on a reading or a choice of the model, that is log 32. -/
def Obligations.RejoinBarriers : Prop :=
  ((∀ (s : State) (r : Running) (t : Thread) (g : Guard) (j a : Nat), Alone s r t g →
    exec (.rjarm g j a) s = .next ⟨s.agenda, withGroup s.m t.gid (fun x => x.setRejoin j (t.tix / 32)
      { x.rejoin j (t.tix / 32) with named := (x.rejoin j (t.tix / 32)).named ||| t.rd a })⟩) ∧
  (∀ (s : State) (r : Running) (t : Thread) (g : Guard) (j : Nat) (x : Group), Alone s r t g →
    s.m.group? t.gid = some x →
    ((x.rejoin j (t.tix / 32)).named = 0 → exec (.rjwait g j) s = .next s) ∧
    ((x.rejoin j (t.tix / 32)).named ≠ 0 → exec (.rjwait g j) s = .next ⟨s.agenda,
      rejoinRelease (withThread
        (withGroup s.m t.gid (fun y => y.setRejoin j (t.tix / 32) { x.rejoin j (t.tix / 32) with
          arrived := (x.rejoin j (t.tix / 32)).arrived ||| (1#32 <<< (t.tix % 32)) })) t
        (leftPack (.waiting (.rejoin j ⟨r.hdr, r.idx⟩)) ⟨(linkOf r).toNat, 0⟩)) t.gid j (t.tix / 32)⟩)) ∧
  (∀ (m : Mach) (gid j ls : Nat) (x : Group), m.group? gid = some x →
    ((∀ i, i < 32 → (x.rejoin j ls).named.getLsbD i = true →
        (x.rejoin j ls).arrived.getLsbD i = true ∨ ¬ present m gid ls i) → (x.rejoin j ls).named ≠ 0 →
      rejoinRelease m gid j ls = { m with
        nextId := m.nextId + 1
        groups := m.groups.map (fun y => if y.gid == gid then y.setRejoin j ls {} else y)
        threads := m.threads.map (fun u => match inRjwait u with
          | some (i, _) => if u.gid = gid ∧ u.tix / 32 = ls ∧ i = j then
              { u with stat := .ready, landed := false, pack := m.nextId + 1 } else u
          | none => u) }) ∧
    (∀ i, i < 32 → (x.rejoin j ls).named.getLsbD i = true → (x.rejoin j ls).arrived.getLsbD i = false →
      present m gid ls i → rejoinRelease m gid j ls = m)) ∧
  (∀ (x : Group) (j ls i k : Nat) (v : Rejoin), ls < 32 → k < 32 →
    (x.setRejoin j ls v).rejoin i k = (if i = j ∧ k = ls then v else x.rejoin i k) ∧
    x.setRejoin j ls v = { x with rj := (x.setRejoin j ls v).rj })) ∧
  (∀ (s : State) (gid : Nat) (tixs : List Nat) (g : Group) (ts : List Thread), s.m.group? gid = some g →
    tixs.map (fun i => s.m.thread? gid i) = ts.map some → tixs.Pairwise (· < ·) → (∀ i ∈ tixs, i < 1024) →
    (IsCycle s.m g ts → ∃ m', exec (.rejoinCycleDetect gid tixs) s = .next ⟨s.agenda, m'⟩ ∧
      m' = { s.m with threads := m'.threads, groups := m'.groups } ∧
      (∀ t ∈ ts, ∀ j p, inRjwait t = some (j, p) → ∃ mask : Word,
        IsMask mask (ts.filter (fun u => u.tix / 32 == t.tix / 32)) ∧
        m'.thread? gid t.tix = some (raised {
          eff := 7, a0 := BitVec.ofNat 64 p.hdr, a1 := BitVec.ofNat 64 j,
          a2 := mask.zeroExtend 64, a3 := BitVec.ofNat 64 ts.length, save := t.pos, word := p } t)) ∧
      (∀ h i, ¬ (h = gid ∧ i ∈ tixs) → m'.thread? h i = s.m.thread? h i) ∧
      (∀ h, h ≠ gid → m'.group? h = s.m.group? h) ∧
      ∃ g', m'.group? gid = some g' ∧ g' = { g with rj := g'.rj } ∧
        (∀ j ls, ls < 32 → ((∃ t ∈ ts, ∃ p, inRjwait t = some (j, p) ∧ t.tix / 32 = ls) → g'.rejoin j ls = {}) ∧
          ((∀ t ∈ ts, ∀ p, ¬ (inRjwait t = some (j, p) ∧ t.tix / 32 = ls)) → g'.rejoin j ls = g.rejoin j ls))) ∧
    (¬ IsCycle s.m g ts → exec (.rejoinCycleDetect gid tixs) s = .next s))

/-- R147, R154 and R148: the end of a thread, a breakpoint and a yield. Where it rests on a reading or a choice of the
model, that is log 33. -/
def Obligations.ThreadEnd : Prop :=
  ∀ (s : State) (r : Running) (t : Thread) (g : Guard), Alone s r t g →
    ((∀ c ∈ (s.m.core r.core).copies, ¬ (c.gid = t.gid ∧ c.tix = t.tix ∧ c.stopped.isSome = true)) →
      haltedFor s.m t (fun _ => true) = none →
      ((∀ n, n < 12 → flagCount s.m t n = 0) → exec (.exit g) s = .next ⟨s.agenda,
        (List.range 16).foldl (fun m j => rejoinRelease m t.gid j (t.tix / 32))
          (withThread s.m t (leftPack .exited ⟨(linkOf r).toNat, 0⟩))⟩) ∧
      (∀ n, n < 12 → flagCount s.m t n ≠ 0 →
        exec (.exit g) s = .next ⟨s.agenda, withThread s.m t (fun u =>
          { leftPack .held ⟨r.hdr, r.idx⟩ u with holdW := 4095, holdS := [] })⟩)) ∧
    (∀ n, exec (.brk g n) s = .next ⟨s.agenda, withThread s.m t (raised {
      eff := 11, a0 := BitVec.ofNat 64 r.hdr,
      a1 := BitVec.ofNat 64 r.idx, a2 := BitVec.ofNat 64 n, a3 := 0, save := ⟨(linkOf r).toNat, 0⟩,
      word := ⟨r.hdr, r.idx⟩ })⟩) ∧
    exec (.yield g) s = .next ⟨s.agenda, lanes s.m r g (fun u => { u with demoted := true, pack := 0 })⟩

/-- R50, R142 and R68: a core starts a clause for a pack, holds a thread whose flags refuse the start, or raises
ILLEGAL. The numbers of new objects (`nextId`) are the model's (log 1). Where it rests on a reading or a choice of the
model, that is logs 21, 29, 78 and 92. -/
def Obligations.ClauseIssue : Prop :=
  (∀ (s : State) (core gid : Nat) (tixs : List Nat) (ts : List Thread) (t : Thread) (m : Mach) (code : List Nat),
    tixs.map (fun i => s.m.thread? gid i) = ts.map some → ts.head? = some t →
    s.m.coreOf gid = core → groupRuns s.m gid = true → packOk s.m core gid tixs ts = true →
    mayIssue s.m core gid tixs ts = true → coreIssues s.m core = true →
    fetchClause s.m (whoOf s.m gid) t.pos.hdr = .ok m code →
    let h := Header.ofWord (code.headD 0)
    (h.legal = true → firstBad h (m.recOf gid) 16 0 (code.drop 1) = none → ts.any (startHeld m h) = false →
      exec (.clauseIssue core gid tixs) s = .next ⟨s.agenda, ({ m with
        nextId := m.nextId + 2
        running := m.running ++ [{
          rid := m.nextId + 1, core := core, gid := gid, hdr := t.pos.hdr, count := h.count,
          setA := h.setA, setB := h.setB, yield := h.yield, code := code.drop 1, idx := t.pos.idx, tixs := tixs, act := tixs }]
        threads := m.threads.map (fun u =>
          if u.gid = gid ∧ u.tix ∈ tixs then
            { u with
              stat := .issuing, pack := m.nextId + 1, ageing := 0, aged := false, poll := false, retrying := false
              demoted := u.demoted && decide (tixs.length = 1), nextChunk := none }
          else if u.gid = gid then { u with demoted := false } else u) } : Mach).updCore core (fun k =>
        { k with yielded := if h.yield then tixs.map (fun x => (gid, x)) else [] })⟩) ∧
    (∀ i w, h.legal = true → firstBad h (m.recOf gid) 16 0 (code.drop 1) = some (i, w) →
      exec (.clauseIssue core gid tixs) s = .next ⟨s.agenda, ts.foldl (fun m u => withThread m u (raised {
        eff := 1, a0 := BitVec.ofNat 64 t.pos.hdr, a1 := BitVec.ofNat 64 i, a2 := BitVec.ofNat 64 w, a3 := 0,
        save := t.pos, word := ⟨t.pos.hdr, min i 15⟩ })) m⟩) ∧
    (h.legal = false → exec (.clauseIssue core gid tixs) s = .next ⟨s.agenda, ts.foldl (fun m u => withThread m u
      (raised {
        eff := 1, a0 := BitVec.ofNat 64 t.pos.hdr, a1 := 16, a2 := BitVec.ofNat 64 (code.headD 0), a3 := 0,
        save := t.pos, word := ⟨t.pos.hdr, 15⟩ })) m⟩) ∧
    (h.legal = true → firstBad h (m.recOf gid) 16 0 (code.drop 1) = none → ts = [t] → startHeld m h t = true →
      waitsOnFault m h t = none → haltedFor m t (fun x => match x.flag with | some n => bit h.wait n | none => false) = none →
      exec (.clauseIssue core gid tixs) s = .next ⟨s.agenda, withThread m t (fun u =>
        { u with stat := .held, pack := 0, holdW := h.wait, holdS := [h.setA, h.setB] })⟩) ∧
    (∀ f, h.wait / 2 ^ f % 2 = 1 → f < 12 → flagCount m t f ≠ 0 → startHeld m h t = true)) ∧
  (∀ (s : State) (gid tix : Nat) (t : Thread), s.m.thread? gid tix = some t → 
    exec (.ageingThreshold gid tix) s = .next ⟨s.agenda, withThread s.m t (fun u =>
      if u.stat = .ready ∧ 4096 ≤ u.ageing then { u with aged := true } else u)⟩)

/-- R159, R160, R166 and R167: loads, stores and prefetches of global memory, and the arrival of a loaded value. Where
it rests on a reading or a choice of the model, that is logs 11, 14, 15, 88 and 89. -/
def Obligations.LoadsAndStores : Prop :=
  (∀ (s : State) (r : Running) (t : Thread) (x : Ldg), Alone s r t x.g →
    let ea := globalEa t x.a x.off
    MayAccess s.m r t (· == 3) ea →
    (ea % sizeN x.sz ≠ 0 → exec (.ld x) s = .next ⟨s.agenda,
      accessed s.m r t (· == 3) ea (withThread s.m t (raised (misalignAt r ea (sizeN x.sz) 1)))⟩) ∧
    (∀ e, ea % sizeN x.sz = 0 → gRead s.m (whoOf s.m t.gid) .load x.sc ea (sizeN x.sz) = .error e →
      exec (.ld x) s = .next ⟨s.agenda, accessed s.m r t (· == 3) ea (stopped s.m r t 0 ea e)⟩) ∧
    (∀ m bs, ea % sizeN x.sz = 0 → gRead s.m (whoOf s.m t.gid) .load x.sc ea (sizeN x.sz) = .ok (m, bs) →
      exec (.ld x) s = .next ⟨s.agenda, accessed s.m r t (· == 3) ea
        (let m' := withLoad m t (loadRegs x.d x.sz x.sx bs) (r.flag x.sel) (fun u => { u with poll := u.poll || x.poll })
         if x.acq && ordActs s.m t ea then acqDo m' r.core (scopeNum x.sc) else m')⟩)) ∧
  (∀ (s : State) (r : Running) (t : Thread) (x : Stg), Alone s r t x.g →
    let ea := globalEa t x.a x.off
    MayAccess s.m r t (· != 0) ea →
    (ea % sizeN x.sz ≠ 0 → exec (.st x) s = .next ⟨s.agenda,
      accessed s.m r t (· != 0) ea (withThread s.m t (raised (misalignAt r ea (sizeN x.sz) 1)))⟩) ∧
    (∀ e, ea % sizeN x.sz = 0 → (x.rel && ordActs s.m t ea) = false →
      gWrite s.m (whoOf s.m t.gid) x.sc t.gid t.tix ea (storeBytes t x.b x.sz) = .error e →
      exec (.st x) s = .next ⟨s.agenda, accessed s.m r t (· != 0) ea (stopped s.m r t 1 ea e)⟩) ∧
    (∀ m m' y, ea % sizeN x.sz = 0 → (x.rel && ordActs s.m t ea) = false →
      gWrite s.m (whoOf s.m t.gid) x.sc t.gid t.tix ea (storeBytes t x.b x.sz) = .ok m →
      translate s.m (whoOf s.m t.gid) .store ea = .ok (m', y) → ¬ (y.cls = 0 ∧ writeFull s.m r.core y = true) →
      exec (.st x) s = .next ⟨s.agenda, accessed s.m r t (· != 0) ea m⟩) ∧
    (∀ m m' y, ea % sizeN x.sz = 0 → (x.rel && ordActs s.m t ea) = false →
      gWrite s.m (whoOf s.m t.gid) x.sc t.gid t.tix ea (storeBytes t x.b x.sz) = .ok m →
      translate s.m (whoOf s.m t.gid) .store ea = .ok (m', y) → y.cls = 0 → writeFull s.m r.core y = true →
      exec (.st x) s = .next ⟨s.agenda, accessed s.m r t (· != 0) ea (wordEscapes s.m r t 3)⟩) ∧
    (ea % sizeN x.sz = 0 → (x.rel && ordActs s.m t ea) = true → relReady s.m t (scopeNum x.sc) = false →
      exec (.st x) s = .next ⟨s.agenda, stalled s.m r t⟩) ∧
    (∀ m, ea % sizeN x.sz = 0 → (x.rel && ordActs s.m t ea) = true → relReady s.m t (scopeNum x.sc) = true →
      gWrite (relPush s.m r.core (scopeNum x.sc)) (whoOf s.m t.gid) x.sc t.gid t.tix ea (storeBytes t x.b x.sz) = .ok m →
      (∀ m' y, translate (relPush s.m r.core (scopeNum x.sc)) (whoOf s.m t.gid) .store ea = .ok (m', y) → y.cls ≠ 0) →
      exec (.st x) s = .next ⟨s.agenda, accessed s.m r t (· != 0) ea m⟩)) ∧
  (∀ (s : State) (r : Running) (t : Thread) (g : Guard) (sc : Scope) (a : Nat) (off : Int), Alone s r t g →
    ∃ m, exec (.pref g sc a off) s = .next ⟨s.agenda, m⟩ ∧ m.groups = s.m.groups ∧
      m.running = s.m.running ∧ (∀ c, (m.core c).openC = (s.m.core c).openC) ∧
      ((∀ c ∈ [r.core, s.m.coreOf t.gid], (∀ y ∈ (s.m.core c).lines, y.cls = 1 → y.clean = true) ∧
        ∀ y ∈ s.m.cluster (clusterOf c), y.clean = true) → m.mem = s.m.mem ∧ m.threads = s.m.threads) ∧
      (∀ e, translate s.m (whoOf s.m t.gid) .load (globalEa t a off) = .error e → m = s.m)) ∧
  (∀ (s : State) (gid tix id : Nat),
    let f (t : Thread) : Thread := match t.loads.find? (fun l => l.id == id) with
      | none => t
      | some l => { t with w := l.regs.foldl (fun w e => rput w e.1 e.2) t.w, loads := t.loads.filter (fun l => l.id != id) }
    exec (.loadDataArrive gid tix id) s = .next ⟨s.agenda,
      { s.m with
        threads := s.m.threads.map (fun t => if t.gid == gid && t.tix == tix then f t else t)
        cores := lput s.m.cores (s.m.coreOf gid)
          (let k := s.m.core (s.m.coreOf gid)
           let g (t : Thread) : Thread := if t.gid == gid && t.tix == tix then f t else t
           { k with
             ck := { k.ck with threads := k.ck.threads.map g }
             comCk := { k.comCk with threads := k.comCk.threads.map g } }) }⟩)

/-- R161, R164, R166 and Table 8-2: the bytes of a register and of memory, and which bytes an access reads or writes
in each order class. Where it rests on a reading or a choice of the model, that is logs 2, 11, 12, 57 and 66. -/
def Obligations.AccessValues : Prop :=
  (∀ (t : Thread) (b d : Nat) (sx : Bool),
    storeBytes t b .byte = [(t.rd b).extractLsb' 0 8] ∧
    storeBytes t b .half = [(t.rd b).extractLsb' 0 8, (t.rd b).extractLsb' 8 8] ∧
    storeBytes t b .word = (List.range 4).map (fun i => (t.rd b).extractLsb' (8 * i) 8) ∧
    storeBytes t b .dword = storeBytes t b .word ++ storeBytes t (b + 1) .word ∧
    storeBytes t b .quad = storeBytes t b .dword ++ storeBytes t (b + 2) .dword ∧
    loadRegs d .byte sx (storeBytes t b .byte) =
      [(d, if sx then ((t.rd b).truncate 8).signExtend 32 else ((t.rd b).truncate 8).zeroExtend 32)] ∧
    loadRegs d .half sx (storeBytes t b .half) =
      [(d, if sx then ((t.rd b).truncate 16).signExtend 32 else ((t.rd b).truncate 16).zeroExtend 32)] ∧
    loadRegs d .word sx (storeBytes t b .word) = [(d, t.rd b)] ∧
    loadRegs d .dword sx (storeBytes t b .dword) = [(d, t.rd b), (d + 1, t.rd (b + 1))] ∧
    loadRegs d .quad sx (storeBytes t b .quad) =
      [(d, t.rd b), (d + 1, t.rd (b + 1)), (d + 2, t.rd (b + 2)), (d + 3, t.rd (b + 3))]) ∧
  (∀ (m m' : Mach) (who : Who) (acc : Acc) (sc : Scope) (va n : Nat) (bs : List Byte),
    gRead m who acc sc va n = .ok (m', bs) → ∃ m1 x, translate m who acc va = .ok (m1, x) ∧
      (x.cls = 0 → bs = (List.range n).map (fun i => chunkByte m' who.core (x.pa + i)) ∧
        (x.pa / x.grain * x.grain, x.grain) ∈ (m'.core who.core).openC.rd ∧
        (m'.core who.core).openC.cells = (m.core who.core).openC.cells ∧
        ((∀ y ∈ (m.core who.core).lines, y.cls = 0) → m'.mem = m.mem)) ∧
      (x.cls = 2 ∨ x.cls = 3 → m' = m1 ∧ m'.mem = m.mem ∧ (deviceMem x.pa = true →
        bs = (List.range n).map (fun i => cget m.mem (x.pa + i))))) ∧
  (∀ (m m' : Mach) (who : Who) (sc : Scope) (gid tix va : Nat) (bs : List Byte),
    gWrite m who sc gid tix va bs = .ok m' → ∃ m1 x, translate m who .store va = .ok (m1, x) ∧
      (x.cls = 0 → (x.pa / x.grain * x.grain, x.grain) ∈ (m'.core who.core).openC.wr ∧
        ((∀ y ∈ (m.core who.core).lines, y.cls = 0) → m'.mem = m.mem ∧
          (∀ i, i < bs.length → chunkByte m' who.core (x.pa + i) = bs.getD i 0) ∧
          (∀ a, a < x.pa ∨ x.pa + bs.length ≤ a → chunkByte m' who.core a = chunkByte m who.core a))) ∧
      (x.cls = 2 ∨ (x.cls = 3 ∧ deviceMem x.pa = true) →
        (∀ i, i < bs.length → cget m'.mem (x.pa + i) = bs.getD i 0) ∧
        (∀ a, a < x.pa ∨ x.pa + bs.length ≤ a → cget m'.mem a = cget m.mem a)) ∧
      (x.cls = 2 → ∀ d ∈ who.part, d ≠ who.die → ∃ y ∈ m'.repls, y.die = d ∧ y.pa = replica x.pa d ∧ y.data = bs))

/-- R171 with Table 8-7, and R175 with Table 8-8: the value each atomic operation leaves, and where an atomic is
performed on direct and chunked pages. R160 and R172 to R174: `atom`, `red` and `atoms`. Where it rests on a reading
or a choice of the model, that is logs 11, 14 and 15. -/
def Obligations.AtomicOperations : Prop :=
  ((∀ (w n : Nat) (a b : BitVec w) (e : Nat), (n, w) ∈ [(4, 32), (8, 64)] →
    atomNew .swap n a.toNat b.toNat e = b.toNat ∧
    atomNew .cas n a.toNat b.toNat e = (if a.toNat = e then b.toNat else a.toNat) ∧
    atomNew .add n a.toNat b.toNat e = (a + b).toNat ∧
    atomNew .and n a.toNat b.toNat e = (a &&& b).toNat ∧
    atomNew .or n a.toNat b.toNat e = (a ||| b).toNat ∧
    atomNew .xor n a.toNat b.toNat e = (a ^^^ b).toNat ∧
    atomNew .min n a.toNat b.toNat e = (if b.toInt < a.toInt then b else a).toNat ∧
    atomNew .max n a.toNat b.toNat e = (if a.toInt < b.toInt then b else a).toNat ∧
    atomNew .minu n a.toNat b.toNat e = (if b.toNat < a.toNat then b else a).toNat ∧
    atomNew .maxu n a.toNat b.toNat e = (if a.toNat < b.toNat then b else a).toNat) ∧
  (∃ f, IsSum f ∧ ∀ (a b : Word) (e : Nat), BitVec.ofNat 32 (atomNew .addF32 4 a.toNat b.toNat e) = (f .ne a b).1) ∧
  (∀ (a b : Word) (e : Nat), (fp a).isNaN = false → (fp b).isNaN = false →
    (Less (fp a) (fp b) ∨ ZeroBelow (fp a) (fp b) → atomNew .minF32 4 a.toNat b.toNat e = a.toNat ∧ atomNew .maxF32 4 a.toNat b.toNat e = b.toNat) ∧
    (Less (fp b) (fp a) ∨ ZeroBelow (fp b) (fp a) → atomNew .minF32 4 a.toNat b.toNat e = b.toNat ∧ atomNew .maxF32 4 a.toNat b.toNat e = a.toNat)) ∧
  (∀ (m m' : Mach) (who : Who) (sc : Scope) (ea n old : Nat) (f : Nat → Nat), atomAt m who sc ea n f = .done m' old →
    ∃ m1 x, translate m who .atomic ea = .ok (m1, x) ∧ x.cls ≠ 2 ∧
      (x.cls = 0 ∨ (x.cls = 3 ∧ deviceMem x.pa = true) →
        old = bytesNat (cread m.mem x.pa n) ∧
        (∀ i, i < n → cget m'.mem (x.pa + i) = BitVec.ofNat 8 (f old / 256 ^ i)) ∧
        (∀ a, a < x.pa ∨ x.pa + n ≤ a → cget m'.mem a = cget m.mem a)) ∧
      (x.cls = 0 → ∀ p, m.partOf who.die = some p → m.part? p.pid = some p → (m'.core who.core).mark = p.grants + 1))) ∧
  ((∀ (s : State) (r : Running) (t : Thread) (x : Atm), Alone s r t x.g →
    let ea := globalEa t x.a x.off
    let v := atomOperands x.op t x.b x.sz
    let f := fun old => atomNew x.op (sizeN x.sz) old v.1 v.2
    MayAccess s.m r t (· != 2) ea →
    (ea % sizeN x.sz ≠ 0 → exec (.atom x) s = .next ⟨s.agenda,
      accessed s.m r t (· != 2) ea (withThread s.m t (raised (misalignAt r ea (sizeN x.sz) 1)))⟩) ∧
    (∀ e, ea % sizeN x.sz = 0 → atomAt s.m (whoOf s.m t.gid) x.sc ea (sizeN x.sz) f = .err e →
      exec (.atom x) s = .next ⟨s.agenda, accessed s.m r t (· != 2) ea (stopped s.m r t 2 ea e)⟩) ∧
    (ea % sizeN x.sz = 0 → atomAt s.m (whoOf s.m t.gid) x.sc ea (sizeN x.sz) f = .wait →
      exec (.atom x) s = .next ⟨s.agenda, accessed s.m r t (· != 2) ea (stalled s.m r t)⟩) ∧
    (∀ m old, ea % sizeN x.sz = 0 → atomAt s.m (whoOf s.m t.gid) x.sc ea (sizeN x.sz) f = .done m old →
      exec (.atom x) s = .next ⟨s.agenda, accessed s.m r t (· != 2) ea
        (withLoad m t (loadRegs x.d x.sz false (natBytes (sizeN x.sz) old)) (r.flag x.sel)
          (fun u => if x.op = .cas ∧ old ≠ v.2 then { u with demoted := true } else u))⟩)) ∧
  (∀ (s : State) (r : Running) (t : Thread) (x : Rdg), Alone s r t x.g →
    let ea := globalEa t x.a x.off
    let v := atomOperands x.op t x.b x.sz
    let f := fun old => atomNew x.op (sizeN x.sz) old v.1 v.2
    let esc := fun c => c == 1 || c == 3
    let who := whoOf s.m t.gid
    MayAccess s.m r t esc ea →
    (ea % sizeN x.sz ≠ 0 → exec (.red x) s = .next ⟨s.agenda,
      accessed s.m r t esc ea (withThread s.m t (raised (misalignAt r ea (sizeN x.sz) 1)))⟩) ∧
    (ea % sizeN x.sz = 0 → x.rel = true → pageClass s.m who ea = some 1 → relReady s.m t (scopeNum x.sc) = false →
      exec (.red x) s = .next ⟨s.agenda, stalled s.m r t⟩) ∧
    (((x.rel && ordActs s.m t ea) = true → relReady s.m t (scopeNum x.sc) = true) →
    ∀ m0 : Mach, m0 = (if x.rel && ordActs s.m t ea then relPush s.m r.core (scopeNum x.sc) else s.m) →
    (∀ m y, ea % sizeN x.sz = 0 → translate m0 who .atomic ea = .ok (m, y) → y.cls = 0 →
      reachable m .atomic who.die y.pa (sizeN x.sz) = .ok () →
      (m0.core r.core).comC = none → (m0.core r.core).openC.reds.length < 1024 →
      exec (.red x) s = .next ⟨s.agenda, accessed s.m r t esc ea (m.updCore r.core (fun k => { k with
        openC := { k.openC.page who.asid ea with
                   reds := k.openC.reds ++ [⟨y.pa, x.op, sizeN x.sz, v.1, y.grain⟩] } }))⟩) ∧
    (∀ m y, ea % sizeN x.sz = 0 → translate m0 who .atomic ea = .ok (m, y) → y.cls = 0 →
      reachable m .atomic who.die y.pa (sizeN x.sz) = .ok () → 1024 ≤ (m0.core r.core).openC.reds.length →
      exec (.red x) s = .next ⟨s.agenda, accessed s.m r t esc ea (wordEscapes m0 r t 3)⟩) ∧
    (∀ m y m' old, ea % sizeN x.sz = 0 → translate m0 who .atomic ea = .ok (m, y) → y.cls ≠ 0 →
      deviceMem y.pa = true → atomAt m0 who x.sc ea (sizeN x.sz) f = .done m' old →
      exec (.red x) s = .next ⟨s.agenda, accessed s.m r t esc ea m'⟩))) ∧
  (∀ (s : State) (r : Running) (t : Thread) (x : Atm), Alone s r t x.g →
    let ea := scratchEa t x.a x.off
    let v := atomOperands x.op t x.b x.sz
    let old := bytesNat (padRead s.m t.gid ea (sizeN x.sz))
    (ea % sizeN x.sz ≠ 0 → exec (.atoms x) s = .next ⟨s.agenda,
      withThread s.m t (raised (misalignAt r ea (sizeN x.sz) 1))⟩) ∧
    (ea % sizeN x.sz = 0 → padIn s.m t.gid ea (sizeN x.sz) = false → exec (.atoms x) s = .next ⟨s.agenda,
      superFault s.m t 2 0x0203 2 0 ea ⟨r.hdr, r.idx⟩⟩) ∧
    (ea % sizeN x.sz = 0 → padOk s.m t.gid ea (sizeN x.sz) = true → undoFull s.m r.core t.gid ea (sizeN x.sz) = true →
      exec (.atoms x) s = .next ⟨s.agenda, wordEscapes s.m r t 4⟩) ∧
    (ea % sizeN x.sz = 0 → padOk s.m t.gid ea (sizeN x.sz) = true → undoFull s.m r.core t.gid ea (sizeN x.sz) = false →
      exec (.atoms x) s = .next ⟨s.agenda,
        withLoad (padWrite s.m r.core t.gid ea (natBytes (sizeN x.sz) (atomNew x.op (sizeN x.sz) old v.1 v.2))) t
          (loadRegs x.d x.sz false (natBytes (sizeN x.sz) old)) (r.flag x.sel)
          (fun u => if x.op = .cas ∧ old ≠ v.2 then { u with demoted := true } else u)⟩)))

/-- R160, R168, R169 and R170: the scratchpad of the thread's own group and of a peer of its cluster set. The numbers
of new objects (`nextId`) are the model's (log 1). Where it rests on a reading or a choice of the model, that is logs
14 and 67. -/
def Obligations.Scratchpad : Prop :=
  (∀ (s : State) (r : Running) (t : Thread) (x : Lds), Alone s r t x.g →
    let ea := scratchEa t x.a x.off
    (ea % sizeN x.sz ≠ 0 → ∀ i ∈ [Instr.lds x, .ldx x], exec i s = .next ⟨s.agenda,
      withThread s.m t (raised (misalignAt r ea (sizeN x.sz) 1))⟩) ∧
    (ea % sizeN x.sz = 0 → padIn s.m t.gid ea (sizeN x.sz) = false → exec (.lds x) s = .next ⟨s.agenda,
      superFault s.m t 2 0x0203 0 0 ea ⟨r.hdr, r.idx⟩⟩) ∧
    (ea % sizeN x.sz = 0 → padOk s.m t.gid ea (sizeN x.sz) = true → exec (.lds x) s = .next ⟨s.agenda,
      withThread s.m t (fun u => { u with
        w := (loadRegs x.d x.sz x.sx (padRead s.m t.gid ea (sizeN x.sz))).foldl (fun w e => rput w e.1 e.2) u.w })⟩) ∧
    (ea % sizeN x.sz = 0 → peerOf s.m t.gid x.rank = none → exec (.ldx x) s = .next ⟨s.agenda,
      superFault s.m t 2 0x0203 0 0 ea ⟨r.hdr, r.idx⟩⟩) ∧
    (∀ p, ea % sizeN x.sz = 0 → peerOf s.m t.gid x.rank = some p → padOk s.m p ea (sizeN x.sz) = true →
      exec (.ldx x) s = .next ⟨s.agenda,
        withLoad s.m t (loadRegs x.d x.sz x.sx (padRead s.m p ea (sizeN x.sz))) (r.flag x.sel) id⟩)) ∧
  (∀ (s : State) (r : Running) (t : Thread) (x : Sts), Alone s r t x.g →
    let ea := scratchEa t x.a x.off
    (ea % sizeN x.sz ≠ 0 → exec (.sts x) s = .next ⟨s.agenda,
      withThread s.m t (raised (misalignAt r ea (sizeN x.sz) 1))⟩) ∧
    (ea % sizeN x.sz = 0 → padIn s.m t.gid ea (sizeN x.sz) = false → exec (.sts x) s = .next ⟨s.agenda,
      superFault s.m t 2 0x0203 1 0 ea ⟨r.hdr, r.idx⟩⟩) ∧
    (ea % sizeN x.sz = 0 → padOk s.m t.gid ea (sizeN x.sz) = true → undoFull s.m r.core t.gid ea (sizeN x.sz) = true →
      exec (.sts x) s = .next ⟨s.agenda, wordEscapes s.m r t 4⟩) ∧
    (ea % sizeN x.sz = 0 → padOk s.m t.gid ea (sizeN x.sz) = true → undoFull s.m r.core t.gid ea (sizeN x.sz) = false →
      exec (.sts x) s = .next ⟨s.agenda, padWrite s.m r.core t.gid ea (storeBytes t x.b x.sz)⟩)) ∧
  (∀ (s : State) (r : Running) (t : Thread) (x : Sts), Escapes s r t x.g →
    let ea := scratchEa t x.a x.off
    (∀ p, ea % sizeN x.sz = 0 → peerOf s.m t.gid x.rank = some p → padOk s.m p ea (sizeN x.sz) = true → t.prs < 65535 →
      exec (.stx x) s = .next ⟨s.agenda, creditWord (withThread { s.m with
        nextId := s.m.nextId + 1
        stxs := s.m.stxs ++ [⟨s.m.nextId, t.gid, t.tix, p, ea, storeBytes t x.b x.sz, false⟩] } t
          (fun u => { u with prs := u.prs + 1 })) r t 6 1⟩) ∧
    (∀ p, ea % sizeN x.sz = 0 → peerOf s.m t.gid x.rank = some p → padOk s.m p ea (sizeN x.sz) = true → 65535 ≤ t.prs →
      exec (.stx x) s = .next ⟨s.agenda, creditWord (stalled s.m r t) r t 6 1⟩) ∧
    (ea % sizeN x.sz = 0 → peerOf s.m t.gid x.rank = none → exec (.stx x) s = .next ⟨s.agenda,
      creditWord (superFault s.m t 2 0x0203 1 0 ea ⟨r.hdr, r.idx⟩) r t 6 1⟩)) ∧
  (∀ (s : State) (id : Nat) (x : Stx), s.m.stxs.find? (fun y => y.id == id) = some x → x.done = false →
    s.m.stxs.find? (fun y => y.gid == x.gid && y.tix == x.tix && y.toGid == x.toGid && !y.done) = some x →
    exec (.stxPerform id) s = .next ⟨s.agenda, padWriteOut { s.m with
      stxs := s.m.stxs.map (fun y => if y.id == id then { y with done := true } else y) } x.toGid x.off x.data⟩) ∧
  (∀ (s : State) (id : Nat) (x : Stx), s.m.stxs.find? (fun y => y.id == id && y.done) = some x →
    exec (.stxAck id) s = .next ⟨s.agenda, { s.m with
      stxs := s.m.stxs.filter (fun y => y.id != id)
      threads := s.m.threads.map (fun t =>
        if t.gid == x.gid && t.tix == x.tix then { t with prs := t.prs - 1 } else t) }⟩) ∧
  (∀ (m : Mach) (c gid off : Nat) (bs : List Byte) (g : Group), m.group? gid = some g → ∃ g', 
    (padWrite m c gid off bs).group? gid = some g' ∧ g' = { g with spad := g'.spad } ∧
    (∀ i, i < bs.length → cget g'.spad (off + i) = bs.getD i 0) ∧
    (∀ a, a < off ∨ off + bs.length ≤ a → cget g'.spad a = cget g.spad a) ∧
    (∀ h, h ≠ gid → (padWrite m c gid off bs).group? h = m.group? h) ∧ (padWrite m c gid off bs).mem = m.mem ∧
    (∀ o, off < 8 * o + 8 → 8 * o < off + bs.length →
      (∀ e ∈ (m.core c).openC.undo, ¬ (e.gid = gid ∧ e.off = 8 * o)) →
      ⟨gid, 8 * o, cread g.spad (8 * o) 8⟩ ∈ ((padWrite m c gid off bs).core c).openC.undo) ∧
    (∀ e ∈ (m.core c).openC.undo, e ∈ ((padWrite m c gid off bs).core c).openC.undo))

/-- R188 and R226: an escaping word in a chunk that is not empty leaves its pack and closes the chunk; in an empty
chunk its effect is credited to its thread's checkpointed state, and its group counts as escaped. Where it rests on a
reading or a choice of the model, that is logs 17 and 96. -/
def Obligations.EscapingWords : Prop :=
  (∀ (i : Instr) (c : Nat) (s : State) (r : Running) (t : Thread) (g : Guard), escapeCause i = some c →
    wordGuard i = some g → Alone s r t g →
    (chunkEmpty s.m r.core = false → exec i s = .next ⟨s.agenda, wordEscapes s.m r t c⟩) ∧
    (chunkEmpty s.m r.core = true → (s.m.core r.core).comC.isSome = true → exec i s = .next ⟨s.agenda, stalled s.m r t⟩)) ∧
  (∀ (m : Mach) (c cause : Nat), addDue m c cause = m.updCore c (fun k =>
    { k with due := if cause ∈ k.due then k.due else cause :: k.due })) ∧
  (∀ (m : Mach) (r : Running) (t u : Thread) (cause len : Nat), m.thread? t.gid t.tix = some u →
    (u.stat = .issuing → (∀ x ∈ m.running, x.rid = r.rid → t.tix ∉ x.stall) → creditWord m r t cause len =
      (let m' := m.updCore (m.coreOf t.gid) (fun k => { k with
        ck := k.ck.withThread { u with pos := r.after len, stat := .ready } })
       if cause = 7 then m' else withGroup m' t.gid (fun g => { g with escaped := true }))) ∧
    (∀ w, u.stat = .waiting w → creditWord m r t cause len =
      (let m' := m.updCore (m.coreOf t.gid) (fun k => { k with ck := k.ck.withThread u })
       if cause = 7 then m' else withGroup m' t.gid (fun g => { g with escaped := true }))) ∧
    (u.stat ≠ .issuing → (∀ w, u.stat ≠ .waiting w) → creditWord m r t cause len = m)) ∧
  (∀ (s : State) (gid tix : Nat) (t : Thread) (k : Core), s.m.thread? gid tix = some t → k = s.m.core (s.m.coreOf gid) →
    (t.stat ≠ .escaping ∨ t.escAt = some k.openC.serial ∨ waitsHere s.m gid = false → exec (.escapingReissue gid tix) s = .next s) ∧
    (t.stat = .escaping → t.escAt ≠ some k.openC.serial → waitsHere s.m gid = true →
      (t.escFor = 3 ∨ t.escFor = 4 ∨ (k.openC.empty = true ∧ k.comC = none ∧ k.due = []) →
        (t.escFor = 10 → atBoundary s.m (s.m.coreOf gid) = true ∧ retryOn s.m (s.m.coreOf gid) = false) →
        exec (.escapingReissue gid tix) s = .next ⟨s.agenda, withThread s.m t (fun u =>
          { u with stat := .ready, escAt := none, retrying := decide (u.escFor = 10) })⟩) ∧
      (t.escFor ≠ 3 → t.escFor ≠ 4 → k.openC.empty = false →
        exec (.escapingReissue gid tix) s = .next ⟨s.agenda, addDue s.m (s.m.coreOf gid) t.escFor⟩)))

/-- R176 to R179: fences, remote promotion and address waits. Where it rests on a reading or a choice of the model,
that is logs 17 and 58. -/
def Obligations.FencesAndWaits : Prop :=
  (∀ (s : State) (r : Running) (t : Thread) (g : Guard) (sc : Scope), Alone s r t g →
    exec (.fence g .acq sc) s = .next ⟨s.agenda, acqDo s.m r.core (scopeNum sc)⟩ ∧
    (relReady s.m t (scopeNum sc) = true →
      exec (.fence g .rel sc) s = .next ⟨s.agenda, relPush s.m r.core (scopeNum sc)⟩ ∧
      exec (.fence g .ar sc) s = .next ⟨s.agenda, acqDo (relPush s.m r.core (scopeNum sc)) r.core (scopeNum sc)⟩) ∧
    (relReady s.m t (scopeNum sc) = false → ∀ k, k ≠ .acq → exec (.fence g k sc) s = .next ⟨s.agenda, stalled s.m r t⟩)) ∧
  (∀ (m : Mach) (t : Thread) (n : Nat), relReady m t n = true ↔
    (∀ x ∈ m.stxs, x.gid = t.gid → x.tix = t.tix → x.done = true) ∧ (1 ≤ n → t.prs = 0) ∧
    (3 ≤ n → ∀ x ∈ m.repls, ¬ (x.gid = t.gid ∧ x.tix = t.tix)) ∧
    (4 ≤ n → ∀ x ∈ m.hostWrs, ¬ (x.gid = t.gid ∧ x.tix = t.tix))) ∧
  (∀ (m : Mach) (c : Nat),
    relPush m c 0 = m ∧ acqDo m c 0 = m ∧
    (∀ l ∈ ((relPush m c 1).core c).lines, l.cls = 1 → l.clean = true) ∧
    (∀ n, 2 ≤ n → (∀ l ∈ ((relPush m c n).core c).lines, l.cls = 1 → l.clean = true) ∧
      ∀ l ∈ (relPush m c n).cluster (clusterOf c), l.clean = true) ∧
    acqDo m c 1 = m.updCore c (fun k => { k with lines := k.lines.filter (fun l => !l.clean || l.cls != 1) }) ∧
    (∀ n, 2 ≤ n → acqDo m c n = ((m.updCore c (fun k => { k with
        lines := k.lines.filter (fun l => !l.clean || l.cls != 1) })).setCluster (clusterOf c)
          ((m.cluster (clusterOf c)).filter (fun l => !l.clean))).updCore c (fun k => { k with fetched := [] }))) ∧
  (∀ (m : Mach) (l : Line) (i : Nat), l.data.length = l.size → l.dirty.length = l.size → i < l.size →
    cget (homePush m l).mem (l.pa + i) = if l.dirty.getD i false then l.data.getD i 0 else cget m.mem (l.pa + i)) ∧
  (∀ (s : State) (r : Running) (t : Thread) (g : Guard) (a : Nat), Alone s r t g →
    exec (.acqr g a) s = .next ⟨s.agenda,
      acqDo ((if (t.rd a).toNat < 64 then [r.core / 64 * 64 + (t.rd a).toNat]
          else (List.range 64).map (fun i => r.core / 64 * 64 + i)).foldl
        (fun m c => dropClean (pushAll m c true) c true) s.m) r.core 2⟩) ∧
  (∀ (s : State) (r : Running) (t : Thread) (g : Guard) (d a b : Nat), Escapes s r t g →
    ((t.rd a).toNat % 4 ≠ 0 → exec (.waita g false d a b) s = .next ⟨s.agenda,
      withThread s.m t (raised (misalignAt r (t.rd a).toNat 4 1))⟩) ∧
    ((t.rdD a).toNat % 4 ≠ 0 → exec (.waita g true d a b) s = .next ⟨s.agenda,
      withThread s.m t (raised (misalignAt r (t.rdD a).toNat 4 1))⟩) ∧
    ((t.rd a).toNat % 4 = 0 → padOk s.m t.gid (t.rd a).toNat 4 = true →
      let v := wordOf (padRead s.m t.gid (t.rd a).toNat 4)
      (v ≠ t.rd b → exec (.waita g false d a b) s = .next ⟨s.agenda,
        creditWord (acqDo (withThread s.m t (fun u => u.wr d v)) r.core 2) r t 7 1⟩) ∧
      (v = t.rd b → exec (.waita g false d a b) s = .next ⟨s.agenda, creditWord (withThread s.m t
        (leftPack (.waiting (.addr false (t.rd a).toNat 0 v d false ⟨r.hdr, r.idx⟩)) ⟨(linkOf r).toNat, 0⟩)) r t 7 1⟩)) ∧
    (∀ m x, (t.rdD a).toNat % 4 = 0 → translate s.m (whoOf s.m t.gid) .wait (t.rdD a).toNat = .ok (m, x) →
      reachable m .wait (whoOf s.m t.gid).die x.pa 4 = .ok () → poisoned m x.pa 4 = none → x.cls ≠ 1 →
      let v := wordOf (homeRead m (s.m.dieOf t.gid) x.pa 4)
      (v ≠ t.rd b → exec (.waita g true d a b) s = .next ⟨s.agenda,
        creditWord (acqDo (withThread m t (fun u => u.wr d v)) r.core 2) r t 7 1⟩) ∧
      (v = t.rd b → exec (.waita g true d a b) s = .next ⟨s.agenda, creditWord (withThread m t
        (leftPack (.waiting (.addr true (t.rdD a).toNat x.pa v d false ⟨r.hdr, r.idx⟩)) ⟨(linkOf r).toNat, 0⟩)) r t 7 1⟩))) ∧
  (∀ (s : State) (gid tix : Nat) (t : Thread) (glob : Bool) (ea wp d : Nat) (old : Word) (wk : Bool) (p : Pos),
    s.m.thread? gid tix = some t → t.stat = .waiting (.addr glob ea wp old d wk p) → waitsHere s.m gid = true →
    let v := if glob then wordOf (homeRead s.m (s.m.dieOf gid) wp 4) else wordOf (padRead s.m gid ea 4)
    let woken := acqDo (updBoth s.m gid tix (fun u => { u.wr d v with stat := .ready, landed := false })) (s.m.coreOf gid) 2
    exec (.waitaWake gid tix) s = .next ⟨s.agenda, woken⟩ ∧
    exec (.waitaRepoll gid tix) s = .next ⟨s.agenda, if v ≠ old then woken else s.m⟩) ∧
  (∀ (s : State) (gid tix : Nat), waitsHere s.m gid = false →
    exec (.waitaWake gid tix) s = .next s ∧ exec (.waitaRepoll gid tix) s = .next s) ∧
  (∀ (m : Mach) (gid : Nat) (g : Group), m.group? gid = some g →
    (waitsHere m gid = true ↔ g.onCore = true ∧ g.stat ≠ .saving)) ∧
  (∀ (m : Mach) (gid tix : Nat) (f : Thread → Thread),
    (updBoth m gid tix f).threads = m.threads.map (fun t => if t.gid == gid && t.tix == tix then f t else t) ∧
    ((updBoth m gid tix f).core (m.coreOf gid)).ck.threads =
      (m.core (m.coreOf gid)).ck.threads.map (fun t => if t.gid == gid && t.tix == tix then f t else t) ∧
    ((updBoth m gid tix f).core (m.coreOf gid)).comCk.threads =
      (m.core (m.coreOf gid)).comCk.threads.map (fun t => if t.gid == gid && t.tix == tix then f t else t))

/-- R266, R177 and R388: replicated stores reach their copies, writes outside the package are acknowledged, and dirty
lines go outward. Where it rests on a reading or a choice of the model, that is logs 12, 66 and 89. -/
def Obligations.MemoryEvents : Prop :=
  (∀ (s : State) (id : Nat) (x : Repl) (early : List Repl), s.m.repls.find? (fun y => y.id == id) = some x →
    early = s.m.repls.filter (fun y => y.gid == x.gid && y.tix == x.tix &&
      decide (y.pa < x.pa + x.data.length) && decide (x.pa < y.pa + y.data.length)) →
    (early.head? ≠ some x → exec (.replicaPropagation id) s = .next s) ∧
    (early.head? = some x → ∃ m,
      exec (.replicaPropagation id) s = .next ⟨s.agenda, m⟩ ∧ m.repls = s.m.repls.filter (fun y => y.id != id) ∧
      (∀ i, i < x.data.length → cget m.mem (x.pa + i) = x.data.getD i 0) ∧
      (∀ a, a < x.pa ∨ x.pa + x.data.length ≤ a → cget m.mem a = cget s.m.mem a) ∧
      (∀ t ∈ s.m.threads, ∀ ea wp v d p, t.stat = .waiting (.addr true ea wp v d false p) →
        x.pa < wp + 4 → wp < x.pa + x.data.length → { t with stat := .waiting (.addr true ea wp v d true p) } ∈ m.threads))) ∧
  (∀ (s : State) (id : Nat), exec (.writeAcknowledgement id) s = .next ⟨s.agenda,
    { s.m with hostWrs := s.m.hostWrs.filter (fun x => x.id != id) }⟩) ∧
  (∀ (s : State) (c pa : Nat) (l : Line), lineAt (s.m.core c).lines pa = some l →
    exec (.dirtyEvict (.l1 c) pa) s = .next ⟨s.agenda,
      (((s.m.core c).lines.filter (fun x => x.pa / 512 == pa / 512 && x.cls == 1)).foldl
        (fun m x => pushToCluster m (clusterOf c) x) s.m).updCore c (fun k => { k with
          lines := k.lines.filter (fun x => x.pa / 512 != pa / 512) })⟩) ∧
  (∀ (s : State) (cl pa : Nat) (l : Line), lineAt (s.m.cluster cl) pa = some l →
    exec (.dirtyEvict (.cluster cl) pa) s = .next ⟨s.agenda,
      (((s.m.cluster cl).filter (fun x => x.pa / 512 == pa / 512)).foldl homePush s.m).setCluster cl
        ((s.m.cluster cl).filter (fun x => x.pa / 512 != pa / 512))⟩) ∧
  (∀ (s : State) (p pa : Nat) (q : Part) (l : Line), s.m.part? p = some q → lineAt q.lines pa = some l →
    exec (.dirtyEvict (.holder p) pa) s = .next ⟨s.agenda, { s.m with
      mem := cwriteMask s.m.mem l.pa l.data l.dirty
      parts := s.m.parts.map (fun x => if x.pid == p then { x with
        lines := x.lines.filter (fun y => y.pa != l.pa)
        wbs := if l.clean then x.wbs else x.wbs ++ [l] } else x) }⟩) ∧
  (∀ (m : Mach) (cl : Nat) (l c : Line), lineAt (m.cluster cl) l.pa = some c → c.pa = l.pa → l.clean = false →
    l.grain ∈ [32, 128, 512] → l.pa % 32 = 0 → c.size = 32 → l.size = 32 → c.data.length = l.size → c.dirty.length = l.size → l.data.length = l.size → l.dirty.length = l.size → ∃ c',
    lineAt ((pushToCluster m cl l).cluster cl) l.pa = some c' ∧ c' = { c with data := c'.data, dirty := c'.dirty } ∧
    ∀ i, i < l.size → c'.data.getD i 0 = (if l.dirty.getD i false then l.data.getD i 0 else c.data.getD i 0) ∧
      c'.dirty.getD i false = (l.dirty.getD i false || c.dirty.getD i false))

/-- R180 to R186: `cpy`, the pieces and the end of a copy; the completed mark of a timeline, `tlwait` and `tlread`.
Where it rests on a reading or a choice of the model, that is logs 18, 19, 20, 35, 85 and 98. -/
def Obligations.CopyEngine : Prop :=
  ((∀ (s : State) (r : Running) (t : Thread) (g : Guard) (d a fl : Nat), Escapes s r t g →
    ((t.rd a).toNat % 64 ≠ 0 → exec (.cpy g d a fl) s = .next ⟨s.agenda,
      withThread s.m t (raised (misalignAt r (t.rd a).toNat 64 1))⟩) ∧
    ((t.rd a).toNat % 64 = 0 → padOk s.m t.gid (t.rd a).toNat 64 = false → exec (.cpy g d a fl) s = .next ⟨s.agenda,
      creditWord (padRefused s.m r t .load (t.rd a).toNat 64) r t 6 1⟩) ∧
    ((t.rd a).toNat % 64 = 0 → padOk s.m t.gid (t.rd a).toNat 64 = true →
      (64 ≤ (s.m.core r.core).copies.length → exec (.cpy g d a fl) s = .next ⟨s.agenda,
        creditWord (stalled s.m r t) r t 6 1⟩) ∧
      ((s.m.core r.core).copies.length < 64 → ∀ p, s.m.group? t.gid = some p → ∃ k : Copy,
        exec (.cpy g d a fl) s = .next ⟨s.agenda, creditWord (withThread ((withGroup s.m t.gid (fun x =>
          { x with save := { x.save with topCopy := (s.m.core r.core).copyCtr + 1 } })).updCore r.core (fun c =>
          { c with copyCtr := (s.m.core r.core).copyCtr + 1, copies := insertCopy k c.copies })) t
            (fun u => u.wrD d (BitVec.ofNat 64 ((s.m.core r.core).copyCtr + 1)))) r t 6 1⟩ ∧
        k = { n := (s.m.core r.core).copyCtr + 1, gid := t.gid, tix := t.tix, flag := r.flag fl, blkAt := (t.rd a).toNat
              dst := k.dst, src := k.src, rows := k.rows, bytes := k.bytes, dstr := k.dstr, sstr := k.sstr, dsp := k.dsp
              rank := k.rank, ssp := k.ssp, flags := k.flags, flagOff := k.flagOff, flagVal := k.flagVal, zero := k.zero } ∧
        (∀ f ∈ [(0, 8, k.dst), (8, 8, k.src), (16, 4, k.rows), (20, 4, k.bytes), (24, 4, k.dstr), (28, 4, k.sstr),
            (32, 1, k.dsp), (33, 1, k.rank), (34, 1, k.ssp), (35, 1, k.flags), (36, 4, k.flagOff), (40, 4, k.flagVal.toNat)],
          f.2.2 = bytesNat (cread p.spad ((t.rd a).toNat + f.1) f.2.1)) ∧
        (k.zero = true ↔ ∀ i, 44 ≤ i → i < 64 → cget p.spad ((t.rd a).toNat + i) = 0)))) ∧
  (∀ (s : State) (c : Nat) (x : Copy) (l : List Copy), (s.m.core c).copies = x :: l → x.stopped = none → x.status = 0 →
    (s.m.die (c / 64)).fatal = false → ∀ n b, n = min 512 (x.bytes - x.col) → b = x.dst + x.row * x.dstr + x.col →
    (x.started = false → x.bad (s.m.recOf x.gid).scratch = true → exec (.copyPiece c) s = .next ⟨s.agenda,
      withHead s.m c (fun y => { y with status := 1 })⟩) ∧
    (x.started = false → x.bad (s.m.recOf x.gid).scratch = false →
      ((x.dsp = 2 ∨ x.ssp = 2) → setPeer s.m x.gid x.rank = none → exec (.copyPiece c) s = .next ⟨s.agenda,
        withHead s.m c (fun y => { y with status := 3 })⟩) ∧
      ((x.dsp = 2 ∨ x.ssp = 2 → setPeer s.m x.gid x.rank ≠ none) →
        exec (.copyPiece c) s = .next ⟨s.agenda, if s.m.stxs.any (fun y => y.gid == x.gid && y.tix == x.tix) then s.m
          else withHead (relPush s.m c 2) c (fun y => { y with started := true })⟩)) ∧
    (x.started = true → x.row < x.rows → ∀ m bs, pieceRead s.m (engineWho s.m x.gid) x n = .ok (m, bs) →
      (x.dsp = 3 → exec (.copyPiece c) s = .next ⟨s.agenda, withHead (m.updCore c (fun k => { k with
        wbuf := cwrite k.wbuf b bs, wown := ownUnits k.wown b n x.gid })) c (fun y => y.advance n)⟩) ∧
      (∀ p, 0 < x.dsp → x.dsp < 3 → x.padOf m x.dsp = some p → exec (.copyPiece c) s = .next ⟨s.agenda,
        withHead (padWriteOut m p b bs) c (fun y => y.advance n)⟩) ∧
      (x.dsp = 0 →
        (∀ m1 xs, engineXlat m (engineWho s.m x.gid) .engineW (pageParts (b % 2 ^ 64) n) = .ok (m1, xs) →
          exec (.copyPiece c) s = .next ⟨s.agenda, if rangeWaits m1 (engineWho s.m x.gid) xs then m1
            else withHead (engineWrites m1 (engineWho s.m x.gid) x.gid x.tix xs bs) c (fun y => y.advance n)⟩) ∧
        (∀ va e, engineXlat m (engineWho s.m x.gid) .engineW (pageParts (b % 2 ^ 64) n) = .error (va, e) →
          exec (.copyPiece c) s = .next ⟨s.agenda, engineStops m c x 5 va e⟩))) ∧
    (x.started = true → x.row < x.rows → ∀ va e, pieceRead s.m (engineWho s.m x.gid) x n = .error (va, e) →
      exec (.copyPiece c) s = .next ⟨s.agenda, engineStops s.m c x 4 va e⟩)) ∧
  (∀ (x : Copy) (n : Nat), x.advance n =
    if x.col + n < x.bytes then { x with col := x.col + n } else { x with row := x.row + 1, col := 0 }) ∧
  (∀ (s : State) (c : Nat) (x : Copy) (l : List Copy), (s.m.core c).copies = x :: l →
    (x.status ≠ 0 → exec (.copyComplete c) s = .next ⟨s.agenda,
      freeTl ((s.m.updCore c (fun k => { k with copyFail := x.n, copyStat := x.status })).updCore c (fun k =>
        { k with copies := l })) c false⟩) ∧
    (x.status = 0 → x.started = true → x.stopped = none → x.rows ≤ x.row →
      (x.flags ≠ 1 → exec (.copyComplete c) s = .next ⟨s.agenda, freeTl (s.m.updCore c (fun k => { k with copies := l })) c false⟩) ∧
      (∀ p, x.flags = 1 → x.padOf s.m x.dsp = some p → exec (.copyComplete c) s = .next ⟨s.agenda,
        freeTl ((padWriteOut s.m p x.flagOff (natBytes 4 x.flagVal.toNat)).updCore c (fun k => { k with copies := l })) c false⟩)))) ∧
  ((∀ (ctr : Nat) (ns : List Nat), (∀ k ∈ ns, 0 < k) → ∀ n, n ≤ markOf ctr ns ↔ n ≤ ctr ∧ ∀ k ∈ ns, n < k) ∧
  (∀ (s : State) (r : Running) (t : Thread) (g : Guard) (a : Nat), Escapes s r t g →
    (∀ n, n = min (t.rdD a).toNat (s.m.core r.core).copyCtr →
      (n ≤ copyMark (s.m.core r.core) → exec (.tlwait g false a) s = .next ⟨s.agenda,
        creditWord (acqDo s.m r.core 2) r t 7 1⟩) ∧
      (copyMark (s.m.core r.core) < n →
        (∀ x ∈ (s.m.core r.core).copies, x.gid = t.gid → x.tix = t.tix → x.stopped ≠ none → n < x.n) →
        exec (.tlwait g false a) s = .next ⟨s.agenda, creditWord (withThread s.m t
          (leftPack (.waiting (.copyTl n ⟨r.hdr, r.idx⟩)) ⟨(linkOf r).toNat, 0⟩)) r t 7 1⟩)) ∧
    (∀ n, n = min (t.rdD a).toNat (s.m.core r.core).tileCtr →
      (n ≤ tileMark (s.m.core r.core) → exec (.tlwait g true a) s = .next ⟨s.agenda,
        creditWord (acqDo s.m r.core 2) r t 7 1⟩) ∧
      (tileMark (s.m.core r.core) < n → haltedFor s.m t (fun x => decide (x.n ≤ n)) = none →
        exec (.tlwait g true a) s = .next ⟨s.agenda, creditWord (withThread s.m t
          (leftPack (.waiting (.tileTl n ⟨r.hdr, r.idx⟩)) ⟨(linkOf r).toNat, 0⟩)) r t 7 1⟩) ∧
      (∀ x e c, tileMark (s.m.core r.core) < n → haltedFor s.m t (fun x => decide (x.n ≤ n)) = some x →
        x.halt = some (e, c) → e ≠ 0 → exec (.tlwait g true a) s = .next ⟨s.agenda, withThread s.m t (raised {
          eff := e, a0 := BitVec.ofNat 64 x.n, a1 := BitVec.ofNat 64 (x.tile + x.step * 256 + x.opc * 65536)
          a2 := BitVec.ofNat 64 c, a3 := BitVec.ofNat 64 x.hdr, save := ⟨r.hdr, r.idx⟩, word := ⟨r.hdr, r.idx⟩
          cmd := some (x.n * 64 + x.step) })⟩))) ∧
  (∀ (s : State) (r : Running) (t : Thread) (g : Guard) (d : Nat), Alone s r t g → ∀ v ∈
    [(TlSel.copy, copyMark (s.m.core r.core)), (.tile, tileMark (s.m.core r.core)), (.fail, (s.m.core r.core).copyFail),
      (.status, (s.m.core r.core).copyStat)],
    exec (.tlread g v.1 d) s = .next ⟨s.agenda, withThread s.m t (fun u => u.wrD d (BitVec.ofNat 64 v.2))⟩))

/-- R204, R205, R206, R207, R210, R212 to R214: `launch` and its checks, `svc` and its reply, `sleep` and its end. The
numbers of new objects (`nextId`) are the model's (log 1). Where it rests on a reading or a choice of the model, that
is log 28. -/
def Obligations.SystemWords : Prop :=
  (∀ (s : State) (r : Running) (t : Thread) (g : Guard) (d a b : Nat), Escapes s r t g →
    ((t.rdD a).toNat % 64 ≠ 0 → exec (.launch g d a b) s = .next ⟨s.agenda,
      withThread s.m t (raised (misalignAt r (t.rdD a).toNat 192 1))⟩) ∧
    ((t.rdD a).toNat % 64 = 0 → relReady s.m t 4 = false →
      exec (.launch g d a b) s = .next ⟨s.agenda, stalled s.m r t⟩) ∧
    ((t.rdD a).toNat % 64 = 0 → relReady s.m t 4 = true →
      (∀ m xs, engineXlat (relPush s.m r.core 4) (whoOf s.m t.gid) .load (pageParts (t.rdD a).toNat 192) = .ok (m, xs) →
        ∀ q, q = appendRec m (cidOf m t.gid) (t.rd b).toNat (xs.flatMap (fun p => homeRead m (whoOf s.m t.gid).die p.2.2.pa p.2.1))
          (whoOf s.m t.gid).part →
        exec (.launch g d a b) s = .next ⟨s.agenda,
          creditWord (withThread q.1 t (fun u => u.wrD d (BitVec.ofNat 64 q.2))) r t 6 1⟩) ∧
      (∀ va e, engineXlat (relPush s.m r.core 4) (whoOf s.m t.gid) .load (pageParts (t.rdD a).toNat 192) = .error (va, e) →
        exec (.launch g d a b) s = .next ⟨s.agenda, creditWord (stopped (relPush s.m r.core 4) r t 0 va e) r t 6 1⟩))) ∧
  (∀ (m : Mach) (cid h : Nat) (bs : List Byte) (dies : List Nat) (x : LaunchRec), x = LaunchRec.ofBytes bs →
    (queueOf m cid h = none → appendRec m cid h bs dies = (m, 2 ^ 63 + 3)) ∧
    ∀ q, queueOf m cid h = some q →
      (recFieldBad bs = true → appendRec m cid h bs dies = (m, 2 ^ 63 + 1)) ∧
      (recFieldBad bs = false → ¬ (x.threads ≤ 1024 ∧ x.setSize ≤ 4 ∧ x.groupCount ≤ 2 ^ 32 - 1) →
        appendRec m cid h bs dies = (m, 2 ^ 63 + 6)) ∧
      (recFieldBad bs = false → x.threads ≤ 1024 → x.setSize ≤ 4 → x.groupCount ≤ 2 ^ 32 - 1 →
        (x.rangesBad dies = true → appendRec m cid h bs dies = (m, 2 ^ 63 + 2)) ∧
        (x.rangesBad dies = false →
          (65536 < x.threads * x.regs → appendRec m cid h bs dies = (m, 2 ^ 63 + 5)) ∧
          (x.threads * x.regs ≤ 65536 →
            (q.stat ≠ .active ∨ q.cap ≤ q.kids.length → appendRec m cid h bs dies = (m, 2 ^ 63 + 4)) ∧
            (q.stat = .active → q.kids.length < q.cap → appendRec m cid h bs dies =
              (({ m with nextId := m.nextId + 1, kernels := m.kernels ++ [{
                    kid := m.nextId, cid := cid, qid := q.qid, seq := q.seq, rc := { x with ranges := x.cut dies } }] } : Mach).updQueue
                  q.qid (fun q => { q with seq := q.seq + 1, kids := q.kids ++ [m.nextId] }), q.seq)))))) ∧
  (∀ (x : LaunchRec) (dies : List Nat) (n : Nat), n = (x.groupCount + x.setSize * dies.length - 1) / (x.setSize * dies.length) * x.setSize →
    ((∃ r ∈ x.ranges, r.2 ≠ 0) → x.cut dies = x.ranges) ∧
    ((∀ r ∈ x.ranges, r.2 = 0) → ∀ d, d < 4 → ∀ i, i = (dies.filter (fun e => decide (e < d))).length →
      (d ∈ dies → i * n < x.groupCount → (x.cut dies).getD d (0, 0) = (i * n, min n (x.groupCount - i * n))) ∧
      (d ∉ dies ∨ x.groupCount ≤ i * n → ((x.cut dies).getD d (0, 0)).2 = 0))) ∧
  (∀ (x : LaunchRec) (dies : List Nat), x.ranges.length = 4 → (∃ r ∈ x.ranges, r.2 ≠ 0) → x.rangesBad dies = false →
    (∀ gix, gix < x.groupCount → ∃ d, d < 4 ∧ (x.ranges.getD d (0, 0)).1 ≤ gix ∧
      gix < (x.ranges.getD d (0, 0)).1 + (x.ranges.getD d (0, 0)).2) ∧
    ∀ d, d < 4 → (x.ranges.getD d (0, 0)).2 ≠ 0 → d ∈ dies ∧ (x.ranges.getD d (0, 0)).1 % x.setSize = 0 ∧
      (x.ranges.getD d (0, 0)).2 % x.setSize = 0) ∧
  (∀ (s : State) (r : Running) (t : Thread) (g : Guard) (n : Nat), Escapes s r t g →
    (relReady s.m t 4 = false → exec (.svc g n) s = .next ⟨s.agenda, stalled s.m r t⟩) ∧
    (relReady s.m t 4 = true → ∀ m cid x, m = relPush s.m r.core 4 → cid = cidOf m t.gid → m.ctx? cid = some x →
      exec (.svc g n) s = .next ⟨s.agenda, creditWord (withThread (postRec
        (m.updCtx cid (fun y => { y with ticket := if y.ticket < 2 ^ 32 - 1 then y.ticket + 1 else 1 })) cid {
          kind := 11, cause := n, access := 0, flags := 0, asid := pte x.satp.toNat 44 16, addr := (t.rdD 20).toNat, clause := r.hdr
          place := t.slot + m.coreOf t.gid % 64 * 2 ^ 11 + m.dieOf t.gid * 2 ^ 17 + r.idx % 16 * 2 ^ 19, timeline := x.ticket }) t
        (leftPack (.waiting (.svc x.ticket)) ⟨(linkOf r).toNat, 0⟩)) r t 8 1⟩)) ∧
  (∀ (s : State) (r : Running) (t : Thread) (g : Guard) (a : Nat) (abs : Bool) (w : Nat), Escapes s r t g →
    w = (if abs then (t.rdD a).toNat else min (s.m.time + (t.rdD a).toNat) (2 ^ 64 - 1)) →
    (w ≤ s.m.time → exec (.sleep g abs a) s = .next ⟨s.agenda, creditWord s.m r t 7 1⟩) ∧
    (s.m.time < w → exec (.sleep g abs a) s = .next ⟨s.agenda,
      creditWord (withThread s.m t (leftPack (.waiting (.sleep w)) ⟨(linkOf r).toNat, 0⟩)) r t 7 1⟩)) ∧
  (∀ (s : State) (gid tix w : Nat) (t : Thread) (g : Group), s.m.thread? gid tix = some t → s.m.group? gid = some g →
    t.stat = .waiting (.sleep w) →
    (w ≤ s.m.time → g.onCore = true → g.stat ≠ .saving → exec (.sleepWake gid tix) s = .next ⟨s.agenda,
      updBoth s.m gid tix (fun u => { u with stat := .ready, landed := false })⟩) ∧
    (s.m.time < w ∨ g.onCore = false ∨ g.stat = .saving → exec (.sleepWake gid tix) s = .next s)) ∧
  (∀ (s : State) (p : Part) (ops : List Nat) (x : Ctx), RingHead s.m p 14 ops → ctxNum s.m p (opAt ops 0) = some x →
    ((∀ t ∈ s.m.threads, ¬ (cidOf s.m t.gid = x.cid ∧ t.stat = .waiting (.svc (opAt ops 1)))) → Refuses (.serviceReply p.pid) s p) ∧
    (∀ t g, s.m.threads.find? (fun t => cidOf s.m t.gid == x.cid && (match t.stat with | .waiting (.svc k) => k == opAt ops 1 | _ => false)) = some t →
      s.m.group? t.gid = some g → (∀ r ∈ x.replies, r.1 ≠ opAt ops 1) → ∀ v0 v1, v0 = BitVec.ofNat 64 (opAt ops 2) →
        v1 = BitVec.ofNat 64 (opAt ops 3) →
      (g.stat = .saved → exec (.serviceReply p.pid) s = answers s p
        (wakeKernel (s.m.updCtx x.cid (fun x => { x with replies := x.replies ++ [(opAt ops 1, v0, v1)] })) g.kid) 1 0) ∧
      (g.stat ≠ .saved → exec (.serviceReply p.pid) s = answers s p (wakeKernel (acqDo (updBoth s.m t.gid t.tix (fun u =>
        if u.stat = t.stat then { (u.wrD 20 v0).wrD 22 v1 with stat := .ready, landed := false } else u)) g.core 4) g.kid) 1 0)))

/-- R208, R209, R218, R219, R221, R231 and R217: a group is placed and starts, returns, and exits; a kernel closes or
is cancelled. The numbers of new objects (`nextId`) are the model's (log 1). Where it rests on a reading or a choice
of the model, that is logs 26, 42, 44, 76, 84 and 103. -/
def Obligations.GroupLife : Prop :=
  (∀ (s : State) (kid die core gix : Nat) (k : Kernel), s.m.kernel? kid = some k → k.nextGix die = some gix → core / 64 = die →
    placeable s.m k = true →
    (pendingFits s.m k core = true → outranked s.m k core = false → returnsFirst s.m k die = false →
      (∀ c ∈ k.rc.coresAt core, sliceSkipped s.m c k.cid = false) →
      (k.stat = .queued → k.rc.deadline ≠ 0 → k.rc.deadline < s.m.time → ∀ q, s.m.queue? k.qid = some q → q.dropLate = true →
        exec (.groupPlace kid die core) s = .next ⟨s.agenda, s.m.updKernel kid (fun k => { k with status := 3, stat := .closing })⟩) ∧
      ((k.stat ≠ .queued ∨ k.rc.deadline = 0 ∨ s.m.time ≤ k.rc.deadline ∨ ∀ q, s.m.queue? k.qid = some q → q.dropLate = false) →
        ∀ l, recRoom s.m k = some l → exec (.groupPlace kid die core) s = .next ⟨s.agenda,
          let n := max 1 k.rc.setSize
          let m := (List.range n).foldl (fun m r => placeGroup m k (gix + r)
            (if k.rc.setSize ≤ 1 then core else core / 4 * 4 + (gix + r) % k.rc.setSize) (l.getD r 0)) s.m
          let m := m.updKernel k.kid (fun k => { k with
            stat := .running, again := k.again.filter (fun g => decide (g < gix) || decide (gix + n ≤ g))
            placed := if k.again.contains gix then k.placed else lput k.placed die (k.placedOn die + n) })
          m.updCtx k.cid (fun x => if x.stat = .ending ∨ x.stat = .gone then x else { x with stat := .serving })⟩)) ∧
    (pendingFits s.m k core = true → outranked s.m k core = true ∨ returnsFirst s.m k die = true →
      exec (.groupPlace kid die core) s = .next s) ∧
    (pendingFits s.m k core = false → (∀ i, i < 64 → fitsOn s.m k (die * 64 + i) = false) →
      (∀ g, makesRoom s.m k die = some g →
        exec (.groupPlace kid die core) s = .next ⟨s.agenda, beginSave s.m (liveSet s.m g) true false⟩) ∧
      (makesRoom s.m k die = none → exec (.groupPlace kid die core) s = .next s)) ∧
    (pendingFits s.m k core = false → (∃ i, i < 64 ∧ fitsOn s.m k (die * 64 + i) = true) →
      exec (.groupPlace kid die core) s = .next s)) ∧
  (∀ (m : Mach) (k : Kernel) (c : Nat), pendingFits m k c = true ↔ fitsOn m k c = true ∧ ∃ l, recRoom m k = some l) ∧
  (∀ (m : Mach) (k : Kernel) (x : Ctx) (l : List Nat), recRoom m k = some l → m.ctx? k.cid = some x →
    l.length = max 1 k.rc.setSize ∧ ∀ a ∈ l, a + k.rc.saveBytes ≤ x.saveSize ∧
      ∀ u ∈ recsOf m k.cid, a + k.rc.saveBytes ≤ u.1 ∨ u.1 + u.2 ≤ a) ∧
  (∀ (k : Kernel) (d g : Nat), k.again = [] → (k.nextGix d = some g ↔
    k.placedOn d < (k.rc.ranges.getD d (0, 0)).2 ∧ g = (k.rc.ranges.getD d (0, 0)).1 + k.placedOn d)) ∧
  (∀ (m : Mach) (k : Kernel) (gix c a : Nat), callOf m (c / 64) k = none → placeGroup m k gix c a = (
    let m' := takeCore m c k.cid
    addDue (enterCk { m' with
      nextId := m.nextId + 1 + (k.rc.threads + 31) / 32
      groups := m'.groups ++ [{ gid := m.nextId, kid := k.kid, gix := gix, die := c / 64, core := c, placedAt := m'.time, recAt := a }]
      threads := m'.threads ++ (List.range k.rc.threads).map (fun i =>
        { startThread k.rc m.nextId gix i ((freeSlots m c k.rc.threads).getD i 0) with pack := m.nextId + 1 + i / 32 }) } c m.nextId) c 12)) ∧
  (∀ (x : LaunchRec) (gid gix tix slot : Nat), let t := startThread x gid gix tix slot
    t.pos = ⟨x.entry, 0⟩ ∧ t.landed = true ∧ t.rdD 20 = x.args ∧ (t.rdD 4).toNat = x.spOf gix tix ∧
    (x.stack ≠ 0 → x.spOf gix tix = (x.stackBase.toNat + (gix * x.threads + tix + 1) * x.stack) % 2 ^ 64) ∧
    (x.stack = 0 → x.spOf gix tix = 0) ∧ (∀ n, n ∉ [4, 5, 20, 21] → t.rd n = 0) ∧
    t = { gid := gid, tix := tix, slot := slot, pos := t.pos, landed := true, w := t.w }) ∧
  (∀ (m : Mach) (cid : Nat) (x : LaunchRec) (c : Nat) (hs rs : List Group), hs = holders m c → rs = hs.filter (fun g => g.onCore) →
    (coreFits m cid x c = true ↔ (m.die (c / 64)).held = false ∧ (m.die (c / 64)).fatal = false ∧ (m.core c).fenced = false ∧
      (m.core c).stopping = false ∧ (∀ g ∈ hs, g.stat ≠ .draining) ∧ ((m.core c).cid = none ∨ (m.core c).cid = some cid) ∧ rs.length + 1 ≤ 32 ∧
      (rs.map (fun g => (m.recOf g.gid).threads)).sum + x.threads ≤ 2048 ∧
      (rs.map (fun g => (m.recOf g.gid).threads * (m.recOf g.gid).regs)).sum + x.threads * x.regs ≤ 65536 ∧
      (hs.map (fun g => ((m.recOf g.gid).scratch + 767) / 768 * 768)).sum + (x.scratch + 767) / 768 * 768 ≤ 393216)) ∧
  (∀ (s : State) (gid core : Nat) (g : Group) (k : Kernel), s.m.group? gid = some g → s.m.kernelOf gid = some k →
    (g.stat = .saved → setReturns s.m g core = true → outranked s.m k core = false →
      (∀ c ∈ k.rc.coresAt core, sliceSkipped s.m c k.cid = false) → exec (.groupRestore gid core) s = .next ⟨s.agenda,
        let m := ((liveSet s.m g).foldl (fun m h => restoreGroup m h (k.rc.coreFor core h.gix)) s.m).updCtx k.cid (fun x =>
          if x.stat = .ending ∨ x.stat = .gone then x else { x with stat := .serving })
        m.updKernel k.kid (fun k => { k with preempted := k.preempted && m.groups.any (fun h => h.kid == k.kid && h.stat == .saved) })⟩) ∧
    (g.stat ≠ .saved ∨ setReturns s.m g core = false ∨ outranked s.m k core = true → exec (.groupRestore gid core) s = .next s)) ∧
  (∀ (s : State) (gid : Nat) (g : Group), s.m.group? gid = some g →
    (g.onCore = true → (∀ t ∈ s.m.threads, t.gid ≠ gid) → (∀ x ∈ (s.m.core g.core).copies, x.gid ≠ gid) →
      (∀ x ∈ (s.m.core g.core).tcmds, x.gid ≠ gid) → (∀ x ∈ (s.m.core g.core).ftlds, x.gid ≠ gid) →
      exec (.groupExit gid) s = .next ⟨s.agenda, endGroup s.m g⟩) ∧
    (g.onCore = false ∨ (∃ t ∈ s.m.threads, t.gid = gid) ∨ (∃ x ∈ (s.m.core g.core).tcmds, x.gid = gid) →
      exec (.groupExit gid) s = .next s)) ∧
  (∀ (m : Mach) (g : Group), m.group? g.gid = some g →
    ((∀ v ∈ (m.die g.die).visitors, v.2.gid ≠ g.gid) → (endGroup m g).threads = m.threads.filter (fun t => t.gid != g.gid) ∧
      (endGroup m g).mem = m.mem) ∧
    (∃ f : Thread → TStat, (endGroup m g).threads = (m.threads.filter (fun t => t.gid != g.gid)).map (fun t => { t with stat := f t })) ∧
    (∀ a, (∀ v, a < pointerAt m g.die v ∨ pointerAt m g.die v + 8 ≤ a) → cget (endGroup m g).mem a = cget m.mem a) ∧
    (∀ h, (endGroup m g).group? g.gid = some h → h.stat = .exited) ∧
    (∀ t ∈ ((endGroup m g).core g.core).tiles, t.2.gid ≠ g.gid) ∧ (∀ x ∈ ((endGroup m g).core g.core).tcmds, x.gid ≠ g.gid)) ∧
  (∀ (s : State) (kid : Nat) (k : Kernel) (m : Mach), s.m.kernel? kid = some k →
    m = (s.m.groups.filter (fun g => g.kid == kid)).foldl (fun m g => pushAll m g.core true) s.m →
    (k.stat ≠ .closing ∨ writesDone s.m kid = false ∨ closesLater s.m k = true → exec (.kernelClose kid) s = .next s) ∧
    (k.stat = .closing → writesDone s.m kid = true → closesLater s.m k = false → k.rc.done = 0 →
      exec (.kernelClose kid) s = .next ⟨s.agenda, endKernel m k⟩) ∧
    (k.stat = .closing → writesDone s.m kid = true → closesLater s.m k = false → k.rc.done ≠ 0 → ∀ (c : Ctx) (who : Who),
      m.ctx? k.cid = some c →
      who = { core := k.die * 64, die := k.die, asid := pte c.satp.toNat 44 16, root := pte c.satp.toNat 0 44
              secure := c.secure, part := partDies m k.die } →
      (∀ kind cause, Machine.translate m who .store k.rc.done = .error (.fault kind cause) →
        exec (.kernelClose kid) s = .next ⟨s.agenda, endKernel (postRec m k.cid {
          kind := kind, cause := cause, access := 1, flags := 0, asid := asidOf m k.cid, addr := k.rc.done, clause := k.rc.entry
          place := k.die * 2 ^ 17, timeline := 0 }) k⟩) ∧
      (∀ m1 x, Machine.translate m who .store k.rc.done = .ok (m1, x) → reachable m1 .store k.die x.pa 8 = .ok () →
        drainingOf m1 k = false ∨ homeOf x.pa = .host → ∀ m2, writeDone m1 who k x = some m2 →
        exec (.kernelClose kid) s = .next ⟨s.agenda, endKernel m2 k⟩))) ∧
  (∀ (m : Mach) (k : Kernel), closesLater m k = true ↔ (k.stat = .closing ∧ k.status = 4 ∧ k.placed = []) ∧
    ∃ h ∈ m.kernels, h.qid = k.qid ∧ h.seq < k.seq ∧ h.stat = .closing ∧ h.status = 4 ∧ h.placed = []) ∧
  (∀ k : Kernel, k.status < 256 → k.doneWord % 2 ^ 8 = (if k.status ≠ 0 then k.status else if k.faulted = 0 then 1 else 2) ∧
    k.doneWord / 2 ^ 8 % 2 ^ 24 = min k.faulted (2 ^ 24 - 1) ∧ k.doneWord / 2 ^ 32 = k.rc.tag.toNat) ∧
  (∀ (s : State) (kid : Nat) (k : Kernel), s.m.kernel? kid = some k →
    (k.stat = .ended ∨ k.stat = .closing ∨ k.status ≠ 0 → exec (.kernelCancel kid) s = .next s) ∧
    (k.stat ≠ .ended → k.stat ≠ .closing → k.status = 0 → exec (.kernelCancel kid) s = .next ⟨s.agenda,
      let m := s.m.updKernel kid (fun k => { k with status := 4, again := [] })
      let m := m.updKernel kid (fun k => { k with faulted := k.faulted + (openGroups m kid).countP (fun g => g.stat != .faulted) })
      let m : Mach := { m with groups := m.groups.map (fun g =>
        if g.kid == kid && g.stat == .saving then { g with stat := .live } else g) }
      let m := breakBarriers m kid 3 0 k.rc.groupCount
      let m : Mach := { m with groups := m.groups.map (fun g =>
        if g.kid == kid && (g.stat == .live || g.stat == .draining) then { g with stat := .faulted } else g) }
      closeIfDone ((openGroups m kid).foldl stopGroup m) kid⟩))

/-- R233 to R235 and R239: the barrier object that a name means, its members, its release and its reach. The
numbers of new objects (`nextId`) are the model's (log 1). -/
def Obligations.BarrierObjects : Prop :=
  (∀ (m : Mach) (t : Thread) (g : Group) (sel : BarSel) (id : Nat), m.group? t.gid = some g →
    (∀ b, m.barriers.find? (fun b => b.kid == g.kid && b.key == selKey (m.recOf t.gid) g.gix t.tix g.die sel && b.id == id) = some b →
      barOf m t sel id = (m, b)) ∧
    (m.barriers.find? (fun b => b.kid == g.kid && b.key == selKey (m.recOf t.gid) g.gix t.tix g.die sel && b.id == id) = none →
      ∃ b, barOf m t sel id = ({ m with barriers := b :: m.barriers, nextId := m.nextId + 1 }, b) ∧ b.bid = m.nextId ∧
        b.kid = g.kid ∧ b.key = selKey (m.recOf t.gid) g.gix t.tix g.die sel ∧ b.id = id ∧ b.phase = 0 ∧ b.arrived = [])) ∧
  (∀ (x : LaunchRec) (gix tix die g' t' l : Nat), gix < 2 ^ 32 → tix < x.threads → 0 < extentProd x 0 l → 0 < extentProd x x.glevel l →
    ((selKey x gix tix die (.lv l)).has g' t' = true ↔
      if l < x.glevel then g' = gix ∧ t' / extentProd x 0 l = tix / extentProd x 0 l
      else g' / extentProd x x.glevel l = gix / extentProd x x.glevel l ∧ t' < x.threads) ∧
    selKey x gix tix die .cl = selKey x gix tix die (.lv x.clevel) ∧ selKey x gix tix die .pkg = selKey x gix tix die (.lv 6) ∧
    selKey x gix tix die .grp = selKey x gix tix die (.lv x.glevel) ∧
    ((selKey x gix tix die .die).has g' t' = true ↔
      (x.ranges.getD die (0, 0)).1 ≤ g' ∧ g' < (x.ranges.getD die (0, 0)).1 + (x.ranges.getD die (0, 0)).2 ∧ t' < x.threads)) ∧
  (∀ (x : LaunchRec), x.glevel ≤ x.clevel → selReach x .grp = 0 ∧ selReach x .die = 2 ∧ ∀ l,
    (l ≤ x.glevel → selReach x (.lv l) = 0) ∧ (x.glevel < l → l ≤ x.clevel → selReach x (.lv l) = 1) ∧
    (x.clevel < l → selReach x (.lv l) = 3)) ∧
  (∀ (m : Mach) (b : Barrier) (k : Kernel), m.barrier? b.bid = some b → m.kernel? b.kid = some k →
    (b.broken = none → b.arrived ≠ [] → expectedOf k b.key ≤ b.arrived.length →
      (checkBarrier m b.bid).barrier? b.bid = some { b with phase := b.phase + 1, arrived := [] }) ∧
    (b.broken ≠ none ∨ b.arrived = [] ∨ b.arrived.length < expectedOf k b.key → checkBarrier m b.bid = m))

/-- R237, R238 and R240: what `barv`, `bar`, `barw` and `barst` do, and the end of the hold of R243. -/
def Obligations.BarrierWords : Prop :=
  (∀ (s : State) (r : Running) (t : Thread) (x : Bar) (g : Group) (m : Mach) (b : Barrier), barOf s.m t x.sel x.id = (m, b) →
    s.m.group? t.gid = some g → Escapes s r t x.g →
    (∀ c, b.broken = some c → ∀ i ∈ [Instr.bar x, .barv x, .barw x],
      exec i s = .next ⟨s.agenda, withThread m t (meetsBroken r x c m.time)⟩) ∧
    (b.broken = none → (g.gix, t.tix) ∈ b.arrived → ∀ i ∈ [Instr.bar x, .barv x], ∃ len cause, exec i s = .next ⟨s.agenda,
      creditWord (withThread m t (waitsAt r x b b.phase false)) r t cause len⟩) ∧
    (b.broken = none → (g.gix, t.tix) ∉ b.arrived → relReady s.m t (selReach (s.m.recOf t.gid) x.sel) = false →
      ∀ i ∈ [Instr.bar x, .barv x], exec i s = .next ⟨s.agenda, stalled s.m r t⟩) ∧
    (b.broken = none → (g.gix, t.tix) ∉ b.arrived → relReady s.m t (selReach (s.m.recOf t.gid) x.sel) = true → exec (.barv x) s = .next ⟨s.agenda,
        creditWord (withThread (arrived m r t x b g.gix) t (fun u => u.wr x.r b.phase)) r t 6 1⟩ ∧
      exec (.bar x) s = .next ⟨s.agenda, creditWord (
        let q := barOf (arrived m r t x b g.gix) t x.sel x.id
        match q.2.broken with
        | some c => withThread q.1 t (meetsBroken r x c q.1.time)
        | none => if q.2.phase = b.phase then withThread q.1 t (waitsAt r x q.2 b.phase true)
            else acqDo q.1 r.core (selReach (q.1.recOf t.gid) x.sel)) r t 7 1⟩) ∧
    (b.broken = none →
      (b.phase = t.rd x.r → exec (.barw x) s = .next ⟨s.agenda,
        creditWord (withThread m t (waitsAt r x b b.phase true)) r t 7 1⟩) ∧
      (b.phase ≠ t.rd x.r → exec (.barw x) s = .next ⟨s.agenda,
        creditWord (acqDo m r.core (selReach (m.recOf t.gid) x.sel)) r t 7 1⟩))) ∧
  (∀ (s : State) (r : Running) (t : Thread) (x : Bar) (m : Mach) (b : Barrier), barOf s.m t x.sel x.id = (m, b) →
    Alone s r t x.g → ∃ v : DWord, exec (.barst x) s = .next ⟨s.agenda, withThread m t (fun u => u.wrD x.r v)⟩ ∧
      v.toNat % 2 ^ 32 = b.phase.toNat ∧ v.toNat / 2 ^ 32 % 2 ^ 31 = min b.arrived.length (2 ^ 31 - 1) ∧
      (v.getLsbD 63 = true ↔ b.broken ≠ none)) ∧
  (∀ (s : State) (gid tix : Nat), exec (.brokenStopTimeout gid tix) s = .next ⟨s.agenda, s.m.updThread gid tix (fun t =>
    { t with brokenAt := match t.brokenAt with
      | some x => if x + 1000000 ≤ s.m.time then none else some x
      | none => none })⟩)

/-- R259 to R261, R250, R251, R257, R249: `chend` and `chstat`, and what closes a chunk. Values that the spec leaves
open are the constants of log 8. Where it rests on a reading or a choice of the model, that is logs 7 and 21. -/
def Obligations.ChunkCloses : Prop :=
  (∀ (s : State) (r : Running) (t : Thread) (g : Guard), Alone s r t g →
    exec (.chend g) s = .next ⟨s.agenda,
      addDue (withThread s.m t (fun u => { u with nextChunk := some (s.m.core r.core).openC.serial })) r.core 1⟩ ∧
    ∀ d, exec (.chstat g .mark d) s = .next ⟨s.agenda,
        withThread s.m t (fun u => u.wrD d (BitVec.ofNat 64 (s.m.core r.core).mark))⟩ ∧
      exec (.chstat g .stat d) s = .next ⟨s.agenda,
        withThread s.m t (fun u => u.wrD d (BitVec.ofNat 64 (chsOf (s.m.core r.core))))⟩ ∧
      exec (.chstat g .sq d) s = .next ⟨s.agenda,
        withThread s.m t (fun u => u.wrD d (BitVec.ofNat 64 (s.m.core r.core).sq))⟩) ∧
  (∀ k : Core, k.run < 8 → k.lastSq < 8 → k.lastClose < 256 → (chsOf k).testBit 0 = k.openC.solo ∧
    (chsOf k).testBit 1 = k.comC.isSome ∧ chsOf k / 2 ^ 2 % 2 ^ 3 = k.run ∧ chsOf k / 2 ^ 5 % 2 ^ 3 = k.lastSq ∧
    chsOf k / 2 ^ 8 % 2 ^ 8 = k.lastClose ∧ chsOf k / 2 ^ 16 = min k.sq 65535) ∧
  (∀ (m : Mach) (c x : Nat), x ∈ causesNow m c ↔ x ∈ (m.core c).due ∨ (x = 2 ∧ (m.core c).openC.rd ≠ [] ∧ Config.sigFull (m.core c).openC.rd = true) ∨
    (x = 5 ∧ (m.core c).openC.opened + Config.chunkCycles ≤ (m.die (c / 64)).clk ∧
      (chunkEmpty m c = false ∨ ∃ t ∈ threadsOn m c, t.stat = .exited))) ∧
  (∀ (s : State) (c : Nat),
    (causesNow s.m c = [] ∨ (s.m.core c).comC ≠ none ∨ (∃ r ∈ s.m.running, r.core = c) →
      exec (.chunkClose c) s = .next ⟨s.agenda, s.m⟩) ∧
    (causesNow s.m c ≠ [] → (s.m.core c).comC = none → (∀ r ∈ s.m.running, r.core ≠ c) →
      ((s.m.core c).openC.empty = false → ∃ cause ∈ causesNow s.m c, (∀ d ∈ causesNow s.m c, cause ≤ d) ∧
        exec (.chunkClose c) s = .next ⟨s.agenda, s.m.updCore c (fun k => { k with
          comC := some k.openC, comCk := k.ck, ck := checkpoint s.m c, lastClose := cause, due := []
          openC := { serial := k.openC.serial + 1, opened := (s.m.die (c / 64)).clk }
          soloNext := k.soloHas && !k.openC.solo })⟩) ∧
      ((s.m.core c).openC.empty = true → ∃ m1, m1 = freeExited s.m c (threadsOn s.m c) ∧
        exec (.chunkClose c) s = .next ⟨s.agenda, m1.updCore c (fun k => { k with
          openC := { serial := (s.m.core c).openC.serial + 1, opened := (s.m.die (c / 64)).clk, solo := k.openC.solo || k.soloHas }
          soloNext := false, ck := checkpoint m1 c, due := [] })⟩))) ∧
  (∀ (s : State) (c : Nat), (s.m.core c).openC.opened + Config.chunkCycles ≤ (s.m.die (c / 64)).clk →
    (chunkEmpty s.m c = false ∨ (∃ t ∈ threadsOn s.m c, t.stat = .exited) →
      exec (.chunkTimerExpire c) s = .next ⟨s.agenda, addDue s.m c 5⟩) ∧
    (chunkEmpty s.m c = true → (∀ t ∈ threadsOn s.m c, t.stat ≠ .exited) →
      exec (.chunkTimerExpire c) s = .next ⟨s.agenda, s.m⟩)) ∧
  Config.chunkCycles = 262144 ∧
  (∀ (s : State) (c : Nat),
    exec (.signatureParityError c false) s = .next ⟨s.agenda, addDue (s.m.updCore c (fun k =>
      { k with openC := { k.openC with parity := true } })) c 15⟩ ∧
    exec (.signatureParityError c true) s = .next ⟨s.agenda, s.m.updCore c (fun k =>
      { k with comC := k.comC.map (fun y => { y with parity := true }) })⟩ ∧
    ∀ (k : Chunk) (gs : List (Nat × Nat)), k.parity = true → gs ≠ [] → k.meets gs = true)

/-- R252, R253, R255 and R256: a tidemark, what it publishes and squashes, and solo priority. Where it rests on a
reading or a choice of the model, that is logs 7, 19 and 31. -/
def Obligations.Tidemarks : Prop :=
  (∀ (s : State) (c : Nat) (y : Chunk) (p : Part), (s.m.core c).comC = some y → partOfCore s.m c = some p →
    (s.m.part? p.pid = some p → (∀ x ∈ s.m.stxs, s.m.coreOf x.gid = c → x.done = true) →
      soloBlocks s.m p.dies (some c) y.grains = false → (s.m.die (c / 64)).fatal = false →
      exec (.tidemarkGrant c) s = .next ⟨s.agenda, trimCk (freeExited (endCommit (conflicts (publishReds (publishCells
        (s.m.updPart p.pid (fun q => { q with grants := q.grants + 1 })) y.cells) y.reds) p.dies (some c) y.grains 1)
          c p.pid (p.grants + 1) y.solo) c (s.m.core c).ck.threads) c⟩) ∧
    (storesDone s.m c = false ∨ soloBlocks s.m p.dies (some c) y.grains = true ∨ (s.m.die (c / 64)).fatal = true →
      exec (.tidemarkGrant c) s = .next ⟨s.agenda, s.m⟩)) ∧
  (∀ (l : List (Nat × Byte)) (m : Mach), (∀ a, (∀ e ∈ l, e.1 ≠ a) → cget (publishCells m l).mem a = cget m.mem a) ∧
    ∀ e ∈ l, (∀ f ∈ l, f.1 = e.1 → f = e) → cget (publishCells m l).mem e.1 = e.2) ∧
  (∀ (m : Mach) (r : Red) (l : List Red), publishReds m [] = m ∧ publishReds m (r :: l) =
    publishReds (publishBytes m r.pa (natBytes r.n (atomNew r.op r.n (bytesNat (cread m.mem r.pa r.n)) r.v 0))) l) ∧
  (∀ (m : Mach) (dies : List Nat) (c kind : Nat) (gs : List (Nat × Nat)), m.cores.Pairwise (fun a b => a.1 ≠ b.1) →
    (conflicts m dies (some c) gs kind).mem = m.mem ∧ (conflicts m dies (some c) gs kind).core c = m.core c ∧
    ∀ d k, (d, k) ∈ m.cores → d ≠ c →
      (d / 64 ∈ dies → k.openC.meets gs = true ∨ (∃ y, k.comC = some y ∧ y.meets gs = true) →
        ((conflicts m dies (some c) gs kind).core d).sq = k.sq + 1 ∧ ((conflicts m dies (some c) gs kind).core d).comC = none) ∧
      (d / 64 ∉ dies ∨ (k.openC.meets gs = false ∧ ∀ y, k.comC = some y → y.meets gs = false) →
        (conflicts m dies (some c) gs kind).core d = k)) ∧
  (∀ (m : Mach) (c kind : Nat) (k : Core) (ck : Ckpt), k = m.core c → ck = (if k.comC = none then k.ck else k.comCk) →
    (squash m c kind).core c = { k with
      openC := { serial := k.openC.serial + 1, opened := (m.die (c / 64)).clk
                 solo := k.openC.solo || k.soloNext || (k.comC.map (fun y => y.solo)).getD false }
      comC := none, soloNext := false, ck := ck, comCk := {}, yielded := [], run := min (k.run + 1) 4, sq := k.sq + 1
      due := k.due.filter (fun d => d == 11 || d == 12 || d == 13), lastSq := kind } ∧
    (∀ r ∈ (squash m c kind).running, r.core ≠ c) ∧
    (∀ (t o : Thread), m.thread? t.gid t.tix = some t →
      ck.threads.find? (fun x => x.gid == t.gid && x.tix == t.tix) = some o → (squash m c kind).thread? t.gid t.tix =
        some { o with prs := t.prs, demoted := false, ageing := 0, aged := false, poll := false })) ∧
  (∀ (m : Mach) (c pid mark : Nat) (solo : Bool), endCommit m c pid mark solo = (
    let m' := m.updCore c (fun k => { k with
      mark := mark, run := 0, comC := none, comCk := {}, openC := { k.openC with solo := k.openC.solo || k.soloNext }
      soloNext := false, soloHas := k.soloHas && !solo })
    if solo then m'.updPart pid (fun p => { p with solo := p.solo.filter (fun x => x != c) }) else m')) ∧
  (∀ (s : State) (c : Nat) (p : Part), partOfCore s.m c = some p →
    ((s.m.core c).run = 4 → c ∉ p.solo → exec (.runCountLimit c) s = .next ⟨s.agenda,
      s.m.updPart p.pid (fun p => { p with solo := p.solo ++ [c] })⟩) ∧
    ((s.m.core c).run ≠ 4 ∨ c ∈ p.solo → exec (.runCountLimit c) s = .next ⟨s.agenda, s.m⟩) ∧
    (p.solo.head? = some c → exec (.soloGrant c) s = .next ⟨s.agenda, s.m.updCore c (fun k => { k with soloHas := true })⟩) ∧
    (p.solo.head? ≠ some c → exec (.soloGrant c) s = .next ⟨s.agenda, s.m⟩))

/-- R282, R285, R287 to R297 and R313 to R317: the command that each word of the tile class issues. Where it rests on
a reading or a choice of the model, that is logs 34 and 56. -/
def Obligations.TileCommands : Prop :=
  (∀ (s : State) (r : Running) (t : Thread) (g : Guard), Escapes s r t g →
    let credit (m : Mach) : Host.Outcome State Fault Refusal := .next ⟨s.agenda, creditWord m r t 6 1⟩
    let K := s.m.core r.core
    let x := s.m.recOf t.gid
    let slotW (n : Nat) : Nat := (x.slots.getD n 0).toNat
    let tab (e : Elem) : List Nat × Option Bool := if e = .q4t then (if K.codeCur then K.code1 else K.code0, some K.codeCur) else ([], none)
    (∀ k fr d, exec (.tzero g k fr d) s = credit (issued s.m r t d true (commandOf r t k 0x280 (.zero fr) none))) ∧
    (∀ y e, y.g = g → slotOf x.slots y.slot = some e → ∀ o st, o = (t.rd y.a).toNat → st = (t.rd y.b).toNat →
      (o % 8 ≠ 0 ∨ st % 8 ≠ 0 → ∀ i ∈ [Instr.tld y, .tst y], exec i s = .next ⟨s.agenda,
        withThread s.m t (raised (misalignAt r o 8 1))⟩) ∧
      (o % 8 = 0 → st % 8 = 0 → x.scratch < o + 31 * st + 32 * e.bits / 8 →
        exec (.tld y) s = credit (superFault s.m t 2 0x0203 0 0 o ⟨r.hdr, r.idx⟩) ∧
        exec (.tst y) s = credit (superFault s.m t 2 0x0203 1 0 o ⟨r.hdr, r.idx⟩)) ∧
      (o % 8 = 0 → st % 8 = 0 → o + 31 * st + 32 * e.bits / 8 ≤ x.scratch →
        exec (.tld y) s = credit (issued s.m r t y.d true (fun n => { commandOf r t y.tile 0x281
          (.ld o st (slotW y.slot) (tab e).1) (r.flag y.sel) n with bank := (tab e).2 })) ∧
        exec (.tst y) s = credit (issued s.m r t y.d true (commandOf r t y.tile 0x282
          (.st o st (slotW y.slot)) (r.flag y.sel))))) ∧
    (∀ d a fl o, o = (t.rd a).toNat →
      Misaligned (.tmma g d a fl) s r t o 64 ∧ Misaligned (.tcode g d a fl) s r t o 32 ∧
      (o % 64 = 0 → padOk s.m t.gid o 64 = false → exec (.tmma g d a fl) s = credit (padRefused s.m r t .load o 64)) ∧
      (o % 32 = 0 → padOk s.m t.gid o 32 = false → exec (.tcode g d a fl) s = credit (padRefused s.m r t .load o 32)) ∧
      (∀ bs b, bs = padRead s.m t.gid o 64 → b = Mma.ofBytes bs → o % 64 = 0 → padOk s.m t.gid o 64 = true →
        exec (.tmma g d a fl) s = credit (issued s.m r t d (b.ok (slotW b.aslot) (slotW b.bslot) x.scratch) (fun n =>
          { commandOf r t (b.tile % 4) 0x283 (.mma bs (BitVec.ofNat 32 (slotW b.aslot)) (BitVec.ofNat 32 (slotW b.bslot))
              (tab ((slotElem (slotW b.bslot)).getD .fp32)).1) (r.flag fl) n with
            bank := (tab ((slotElem (slotW b.bslot)).getD .fp32)).2 }))) ∧
      (∀ img, img = (List.range 16).map (fun i => fieldAt (padRead s.m t.gid o 32) (2 * i) 2) → o % 32 = 0 →
        padOk s.m t.gid o 32 = true → exec (.tcode g d a fl) s =
          credit (issued s.m r t d true (commandOf r t 0 0x286 (.code img) (r.flag fl))))) ∧
    (∀ tx ty d a fl, exec (.tdadd g tx ty d a fl) s = credit (issued s.m r t d (descOk s.m.pkg (t.rdD a).toNat)
      (commandOf r t tx 0x284 (.dadd (t.rdD a).toNat ty) (r.flag fl)))) ∧
    (∀ tile pv inv d fl, exec (.pvap g tile pv inv d fl) s = credit (issued s.m r t d true
      (commandOf r t tile 0x28B (.pvap pv inv) (r.flag fl)))) ∧
    (∀ y n k, y.g = g → n = (t.rd y.a).toNat → k = (t.rd y.c).toNat →
      let go (opc : Nat) (op : TOp) (ok : Bool) := credit (issued s.m r t y.d ok (fun i =>
        { commandOf r t y.tile opc op (r.flag y.sel) i with res := some y.b }))
      exec (.tlu y) s = go 0x287 (.lu y.sec n) (inSize n) ∧ exec (.tchol y) s = go 0x288 (.chol n) (inSize n) ∧
      exec (.tqr y) s = go 0x289 (.qr y.sec n k) (inSize n && decide (1 ≤ k ∧ k ≤ n) && y.sec != y.tile) ∧
      ∀ tr unit up, exec (.ttrsm tr unit up y) s = go 0x28A (.trsm y.sec n k tr unit up)
        (inSize n && inSize k && y.sec != y.tile))) ∧
  (∀ (k : Core) (gid : Nat) (tiles : List Nat) (pv : Option Nat),
    (foreign k gid tiles pv = true ↔ (∃ i ∈ tiles, ∃ t, lget k.tiles i = some t ∧ t.gid ≠ gid) ∨
      ∃ i p, pv = some i ∧ lget k.pvs i = some p ∧ p.gid ≠ gid) ∧
    (claim k gid tiles pv = { k with tiles := (claim k gid tiles pv).tiles, pvs := (claim k gid tiles pv).pvs }) ∧
    (∀ i, lget (claim k gid tiles pv).tiles i = if lget k.tiles i = none ∧ i ∈ tiles then some { gid := gid } else lget k.tiles i) ∧
    (∀ i, lget (claim k gid tiles pv).pvs i = if lget k.pvs i = none ∧ pv = some i then some { gid := gid } else lget k.pvs i)) ∧
  (∀ pkg d, d < 2 ^ 64 → (descOk pkg d = true ↔ d < 2 ^ 25 ∧
    ((d % 4 = 0 ∧ d < 16) ∨ (d % 4 = 1 ∧ d / 4 % 4 = 0 ∧ d < 1024) ∨
      (d % 4 = 2 ∧ d / 4 % 4 = 0 ∧ d / 2 ^ 12 ≠ pkg))))

/-- R285, R303 and R304 with Table 18-4: how a tile command ends, and R299 and R300: `twait` and `tstat`. Where it
rests on a reading or a choice of the model, that is logs 20, 24 and 33. -/
def Obligations.TileEnds : Prop :=
  (∀ (m : Mach) (c : Nat) (x : TCmd) (st est : Nat), ∃ m', m' = m.updCore c (fun k => { k with
      tcmds := k.tcmds.filter (fun y => !x.same y), tileFail := if st = 0 then k.tileFail else x.n
      tileStat := if st = 0 then k.tileStat else st }) ∧
    (x.res = none → finishCmd m c x st est = freeTl m' c true) ∧
    (∀ b, x.res = some b → st < 256 → x.step < 256 → ∃ w : Word, w.toNat = st + 2 ^ 8 * x.step + (if x.resumed then 2 ^ 16 else 0) ∧
      finishCmd m c x st est = freeTl (updBoth m' x.gid x.tix (fun t => (t.wr b w).wr (b + 1) (BitVec.ofNat 32 est))) c true)) ∧
  (∀ (s : State) (r : Running) (t : Thread) (g : Guard) (tile d a : Nat), Escapes s r t g →
    (foreign (s.m.core r.core) t.gid [tile] none = true → exec (.twait g tile d a) s = .next ⟨s.agenda,
      creditWord (withThread s.m t (fun u => u.wr d 0xFFFFFFFF)) r t 7 1⟩) ∧
    (∀ tl n, foreign (s.m.core r.core) t.gid [tile] none = false → n = (t.rd a).toNat →
      tl = (lget (s.m.core r.core).tiles tile).getD { gid := t.gid } →
      let on (x : Tile) : Mach := s.m.updCore r.core (fun k => { k with tiles := lput k.tiles tile x })
      (n = 0 ∨ (tl.waiters = [] ∧ n ≤ tl.inbound) → ∃ m, exec (.twait g tile d a) s = .next ⟨s.agenda, creditWord m r t 7 1⟩ ∧
        (∀ i, lget (m.core r.core).tiles i = lget ((on { tl with inbound := tl.inbound - n }).core r.core).tiles i) ∧
        m.threads = (withThread s.m t (fun u => u.wr d (BitVec.ofNat 32 (tl.inbound - n)))).threads ∧
        ∃ l, m = { s.m with threads := m.threads, cores := (s.m.updCore r.core (fun k => { k with tiles := l })).cores }) ∧
      (n ≠ 0 → (tl.waiters ≠ [] ∨ tl.inbound < n) → ∃ m, exec (.twait g tile d a) s = .next ⟨s.agenda, creditWord m r t 7 1⟩ ∧
        (∀ i, lget (m.core r.core).tiles i = lget ((on { tl with waiters := tl.waiters ++ [t.tix] }).core r.core).tiles i) ∧
        m.threads = (withThread s.m t (leftPack (.waiting (.tile tile n d)) ⟨(linkOf r).toNat, 0⟩)).threads ∧
        ∃ l, m = { s.m with threads := m.threads, cores := (s.m.updCore r.core (fun k => { k with tiles := l })).cores }))) ∧
  (∀ (s : State) (r : Running) (t : Thread) (g : Guard) (tile d : Nat), Alone s r t g → ∀ K, K = s.m.core r.core →
    let put (v : DWord) : Host.Outcome State Fault Refusal := .next ⟨s.agenda, withThread s.m t (fun u => u.wrD d v)⟩
    exec (.tstat g .fail tile d) s = put (BitVec.ofNat 64 K.tileFail) ∧
    exec (.tstat g .status tile d) s = put (BitVec.ofNat 64 K.tileStat) ∧
    (lget K.tiles tile = none → exec (.tstat g .tile tile d) s = put 0) ∧
    (∀ tl, lget K.tiles tile = some tl → tl.inbound < 2 ^ 32 → tileStep K tile < 256 → ∃ v : DWord,
      exec (.tstat g .tile tile d) s = put v ∧ v.toNat / 2 ^ 32 = tl.inbound ∧ v.toNat / 2 ^ 8 % 2 ^ 8 = tileStep K tile ∧
      (v.getLsbD 4 = true ↔ tl.gid = t.gid) ∧ v.toNat % 2 ^ 4 =
        if ∃ x ∈ K.tcmds, tile ∈ x.tiles ∧ x.halt ≠ none then 3 else if ∃ x ∈ K.tcmds, tile ∈ x.tiles then 2 else 1))

/-- R280, R283, R284, R287 to R293 and R306 to R308: tile commands are performed and end; R297 to R299 and R413:
drain-adds arrive and are acknowledged. The numbers of new objects (`nextId`) are the model's (log 1). Where it rests
on a reading or a choice of the model, that is logs 23 and 34. -/
def Obligations.TileEvents : Prop :=
  (∀ (s : State) (c gid n : Nat) (x : TCmd), (s.m.core c).tcmds.find? (fun y => y.gid == gid && y.n == n && !(y.halt.isSome || y.sent)) = some x →
    let done (m : Mach) : Prop := exec (.tileCommandComplete c gid n) s = .next ⟨s.agenda, finishCmd m c x 0 0⟩
    let el := (((lget (s.m.core c).tiles x.tile).map (·.el)).getD [])
    let pad := ((s.m.group? x.gid).map (·.spad)).getD []
    (x.op.factor = false → mayBegin s.m (s.m.core c) x = false → exec (.tileCommandComplete c gid n) s = .next s) ∧
    (x.op.factor = false → mayBegin s.m (s.m.core c) x = true → cmdBad s.m c x = true →
      exec (.tileCommandComplete c gid n) s = .next ⟨s.agenda, softHalt s.m c x⟩) ∧
    (mayBegin s.m (s.m.core c) x = true → cmdBad s.m c x = false →
      (x.op = .zero false → done (updTile (tileGood s.m x.gid x.tile) c x.tile (fun tl => { tl with el := [] }))) ∧
      (x.op = .zero true → ((∀ y ∈ (s.m.core c).tcmds, x.n < y.n → y.gid = x.gid → x.tile ∉ y.tiles) →
          done ((tileGood s.m x.gid x.tile).updCore c (fun k => { k with tiles := ldel k.tiles x.tile }))) ∧
        ((∃ y ∈ (s.m.core c).tcmds, x.n < y.n ∧ y.gid = x.gid ∧ x.tile ∈ y.tiles) →
          done (updTile (tileGood s.m x.gid x.tile) c x.tile (fun tl => { tl with el := [], inbound := 0, step := 0 })))) ∧
      (∀ off st w code e, x.op = .ld off st w code → slotElem w = some e →
        done (updTile (tileGood s.m x.gid x.tile) c x.tile (fun tl => { tl with el := loadTile pad off st e code }))) ∧
      (∀ off st w e, x.op = .st off st w → slotElem w = some e →
        done ((List.range 32).foldl (fun m i => padWriteOut m x.gid (off + i * st) (drainRow el e i)) s.m)) ∧
      (∀ blk sa sb code, x.op = .mma blk sa sb code → done (updTile s.m c x.tile (fun tl => { tl with
        el := mmaTile (Mma.ofBytes blk) sa.toNat sb.toNat code pad (s.m.core c).wbuf tl.el }))) ∧
      (∀ img, x.op = .code img → done (({ s.m with bad := s.m.bad.filter (fun b => b != .codeTab c) } : Mach).updCore c (fun k =>
        { k with code0 := if k.codeCur then img else k.code0, code1 := if k.codeCur then k.code1 else img
                 codeCur := !k.codeCur }))) ∧
      (∀ desc ty, x.op = .dadd desc ty →
        ((daddTarget s.m c x desc).pkg = none ∨ fabricUp s.m (c / 64) = true → exec (.tileCommandComplete c gid n) s = .next ⟨s.agenda,
          let m := s.m.updCore c (fun k => { k with tcmds := k.tcmds.map (fun y => if x.same y then { y with sent := true } else y) })
          { m with dadds := m.dadds ++ [{ daddTarget s.m c x desc with ty := ty, el := el }] }⟩) ∧
        ((daddTarget s.m c x desc).pkg ≠ none → fabricUp s.m (c / 64) = false → exec (.tileCommandComplete c gid n) s =
          .next ⟨s.agenda, finishCmd s.m c x 3 0⟩))) ∧
    (∀ pv, x.op.factor = true → pv = ((x.op.pv?.bind (fun i => lget (s.m.core c).pvs i)).getD { gid := x.gid }) →
      (x.step = x.op.steps pv → x.begun = true → exec (.tileCommandComplete c gid n) s = .next ⟨s.agenda,
        finishCmd (updTile s.m c x.tile (fun tl => { tl with step := 0 })) c x 0 (x.op.estimateOf el x.mx)⟩) ∧
      (x.step ≠ x.op.steps pv → exec (.tileCommandComplete c gid n) s = .next s))) ∧
  (∀ (pad wbuf : List Host.Cell) (off st : Nat) (e : Elem) (code : List Nat) (a b : List (Nat × DWord)) (k : Mma) (wa wb : Nat) (ea eb : Elem),
    slotElem wa = some ea → slotElem wb = some eb → k.n ≤ 32 → ∀ i j, i < 32 → j < 32 →
    tget (loadTile pad off st e code) i j =
      (BitVec.ofNat 64 (round48 (decodeE e code (packedMem pad (off + i * st) e.bits j)))).toNat ∧
    tget (addTile a b) i j = (BitVec.ofNat 64 (round48 (FVal.sum [tval a i j, tval b i j]))).toNat ∧
    tget (mmaTile k wa wb code pad wbuf a) i j = if i < k.m ∧ j < k.n then
      (BitVec.ofNat 64 (mmaElem k wa wb ea eb code pad wbuf i j (tget a i j))).toNat else tget a i j) ∧
  (∀ (s : State) (c gid n : Nat) (x : TCmd) (g : Group), s.m.group? x.gid = some g → (s.m.core c).tcmds.find? (fun y =>
      y.gid == gid && y.n == n && y.op.factor && y.halt.isNone) = some x → ∀ W, W = workOf (s.m.core c) x →
    (g.stat = .faulted → exec (.factorisationStep c gid n) s = .next ⟨s.agenda, finishCmd s.m c x 2 0⟩) ∧
    (g.stat = .saving → exec (.factorisationStep c gid n) s = .next s) ∧
    (g.stat ≠ .saving → g.stat ≠ .faulted → cmdBad s.m c x = false →
      (x.begun = false → mayBegin s.m (s.m.core c) x = true → exec (.factorisationStep c gid n) s = .next ⟨s.agenda, beginCmd s.m c x⟩) ∧
      (x.begun = true → arrayFree s.m (s.m.core c) x = true →
        (x.op.steps W.pv ≤ x.step → exec (.factorisationStep c gid n) s = .next s) ∧
        (∀ w, x.step < x.op.steps W.pv → x.op.step W x.step x.val = .ok w → exec (.factorisationStep c gid n) s = .next ⟨s.agenda,
          s.m.updCore c (fun k => { putWork k x w with tcmds := (putWork k x w).tcmds.map (fun y =>
            if x.same y then { y with step := x.step + 1, val := none, holds := true } else y) })⟩) ∧
        (∀ h, x.step < x.op.steps W.pv → x.op.step W x.step x.val = .error h → exec (.factorisationStep c gid n) s = .next ⟨s.agenda,
          haltNotify (s.m.updCore c (fun k => { k with tcmds := k.tcmds.map (fun y =>
            if x.same y then { y with halt := some h, val := none, holds := false } else y) })) { x with halt := some h }⟩)))) ∧
  (∀ (s : State) (gid n : Nat) (d : DAdd), s.m.dadds.find? (fun y => y.gid == gid && y.n == n && y.ans.isNone) = some d →
    ((∃ e ∈ s.m.dadds, e.core = d.core ∧ e.n < d.n ∧ e.ans = none ∧ daddPlace s.m e = daddPlace s.m d) ∨
      (∃ x ∈ (s.m.core d.core).tcmds, daddAhead s.m d x = true) → exec (.tdaddArrival gid n none) s = .next s) ∧
    ((∀ e ∈ s.m.dadds, e.core = d.core → e.n < d.n → e.ans = none → daddPlace s.m e ≠ daddPlace s.m d) →
      (∀ x ∈ (s.m.core d.core).tcmds, daddAhead s.m d x = false) →
    (d.ok = false → exec (.tdaddArrival gid n none) s = .next ⟨s.agenda, answerAdd s.m d 3⟩) ∧
    (∀ g, d.ok = true → d.pkg = none → d.toGid = some g →
      (∀ gr, s.m.group? g = some gr → gr.stat ≠ .exited → gr.stat ≠ .faulted → gr.stat ≠ .saved →
        (∀ o m, tileOwner s.m gr.core d.ty = some o → o.gid = g → applyAdd s.m gr.core d.ty d.el = some m →
          exec (.tdaddArrival gid n none) s = .next ⟨s.agenda, answerAdd m d 0⟩) ∧
        ((∀ o, tileOwner s.m gr.core d.ty = some o → o.gid ≠ g) →
          exec (.tdaddArrival gid n none) s = .next ⟨s.agenda, answerAdd s.m d 3⟩)) ∧
      (∀ gr, s.m.group? g = some gr → gr.stat = .saved → exec (.tdaddArrival gid n none) s = .next s) ∧
      ((s.m.group? g = none ∨ ∃ gr, s.m.group? g = some gr ∧ (gr.stat = .exited ∨ gr.stat = .faulted)) →
        exec (.tdaddArrival gid n none) s = .next ⟨s.agenda, answerAdd s.m d 3⟩)) ∧
    (d.ok = true → d.pkg = none → d.toGid = none →
      (∀ o m, tileOwner s.m d.target d.ty = some o → cidOf s.m o.gid = d.cid → applyAdd s.m d.target d.ty d.el = some m →
        exec (.tdaddArrival gid n none) s = .next ⟨s.agenda, answerAdd m d 0⟩) ∧
      ((∀ o, tileOwner s.m d.target d.ty = some o → cidOf s.m o.gid ≠ d.cid) →
        exec (.tdaddArrival gid n none) s = .next ⟨s.agenda, answerAdd s.m d 3⟩)) ∧
    (d.ok = true → d.pkg ≠ none → ∃ st, (st = 0 ∨ st = 3) ∧ exec (.tdaddArrival gid n none) s = .next ⟨s.agenda,
      answerAdd { s.m with nextId := s.m.nextId + 1 } d st⟩))) ∧
  (∀ (s : State) (a : PeerAdd) (gid n : Nat) (o : Group) (p : Part) (m : Mach), tileOwner s.m a.core a.tile = some o → s.m.partOf (a.core / 64) = some p →
    (∃ b ∈ p.binds, b.pkg = a.pkg ∧ b.ctx = a.ctx ∧ b.cid = cidOf s.m o.gid) → applyAdd s.m a.core a.tile a.el = some m →
    exec (.tdaddArrival gid n (some a)) s = .next ⟨s.agenda, { m with outbox := [a.pkg, a.ctx, 0] :: m.outbox }⟩) ∧
  (∀ (s : State) (gid n : Nat) (d : DAdd) (x : TCmd), s.m.dadds.find? (fun y => y.gid == gid && y.n == n && y.ans.isSome) = some d →
    (s.m.core (s.m.coreOf d.gid)).tcmds.find? (fun y => y.gid == d.gid && y.n == n && y.sent) = some x →
    exec (.tdaddAck gid n) s = .next ⟨s.agenda, finishCmd { s.m with dadds := s.m.dadds.filter (fun y => !(y.gid == gid && y.n == n)) }
      (s.m.coreOf d.gid) x (d.ans.getD 0) 0⟩) ∧
  (∀ (m : Mach) (c i : Nat) (tl : Tile) (x : List (Nat × DWord)), lget (m.core c).tiles i = some tl →
    (tl.inbound + 1 < 2 ^ 32 → (∀ y ∈ (m.core c).tcmds, y.begun = true → i ∉ y.tiles) → applyAdd m c i x = some (serve (m.updCore c (fun k =>
      { k with tiles := lput k.tiles i { tl with el := addTile tl.el x, inbound := tl.inbound + 1 } })) c i)) ∧
    (tl.inbound + 1 = 2 ^ 32 ∨ (∃ y ∈ (m.core c).tcmds, y.begun = true ∧ i ∈ y.tiles) → applyAdd m c i x = none))

/-- R326, R328, R331 and R333 to R337: what the effect instructions plan, and that the word does what is planned.
Where it rests on a reading or a choice of the model, that is logs 6, 14, 22, 30, 77, 86 and 102. -/
def Obligations.EffectWords : Prop :=
  (∀ (s : State) (r : Running) (t : Thread) (g : Guard), Alone s r t g → ∀ a d id off entry fl multi,
    Performs s r t (.handle g id d off entry) 2 false (handlePlan r id d off entry) ∧
    Performs s r t (.endh g) 1 false endhPlan ∧ Performs s r t (.perform g multi id) 1 multi (performPlan r multi id) ∧
    Performs s r t (.resume g a) 1 false (resumePlan r a) ∧ Performs s r t (.drop g a) 1 false (dropPlan a) ∧
    Performs s r t (.hret g) 1 false hretPlan ∧ Performs s r t (.hstat g fl d a) 1 false (hstatPlan fl d a) true) ∧
  ∀ (m : Mach) (t : Thread) (r : Running) (x : Fx) (fr : Frame) (sp v n : Nat), sp = (t.rdD 4).toNat →
    v = (t.rdD 20).toNat → n = (m.recOf t.gid).regs →
    (∀ id d off entry dp top, top = (t.rdD d).toNat →
      (t.hsp = 0 ∧ dp = 1 ∧ x = fxOf m t ∨ t.hsp ≠ 0 ∧ (fxOf m t).frame t.hsp.toNat = .ok (x, fr) ∧ dp = fr.depth + 1) →
      handlePlan r id d off entry m t =
        if sp % 32 ≠ 0 then .error (.eff 2 sp 32 []) else if top % 16 ≠ 0 then .error (.eff 2 top 16 [])
        else if entry % 8 ≠ 0 ∨ canonical entry = false then .error (.eff 2 entry 8 [])
        else if 65535 < dp then .error (.eff 10 0 3 x.rds)
        else .ok { x := x, wrs := [(below sp 32, Frame.bytes ⟨id, entry, 1, 0, addr64 ((r.hdr : Int) + 8 * off), 0, top, 0, dp, t.hsp.toNat⟩)],
                   f := fun u => { u.wrD 4 (BitVec.ofNat 64 (below sp 32)) with hsp := BitVec.ofNat 64 (below sp 32) } }) ∧
    (∀ multi id f y z snap, (multi = true → sp % 16 = 0 ∧ sp ≤ f) → z = (if multi then f - sp else 0) → z ≤ 4096 →
      Fx.search id 64 (fxOf m t) t.hsp.toNat = .ok (x, some (f, fr)) →
      x.readAfter t [(below fr.top 160, savedBody t n ++ recHeader t ⟨r.nextHdr, 0⟩ 0 id 96 0 false multi z)] sp z = .ok (y, snap) →
      performPlan r multi id m t = .ok {
        x := y
        wrs := (below fr.top 160, savedBody t n ++ recHeader t ⟨r.nextHdr, 0⟩ 0 id 96 0 false multi z) ::
          pieces (z / 16 + 1) (below (below fr.top 160) z) snap ++
          [(f, (if multi then { fr with state := 2, s := nextGen t.gen } else { fr with state := 2, p := nextGen t.gen }).bytes)]
        f := fun u => { enterThread u f fr id (below (below fr.top 160) z) with pend := u.pend } }) ∧
    (∀ multi id, (multi = true → sp % 16 ≠ 0 → performPlan r multi id m t = .error (.eff 2 sp 16 [])) ∧
      ((multi = true → sp % 16 = 0) → (Fx.search id 64 (fxOf m t) t.hsp.toNat = .ok (x, none) →
          performPlan r multi id m t = .error (.eff 10 id 1 x.rds)) ∧
        ∀ f, Fx.search id 64 (fxOf m t) t.hsp.toNat = .ok (x, some (f, fr)) → multi = true → f < sp ∨ 4096 < f - sp →
          performPlan r multi id m t = .error (.eff 10 id 5 x.rds))) ∧
    (∀ f h y z bs, x.header ((fr.top + 96) % 2 ^ 64) = .ok (y, h) →
      y.readAfter t [(f, { fr with top := h.prev, ov := if h.ov then 1 else 0, state := 2 : Frame }.bytes)] fr.top 96 = .ok (z, bs) →
      toResumer x t n f fr (BitVec.ofNat 64 v) = .ok {
        x := z
        wrs := [(f, { fr with top := h.prev, ov := if h.ov then 1 else 0, state := 2 : Frame }.bytes)]
        f := fun u => (returnThread u n h bs false).wrD 20 (BitVec.ofNat 64 v) }) ∧
    (t.hsp = 0 → endhPlan m t = .error (.eff 10 0 3 [])) ∧
    (∀ f, f = t.hsp.toNat → f ≠ 0 → (fxOf m t).frame f = .ok (x, fr) →
      (fr.state = 1 → endhPlan m t = .ok { x := x, wrs := [(f, { fr with state := 0, p := 0, s := 0 : Frame }.bytes)],
                                           f := fun u => { u.wrD 4 (BitVec.ofNat 64 ((f + 32) % 2 ^ 64)) with
                                             hsp := BitVec.ofNat 64 fr.link } }) ∧
      (fr.state = 3 → endhPlan m t = toResumer x t n f fr (BitVec.ofNat 64 v)) ∧
      (fr.state ≠ 1 → fr.state ≠ 3 → endhPlan m t = .error (.eff 10 0 4 x.rds))) ∧
    (∀ a g tok, tok = (t.rd a).toNat → g = tok / 2 ^ 16 → ∀ k, Fx.find tok 64 (fxOf m t) t.hsp.toNat = .ok (x, k) →
      (∀ c, k = .dead c → resumePlan r a m t = .error (.eff 8 tok c x.rds) ∧ dropPlan a m t = .error (.eff 8 tok c x.rds) ∧
        ∀ d, hstatPlan .tok d a m t = .ok { x := x, wrs := [], f := fun u => u.wr d 0 }) ∧
      (∀ f y h, k = .live f fr → x.header (below fr.top 64) = .ok (y, h) →
        (h.resumable = false → resumePlan r a m t = .error (.eff 8 tok 3 y.rds)) ∧
        (h.resumable = true → sp % 16 ≠ 0 → resumePlan r a m t = .error (.eff 2 sp 16 y.rds)) ∧
        (∀ size z q bs snap ws, h.resumable = true → sp % 16 = 0 → size = (if h.kind = 1 then 4 * n else 96) →
          ws = [(below sp 160, savedBody t n ++ recHeader t ⟨r.nextHdr, 0⟩ 2 0 96 fr.top (fr.ov == 1) false 0),
                (f, { fr with top := below sp 160, ov := 1, state := 3, p := if g = fr.s then fr.p else 0 : Frame }.bytes)] →
          (if g = fr.s then y.readAfter t ws (below (below fr.top (64 + size)) h.seg) h.seg else .ok (y, [])) = .ok (z, snap) →
          z.readAfter t (ws ++ pieces (snap.length / 16 + 1) h.sp snap) (below fr.top (64 + size)) size = .ok (q, bs) →
          resumePlan r a m t = .ok {
            x := q
            wrs := ws ++ pieces (snap.length / 16 + 1) h.sp snap
            f := fun u =>
              let w := resumeValue t h g (BitVec.ofNat 64 v) (returnThread u n h bs (h.kind == 1))
              if g = fr.s then w else w.forget g
            esc := h.halted, k := resumeMach t h g (BitVec.ofNat 64 v) }) ∧
        (∀ gs ns, gs = (if g = fr.s then [] else [g]) ++ Fx.lost 256 x [(h.hsp, f)] → ns = haltsOf t gs →
          dropPlan a m t = .ok { x := x, wrs := [(f, (if g = fr.s then { fr with s := 0 } else { fr with p := 0 } : Frame).bytes)],
                                 f := fun u => u.forgetAll gs, esc := !ns.isEmpty, k := dropMach t.gid ns }) ∧
        ∀ d, hstatPlan .tok d a m t = if g = fr.s then .ok { x := x, wrs := [], f := fun u => u.wr d 2 }
          else .ok { x := y, wrs := [], f := fun u => u.wr d (if h.resumable then 1 else 3) })) ∧
    (∀ d a, hstatPlan .gen d a m t = .ok { x := fxOf m t, wrs := [], f := fun u => u.wr d (BitVec.ofNat 32 t.gen) } ∧
      (t.hsp = 0 → hstatPlan .depth d a m t = .ok { x := fxOf m t, wrs := [], f := fun u => u.wr d 0 }) ∧
      (t.hsp ≠ 0 → (fxOf m t).frame t.hsp.toNat = .ok (x, fr) →
        hstatPlan .depth d a m t = .ok { x := x, wrs := [], f := fun u => u.wr d (BitVec.ofNat 32 fr.depth) })) ∧
    (∀ gs k, k ∈ haltsOf t gs ↔ ∃ g ∈ gs, g ≠ 0 ∧ lget t.halts g = some k) ∧
    (∀ j a z l, (a = z ∨ a = 0 → Fx.lost (j + 1) x ((a, z) :: l) = Fx.lost j x l) ∧
      (a ≠ z → a ≠ 0 → ∀ y, x.frame a = .ok (y, fr) → fr.state = 2 → fr.ov ≠ 1 →
        ∀ q h, y.header (below fr.top 64) = .ok (q, h) →
        Fx.lost (j + 1) x ((a, z) :: l) = fr.p :: Fx.lost j y ((h.hsp, a) :: (fr.link, z) :: l))) ∧
    (Fx.active 64 (fxOf m t) t.hsp.toNat = .ok (x, none) → hretPlan m t = .error (.eff 10 0 4 x.rds)) ∧
    (∀ f y h, Fx.active 64 (fxOf m t) t.hsp.toNat = .ok (x, some (f, fr)) → x.header (below fr.top 64) = .ok (y, h) →
      ∀ gs k ends, gs = fr.p :: Fx.lost 256 y [(t.hsp.toNat, f), (h.hsp, f)] → k = haltsOf t gs →
        ends = (fun u : Thread => { u.forgetAll gs with brokenAt := if h.kind = 1 ∧ h.eff = 6 then none else u.brokenAt }) →
      (fr.ov ≠ 1 → ∃ p, hretPlan m t = .ok p ∧ p.x = y ∧ p.esc = !k.isEmpty ∧ p.k = dropMach t.gid k ∧
        p.wrs = [(f, { fr with p := 0, state := 0, s := 0 : Frame }.bytes)] ∧
        p.f t = ends ({ t.wrD 4 (BitVec.ofNat 64 ((f + 32) % 2 ^ 64)) with hsp := BitVec.ofNat 64 fr.link }.goTo fr.exit)) ∧
      (fr.ov = 1 → ∀ q, toResumer y t n f { fr with p := 0, s := if h.multi then 0 else fr.s } (BitVec.ofNat 64 v) = .ok q →
        ∃ p, hretPlan m t = .ok p ∧ p.x = q.x ∧ p.esc = !k.isEmpty ∧ p.k = dropMach t.gid k ∧ p.wrs = q.wrs ∧ p.f t = ends (q.f t)))

/-- R320, R322, R324, R327 and R332: frames, records, generations and the searches, and what restoring a record gives.
R330: the delivery of a built-in effect, and what becomes of one that no frame answers. Where it rests on a reading or
a choice of the model, that is logs 6, 28, 29, 86 and 102. -/
def Obligations.HandlerRecords : Prop :=
  ((∀ f : Frame, f.id < 2 ^ 16 → f.p < 2 ^ 16 → f.s < 2 ^ 16 → f.depth < 2 ^ 16 → f.state < 8 → f.ov < 2 →
    f.entry % 8 = 0 → f.exit % 8 = 0 → f.top % 16 = 0 → f.link % 32 = 0 →
    (∀ a ∈ [f.entry, f.exit, f.top, f.link], canonical a = true ∧ a < 2 ^ 64) → f.bytes.length = 32 ∧
    Frame.ofDwords (fieldAt f.bytes 0 8) (fieldAt f.bytes 8 8) (fieldAt f.bytes 16 8) (fieldAt f.bytes 24 8) = f) ∧
  (∀ (t : Thread) (pos : Pos) (kind eff body prev seg : Nat) (ov multi : Bool), pos.hdr < 2 ^ 64 → pos.idx < 16 →
    kind < 2 ^ 16 → eff < 2 ^ 16 → prev < 2 ^ 64 → seg < 2 ^ 32 →
    (recHeader t pos kind eff body prev ov multi seg).length = 64 ∧
    RecHdr.ofBytes (recHeader t pos kind eff body prev ov multi seg) = {
      pos := pos, kind := kind, eff := eff, sp := (t.rdD 4).toNat, ra := (t.rdD 2).toNat, hsp := t.hsp.toNat
      prev := prev, preds := t.pr.toNat / 2 * 2 + 1, ov := ov, multi := multi, seg := seg }) ∧
  (∀ (t u : Thread) (n : Nat) (h : RecHdr), (savedBody t n).length = 96 ∧ (fullBody t n).length = 4 * n ∧
    ∀ full, let v := returnThread u n h (if full then fullBody t n else savedBody t n) full
      v.pos = h.pos ∧ v.landed = true ∧ v.stat = .ready ∧ v.hsp = BitVec.ofNat 64 h.hsp ∧
      v.pr = BitVec.ofNat 8 (h.preds / 2 * 2) ∧ v.rdD 4 = BitVec.ofNat 64 h.sp ∧ v.rdD 2 = BitVec.ofNat 64 h.ra ∧
      (∀ i, 6 ≤ i → v.rd i = if i < n ∧ (full = true ∨ i / 2 * 2 ∈ savedPairs) then t.rd i else u.rd i) ∧
      v = { u with w := v.w, pos := v.pos, landed := v.landed, stat := v.stat, hsp := v.hsp, pr := v.pr }) ∧
  (∀ (u : Thread) (f eff sp : Nat) (fr : Frame), fr.depth < 2 ^ 16 → let v := enterThread u f fr eff sp
    v.gen = u.gen % 65535 + 1 ∧ v.hsp = BitVec.ofNat 64 f ∧ v.pos = ⟨fr.entry, 0⟩ ∧ v.landed = true ∧ v.stat = .ready ∧
    v.rdD 4 = BitVec.ofNat 64 sp ∧ (v.rdD 28).toNat = v.gen * 2 ^ 16 + fr.depth ∧ v.rdD 30 = BitVec.ofNat 64 eff ∧
    (∀ i, i ∉ [4, 5, 28, 29, 30, 31] → v.rd i = u.rd i) ∧
    v = { u with w := v.w, gen := v.gen, hsp := v.hsp, pos := v.pos, landed := true, stat := .ready, pend := none }) ∧
  (∀ (x y : Fx) (f g : Nat) (l : List (Nat × Frame)), Chain x f l y g →
    (∀ e, (∀ z ∈ l, z.2.state = 2 ∨ z.2.id ≠ e) →
      (g = 0 → l.length ≤ 64 → Fx.search e 64 x f = .ok (y, none)) ∧
      (g ≠ 0 → l.length = 64 → Fx.search e 64 x f = .error (.eff 10 e 2 y.rds)) ∧
      ∀ z fr, l.length < 64 → g ≠ 0 → y.frame g = .ok (z, fr) → fr.state ≠ 2 → fr.id = e →
        Fx.search e 64 x f = .ok (z, some (g, fr))) ∧
    (∀ tok, (∀ z ∈ l, z.2.depth ≠ tok % 2 ^ 16) →
      (g = 0 ∧ l.length ≤ 64 ∨ l.length = 64 → Fx.find tok 64 x f = .ok (y, .dead 2)) ∧
      ∀ z fr, l.length < 64 → g ≠ 0 → y.frame g = .ok (z, fr) → fr.depth = tok % 2 ^ 16 →
        (tok / 2 ^ 16 = 0 ∨ tok / 2 ^ 16 ∉ [fr.p, fr.s] → Fx.find tok 64 x f = .ok (z, .dead 1)) ∧
        (tok / 2 ^ 16 ≠ 0 → tok / 2 ^ 16 ∈ [fr.p, fr.s] →
          Fx.find tok 64 x f = .ok (z, if fr.state = 2 then .live g fr else .dead 4))) ∧
    ((∀ z ∈ l, z.2.state ≠ 2) →
      (g = 0 ∧ l.length ≤ 64 ∨ l.length = 64 → Fx.active 64 x f = .ok (y, none)) ∧
      ∀ z fr, l.length < 64 → g ≠ 0 → y.frame g = .ok (z, fr) → fr.state = 2 →
        Fx.active 64 x f = .ok (z, some (g, fr))))) ∧
  (∀ (s : State) (t : Thread) (g : Group) (x : Raise), s.m.group? t.gid = some g → s.m.thread? t.gid t.tix = some t →
    g.onCore = true → g.stat ≠ .saving → retryOn s.m g.core = false → t.stat = .raised → t.pend = some x →
    (arriving s.m t = true → exec (.builtinEffectDelivery t.gid t.tix) s = .next s) ∧
    (arriving s.m t = false → ∀ fx n low, n = (s.m.recOf t.gid).regs →
      (∀ f fr, Fx.search x.eff 64 (fxOf s.m t) t.hsp.toNat = .ok (fx, some (f, fr)) → low = below fr.top (64 + 4 * n) →
        ∀ p : FxPlan, p.x = fx → p.quiet = false → p.esc = false → p.k = id → p.wrs = [
            (low, fullBody t n ++ recHeader t x.save 1 x.eff (4 * n) 0 false false 0),
            (f, { fr with state := 2, p := t.gen % 65535 + 1 : Frame }.bytes)] →
          p.f = (fun u =>
            let v := ((((enterThread u f fr x.eff low).wrD 20 x.a0).wrD 22 x.a1).wrD 24 x.a2).wrD 26 x.a3
            { v with
              arith := match x.dest with | some d => lput v.arith (nextGen t.gen) d | none => ldel v.arith (nextGen t.gen)
              halts := match x.cmd with | some k => lput v.halts (nextGen t.gen) k | none => ldel v.halts (nextGen t.gen) }) →
          ∀ w, MayAct s.m t p → Writes s.m t p w → exec (.builtinEffectDelivery t.gid t.tix) s = .next ⟨s.agenda,
            if fxEscapes p then (match (acted w t p).thread? t.gid t.tix with
              | some u => markEsc (credit (acted w t p) t.gid t.tix u.pos) t.gid
              | none => acted w t p) else acted w t p⟩) ∧
      (Fx.search x.eff 64 (fxOf s.m t) t.hsp.toNat = .ok (fx, none) →
        (fxHotReads s.m (whoOf s.m t.gid) fx.rds = true → chunkEmpty s.m (s.m.coreOf t.gid) = false →
          exec (.builtinEffectDelivery t.gid t.tix) s = .next ⟨s.agenda, addDue s.m (s.m.coreOf t.gid) 6⟩) ∧
        (fxHotReads s.m (whoOf s.m t.gid) fx.rds = false ∨ chunkEmpty s.m (s.m.coreOf t.gid) = true →
          exec (.builtinEffectDelivery t.gid t.tix) s = .next ⟨s.agenda, parkEffect s.m t x⟩))) ∧
    (∀ y : Raise, parkEffect s.m t y = (
      let m := addDue (parkThread (withThread s.m t (fun u => { u with
        pend := none, brokenAt := if y.eff = 6 then none else u.brokenAt })) t.gid t.tix (.effect y)) (s.m.coreOf t.gid) 10
      postRec m (cidOf m t.gid) {
        kind := 6, cause := y.eff, access := 0, asid := asidOf m (cidOf m t.gid), addr := y.a2.toNat
        clause := y.word.hdr
        place := t.slot + m.coreOf t.gid % 64 * 2 ^ 11 + m.dieOf t.gid * 2 ^ 17 + y.word.idx % 16 * 2 ^ 19 })) ∧
    (arriving s.m t = false → ∀ (y : Raise) rds, Fx.search x.eff 64 (fxOf s.m t) t.hsp.toNat = .error (.eff 10 x.eff 2 rds) →
      y = { eff := 10, a0 := BitVec.ofNat 64 x.word.hdr, a1 := BitVec.ofNat 64 x.word.idx
            a2 := BitVec.ofNat 64 x.eff, a3 := 2, save := x.save, word := x.word } →
      fxHotReads s.m (whoOf s.m t.gid) rds = false ∨ chunkEmpty s.m (s.m.coreOf t.gid) = true →
      (x.eff = 10 → exec (.builtinEffectDelivery t.gid t.tix) s = .next ⟨s.agenda, parkEffect s.m t x⟩) ∧
      (x.eff ≠ 10 → ∀ rds', (∃ fx : Fx, Fx.search 10 64 (fxOf s.m t) t.hsp.toNat = .ok (fx, none) ∧ fx.rds = rds') ∨
          Fx.search 10 64 (fxOf s.m t) t.hsp.toNat = .error (.eff 10 10 2 rds') →
        fxHotReads s.m (whoOf s.m t.gid) rds' = false ∨ chunkEmpty s.m (s.m.coreOf t.gid) = true →
        exec (.builtinEffectDelivery t.gid t.tix) s = .next ⟨s.agenda, parkEffect s.m t y⟩)))

/-- R224, R225, R227 to R230, R346 to R348, R377 and R382: the ways off a core. Where it rests on a reading or a
choice of the model, that is logs 25, 45, 46, 47, 79 and 103. -/
def Obligations.Leaving : Prop :=
  (∀ (s : State) (core e : Nat) (x : Ctx), (s.m.core core).sliceEnd = some e → ctxOn s.m core = some x →
    ((s.m.core core).stopping = false → e ≤ s.m.time + x.drain → exec (.stopRequest core) s = .next ⟨s.agenda,
      (residents s.m core).foldl (fun m g => chooseLeave m g.gid) (s.m.updCore core (fun k => { k with stopping := true }))⟩) ∧
    ((s.m.core core).stopping = true ∨ s.m.time + x.drain < e → exec (.stopRequest core) s = .next s) ∧
    (s.m.time < e + x.drain → exec (.drainLimitExpire core) s = .next s) ∧
    (e + x.drain ≤ s.m.time → exec (.drainLimitExpire core) s = .next ⟨s.agenda, (residents s.m core).foldl (fun m g =>
      match m.group? g.gid with
      | some h => if h.stat = .draining then
          beginSave m ((liveSet m h).filter (fun y => y.stat == .draining)) false false else m
      | none => m) s.m⟩)) ∧
  (∀ (m : Mach) (g : Group), m.group? g.gid = some g → g.stat = .live → (∀ h ∈ liveSet m g, h.stat = .live) →
    ((∀ h ∈ liveSet m g, 90 ≤ progress m h ∧ ∀ t ∈ m.threads, t.gid = h.gid → t.stat ≠ .transit ∧ ∀ p, t.stat ≠ .parked p) →
      chooseLeave m g.gid = (liveSet m g).foldl (fun m h => m.updGroup h.gid (fun h => { h with stat := .draining })) m) ∧
    ((∃ h ∈ liveSet m g, progress m h < 90 ∨ ∃ t ∈ m.threads, t.gid = h.gid ∧ (t.stat = .transit ∨ ∃ p, t.stat = .parked p)) →
      ((∀ h ∈ setOf m g, h.stat ≠ .exited ∧ h.stat ≠ .faulted) →
        (∀ h ∈ liveSet m g, (m.recOf h.gid).idem = true ∧ h.escaped = false) →
        chooseLeave m g.gid = (liveSet m g).foldl flushGroup m) ∧
      ((∃ h ∈ setOf m g, h.stat = .exited ∨ h.stat = .faulted) ∨
        (∃ h ∈ liveSet m g, (m.recOf h.gid).idem = false ∨ h.escaped = true) →
        chooseLeave m g.gid = beginSave m (liveSet m g) false false))) ∧
  (∀ (m : Mach) (g : Group) (t x r l : Nat), t = (m.recOf g.gid).threads →
    x = t - (m.threads.filter (fun u => u.gid == g.gid && u.stat != .exited)).length → r = g.ns + (m.time - g.placedAt) →
    ∀ k, m.kernel? g.kid = some k → ∀ ms, ms = (lget k.recent g.die).getD [] → l = ms.sum →
    progress m g = min 100 (max (100 * x / t) (if l = 0 then 0 else 100 * r * ms.length / l))) ∧
  (∀ (m : Mach) (g : Group), m.group? g.gid = some g → g.stat = .live ∨ g.stat = .draining → ∀ a b,
    (∀ h, (beginSave m [g] a b).group? g.gid = some h → h.stat = .saving ∧ h.room = a ∧ h.avoid = if b then some g.core else none) ∧
    11 ∈ ((beginSave m [g] a b).core g.core).due ∧ (beginSave m [g] a b).mem = m.mem ∧ (beginSave m [g] a b).threads = m.threads) ∧
  (∀ (s : State) (gid : Nat) (g : Group), s.m.group? gid = some g →
    (g.stat = .saving → (∀ h ∈ liveSet s.m g, saveReady s.m h = true) →
      exec (.groupSave gid) s = .next ⟨s.agenda, (liveSet s.m g).foldl saveGroup s.m⟩) ∧
    (g.stat ≠ .saving ∨ (∃ h ∈ liveSet s.m g, saveReady s.m h = false) → exec (.groupSave gid) s = .next s) ∧
    (liveSet s.m g ≠ [] → (∀ h ∈ liveSet s.m g, h.stat = .live ∧ h.placedAt + 2000000 ≤ s.m.time) →
      exec (.thermalMove gid) s = .next ⟨s.agenda, beginSave s.m (liveSet s.m g) false true⟩) ∧
    ((∃ h ∈ liveSet s.m g, h.stat ≠ .live ∨ s.m.time < h.placedAt + 2000000) → exec (.thermalMove gid) s = .next s)) ∧
  (∀ (m p : Mach) (g : Group) (k : Core), p = pushAll m g.core true → p.group? g.gid = some g → k = p.core g.core →
    (∀ h, (saveGroup m g).group? g.gid = some h → h = { g with
      stat := .saved, ns := g.ns + (p.time - g.placedAt)
      save := { g.save with
        codeTab := if k.codeCur then k.code1 else k.code0
        fts := (List.range 4).map (fun i => (i, ((lget k.fts i).getD {}).bank.1, ((lget k.fts i).getD {}).bank.2))
        units := (k.wown.filter (fun w => w.2 == g.gid)).map Prod.fst
        wbuf := k.wbuf.filter (fun c => ((k.wown.filter (fun w => w.2 == g.gid)).map Prod.fst).contains (c.1 / 64))
        tiles := k.tiles.filter (fun t => t.2.gid == g.gid), pvs := k.pvs.filter (fun p => p.2.gid == g.gid)
        tcmds := k.tcmds.filter (fun x => x.gid == g.gid)
        copies := (k.copies.filter (fun x => x.gid == g.gid)).dropWhile (fun x => x.stopped.isNone) } }) ∧
    (∀ q : Mach, q = { (p.updGroup g.gid (fun h => { h with stat := .saved, ns := residentNs p g, save := recordOf k g })) with
        threads := p.threads.map (fun t => if t.gid == g.gid then { t with
          stat := if t.retrying then .escaping else t.stat, pack := 0, demoted := false, ageing := 0, aged := false
          poll := false, escAt := none, nextChunk := none, retrying := false } else t) } →
      (∃ e : Thread → TStat, (saveGroup m g).threads = q.threads.map (fun t => { t with stat := e t })) ∧
      ((∀ t ∈ q.threads, ∀ ea wp v d w n, t.stat ≠ .waiting (.addr true ea wp v d w n)) → (saveGroup m g).threads = q.threads) ∧
      ∀ h x, q.group? g.gid = some h → q.ctxOf g.gid = some x → (saveGroup m g).mem =
        (recordSections q h).foldl (fun l s => cwrite l (x.saveBase + h.recAt + s.1) s.2) p.mem) ∧
    (∀ x ∈ ((saveGroup m g).core g.core).tcmds, x.gid ≠ g.gid) ∧ (∀ x ∈ ((saveGroup m g).core g.core).tiles, x.2.gid ≠ g.gid)) ∧
  (∀ (s : State) (core e : Nat) (x : Ctx) (k : Core), k = s.m.core core → k.cid = some x.cid → k.sliceEnd = some e →
    s.m.ctx? x.cid = some x →
    ((∃ g, g ∈ holders s.m core) ∨ k.openC.empty = false ∨ k.comC ≠ none → exec (.coreGiveUp core) s = .next s) ∧
    (holders s.m core = [] → k.openC.empty = true → k.comC = none → ∀ m m', m = pushAll s.m core true →
      m' = (m.updCore core (fun k => { k with
        cid := none, sliceEnd := none, stopping := false, lines := [], fetched := []
        overrun := if s.m.time - e = 0 then k.overrun
          else lput k.overrun x.cid ((lget k.overrun x.cid).getD 0 + (s.m.time - e)) })).updDie (core / 64) (fun d =>
            { d with trig := d.trig.filter (fun t => t.2 != core) }) → m.time = s.m.time → m'.ctx? x.cid = some x →
      (s.m.time - e ≤ x.drain → exec (.coreGiveUp core) s = .next ⟨s.agenda, ctxAway m' x.cid⟩) ∧
      (x.drain < s.m.time - e → exec (.coreGiveUp core) s = .next ⟨s.agenda, ctxAway (postRec m' x.cid {
        kind := 7, cause := 0, asid := pte x.satp.toNat 44 16, addr := s.m.time - e
        place := core % 64 * 2 ^ 11 + core / 64 * 2 ^ 17 }) x.cid⟩))) ∧
  (∀ (s : State) (kid core : Nat) (h : Kernel) (x : Ctx) (p : Part), s.m.kernel? kid = some h → s.m.ctx? h.cid = some x →
    s.m.part? x.part = some p → placeable s.m h = true → (h.rc.deadline = 0 ∨ s.m.time ≤ h.rc.deadline) →
    (∃ gix, h.nextGix (core / 64) = some gix) → (∀ i, i < 64 → fitsOn s.m h (core / 64 * 64 + i) = false) →
    partDies s.m (core / 64) = p.dies → mayTrigger s.m h core = true →
    (∀ i, i < 64 → mayTrigger s.m h (core / 64 * 64 + i) = true → takenBefore s.m core (core / 64 * 64 + i) = true) →
    (∀ t ∈ (s.m.die (core / 64)).trig, t.1 ≠ kid) → exec (.preemptTrigger kid core) s = .next ⟨s.agenda,
      (s.m.updCore core (fun k => { k with sliceEnd := k.sliceEnd.map (fun e => min e s.m.time) })).updDie (core / 64) (fun x =>
        { x with trig := (kid, core) :: x.trig })⟩) ∧
  (∀ (m : Mach) (h : Kernel) (c : Nat), mayTrigger m h c = true ↔ (∃ y, (m.core c).cid = some y ∧ y ≠ h.cid) ∧
    (m.core c).sliceStart + 100000 ≤ m.time ∧ ∃ b, bestOn m c = some b ∧ h.above b = true) ∧
  (∀ (s : State) (kid : Nat) (k : Kernel) (x : Ctx) (gs : List Group), s.m.kernel? kid = some k → s.m.ctx? k.cid = some x →
    gs = s.m.groups.filter (fun g => g.kid == kid && g.stat == .live) → k.stat = .running → k.status = 0 →
    (x.threshold ≠ 0 → gs ≠ [] → x.threshold * gs.length ≤ 100 * gs.countP (inService s.m) →
      exec (.kernelSuspend kid) s = .next ⟨s.agenda,
        beginSave (s.m.updKernel kid (fun k => { k with stat := .suspended, preempted := true }))
          (s.m.groups.filter (fun g => g.kid == kid && (g.stat == .live || g.stat == .draining))) false false⟩) ∧
    (x.threshold = 0 ∨ gs = [] ∨ 100 * gs.countP (inService s.m) < x.threshold * gs.length →
      exec (.kernelSuspend kid) s = .next s))

/-- R352, R405, R343, R344 and R415: the fault queue, the command ring, and the commands of contexts and parked
threads. The numbers of new objects (`nextId`) are the model's (log 1). Where it rests on a reading or a choice of the
model, that is logs 9, 36, 48, 49, 50, 51, 93 and 104. -/
def Obligations.SupervisorCommands : Prop :=
  (∀ (m : Mach) (cid : Nat) (f : FRec) (x : Ctx), m.ctx? cid = some x → x.cid = cid →
    (x.held = [] → x.produced - memNat m (x.desc + 0x38) 8 < x.entries → postRec m cid f =
      ((publishBytes (publishBytes m (x.fqBase + x.produced % x.entries * 32) f.bytes) (x.desc + 0x30)
          (natBytes 8 ((x.produced + 1) % 2 ^ 64))).updCtx cid (fun c => { c with produced := (x.produced + 1) % 2 ^ 64 })).updPart
              x.part (fun q => { q with irq := q.irq + 1 })) ∧
    (x.held ≠ [] ∨ x.entries ≤ x.produced - memNat m (x.desc + 0x38) 8 → postRec m cid f =
      m.updCtx cid (fun c => { c with held := c.held ++ [f] }))) ∧
  (∀ f : FRec, f.kind < 2 ^ 16 → f.cause < 2 ^ 16 → f.access < 2 ^ 8 → f.flags < 2 ^ 8 → f.asid < 2 ^ 16 → f.addr < 2 ^ 64 →
    f.clause < 2 ^ 64 → f.place < 2 ^ 32 → f.timeline < 2 ^ 32 → f.bytes.length = 32 ∧ fieldAt f.bytes 0 2 = f.kind ∧
    fieldAt f.bytes 2 2 = f.cause ∧ fieldAt f.bytes 4 1 = f.access ∧ fieldAt f.bytes 5 1 = f.flags ∧
    fieldAt f.bytes 6 2 = f.asid ∧ fieldAt f.bytes 8 8 = f.addr ∧ fieldAt f.bytes 16 8 = f.clause ∧
    fieldAt f.bytes 24 4 = f.place ∧ fieldAt f.bytes 28 4 = f.timeline) ∧
  (∀ (s : State) (cid n c : Nat) (x : Ctx), s.m.ctx? cid = some x → c = memNat s.m (x.desc + 0x38) 8 →
    (c + n ≤ x.produced → exec (.faultQueueConsume cid n) s = .next ⟨s.agenda,
      postHeld cid x.held (publishBytes s.m (x.desc + 0x38) (natBytes 8 (c + n)))⟩) ∧
    (x.produced < c + n → exec (.faultQueueConsume cid n) s = .next s)) ∧
  (∀ (m : Mach) (cid : Nat) (f : FRec) (l : List FRec) (x : Ctx), postHeld cid [] m = m ∧ (m.ctx? cid = some x →
    (x.produced - memNat m (x.desc + 0x38) 8 < x.entries →
      postHeld cid (f :: l) m = postHeld cid l ((writeRec m x f).updCtx cid (fun x => { x with held := l }))) ∧
    (x.entries ≤ x.produced - memNat m (x.desc + 0x38) 8 → postHeld cid (f :: l) m = m))) ∧
  (∀ (s : State) (part n : Nat) (p : Part) (cmds : List RingCmd), s.m.part? part = some p → n = memNat s.m (ringBase p) 8 →
    p.stat = .running ∨ p.stat = .degraded →
    (n + cmds.length ≤ memNat s.m (ringBase p + 8) 8 + 4096 → exec (.commandRingProduce part cmds) s = .next ⟨s.agenda,
      publishBytes (ringPut p n cmds s.m) (ringBase p) (natBytes 8 (n + cmds.length))⟩) ∧
    (memNat s.m (ringBase p + 8) 8 + 4096 < n + cmds.length → exec (.commandRingProduce part cmds) s = .next s)) ∧
  (∀ (m : Mach) (p : Part) (n st res : Nat), ringDone m p n st res =
    (publishBytes (publishBytes (publishBytes m (ringBase p + 64 + n % 4096 * 64 + 4) (natBytes 4 st))
      (ringBase p + 64 + n % 4096 * 64 + 56) (natBytes 8 res)) (ringBase p + 8) (natBytes 8 (n + 1))).updPart p.pid
        (fun p => { p with irq := p.irq + 1, saving := none })) ∧
  (∀ (s : State) (p : Part) (ops : List Nat) (a : Nat), RingHead s.m p 1 ops → a = opAt ops 0 →
    (a % 64 ≠ 0 ∨ ownRange p a 64 = false ∨ newContext s.m p a (cread s.m.mem a 48) none = none → Refuses (.createContext p.pid) s p) ∧
    (a % 64 = 0 → ownRange p a 64 = true → ∀ m n, newContext s.m p a (cread s.m.mem a 48) none = some (m, n) →
      exec (.createContext p.pid) s = answers s p m 1 n)) ∧
  (∀ (m : Mach) (p : Part) (desc : Nat) (b : List Byte) (ses : Option Nat) (n : Nat) (x : Ctx),
    lowestFree 1 4095 ((m.ctxs.filter (fun x => x.part == p.pid && x.stat != .gone)).map (fun x => x.num)) = some n →
    x = { cid := m.nextId, part := p.pid, num := n, desc := desc, satp := BitVec.ofNat 64 (fieldAt b 0 8), saveBase := fieldAt b 8 8
          saveSize := fieldAt b 16 8, fqBase := fieldAt b 24 8, entries := fieldAt b 0x20 4, drain := fieldAt b 0x24 4
          threshold := fieldAt b 0x28 1, secure := fieldAt b 0x29 1 % 2 == 1, stopGroup := fieldAt b 0x29 1 / 2 % 2 == 1, session := ses } →
    (descBad m p b x = true → newContext m p desc b ses = none) ∧
    (descBad m p b x = false → newContext m p desc b ses = some ({ m with
      nextId := m.nextId + 2, ctxs := m.ctxs ++ [x]
      queues := m.queues ++ [{ qid := m.nextId + 1, part := p.pid, num := 1023, cid := m.nextId, cap := 4096 }] }, n))) ∧
  (∀ (m : Mach) (p : Part) (b : List Byte) (x : Ctx), descBad m p b x = false → x.satp.toNat / 2 ^ 60 % 2 ^ 4 = 14 ∧
    (∀ y ∈ m.ctxs, y.part = p.pid → y.stat ≠ .gone → y.satp.toNat / 2 ^ 44 % 2 ^ 16 ≠ x.satp.toNat / 2 ^ 44 % 2 ^ 16) ∧
    (x.secure = true → Config.supervisorSecure p.pid = true) ∧ x.saveBase % 4096 = 0 ∧ x.saveSize % 4096 = 0 ∧
    ownRange p x.saveBase (max 1 x.saveSize) = true ∧ inWorld m x.secure x.saveBase x.saveSize = true ∧ x.fqBase % 32 = 0 ∧
    ownRange p x.fqBase (32 * x.entries) = true ∧ (∃ i, 4 ≤ i ∧ i ≤ 16 ∧ x.entries = 2 ^ i) ∧ 1000 ≤ x.drain ∧
    x.drain ≤ 10000000 ∧ x.threshold ≤ 100 ∧ fieldAt b 0x29 1 ≤ 3 ∧ fieldAt b 0x2A 6 = 0) ∧
  (∀ (s : State) (p : Part) (ops : List Nat),
    (RingHead s.m p 2 ops → (ctxNum s.m p (opAt ops 0) = none → Refuses (.destroyContext p.pid) s p) ∧
      ∀ x, ctxNum s.m p (opAt ops 0) = some x → (x.stat = .ending → Refuses (.destroyContext p.pid) s p) ∧
        (x.stat ≠ .ending → exec (.destroyContext p.pid) s = answers s p (endEmpty
          ((s.m.kernels.filter (fun k => k.cid == x.cid)).foldl (fun m k => stopKernel m k.kid 4 none)
            (s.m.updCtx x.cid (fun x => { x with stat := .ending }))) x.cid) 1 0)) ∧
    (RingHead s.m p 3 ops → (ctxNum s.m p (opAt ops 0) = none → Refuses (.stopMode p.pid) s p) ∧
      ∀ x, ctxNum s.m p (opAt ops 0) = some x → exec (.stopMode p.pid) s = answers s p
        (s.m.updCtx x.cid (fun x => { x with stopGroup := memNat s.m (x.desc + 0x29) 1 / 2 % 2 == 1 })) 1 0) ∧
    (RingHead s.m p 5 ops → ctxNum s.m p (opAt ops 0) = none → Refuses (.saveGroup p.pid) s p) ∧
    (RingHead s.m p 5 ops → ∀ x (named : Thread → Prop), ctxNum s.m p (opAt ops 0) = some x →
      named = (fun u => u.slot = opAt ops 2 ∧ s.m.coreOf u.gid = opAt ops 1 ∧ cidOf s.m u.gid = x.cid ∧
        ∃ g, s.m.group? u.gid = some g ∧ (g.stat = .live ∨ g.stat = .draining ∨ g.stat = .saving)) →
      (p.saving = none → (∀ u ∈ s.m.threads, ¬ named u) → Refuses (.saveGroup p.pid) s p) ∧
      (∀ t g, p.saving = none → t ∈ s.m.threads → s.m.group? t.gid = some g → (∀ u ∈ s.m.threads, named u ↔ u = t) →
        ∀ m, m = s.m.updPart p.pid (fun p => { p with saving := some g.gid }) →
        (g.stat = .live ∨ g.stat = .draining → exec (.saveGroup p.pid) s = .next ⟨s.agenda, beginSave m (liveSet s.m g) false false⟩) ∧
        (g.stat = .saving → exec (.saveGroup p.pid) s = .next ⟨s.agenda, m⟩)) ∧
      (∀ gid g, p.saving = some gid → s.m.group? gid = some g →
        (g.stat = .saving → exec (.saveGroup p.pid) s = .next s) ∧
        (g.stat = .saved → exec (.saveGroup p.pid) s = answers s p s.m 1 0) ∧
        (g.stat = .exited ∨ g.stat = .faulted → Refuses (.saveGroup p.pid) s p)) ∧
      (∀ gid, p.saving = some gid → s.m.group? gid = none → Refuses (.saveGroup p.pid) s p))) ∧
  (∀ (s : State) (p : Part) (ops : List Nat), RingHead s.m p 4 ops →
    (opAt ops 1 = 0 ∨ 3 < opAt ops 1 → opAt ops 1 ≠ 0 ∨ parkedAt s.m p (opAt ops 0) = none → Refuses (.resumeThreadContinue p.pid) s p) ∧
    (parkedAt s.m p (opAt ops 0) = none → (opAt ops 1 = 1 → Refuses (.resumeThreadRetry p.pid) s p) ∧
      (opAt ops 1 = 2 → Refuses (.resumeThreadAbandon p.pid) s p) ∧ (opAt ops 1 = 3 → Refuses (.resumeThreadValue p.pid) s p)) ∧
    ∀ t k, parkedAt s.m p (opAt ops 0) = some (t, k) →
      let go (m : Mach) (f : Thread → Thread) : Mach := updBoth m t.gid t.tix (fun u =>
        if u.stat = t.stat then { f u with goes := true } else u)
      let on (r : Raise) (u : Thread) : Thread := { u with stat := .ready, pos := r.save, landed := true, pack := 0 }
      (opAt ops 1 = 0 →
        (∀ b, k = .group b → exec (.resumeThreadContinue p.pid) s = answers s p (resumeGroup s.m t.gid) 1 0) ∧
        (∀ r, k = .effect r → (r.eff = 11 ∨ r.eff = 3 → exec (.resumeThreadContinue p.pid) s = answers s p (go s.m (on r)) 1 0) ∧
          (r.eff ≠ 11 → r.eff ≠ 3 → Refuses (.resumeThreadContinue p.pid) s p)) ∧
        ((∃ a c b, k = .fault a c b) ∨ (∃ n b, k = .copy n b) → Refuses (.resumeThreadContinue p.pid) s p)) ∧
      (opAt ops 1 = 1 →
        (∀ kind c retry, k = .fault kind c retry → (retry = true → kind ≤ 4 → exec (.resumeThreadRetry p.pid) s = answers s p
            (go s.m (fun u => { u with stat := if u.pend.isSome then .raised else .escaping, pack := 0, escFor := 10, escAt := none })) 1 0) ∧
          (retry = false ∨ 4 < kind → Refuses (.resumeThreadRetry p.pid) s p)) ∧
        (∀ n b kind c, k = .copy n b → copyFault s.m t.gid n = some (kind, c) →
          (kind = 1 ∨ kind = 2 → exec (.resumeThreadRetry p.pid) s = answers s p
            (go (updCopyOf s.m t.gid n (fun x => { x with stopped := none })) (fun u => { u with stat := b.stat })) 1 0) ∧
          (kind ≠ 1 → kind ≠ 2 → Refuses (.resumeThreadRetry p.pid) s p)) ∧
        ((∃ b, k = .group b) ∨ (∃ r, k = .effect r) → Refuses (.resumeThreadRetry p.pid) s p)) ∧
      (opAt ops 1 = 2 →
        (∀ a c b, k = .fault a c b → exec (.resumeThreadAbandon p.pid) s = answers s p (faultGroup s.m t.gid) 1 0) ∧
        (∀ r m, k = .effect r → m = (match r.cmd with | some n => dropCmd s.m t.gid n | none => s.m) →
          exec (.resumeThreadAbandon p.pid) s = answers s p (faultGroup m t.gid) 1 0) ∧
        (∀ n b, k = .copy n b → exec (.resumeThreadAbandon p.pid) s = answers s p
          (go (updCopyOf s.m t.gid n (fun x => { x with stopped := none, status := 2 })) (fun u => { u with stat := b.stat })) 1 0) ∧
        (∀ b, k = .group b → Refuses (.resumeThreadAbandon p.pid) s p)) ∧
      (opAt ops 1 = 3 → ∀ v, v = opAt ops 2 →
        (∀ r, k = .effect r →
          (∀ d, r.eff = 3 → r.dest = some d → exec (.resumeThreadValue p.pid) s = answers s p (go (match d with
            | .k n => putKBoth s.m t n (BitVec.ofNat 32 v)
            | _ => s.m) (fun u => on r (u.putDest d (BitVec.ofNat 64 v)))) 1 0) ∧
          (∀ n, r.eff = 4 ∨ r.eff = 5 → r.cmd = some n →
            exec (.resumeThreadValue p.pid) s = answers s p (go (resumeCmd s.m t.gid n v) (on r)) 1 0) ∧
          (r.eff = 11 → exec (.resumeThreadValue p.pid) s = answers s p (go s.m (on r)) 1 0) ∧
          (r.eff ∉ [3, 4, 5, 11] → Refuses (.resumeThreadValue p.pid) s p)) ∧
        ((∀ r, k ≠ .effect r) → Refuses (.resumeThreadValue p.pid) s p)))

/-- R358 and R359: the common register image and the transit record. Where it rests on a reading or a choice of the
model, that is log 80. -/
def Obligations.TransitImage : Prop :=
  (∀ (t : Thread) (n i : Nat), i < 32 → let g := imageOf t n
    xreg g i = (if 2 * i + 1 < n then t.rdD (2 * i) else 0) ∧
    (lget g.f i).getD 0 = (if 64 + 2 * i + 1 < n then t.rdD (64 + 2 * i) else 0) ∧
    g.fflags = t.fstat.toNat % 32 ∧ g.frm = 0) ∧
  (∀ (t u : Thread) (n : Nat), let v := withImage u n (imageOf t n)
    (∀ i, v.rd i = if i < 128 ∧ i / 2 * 2 + 1 < n then t.rd i else 0) ∧ v.pr = 0 ∧ v.fstat = t.fstat &&& 31 ∧
    v = { u with w := v.w, pr := v.pr, fstat := v.fstat }) ∧
  (∀ (m : Mach) (t : Thread) (g : Image) (pc st : Nat) (x : Group) (c : Ctx) (b : List Byte), m.group? t.gid = some x →
    m.ctxOf t.gid = some c → cidOf m t.gid = c.cid → m.ctx? c.cid = some c → b = recordBytes m t g pc st →
    pc < 2 ^ 64 → t.gen < 2 ^ 16 → t.slot < 2 ^ 11 → m.dieOf t.gid < 4 → x.width < 2 ^ 32 → st < 4 →
    (m.recOf t.gid).regs < 2 ^ 16 → b.length = 1024 ∧
    fieldAt b 0 8 = pc ∧ fieldAt b 8 8 = t.hsp.toNat ∧ fieldAt b 0x10 2 = c.satp.toNat / 2 ^ 44 % 2 ^ 16 ∧ fieldAt b 0x12 2 = t.gen ∧
    fieldAt b 0x14 4 = t.slot + m.coreOf t.gid % 64 * 2 ^ 11 + m.dieOf t.gid * 2 ^ 17 ∧ fieldAt b 0x18 4 = x.width ∧
    fieldAt b 0x1C 1 = st ∧ fieldAt b 0x1D 1 = c.secure.toNat + (if 65 < (m.recOf t.gid).regs then 2 else 0) ∧
    fieldAt b 0x1E 2 = (m.recOf t.gid).regs ∧ fieldAt b 0x20 8 = g.fflags % 32 + g.frm % 8 * 32 ∧ fieldAt b 0x28 24 = 0 ∧
    (∀ i, i < 32 → fieldAt b (0x40 + 8 * i) 8 = (xreg g i).toNat ∧ fieldAt b (0x140 + 8 * i) 8 = ((lget g.f i).getD 0).toNat)) ∧
  (∀ (m : Mach) (t : Thread), recordAddr m t = firmwareBase (partDies m (m.dieOf t.gid)) +
    ((m.dieOf t.gid * 64 + m.coreOf t.gid % 64) * 2048 + t.slot) * 1024)

/-- R356, R357, R360 to R362, R364, R365 and R372: a thread leaves its core, runs in a visitor context, and comes
home; what a failed landing and an exception on a visitor do. Where it rests on a reading or a choice of the model,
that is logs 13 and 64. -/
def Obligations.Migration : Prop :=
  (∀ (s : State) (t : Thread) (g : Group) (m : Mach) (x : Xlat), s.m.thread? t.gid t.tix = some t → s.m.group? t.gid = some g →
    t.stat = .ready ∨ t.stat = .held → t.landed = true → t.pos.idx = 0 → groupRuns s.m t.gid = true →
    (∀ r ∈ s.m.running, r.gid = t.gid → t.tix ∉ r.tixs) → awaited s.m t = [] → (∀ n, n < 12 → flagCount s.m t n = 0) →
    Machine.translate s.m (whoOf s.m t.gid) .fetch t.pos.hdr = .ok (m, x) → isaTag m (whoOf s.m t.gid) t.pos.hdr = some 0 →
    g.caller.map Prod.snd ≠ some t.pos.hdr →
    (chunkEmpty m g.core = false → exec (.migrateOut t.gid t.tix) s = .next ⟨s.agenda, addDue m g.core 9⟩) ∧
    (chunkEmpty m g.core = true → (m.core g.core).comC ≠ none ∨ relReady m t 2 = false →
      exec (.migrateOut t.gid t.tix) s = .next ⟨s.agenda, m⟩) ∧
    (chunkEmpty m g.core = true → (m.core g.core).comC = none → relReady m t 2 = true → ∀ img m1,
      img = imageOf t (m.recOf t.gid).regs → m1 = relPush m (m.coreOf t.gid) 2 →
      exec (.migrateOut t.gid t.tix) s = .next ⟨s.agenda,
        let m2 := updBoth (publishBytes m1 (recordAddr m1 t) (recordBytes m1 t img t.pos.hdr 0)) t.gid t.tix (fun u =>
          { leftPack .transit t.pos t with loads := u.loads })
        m2.updDie (m2.dieOf t.gid) (fun d => { d with vq := d.vq ++ [⟨t.gid, t.tix, img, t.pos.hdr, none⟩] })⟩)) ∧
  (∀ (s : State) (die vis : Nat) (x : Transit) (l : List Transit) (t : Thread), (s.m.die die).vq = x :: l → vis < 32 →
    lget (s.m.die die).visitors vis = none → (s.m.die die).held = false → s.m.thread? x.gid x.tix = some t →
    exec (.visitorTake die vis) s = .next ⟨s.agenda,
      let m := updHart (s.m.updDie die (fun d => { d with
        vq := l, visitors := lput d.visitors vis ⟨x.gid, x.tix, x.img, x.pc, s.m.time⟩ })) die (8 + vis) (fun h => { h with resv := none })
      putPointer (putRecState m t 1) die vis (recordAddr m t)⟩) ∧
  (∀ (s : State) (die vis pc sepc : Nat) (img : Image) (v : Visitor) (t : Thread), lget (s.m.die die).visitors vis = some v →
    s.m.thread? v.gid v.tix = some t →
    let left (m : Mach) (st : Nat) : Mach :=
      putPointer (putRecord (m.updDie die (fun d => { d with visitors := ldel d.visitors vis })) t img pc st) die vis 0
    ((s.m.die die).held = false → (s.m.die die).vq ≠ [] → v.since + 50000 ≤ s.m.time →
      exec (.visitorDisplace die vis img pc) s = .next ⟨s.agenda,
        (left s.m 0).updDie die (fun d => { d with vq := d.vq ++ [⟨v.gid, v.tix, img, pc, none⟩] })⟩) ∧
    ((s.m.die die).vq = [] ∨ s.m.time < v.since + 50000 → exec (.visitorDisplace die vis img pc) s = .next s) ∧
    (hartLives s.m die (8 + vis) = true → ∀ who, who = ({ whoOf s.m t.gid with l1 := false, hart := some (8 + vis) } : Who) →
      let land (m : Mach) : Prop := exec (.visitorLandUbhus die vis img ⟨pc, sepc⟩) s = .next ⟨s.agenda, m⟩
      (∀ e, Machine.translate s.m who .fetch pc = .error e → land (hartGot s.m die (8 + vis)
        (.trap (match e with | .fault 3 _ => 25 | .fault 4 _ => 26 | _ => 24) pc sepc))) ∧
      ∀ m x, Machine.translate s.m who .fetch pc = .ok (m, x) →
        (isaTag m who pc ≠ some 1 → land s.m) ∧
        (isaTag m who pc = some 1 →
          (pc % 8 ≠ 0 → land (hartGot s.m die (8 + vis) (.trap 0 pc sepc))) ∧
          (pc % 8 = 0 → relReady m t 2 = false → land s.m) ∧
          (pc % 8 = 0 → relReady m t 2 = true →
            land ((left m 2).updDie die (fun d => { d with homing := d.homing ++ [⟨t.gid, t.tix, img, pc, none⟩] })))))) ∧
  (∀ (s : State) (t : Thread) (g : Group) (x : Transit), s.m.thread? t.gid t.tix = some t → s.m.group? t.gid = some g →
    (s.m.die g.die).homing.find? (fun x => x.gid == t.gid && x.tix == t.tix) = some x →
    (g.stat = .saved ∨ g.stat = .saving → exec (.returnHome t.gid t.tix) s = .next ⟨s.agenda, putRecState s.m t 3⟩) ∧
    (g.stat ≠ .saved → g.stat ≠ .saving → (∀ r ∈ s.m.running, r.core ≠ g.core) →
      (chunkEmpty s.m g.core = false → exec (.returnHome t.gid t.tix) s = .next ⟨s.agenda, addDue s.m g.core 9⟩) ∧
      (chunkEmpty s.m g.core = true → (s.m.core g.core).comC = none → x.park = none →
        exec (.returnHome t.gid t.tix) s = .next ⟨s.agenda,
          let m := s.m.updDie g.die (fun d => { d with homing := d.homing.filter (fun y => !(y.gid == t.gid && y.tix == t.tix)) })
          acqDo (updBoth m t.gid t.tix (fun u => { withImage u (m.recOf t.gid).regs x.img with
            pos := ⟨x.pc, 0⟩, landed := true, stat := .ready, pack := 0 })) g.core 2⟩))) ∧
  (∀ (pc bits ea size cause : Nat) (c : Bool),
    visRaise pc (.illegal bits) = { eff := 1, a0 := BitVec.ofNat 64 pc, a2 := BitVec.ofNat 64 bits, save := ⟨pc, 0⟩, word := ⟨pc, 0⟩ } ∧
    visRaise pc (.misalign ea size) = { eff := 2, a0 := BitVec.ofNat 64 pc, a2 := BitVec.ofNat 64 ea, a3 := BitVec.ofNat 64 size
                                        save := ⟨pc, 0⟩, word := ⟨pc, 0⟩ } ∧
    visRaise pc (.brk c) = { eff := 11, a0 := BitVec.ofNat 64 pc, save := ⟨(pc + if c then 2 else 4) % 2 ^ 64, 0⟩, word := ⟨pc, 0⟩ } ∧
    visRaise pc (.linkLost ea cause) = { eff := 9, a0 := BitVec.ofNat 64 pc, a2 := BitVec.ofNat 64 ea, a3 := BitVec.ofNat 64 cause
                                         save := ⟨pc, 0⟩, word := ⟨pc, 0⟩ }) ∧
  (∀ (s : State) (die vis pc : Nat) (img : Image) (e : VisExc) (v : Visitor) (t : Thread), lget (s.m.die die).visitors vis = some v →
    s.m.thread? v.gid v.tix = some t → hartLives s.m die (8 + vis) = true →
    (e = .linkLost 0 2 → t.lost = false → exec (.visitorException die vis img pc e) s = .next s) ∧
    ((e = .linkLost 0 2 → t.lost = true) → ∀ who u x depth,
      who = ({ whoOf s.m t.gid with l1 := false, hart := some (8 + vis) } : Who) →
      u = { withImage t (s.m.recOf t.gid).regs img with lost := t.lost && !decide (e = .linkLost 0 2) } → x = visRaise pc e →
      depth = { x with eff := 10, a2 := BitVec.ofNat 64 x.eff, a3 := 2 } →
      let does (m : Mach) : Prop := exec (.visitorException die vis img pc e) s = .next ⟨s.agenda, m⟩
      let home (x : Raise) : Mach :=
        goesHome (updBoth s.m u.gid u.tix (fun c => { c with lost := u.lost })) die vis u img x.save.hdr (some x)
      let entered (m : Mach) (v : Thread) : Mach := goesHome (updBoth m u.gid u.tix (fun c => { c with
        hsp := v.hsp, gen := v.gen, arith := v.arith, halts := v.halts, lost := v.lost })) die vis v
        (imageOf v (s.m.recOf u.gid).regs) v.pos.hdr none
      (∀ rds, deliverPlan s.m u x who true = .ok (.inr rds) → does (home x)) ∧
      (∀ k c w a rds, deliverPlan s.m u x who true = .error (.mem (.fault k c) w a rds) →
        does (hartGot s.m die (8 + vis) (trapOf false a pc (.fault k c)))) ∧
      (∀ p, deliverPlan s.m u x who true = .ok (.inl p) →
        (∀ k c a, fxProbe p.x.m p.x.who p.wrs = some (.fault k c, a) →
          does (hartGot s.m die (8 + vis) (trapOf true a pc (.fault k c)))) ∧
        ∀ m', fxProbe p.x.m p.x.who p.wrs = none → hartStores p.x.who (u.gid, u.tix) p.x.m p.wrs = some m' →
          does (entered m' (p.f u))) ∧
      (∀ b c d rds, deliverPlan s.m u x who true = .error (.eff b c d rds) →
        (∀ rds, deliverPlan s.m u depth who true = .ok (.inr rds) → does (home depth)) ∧
        (∀ b c d rds, deliverPlan s.m u depth who true = .error (.eff b c d rds) → does (home depth)) ∧
        ∀ p m', deliverPlan s.m u depth who true = .ok (.inl p) → fxProbe p.x.m p.x.who p.wrs = none →
          hartStores p.x.who (u.gid, u.tix) p.x.m p.wrs = some m' → does (entered m' (p.f u)))))

/-- R18, R199, R253, R268 and R365: what `sfence.vma`, and the accesses, the CSR reads and the fetches of the
headland's harts, do to the machine. R367 and R368: a widened call, from its landing to its return. The numbers of new
objects (`nextId`) are the model's (log 1). Where it rests on a reading or a choice of the model, that is logs 13, 16,
37, 39, 62, 63, 90, 100 and 105. -/
def Obligations.HeadlandAccesses : Prop :=
  ((∀ (s : State) (die hart : Nat) (va asid : Option Nat) (hit : Nat → Nat → Bool), hit = fenceHits va asid →
    (8 ≤ hart → exec (.sfenceVma die hart va asid) s = .next s) ∧
    (hart < 8 → hartLives s.m die hart = true → (∀ x ∈ s.m.repls, x.gid ≠ hartGid die hart) →
      let cores := (s.m.cores.map Prod.fst).filter (fun c => (partDies s.m die).contains (c / 64))
      let busy := cores.filter (fun c => (s.m.core c).openC.pages.any (fun p => hit p.1 (p.2 * 4096)))
      (busy ≠ [] → exec (.sfenceVma die hart va asid) s = .next ⟨s.agenda, busy.foldl (fun m c => addDue m c 13) s.m⟩) ∧
      (busy = [] → ∃ m', exec (.sfenceVma die hart va asid) s = .next ⟨s.agenda, m'⟩ ∧
        (∀ c ∈ cores, (∀ l ∈ (m'.core c).lines, hit l.asid l.va = false) ∧ (∀ f ∈ (m'.core c).fetched, hit f.asid f.hdr = false) ∧
          m'.cluster (clusterOf c) = []) ∧
        (∀ d ∈ partDies s.m die, ∀ e ∈ (m'.die d).tlb, hit e.asid e.va = false) ∧
        ∀ e ∈ (hartOf m' die hart).tlb, hit e.asid e.va = false))) ∧
  (∀ (va asid : Option Nat) (a v : Nat), (fenceHits va asid a v = true ↔ (∀ n, asid = some n → n = a) ∧
      ∀ n, va = some n → n % 2 ^ 48 / 2 ^ 39 = v % 2 ^ 48 / 2 ^ 39)) ∧
  (∀ (s : State) (die hart : Nat) (v : DWord),
    (hart < 8 → hartLives s.m die hart = true →
      exec (.wwidthWrite die hart v) s = .next ⟨s.agenda, updHart s.m die hart (fun h => { h with
        lanes := if 512 < v.toNat % 1024 then 512 else v.toNat % 1024, busy := v.getLsbD 63,
        calls := h.calls.map (fun w => { w with cur := false }) })⟩ ∧
      exec (.wstackWrite die hart v) s = .next ⟨s.agenda, updHart s.m die hart (fun h => { h with
        wstack := BitVec.ofNat 64 (v.toNat % 2 ^ 32 / 16 * 16) })⟩) ∧
    (8 ≤ hart → exec (.wwidthWrite die hart v) s = .next s ∧ exec (.wstackWrite die hart v) s = .next s)) ∧
  (∀ (s : State) (a : HartAcc), accLives s.m a = false ∨ (a.rl = true ∧ hartPending s.m (hartOwner s.m a.die a.hart) = true) →
    exec (.headlandAccess a) s = .next s) ∧
  (∀ (s : State) (a : HartAcc) (who : Who) (own : Nat × Nat), accLives s.m a = true → own = hartOwner s.m a.die a.hart →
    (a.rl = true → hartPending s.m own = false) → who = accWho s.m a →
    let does (m : Mach) (r : HartRes) : Prop := exec (.headlandAccess a) s = .next ⟨s.agenda, hartGets m a r⟩
    let raises (e : VisExc) : Prop :=
      exec (.headlandAccess a) s = .next ⟨s.agenda, visRaises s.m a.die (a.hart - 8) a.img a.pc e⟩
    let fails (w : Bool) (e : MemErr) : Prop := (a.hart < 8 ∨ (∀ c, e ≠ .link c) → does s.m (trapOf w a.va a.pc e)) ∧
      ∀ c, 8 ≤ a.hart → e = .link c → raises (.linkLost a.va c)
    (∀ rel acq, a.op = .fence rel acq → (rel = true → hartPending s.m own = false) → does s.m (.val 0)) ∧
    (a.op = .rdCycle → does s.m (.val ((s.m.die a.die).hclk % 2 ^ 64))) ∧
    (a.op = .rdTime → does s.m (.val (s.m.time % 2 ^ 64))) ∧
    (a.op = .rdWwidth → does s.m (.val (if a.hart < 8 then
      (hartOf s.m a.die a.hart).lanes + 2 ^ 63 * (hartOf s.m a.die a.hart).busy.toNat else 1))) ∧
    (a.op = .rdWstack → does s.m (.val (if a.hart < 8 then (hartOf s.m a.die a.hart).wstack.toNat else 0))) ∧
    (a.op = .fetch →
      (∀ e, Machine.translate s.m who .fetch a.va = .error e → does s.m (.trap (match e with
        | .fault 1 _ => 12 | .fault 3 _ => 25 | .fault 4 _ => 26 | _ => 1) a.va a.pc)) ∧
      (∀ m x, Machine.translate s.m who .fetch a.va = .ok (m, x) →
        (isaTag m who a.va = some 0 → exec (.headlandAccess a) s = .next ⟨s.agenda, m⟩) ∧
        (isaTag m who a.va ≠ some 0 → does s.m (.trap 25 a.va a.pc)))) ∧
    (a.va % a.n ≠ 0 →
      (a.op = .load ∨ a.op = .lr → (a.hart < 8 → does s.m (.trap 4 a.va a.pc)) ∧ (8 ≤ a.hart → raises (.misalign a.va a.n))) ∧
      (a.op = .store ∨ a.op = .sc ∨ (∃ op, a.op = .amo op) →
        (a.hart < 8 → does s.m (.trap 6 a.va a.pc)) ∧ (8 ≤ a.hart → raises (.misalign a.va a.n)))) ∧
    (a.va % a.n = 0 →
      (a.op = .load → (∀ e, hartRead s.m who .load true a.va a.n = .error e → fails false e) ∧
        (∀ m bs x, hartRead s.m who .load true a.va a.n = .ok (m, bs, x) → does m (.val (bytesNat bs)))) ∧
      (a.op = .lr → (∀ e, hartRead s.m who .load true a.va a.n = .error e → fails false e) ∧
        (∀ m bs x, hartRead s.m who .load true a.va a.n = .ok (m, bs, x) → ∃ r, (x.cls ≠ 0 → r.1 = x.pa ∧ r.2.1 = a.n) ∧
          (x.cls = 0 → r.1 = x.pa / x.grain * x.grain ∧ r.2.1 = x.grain) ∧
          does (updHart m a.die a.hart (fun h => { h with resv := some r })) (.val (bytesNat bs)))) ∧
      (a.op = .store → (∀ e, Machine.translate s.m who .store a.va = .error e → fails true e) ∧
        (∀ m x, Machine.translate s.m who .store a.va = .ok (m, x) →
          (∀ e, reachable m .store who.die x.pa a.n = .error e → fails true e) ∧
          (reachable m .store who.die x.pa a.n = .ok () → ∀ m', hartWrite m who own x (natBytes a.n a.val) = some m' → does m' (.val 0)))) ∧
      (∀ op, a.op = .amo op → (∀ e, hartRead s.m who .atomic false a.va a.n = .error e → fails true e) ∧
        (∀ m bs x, hartRead s.m who .atomic false a.va a.n = .ok (m, bs, x) → ∀ m', hartWrite m who own x
            (natBytes a.n (atomNew op a.n (bytesNat bs) a.val 0)) = some m' → does m' (.val (bytesNat bs)))) ∧
      (a.op = .sc → (∀ e, Machine.translate s.m who .store a.va = .error e → fails true e) ∧
        ∀ m x, Machine.translate s.m who .store a.va = .ok (m, x) →
          let held := ∃ r, (hartOf s.m a.die a.hart).resv = some r ∧ r.1 ≤ x.pa ∧ x.pa + a.n ≤ r.1 + r.2.1
          let drop (m : Mach) : Mach := updHart m a.die a.hart (fun h => { h with resv := none })
          (¬ held → x.cls ≠ 0 → does (drop m) (.val 1)) ∧
          (¬ held → x.cls = 0 → does (drop (dieMark m a.die).1) (.val 1)) ∧
          (held → reachable m .store who.die x.pa a.n = .ok () → ∀ m', hartWrite (drop m) who own x (natBytes a.n a.val) = some m' →
            does m' (.val 0))))) ∧
  (∀ (s : State) (a : HartAcc), (a.hart < 8 → accWho s.m a = {
      core := a.die * 64, die := a.die, asid := a.satp.toNat / 2 ^ 44 % 2 ^ 16, root := a.satp.toNat % 2 ^ 44, secure := a.world
      part := partDies s.m a.die, user := a.umode, mode := a.satp.toNat / 2 ^ 60 % 2 ^ 4, hart := some a.hart, sum := a.sum, mxr := a.mxr }) ∧
    (∀ v t, 8 ≤ a.hart → lget (s.m.die a.die).visitors (a.hart - 8) = some v → s.m.thread? v.gid v.tix = some t →
      accWho s.m a = { whoOf s.m t.gid with l1 := false, hart := some a.hart })) ∧
  (∀ (va pc : Nat) (w : Bool), trapOf w va pc (.fault 2 0x0203) = .trap (if w then 7 else 5) va pc ∧
    (∀ c, trapOf w va pc (.fault 1 c) = .trap (if w then 15 else 13) va pc ∧ trapOf w va pc (.fault 4 c) = .trap 26 va pc ∧
      trapOf w va pc (.link c) = .trap (if w then 7 else 5) va pc))) ∧
  ((∀ (m : Mach) (die hart : Nat) (w : WCall) (q : Queue), m.queues.find? (fun q => q.cid == w.cid && q.num == 1023) = some q →
    (q.cap ≤ q.kids.length → enterWide m die hart w = m) ∧
    (q.kids.length < q.cap → ∀ k, k = ({
        kid := m.nextId, cid := w.cid, qid := q.qid, seq := q.seq, rc := wideRec die w.pc w.lanes, hart := some hart } : Kernel) →
      k.rc.band = 3 ∧ k.rc.entry = w.pc ∧ k.rc.widths.head? = some 10 ∧ k.rc.extents.head? = some w.lanes ∧ k.rc.glevel = 1 ∧
      k.rc.clevel = 1 ∧ k.rc.regs = 128 ∧ k.rc.scratch = 0 ∧ k.rc.deadline = 0 ∧ k.rc.done = 0 ∧
      enterWide m die hart w = updHart (({ m with nextId := m.nextId + 1, kernels := m.kernels ++ [k] } : Mach).updQueue q.qid
        (fun q => { q with seq := q.seq + 1, kids := q.kids ++ [m.nextId] })) die hart (fun h => { h with
          calls := h.calls.map (fun c => if c = w then { w with kid := some m.nextId } else c) }))) ∧
  (∀ (s : State) (die hart pc cid : Nat) (img : Image) (x : Ctx) (h : Hart) (who : Who), hart < 8 → hartLives s.m die hart = true →
    h = hartOf s.m die hart → s.m.ctx? cid = some x → x.stat ≠ .ending → x.stat ≠ .gone →
    who = ({
      core := die * 64, die := die, asid := pte x.satp.toNat 44 16, root := pte x.satp.toNat 0 44, secure := x.secure
      part := partDies s.m die, hart := some hart } : Who) →
    let does (m : Mach) : Prop := exec (.widenedCallLanding die hart img pc cid) s = .next ⟨s.agenda, m⟩
    (∀ e, Machine.translate s.m who .fetch pc = .error e → does (hartGot s.m die hart (.trap (match e with
      | .fault 1 _ => 12 | .fault 2 _ => 1 | .fault 4 _ => 26 | _ => 25) pc pc))) ∧
    ∀ m y, Machine.translate s.m who .fetch pc = .ok (m, y) →
      (isaTag m who pc ≠ some 1 → does s.m) ∧
      (isaTag m who pc = some 1 → pc % 8 ≠ 0 → does (hartGot s.m die hart (.trap 0 pc pc))) ∧
      (isaTag m who pc = some 1 → pc % 8 = 0 →
        (h.busy = true →
          (∀ w ∈ (hartOf m die hart).calls, ¬ (w.cid = cid ∧ w.pc = pc ∧ w.img = img)) → does (hartGot m die hart (.trap 25 pc pc))) ∧
        (h.busy = true → ∀ w, (hartOf m die hart).calls.find? (fun w => w.cid == cid && w.pc == pc && w.img == img) = some w →
          let m1 := updHart m die hart (fun h => { h with calls := h.calls.map (fun c => { c with cur := decide (c = w) }) })
          (w.kid ≠ none → does m1) ∧ (w.kid = none → does (enterWide m1 die hart { w with cur := true }))) ∧
        (h.busy = false → (∃ r ∈ s.m.repls, r.gid = hartGid die hart) → does s.m) ∧
        (h.busy = false → (∀ r ∈ s.m.repls, r.gid ≠ hartGid die hart) → ∀ w, w = ({
            cid := cid, pc := pc, img := img, lanes := if h.lanes = 0 then 1 else h.lanes
            stride := h.wstack.toNat } : WCall) →
          does (enterWide (updHart m die hart (fun h => { h with busy := true, calls := h.calls ++ [w] })) die hart w)))) ∧
  (∀ (s : State) (die hart : Nat) (w : WCall) (kid : Nat) (k : Kernel), w ∈ (hartOf s.m die hart).calls → w.cur = true →
    (∀ c ∈ (hartOf s.m die hart).calls, c.cur = true → c = w) → hartLives s.m die hart = true →
    w.kid = some kid → s.m.kernel? kid = some k → k.kid = kid → k.stat = .ended → (hartOf s.m die hart).busy = true →
    let back (r : HartRes) : Prop := exec (.widenedCallReturn die hart) s = .next ⟨s.agenda, updHart ({ s.m with
      groups := s.m.groups.filter (fun g => g.kid != kid) } : Mach) die hart (fun h => { h with
        busy := false, calls := h.calls.erase w, got := r :: h.got })⟩
    (∀ g, s.m.groups.find? (fun g => g.kid == kid) = some g → k.final = 1 → back (.pair g.ret0 g.ret1)) ∧
    (k.final ≠ 1 → back (.trap 27 w.pc w.pc))))

/-- R373, R378 to R381, R396 and R406: the commands of queues, admissions, bindings and the package number. The
numbers of new objects (`nextId`) are the model's (log 1). Where it rests on a reading or a choice of the model, that
is logs 9, 38, 43, 50 and 52. -/
def Obligations.QueueCommands : Prop :=
  (∀ (s : State) (p : Part) (ops : List Nat), RingHead s.m p 6 ops →
    (2 ^ 16 ≤ opAt ops 3 → Refuses (.createQueue p.pid) s p) ∧
    (opAt ops 3 < 2 ^ 16 → ∀ o, o = (if opAt ops 3 = 0 then none else some (opAt ops 3)) →
      (newQueue s.m p (opAt ops 0) (opAt ops 1) (opAt ops 2) o = none → Refuses (.createQueue p.pid) s p) ∧
      (∀ m h, newQueue s.m p (opAt ops 0) (opAt ops 1) (opAt ops 2) o = some (m, h) →
        exec (.createQueue p.pid) s = answers s p m 1 h))) ∧
  (∀ (m : Mach) (p : Part) (cn cap flags n : Nat) (o : Option Nat) (x : Ctx), ctxNum m p cn = some x →
    lowestFree 0 1023 ((m.queues.filter (fun q => q.cid == x.cid && q.stat != .destroyed)).map (fun q => q.num)) = some n →
    (x.stat ≠ .ending → 1 ≤ cap → cap ≤ 4096 → flags ≤ 1 → newQueue m p cn cap flags o = some ({ m with
      nextId := m.nextId + 1, queues := m.queues ++ [{
        qid := m.nextId, part := p.pid, num := n, cid := x.cid, cap := cap, dropLate := flags == 1, session := o }] }, cn * 65536 + n)) ∧
    (x.stat = .ending ∨ cap = 0 ∨ 4096 < cap ∨ 1 < flags → newQueue m p cn cap flags o = none)) ∧
  (∀ (lo n k : Nat) (used : List Nat), lowestFree lo n used = some k ↔
    lo ≤ k ∧ k < lo + n ∧ k ∉ used ∧ ∀ i, lo ≤ i → i < k → i ∈ used) ∧
  (∀ (s : State) (p : Part) (ops : List Nat),
    (RingHead s.m p 7 ops → (∀ q, queueNum s.m p (opAt ops 0) false = some q →
        (q.stat = .active → exec (.quiesce p.pid) s = answers s p (quiesceQueue s.m q) 1 0) ∧
        (q.stat ≠ .active → Refuses (.quiesce p.pid) s p)) ∧
      (queueNum s.m p (opAt ops 0) false = none → Refuses (.quiesce p.pid) s p)) ∧
    (RingHead s.m p 8 ops → (∀ q, queueNum s.m p (opAt ops 0) false = some q →
        (q.stat = .quiesced → exec (.reopen p.pid) s = answers s p
          (s.m.updQueue q.qid (fun q => { q with stat := .active, gen := q.nextGen })) 1 0) ∧
        (q.stat ≠ .quiesced → Refuses (.reopen p.pid) s p)) ∧
      (queueNum s.m p (opAt ops 0) false = none → Refuses (.reopen p.pid) s p)) ∧
    (RingHead s.m p 9 ops → (∀ q, queueNum s.m p (opAt ops 0) false = some q →
        (q.stat = .active ∨ q.stat = .quiesced → exec (.destroyQueue p.pid) s = answers s p (endEmpty
          ((if q.stat = .active then quiesceQueue s.m q else s.m).updQueue q.qid (fun q => { q with stat := .drained })) q.cid) 1 0) ∧
        (q.stat = .drained → Refuses (.destroyQueue p.pid) s p)) ∧
      (queueNum s.m p (opAt ops 0) false = none → Refuses (.destroyQueue p.pid) s p)) ∧
    (RingHead s.m p 10 ops → (∀ q, queueNum s.m p (opAt ops 0) true = some q → opAt ops 1 % 64 = 0 →
        ownRange p (opAt ops 1) 64 = true →
        exec (.queueStatus p.pid) s = answers s p (publishBytes s.m (opAt ops 1) (statusBytes s.m q)) 1 0) ∧
      (queueNum s.m p (opAt ops 0) true = none ∨ opAt ops 1 % 64 ≠ 0 ∨ ownRange p (opAt ops 1) 64 = false →
        Refuses (.queueStatus p.pid) s p))) ∧
  (∀ (m : Mach) (p : Part) (h : Nat) (q : Queue), queueNum m p h false = some q → q.num ≠ 1023) ∧
  (∀ (m : Mach) (q : Queue), quiesceQueue m q = q.kids.foldl (fun m k => match m.kernel? k with
      | some x => if x.stat = .queued then stopKernel m k 4 none else m
      | none => m)
    (m.updQueue q.qid (fun q => { q with stat := .quiesced, gen := q.nextGen, holdTill := none }))) ∧
  (∀ q : Queue, q.gen < 2 ^ 32 → q.nextGen = if q.gen = 2 ^ 32 - 1 then 1 else q.gen + 1) ∧
  (∀ (m : Mach) (q : Queue) (x : Ctx) (k : Kernel), m.ctx? q.cid = some x → x.num < 2 ^ 16 → q.num < 2 ^ 16 → q.gen < 2 ^ 32 →
    q.kids.length < 2 ^ 32 → q.seq < 2 ^ 64 → k.seq < 2 ^ 64 → q.session.getD 0 < 2 ^ 16 → q.kids.head?.bind m.kernel? = some k →
    (∀ d, (k.rc.ranges.getD d (0, 0)).1 < 2 ^ 32 ∧ (k.rc.ranges.getD d (0, 0)).2 < 2 ^ 32) → ∀ b, b = statusBytes m q →
    b.length = 64 ∧ fieldAt b 0 4 = x.num * 2 ^ 16 + q.num ∧ fieldAt b 4 4 = q.gen ∧ fieldAt b 9 1 = q.dropLate.toNat ∧
    fieldAt b 8 1 = (match q.stat with | .active => (if q.holdTill.isSome then 1 else 0) | .destroyed => 3 | _ => 2) ∧
    fieldAt b 10 2 = q.session.getD 0 ∧ fieldAt b 12 4 = q.kids.length ∧ fieldAt b 16 8 = q.seq - 1 ∧ fieldAt b 24 8 = k.seq ∧
    ∀ d, d < 4 → fieldAt b (32 + 8 * d) 4 = (k.rc.ranges.getD d (0, 0)).1 ∧ fieldAt b (36 + 8 * d) 4 = (k.rc.ranges.getD d (0, 0)).2) ∧
  (∀ (s : State) (qid w : Nat) (q : Queue), s.m.queue? qid = some q → q.holdTill = some w →
    (q.stat = .active → w ≤ s.m.time → exec (.holdTimeExpire qid) s = .next ⟨s.agenda, quiesceQueue s.m q⟩) ∧
    (q.stat ≠ .active ∨ s.m.time < w → exec (.holdTimeExpire qid) s = .next s)) ∧
  (∀ (s : State) (p : Part) (ops : List Nat), RingHead s.m p 11 ops →
    (opAt ops 5 = 0 → ∀ n, lowestFree 0 64 (p.admits.map (fun a => a.num)) = some n →
      opAt ops 0 ≤ 8191 → 1 ≤ opAt ops 1 → opAt ops 0 + opAt ops 1 ≤ 8192 → opAt ops 2 % 4096 = 0 → opAt ops 3 % 4096 = 0 →
      ownRange p (opAt ops 2) (opAt ops 3) = true → 1 ≤ opAt ops 4 → opAt ops 4 ≤ 3 → p.admits.length < 64 →
      exec (.admitAdd p.pid) s = answers s p (s.m.updPart p.pid (fun p => { p with admits := p.admits ++ [{
        num := n, first := opAt ops 0, count := opAt ops 1, base := opAt ops 2, len := opAt ops 3, rights := opAt ops 4 }] })) 1 n) ∧
    (opAt ops 5 ≠ 1 → opAt ops 5 ≠ 0 ∨ 8191 < opAt ops 0 ∨ opAt ops 1 = 0 ∨ 8192 < opAt ops 0 + opAt ops 1 ∨ opAt ops 2 % 4096 ≠ 0 ∨
      opAt ops 3 % 4096 ≠ 0 ∨ ownRange p (opAt ops 2) (opAt ops 3) = false ∨ opAt ops 4 = 0 ∨ 3 < opAt ops 4 ∨ 64 ≤ p.admits.length →
      Refuses (.admitAdd p.pid) s p) ∧
    (opAt ops 5 = 1 → (∀ i ∈ [1, 2, 3, 4], opAt ops i = 0) → (∃ a ∈ p.admits, a.num = opAt ops 0) →
      exec (.admitRemove p.pid) s = answers s p (s.m.updPart p.pid (fun p => { p with
        admits := p.admits.filter (fun a => a.num != opAt ops 0) })) 1 (opAt ops 0)) ∧
    (opAt ops 5 = 1 → (∃ i ∈ [1, 2, 3, 4], opAt ops i ≠ 0) ∨ (∀ a ∈ p.admits, a.num ≠ opAt ops 0) → Refuses (.admitRemove p.pid) s p)) ∧
  (∀ (s : State) (p : Part) (ops : List Nat) (x : Ctx), RingHead s.m p 12 ops → ctxNum s.m p (opAt ops 0) = some x →
    (opAt ops 1 ≤ 8191 → (s.m.pkgSet = true → opAt ops 1 ≠ s.m.pkg) → 1 ≤ opAt ops 2 → opAt ops 2 ≤ 4095 →
      opAt ops 4 = 0 → opAt ops 5 = 0 →
      (∀ n, opAt ops 3 = 0 → s.m.pkgSet = true → (p.binds.filter (fun b => b.cid == x.cid)).length < 64 →
        lowestFree 0 64 ((p.binds.filter (fun b => b.cid == x.cid)).map (fun b => b.num)) = some n →
        exec (.bind p.pid) s = answers s p (s.m.updPart p.pid (fun p => { p with
          binds := p.binds ++ [⟨n, x.cid, opAt ops 1, opAt ops 2⟩] })) 1 n) ∧
      (∀ b, opAt ops 3 = 1 → p.binds.find? (fun b => b.cid == x.cid && b.pkg == opAt ops 1 && b.ctx == opAt ops 2) = some b →
        exec (.unbind p.pid) s = answers s p (s.m.updPart p.pid (fun p => { p with
          binds := p.binds.filter (fun c => c != b) })) 1 b.num)) ∧
    (opAt ops 3 ≠ 1 → opAt ops 3 ≠ 0 ∨ 8191 < opAt ops 1 ∨ (s.m.pkgSet = true ∧ opAt ops 1 = s.m.pkg) ∨ opAt ops 2 = 0 ∨
      4095 < opAt ops 2 ∨ opAt ops 4 ≠ 0 ∨ opAt ops 5 ≠ 0 ∨ s.m.pkgSet = false ∨
      64 ≤ (p.binds.filter (fun b => b.cid == x.cid)).length → Refuses (.bind p.pid) s p) ∧
    (opAt ops 3 = 1 → (∀ b ∈ p.binds, ¬ (b.cid = x.cid ∧ b.pkg = opAt ops 1 ∧ b.ctx = opAt ops 2)) → Refuses (.unbind p.pid) s p)) ∧
  (∀ (s : State) (p : Part) (ops : List Nat), RingHead s.m p 13 ops →
    (opAt ops 0 ≤ 8191 → (∀ i ∈ [1, 2, 3, 4, 5], opAt ops i = 0) → (s.m.pkgSet = true → s.m.pkg = opAt ops 0) →
      exec (.setPackageNumber p.pid) s = answers s p { s.m with pkg := opAt ops 0, pkgSet := true } 1 (opAt ops 0)) ∧
    (8191 < opAt ops 0 ∨ (∃ i ∈ [1, 2, 3, 4, 5], opAt ops i ≠ 0) ∨ (s.m.pkgSet = true ∧ s.m.pkg ≠ opAt ops 0) →
      Refuses (.setPackageNumber p.pid) s p))

/-- R384 to R386, R381 and R390: the requests of Trethar messages. Values that the spec leaves open are the constants
of log 8. Where it rests on a reading or a choice of the model, that is logs 52, 53, 54, 55, 82 and 83. -/
def Obligations.TretharRequests : Prop :=
  (∀ (op sid st tag : Nat) (msg body : List Byte), op < 2 ^ 8 → st < 2 ^ 8 → sid < 2 ^ 16 → fieldAt msg 2 1 = op → fieldAt msg 6 2 = tag →
    body.length < 2 ^ 32 → ∀ r, r = replyBytes msg st sid body → fieldAt r 0 1 = 1 ∧ fieldAt r 1 1 = 1 ∧ fieldAt r 2 1 = op ∧
    fieldAt r 3 1 = st ∧ fieldAt r 4 2 = sid ∧ fieldAt r 6 2 = tag ∧ fieldAt r 8 4 = body.length ∧ fieldAt r 12 4 = 0 ∧ r.drop 16 = body) ∧
  (∀ (s : State) (p : Part) (msg : TMsg) (op sid : Nat) (b : List Byte), op ∈ [2, 3, 4, 5, 6] → Asks s.m p msg op sid b →
    (¬ LengthFits msg b ∨ ¬ BodyFits op b → exec (requestOf op p.pid msg) s = replied s p msg s.m 1 sid []) ∧
    (LengthFits msg b → BodyFits op b →
      ((∀ x ∈ p.sessions, x.sid ≠ sid) → exec (requestOf op p.pid msg) s = replied s p msg s.m 2 sid []) ∧
      ((∃ x ∈ p.sessions, x.sid = sid) → 64 ≤ unanswered s.m p sid → exec (requestOf op p.pid msg) s = replied s p msg s.m 4 sid []))) ∧
  (∀ (s : State) (p : Part) (msg : TMsg) (op : Nat) (b : List Byte), fieldAt msg.payload 2 1 = op → op ∈ [2, 3, 4, 5, 6] →
    msg.vendor ≠ Config.vendorId ∨ fieldAt msg.payload 0 1 ≠ 1 ∨ fieldAt msg.payload 1 1 ≠ 0 → exec (requestOf op p.pid msg) s = .next s) ∧
  (∀ (s : State) (p : Part) (msg : TMsg) (sid : Nat) (b : List Byte),
    (Served s.m p msg 2 sid b → b.length = 48 →
      (∀ m n, newContext s.m p (descFor s.m p) b (some sid) = some (m, n) → exec (.tretharCreateContext p.pid msg) s =
        replied s p msg (publishBytes m (descFor s.m p) (b ++ natBytes 16 0)) 0 sid (natBytes 4 n)) ∧
      (newContext s.m p (descFor s.m p) b (some sid) = none →
        exec (.tretharCreateContext p.pid msg) s = replied s p msg s.m 3 sid (natBytes 4 0))) ∧
    (Served s.m p msg 3 sid b → b.length = 12 →
      (∀ x, ctxNum s.m p (fieldAt b 0 4) = some x → x.session = some sid →
        (∀ m h, newQueue s.m p (fieldAt b 0 4) (fieldAt b 4 4) (fieldAt b 8 4) (some sid) = some (m, h) →
          exec (.tretharCreateQueue p.pid msg) s = replied s p msg m 0 sid (natBytes 4 h)) ∧
        (newQueue s.m p (fieldAt b 0 4) (fieldAt b 4 4) (fieldAt b 8 4) (some sid) = none →
          exec (.tretharCreateQueue p.pid msg) s = replied s p msg s.m 3 sid (natBytes 4 0))) ∧
      ((∀ x, ctxNum s.m p (fieldAt b 0 4) = some x → x.session ≠ some sid) →
        exec (.tretharCreateQueue p.pid msg) s = replied s p msg s.m 3 sid (natBytes 4 0))) ∧
    (Served s.m p msg 4 sid b → b.length = 200 → fieldAt b 4 4 = 0 →
      (∀ q m v, queueNum s.m p (fieldAt b 0 4) false = some q → q.session = some sid →
        appendRec s.m q.cid (fieldAt b 0 4) (b.drop 8) p.dies = (m, v) →
        exec (.submit p.pid msg) s = replied s p msg m 0 sid (natBytes 8 v)) ∧
      ((∀ q, queueNum s.m p (fieldAt b 0 4) false = some q → q.session ≠ some sid) →
        exec (.submit p.pid msg) s = replied s p msg s.m 3 sid [])) ∧
    (Served s.m p msg 5 sid b → b.length = 4 →
      (∀ q, queueNum s.m p (fieldAt b 0 4) false = some q → q.session = some sid →
        exec (.readStatus p.pid msg) s = replied s p msg s.m 0 sid (statusBytes s.m q)) ∧
      ((∀ q, queueNum s.m p (fieldAt b 0 4) false = some q → q.session ≠ some sid) →
        exec (.readStatus p.pid msg) s = replied s p msg s.m 3 sid [])) ∧
    (Served s.m p msg 6 sid b → b = [] → ∀ x, p.sessions.find? (fun x => x.sid == sid) = some x →
      exec (.detach p.pid msg) s = replied s p msg (endSession s.m p x) 0 sid [])) ∧
  (∀ (m : Mach) (p : Part) (x : Session) (m' : Mach), m' = endSession m p x →
    m'.queues = m.queues.map (fun q => if q.part = p.pid ∧ q.session = some x.sid then { q with
      session := none, orphanOf := some x.req, holdTill := if q.stat = .active then some (m.time + p.hold) else none } else q) ∧
    m'.ctxs = m.ctxs.map (fun c => if c.part = p.pid ∧ c.session = some x.sid then { c with session := none } else c) ∧
    m'.parts = m.parts.map (fun y => if y.pid = p.pid then { y with sessions := y.sessions.filter (fun y => y.sid != x.sid) } else y) ∧
    m' = { m with queues := m'.queues, ctxs := m'.ctxs, parts := m'.parts }) ∧
  (∀ (s : State) (p : Part) (msg : TMsg) (sid : Nat) (b : List Byte), Asks s.m p msg 1 sid b →
    (¬ LengthFits msg b ∨ b.length ≠ 8 + 8 * fieldAt b 4 4 ∨ 64 < fieldAt b 4 4 ∨ 1 < fieldAt b 0 4 →
      exec (.tretharAttach p.pid msg) s = replied s p msg s.m 1 sid []) ∧
    (LengthFits msg b → b.length = 8 + 8 * fieldAt b 4 4 → fieldAt b 4 4 ≤ 64 → ∀ m p1,
      (fieldAt b 0 4 = 0 → m = s.m) → (fieldAt b 0 4 = 1 →
        m = (p.sessions.filter (fun x => x.req == msg.req)).foldl (fun m x => endSession m p x) s.m) → fieldAt b 0 4 ≤ 1 →
      m.part? p.pid = some p1 →
      (16 ≤ p1.sessions.length → exec (.tretharAttach p.pid msg) s = replied s p msg m 3 0 []) ∧
      (∀ n, p1.sessions.length < 16 → lowestFree 1 65535 (p1.sessions.map (fun x => x.sid)) = some n →
        ∀ m1 r, m1 = m.updPart p.pid (fun p => { p with sessions := p.sessions ++ [⟨n, msg.req⟩] }) →
        r = (m1.queues.filter (fun q => q.part == p.pid && q.orphanOf == some msg.req && q.stat != .destroyed)).foldl (handOver b n) (m1, []) →
        exec (.tretharAttach p.pid msg) s = replied s p msg r.1 0 0 (natBytes 4 n ++ natBytes 4 p.quarantine.length ++ r.2)))) ∧
  (∀ (b : List Byte) (sid : Nat) (m : Mach) (out : List Byte) (q : Queue),
    (q.stat = .active ∧ q.holdTill ≠ none ∧ namedGen b (handleOf m q) = some q.gen → handOver b sid (m, out) q =
      (m.updQueue q.qid (fun q => { q with session := some sid, holdTill := none, orphanOf := none }), out)) ∧
    (¬ (q.stat = .active ∧ q.holdTill ≠ none ∧ namedGen b (handleOf m q) = some q.gen) → ∀ m' q',
      m' = (if q.stat = .active then quiesceQueue m q else m).updQueue q.qid (fun q => { q with orphanOf := none }) →
      m'.queue? q.qid = some q' → handOver b sid (m, out) q =
        (m', out ++ natBytes 4 (handleOf m q) ++ natBytes 4 q'.shown ++ natBytes 4 q'.gen))) ∧
  (∀ (s : State) (p : Part) (msg : TMsg) (sid a i n : Nat) (b : List Byte), Served s.m p msg 7 sid b → b.length = 12 →
    fieldAt b 0 4 = i → fieldAt b 4 4 = n → fieldAt b 8 4 = a → a ≤ 2 → (a = 2 → n = 1) → ∀ held, held = p.quarantine.filter (fun q =>
      decide (i ≤ q.idx) && decide (q.idx < i + n)) →
    (held.length ≠ n → exec (disposeOf a p.pid msg) s = replied s p msg s.m 3 sid (natBytes 4 0)) ∧
    (held.length = n →
      (a = 0 → exec (disposeOf a p.pid msg) s = replied s p msg (held.foldl (fun m q => freeQuar m p q.idx) s.m) 0 sid (natBytes 4 n)) ∧
      (a = 1 → exec (disposeOf a p.pid msg) s = replied s p msg (held.foldl (fun m q => replayQuar m p q) s.m) 0 sid (natBytes 4 n)) ∧
      (a = 2 → exec (disposeOf a p.pid msg) s = replied s p msg s.m 0 sid (natBytes 4 n ++ cread s.m.mem (p.area + 576 * i) 576)))) ∧
  (∀ (s : State) (p : Part) (part i : Nat), s.m.part? part = some p →
    ((∃ q ∈ p.quarantine, q.idx = i ∧ q.replay = true) → exec (.disposeReplayAck part i) s = .next ⟨s.agenda, freeQuar s.m p i⟩) ∧
    ((∀ q ∈ p.quarantine, q.idx = i → q.replay = false) → exec (.disposeReplayAck part i) s = .next s)) ∧
  (∀ (m : Mach) (p : Part) (i : Nat), freeQuar m p i =
    (publishBytes m (p.area + 576 * i + 12) (natBytes 4 0)).updPart p.pid (fun p => { p with
      quarantine := p.quarantine.filter (fun q => q.idx != i) }))

/-- R387 to R391 and R393 to R395: the host link, second-tier ports and the fabric. Where it rests on a reading or a
choice of the model, that is logs 59, 60, 61, 64, 66 and 106. -/
def Obligations.LinkEvents : Prop :=
  (∀ (s : State) (p : Part) (part port area : Nat), s.m.part? part = some p →
    (p.live = true → p.link = .down → port / 2 ∈ p.dies → (s.m.die (port / 2)).fatal = false → ownRange p area 84934656 = true →
      p.linkPort = none ∨ (p.linkPort = some port ∧ p.area = area) → exec (.hostLinkUp part port area) s = .next ⟨s.agenda,
        s.m.updPart part (fun p => { p with link := .up, linkPort := some port, area := area })⟩) ∧
    (p.link ≠ .down ∨ port / 2 ∉ p.dies ∨ ownRange p area 84934656 = false → exec (.hostLinkUp part port area) s = .next s)) ∧
  (∀ (l : Line) (e : List Byte), l.asid < 2 ^ 16 → l.pa < 2 ^ 64 → l.data.length = 512 → e = quarEntry l → e.length = 576 ∧
    fieldAt e 0 8 = l.pa ∧ fieldAt e 8 2 = l.asid ∧ fieldAt e 12 4 = 1 ∧ fieldAt e 16 48 = 0 ∧ e.drop 64 = l.data ∧
    ∀ i, i < 16 → (fieldAt e 10 2 / 2 ^ i % 2 = 1 ↔ ∃ d ∈ (l.dirty.drop (32 * i)).take 32, d = true)) ∧
  (∀ (l : List (Nat × Line)) (m : Mach) (p : Part), quarLines p l m =
    l.foldl (fun m x => (publishBytes m (p.area + 576 * x.1) (quarEntry x.2)).updPart p.pid
      (fun p => { p with quarantine := p.quarantine ++ [⟨x.1, x.2.pa, false⟩] })) m) ∧
  (∀ (p : Part) (n : Nat), (quarNums p n).length = n ∧ (quarNums p n).Pairwise (fun a b => a < b) ∧
    (∀ i ∈ quarNums p n, ∀ q ∈ p.quarantine, q.idx ≠ i) ∧
    ∀ i, ∀ j ∈ quarNums p n, i < j → i ∈ quarNums p n ∨ ∃ q ∈ p.quarantine, q.idx = i) ∧
  (∀ l : List Line, ((l.foldl (fun r x => insertLine x r) []).Pairwise (fun a b => a.pa ≤ b.pa)) ∧
    ∀ x, x ∈ l.foldl (fun r x => insertLine x r) [] ↔ x ∈ l) ∧
  (∀ (s : State) (p : Part) (part : Nat), s.m.part? part = some p →
    (p.link ≠ .up → exec (.hostLinkLoss part) s = .next s) ∧
    (p.link = .up → ∀ dirty m1 m2, dirty = (p.lines.filter (fun l => !l.clean)).foldl (fun r x => insertLine x r) [] →
      m1 = quarLines p ((quarNums p dirty.length).zip dirty) (dropHostWrs (s.m.updPart part (fun p => { p with link := .lost, lines := [], wbs := [] })) p) →
      m2 = (m1.ctxs.filter (fun x => x.part == part && x.stat != .gone)).foldl (fun m x =>
        let n := dirty.countP (fun l => l.asid == pte x.satp.toNat 44 16)
        if n = 0 then m else loseCtx m x n) m1 →
      exec (.hostLinkLoss part) s = .next ⟨s.agenda, (p.sessions.foldl (fun m x => endSession m p x) m2).updPart part
        (fun p => { p with link := .down })⟩)) ∧
  (∀ (m m' : Mach) (x : Ctx) (n : Nat), m' = (m.threads.filter (fun t => cidOf m t.gid == x.cid)).foldl (fun m t =>
      updBoth m t.gid t.tix (fun t => { t with lost := true })) m →
    loseCtx m x n = postRec m' x.cid { kind := 10, asid := asidOf m' x.cid, addr := n }) ∧
  (∀ (s : State) (p : Part) (part pa : Nat) (kind : Snoop) (bytes : List Byte), s.m.part? part = some p →
    (p.link ≠ .up ∨ homeOf pa ≠ .host ∨ 512 < pa % 512 + bytes.length → exec (.hostSnoop part kind pa bytes) s = .next s) ∧
    (p.link = .up → homeOf pa = .host → pa % 512 + bytes.length ≤ 512 →
      let put (m : Mach) : Mach := wakeWatch { m with mem := cwrite m.mem pa bytes } pa bytes.length
      (lineAt p.lines (pa / 512 * 512) = none → ∀ r, r = (if (lineAt p.wbs (pa / 512 * 512)).isSome then 1 else 0) →
        (kind = .inv → exec (.hostSnoop part kind pa bytes) s = .next ⟨s.agenda, put { s.m with outbox := [pa, r] :: s.m.outbox }⟩) ∧
        (kind ≠ .inv → exec (.hostSnoop part kind pa bytes) s = .next ⟨s.agenda, { s.m with outbox := [pa, r] :: s.m.outbox }⟩)) ∧
      (∀ l, lineAt p.lines (pa / 512 * 512) = some l → ∀ home, home = { s.m with mem := cwriteMask s.m.mem l.pa l.data l.dirty } →
        (kind = .inv → exec (.hostSnoop part kind pa bytes) s = .next ⟨s.agenda, put { home.updPart part
          (fun p => { p with lines := p.lines.filter (fun x => x.pa != l.pa) }) with outbox := [pa, 2, bytesNat l.data] :: s.m.outbox }⟩) ∧
        (kind = .data → exec (.hostSnoop part kind pa bytes) s = .next ⟨s.agenda, { home.updPart part
          (fun p => { p with lines := setLine p.lines l.asClean }) with outbox := [pa, 3, bytesNat l.data] :: s.m.outbox }⟩) ∧
        (kind = .cur → exec (.hostSnoop part kind pa bytes) s = .next ⟨s.agenda, { s.m with
          outbox := [pa, 4, bytesNat l.data] :: s.m.outbox }⟩)))) ∧
  (∀ (s : State) (part pa : Nat), exec (.goWritepull part pa) s = .next ⟨s.agenda, s.m.updPart part (fun p => { p with
    wbs := p.wbs.filter (fun l => l.pa != pa / 512 * 512) })⟩) ∧
  (∀ (s : State) (port : Nat) (p : Part), s.m.partOf (port / 2) = some p → port < 8 → port ∉ s.m.xfailed → p.linkPort ≠ some port →
    ∀ m, m = ({ s.m with
      xfailed := port :: s.m.xfailed
      cores := s.m.cores.map (fun e => (e.1, { e.2 with lines := e.2.lines.filter (fun l => homeOf l.pa != .second port) }))
      clusters := s.m.clusters.map (fun e => (e.1, e.2.filter (fun l => homeOf l.pa != .second port))) } : Mach) →
    (∀ x, s.m.ctxs.find? (fun x => x.part == p.pid && x.stat != .gone) = some x → exec (.portFail port) s = .next ⟨s.agenda,
      postRec m x.cid { kind := 5, cause := 0x0503, asid := asidOf m x.cid, addr := port }⟩) ∧
    (s.m.ctxs.find? (fun x => x.part == p.pid && x.stat != .gone) = none → exec (.portFail port) s = .next ⟨s.agenda, m⟩)) ∧
  (∀ (s : State) (die port : Nat), exec (.flitCrcError die port) s = .next s ∧
    (4 ≤ die ∨ 6 ≤ port → exec (.laneFail die port) s = .next s ∧ exec (.fabricPortDown die port) s = .next s) ∧
    (die < 4 → port < 6 → ∀ f, f = (lget (s.m.die die).fports port).getD {} →
      exec (.laneFail die port) s = .next ⟨s.agenda, noRoute (s.m.updDie die (fun x => { x with
        fports := lput x.fports port { failed := f.failed + 1, up := f.up && decide (f.failed < 2) } })) die⟩ ∧
      exec (.fabricPortDown die port) s = .next ⟨s.agenda, noRoute (s.m.updDie die (fun x => { x with
        fports := lput x.fports port { f with up := false } })) die⟩)) ∧
  (∀ (m : Mach) (d : Nat), (fabricUp m d = true → noRoute m d = m) ∧ (fabricUp m d = false → noRoute m d = { m with
    dadds := m.dadds.map (fun x => if x.pkg ≠ none ∧ x.core / 64 = d ∧ x.ans = none then { x with ans := some 3 } else x) })) ∧
  (∀ (s : State) (pkg pa n val d : Nat) (op : Option AtomOp) (wr : Bool) (p : Part), homeDie pa = some d → s.m.partOf d = some p →
    let out (m : Mach) (ok v : Nat) : Prop :=
      exec (.fabricRequestArrive pkg pa n op wr val) s = .next ⟨s.agenda, { m with outbox := [pkg, pa, ok, v] :: m.outbox }⟩
    let put (v : Nat) : Mach := wakeWatch (homeWrite s.m d pa (natBytes n v)) pa n
    let may (rd wr : Bool) : Prop := ∃ a ∈ p.admits, a.first ≤ pkg ∧ pkg < a.first + a.count ∧ a.base ≤ pa ∧ pa + n ≤ a.base + a.len ∧
      (rd = true → a.rights % 2 = 1) ∧ (wr = true → a.rights / 2 = 1)
    (¬ may (op.isSome || !wr) (op.isSome || wr) → out s.m 0 0) ∧
    (p.live = true → reachable s.m .load d pa n = .ok () → may (op.isSome || !wr) (op.isSome || wr) →
      (op = none → wr = true → out (put val) 1 0) ∧
      (op = none → wr = false → poisoned s.m pa n = none → out s.m 1 (memNat s.m pa n)) ∧
      (∀ o, op = some o → poisoned s.m pa n = none → out (put (atomNew o n (memNat s.m pa n) (val % 2 ^ (8 * n)) (val / 2 ^ (8 * n)))) 1
        (memNat s.m pa n))))

/-- R397, R399 to R402 and R404: what the Zynrak die does, and recovery. The numbers of new objects (`nextId`) are the
model's (log 1). Values that the spec leaves open are the constants of log 8. Where it rests on a reading or a choice
of the model, that is logs 3, 70, 71, 72 and 73. -/
def Obligations.ZynrakRequests : Prop :=
  (∀ t : List (Nat × List Nat), tableOk t = true ↔
    (∀ e ∈ t, e.2 ∈ [[0], [1], [2], [3], [0, 1], [2, 3], [0, 2], [1, 3], [0, 1, 2, 3]] ∧ e.2.head? = some e.1) ∧
    ∀ d, d < 4 → (t.filter (fun e => e.2.contains d)).length ≤ 1) ∧
  (∀ (s : State) (t : List (Nat × List Nat)), (tableOk t = false → exec (.setPartitionTable t) s = .next s) ∧
    (tableOk t = true → s.m.zyn.recovery = none → exec (.setPartitionTable t) s = .next ⟨s.agenda,
      formParts ((s.m.parts.filter (fun p => !t.contains (p.pid, p.dies))).foldl (fun m p => startDrain m p.pid)
        { s.m with zyn := { s.m.zyn with table := t } })⟩)) ∧
  (∀ l : List (Nat × Nat), (∀ e ∈ l, e.1 < 16 ∧ e.2 < 2 ^ 64) → (∀ i, i < 16 → (l.filter (fun e => e.1 == i)).length ≤ 1) →
    (regionsOk l = true ↔ (∀ e ∈ l, e.2 / 2 ^ 56 % 64 = 0) ∧ (∀ e ∈ l, e.2 / 2 ^ 63 % 2 = 1 → e.2 % 2 ^ 28 ≠ 0) ∧
      ∀ e ∈ l, ∀ f ∈ l, e.2 / 2 ^ 63 % 2 = 1 → f.2 / 2 ^ 63 % 2 = 1 → e.1 ≠ f.1 →
        e.2 / 2 ^ 28 % 2 ^ 28 + e.2 % 2 ^ 28 ≤ f.2 / 2 ^ 28 % 2 ^ 28 ∨ f.2 / 2 ^ 28 % 2 ^ 28 + f.2 % 2 ^ 28 ≤ e.2 / 2 ^ 28 % 2 ^ 28)) ∧
  (∀ (s : State) (d : Nat) (l : List (Nat × Nat)), (4 ≤ d ∨ (s.m.die d).held = false ∨ regionsOk l = false →
      exec (.setRegionTable d l) s = .next s) ∧
    (d < 4 → (s.m.die d).held = true → regionsOk l = true → s.m.zyn.recovery = none →
      exec (.setRegionTable d l) s = .next ⟨s.agenda, measureTables (s.m.updDie d (fun d => { d with regions := l }))⟩)) ∧
  (∀ m : Mach, measureTables m = { m with zyn := { m.zyn with
    meas := lput (lput m.zyn.meas 7 (Config.digest (tableBytes m.zyn.table))) 8 (Config.digest (regionBytes m)) } }) ∧
  (∀ (s : State) (img : List Byte), s.m.zyn.recovery = none → ∀ good, good = (Config.signed img = true ∧
      Config.minVersion ≤ Config.version img ∧ img.length ≤ Config.flashArea) →
    (good → exec (.writeFirmwareImage img) s = .next ⟨s.agenda, { s.m with zyn := { s.m.zyn with flash := img } }⟩) ∧
    (¬ good → exec (.writeFirmwareImage img) s = .next s)) ∧
  (∀ (s : State) (req : SpdmReq), exec (.spdmRequest req) s = .next ⟨s.agenda, { s.m with zyn := { s.m.zyn with
    answers := Config.spdmAnswer req s.m.zyn.meas :: s.m.zyn.answers } }⟩) ∧
  (∀ (s : State) (m' : Mach), tableOk s.m.zyn.table = true → exec .packageReset s = .next ⟨s.agenda, m'⟩ →
    m'.mem = [] ∧ m'.threads = [] ∧ m'.groups = [] ∧
    m'.kernels = [] ∧ m'.ctxs = [] ∧ m'.pkgSet = false ∧ m'.zyn.flash = s.m.zyn.flash ∧ m'.zyn.table = s.m.zyn.table ∧
    lget m'.zyn.meas 1 = some (Config.fixedDigest 1) ∧ lget m'.zyn.meas 2 = some (Config.digest s.m.zyn.flash) ∧
    lget m'.zyn.meas 9 = some (Config.fixedDigest 9) ∧ (imageGood s.m.zyn.flash = false → m'.parts = [] ∧ m'.zyn.recovery = some []) ∧
    (imageGood s.m.zyn.flash = true → m'.zyn.recovery = none ∧
      m'.parts = s.m.zyn.table.zipIdx.map (fun x => newPart (s.m.nextId + 2 * x.2) x.1.1 x.1.2 (if x.1.2.all (fun d =>
        Config.dieDigest d == Config.imageDigest s.m.zyn.flash d) then .running else .held)) ∧
      ∀ e ∈ s.m.zyn.table, ∀ good, good = e.2.all (fun d => Config.dieDigest d == Config.imageDigest s.m.zyn.flash d) →
        ∀ d ∈ e.2, (m'.die d).held = !good ∧ (good = true → (m'.die d).clk = 0) ∧
          lget m'.zyn.meas (3 + d) = some (if good then Config.dieDigest d else 0))) ∧
  (∀ s : State, ∃ m', exec .packageReset s = .next ⟨s.agenda, m'⟩) ∧
  (∀ (s : State) (part : Nat) (p : Part), s.m.part? part = some p →
    (p.live = true → exec (.partitionResetRequest part) s = .next ⟨s.agenda,
      (p.sessions.foldl (fun m x => endSession m p x)) (((s.m.updPart part (fun p => { p with stat := .draining })).ctxs.filter
        (fun x => x.part == part && x.stat != .gone && x.stat != .ending)).foldl destroyCtx
          (s.m.updPart part (fun p => { p with stat := .draining })))⟩) ∧
    (p.live = false → exec (.partitionResetRequest part) s = .next s) ∧
    (p.stat = .draining → (∀ k ∈ s.m.kernels, k.stat ≠ .ended → ∀ x, s.m.ctx? k.cid = some x → x.part ≠ part) →
      exec (.partitionHeld part) s = .next ⟨s.agenda, (p.dies.foldl (fun m d => m.updDie d (fun x => { x with held := true }))
        (linkLoss s.m part false)).updPart part (fun p => { p with stat := .scrubbing })⟩) ∧
    (p.stat ≠ .draining → exec (.partitionHeld part) s = .next s) ∧
    (p.stat = .scrubbing → exec (.scrubComplete part) s = .next ⟨s.agenda, formParts (scrub s.m p)⟩) ∧
    (p.stat ≠ .scrubbing → exec (.scrubComplete part) s = .next s)) ∧
  (∀ (m : Mach) (p : Part) (a : Nat), ((∃ d ∈ p.dies, homeDie a = some d) → cget (scrub m p).mem a = 0) ∧
    ((∀ d ∈ p.dies, homeDie a ≠ some d) → cget (scrub m p).mem a = cget m.mem a)) ∧
  (∀ (m : Mach) (p : Part), (∀ g ∈ (scrub m p).groups, ∀ k ∈ m.kernels, k.kid = g.kid → ∀ x ∈ m.ctxs, x.cid = k.cid → x.part ≠ p.pid) ∧
    (∀ x, x ∈ (scrub m p).ctxs ↔ x ∈ m.ctxs ∧ x.part ≠ p.pid) ∧ (∀ q, q ∈ (scrub m p).queues ↔ q ∈ m.queues ∧ q.part ≠ p.pid) ∧
    ∀ c, c / 64 ∉ p.dies → (scrub m p).core c = m.core c) ∧
  (∀ (s : State) (part sid off len : Nat) (last : Bool) (cells : List Host.Cell) (msg : TMsg) (b body : List Byte),
    msg.vendor = Config.vendorId → b = msg.payload → 16 ≤ b.length → b.length ≤ 1024 → fieldAt b 0 1 = 1 → fieldAt b 1 1 = 0 →
    fieldAt b 2 1 = 8 → s.m.zyn.recovery = some cells → body = b.drop 16 → off = fieldAt body 0 4 % 2 ^ 31 → len = fieldAt body 4 4 →
    (last = true ↔ 2 ^ 31 ≤ fieldAt body 0 4) →
    (fieldAt b 8 4 ≠ body.length ∨ body.length ≠ 8 + len ∨ len % 4 ≠ 0 ∨ len < 4 ∨ 1000 < len ∨ off % 4 ≠ 0 →
      exec (.recoveryWrite part msg) s = .next ⟨s.agenda, bootReply s.m b 1 []⟩) ∧
    (fieldAt b 8 4 = body.length → body.length = 8 + len → len % 4 = 0 → 4 ≤ len → len ≤ 1000 → off % 4 = 0 → fieldAt b 4 2 = 0 →
      (Config.flashArea < off + len → exec (.recoveryWrite part msg) s = .next ⟨s.agenda, bootReply s.m b 1 []⟩) ∧
      (off + len ≤ Config.flashArea → ∀ held, held = specPut cells off (body.drop 8) → ∀ end_, end_ = (if last then some (off + len) else s.m.zyn.recEnd) →
        ((∀ e, end_ = some e → held.countP (fun c => decide (c.1 < e)) ≠ e) → ∃ m', m' = { s.m with zyn := { s.m.zyn with
            recovery := some held, recEnd := end_ } } ∧
          exec (.recoveryWrite part msg) s = .next ⟨s.agenda, bootReply m' b 0 (natBytes 4 held.length ++ natBytes 4 0)⟩) ∧
        (∀ e img, end_ = some e → held.countP (fun c => decide (c.1 < e)) = e → img = cread held 0 e →
          (imageGood img = true → exec (.recoveryWrite part msg) s = .next ⟨s.agenda, bootPackage (bootReply { s.m with
            zyn := { s.m.zyn with flash := img } } b 0 (natBytes 4 held.length ++ natBytes 4 1))⟩) ∧
          (imageGood img = false → exec (.recoveryWrite part msg) s = .next ⟨s.agenda, bootReply { s.m with
            zyn := { s.m.zyn with recovery := some [], recEnd := none } } b 0 (natBytes 4 held.length ++ natBytes 4 2)⟩))))) ∧
  (∀ (s : State) (p : Part) (msg : TMsg) (sid : Nat) (b : List Byte), Asks s.m p msg 8 sid b →
    exec (.recoveryWrite p.pid msg) s = replied s p msg s.m 3 sid [])

/-- R16 to R18, R24, R400 and R408 to R411: clocks and droops, fatal die errors, fences and soft errors. Where it
rests on a reading or a choice of the model, that is logs 10, 67, 68, 69, 74, 75 and 100. -/
def Obligations.Reliability : Prop :=
  (∀ (s : State) (die mhz : Nat) (on : Supply) (outside : Bool),
    (die < 4 →
      (1200 ≤ mhz → mhz ≤ 2000 → mhz % 100 = 0 → exec (.clockSettingChange die mhz) s = .next ⟨s.agenda,
        s.m.updDie die (fun d => { d with mhz := mhz })⟩) ∧
      exec (.supplyDroop die (.droops outside)) s = .next ⟨s.agenda, s.m.updDie die (fun d => { d with
        droop := some (match d.droop with | some e => e.1 | none => s.m.time, outside) })⟩ ∧
      exec (.supplyDroop die .recovers) s = .next ⟨s.agenda, s.m.updDie die (fun d => { d with droop := none })⟩) ∧
    (4 ≤ die ∨ mhz < 1200 ∨ 2000 < mhz ∨ mhz % 100 ≠ 0 → exec (.clockSettingChange die mhz) s = .next s) ∧
    (4 ≤ die → exec (.supplyDroop die on) s = .next s)) ∧
  (∀ (d : Die) (now dt want : Nat), (d.held = true → d.tick now dt want = d) ∧
    (d.held = false → (d.tick now dt want).hclk = d.hclk + 3 * dt ∧ ∃ x, x ≤ dt ∧ x ≤ want ∧
      1000 * (d.tick now dt want).clk + (d.tick now dt want).phase = 1000 * d.clk + d.phase + (dt * d.mhz - x * d.mhz / 3) ∧
      (d.tick now dt want).phase < 1000 ∧ (d.droop = none → x = 0) ∧
      ∀ since, d.droop = some (since, false) → x ≤ 300 ∧ (x = 0 ∨ now + x ≤ since + 100))) ∧
  (∀ (s : State) (d skip : Nat), d < 4 → exec (.fatalDieError d) s = .next ⟨s.agenda, loseDie s.m d⟩ ∧
    exec (.thermalTrip d) s = .next ⟨s.agenda, loseDie s.m d⟩ ∧ exec (.softError (.l2tags d) false) s = .next ⟨s.agenda, loseDie s.m d⟩ ∧
    ((s.m.die d).standby = true → exec (.arbiterTakeover d skip) s = .next ⟨s.agenda, loseDie s.m d⟩) ∧
    ((s.m.die d).standby = false → ∀ m, m = s.m.updDie d (fun d => { d with standby := true }) →
      (∀ p, m.partOf d = some p → exec (.arbiterTakeover d skip) s = .next ⟨s.agenda, m.updPart p.pid (fun p => { p with
        grants := p.grants + skip })⟩) ∧
      (m.partOf d = none → exec (.arbiterTakeover d skip) s = .next ⟨s.agenda, m⟩))) ∧
  (∀ (m m1 : Mach) (d : Nat) (p : Part), (m.die d).fatal = false →
    m1 = Machine.measure (m.updDie d (fun x => { x with held := true, fatal := true })) (3 + d) 0 → m1.partOf d = some p →
    ∀ low away m2 m3 m4 m5 m6, low = (d == p.dies.foldl min 3) →
    away = (if low = true then (p.dies.filter (fun e => e != d)).flatMap (fun e => inTransit (m1.die e)) else []) →
    m2 = m1.updPart p.pid (fun p => { p with stat := if p.stat = .running then .degraded else p.stat }) →
    m3 = dropDie ((m2.kernels.filter (fun k => onDie m2 k d)).foldl (fun m k =>
      stopKernel m k.kid 5 (some (k.rc.ranges.getD d (0, 0)))) m2) d →
    m4 = (m3.cores.filter (fun e => p.dies.contains (e.1 / 64) &&
      (e.2.openC.homedOn d || (match e.2.comC with | some y => y.homedOn d | none => false)))).foldl (fun m e => squash m e.1 5) m3 →
    m5 = (if (p.linkPort.map (fun i => i / 2)) == some d then linkLoss m4 p.pid false else m4) →
    m6 = (away.foldl (fun m x => match m.thread? x.1 x.2.1 with
      | some t => transitLost m t x.2.2
      | none => m) m5).updDie d (fun x => { x with vq := [], homing := [], visitors := [], tlb := [], harts := [], trig := [] }) →
    (low = true → p.live = true → loseDie m d = startDrain m6 p.pid) ∧ (low = false → loseDie m d = m6)) ∧
  (∀ (m : Mach) (d : Nat), (m.die d).fatal = true → loseDie m d = m) ∧
  (∀ (m : Mach) (t : Thread) (pos : Nat), transitLost m t pos = faultGroup (postRec m (cidOf m t.gid) {
    kind := 9, asid := asidOf m (cidOf m t.gid), addr := pos, place := placeOf m t 0 }) t.gid) ∧
  (∀ (s : State) (die dev : Nat), exec (.patrolScrub die) s = .next s ∧
    (die < 4 → dev < 13 → dev ∉ (s.m.die die).failed → exec (.deviceMarkFailed die dev) s = .next ⟨s.agenda,
      s.m.updDie die (fun d => { d with failed := dev :: d.failed })⟩) ∧
    (4 ≤ die ∨ 13 ≤ dev ∨ dev ∈ (s.m.die die).failed → exec (.deviceMarkFailed die dev) s = .next s)) ∧
  (∀ (s : State) (core : Nat) (lost : List Nat), (256 ≤ core → exec (.coreFence core lost) s = .next s) ∧ (core < 256 → ∃ m m1, m = s.m.updCore core (fun k => { k with fenced := true }) ∧
    m1 = ((residents s.m core).filter (fun g => lost.contains g.gid)).foldl (fun m g => faultGroup m g.gid) m ∧
    exec (.coreFence core lost) s = .next ⟨s.agenda, ((residents s.m core).filter (fun g => !lost.contains g.gid)).foldl (fun m g =>
      match m.group? g.gid with
      | some h => if h.stat = .live ∨ h.stat = .draining then
          beginSave m ((liveSet m h).filter (fun y => y.stat == .live || y.stat == .draining)) false true else m
      | none => m) m1⟩)) ∧
  (∀ (s : State) (x : SoftAt), exec (.softError x true) s = .next s) ∧
  (∀ (m : Mach) (t : Thread), t.stat ≠ .exited → t.stat ≠ .transit → (∀ f, t.stat ≠ .parked f) →
    (t.stat ≠ .issuing → softPark m t = superFault m t 5 0x0504 0 0 0 t.pos) ∧
    (t.stat = .issuing → ∀ r, m.running.find? (fun r => r.gid == t.gid && r.tixs.contains t.tix) = some r →
      softPark m t = superFault m t 5 0x0504 0 0 0 r.here)) ∧
  (∀ (s : State) (gid tix off i c pa : Nat), let strikes (x : SoftAt) (m : Mach) : Prop := exec (.softError x false) s = .next ⟨s.agenda, m⟩
    (onCoreNow s.m gid = true → (∀ t, s.m.thread? gid tix = some t → strikes (.registers gid tix) (softPark s.m t)) ∧
      strikes (.uniform gid) ((s.m.threads.filter (fun t => t.gid == gid)).foldl (fun m t => softPark m t) s.m) ∧
      (padIn s.m gid off 1 = true → strikes (.scratch gid off) { s.m with bad := .scratch gid off :: s.m.bad }) ∧
      (∀ t, lget (s.m.core (s.m.coreOf gid)).tiles i = some t → t.gid = gid → strikes (.tile gid i) { s.m with bad := .tile gid i :: s.m.bad }) ∧
      (lget (s.m.core (s.m.coreOf gid)).wown (off / 64) = some gid → strikes (.wbuf gid off) { s.m with bad := .wbuf gid off :: s.m.bad })) ∧
    (onCoreNow s.m gid = false → strikes (.registers gid tix) s.m ∧ strikes (.uniform gid) s.m ∧ strikes (.scratch gid off) s.m ∧
      strikes (.tile gid i) s.m ∧ strikes (.wbuf gid off) s.m) ∧
    (sectorSpec (s.m.core c) pa = true → strikes (.l1 c pa) (squash s.m c 5)) ∧
    (let lineLost (x : SoftAt) (ls : List Line) (put : List Line → Mach) : Prop := ∀ l, lineAt ls pa = some l → ∀ m,
        m = put (ls.filter (fun x => x.pa != l.pa)) →
        (sectorDirty l pa = true → pa / 32 ∉ m.poison →
          strikes x (homePush { m with poison := pa / 32 :: m.poison } (l.without (pa / 32 * 32) 32))) ∧
        (sectorDirty l pa = false → strikes x (homePush m l));
      (sectorSpec (s.m.core c) pa = false →
        lineLost (.l1 c pa) (s.m.core c).lines (fun ls => s.m.updCore c (fun k => { k with lines := ls }))) ∧
      lineLost (.cluster c pa) (s.m.cluster c) (fun ls => s.m.setCluster c ls) ∧
      (∀ p d, s.m.parts.find? (fun p => (lineAt p.lines pa).isSome) = some p →
        lineLost (.l2 pa d) p.lines (fun ls => s.m.updPart p.pid (fun p => { p with lines := ls })))) ∧
    ((∀ p ∈ s.m.parts, lineAt p.lines pa = none) → deviceMem pa = true → pa / 32 ∉ s.m.poison →
      strikes (.l2 pa true) { s.m with poison := pa / 32 :: s.m.poison } ∧ strikes (.l2 pa false) s.m) ∧
    (∀ p, homeOf pa = .second p → pa / 32 ∉ s.m.poison → strikes (.secondTier pa) { s.m with poison := pa / 32 :: s.m.poison }))
end

