-- ==== Sys2Proof/Laws/Table.lean ====
section
/-!
SUPPORT. The laws of sparse tables, memory and registers: a read after a write, that a write leaves every
other place alone, and that every memory operation keeps the canonical form.
-/

namespace Sys2Proof.Machine

/-! Tables. -/

@[simp] theorem lget_lput_self {α : Type} (l : List (Nat × α)) (k : Nat) (v : α) : lget (lput l k v) k = some v := by
  induction l with
  | nil => simp [lput, lget]
  | cons e r ih =>
    obtain ⟨j, u⟩ := e
    simp only [lput]
    split
    · simp [lget]
    · split
      · simp [lget]
      · simp only [lget, ih]
        rw [if_neg (by omega)]

theorem lget_lput_ne {α : Type} (l : List (Nat × α)) {k n : Nat} (v : α) (h : n ≠ k) :
    lget (lput l k v) n = lget l n := by
  induction l with
  | nil => simp [lput, lget, Ne.symm h]
  | cons e r ih =>
    obtain ⟨j, u⟩ := e
    simp only [lput]
    split
    · simp [lget, Ne.symm h]
    · split
      · subst_vars
        simp [lget, Ne.symm h]
      · simp [lget, ih]

@[simp] theorem lget_ldel_self {α : Type} (l : List (Nat × α)) (k : Nat) : lget (ldel l k) k = none := by
  induction l with
  | nil => rfl
  | cons e r ih =>
    obtain ⟨j, u⟩ := e
    by_cases h : j = k
    · simpa [ldel, h] using ih
    · simpa [ldel, h, lget] using ih

theorem lget_ldel_ne {α : Type} (l : List (Nat × α)) {k n : Nat} (h : n ≠ k) : lget (ldel l k) n = lget l n := by
  induction l with
  | nil => rfl
  | cons e r ih =>
    obtain ⟨j, u⟩ := e
    by_cases hj : j = k
    · subst hj
      have : ldel ((j, u) :: r) j = ldel r j := by simp [ldel]
      rw [this, ih]
      simp [lget, Ne.symm h]
    · have : ldel ((j, u) :: r) k = (j, u) :: ldel r k := by simp [ldel, hj]
      rw [this]
      simp [lget, ih]

/-! Registers. -/

@[simp] theorem rget_rput_self (r : Regs) {n : Nat} (h : 2 ≤ n) (v : Word) : rget (rput r n v) n = v := by
  have hn : ¬ n < 2 := by omega
  unfold rget rput
  rw [if_neg hn, if_neg hn]
  split
  · simp_all
  · simp

theorem rget_rput_ne (r : Regs) {n k : Nat} (h : k ≠ n) (v : Word) : rget (rput r n v) k = rget r k := by
  unfold rget rput
  split
  · rfl
  · split
    · rfl
    · split
      · rw [lget_ldel_ne _ h]
      · rw [lget_lput_ne _ _ h]

@[simp] theorem rget_low (r : Regs) {n : Nat} (h : n < 2) : rget r n = 0 := by simp [rget, h]

@[simp] theorem kget_kput_self (r : Regs) (n : Nat) (v : Word) : kget (kput r n v) n = v := by
  unfold kget kput
  split
  · simp_all
  · simp

theorem kget_kput_ne (r : Regs) {n k : Nat} (h : k ≠ n) (v : Word) : kget (kput r n v) k = kget r k := by
  unfold kget kput
  split
  · rw [lget_ldel_ne _ h]
  · rw [lget_lput_ne _ _ h]

/-! Bytes. -/

@[simp] theorem cget_cput_self (l : List Host.Cell) (a : Nat) (b : Byte) : cget (cput l a b) a = b := by
  unfold cget cput
  split
  · simp_all
  · simp

theorem cget_cput_ne (l : List Host.Cell) {a x : Nat} (h : x ≠ a) (b : Byte) : cget (cput l a b) x = cget l x := by
  unfold cget cput
  split
  · rw [lget_ldel_ne _ h]
  · rw [lget_lput_ne _ _ h]

/-- A write leaves every byte outside it alone. -/
theorem cget_cwrite_outside (bs : List Byte) :
    ∀ (l : List Host.Cell) (a x : Nat), x < a ∨ a + bs.length ≤ x → cget (cwrite l a bs) x = cget l x := by
  induction bs with
  | nil => intro l a x _; rfl
  | cons b bs ih =>
    intro l a x h
    simp only [List.length_cons] at h
    simp only [cwrite]
    rw [ih _ _ _ (by omega), cget_cput_ne _ (by omega)]

/-- A write leaves its bytes. -/
theorem cget_cwrite_inside (bs : List Byte) :
    ∀ (l : List Host.Cell) (a i : Nat), i < bs.length → cget (cwrite l a bs) (a + i) = bs.getD i 0 := by
  induction bs with
  | nil => intro l a i h; simp at h
  | cons b bs ih =>
    intro l a i h
    simp only [cwrite]
    cases i with
    | zero => rw [cget_cwrite_outside _ _ _ _ (by omega)]; simp
    | succ i =>
      have := ih (cput l a b) (a + 1) i (by simpa using h)
      rw [show a + (i + 1) = a + 1 + i by omega, this]
      simp

@[simp] theorem length_cread (l : List Host.Cell) : ∀ (n a : Nat), (cread l a n).length = n
  | 0, _ => rfl
  | n + 1, a => by simp [cread, length_cread l n]

/-- A read after a write of the same bytes gives them back. -/
theorem cread_cwrite (bs : List Byte) : ∀ (l : List Host.Cell) (a : Nat), cread (cwrite l a bs) a bs.length = bs := by
  induction bs with
  | nil => intro l a; rfl
  | cons b bs ih =>
    intro l a
    simp only [cwrite, List.length_cons, cread]
    rw [cget_cwrite_outside _ _ _ _ (by omega), cget_cput_self, ih]

/-! The canonical form. -/

/-- Every key of a memory is above a bound. -/
def allAbove (a : Nat) (l : List Host.Cell) : Bool := l.all (fun c => decide (a < c.1))

theorem keysRise_cons (a : Nat) (v : Byte) (l : List Host.Cell) :
    keysRise ((a, v) :: l) = true ↔ allAbove a l = true ∧ keysRise l = true := by
  induction l generalizing a v with
  | nil => simp [keysRise, allAbove]
  | cons e r ih =>
    obtain ⟨b, w⟩ := e
    simp only [keysRise, Bool.and_eq_true, decide_eq_true_eq]
    constructor
    · rintro ⟨h, hr⟩
      refine ⟨?_, hr⟩
      have := (ih b w).1 hr
      simp only [allAbove, List.all_cons, Bool.and_eq_true, decide_eq_true_eq, List.all_eq_true] at this ⊢
      exact ⟨h, fun x hx => by have := this.1 x hx; omega⟩
    · rintro ⟨h, hr⟩
      simp only [allAbove, List.all_cons, Bool.and_eq_true, decide_eq_true_eq] at h
      exact ⟨h.1, hr⟩

theorem allAbove_lput {a k : Nat} (h : a < k) (v : Byte) (l : List Host.Cell) (hl : allAbove a l = true) :
    allAbove a (lput l k v) = true := by
  induction l with
  | nil => simp [lput, allAbove, h]
  | cons e r ih =>
    obtain ⟨j, u⟩ := e
    simp only [allAbove, List.all_cons, Bool.and_eq_true, decide_eq_true_eq] at hl ih
    simp only [lput]
    split
    · simp [allAbove, h, hl.1]; simpa using hl.2
    · split
      · simp [allAbove, h]; simpa using hl.2
      · simp only [allAbove, List.all_cons, Bool.and_eq_true, decide_eq_true_eq]
        exact ⟨hl.1, ih hl.2⟩

theorem keysRise_lput (k : Nat) (v : Byte) (l : List Host.Cell) (h : keysRise l = true) :
    keysRise (lput l k v) = true := by
  induction l with
  | nil => rfl
  | cons e r ih =>
    obtain ⟨j, u⟩ := e
    have hc := (keysRise_cons j u r).1 h
    simp only [lput]
    split
    · next hk => exact (keysRise_cons _ _ _).2 ⟨by
        simp only [allAbove, List.all_cons, Bool.and_eq_true, decide_eq_true_eq, List.all_eq_true] at hc ⊢
        exact ⟨hk, fun x hx => by have := hc.1 x hx; omega⟩, h⟩
    · split
      · next hk => subst hk; exact (keysRise_cons _ _ _).2 hc
      · exact (keysRise_cons _ _ _).2 ⟨allAbove_lput (by omega) v r hc.1, ih hc.2⟩

theorem keysRise_filter (p : Host.Cell → Bool) (l : List Host.Cell) (h : keysRise l = true) :
    keysRise (l.filter p) = true := by
  induction l with
  | nil => rfl
  | cons e r ih =>
    obtain ⟨j, u⟩ := e
    have hc := (keysRise_cons j u r).1 h
    rw [List.filter_cons]
    split
    · refine (keysRise_cons _ _ _).2 ⟨?_, ih hc.2⟩
      have := hc.1
      simp only [allAbove, List.all_eq_true, decide_eq_true_eq] at this ⊢
      exact fun x hx => this x ((List.mem_filter.1 hx).1)
    · exact ih hc.2

/-- Removing cells keeps the canonical form. -/
theorem wf_filter {l : List Host.Cell} (p : Host.Cell → Bool) (h : Memory.wf l = true) :
    Memory.wf (l.filter p) = true := by
  simp only [Memory.wf, Bool.and_eq_true, List.all_eq_true] at h ⊢
  exact ⟨keysRise_filter p l h.1, fun x hx => h.2 x ((List.mem_filter.1 hx).1)⟩

/-- Removing an address keeps the canonical form. -/
theorem wf_ldel {l : List Host.Cell} (a : Nat) (h : Memory.wf l = true) : Memory.wf (ldel l a) = true :=
  wf_filter _ h

theorem mem_lput {l : List Host.Cell} {k : Nat} {v : Byte} {x : Host.Cell} (h : x ∈ lput l k v) :
    x ∈ l ∨ x = (k, v) := by
  induction l with
  | nil => simpa [lput] using h
  | cons e r ih =>
    obtain ⟨j, u⟩ := e
    simp only [lput] at h
    split at h
    · simp only [List.mem_cons] at h ⊢
      grind
    · split at h
      · simp only [List.mem_cons] at h ⊢
        grind
      · simp only [List.mem_cons] at h ⊢
        rcases h with h | h
        · exact .inl (.inl h)
        · rcases ih h with h | h
          · exact .inl (.inr h)
          · exact .inr h

/-- Writing a byte keeps the canonical form. -/
theorem wf_cput {l : List Host.Cell} (a : Nat) (b : Byte) (h : Memory.wf l = true) : Memory.wf (cput l a b) = true := by
  unfold cput
  split
  · exact wf_ldel a h
  · next hb =>
    simp only [Memory.wf, Bool.and_eq_true, List.all_eq_true] at h ⊢
    refine ⟨keysRise_lput a b l h.1, fun x hx => ?_⟩
    rcases mem_lput hx with hx | hx
    · exact h.2 x hx
    · subst hx
      simpa using hb

/-- Writing bytes keeps the canonical form. -/
theorem wf_cwrite (bs : List Byte) : ∀ {l : List Host.Cell} (a : Nat), Memory.wf l = true → Memory.wf (cwrite l a bs) = true := by
  induction bs with
  | nil => intro l a h; exact h
  | cons b bs ih => intro l a h; exact ih (a + 1) (wf_cput a b h)

/-- Writing bytes under a mask keeps the canonical form. -/
theorem wf_cwriteMask (bs : List Byte) :
    ∀ {l : List Host.Cell} (a : Nat) (ds : List Bool), Memory.wf l = true → Memory.wf (cwriteMask l a bs ds) = true := by
  induction bs with
  | nil => intro l a ds h; cases ds <;> exact h
  | cons b bs ih =>
    intro l a ds h
    cases ds with
    | nil => exact h
    | cons d ds =>
      simp only [cwriteMask]
      split
      · exact ih _ _ (wf_cput a b h)
      · exact ih _ _ h

/-- Nothing listed is canonical. -/
theorem wf_nil : Memory.wf [] = true := rfl

end Sys2Proof.Machine
end

