-- ==== Sys2Proof/Laws/State.lean ====
section
/-!
SUPPORT. What each update of a machine or a thread leaves as it is, field by field, and the lookups after an
update.
-/

namespace Sys2Proof.Machine

/-! The machine. -/

@[simp] theorem Mach.updCore_time (m : Mach) (c : Nat) (f : Core → Core) : (m.updCore c f).time = m.time := rfl
@[simp] theorem Mach.updCore_cur (m : Mach) (c : Nat) (f : Core → Core) : (m.updCore c f).cur = m.cur := rfl
@[simp] theorem Mach.updCore_nextId (m : Mach) (c : Nat) (f : Core → Core) : (m.updCore c f).nextId = m.nextId := rfl
@[simp] theorem Mach.updCore_running (m : Mach) (c : Nat) (f : Core → Core) : (m.updCore c f).running = m.running := rfl
@[simp] theorem Mach.updCore_threads (m : Mach) (c : Nat) (f : Core → Core) : (m.updCore c f).threads = m.threads := rfl
@[simp] theorem Mach.updCore_groups (m : Mach) (c : Nat) (f : Core → Core) : (m.updCore c f).groups = m.groups := rfl
@[simp] theorem Mach.updCore_kernels (m : Mach) (c : Nat) (f : Core → Core) : (m.updCore c f).kernels = m.kernels := rfl
@[simp] theorem Mach.updCore_barriers (m : Mach) (c : Nat) (f : Core → Core) : (m.updCore c f).barriers = m.barriers := rfl
@[simp] theorem Mach.updCore_ctxs (m : Mach) (c : Nat) (f : Core → Core) : (m.updCore c f).ctxs = m.ctxs := rfl
@[simp] theorem Mach.updCore_queues (m : Mach) (c : Nat) (f : Core → Core) : (m.updCore c f).queues = m.queues := rfl
@[simp] theorem Mach.updCore_clusters (m : Mach) (c : Nat) (f : Core → Core) : (m.updCore c f).clusters = m.clusters := rfl
@[simp] theorem Mach.updCore_dies (m : Mach) (c : Nat) (f : Core → Core) : (m.updCore c f).dies = m.dies := rfl
@[simp] theorem Mach.updCore_parts (m : Mach) (c : Nat) (f : Core → Core) : (m.updCore c f).parts = m.parts := rfl
@[simp] theorem Mach.updCore_mem (m : Mach) (c : Nat) (f : Core → Core) : (m.updCore c f).mem = m.mem := rfl
@[simp] theorem Mach.updCore_poison (m : Mach) (c : Nat) (f : Core → Core) : (m.updCore c f).poison = m.poison := rfl
@[simp] theorem Mach.updCore_bad (m : Mach) (c : Nat) (f : Core → Core) : (m.updCore c f).bad = m.bad := rfl
@[simp] theorem Mach.updCore_stxs (m : Mach) (c : Nat) (f : Core → Core) : (m.updCore c f).stxs = m.stxs := rfl
@[simp] theorem Mach.updCore_dadds (m : Mach) (c : Nat) (f : Core → Core) : (m.updCore c f).dadds = m.dadds := rfl
@[simp] theorem Mach.updCore_repls (m : Mach) (c : Nat) (f : Core → Core) : (m.updCore c f).repls = m.repls := rfl
@[simp] theorem Mach.updCore_hostWrs (m : Mach) (c : Nat) (f : Core → Core) : (m.updCore c f).hostWrs = m.hostWrs := rfl
@[simp] theorem Mach.updCore_xfailed (m : Mach) (c : Nat) (f : Core → Core) : (m.updCore c f).xfailed = m.xfailed := rfl
@[simp] theorem Mach.updCore_zyn (m : Mach) (c : Nat) (f : Core → Core) : (m.updCore c f).zyn = m.zyn := rfl
@[simp] theorem Mach.updCore_pkg (m : Mach) (c : Nat) (f : Core → Core) : (m.updCore c f).pkg = m.pkg := rfl
@[simp] theorem Mach.updCore_pkgSet (m : Mach) (c : Nat) (f : Core → Core) : (m.updCore c f).pkgSet = m.pkgSet := rfl
@[simp] theorem Mach.updCore_outbox (m : Mach) (c : Nat) (f : Core → Core) : (m.updCore c f).outbox = m.outbox := rfl

@[simp] theorem Mach.updDie_time (m : Mach) (d : Nat) (f : Die → Die) : (m.updDie d f).time = m.time := rfl
@[simp] theorem Mach.updDie_cur (m : Mach) (d : Nat) (f : Die → Die) : (m.updDie d f).cur = m.cur := rfl
@[simp] theorem Mach.updDie_nextId (m : Mach) (d : Nat) (f : Die → Die) : (m.updDie d f).nextId = m.nextId := rfl
@[simp] theorem Mach.updDie_running (m : Mach) (d : Nat) (f : Die → Die) : (m.updDie d f).running = m.running := rfl
@[simp] theorem Mach.updDie_threads (m : Mach) (d : Nat) (f : Die → Die) : (m.updDie d f).threads = m.threads := rfl
@[simp] theorem Mach.updDie_groups (m : Mach) (d : Nat) (f : Die → Die) : (m.updDie d f).groups = m.groups := rfl
@[simp] theorem Mach.updDie_kernels (m : Mach) (d : Nat) (f : Die → Die) : (m.updDie d f).kernels = m.kernels := rfl
@[simp] theorem Mach.updDie_barriers (m : Mach) (d : Nat) (f : Die → Die) : (m.updDie d f).barriers = m.barriers := rfl
@[simp] theorem Mach.updDie_ctxs (m : Mach) (d : Nat) (f : Die → Die) : (m.updDie d f).ctxs = m.ctxs := rfl
@[simp] theorem Mach.updDie_queues (m : Mach) (d : Nat) (f : Die → Die) : (m.updDie d f).queues = m.queues := rfl
@[simp] theorem Mach.updDie_cores (m : Mach) (d : Nat) (f : Die → Die) : (m.updDie d f).cores = m.cores := rfl
@[simp] theorem Mach.updDie_clusters (m : Mach) (d : Nat) (f : Die → Die) : (m.updDie d f).clusters = m.clusters := rfl
@[simp] theorem Mach.updDie_parts (m : Mach) (d : Nat) (f : Die → Die) : (m.updDie d f).parts = m.parts := rfl
@[simp] theorem Mach.updDie_mem (m : Mach) (d : Nat) (f : Die → Die) : (m.updDie d f).mem = m.mem := rfl
@[simp] theorem Mach.updDie_poison (m : Mach) (d : Nat) (f : Die → Die) : (m.updDie d f).poison = m.poison := rfl
@[simp] theorem Mach.updDie_bad (m : Mach) (d : Nat) (f : Die → Die) : (m.updDie d f).bad = m.bad := rfl
@[simp] theorem Mach.updDie_stxs (m : Mach) (d : Nat) (f : Die → Die) : (m.updDie d f).stxs = m.stxs := rfl
@[simp] theorem Mach.updDie_dadds (m : Mach) (d : Nat) (f : Die → Die) : (m.updDie d f).dadds = m.dadds := rfl
@[simp] theorem Mach.updDie_repls (m : Mach) (d : Nat) (f : Die → Die) : (m.updDie d f).repls = m.repls := rfl
@[simp] theorem Mach.updDie_hostWrs (m : Mach) (d : Nat) (f : Die → Die) : (m.updDie d f).hostWrs = m.hostWrs := rfl
@[simp] theorem Mach.updDie_xfailed (m : Mach) (d : Nat) (f : Die → Die) : (m.updDie d f).xfailed = m.xfailed := rfl
@[simp] theorem Mach.updDie_zyn (m : Mach) (d : Nat) (f : Die → Die) : (m.updDie d f).zyn = m.zyn := rfl
@[simp] theorem Mach.updDie_pkg (m : Mach) (d : Nat) (f : Die → Die) : (m.updDie d f).pkg = m.pkg := rfl
@[simp] theorem Mach.updDie_pkgSet (m : Mach) (d : Nat) (f : Die → Die) : (m.updDie d f).pkgSet = m.pkgSet := rfl
@[simp] theorem Mach.updDie_outbox (m : Mach) (d : Nat) (f : Die → Die) : (m.updDie d f).outbox = m.outbox := rfl

@[simp] theorem Mach.setCluster_time (m : Mach) (c : Nat) (l : List Line) : (m.setCluster c l).time = m.time := rfl
@[simp] theorem Mach.setCluster_cur (m : Mach) (c : Nat) (l : List Line) : (m.setCluster c l).cur = m.cur := rfl
@[simp] theorem Mach.setCluster_nextId (m : Mach) (c : Nat) (l : List Line) : (m.setCluster c l).nextId = m.nextId := rfl
@[simp] theorem Mach.setCluster_running (m : Mach) (c : Nat) (l : List Line) : (m.setCluster c l).running = m.running := rfl
@[simp] theorem Mach.setCluster_threads (m : Mach) (c : Nat) (l : List Line) : (m.setCluster c l).threads = m.threads := rfl
@[simp] theorem Mach.setCluster_groups (m : Mach) (c : Nat) (l : List Line) : (m.setCluster c l).groups = m.groups := rfl
@[simp] theorem Mach.setCluster_kernels (m : Mach) (c : Nat) (l : List Line) : (m.setCluster c l).kernels = m.kernels := rfl
@[simp] theorem Mach.setCluster_barriers (m : Mach) (c : Nat) (l : List Line) : (m.setCluster c l).barriers = m.barriers := rfl
@[simp] theorem Mach.setCluster_ctxs (m : Mach) (c : Nat) (l : List Line) : (m.setCluster c l).ctxs = m.ctxs := rfl
@[simp] theorem Mach.setCluster_queues (m : Mach) (c : Nat) (l : List Line) : (m.setCluster c l).queues = m.queues := rfl
@[simp] theorem Mach.setCluster_cores (m : Mach) (c : Nat) (l : List Line) : (m.setCluster c l).cores = m.cores := rfl
@[simp] theorem Mach.setCluster_dies (m : Mach) (c : Nat) (l : List Line) : (m.setCluster c l).dies = m.dies := rfl
@[simp] theorem Mach.setCluster_parts (m : Mach) (c : Nat) (l : List Line) : (m.setCluster c l).parts = m.parts := rfl
@[simp] theorem Mach.setCluster_mem (m : Mach) (c : Nat) (l : List Line) : (m.setCluster c l).mem = m.mem := rfl
@[simp] theorem Mach.setCluster_poison (m : Mach) (c : Nat) (l : List Line) : (m.setCluster c l).poison = m.poison := rfl
@[simp] theorem Mach.setCluster_bad (m : Mach) (c : Nat) (l : List Line) : (m.setCluster c l).bad = m.bad := rfl
@[simp] theorem Mach.setCluster_stxs (m : Mach) (c : Nat) (l : List Line) : (m.setCluster c l).stxs = m.stxs := rfl
@[simp] theorem Mach.setCluster_dadds (m : Mach) (c : Nat) (l : List Line) : (m.setCluster c l).dadds = m.dadds := rfl
@[simp] theorem Mach.setCluster_repls (m : Mach) (c : Nat) (l : List Line) : (m.setCluster c l).repls = m.repls := rfl
@[simp] theorem Mach.setCluster_hostWrs (m : Mach) (c : Nat) (l : List Line) : (m.setCluster c l).hostWrs = m.hostWrs := rfl
@[simp] theorem Mach.setCluster_xfailed (m : Mach) (c : Nat) (l : List Line) : (m.setCluster c l).xfailed = m.xfailed := rfl
@[simp] theorem Mach.setCluster_zyn (m : Mach) (c : Nat) (l : List Line) : (m.setCluster c l).zyn = m.zyn := rfl
@[simp] theorem Mach.setCluster_pkg (m : Mach) (c : Nat) (l : List Line) : (m.setCluster c l).pkg = m.pkg := rfl
@[simp] theorem Mach.setCluster_pkgSet (m : Mach) (c : Nat) (l : List Line) : (m.setCluster c l).pkgSet = m.pkgSet := rfl
@[simp] theorem Mach.setCluster_outbox (m : Mach) (c : Nat) (l : List Line) : (m.setCluster c l).outbox = m.outbox := rfl

@[simp] theorem Mach.updThread_time (m : Mach) (g i : Nat) (f : Thread → Thread) : (m.updThread g i f).time = m.time := rfl
@[simp] theorem Mach.updThread_cur (m : Mach) (g i : Nat) (f : Thread → Thread) : (m.updThread g i f).cur = m.cur := rfl
@[simp] theorem Mach.updThread_nextId (m : Mach) (g i : Nat) (f : Thread → Thread) : (m.updThread g i f).nextId = m.nextId := rfl
@[simp] theorem Mach.updThread_running (m : Mach) (g i : Nat) (f : Thread → Thread) : (m.updThread g i f).running = m.running := rfl
@[simp] theorem Mach.updThread_groups (m : Mach) (g i : Nat) (f : Thread → Thread) : (m.updThread g i f).groups = m.groups := rfl
@[simp] theorem Mach.updThread_kernels (m : Mach) (g i : Nat) (f : Thread → Thread) : (m.updThread g i f).kernels = m.kernels := rfl
@[simp] theorem Mach.updThread_barriers (m : Mach) (g i : Nat) (f : Thread → Thread) : (m.updThread g i f).barriers = m.barriers := rfl
@[simp] theorem Mach.updThread_ctxs (m : Mach) (g i : Nat) (f : Thread → Thread) : (m.updThread g i f).ctxs = m.ctxs := rfl
@[simp] theorem Mach.updThread_queues (m : Mach) (g i : Nat) (f : Thread → Thread) : (m.updThread g i f).queues = m.queues := rfl
@[simp] theorem Mach.updThread_cores (m : Mach) (g i : Nat) (f : Thread → Thread) : (m.updThread g i f).cores = m.cores := rfl
@[simp] theorem Mach.updThread_clusters (m : Mach) (g i : Nat) (f : Thread → Thread) : (m.updThread g i f).clusters = m.clusters := rfl
@[simp] theorem Mach.updThread_dies (m : Mach) (g i : Nat) (f : Thread → Thread) : (m.updThread g i f).dies = m.dies := rfl
@[simp] theorem Mach.updThread_parts (m : Mach) (g i : Nat) (f : Thread → Thread) : (m.updThread g i f).parts = m.parts := rfl
@[simp] theorem Mach.updThread_mem (m : Mach) (g i : Nat) (f : Thread → Thread) : (m.updThread g i f).mem = m.mem := rfl
@[simp] theorem Mach.updThread_poison (m : Mach) (g i : Nat) (f : Thread → Thread) : (m.updThread g i f).poison = m.poison := rfl
@[simp] theorem Mach.updThread_bad (m : Mach) (g i : Nat) (f : Thread → Thread) : (m.updThread g i f).bad = m.bad := rfl
@[simp] theorem Mach.updThread_stxs (m : Mach) (g i : Nat) (f : Thread → Thread) : (m.updThread g i f).stxs = m.stxs := rfl
@[simp] theorem Mach.updThread_dadds (m : Mach) (g i : Nat) (f : Thread → Thread) : (m.updThread g i f).dadds = m.dadds := rfl
@[simp] theorem Mach.updThread_repls (m : Mach) (g i : Nat) (f : Thread → Thread) : (m.updThread g i f).repls = m.repls := rfl
@[simp] theorem Mach.updThread_hostWrs (m : Mach) (g i : Nat) (f : Thread → Thread) : (m.updThread g i f).hostWrs = m.hostWrs := rfl
@[simp] theorem Mach.updThread_xfailed (m : Mach) (g i : Nat) (f : Thread → Thread) : (m.updThread g i f).xfailed = m.xfailed := rfl
@[simp] theorem Mach.updThread_zyn (m : Mach) (g i : Nat) (f : Thread → Thread) : (m.updThread g i f).zyn = m.zyn := rfl
@[simp] theorem Mach.updThread_pkg (m : Mach) (g i : Nat) (f : Thread → Thread) : (m.updThread g i f).pkg = m.pkg := rfl
@[simp] theorem Mach.updThread_pkgSet (m : Mach) (g i : Nat) (f : Thread → Thread) : (m.updThread g i f).pkgSet = m.pkgSet := rfl
@[simp] theorem Mach.updThread_outbox (m : Mach) (g i : Nat) (f : Thread → Thread) : (m.updThread g i f).outbox = m.outbox := rfl

@[simp] theorem Mach.updGroup_time (m : Mach) (g : Nat) (f : Group → Group) : (m.updGroup g f).time = m.time := rfl
@[simp] theorem Mach.updGroup_cur (m : Mach) (g : Nat) (f : Group → Group) : (m.updGroup g f).cur = m.cur := rfl
@[simp] theorem Mach.updGroup_nextId (m : Mach) (g : Nat) (f : Group → Group) : (m.updGroup g f).nextId = m.nextId := rfl
@[simp] theorem Mach.updGroup_running (m : Mach) (g : Nat) (f : Group → Group) : (m.updGroup g f).running = m.running := rfl
@[simp] theorem Mach.updGroup_threads (m : Mach) (g : Nat) (f : Group → Group) : (m.updGroup g f).threads = m.threads := rfl
@[simp] theorem Mach.updGroup_kernels (m : Mach) (g : Nat) (f : Group → Group) : (m.updGroup g f).kernels = m.kernels := rfl
@[simp] theorem Mach.updGroup_barriers (m : Mach) (g : Nat) (f : Group → Group) : (m.updGroup g f).barriers = m.barriers := rfl
@[simp] theorem Mach.updGroup_ctxs (m : Mach) (g : Nat) (f : Group → Group) : (m.updGroup g f).ctxs = m.ctxs := rfl
@[simp] theorem Mach.updGroup_queues (m : Mach) (g : Nat) (f : Group → Group) : (m.updGroup g f).queues = m.queues := rfl
@[simp] theorem Mach.updGroup_cores (m : Mach) (g : Nat) (f : Group → Group) : (m.updGroup g f).cores = m.cores := rfl
@[simp] theorem Mach.updGroup_clusters (m : Mach) (g : Nat) (f : Group → Group) : (m.updGroup g f).clusters = m.clusters := rfl
@[simp] theorem Mach.updGroup_dies (m : Mach) (g : Nat) (f : Group → Group) : (m.updGroup g f).dies = m.dies := rfl
@[simp] theorem Mach.updGroup_parts (m : Mach) (g : Nat) (f : Group → Group) : (m.updGroup g f).parts = m.parts := rfl
@[simp] theorem Mach.updGroup_mem (m : Mach) (g : Nat) (f : Group → Group) : (m.updGroup g f).mem = m.mem := rfl
@[simp] theorem Mach.updGroup_poison (m : Mach) (g : Nat) (f : Group → Group) : (m.updGroup g f).poison = m.poison := rfl
@[simp] theorem Mach.updGroup_bad (m : Mach) (g : Nat) (f : Group → Group) : (m.updGroup g f).bad = m.bad := rfl
@[simp] theorem Mach.updGroup_stxs (m : Mach) (g : Nat) (f : Group → Group) : (m.updGroup g f).stxs = m.stxs := rfl
@[simp] theorem Mach.updGroup_dadds (m : Mach) (g : Nat) (f : Group → Group) : (m.updGroup g f).dadds = m.dadds := rfl
@[simp] theorem Mach.updGroup_repls (m : Mach) (g : Nat) (f : Group → Group) : (m.updGroup g f).repls = m.repls := rfl
@[simp] theorem Mach.updGroup_hostWrs (m : Mach) (g : Nat) (f : Group → Group) : (m.updGroup g f).hostWrs = m.hostWrs := rfl
@[simp] theorem Mach.updGroup_xfailed (m : Mach) (g : Nat) (f : Group → Group) : (m.updGroup g f).xfailed = m.xfailed := rfl
@[simp] theorem Mach.updGroup_zyn (m : Mach) (g : Nat) (f : Group → Group) : (m.updGroup g f).zyn = m.zyn := rfl
@[simp] theorem Mach.updGroup_pkg (m : Mach) (g : Nat) (f : Group → Group) : (m.updGroup g f).pkg = m.pkg := rfl
@[simp] theorem Mach.updGroup_pkgSet (m : Mach) (g : Nat) (f : Group → Group) : (m.updGroup g f).pkgSet = m.pkgSet := rfl
@[simp] theorem Mach.updGroup_outbox (m : Mach) (g : Nat) (f : Group → Group) : (m.updGroup g f).outbox = m.outbox := rfl

@[simp] theorem Mach.updKernel_time (m : Mach) (k : Nat) (f : Kernel → Kernel) : (m.updKernel k f).time = m.time := rfl
@[simp] theorem Mach.updKernel_cur (m : Mach) (k : Nat) (f : Kernel → Kernel) : (m.updKernel k f).cur = m.cur := rfl
@[simp] theorem Mach.updKernel_nextId (m : Mach) (k : Nat) (f : Kernel → Kernel) : (m.updKernel k f).nextId = m.nextId := rfl
@[simp] theorem Mach.updKernel_running (m : Mach) (k : Nat) (f : Kernel → Kernel) : (m.updKernel k f).running = m.running := rfl
@[simp] theorem Mach.updKernel_threads (m : Mach) (k : Nat) (f : Kernel → Kernel) : (m.updKernel k f).threads = m.threads := rfl
@[simp] theorem Mach.updKernel_groups (m : Mach) (k : Nat) (f : Kernel → Kernel) : (m.updKernel k f).groups = m.groups := rfl
@[simp] theorem Mach.updKernel_barriers (m : Mach) (k : Nat) (f : Kernel → Kernel) : (m.updKernel k f).barriers = m.barriers := rfl
@[simp] theorem Mach.updKernel_ctxs (m : Mach) (k : Nat) (f : Kernel → Kernel) : (m.updKernel k f).ctxs = m.ctxs := rfl
@[simp] theorem Mach.updKernel_queues (m : Mach) (k : Nat) (f : Kernel → Kernel) : (m.updKernel k f).queues = m.queues := rfl
@[simp] theorem Mach.updKernel_cores (m : Mach) (k : Nat) (f : Kernel → Kernel) : (m.updKernel k f).cores = m.cores := rfl
@[simp] theorem Mach.updKernel_clusters (m : Mach) (k : Nat) (f : Kernel → Kernel) : (m.updKernel k f).clusters = m.clusters := rfl
@[simp] theorem Mach.updKernel_dies (m : Mach) (k : Nat) (f : Kernel → Kernel) : (m.updKernel k f).dies = m.dies := rfl
@[simp] theorem Mach.updKernel_parts (m : Mach) (k : Nat) (f : Kernel → Kernel) : (m.updKernel k f).parts = m.parts := rfl
@[simp] theorem Mach.updKernel_mem (m : Mach) (k : Nat) (f : Kernel → Kernel) : (m.updKernel k f).mem = m.mem := rfl
@[simp] theorem Mach.updKernel_poison (m : Mach) (k : Nat) (f : Kernel → Kernel) : (m.updKernel k f).poison = m.poison := rfl
@[simp] theorem Mach.updKernel_bad (m : Mach) (k : Nat) (f : Kernel → Kernel) : (m.updKernel k f).bad = m.bad := rfl
@[simp] theorem Mach.updKernel_stxs (m : Mach) (k : Nat) (f : Kernel → Kernel) : (m.updKernel k f).stxs = m.stxs := rfl
@[simp] theorem Mach.updKernel_dadds (m : Mach) (k : Nat) (f : Kernel → Kernel) : (m.updKernel k f).dadds = m.dadds := rfl
@[simp] theorem Mach.updKernel_repls (m : Mach) (k : Nat) (f : Kernel → Kernel) : (m.updKernel k f).repls = m.repls := rfl
@[simp] theorem Mach.updKernel_hostWrs (m : Mach) (k : Nat) (f : Kernel → Kernel) : (m.updKernel k f).hostWrs = m.hostWrs := rfl
@[simp] theorem Mach.updKernel_xfailed (m : Mach) (k : Nat) (f : Kernel → Kernel) : (m.updKernel k f).xfailed = m.xfailed := rfl
@[simp] theorem Mach.updKernel_zyn (m : Mach) (k : Nat) (f : Kernel → Kernel) : (m.updKernel k f).zyn = m.zyn := rfl
@[simp] theorem Mach.updKernel_pkg (m : Mach) (k : Nat) (f : Kernel → Kernel) : (m.updKernel k f).pkg = m.pkg := rfl
@[simp] theorem Mach.updKernel_pkgSet (m : Mach) (k : Nat) (f : Kernel → Kernel) : (m.updKernel k f).pkgSet = m.pkgSet := rfl
@[simp] theorem Mach.updKernel_outbox (m : Mach) (k : Nat) (f : Kernel → Kernel) : (m.updKernel k f).outbox = m.outbox := rfl

@[simp] theorem Mach.updCtx_time (m : Mach) (c : Nat) (f : Ctx → Ctx) : (m.updCtx c f).time = m.time := rfl
@[simp] theorem Mach.updCtx_cur (m : Mach) (c : Nat) (f : Ctx → Ctx) : (m.updCtx c f).cur = m.cur := rfl
@[simp] theorem Mach.updCtx_nextId (m : Mach) (c : Nat) (f : Ctx → Ctx) : (m.updCtx c f).nextId = m.nextId := rfl
@[simp] theorem Mach.updCtx_running (m : Mach) (c : Nat) (f : Ctx → Ctx) : (m.updCtx c f).running = m.running := rfl
@[simp] theorem Mach.updCtx_threads (m : Mach) (c : Nat) (f : Ctx → Ctx) : (m.updCtx c f).threads = m.threads := rfl
@[simp] theorem Mach.updCtx_groups (m : Mach) (c : Nat) (f : Ctx → Ctx) : (m.updCtx c f).groups = m.groups := rfl
@[simp] theorem Mach.updCtx_kernels (m : Mach) (c : Nat) (f : Ctx → Ctx) : (m.updCtx c f).kernels = m.kernels := rfl
@[simp] theorem Mach.updCtx_barriers (m : Mach) (c : Nat) (f : Ctx → Ctx) : (m.updCtx c f).barriers = m.barriers := rfl
@[simp] theorem Mach.updCtx_queues (m : Mach) (c : Nat) (f : Ctx → Ctx) : (m.updCtx c f).queues = m.queues := rfl
@[simp] theorem Mach.updCtx_cores (m : Mach) (c : Nat) (f : Ctx → Ctx) : (m.updCtx c f).cores = m.cores := rfl
@[simp] theorem Mach.updCtx_clusters (m : Mach) (c : Nat) (f : Ctx → Ctx) : (m.updCtx c f).clusters = m.clusters := rfl
@[simp] theorem Mach.updCtx_dies (m : Mach) (c : Nat) (f : Ctx → Ctx) : (m.updCtx c f).dies = m.dies := rfl
@[simp] theorem Mach.updCtx_parts (m : Mach) (c : Nat) (f : Ctx → Ctx) : (m.updCtx c f).parts = m.parts := rfl
@[simp] theorem Mach.updCtx_mem (m : Mach) (c : Nat) (f : Ctx → Ctx) : (m.updCtx c f).mem = m.mem := rfl
@[simp] theorem Mach.updCtx_poison (m : Mach) (c : Nat) (f : Ctx → Ctx) : (m.updCtx c f).poison = m.poison := rfl
@[simp] theorem Mach.updCtx_bad (m : Mach) (c : Nat) (f : Ctx → Ctx) : (m.updCtx c f).bad = m.bad := rfl
@[simp] theorem Mach.updCtx_stxs (m : Mach) (c : Nat) (f : Ctx → Ctx) : (m.updCtx c f).stxs = m.stxs := rfl
@[simp] theorem Mach.updCtx_dadds (m : Mach) (c : Nat) (f : Ctx → Ctx) : (m.updCtx c f).dadds = m.dadds := rfl
@[simp] theorem Mach.updCtx_repls (m : Mach) (c : Nat) (f : Ctx → Ctx) : (m.updCtx c f).repls = m.repls := rfl
@[simp] theorem Mach.updCtx_hostWrs (m : Mach) (c : Nat) (f : Ctx → Ctx) : (m.updCtx c f).hostWrs = m.hostWrs := rfl
@[simp] theorem Mach.updCtx_xfailed (m : Mach) (c : Nat) (f : Ctx → Ctx) : (m.updCtx c f).xfailed = m.xfailed := rfl
@[simp] theorem Mach.updCtx_zyn (m : Mach) (c : Nat) (f : Ctx → Ctx) : (m.updCtx c f).zyn = m.zyn := rfl
@[simp] theorem Mach.updCtx_pkg (m : Mach) (c : Nat) (f : Ctx → Ctx) : (m.updCtx c f).pkg = m.pkg := rfl
@[simp] theorem Mach.updCtx_pkgSet (m : Mach) (c : Nat) (f : Ctx → Ctx) : (m.updCtx c f).pkgSet = m.pkgSet := rfl
@[simp] theorem Mach.updCtx_outbox (m : Mach) (c : Nat) (f : Ctx → Ctx) : (m.updCtx c f).outbox = m.outbox := rfl

@[simp] theorem Mach.updQueue_time (m : Mach) (q : Nat) (f : Queue → Queue) : (m.updQueue q f).time = m.time := rfl
@[simp] theorem Mach.updQueue_cur (m : Mach) (q : Nat) (f : Queue → Queue) : (m.updQueue q f).cur = m.cur := rfl
@[simp] theorem Mach.updQueue_nextId (m : Mach) (q : Nat) (f : Queue → Queue) : (m.updQueue q f).nextId = m.nextId := rfl
@[simp] theorem Mach.updQueue_running (m : Mach) (q : Nat) (f : Queue → Queue) : (m.updQueue q f).running = m.running := rfl
@[simp] theorem Mach.updQueue_threads (m : Mach) (q : Nat) (f : Queue → Queue) : (m.updQueue q f).threads = m.threads := rfl
@[simp] theorem Mach.updQueue_groups (m : Mach) (q : Nat) (f : Queue → Queue) : (m.updQueue q f).groups = m.groups := rfl
@[simp] theorem Mach.updQueue_kernels (m : Mach) (q : Nat) (f : Queue → Queue) : (m.updQueue q f).kernels = m.kernels := rfl
@[simp] theorem Mach.updQueue_barriers (m : Mach) (q : Nat) (f : Queue → Queue) : (m.updQueue q f).barriers = m.barriers := rfl
@[simp] theorem Mach.updQueue_ctxs (m : Mach) (q : Nat) (f : Queue → Queue) : (m.updQueue q f).ctxs = m.ctxs := rfl
@[simp] theorem Mach.updQueue_cores (m : Mach) (q : Nat) (f : Queue → Queue) : (m.updQueue q f).cores = m.cores := rfl
@[simp] theorem Mach.updQueue_clusters (m : Mach) (q : Nat) (f : Queue → Queue) : (m.updQueue q f).clusters = m.clusters := rfl
@[simp] theorem Mach.updQueue_dies (m : Mach) (q : Nat) (f : Queue → Queue) : (m.updQueue q f).dies = m.dies := rfl
@[simp] theorem Mach.updQueue_parts (m : Mach) (q : Nat) (f : Queue → Queue) : (m.updQueue q f).parts = m.parts := rfl
@[simp] theorem Mach.updQueue_mem (m : Mach) (q : Nat) (f : Queue → Queue) : (m.updQueue q f).mem = m.mem := rfl
@[simp] theorem Mach.updQueue_poison (m : Mach) (q : Nat) (f : Queue → Queue) : (m.updQueue q f).poison = m.poison := rfl
@[simp] theorem Mach.updQueue_bad (m : Mach) (q : Nat) (f : Queue → Queue) : (m.updQueue q f).bad = m.bad := rfl
@[simp] theorem Mach.updQueue_stxs (m : Mach) (q : Nat) (f : Queue → Queue) : (m.updQueue q f).stxs = m.stxs := rfl
@[simp] theorem Mach.updQueue_dadds (m : Mach) (q : Nat) (f : Queue → Queue) : (m.updQueue q f).dadds = m.dadds := rfl
@[simp] theorem Mach.updQueue_repls (m : Mach) (q : Nat) (f : Queue → Queue) : (m.updQueue q f).repls = m.repls := rfl
@[simp] theorem Mach.updQueue_hostWrs (m : Mach) (q : Nat) (f : Queue → Queue) : (m.updQueue q f).hostWrs = m.hostWrs := rfl
@[simp] theorem Mach.updQueue_xfailed (m : Mach) (q : Nat) (f : Queue → Queue) : (m.updQueue q f).xfailed = m.xfailed := rfl
@[simp] theorem Mach.updQueue_zyn (m : Mach) (q : Nat) (f : Queue → Queue) : (m.updQueue q f).zyn = m.zyn := rfl
@[simp] theorem Mach.updQueue_pkg (m : Mach) (q : Nat) (f : Queue → Queue) : (m.updQueue q f).pkg = m.pkg := rfl
@[simp] theorem Mach.updQueue_pkgSet (m : Mach) (q : Nat) (f : Queue → Queue) : (m.updQueue q f).pkgSet = m.pkgSet := rfl
@[simp] theorem Mach.updQueue_outbox (m : Mach) (q : Nat) (f : Queue → Queue) : (m.updQueue q f).outbox = m.outbox := rfl

@[simp] theorem Mach.updPart_time (m : Mach) (p : Nat) (f : Part → Part) : (m.updPart p f).time = m.time := rfl
@[simp] theorem Mach.updPart_cur (m : Mach) (p : Nat) (f : Part → Part) : (m.updPart p f).cur = m.cur := rfl
@[simp] theorem Mach.updPart_nextId (m : Mach) (p : Nat) (f : Part → Part) : (m.updPart p f).nextId = m.nextId := rfl
@[simp] theorem Mach.updPart_running (m : Mach) (p : Nat) (f : Part → Part) : (m.updPart p f).running = m.running := rfl
@[simp] theorem Mach.updPart_threads (m : Mach) (p : Nat) (f : Part → Part) : (m.updPart p f).threads = m.threads := rfl
@[simp] theorem Mach.updPart_groups (m : Mach) (p : Nat) (f : Part → Part) : (m.updPart p f).groups = m.groups := rfl
@[simp] theorem Mach.updPart_kernels (m : Mach) (p : Nat) (f : Part → Part) : (m.updPart p f).kernels = m.kernels := rfl
@[simp] theorem Mach.updPart_barriers (m : Mach) (p : Nat) (f : Part → Part) : (m.updPart p f).barriers = m.barriers := rfl
@[simp] theorem Mach.updPart_ctxs (m : Mach) (p : Nat) (f : Part → Part) : (m.updPart p f).ctxs = m.ctxs := rfl
@[simp] theorem Mach.updPart_queues (m : Mach) (p : Nat) (f : Part → Part) : (m.updPart p f).queues = m.queues := rfl
@[simp] theorem Mach.updPart_cores (m : Mach) (p : Nat) (f : Part → Part) : (m.updPart p f).cores = m.cores := rfl
@[simp] theorem Mach.updPart_clusters (m : Mach) (p : Nat) (f : Part → Part) : (m.updPart p f).clusters = m.clusters := rfl
@[simp] theorem Mach.updPart_dies (m : Mach) (p : Nat) (f : Part → Part) : (m.updPart p f).dies = m.dies := rfl
@[simp] theorem Mach.updPart_mem (m : Mach) (p : Nat) (f : Part → Part) : (m.updPart p f).mem = m.mem := rfl
@[simp] theorem Mach.updPart_poison (m : Mach) (p : Nat) (f : Part → Part) : (m.updPart p f).poison = m.poison := rfl
@[simp] theorem Mach.updPart_bad (m : Mach) (p : Nat) (f : Part → Part) : (m.updPart p f).bad = m.bad := rfl
@[simp] theorem Mach.updPart_stxs (m : Mach) (p : Nat) (f : Part → Part) : (m.updPart p f).stxs = m.stxs := rfl
@[simp] theorem Mach.updPart_dadds (m : Mach) (p : Nat) (f : Part → Part) : (m.updPart p f).dadds = m.dadds := rfl
@[simp] theorem Mach.updPart_repls (m : Mach) (p : Nat) (f : Part → Part) : (m.updPart p f).repls = m.repls := rfl
@[simp] theorem Mach.updPart_hostWrs (m : Mach) (p : Nat) (f : Part → Part) : (m.updPart p f).hostWrs = m.hostWrs := rfl
@[simp] theorem Mach.updPart_xfailed (m : Mach) (p : Nat) (f : Part → Part) : (m.updPart p f).xfailed = m.xfailed := rfl
@[simp] theorem Mach.updPart_zyn (m : Mach) (p : Nat) (f : Part → Part) : (m.updPart p f).zyn = m.zyn := rfl
@[simp] theorem Mach.updPart_pkg (m : Mach) (p : Nat) (f : Part → Part) : (m.updPart p f).pkg = m.pkg := rfl
@[simp] theorem Mach.updPart_pkgSet (m : Mach) (p : Nat) (f : Part → Part) : (m.updPart p f).pkgSet = m.pkgSet := rfl
@[simp] theorem Mach.updPart_outbox (m : Mach) (p : Nat) (f : Part → Part) : (m.updPart p f).outbox = m.outbox := rfl

@[simp] theorem Mach.updBarrier_time (m : Mach) (b : Nat) (f : Barrier → Barrier) : (m.updBarrier b f).time = m.time := rfl
@[simp] theorem Mach.updBarrier_cur (m : Mach) (b : Nat) (f : Barrier → Barrier) : (m.updBarrier b f).cur = m.cur := rfl
@[simp] theorem Mach.updBarrier_nextId (m : Mach) (b : Nat) (f : Barrier → Barrier) : (m.updBarrier b f).nextId = m.nextId := rfl
@[simp] theorem Mach.updBarrier_running (m : Mach) (b : Nat) (f : Barrier → Barrier) : (m.updBarrier b f).running = m.running := rfl
@[simp] theorem Mach.updBarrier_threads (m : Mach) (b : Nat) (f : Barrier → Barrier) : (m.updBarrier b f).threads = m.threads := rfl
@[simp] theorem Mach.updBarrier_groups (m : Mach) (b : Nat) (f : Barrier → Barrier) : (m.updBarrier b f).groups = m.groups := rfl
@[simp] theorem Mach.updBarrier_kernels (m : Mach) (b : Nat) (f : Barrier → Barrier) : (m.updBarrier b f).kernels = m.kernels := rfl
@[simp] theorem Mach.updBarrier_ctxs (m : Mach) (b : Nat) (f : Barrier → Barrier) : (m.updBarrier b f).ctxs = m.ctxs := rfl
@[simp] theorem Mach.updBarrier_queues (m : Mach) (b : Nat) (f : Barrier → Barrier) : (m.updBarrier b f).queues = m.queues := rfl
@[simp] theorem Mach.updBarrier_cores (m : Mach) (b : Nat) (f : Barrier → Barrier) : (m.updBarrier b f).cores = m.cores := rfl
@[simp] theorem Mach.updBarrier_clusters (m : Mach) (b : Nat) (f : Barrier → Barrier) : (m.updBarrier b f).clusters = m.clusters := rfl
@[simp] theorem Mach.updBarrier_dies (m : Mach) (b : Nat) (f : Barrier → Barrier) : (m.updBarrier b f).dies = m.dies := rfl
@[simp] theorem Mach.updBarrier_parts (m : Mach) (b : Nat) (f : Barrier → Barrier) : (m.updBarrier b f).parts = m.parts := rfl
@[simp] theorem Mach.updBarrier_mem (m : Mach) (b : Nat) (f : Barrier → Barrier) : (m.updBarrier b f).mem = m.mem := rfl
@[simp] theorem Mach.updBarrier_poison (m : Mach) (b : Nat) (f : Barrier → Barrier) : (m.updBarrier b f).poison = m.poison := rfl
@[simp] theorem Mach.updBarrier_bad (m : Mach) (b : Nat) (f : Barrier → Barrier) : (m.updBarrier b f).bad = m.bad := rfl
@[simp] theorem Mach.updBarrier_stxs (m : Mach) (b : Nat) (f : Barrier → Barrier) : (m.updBarrier b f).stxs = m.stxs := rfl
@[simp] theorem Mach.updBarrier_dadds (m : Mach) (b : Nat) (f : Barrier → Barrier) : (m.updBarrier b f).dadds = m.dadds := rfl
@[simp] theorem Mach.updBarrier_repls (m : Mach) (b : Nat) (f : Barrier → Barrier) : (m.updBarrier b f).repls = m.repls := rfl
@[simp] theorem Mach.updBarrier_hostWrs (m : Mach) (b : Nat) (f : Barrier → Barrier) : (m.updBarrier b f).hostWrs = m.hostWrs := rfl
@[simp] theorem Mach.updBarrier_xfailed (m : Mach) (b : Nat) (f : Barrier → Barrier) : (m.updBarrier b f).xfailed = m.xfailed := rfl
@[simp] theorem Mach.updBarrier_zyn (m : Mach) (b : Nat) (f : Barrier → Barrier) : (m.updBarrier b f).zyn = m.zyn := rfl
@[simp] theorem Mach.updBarrier_pkg (m : Mach) (b : Nat) (f : Barrier → Barrier) : (m.updBarrier b f).pkg = m.pkg := rfl
@[simp] theorem Mach.updBarrier_pkgSet (m : Mach) (b : Nat) (f : Barrier → Barrier) : (m.updBarrier b f).pkgSet = m.pkgSet := rfl
@[simp] theorem Mach.updBarrier_outbox (m : Mach) (b : Nat) (f : Barrier → Barrier) : (m.updBarrier b f).outbox = m.outbox := rfl

@[simp] theorem Mach.updRun_time (m : Mach) (r : Nat) (f : Running → Running) : (m.updRun r f).time = m.time := rfl
@[simp] theorem Mach.updRun_cur (m : Mach) (r : Nat) (f : Running → Running) : (m.updRun r f).cur = m.cur := rfl
@[simp] theorem Mach.updRun_nextId (m : Mach) (r : Nat) (f : Running → Running) : (m.updRun r f).nextId = m.nextId := rfl
@[simp] theorem Mach.updRun_threads (m : Mach) (r : Nat) (f : Running → Running) : (m.updRun r f).threads = m.threads := rfl
@[simp] theorem Mach.updRun_groups (m : Mach) (r : Nat) (f : Running → Running) : (m.updRun r f).groups = m.groups := rfl
@[simp] theorem Mach.updRun_kernels (m : Mach) (r : Nat) (f : Running → Running) : (m.updRun r f).kernels = m.kernels := rfl
@[simp] theorem Mach.updRun_barriers (m : Mach) (r : Nat) (f : Running → Running) : (m.updRun r f).barriers = m.barriers := rfl
@[simp] theorem Mach.updRun_ctxs (m : Mach) (r : Nat) (f : Running → Running) : (m.updRun r f).ctxs = m.ctxs := rfl
@[simp] theorem Mach.updRun_queues (m : Mach) (r : Nat) (f : Running → Running) : (m.updRun r f).queues = m.queues := rfl
@[simp] theorem Mach.updRun_cores (m : Mach) (r : Nat) (f : Running → Running) : (m.updRun r f).cores = m.cores := rfl
@[simp] theorem Mach.updRun_clusters (m : Mach) (r : Nat) (f : Running → Running) : (m.updRun r f).clusters = m.clusters := rfl
@[simp] theorem Mach.updRun_dies (m : Mach) (r : Nat) (f : Running → Running) : (m.updRun r f).dies = m.dies := rfl
@[simp] theorem Mach.updRun_parts (m : Mach) (r : Nat) (f : Running → Running) : (m.updRun r f).parts = m.parts := rfl
@[simp] theorem Mach.updRun_mem (m : Mach) (r : Nat) (f : Running → Running) : (m.updRun r f).mem = m.mem := rfl
@[simp] theorem Mach.updRun_poison (m : Mach) (r : Nat) (f : Running → Running) : (m.updRun r f).poison = m.poison := rfl
@[simp] theorem Mach.updRun_bad (m : Mach) (r : Nat) (f : Running → Running) : (m.updRun r f).bad = m.bad := rfl
@[simp] theorem Mach.updRun_stxs (m : Mach) (r : Nat) (f : Running → Running) : (m.updRun r f).stxs = m.stxs := rfl
@[simp] theorem Mach.updRun_dadds (m : Mach) (r : Nat) (f : Running → Running) : (m.updRun r f).dadds = m.dadds := rfl
@[simp] theorem Mach.updRun_repls (m : Mach) (r : Nat) (f : Running → Running) : (m.updRun r f).repls = m.repls := rfl
@[simp] theorem Mach.updRun_hostWrs (m : Mach) (r : Nat) (f : Running → Running) : (m.updRun r f).hostWrs = m.hostWrs := rfl
@[simp] theorem Mach.updRun_xfailed (m : Mach) (r : Nat) (f : Running → Running) : (m.updRun r f).xfailed = m.xfailed := rfl
@[simp] theorem Mach.updRun_zyn (m : Mach) (r : Nat) (f : Running → Running) : (m.updRun r f).zyn = m.zyn := rfl
@[simp] theorem Mach.updRun_pkg (m : Mach) (r : Nat) (f : Running → Running) : (m.updRun r f).pkg = m.pkg := rfl
@[simp] theorem Mach.updRun_pkgSet (m : Mach) (r : Nat) (f : Running → Running) : (m.updRun r f).pkgSet = m.pkgSet := rfl
@[simp] theorem Mach.updRun_outbox (m : Mach) (r : Nat) (f : Running → Running) : (m.updRun r f).outbox = m.outbox := rfl

@[simp] theorem Mach.fresh_time (m : Mach) : m.fresh.time = m.time := rfl
@[simp] theorem Mach.fresh_cur (m : Mach) : m.fresh.cur = m.cur := rfl
@[simp] theorem Mach.fresh_running (m : Mach) : m.fresh.running = m.running := rfl
@[simp] theorem Mach.fresh_threads (m : Mach) : m.fresh.threads = m.threads := rfl
@[simp] theorem Mach.fresh_groups (m : Mach) : m.fresh.groups = m.groups := rfl
@[simp] theorem Mach.fresh_kernels (m : Mach) : m.fresh.kernels = m.kernels := rfl
@[simp] theorem Mach.fresh_barriers (m : Mach) : m.fresh.barriers = m.barriers := rfl
@[simp] theorem Mach.fresh_ctxs (m : Mach) : m.fresh.ctxs = m.ctxs := rfl
@[simp] theorem Mach.fresh_queues (m : Mach) : m.fresh.queues = m.queues := rfl
@[simp] theorem Mach.fresh_cores (m : Mach) : m.fresh.cores = m.cores := rfl
@[simp] theorem Mach.fresh_clusters (m : Mach) : m.fresh.clusters = m.clusters := rfl
@[simp] theorem Mach.fresh_dies (m : Mach) : m.fresh.dies = m.dies := rfl
@[simp] theorem Mach.fresh_parts (m : Mach) : m.fresh.parts = m.parts := rfl
@[simp] theorem Mach.fresh_mem (m : Mach) : m.fresh.mem = m.mem := rfl
@[simp] theorem Mach.fresh_poison (m : Mach) : m.fresh.poison = m.poison := rfl
@[simp] theorem Mach.fresh_bad (m : Mach) : m.fresh.bad = m.bad := rfl
@[simp] theorem Mach.fresh_stxs (m : Mach) : m.fresh.stxs = m.stxs := rfl
@[simp] theorem Mach.fresh_dadds (m : Mach) : m.fresh.dadds = m.dadds := rfl
@[simp] theorem Mach.fresh_repls (m : Mach) : m.fresh.repls = m.repls := rfl
@[simp] theorem Mach.fresh_hostWrs (m : Mach) : m.fresh.hostWrs = m.hostWrs := rfl
@[simp] theorem Mach.fresh_xfailed (m : Mach) : m.fresh.xfailed = m.xfailed := rfl
@[simp] theorem Mach.fresh_zyn (m : Mach) : m.fresh.zyn = m.zyn := rfl
@[simp] theorem Mach.fresh_pkg (m : Mach) : m.fresh.pkg = m.pkg := rfl
@[simp] theorem Mach.fresh_pkgSet (m : Mach) : m.fresh.pkgSet = m.pkgSet := rfl
@[simp] theorem Mach.fresh_outbox (m : Mach) : m.fresh.outbox = m.outbox := rfl

/-! Threads. -/

@[simp] theorem Thread.wr_gid (t : Thread) (n : Nat) (v : Word) : (t.wr n v).gid = t.gid := rfl
@[simp] theorem Thread.wr_tix (t : Thread) (n : Nat) (v : Word) : (t.wr n v).tix = t.tix := rfl
@[simp] theorem Thread.wr_slot (t : Thread) (n : Nat) (v : Word) : (t.wr n v).slot = t.slot := rfl
@[simp] theorem Thread.wr_pack (t : Thread) (n : Nat) (v : Word) : (t.wr n v).pack = t.pack := rfl
@[simp] theorem Thread.wr_pos (t : Thread) (n : Nat) (v : Word) : (t.wr n v).pos = t.pos := rfl
@[simp] theorem Thread.wr_landed (t : Thread) (n : Nat) (v : Word) : (t.wr n v).landed = t.landed := rfl
@[simp] theorem Thread.wr_stat (t : Thread) (n : Nat) (v : Word) : (t.wr n v).stat = t.stat := rfl
@[simp] theorem Thread.wr_pr (t : Thread) (n : Nat) (v : Word) : (t.wr n v).pr = t.pr := rfl
@[simp] theorem Thread.wr_fstat (t : Thread) (n : Nat) (v : Word) : (t.wr n v).fstat = t.fstat := rfl
@[simp] theorem Thread.wr_fctl (t : Thread) (n : Nat) (v : Word) : (t.wr n v).fctl = t.fctl := rfl
@[simp] theorem Thread.wr_hsp (t : Thread) (n : Nat) (v : Word) : (t.wr n v).hsp = t.hsp := rfl
@[simp] theorem Thread.wr_rngk (t : Thread) (n : Nat) (v : Word) : (t.wr n v).rngk = t.rngk := rfl
@[simp] theorem Thread.wr_rngc (t : Thread) (n : Nat) (v : Word) : (t.wr n v).rngc = t.rngc := rfl
@[simp] theorem Thread.wr_gen (t : Thread) (n : Nat) (v : Word) : (t.wr n v).gen = t.gen := rfl
@[simp] theorem Thread.wr_prs (t : Thread) (n : Nat) (v : Word) : (t.wr n v).prs = t.prs := rfl
@[simp] theorem Thread.wr_loads (t : Thread) (n : Nat) (v : Word) : (t.wr n v).loads = t.loads := rfl
@[simp] theorem Thread.wr_demoted (t : Thread) (n : Nat) (v : Word) : (t.wr n v).demoted = t.demoted := rfl
@[simp] theorem Thread.wr_poll (t : Thread) (n : Nat) (v : Word) : (t.wr n v).poll = t.poll := rfl
@[simp] theorem Thread.wr_ageing (t : Thread) (n : Nat) (v : Word) : (t.wr n v).ageing = t.ageing := rfl
@[simp] theorem Thread.wr_aged (t : Thread) (n : Nat) (v : Word) : (t.wr n v).aged = t.aged := rfl
@[simp] theorem Thread.wr_holdW (t : Thread) (n : Nat) (v : Word) : (t.wr n v).holdW = t.holdW := rfl
@[simp] theorem Thread.wr_holdS (t : Thread) (n : Nat) (v : Word) : (t.wr n v).holdS = t.holdS := rfl
@[simp] theorem Thread.wr_pend (t : Thread) (n : Nat) (v : Word) : (t.wr n v).pend = t.pend := rfl
@[simp] theorem Thread.wr_lost (t : Thread) (n : Nat) (v : Word) : (t.wr n v).lost = t.lost := rfl
@[simp] theorem Thread.wr_arith (t : Thread) (n : Nat) (v : Word) : (t.wr n v).arith = t.arith := rfl
@[simp] theorem Thread.wr_halts (t : Thread) (n : Nat) (v : Word) : (t.wr n v).halts = t.halts := rfl
@[simp] theorem Thread.wr_brokenAt (t : Thread) (n : Nat) (v : Word) : (t.wr n v).brokenAt = t.brokenAt := rfl
@[simp] theorem Thread.wr_goes (t : Thread) (n : Nat) (v : Word) : (t.wr n v).goes = t.goes := rfl
@[simp] theorem Thread.wr_nextChunk (t : Thread) (n : Nat) (v : Word) : (t.wr n v).nextChunk = t.nextChunk := rfl
@[simp] theorem Thread.wr_escFor (t : Thread) (n : Nat) (v : Word) : (t.wr n v).escFor = t.escFor := rfl
@[simp] theorem Thread.wr_escAt (t : Thread) (n : Nat) (v : Word) : (t.wr n v).escAt = t.escAt := rfl
@[simp] theorem Thread.wr_retrying (t : Thread) (n : Nat) (v : Word) : (t.wr n v).retrying = t.retrying := rfl
@[simp] theorem Thread.wr_stop (t : Thread) (n : Nat) (v : Word) : (t.wr n v).stop = t.stop := rfl

@[simp] theorem Thread.wrD_gid (t : Thread) (n : Nat) (v : DWord) : (t.wrD n v).gid = t.gid := rfl
@[simp] theorem Thread.wrD_tix (t : Thread) (n : Nat) (v : DWord) : (t.wrD n v).tix = t.tix := rfl
@[simp] theorem Thread.wrD_slot (t : Thread) (n : Nat) (v : DWord) : (t.wrD n v).slot = t.slot := rfl
@[simp] theorem Thread.wrD_pack (t : Thread) (n : Nat) (v : DWord) : (t.wrD n v).pack = t.pack := rfl
@[simp] theorem Thread.wrD_pos (t : Thread) (n : Nat) (v : DWord) : (t.wrD n v).pos = t.pos := rfl
@[simp] theorem Thread.wrD_landed (t : Thread) (n : Nat) (v : DWord) : (t.wrD n v).landed = t.landed := rfl
@[simp] theorem Thread.wrD_stat (t : Thread) (n : Nat) (v : DWord) : (t.wrD n v).stat = t.stat := rfl
@[simp] theorem Thread.wrD_pr (t : Thread) (n : Nat) (v : DWord) : (t.wrD n v).pr = t.pr := rfl
@[simp] theorem Thread.wrD_fstat (t : Thread) (n : Nat) (v : DWord) : (t.wrD n v).fstat = t.fstat := rfl
@[simp] theorem Thread.wrD_fctl (t : Thread) (n : Nat) (v : DWord) : (t.wrD n v).fctl = t.fctl := rfl
@[simp] theorem Thread.wrD_hsp (t : Thread) (n : Nat) (v : DWord) : (t.wrD n v).hsp = t.hsp := rfl
@[simp] theorem Thread.wrD_rngk (t : Thread) (n : Nat) (v : DWord) : (t.wrD n v).rngk = t.rngk := rfl
@[simp] theorem Thread.wrD_rngc (t : Thread) (n : Nat) (v : DWord) : (t.wrD n v).rngc = t.rngc := rfl
@[simp] theorem Thread.wrD_gen (t : Thread) (n : Nat) (v : DWord) : (t.wrD n v).gen = t.gen := rfl
@[simp] theorem Thread.wrD_prs (t : Thread) (n : Nat) (v : DWord) : (t.wrD n v).prs = t.prs := rfl
@[simp] theorem Thread.wrD_loads (t : Thread) (n : Nat) (v : DWord) : (t.wrD n v).loads = t.loads := rfl
@[simp] theorem Thread.wrD_demoted (t : Thread) (n : Nat) (v : DWord) : (t.wrD n v).demoted = t.demoted := rfl
@[simp] theorem Thread.wrD_poll (t : Thread) (n : Nat) (v : DWord) : (t.wrD n v).poll = t.poll := rfl
@[simp] theorem Thread.wrD_ageing (t : Thread) (n : Nat) (v : DWord) : (t.wrD n v).ageing = t.ageing := rfl
@[simp] theorem Thread.wrD_aged (t : Thread) (n : Nat) (v : DWord) : (t.wrD n v).aged = t.aged := rfl
@[simp] theorem Thread.wrD_holdW (t : Thread) (n : Nat) (v : DWord) : (t.wrD n v).holdW = t.holdW := rfl
@[simp] theorem Thread.wrD_holdS (t : Thread) (n : Nat) (v : DWord) : (t.wrD n v).holdS = t.holdS := rfl
@[simp] theorem Thread.wrD_pend (t : Thread) (n : Nat) (v : DWord) : (t.wrD n v).pend = t.pend := rfl
@[simp] theorem Thread.wrD_lost (t : Thread) (n : Nat) (v : DWord) : (t.wrD n v).lost = t.lost := rfl
@[simp] theorem Thread.wrD_arith (t : Thread) (n : Nat) (v : DWord) : (t.wrD n v).arith = t.arith := rfl
@[simp] theorem Thread.wrD_halts (t : Thread) (n : Nat) (v : DWord) : (t.wrD n v).halts = t.halts := rfl
@[simp] theorem Thread.wrD_brokenAt (t : Thread) (n : Nat) (v : DWord) : (t.wrD n v).brokenAt = t.brokenAt := rfl
@[simp] theorem Thread.wrD_goes (t : Thread) (n : Nat) (v : DWord) : (t.wrD n v).goes = t.goes := rfl
@[simp] theorem Thread.wrD_nextChunk (t : Thread) (n : Nat) (v : DWord) : (t.wrD n v).nextChunk = t.nextChunk := rfl
@[simp] theorem Thread.wrD_escFor (t : Thread) (n : Nat) (v : DWord) : (t.wrD n v).escFor = t.escFor := rfl
@[simp] theorem Thread.wrD_escAt (t : Thread) (n : Nat) (v : DWord) : (t.wrD n v).escAt = t.escAt := rfl
@[simp] theorem Thread.wrD_retrying (t : Thread) (n : Nat) (v : DWord) : (t.wrD n v).retrying = t.retrying := rfl
@[simp] theorem Thread.wrD_stop (t : Thread) (n : Nat) (v : DWord) : (t.wrD n v).stop = t.stop := rfl

@[simp] theorem Thread.leave_gid (t : Thread) (s : TStat) (p : Pos) : (t.leave s p).gid = t.gid := rfl
@[simp] theorem Thread.leave_tix (t : Thread) (s : TStat) (p : Pos) : (t.leave s p).tix = t.tix := rfl
@[simp] theorem Thread.leave_slot (t : Thread) (s : TStat) (p : Pos) : (t.leave s p).slot = t.slot := rfl
@[simp] theorem Thread.leave_landed (t : Thread) (s : TStat) (p : Pos) : (t.leave s p).landed = t.landed := rfl
@[simp] theorem Thread.leave_w (t : Thread) (s : TStat) (p : Pos) : (t.leave s p).w = t.w := rfl
@[simp] theorem Thread.leave_pr (t : Thread) (s : TStat) (p : Pos) : (t.leave s p).pr = t.pr := rfl
@[simp] theorem Thread.leave_fstat (t : Thread) (s : TStat) (p : Pos) : (t.leave s p).fstat = t.fstat := rfl
@[simp] theorem Thread.leave_fctl (t : Thread) (s : TStat) (p : Pos) : (t.leave s p).fctl = t.fctl := rfl
@[simp] theorem Thread.leave_hsp (t : Thread) (s : TStat) (p : Pos) : (t.leave s p).hsp = t.hsp := rfl
@[simp] theorem Thread.leave_rngk (t : Thread) (s : TStat) (p : Pos) : (t.leave s p).rngk = t.rngk := rfl
@[simp] theorem Thread.leave_rngc (t : Thread) (s : TStat) (p : Pos) : (t.leave s p).rngc = t.rngc := rfl
@[simp] theorem Thread.leave_gen (t : Thread) (s : TStat) (p : Pos) : (t.leave s p).gen = t.gen := rfl
@[simp] theorem Thread.leave_prs (t : Thread) (s : TStat) (p : Pos) : (t.leave s p).prs = t.prs := rfl
@[simp] theorem Thread.leave_loads (t : Thread) (s : TStat) (p : Pos) : (t.leave s p).loads = t.loads := rfl
@[simp] theorem Thread.leave_demoted (t : Thread) (s : TStat) (p : Pos) : (t.leave s p).demoted = (t.demoted || t.poll) := rfl
@[simp] theorem Thread.leave_poll (t : Thread) (s : TStat) (p : Pos) : (t.leave s p).poll = false := rfl
@[simp] theorem Thread.leave_ageing (t : Thread) (s : TStat) (p : Pos) : (t.leave s p).ageing = t.ageing := rfl
@[simp] theorem Thread.leave_aged (t : Thread) (s : TStat) (p : Pos) : (t.leave s p).aged = t.aged := rfl
@[simp] theorem Thread.leave_holdW (t : Thread) (s : TStat) (p : Pos) : (t.leave s p).holdW = t.holdW := rfl
@[simp] theorem Thread.leave_holdS (t : Thread) (s : TStat) (p : Pos) : (t.leave s p).holdS = t.holdS := rfl
@[simp] theorem Thread.leave_pend (t : Thread) (s : TStat) (p : Pos) : (t.leave s p).pend = t.pend := rfl
@[simp] theorem Thread.leave_lost (t : Thread) (s : TStat) (p : Pos) : (t.leave s p).lost = t.lost := rfl
@[simp] theorem Thread.leave_arith (t : Thread) (s : TStat) (p : Pos) : (t.leave s p).arith = t.arith := rfl
@[simp] theorem Thread.leave_halts (t : Thread) (s : TStat) (p : Pos) : (t.leave s p).halts = t.halts := rfl
@[simp] theorem Thread.leave_brokenAt (t : Thread) (s : TStat) (p : Pos) : (t.leave s p).brokenAt = t.brokenAt := rfl
@[simp] theorem Thread.leave_goes (t : Thread) (s : TStat) (p : Pos) : (t.leave s p).goes = t.goes := rfl
@[simp] theorem Thread.leave_nextChunk (t : Thread) (s : TStat) (p : Pos) : (t.leave s p).nextChunk = t.nextChunk := rfl
@[simp] theorem Thread.leave_escFor (t : Thread) (s : TStat) (p : Pos) : (t.leave s p).escFor = t.escFor := rfl
@[simp] theorem Thread.leave_escAt (t : Thread) (s : TStat) (p : Pos) : (t.leave s p).escAt = t.escAt := rfl
@[simp] theorem Thread.leave_retrying (t : Thread) (s : TStat) (p : Pos) : (t.leave s p).retrying = t.retrying := rfl
@[simp] theorem Thread.leave_stop (t : Thread) (s : TStat) (p : Pos) : (t.leave s p).stop = t.stop := rfl

@[simp] theorem Thread.goTo_gid (t : Thread) (h : Nat) : (t.goTo h).gid = t.gid := rfl
@[simp] theorem Thread.goTo_tix (t : Thread) (h : Nat) : (t.goTo h).tix = t.tix := rfl
@[simp] theorem Thread.goTo_slot (t : Thread) (h : Nat) : (t.goTo h).slot = t.slot := rfl
@[simp] theorem Thread.goTo_pack (t : Thread) (h : Nat) :
    (t.goTo h).pack = if t.demoted || t.poll then 0 else t.pack := rfl
@[simp] theorem Thread.goTo_w (t : Thread) (h : Nat) : (t.goTo h).w = t.w := rfl
@[simp] theorem Thread.goTo_pr (t : Thread) (h : Nat) : (t.goTo h).pr = t.pr := rfl
@[simp] theorem Thread.goTo_fstat (t : Thread) (h : Nat) : (t.goTo h).fstat = t.fstat := rfl
@[simp] theorem Thread.goTo_fctl (t : Thread) (h : Nat) : (t.goTo h).fctl = t.fctl := rfl
@[simp] theorem Thread.goTo_hsp (t : Thread) (h : Nat) : (t.goTo h).hsp = t.hsp := rfl
@[simp] theorem Thread.goTo_rngk (t : Thread) (h : Nat) : (t.goTo h).rngk = t.rngk := rfl
@[simp] theorem Thread.goTo_rngc (t : Thread) (h : Nat) : (t.goTo h).rngc = t.rngc := rfl
@[simp] theorem Thread.goTo_gen (t : Thread) (h : Nat) : (t.goTo h).gen = t.gen := rfl
@[simp] theorem Thread.goTo_prs (t : Thread) (h : Nat) : (t.goTo h).prs = t.prs := rfl
@[simp] theorem Thread.goTo_loads (t : Thread) (h : Nat) : (t.goTo h).loads = t.loads := rfl
@[simp] theorem Thread.goTo_demoted (t : Thread) (h : Nat) : (t.goTo h).demoted = (t.demoted || t.poll) := rfl
@[simp] theorem Thread.goTo_poll (t : Thread) (h : Nat) : (t.goTo h).poll = false := rfl
@[simp] theorem Thread.goTo_ageing (t : Thread) (h : Nat) : (t.goTo h).ageing = t.ageing := rfl
@[simp] theorem Thread.goTo_aged (t : Thread) (h : Nat) : (t.goTo h).aged = t.aged := rfl
@[simp] theorem Thread.goTo_holdW (t : Thread) (h : Nat) : (t.goTo h).holdW = t.holdW := rfl
@[simp] theorem Thread.goTo_holdS (t : Thread) (h : Nat) : (t.goTo h).holdS = t.holdS := rfl
@[simp] theorem Thread.goTo_pend (t : Thread) (h : Nat) : (t.goTo h).pend = t.pend := rfl
@[simp] theorem Thread.goTo_lost (t : Thread) (h : Nat) : (t.goTo h).lost = t.lost := rfl
@[simp] theorem Thread.goTo_arith (t : Thread) (h : Nat) : (t.goTo h).arith = t.arith := rfl
@[simp] theorem Thread.goTo_halts (t : Thread) (h : Nat) : (t.goTo h).halts = t.halts := rfl
@[simp] theorem Thread.goTo_brokenAt (t : Thread) (h : Nat) : (t.goTo h).brokenAt = t.brokenAt := rfl
@[simp] theorem Thread.goTo_goes (t : Thread) (h : Nat) : (t.goTo h).goes = t.goes := rfl
@[simp] theorem Thread.goTo_nextChunk (t : Thread) (h : Nat) : (t.goTo h).nextChunk = t.nextChunk := rfl
@[simp] theorem Thread.goTo_escFor (t : Thread) (h : Nat) : (t.goTo h).escFor = t.escFor := rfl
@[simp] theorem Thread.goTo_escAt (t : Thread) (h : Nat) : (t.goTo h).escAt = t.escAt := rfl
@[simp] theorem Thread.goTo_retrying (t : Thread) (h : Nat) : (t.goTo h).retrying = t.retrying := rfl
@[simp] theorem Thread.goTo_stop (t : Thread) (h : Nat) : (t.goTo h).stop = t.stop := rfl

@[simp] theorem Thread.freed_gid (t : Thread) : t.freed.gid = t.gid := rfl
@[simp] theorem Thread.freed_tix (t : Thread) : t.freed.tix = t.tix := rfl
@[simp] theorem Thread.freed_slot (t : Thread) : t.freed.slot = t.slot := rfl
@[simp] theorem Thread.freed_pack (t : Thread) : t.freed.pack = t.pack := rfl
@[simp] theorem Thread.freed_pos (t : Thread) : t.freed.pos = t.pos := rfl
@[simp] theorem Thread.freed_w (t : Thread) : t.freed.w = t.w := rfl
@[simp] theorem Thread.freed_pr (t : Thread) : t.freed.pr = t.pr := rfl
@[simp] theorem Thread.freed_fstat (t : Thread) : t.freed.fstat = t.fstat := rfl
@[simp] theorem Thread.freed_fctl (t : Thread) : t.freed.fctl = t.fctl := rfl
@[simp] theorem Thread.freed_hsp (t : Thread) : t.freed.hsp = t.hsp := rfl
@[simp] theorem Thread.freed_rngk (t : Thread) : t.freed.rngk = t.rngk := rfl
@[simp] theorem Thread.freed_rngc (t : Thread) : t.freed.rngc = t.rngc := rfl
@[simp] theorem Thread.freed_gen (t : Thread) : t.freed.gen = t.gen := rfl
@[simp] theorem Thread.freed_prs (t : Thread) : t.freed.prs = t.prs := rfl
@[simp] theorem Thread.freed_loads (t : Thread) : t.freed.loads = t.loads := rfl
@[simp] theorem Thread.freed_demoted (t : Thread) : t.freed.demoted = t.demoted := rfl
@[simp] theorem Thread.freed_poll (t : Thread) : t.freed.poll = t.poll := rfl
@[simp] theorem Thread.freed_ageing (t : Thread) : t.freed.ageing = t.ageing := rfl
@[simp] theorem Thread.freed_aged (t : Thread) : t.freed.aged = t.aged := rfl
@[simp] theorem Thread.freed_holdW (t : Thread) : t.freed.holdW = t.holdW := rfl
@[simp] theorem Thread.freed_holdS (t : Thread) : t.freed.holdS = t.holdS := rfl
@[simp] theorem Thread.freed_pend (t : Thread) : t.freed.pend = t.pend := rfl
@[simp] theorem Thread.freed_lost (t : Thread) : t.freed.lost = t.lost := rfl
@[simp] theorem Thread.freed_arith (t : Thread) : t.freed.arith = t.arith := rfl
@[simp] theorem Thread.freed_halts (t : Thread) : t.freed.halts = t.halts := rfl
@[simp] theorem Thread.freed_brokenAt (t : Thread) : t.freed.brokenAt = t.brokenAt := rfl
@[simp] theorem Thread.freed_goes (t : Thread) : t.freed.goes = t.goes := rfl
@[simp] theorem Thread.freed_nextChunk (t : Thread) : t.freed.nextChunk = t.nextChunk := rfl
@[simp] theorem Thread.freed_escFor (t : Thread) : t.freed.escFor = t.escFor := rfl
@[simp] theorem Thread.freed_escAt (t : Thread) : t.freed.escAt = t.escAt := rfl
@[simp] theorem Thread.freed_retrying (t : Thread) : t.freed.retrying = t.retrying := rfl
@[simp] theorem Thread.freed_stop (t : Thread) : t.freed.stop = t.stop := rfl

@[simp] theorem Thread.wrP_gid (t : Thread) (n : Nat) (v : Bool) : (t.wrP n v).gid = t.gid := by
  unfold Thread.wrP; split <;> rfl
@[simp] theorem Thread.wrP_tix (t : Thread) (n : Nat) (v : Bool) : (t.wrP n v).tix = t.tix := by
  unfold Thread.wrP; split <;> rfl
@[simp] theorem Thread.wrP_slot (t : Thread) (n : Nat) (v : Bool) : (t.wrP n v).slot = t.slot := by
  unfold Thread.wrP; split <;> rfl
@[simp] theorem Thread.wrP_pack (t : Thread) (n : Nat) (v : Bool) : (t.wrP n v).pack = t.pack := by
  unfold Thread.wrP; split <;> rfl
@[simp] theorem Thread.wrP_pos (t : Thread) (n : Nat) (v : Bool) : (t.wrP n v).pos = t.pos := by
  unfold Thread.wrP; split <;> rfl
@[simp] theorem Thread.wrP_landed (t : Thread) (n : Nat) (v : Bool) : (t.wrP n v).landed = t.landed := by
  unfold Thread.wrP; split <;> rfl
@[simp] theorem Thread.wrP_stat (t : Thread) (n : Nat) (v : Bool) : (t.wrP n v).stat = t.stat := by
  unfold Thread.wrP; split <;> rfl
@[simp] theorem Thread.wrP_w (t : Thread) (n : Nat) (v : Bool) : (t.wrP n v).w = t.w := by
  unfold Thread.wrP; split <;> rfl
@[simp] theorem Thread.wrP_fstat (t : Thread) (n : Nat) (v : Bool) : (t.wrP n v).fstat = t.fstat := by
  unfold Thread.wrP; split <;> rfl
@[simp] theorem Thread.wrP_fctl (t : Thread) (n : Nat) (v : Bool) : (t.wrP n v).fctl = t.fctl := by
  unfold Thread.wrP; split <;> rfl
@[simp] theorem Thread.wrP_hsp (t : Thread) (n : Nat) (v : Bool) : (t.wrP n v).hsp = t.hsp := by
  unfold Thread.wrP; split <;> rfl
@[simp] theorem Thread.wrP_rngk (t : Thread) (n : Nat) (v : Bool) : (t.wrP n v).rngk = t.rngk := by
  unfold Thread.wrP; split <;> rfl
@[simp] theorem Thread.wrP_rngc (t : Thread) (n : Nat) (v : Bool) : (t.wrP n v).rngc = t.rngc := by
  unfold Thread.wrP; split <;> rfl
@[simp] theorem Thread.wrP_gen (t : Thread) (n : Nat) (v : Bool) : (t.wrP n v).gen = t.gen := by
  unfold Thread.wrP; split <;> rfl
@[simp] theorem Thread.wrP_prs (t : Thread) (n : Nat) (v : Bool) : (t.wrP n v).prs = t.prs := by
  unfold Thread.wrP; split <;> rfl
@[simp] theorem Thread.wrP_loads (t : Thread) (n : Nat) (v : Bool) : (t.wrP n v).loads = t.loads := by
  unfold Thread.wrP; split <;> rfl
@[simp] theorem Thread.wrP_demoted (t : Thread) (n : Nat) (v : Bool) : (t.wrP n v).demoted = t.demoted := by
  unfold Thread.wrP; split <;> rfl
@[simp] theorem Thread.wrP_poll (t : Thread) (n : Nat) (v : Bool) : (t.wrP n v).poll = t.poll := by
  unfold Thread.wrP; split <;> rfl
@[simp] theorem Thread.wrP_ageing (t : Thread) (n : Nat) (v : Bool) : (t.wrP n v).ageing = t.ageing := by
  unfold Thread.wrP; split <;> rfl
@[simp] theorem Thread.wrP_aged (t : Thread) (n : Nat) (v : Bool) : (t.wrP n v).aged = t.aged := by
  unfold Thread.wrP; split <;> rfl
@[simp] theorem Thread.wrP_holdW (t : Thread) (n : Nat) (v : Bool) : (t.wrP n v).holdW = t.holdW := by
  unfold Thread.wrP; split <;> rfl
@[simp] theorem Thread.wrP_holdS (t : Thread) (n : Nat) (v : Bool) : (t.wrP n v).holdS = t.holdS := by
  unfold Thread.wrP; split <;> rfl
@[simp] theorem Thread.wrP_pend (t : Thread) (n : Nat) (v : Bool) : (t.wrP n v).pend = t.pend := by
  unfold Thread.wrP; split <;> rfl
@[simp] theorem Thread.wrP_lost (t : Thread) (n : Nat) (v : Bool) : (t.wrP n v).lost = t.lost := by
  unfold Thread.wrP; split <;> rfl
@[simp] theorem Thread.wrP_arith (t : Thread) (n : Nat) (v : Bool) : (t.wrP n v).arith = t.arith := by
  unfold Thread.wrP; split <;> rfl
@[simp] theorem Thread.wrP_halts (t : Thread) (n : Nat) (v : Bool) : (t.wrP n v).halts = t.halts := by
  unfold Thread.wrP; split <;> rfl
@[simp] theorem Thread.wrP_brokenAt (t : Thread) (n : Nat) (v : Bool) : (t.wrP n v).brokenAt = t.brokenAt := by
  unfold Thread.wrP; split <;> rfl
@[simp] theorem Thread.wrP_goes (t : Thread) (n : Nat) (v : Bool) : (t.wrP n v).goes = t.goes := by
  unfold Thread.wrP; split <;> rfl
@[simp] theorem Thread.wrP_nextChunk (t : Thread) (n : Nat) (v : Bool) : (t.wrP n v).nextChunk = t.nextChunk := by
  unfold Thread.wrP; split <;> rfl
@[simp] theorem Thread.wrP_escFor (t : Thread) (n : Nat) (v : Bool) : (t.wrP n v).escFor = t.escFor := by
  unfold Thread.wrP; split <;> rfl
@[simp] theorem Thread.wrP_escAt (t : Thread) (n : Nat) (v : Bool) : (t.wrP n v).escAt = t.escAt := by
  unfold Thread.wrP; split <;> rfl
@[simp] theorem Thread.wrP_retrying (t : Thread) (n : Nat) (v : Bool) : (t.wrP n v).retrying = t.retrying := by
  unfold Thread.wrP; split <;> rfl
@[simp] theorem Thread.wrP_stop (t : Thread) (n : Nat) (v : Bool) : (t.wrP n v).stop = t.stop := by
  unfold Thread.wrP; split <;> rfl

/-! Registers of a thread. -/

@[simp] theorem Thread.rd_wr_self (t : Thread) {n : Nat} (h : 2 ≤ n) (v : Word) : (t.wr n v).rd n = v :=
  rget_rput_self _ h v

theorem Thread.rd_wr_ne (t : Thread) {n k : Nat} (h : k ≠ n) (v : Word) : (t.wr n v).rd k = t.rd k :=
  rget_rput_ne _ h v

/-- A write of `w0` or `w1` is discarded (R61). -/
theorem Thread.wr_low (t : Thread) {n : Nat} (h : n < 2) (v : Word) : t.wr n v = t := by
  simp [Thread.wr, rput, h]

/-- `w0` and `w1` read as zero (R61). -/
@[simp] theorem Thread.rd_low (t : Thread) {n : Nat} (h : n < 2) : t.rd n = 0 := rget_low _ h

theorem mkD_lo_hi (v : DWord) : mkD (loW v) (hiW v) = v := by
  apply BitVec.eq_of_getLsbD_eq
  intro i hi
  simp only [mkD, loW, hiW, BitVec.getLsbD_append, BitVec.truncate_eq_setWidth, BitVec.getLsbD_setWidth,
    BitVec.getLsbD_ushiftRight]
  split
  · simp_all
  · rw [show 32 + (i - 32) = i by omega]
    simp [show i - 32 < 32 by omega]

@[simp] theorem Thread.rdD_wrD_self (t : Thread) {n : Nat} (h : 2 ≤ n) (v : DWord) : (t.wrD n v).rdD n = v := by
  unfold Thread.rdD Thread.wrD
  rw [Thread.rd_wr_ne _ (by omega), Thread.rd_wr_self _ h, Thread.rd_wr_self _ (by omega), mkD_lo_hi]

theorem Thread.rd_wrD_ne (t : Thread) {n k : Nat} (h : k ≠ n) (h' : k ≠ n + 1) (v : DWord) :
    (t.wrD n v).rd k = t.rd k := by
  unfold Thread.wrD
  rw [Thread.rd_wr_ne _ h', Thread.rd_wr_ne _ h]

@[simp] theorem Thread.rdP_zero (t : Thread) : t.rdP 0 = true := rfl

/-! Lookups. -/

theorem find_map_named {α : Type} (p : α → Bool) (f : α → α) (h : ∀ x, p (f x) = p x) (l : List α) :
    (l.map f).find? p = (l.find? p).map f := by
  induction l with
  | nil => rfl
  | cons x r ih =>
    simp only [List.map_cons, List.find?_cons, h]
    split
    · rfl
    · exact ih

/-- The threads after a change of one that keeps its name. -/
theorem Mach.thread?_updThread (m : Mach) (g i : Nat) (f : Thread → Thread)
    (h : ∀ t, (f t).gid = t.gid ∧ (f t).tix = t.tix) (g' i' : Nat) :
    (m.updThread g i f).thread? g' i' = (m.thread? g' i').map (fun t => if t.gid == g && t.tix == i then f t else t) := by
  refine find_map_named _ _ (fun t => ?_) _
  split
  · rw [(h t).1, (h t).2]
  · rfl

/-- The groups after a change of one that keeps its name. -/
theorem Mach.group?_updGroup (m : Mach) (g : Nat) (f : Group → Group) (h : ∀ x, (f x).gid = x.gid) (g' : Nat) :
    (m.updGroup g f).group? g' = (m.group? g').map (fun x => if x.gid == g then f x else x) := by
  refine find_map_named _ _ (fun x => ?_) _
  split
  · rw [h x]
  · rfl

/-- A core after a change of it. -/
@[simp] theorem Mach.core_updCore_self (m : Mach) (c : Nat) (f : Core → Core) : (m.updCore c f).core c = f (m.core c) := by
  simp [Mach.core, Mach.updCore]

/-- Another core after a change of one. -/
theorem Mach.core_updCore_ne (m : Mach) {c d : Nat} (f : Core → Core) (h : d ≠ c) : (m.updCore c f).core d = m.core d := by
  simp [Mach.core, Mach.updCore, lget_lput_ne _ _ h]

/-- A die after a change of it. -/
@[simp] theorem Mach.die_updDie_self (m : Mach) (d : Nat) (f : Die → Die) : (m.updDie d f).die d = f (m.die d) := by
  simp [Mach.die, Mach.updDie]

/-- Another die after a change of one. -/
theorem Mach.die_updDie_ne (m : Mach) {c d : Nat} (f : Die → Die) (h : d ≠ c) : (m.updDie c f).die d = m.die d := by
  simp [Mach.die, Mach.updDie, lget_lput_ne _ _ h]

/-- A change of the machine leaves the schedule alone. -/
@[simp] theorem State.onMach_agenda (s : State) (f : Mach → Mach) : (s.onMach f).agenda = s.agenda := rfl

@[simp] theorem State.onMach_m (s : State) (f : Mach → Mach) : (s.onMach f).m = f s.m := rfl

end Sys2Proof.Machine
end

