-- ==== Sys2Proof/Laws/Ops.lean ====
section
/-!
SUPPORT. What the shared operations of a word do: for a pack, for one thread, and for each destination form.
-/

namespace Sys2Proof.Machine

open Sys2Proof

/-! Packs. -/

theorem vecWord_eq {m : Mach} {r : Running} (h : m.curRun = some r) (g : Guard) (f : Thread → Thread) :
    vecWord m g f = lanes m r g f := by
  simp [vecWord, h, lanes]

theorem performers_eq {m : Mach} {r : Running} (h : m.curRun = some r) (g : Guard) :
    performers m g = r.act.filterMap (fun i =>
      match m.thread? r.gid i with
      | some t => if r.sel g t then some t else none
      | none => none) := by
  simp only [performers, h]
  all_goals rfl

theorem thread?_gid {m : Mach} {g i : Nat} {t : Thread} (h : m.thread? g i = some t) : t.gid = g ∧ t.tix = i := by
  have := List.find?_some h
  simpa using this

/-- A leader performs the word. -/
theorem leader_sel {m : Mach} {r : Running} {g : Guard} {l : Thread} (h : m.curRun = some r) (hl : leader m g = some l) :
    r.sel g l = true := by
  rw [leader, performers_eq h, List.head?_filterMap] at hl
  obtain ⟨i, hi⟩ := List.exists_of_findSome?_eq_some hl
  obtain ⟨-, hi⟩ := hi
  split at hi
  · split at hi
    · next hs => simp only [Option.some.injEq] at hi; exact hi ▸ hs
    · simp at hi
  · simp at hi

/-! One thread. -/

theorem seqWord_alone {s : State} {r : Running} {t : Thread} {g : Guard} (h : Alone s r t g)
    (f : Mach → Running → Thread → Mach) : seqWord s.m g f = f s.m r t := by
  simp [seqWord, h.run, h.act, h.here, h.sel]

theorem updThread_eq (m : Mach) (t : Thread) (f : Thread → Thread) : m.updThread t.gid t.tix f = withThread m t f := rfl

theorem raiseEff_eq (m : Mach) (t : Thread) (x : Raise) : raiseEff m t x = withThread m t (raised x) := rfl

theorem misalign_eq (m : Mach) (r : Running) (t : Thread) (a2 a3 len : Nat) :
    misalign m r t a2 a3 len = withThread m t (raised (misalignAt r a2 a3 len)) := rfl

/-- An escaping word of one thread, in an empty chunk with no earlier one committing. -/
theorem escWord_alone {s : State} {r : Running} {t : Thread} {g : Guard} (h : Alone s r t g) (cause len : Nat)
    (f : Mach → Running → Thread → Mach) (he : chunkEmpty s.m r.core = true) (hc : (s.m.core r.core).comC = none) :
    escWord s.m g cause len f = creditWord (f s.m r t) r t cause len := by
  simp [escWord, seqWord_alone h, escDo, he, hc]

/-- In a chunk that is not empty, its thread leaves the pack at the word and the chunk closes. -/
theorem escWord_leaves {s : State} {r : Running} {t : Thread} {g : Guard} (h : Alone s r t g) (cause len : Nat)
    (f : Mach → Running → Thread → Mach) (he : chunkEmpty s.m r.core = false) :
    escWord s.m g cause len f = wordEscapes s.m r t cause := by
  simp only [escWord, seqWord_alone h, escDo, he]
  rfl

/-- A word that no performer of it holds up for a release goes on (R177). -/
theorem relWord_go {m : Mach} {r : Running} (h : m.curRun = some r) {g : Guard} {waits : Mach → Running → Thread → Bool}
    (hw : (performers m g).any (waits m r) = false) (go : Mach) : relWord m g waits go = go := by
  simp [relWord, h, hw]

/-- The one thread that performs a word. -/
theorem performers_alone {s : State} {r : Running} {t : Thread} {g : Guard} (h : Alone s r t g) : performers s.m g = [t] := by
  simp [performers_eq h.run, h.act, h.here, h.sel]

/-- The same for one thread. -/
theorem relWord_alone {s : State} {r : Running} {t : Thread} {g : Guard} (h : Alone s r t g)
    (waits : Mach → Running → Thread → Bool) (go : Mach) :
    relWord s.m g waits go = if waits s.m r t then stallAt s.m r.rid t.tix else go := by
  simp [relWord, h.run, performers_alone h, stallWord]

/-! Destination forms. -/

theorem setW_each {m : Mach} {r : Running} (h : m.curRun = some r) (g : Guard) (n : Nat) (f : Thread → Word) :
    setW m g false (.w n) f = lanes m r g (fun t => t.wr n (f t)) := by
  simp [setW, vecWord_eq h]

theorem setW_leader {m : Mach} {r : Running} {l : Thread} {g : Guard} (h : m.curRun = some r) (hl : leader m g = some l)
    (n : Nat) (f : Thread → Word) : setW m g true (.w n) f = lanes m r g (fun t => t.wr n (f l)) := by
  simp [setW, vecWord_eq h, hl]

theorem setW_uniform {m : Mach} {r : Running} {l : Thread} {g : Guard} (h : m.curRun = some r) (hl : leader m g = some l)
    (n : Nat) (f : Thread → Word) : setW m g true (.k n) f = { m with groups := m.groups.map (fun x =>
      if x.gid == r.gid then { x with k := kput x.k n (f l) } else x) } := by
  simp [setW, hl, putK, h, Mach.updGroup]

theorem setD_each {m : Mach} {r : Running} (h : m.curRun = some r) (g : Guard) (n : Nat) (f : Thread → DWord) :
    setD m g false (.w n) f = lanes m r g (fun t => t.wrD n (f t)) := by
  simp [setD, vecWord_eq h]

theorem setD_leader {m : Mach} {r : Running} {l : Thread} {g : Guard} (h : m.curRun = some r) (hl : leader m g = some l)
    (n : Nat) (f : Thread → DWord) : setD m g true (.w n) f = lanes m r g (fun t => t.wrD n (f l)) := by
  simp [setD, vecWord_eq h, hl]

theorem setP_each {m : Mach} {r : Running} (h : m.curRun = some r) (g : Guard) (p : Nat) (f : Thread → Bool) :
    setP m g false p f = lanes m r g (fun t => t.wrP p (f t)) := by
  simp [setP, vecWord_eq h]

theorem setP_leader {m : Mach} {r : Running} {l : Thread} {g : Guard} (h : m.curRun = some r) (hl : leader m g = some l)
    (p : Nat) (f : Thread → Bool) : setP m g true p f = lanes m r g (fun t => t.wrP p (f l)) := by
  simp [setP, vecWord_eq h, hl]

theorem setF_each {m : Mach} {r : Running} (h : m.curRun = some r) (g : Guard) (n : Nat) (f : Thread → Word × Nat) :
    setF m g false (.w n) f = lanes m r g (fun t =>
      Thread.arithTrap r ((t.wr n (f t).1).setFlags (f t).2) (.w n) 0 (f t).1 (f t).2) := by
  simp [setF, h, vecWord_eq h, fpPut]

theorem setF_leader {m : Mach} {r : Running} {l : Thread} {g : Guard} (h : m.curRun = some r) (hl : leader m g = some l)
    (n : Nat) (f : Thread → Word × Nat) : setF m g true (.w n) f = lanes m r g (fun t =>
      Thread.arithTrap r ((t.wr n (f l).1).setFlags (f l).2) (.w n) 0 (f l).1 (f l).2) := by
  simp [setF, h, hl, vecWord_eq h, fpPut]

theorem setF_uniform {m : Mach} {r : Running} {l : Thread} {g : Guard} (h : m.curRun = some r) (hl : leader m g = some l)
    (n : Nat) (f : Thread → Word × Nat) : setF m g true (.k n) f = { m with
      groups := m.groups.map (fun x => if x.gid == r.gid then { x with k := kput x.k n (f l).1 } else x)
      threads := m.threads.map (fun t => if t.gid == l.gid && t.tix == l.tix then
        Thread.arithTrap r (t.setFlags (f l).2) (.k n) 0 (f l).1 (f l).2 else t) } := by
  simp [setF, h, hl, putK, Mach.updGroup, Mach.updThread]

theorem setFD_eq {m : Mach} {r : Running} (h : m.curRun = some r) (g : Guard) (n : Nat) (f : Thread → DWord × Nat) :
    setFD m g n f = lanes m r g (fun t =>
      Thread.arithTrap r ((t.wrD n (f t).1).setFlags (f t).2) (.pair n) 0 (hiW (f t).1) (f t).2) := by
  simp [setFD, h, vecWord_eq h]

/-! From a meaning that sets a result to the claim about it. -/

theorem writes32 {i : Instr} {g : Guard} {u : Bool} {d : Src} {f : Mach → Thread → Word}
    (h : ∀ s, exec i s = .next (s.onMach (fun m => setW m g u d (f m)))) : Writes32 i g u d f := by
  refine ⟨?_, ?_, ?_⟩
  · rintro n rfl rfl s r hr; simp [h, State.onMach, setW_each hr]
  · rintro n rfl rfl s r l hr hl; simp [h, State.onMach, setW_leader hr hl]
  · rintro n rfl rfl s r l hr hl; simp [h, State.onMach, setW_uniform hr hl]

theorem writes64 {i : Instr} {g : Guard} {u : Bool} {d : Src} {f : Mach → Thread → DWord}
    (h : ∀ s, exec i s = .next (s.onMach (fun m => setD m g u d (f m)))) : Writes64 i g u d f := by
  refine ⟨?_, ?_⟩
  · rintro n rfl rfl s r hr; simp [h, State.onMach, setD_each hr]
  · rintro n rfl rfl s r l hr hl; simp [h, State.onMach, setD_leader hr hl]

theorem writesPred {i : Instr} {g : Guard} {u : Bool} {p : Nat} {f : Mach → Thread → Bool}
    (h : ∀ s, exec i s = .next (s.onMach (fun m => setP m g u p (f m)))) : WritesPred i g u p f := by
  refine ⟨?_, ?_⟩
  · rintro rfl s r hr; simp [h, State.onMach, setP_each hr]
  · rintro rfl s r l hr hl; simp [h, State.onMach, setP_leader hr hl]

theorem writesFlt {i : Instr} {g : Guard} {u : Bool} {d : Src} {f : Mach → Thread → Word × Nat}
    (h : ∀ s, exec i s = .next (s.onMach (fun m => setF m g u d (f m)))) : WritesFlt i g u d f := by
  refine ⟨?_, ?_, ?_⟩
  · rintro n rfl rfl s r hr; simp [h, State.onMach, setF_each hr]
  · rintro n rfl rfl s r l hr hl; simp [h, State.onMach, setF_leader hr hl]
  · rintro n rfl rfl s r l hr hl; simp [h, State.onMach, setF_uniform hr hl]

theorem writesFltPair {i : Instr} {g : Guard} {n : Nat} {f : Mach → Thread → DWord × Nat}
    (h : ∀ s, exec i s = .next (s.onMach (fun m => setFD m g n (f m)))) : WritesFltPair i g n f := by
  intro s r hr; simp [h, State.onMach, setFD_eq hr]

theorem eachThread {i : Instr} {g : Guard} {f : Mach → Thread → Thread}
    (h : ∀ s, exec i s = .next (s.onMach (fun m => vecWord m g (f m)))) : EachThread i g (fun m _ t => f m t) := by
  intro s r hr; simp [h, State.onMach, vecWord_eq hr]

/-- A two-source word whose meaning is `alu3` with values equal to `f`. -/
theorem computes32 {i : R3 → Instr} {v : Word → Word → Word} {w : DWord → DWord → DWord} {f : Word → Word → Word}
    (h : ∀ x s, exec (i x) s = .next (s.onMach (fun m => alu3 m x v w))) (e : ∀ a b, v a b = f a b) :
    Computes32 i f := by
  intro x hd
  exact writes32 (fun s => by simp [h, alu3, hd, e])

theorem computes64 {i : R3 → Instr} {v : Word → Word → Word} {w f : DWord → DWord → DWord}
    (h : ∀ x s, exec (i x) s = .next (s.onMach (fun m => alu3 m x v w))) (e : ∀ a b, w a b = f a b) :
    Computes64 i f := by
  intro x hd
  exact writes64 (fun s => by simp [h, alu3, hd, e])

theorem computes1 {i : R2 → Instr} {v f : Word → Word}
    (h : ∀ x s, exec (i x) s = .next (s.onMach (fun m => alu2 m x v))) (e : ∀ a, v a = f a) : Computes1 i f := by
  intro x
  exact writes32 (fun s => by simp [h, alu2, e])

/-! A thread that leaves its pack. -/

theorem creditWord_left {m : Mach} {r : Running} {t u : Thread} (h : m.thread? t.gid t.tix = some u)
    (hu : u.stat ≠ .issuing) (hw : ∀ w, u.stat ≠ .waiting w) (cause len : Nat) : creditWord m r t cause len = m := by
  unfold creditWord
  rw [h]
  cases hs : u.stat <;> simp_all

theorem thread?_withThread {m : Mach} {t : Thread} (h : m.thread? t.gid t.tix = some t) (f : Thread → Thread)
    (hg : (f t).gid = t.gid) (ht : (f t).tix = t.tix) :
    (withThread m t f).thread? t.gid t.tix = some (f t) := by
  unfold Mach.thread? withThread at *
  revert h
  induction m.threads with
  | nil => simp
  | cons x l ih =>
    intro h
    rw [List.find?_cons] at h
    rw [List.map_cons, List.find?_cons]
    by_cases hx : (x.gid == t.gid && x.tix == t.tix) = true
    · rw [hx] at h
      simp only [Option.some.injEq] at h
      subst h
      simp [hx, hg, ht]
    · have hx2 : (x.gid == t.gid && x.tix == t.tix) = false := by simpa using hx
      rw [hx2] at h
      simp only [hx2]
      simp only [Bool.false_eq_true, if_false, hx2]
      exact ih h

end Sys2Proof.Machine
end

