-- ==== Sys2Proof/Laws/Round.lean ====
section
/-!
SUPPORT. The rounding of the model is the rounding of R79: exact values over the rationals, the grid of codes, and
what rounding a magnitude gives.
-/

namespace Sys2Proof.Machine.Round

open Sys2Proof


/-- the magnitude of a code -/
noncomputable def g (f : Fmt) (c : Nat) : ℝ :=
  if c / 2 ^ (f.p - 1) = 0 then (c % 2 ^ (f.p - 1) : Nat) * 2 ^ f.umin
  else ((c % 2 ^ (f.p - 1) + 2 ^ (f.p - 1) : Nat) : ℝ) * 2 ^ (f.umin + (c / 2 ^ (f.p - 1) - 1 : Nat))

theorem g_norm (f : Fmt) (hp : 2 ≤ f.p) (k q : Nat) (hq : q ≤ 2 ^ f.p) (h : k = 0 ∨ 2 ^ (f.p - 1) ≤ q) :
    g f (k * 2 ^ (f.p - 1) + q) = q * 2 ^ (f.umin + k) := by
  have h2 : 2 ^ f.p = 2 * 2 ^ (f.p - 1) := by
    conv_lhs => rw [show f.p = (f.p - 1) + 1 by omega]
    rw [pow_succ]; ring
  have hP : 0 < 2 ^ (f.p - 1) := by positivity
  set P := 2 ^ (f.p - 1) with hPd
  have key : ∀ k q : Nat, q < P → (k * P + q) / P = k ∧ (k * P + q) % P = q := by
    intro k q hq
    constructor
    · rw [mul_comm, Nat.mul_add_div hP, Nat.div_eq_of_lt hq, add_zero]
    · rw [mul_comm, Nat.mul_add_mod, Nat.mod_eq_of_lt hq]
  unfold g
  rw [← hPd]
  rcases lt_trichotomy q P with hlt | heq | hgt
  · have hk : k = 0 := by rcases h with h | h; exact h; omega
    obtain ⟨a, b⟩ := key k q hlt
    rw [a, b, hk]
    simp
  · obtain ⟨a, b⟩ := key (k + 1) 0 hP
    have e : k * P + q = (k + 1) * P + 0 := by rw [heq]; ring
    rw [e, a, b]
    simp [heq]
  · rcases Nat.lt_or_ge q (2 * P) with hq2 | hq2
    · obtain ⟨a, b⟩ := key (k + 1) (q - P) (by omega)
      have e : k * P + q = (k + 1) * P + (q - P) := by
        have : (k + 1) * P = k * P + P := by ring
        omega
      rw [e, a, b]
      have : q - P + P = q := by omega
      simp [this]
    · obtain ⟨a, b⟩ := key (k + 2) 0 hP
      have hq3 : q = 2 * P := by omega
      have e : k * P + q = (k + 2) * P + 0 := by rw [hq3]; ring
      rw [e, a, b]
      have : (2:ℝ) ^ (f.umin + ((k + 2 - 1 : Nat) : Int)) = 2 * 2 ^ (f.umin + (k:Int)) := by
        rw [show f.umin + ((k + 2 - 1 : Nat) : Int) = 1 + (f.umin + (k:Int)) by omega, zpow_add₀ (by norm_num)]; simp
      simp [hq3] at *
      rw [this]; ring

theorem g_split (f : Fmt) (hp : 2 ≤ f.p) (c : Nat) : ∃ k q, c = k * 2 ^ (f.p - 1) + q ∧ q < 2 ^ f.p ∧ (k = 0 ∨ 2 ^ (f.p - 1) ≤ q) := by
  have h2 : 2 ^ f.p = 2 * 2 ^ (f.p - 1) := by
    conv_lhs => rw [show f.p = (f.p - 1) + 1 by omega]
    rw [pow_succ]; ring
  have hP : 0 < 2 ^ (f.p - 1) := by positivity
  set P := 2 ^ (f.p - 1)
  have hd := Nat.div_add_mod c P
  have hm := Nat.mod_lt c hP
  rcases Nat.eq_zero_or_pos (c / P) with h | h
  · exact ⟨0, c, by simp, by rw [h] at hd; omega, .inl rfl⟩
  · refine ⟨c / P - 1, P + c % P, ?_, by omega, .inr (by omega)⟩
    obtain ⟨j, hj⟩ : ∃ j, c / P = j + 1 := ⟨c / P - 1, by omega⟩
    rw [hj] at hd ⊢
    simp
    nlinarith

theorem g_mono (f : Fmt) (hp : 2 ≤ f.p) : StrictMono (g f) := by
  refine strictMono_nat_of_lt_succ (fun c => ?_)
  obtain ⟨k, q, rfl, hq, h⟩ := g_split f hp c
  rw [add_assoc, g_norm f hp k q hq.le h, g_norm f hp k (q + 1) hq (by rcases h with h | h; exact .inl h; right; omega)]
  have : (0:ℝ) < 2 ^ (f.umin + (k:Int)) := by positivity
  push_cast
  nlinarith

theorem g_nonneg (f : Fmt) (c : Nat) : 0 ≤ g f c := by
  unfold g; split <;> positivity


theorem pow_p (f : Fmt) (hp : 2 ≤ f.p) : 2 ^ f.p = 2 * 2 ^ (f.p - 1) := by
  conv_lhs => rw [show f.p = (f.p - 1) + 1 by omega]
  rw [pow_succ]; ring

theorem signW_eq (f : Fmt) (hp : 2 ≤ f.p) : f.signW = 2 ^ f.eb * 2 ^ (f.p - 1) := by
  rw [Fmt.signW, show f.eb + f.p - 1 = f.eb + (f.p - 1) by omega, pow_add]

/-- decode of a magnitude below infinity -/
theorem dec_fin (f : Fmt) (hp : 2 ≤ f.p) (heb : 2 ≤ f.eb) (neg : Bool) (c : Nat) (hc : c < f.infCode) :
    finite (decodeF f ((if neg then f.signW else 0) + c)) = true ∧
    (decodeF f ((if neg then f.signW else 0) + c)).sign = neg ∧
    (numOf (decodeF f ((if neg then f.signW else 0) + c)) : ℝ) = (if neg then -1 else 1) * g f c := by
  have hE : 1 < 2 ^ f.eb := Nat.one_lt_two_pow (by omega)
  have hP : 0 < 2 ^ (f.p - 1) := by positivity
  have hs := signW_eq f hp
  unfold Fmt.infCode at hc
  have hcs : c < f.signW := by
    rw [hs]; exact lt_of_lt_of_le hc (Nat.mul_le_mul_right _ (by omega))
  have h1 : ((if neg then f.signW else 0) + c) / f.signW % 2 = if neg then 1 else 0 := by
    cases neg
    · simp [Nat.div_eq_of_lt hcs]
    · simp; rw [Nat.add_div_left _ (by omega), Nat.div_eq_of_lt hcs]
  have h2 : ((if neg then f.signW else 0) + c) % f.signW = c := by
    cases neg <;> simp [Nat.mod_eq_of_lt hcs]
  have h3 : c / 2 ^ (f.p - 1) < 2 ^ f.eb - 1 := Nat.div_lt_of_lt_mul (by rw [mul_comm]; exact hc)
  have h4 : c / 2 ^ (f.p - 1) ≠ 2 ^ f.eb - 1 := by omega
  unfold decodeF g
  rw [h1, h2]
  simp only [h4, if_false]
  by_cases h5 : c / 2 ^ (f.p - 1) = 0
  · cases neg <;> simp [h5, finite, FVal.sign, numOf]
  · simp only [h5, if_false]
    cases neg <;> simp [finite, FVal.sign, numOf] <;> ring

theorem fin_dec (f : Fmt) (hp : 2 ≤ f.p) (heb : 2 ≤ f.eb) (d : Nat) (h : finite (decodeF f d) = true) :
    ∃ (neg : Bool) (c : Nat), c < f.infCode ∧ c % 2 = d % 2 ∧ (numOf (decodeF f d) : ℝ) = (if neg then -1 else 1) * g f c := by
  have hs := signW_eq f hp
  have hE : 1 < 2 ^ f.eb := Nat.one_lt_two_pow (by omega)
  have hP : 0 < 2 ^ (f.p - 1) := by positivity
  have hsp : 0 < f.signW := by rw [hs]; positivity
  have hm := Nat.mod_lt d hsp
  set c := d % f.signW with hcd
  have hx : c / 2 ^ (f.p - 1) < 2 ^ f.eb := Nat.div_lt_of_lt_mul (by rw [mul_comm, ← hs]; exact hm)
  have hne : c / 2 ^ (f.p - 1) ≠ 2 ^ f.eb - 1 := by
    intro e
    unfold decodeF at h
    rw [← hcd] at h
    simp only [e, if_true] at h
    split at h <;> simp [finite] at h
  have hc : c < f.infCode := by
    unfold Fmt.infCode
    have := Nat.div_add_mod c (2 ^ (f.p - 1))
    have hm2 := Nat.mod_lt c hP
    have : c < (c / 2 ^ (f.p - 1) + 1) * 2 ^ (f.p - 1) := by nlinarith
    exact lt_of_lt_of_le this (Nat.mul_le_mul_right _ (by omega))
  refine ⟨d / f.signW % 2 == 1, c, hc, ?_, ?_⟩
  · rw [hcd]
    have : 2 ∣ f.signW := by rw [Fmt.signW]; exact dvd_pow_self 2 (by omega)
    exact Nat.mod_mod_of_dvd d this
  · unfold decodeF g
    rw [← hcd]
    simp only [hne, if_false]
    by_cases h5 : c / 2 ^ (f.p - 1) = 0
    · simp only [h5, if_true, numOf]; push_cast; split <;> simp
    · simp only [h5, if_false, numOf]; push_cast; split <;> simp <;> ring

/-- the rounding of a real to a natural -/
noncomputable def rnat (rnd : Rnd) (neg : Bool) (z : ℝ) : ℕ :=
  match rnd, neg with
  | .ne, _ => if 1 / 2 < z - ⌊z⌋₊ ∨ z - ⌊z⌋₊ = 1 / 2 ∧ ⌊z⌋₊ % 2 = 1 then ⌊z⌋₊ + 1 else ⌊z⌋₊
  | .rz, _ | .rp, true | .rm, false => ⌊z⌋₊
  | .rp, false | .rm, true => if z = ⌊z⌋₊ then ⌊z⌋₊ else ⌊z⌋₊ + 1

theorem roundAt_spec (rnd : Rnd) (neg : Bool) (m : Nat) (e u : Int) (st : Bool) (y : ℝ)
    (h1 : m * (2:ℝ) ^ e ≤ y) (h2 : y < (m + 1) * (2:ℝ) ^ e) (hst : st = true ↔ y ≠ m * (2:ℝ) ^ e) (hu : st = true → e < u) :
    (roundAt rnd neg m e u st).1 = rnat rnd neg (y / 2 ^ u) ∧
    ((roundAt rnd neg m e u st).2 = true ↔ y / 2 ^ u ≠ ⌊y / (2:ℝ) ^ u⌋₊) := by
  by_cases hle : u ≤ e
  · have hs : st = false := by cases st <;> simp_all; omega
    have hy : y = m * (2:ℝ) ^ e := by by_contra hc; simp [hs] at hst; exact hc hst
    have hz : y / 2 ^ u = ((m * 2 ^ (e - u).toNat : ℕ) : ℝ) := by
      rw [hy, mul_div_assoc, ← zpow_sub₀ (by norm_num)]
      push_cast
      congr 1
      rw [← zpow_natCast]; congr 1; omega
    simp only [roundAt, hle, if_true, hz, hs]
    generalize m * 2 ^ (e - u).toNat = j
    unfold rnat
    refine ⟨?_, by simp⟩
    cases rnd <;> cases neg <;> simp

  · have hlt : e < u := by omega
    set d := 2 ^ (u - e).toNat with hd
    have hd0 : 0 < d := by positivity
    have hde : ∃ k, d = 2 * k := ⟨2 ^ ((u - e).toNat - 1), by
      rw [hd]; conv_lhs => rw [show (u - e).toNat = ((u - e).toNat - 1) + 1 by omega]
      rw [pow_succ]; ring⟩
    have hdr : (d : ℝ) = 2 ^ u / 2 ^ e := by
      rw [← zpow_sub₀ (by norm_num), hd]; push_cast; rw [← zpow_natCast]; congr 1; omega
    have pe : (0:ℝ) < 2 ^ e := by positivity
    have pu : (0:ℝ) < 2 ^ u := by positivity
    obtain ⟨δ, hδ⟩ : ∃ δ, δ = y / 2 ^ e - m := ⟨_, rfl⟩
    have hδ0 : 0 ≤ δ := by rw [hδ, sub_nonneg, le_div_iff₀ pe]; exact h1
    have hδ1 : δ < 1 := by rw [hδ, sub_lt_iff_lt_add, div_lt_iff₀ pe, add_comm]; exact h2
    have hδs : st = true ↔ δ ≠ 0 := by
      rw [hst, hδ, ne_eq, ne_eq, sub_eq_zero, div_eq_iff pe.ne']
    have hdm := Nat.div_add_mod m d
    have hmod := Nat.mod_lt m hd0
    set q := m / d
    set r := m % d
    have hz : y / 2 ^ u = q + (r + δ) / d := by
      have : y = (m + δ) * 2 ^ e := by rw [hδ]; field_simp; ring
      rw [this, hdr, ← hdm]; push_cast; rw [hdr]; field_simp; ring
    have hdp : (0:ℝ) < d := by exact_mod_cast hd0
    have hr1 : (r:ℝ) + 1 ≤ d := by exact_mod_cast hmod
    have hf0 : 0 ≤ (r + δ) / (d:ℝ) := by positivity
    have hf1 : (r + δ) / (d:ℝ) < 1 := by rw [div_lt_one hdp]; linarith
    have hfl : ⌊y / (2:ℝ) ^ u⌋₊ = q := by
      rw [hz, Nat.floor_eq_iff (by positivity)]; constructor <;> linarith
    have hex : y / 2 ^ u = q ↔ r = 0 ∧ st = false := by
      rw [hz, add_eq_left, div_eq_zero_iff]
      have : st = false ↔ δ = 0 := by
        have := hδs; cases st <;> simp_all
      rw [this]
      constructor
      · rintro (h | h)
        · have : (r:ℝ) = 0 := by have : (0:ℝ) ≤ r := by positivity
                                 linarith
          exact ⟨by exact_mod_cast this, by linarith⟩
        · exact absurd h hdp.ne'
      · rintro ⟨h, h'⟩; left; simp [h, h']
    have hnx : ((r != 0 || st) = true) ↔ y / 2 ^ u ≠ q := by
      rw [ne_eq, hex]; cases st <;> simp
    simp only [roundAt, show ¬ u ≤ e by omega, if_false]
    rw [hfl]
    refine ⟨?_, hnx⟩
    unfold rnat
    rw [hfl]
    have hup : (1 / 2 < y / 2 ^ u - q ↔ d < 2 * r ∨ 2 * r = d ∧ st = true) ∧
        (y / 2 ^ u - q = 1 / 2 ↔ 2 * r = d ∧ st = false) := by
      have e1 : y / 2 ^ u - q = (r + δ) / d := by rw [hz]; ring
      rw [e1]
      obtain ⟨k, hk⟩ := hde
      have hkr : (d:ℝ) = 2 * k := by rw [hk]; push_cast; ring
      rw [lt_div_iff₀ hdp, div_eq_iff hdp.ne', hkr]
      have c1 : ∀ a b : ℕ, (a:ℝ) < b → (a:ℝ) + 1 ≤ b := by intro a b h; exact_mod_cast h
      rcases lt_trichotomy r k with h | h | h
      · have := c1 r k (by exact_mod_cast h)
        constructor
        · constructor
          · intro h'; linarith
          · intro h'; omega
        · constructor
          · intro h'; linarith
          · intro h'; omega
      · have hr : (r:ℝ) = k := by exact_mod_cast h
        have hb : (st = false) ↔ δ = 0 := by cases st <;> simp_all
        constructor
        · constructor
          · intro h'; right; exact ⟨by omega, hδs.2 (by intro h0; rw [h0] at h'; linarith)⟩
          · rintro (h' | ⟨-, h'⟩)
            · omega
            · have := hδs.1 h'; have : 0 < δ := lt_of_le_of_ne hδ0 (Ne.symm this); linarith
        · rw [hb]; constructor
          · intro h'; exact ⟨by omega, by linarith⟩
          · rintro ⟨-, h'⟩; rw [h', hr]; ring
      · have := c1 k r (by exact_mod_cast h)
        constructor
        · constructor
          · intro h'; left; omega
          · intro h'; linarith
        · constructor
          · intro h'; linarith
          · rintro ⟨h', -⟩; omega
    have ne_case : ∀ neg, (if roundUp .ne neg (q % 2 == 1) r d st = true then q + 1 else q) =
        if 1 / 2 < y / 2 ^ u - q ∨ y / 2 ^ u - q = 1 / 2 ∧ q % 2 = 1 then q + 1 else q := by
      intro neg
      apply if_congr _ rfl rfl
      rw [hup.1, hup.2]
      simp only [roundUp, Bool.or_eq_true, Bool.and_eq_true, decide_eq_true_eq, beq_iff_eq]
      cases st <;> simp <;> tauto
    have away : (if (r != 0 || st) = true then q + 1 else q) = if y / 2 ^ u = (q:ℝ) then q else q + 1 := by
      by_cases hh : y / 2 ^ u = (q:ℝ)
      · rw [if_pos hh, if_neg (by rw [hnx]; exact not_not.2 hh)]
      · rw [if_neg hh, if_pos (hnx.2 hh)]
    change (if roundUp rnd neg (q % 2 == 1) r d st = true then q + 1 else q) = _
    cases rnd <;> cases neg
    · exact ne_case _
    · exact ne_case _
    · rfl
    · rfl
    · exact away
    · rfl
    · rfl
    · exact away


/-- the grid around y -/
structure Grid (f : Fmt) (y : ℝ) (u : Int) (k q : Nat) : Prop where
  hu : u = f.umin + k
  hq : q = ⌊y / (2:ℝ) ^ u⌋₊
  hlt : q < 2 ^ f.p
  hk : k = 0 ∨ 2 ^ (f.p - 1) ≤ q

theorem grid_bounds {f : Fmt} (hp : 2 ≤ f.p) {y : ℝ} (hy : 0 < y) {u k q} (h : Grid f y u k q) :
    g f (k * 2 ^ (f.p - 1) + q) = q * 2 ^ u ∧ g f (k * 2 ^ (f.p - 1) + q + 1) = (q + 1) * 2 ^ u ∧
    q * (2:ℝ) ^ u ≤ y ∧ y < (q + 1) * 2 ^ u ∧
    (∀ c, g f c ≤ q * 2 ^ u ∨ (q + 1) * 2 ^ u ≤ g f c) := by
  have pu : (0:ℝ) < 2 ^ u := by positivity
  have a := g_norm f hp k q h.hlt.le h.hk
  have b := g_norm f hp k (q + 1) h.hlt (by rcases h.hk with h | h; exact .inl h; right; omega)
  rw [← h.hu] at a b
  rw [← add_assoc] at b
  push_cast at b
  have hz : 0 ≤ y / (2:ℝ) ^ u := by positivity
  refine ⟨a, b, ?_, ?_, ?_⟩
  · rw [← le_div_iff₀ pu, h.hq]; exact Nat.floor_le hz
  · rw [← div_lt_iff₀ pu, h.hq]; exact Nat.lt_floor_add_one _
  · intro c
    rcases Nat.lt_or_ge (k * 2 ^ (f.p - 1) + q) c with hc | hc
    · right; rw [← b]; exact (g_mono f hp).monotone hc
    · left; rw [← a]; exact (g_mono f hp).monotone hc

theorem even_code (f : Fmt) (hp : 2 ≤ f.p) (k n : Nat) : (k * 2 ^ (f.p - 1) + n) % 2 = n % 2 := by
  rw [show f.p - 1 = (f.p - 2) + 1 by omega, pow_succ, ← mul_assoc]
  omega

/-- the code picked -/
noncomputable def pick (f : Fmt) (rnd : Rnd) (neg : Bool) (y : ℝ) (u : Int) (k : Nat) : Nat :=
  k * 2 ^ (f.p - 1) + rnat rnd neg (y / 2 ^ u)

theorem pick_cases {f : Fmt} {y : ℝ} {u k q} (h : Grid f y u k q) (rnd : Rnd) (neg : Bool) :
    pick f rnd neg y u k = k * 2 ^ (f.p - 1) + q ∨ pick f rnd neg y u k = k * 2 ^ (f.p - 1) + q + 1 := by
  have : ∀ P : Prop, ∀ [Decidable P], (if P then q + 1 else q) = q ∨ (if P then q + 1 else q) = q + 1 := by
    intro P _; split <;> simp
  have : rnat rnd neg (y / 2 ^ u) = q ∨ rnat rnd neg (y / 2 ^ u) = q + 1 := by
    unfold rnat
    rw [← h.hq]
    cases rnd <;> cases neg <;> first | exact this _ | exact .inl rfl | (simp only []; split <;> simp)
  unfold pick
  rcases this with h | h <;> rw [h]
  · exact .inl rfl
  · exact .inr (by rw [add_assoc])

theorem pick_exact {f : Fmt} (hp : 2 ≤ f.p) {y : ℝ} (hy : 0 < y) {u k q} (h : Grid f y u k q) (rnd : Rnd) (neg : Bool) :
    g f (pick f rnd neg y u k) = y ↔ y / 2 ^ u = q := by
  have pu : (0:ℝ) < 2 ^ u := by positivity
  obtain ⟨a, b, c, d, -⟩ := grid_bounds hp hy h
  rw [div_eq_iff pu.ne']
  constructor
  · intro e
    rcases pick_cases h rnd neg with hc | hc <;> rw [hc] at e
    · rw [← e, a]
    · rw [b] at e; linarith
  · intro e
    have : y / 2 ^ u = q := by rw [div_eq_iff pu.ne']; exact e
    have hc : pick f rnd neg y u k = k * 2 ^ (f.p - 1) + q := by
      unfold pick rnat
      rw [← h.hq, this]
      cases rnd <;> cases neg <;> simp <;> norm_num
    rw [hc, a, e]

theorem pick_ne {f : Fmt} (hp : 2 ≤ f.p) {y : ℝ} (hy : 0 < y) {u k q} (h : Grid f y u k q) (neg : Bool) (c' : Nat) :
    |g f (pick f .ne neg y u k) - y| ≤ |g f c' - y| ∧
    (|g f (pick f .ne neg y u k) - y| = |g f c' - y| → g f c' = g f (pick f .ne neg y u k) ∨ pick f .ne neg y u k % 2 = 0) := by
  have pu : (0:ℝ) < 2 ^ u := by positivity
  obtain ⟨a, b, c, d, e⟩ := grid_bounds hp hy h
  obtain ⟨z, hz⟩ : ∃ z, z = y / (2:ℝ) ^ u := ⟨_, rfl⟩
  have hy2 : y = z * 2 ^ u := by rw [hz]; field_simp
  set w := (2:ℝ) ^ u
  have c1 : (q:ℝ) ≤ z := by rw [hy2] at c; exact le_of_mul_le_mul_right c pu
  have d1 : z < q + 1 := by rw [hy2] at d; exact lt_of_mul_lt_mul_right d pu.le
  have dist : (g f c' ≤ q * w ∧ |g f c' - y| = y - g f c') ∨ ((q + 1) * w ≤ g f c' ∧ |g f c' - y| = g f c' - y) := by
    rcases e c' with e | e
    · left; exact ⟨e, by rw [abs_sub_comm]; exact abs_of_nonneg (by linarith)⟩
    · right; exact ⟨e, abs_of_nonneg (by linarith)⟩
  by_cases hup : 1 / 2 < z - q ∨ z - q = 1 / 2 ∧ q % 2 = 1
  · have hc : pick f .ne neg y u k = k * 2 ^ (f.p - 1) + q + 1 := by
      unfold pick rnat
      rw [← h.hq, ← hz, if_pos hup, add_assoc]
    rw [hc, b]
    have hd : |(q + 1) * w - y| = (q + 1) * w - y := abs_of_nonneg (by linarith)
    rw [hd]
    have hz2 : 1 / 2 ≤ z - q := by rcases hup with h | h; exact h.le; exact h.1.ge
    rcases dist with ⟨e1, e2⟩ | ⟨e1, e2⟩ <;> rw [e2]
    · constructor
      · rw [hy2]; rw [hy2] at e2; nlinarith
      · intro e3
        right
        rw [add_assoc, even_code f hp]
        rcases hup with h | h
        · exfalso; rw [hy2] at e3; nlinarith
        · omega
    · constructor
      · linarith
      · intro e3; left; linarith
  · have hc : pick f .ne neg y u k = k * 2 ^ (f.p - 1) + q := by
      unfold pick rnat
      rw [← h.hq, ← hz, if_neg hup]
    rw [hc, a]
    have hd : |q * w - y| = y - q * w := by rw [abs_sub_comm]; exact abs_of_nonneg (by linarith)
    rw [hd]
    rw [not_or, not_lt] at hup
    rcases dist with ⟨e1, e2⟩ | ⟨e1, e2⟩ <;> rw [e2]
    · constructor
      · linarith
      · intro e3; left; linarith
    · constructor
      · rw [hy2]; nlinarith
      · intro e3
        right
        rw [even_code f hp]
        have : z - q = 1 / 2 := by
          rw [hy2] at e3
          have h1 := hup.1
          have : (q + 1 - z) * w ≤ (z - q) * w := by nlinarith
          have := le_of_mul_le_mul_right this pu
          linarith
        have := not_and.1 hup.2 this
        omega

theorem pick_down {f : Fmt} (hp : 2 ≤ f.p) {y : ℝ} (hy : 0 < y) {u k q} (h : Grid f y u k q) {rnd neg}
    (hr : rnat rnd neg (y / 2 ^ u) = q) :
    g f (pick f rnd neg y u k) ≤ y ∧ ∀ c', g f c' ≤ y → g f c' ≤ g f (pick f rnd neg y u k) := by
  obtain ⟨a, b, c, d, e⟩ := grid_bounds hp hy h
  unfold pick
  rw [hr, a]
  refine ⟨c, fun c' hc => ?_⟩
  rcases e c' with e | e
  · exact e
  · linarith

theorem pick_away {f : Fmt} (hp : 2 ≤ f.p) {y : ℝ} (hy : 0 < y) {u k q} (h : Grid f y u k q) {rnd neg}
    (hr : rnat rnd neg (y / 2 ^ u) = if y / 2 ^ u = (q:ℝ) then q else q + 1) :
    y ≤ g f (pick f rnd neg y u k) ∧ ∀ c', y ≤ g f c' → g f (pick f rnd neg y u k) ≤ g f c' := by
  have pu : (0:ℝ) < 2 ^ u := by positivity
  obtain ⟨a, b, c, d, e⟩ := grid_bounds hp hy h
  by_cases hx : y / 2 ^ u = (q:ℝ)
  · have := (pick_exact hp hy h rnd neg).2 hx
    rw [this]
    exact ⟨le_refl _, fun c' hc => hc⟩
  · rw [if_neg hx] at hr
    rw [div_eq_iff pu.ne'] at hx
    unfold pick
    rw [hr, ← add_assoc, b]
    refine ⟨d.le, fun c' hc => ?_⟩
    rcases e c' with e | e
    · exfalso; exact hx (le_antisymm (by linarith) c)
    · exact e


theorem rnat_reach (f : Fmt) (hp : 2 ≤ f.p) (rnd : Rnd) (neg : Bool) (y : ℝ) (w : ℝ) (u : Int) (hw : w = 2 ^ u) (hy : 0 < y)
    (h : y < 2 ^ f.p * w) : rnat rnd neg (y / 2 ^ u) = 2 ^ f.p ↔ Reaches f rnd neg y w := by
  have pw : 0 < w := by rw [hw]; positivity
  rw [← hw]
  obtain ⟨z, hz⟩ : ∃ z, z = y / w := ⟨_, rfl⟩
  have hy2 : y = z * w := by rw [hz]; field_simp
  have z0 : 0 < z := by rw [hz]; positivity
  have hz1 : z < 2 ^ f.p := by rw [hy2] at h; exact lt_of_mul_lt_mul_right h pw.le
  rw [← hz]
  have hq0 := Nat.floor_le z0.le
  have hq1 := Nat.lt_floor_add_one z
  have hq2 : ⌊z⌋₊ < 2 ^ f.p := by rw [Nat.floor_lt z0.le]; exact_mod_cast hz1
  set q := ⌊z⌋₊ with hq
  have c1 : q + 1 = 2 ^ f.p ↔ (2:ℝ) ^ f.p - 1 ≤ z := by
    constructor
    · intro e; have : (q:ℝ) + 1 = 2 ^ f.p := by exact_mod_cast e
      linarith
    · intro e
      have : 2 ^ f.p ≤ q + 1 := by
        have : ((2:ℝ) ^ f.p - 1) < q + 1 := by linarith
        have : ((2 ^ f.p : ℕ) : ℝ) < ((q + 2 : ℕ) : ℝ) := by push_cast; linarith
        have := Nat.cast_lt.1 this
        omega
      omega
  have ev : 1 ≤ f.p → (q + 1 = 2 ^ f.p → q % 2 = 1) := by
    intro hp e
    have : 2 ^ f.p = 2 * 2 ^ (f.p - 1) := by
      conv_lhs => rw [show f.p = (f.p - 1) + 1 by omega]
      rw [pow_succ]; ring
    omega
  have ne_case : (if 1 / 2 < z - q ∨ z - q = 1 / 2 ∧ q % 2 = 1 then q + 1 else q) = 2 ^ f.p ↔
      (2 ^ f.p - 1 / 2) * w ≤ y := by
    rw [hy2, mul_le_mul_iff_left₀ pw]
    constructor
    · intro e
      split at e
      · next hc =>
        have : (q:ℝ) + 1 = 2 ^ f.p := by exact_mod_cast e
        rcases hc with hc | hc <;> linarith [hc]
      · omega
    · intro e
      have e1 : q + 1 = 2 ^ f.p := c1.2 (by linarith)
      have : (q:ℝ) + 1 = 2 ^ f.p := by exact_mod_cast e1
      rw [if_pos, e1]
      rcases lt_or_eq_of_le (show 1 / 2 ≤ z - q by linarith) with h | h
      · exact .inl h
      · exact .inr ⟨h.symm, ev (by omega) e1⟩
  have away : (if z = q then q else q + 1) = 2 ^ f.p ↔ (2 ^ f.p - 1) * w < y := by
    rw [hy2, mul_lt_mul_iff_left₀ pw]
    constructor
    · intro e
      split at e
      · omega
      · next hc =>
        have : (q:ℝ) + 1 = 2 ^ f.p := by exact_mod_cast e
        rcases lt_or_eq_of_le hq0 with h | h
        · linarith
        · exact absurd h.symm hc
    · intro e
      have e1 : q + 1 = 2 ^ f.p := c1.2 e.le
      have : (q:ℝ) + 1 = 2 ^ f.p := by exact_mod_cast e1
      rw [if_neg (by intro hc; linarith), e1]
  have down : q = 2 ^ f.p ↔ 2 ^ f.p * w ≤ y := by
    constructor
    · intro e; omega
    · intro e; linarith
  cases rnd <;> cases neg <;> simp only [rnat, Reaches, ← hq]
  · exact ne_case
  · exact ne_case
  · exact down
  · exact down
  · exact away
  · exact down
  · exact down
  · exact away

theorem sgn_dist {a b : ℝ} (ha : 0 ≤ a) (hb : 0 ≤ b) (s n : Bool) :
    |(if s then -1 else 1) * a - (if n then -1 else 1) * b| = if s = n then |a - b| else a + b := by
  cases s <;> cases n <;> simp only [Bool.false_eq_true, if_true, if_false, reduceCtorEq, one_mul, neg_mul]
  · rw [show a - -b = a + b by ring]; exact abs_of_nonneg (add_nonneg ha hb)
  · rw [show -a - b = -(a + b) by ring, abs_neg]; exact abs_of_nonneg (add_nonneg ha hb)
  · rw [show -a - -b = b - a by ring, abs_sub_comm]

set_option maxHeartbeats 1000000 in
theorem rounds (f : Fmt) (hp : 2 ≤ f.p) (heb : 2 ≤ f.eb) (rnd : Rnd) (neg : Bool) (m : Nat) (e : Int) (st : Bool)
    (y x : ℝ) (hx : x = (if neg then -1 else 1) * y) (hm : m ≠ 0)
    (h1 : m * (2:ℝ) ^ e ≤ y) (h2 : y < (m + 1) * (2:ℝ) ^ e) (hst : st = true ↔ y ≠ m * (2:ℝ) ^ e)
    (hb : st = true → 2 ^ (f.p + 1) ≤ m) :
    Rounds f rnd neg x (roundMag f rnd neg m e st).1 (roundMag f rnd neg m e st).2 := by
  have pe : (0:ℝ) < 2 ^ e := by positivity
  have hm1 : (1:ℝ) ≤ m := by exact_mod_cast Nat.one_le_iff_ne_zero.2 hm
  have hy : 0 < y := by nlinarith
  have hax : |x| = y := by rw [hx]; cases neg <;> simp [abs_of_pos hy]
  have hE : 4 ≤ 2 ^ f.eb := by
    calc 4 = 2 ^ 2 := by norm_num
      _ ≤ _ := Nat.pow_le_pow_right (by norm_num) heb
  have hPP := pow_p f hp
  have hP : 0 < 2 ^ (f.p - 1) := by positivity
  -- the leading bit
  obtain ⟨lg, hlg⟩ : ∃ lg, lg = Nat.log2 m := ⟨_, rfl⟩
  have hl1 : 2 ^ lg ≤ m := by rw [hlg]; exact Nat.log2_self_le hm
  have hl2 : m + 1 ≤ 2 ^ (lg + 1) := by rw [hlg]; exact Nat.lt_log2_self
  set u0 := unitOf f.p m e with hu0
  have hu0' : u0 = e + (lg + 1) - f.p := by rw [hu0, unitOf, hlg]; push_cast; ring
  have hy1 : 2 ^ (f.p - 1) * (2:ℝ) ^ u0 ≤ y := by
    have : 2 ^ (f.p - 1) * (2:ℝ) ^ u0 = 2 ^ lg * 2 ^ e := by
      rw [← zpow_natCast, ← zpow_natCast, ← zpow_add₀ (by norm_num), ← zpow_add₀ (by norm_num)]; congr 1; omega
    rw [this]
    have : (2:ℝ) ^ lg ≤ m := by exact_mod_cast hl1
    nlinarith
  have hy2 : y < 2 ^ f.p * (2:ℝ) ^ u0 := by
    have : 2 ^ f.p * (2:ℝ) ^ u0 = 2 ^ (lg + 1) * 2 ^ e := by
      rw [← zpow_natCast, ← zpow_natCast, ← zpow_add₀ (by norm_num), ← zpow_add₀ (by norm_num)]; congr 1; push_cast; omega
    rw [this]
    have : (m:ℝ) + 1 ≤ 2 ^ (lg + 1) := by exact_mod_cast hl2
    nlinarith
  have hstu : st = true → e < u0 := by
    intro h
    have := hb h
    have : f.p + 1 ≤ lg := by
      by_contra hc
      have : 2 ^ (lg + 1) ≤ 2 ^ (f.p + 1) := Nat.pow_le_pow_right (by norm_num) (by omega)
      omega
    omega
  set u := max u0 f.umin with hu
  obtain ⟨k, hk⟩ : ∃ k, k = (u - f.umin).toNat := ⟨_, rfl⟩
  have huk : u = f.umin + k := by rw [hk]; omega
  have pu : (0:ℝ) < 2 ^ u := by positivity
  have pu0 : (0:ℝ) < 2 ^ u0 := by positivity
  have hu0u : (2:ℝ) ^ u0 ≤ 2 ^ u := zpow_le_zpow_right₀ (by norm_num) (le_max_left _ _)
  have hyu : y < 2 ^ f.p * (2:ℝ) ^ u := lt_of_lt_of_le hy2 (by gcongr)
  set q := ⌊y / (2:ℝ) ^ u⌋₊ with hq
  have hz0 : 0 ≤ y / (2:ℝ) ^ u := by positivity
  have G : Grid f y u k q := by
    refine ⟨huk, hq, ?_, ?_⟩
    · rw [hq, Nat.floor_lt hz0, div_lt_iff₀ pu]; push_cast; exact hyu
    · rcases Nat.eq_zero_or_pos k with h | h
      · exact .inl h
      · right
        have : u = u0 := by omega
        rw [hq, Nat.le_floor_iff hz0, le_div_iff₀ pu, this]; push_cast; exact hy1
  obtain ⟨ra, rb⟩ := roundAt_spec rnd neg m e u st y h1 h2 hst (fun h => lt_of_lt_of_le (hstu h) (le_max_left _ _))
  obtain ⟨ra0, -⟩ := roundAt_spec rnd neg m e u0 st y h1 h2 hst hstu
  have R0 := rnat_reach f hp rnd neg y (2 ^ u0) u0 rfl hy hy2
  have RU := rnat_reach f hp rnd neg y (2 ^ u) u rfl hy hyu
  obtain ⟨c, hc⟩ : ∃ c, c = pick f rnd neg y u k := ⟨_, rfl⟩
  -- overflow
  have hum : f.umin = 3 - ((2 ^ (f.eb - 1) : Nat) : Int) - f.p := rfl
  have hEE : 2 ^ f.eb = 2 * 2 ^ (f.eb - 1) := by
    conv_lhs => rw [show f.eb = (f.eb - 1) + 1 by omega]
    rw [pow_succ]; ring
  set T : Int := ((2 ^ (f.eb - 1) : Nat) : Int) - f.p with hT
  have hTk : T = f.umin + (2 ^ f.eb - 3 : Nat) := by rw [hT, hum]; omega
  have Rof : Reaches f rnd neg y (2 ^ T) ↔ f.infCode ≤ c := by
    have pT : (0:ℝ) < 2 ^ T := by positivity
    have hr1 : rnat rnd neg (y / 2 ^ u) ≤ 2 ^ f.p := by
      rcases pick_cases G rnd neg with h | h <;> unfold pick at h <;> have := G.hlt <;> omega
    have reach_lo : y < 2 ^ (f.p - 1) * (2:ℝ) ^ T → ¬ Reaches f rnd neg y (2 ^ T) := by
      intro h
      have h2p : (2:ℝ) ^ f.p = 2 * 2 ^ (f.p - 1) := by exact_mod_cast hPP
      have h2q : (2:ℝ) ≤ 2 ^ (f.p - 1) := by
        calc (2:ℝ) = 2 ^ 1 := by norm_num
          _ ≤ _ := pow_le_pow_right₀ (by norm_num) (by omega)
      have h3 : (2:ℝ) ^ (f.p - 1) ≤ 2 ^ f.p - 1 := by linarith
      cases rnd <;> cases neg <;> simp only [Reaches] <;> nlinarith
    have reach_hi : 2 ^ f.p * (2:ℝ) ^ T ≤ y → Reaches f rnd neg y (2 ^ T) := by
      intro h
      cases rnd <;> cases neg <;> simp only [Reaches] <;> nlinarith
    rw [hc]; unfold pick Fmt.infCode
    rcases lt_trichotomy u T with h | h | h
    · have hlow : y < 2 ^ (f.p - 1) * (2:ℝ) ^ T := by
        refine lt_of_lt_of_le hyu ?_
        have : 2 ^ f.p * (2:ℝ) ^ u = 2 ^ (f.p - 1) * 2 ^ (u + 1) := by
          rw [zpow_add_one₀ (by norm_num)]
          have h2p : (2:ℝ) ^ f.p = 2 * 2 ^ (f.p - 1) := by exact_mod_cast hPP
          rw [h2p]; ring
        rw [this]
        have : (2:ℝ) ^ (u + 1) ≤ 2 ^ T := zpow_le_zpow_right₀ (by norm_num) (by omega)
        gcongr
      refine iff_of_false (reach_lo hlow) ?_
      have hk2 : k + 1 ≤ 2 ^ f.eb - 3 := by omega
      have : k * 2 ^ (f.p - 1) + 2 ^ f.p ≤ (2 ^ f.eb - 2) * 2 ^ (f.p - 1) := by
        rw [hPP, ← add_mul]; exact Nat.mul_le_mul_right _ (by omega)
      have h4 : (2 ^ f.eb - 2) * 2 ^ (f.p - 1) < (2 ^ f.eb - 1) * 2 ^ (f.p - 1) :=
        Nat.mul_lt_mul_of_pos_right (by omega) hP
      omega
    · rw [← h]
      rw [← RU]
      have hk2 : k = 2 ^ f.eb - 3 := by omega
      have : (2 ^ f.eb - 1) * 2 ^ (f.p - 1) = k * 2 ^ (f.p - 1) + 2 ^ f.p := by
        rw [hPP, ← add_mul]; congr 1; omega
      rw [this]; omega
    · have hu1 : u = u0 := by
        have : T ≥ f.umin := by omega
        omega
      have hhi : 2 ^ f.p * (2:ℝ) ^ T ≤ y := by
        refine le_trans ?_ hy1
        have : 2 ^ (f.p - 1) * (2:ℝ) ^ u0 = 2 ^ f.p * 2 ^ (u0 - 1) := by
          rw [zpow_sub_one₀ (by norm_num)]
          have h2p : (2:ℝ) ^ f.p = 2 * 2 ^ (f.p - 1) := by exact_mod_cast hPP
          rw [h2p]; ring
        rw [this]
        have : (2:ℝ) ^ T ≤ 2 ^ (u0 - 1) := zpow_le_zpow_right₀ (by norm_num) (by omega)
        gcongr
      refine iff_of_true (reach_hi hhi) ?_
      have hk2 : 2 ^ f.eb - 2 ≤ k := by omega
      have hr2 : 2 ^ (f.p - 1) ≤ rnat rnd neg (y / 2 ^ u) := by
        have : 2 ^ (f.p - 1) ≤ q := by rcases G.hk with h | h; omega; exact h
        rcases pick_cases G rnd neg with h | h <;> unfold pick at h <;> omega
      calc (2 ^ f.eb - 1) * 2 ^ (f.p - 1) ≤ (k + 1) * 2 ^ (f.p - 1) := Nat.mul_le_mul_right _ (by omega)
        _ = k * 2 ^ (f.p - 1) + 2 ^ (f.p - 1) := by ring
        _ ≤ _ := by omega
  -- tiny
  have Rt : (decide (u0 < f.umin) && !(u0 == f.umin - 1 && (roundAt rnd neg m e u0 st).1 == 2 ^ f.p)) = true ↔
      ¬ Reaches f rnd neg y (2 ^ (f.umin - 1)) := by
    rw [ra0]
    have pT : (0:ℝ) < 2 ^ (f.umin - 1) := by positivity
    have h2p : (2:ℝ) ^ f.p = 2 * 2 ^ (f.p - 1) := by exact_mod_cast hPP
    have h2q : (2:ℝ) ≤ 2 ^ (f.p - 1) := by
      calc (2:ℝ) = 2 ^ 1 := by norm_num
        _ ≤ _ := pow_le_pow_right₀ (by norm_num) (by omega)
    rcases lt_trichotomy u0 (f.umin - 1) with h | h | h
    · refine iff_of_true ?_ ?_
      · simp; omega
      · have : y < 2 ^ (f.p - 1) * (2:ℝ) ^ (f.umin - 1) := by
          refine lt_of_lt_of_le hy2 ?_
          have : 2 ^ f.p * (2:ℝ) ^ u0 = 2 ^ (f.p - 1) * 2 ^ (u0 + 1) := by
            rw [zpow_add_one₀ (by norm_num), h2p]; ring
          rw [this]
          have : (2:ℝ) ^ (u0 + 1) ≤ 2 ^ (f.umin - 1) := zpow_le_zpow_right₀ (by norm_num) (by omega)
          gcongr
        cases rnd <;> cases neg <;> simp only [Reaches] <;> nlinarith
    · rw [← h, ← R0]
      simp [show u0 < f.umin by omega, h]
    · refine iff_of_false ?_ ?_
      · simp; omega
      · rw [not_not]
        have : 2 ^ f.p * (2:ℝ) ^ (f.umin - 1) ≤ y := by
          refine le_trans ?_ hy1
          have : 2 ^ (f.p - 1) * (2:ℝ) ^ u0 = 2 ^ f.p * 2 ^ (u0 - 1) := by
            rw [zpow_sub_one₀ (by norm_num), h2p]; ring
          rw [this]
          have : (2:ℝ) ^ (f.umin - 1) ≤ 2 ^ (u0 - 1) := zpow_le_zpow_right₀ (by norm_num) (by omega)
          gcongr
        cases rnd <;> cases neg <;> simp only [Reaches] <;> nlinarith
  have hrm : roundMag f rnd neg m e st = if f.infCode ≤ c then
      ((if neg then f.signW else 0) + overflowCode f rnd neg, fOF + fNX)
    else ((if neg then f.signW else 0) + c, (if (roundAt rnd neg m e u st).2 then fNX else 0) +
      (if (roundAt rnd neg m e u st).2 &&
        (decide (u0 < f.umin) && !(u0 == f.umin - 1 && (roundAt rnd neg m e u0 st).1 == 2 ^ f.p)) then fUF else 0)) := by
    rw [hc, pick, ← ra, hk]
    rfl
  have hex := pick_exact hp hy G rnd neg
  rw [← hc] at hex
  rw [← hq] at rb
  by_cases hov : f.infCode ≤ c
  · have hR := Rof.2 hov
    rw [← hax] at hR
    rw [hrm, if_pos hov]
    exact ⟨fun _ => ⟨rfl, rfl⟩, fun h => absurd hR h, fun h => absurd hR h, fun h => absurd hR h⟩
  · have hR : ¬ Reaches f rnd neg |x| (2 ^ T) := by rw [hax, Rof]; exact hov
    obtain ⟨d1, d2, d3⟩ := dec_fin f hp heb neg c (by omega)
    have hsg : f.infCode ≤ f.signW := by
      rw [signW_eq f hp, Fmt.infCode]; exact Nat.mul_le_mul_right _ (by omega)
    have hval : |(numOf (decodeF f ((if neg then f.signW else 0) + c)) : ℝ)| = g f c := by
      rw [d3, abs_mul, abs_of_nonneg (g_nonneg f c)]; cases neg <;> simp
    have hvx : |(numOf (decodeF f ((if neg then f.signW else 0) + c)) : ℝ) - x| = |g f c - y| := by
      rw [d3, hx, ← mul_sub, abs_mul]; cases neg <;> simp
    have heq : (numOf (decodeF f ((if neg then f.signW else 0) + c)) : ℝ) = x ↔ g f c = y := by
      rw [d3, hx]; cases neg <;> simp
    rw [hrm, if_neg hov]
    refine ⟨fun h => absurd h hR, fun _ => ⟨d1, d2, ?_, ?_⟩, fun _ => ?_, ?_⟩
    · simp only []; split <;> omega
    · have ne_case : ∀ d, finite (decodeF f d) = true → rnd = .ne → 
          |(numOf (decodeF f ((if neg then f.signW else 0) + c)) : ℝ) - x| ≤ |(numOf (decodeF f d) : ℝ) - x| ∧
          (|(numOf (decodeF f ((if neg then f.signW else 0) + c)) : ℝ) - x| = |(numOf (decodeF f d) : ℝ) - x| →
            numOf (decodeF f d) = numOf (decodeF f ((if neg then f.signW else 0) + c)) ∨
            ((if neg then f.signW else 0) + c) % 2 = 0) := by
        rintro d hd rfl
        obtain ⟨sg, c', hc', -, hv'⟩ := fin_dec f hp heb d hd
        obtain ⟨p1, p2⟩ := pick_ne hp hy G neg c'
        rw [← hc] at p1 p2
        have hg0 := g_nonneg f c
        have hg1 := g_nonneg f c'
        have hv : |(numOf (decodeF f d) : ℝ) - x| = if sg = neg then |g f c' - y| else g f c' + y := by
          rw [hv', hx]; exact sgn_dist hg1 hy.le sg neg
        have tri : |g f c' - y| ≤ g f c' + y := by rw [abs_le]; constructor <;> linarith
        have sev : ((if neg then f.signW else 0) + c) % 2 = c % 2 := by
          have : 2 ∣ f.signW := by rw [Fmt.signW]; exact dvd_pow_self 2 (by omega)
          split <;> omega
        rw [hvx, hv, sev]
        split
        · next hsn =>
          refine ⟨p1, fun he => ?_⟩
          rcases p2 he with h | h
          · left; have : (numOf (decodeF f d) : ℝ) = numOf (decodeF f ((if neg then f.signW else 0) + c)) := by
              rw [hv', d3, h, hsn]
            exact_mod_cast this
          · exact .inr h
        · refine ⟨p1.trans tri, fun he => ?_⟩
          have h0 : g f c' = 0 := by
            rcases abs_cases (g f c' - y) with ⟨h, -⟩ | ⟨h, -⟩ <;> rw [h] at p1 <;> linarith
          have h1 : |g f c - y| = |g f c' - y| := by rw [he, h0]; simp [abs_of_pos hy]
          rcases p2 h1 with h | h
          · left; have : (numOf (decodeF f d) : ℝ) = numOf (decodeF f ((if neg then f.signW else 0) + c)) := by
              rw [hv', d3, ← h, h0]; simp
            exact_mod_cast this
          · exact .inr h
      have habs : ∀ d, finite (decodeF f d) = true → ∃ c', |(numOf (decodeF f d) : ℝ)| = g f c' := by
        intro d hd
        obtain ⟨sg, c', hc', -, hv'⟩ := fin_dec f hp heb d hd
        exact ⟨c', by rw [hv', abs_mul, abs_of_nonneg (g_nonneg f c')]; cases sg <;> simp⟩
      have down : rnat rnd neg (y / 2 ^ u) = q → |(numOf (decodeF f ((if neg then f.signW else 0) + c)) : ℝ)| ≤ |x| ∧
          ∀ d, finite (decodeF f d) = true → |(numOf (decodeF f d) : ℝ)| ≤ |x| →
            |(numOf (decodeF f d) : ℝ)| ≤ |(numOf (decodeF f ((if neg then f.signW else 0) + c)) : ℝ)| := by
        intro hr
        obtain ⟨p1, p2⟩ := pick_down hp hy G hr
        rw [← hc] at p1 p2
        rw [hval, hax]
        refine ⟨p1, fun d hd h => ?_⟩
        obtain ⟨c', h'⟩ := habs d hd
        rw [h'] at h ⊢
        exact p2 c' h
      have away : (rnat rnd neg (y / 2 ^ u) = if y / 2 ^ u = (q:ℝ) then q else q + 1) →
          |x| ≤ |(numOf (decodeF f ((if neg then f.signW else 0) + c)) : ℝ)| ∧
          ∀ d, finite (decodeF f d) = true → |x| ≤ |(numOf (decodeF f d) : ℝ)| →
            |(numOf (decodeF f ((if neg then f.signW else 0) + c)) : ℝ)| ≤ |(numOf (decodeF f d) : ℝ)| := by
        intro hr
        obtain ⟨p1, p2⟩ := pick_away hp hy G hr
        rw [← hc] at p1 p2
        rw [hval, hax]
        refine ⟨p1, fun d hd h => ?_⟩
        obtain ⟨c', h'⟩ := habs d hd
        rw [h'] at h ⊢
        exact p2 c' h
      clear hrm Rof Rt RU R0 hR hex heq
      cases rnd
      · exact fun d hd => ne_case d hd rfl
      · exact down rfl
      · cases neg
        · exact away rfl
        · exact down rfl
      · cases neg
        · exact down rfl
        · exact away rfl
    · intro h
      rw [heq, hex] at h
      have : ¬ (roundAt rnd neg m e u st).2 = true := by rw [rb]; exact not_not.2 h
      simp [this]
    · intro _ h
      rw [ne_eq, heq, hex] at h
      have hn : (roundAt rnd neg m e u st).2 = true := rb.2 h
      rw [hax, ← Rt]
      simp only [hn, Bool.true_and, if_true]
      generalize (decide (u0 < f.umin) && !(u0 == f.umin - 1 && (roundAt rnd neg m e u0 st).1 == 2 ^ f.p)) = b
      cases b <;> simp [fNX, fUF]


theorem fp_dec (w : Word) : finite (fp w) = true → ∃ n m e, fp w = .fin n m e := by
  intro h; cases hv : fp w <;> simp_all [finite]

theorem numOf_fin (n : Bool) (m : Nat) (e : Int) : ((numOf (.fin n m e) : ℚ) : ℝ) = (if n then -1 else 1) * (m * 2 ^ e) := by
  cases n <;> simp [numOf]

/-- a finite nonzero value rounded -/
theorem roundV_rounds (f : Fmt) (hp : 2 ≤ f.p) (heb : 2 ≤ f.eb) (rnd : Rnd) (v : FVal) (hv : finite v = true) (x : ℝ)
    (hx : ((numOf v : ℚ) : ℝ) = x) (h0 : x ≠ 0) :
    Rounds f rnd (decide (x < 0)) x (roundV f rnd v).1 (roundV f rnd v).2 := by
  cases v with
  | nan s => simp [finite] at hv
  | inf s => simp [finite] at hv
  | fin n m e =>
    rw [numOf_fin] at hx
    have hm : m ≠ 0 := by rintro rfl; simp at hx; exact h0 hx.symm
    have hpos : (0:ℝ) < m * 2 ^ e := by
      have : (0:ℝ) < m := by exact_mod_cast Nat.pos_of_ne_zero hm
      positivity
    have hn : decide (x < 0) = n := by
      rw [← hx]; cases n <;> simp <;> linarith
    rw [hn]
    simp only [roundV, hm, if_false]
    refine rounds f hp heb rnd n m e false (m * 2 ^ e) x (by rw [hx]) hm le_rfl ?_ (by simp) (by simp)
    have : (0:ℝ) < 2 ^ e := by positivity
    nlinarith

theorem scaled_val (n : Bool) (m : Nat) (e u : Int) (h : u ≤ e) :
    (((FVal.fin n m e).scaled u : ℤ) : ℚ) * 2 ^ u = numOf (.fin n m e) := by
  have : (2:ℚ) ^ (e - u).toNat * 2 ^ u = 2 ^ e := by
    rw [← zpow_natCast, ← zpow_add₀ (by norm_num)]; congr 1; omega
  cases n <;> simp [FVal.scaled, numOf] <;> rw [mul_assoc, this]

theorem ofInt_val (i u : Int) (z : Bool) : numOf (FVal.ofInt i u z) = i * 2 ^ u := by
  unfold FVal.ofInt
  split
  · next h => simp [numOf, h]
  · next h =>
    have : ((i.natAbs : ℕ) : ℚ) = |(i:ℚ)| := by rw [← Int.cast_natCast, Int.natCast_natAbs]; simp
    simp only [numOf, this]
    by_cases hi : i < 0
    · have : (i:ℚ) < 0 := by exact_mod_cast hi
      simp [hi, abs_of_neg this]
    · have : (0:ℚ) ≤ i := by exact_mod_cast (not_lt.1 hi)
      simp [hi, abs_of_nonneg this]

theorem ofInt_fin (i u : Int) (z : Bool) : finite (FVal.ofInt i u z) = true := by
  unfold FVal.ofInt; split <;> rfl

theorem num0 (n : Bool) (m : Nat) (e : Int) : numOf (.fin n m e) = 0 ↔ m = 0 := by
  have : (2:ℚ) ^ e ≠ 0 := by positivity
  cases n <;> simp [numOf, this]

theorem add_val (n k : Bool) (m l : Nat) (e d : Int) (z : Bool) :
    numOf ((FVal.fin n m e).add (.fin k l d) z) = numOf (.fin n m e) + numOf (.fin k l d) ∧
    finite ((FVal.fin n m e).add (.fin k l d) z) = true := by
  simp only [FVal.add]
  split
  · next h =>
    simp only [Bool.and_eq_true, decide_eq_true_eq] at h
    rw [h.1, h.2]; simp [numOf, finite]
  · refine ⟨?_, ofInt_fin _ _ _⟩
    rw [ofInt_val]; push_cast
    rw [add_mul, scaled_val _ _ _ _ (min_le_left _ _), scaled_val _ _ _ _ (min_le_right _ _)]

theorem add_zero_sign (n k : Bool) (m l : Nat) (e d : Int) (z : Bool) (h : numOf (.fin n m e) + numOf (.fin k l d) = 0) :
    ∃ u, (FVal.fin n m e).add (.fin k l d) z = .fin (if m = 0 ∧ n = k then n else z) 0 u := by
  simp only [FVal.add]
  split
  · next hh =>
    simp only [Bool.and_eq_true, decide_eq_true_eq] at hh
    exact ⟨min e d, by simp [hh.1]⟩
  · next hh =>
    simp only [Bool.and_eq_true, decide_eq_true_eq, not_and] at hh
    have hm : m ≠ 0 := by
      rintro rfl
      have := (num0 n 0 e).2 rfl
      rw [this, zero_add, num0] at h
      exact hh rfl h
    have : (FVal.fin n m e).scaled (min e d) + (FVal.fin k l d).scaled (min e d) = 0 := by
      have h2 : (((FVal.fin n m e).scaled (min e d) + (FVal.fin k l d).scaled (min e d) : ℤ) : ℚ) * 2 ^ (min e d) = 0 := by
        push_cast
        rw [add_mul, scaled_val _ _ _ _ (min_le_left _ _), scaled_val _ _ _ _ (min_le_right _ _), h]
      have : (2:ℚ) ^ (min e d) ≠ 0 := by positivity
      have := (mul_eq_zero.1 h2).resolve_right this
      exact_mod_cast this
    rw [this]
    exact ⟨min e d, by simp [FVal.ofInt, hm]⟩

theorem mul_val (n k : Bool) (m l : Nat) (e d : Int) :
    numOf ((FVal.fin n m e).mul (.fin k l d)) = numOf (.fin n m e) * numOf (.fin k l d) := by
  simp only [FVal.mul, numOf]
  rw [zpow_add₀ (by norm_num)]
  cases n <;> cases k <;> simp <;> ring

theorem toNat_round (rnd : Rnd) (neg : Bool) (x : ℝ) (r : Nat × Nat) (h : Rounds FP32 rnd neg x r.1 r.2) :
    Rounds FP32 rnd neg x (BitVec.ofNat 32 r.1).toNat r.2 := by
  have : r.1 < 2 ^ 32 := by
    by_cases hr : Reaches FP32 rnd neg |x| (2 ^ ((2 ^ (FP32.eb - 1) : Nat) - FP32.p : Int))
    · rw [(h.beyond hr).1]; cases rnd <;> cases neg <;> decide
    · have := (h.within hr).2.2.1; simpa [FP32, Fmt.signW] using this
  rwa [BitVec.toNat_ofNat, Nat.mod_eq_of_lt this]

end Sys2Proof.Machine.Round
end

