-- ==== Sys2Proof/Laws/Float.lean ====
section
/-!
SUPPORT. What the operations of FP32 give, in terms of R123 to R132: sums, products, quotients, roots, comparisons,
roundings to integers.
-/

namespace Sys2Proof.Machine.Round

open Sys2Proof

/-- NV where it is invalid. -/
def nvIf (b : Bool) : Nat := bif b then 16 else 0
@[simp] theorem nvF : nvIf false = 0 := rfl
@[simp] theorem nvT : nvIf true = 16 := rfl
@[simp] theorem or0 (n : Nat) : n ||| 0 = n := Nat.or_zero n
/-- An exact value rounded once, with NV beside the flags of the rounding. -/
def once (rnd : Rnd) (v : FVal) (invalid : Bool) : Word × Nat :=
  (BitVec.ofNat 32 (roundV FP32 rnd v).1, (roundV FP32 rnd v).2 ||| nvIf invalid)
@[simp] theorem rvI (rnd : Rnd) (n : Bool) : roundV FP32 rnd (.inf n) = (if n then 0xFF800000 else 0x7F800000, 0) := by cases n <;> rfl
@[simp] theorem rvN (rnd : Rnd) (n : Bool) : roundV FP32 rnd (.nan n) = (0x7FC00000, 0) := rfl
theorem nanE (b : Bool) : nan32 b = (0x7FC00000, nvIf b) := by cases b <;> rfl

theorem fp_mul_nan (a b : FVal) : (a.mul b).isNaN = (a.isNaN || b.isNaN || a.mulInvalid b) := by
  cases a with
  | nan s => cases b <;> rfl
  | inf s => cases b with
    | nan s => rfl
    | inf s => rfl
    | fin n m e => by_cases h : m = 0 <;> simp [FVal.mul, FVal.isNaN, FVal.mulInvalid, FVal.isInf, FVal.isZero, h]
  | fin n m e => cases b with
    | nan s => rfl
    | inf s => by_cases h : m = 0 <;> simp [FVal.mul, FVal.isNaN, FVal.mulInvalid, FVal.isInf, FVal.isZero, h]
    | fin n m e => simp [FVal.mul, FVal.isNaN, FVal.mulInvalid, FVal.isInf]

theorem inf_code (n : Bool) (w : Word) (h : fp w = .inf n) : w = if n then 0xFF800000 else 0x7F800000 := by
  unfold fp decodeF at h
  simp only [FP32, Fmt.signW] at h
  norm_num at h
  split at h
  · next h1 =>
    split at h
    · next h2 =>
      simp only [FVal.inf.injEq] at h
      have := w.isLt
      apply BitVec.eq_of_toNat_eq
      cases n
      · have : ¬ (w.toNat / 2147483648 % 2 = 1) := by simpa using h
        simp; omega
      · have : (w.toNat / 2147483648 % 2 = 1) := by simpa using h
        simp; omega
    · simp at h
  · split at h <;> simp at h

theorem rounds32 (rnd : Rnd) (v : FVal) (x : ℚ) (hv : finite v = true) (hx : numOf v = x) (h0 : x ≠ 0) :
    Rounds32 rnd (x : ℝ) (BitVec.ofNat 32 (roundV FP32 rnd v).1, (roundV FP32 rnd v).2) := by
  apply toNat_round
  exact roundV_rounds FP32 (by decide) (by decide) rnd v hv x (by rw [hx]) (by exact_mod_cast h0)

theorem mul_fin {a b : FVal} (ha : finite a = true) (hb : finite b = true) : finite (a.mul b) = true ∧ numOf (a.mul b) = numOf a * numOf b := by
  cases a <;> simp_all [finite]
  cases b <;> simp_all [finite, FVal.mul]
  exact mul_val _ _ _ _ _ _

theorem add_fin {a b : FVal} (z : Bool) (ha : finite a = true) (hb : finite b = true) :
    finite (a.add b z) = true ∧ numOf (a.add b z) = numOf a + numOf b := by
  cases a <;> simp_all [finite]
  cases b <;> simp_all [finite]
  have := add_val
  exact ⟨(add_val _ _ _ _ _ _ _).2, (add_val _ _ _ _ _ _ _).1⟩

theorem or_ite (b : Bool) : (0 ||| if b then fNV else 0) = if b then fNV else 0 := by cases b <;> rfl

theorem roundV_zero (rnd : Rnd) (n : Bool) (u : Int) : roundV FP32 rnd (.fin n 0 u) = (if n then 0x80000000 else 0, 0) := by
  cases n <;> rfl

theorem sumOk : IsSum (fun rnd a b => once rnd ((fp a).add (fp b) (rnd == .rm)) ((fp a).isSig || (fp b).isSig || (fp a).addInvalid (fp b))) := by
  refine ⟨?_, ?_, ?_, ?_, ?_, ?_⟩
  · intro rnd a b h
    simp only [once, nanE]
    generalize fp a = x at *
    generalize fp b = y at *
    cases x <;> cases y <;> simp [FVal.isNaN] at h <;> simp [FVal.add, FVal.isSig, FVal.addInvalid]
  · intro rnd a b ha hb
    simp only [once]
    cases hx : fp a <;> simp [hx, FVal.isInf] at ha
    cases hy : fp b <;> simp [hy, FVal.isInf] at hb
    next n k =>
    have := inf_code n a hx
    rw [this]
    cases n <;> cases k <;> simp [FVal.add, FVal.isSig, FVal.addInvalid, FVal.sign, nanE]
  · intro rnd a b ha hb
    simp only [once]
    cases hx : fp a <;> simp [hx, FVal.isInf] at ha
    cases hy : fp b <;> simp [hy, finite] at hb
    next n k _ _ =>
    have := inf_code n a hx
    rw [this]
    cases n <;> simp [FVal.add, FVal.isSig, FVal.addInvalid, FVal.sign, nanE]
  · intro rnd a b ha hb
    simp only [once]
    cases hx : fp a <;> simp [hx, finite] at ha
    cases hy : fp b <;> simp [hy, FVal.isInf] at hb
    next n k _ m =>
    have := inf_code m b hy
    rw [this]
    cases m <;> simp [FVal.add, FVal.isSig, FVal.addInvalid, FVal.sign, nanE]
  · intro rnd a b ha hb h0
    have h := add_fin (rnd == .rm) ha hb
    have hi : ((fp a).isSig || (fp b).isSig || (fp a).addInvalid (fp b)) = false := by
      cases hx : fp a <;> simp [hx, finite] at ha
      cases hy : fp b <;> simp [hy, finite] at hb
      rfl
    simp only [once, hi, nvF, or0]
    exact rounds32 rnd _ _ h.1 h.2 h0
  · intro rnd a b ha hb h0
    simp only [once]
    cases hx : fp a <;> simp [hx, finite] at ha
    cases hy : fp b <;> simp [hy, finite] at hb
    rw [hx, hy] at h0
    obtain ⟨u, hu⟩ := add_zero_sign _ _ _ _ _ _ (rnd == .rm) h0
    rw [hu, roundV_zero]
    next n m e k l d =>
    simp only [FVal.isSig, FVal.addInvalid, zero32, FVal.isZero, FVal.sign, Bool.or_self, nvF, or0, Bool.and_eq_true, beq_iff_eq]
    generalize (if m = 0 ∧ n = k then n else rnd == .rm) = b
    cases b <;> rfl

theorem productOk : IsProduct (fun rnd a b => once rnd ((fp a).mul (fp b)) ((fp a).isSig || (fp b).isSig || (fp a).mulInvalid (fp b))) := by
  refine ⟨?_, ?_, ?_, ?_, ?_⟩
  · intro rnd a b h
    simp only [once, nanE]
    generalize fp a = x at *
    generalize fp b = y at *
    cases x <;> cases y <;> simp [FVal.isNaN] at h <;> simp [FVal.mul, FVal.isSig, FVal.mulInvalid, FVal.isInf, FVal.isZero]
  · intro rnd a b h
    simp only [once, nanE]
    generalize fp a = x at *
    generalize fp b = y at *
    cases x <;> cases y <;> simp [FVal.isInf, FVal.isZero] at h <;> subst h <;> simp [FVal.mul, FVal.isSig, FVal.mulInvalid, FVal.isInf, FVal.isZero]
  · intro rnd a b h
    simp only [once, inf32]
    generalize fp a = x at *
    generalize fp b = y at *
    cases x with
    | nan s => simp [FVal.isInf, FVal.isNaN] at h
    | inf n =>
      cases y with
      | nan s => simp [FVal.isInf, FVal.isNaN] at h
      | inf k => cases n <;> cases k <;> simp [FVal.mul, FVal.isSig, FVal.mulInvalid, FVal.isInf, FVal.isZero, FVal.sign]
      | fin k m e =>
        have hm : m ≠ 0 := by simpa [FVal.isInf, FVal.isNaN, FVal.isZero] using h
        have hm2 : (m == 0) = false := by simpa using hm
        cases n <;> cases k <;> simp [FVal.mul, hm, hm2, FVal.isSig, FVal.mulInvalid, FVal.isInf, FVal.isZero, FVal.sign]
    | fin n m e =>
      cases y with
      | nan s => simp [FVal.isInf, FVal.isNaN] at h
      | inf k =>
        have hm : m ≠ 0 := by simpa [FVal.isInf, FVal.isNaN, FVal.isZero] using h
        have hm2 : (m == 0) = false := by simpa using hm
        cases n <;> cases k <;> simp [FVal.mul, hm, hm2, FVal.isSig, FVal.mulInvalid, FVal.isInf, FVal.isZero, FVal.sign]
      | fin k l d => simp [FVal.isInf] at h
  · intro rnd a b ha hb h0
    have h := mul_fin ha hb
    have hi : ((fp a).isSig || (fp b).isSig || (fp a).mulInvalid (fp b)) = false := by
      cases hx : fp a <;> simp [hx, finite] at ha
      cases hy : fp b <;> simp [hy, finite] at hb
      simp [FVal.isSig, FVal.mulInvalid, FVal.isInf]
    simp only [once, hi, nvF, or0]
    exact rounds32 rnd _ _ h.1 h.2 h0
  · intro rnd a b ha hb h0
    simp only [once]
    cases hx : fp a <;> simp [hx, finite] at ha
    cases hy : fp b <;> simp [hy, finite] at hb
    rw [hx, hy] at h0
    rw [mul_eq_zero, num0, num0] at h0
    next n m e k l d =>
    have : m * l = 0 := by rcases h0 with h | h <;> simp [h]
    simp [FVal.mul, this, roundV_zero, FVal.isSig, FVal.mulInvalid, FVal.isInf, zero32, FVal.sign]
    cases n <;> cases k <;> simp

theorem fp_mul_sig (a b : FVal) : (a.mul b).isNaN = true → (a.isNaN || b.isNaN) = true ∨ a.mulInvalid b = true := by
  rw [fp_mul_nan]; simp

theorem fusedOk : IsFused (fun rnd a b c => let v := fmaV (fp a) (fp b) (fp c) (rnd == .rm); once rnd v.1 v.2) := by
  refine ⟨?_, ?_, ?_, ?_, ?_, ?_⟩
  · intro rnd a b c h
    simp only [once, nanE, fmaV]
    generalize fp a = x at *
    generalize fp b = y at *
    generalize fp c = z at *
    cases x <;> cases y <;> simp [FVal.isInf, FVal.isZero] at h <;> subst h <;> cases z <;>
      simp [FVal.mul, FVal.add, FVal.isSig, FVal.mulInvalid, FVal.isInf, FVal.isZero]
  · intro rnd a b c h' h
    simp only [once, nanE, fmaV]
    generalize fp a = x at *
    generalize fp b = y at *
    generalize fp c = z at *
    cases x <;> cases y <;> simp [FVal.isInf, FVal.isZero] at h' <;> cases z <;> simp [FVal.isNaN] at h <;>
      first | (have h2 := beq_eq_false_iff_ne.2 h'; simp [h2, h', FVal.mul, FVal.add, FVal.isSig, FVal.mulInvalid, FVal.isInf, FVal.isZero, FVal.isNaN, FVal.addInvalid]) | simp [FVal.mul, FVal.add, FVal.isSig, FVal.mulInvalid, FVal.isInf, FVal.isZero, FVal.isNaN, h', FVal.addInvalid]
  · intro rnd a b c h hc
    simp only [once, inf32, fmaV]
    generalize fp a = x at *
    generalize fp b = y at *
    generalize fp c = z at *
    have key : x.mul y = .inf (x.sign != y.sign) ∧ x.isSig = false ∧ y.isSig = false ∧ x.mulInvalid y = false ∧ x.isNaN = false ∧ y.isNaN = false := by
      cases x with
      | nan s => simp [FVal.isInf, FVal.isNaN] at h
      | inf n =>
        cases y with
        | nan s => simp [FVal.isInf, FVal.isNaN] at h
        | inf k => simp [FVal.mul, FVal.sign, FVal.isSig, FVal.mulInvalid, FVal.isInf, FVal.isZero, FVal.isNaN]
        | fin k m e =>
          have hm : m ≠ 0 := by simpa [FVal.isInf, FVal.isNaN, FVal.isZero] using h
          have hm2 : (m == 0) = false := by simpa using hm
          simp [FVal.mul, hm, hm2, FVal.isSig, FVal.mulInvalid, FVal.isInf, FVal.isZero, FVal.sign, FVal.isNaN]
      | fin n m e =>
        cases y with
        | nan s => simp [FVal.isInf, FVal.isNaN] at h
        | inf k =>
          have hm : m ≠ 0 := by simpa [FVal.isInf, FVal.isNaN, FVal.isZero] using h
          have hm2 : (m == 0) = false := by simpa using hm
          simp [FVal.mul, hm, hm2, FVal.isSig, FVal.mulInvalid, FVal.isInf, FVal.isZero, FVal.sign, FVal.isNaN]
          cases n <;> cases k <;> rfl
        | fin k l d => simp [FVal.isInf] at h
    obtain ⟨k1, k2, k3, k4, k5, k6⟩ := key
    rw [k1, k2, k3, k4, k5, k6]
    generalize (x.sign != y.sign) = s at *
    cases z with
    | nan q => simp [FVal.isNaN] at hc
    | inf q => cases s <;> cases q <;> simp [FVal.add, FVal.isSig, FVal.addInvalid, FVal.isInf, FVal.sign, nanE]
    | fin q m e => cases s <;> simp [FVal.add, FVal.isSig, FVal.addInvalid, FVal.isInf, FVal.sign, nanE]
  · intro rnd a b c ha hb hc
    simp only [once, fmaV]
    cases hx : fp a <;> simp [hx, finite] at ha
    cases hy : fp b <;> simp [hy, finite] at hb
    cases hz : fp c <;> simp [hz, FVal.isInf] at hc
    next q =>
    have := inf_code q c hz
    rw [this]
    cases q <;> simp [FVal.mul, FVal.add, FVal.isSig, FVal.mulInvalid, FVal.isInf, FVal.isZero, FVal.isNaN, FVal.addInvalid]
  · intro rnd a b c ha hb hc h0
    have h := mul_fin ha hb
    have h2 := add_fin (rnd == .rm) h.1 hc
    rw [h.2] at h2
    have hi : (fmaV (fp a) (fp b) (fp c) (rnd == .rm)).2 = false := by
      cases hx : fp a <;> simp [hx, finite] at ha
      cases hy : fp b <;> simp [hy, finite] at hb
      cases hz : fp c <;> simp [hz, finite] at hc
      simp [fmaV, FVal.isSig, FVal.mulInvalid, FVal.isInf, FVal.mul, FVal.addInvalid]
    simp only [once, hi, nvF, or0]
    exact rounds32 rnd _ _ h2.1 h2.2 h0
  · intro rnd a b c ha hb hc h0
    simp only [once, fmaV]
    have h := mul_fin ha hb
    rw [← h.2] at h0
    cases hx : fp a <;> simp [hx, finite] at ha
    cases hy : fp b <;> simp [hy, finite] at hb
    cases hz : fp c <;> simp [hz, finite] at hc
    rw [hx, hy, hz] at h0
    simp only [FVal.mul] at h0 ⊢
    next n m e k l d q i j =>
    have z1 : m * l = 0 ↔ i = 0 := by
      rw [← num0 (n != k) (m * l) (e + d), ← num0 q i j]
      constructor <;> intro h <;> rw [h] at h0 <;> simpa using h0
    obtain ⟨u, hu⟩ := add_zero_sign _ _ _ _ _ _ (rnd == .rm) h0
    rw [hu, roundV_zero]
    by_cases hi : i = 0
    · have : m * l = 0 := z1.2 hi
      simp only [this, hi, FVal.isSig, FVal.mulInvalid, FVal.isInf, FVal.isZero, FVal.addInvalid, zero32, FVal.sign, FVal.isNaN]
      cases n <;> cases k <;> cases q <;> simp <;> split <;> simp
    · have : ¬ m * l = 0 := fun h => hi (z1.1 h)
      have hi2 : (i == 0) = false := by simpa using hi
      simp only [this, hi2, FVal.isSig, FVal.mulInvalid, FVal.isInf, FVal.isZero, FVal.addInvalid, zero32, FVal.sign, FVal.isNaN]
      simp
      generalize (rnd == Rnd.rm) = b
      by_cases hr : rnd = .rm <;> simp [hr]

theorem negF (b : Word) : fp (b ^^^ 0x80000000) = (match fp b with | .nan s => .nan s | v => v.neg) := by
  have hs : (b ^^^ 0x80000000).toNat % 2147483648 = b.toNat % 2147483648 := by
    rw [BitVec.toNat_xor]
    rw [show (2147483648 : Nat) = 2 ^ 31 by norm_num, Nat.xor_mod_two_pow]; simp
  have hq : (b ^^^ 0x80000000).toNat / 2147483648 % 2 = 1 - b.toNat / 2147483648 % 2 := by
    rw [BitVec.toNat_xor]
    rw [show (2147483648 : Nat) = 2 ^ 31 by norm_num, ← Nat.shiftRight_eq_div_pow, ← Nat.shiftRight_eq_div_pow, Nat.shiftRight_xor_distrib]
    have : b.toNat >>> 31 < 2 := by rw [Nat.shiftRight_eq_div_pow]; have := b.isLt; omega
    have h2 : b.toNat >>> 31 = 0 ∨ b.toNat >>> 31 = 1 := by omega
    rcases h2 with h | h <;> rw [h] <;> decide
  have e : (1 - b.toNat / 2147483648 % 2 == 1) = !(b.toNat / 2147483648 % 2 == 1) := by
    have : b.toNat / 2147483648 % 2 < 2 := Nat.mod_lt _ (by norm_num)
    rcases (show b.toNat / 2147483648 % 2 = 0 ∨ b.toNat / 2147483648 % 2 = 1 by omega) with h | h <;> rw [h] <;> rfl
  unfold fp decodeF
  have sw : FP32.signW = 2147483648 := by decide
  simp only [sw, hs, hq, e]
  split
  · split <;> rfl
  · split <;> rfl

theorem negC (b : Word) : negCode FP32 b.toNat = (b ^^^ 0x80000000).toNat := by
  have hs : (b ^^^ 0x80000000).toNat % 2147483648 = b.toNat % 2147483648 := by
    rw [BitVec.toNat_xor]
    rw [show (2147483648 : Nat) = 2 ^ 31 by norm_num, Nat.xor_mod_two_pow]; simp
  have hq : (b ^^^ 0x80000000).toNat / 2147483648 % 2 = 1 - b.toNat / 2147483648 % 2 := by
    rw [BitVec.toNat_xor]
    rw [show (2147483648 : Nat) = 2 ^ 31 by norm_num, ← Nat.shiftRight_eq_div_pow, ← Nat.shiftRight_eq_div_pow, Nat.shiftRight_xor_distrib]
    have : b.toNat >>> 31 < 2 := by rw [Nat.shiftRight_eq_div_pow]; have := b.isLt; omega
    have h2 : b.toNat >>> 31 = 0 ∨ b.toNat >>> 31 = 1 := by omega
    rcases h2 with h | h <;> rw [h] <;> decide
  have l1 := b.isLt
  have l2 := (b ^^^ 0x80000000).isLt
  have sw : FP32.signW = 2147483648 := by decide
  unfold negCode
  rw [sw]
  split <;> omega

theorem quotNumF (f : Fmt) (hp : 2 ≤ f.p) (heb : 2 ≤ f.eb) (n k : Bool) (m l : Nat) (e d : Int) (h1 : ¬ m = 0) (h2 : ¬ l = 0) :
    Rounds f .ne (decide (((numOf (.fin n m e) / numOf (.fin k l d) : ℚ) : ℝ) < 0)) ((numOf (.fin n m e) / numOf (.fin k l d) : ℚ) : ℝ)
      (divF f .ne (.fin n m e) (.fin k l d)).1 (divF f .ne (.fin n m e) (.fin k l d)).2 := by
  simp only [divF, h1, h2, if_false]
  have hl0 : 0 < l := Nat.pos_of_ne_zero h2
  have hm0 : 0 < m := Nat.pos_of_ne_zero h1
  set K := (f.p + 3 + Nat.log2 l) - Nat.log2 m with hK
  have hdiv : divMag f.p m e l d = (m * 2 ^ K / l, e - d - K, m * 2 ^ K % l != 0) := rfl
  rw [hdiv]
  set N := m * 2 ^ K with hN
  have hdm := Nat.div_add_mod N l
  have hml := Nat.mod_lt N hl0
  set q := N / l
  set r := N % l
  have lR : (0:ℝ) < l := by exact_mod_cast hl0
  have mR : (0:ℝ) < m := by exact_mod_cast hm0
  have pe : (0:ℝ) < 2 ^ (e - d - (K:Int)) := by positivity
  set y : ℝ := (m * 2 ^ e) / (l * 2 ^ d) with hyd
  have hypos : 0 < y := by positivity
  have hyq : y = (q + r / l) * 2 ^ (e - d - (K:Int)) := by
    have h1 : (N:ℝ) = q * l + r := by rw [← hdm]; push_cast; ring
    have h2 : (N:ℝ) = m * 2 ^ K := by rw [hN]; push_cast; rfl
    have h3 : (2:ℝ) ^ (e - d - (K:Int)) = 2 ^ e / 2 ^ d / 2 ^ K := by
      rw [zpow_sub₀ (by norm_num), zpow_sub₀ (by norm_num), zpow_natCast]
    rw [h3, hyd]
    have : (q:ℝ) + r / l = N / l := by rw [h1]; field_simp
    rw [this, h2]; field_simp
  have hr0 : (0:ℝ) ≤ r / l := by positivity
  have hr1 : (r:ℝ) / l < 1 := by rw [div_lt_one lR]; exact_mod_cast hml
  have hx' : ((numOf (.fin n m e) / numOf (.fin k l d) : ℚ) : ℝ) = (if (n != k) then -1 else 1) * y := by
    push_cast
    rw [numOf_fin, numOf_fin, hyd]
    cases n <;> cases k <;> simp <;> ring
  have hneg : decide (((numOf (.fin n m e) / numOf (.fin k l d) : ℚ) : ℝ) < 0) = (n != k) := by
    rw [hx']; cases n <;> cases k <;> simp <;> linarith
  have hq : 2 ^ (f.p + 1) ≤ q := by
    have hlm : 2 ^ Nat.log2 m ≤ m := Nat.log2_self_le h1
    have hll : l < 2 ^ (Nat.log2 l + 1) := Nat.lt_log2_self
    apply (Nat.le_div_iff_mul_le hl0).2
    calc 2 ^ (f.p + 1) * l ≤ 2 ^ (f.p + 1) * 2 ^ (Nat.log2 l + 1) := Nat.mul_le_mul_left _ hll.le
      _ = 2 ^ (f.p + 2 + Nat.log2 l) := by rw [← pow_add]; congr 1; omega
      _ ≤ 2 ^ (Nat.log2 m + K) := Nat.pow_le_pow_right (by norm_num) (by omega)
      _ = 2 ^ Nat.log2 m * 2 ^ K := pow_add _ _ _
      _ ≤ m * 2 ^ K := Nat.mul_le_mul_right _ hlm
  rw [hneg]
  refine Round.rounds f hp heb .ne (n != k) q _ _ y _ hx' ?_ ?_ ?_ ?_ (fun _ => hq)
  · exact (lt_of_lt_of_le (Nat.two_pow_pos _) hq).ne'
  · rw [hyq]; exact mul_le_mul_of_nonneg_right (by linarith) pe.le
  · rw [hyq]; exact mul_lt_mul_of_pos_right (by linarith) pe
  · rw [hyq]
    rw [ne_eq, mul_left_inj' pe.ne', add_eq_left, div_eq_zero_iff]
    simp [lR.ne']

theorem quotNum (n k : Bool) (m l : Nat) (e d : Int) (h1 : ¬ m = 0) (h2 : ¬ l = 0) :
    Rounds32 .ne ((numOf (.fin n m e) / numOf (.fin k l d) : ℚ) : ℝ)
      (BitVec.ofNat 32 (divF FP32 .ne (.fin n m e) (.fin k l d)).1, (divF FP32 .ne (.fin n m e) (.fin k l d)).2) :=
  toNat_round _ _ _ _ (quotNumF FP32 (by decide) (by decide) n k m l e d h1 h2)

theorem quotOk : IsQuotient (fun a b => let r := divF FP32 .ne (fp a) (fp b); (BitVec.ofNat 32 r.1, r.2)) := by
  have hnan : FP32.nanCode = 0x7FC00000 := by decide
  refine ⟨?_, ?_, ?_, ?_, ?_, ?_⟩
  · intro a b h
    simp only [nanE]
    generalize fp a = x at *
    generalize fp b = y at *
    cases x <;> cases y <;> simp [FVal.isNaN] at h <;> simp [divF, FVal.isSig, hnan, nvIf, fNV, Bool.cond_eq_ite]
  · intro a b h
    simp only [nanE]
    generalize fp a = x at *
    generalize fp b = y at *
    cases x <;> cases y <;> simp [FVal.isInf, FVal.isZero] at h <;> simp [divF, h, hnan, nvIf, fNV]
  · intro a b h
    generalize fp a = x at *
    generalize fp b = y at *
    cases x <;> cases y <;> simp [FVal.isInf, finite] at h <;> simp [divF, inf32, FVal.sign]
    next n k _ _ => cases n <;> cases k <;> simp
  · intro a b h
    generalize fp a = x at *
    generalize fp b = y at *
    cases x <;> cases y <;> simp [finite, FVal.isZero] at h <;> simp [divF, inf32, h, FVal.sign]
    next n _ _ k _ _ => cases n <;> cases k <;> simp
  · intro a b h
    generalize fp a = x at *
    generalize fp b = y at *
    cases x with
    | nan s => simp [finite, FVal.isZero] at h
    | inf s => simp [finite, FVal.isZero] at h
    | fin n m e =>
      cases y with
      | nan s => simp [finite, FVal.isInf] at h
      | inf k => cases n <;> cases k <;> simp [divF, roundV_zero, zero32, FVal.sign]
      | fin k l d =>
        simp [finite, FVal.isInf, FVal.isZero] at h
        simp [divF, h, roundV_zero, zero32, FVal.sign]
        cases n <;> cases k <;> simp
  · intro a b ha hb h1 h2
    cases hx : fp a <;> simp [hx, finite] at ha
    cases hy : fp b <;> simp [hy, finite] at hb
    next n m e k l d =>
    rw [hx, ne_eq, num0] at h1
    rw [hy, ne_eq, num0] at h2
    exact quotNum n k m l e d h1 h2


theorem cmp_less (x y : FVal) (hx : x.isNaN = false) (hy : y.isNaN = false) :
    (x.cmp y = -1 ↔ Less x y) ∧ (x.cmp y = 1 ↔ Less y x) ∧ (x.cmp y = 0 ↔ ¬ Less x y ∧ ¬ Less y x) := by
  cases x with
  | nan s => simp [FVal.isNaN] at hx
  | inf n =>
    cases y with
    | nan s => simp [FVal.isNaN] at hy
    | inf k => cases n <;> cases k <;> simp [FVal.cmp, Less]
    | fin k l d => cases n <;> simp [FVal.cmp, Less]
  | fin n m e =>
    cases y with
    | nan s => simp [FVal.isNaN] at hy
    | inf k => cases k <;> simp [FVal.cmp, Less]
    | fin k l d =>
      have p : (0:ℚ) < 2 ^ (min e d) := by positivity
      have a := scaled_val n m e (min e d) (min_le_left _ _)
      have b := scaled_val k l d (min e d) (min_le_right _ _)
      simp only [FVal.cmp, Less]
      rw [← a, ← b, mul_lt_mul_iff_left₀ p, mul_lt_mul_iff_left₀ p]
      generalize (FVal.fin n m e).scaled (min e d) = i
      generalize (FVal.fin k l d).scaled (min e d) = j
      have c1 : ((i:ℚ) < j ↔ i < j) := by exact_mod_cast Iff.rfl
      have c2 : ((j:ℚ) < i ↔ j < i) := by exact_mod_cast Iff.rfl
      rw [c1, c2]
      split
      · simp; omega
      · split <;> simp <;> omega

theorem zero_cmp (x y : FVal) (h : ZeroBelow x y ∨ ZeroBelow y x) : x.isNaN = false ∧ y.isNaN = false ∧ x.cmp y = 0 := by
  have : x.isZero = true ∧ y.isZero = true := by rcases h with h | h; exact ⟨h.1, h.2.1⟩; exact ⟨h.2.1, h.1⟩
  cases x <;> simp [FVal.isZero] at this
  cases y <;> simp [FVal.isZero] at this
  simp [FVal.isNaN, FVal.cmp, FVal.scaled, this]

theorem minmax (mx : Bool) (a b : Word) :
    let r := minMaxF FP32 mx a.toNat b.toNat
    let f : Word × Nat := (BitVec.ofNat 32 r.1, r.2)
    f.2 = (if (fp a).isSig || (fp b).isSig then fNV else 0) ∧
    ((fp a).isNaN = true → f.1 = if (fp b).isNaN then 0x7FC00000 else b) ∧
    ((fp a).isNaN = false → ((fp b).isNaN = true ∨ (if mx then Less (fp b) (fp a) ∨ ZeroBelow (fp b) (fp a) else Less (fp a) (fp b) ∨ ZeroBelow (fp a) (fp b))) → f.1 = a) ∧
    ((fp a).isNaN = false → (fp b).isNaN = false → (if mx then Less (fp a) (fp b) ∨ ZeroBelow (fp a) (fp b) else Less (fp b) (fp a) ∨ ZeroBelow (fp b) (fp a)) → f.1 = b) := by
  have ea : ∀ a : Word, decodeF FP32 a.toNat = fp a := fun _ => rfl
  have eb : ∀ a : Word, BitVec.ofNat 32 a.toNat = a := by intro a; simp
  have hn : BitVec.ofNat 32 FP32.nanCode = 0x7FC00000 := by decide
  simp only [minMaxF, ea]
  refine ⟨?_, ?_, ?_, ?_⟩
  · split
    · rfl
    · split <;> rfl
  · intro h
    simp only [h, if_true]
    split <;> simp [eb]
    exact hn
  · intro h h2
    simp only [h, Bool.false_eq_true, if_false]
    by_cases hb : (fp b).isNaN = true
    · simp [hb, eb]
    · replace h2 := h2.resolve_left hb
      simp only [hb, if_false]
      rw [Bool.not_eq_true] at hb
      obtain ⟨c1, c2, c3⟩ := cmp_less (fp a) (fp b) h hb
      cases mx
      · simp only [Bool.false_eq_true, if_false] at h2
        rcases h2 with h2 | h2
        · rw [c1.2 h2]; simp [eb]
        · rw [(zero_cmp _ _ (.inl h2)).2.2]; simp [h2.2.2.1, h2.2.2.2, eb]
      · simp only [if_true] at h2
        rcases h2 with h2 | h2
        · rw [c2.2 h2]; simp [eb]
        · rw [(zero_cmp _ _ (.inr h2)).2.2]; simp [h2.2.2.1, h2.2.2.2, eb]
  · intro h hb h2
    simp only [h, hb, Bool.false_eq_true, if_false]
    obtain ⟨c1, c2, c3⟩ := cmp_less (fp a) (fp b) h hb
    cases mx
    · simp only [Bool.false_eq_true, if_false] at h2
      rcases h2 with h2 | h2
      · rw [c2.2 h2]; simp [eb]
      · rw [(zero_cmp _ _ (.inr h2)).2.2]; simp [h2.2.2.1, h2.2.2.2, eb]
    · simp only [if_true] at h2
      rcases h2 with h2 | h2
      · rw [c1.2 h2]; simp [eb]
      · rw [(zero_cmp _ _ (.inl h2)).2.2]; simp [h2.2.2.1, h2.2.2.2, eb]

theorem fcondOk (a b : Word) : let f := fcondHolds
      let un : Prop := ((fp a).isNaN || (fp b).isNaN) = true
      ((f .eq a b).1 = true ↔ ¬ un ∧ ¬ Less (fp a) (fp b) ∧ ¬ Less (fp b) (fp a)) ∧
      ((f .ne a b).1 = true ↔ un ∨ Less (fp a) (fp b) ∨ Less (fp b) (fp a)) ∧
      ((f .lt a b).1 = true ↔ ¬ un ∧ Less (fp a) (fp b)) ∧ ((f .le a b).1 = true ↔ ¬ un ∧ ¬ Less (fp b) (fp a)) ∧
      ((f .gt a b).1 = true ↔ ¬ un ∧ Less (fp b) (fp a)) ∧ ((f .ge a b).1 = true ↔ ¬ un ∧ ¬ Less (fp a) (fp b)) ∧
      ((f .un a b).1 = true ↔ un) ∧ ((f .ord a b).1 = true ↔ ¬ un) := by
  have ea : ∀ a : Word, decodeF FP32 a.toNat = fp a := fun _ => rfl
  by_cases hu : ((fp a).isNaN || (fp b).isNaN) = true
  · unfold fcondHolds
    simp only [ea]
    generalize (fp a).cmp (fp b) = c
    generalize Less (fp a) (fp b) = l1
    generalize Less (fp b) (fp a) = l2
    generalize ((fp a).isNaN || (fp b).isNaN) = u at *
    subst hu
    simp
  · have hu2 : ((fp a).isNaN || (fp b).isNaN) = false := by simpa using hu
    have hab : (fp a).isNaN = false ∧ (fp b).isNaN = false := by simpa using hu2
    obtain ⟨c1, c2, c3⟩ := cmp_less (fp a) (fp b) hab.1 hab.2
    simp only [fcondHolds, ea, hu2, Bool.not_false, Bool.true_and, Bool.false_or, beq_iff_eq, bne_iff_ne, ne_eq, c1, c2, c3]
    generalize Less (fp a) (fp b) = l1
    generalize Less (fp b) (fp a) = l2
    by_cases h1 : l1 <;> by_cases h2 : l2 <;> simp [h1, h2]

theorem rat_split (m d : Nat) (hd : 0 < d) : (m : ℚ) / d = ((m / d : Nat) : ℚ) + ((m % d : Nat) : ℚ) / d := by
  have h : (m:ℚ) = (d : ℚ) * ((m / d : Nat) : ℚ) + ((m % d : Nat) : ℚ) := by exact_mod_cast (Nat.div_add_mod m d).symm
  have : (d:ℚ) ≠ 0 := by exact_mod_cast hd.ne'
  conv_lhs => rw [h]
  field_simp

/-- the magnitude rounded -/
theorem roundAt_int (rnd : Rnd) (n : Bool) (m : Nat) (e : Int) :
    let r := roundAt rnd n m e 0 false
    let z : Int := if n then -(r.1 : Int) else r.1
    IntRounds rnd (numOf (.fin n m e)) z ∧ (r.2 = true ↔ numOf (.fin n m e) ≠ z) := by
  intro r z
  by_cases he : 0 ≤ e
  · have hr : r = (m * 2 ^ e.toNat, false) := by simp [r, roundAt, he]
    have hz : (z : ℚ) = numOf (.fin n m e) := by
      have : (2:ℚ) ^ e = 2 ^ e.toNat := by rw [← zpow_natCast]; congr 1; omega
      simp only [z, hr, numOf, this]
      cases n <;> simp
    rw [← hz]
    refine ⟨?_, by simp [hr]⟩
    cases rnd <;> simp [IntRounds]
  · obtain ⟨k, hk⟩ : ∃ k : Nat, e = -(k:Int) ∧ 0 < k := ⟨(-e).toNat, by omega, by omega⟩
    obtain ⟨rfl, hk0⟩ := hk
    have hd : (2:ℚ) ^ (-(k:Int)) = 1 / (2 ^ k : Nat) := by rw [zpow_neg, zpow_natCast]; simp
    set d := 2 ^ k with hdd
    have hd0 : 0 < d := by positivity
    obtain ⟨j, hj⟩ : ∃ j, d = 2 * j := ⟨2 ^ (k - 1), by rw [hdd]; conv_lhs => rw [show k = (k-1)+1 by omega]; rw [pow_succ, mul_comm]⟩
    set q := m / d with hq
    set s := m % d with hs
    have hsl : s < d := Nat.mod_lt m hd0
    have hr : r = (if roundUp rnd n (q % 2 == 1) s d false then q + 1 else q, s != 0 || false) := by
      simp only [r, roundAt, if_neg (show ¬ (0:Int) ≤ -(k:Int) from he)]
      have : (0 - -(k:Int)).toNat = k := by omega
      rw [this]
    obtain ⟨t, ht⟩ : ∃ t : ℚ, t = (s:ℚ) / d := ⟨_, rfl⟩
    have dq : (0:ℚ) < d := by exact_mod_cast hd0
    have t0 : 0 ≤ t := by rw [ht]; positivity
    have t1 : t < 1 := by rw [ht, div_lt_one dq]; exact_mod_cast hsl
    have hv : numOf (.fin n m (-(k:Int))) = if n then -(q + t) else q + t := by
      have := rat_split m d hd0
      simp only [numOf, hd]
      have e1 : (m:ℚ) * (1 / d) = q + t := by rw [ht, mul_one_div]; exact this
      cases n
      · simp; rw [← e1]; simp
      · simp; rw [show -t + -(q:ℚ) = -(q + t) by ring, ← e1]; simp
    have ts : t = 0 ↔ s = 0 := by
      rw [ht, div_eq_zero_iff]; constructor
      · rintro (h | h); exact_mod_cast h; exact absurd h dq.ne'
      · intro h; left; simp [h]
    have thalf : (1 / 2 < t ↔ d < 2 * s) ∧ (t = 1 / 2 ↔ 2 * s = d) := by
      rw [ht, lt_div_iff₀ dq, div_eq_iff dq.ne']
      constructor
      · constructor
        · intro h; have : (d:ℚ) < 2 * s := by linarith
          exact_mod_cast this
        · intro h; have : (d:ℚ) < 2 * s := by exact_mod_cast h
          linarith
      · constructor
        · intro h; have : 2 * (s:ℚ) = d := by linarith
          exact_mod_cast this
        · intro h; have : 2 * (s:ℚ) = d := by exact_mod_cast h
          linarith
    rw [hv]
    have fl : ⌊(q:ℚ) + t⌋ = q := by rw [Int.floor_eq_iff]; push_cast; constructor <;> linarith
    have ce : ⌈(q:ℚ) + t⌉ = if s = 0 then (q:Int) else q + 1 := by
      split
      · next h => rw [ts.2 h]; simp
      · next h =>
        rw [Int.ceil_eq_iff]; push_cast
        have : 0 < t := lt_of_le_of_ne t0 (fun hc => h (ts.1 hc.symm))
        constructor <;> linarith
    have nx : r.2 = true ↔ s ≠ 0 := by rw [hr]; simp
    have qn : (0:ℚ) ≤ q := by positivity
    have zc : (r.1 = q ∨ r.1 = q + 1) ∧ (s = 0 → r.1 = q) := by
      rw [hr]; constructor
      · simp only []; split <;> simp
      · intro h; simp only [h]
        cases rnd <;> cases n <;> simp [roundUp] <;> omega
    refine ⟨?_, ?_⟩
    · have ne_case : ∀ p : Nat, p = (if roundUp .ne n (q % 2 == 1) s d false then q + 1 else q) →
          |(p:ℚ) - (q + t)| ≤ 1 / 2 ∧ (|(p:ℚ) - (q + t)| = 1 / 2 → p % 2 = 0) := by
        intro p hp
        have hp2 : p = if d < 2 * s ∨ (2 * s = d ∧ q % 2 = 1) then q + 1 else q := by
          rw [hp]; simp [roundUp]
        split at hp2
        · next hc =>
          have e1 : |((p:Nat):ℚ) - (q + t)| = 1 - t := by
            rw [hp2]; push_cast; rw [show (q:ℚ) + 1 - (q + t) = 1 - t by ring]; exact abs_of_nonneg (by linarith)
          rw [e1]
          rw [← thalf.1, ← thalf.2] at hc
          constructor
          · rcases hc with hc | hc <;> linarith [hc]
          · intro h; rcases hc with hc | hc
            · exfalso; linarith
            · omega
        · next hc =>
          have e1 : |((p:Nat):ℚ) - (q + t)| = t := by
            rw [hp2, show (q:ℚ) - (q + t) = -t by ring, abs_neg]; exact abs_of_nonneg t0
          rw [e1]
          rw [← thalf.1, ← thalf.2, not_or, not_lt, not_and] at hc
          exact ⟨hc.1, fun h => by have := hc.2 h; omega⟩
      cases rnd
      · have := ne_case r.1 (by rw [hr])
        simp only [IntRounds, z]
        cases n
        · simp only [Bool.false_eq_true, if_false]; push_cast
          exact ⟨this.1, fun h => by have := this.2 h; omega⟩
        · simp only [if_true]; push_cast
          rw [show -(r.1:ℚ) - -(q + t) = -((r.1:ℚ) - (q + t)) by ring, abs_neg]
          exact ⟨this.1, fun h => by have := this.2 h; omega⟩
      · have e1 : r.1 = q := by rw [hr]; simp [roundUp]
        simp only [IntRounds, z, e1]
        cases n
        · simp only [Bool.false_eq_true, if_false, fl]; rw [if_pos (by positivity)]
        · simp only [if_true]
          by_cases h0 : (0:ℚ) ≤ -(q + t)
          · have q0 : (q:ℚ) = 0 := by linarith
            have t0' : t = 0 := by linarith
            rw [if_pos h0, q0, t0']; simp; exact_mod_cast q0
          · rw [if_neg h0, Int.ceil_neg, fl]
      · simp only [IntRounds, z]
        cases n
        · have e1 : (r.1 : Int) = if s = 0 then (q:Int) else q + 1 := by
            rw [hr]; simp only [roundUp]; by_cases h : s = 0 <;> simp [h]
          simp only [Bool.false_eq_true, if_false, ce, e1]
        · have e1 : r.1 = q := by rw [hr]; simp [roundUp]
          simp only [if_true, Int.ceil_neg, fl, e1]
      · simp only [IntRounds, z]
        cases n
        · have e1 : r.1 = q := by rw [hr]; simp [roundUp]
          simp only [Bool.false_eq_true, if_false, fl, e1]
        · have e1 : (r.1 : Int) = if s = 0 then (q:Int) else q + 1 := by
            rw [hr]; simp only [roundUp]; by_cases h : s = 0 <;> simp [h]
          simp only [if_true, Int.floor_neg, ce, e1]
    · rw [nx, ← not_iff_not, not_not, not_not, ← ts]
      have key : ∀ p : Nat, (p = q ∨ p = q + 1) → (s = 0 → p = q) → (t = 0 ↔ (q:ℚ) + t = p) := by
        intro p hp hs0
        constructor
        · intro h; rw [hs0 (ts.1 h), h]; simp
        · intro h
          rcases hp with hp | hp
          · rw [hp] at h; linarith
          · rw [hp] at h; push_cast at h; linarith
      have := key r.1 zc.1 zc.2
      rw [this]
      simp only [z]
      cases n <;> simp
      constructor <;> intro h <;> linarith

theorem intRounds_unique (rnd : Rnd) (q : ℚ) (z w : ℤ) (h : IntRounds rnd q z) (h' : IntRounds rnd q w) : z = w := by
  cases rnd <;> simp only [IntRounds] at h h'
  · by_contra hne
    obtain ⟨a, b⟩ := h; obtain ⟨c, d⟩ := h'
    have := abs_le.1 a; have := abs_le.1 c
    have e1 : (z:ℚ) - w ≤ 1 := by linarith
    have e2 : (w:ℚ) - z ≤ 1 := by linarith
    have e1' : z - w ≤ 1 := by exact_mod_cast e1
    have e2' : w - z ≤ 1 := by exact_mod_cast e2
    rcases (show z = w + 1 ∨ w = z + 1 by omega) with h1 | h1
    · have zc : (z:ℚ) = w + 1 := by exact_mod_cast h1
      have i1 : (z:ℚ) - q = 1 / 2 := by linarith
      have i2 : (w:ℚ) - q = -(1 / 2) := by linarith
      have := b (by rw [i1]; norm_num)
      have := d (by rw [i2]; norm_num)
      omega
    · have zc : (w:ℚ) = z + 1 := by exact_mod_cast h1
      have i1 : (w:ℚ) - q = 1 / 2 := by linarith
      have i2 : (z:ℚ) - q = -(1 / 2) := by linarith
      have := d (by rw [i1]; norm_num)
      have := b (by rw [i2]; norm_num)
      omega
  all_goals rw [h, h']

theorem fclassOk (a : Word) : fclassMask a = match fp a with
    | .inf n => if n then 1 else 0x80
    | .nan s => if s then 0x100 else 0x200
    | .fin n m e => if m = 0 then (if n then 8 else 0x10)
      else if |numOf (.fin n m e)| < 2 ^ (-126 : Int) then (if n then 4 else 0x20) else (if n then 2 else 0x40) := by
  have hl := a.isLt
  have neg : (a.toNat / 2147483648 % 2 == 1) = (a.toNat / 2147483648 == 1) := by
    rw [Nat.mod_eq_of_lt (by omega)]
  have hfr : a.toNat % 2147483648 % 8388608 = a.toNat % 8388608 := by omega
  have hex : a.toNat % 2147483648 / 8388608 = a.toNat / 8388608 % 256 := by omega
  have key : fp a = (if a.toNat / 8388608 % 256 = 255 then
      if a.toNat % 8388608 = 0 then .inf (a.toNat / 2147483648 == 1) else .nan (a.toNat % 8388608 / 4194304 == 0)
    else if a.toNat / 8388608 % 256 = 0 then .fin (a.toNat / 2147483648 == 1) (a.toNat % 8388608) (-149)
    else .fin (a.toNat / 2147483648 == 1) (a.toNat % 8388608 + 8388608) (-149 + (a.toNat / 8388608 % 256 - 1 : Nat))) := by
    show decodeF FP32 a.toNat = _
    have sw : FP32.signW = 2147483648 := by decide
    have pw : 2 ^ (FP32.p - 1) = 8388608 := by decide
    have pw2 : 2 ^ (FP32.p - 2) = 4194304 := by decide
    have eb : 2 ^ FP32.eb - 1 = 255 := by decide
    have um : FP32.umin = -149 := by decide
    simp only [decodeF, sw, pw, pw2, eb, um, neg, hfr, hex]
  rw [key]
  have e31 : (2:Nat) ^ 31 = 2147483648 := by norm_num
  have e23 : (2:Nat) ^ 23 = 8388608 := by norm_num
  have e22 : (2:Nat) ^ 22 = 4194304 := by norm_num
  simp only [fclassMask, e31, e23, e22]
  have hfl : a.toNat % 8388608 < 8388608 := Nat.mod_lt _ (by norm_num)
  clear key neg hfr hex
  generalize (a.toNat / 2147483648 == 1) = n at *
  generalize a.toNat % 8388608 = fr at *
  generalize a.toNat / 8388608 % 256 = ex at *
  have av : ∀ (n : Bool) (m : Nat) (e : Int), |numOf (.fin n m e)| = m * 2 ^ e := by
    intro n m e
    have : (0:ℚ) ≤ m * 2 ^ e := by positivity
    cases n
    · simp [numOf]
    · simp [numOf]
  by_cases h1 : ex = 255
  · simp only [h1, if_true]
    by_cases h2 : fr = 0
    · simp only [h2, if_true]; cases n <;> rfl
    · simp only [h2, if_false]
      by_cases h3 : fr < 4194304
      · rw [if_pos h3]
        have : (fr / 4194304 == 0) = true := by simp [Nat.div_eq_of_lt h3]
        rw [this]; rfl
      · rw [if_neg h3]
        have : (fr / 4194304 == 0) = false := by
          have : fr / 4194304 ≠ 0 := by omega
          simpa using this
        rw [this]; rfl
  · simp only [h1, if_false]
    by_cases h2 : ex = 0
    · simp only [h2, if_true]
      by_cases h3 : fr = 0
      · simp only [h3, if_true]; cases n <;> rfl
      · simp only [h3, if_false]
        have : (fr:ℚ) * 2 ^ (-149 : Int) < 2 ^ (-126 : Int) := by
          have h5 : (2:ℚ) ^ (-126 : Int) = 8388608 * 2 ^ (-149 : Int) := by norm_num
          rw [h5]
          have h6 : (fr:ℚ) < 8388608 := by exact_mod_cast hfl
          have : (0:ℚ) < 2 ^ (-149 : Int) := by positivity
          exact mul_lt_mul_of_pos_right h6 this
        rw [av, if_pos this]
        cases n <;> rfl
    · simp only [h2, if_false]
      have h3 : ¬ (fr + 8388608 = 0) := by omega
      simp only [h3, if_false]
      have : ¬ (((fr + 8388608 : Nat):ℚ) * 2 ^ (-149 + ((ex - 1 : Nat) : Int)) < 2 ^ (-126 : Int)) := by
        rw [not_lt]
        have h5 : (2:ℚ) ^ (-126 : Int) = 8388608 * 2 ^ (-149 : Int) := by norm_num
        have h6 : (2:ℚ) ^ (-149 : Int) ≤ 2 ^ (-149 + ((ex - 1 : Nat) : Int)) := zpow_le_zpow_right₀ (by norm_num) (by omega)
        have h7 : (8388608:ℚ) ≤ ((fr + 8388608 : Nat):ℚ) := by push_cast; linarith [show (0:ℚ) ≤ fr by positivity]
        rw [h5]
        have : (0:ℚ) < 2 ^ (-149 : Int) := by positivity
        nlinarith
      rw [av, if_neg this]
      cases n <;> rfl

theorem zeroFlag {f : Fmt} {rnd : Rnd} {neg : Bool} {x : ℝ} {c fl : Nat} (h : Rounds f rnd neg x c fl) (hf : fl = 0) :
    finite (decodeF f c) = true ∧ (decodeF f c).sign = neg ∧ (numOf (decodeF f c) : ℝ) = x := by
  by_cases hr : Reaches f rnd neg |x| (2 ^ ((2 ^ (f.eb - 1) : Nat) - f.p : Int))
  · have := (h.beyond hr).2; rw [hf] at this; simp [fOF, fNX] at this
  · have w := h.within hr
    refine ⟨w.1, w.2.1, ?_⟩
    by_contra hne
    have := (h.inexact hr hne).1
    rw [hf] at this; simp [fNX, fUF] at this

/-- a representable number rounds to itself -/
theorem exact_code (f : Fmt) (hp : 2 ≤ f.p) (heb : 2 ≤ f.eb) (rnd : Rnd) (hr : rnd = .ne) (v : FVal) (hv : finite v = true) (h0 : numOf v ≠ 0)
    (d : Nat) (hd : finite (decodeF f d) = true) (he : numOf (decodeF f d) = numOf v) :
    (roundV f rnd v).2 = 0 ∧ finite (decodeF f (roundV f rnd v).1) = true ∧ numOf (decodeF f (roundV f rnd v).1) = numOf v ∧
    (decodeF f (roundV f rnd v).1).sign = decide (numOf v < 0) := by
  subst hr
  have R := roundV_rounds f hp heb .ne v hv (numOf v) rfl (by exact_mod_cast h0)
  have hn : decide (((numOf v : ℚ) : ℝ) < 0) = decide (numOf v < 0) := by
    apply decide_eq_decide.2; exact_mod_cast Iff.rfl
  rw [hn] at R
  obtain ⟨sg, c, hc, -, hg⟩ := fin_dec f hp heb d hd
  have hE : 4 ≤ 2 ^ f.eb := by
    calc 4 = 2 ^ 2 := by norm_num
      _ ≤ _ := Nat.pow_le_pow_right (by norm_num) heb
  have hEE : 2 ^ f.eb = 2 * 2 ^ (f.eb - 1) := by
    conv_lhs => rw [show f.eb = (f.eb - 1) + 1 by omega]
    rw [pow_succ]; ring
  have hPP := pow_p f hp
  have hP : 2 ≤ 2 ^ (f.p - 1) := by
    calc 2 = 2 ^ 1 := by norm_num
      _ ≤ _ := Nat.pow_le_pow_right (by norm_num) (by omega)
  have hcode : f.infCode - 1 = (2 ^ f.eb - 3) * 2 ^ (f.p - 1) + (2 ^ f.p - 1) := by
    have h1 : (2 ^ f.eb - 1) * 2 ^ (f.p - 1) = (2 ^ f.eb - 3) * 2 ^ (f.p - 1) + 2 * 2 ^ (f.p - 1) := by
      rw [← add_mul]; congr 1; omega
    unfold Fmt.infCode; omega
  have hmax : g f (f.infCode - 1) = (2 ^ f.p - 1) * 2 ^ (((2 ^ (f.eb - 1) : Nat) : Int) - f.p) := by
    rw [hcode, g_norm f hp _ _ (by omega) (.inr (by omega))]
    have h1 : f.umin + ((2 ^ f.eb - 3 : Nat) : Int) = ((2 ^ (f.eb - 1) : Nat) : Int) - f.p := by
      have hum : f.umin = 3 - ((2 ^ (f.eb - 1) : Nat) : Int) - f.p := rfl
      rw [hum]; omega
    rw [h1]
    have : ((2 ^ f.p - 1 : Nat) : ℝ) = 2 ^ f.p - 1 := by
      rw [Nat.cast_sub (by omega)]; push_cast; ring
    rw [this]
  have hle : |((numOf v : ℚ) : ℝ)| ≤ g f (f.infCode - 1) := by
    rw [← he, hg, abs_mul, abs_of_nonneg (g_nonneg f c)]
    have : g f c ≤ g f (f.infCode - 1) := (g_mono f hp).monotone (by omega)
    cases sg <;> simpa using this
  have hnr : ¬ Reaches f .ne (decide (numOf v < 0)) |((numOf v : ℚ) : ℝ)| (2 ^ ((2 ^ (f.eb - 1) : Nat) - f.p : Int)) := by
    simp only [Reaches, not_le]
    have pw : (0:ℝ) < 2 ^ (((2 ^ (f.eb - 1) : Nat) : Int) - f.p) := by positivity
    refine lt_of_le_of_lt hle ?_
    rw [hmax]
    exact mul_lt_mul_of_pos_right (by linarith) pw
  have w := R.within hnr
  have hb := (w.2.2.2 d hd).1
  rw [he, sub_self, abs_zero] at hb
  have hx := abs_eq_zero.1 (le_antisymm hb (abs_nonneg _))
  have hx2 : numOf (decodeF f (roundV f .ne v).1) = numOf v := by exact_mod_cast sub_eq_zero.1 hx
  exact ⟨R.exact hnr (by exact_mod_cast hx2), w.1, hx2, w.2.1⟩

/-- q × 2^j is a code -/
theorem small_code (q : Nat) (h0 : q ≠ 0) (hq : q ≤ 2 ^ 24) (j : Int) (hj : -149 ≤ j) (hj2 : j ≤ 103) (n : Bool) :
    ∃ d, finite (decodeF FP32 d) = true ∧ numOf (decodeF FP32 d) = (if n then -1 else 1) * (q * 2 ^ j) := by
  have hum : FP32.umin = -149 := by decide
  have hinf : FP32.infCode = 2139095040 := by decide
  obtain ⟨lg, hlg⟩ : ∃ lg, lg = Nat.log2 q := ⟨_, rfl⟩
  have hl1 : 2 ^ lg ≤ q := by rw [hlg]; exact Nat.log2_self_le h0
  have hl2 : q < 2 ^ (lg + 1) := by rw [hlg]; exact Nat.lt_log2_self
  have hl24 : lg ≤ 24 := by
    by_contra hc
    have : 2 ^ 25 ≤ 2 ^ lg := Nat.pow_le_pow_right (by norm_num) (by omega)
    norm_num at *; omega
  -- the shift that keeps the exponent in range
  obtain ⟨t, ht⟩ : ∃ t : Nat, t = min (23 - lg) (j + 149).toNat := ⟨_, rfl⟩
  have hq24 : q * 2 ^ t ≤ 2 ^ 24 := by
    by_cases h : lg = 24
    · have : t = 0 := by omega
      rw [this]; simpa using hq
    · calc q * 2 ^ t ≤ 2 ^ (lg + 1) * 2 ^ t := Nat.mul_le_mul_right _ hl2.le
        _ = 2 ^ (lg + 1 + t) := (pow_add _ _ _).symm
        _ ≤ 2 ^ 24 := Nat.pow_le_pow_right (by norm_num) (by omega)
  obtain ⟨k, hk⟩ : ∃ k : Nat, k = (j + 149).toNat - t := ⟨_, rfl⟩
  have hor : k = 0 ∨ 2 ^ (FP32.p - 1) ≤ q * 2 ^ t := by
    by_cases h : k = 0
    · exact .inl h
    · right
      have ht2 : t = 23 - lg := by omega
      show 2 ^ 23 ≤ _
      calc 2 ^ 23 ≤ 2 ^ (lg + t) := Nat.pow_le_pow_right (by norm_num) (by omega)
        _ = 2 ^ lg * 2 ^ t := pow_add _ _ _
        _ ≤ q * 2 ^ t := Nat.mul_le_mul_right _ hl1
  have hG := g_norm FP32 (by decide) k (q * 2 ^ t) hq24 hor
  have hval : ((q * 2 ^ t : Nat) : ℝ) * 2 ^ (FP32.umin + (k : Int)) = q * 2 ^ j := by
    push_cast
    rw [mul_assoc]; congr 1
    rw [← zpow_natCast, ← zpow_add₀ (by norm_num)]; congr 1
    rw [hum]; omega
  have hp : 2 ^ (FP32.p - 1) = 8388608 := by decide
  have hlt : k * 2 ^ (FP32.p - 1) + q * 2 ^ t < FP32.infCode := by
    rw [hp, hinf]
    have : k ≤ 252 := by omega
    have : q * 2 ^ t ≤ 16777216 := by simpa using hq24
    omega
  obtain ⟨d1, -, d3⟩ := dec_fin FP32 (by decide) (by decide) n _ hlt
  refine ⟨_, d1, ?_⟩
  rw [hG, hval] at d3
  have : ((numOf (decodeF FP32 ((if n then FP32.signW else 0) + (k * 2 ^ (FP32.p - 1) + q * 2 ^ t))) : ℚ) : ℝ) = (((if n then -1 else 1) * (q * 2 ^ j) : ℚ) : ℝ) := by
    rw [d3]; cases n <;> simp
  exact_mod_cast this

/-- an exactly representable value, at register level -/
theorem exact32 (v : FVal) (hv : finite v = true) (h0 : numOf v ≠ 0) (q : Nat) (hq0 : q ≠ 0) (hq : q ≤ 2 ^ 24) (j : Int) (hj : -149 ≤ j) (hj2 : j ≤ 103)
    (n : Bool) (hval : numOf v = (if n then -1 else 1) * (q * 2 ^ j)) :
    (roundV FP32 .ne v).2 = 0 ∧ finite (fp (BitVec.ofNat 32 (roundV FP32 .ne v).1)) = true ∧
    numOf (fp (BitVec.ofNat 32 (roundV FP32 .ne v).1)) = numOf v ∧
    (fp (BitVec.ofNat 32 (roundV FP32 .ne v).1)).sign = decide (numOf v < 0) := by
  obtain ⟨d, hd, he⟩ := small_code q hq0 hq j hj hj2 n
  have := exact_code FP32 (by decide) (by decide) .ne rfl v hv h0 d hd (by rw [he, hval])
  have hlt : (roundV FP32 .ne v).1 < 2 ^ 32 := by
    have R := roundV_rounds FP32 (by decide) (by decide) .ne v hv (numOf v) rfl (by exact_mod_cast h0)
    by_cases hr : Reaches FP32 .ne (decide (((numOf v : ℚ) : ℝ) < 0)) |((numOf v : ℚ) : ℝ)| (2 ^ ((2 ^ (FP32.eb - 1) : Nat) - FP32.p : Int))
    · rw [(R.beyond hr).1]; show _ + FP32.infCode < _; split <;> decide
    · have := (R.within hr).2.2.1; simpa [FP32, Fmt.signW] using this
  unfold fp
  rw [BitVec.toNat_ofNat, Nat.mod_eq_of_lt hlt]
  exact this

/-- the integral magnitude of `frnd` -/
theorem integral_ok (mode : FrMode) (n : Bool) (m : Nat) (e : Int) :
    IntegralOf mode (numOf (.fin n m e)) (if n then -(integral mode n m e : Int) else integral mode n m e) := by
  cases mode
  · exact (roundAt_int .ne n m e).1
  · exact (roundAt_int .rz n m e).1
  · exact (roundAt_int .rp n m e).1
  · exact (roundAt_int .rm n m e).1
  · simp only [IntegralOf, integral]
    by_cases he : 0 ≤ e
    · have hz : (((if n then -((m * 2 ^ e.toNat : Nat) : Int) else ((m * 2 ^ e.toNat : Nat) : Int)) : ℤ) : ℚ) = numOf (.fin n m e) := by
        have : (2:ℚ) ^ e = 2 ^ e.toNat := by rw [← zpow_natCast]; congr 1; omega
        simp only [numOf, this]
        cases n <;> simp
      simp only [he, if_true]
      push_cast at hz ⊢
      rw [hz]; simp
    · simp only [he, if_false]
      obtain ⟨k, rfl⟩ : ∃ k : Nat, e = -(k:Int) := ⟨(-e).toNat, by omega⟩
      rw [neg_neg, Int.toNat_natCast]
      have hd : (2:ℚ) ^ (-(k:Int)) = 1 / (2 ^ k : Nat) := by rw [zpow_neg, zpow_natCast]; simp
      set d := 2 ^ k with hdd
      have hd0 : 0 < d := by positivity
      have hrs := rat_split m d hd0
      have hsl := Nat.mod_lt m hd0
      set q := m / d
      set s := m % d
      obtain ⟨t, ht⟩ : ∃ t : ℚ, t = (s:ℚ) / d := ⟨_, rfl⟩
      have dq : (0:ℚ) < d := by exact_mod_cast hd0
      have t0 : 0 ≤ t := by rw [ht]; positivity
      have t1 : t < 1 := by rw [ht, div_lt_one dq]; exact_mod_cast hsl
      rw [← ht] at hrs
      have hv : numOf (.fin n m (-(k:Int))) = if n then -(q + t) else q + t := by
        simp only [numOf, hd]
        have e1 : (m:ℚ) * (1 / d) = q + t := by rw [mul_one_div]; exact hrs
        cases n
        · simp; rw [← e1]; simp
        · simp; rw [show -t + -(q:ℚ) = -(q + t) by ring, ← e1]; simp
      have hh : d ≤ 2 * s ↔ 1 / 2 ≤ t := by
        rw [ht, le_div_iff₀ dq]; constructor
        · intro h; have : (d:ℚ) ≤ 2 * s := by exact_mod_cast h
          linarith
        · intro h; have : (d:ℚ) ≤ 2 * s := by linarith
          exact_mod_cast this
      have key : ∀ p : Nat, p = (if d ≤ 2 * s then q + 1 else q) → |(p:ℚ) - (q + t)| ≤ 1 / 2 ∧ (|(p:ℚ) - (q + t)| = 1 / 2 → (q:ℚ) + t ≤ p) := by
        intro p hp
        split at hp
        · next h =>
          rw [hh] at h
          rw [hp]; push_cast
          rw [show (q:ℚ) + 1 - (q + t) = 1 - t by ring, abs_of_nonneg (by linarith)]
          exact ⟨by linarith, fun _ => by linarith⟩
        · next h =>
          rw [hh] at h
          rw [hp, show (q:ℚ) - (q + t) = -t by ring, abs_neg, abs_of_nonneg t0]
          exact ⟨by linarith, fun h' => by linarith⟩
      have := key _ rfl
      generalize (if d ≤ 2 * s then q + 1 else q) = p at *
      rw [hv]
      have hp0 : (0:ℚ) ≤ p := by positivity
      have hq0 : (0:ℚ) ≤ q := by positivity
      cases n
      · simp only [Bool.false_eq_true, if_false]; push_cast
        rw [abs_of_nonneg (show (0:ℚ) ≤ q + t by positivity), abs_of_nonneg hp0]; exact this
      · simp only [if_true]; push_cast
        rw [show -(p:ℚ) - -(q + t) = -((p:ℚ) - (q + t)) by ring, abs_neg, abs_neg, abs_of_nonneg (show (0:ℚ) ≤ q + t by positivity), abs_neg, abs_of_nonneg hp0]
        exact this

theorem fp_bounds (a : Word) (n : Bool) (m : Nat) (e : Int) (h : fp a = .fin n m e) : m < 2 ^ 24 ∧ -149 ≤ e ∧ e ≤ 104 := by
  have um : FP32.umin = -149 := by decide
  have p1 : 2 ^ (FP32.p - 1) = 8388608 := by decide
  have p2 : 2 ^ FP32.eb - 1 = 255 := by decide
  have sw : FP32.signW = 2147483648 := by decide
  unfold fp decodeF at h
  simp only [um, p1, p2, sw] at h
  split at h
  · split at h <;> simp at h
  · split at h
    · simp only [FVal.fin.injEq] at h
      obtain ⟨-, h1, h2⟩ := h
      constructor
      · norm_num; omega
      · omega
    · next h3 h4 =>
      simp only [FVal.fin.injEq] at h
      obtain ⟨-, h1, h2⟩ := h
      constructor
      · norm_num; omega
      · have : BitVec.toNat a % 2147483648 / 8388608 < 256 := by omega
        omega

theorem integral_val (mode : FrMode) (n : Bool) (m : Nat) (e : Int) (hm : m < 2 ^ 24) :
    (0 ≤ e → integral mode n m e = m * 2 ^ e.toNat) ∧ (e < 0 → integral mode n m e ≤ 2 ^ 24) := by
  constructor
  · intro h; cases mode <;> simp [integral, roundAt, h]
  · intro h
    have hd : 2 ≤ 2 ^ (-e).toNat := by
      calc 2 = 2 ^ 1 := by norm_num
        _ ≤ _ := Nat.pow_le_pow_right (by norm_num) (by omega)
    have hq : m / 2 ^ (-e).toNat + 1 ≤ 2 ^ 24 := by
      have : m / 2 ^ (-e).toNat ≤ m / 2 := Nat.div_le_div_left hd (by norm_num)
      omega
    have ne0 : ¬ 0 ≤ e := by omega
    have hz : (0 - e).toNat = (-e).toNat := by simp
    cases mode <;> simp only [integral, roundAt, if_neg ne0, hz] <;> split <;> omega

theorem frndOk (mode : FrMode) (a : Word) :
    let f : Word × Nat := let r := frndF mode (fp a); (BitVec.ofNat 32 r.1, r.2)
    ((fp a).isNaN = true → f = nan32 (fp a).isSig) ∧ ((fp a).isInf = true → f = (a, 0)) ∧
      (finite (fp a) = true → f.2 = 0 ∧ (fp f.1).sign = (fp a).sign ∧ finite (fp f.1) = true ∧
        ∃ z : ℤ, numOf (fp f.1) = z ∧ IntegralOf mode (numOf (fp a)) z) := by
  intro f
  refine ⟨?_, ?_, ?_⟩
  · intro h
    cases hx : fp a <;> simp [hx, FVal.isNaN] at h
    simp only [f, hx, frndF, nan32, FVal.isSig]
    rfl
  · intro h
    cases hx : fp a <;> simp [hx, FVal.isInf] at h
    next n =>
    have := inf_code n a hx
    simp only [f, hx, frndF, rvI, this]
    cases n <;> rfl
  · intro h
    cases hx : fp a <;> simp [hx, finite] at h
    next n m e =>
    obtain ⟨b1, b2, b3⟩ := fp_bounds a n m e hx
    have hi := integral_ok mode n m e
    obtain ⟨i1, i2⟩ := integral_val mode n m e b1
    have hf : f = (BitVec.ofNat 32 (roundV FP32 .ne (.fin n (integral mode n m e) 0)).1, 0) := by
      simp only [f, hx, frndF]
    rw [hf]
    generalize hq : integral mode n m e = q at *
    have hnum : numOf (.fin n q 0) = ((if n then -(q:Int) else q : ℤ) : ℚ) := by cases n <;> simp [numOf]
    by_cases hq0 : q = 0
    · rw [hq0, roundV_zero]
      have : fp (BitVec.ofNat 32 (if n = true then 2147483648 else 0)) = .fin n 0 (-149) := by
        cases n <;> rfl
      simp only [this]
      refine ⟨trivial, rfl, rfl, 0, by simp [numOf], ?_⟩
      rw [hq0] at hi
      cases n <;> simpa using hi
    · have hne : numOf (.fin n q 0) ≠ 0 := by rw [ne_eq, num0]; exact hq0
      have hs : decide (numOf (.fin n q 0) < 0) = n := by
        have : 0 < q := Nat.pos_of_ne_zero hq0
        cases n <;> simp [numOf] <;> omega
      have E : (roundV FP32 .ne (.fin n q 0)).2 = 0 ∧ finite (fp (BitVec.ofNat 32 (roundV FP32 .ne (.fin n q 0)).1)) = true ∧
          numOf (fp (BitVec.ofNat 32 (roundV FP32 .ne (.fin n q 0)).1)) = numOf (.fin n q 0) ∧
          (fp (BitVec.ofNat 32 (roundV FP32 .ne (.fin n q 0)).1)).sign = decide (numOf (.fin n q 0) < 0) := by
        by_cases he : 0 ≤ e
        · by_cases hm0 : m = 0
          · exfalso; have := i1 he; rw [hm0] at this; simp at this; exact hq0 this
          · have hv2 : numOf (.fin n q 0) = numOf (.fin n m e) := by
              rw [i1 he]
              have : (2:ℚ) ^ e = 2 ^ e.toNat := by rw [← zpow_natCast]; congr 1; omega
              simp [numOf, this]
            by_cases h104 : e ≤ 103
            · exact exact32 _ rfl hne m hm0 b1.le e b2 h104 n (by rw [hv2]; simp [numOf])
            · -- the top binade: the code of a itself
              have hd : finite (decodeF FP32 a.toNat) = true := by show finite (fp a) = true; rw [hx]; rfl
              have hde : numOf (decodeF FP32 a.toNat) = numOf (.fin n q 0) := by show numOf (fp a) = _; rw [hx, hv2]
              have := exact_code FP32 (by decide) (by decide) .ne rfl (.fin n q 0) rfl hne a.toNat hd hde
              have hlt : (roundV FP32 .ne (.fin n q 0)).1 < 2 ^ 32 := by
                have R := roundV_rounds FP32 (by decide) (by decide) .ne (.fin n q 0) rfl (numOf (.fin n q 0)) rfl (by exact_mod_cast hne)
                by_cases hr : Reaches FP32 .ne (decide (((numOf (.fin n q 0) : ℚ) : ℝ) < 0)) |((numOf (.fin n q 0) : ℚ) : ℝ)| (2 ^ ((2 ^ (FP32.eb - 1) : Nat) - FP32.p : Int))
                · rw [(R.beyond hr).1]; show _ + FP32.infCode < _; split <;> decide
                · have := (R.within hr).2.2.1; simpa [FP32, Fmt.signW] using this
              unfold fp
              rw [BitVec.toNat_ofNat, Nat.mod_eq_of_lt hlt]
              exact this
        · have := i2 (by omega)
          exact exact32 _ rfl hne q hq0 this 0 (by norm_num) (by norm_num) n (by simp [numOf])
      obtain ⟨e1, e2, e3, e4⟩ := E
      refine ⟨rfl, ?_, e2, _, ?_, hi⟩
      · rw [e4, hs]; rfl
      · rw [e3, hnum]


theorem fin_rounds (fm : Fmt) (h : fm ∈ [FP16, BF16]) (v : FVal) (hv : finite v = true) (x : ℚ) (hx : numOf v = x) (h0 : x ≠ 0) :
    Rounds fm .ne (decide (x < 0)) (x : ℝ) (roundV fm .ne v).1 (roundV fm .ne v).2 := by
  have hp : 2 ≤ fm.p ∧ 2 ≤ fm.eb := by
    simp at h; rcases h with rfl | rfl <;> decide
  have := roundV_rounds fm hp.1 hp.2 .ne v hv x (by rw [hx]) (by exact_mod_cast h0)
  have hn : decide (((x : ℚ) : ℝ) < 0) = decide (x < 0) := by
    apply decide_eq_decide.2; exact_mod_cast Iff.rfl
  rwa [hn] at this

/-! square roots -/

theorem isqrtAux_ok (k r n : Nat) (h1 : r * r ≤ n) (h2 : n < (r + 2 ^ k) * (r + 2 ^ k)) :
    isqrtAux k r n * isqrtAux k r n ≤ n ∧ n < (isqrtAux k r n + 1) * (isqrtAux k r n + 1) := by
  induction k generalizing r with
  | zero => exact ⟨h1, by simpa [isqrtAux] using h2⟩
  | succ k ih =>
    unfold isqrtAux
    split
    · next h =>
      apply ih _ h
      rw [pow_succ] at h2
      rw [add_assoc, ← mul_two]; exact h2
    · next h => exact ih _ h1 (not_le.1 h)

theorem isqrt_ok (n : Nat) : isqrt n * isqrt n ≤ n ∧ n < (isqrt n + 1) * (isqrt n + 1) := by
  apply isqrtAux_ok
  · simp
  · rw [zero_add, ← pow_add]
    rcases Nat.eq_zero_or_pos n with rfl | h
    · positivity
    · calc n < 2 ^ (Nat.log2 n + 1) := Nat.lt_log2_self
        _ ≤ _ := Nat.pow_le_pow_right (by norm_num) (by omega)

theorem sqrt_scale (y : ℝ) (q : Nat) (hq : (q:ℝ) * q ≤ y) (hq2 : y < (q + 1) * (q + 1)) :
    (q:ℝ) ≤ Real.sqrt y ∧ Real.sqrt y < q + 1 := by
  constructor
  · exact Real.le_sqrt_of_sq_le (by rw [sq]; exact hq)
  · rw [Real.sqrt_lt' (by positivity), sq]; exact hq2

theorem rootF (f : Fmt) (hp : 2 ≤ f.p) (heb : 2 ≤ f.eb) (q : Nat) (x : Int) (st : Bool) (y : ℝ)
    (h1 : q * (2:ℝ) ^ x ≤ y) (h2 : y < (q + 1) * (2:ℝ) ^ x) (hst : st = true ↔ y ≠ q * (2:ℝ) ^ x) (hq : 2 ^ (f.p + 1) ≤ q) :
    Rounds f .ne (decide (y < 0)) y (roundMag f .ne false q x st).1 (roundMag f .ne false q x st).2 := by
  have hq0 : q ≠ 0 := (lt_of_lt_of_le (Nat.two_pow_pos _) hq).ne'
  have : (0:ℝ) < q * (2:ℝ) ^ x := by
    have : (0:ℝ) < q := by exact_mod_cast Nat.pos_of_ne_zero hq0
    positivity
  have hn : decide (y < 0) = false := by simp; linarith
  rw [hn]
  exact rounds f hp heb .ne false q x st y y (by simp) hq0 h1 h2 hst (fun _ => hq)

theorem sqrtNum (f : Fmt) (hp : 2 ≤ f.p) (heb : 2 ≤ f.eb) (m : Nat) (e : Int) (h1 : ¬ m = 0) :
    Rounds f .ne (decide (Real.sqrt ((m:ℝ) * 2 ^ e) < 0)) (Real.sqrt ((m:ℝ) * 2 ^ e))
      (sqrtF f (.fin false m e)).1 (sqrtF f (.fin false m e)).2 := by
  simp only [sqrtF, h1, if_false]
  obtain ⟨k, hk⟩ : ∃ k : Nat, k = 2 * (f.p + 4) + (e % 2).toNat := ⟨_, rfl⟩
  have hd : sqrtMag f.p m e = (isqrt (m * 2 ^ k), (e - k) / 2, isqrt (m * 2 ^ k) * isqrt (m * 2 ^ k) != m * 2 ^ k) := by
    rw [hk]; rfl
  rw [hd]
  obtain ⟨x, hx⟩ : ∃ x : Int, e - k = 2 * x := ⟨(e - k) / 2, by omega⟩
  have hx2 : (e - k) / 2 = x := by omega
  rw [hx2]
  obtain ⟨i1, i2⟩ := isqrt_ok (m * 2 ^ k)
  set q := isqrt (m * 2 ^ k)
  have hm : 1 ≤ m := Nat.one_le_iff_ne_zero.2 h1
  have hsq : Real.sqrt ((m:ℝ) * 2 ^ e) = Real.sqrt (((m * 2 ^ k : Nat) : ℝ)) * 2 ^ x := by
    have h3 : (m:ℝ) * 2 ^ e = ((m * 2 ^ k : Nat) : ℝ) * (2 ^ x) ^ 2 := by
      push_cast
      rw [mul_assoc, ← zpow_natCast (2:ℝ) k, ← zpow_natCast, ← zpow_mul, ← zpow_add₀ (by norm_num)]
      congr 2; push_cast; omega
    rw [h3, Real.sqrt_mul (by positivity), Real.sqrt_sq (by positivity)]
  have px : (0:ℝ) < 2 ^ x := by positivity
  obtain ⟨s1, s2⟩ := sqrt_scale ((m * 2 ^ k : Nat) : ℝ) q (by exact_mod_cast i1) (by exact_mod_cast i2)
  rw [hsq]
  apply rootF f hp heb
  · exact mul_le_mul_of_nonneg_right s1 px.le
  · exact mul_lt_mul_of_pos_right s2 px
  · show (q * q != m * 2 ^ k) = true ↔ _
    rw [ne_eq, mul_left_inj' px.ne', Real.sqrt_eq_iff_mul_self_eq (by positivity) (by positivity)]
    have : (((m * 2 ^ k : Nat) : ℝ) = (q:ℝ) * q) ↔ m * 2 ^ k = q * q := by exact_mod_cast Iff.rfl
    rw [this, bne_iff_ne, ne_comm]
  · by_contra hc
    have hc2 : q + 1 ≤ 2 ^ (f.p + 1) := by omega
    have h4 : (q + 1) * (q + 1) ≤ 2 ^ (f.p + 1) * 2 ^ (f.p + 1) := Nat.mul_le_mul hc2 hc2
    have h5 : 2 ^ (f.p + 1) * 2 ^ (f.p + 1) ≤ 2 ^ k := by
      rw [← pow_add]; exact Nat.pow_le_pow_right (by norm_num) (by omega)
    have h6 : 2 ^ k ≤ m * 2 ^ k := Nat.le_mul_of_pos_left _ hm
    omega

theorem rsqNum (f : Fmt) (hp : 2 ≤ f.p) (heb : 2 ≤ f.eb) (m : Nat) (e : Int) (h1 : ¬ m = 0) :
    Rounds f .ne (decide (1 / Real.sqrt ((m:ℝ) * 2 ^ e) < 0)) (1 / Real.sqrt ((m:ℝ) * 2 ^ e))
      (rsqF f (.fin false m e)).1 (rsqF f (.fin false m e)).2 := by
  simp only [rsqF, h1, if_false]
  obtain ⟨k, hk⟩ : ∃ k : Nat, k = 2 * (f.p + 4) + 2 * (Nat.log2 m + 1) + ((-e) % 2).toNat := ⟨_, rfl⟩
  have hd : rsqMag f.p m e = (isqrt (2 ^ k / m), (-e - k) / 2, isqrt (2 ^ k / m) * isqrt (2 ^ k / m) * m != 2 ^ k) := by
    rw [hk]; rfl
  rw [hd]
  obtain ⟨x, hx⟩ : ∃ x : Int, -e - k = 2 * x := ⟨(-e - k) / 2, by omega⟩
  have hx2 : (-e - k) / 2 = x := by omega
  rw [hx2]
  obtain ⟨i1, i2⟩ := isqrt_ok (2 ^ k / m)
  set q := isqrt (2 ^ k / m)
  have hm : 0 < m := Nat.pos_of_ne_zero h1
  have mR : (0:ℝ) < m := by exact_mod_cast hm
  -- the real number under the root
  obtain ⟨y, hy⟩ : ∃ y : ℝ, y = 2 ^ k / m := ⟨_, rfl⟩
  have y0 : 0 < y := by rw [hy]; positivity
  have hsq : 1 / Real.sqrt ((m:ℝ) * 2 ^ e) = Real.sqrt y * 2 ^ x := by
    have h3 : y = (1 / Real.sqrt ((m:ℝ) * 2 ^ e) / 2 ^ x) ^ 2 := by
      rw [hy, div_pow, div_pow, Real.sq_sqrt (by positivity)]
      have h4 : (2:ℝ) ^ e * (2 ^ x) ^ 2 * 2 ^ k = 1 := by
        rw [← zpow_natCast (2:ℝ) k, ← zpow_natCast ((2:ℝ) ^ x), ← zpow_mul, ← zpow_add₀ (by norm_num), ← zpow_add₀ (by norm_num)]
        have : e + x * ((2:ℕ):ℤ) + (k:ℤ) = 0 := by push_cast; omega
        rw [this]; simp
      field_simp
      nlinarith [h4]
    rw [h3, Real.sqrt_sq (by positivity)]
    have : (2:ℝ) ^ x ≠ 0 := by positivity
    field_simp
  have px : (0:ℝ) < 2 ^ x := by positivity
  have j1 : (q:ℝ) * q ≤ y := by
    rw [hy, le_div_iff₀ mR]
    have : q * q * m ≤ 2 ^ k := (Nat.le_div_iff_mul_le hm).1 i1
    exact_mod_cast this
  have j2 : y < (q + 1) * (q + 1) := by
    rw [hy, div_lt_iff₀ mR]
    have : 2 ^ k < (q + 1) * (q + 1) * m := (Nat.div_lt_iff_lt_mul hm).1 i2
    exact_mod_cast this
  obtain ⟨s1, s2⟩ := sqrt_scale y q j1 j2
  rw [hsq]
  apply rootF f hp heb
  · exact mul_le_mul_of_nonneg_right s1 px.le
  · exact mul_lt_mul_of_pos_right s2 px
  · show (q * q * m != 2 ^ k) = true ↔ _
    rw [ne_eq, mul_left_inj' px.ne', Real.sqrt_eq_iff_mul_self_eq y0.le (by positivity), hy, div_eq_iff mR.ne']
    have : ((2:ℝ) ^ k = (q:ℝ) * q * m) ↔ 2 ^ k = q * q * m := by exact_mod_cast Iff.rfl
    rw [this, bne_iff_ne, ne_comm]
  · by_contra hc
    have hc2 : q + 1 ≤ 2 ^ (f.p + 1) := by omega
    have h4 : (q + 1) * (q + 1) ≤ 2 ^ (f.p + 1) * 2 ^ (f.p + 1) := Nat.mul_le_mul hc2 hc2
    have h5 : 2 ^ (f.p + 1) * 2 ^ (f.p + 1) * m ≤ 2 ^ k := by
      have : m ≤ 2 ^ (Nat.log2 m + 1) := Nat.lt_log2_self.le
      calc 2 ^ (f.p + 1) * 2 ^ (f.p + 1) * m ≤ 2 ^ (f.p + 1) * 2 ^ (f.p + 1) * 2 ^ (Nat.log2 m + 1) := Nat.mul_le_mul_left _ this
        _ = 2 ^ (f.p + 1 + (f.p + 1) + (Nat.log2 m + 1)) := by rw [← pow_add, ← pow_add]
        _ ≤ 2 ^ k := Nat.pow_le_pow_right (by norm_num) (by omega)
    have h6 := (Nat.le_div_iff_mul_le hm).2 h5
    omega

theorem rcpOk (a : Word) : let f : Word × Nat := let r := divF FP32 .ne (.fin false 1 0) (fp a); (BitVec.ofNat 32 r.1, r.2)
    ((fp a).isNaN = true → f = nan32 (fp a).isSig) ∧
    ((fp a).isZero = true → f = inf32 (fp a).sign fDZ) ∧ ((fp a).isInf = true → f = zero32 (fp a).sign) ∧
    (finite (fp a) = true → (fp a).isZero = false → Rounds32 .ne (1 / (numOf (fp a) : ℝ)) f) := by
  intro f
  have hnan : FP32.nanCode = 0x7FC00000 := by decide
  refine ⟨?_, ?_, ?_, ?_⟩
  · intro h; cases hx : fp a <;> simp [hx, FVal.isNaN] at h
    simp [f, hx, divF, hnan, nan32, FVal.isSig]; rfl
  · intro h; cases hx : fp a <;> simp [hx, FVal.isZero] at h
    next n m e => cases n <;> simp [f, hx, divF, h, inf32, FVal.sign]
  · intro h; cases hx : fp a <;> simp [hx, FVal.isInf] at h
    next n => cases n <;> simp [f, hx, divF, h, zero32, FVal.sign, roundV_zero]
  · intro h hz; cases hx : fp a <;> simp [hx, finite] at h
    next n m e =>
    have hm : ¬ m = 0 := by simpa [hx, FVal.isZero] using hz
    have := quotNum false n 1 m 0 e (by norm_num) hm
    have e1 : ((numOf (.fin false 1 0) / numOf (.fin n m e) : ℚ) : ℝ) = 1 / (numOf (.fin n m e) : ℝ) := by
      push_cast; congr 1; simp [numOf]
    rw [e1] at this
    simpa [f, hx] using this

theorem inf_pos {a : Word} (h : a = 0x7F800000) : fp a = .inf false := by rw [h]; decide

theorem rsqOk (a : Word) : let f : Word × Nat := let r := rsqF FP32 (fp a); (BitVec.ofNat 32 r.1, r.2)
    ((fp a).isNaN = true → f = nan32 (fp a).isSig) ∧
    ((fp a).isZero = true → f = inf32 (fp a).sign fDZ) ∧ (a = 0x7F800000 → f = zero32 false) ∧
    (((fp a).isInf && (fp a).sign || finite (fp a) && !(fp a).isZero && (fp a).sign) = true → f = nan32 true) ∧
    (finite (fp a) = true → 0 < numOf (fp a) → Rounds32 .ne (1 / Real.sqrt (numOf (fp a))) f) := by
  intro f
  have hnan : FP32.nanCode = 0x7FC00000 := by decide
  refine ⟨?_, ?_, ?_, ?_, ?_⟩
  · intro h; cases hx : fp a <;> simp [hx, FVal.isNaN] at h
    simp [f, hx, rsqF, hnan, nan32, FVal.isSig]; rfl
  · intro h; cases hx : fp a <;> simp [hx, FVal.isZero] at h
    next n m e => cases n <;> simp [f, hx, rsqF, h, inf32, FVal.sign]
  · intro h; have hx := inf_pos h
    simp [f, hx, rsqF, roundV_zero, zero32]
  · intro h; cases hx : fp a <;> simp [hx, FVal.isInf, finite, FVal.sign, FVal.isZero] at h
    · simp [f, hx, rsqF, h, hnan, nan32]
    · simp [f, hx, rsqF, h, hnan, nan32]
  · intro h h0; cases hx : fp a <;> simp [hx, finite] at h
    next n m e =>
    rw [hx] at h0
    have hm : ¬ m = 0 := by rintro rfl; rw [(num0 n 0 e).2 rfl] at h0; exact lt_irrefl _ h0
    have hn : n = false := by
      cases n
      · rfl
      · have : (0:ℚ) ≤ m * 2 ^ e := by positivity
        simp [numOf] at h0; linarith
    subst hn
    have := toNat_round _ _ _ _ (rsqNum FP32 (by decide) (by decide) m e hm)
    have e1 : ((numOf (.fin false m e) : ℚ) : ℝ) = m * 2 ^ e := by rw [numOf_fin]; simp
    rw [e1]
    simp only [f, hx]
    exact this

theorem sqrtOk (a : Word) : let f : Word × Nat := let r := sqrtF FP32 (fp a); (BitVec.ofNat 32 r.1, r.2)
    ((fp a).isNaN = true → f = nan32 (fp a).isSig) ∧
    ((fp a).isZero = true → f = (a, 0)) ∧ (a = 0x7F800000 → f = (a, 0)) ∧
    (((fp a).isInf && (fp a).sign || finite (fp a) && !(fp a).isZero && (fp a).sign) = true → f = nan32 true) ∧
    (finite (fp a) = true → 0 < numOf (fp a) → Rounds32 .ne (Real.sqrt (numOf (fp a))) f) := by
  intro f
  have hnan : FP32.nanCode = 0x7FC00000 := by decide
  refine ⟨?_, ?_, ?_, ?_, ?_⟩
  · intro h; cases hx : fp a <;> simp [hx, FVal.isNaN] at h
    simp [f, hx, sqrtF, hnan, nan32, FVal.isSig]; rfl
  · intro h; cases hx : fp a <;> simp [hx, FVal.isZero] at h
    next n m e =>
    have ha : a = if n then 0x80000000 else 0 := by
      have hb := fp_bounds a n m e hx
      unfold fp decodeF at hx
      have um : FP32.umin = -149 := by decide
      have p1 : 2 ^ (FP32.p - 1) = 8388608 := by decide
      have p2 : 2 ^ FP32.eb - 1 = 255 := by decide
      have sw : FP32.signW = 2147483648 := by decide
      simp only [um, p1, p2, sw] at hx
      split at hx
      · split at hx <;> simp at hx
      · split at hx
        · simp only [FVal.fin.injEq] at hx
          obtain ⟨h1, h2, h3⟩ := hx
          have hl := a.isLt
          apply BitVec.eq_of_toNat_eq
          cases n
          · have : ¬ (a.toNat / 2147483648 % 2 = 1) := by simpa using h1
            simp; omega
          · have : (a.toNat / 2147483648 % 2 = 1) := by simpa using h1
            simp; omega
        · simp only [FVal.fin.injEq] at hx; omega
    simp [f, hx, sqrtF, h, roundV_zero]
    rw [ha]; cases n <;> simp
  · intro h; have hx := inf_pos h
    simp only [f, hx, sqrtF]; rw [h]; simp
  · intro h; cases hx : fp a <;> simp [hx, FVal.isInf, finite, FVal.sign, FVal.isZero] at h
    · simp [f, hx, sqrtF, h, hnan, nan32]
    · simp [f, hx, sqrtF, h, hnan, nan32]
  · intro h h0; cases hx : fp a <;> simp [hx, finite] at h
    next n m e =>
    rw [hx] at h0
    have hm : ¬ m = 0 := by rintro rfl; rw [(num0 n 0 e).2 rfl] at h0; exact lt_irrefl _ h0
    have hn : n = false := by
      cases n
      · rfl
      · have : (0:ℚ) ≤ m * 2 ^ e := by positivity
        simp [numOf] at h0; linarith
    subst hn
    have := toNat_round _ _ _ _ (sqrtNum FP32 (by decide) (by decide) m e hm)
    have e1 : ((numOf (.fin false m e) : ℚ) : ℝ) = m * 2 ^ e := by rw [numOf_fin]; simp
    rw [e1]
    simp only [f, hx]
    exact this

theorem log2Ok (a : Word) : let f : Word × Nat := let r := log2F (fp a); (BitVec.ofNat 32 r.1, r.2)
    ((fp a).isNaN = true → f = nan32 (fp a).isSig) ∧
    ((fp a).isZero = true → f = inf32 true fDZ) ∧ (a = 0x7F800000 → f = (a, 0)) ∧
    (((fp a).isInf && (fp a).sign || finite (fp a) && !(fp a).isZero && (fp a).sign) = true → f = nan32 true) ∧
    (∀ k : ℤ, finite (fp a) = true → numOf (fp a) = 2 ^ k → f.2 = 0 ∧ finite (fp f.1) = true ∧ numOf (fp f.1) = k) := by
  intro f
  have hnan : FP32.nanCode = 0x7FC00000 := by decide
  have hinf : FP32.infCode = 0x7F800000 := by decide
  have sw : FP32.signW = 2147483648 := by decide
  refine ⟨?_, ?_, ?_, ?_, ?_⟩
  · intro h; cases hx : fp a <;> simp [hx, FVal.isNaN] at h
    simp [f, hx, log2F, hnan, nan32, FVal.isSig]; rfl
  · intro h; cases hx : fp a <;> simp [hx, FVal.isZero] at h
    simp [f, hx, log2F, h, inf32, hinf, sw]
  · intro h; have hx := inf_pos h
    simp only [f, hx, log2F, hinf]; rw [h]; simp
  · intro h; cases hx : fp a <;> simp [hx, FVal.isInf, finite, FVal.sign, FVal.isZero] at h
    · simp [f, hx, log2F, h, hnan, nan32]
    · simp [f, hx, log2F, h, hnan, nan32]
  · intro k h h0; cases hx : fp a <;> simp [hx, finite] at h
    next n m e =>
    obtain ⟨b1, b2, b3⟩ := fp_bounds a n m e hx
    rw [hx] at h0
    have hp : (0:ℚ) < 2 ^ k := by positivity
    have hm : ¬ m = 0 := by rintro rfl; rw [(num0 n 0 e).2 rfl] at h0; linarith
    have hn : n = false := by
      cases n
      · rfl
      · have : (0:ℚ) ≤ m * 2 ^ e := by positivity
        simp [numOf] at h0; linarith
    subst hn
    have hmk : (m:ℚ) = 2 ^ (k - e) := by
      simp [numOf] at h0
      rw [zpow_sub₀ (by norm_num), ← h0]; field_simp
    have hke : 0 ≤ k - e := by
      by_contra hc
      have h1 : (1:ℚ) ≤ m := by exact_mod_cast Nat.one_le_iff_ne_zero.2 hm
      have : (2:ℚ) ^ (k - e) < 1 := zpow_lt_one_of_neg₀ (by norm_num) (by omega)
      linarith
    obtain ⟨j, hj⟩ : ∃ j : Nat, k - e = j := ⟨(k - e).toNat, by omega⟩
    have hm2 : m = 2 ^ j := by rw [hj, zpow_natCast] at hmk; exact_mod_cast hmk
    have hl : Nat.log2 m = j := by rw [hm2]; exact Nat.log2_two_pow
    have hj24 : j < 24 := by
      by_contra hc
      have : 2 ^ 24 ≤ 2 ^ j := Nat.pow_le_pow_right (by norm_num) (by omega)
      omega
    have hk : e + (Nat.log2 m : Int) = k := by rw [hl]; omega
    have hmp : m = 2 ^ Nat.log2 m := by rw [hl]; exact hm2
    have hf : f = (BitVec.ofNat 32 (roundV FP32 .ne (FVal.ofInt k 0 false)).1, (roundV FP32 .ne (FVal.ofInt k 0 false)).2) := by
      simp only [f, hx, log2F, hm, if_false, Bool.false_eq_true]
      rw [if_pos hmp, hk]
    rw [hf]
    have hv := ofInt_val k 0 false
    by_cases hk0 : k = 0
    · subst hk0
      have : FVal.ofInt 0 0 false = .fin false 0 0 := rfl
      rw [this, roundV_zero]
      refine ⟨rfl, ?_, ?_⟩
      · decide
      · have : fp (BitVec.ofNat 32 (if false = true then 2147483648 else 0)) = .fin false 0 (-149) := by decide
        rw [this]; simp [numOf]
    · have hne : numOf (FVal.ofInt k 0 false) ≠ 0 := by rw [hv]; simp [hk0]
      have h5 : ((k.natAbs : ℕ) : ℚ) = |(k:ℚ)| := by rw [← Int.cast_natCast, Int.natCast_natAbs]; simp
      have := exact32 (FVal.ofInt k 0 false) (ofInt_fin _ _ _) hne k.natAbs (by omega) (by omega) 0 (by norm_num) (by norm_num) (decide (k < 0)) (by
        rw [hv, h5]
        by_cases hkn : k < 0
        · have : (k:ℚ) < 0 := by exact_mod_cast hkn
          simp [hkn, abs_of_neg this]
        · have : (0:ℚ) ≤ k := by exact_mod_cast not_lt.1 hkn
          simp [hkn, abs_of_nonneg this])
      exact ⟨this.1, this.2.1, by rw [this.2.2.1, hv]; simp⟩

/-- 2^k as a code -/
theorem pow_round (k : Int) (h1 : -149 ≤ k) (h2 : k < 128) :
    (roundMag FP32 .ne false 1 k false).2 = 0 ∧ finite (fp (BitVec.ofNat 32 (roundMag FP32 .ne false 1 k false).1)) = true ∧
    numOf (fp (BitVec.ofNat 32 (roundMag FP32 .ne false 1 k false).1)) = 2 ^ k := by
  have e1 : roundMag FP32 .ne false 1 k false = roundV FP32 .ne (.fin false 1 k) := by simp only [roundV, one_ne_zero, if_false]
  have hv : numOf (.fin false 1 k) = 2 ^ k := by simp [numOf]
  have hne : numOf (.fin false 1 k) ≠ 0 := by rw [hv]; positivity
  rw [e1]
  by_cases h : k ≤ 103
  · have := exact32 (.fin false 1 k) rfl hne 1 (by norm_num) (by norm_num) k h1 h false (by rw [hv]; simp)
    exact ⟨this.1, this.2.1, by rw [this.2.2.1, hv]⟩
  · have := exact32 (.fin false 1 k) rfl hne 16777216 (by norm_num) (by norm_num) (k - 24) (by omega) (by omega) false (by
      rw [hv]
      have : (2:ℚ) ^ k = 2 ^ (24:Int) * 2 ^ (k - 24) := by rw [← zpow_add₀ (by norm_num)]; congr 1; omega
      rw [this]; norm_num)
    exact ⟨this.1, this.2.1, by rw [this.2.2.1, hv]⟩

theorem pow_over (k : Int) (h : 128 ≤ k) : (BitVec.ofNat 32 (roundMag FP32 .ne false 1 k false).1, (roundMag FP32 .ne false 1 k false).2) = inf32 false (fOF + fNX) := by
  have R := rounds FP32 (by decide) (by decide) .ne false 1 k false (2 ^ k) (2 ^ k) (by simp) (by norm_num) (by simp)
    (by have : (0:ℝ) < 2 ^ k := by positivity
        push_cast; linarith) (by simp) (by simp)
  have hr : Reaches FP32 .ne false |(2:ℝ) ^ k| (2 ^ ((2 ^ (FP32.eb - 1) : Nat) - FP32.p : Int)) := by
    have h1 : (2:ℝ) ^ (128:Int) ≤ 2 ^ k := zpow_le_zpow_right₀ (by norm_num) h
    have e1 : ((2 ^ (FP32.eb - 1) : Nat) - FP32.p : Int) = 104 := by decide
    have e2 : FP32.p = 24 := rfl
    rw [abs_of_pos (by positivity), e1]
    simp only [Reaches, e2]
    refine le_trans ?_ h1
    have : (2:ℝ) ^ (128:Int) = 2 ^ 24 * 2 ^ (104:Int) := by norm_num
    rw [this]
    have : (0:ℝ) < 2 ^ (104:Int) := by positivity
    nlinarith
  obtain ⟨r1, r2⟩ := R.beyond hr
  rw [r1, r2]; rfl

theorem pow_under (k : Int) (h : k < -150) : (BitVec.ofNat 32 (roundMag FP32 .ne false 1 k false).1, (roundMag FP32 .ne false 1 k false).2) = (0, fUF + fNX) := by
  have um : FP32.umin = -149 := by decide
  have hp : FP32.p = 24 := rfl
  have hl1 : Nat.log2 1 = 0 := by decide
  have hu0 : unitOf 24 1 k = k - 23 := by simp only [unitOf, hl1]; omega
  have hmax : max (k - 23) (-149) = -149 := by omega
  have hr : roundAt .ne false 1 k (-149) false = (0, true) := by
    have : ¬ (-149 ≤ k) := by omega
    simp only [roundAt, if_neg this]
    have h4 : 4 ≤ 2 ^ (-149 - k).toNat := by
      calc 4 = 2 ^ 2 := by norm_num
        _ ≤ _ := Nat.pow_le_pow_right (by norm_num) (by omega)
    generalize 2 ^ (-149 - k).toNat = d at *
    have h5 : 1 / d = 0 := Nat.div_eq_of_lt (by omega)
    have h6 : 1 % d = 1 := Nat.mod_eq_of_lt (by omega)
    rw [h5, h6]
    have : ¬ (d < 2) := by omega
    have h7 : ¬ (d < 2 * 1 ∨ 2 * 1 = d ∧ 0 % 2 = 1) := by omega
    have h8 : roundUp .ne false (0 % 2 == 1) 1 d false = false := by simp [roundUp]; omega
    rw [h8]; rfl
  have ht : (decide (k - 23 < -149) && !(k - 23 == -149 - 1 && (roundAt .ne false 1 k (k - 23) false).1 == 2 ^ 24)) = true := by
    have : (k - 23 == -149 - 1) = false := by simp; omega
    rw [this]; simp; omega
  have hc : gridCode FP32 .ne false 1 k false = (0, true, true) := by
    simp only [gridCode, hp, hu0, um, hmax, hr]
    rw [ht]; simp
  simp only [roundMag, hc]
  decide

theorem exp2_int (n : Bool) (m : Nat) (e k : Int) (hm : m ≠ 0) (hk : numOf (.fin n m e) = k) :
    exp2F (.fin n m e) = if e ≥ 8 || (e ≥ -30 && decide (m * 2 ^ (e + 30).toNat ≥ 200 * 2 ^ 30)) then
      (if n then (0, fUF + fNX) else (FP32.infCode, fOF + fNX)) else roundMag FP32 .ne false 1 k false := by
  have hmp : 0 < m := Nat.pos_of_ne_zero hm
  simp only [exp2F, hm, if_false]
  split
  · rfl
  · by_cases he : e ≥ 0
    · have h1 : (e ≥ 0 || m % 2 ^ (-e).toNat == 0) = true := by simp [he]
      rw [if_pos h1]
      have : (if n then -(((if e ≥ 0 then m * 2 ^ e.toNat else m / 2 ^ (-e).toNat) : Nat) : Int) else ((if e ≥ 0 then m * 2 ^ e.toNat else m / 2 ^ (-e).toNat : Nat) : Int)) = k := by
        simp only [he, if_true]
        have h2 : (2:ℚ) ^ e = 2 ^ e.toNat := by rw [← zpow_natCast]; congr 1; omega
        have : ((if n then -((m * 2 ^ e.toNat : Nat) : Int) else ((m * 2 ^ e.toNat : Nat) : Int) : ℤ) : ℚ) = k := by
          rw [← hk]; simp only [numOf, h2]; cases n <;> simp
        exact_mod_cast this
      rw [this]
    · obtain ⟨j, hj⟩ : ∃ j : Nat, e = -(j:Int) := ⟨(-e).toNat, by omega⟩
      subst hj
      have hd : (2:ℚ) ^ (-(j:Int)) = 1 / (2 ^ j : Nat) := by rw [zpow_neg, zpow_natCast]; simp
      have hdp : 0 < 2 ^ j := Nat.two_pow_pos j
      have hmk : (m:ℤ) = |k| * (2 ^ j : Nat) := by
        have : (m:ℚ) = |(k:ℚ)| * (2 ^ j : Nat) := by
          rw [← hk]; simp only [numOf, hd]
          have h3 : (0:ℚ) ≤ m * (1 / (2 ^ j : Nat)) := by positivity
          have : |((if n = true then -1 else 1) * (m:ℚ) * (1 / ((2 ^ j : Nat) : ℚ)))| = m * (1 / (2 ^ j : Nat)) := by
            rw [mul_assoc, abs_mul, abs_of_nonneg h3]; cases n <;> simp
          rw [this]
          have : ((2 ^ j : Nat) : ℚ) ≠ 0 := by positivity
          field_simp
        exact_mod_cast this
      have hmn : m = k.natAbs * 2 ^ j := by
        have : (m:ℤ) = ((k.natAbs * 2 ^ j : Nat) : ℤ) := by rw [hmk]; push_cast; rfl
        exact_mod_cast this
      have hmod : m % 2 ^ j = 0 := by rw [hmn]; simp
      have h1 : (-(j:Int) ≥ 0 || m % 2 ^ (-(-(j:Int))).toNat == 0) = true := by
        rw [neg_neg, Int.toNat_natCast, hmod]; simp
      rw [if_pos h1, if_neg he, neg_neg, Int.toNat_natCast]
      have hq : m / 2 ^ j = k.natAbs := by rw [hmn]; exact Nat.mul_div_cancel _ hdp
      rw [hq]
      have : (if n then -(k.natAbs : Int) else (k.natAbs : Int)) = k := by
        have hmq : (0:ℚ) < m * 2 ^ (-(j:Int)) := by have : (0:ℚ) < m := by exact_mod_cast hmp
                                                    positivity
        cases n
        · have : (0:ℚ) < k := by rw [← hk]; simp [numOf] at hmq ⊢; exact hmq
          have : 0 < k := by exact_mod_cast this
          simp only [Bool.false_eq_true, if_false]; omega
        · have : (k:ℚ) < 0 := by rw [← hk]; simp [numOf] at hmq ⊢; exact hmq
          have : k < 0 := by exact_mod_cast this
          simp only [if_true]; omega
      rw [this]

theorem exp2Ok (a : Word) : let f : Word × Nat := let r := exp2F (fp a); (BitVec.ofNat 32 r.1, r.2)
    ((fp a).isNaN = true → f = nan32 (fp a).isSig) ∧
    ((fp a).isInf = true → f = if (fp a).sign then (0, 0) else (0x7F800000, 0)) ∧
    (∀ k : ℤ, finite (fp a) = true → numOf (fp a) = k → -149 ≤ k → k < 128 →
      f.2 = 0 ∧ finite (fp f.1) = true ∧ numOf (fp f.1) = 2 ^ k) ∧
    (∀ k : ℤ, finite (fp a) = true → numOf (fp a) = k → 128 ≤ k → f = inf32 false (fOF + fNX)) ∧
    (∀ k : ℤ, finite (fp a) = true → numOf (fp a) = k → k < -150 → f = (0, fUF + fNX)) := by
  intro f
  have hnan : FP32.nanCode = 0x7FC00000 := by decide
  have hinf : FP32.infCode = 0x7F800000 := by decide
  -- the big branch means |k| ≥ 200
  have big : ∀ n m e (k : Int), fp a = .fin n m e → m ≠ 0 → numOf (.fin n m e) = k →
      (e ≥ 8 || (e ≥ -30 && decide (m * 2 ^ (e + 30).toNat ≥ 200 * 2 ^ 30))) = true → 200 ≤ |k| := by
    intro n m e k hx hm hk hb
    have hm1 : (1:ℚ) ≤ m := by exact_mod_cast Nat.one_le_iff_ne_zero.2 hm
    have hab : |(k:ℚ)| = m * 2 ^ e := by
      rw [← hk]; have : (0:ℚ) ≤ m * 2 ^ e := by positivity
      cases n <;> simp [numOf]
    have : (200:ℚ) ≤ |(k:ℚ)| := by
      rw [hab]
      simp only [Bool.or_eq_true, Bool.and_eq_true, decide_eq_true_eq] at hb
      rcases hb with hb | ⟨hb, hb2⟩
      · have : (2:ℚ) ^ (8:Int) ≤ 2 ^ e := zpow_le_zpow_right₀ (by norm_num) hb
        have h8 : (2:ℚ) ^ (8:Int) = 256 := by norm_num
        nlinarith
      · have h2 : (200 * 2 ^ 30 : ℚ) ≤ m * 2 ^ (e + 30).toNat := by exact_mod_cast hb2
        have h3 : (2:ℚ) ^ (e + 30).toNat = 2 ^ e * 2 ^ 30 := by
          rw [← zpow_natCast, ← zpow_natCast, ← zpow_add₀ (by norm_num)]; congr 1; push_cast; omega
        rw [h3, ← mul_assoc] at h2
        have : (0:ℚ) < 2 ^ 30 := by positivity
        exact le_of_mul_le_mul_right h2 this
    exact_mod_cast this
  have sgn : ∀ n m e (k : Int), m ≠ 0 → numOf (.fin n m e) = k → (n = true ↔ k < 0) := by
    intro n m e k hm hk
    have hm1 : (0:ℚ) < m := by exact_mod_cast Nat.pos_of_ne_zero hm
    have hp : (0:ℚ) < m * 2 ^ e := by positivity
    cases n
    · have : (0:ℚ) < k := by rw [← hk]; simpa [numOf] using hp
      have : 0 < k := by exact_mod_cast this
      simp; omega
    · have : (k:ℚ) < 0 := by rw [← hk]; simpa [numOf] using hp
      have : k < 0 := by exact_mod_cast this
      simp; omega
  refine ⟨?_, ?_, ?_, ?_, ?_⟩
  · intro h; cases hx : fp a <;> simp [hx, FVal.isNaN] at h
    simp [f, hx, exp2F, hnan, nan32, FVal.isSig]; rfl
  · intro h; cases hx : fp a <;> simp [hx, FVal.isInf] at h
    next n => cases n <;> simp [f, hx, exp2F, FVal.sign, hinf]
  · intro k h hk h1 h2; cases hx : fp a <;> simp [hx, finite] at h
    next n m e =>
    rw [hx] at hk
    by_cases hm : m = 0
    · have : k = 0 := by rw [(num0 n m e).2 hm] at hk; exact_mod_cast hk.symm
      have hf : f = (0x3F800000, 0) := by simp [f, hx, exp2F, hm]
      have h5 : fp (0x3F800000 : Word) = .fin false 8388608 (-23) := by decide
      rw [hf, this]
      refine ⟨rfl, by rw [h5]; rfl, by rw [h5]; norm_num [numOf]⟩
    · have hf := exp2_int n m e k hm hk
      have hb : ¬ ((e ≥ 8 || (e ≥ -30 && decide (m * 2 ^ (e + 30).toNat ≥ 200 * 2 ^ 30))) = true) := by
        intro hb
        have := big n m e k hx hm hk hb
        have : |k| < 200 := by rw [abs_lt]; constructor <;> omega
        omega
      rw [if_neg hb] at hf
      simp only [f, hx, hf]
      exact pow_round k h1 h2
  · intro k h hk h1; cases hx : fp a <;> simp [hx, finite] at h
    next n m e =>
    rw [hx] at hk
    have hm : m ≠ 0 := by
      intro hm; rw [(num0 n m e).2 hm] at hk; have : k = 0 := by exact_mod_cast hk.symm
      omega
    have hn : n = false := by have := sgn n m e k hm hk; cases n; rfl; simp at this; omega
    have hf := exp2_int n m e k hm hk
    simp only [f, hx, hf]
    split
    · rw [hn, hinf]; rfl
    · exact pow_over k h1
  · intro k h hk h1; cases hx : fp a <;> simp [hx, finite] at h
    next n m e =>
    rw [hx] at hk
    have hm : m ≠ 0 := by
      intro hm; rw [(num0 n m e).2 hm] at hk; have : k = 0 := by exact_mod_cast hk.symm
      omega
    have hn : n = true := (sgn n m e k hm hk).2 (by omega)
    have hf := exp2_int n m e k hm hk
    simp only [f, hx, hf]
    split
    · first | rfl | (rw [hn]; rfl)
    · exact pow_under k h1


theorem nat_or (a b k : Nat) (ha : a < 2 ^ k) : a + b * 2 ^ k = a ||| b * 2 ^ k := by
  rw [Nat.add_comm, Nat.or_comm, ← Nat.shiftLeft_eq, Nat.shiftLeft_add_eq_or_of_lt ha]

theorem sumF (ts : List FVal) (h : ∀ t ∈ ts, finite t = true) :
    finite (FVal.sum ts) = true ∧ numOf (FVal.sum ts) = (ts.map numOf).sum := by
  have h1 : ts.any FVal.isNaN = false := by
    rw [List.any_eq_false]; intro t ht; have := h t ht; cases t <;> simp_all [finite, FVal.isNaN]
  have hi : ∀ t ∈ ts, FVal.isInf t = false := by
    intro t ht; have := h t ht; cases t <;> simp_all [finite, FVal.isInf]
  have h2 : ts.any (fun t => t.isInf && !t.sign) = false := by
    rw [List.any_eq_false]; intro t ht; simp [hi t ht]
  have h3 : ts.find? FVal.isInf = none := by
    rw [List.find?_eq_none]; intro t ht; simp [hi t ht]
  unfold FVal.sum
  rw [h1, h2, h3]
  simp only [Bool.false_eq_true, if_false, Bool.false_and]
  refine ⟨ofInt_fin _ _ _, ?_⟩
  rw [ofInt_val]
  -- the unit exponent is below every exponent
  have hmin : ∀ (l : List FVal) (u0 : Int), l.foldl (fun u t => min u t.expo) u0 ≤ u0 ∧ ∀ t ∈ l, l.foldl (fun u t => min u t.expo) u0 ≤ t.expo := by
    intro l
    induction l with
    | nil => intro u0; simp
    | cons x l ih =>
      intro u0
      obtain ⟨a, b⟩ := ih (min u0 x.expo)
      rw [List.foldl_cons]
      refine ⟨by omega, ?_⟩
      intro t ht
      rcases List.mem_cons.1 ht with rfl | ht
      · omega
      · exact b t ht
  obtain ⟨-, hu⟩ := hmin ts (ts.headD (.fin false 0 0)).expo
  generalize ts.foldl (fun u t => min u t.expo) (ts.headD (.fin false 0 0)).expo = u at *
  have hf : ∀ (l : List FVal) (i0 : Int), (∀ t ∈ l, finite t = true ∧ u ≤ t.expo) →
      ((l.foldl (fun i t => i + t.scaled u) i0 : ℤ) : ℚ) * 2 ^ u = i0 * 2 ^ u + (l.map numOf).sum := by
    intro l
    induction l with
    | nil => intro i0 _; simp
    | cons x l ih =>
      intro i0 hl
      rw [List.foldl_cons, ih _ (fun t ht => hl t (List.mem_cons_of_mem _ ht))]
      obtain ⟨f1, f2⟩ := hl x (List.mem_cons_self ..)
      cases x <;> simp [finite] at f1
      next n m e =>
      have := scaled_val n m e u f2
      push_cast
      rw [add_mul, this, List.map_cons, List.sum_cons]; ring
  have := hf ts 0 (fun t ht => ⟨h t ht, hu t ht⟩)
  rw [this]; simp

theorem segOf_ok (v : FVal) (hv : finite v = true) (e : Int) : segOf v e = ⌊numOf v / 2 ^ e⌋ := by
  cases v <;> simp [finite] at hv
  next n m x =>
  have key : ∀ i : Int, (i : ℚ) * 2 ^ x / 2 ^ e = i * 2 ^ (x - e) := by
    intro i; rw [zpow_sub₀ (by norm_num), mul_div_assoc]
  have hnum : numOf (.fin n m x) = ((if n then -(m:Int) else m : ℤ) : ℚ) * 2 ^ x := by cases n <;> simp [numOf]
  rw [hnum, key]
  simp only [segOf]
  generalize (if n then -(m:Int) else (m:Int)) = i
  split
  · next h =>
    have : (2:ℚ) ^ (x - e) = ((2 ^ (x - e).toNat : Nat) : ℚ) := by push_cast; rw [← zpow_natCast]; congr 1; omega
    rw [this]
    have : (i:ℚ) * ((2 ^ (x - e).toNat : Nat) : ℚ) = ((i * ((2 ^ (x - e).toNat : Nat) : ℤ) : ℤ) : ℚ) := by push_cast; ring
    rw [this, Int.floor_intCast]
  · next h =>
    have h1 : (2:ℚ) ^ (x - e) = 1 / ((2 ^ (e - x).toNat : Nat) : ℚ) := by
      push_cast
      have : x - e = -((e - x).toNat : Int) := by omega
      rw [this, zpow_neg, zpow_natCast]; simp
      try omega
    rw [h1, mul_one_div]
    generalize hd : 2 ^ (e - x).toNat = d
    have : 0 < d := by rw [← hd]; positivity
    exact (Rat.floor_intCast_div_natCast i d).symm

end Sys2Proof.Machine.Round
end

