-- ==== Sys2Proof/Laws/Control.lean ====
section
/-!
SUPPORT. The control class: targets and links, rejoin barriers and their masks, the release of a cycle.
-/

namespace Sys2Proof.Machine

open Sys2Proof Sys2Proof.Machine.Round

theorem addr64_eq (h : Nat) (n : Int) : addr64 ((h : Int) + 8 * n) = (BitVec.ofNat 64 h + BitVec.ofInt 64 (8 * n)).toNat := by
  have h64 : ((2:Nat) ^ 64 : Nat) = 18446744073709551616 := by norm_num
  rw [BitVec.toNat_add, BitVec.toNat_ofNat, BitVec.toNat_ofInt, addr64, h64]
  simp only [Nat.cast_ofNat]
  omega

theorem linkOf_eq (r : Running) : BitVec.ofNat 64 r.nextHdr = linkOf r := by
  unfold Running.nextHdr linkOf
  apply BitVec.eq_of_toNat_eq
  simp [BitVec.toNat_ofNat]

theorem linkOf_nat (r : Running) : (linkOf r).toNat = r.nextHdr := by
  rw [← linkOf_eq, BitVec.toNat_ofNat]
  unfold Running.nextHdr
  omega

theorem rejoin_set (x : Group) (j ls i k : Nat) (v : Rejoin) (h1 : ls < 32) (h2 : k < 32) :
    (x.setRejoin j ls v).rejoin i k = (if i = j ∧ k = ls then v else x.rejoin i k) := by
  unfold Group.setRejoin Group.rejoin
  by_cases h : i = j ∧ k = ls
  · obtain ⟨rfl, rfl⟩ := h
    simp only [and_self, if_true]
    by_cases hv : v = {}
    · simp [hv]
    · rw [if_neg hv]; simp
  · rw [if_neg h]
    have : 32 * i + k ≠ 32 * j + ls := by omega
    by_cases hv : v = {}
    · simp only [hv, if_true]; rw [lget_ldel_ne _ this]
    · simp only [hv, if_false]; rw [lget_lput_ne _ _ this]

theorem orFold (l : List Thread) (p : Thread → Bool) (v : Word) (i : Nat) (hi : i < 32) :
    (l.foldl (fun v t => if p t then v ||| (1#32 <<< (t.tix % 32)) else v) v).getLsbD i = true ↔
      v.getLsbD i = true ∨ ∃ u ∈ l, p u = true ∧ u.tix % 32 = i := by
  induction l generalizing v with
  | nil => simp
  | cons x l ih =>
    rw [List.foldl_cons, ih]
    by_cases hp : p x = true
    · rw [if_pos hp]
      have : (v ||| (1#32 <<< (x.tix % 32))).getLsbD i = true ↔ v.getLsbD i = true ∨ x.tix % 32 = i := by
        rw [BitVec.getLsbD_or]
        have e : (1#32 <<< (x.tix % 32)).getLsbD i = decide (x.tix % 32 = i) := by
          simp only [BitVec.getLsbD_shiftLeft, hi, decide_true, Bool.true_and, BitVec.getLsbD_one]
          by_cases hx : x.tix % 32 = i
          · subst hx; simp
          · simp [hx]; omega
        rw [e, Bool.or_eq_true, decide_eq_true_eq]
      rw [this]
      constructor
      · rintro ((h | h) | ⟨u, hu, h⟩)
        · exact .inl h
        · exact .inr ⟨x, by simp, hp, h⟩
        · exact .inr ⟨u, by simp [hu], h⟩
      · rintro (h | ⟨u, hu, h1, h2⟩)
        · exact .inl (.inl h)
        · rcases List.mem_cons.1 hu with rfl | hu
          · exact .inl (.inr h2)
          · exact .inr ⟨u, hu, h1, h2⟩
    · rw [if_neg hp]
      constructor
      · rintro (h | ⟨u, hu, h⟩)
        · exact .inl h
        · exact .inr ⟨u, by simp [hu], h⟩
      · rintro (h | ⟨u, hu, h1, h2⟩)
        · exact .inl h
        · rcases List.mem_cons.1 hu with rfl | hu
          · exact absurd h1 hp
          · exact .inr ⟨u, hu, h1, h2⟩

theorem present_bit (m : Mach) (gid ls i : Nat) (hi : i < 32) :
    (presentLanes m gid ls).getLsbD i = true ↔ present m gid ls i := by
  unfold presentLanes present
  rw [orFold _ (fun t => t.gid == gid && t.tix / 32 == ls && t.stat != .exited) _ _ hi]
  have z : ((0:Word).getLsbD i = true) = False := by simp
  rw [z, false_or]
  simp only [Bool.and_eq_true, beq_iff_eq, bne_iff_ne, ne_eq]
  constructor
  · rintro ⟨u, hu, ⟨⟨h1, h2⟩, h3⟩, h4⟩; exact ⟨u, hu, h1, by omega, h3⟩
  · rintro ⟨u, hu, h1, h2, h3⟩; exact ⟨u, hu, ⟨⟨h1, by omega⟩, h3⟩, by omega⟩

theorem group?_gid {m : Mach} {g : Nat} {x : Group} (h : m.group? g = some x) : x.gid = g := by
  have := List.find?_some h
  simpa using this

theorem missing_bit (m : Mach) (x : Rejoin) (gid ls i : Nat) (hi : i < 32) :
    (x.named &&& ~~~x.arrived &&& presentLanes m gid ls).getLsbD i = true ↔
      x.named.getLsbD i = true ∧ x.arrived.getLsbD i = false ∧ present m gid ls i := by
  rw [BitVec.getLsbD_and, BitVec.getLsbD_and, BitVec.getLsbD_not]
  simp only [hi, decide_true, Bool.true_and, Bool.and_eq_true, Bool.not_eq_true', present_bit m gid ls i hi]
  tauto

theorem word_zero (w : Word) : w = 0 ↔ ∀ i, i < 32 → w.getLsbD i = false := by
  constructor
  · rintro rfl i _; simp
  · intro h; apply BitVec.eq_of_getLsbD_eq; intro i hi; simpa using h i hi

theorem filterMap_some {α β : Type} (f : α → Option β) : ∀ (l : List α) (ts : List β), l.map f = ts.map some → l.filterMap f = ts
  | [], [], _ => rfl
  | [], _ :: _, h => by simp at h
  | _ :: _, [], h => by simp at h
  | a :: l, t :: ts, h => by
    simp only [List.map_cons, List.cons.injEq] at h
    rw [List.filterMap_cons, h.1]
    simp [filterMap_some f l ts h.2]

theorem mem_both {m : Mach} {gid : Nat} : ∀ {l : List Nat} {ts : List Thread}, l.map (fun i => m.thread? gid i) = ts.map some →
    (∀ t ∈ ts, t.tix ∈ l ∧ m.thread? gid t.tix = some t ∧ t.gid = gid) ∧ (∀ i ∈ l, ∃ t ∈ ts, t.tix = i) ∧ ts.map (·.tix) = l ∧ ts.length = l.length
  | [], [], _ => by simp
  | [], _ :: _, h => by simp at h
  | _ :: _, [], h => by simp at h
  | a :: l, t :: ts, h => by
    simp only [List.map_cons, List.cons.injEq] at h
    obtain ⟨h1, h2⟩ := h
    obtain ⟨e1, e2⟩ := thread?_gid h1
    obtain ⟨i1, i2, i3, i4⟩ := mem_both h2
    refine ⟨?_, ?_, by simp [i3, e2], by simp [i4]⟩
    · intro u hu
      rcases List.mem_cons.1 hu with rfl | hu
      · exact ⟨by simp [e2], by rw [e2]; exact h1, e1⟩
      · exact ⟨List.mem_cons_of_mem _ (i1 u hu).1, (i1 u hu).2⟩
    · intro i hi
      rcases List.mem_cons.1 hi with rfl | hi
      · exact ⟨t, by simp, e2⟩
      · obtain ⟨u, hu, e⟩ := i2 i hi; exact ⟨u, by simp [hu], e⟩

def clr (m : Mach) (gid : Nat) (t : Thread) : Mach := match inRjwait t with
  | some (j, _) => m.updGroup gid (fun g => g.setRejoin j (t.tix / 32) {})
  | none => m

theorem clr_fold (gid : Nat) (ts : List Thread) : ∀ (m : Mach) (g : Group), (∀ t ∈ ts, t.tix < 1024) → m.group? gid = some g →
    let m' := ts.foldl (fun m t => clr m gid t) m
    m' = { m with groups := m'.groups } ∧ (∀ h, h ≠ gid → m'.group? h = m.group? h) ∧
    ∃ g', m'.group? gid = some g' ∧ g' = { g with rj := g'.rj } ∧
        (∀ j ls, ls < 32 → ((∃ t ∈ ts, ∃ p, inRjwait t = some (j, p) ∧ t.tix / 32 = ls) → g'.rejoin j ls = {}) ∧
          ((∀ t ∈ ts, ∀ p, ¬ (inRjwait t = some (j, p) ∧ t.tix / 32 = ls)) → g'.rejoin j ls = g.rejoin j ls)) := by
  induction ts with
  | nil => intro m g _ hg; exact ⟨rfl, fun _ _ => rfl, g, hg, rfl, fun j ls _ => ⟨by simp, fun _ => rfl⟩⟩
  | cons x ts ih =>
    intro m g ht hg
    rw [List.foldl_cons]
    have hx : x.tix / 32 < 32 := by have := ht x (by simp); omega
    cases hj : inRjwait x with
    | none =>
      have e : clr m gid x = m := by simp [clr, hj]
      rw [e]
      obtain ⟨a, b, g', c, d, f⟩ := ih m g (fun t h => ht t (by simp [h])) hg
      refine ⟨a, b, g', c, d, fun j ls hls => ⟨?_, fun hn => (f j ls hls).2 (fun t h => hn t (by simp [h]))⟩⟩
      rintro ⟨t, h, p, h1, h2⟩
      rcases List.mem_cons.1 h with rfl | h
      · rw [hj] at h1; cases h1
      · exact (f j ls hls).1 ⟨t, h, p, h1, h2⟩
    | some jp =>
      obtain ⟨i, q⟩ := jp
      have hk : ∀ y : Group, (Group.setRejoin y i (x.tix/32) {}).gid = y.gid := fun _ => rfl
      have e : clr m gid x = m.updGroup gid (fun g => g.setRejoin i (x.tix / 32) {}) := by simp [clr, hj]
      rw [e]
      have hg1 : (m.updGroup gid (fun g => g.setRejoin i (x.tix / 32) {})).group? gid = some (g.setRejoin i (x.tix / 32) {}) := by
        rw [Mach.group?_updGroup m gid (fun g => g.setRejoin i (x.tix/32) {}) hk, hg]; simp [group?_gid hg]
      obtain ⟨a, b, g', c, d, f⟩ := ih _ _ (fun t h => ht t (by simp [h])) hg1
      refine ⟨a, ?_, g', c, d, fun j ls hls => ⟨?_, ?_⟩⟩
      · intro h hne
        rw [b h hne, Mach.group?_updGroup m gid (fun g => g.setRejoin i (x.tix/32) {}) hk]
        cases hh : m.group? h with
        | none => rfl
        | some y => simp [group?_gid hh, hne]
      · rintro ⟨t, h, p, h1, h2⟩
        by_cases hex : ∃ t ∈ ts, ∃ p, inRjwait t = some (j, p) ∧ t.tix / 32 = ls
        · exact (f j ls hls).1 hex
        · rw [(f j ls hls).2 (fun t h p hc => hex ⟨t, h, p, hc⟩)]
          rcases List.mem_cons.1 h with rfl | h
          · rw [hj] at h1
            simp only [Option.some.injEq, Prod.mk.injEq] at h1
            rw [rejoin_set _ _ _ _ _ _ hx hls, if_pos ⟨h1.1.symm, h2.symm⟩]
          · exact absurd ⟨t, h, p, h1, h2⟩ hex
      · intro hn
        rw [(f j ls hls).2 (fun t h => hn t (by simp [h])), rejoin_set _ _ _ _ _ _ hx hls, if_neg]
        rintro ⟨rfl, rfl⟩
        exact hn x (by simp) q ⟨hj, rfl⟩

def cycRaise (ts : List Thread) (t : Thread) (j : Nat) (p : Pos) : Raise :=
  { eff := 7, a0 := BitVec.ofNat 64 p.hdr, a1 := BitVec.ofNat 64 j,
    a2 := (laneMask (ts.filter (fun u => u.tix / 32 == t.tix / 32))).zeroExtend 64,
    a3 := BitVec.ofNat 64 ts.length, save := t.pos, word := p }

def rz (S : List Thread) (m : Mach) (t : Thread) : Mach := match inRjwait t with
  | some (j, p) => raiseEff m t (cycRaise S t j p)
  | none => m

theorem rz_fold (S : List Thread) (gid : Nat) (ts : List Thread) : ∀ (m : Mach), (ts.map (·.tix)).Pairwise (· < ·) →
    (∀ t ∈ ts, t.gid = gid ∧ m.thread? gid t.tix = some t) →
    let m' := ts.foldl (rz S) m
    m' = { m with threads := m'.threads } ∧
    (∀ t ∈ ts, ∀ j p, inRjwait t = some (j, p) → m'.thread? gid t.tix = some (raised (cycRaise S t j p) t)) ∧
    (∀ h i, ¬ (h = gid ∧ i ∈ ts.map (·.tix)) → m'.thread? h i = m.thread? h i) := by
  induction ts with
  | nil => intro m _ _; exact ⟨rfl, by simp, fun _ _ _ => rfl⟩
  | cons x ts ih =>
    intro m hp ht
    rw [List.map_cons, List.pairwise_cons] at hp
    rw [List.foldl_cons]
    have hx := ht x (by simp)
    have hm1 : ∀ h i, ¬ (h = gid ∧ i = x.tix) → (rz S m x).thread? h i = m.thread? h i := by
      intro h i hn
      unfold rz
      cases inRjwait x with
      | none => rfl
      | some jp =>
        show (raiseEff m x _).thread? h i = _
        unfold raiseEff
        rw [Mach.thread?_updThread]
        · cases hh : m.thread? h i with
          | none => rfl
          | some y =>
            have := thread?_gid hh
            simp only [Option.map_some, this, hx.1]
            rw [if_neg]
            simpa using hn
        · intro t; exact ⟨rfl, rfl⟩
    have hm2 : ∀ j p, inRjwait x = some (j, p) → (rz S m x).thread? gid x.tix = some (raised (cycRaise S x j p) x) := by
      intro j p hj
      unfold rz
      rw [hj]
      show (raiseEff m x _).thread? gid x.tix = _
      unfold raiseEff
      rw [Mach.thread?_updThread _ _ _ _ (by intro t; exact ⟨rfl, rfl⟩), hx.2]
      simp; rfl
    obtain ⟨a, b, c⟩ := ih (rz S m x) hp.2 (fun t h => by
      refine ⟨(ht t (by simp [h])).1, ?_⟩
      rw [hm1 _ _ (by
        rintro ⟨-, e⟩
        have := hp.1 t.tix (List.mem_map_of_mem h)
        omega)]
      exact (ht t (by simp [h])).2)
    refine ⟨?_, ?_, ?_⟩
    · rw [a]
      unfold rz
      cases inRjwait x <;> rfl
    · intro t h j p hj
      rcases List.mem_cons.1 h with rfl | h
      · rw [c _ _ (by
          rintro ⟨-, hm⟩
          have := hp.1 _ hm
          omega)]
        exact hm2 j p hj
      · exact b t h j p hj
    · intro h i hn
      rw [c h i (by rintro ⟨e, hm⟩; exact hn ⟨e, by simp only [List.map_cons, List.mem_cons]; exact .inr hm⟩)]
      exact hm1 h i (by rintro ⟨e, e2⟩; exact hn ⟨e, by simp [e2]⟩)

theorem laneMask_is (ts : List Thread) : IsMask (laneMask ts) ts := by
  intro j hj
  have := orFold ts (fun _ => true) 0 j hj
  have e : laneMask ts = ts.foldl (fun v t => if true = true then v ||| (1#32 <<< (t.tix % 32)) else v) 0 := by
    unfold laneMask; rfl
  rw [e]
  rw [Bool.eq_iff_iff]
  rw [List.any_eq_true]
  have z : ((0:Word).getLsbD j = true) = False := by simp
  rw [z] at this
  simpa using this

theorem comb {m m1 m2 : Mach} (a : m1 = { m with groups := m1.groups }) (b : m2 = { m1 with threads := m2.threads }) :
    m2 = { m with threads := m2.threads, groups := m2.groups } := by
  cases m; cases m1; cases m2; simp_all

end Sys2Proof.Machine
end

