-- ==== Sys2Proof/Laws/Access.lean ====
section
/-!
SUPPORT. The accesses of threads: effective addresses, the order classes, the bytes of registers and memory, and what
translation and the caches leave alone.
-/

namespace Sys2Proof.Machine

open Sys2Proof Sys2Proof.Machine.Round

theorem eaG_eq (t : Thread) (a : Nat) (off : Int) : eaG t a off = globalEa t a off := by
  unfold eaG globalEa addr64
  have h64 : ((2:Nat) ^ 64 : Nat) = 18446744073709551616 := by norm_num
  rw [BitVec.toNat_add, BitVec.toNat_ofInt, h64]
  simp only [Nat.cast_ofNat]
  omega

theorem eaS_eq (t : Thread) (a : Nat) (off : Int) : eaS t a off = scratchEa t a off := by
  unfold eaS scratchEa addr32
  have h32 : ((2:Nat) ^ 32 : Nat) = 4294967296 := by norm_num
  rw [BitVec.toNat_add, BitVec.toNat_ofInt, h32]
  simp only [Nat.cast_ofNat]
  omega

theorem byClass_accessed {m : Mach} {r : Running} {t : Thread} {esc : Nat → Bool} {ea : Nat} (go : Mach)
    (h : MayAccess m r t esc ea) : byClass m r t esc ea go = accessed m r t esc ea go := by
  unfold byClass accessed
  unfold MayAccess at h
  cases hp : pageClass m (whoOf m t.gid) ea with
  | none => rfl
  | some c =>
    obtain ⟨h1, h2⟩ := h c hp
    simp only []
    by_cases he : esc c = true
    · obtain ⟨a, b⟩ := h1 he
      simp [he, escDo, a, b]
    · have he' := Bool.eq_false_iff.2 he
      rw [if_neg he, if_neg he]
      by_cases hc : c = 0
      · rw [if_pos hc, if_pos hc, l1Do, h2 he' hc]; rfl
      · rw [if_neg hc, if_neg hc]

theorem memStop_eq (m : Mach) (r : Running) (t : Thread) (acc : Acc) (ea : Nat) (e : MemErr) :
    memStop m r t acc ea e = stopped m r t acc.code ea e := by
  cases e <;> rfl

/-- A translation changes nothing but the translation caches. -/
theorem translate_ok {m m1 : Mach} {who : Who} {acc : Acc} {va : Nat} {x : Xlat} (h : translate m who acc va = .ok (m1, x)) :
    ∃ d, m1 = { m with dies := d } := by
  have keep : ∀ leaf size, ∃ d, keepLeaf m who (who.va va) leaf size = { m with dies := d } := by
    intro leaf size
    unfold keepLeaf
    split
    · exact ⟨m.dies, rfl⟩
    · exact ⟨_, rfl⟩
  have walk : ∀ {y}, walkXlat m who acc (who.va va) = .ok y → ∃ d, y.1 = { m with dies := d } := by
    intro y h
    unfold walkXlat at h
    split at h
    · cases h
    · split at h
      · cases h
      · simp only [Except.ok.injEq] at h
        rw [← h]
        exact keep _ _
  unfold Machine.translate at h
  split at h
  · cases h
  · split at h
    · exact walk h
    · split at h
      · simp only [Except.ok.injEq, Prod.mk.injEq] at h
        exact ⟨m.dies, h.1.symm⟩
      · exact walk h

theorem core_updDie (m : Mach) (d : Nat) (f : Die → Die) (c : Nat) : (m.updDie d f).core c = m.core c := rfl

theorem core_setCluster (m : Mach) (d : Nat) (f : List Line) (c : Nat) : (m.setCluster d f).core c = m.core c := rfl

theorem core_updCore_lines (m : Mach) (c : Nat) (f : Core → Core) (h : ∀ k, (f k).openC = k.openC ∧ (f k).comC = k.comC) (d : Nat) :
    ((m.updCore c f).core d).openC = (m.core d).openC ∧ ((m.updCore c f).core d).comC = (m.core d).comC := by
  by_cases hd : d = c
  · subst hd; rw [Mach.core_updCore_self]; exact h _
  · rw [Mach.core_updCore_ne _ _ hd]; exact ⟨rfl, rfl⟩

/-- What changes neither cores, groups nor clauses: the cluster caches, and home. -/
structure Still (m m' : Mach) : Prop where
  co : m'.cores = m.cores
  gr : m'.groups = m.groups
  rn : m'.running = m.running

theorem Still.refl (m : Mach) : Still m m := ⟨rfl, rfl, rfl⟩

theorem Still.trans {a b c : Mach} (h : Still a b) (k : Still b c) : Still a c :=
  ⟨k.co.trans h.co, k.gr.trans h.gr, k.rn.trans h.rn⟩

theorem Still.core {m m' : Mach} (h : Still m m') (c : Nat) : m'.core c = m.core c := by
  unfold Mach.core; rw [h.co]

theorem still_fold {α : Type} (f : Mach → α → Mach) (h : ∀ m x, Still m (f m x)) (l : List α) : ∀ m, Still m (l.foldl f m) := by
  induction l with
  | nil => exact Still.refl
  | cons x l ih => exact fun m => (h m x).trans (ih _)

theorem still_homePush (m : Mach) (l : Line) : Still m (homePush m l) := by unfold homePush; split <;> exact ⟨rfl, rfl, rfl⟩

theorem homePush_clean {m : Mach} {l : Line} (h : l.clean = true) : homePush m l = m := by simp [homePush, h]

theorem still_clusterRoom (m : Mach) (cl pa : Nat) : Still m (clusterRoom m cl pa) := by
  unfold clusterRoom
  split
  · exact (still_fold _ still_homePush _ m).trans ⟨rfl, rfl, rfl⟩
  · exact Still.refl m

theorem still_sector (m : Mach) (cl grain cls : Nat) (w : Bool) (b : Nat) : Still m (clusterSector m cl grain cls w b) := by
  unfold clusterSector
  split
  · exact Still.refl m
  · exact (still_clusterRoom m cl b).trans ⟨rfl, rfl, rfl⟩

theorem still_cluster (m : Mach) (cl pa grain cls : Nat) (w : Bool) : Still m (clusterLine m cl pa grain cls w).1 :=
  still_fold _ (fun m b => still_sector m cl grain cls w b) _ m

theorem still_toCluster (m : Mach) (cl : Nat) (l : Line) : Still m (pushToCluster m cl l) := by
  unfold pushToCluster
  split
  · exact Still.refl m
  · exact (still_cluster m cl l.pa l.grain l.cls l.world).trans ⟨rfl, rfl, rfl⟩

/-- What changes neither chunks, groups nor clauses. -/
structure Calm (m m' : Mach) : Prop where
  ch : ∀ d, (m'.core d).openC = (m.core d).openC ∧ (m'.core d).comC = (m.core d).comC
  gr : m'.groups = m.groups
  rn : m'.running = m.running

theorem Calm.refl (m : Mach) : Calm m m := ⟨fun _ => ⟨rfl, rfl⟩, rfl, rfl⟩

theorem Calm.trans {a b c : Mach} (h : Calm a b) (k : Calm b c) : Calm a c :=
  ⟨fun d => ⟨(k.ch d).1.trans (h.ch d).1, (k.ch d).2.trans (h.ch d).2⟩, k.gr.trans h.gr, k.rn.trans h.rn⟩

theorem Still.calm {m m' : Mach} (h : Still m m') : Calm m m' := ⟨fun d => by rw [h.core]; exact ⟨rfl, rfl⟩, h.gr, h.rn⟩

theorem calm_fold {α : Type} (f : Mach → α → Mach) (h : ∀ m x, Calm m (f m x)) (l : List α) : ∀ m, Calm m (l.foldl f m) := by
  induction l with
  | nil => exact Calm.refl
  | cons x l ih => exact fun m => (h m x).trans (ih _)

theorem calm_lines (m : Mach) (c : Nat) (f : Core → Core) (h : ∀ k, (f k).openC = k.openC ∧ (f k).comC = k.comC) : Calm m (m.updCore c f) :=
  ⟨core_updCore_lines m c f h, rfl, rfl⟩

theorem calm_pushLine (m : Mach) (c : Nat) (far : Bool) (l : Line) : Calm m (pushLine m c far l) := by
  unfold pushLine
  have h1 := Calm.trans (still_toCluster m (clusterOf c) l).calm (calm_lines (pushToCluster m (clusterOf c) l) c
    (fun k => { k with lines := k.lines.map (fun x => if x.pa == l.pa then x.asClean else x) }) (fun k => ⟨rfl, rfl⟩))
  simp only []
  split
  · split
    · exact h1
    · exact Calm.trans (Calm.trans h1 (still_homePush _ _).calm) ⟨fun d => ⟨rfl, rfl⟩, rfl, rfl⟩
  · exact h1

theorem calm_l1Room (m : Mach) (c pa : Nat) : Calm m (l1Room m c pa) := by
  unfold l1Room
  split
  · next tag _ =>
    refine Calm.trans (still_fold _ (fun m l => still_toCluster m (clusterOf c) l)
      ((m.core c).lines.filter (fun l => l.pa / 512 == tag && l.cls == 1)) m).calm ?_
    exact calm_lines _ c (fun k => { k with lines := k.lines.filter (fun l => l.pa / 512 != tag) }) (fun k => ⟨rfl, rfl⟩)
  · exact Calm.refl m

theorem calm_l1Sector (m : Mach) (who : Who) (va : Nat) (x : Xlat) (b : Nat) : Calm m (l1Sector m who va x b) := by
  unfold l1Sector
  split
  · exact Calm.refl m
  · refine (calm_l1Room m who.core b).trans ?_
    dsimp only
    refine Calm.trans ?_ (calm_lines _ _ _ (fun k => ⟨rfl, rfl⟩))
    split
    · exact (still_cluster _ _ _ _ _ _).calm
    · exact Calm.refl _

theorem calm_l1Tag (m : Mach) (who : Who) (va : Nat) (x : Xlat) : Calm m (l1Tag m who va x) := by
  unfold l1Tag
  refine Calm.trans (calm_fold _ (fun m l => ?_) _ m) (calm_lines _ _ _ (fun k => ⟨rfl, rfl⟩))
  split
  · exact calm_pushLine _ _ _ _
  · exact Calm.refl _

theorem calm_l1 (m : Mach) (who : Who) (va : Nat) (x : Xlat) : Calm m (l1Line m who va x).1 :=
  (calm_l1Tag m who _ x).trans (calm_fold _ (fun m b => calm_l1Sector m who _ x b) _ _)

/-- Home and the threads are as they were, and the L1 of a core holds no scoped line. -/
structure Unpushed (c : Nat) (m m' : Mach) : Prop where
  mem : m'.mem = m.mem
  thr : m'.threads = m.threads
  cls : ∀ y ∈ (m'.core c).lines, y.cls = 0

theorem Unpushed.trans {c : Nat} {a b d : Mach} (h : Unpushed c a b) (k : Unpushed c b d) : Unpushed c a d :=
  ⟨k.mem.trans h.mem, k.thr.trans h.thr, k.cls⟩

theorem filter_scoped {l : List Line} (h : ∀ y ∈ l, y.cls = 0) (p : Line → Bool) : l.filter (fun y => p y && y.cls == 1) = [] := by
  simp only [List.filter_eq_nil_iff, Bool.and_eq_true, beq_iff_eq, not_and]
  intro y hy _; rw [h y hy]; omega

theorem unpushed_l1Room {m : Mach} {c : Nat} (pa : Nat) (h : ∀ y ∈ (m.core c).lines, y.cls = 0) : Unpushed c m (l1Room m c pa) := by
  unfold l1Room
  split
  · unfold l1Out
    rw [filter_scoped h]
    refine ⟨rfl, rfl, fun y hy => h y ?_⟩
    rw [Mach.core_updCore_self] at hy
    exact (List.mem_filter.1 hy).1
  · exact ⟨rfl, rfl, h⟩

theorem unpushed_l1Sector {m : Mach} {who : Who} (va : Nat) {x : Xlat} (b : Nat) (hx : x.cls = 0)
    (h : ∀ y ∈ (m.core who.core).lines, y.cls = 0) : Unpushed who.core m (l1Sector m who va x b) := by
  unfold l1Sector
  split
  · exact ⟨rfl, rfl, h⟩
  · have k := unpushed_l1Room b h
    refine k.trans ?_
    dsimp only
    rw [if_neg (by omega)]
    refine ⟨rfl, rfl, fun y hy => ?_⟩
    rw [Mach.core_updCore_self] at hy
    rcases List.mem_cons.1 hy with rfl | hy
    · exact hx
    · exact k.cls y hy

theorem unpushed_l1Tag {m : Mach} {who : Who} (va : Nat) (x : Xlat) (h : ∀ y ∈ (m.core who.core).lines, y.cls = 0) :
    Unpushed who.core m (l1Tag m who va x) := by
  unfold l1Tag
  have e : ∀ l : List Line, (∀ y ∈ l, y.cls = 0) →
      l.foldl (fun m y => if y.cls = 1 then pushLine m who.core true y else m) m = m := by
    intro l hl
    induction l with
    | nil => rfl
    | cons y l ih =>
      rw [List.foldl_cons, if_neg (by rw [hl y (by simp)]; omega)]
      exact ih (fun z hz => hl z (by simp [hz]))
  dsimp only
  rw [e _ (fun y hy => h y (List.mem_filter.1 hy).1)]
  refine ⟨rfl, rfl, fun y hy => ?_⟩
  rw [Mach.core_updCore_self] at hy
  obtain ⟨z, hz, rfl⟩ := List.mem_map.1 hy
  have := h z (List.mem_filter.1 hz).1
  split <;> exact this

/-- Bringing a chunked line into an L1 that holds no scoped line leaves home and the threads as they are. -/
theorem unpushed_l1 {m : Mach} {who : Who} (va : Nat) {x : Xlat} (hx : x.cls = 0) (h : ∀ y ∈ (m.core who.core).lines, y.cls = 0) :
    Unpushed who.core m (l1Line m who va x).1 := by
  have e : ∀ (l : List Nat) (m' : Mach), (∀ y ∈ (m'.core who.core).lines, y.cls = 0) →
      Unpushed who.core m' (l.foldl (fun m b => l1Sector m who (va % 2 ^ 48) x b) m') := by
    intro l
    induction l with
    | nil => exact fun m' h => ⟨rfl, rfl, h⟩
    | cons b l ih =>
      intro m' h
      have k := unpushed_l1Sector (va % 2 ^ 48) b hx h
      exact k.trans (ih _ k.cls)
  have k := unpushed_l1Tag (va % 2 ^ 48) x h
  exact k.trans (e _ _ k.cls)

theorem l1_ok (m : Mach) (who : Who) (va : Nat) (x : Xlat) (hx : x.cls = 0) : Calm m (l1Chunked m who va x) ∧
    ((∀ y ∈ (m.core who.core).lines, y.cls = 0) → (l1Chunked m who va x).mem = m.mem ∧ (l1Chunked m who va x).threads = m.threads) := by
  unfold l1Chunked
  split
  · exact ⟨calm_l1 m who va x, fun h => ⟨(unpushed_l1 va hx h).mem, (unpushed_l1 va hx h).thr⟩⟩
  · exact ⟨Calm.refl m, fun _ => ⟨rfl, rfl⟩⟩

theorem page_same (k : Chunk) (a v : Nat) : (k.page a v).cells = k.cells ∧ (k.page a v).rd = k.rd ∧ (k.page a v).wr = k.wr := by
  unfold Chunk.page; split <;> exact ⟨rfl, rfl, rfl⟩

theorem chunkByte_calm {m m' : Mach} (h : Calm m m') (hm : m'.mem = m.mem) (c a : Nat) : chunkByte m' c a = chunkByte m c a := by
  simp only [chunkByte, comByte, (h.ch c).1, (h.ch c).2, hm]

theorem chunkBytes_range (m : Mach) (c : Nat) : ∀ (n pa : Nat), chunkBytes m c pa n = (List.range n).map (fun i => chunkByte m c (pa + i))
  | 0, _ => rfl
  | n + 1, pa => by
    rw [chunkBytes, chunkBytes_range m c n, List.range_succ_eq_map, List.map_cons, List.map_map]
    simp only [Nat.add_zero, List.cons.injEq, true_and]
    apply List.map_congr_left
    intro i _; simp [Nat.add_assoc, Nat.add_comm 1 i]

theorem cread_range (l : List Host.Cell) : ∀ (n pa : Nat), cread l pa n = (List.range n).map (fun i => cget l (pa + i))
  | 0, _ => rfl
  | n + 1, pa => by
    rw [cread, cread_range l n, List.range_succ_eq_map, List.map_cons, List.map_map]
    simp only [Nat.add_zero, List.cons.injEq, true_and]
    apply List.map_congr_left
    intro i _; simp [Nat.add_assoc, Nat.add_comm 1 i]

theorem enter_mem (l : List (Nat × Nat)) (pa size : Nat) : (pa / size * size, size) ∈ enter l pa size := by
  unfold enter; split
  · next h => exact List.contains_iff_mem.1 h
  · simp

theorem gRead_ok {m m' : Mach} {who : Who} {acc : Acc} {sc : Scope} {va n : Nat} {bs : List Byte}
    (h : gRead m who acc sc va n = .ok (m', bs)) : ∃ m1 x, translate m who acc va = .ok (m1, x) ∧
      (x.cls = 0 → bs = (List.range n).map (fun i => chunkByte m' who.core (x.pa + i)) ∧
        (x.pa / x.grain * x.grain, x.grain) ∈ (m'.core who.core).openC.rd ∧
        (m'.core who.core).openC.cells = (m.core who.core).openC.cells ∧
        ((∀ y ∈ (m.core who.core).lines, y.cls = 0) → m'.mem = m.mem)) ∧
      (x.cls = 2 ∨ x.cls = 3 → m' = m1 ∧ m'.mem = m.mem ∧ (deviceMem x.pa = true →
        bs = (List.range n).map (fun i => cget m.mem (x.pa + i)))) := by
  unfold gRead at h
  split at h
  · cases h
  next m1 x ht =>
  obtain ⟨f, hf⟩ := translate_ok ht
  refine ⟨m1, x, ht, ?_⟩
  split at h
  · cases h
  split at h
  · cases h
  split at h
  · next hc =>
    refine ⟨fun _ => ?_, fun h' => by rw [hc] at h'; omega⟩
    obtain ⟨c1, c2⟩ := l1_ok m1 who va x hc
    generalize hm2 : l1Chunked m1 who va x = m2 at h c1 c2
    simp only [Except.ok.injEq, chunkRead, Prod.mk.injEq] at h
    obtain ⟨rfl, rfl⟩ := h
    refine ⟨?_, ?_, ?_, ?_⟩
    · rw [chunkBytes_range]
      apply List.map_congr_left
      intro i _
      simp only [chunkByte, Mach.core_updCore_self, (page_same _ _ _).1]
      rfl
    · rw [Mach.core_updCore_self]
      exact enter_mem _ _ _
    · rw [Mach.core_updCore_self]
      have : (m2.core who.core).openC = (m.core who.core).openC := by rw [(c1.ch _).1, hf]; rfl
      rw [← this]
      exact (page_same _ _ _).1
    · intro hy
      have := (c2 (by rw [hf]; exact hy)).1
      rw [hf] at this; exact this
  · next hc => exact ⟨fun h' => by rw [hc] at h'; omega, fun h' => by rw [hc] at h'; omega⟩
  · next hc1 hc2 =>
    simp only [Except.ok.injEq, Prod.mk.injEq] at h
    obtain ⟨rfl, rfl⟩ := h
    refine ⟨fun h' => absurd h' hc1, fun _ => ⟨rfl, by rw [hf], fun hd => ?_⟩⟩
    unfold homeRead hostLine
    have : ∀ e, homeOf x.pa = e → e ≠ .host := by
      intro e he; rw [← he]; intro hh; simp [deviceMem, homeDie, hh] at hd
    have h2 := this _ rfl
    split
    · next l hl =>
      exfalso
      revert hl
      split
      · next hh => exact absurd hh h2
      · intro hl; cases hl
    · rw [cread_range, hf]

theorem specPut_get (bs : List Byte) : ∀ (l : List (Nat × Byte)) (pa : Nat),
    (∀ i, i < bs.length → lget (specPut l pa bs) (pa + i) = some (bs.getD i 0)) ∧
    (∀ a, a < pa ∨ pa + bs.length ≤ a → lget (specPut l pa bs) a = lget l a) := by
  induction bs with
  | nil => intro l pa; simp [specPut]
  | cons b bs ih =>
    intro l pa
    obtain ⟨h1, h2⟩ := ih (lput l pa b) (pa + 1)
    refine ⟨?_, ?_⟩
    · intro i hi
      simp only [specPut]
      cases i with
      | zero => rw [h2 _ (by omega)]; simp
      | succ i => rw [show pa + (i + 1) = pa + 1 + i by omega, h1 i (by simpa using hi)]; simp
    · intro a ha
      simp only [List.length_cons] at ha
      simp only [specPut]
      rw [h2 a (by omega), lget_lput_ne _ _ (by omega)]

theorem repl_fold (gid tix pa : Nat) (bs : List Byte) (l : List Nat) : ∀ m : Mach,
    let m' := l.foldl (fun (m : Mach) d => { m with repls := m.repls ++ [⟨m.nextId, gid, tix, d, replica pa d, bs⟩], nextId := m.nextId + 1 }) m
    m'.mem = m.mem ∧ (∀ y ∈ m.repls, y ∈ m'.repls) ∧ ∀ d ∈ l, ∃ y ∈ m'.repls, y.die = d ∧ y.pa = replica pa d ∧ y.data = bs := by
  induction l with
  | nil => intro m; exact ⟨rfl, fun _ h => h, by simp⟩
  | cons x l ih =>
    intro m
    rw [List.foldl_cons]
    obtain ⟨a, b, c⟩ := ih { m with repls := m.repls ++ [⟨m.nextId, gid, tix, x, replica pa x, bs⟩], nextId := m.nextId + 1 }
    refine ⟨a, fun y hy => b y (by simp [hy]), fun d hd => ?_⟩
    rcases List.mem_cons.1 hd with rfl | hd
    · exact ⟨⟨m.nextId, gid, tix, d, replica pa d, bs⟩, b _ (by simp), rfl, rfl, rfl⟩
    · exact c d hd

theorem gWrite_ok {m m' : Mach} {who : Who} {sc : Scope} {gid tix va : Nat} {bs : List Byte}
    (h : gWrite m who sc gid tix va bs = .ok m') : ∃ m1 x, Machine.translate m who .store va = .ok (m1, x) ∧
      (x.cls = 0 → (x.pa / x.grain * x.grain, x.grain) ∈ (m'.core who.core).openC.wr ∧
        ((∀ y ∈ (m.core who.core).lines, y.cls = 0) → m'.mem = m.mem ∧
          (∀ i, i < bs.length → chunkByte m' who.core (x.pa + i) = bs.getD i 0) ∧
          (∀ a, a < x.pa ∨ x.pa + bs.length ≤ a → chunkByte m' who.core a = chunkByte m who.core a))) ∧
      (x.cls = 2 ∨ (x.cls = 3 ∧ deviceMem x.pa = true) →
        (∀ i, i < bs.length → cget m'.mem (x.pa + i) = bs.getD i 0) ∧
        (∀ a, a < x.pa ∨ x.pa + bs.length ≤ a → cget m'.mem a = cget m.mem a)) ∧
      (x.cls = 2 → ∀ d ∈ who.part, d ≠ who.die → ∃ y ∈ m'.repls, y.die = d ∧ y.pa = replica x.pa d ∧ y.data = bs) := by
  unfold gWrite at h
  split at h
  · cases h
  next m1 x ht =>
  obtain ⟨f, hf⟩ := translate_ok ht
  refine ⟨m1, x, ht, ?_⟩
  split at h
  · cases h
  split at h
  · next hc =>
    refine ⟨fun _ => ?_, fun h' => by rw [hc] at h'; omega, fun h' => by rw [hc] at h'; omega⟩
    obtain ⟨c1, c2⟩ := l1_ok m1 who va x hc
    generalize hm2 : l1Chunked m1 who va x = m2 at h c1 c2
    simp only [Except.ok.injEq, chunkWrite] at h
    subst h
    refine ⟨?_, fun hy => ?_⟩
    · rw [Mach.core_updCore_self]; exact enter_mem _ _ _
    · have hm := (c2 (by rw [hf]; exact hy)).1
      have hm' : m2.mem = m.mem := by rw [hm, hf]
      have hC : (m2.core who.core).openC = (m.core who.core).openC ∧ (m2.core who.core).comC = (m.core who.core).comC := by
        rw [(c1.ch _).1, (c1.ch _).2, hf]; exact ⟨rfl, rfl⟩
      obtain ⟨s1, s2⟩ := specPut_get bs (m.core who.core).openC.cells x.pa
      refine ⟨hm', fun i hi => ?_, fun a ha => ?_⟩
      · simp only [chunkByte, Mach.core_updCore_self, hC.1, s1 i hi]
      · simp only [chunkByte, comByte, Mach.core_updCore_self, hC.1, hC.2, s2 a ha, Mach.updCore_mem, hm']
  · next hc => exact ⟨fun h' => by rw [hc] at h'; omega, fun h' => by rw [hc] at h'; omega, fun h' => by rw [hc] at h'; omega⟩
  · next hc =>
    refine ⟨fun h' => by rw [hc] at h'; omega, fun _ => ?_, fun _ d hd hne => ?_⟩
    · simp only [Except.ok.injEq, replWrite] at h
      obtain ⟨a, -, -⟩ := repl_fold gid tix x.pa bs (who.part.filter (fun d => d != who.die)) { m1 with mem := cwrite m1.mem x.pa bs }
      rw [← h, a]
      have : m1.mem = m.mem := by rw [hf]
      refine ⟨fun i hi => cget_cwrite_inside _ _ _ _ hi, fun a ha => ?_⟩
      rw [cget_cwrite_outside _ _ _ _ ha, this]
    · simp only [Except.ok.injEq, replWrite] at h
      obtain ⟨-, -, c⟩ := repl_fold gid tix x.pa bs (who.part.filter (fun d => d != who.die)) { m1 with mem := cwrite m1.mem x.pa bs }
      rw [← h]
      exact c d (List.mem_filter.2 ⟨hd, by simpa using hne⟩)
  · next hc0 hc1 hc2 =>
    refine ⟨fun h' => absurd h' hc0, fun h' => ?_, fun h' => absurd h' hc2⟩
    obtain ⟨h3, hd⟩ := h'.resolve_left hc2
    simp only [hd, if_true, Except.ok.injEq] at h
    have hmem : m'.mem = cwrite m.mem x.pa bs := by
      rw [← h]
      show (homeWrite m1 who.die x.pa bs).mem = _
      have hn : hostLine m1 who.die x.pa = none := by
        unfold hostLine
        split
        · next hh => simp [deviceMem, homeDie, hh] at hd
        · rfl
      unfold homeWrite
      rw [hn]
      simp only []
      rw [hf]
    rw [hmem]
    exact ⟨fun i hi => cget_cwrite_inside _ _ _ _ hi, fun a ha => cget_cwrite_outside _ _ _ _ ha⟩

theorem natBytes_range : ∀ (n v : Nat), natBytes n v = (List.range n).map (fun i => BitVec.ofNat 8 (v / 256 ^ i))
  | 0, _ => rfl
  | n + 1, v => by
    rw [natBytes, natBytes_range n, List.range_succ_eq_map, List.map_cons, List.map_map]
    simp only [pow_zero, Nat.div_one, List.cons.injEq, true_and]
    apply List.map_congr_left
    intro i _
    simp only [Function.comp_apply, Nat.succ_eq_add_one]
    rw [Nat.div_div_eq_div_mul, pow_succ, Nat.mul_comm]

theorem bytesNat_natBytes : ∀ (n v : Nat), bytesNat (natBytes n v) = v % 256 ^ n
  | 0, v => by simp [natBytes, bytesNat, Nat.mod_one]
  | n + 1, v => by
    rw [natBytes, bytesNat, bytesNat_natBytes n, BitVec.toNat_ofNat, show (2:Nat)^8 = 256 by norm_num, Nat.pow_succ, Nat.mul_comm (256 ^ n) 256, Nat.mod_mul]

theorem byte_ext (w : Word) (i : Nat) : BitVec.ofNat 8 (w.toNat / 256 ^ i) = w.extractLsb' (8 * i) 8 := by
  apply BitVec.eq_of_toNat_eq
  rw [BitVec.extractLsb'_toNat, Nat.shiftRight_eq_div_pow, BitVec.toNat_ofNat, pow_mul]; norm_num

theorem rdD_nat (t : Thread) (b : Nat) : (t.rdD b).toNat = (t.rd b).toNat + 2 ^ 32 * (t.rd (b + 1)).toNat := by
  unfold Thread.rdD mkD
  rw [BitVec.toNat_append, Nat.shiftLeft_eq, Nat.or_comm]
  rw [nat_or _ _ 32 (t.rd b).isLt |>.symm]; omega

theorem natBytes_split (a b : Word) : natBytes 8 (a.toNat + 2 ^ 32 * b.toNat) = natBytes 4 a.toNat ++ natBytes 4 b.toNat := by
  rw [natBytes_range 8, natBytes_range 4, natBytes_range 4]
  have ha := a.isLt
  simp only [show List.range 8 = [0,1,2,3,4,5,6,7] from rfl, show List.range 4 = [0,1,2,3] from rfl, List.map_cons, List.map_nil, List.cons_append, List.nil_append]
  simp only [List.cons.injEq, and_true]
  norm_num
  refine ⟨?_, ?_, ?_, ?_, ?_, ?_, ?_, ?_⟩ <;> (apply BitVec.eq_of_toNat_eq; simp only [BitVec.toNat_ofNat, BitVec.toNat_setWidth]; omega)

theorem word_of_bytes (w : Word) : wordOf (natBytes 4 w.toNat) = w := by
  unfold wordOf
  rw [bytesNat_natBytes, Nat.mod_eq_of_lt (by have := w.isLt; norm_num; omega)]
  simp

theorem length_natBytes : ∀ (n v : Nat), (natBytes n v).length = n
  | 0, _ => rfl
  | n + 1, v => by simp [natBytes, length_natBytes n]

theorem withLoad_eq (m : Mach) (t : Thread) (regs : Regs) (fl : Option Nat) (f : Thread → Thread) (hf : ∀ u, (f u).gid = u.gid ∧ (f u).tix = u.tix) :
    (addLoad m t.gid t.tix regs fl).updThread t.gid t.tix f = withLoad m t regs fl f := by
  simp only [addLoad, Mach.updThread, withLoad, withThread, List.map_map]
  congr 1
  apply List.map_congr_left
  intro u _
  simp only [Function.comp_apply]
  split <;> simp_all

theorem withLoad_id (m : Mach) (t : Thread) (regs : Regs) (fl : Option Nat) : addLoad m t.gid t.tix regs fl = withLoad m t regs fl id := rfl

theorem ite_upd (m : Mach) (t : Thread) (regs : Regs) (fl : Option Nat) (c : Prop) [Decidable c] :
    (if c then (addLoad m t.gid t.tix regs fl).updThread t.gid t.tix (fun t => { t with demoted := true }) else addLoad m t.gid t.tix regs fl) =
      withLoad m t regs fl (fun u => if c then { u with demoted := true } else u) := by
  split
  · next h => exact withLoad_eq m t regs fl (fun t => { t with demoted := true }) (fun u => ⟨rfl, rfl⟩)
  · next h => rfl

theorem putRegs_eq (t : Thread) (l : Regs) : putRegs t l = { t with w := l.foldl (fun w e => rput w e.1 e.2) t.w } := by
  induction l generalizing t with
  | nil => rfl
  | cons e l ih => show putRegs (t.wr e.1 e.2) l = _; rw [ih]; rfl

theorem wakePad_group (m : Mach) (gid : Nat) (a b : List Host.Cell) (h : Nat) : (wakePad m gid a b).group? h = m.group? h := rfl

theorem padPut_ok (m : Mach) (gid off : Nat) (bs : List Byte) (g : Group) (hg : m.group? gid = some g) :
    (padPut m gid off bs).group? gid = some { g with spad := cwrite g.spad off bs } ∧
    (∀ h, h ≠ gid → (padPut m gid off bs).group? h = m.group? h) ∧ (padPut m gid off bs).mem = m.mem ∧
    (padPut m gid off bs).cores = m.cores := by
  unfold padPut
  have hg1 : ∀ b, ({ m with bad := b } : Mach).group? gid = some g := fun _ => hg
  simp only [hg1]
  have hgid := group?_gid hg
  have gen : ∀ (b : List SoftAt) (h : Nat), (({ m with bad := b } : Mach).updGroup gid (fun y => { y with spad := cwrite g.spad off bs })).group? h =
      (m.group? h).map (fun x => if x.gid == gid then { x with spad := cwrite g.spad off bs } else x) :=
    fun b h => Mach.group?_updGroup { m with bad := b } gid (fun y => { y with spad := cwrite g.spad off bs }) (fun _ => rfl) h
  refine ⟨?_, fun h hne => ?_, rfl, rfl⟩
  · rw [wakePad_group]
    refine (gen _ gid).trans ?_
    rw [hg]; simp [hgid]
  · rw [wakePad_group]
    refine (gen _ h).trans ?_
    cases hh : m.group? h with
    | none => rfl
    | some y => simp [group?_gid hh, hne]

theorem undo_fold (gid : Nat) (sp : List Host.Cell) (f : Nat → Nat) (l : List Nat) : ∀ u : List Undo,
    let u' := l.foldl (fun u i => if u.any (fun e => e.gid == gid && e.off == f i) then u else ⟨gid, f i, cread sp (f i) 8⟩ :: u) u
    (∀ e ∈ u, e ∈ u') ∧ (∀ i ∈ l, (∀ e ∈ u, ¬ (e.gid = gid ∧ e.off = f i)) → ⟨gid, f i, cread sp (f i) 8⟩ ∈ u') := by
  induction l with
  | nil => intro u; exact ⟨fun _ h => h, by simp⟩
  | cons x l ih =>
    intro u
    rw [List.foldl_cons]
    by_cases hx : u.any (fun e => e.gid == gid && e.off == f x) = true
    · rw [if_pos hx]
      obtain ⟨a, b⟩ := ih u
      refine ⟨a, fun i hi hn => ?_⟩
      rcases List.mem_cons.1 hi with rfl | hi
      · exfalso
        rw [List.any_eq_true] at hx
        obtain ⟨e, he, h2⟩ := hx
        exact hn e he (by simpa using h2)
      · exact b i hi hn
    · rw [if_neg hx]
      obtain ⟨a, b⟩ := ih (⟨gid, f x, cread sp (f x) 8⟩ :: u)
      refine ⟨fun e he => a e (by simp [he]), fun i hi hn => ?_⟩
      rcases List.mem_cons.1 hi with rfl | hi
      · exact a _ (by simp)
      · by_cases hfx : f i = f x
        · rw [hfx]; exact a _ (by simp)
        · refine b i hi (fun e he => ?_)
          rcases List.mem_cons.1 he with rfl | he
          · rintro ⟨-, h⟩; exact hfx h.symm
          · exact hn e he

theorem padPut_keeps (m : Mach) (gid off : Nat) (bs : List Byte) : (padPut m gid off bs).mem = m.mem ∧ (padPut m gid off bs).cores = m.cores ∧
    (padPut m gid off bs).running = m.running := by
  unfold padPut
  simp only []
  split <;> exact ⟨rfl, rfl, rfl⟩

theorem replay_keeps (u : List Undo) : ∀ m : Mach, (replay m u).mem = m.mem ∧ (replay m u).cores = m.cores := by
  induction u with
  | nil => intro m; exact ⟨rfl, rfl⟩
  | cons e u ih =>
    intro m
    obtain ⟨a, b⟩ := ih (padPut m e.gid e.off e.old)
    exact ⟨a.trans (padPut_keeps _ _ _ _).1, b.trans (padPut_keeps _ _ _ _).2.1⟩

theorem squash_keeps (m : Mach) (c kind d : Nat) (h : d ≠ c) : (squash m c kind).mem = m.mem ∧ (squash m c kind).core d = m.core d := by
  unfold squash
  simp only []
  rw [Mach.core_updCore_ne _ _ h]
  obtain ⟨a, b⟩ := replay_keeps (m.core c).openC.undo m
  cases hc : (m.core c).comC with
  | none =>
    refine ⟨a, ?_⟩
    show (lget (replay m (m.core c).openC.undo).cores d).getD {} = _
    rw [b]; rfl
  | some y =>
    obtain ⟨a2, b2⟩ := replay_keeps y.undo (replay m (m.core c).openC.undo)
    refine ⟨a2.trans a, ?_⟩
    show (lget (replay (replay m (m.core c).openC.undo) y.undo).cores d).getD {} = _
    rw [b2, b]; rfl

theorem squash_mem (m : Mach) (c kind : Nat) : (squash m c kind).mem = m.mem := (squash_keeps m c kind (c + 1) (by omega)).1

theorem squashes_keep (kind : Nat) (but : Nat) (l : List (Nat × Core)) : ∀ m : Mach, (∀ e ∈ l, e.1 ≠ but) →
    (l.foldl (fun m e => squash m e.1 kind) m).mem = m.mem ∧ (l.foldl (fun m e => squash m e.1 kind) m).core but = m.core but := by
  induction l with
  | nil => intro m _; exact ⟨rfl, rfl⟩
  | cons e l ih =>
    intro m h
    rw [List.foldl_cons]
    obtain ⟨a, b⟩ := ih (squash m e.1 kind) (fun x hx => h x (by simp [hx]))
    have := squash_keeps m e.1 kind but (h e (by simp)).symm
    exact ⟨a.trans this.1, b.trans this.2⟩

theorem conflicts_keep (m : Mach) (dies : List Nat) (but : Nat) (gs : List (Nat × Nat)) (kind : Nat) :
    (conflicts m dies (some but) gs kind).mem = m.mem ∧ (conflicts m dies (some but) gs kind).core but = m.core but := by
  unfold conflicts
  apply squashes_keep
  intro e he
  have := (List.mem_filter.1 he).2
  simp only [Bool.and_eq_true, bne_iff_ne, ne_eq] at this
  intro h; exact this.1.1 (by rw [h])

theorem homeRead_dev (m : Mach) (die pa n : Nat) (h : deviceMem pa = true) : homeRead m die pa n = cread m.mem pa n := by
  unfold homeRead hostLine
  split
  · next l hl =>
    exfalso
    revert hl
    split
    · next hh => simp [deviceMem, homeDie, hh] at h
    · intro hl; cases hl
  · rfl

theorem homeWrite_dev (m : Mach) (die pa : Nat) (bs : List Byte) (h : deviceMem pa = true) :
    homeWrite m die pa bs = { m with mem := cwrite m.mem pa bs, poison := unpoison m.poison pa bs.length } := by
  unfold homeWrite
  have hn : hostLine m die pa = none := by
    unfold hostLine
    split
    · next hh => simp [deviceMem, homeDie, hh] at h
    · rfl
  rw [hn]

theorem ite_err {c : Prop} [Decidable c] {e : MemErr} {r : Except MemErr Xlat} {x : Xlat} (h : (if c then .error e else r) = .ok x) :
    ¬ c ∧ r = .ok x := by
  by_cases hc : c
  · rw [if_pos hc] at h; cases h
  · rw [if_neg hc] at h; exact ⟨hc, h⟩

theorem checkLeaf_class {m : Mach} {who : Who} {acc : Acc} {leaf size va : Nat} {x : Xlat}
    (h : checkLeaf m who acc leaf size va = .ok x) : ¬ (x.cls = 2 ∧ acc = .atomic) := by
  unfold checkLeaf at h
  cases hl : leafClass leaf with
  | none => rw [hl] at h; cases h
  | some cls =>
    rw [hl] at h
    have h1 := (ite_err h).2
    have h2 := (ite_err h1).2
    have h3 := (ite_err h2).2
    have h4 := (ite_err h3).2
    have h5 := (ite_err h4).2
    have h6 := (ite_err h5).2
    have h7 := (ite_err h6).2
    have h8 := (ite_err h7).2
    have h9 := (ite_err h8).2
    have h10 := ite_err h9
    have h11 := (ite_err h10.2).2
    have h12 := (ite_err h11).2
    have h13 := (ite_err h12).2
    injection h13 with e
    rw [← e]
    exact h10.1

theorem checkAll_class {m : Mach} {who : Who} {acc : Acc} {leaf size va : Nat} {x : Xlat}
    (h : checkAll m who acc leaf size va = .ok x) : ¬ (x.cls = 2 ∧ acc = .atomic) := by
  unfold checkAll at h
  split at h
  · cases h
  · next y hy =>
    split at h
    · cases h
    · cases h
      exact checkLeaf_class hy

theorem translate_class {m m1 : Mach} {who : Who} {acc : Acc} {va : Nat} {x : Xlat} (h : Machine.translate m who acc va = .ok (m1, x)) :
    ¬ (x.cls = 2 ∧ acc = .atomic) := by
  have walk : walkXlat m who acc (who.va va) = .ok (m1, x) → ¬ (x.cls = 2 ∧ acc = .atomic) := by
    intro h
    unfold walkXlat at h
    split at h
    · cases h
    · split at h
      · cases h
      · next hy =>
        simp only [Except.ok.injEq, Prod.mk.injEq] at h
        exact h.2 ▸ checkAll_class hy
  unfold Machine.translate at h
  split at h
  · cases h
  · split at h
    · exact walk h
    · split at h
      · next hy =>
        simp only [Except.ok.injEq, Prod.mk.injEq] at h
        exact h.2 ▸ checkAll_class hy
      · exact walk h

theorem cget_nat (l : List Host.Cell) (pa n v : Nat) :
    (∀ i, i < n → cget (cwrite l pa (natBytes n v)) (pa + i) = BitVec.ofNat 8 (v / 256 ^ i)) ∧
    (∀ a, a < pa ∨ pa + n ≤ a → cget (cwrite l pa (natBytes n v)) a = cget l a) := by
  refine ⟨fun i hi => ?_, fun a ha => ?_⟩
  · rw [cget_cwrite_inside _ _ _ _ (by rw [length_natBytes]; exact hi), natBytes_range]
    simp [hi]
  · exact cget_cwrite_outside _ _ _ _ (by rw [length_natBytes]; exact ha)

theorem atomAt_ok {m m' : Mach} {who : Who} {sc : Scope} {ea n old : Nat} {f : Nat → Nat} (h : atomAt m who sc ea n f = .done m' old) :
    ∃ m1 x, Machine.translate m who .atomic ea = .ok (m1, x) ∧ x.cls ≠ 2 ∧
      (x.cls = 0 ∨ (x.cls = 3 ∧ deviceMem x.pa = true) →
        old = bytesNat (cread m.mem x.pa n) ∧
        (∀ i, i < n → cget m'.mem (x.pa + i) = BitVec.ofNat 8 (f old / 256 ^ i)) ∧
        (∀ a, a < x.pa ∨ x.pa + n ≤ a → cget m'.mem a = cget m.mem a)) ∧
      (x.cls = 0 → ∀ p, m.partOf who.die = some p → m.part? p.pid = some p → (m'.core who.core).mark = p.grants + 1) := by
  unfold atomAt at h
  split at h
  · cases h
  next m1 x ht =>
  have h2 : x.cls ≠ 2 := fun e => translate_class ht ⟨e, rfl⟩
  obtain ⟨g, hg⟩ := translate_ok ht
  refine ⟨m1, x, ht, h2, ?_⟩
  have hmem : m1.mem = m.mem := by rw [hg]
  split at h
  · cases h
  split at h
  · cases h
  split at h
  · next hc =>
    simp only [] at h
    split at h
    · cases h
    · simp only [AtomDone.done.injEq] at h
      obtain ⟨hm', hold⟩ := h
      have ho : old = bytesNat (cread m.mem x.pa n) := by rw [← hold]; unfold memNat; rw [hmem]
      refine ⟨fun _ => ⟨ho, ?_⟩, fun _ p hp hpp => ?_⟩
      · have e : m'.mem = cwrite m.mem x.pa (natBytes n (f old)) := by
          rw [← hm', (conflicts_keep _ _ _ _ _).1]
          show cwrite (nextMark m1 _).1.mem x.pa _ = _
          have : ∀ q, (nextMark m1 q).1.mem = m.mem := by intro q; unfold nextMark; split <;> exact hmem
          rw [this, ← hold]
        rw [e]
        exact cget_nat _ _ _ _
      · rw [← hm', (conflicts_keep _ _ _ _ _).2, Mach.core_updCore_self]
        have hp1 : m1.partOf who.die = some p := by rw [hg]; exact hp
        have hpp1 : m1.part? p.pid = some p := by rw [hg]; exact hpp
        simp only [hp1, nextMark, hpp1]
  · next hc =>
    exact ⟨fun h' => by rcases h' with h' | ⟨h', -⟩ <;> omega, fun h' => by omega⟩
  · next hc0 hc1 =>
    simp only [AtomDone.done.injEq] at h
    obtain ⟨hm', hold⟩ := h
    refine ⟨fun h' => ?_, fun h' => absurd h' hc0⟩
    obtain ⟨h3, hd⟩ := h'.resolve_left hc0
    rw [homeRead_dev _ _ _ _ hd, hmem] at hold
    refine ⟨hold.symm, ?_⟩
    have e : m'.mem = cwrite m.mem x.pa (natBytes n (f old)) := by
      rw [← hm', homeRead_dev _ _ _ _ hd, hmem, hold, homeWrite_dev _ _ _ _ hd]
      show cwrite m1.mem _ _ = _
      rw [hmem]
    rw [e]
    exact cget_nat _ _ _ _

theorem signed_eq (w : Nat) (hw : 0 < w) (a : BitVec w) : signedOf w a.toNat = a.toInt := by
  unfold signedOf
  rw [BitVec.toInt_eq_toNat_cond]
  have : 2 * 2 ^ (w - 1) = 2 ^ w := by rw [← Nat.pow_succ', Nat.succ_eq_add_one, Nat.sub_add_cancel hw]
  have := a.isLt
  split <;> split <;> first | rfl | omega

theorem seq_full {s : State} {r : Running} {t : Thread} {g : Guard} (h : Alone s r t g) (cause len : Nat)
    (f : Mach → Running → Thread → Mach) (he : chunkEmpty s.m r.core = true) (hc : (s.m.core r.core).comC.isSome = true) :
    escWord s.m g cause len f = stalled s.m r t := by
  simp [escWord, seqWord_alone h, escDo, he, hc]; rfl

theorem addDue_eq (m : Mach) (c cause : Nat) : addDue m c cause = m.updCore c (fun k =>
    { k with due := if cause ∈ k.due then k.due else cause :: k.due }) := by
  unfold addDue; simp

theorem escapes_two {i : Instr} {c len : Nat} {g : Guard} {f : Mach → Running → Thread → Mach}
    (hi : ∀ s, exec i s = .next (s.onMach (fun m => escWord m g c len f)))
    {s : State} {r : Running} {t : Thread} (h : Alone s r t g) :
    (chunkEmpty s.m r.core = false → exec i s = .next ⟨s.agenda,
      wordEscapes s.m r t c⟩) ∧
    (chunkEmpty s.m r.core = true → (s.m.core r.core).comC.isSome = true → exec i s = .next ⟨s.agenda, stalled s.m r t⟩) := by
  constructor
  · intro he; rw [hi]; simp only [State.onMach]; rw [escWord_leaves h _ _ _ he]
  · intro he hc; rw [hi]; simp only [State.onMach]; rw [seq_full h _ _ _ he hc]

theorem asClean_clean (l : Line) : l.asClean.clean = true := by
  unfold Line.asClean Line.clean
  simp

theorem toCluster_core (m : Mach) (cl : Nat) (l : Line) (c : Nat) : (pushToCluster m cl l).core c = m.core c :=
  (still_toCluster m cl l).core c

theorem pushLine_lines (m : Mach) (c : Nat) (far : Bool) (l : Line) : ((pushLine m c far l).core c).lines =
    (m.core c).lines.map (fun x => if x.pa == l.pa then x.asClean else x) := by
  have e : ((pushLine m c far l).core c) = ((pushToCluster m (clusterOf c) l).updCore c (fun k => { k with lines := k.lines.map (fun x => if x.pa == l.pa then x.asClean else x) })).core c := by
    unfold pushLine
    dsimp only
    split
    · split
      · rfl
      · exact (still_homePush _ _).core c
    · rfl
  rw [e, Mach.core_updCore_self, toCluster_core]

theorem fold_lines (c : Nat) (far : Bool) (l : List Line) : ∀ m : Mach,
    (∀ x ∈ (m.core c).lines, x.cls = 1 → x.clean = true ∨ ∃ y ∈ l, y.pa = x.pa ∧ y.clean = false ∧ y.cls = 1) →
    ∀ x ∈ ((l.foldl (fun m l => if l.clean || l.cls != 1 then m else pushLine m c far l) m).core c).lines, x.cls = 1 → x.clean = true := by
  induction l with
  | nil => intro m h x hx hc; simpa using h x hx hc
  | cons y l ih =>
    intro m h
    rw [List.foldl_cons]
    apply ih
    by_cases hy : (y.clean || y.cls != 1) = true
    · rw [if_pos hy]
      intro x hx hc
      rcases h x hx hc with h1 | ⟨z, hz, h2, h3, h4⟩
      · exact .inl h1
      · rcases List.mem_cons.1 hz with rfl | hz
        · simp [h3, h4] at hy
        · exact .inr ⟨z, hz, h2, h3, h4⟩
    · rw [if_neg hy, pushLine_lines]
      intro x hx hc
      obtain ⟨w, hw, rfl⟩ := List.mem_map.1 hx
      by_cases hp : (w.pa == y.pa) = true
      · left; simp only [hp, if_true]; exact asClean_clean w
      · simp only [hp, Bool.false_eq_true, if_false] at hc ⊢
        rcases h w hw hc with h1 | ⟨z, hz, h2, h3, h4⟩
        · exact .inl h1
        · rcases List.mem_cons.1 hz with rfl | hz
          · simp [h2] at hp
          · exact .inr ⟨z, hz, h2, h3, h4⟩

theorem cluster_set (m : Mach) (c : Nat) (l : List Line) : (m.setCluster c l).cluster c = l := by
  unfold Mach.setCluster Mach.cluster
  by_cases h : l = []
  · simp [h]
  · simp [h]

theorem fold_cluster (c : Nat) (l : List Line) : ∀ m : Mach,
    (∀ x ∈ m.cluster (clusterOf c), x.clean = true ∨ x ∈ l) →
    (∀ x ∈ (l.foldl (fun m x => if x.clean then m
      else (homePush m x).setCluster (clusterOf c) (setLine (m.cluster (clusterOf c)) x.asClean)) m).cluster (clusterOf c), x.clean = true) ∧
    ∀ d, (l.foldl (fun m x => if x.clean then m
      else (homePush m x).setCluster (clusterOf c) (setLine (m.cluster (clusterOf c)) x.asClean)) m).core d = m.core d := by
  induction l with
  | nil => intro m h; exact ⟨fun x hx => by simpa using h x hx, fun _ => rfl⟩
  | cons y l ih =>
    intro m h
    rw [List.foldl_cons]
    by_cases hy : y.clean = true
    · simp only [if_pos hy]
      refine ih m (fun x hx => ?_)
      rcases h x hx with h1 | h1
      · exact .inl h1
      · rcases List.mem_cons.1 h1 with rfl | h1
        · exact .inl hy
        · exact .inr h1
    · simp only [if_neg hy]
      obtain ⟨a, b⟩ := ih ((homePush m y).setCluster (clusterOf c) (setLine (m.cluster (clusterOf c)) y.asClean)) (by
        intro x hx
        rw [cluster_set] at hx
        unfold setLine at hx
        rcases List.mem_cons.1 hx with rfl | hx
        · exact .inl (asClean_clean y)
        · have hm := List.mem_filter.1 hx
          rcases h x hm.1 with h1 | h1
          · exact .inl h1
          · rcases List.mem_cons.1 h1 with rfl | h1
            · simp [Line.asClean] at hm
            · exact .inr h1)
      exact ⟨a, fun d => (b d).trans ((still_homePush m y).core d)⟩

theorem cwriteMask_get (bs : List Byte) : ∀ (ds : List Bool) (l : List Host.Cell) (a x : Nat), bs.length = ds.length →
    cget (cwriteMask l a bs ds) x = if a ≤ x ∧ x < a + bs.length ∧ ds.getD (x - a) false = true then bs.getD (x - a) 0 else cget l x := by
  induction bs with
  | nil => intro ds l a x h; simp [cwriteMask]; omega
  | cons b bs ih =>
    intro ds l a x h
    cases ds with
    | nil => simp at h
    | cons d ds =>
      simp only [List.length_cons, Nat.add_right_cancel_iff] at h
      rw [cwriteMask, ih ds _ (a+1) x h]
      by_cases hx : x = a
      · subst hx
        rw [if_neg (by omega)]
        cases d <;> simp
      · have e : cget (if d = true then cput l a b else l) x = cget l x := by
          split
          · exact cget_cput_ne _ hx _
          · rfl
        rw [e]
        by_cases hlt : a ≤ x
        · obtain ⟨k, rfl⟩ : ∃ k, x = a + 1 + k := ⟨x - a - 1, by omega⟩
          have e1 : a + 1 + k - (a + 1) = k := by omega
          have e2 : a + 1 + k - a = k + 1 := by omega
          rw [e1, e2]
          simp only [List.getD_cons_succ, List.length_cons]
          congr 1
          simp only [eq_iff_iff]
          constructor <;> rintro ⟨h1, h2, h3⟩ <;> exact ⟨by omega, by omega, h3⟩
        · rw [if_neg (by omega), if_neg (by omega)]

theorem mergeMask_get (bs : List Byte) : ∀ (ds : List Bool) (xs : List Byte) (es : List Bool), bs.length = ds.length →
    ds.length = xs.length → xs.length = es.length → ∀ i, i < bs.length →
    (mergeMask bs ds xs es).1.getD i 0 = (if es.getD i false then xs.getD i 0 else bs.getD i 0) ∧
    (mergeMask bs ds xs es).2.getD i false = (es.getD i false || ds.getD i false) := by
  induction bs with
  | nil => intro ds xs es h1 h2 h3 i hi; simp at hi
  | cons b bs ih =>
    intro ds xs es h1 h2 h3 i hi
    match ds, xs, es, h1, h2, h3 with
    | d :: ds, x :: xs, e :: es, h1, h2, h3 =>
      simp only [List.length_cons, Nat.add_right_cancel_iff] at h1 h2 h3
      cases i with
      | zero => simp [mergeMask, Bool.or_comm]
      | succ k =>
        simp only [List.length_cons, Nat.add_lt_add_iff_right] at hi
        have := ih ds xs es h1 h2 h3 k hi
        simpa [mergeMask] using this

theorem homeSector_clean (m : Mach) (pa cls grain : Nat) (w : Bool) : (homeSector m pa cls grain w).clean = true := by
  simp [homeSector, Line.clean]

/-- The L1 of a core holds no dirty scoped byte, and its cluster cache none at all. -/
def Tidy (c : Nat) (m : Mach) : Prop :=
  (∀ y ∈ (m.core c).lines, y.cls = 1 → y.clean = true) ∧ ∀ y ∈ m.cluster (clusterOf c), y.clean = true

/-- What leaves home and the threads as they are, and the caches of a core tidy. -/
structure Tidily (c : Nat) (m m' : Mach) : Prop where
  mem : m'.mem = m.mem
  thr : m'.threads = m.threads
  tdy : Tidy c m'

theorem Tidily.trans {c : Nat} {a b d : Mach} (h : Tidily c a b) (k : Tidily c b d) : Tidily c a d :=
  ⟨k.mem.trans h.mem, k.thr.trans h.thr, k.tdy⟩

theorem tidily_fold {α : Type} {c : Nat} (f : Mach → α → Mach) (h : ∀ m x, Tidy c m → Tidily c m (f m x)) (l : List α) :
    ∀ m, Tidy c m → Tidily c m (l.foldl f m) := by
  induction l with
  | nil => exact fun m h => ⟨rfl, rfl, h⟩
  | cons x l ih => exact fun m k => (h m x k).trans (ih _ (h m x k).tdy)

/-- Giving up lines leaves the caches tidy. -/
theorem tidy_less {c : Nat} {m m' : Mach} (h : Tidy c m) (h1 : ∀ y ∈ (m'.core c).lines, y.cls = 1 → y.clean = true ∨ y ∈ (m.core c).lines)
    (h2 : ∀ y ∈ m'.cluster (clusterOf c), y.clean = true ∨ y ∈ m.cluster (clusterOf c)) : Tidy c m' :=
  ⟨fun y hy hc => (h1 y hy hc).elim id (fun k => h.1 y k hc), fun y hy => (h2 y hy).elim id (h.2 y)⟩

theorem fold_clean (l : List Line) (h : ∀ y ∈ l, y.clean = true) (m : Mach) : l.foldl homePush m = m := by
  induction l with
  | nil => rfl
  | cons y l ih => rw [List.foldl_cons, homePush_clean (h y (by simp))]; exact ih (fun z hz => h z (by simp [hz]))

theorem tidily_sector {m : Mach} {c : Nat} (grain cls : Nat) (w : Bool) (b : Nat) (h : Tidy c m) :
    Tidily c m (clusterSector m (clusterOf c) grain cls w b) := by
  have room : Tidily c m (clusterRoom m (clusterOf c) b) := by
    unfold clusterRoom
    split
    · next tag _ =>
      unfold clusterOut
      rw [fold_clean _ (fun y hy => h.2 y (List.mem_filter.1 hy).1)]
      refine ⟨rfl, rfl, tidy_less h (fun y hy _ => .inr hy) (fun y hy => .inr ?_)⟩
      rw [cluster_set] at hy
      exact (List.mem_filter.1 hy).1
    · exact ⟨rfl, rfl, h⟩
  unfold clusterSector
  split
  · exact ⟨rfl, rfl, h⟩
  · refine room.trans ⟨rfl, rfl, tidy_less room.tdy (fun y hy _ => .inr hy) (fun y hy => ?_)⟩
    rw [cluster_set] at hy
    rcases List.mem_cons.1 hy with rfl | hy
    · exact .inl (homeSector_clean _ _ _ _ _)
    · exact .inr hy

theorem toCluster_clean {m : Mach} {cl : Nat} {l : Line} (h : l.clean = true) : pushToCluster m cl l = m := by simp [pushToCluster, h]

theorem cluster_updCore (m : Mach) (c : Nat) (f : Core → Core) (cl : Nat) : (m.updCore c f).cluster cl = m.cluster cl := rfl

theorem tidily_push {m : Mach} {c : Nat} {l : Line} (hl : l.clean = true) (h : Tidy c m) : Tidily c m (pushLine m c true l) := by
  unfold pushLine
  rw [toCluster_clean hl]
  have h1 : Tidy c (m.updCore c (fun k => { k with lines := k.lines.map (fun x => if x.pa == l.pa then x.asClean else x) })) := by
    refine tidy_less h (fun y hy hc => ?_) (fun y hy => .inr hy)
    rw [Mach.core_updCore_self] at hy
    obtain ⟨z, hz, rfl⟩ := List.mem_map.1 hy
    by_cases he : (z.pa == l.pa) = true
    · left; simp only [he, if_true]; exact asClean_clean z
    · right; simpa only [he, Bool.false_eq_true, if_false] using hz
  dsimp only
  rw [if_pos rfl]
  split
  · exact ⟨rfl, rfl, h1⟩
  · next x hx =>
    have hc := h1.2 x (List.mem_of_find?_eq_some hx)
    rw [homePush_clean hc]
    refine ⟨rfl, rfl, tidy_less h1 (fun y hy _ => .inr hy) (fun y hy => ?_)⟩
    rw [cluster_set] at hy
    unfold setLine at hy
    rcases List.mem_cons.1 hy with rfl | hy
    · exact .inl (asClean_clean x)
    · exact .inr (List.mem_filter.1 hy).1

theorem tidily_l1Tag {m : Mach} {who : Who} (va : Nat) (x : Xlat) (h : Tidy who.core m) : Tidily who.core m (l1Tag m who va x) := by
  unfold l1Tag
  dsimp only
  have k : ∀ (l : List Line), (∀ y ∈ l, y.cls = 1 → y.clean = true) → ∀ m, Tidy who.core m →
      Tidily who.core m (l.foldl (fun m y => if y.cls = 1 then pushLine m who.core true y else m) m) := by
    intro l
    induction l with
    | nil => exact fun _ m h => ⟨rfl, rfl, h⟩
    | cons y l ih =>
      intro hl m h
      rw [List.foldl_cons]
      split
      · next hy =>
        have k := tidily_push (hl y (by simp) hy) h
        exact k.trans (ih (fun z hz => hl z (by simp [hz])) _ k.tdy)
      · exact ih (fun z hz => hl z (by simp [hz])) _ h
  have k := k ((m.core who.core).lines.filter (fun l => l.tagged who va && l.pa / 512 != x.pa / 512))
    (fun y hy => h.1 y (List.mem_filter.1 hy).1) m h
  refine k.trans ⟨rfl, rfl, tidy_less k.tdy (fun y hy hc => ?_) (fun y hy => .inr hy)⟩
  rw [Mach.core_updCore_self] at hy
  obtain ⟨z, hz, rfl⟩ := List.mem_map.1 hy
  have hz' := (List.mem_filter.1 hz).1
  by_cases he : (z.pa / 512 == x.pa / 512) = true
  · simp only [he, if_true] at hc ⊢
    exact .inl (k.tdy.1 z hz' hc)
  · simp only [he, Bool.false_eq_true, if_false] at hc ⊢
    exact .inr hz'

theorem tidily_l1Sector {m : Mach} {who : Who} (va : Nat) (x : Xlat) (b : Nat) (h : Tidy who.core m) :
    Tidily who.core m (l1Sector m who va x b) := by
  unfold l1Sector
  split
  · exact ⟨rfl, rfl, h⟩
  have room : Tidily who.core m (l1Room m who.core b) := by
    unfold l1Room
    split
    · next tag _ =>
      unfold l1Out
      have e : ∀ (l : List Line), (∀ y ∈ l, y.clean = true) → ∀ m : Mach, l.foldl (fun m l => pushToCluster m (clusterOf who.core) l) m = m := by
        intro l
        induction l with
        | nil => exact fun _ _ => rfl
        | cons y l ih => intro hl m; rw [List.foldl_cons, toCluster_clean (hl y (by simp))]; exact ih (fun z hz => hl z (by simp [hz])) m
      dsimp only
      rw [e _ (fun y hy => by
        obtain ⟨h1, h2⟩ := List.mem_filter.1 hy
        rw [Bool.and_eq_true, beq_iff_eq, beq_iff_eq] at h2
        exact h.1 y h1 h2.2)]
      refine ⟨rfl, rfl, tidy_less h (fun y hy _ => .inr ?_) (fun y hy => .inr hy)⟩
      rw [Mach.core_updCore_self] at hy
      exact (List.mem_filter.1 hy).1
    · exact ⟨rfl, rfl, h⟩
  refine room.trans ?_
  dsimp only
  have key : ∀ (n : Mach) (l : Line), l.clean = true → Tidily who.core (l1Room m who.core b) n →
      Tidily who.core (l1Room m who.core b) (n.updCore who.core (fun k => { k with lines := l :: k.lines })) := by
    intro n l hl hn
    refine hn.trans ⟨rfl, rfl, tidy_less hn.tdy (fun y hy _ => ?_) (fun y hy => .inr hy)⟩
    rw [Mach.core_updCore_self] at hy
    rcases List.mem_cons.1 hy with rfl | hy
    · exact .inl hl
    · exact .inr hy
  have hs : ∀ (d : List Byte) (v : Nat), ({ homeSector (l1Room m who.core b) b x.cls x.grain x.world with
      asid := who.asid, va := v, leaf := x.leaf, span := x.span, data := d } : Line).clean = true := fun d v => homeSector_clean (l1Room m who.core b) b x.cls x.grain x.world
  split
  · exact key _ _ (hs _ _) (tidily_fold _ (fun _ b h => tidily_sector x.grain x.cls x.world b h) _ _ room.tdy)
  · exact key _ _ (hs _ _) ⟨rfl, rfl, room.tdy⟩

theorem calm_sector (m : Mach) (cl grain cls : Nat) (w : Bool) (b : Nat) : Calm m (clusterSector m cl grain cls w b) :=
  (still_sector m cl grain cls w b).calm

/-- `pref` touches no chunk, group or clause, and where no byte that it moves is dirty, neither home nor a thread. -/
theorem pref_calm (m : Mach) (who : Who) (va : Nat) (x : Xlat) (l : List Nat) :
    Calm m (l.foldl (fun m b => l1Sector m who va x b) (l1Tag m who va x)) ∧
    (Tidy who.core m → Tidily who.core m (l.foldl (fun m b => l1Sector m who va x b) (l1Tag m who va x))) :=
  ⟨(calm_l1Tag m who va x).trans (calm_fold _ (fun m b => calm_l1Sector m who va x b) _ _),
   fun h => (tidily_l1Tag va x h).trans (tidily_fold _ (fun m b h => tidily_l1Sector va x b h) _ _ (tidily_l1Tag va x h).tdy)⟩

theorem lineAt_pa {ls : List Line} {pa : Nat} {l : Line} (h : lineAt ls pa = some l) : l.has pa = true := by
  have := List.find?_some h
  simpa using this

end Sys2Proof.Machine
end

