-- ==== Sys2Proof/Laws/Decode.lean ====
section
/-!
SUPPORT. Laws of the encoding: no layout drops a bit, each operand shape comes back from the word that holds it, and
what a decoded word says of its instruction.
-/

namespace Sys2Proof

theorem toNat_lt (b : Bool) : b.toNat < 2 := by cases b <;> decide

theorem beq_toNat (b : Bool) : (b.toNat == 1) = b := by cases b <;> rfl

/-- The bounds of the fields of layout R. -/
structure RF.Fits (f : RF) : Prop where
  p : f.guard.p < 8
  op : f.op < 1024
  d : f.d < 256
  a : f.a < 256
  b : f.b < 256
  c : f.c < 256
  rnd : f.rnd < 4
  spec : f.spec < 256
  sel : f.sel < 4

/-- No field of layout R is dropped or overlapped. -/
theorem RF.ofWord_word (f : RF) (h : f.Fits) : RF.ofWord f.word = f := by
  obtain ⟨hg, ho, hd, ha, hb, hc, hr, hs, hl⟩ := h
  obtain ⟨⟨gn, gp⟩, op, d, a, b, c, u, dk, ak, bk, dd, rnd, spec, sel⟩ := f
  simp only at *
  simp only [RF.ofWord, RF.word, guardOf, Guard.word, bits, bit]
  have hgn := toNat_lt gn; have hu := toNat_lt u; have hdk := toNat_lt dk; have hak := toNat_lt ak
  have hbk := toNat_lt bk; have hdd := toNat_lt dd
  congr
  all_goals first
    | omega
    | (refine Eq.trans (congrArg (· == 1) (?_ : _ = gn.toNat)) (beq_toNat gn); omega)
    | (refine Eq.trans (congrArg (· == 1) (?_ : _ = u.toNat)) (beq_toNat u); omega)
    | (refine Eq.trans (congrArg (· == 1) (?_ : _ = dk.toNat)) (beq_toNat dk); omega)
    | (refine Eq.trans (congrArg (· == 1) (?_ : _ = ak.toNat)) (beq_toNat ak); omega)
    | (refine Eq.trans (congrArg (· == 1) (?_ : _ = bk.toNat)) (beq_toNat bk); omega)
    | (refine Eq.trans (congrArg (· == 1) (?_ : _ = dd.toNat)) (beq_toNat dd); omega)

theorem RF.full (f : RF) (h : f.Fits) : bit f.word 63 = false ∧ f.word < 2 ^ 63 := by
  obtain ⟨hg, ho, hd, ha, hb, hc, hr, hs, hl⟩ := h
  obtain ⟨⟨gn, gp⟩, op, d, a, b, c, u, dk, ak, bk, dd, rnd, spec, sel⟩ := f
  simp only at *
  simp only [RF.word, Guard.word, bit]
  have hgn := toNat_lt gn; have hu := toNat_lt u; have hdk := toNat_lt dk; have hak := toNat_lt ak
  have hbk := toNat_lt bk; have hdd := toNat_lt dd
  constructor
  · rw [beq_eq_false_iff_ne]; omega
  · omega

/-- The bounds of the fields of layouts I and B. -/
structure IF.Fits (f : IF) : Prop where
  p : f.g.p < 8
  op : f.op < 1024
  d : f.d < 256
  a : f.a < 256
  imm : f.imm < 2 ^ 33

theorem IF.ofWord_word (f : IF) (h : f.Fits) : IF.ofWord f.word = f ∧ (RF.ofWord f.word).op = f.op ∧ bit f.word 63 = false ∧ f.word < 2 ^ 63 := by
  obtain ⟨hg, ho, hd, ha, hi⟩ := h
  obtain ⟨⟨gn, gp⟩, op, d, a, imm⟩ := f
  simp only at *
  simp only [IF.ofWord, RF.ofWord, IF.word, guardOf, Guard.word, bits, bit]
  have hgn := toNat_lt gn
  refine ⟨?_, by omega, by rw [beq_eq_false_iff_ne]; omega, by omega⟩
  congr
  all_goals first
    | omega
    | (refine Eq.trans (congrArg (· == 1) (?_ : _ = gn.toNat)) (beq_toNat gn); omega)

/-- The bounds of the fields of layout E. -/
structure EF.Fits (f : EF) : Prop where
  p : f.g.p < 8
  op : f.op < 1024
  d : f.d < 256
  a : f.a < 256
  id : f.id < 2 ^ 16
  mods : f.mods < 2 ^ 17

theorem EF.ofWord_word (f : EF) (h : f.Fits) : EF.ofWord f.word = f ∧ (RF.ofWord f.word).op = f.op ∧ bit f.word 63 = false ∧ f.word < 2 ^ 63 := by
  obtain ⟨hg, ho, hd, ha, hi, hm⟩ := h
  obtain ⟨⟨gn, gp⟩, op, d, a, id, mods⟩ := f
  simp only at *
  simp only [EF.ofWord, RF.ofWord, EF.word, guardOf, Guard.word, bits, bit]
  have hgn := toNat_lt gn
  refine ⟨?_, by omega, by rw [beq_eq_false_iff_ne]; omega, by omega⟩
  congr
  all_goals first
    | omega
    | (refine Eq.trans (congrArg (· == 1) (?_ : _ = gn.toNat)) (beq_toNat gn); omega)

/-- The bounds of the fields of layout M. -/
structure MF.Fits (f : MF) : Prop where
  p : f.g.p < 8
  op : f.op < 1024
  d : f.d < 256
  a : f.a < 256
  b : f.b < 256
  scope : f.scope < 8
  size : f.size < 8
  sel : f.sel < 4
  off : f.off < 2 ^ 17

theorem MF.ofWord_word (f : MF) (h : f.Fits) : MF.ofWord f.word = f ∧ (RF.ofWord f.word).op = f.op ∧ bit f.word 63 = false ∧ f.word < 2 ^ 63 := by
  obtain ⟨hg, ho, hd, ha, hb, hc, hz, hl, hi⟩ := h
  obtain ⟨⟨gn, gp⟩, op, d, a, b, scope, size, sel, off⟩ := f
  simp only at *
  simp only [MF.ofWord, RF.ofWord, MF.word, guardOf, Guard.word, bits, bit]
  have hgn := toNat_lt gn
  refine ⟨?_, by omega, by rw [beq_eq_false_iff_ne]; omega, by omega⟩
  congr
  all_goals first
    | omega
    | (refine Eq.trans (congrArg (· == 1) (?_ : _ = gn.toNat)) (beq_toNat gn); omega)

/-! Codes of the enumerated fields. -/

theorem Rnd.code_lt (r : Rnd) : r.code < 4 ∧ Rnd.ofCode r.code = r := by cases r <;> exact ⟨by decide, rfl⟩

theorem WFmt.code_lt (r : WFmt) : r.code < 4 ∧ WFmt.ofCode r.code = r := by cases r <;> exact ⟨by decide, rfl⟩

theorem Cond.code_lt (r : Cond) : r.code < 16 ∧ Cond.ofCode r.code = some r := by cases r <;> exact ⟨by decide, rfl⟩

theorem FCond.code_lt (r : FCond) : r.code < 16 ∧ FCond.ofCode r.code = some r := by cases r <;> exact ⟨by decide, rfl⟩

theorem FrMode.code_lt (r : FrMode) : r.code < 8 ∧ FrMode.ofCode r.code = some r := by cases r <;> exact ⟨by decide, rfl⟩

theorem ShflMode.code_lt (r : ShflMode) : r.code < 4 ∧ ShflMode.ofCode r.code = some r := by cases r <;> exact ⟨by decide, rfl⟩

theorem VoteMode.code_lt (r : VoteMode) : r.code < 4 ∧ VoteMode.ofCode r.code = Option.some r := by cases r <;> exact ⟨by decide, rfl⟩

theorem RedOp.code_lt (r : RedOp) : r.code < 8 ∧ RedOp.ofCode r.code = some r := by cases r <;> exact ⟨by decide, rfl⟩

theorem AtomOp.code_lt (r : AtomOp) : r.code < 16 ∧ AtomOp.ofCode r.code = some r := by cases r <;> exact ⟨by decide, rfl⟩

theorem Scope.code_lt (r : Scope) : r.code < 8 ∧ Scope.ofCode r.code = some r := by cases r <;> exact ⟨by decide, rfl⟩

theorem Size.code_lt (r : Size) : r.code < 8 ∧ Size.ofCode r.code = some r := by cases r <;> exact ⟨by decide, rfl⟩

theorem TlSel.code_lt (r : TlSel) : r.code < 4 ∧ TlSel.ofCode r.code = some r := by cases r <;> exact ⟨by decide, rfl⟩

theorem ChSel.code_lt (r : ChSel) : r.code < 4 ∧ ChSel.ofCode r.code = some r := by cases r <;> exact ⟨by decide, rfl⟩

theorem TsSel.code_lt (r : TsSel) : r.code < 4 ∧ TsSel.ofCode r.code = some r := by cases r <;> exact ⟨by decide, rfl⟩

theorem HsSel.code_lt (r : HsSel) : r.code < 4 ∧ HsSel.ofCode r.code = some r := by cases r <;> exact ⟨by decide, rfl⟩

theorem CompactOp.code_lt (r : CompactOp) : r.code < 128 ∧ CompactOp.ofCode r.code = some r := by cases r <;> exact ⟨by decide, rfl⟩

theorem FenceKind.code_lt (r : FenceKind) : r.code < 4 ∧ FenceKind.ofCode r.code = some r := by cases r <;> exact ⟨by decide, rfl⟩

theorem BarSel.code_lt (r : BarSel) (h : r.ok = true) : r.code < 16 ∧ BarSel.ofCode r.code = some r := by
  cases r with
  | lv l =>
    have hl : l < 7 := by simpa [BarSel.ok] using h
    refine ⟨?_, ?_⟩
    · show l < 16; omega
    · show BarSel.ofCode l = _; unfold BarSel.ofCode; rw [if_pos hl]
  | cl => exact ⟨by decide, rfl⟩
  | die => exact ⟨by decide, rfl⟩
  | pkg => exact ⟨by decide, rfl⟩
  | grp => exact ⟨by decide, rfl⟩

/-- A signed field holds the values its width allows. -/
theorem sext_unsext (n : Nat) (v : Int) (hn : 0 < n) (h : okSext n v = true) : sext n (unsext n v) = v ∧ unsext n v < 2 ^ n := by
  unfold okSext at h
  simp only [Bool.and_eq_true, decide_eq_true_eq] at h
  obtain ⟨m, rfl⟩ : ∃ m, n = m + 1 := ⟨n - 1, by omega⟩
  simp only [Nat.add_sub_cancel] at h
  unfold sext unsext
  have hp : ((2 ^ (m + 1) : Nat) : Int) = 2 * 2 ^ m := by push_cast; ring
  have hq : ((2 ^ m : Nat) : Int) = 2 ^ m := by push_cast; ring
  have hpos : (0 : Int) < 2 ^ m := by positivity
  have hnp : 2 ^ (m + 1) = 2 * 2 ^ m := by ring
  simp only [Nat.add_sub_cancel]
  have hb : v % ((2 ^ (m + 1) : Nat) : Int) = if 0 ≤ v then v else v + 2 * 2 ^ m := by
    rw [hp]
    split
    · exact Int.emod_eq_of_lt (by omega) (by omega)
    · rw [← Int.add_mul_emod_self_left v (2 * 2 ^ m) 1, Int.mul_one]
      exact Int.emod_eq_of_lt (by omega) (by omega)
  rw [hb]
  generalize hz : (2 : Int) ^ m = z at *
  generalize hy : 2 ^ m = y at *
  rw [hnp]
  split
  · have : v.toNat < y := by omega
    constructor
    · rw [Nat.mod_eq_of_lt (by omega), if_pos this]; omega
    · omega
  · have h1 : (v + 2 * z).toNat < 2 * y := by omega
    constructor
    · rw [Nat.mod_eq_of_lt h1, if_neg (by omega)]; omega
    · exact h1

/-! Operand shapes: what a shape's word holds is the shape. -/

theorem Guard.ok_lt {g : Guard} (h : g.ok = true) : g.p < 8 := by
  unfold Guard.ok at h; simp only [Bool.and_eq_true, decide_eq_true_eq] at h; exact h.1

theorem Src.dst_law {u : Bool} {d : Src} (h : d.okDst u = true) : d.num < 256 ∧ Src.mk d.num d.isK false = d := by
  cases d <;> simp only [Src.okDst, Bool.and_eq_true, decide_eq_true_eq, Bool.false_eq_true] at h
  · exact ⟨h, rfl⟩
  · exact ⟨Nat.lt_trans h.2 (by decide), rfl⟩

theorem Src.a_law {d : Src} (h : d.okA = true) : d.num < 256 ∧ Src.mk d.num d.isK false = d := by
  cases d <;> simp only [Src.okA, decide_eq_true_eq, Bool.false_eq_true] at h
  · exact ⟨h, rfl⟩
  · exact ⟨Nat.lt_trans h (by decide), rfl⟩

theorem Src.b_law {i : Bool} {d : Src} (h : d.okB i = true) : d.num < 256 ∧ Src.mk d.num d.isK d.isImm = d := by
  cases d <;> simp only [Src.okB, Bool.and_eq_true, decide_eq_true_eq] at h
  · exact ⟨h, rfl⟩
  · exact ⟨Nat.lt_trans h (by decide), rfl⟩
  · exact ⟨h.2, rfl⟩

theorem Src.wi_law {d : Src} (h : d.okWI = true) : d.num < 256 ∧ Src.mk d.num false d.isImm = d ∧ d.isK = false := by
  cases d <;> simp only [Src.okWI, decide_eq_true_eq, Bool.false_eq_true] at h
  · exact ⟨h, rfl, rfl⟩
  · exact ⟨h, rfl, rfl⟩

/-- A bit field above a smaller field. -/
theorem bit_above (e k : Nat) (b : Bool) (h : e < 2 ^ k) : bit (e + 2 ^ k * b.toNat) k = b := by
  unfold bit
  rw [Nat.add_mul_div_left _ _ (Nat.two_pow_pos k), Nat.div_eq_of_lt h, Nat.zero_add, Nat.mod_eq_of_lt (toNat_lt b)]
  exact beq_toNat b

theorem R3.rf_law {x : R3} {dd imm : Bool} (h : x.ok dd imm = true) {op extra : Nat} (ho : op < 1024) (he : extra < 128) :
    (x.rf op extra).Fits ∧ R3.ofRF (x.rf op extra) = x := by
  unfold R3.ok at h
  simp only [Bool.and_eq_true] at h
  obtain ⟨⟨⟨⟨hg, hd⟩, ha⟩, hb⟩, _⟩ := h
  have hi := toNat_lt x.b.isImm
  refine ⟨⟨Guard.ok_lt hg, ho, (Src.dst_law hd).1, (Src.a_law ha).1, (Src.b_law hb).1, Nat.succ_pos _, Nat.succ_pos _, ?_, Nat.succ_pos _⟩, ?_⟩
  · show extra + 128 * x.b.isImm.toNat < 256; omega
  · have e1 : Src.mk x.b.num x.b.isK (bit (extra + 2 ^ 7 * x.b.isImm.toNat) 7) = x.b := by
      rw [bit_above extra 7 _ he]; exact (Src.b_law hb).2
    have e2 := (Src.dst_law hd).2
    have e3 := (Src.a_law ha).2
    show (⟨x.g, x.u, x.dd, Src.mk x.d.num x.d.isK false, Src.mk x.a.num x.a.isK false, Src.mk x.b.num x.b.isK (bit (extra + 2 ^ 7 * x.b.isImm.toNat) 7)⟩ : R3) = x
    rw [e1, e2, e3]

theorem Cmp.rf_law {x : Cmp} {dd imm : Bool} (h : x.ok dd imm = true) {op extra : Nat} (ho : op < 1024) (he : extra < 128) :
    (x.rf op extra).Fits ∧ Cmp.ofRF (x.rf op extra) = x := by
  unfold Cmp.ok at h
  simp only [Bool.and_eq_true, decide_eq_true_eq] at h
  obtain ⟨⟨⟨⟨hg, hd⟩, ha⟩, hb⟩, _⟩ := h
  have hi := toNat_lt x.b.isImm
  refine ⟨⟨Guard.ok_lt hg, ho, Nat.lt_trans hd (by decide), (Src.a_law ha).1, (Src.b_law hb).1, Nat.succ_pos _, Nat.succ_pos _, ?_, Nat.succ_pos _⟩, ?_⟩
  · show extra + 128 * x.b.isImm.toNat < 256; omega
  · have e1 : Src.mk x.b.num x.b.isK (bit (extra + 2 ^ 7 * x.b.isImm.toNat) 7) = x.b := by
      rw [bit_above extra 7 _ he]; exact (Src.b_law hb).2
    have e3 := (Src.a_law ha).2
    show (⟨x.g, x.u, x.dd, x.p, Src.mk x.a.num x.a.isK false, Src.mk x.b.num x.b.isK (bit (extra + 2 ^ 7 * x.b.isImm.toNat) 7)⟩ : Cmp) = x
    rw [e1, e3]

theorem R2.rf_law {x : R2} {dd : Bool} (h : x.ok dd = true) {op extra : Nat} (ho : op < 1024) (he : extra < 256) :
    (x.rf op extra).Fits ∧ R2.ofRF (x.rf op extra) = x := by
  unfold R2.ok at h
  simp only [Bool.and_eq_true] at h
  obtain ⟨⟨⟨hg, hd⟩, ha⟩, _⟩ := h
  refine ⟨⟨Guard.ok_lt hg, ho, (Src.dst_law hd).1, (Src.a_law ha).1, Nat.succ_pos _, Nat.succ_pos _, Nat.succ_pos _, he, Nat.succ_pos _⟩, ?_⟩
  have e2 := (Src.dst_law hd).2
  have e3 := (Src.a_law ha).2
  show (⟨x.g, x.u, x.dd, Src.mk x.d.num x.d.isK false, Src.mk x.a.num x.a.isK false⟩ : R2) = x
  rw [e2, e3]

theorem R3r.rf_law {x : R3r} (h : x.ok = true) {op : Nat} (ho : op < 1024) : (x.rf op).Fits ∧ R3r.ofRF (x.rf op) = x := by
  unfold R3r.ok at h
  simp only [Bool.and_eq_true] at h
  obtain ⟨⟨⟨hg, hd⟩, ha⟩, hb⟩ := h
  refine ⟨⟨Guard.ok_lt hg, ho, (Src.dst_law hd).1, (Src.a_law ha).1, (Src.a_law hb).1, Nat.succ_pos _, (Rnd.code_lt _).1, Nat.succ_pos _, Nat.succ_pos _⟩, ?_⟩
  have e1 := (Src.a_law hb).2
  have e2 := (Src.dst_law hd).2
  have e3 := (Src.a_law ha).2
  show (⟨x.g, x.u, Rnd.ofCode x.rnd.code, Src.mk x.d.num x.d.isK false, Src.mk x.a.num x.a.isK false, Src.mk x.b.num x.b.isK false⟩ : R3r) = x
  rw [e1, e2, e3, (Rnd.code_lt _).2]

theorem R4.rf_law {x : R4} {r : Bool} (h : x.ok r = true) {op : Nat} (ho : op < 1024) : (x.rf op).Fits ∧ R4.ofRF (x.rf op) = x := by
  unfold R4.ok at h
  simp only [Bool.and_eq_true, decide_eq_true_eq] at h
  obtain ⟨⟨⟨⟨⟨hg, hd⟩, ha⟩, hb⟩, hc⟩, _⟩ := h
  refine ⟨⟨Guard.ok_lt hg, ho, (Src.dst_law hd).1, (Src.a_law ha).1, (Src.a_law hb).1, hc, (Rnd.code_lt _).1, Nat.succ_pos _, Nat.succ_pos _⟩, ?_⟩
  have e1 := (Src.a_law hb).2
  have e2 := (Src.dst_law hd).2
  have e3 := (Src.a_law ha).2
  show (⟨x.g, x.u, Rnd.ofCode x.rnd.code, Src.mk x.d.num x.d.isK false, Src.mk x.a.num x.a.isK false, Src.mk x.b.num x.b.isK false, x.c⟩ : R4) = x
  rw [e1, e2, e3, (Rnd.code_lt _).2]

theorem Bf.rf_law {x : Bf} (h : x.ok = true) {op : Nat} (ho : op < 1024) : (x.rf op).Fits ∧ Bf.ofRF (x.rf op) = x := by
  unfold Bf.ok at h
  simp only [Bool.and_eq_true] at h
  obtain ⟨⟨⟨⟨hg, hd⟩, ha⟩, hb⟩, hc⟩ := h
  have h1 := toNat_lt x.b.isImm
  have h2 := toNat_lt x.c.isImm
  have e1 := (Src.b_law hb).2
  have e2 := (Src.dst_law hd).2
  have e3 := (Src.a_law ha).2
  have e4 := (Src.wi_law hc).2.1
  have b7 : bit (64 * x.c.isImm.toNat + 128 * x.b.isImm.toNat) 7 = x.b.isImm := bit_above (64 * x.c.isImm.toNat) 7 _ (by omega)
  have b6 : bit (64 * x.c.isImm.toNat + 128 * x.b.isImm.toNat) 6 = x.c.isImm := by
    unfold bit
    rw [show (64 * x.c.isImm.toNat + 128 * x.b.isImm.toNat) / 2 ^ 6 % 2 = x.c.isImm.toNat by omega]
    exact beq_toNat _
  refine ⟨⟨Guard.ok_lt hg, ho, (Src.dst_law hd).1, (Src.a_law ha).1, (Src.b_law hb).1, (Src.wi_law hc).1, Nat.succ_pos _, ?_, Nat.succ_pos _⟩, ?_⟩
  · show 64 * x.c.isImm.toNat + 128 * x.b.isImm.toNat < 256; omega
  · show (⟨x.g, x.u, Src.mk x.d.num x.d.isK false, Src.mk x.a.num x.a.isK false,
      Src.mk x.b.num x.b.isK (bit (64 * x.c.isImm.toNat + 128 * x.b.isImm.toNat) 7),
      Src.mk x.c.num false (bit (64 * x.c.isImm.toNat + 128 * x.b.isImm.toNat) 6)⟩ : Bf) = x
    rw [b7, b6, e1, e2, e3, e4]

theorem P3.rf_law {x : P3} (h : x.ok = true) {op : Nat} (ho : op < 1024) : (x.rf op).Fits ∧ P3.ofRF (x.rf op) = x := by
  unfold P3.ok at h
  simp only [Bool.and_eq_true, decide_eq_true_eq] at h
  obtain ⟨⟨⟨hg, hd⟩, ha⟩, hb⟩ := h
  have h1 := toNat_lt x.na
  have h2 := toNat_lt x.nb
  have b0 : bit (x.na.toNat + 2 * x.nb.toNat) 0 = x.na := by
    unfold bit
    rw [show (x.na.toNat + 2 * x.nb.toNat) / 2 ^ 0 % 2 = x.na.toNat by omega]
    exact beq_toNat _
  have b1 : bit (x.na.toNat + 2 * x.nb.toNat) 1 = x.nb := bit_above x.na.toNat 1 _ h1
  refine ⟨⟨Guard.ok_lt hg, ho, Nat.lt_trans hd (by decide), Nat.lt_trans ha (by decide), Nat.lt_trans hb (by decide), Nat.succ_pos _, Nat.succ_pos _, ?_, Nat.succ_pos _⟩, ?_⟩
  · show x.na.toNat + 2 * x.nb.toNat < 256; omega
  · show (⟨x.g, bit (x.na.toNat + 2 * x.nb.toNat) 0, bit (x.na.toNat + 2 * x.nb.toNat) 1, x.d, x.a, x.b⟩ : P3) = x
    rw [b0, b1]

theorem H3.rf_law {x : H3} (h : x.ok = true) {op c : Nat} (ho : op < 1024) (hc : c < 256) : (x.rf op c).Fits ∧ H3.ofRF (x.rf op c) = x := by
  unfold H3.ok at h
  simp only [Bool.and_eq_true, decide_eq_true_eq] at h
  obtain ⟨⟨⟨hg, hd⟩, ha⟩, hb⟩ := h
  have h1 := toNat_lt x.bf
  have b0 : bit x.bf.toNat 0 = x.bf := by cases x.bf <;> rfl
  refine ⟨⟨Guard.ok_lt hg, ho, hd, ha, hb, hc, Nat.succ_pos _, ?_, Nat.succ_pos _⟩, ?_⟩
  · show x.bf.toNat < 256; omega
  · show (⟨x.g, bit x.bf.toNat 0, x.d, x.a, x.b⟩ : H3) = x
    rw [b0]

theorem W2.rf_law {x : W2} (h : x.ok = true) {op : Nat} (ho : op < 1024) : (x.rf op).Fits ∧ W2.ofRF (x.rf op) = x := by
  unfold W2.ok at h
  simp only [Bool.and_eq_true, decide_eq_true_eq] at h
  obtain ⟨⟨hg, hd⟩, ha⟩ := h
  exact ⟨⟨Guard.ok_lt hg, ho, hd, ha, Nat.succ_pos _, Nat.succ_pos _, Nat.succ_pos _, Nat.succ_pos _, Nat.succ_pos _⟩, rfl⟩

theorem Dot.rf_law {x : Dot} (h : x.ok = true) {op : Nat} (ho : op < 1024) : (x.rf op).Fits ∧ Dot.ofRF (x.rf op) = x := by
  unfold Dot.ok okPair at h
  simp only [Bool.and_eq_true, decide_eq_true_eq] at h
  obtain ⟨⟨⟨⟨⟨⟨hg, hd⟩, ha⟩, hb⟩, hc⟩, hs⟩, ht⟩ := h
  refine ⟨⟨Guard.ok_lt hg, ho, hd, ha, hb, hc.1, Nat.succ_pos _, ?_, Nat.succ_pos _⟩, ?_⟩
  · show x.sa + 8 * x.sb < 256; omega
  · show (⟨x.g, x.d, x.a, x.b, x.c, (x.sa + 8 * x.sb) % 8, (x.sa + 8 * x.sb) / 8 % 8⟩ : Dot) = x
    rw [show (x.sa + 8 * x.sb) % 8 = x.sa by omega, show (x.sa + 8 * x.sb) / 8 % 8 = x.sb by omega]

theorem Cv.rf_law {x : Cv} (h : x.ok = true) {op : Nat} (ho : op < 1024) : (x.rf op).Fits ∧ Cv.ofRF (x.rf op) = x := by
  unfold Cv.ok at h
  simp only [Bool.and_eq_true, decide_eq_true_eq] at h
  obtain ⟨⟨⟨⟨⟨hg, hd⟩, ha⟩, hb⟩, hs⟩, ht⟩ := h
  refine ⟨⟨Guard.ok_lt hg, ho, hd, ha, hb, Nat.succ_pos _, Nat.succ_pos _, ?_, Nat.succ_pos _⟩, ?_⟩
  · show x.slot + 8 * x.pos < 256; omega
  · show (⟨x.g, x.d, x.a, x.b, (x.slot + 8 * x.pos) % 8, (x.slot + 8 * x.pos) / 8 % 8⟩ : Cv) = x
    rw [show (x.slot + 8 * x.pos) % 8 = x.slot by omega, show (x.slot + 8 * x.pos) / 8 % 8 = x.pos by omega]

theorem Bar.rf_law {x : Bar} (h : x.ok = true) {op d a : Nat} (ho : op < 1024) (hd : d < 256) (ha : a < 256) :
    (x.rf op d a).Fits ∧ Bar.ofRF (x.rf op d a) x.r = some x := by
  unfold Bar.ok at h
  simp only [Bool.and_eq_true, decide_eq_true_eq] at h
  obtain ⟨⟨hg, hs⟩, hi⟩ := h
  obtain ⟨h1, h2⟩ := BarSel.code_lt x.sel hs
  refine ⟨⟨Guard.ok_lt hg, ho, hd, ha, Nat.succ_pos _, Nat.succ_pos _, Nat.succ_pos _, ?_, Nat.succ_pos _⟩, ?_⟩
  · show x.sel.code + 16 * x.id < 256; omega
  · show (BarSel.ofCode ((x.sel.code + 16 * x.id) % 16)).map (fun s => (⟨x.g, s, (x.sel.code + 16 * x.id) / 16 % 4, x.r⟩ : Bar)) = some x
    rw [show (x.sel.code + 16 * x.id) % 16 = x.sel.code by omega, show (x.sel.code + 16 * x.id) / 16 % 4 = x.id by omega, h2]
    rfl

theorem Tls.rf_law {x : Tls} (h : x.ok = true) {op : Nat} (ho : op < 1024) : (x.rf op).Fits ∧ Tls.ofRF (x.rf op) = x := by
  unfold Tls.ok okPair at h
  simp only [Bool.and_eq_true, decide_eq_true_eq] at h
  obtain ⟨⟨⟨⟨⟨⟨hg, ht⟩, hd⟩, ha⟩, hb⟩, hs⟩, hl⟩ := h
  refine ⟨⟨Guard.ok_lt hg, ho, hd.1, ha, hb, Nat.succ_pos _, Nat.succ_pos _, ?_, Nat.lt_trans hl (by decide)⟩, ?_⟩
  · show x.tile + 16 * x.slot < 256; omega
  · show (⟨x.g, (x.tile + 16 * x.slot) % 4, x.d, x.a, x.b, (x.tile + 16 * x.slot) / 16 % 8, x.sel⟩ : Tls) = x
    rw [show (x.tile + 16 * x.slot) % 4 = x.tile by omega, show (x.tile + 16 * x.slot) / 16 % 8 = x.slot by omega]

theorem Fac.rf_law {x : Fac} (h : x.ok = true) {op e : Nat} (ho : op < 1024) (he : e % 16 = 0) (he2 : e < 256) :
    (x.rf op e).Fits ∧ Fac.ofRF (x.rf op e) = x := by
  unfold Fac.ok okPair at h
  simp only [Bool.and_eq_true, decide_eq_true_eq] at h
  obtain ⟨⟨⟨⟨⟨⟨⟨hg, ht⟩, hs⟩, hd⟩, ha⟩, hb⟩, hc⟩, hl⟩ := h
  refine ⟨⟨Guard.ok_lt hg, ho, hd.1, ha, hb.1, hc, Nat.succ_pos _, ?_, Nat.lt_trans hl (by decide)⟩, ?_⟩
  · show x.tile + 4 * x.sec + e < 256; omega
  · show (⟨x.g, (x.tile + 4 * x.sec + e) % 4, (x.tile + 4 * x.sec + e) / 4 % 4, x.d, x.a, x.b, x.c, x.sel⟩ : Fac) = x
    rw [show (x.tile + 4 * x.sec + e) % 4 = x.tile by omega, show (x.tile + 4 * x.sec + e) / 4 % 4 = x.sec by omega]

/-! Layout M shapes. -/

theorem okSized_lt {sz : Size} {n : Nat} (h : okSized sz n = true) : n < 256 := by
  cases sz <;> simp only [okSized, okPair, okQuad, Bool.and_eq_true, decide_eq_true_eq] at h
  · exact h
  · exact h
  · exact h
  · exact h.1
  · exact h.1

theorem okPair_lt {n : Nat} (h : okPair n = true) : n < 256 := by
  simp only [okPair, Bool.and_eq_true, decide_eq_true_eq] at h; exact h.1

theorem ord_law (poll ord sx : Bool) (rank : Nat) (h : rank < 4) : ordBits poll ord sx rank < 256 ∧ bit (ordBits poll ord sx rank) 6 = ord ∧
    bit (ordBits poll ord sx rank) 7 = poll ∧ bit (ordBits poll ord sx rank) 5 = sx ∧ ordBits poll ord sx rank % 4 = rank := by
  unfold ordBits bit
  have h1 := toNat_lt poll; have h2 := toNat_lt ord; have h3 := toNat_lt sx
  refine ⟨by omega, ?_, ?_, ?_, by omega⟩
  · rw [show (rank + 32 * sx.toNat + 64 * ord.toNat + 128 * poll.toNat) / 2 ^ 6 % 2 = ord.toNat by omega]; exact beq_toNat _
  · rw [show (rank + 32 * sx.toNat + 64 * ord.toNat + 128 * poll.toNat) / 2 ^ 7 % 2 = poll.toNat by omega]; exact beq_toNat _
  · rw [show (rank + 32 * sx.toNat + 64 * ord.toNat + 128 * poll.toNat) / 2 ^ 5 % 2 = sx.toNat by omega]; exact beq_toNat _

theorem Ldg.mf_law {x : Ldg} (h : x.ok = true) : x.mf.Fits ∧ Ldg.ofMF x.mf = some x := by
  unfold Ldg.ok at h
  simp only [Bool.and_eq_true, decide_eq_true_eq] at h
  obtain ⟨⟨⟨⟨⟨hg, hd⟩, ha⟩, ho⟩, _⟩, hl⟩ := h
  obtain ⟨o1, o2, o3, o4, o5⟩ := ord_law x.poll x.acq x.sx 0 (by decide)
  obtain ⟨s1, s2⟩ := sext_unsext 17 x.off (by decide) ho
  refine ⟨⟨Guard.ok_lt hg, by show 0x1C0 < 1024; decide, okSized_lt hd, okPair_lt ha, o1, (Scope.code_lt _).1, (Size.code_lt _).1, Nat.lt_trans hl (by decide), s2⟩, ?_⟩
  unfold Ldg.ofMF Ldg.mf
  simp only [(Scope.code_lt _).2, (Size.code_lt _).2, o2, o3, o4, s1]
  rfl

theorem Stg.mf_law {x : Stg} (h : x.ok = true) : x.mf.Fits ∧ Stg.ofMF x.mf = some x := by
  unfold Stg.ok at h
  simp only [Bool.and_eq_true] at h
  obtain ⟨⟨⟨hg, hd⟩, ha⟩, ho⟩ := h
  obtain ⟨o1, o2, o3, o4, o5⟩ := ord_law false x.rel false 0 (by decide)
  obtain ⟨s1, s2⟩ := sext_unsext 17 x.off (by decide) ho
  refine ⟨⟨Guard.ok_lt hg, by show 0x1C1 < 1024; decide, o1, okPair_lt ha, okSized_lt hd, (Scope.code_lt _).1, (Size.code_lt _).1, Nat.succ_pos _, s2⟩, ?_⟩
  unfold Stg.ofMF Stg.mf
  simp only [(Scope.code_lt _).2, (Size.code_lt _).2, o2, s1]
  rfl

theorem Lds.mf_law {x : Lds} (h : x.ok = true) {op : Nat} (hp : op < 1024) : (x.mf op).Fits ∧ Lds.ofMF (x.mf op) = some x := by
  unfold Lds.ok at h
  simp only [Bool.and_eq_true, decide_eq_true_eq] at h
  obtain ⟨⟨⟨⟨⟨⟨hg, hd⟩, ha⟩, ho⟩, _⟩, hr⟩, hl⟩ := h
  obtain ⟨o1, o2, o3, o4, o5⟩ := ord_law false false x.sx x.rank hr
  obtain ⟨s1, s2⟩ := sext_unsext 17 x.off (by decide) ho
  refine ⟨⟨Guard.ok_lt hg, hp, okSized_lt hd, ha, o1, Nat.succ_pos _, (Size.code_lt _).1, Nat.lt_trans hl (by decide), s2⟩, ?_⟩
  unfold Lds.ofMF Lds.mf
  simp only [(Size.code_lt _).2, o4, o5, s1]
  rfl

theorem Sts.mf_law {x : Sts} (h : x.ok = true) {op : Nat} (hp : op < 1024) : (x.mf op).Fits ∧ Sts.ofMF (x.mf op) = some x := by
  unfold Sts.ok at h
  simp only [Bool.and_eq_true, decide_eq_true_eq] at h
  obtain ⟨⟨⟨⟨hg, hd⟩, ha⟩, ho⟩, hr⟩ := h
  obtain ⟨o1, o2, o3, o4, o5⟩ := ord_law false false false x.rank hr
  obtain ⟨s1, s2⟩ := sext_unsext 17 x.off (by decide) ho
  refine ⟨⟨Guard.ok_lt hg, hp, o1, ha, okSized_lt hd, Nat.succ_pos _, (Size.code_lt _).1, Nat.succ_pos _, s2⟩, ?_⟩
  unfold Sts.ofMF Sts.mf
  simp only [(Size.code_lt _).2, o5, s1]
  rfl

theorem okData_lt {op : AtomOp} {sz : Size} {b : Nat} (h : op.okData sz b = true) : b < 256 := by
  unfold AtomOp.okData okQuad okPair at h
  split at h <;> simp only [Bool.and_eq_true, decide_eq_true_eq] at h
  · exact h.1
  · exact h.1
  · exact h.1
  · exact h

/-- The operation above the 12-bit offset. -/
theorem off_law (op : AtomOp) (off : Int) (h : okSext 12 off = true) : unsext 12 off + 4096 * op.code < 2 ^ 17 ∧
    sext 12 (unsext 12 off + 4096 * op.code) = off ∧ (unsext 12 off + 4096 * op.code) / 4096 = op.code := by
  obtain ⟨s1, s2⟩ := sext_unsext 12 off (by decide) h
  have hc := (AtomOp.code_lt op).1
  have hm : (unsext 12 off + 4096 * op.code) % 2 ^ 12 = unsext 12 off % 2 ^ 12 := by omega
  refine ⟨by omega, ?_, by omega⟩
  have e : sext 12 (unsext 12 off + 4096 * op.code) = sext 12 (unsext 12 off) := by unfold sext; rw [hm]
  exact e.trans s1

theorem Atm.mf_law {x : Atm} {glob : Bool} (h : x.ok glob = true) {op : Nat} (hp : op < 1024) : (x.mf op).Fits ∧ Atm.ofMF (x.mf op) = some x := by
  unfold Atm.ok at h
  simp only [Bool.and_eq_true, decide_eq_true_eq] at h
  obtain ⟨⟨⟨⟨⟨⟨hg, _⟩, hd⟩, hb⟩, ha⟩, ho⟩, hl⟩ := h
  obtain ⟨f1, f2, f3⟩ := off_law x.op x.off ho
  have ha' : x.a < 256 := by
    split at ha
    · exact okPair_lt ha
    · exact of_decide_eq_true ha
  refine ⟨⟨Guard.ok_lt hg, hp, okSized_lt hd, ha', okData_lt hb, (Scope.code_lt _).1, (Size.code_lt _).1, Nat.lt_trans hl (by decide), f1⟩, ?_⟩
  unfold Atm.ofMF Atm.mf
  simp only [(Scope.code_lt _).2, (Size.code_lt _).2, f2, f3, (AtomOp.code_lt _).2]
  rfl

theorem Rdg.mf_law {x : Rdg} (h : x.ok = true) : x.mf.Fits ∧ Rdg.ofMF x.mf = some x := by
  unfold Rdg.ok at h
  simp only [Bool.and_eq_true] at h
  obtain ⟨⟨⟨⟨⟨⟨hg, _⟩, _⟩, _⟩, hb⟩, ha⟩, ho⟩ := h
  obtain ⟨f1, f2, f3⟩ := off_law x.op x.off ho
  obtain ⟨o1, o2, o3, o4, o5⟩ := ord_law false x.rel false 0 (by decide)
  refine ⟨⟨Guard.ok_lt hg, by show 0x1C7 < 1024; decide, o1, okPair_lt ha, okData_lt hb, (Scope.code_lt _).1, (Size.code_lt _).1, Nat.succ_pos _, f1⟩, ?_⟩
  unfold Rdg.ofMF Rdg.mf
  simp only [(Scope.code_lt _).2, (Size.code_lt _).2, f2, f3, (AtomOp.code_lt _).2, o2]
  rfl

theorem paired_bits {b2 a2 d2 oe b a d oc : Nat} (h1 : b2 < 256) (h2 : a2 < 256) (h3 : d2 < 256) (h4 : oe < 128) (h5 : b < 256) (h6 : a < 256)
    (h7 : d < 256) (h8 : oc < 128) {w : Nat} (hw : w = 2 * b2 + 2 ^ 9 * a2 + 2 ^ 17 * d2 + 2 ^ 25 * oe + 2 ^ 32 * b + 2 ^ 40 * a + 2 ^ 48 * d + 2 ^ 56 * oc + 2 ^ 63) :
    bits w 56 7 = oc ∧ bits w 25 7 = oe ∧ bits w 48 8 = d ∧ bits w 40 8 = a ∧ bits w 32 8 = b ∧ bits w 17 8 = d2 ∧ bits w 9 8 = a2 ∧ bits w 1 8 = b2 ∧
      w / 2 ^ 63 % 2 = 1 ∧ w < 2 ^ 64 := by
  unfold bits
  refine ⟨?_, ?_, ?_, ?_, ?_, ?_, ?_, ?_, ?_, ?_⟩ <;> omega

/-- A paired word holds its pair. -/
theorem Paired.ofWord_word {x : Paired} {op : CompactOp} (h : x.ok op = true) : Paired.ofWord (x.word op) = some (op, x) ∧ bit (x.word op) 63 = true ∧
    x.word op < 2 ^ 64 := by
  unfold Paired.ok Compact.ok at h
  simp only [Bool.and_eq_true, decide_eq_true_eq] at h
  obtain ⟨⟨⟨⟨⟨⟨⟨h1, h2⟩, h3⟩, _⟩, ⟨⟨⟨h4, h5⟩, h6⟩, _⟩⟩, _⟩, _⟩, _⟩ := h
  obtain ⟨c1, c2⟩ := CompactOp.code_lt op
  obtain ⟨e1, e2⟩ := CompactOp.code_lt x.snd.op
  obtain ⟨w1, w2, w3, w4, w5, w6, w7, w8, w9, w10⟩ := paired_bits (w := x.word op) h6 h5 h4 e1 h3 h2 h1 c1 rfl
  refine ⟨?_, ?_, w10⟩
  · unfold Paired.ofWord
    rw [w1, w2, w3, w4, w5, w6, w7, w8, c2, e2]
    rfl
  · unfold bit; rw [w9]; rfl

/-! Decoding. -/

theorem dec_ok {i : Instr} {w ext : Nat} (hx : extractWord w ext = some i) (hw : i.wf = true) (he : encode i = if i.hasExt then [w, ext] else [w]) :
    decodeWord w ext = .ok i := by
  unfold decodeWord; rw [hx]; simp only [hw, if_true]; rw [if_pos he]

theorem decodeWord_ok {w ext : Nat} {i : Instr} (h : decodeWord w ext = .ok i) : i.wf = true ∧ encode i = if i.hasExt then [w, ext] else [w] := by
  unfold decodeWord at h
  rcases hx : extractWord w ext with _ | k
  · simp only [hx] at h; cases h
  · simp only [hx] at h
    by_cases hw : k.wf = true
    · rw [if_pos hw] at h
      by_cases he : encode k = (if k.hasExt = true then [w, ext] else [w])
      · rw [if_pos he] at h; cases h; exact ⟨hw, he⟩
      · rw [if_neg he] at h; cases h
    · rw [if_neg hw] at h; cases h

theorem leNat_leBytes : ∀ (n v : Nat), leNat (leBytes n v) = v % 256 ^ n
  | 0, v => by rw [Nat.pow_zero, Nat.mod_one]; rfl
  | n + 1, v => by
    show (BitVec.ofNat 8 v).toNat + 256 * leNat (leBytes n (v / 256)) = _
    rw [leNat_leBytes n (v / 256), BitVec.toNat_ofNat, show 256 ^ (n + 1) = 256 * 256 ^ n by ring, Nat.mod_mul]

theorem length_leBytes : ∀ (n v : Nat), (leBytes n v).length = n
  | 0, _ => rfl
  | n + 1, v => by show (leBytes n (v / 256)).length + 1 = n + 1; rw [length_leBytes]

theorem leBytes_leNat : ∀ (bs : List Byte), leBytes bs.length (leNat bs) = bs
  | [] => rfl
  | b :: bs => by
    have hb : b.toNat < 256 := b.isLt
    have h1 : (b.toNat + 256 * leNat bs) / 256 = leNat bs := by omega
    have h2 : BitVec.ofNat 8 (b.toNat + 256 * leNat bs) = b := by
      apply BitVec.eq_of_toNat_eq; rw [BitVec.toNat_ofNat]; omega
    show BitVec.ofNat 8 (b.toNat + 256 * leNat bs) :: leBytes bs.length ((b.toNat + 256 * leNat bs) / 256) = b :: bs
    rw [h1, h2, leBytes_leNat bs]

theorem leNat_lt : ∀ (bs : List Byte), leNat bs < 256 ^ bs.length
  | [] => by decide
  | b :: bs => by
    have hb : b.toNat < 256 := b.isLt
    have := leNat_lt bs
    show b.toNat + 256 * leNat bs < 256 ^ (bs.length + 1)
    rw [Nat.pow_succ]; omega

theorem extract_rf {f : RF} (h : f.Fits) {ext : Nat} {r : Option Instr} (hr : ∀ w, RF.ofWord w = f → extractFull w ext = r) :
    extractWord f.word ext = r := by
  unfold extractWord
  rw [(RF.full f h).1]
  exact hr _ (RF.ofWord_word f h)

theorem extract_if {f : IF} (h : f.Fits) {ext : Nat} {r : Option Instr}
    (hr : ∀ w, IF.ofWord w = f → (RF.ofWord w).op = f.op → extractFull w ext = r) : extractWord f.word ext = r := by
  obtain ⟨h1, h2, h3, _⟩ := IF.ofWord_word f h
  unfold extractWord
  rw [h3]
  exact hr _ h1 h2

theorem extract_ef {f : EF} (h : f.Fits) {ext : Nat} {r : Option Instr}
    (hr : ∀ w, EF.ofWord w = f → (RF.ofWord w).op = f.op → extractFull w ext = r) : extractWord f.word ext = r := by
  obtain ⟨h1, h2, h3, _⟩ := EF.ofWord_word f h
  unfold extractWord
  rw [h3]
  exact hr _ h1 h2

theorem extract_mf {f : MF} (h : f.Fits) {ext : Nat} {r : Option Instr}
    (hr : ∀ w, MF.ofWord w = f → (RF.ofWord w).op = f.op → extractFull w ext = r) : extractWord f.word ext = r := by
  obtain ⟨h1, h2, h3, _⟩ := MF.ofWord_word f h
  unfold extractWord
  rw [h3]
  exact hr _ h1 h2

theorem extract_paired {x : Paired} {op : CompactOp} (h : x.ok op = true) (ext : Nat) : extractWord (x.word op) ext = some (pairedInstr op x) := by
  obtain ⟨h1, h2, _⟩ := Paired.ofWord_word h
  unfold extractWord
  rw [h2, h1]
  rfl

end Sys2Proof
end

