-- ==== Sys2Proof/Laws/Engine.lean ====
section
/-!
SUPPORT. Barrier objects and their words, the copy engine and the timelines, chunks and tidemarks, and what one word or
event answers.
-/

namespace Sys2Proof.Machine

open Sys2Proof Sys2Proof.Machine.Round

theorem meets_eq (m : Mach) (r : Running) (t : Thread) (x : Bar) (c : Nat) :
    barRaise m r t x.sel x.id c = withThread m t (meetsBroken r x c m.time) := by
  unfold barRaise
  rw [raiseEff_eq, updThread_eq]
  unfold withThread
  simp only [List.map_map]
  congr 1
  apply List.map_congr_left
  intro u _
  by_cases h : (u.gid == t.gid && u.tix == t.tix) = true
  · simp only [Function.comp, h, if_true]
    simp only [raised, meetsBroken, h, if_true]
    rfl
  · simp only [Function.comp, h, Bool.false_eq_true, if_false]

theorem barOf_thread {m m' : Mach} {t : Thread} {sel : BarSel} {id : Nat} {b : Barrier} (h : barOf m t sel id = (m', b)) :
    m'.threads = m.threads ∧ m'.groups = m.groups ∧ m'.kernels = m.kernels ∧ m'.running = m.running := by
  unfold barOf getBarrier at h
  split at h <;> split at h <;> simp only [Prod.mk.injEq] at h <;> obtain ⟨rfl, rfl⟩ := h <;> exact ⟨rfl, rfl, rfl, rfl⟩

theorem div_has (a n k : Nat) (hn : 0 < n) : (k / n * n ≤ a ∧ a < k / n * n + n) ↔ a / n = k / n := by
  constructor
  · rintro ⟨h1, h2⟩
    apply Nat.div_eq_of_lt_le
    · exact h1
    · rw [Nat.succ_mul]; exact h2
  · intro h
    rw [← h]
    exact ⟨Nat.div_mul_le_self a n, by have := Nat.lt_div_mul_add (a := a) hn; omega⟩

theorem freeWaiter_bar (m : Mach) (b : Barrier) (t : Thread) : (freeWaiter m b t).barriers = m.barriers := by
  unfold freeWaiter
  split
  · split
    · rfl
    · split
      · split <;> rfl
      · split
        · unfold acqDo dropClean; split <;> rfl
        · split <;> rfl
  · rfl

theorem freeWaiters_bar (b : Barrier) (l : List Thread) : ∀ m : Mach, (l.foldl (fun m t => freeWaiter m b t) m).barriers = m.barriers := by
  induction l with
  | nil => intro m; rfl
  | cons x l ih => intro m; rw [List.foldl_cons, ih, freeWaiter_bar]

theorem find_barrier {m : Mach} {b c : Barrier} {n : Nat} (h : m.barrier? n = some b) (hc : c.bid = b.bid := by rfl) :
    (m.updBarrier n (fun _ => c)).barriers.find? (fun b => b.bid == n) = some c := by
  unfold Mach.barrier? at h
  unfold Mach.updBarrier
  revert h
  dsimp only
  have hb : ∀ l : List Barrier, l.find? (fun b => b.bid == n) = some b → (l.map (fun x => if x.bid == n then c else x)).find? (fun b => b.bid == n) = some c := by
    intro l
    induction l with
    | nil => simp
    | cons x l ih =>
      intro h
      rw [List.find?_cons] at h
      rw [List.map_cons, List.find?_cons]
      by_cases hx : (x.bid == n) = true
      · rw [hx] at h
        simp only [Option.some.injEq] at h
        subst h
        simp only [hx, if_true, hc]
      · have hx2 : (x.bid == n) = false := by simpa using hx
        rw [hx2] at h
        simp only [hx2, Bool.false_eq_true, if_false]
        exact ih h
  exact hb _

theorem barst_val (b : Barrier) : (barState b).toNat % 2 ^ 32 = b.phase.toNat ∧
    (barState b).toNat / 2 ^ 32 % 2 ^ 31 = min b.arrived.length (2 ^ 31 - 1) ∧
    ((barState b).getLsbD 63 = true ↔ b.broken ≠ none) := by
  have hp := b.phase.isLt
  have hm : min b.arrived.length (2 ^ 31 - 1) < 2 ^ 31 := by omega
  generalize hn : min b.arrived.length (2 ^ 31 - 1) = n at *
  have e : (barState b).toNat = b.phase.toNat + n * 2 ^ 32 + (if b.broken.isSome then 2 ^ 63 else 0) := by
    unfold barState
    rw [BitVec.toNat_ofNat, hn]
    apply Nat.mod_eq_of_lt
    split <;> omega
  refine ⟨?_, ?_, ?_⟩
  · rw [e]; split <;> omega
  · rw [e]; split <;> omega
  · rw [← BitVec.testBit_toNat, e, Nat.testBit_eq_decide_div_mod_eq, decide_eq_true_eq]
    cases b.broken <;> simp <;> omega

theorem broken_step (t : Thread) (n : Nat) : (match t.brokenAt with
    | some x => if x + 1000000 ≤ n then { t with brokenAt := none } else t
    | none => t) = { t with brokenAt := match t.brokenAt with
      | some x => if x + 1000000 ≤ n then none else some x
      | none => none } := by
  cases h : t.brokenAt with
  | none => cases t; cases h; rfl
  | some x => dsimp only; split <;> first | rfl | (cases t; cases h; rfl)

theorem markOf_le (ns : List Nat) : ∀ ctr : Nat, (∀ k ∈ ns, 0 < k) → ∀ n, n ≤ markOf ctr ns ↔ n ≤ ctr ∧ ∀ k ∈ ns, n < k := by
  induction ns with
  | nil => intro ctr _ n; simp [markOf]
  | cons x l ih =>
    intro ctr h n
    have e : markOf ctr (x :: l) = markOf (min ctr (x - 1)) l := rfl
    rw [e, ih _ (fun k hk => h k (by simp [hk]))]
    have hx := h x (by simp)
    constructor
    · rintro ⟨h1, h2⟩
      refine ⟨by omega, fun k hk => ?_⟩
      rcases List.mem_cons.1 hk with rfl | hk
      · omega
      · exact h2 k hk
    · rintro ⟨h1, h2⟩
      have := h2 x (by simp)
      exact ⟨by omega, fun k hk => h2 k (by simp [hk])⟩

theorem credit_raised {m : Mach} {r : Running} {t : Thread} (h : m.thread? t.gid t.tix = some t) (x : Raise) (c l : Nat) :
    creditWord (withThread m t (raised x)) r t c l = withThread m t (raised x) := by
  apply creditWord_left (u := raised x t)
  · exact thread?_withThread h _ rfl rfl
  · simp [raised]
  · simp [raised]

theorem alone_here {s : State} {r : Running} {t : Thread} {g : Guard} (h : Alone s r t g) : s.m.thread? t.gid t.tix = some t := by
  have := h.here
  rwa [← (thread?_gid h.here).1] at this

theorem esc_next {s : State} {r : Running} {t : Thread} {g : Guard} (h : Escapes s r t g) {i : Instr} {c len : Nat} {f : Mach → Running → Thread → Mach}
    (hi : ∀ s, exec i s = .next (s.onMach (fun m => escWord m g c len f))) : exec i s = .next ⟨s.agenda, creditWord (f s.m r t) r t c len⟩ := by
  rw [hi]; simp only [State.onMach]; rw [escWord_alone h.toAlone c len _ h.empty h.free]

/-- An escaping word that may wait for a release. -/
theorem rel_next {s : State} {r : Running} {t : Thread} {g : Guard} (h : Escapes s r t g) {i : Instr} {c len : Nat}
    {w : Mach → Running → Thread → Bool} {f : Mach → Running → Thread → Mach}
    (hi : ∀ s, exec i s = .next (s.onMach (fun m => relWord m g w (escWord m g c len f)))) :
    exec i s = .next ⟨s.agenda, if w s.m r t then stallAt s.m r.rid t.tix else creditWord (f s.m r t) r t c len⟩ := by
  rw [hi]; simp only [State.onMach]; rw [relWord_alone h.toAlone, escWord_alone h.toAlone c len _ h.empty h.free]

theorem escNow_of {s : State} {r : Running} {t : Thread} {g : Guard} (h : Escapes s r t g) : escNow s.m r.core = true := by
  simp [escNow, h.empty, h.free]

theorem seq_next {s : State} {r : Running} {t : Thread} {g : Guard} (h : Alone s r t g) {i : Instr} {f : Mach → Running → Thread → Mach}
    (hi : ∀ s, exec i s = .next (s.onMach (fun m => seqWord m g f))) : exec i s = .next ⟨s.agenda, f s.m r t⟩ := by
  rw [hi]; simp only [State.onMach]; rw [seqWord_alone h]

theorem ev_next {s : State} {i : Instr} {f : Mach → Mach} (hi : ∀ s, exec i s = .next (s.onMach f)) : exec i s = .next ⟨s.agenda, f s.m⟩ := hi s

theorem updHead_eq (m : Mach) (c : Nat) (f : Copy → Copy) : updHead m c f = withHead m c f := by
  unfold updHead withHead
  congr 1
  funext k
  cases h : k.copies with
  | nil => simp [h]
  | cons x l => simp [h]

theorem engineStop_eq (m : Mach) (c : Nat) (x : Copy) (acc : Acc) (va : Nat) (e : MemErr) : engineStop m c x acc va e = engineStops m c x acc.code va e := by
  cases e with
  | link _ => exact updHead_eq _ _ _
  | fault k d =>
    unfold engineStop engineFault engineStops
    have e : (2 + if k = 1 ∨ k = 2 then 4 else 0) = (if k = 1 ∨ k = 2 then 6 else 2) := by split <;> rfl
    simp only [updHead_eq, e]
    rfl

theorem fieldAt_pad {m : Mach} {gid : Nat} {p : Group} (hp : m.group? gid = some p) (off n o k : Nat) (h : o + k ≤ n) :
    ((padRead m gid off n).drop o).take k = cread p.spad (off + o) k := by
  unfold padRead
  rw [hp]
  dsimp only
  apply List.ext_getElem
  · simp; omega
  · intro i h1 h2
    simp only [cread_range, List.getElem_take, List.getElem_drop, List.getElem_map, List.getElem_range]
    congr 1; omega

theorem pad_refused (m : Mach) (r : Running) (t : Thread) (n : Nat) (acc : Acc) (off : Nat) : padFault m r t t.gid n acc off = padRefused m r t acc off n := by
  unfold padFault padRefused padIn padStop
  by_cases h : off + n ≤ (m.recOf t.gid).scratch <;> simp [h] <;> rfl

theorem byte_zero (b : Byte) : (b == 0) = true ↔ b = 0 := by simp

theorem bytesNat_lt : ∀ bs : List Byte, bytesNat bs < 256 ^ bs.length
  | [] => by simp [bytesNat]
  | b :: bs => by
    have := bytesNat_lt bs
    have hb := b.isLt
    simp only [bytesNat, List.length_cons, pow_succ]
    omega

theorem minCause_mem : ∀ l : List Nat, l ≠ [] → minCause l ∈ l ∧ ∀ x ∈ l, minCause l ≤ x
  | [], h => absurd rfl h
  | [a], _ => by simp [minCause]
  | a :: b :: l, _ => by
    obtain ⟨h1, h2⟩ := minCause_mem (b :: l) (by simp)
    have e : minCause (a :: b :: l) = min a (minCause (b :: l)) := rfl
    rw [e]
    constructor
    · rcases Nat.le_total a (minCause (b :: l)) with h | h
      · rw [Nat.min_eq_left h]; simp
      · rw [Nat.min_eq_right h]; simp only [List.mem_cons] at h1 ⊢; tauto
    · intro x hx
      rcases List.mem_cons.1 hx with rfl | hx
      · omega
      · have := h2 x hx; omega

theorem chs_fields (k : Core) (h1 : k.run < 8) (h2 : k.lastSq < 8) (h3 : k.lastClose < 256) : (chsOf k).testBit 0 = k.openC.solo ∧
    (chsOf k).testBit 1 = k.comC.isSome ∧ chsOf k / 2 ^ 2 % 2 ^ 3 = k.run ∧ chsOf k / 2 ^ 5 % 2 ^ 3 = k.lastSq ∧
    chsOf k / 2 ^ 8 % 2 ^ 8 = k.lastClose ∧ chsOf k / 2 ^ 16 = min k.sq 65535 := by
  unfold chsOf
  generalize min k.sq 65535 = q
  cases k.openC.solo <;> cases k.comC.isSome <;> simp only [Nat.testBit_eq_decide_div_mod_eq, Bool.false_eq_true, if_true, if_false] <;>
    refine ⟨?_, ?_, ?_, ?_, ?_, ?_⟩ <;> first | omega | (simp only [decide_eq_true_eq, decide_eq_false_iff_not]; omega)

theorem boundary_iff (m : Mach) (c : Nat) : atBoundary m c = true ↔ ∀ r ∈ m.running, r.core ≠ c := by
  simp [atBoundary]

theorem nextMark_eq {m : Mach} {p : Part} (h : m.part? p.pid = some p) :
    nextMark m p.pid = (m.updPart p.pid (fun q => { q with grants := q.grants + 1 }), p.grants + 1) := by
  simp [nextMark, h]

theorem publishBytes_mem (m : Mach) (pa : Nat) (bs : List Byte) : (publishBytes m pa bs).mem = cwrite m.mem pa bs := rfl

theorem publishCells_mem (l : List (Nat × Byte)) : ∀ m : Mach, (∀ a, (∀ e ∈ l, e.1 ≠ a) → cget (publishCells m l).mem a = cget m.mem a) ∧
    ∀ e ∈ l, (∀ f ∈ l, f.1 = e.1 → f = e) → cget (publishCells m l).mem e.1 = e.2 := by
  induction l with
  | nil => intro m; simp [publishCells]
  | cons x l ih =>
    intro m
    obtain ⟨x1, x2⟩ := x
    have e0 : publishCells m ((x1, x2) :: l) = publishCells (publishBytes m x1 [x2]) l := rfl
    rw [e0]
    obtain ⟨h1, h2⟩ := ih (publishBytes m x1 [x2])
    constructor
    · intro a ha
      rw [h1 a (fun e he => ha e (by simp [he]))]
      exact cget_cput_ne _ (ha (x1, x2) (by simp)).symm _
    · intro e he hu
      by_cases hm : e ∈ l
      · exact h2 e hm (fun f hf => hu f (by simp [hf]))
      · rcases List.mem_cons.1 he with rfl | h
        · rw [h1 x1 (fun f hf hx => hm (by have := hu f (by simp [hf]) hx; rwa [← this]))]
          exact cget_cput_self _ _ _
        · exact absurd h hm

def Woke (m z : Mach) : Prop := z.cores = m.cores ∧ z.dies = m.dies ∧ z.running = m.running ∧
  ∃ h : Thread → Thread, z.threads = m.threads.map h ∧ ∀ t, (h t).gid = t.gid ∧ (h t).tix = t.tix ∧ (h t).prs = t.prs

theorem Woke.refl (m : Mach) : Woke m m := ⟨rfl, rfl, rfl, id, by simp, fun _ => ⟨rfl, rfl, rfl⟩⟩

theorem Woke.trans {a b c : Mach} (h : Woke a b) (k : Woke b c) : Woke a c := by
  obtain ⟨h1, h2, h3, f, h4, h5⟩ := h
  obtain ⟨k1, k2, k3, g, k4, k5⟩ := k
  refine ⟨k1.trans h1, k2.trans h2, k3.trans h3, g ∘ f, by rw [k4, h4, List.map_map], fun t => ?_⟩
  have a := h5 t
  have b := k5 (f t)
  exact ⟨b.1.trans a.1, b.2.1.trans a.2.1, b.2.2.trans a.2.2⟩

theorem woke_put (m : Mach) (gid off : Nat) (bs : List Byte) : Woke m (padPut m gid off bs) := by
  unfold padPut
  simp only []
  split
  · exact Woke.refl _
  · next g hg =>
    refine ⟨rfl, rfl, rfl, _, rfl, fun t => ?_⟩
    split
    · split <;> exact ⟨rfl, rfl, rfl⟩
    · exact ⟨rfl, rfl, rfl⟩

theorem woke_replay (u : List Undo) : ∀ m : Mach, Woke m (replay m u) := by
  induction u with
  | nil => exact Woke.refl
  | cons e u ih => intro m; exact (woke_put m e.gid e.off e.old).trans (ih _)

theorem squash_form (m : Mach) (c kind : Nat) : ∃ z, Woke m z ∧ squash m c kind =
    (rollBack z c (if (m.core c).comC = none then (m.core c).ck else (m.core c).comCk)).updCore c (fun k => { k with
    openC := { serial := k.openC.serial + 1, opened := (m.die (c / 64)).clk
               solo := k.openC.solo || k.soloNext || (k.comC.map (fun y => y.solo)).getD false }
    comC := none, soloNext := false, ck := (if (m.core c).comC = none then (m.core c).ck else (m.core c).comCk), comCk := {}, yielded := []
    due := dueAfter k.due, run := min (k.run + 1) 4, sq := k.sq + 1, lastSq := kind }) := by
  have hs : ∀ k : Core, (match k.comC with | some y => y.solo | none => false) = (k.comC.map (fun y => y.solo)).getD false := by
    intro k; cases k.comC <;> rfl
  cases hc : (m.core c).comC with
  | none =>
    have w := woke_replay (m.core c).openC.undo m
    refine ⟨_, w, ?_⟩
    unfold squash
    simp only [hc, Option.isSome_none, Bool.false_eq_true, if_false, hs, if_true]
    have e2 : clkOf (replay m (m.core c).openC.undo) c = (m.die (c / 64)).clk := by
      show ((lget (replay m (m.core c).openC.undo).dies (c/64)).getD {}).clk = _
      rw [w.2.1]; rfl
    rw [e2]
    all_goals refine congrArg _ (funext fun k => ?_)
    all_goals rcases hk : k.comC with _ | y <;> simp [hk]
  | some y =>
    have w := (woke_replay (m.core c).openC.undo m).trans (woke_replay y.undo _)
    refine ⟨_, w, ?_⟩
    unfold squash
    simp only [hc, Option.isSome_some, if_true, hs, reduceCtorEq, if_false]
    have e2 : clkOf (replay (replay m (m.core c).openC.undo) y.undo) c = (m.die (c / 64)).clk := by
      show ((lget (replay (replay m (m.core c).openC.undo) y.undo).dies (c/64)).getD {}).clk = _
      rw [w.2.1]; rfl
    rw [e2]
    all_goals refine congrArg _ (funext fun k => ?_)
    all_goals rcases hk : k.comC with _ | y <;> simp [hk]

theorem squash_core (m : Mach) (c kind : Nat) : (squash m c kind).core c = { m.core c with
      openC := { serial := (m.core c).openC.serial + 1, opened := (m.die (c / 64)).clk
                 solo := (m.core c).openC.solo || (m.core c).soloNext || ((m.core c).comC.map (fun y => y.solo)).getD false }
      comC := none, soloNext := false, ck := (if (m.core c).comC = none then (m.core c).ck else (m.core c).comCk), comCk := {}, yielded := [], run := min ((m.core c).run + 1) 4, sq := (m.core c).sq + 1
      due := (m.core c).due.filter (fun d => d == 11 || d == 12 || d == 13), lastSq := kind } := by
  obtain ⟨z, w, e⟩ := squash_form m c kind
  rw [e, Mach.core_updCore_self]
  have : (rollBack z c (if (m.core c).comC = none then (m.core c).ck else (m.core c).comCk)).core c = m.core c := by
    show (lget z.cores c).getD {} = _
    rw [w.1]; rfl
  rw [this]; rfl

theorem find_map_thread (f : Thread → Thread) (hf : ∀ t, (f t).gid = t.gid ∧ (f t).tix = t.tix) (g i : Nat) (l : List Thread) :
    (l.map f).find? (fun t => t.gid == g && t.tix == i) = (l.find? (fun t => t.gid == g && t.tix == i)).map f := by
  induction l with
  | nil => rfl
  | cons x l ih =>
    rw [List.map_cons, List.find?_cons, List.find?_cons, (hf x).1, (hf x).2, ih]
    split <;> rfl

theorem squash_thread (m : Mach) (c kind : Nat) (t o : Thread) (h : m.thread? t.gid t.tix = some t)
    (ho : (if (m.core c).comC = none then (m.core c).ck else (m.core c).comCk).threads.find? (fun x => x.gid == t.gid && x.tix == t.tix) = some o) :
    (squash m c kind).thread? t.gid t.tix = some { o with prs := t.prs, demoted := false, ageing := 0, aged := false, poll := false } := by
  obtain ⟨z, ⟨_, _, _, f, hf, hk⟩, e⟩ := squash_form m c kind
  rw [e]
  show (z.threads.map (fun t => match (if (m.core c).comC = none then (m.core c).ck else (m.core c).comCk).threads.find? (fun o => o.gid == t.gid && o.tix == t.tix) with
      | some o => Thread.restored o t
      | none => t)).find? (fun x => x.gid == t.gid && x.tix == t.tix) = _
  rw [hf, List.map_map, find_map_thread]
  · have h0 : m.threads.find? (fun x => x.gid == t.gid && x.tix == t.tix) = some t := h
    rw [h0]
    simp only [Option.map_some, Function.comp, (hk t).1, (hk t).2.1, ho]
    unfold Thread.restored
    rw [(hk t).2.2]
  · intro u
    have := hk u
    dsimp only [Function.comp]
    split
    · next o' ho' =>
      have hh := List.find?_some ho'
      simp only [Bool.and_eq_true, beq_iff_eq] at hh
      exact ⟨hh.1.trans this.1, hh.2.trans this.2.1⟩
    · exact ⟨this.1, this.2.1⟩

theorem squash_run (m : Mach) (c kind : Nat) : ∀ r ∈ (squash m c kind).running, r.core ≠ c := by
  obtain ⟨z, w, e⟩ := squash_form m c kind
  rw [e]
  intro r hr
  have : r ∈ z.running.filter (fun r => r.core != c) := hr
  simpa using (List.mem_filter.1 this).2

theorem core_of {m : Mach} (hp : m.cores.Pairwise (fun a b => a.1 ≠ b.1)) {d : Nat} {k : Core} (h : (d, k) ∈ m.cores) : m.core d = k := by
  have : ∀ l : List (Nat × Core), l.Pairwise (fun a b => a.1 ≠ b.1) → (d, k) ∈ l → lget l d = some k := by
    intro l
    induction l with
    | nil => simp
    | cons x l ih =>
      intro hp h
      rw [List.pairwise_cons] at hp
      obtain ⟨x1, x2⟩ := x
      unfold lget
      by_cases hx : x1 = d
      · rcases List.mem_cons.1 h with e | h
        · simp only [Prod.mk.injEq] at e
          simp [e.1, e.2]
        · exact absurd hx (hp.1 _ h)
      · rcases List.mem_cons.1 h with e | h
        · simp only [Prod.mk.injEq] at e
          exact absurd e.1.symm hx
        · simp [hx, ih hp.2 h]
  show (lget m.cores d).getD {} = k
  rw [this _ hp h]; rfl

theorem squashes_core (kind d : Nat) (l : List (Nat × Core)) (hp : l.Pairwise (fun a b => a.1 ≠ b.1)) : ∀ m : Mach,
    ((∀ e ∈ l, e.1 ≠ d) → (l.foldl (fun m e => squash m e.1 kind) m).core d = m.core d) ∧
    ((∃ e ∈ l, e.1 = d) → ((l.foldl (fun m e => squash m e.1 kind) m).core d).sq = (m.core d).sq + 1 ∧
      ((l.foldl (fun m e => squash m e.1 kind) m).core d).comC = none) := by
  induction l with
  | nil => intro m; simp
  | cons x l ih =>
    rw [List.pairwise_cons] at hp
    intro m
    rw [List.foldl_cons]
    obtain ⟨i1, i2⟩ := ih hp.2 (squash m x.1 kind)
    constructor
    · intro h
      rw [i1 (fun e he => h e (by simp [he]))]
      exact (squash_keeps m x.1 kind d (h x (by simp)).symm).2
    · rintro ⟨e, he, rfl⟩
      by_cases hx : x.1 = e.1
      · have : ∀ y ∈ l, y.1 ≠ e.1 := fun y hy => by rw [← hx]; exact (hp.1 y hy).symm
        rw [i1 this, ← hx, squash_core]
        exact ⟨rfl, rfl⟩
      · rcases List.mem_cons.1 he with rfl | he
        · exact absurd rfl hx
        · have := i2 ⟨e, he, rfl⟩
          rw [(squash_keeps m x.1 kind e.1 (fun h => hx h.symm)).2] at this
          exact this

theorem issued_eq (m : Mach) (r : Running) (t : Thread) (d : Nat) (ok : Bool) (x : TCmd) (y : Nat → TCmd)
    (h : ∀ n, y n = { x with n := n, gid := t.gid, tix := t.tix, hdr := r.hdr }) : issueCmd m r t d ok x = issued m r t d ok y := by
  unfold issueCmd issued
  simp only [h]
  cases ok with
  | false => rfl
  | true =>
    simp only [Bool.not_true, Bool.false_eq_true, if_false, reduceCtorEq]
    split
    · rfl
    · have e : ∀ (z : Mach) (f : Core → Core) (v : Core), f (z.core r.core) = v → z.updCore r.core f = z.updCore r.core (fun _ => v) := by
        rintro z f v rfl; rfl
      apply e
      have hc : ∀ (z : Mach) (f : Core → Core), ((z.updCore r.core f).updGroup t.gid (fun g => { g with save := { g.save with topTile := (m.core r.core).tileCtr + 1 } })).core r.core = f (z.core r.core) := by
        intro z f; exact Mach.core_updCore_self _ _ _
      rw [hc]
      rfl

theorem foldl_claim (gid : Nat) (ts : List Nat) : ∀ (l : List (Nat × Tile)) (i : Nat),
    lget (ts.foldl (fun l i => if (lget l i).isSome then l else lput l i { gid := gid }) l) i =
      if lget l i = none ∧ i ∈ ts then some { gid := gid } else lget l i := by
  induction ts with
  | nil => intro l i; simp
  | cons a ts ih =>
    intro l i
    rw [List.foldl_cons, ih]
    cases ha : lget l a with
    | some v =>
      simp only [Option.isSome_some, if_true]
      by_cases hi : i = a
      · subst hi; simp [ha]
      · simp [hi]
    | none =>
      simp only [Option.isSome_none, Bool.false_eq_true, if_false]
      by_cases hi : i = a
      · subst hi; simp [ha]
      · rw [lget_lput_ne _ _ hi]; simp [hi]


theorem claim_one (k : Core) (gid i : Nat) : claim k gid [i] none = { k with tiles := (claim k gid [i] none).tiles } := rfl

theorem upd_upd (m : Mach) (c : Nat) (f g : Core → Core) : (m.updCore c f).updCore c g = m.updCore c (fun k => g (f k)) := by
  unfold Mach.updCore
  dsimp only
  have e : ∀ (l : List (Nat × Core)) (a b : Core), lput (lput l c a) c b = lput l c b := by
    intro l a b
    induction l with
    | nil => simp [lput]
    | cons x l ih =>
      obtain ⟨i, v⟩ := x
      simp only [lput]
      split
      · simp [lput]
      · split
        · simp [lput]
        · next h1 h2 => simp [lput, h1, h2, ih]
  rw [e]
  congr 2
  have := Mach.core_updCore_self m c f
  unfold Mach.updCore at this
  rw [this]

theorem tget_tput (l : List (Nat × DWord)) (i j v a b : Nat) (hj : j < 32) (hb : b < 32) :
    tget (tput l i j v) a b = if a = i ∧ b = j then (BitVec.ofNat 64 v).toNat else tget l a b := by
  unfold tget tput
  by_cases h : a = i ∧ b = j
  · obtain ⟨rfl, rfl⟩ := h
    by_cases hv : v = 0 <;> simp [hv]
  · rw [if_neg h]
    have : 32 * a + b ≠ 32 * i + j := by omega
    by_cases hv : v = 0
    · simp only [hv, if_true]; rw [lget_ldel_ne _ this]
    · simp only [hv, if_false]; rw [lget_lput_ne _ _ this]

theorem tget_row (F : List (Nat × DWord) → Nat → Nat) (G : Nat → Nat → Nat) (i : Nat)
    (hF : ∀ l j, F l j = G j (tget l i j)) (n : Nat) (hn : n ≤ 32) (l : List (Nat × DWord)) (a b : Nat) (hb : b < 32) :
    tget ((List.range n).foldl (fun l j => tput l i j (F l j)) l) a b =
      if a = i ∧ b < n then (BitVec.ofNat 64 (G b (tget l a b))).toNat else tget l a b := by
  induction n with
  | zero => simp
  | succ k ih =>
    rw [List.range_succ, List.foldl_append, List.foldl_cons, List.foldl_nil, tget_tput _ _ _ _ _ _ (by omega) hb, hF]
    by_cases h : a = i ∧ b = k
    · rw [if_pos h, if_pos (by omega)]
      obtain ⟨rfl, rfl⟩ := h
      have := ih (by omega)
      rw [if_neg (by omega)] at this
      rw [this]
    · rw [if_neg h, ih (by omega)]
      by_cases h2 : a = i ∧ b < k
      · rw [if_pos h2, if_pos (by omega)]
      · rw [if_neg h2, if_neg (by omega)]

theorem tget_block (F : List (Nat × DWord) → Nat → Nat → Nat) (G : Nat → Nat → Nat → Nat)
    (hF : ∀ l i j, F l i j = G i j (tget l i j)) (m n : Nat) (hn : n ≤ 32) (l : List (Nat × DWord)) (a b : Nat) (hb : b < 32) :
    tget ((List.range m).foldl (fun l i => (List.range n).foldl (fun l j => tput l i j (F l i j)) l) l) a b =
      if a < m ∧ b < n then (BitVec.ofNat 64 (G a b (tget l a b))).toNat else tget l a b := by
  induction m with
  | zero => simp
  | succ k ih =>
    rw [List.range_succ, List.foldl_append, List.foldl_cons, List.foldl_nil,
      tget_row (fun l j => F l k j) (fun j v => G k j v) k (fun l j => hF l k j) n hn _ a b hb, ih]
    by_cases h : a = k ∧ b < n
    · obtain ⟨rfl, h2⟩ := h
      simp [h2]
    · rw [if_neg h]
      by_cases h2 : a < k ∧ b < n
      · rw [if_pos h2, if_pos (by omega)]
      · rw [if_neg h2, if_neg (by omega)]

/-- A plan that may be performed, is: its writes, the mark of the clause and the thread. -/
theorem fxApply_may {m : Mach} {t : Thread} {p : FxPlan} {w : Mach} (h : MayAct m t p) (hw : Writes m t p w)
    (fault : MemErr → Acc → Nat → Mach) (wait : Option Nat → Mach) :
    fxApply m t.gid t.tix p fault wait = (acted w t p, fxEscapes p) := by
  obtain ⟨h1, h2, h3, h4⟩ := h
  unfold fxApply
  rw [h1]
  unfold Writes at hw
  cases hx : fxEscapes p with
  | true =>
    rw [hx] at hw
    obtain ⟨a, b, d⟩ := h2 hx
    simp only [a, b, d, hw, Bool.not_true, Bool.and_false, Bool.false_eq_true, if_false, Option.isSome_none, Bool.or_self,
      Bool.false_and]
    unfold acted
    simp only [hx, Bool.not_true, Bool.false_and, Bool.false_eq_true, if_false]
    rfl
  | false =>
    rw [hx] at hw
    have c3 : (fxChunked p && l1Held m (m.coreOf t.gid) t.gid t.tix) = false := by
      cases hc : fxChunked p with
      | true => rw [h3 hx hc]; rfl
      | false => rfl
    simp only [hw, h4 hx, c3, Bool.not_false, Bool.false_and, Bool.true_and, Bool.false_eq_true, if_false]
    unfold acted
    simp only [hx, Bool.not_false, Bool.true_and]
    rfl

/-- A plan that is escaping waits for an empty chunk. -/
theorem fxApply_full {m : Mach} {t : Thread} {p : FxPlan} (h : fxEscapes p = true) (hc : chunkEmpty m (m.coreOf t.gid) = false)
    (fault : MemErr → Acc → Nat → Mach) (wait : Option Nat → Mach) :
    fxApply m t.gid t.tix p fault wait = (wait (some 6), false) := by
  simp [fxApply, h, hc]

theorem performs {s : State} {r : Running} {t : Thread} {g : Guard} (h : Alone s r t g) (i : Instr) (len : Nat) (esc : Bool)
    (plan : Running → Mach → Thread → Except FxStop FxPlan) {quiet : Bool}
    (hi : ∀ s, exec i s = .next (s.onMach (fun m => fxWord m g len esc plan quiet))) :
    Performs s r t i len esc (plan r) quiet := by
  have e := seq_next h (i := i) (f := fun m r t => fxThread m r t len esc (plan r) quiet) hi
  refine ⟨fun h1 h2 => ?_, fun h1 => ?_⟩
  · rw [e]
    unfold fxThread
    simp only [h1, h2, Bool.not_false, Bool.and_self, if_true]
    rfl
  have go : (esc && !chunkEmpty s.m r.core) = false := by
    rcases h1 with h1 | h1 <;> simp [h1]
  refine ⟨fun p hp h1 h2 => ?_, fun p w hp hm hw => ?_, fun id a2 a3 rds hp => ⟨fun hh => ?_, fun hh => ?_⟩,
    fun e' acc a rds hp => ⟨fun hh => ?_, fun hh => ?_⟩⟩ <;>
    rw [e] <;> simp only [fxThread, go, hp, Bool.false_eq_true, if_false]
  · rw [fxApply_full h1 h2]; rfl
  · rw [fxApply_may hm hw]
    cases hx : fxEscapes { p with esc := p.esc || esc, quiet := quiet } <;>
      simp only [Bool.false_eq_true, if_false, if_true] <;> rfl
  · obtain ⟨a, b, d⟩ := hh
    simp only [a, b, d, Bool.not_false, Bool.and_self, if_true]; rfl
  · have : (!quiet && fxHotReads s.m (whoOf s.m t.gid) rds && !chunkEmpty s.m r.core) = false := by
      cases quiet <;> cases h3 : fxHotReads s.m (whoOf s.m t.gid) rds <;> cases h4 : chunkEmpty s.m r.core <;> simp_all
    simp only [this, Bool.false_eq_true, if_false]; rfl
  · obtain ⟨a, b, d⟩ := hh
    simp only [a, b, d, Bool.not_false, Bool.and_self, if_true]; rfl
  · have : (!quiet && fxHotReads s.m (whoOf s.m t.gid) rds && !chunkEmpty s.m r.core) = false := by
      cases quiet <;> cases h3 : fxHotReads s.m (whoOf s.m t.gid) rds <;> cases h4 : chunkEmpty s.m r.core <;> simp_all
    simp only [this, Bool.false_eq_true, if_false, memStop_eq]

theorem fieldAt_app_left (a b : List Byte) (o n : Nat) (h : o + n ≤ a.length) : fieldAt (a ++ b) o n = fieldAt a o n := by
  unfold fieldAt
  rw [List.drop_append_of_le_length (by omega), List.take_append_of_le_length (by simp; omega)]

theorem fieldAt_app_right (a b : List Byte) (o n : Nat) (h : a.length ≤ o) : fieldAt (a ++ b) o n = fieldAt b (o - a.length) n := by
  unfold fieldAt
  rw [List.drop_append, List.drop_eq_nil_of_le h, List.nil_append]

theorem fieldAt_nat (n v : Nat) : fieldAt (natBytes n v) 0 n = v % 256 ^ n := by
  unfold fieldAt
  rw [List.drop_zero, List.take_of_length_le (by rw [length_natBytes]), bytesNat_natBytes]

theorem fieldAt_nat' (n k v : Nat) (h : k = n) : fieldAt (natBytes n v) 0 k = v % 256 ^ n := by rw [h, fieldAt_nat]

theorem canon_lt (a : Nat) (h : canonical a = true) (hl : a < 2 ^ 64) : sx48 (a % 2 ^ 48) = a := by
  unfold canonical pte at h
  unfold sx48 pte
  simp only [Bool.or_eq_true, beq_iff_eq] at h
  split <;> omega

theorem layout_num (p a s k u : Nat) (hp : p < 2 ^ 16) (hs : s < 2 ^ k) (ha : a < 2 ^ 48) (hd : a % 2 ^ k = 0) (hk : k ≤ 6) (hu : u = p * 2 ^ 48 + a / 2 ^ k * 2 ^ k + s) :
    u % 256 ^ 8 = u ∧ u / 2 ^ 48 % 2 ^ 16 = p ∧ u / 2 ^ k % 2 ^ (48 - k) * 2 ^ k = a ∧ u % 2 ^ k = s ∧ u / 2 ^ 0 = u := by
  have e : a / 2 ^ k * 2 ^ k = a := Nat.div_mul_cancel (Nat.dvd_of_mod_eq_zero hd)
  rw [e] at hu
  subst hu
  interval_cases k <;> norm_num at * <;> omega

theorem frame_layout (f : Frame) (h1 : f.id < 2 ^ 16) (h2 : f.p < 2 ^ 16) (h3 : f.s < 2 ^ 16) (h4 : f.depth < 2 ^ 16)
    (h5 : f.state < 8) (h6 : f.ov < 2) (h7 : f.entry % 8 = 0) (h8 : f.exit % 8 = 0) (h9 : f.top % 16 = 0) (h10 : f.link % 32 = 0)
    (hc : ∀ a ∈ [f.entry, f.exit, f.top, f.link], canonical a = true ∧ a < 2 ^ 64) : f.bytes.length = 32 ∧
    Frame.ofDwords (fieldAt f.bytes 0 8) (fieldAt f.bytes 8 8) (fieldAt f.bytes 16 8) (fieldAt f.bytes 24 8) = f := by
  constructor
  · simp [Frame.bytes, length_natBytes]
  · unfold Frame.bytes
    simp only [fieldAt_app_left, fieldAt_app_right, length_natBytes, List.length_append, fieldAt_nat, Nat.reduceAdd, Nat.reduceLeDiff, Nat.reduceSub, Nat.le_refl]
    have ce := hc f.entry (by simp)
    have cx := hc f.exit (by simp)
    have ct := hc f.top (by simp)
    have cl := hc f.link (by simp)
    obtain ⟨a1, a2, a3, a4, _⟩ := layout_num f.id (f.entry % 2 ^ 48) f.state 3 _ h1 h5 (Nat.mod_lt _ (by decide)) (by omega) (by omega) rfl
    obtain ⟨b1, b2, b3, b4, _⟩ := layout_num f.p (f.exit % 2 ^ 48) 0 3 _ h2 (by decide) (Nat.mod_lt _ (by decide)) (by omega) (by omega) rfl
    obtain ⟨c1, c2, c3, c4, _⟩ := layout_num f.s (f.top % 2 ^ 48) f.ov 4 _ h3 (by omega) (Nat.mod_lt _ (by decide)) (by omega) (by omega) rfl
    obtain ⟨d1, d2, d3, d4, _⟩ := layout_num f.depth (f.link % 2 ^ 48) 0 5 _ h4 (by decide) (Nat.mod_lt _ (by decide)) (by omega) (by omega) rfl
    simp only [Nat.reducePow, Nat.reduceSub, Nat.add_zero] at *
    simp only [a1, b1, c1, d1]
    unfold Frame.ofDwords pte
    simp only [Nat.reducePow, Nat.div_one] at *
    simp only [a2, a3, a4, b2, b3, c2, c3, d2, d3]
    have co : ∀ u, u / 16 % 17592186044416 * 16 = f.top % 281474976710656 → u % 16 = f.ov → u % 2 = f.ov := fun u _ h => by omega
    have := canon_lt f.entry ce.1 (by simpa using ce.2)
    have := canon_lt f.exit cx.1 (by simpa using cx.2)
    have := canon_lt f.top ct.1 (by simpa using ct.2)
    have := canon_lt f.link cl.1 (by simpa using cl.2)
    simp only [Nat.reducePow] at *
    rw [co _ c3 c4]
    simp_all

theorem header_layout (t : Thread) (pos : Pos) (kind eff body prev seg : Nat) (ov multi : Bool) (h1 : pos.hdr < 2 ^ 64) (h2 : pos.idx < 16)
    (h3 : kind < 2 ^ 16) (h4 : eff < 2 ^ 16) (h5 : prev < 2 ^ 64) (h6 : seg < 2 ^ 32) :
    (recHeader t pos kind eff body prev ov multi seg).length = 64 ∧
    RecHdr.ofBytes (recHeader t pos kind eff body prev ov multi seg) = {
      pos := pos, kind := kind, eff := eff, sp := (t.rdD 4).toNat, ra := (t.rdD 2).toNat, hsp := t.hsp.toNat
      prev := prev, preds := t.pr.toNat / 2 * 2 + 1, ov := ov, multi := multi, seg := seg } := by
  constructor
  · simp [recHeader, length_natBytes]
  · unfold RecHdr.ofBytes recHeader
    simp only [fieldAt_app_left, fieldAt_app_right, length_natBytes, List.length_append, fieldAt_nat, Nat.reduceAdd, Nat.reduceLeDiff, Nat.reduceSub, Nat.le_refl]
    have q1 := (t.rdD 4).isLt
    have q2 := (t.rdD 2).isLt
    have q3 := t.hsp.isLt
    have q4 := t.pr.isLt
    simp only [Nat.reducePow] at *
    obtain ⟨hd, ix⟩ := pos
    simp only [RecHdr.mk.injEq, Pos.mk.injEq] at *
    simp only [rSP, rRA]
    refine ⟨⟨?_, ?_⟩, ?_, ?_, ?_, ?_, ?_, ?_, ?_, ?_, ?_, ?_⟩ <;> first | omega | (cases ov <;> cases multi <;> rfl)

theorem restore_words (nreg : Nat) (f : Nat → Word) : ∀ (ns : List Nat) (u : Thread) (bs : List Byte), ns.Nodup →
    bs = ns.flatMap (fun k => natBytes 4 (if k < nreg then (f k).toNat else 0)) →
    restoreWords u nreg ns bs = { u with w := (restoreWords u nreg ns bs).w } ∧
    ∀ i, 2 ≤ i → (restoreWords u nreg ns bs).rd i = if i < nreg ∧ i ∈ ns then f i else u.rd i := by
  intro ns
  induction ns with
  | nil => intro u bs _ h; simp [restoreWords]
  | cons n ns ih =>
    intro u bs hn h
    rw [List.nodup_cons] at hn
    rw [List.flatMap_cons] at h
    have hb : ∃ b0 b1 b2 b3, natBytes 4 (if n < nreg then (f n).toNat else 0) = [b0, b1, b2, b3] := ⟨_, _, _, _, rfl⟩
    obtain ⟨b0, b1, b2, b3, hb⟩ := hb
    rw [hb] at h
    subst h
    simp only [List.cons_append, List.nil_append, restoreWords]
    rw [← hb, bytesNat_natBytes]
    obtain ⟨i1, i2⟩ := ih (if n < nreg then u.wr n (BitVec.ofNat 32 ((if n < nreg then (f n).toNat else 0) % 256 ^ 4)) else u) _ hn.2 rfl
    constructor
    · rw [i1]
      split <;> rfl
    · intro i hi
      rw [i2 i hi]
      by_cases hx : i = n
      · subst hx
        by_cases hr : i < nreg
        · have : BitVec.ofNat 32 ((f i).toNat % 256 ^ 4) = f i := by
            have := (f i).isLt
            rw [Nat.mod_eq_of_lt (by simpa using this)]; simp
          rw [if_pos hr, if_pos hr] at *
          rw [if_neg (fun h => hn.1 h.2), Thread.rd_wr_self _ hi, this, if_pos ⟨hr, by simp⟩]
        · simp [hr]
      · have : (if n < nreg then u.wr n (BitVec.ofNat 32 ((if n < nreg then (f n).toNat else 0) % 256 ^ 4)) else u).rd i = u.rd i := by
          split
          · rw [Thread.rd_wr_ne _ hx]
          · rfl
        rw [this]
        simp [hx]

theorem saved_body (t : Thread) (n : Nat) : savedBody t n = (savedPairs.flatMap (fun n => [n, n + 1])).flatMap (fun k => natBytes 4 (if k < n then (t.rd k).toNat else 0)) := by
  simp only [savedBody, savedPairs, List.map_cons, List.map_nil, List.flatten_cons, List.flatten_nil, List.flatMap_cons,
    List.flatMap_nil, List.append_nil, List.append_assoc, List.cons_append, List.nil_append]

theorem full_body (t : Thread) (n : Nat) : fullBody t n = (List.range n).flatMap (fun k => natBytes 4 (if k < n then (t.rd k).toNat else 0)) := by
  unfold fullBody
  rw [← List.flatMap_def]
  rw [List.flatMap_def, List.flatMap_def]
  congr 1
  apply List.map_congr_left
  intro k hk
  rw [if_pos (List.mem_range.1 hk)]

theorem flat_len (f : Nat → Nat) (l : List Nat) : (l.flatMap (fun k => natBytes 4 (f k))).length = 4 * l.length := by
  induction l with
  | nil => rfl
  | cons x l ih => rw [List.flatMap_cons, List.length_append, ih, length_natBytes, List.length_cons]; omega

theorem saved_mem (i : Nat) (h : 6 ≤ i) : i ∈ savedPairs.flatMap (fun n => [n, n + 1]) ↔ i / 2 * 2 ∈ savedPairs := by
  simp only [savedPairs, List.mem_flatMap, List.mem_cons, List.not_mem_nil, or_false, exists_eq_or_imp, exists_eq_left]
  omega

theorem rdD_congr {t u : Thread} {n : Nat} (h : t.rd n = u.rd n) (h' : t.rd (n + 1) = u.rd (n + 1)) : t.rdD n = u.rdD n := by
  unfold Thread.rdD; rw [h, h']

theorem rdD_other (t : Thread) {n k : Nat} (h : k ≠ n ∧ k ≠ n + 1 ∧ k + 1 ≠ n) (v : DWord) : (t.wrD n v).rdD k = t.rdD k := by
  unfold Thread.rdD; rw [Thread.rd_wrD_ne _ h.1 h.2.1, Thread.rd_wrD_ne _ h.2.2 (by omega)]

theorem return_law (t u : Thread) (n : Nat) (h : RecHdr) (full : Bool) (v : Thread)
    (hv : v = returnThread u n h (if full then fullBody t n else savedBody t n) full) :
      v.pos = h.pos ∧ v.landed = true ∧ v.stat = .ready ∧ v.hsp = BitVec.ofNat 64 h.hsp ∧
      v.pr = BitVec.ofNat 8 (h.preds / 2 * 2) ∧ v.rdD 4 = BitVec.ofNat 64 h.sp ∧ v.rdD 2 = BitVec.ofNat 64 h.ra ∧
      (∀ i, 6 ≤ i → v.rd i = if i < n ∧ (full = true ∨ i / 2 * 2 ∈ savedPairs) then t.rd i else u.rd i) ∧
      v = { u with w := v.w, pos := v.pos, landed := v.landed, stat := v.stat, hsp := v.hsp, pr := v.pr } := by
  unfold returnThread at hv
  have hb : (if full then fullBody t n else savedBody t n) = (if full then List.range n else savedPairs.flatMap (fun n => [n, n + 1])).flatMap (fun k => natBytes 4 (if k < n then (t.rd k).toNat else 0)) := by
    cases full
    · exact saved_body t n
    · exact full_body t n
  have hn : (if full then List.range n else savedPairs.flatMap (fun n => [n, n + 1])).Nodup := by
    cases full
    · show (savedPairs.flatMap (fun n => [n, n + 1])).Nodup
      decide
    · exact List.nodup_range
  obtain ⟨r1, r2⟩ := restore_words n t.rd _ u _ hn hb
  dsimp only at hv
  generalize restoreWords u n (if full then List.range n else savedPairs.flatMap (fun n => [n, n + 1])) (if full then fullBody t n else savedBody t n) = z at *
  have hm : ∀ i, 6 ≤ i → (i < n ∧ i ∈ (if full then List.range n else savedPairs.flatMap (fun n => [n, n + 1])) ↔ i < n ∧ (full = true ∨ i / 2 * 2 ∈ savedPairs)) := by
    intro i hi
    cases full
    · simp only [Bool.false_eq_true, if_false, false_or, saved_mem i hi]
    · simp
  have hw : ∀ i, v.rd i = ((z.wrD rSP (BitVec.ofNat 64 h.sp)).wrD rRA (BitVec.ofNat 64 h.ra)).rd i := by rw [hv]; intro i; rfl
  refine ⟨by rw [hv], by rw [hv], by rw [hv], by rw [hv], by rw [hv], ?_, ?_, ?_, ?_⟩
  · rw [rdD_congr (hw 4) (hw 5), rdD_other _ (by decide)]
    exact Thread.rdD_wrD_self _ (n := 4) (by decide) _
  · rw [rdD_congr (hw 2) (hw 3)]
    exact Thread.rdD_wrD_self _ (n := 2) (by decide) _
  · intro i hi
    rw [hw, Thread.rd_wrD_ne _ (by unfold rRA; omega) (by unfold rRA; omega), Thread.rd_wrD_ne _ (by unfold rSP; omega) (by unfold rSP; omega), r2 i (by omega)]
    simp only [hm i hi]
  · obtain ⟨w2, h2⟩ : ∃ w2, (z.wrD rSP (BitVec.ofNat 64 h.sp)).wrD rRA (BitVec.ofNat 64 h.ra) = { u with w := w2 } := by
      obtain ⟨w, hz⟩ : ∃ w, z = { u with w := w } := ⟨_, r1⟩
      rw [hz]
      exact ⟨_, rfl⟩
    rw [h2] at hv
    subst hv
    rfl

theorem search_chain (e : Nat) : ∀ (l : List (Nat × Frame)) (n : Nat) (x y : Fx) (f g : Nat), Chain x f l y g → (∀ z ∈ l, z.2.state = 2 ∨ z.2.id ≠ e) → l.length ≤ n →
    Fx.search e n x f = Fx.search e (n - l.length) y g := by
  intro l
  induction l with
  | nil => rintro n x y f g ⟨rfl, rfl⟩ _ _; rfl
  | cons a l ih =>
    obtain ⟨a, fr⟩ := a
    rintro n x y f g ⟨h1, rfl, z, h2, h3⟩ hs hl
    simp only [List.length_cons] at hl
    obtain ⟨k, rfl⟩ : ∃ k, n = k + 1 := ⟨n - 1, by omega⟩
    have h4 := hs (a, fr) (by simp)
    simp only [Fx.search, h1, if_false, h2]
    rw [if_neg (by rintro ⟨p, q⟩; rcases h4 with h | h; exacts [p h, h q])]
    rw [ih k z y _ g h3 (fun z hz => hs z (by simp [hz])) (by omega)]
    simp only [List.length_cons]
    congr 1; omega

theorem find_chain (tok : Nat) : ∀ (l : List (Nat × Frame)) (n : Nat) (x y : Fx) (f g : Nat), Chain x f l y g → (∀ z ∈ l, z.2.depth ≠ tok % 2 ^ 16) → l.length ≤ n →
    Fx.find tok n x f = Fx.find tok (n - l.length) y g := by
  intro l
  induction l with
  | nil => rintro n x y f g ⟨rfl, rfl⟩ _ _; rfl
  | cons a l ih =>
    obtain ⟨a, fr⟩ := a
    rintro n x y f g ⟨h1, rfl, z, h2, h3⟩ hs hl
    simp only [List.length_cons] at hl
    obtain ⟨k, rfl⟩ : ∃ k, n = k + 1 := ⟨n - 1, by omega⟩
    have h4 := hs (a, fr) (by simp)
    simp only [Fx.find, h1, if_false, h2]
    rw [if_pos (by simpa using h4)]
    rw [ih k z y _ g h3 (fun z hz => hs z (by simp [hz])) (by omega)]
    simp only [List.length_cons]
    congr 1; omega

theorem active_chain : ∀ (l : List (Nat × Frame)) (n : Nat) (x y : Fx) (f g : Nat), Chain x f l y g → (∀ z ∈ l, z.2.state ≠ 2) → l.length ≤ n →
    Fx.active n x f = Fx.active (n - l.length) y g := by
  intro l
  induction l with
  | nil => rintro n x y f g ⟨rfl, rfl⟩ _ _; rfl
  | cons a l ih =>
    obtain ⟨a, fr⟩ := a
    rintro n x y f g ⟨h1, rfl, z, h2, h3⟩ hs hl
    simp only [List.length_cons] at hl
    obtain ⟨k, rfl⟩ : ∃ k, n = k + 1 := ⟨n - 1, by omega⟩
    have h4 := hs (a, fr) (by simp)
    simp only [Fx.active, h1, if_false, h2]
    rw [if_neg h4]
    rw [ih k z y _ g h3 (fun z hz => hs z (by simp [hz])) (by omega)]
    simp only [List.length_cons]
    congr 1; omega

theorem search_zero (e n : Nat) (x : Fx) : Fx.search e n x 0 = .ok (x, none) := by cases n <;> simp [Fx.search]

theorem find_zero (e n : Nat) (x : Fx) : Fx.find e n x 0 = .ok (x, .dead 2) := by cases n <;> simp [Fx.find]

theorem active_zero (n : Nat) (x : Fx) : Fx.active n x 0 = .ok (x, none) := by cases n <;> simp [Fx.active]

theorem enter_law (u : Thread) (f eff sp : Nat) (fr : Frame) (hd : fr.depth < 2 ^ 16) : let v := enterThread u f fr eff sp
    v.gen = u.gen % 65535 + 1 ∧ v.hsp = BitVec.ofNat 64 f ∧ v.pos = ⟨fr.entry, 0⟩ ∧ v.landed = true ∧ v.stat = .ready ∧
    v.rdD 4 = BitVec.ofNat 64 sp ∧ (v.rdD 28).toNat = v.gen * 2 ^ 16 + fr.depth ∧ v.rdD 30 = BitVec.ofNat 64 eff ∧
    (∀ i, i ∉ [4, 5, 28, 29, 30, 31] → v.rd i = u.rd i) ∧
    v = { u with w := v.w, gen := v.gen, hsp := v.hsp, pos := v.pos, landed := true, stat := .ready, pend := none } := by
  intro v
  have e : ∃ z : Thread, (∀ i, z.rd i = u.rd i) ∧ v = ((z.wrD 4 (BitVec.ofNat 64 sp)).wrD 28 (BitVec.ofNat 64 ((u.gen % 65535 + 1) * 2 ^ 16 + fr.depth))).wrD 30 (BitVec.ofNat 64 eff) :=
    ⟨{ u with gen := nextGen u.gen, hsp := BitVec.ofNat 64 f, pos := ⟨fr.entry, 0⟩, landed := true, stat := .ready, pend := none }, fun _ => rfl, rfl⟩
  obtain ⟨z, hz, e⟩ := e
  refine ⟨rfl, rfl, rfl, rfl, rfl, ?_, ?_, ?_, ?_, rfl⟩
  · rw [e, rdD_other _ (by decide), rdD_other _ (by decide), Thread.rdD_wrD_self _ (by decide)]
  · have h1 : v.gen = u.gen % 65535 + 1 := rfl
    rw [h1, e, rdD_other _ (by decide), Thread.rdD_wrD_self _ (by decide), BitVec.toNat_ofNat, Nat.mod_eq_of_lt (by omega)]
  · rw [e, Thread.rdD_wrD_self _ (by decide)]
  · intro i hi
    simp only [List.mem_cons, List.not_mem_nil, or_false, not_or] at hi
    rw [e, Thread.rd_wrD_ne _ (by omega) (by omega), Thread.rd_wrD_ne _ (by omega) (by omega), Thread.rd_wrD_ne _ (by omega) (by omega), hz]

theorem ring_do {s : State} {p : Part} {code : Nat} {ops : List Nat} (h : RingHead s.m p code ops) {mine : List Nat → Bool}
    (f : Mach → Part → List Nat → Answer) (hm : mine ops = true) :
    ringDo s p.pid code mine f = .next ⟨s.agenda, match f s.m p ops with
        | .done m res => ringDone m p (memNat s.m (ringBase p + 8) 8) 1 res
        | .refuse => ringDone s.m p (memNat s.m (ringBase p + 8) 8) 2 0
        | .wait m => m⟩ := by
  obtain ⟨h1, h2, h3, h4, h5⟩ := h
  have hl : p.live = true := by rcases h2 with h | h <;> simp [Part.live, h]
  subst h5
  unfold ringDo
  simp only [State.onMach, h1]
  split
  · rename_i hx
    refine absurd hx ?_
    simp only [hl, hm, h4, Bool.not_true, Bool.false_eq_true, false_or, ne_eq, not_true_eq_false, or_false]
    exact h3
  · rfl

theorem ring_done {s : State} {p : Part} {code : Nat} {ops : List Nat} (h : RingHead s.m p code ops) {mine : List Nat → Bool}
    {f : Mach → Part → List Nat → Answer} (hm : mine ops = true) {m : Mach} {res : Nat} (hf : f s.m p ops = .done m res) :
    ringDo s p.pid code mine f = answers s p m 1 res := by
  rw [ring_do h f hm, hf]; rfl

theorem ring_refuse {s : State} {p : Part} {code : Nat} {ops : List Nat} (h : RingHead s.m p code ops) {mine : List Nat → Bool}
    {f : Mach → Part → List Nat → Answer} (hm : mine ops = true) (hf : f s.m p ops = .refuse) :
    ringDo s p.pid code mine f = answers s p s.m 2 0 := by
  rw [ring_do h f hm, hf]; rfl

theorem covers (rs : List (Nat × Nat)) (g : Nat) : ∀ (n : Nat) (rs : List (Nat × Nat)) (a : Nat), rangesCover rs g n a = true →
    ∀ i, a ≤ i → i < g → ∃ r ∈ rs, r.1 ≤ i ∧ i < r.1 + r.2 := by
  intro n
  induction n with
  | zero => intro rs a h i h1 h2; simp [rangesCover] at h; omega
  | succ n ih =>
    intro rs a h i h1 h2
    simp only [rangesCover, Bool.or_eq_true, beq_iff_eq] at h
    rcases h with h | h
    · omega
    · split at h
      · next r hr =>
        have hm := List.mem_of_find?_eq_some hr
        have h3 := List.find?_some hr
        simp only [beq_iff_eq] at h3
        by_cases hi : i < a + r.2
        · exact ⟨r, hm, by omega, by omega⟩
        · obtain ⟨q, q1, q2⟩ := ih _ _ h i (by omega) h2
          exact ⟨q, (List.mem_filter.1 q1).1, q2⟩
      · exact absurd h (by simp)

theorem find_ext {α : Type} {f g : α → Bool} {l : List α} {t : α} (h : ∀ x, f x = g x) (ht : l.find? g = some t) : l.find? f = some t := by
  rw [← ht, funext h]

/-- What a group's end may leave otherwise: memory only at the pointers of visitor contexts, threads only in what wakes
them. -/
structure Frees (m n : Mach) (die : Nat) : Prop where
  co : n.cores = m.cores
  gr : n.groups = m.groups
  pa : n.parts = m.parts
  th : ∃ f : Thread → TStat, n.threads = m.threads.map (fun t => { t with stat := f t })
  me : ∀ a, (∀ v, a < pointerAt m die v ∨ pointerAt m die v + 8 ≤ a) → cget n.mem a = cget m.mem a

theorem map_stat_self (l : List Thread) : l.map (fun t => { t with stat := t.stat }) = l := List.map_id l

/-- What a write of `n` bytes at `a` makes of what a thread waits for. -/
def wokenBy (a n : Nat) : TStat → TStat
  | .waiting (.addr true ea wp x d false p) =>
    .waiting (.addr true ea wp x d (decide (a < wp + 4) && decide (wp < a + n)) p)
  | s => s

theorem woken_thread (a n : Nat) (t : Thread) : (match t.stat with
    | .waiting (.addr true ea wp v d false p) =>
      if decide (a < wp + 4) && decide (wp < a + n) then { t with stat := .waiting (.addr true ea wp v d true p) } else t
    | _ => t) = { t with stat := wokenBy a n t.stat } := by
  have key : ∀ s, t.stat = s → (match s with
    | .waiting (.addr true ea wp v d false p) =>
      if decide (a < wp + 4) && decide (wp < a + n) then { t with stat := .waiting (.addr true ea wp v d true p) } else t
    | _ => t) = { t with stat := wokenBy a n s } := by
    intro s hs
    split
    · next ea wp v d p =>
      show _ = { t with stat := .waiting (.addr true ea wp v d (decide (a < wp + 4) && decide (wp < a + n)) p) }
      cases h : decide (a < wp + 4) && decide (wp < a + n)
      · cases t; cases hs; rfl
      · rfl
    · have : wokenBy a n s = s := by
        unfold wokenBy
        split
        · next h => exact absurd rfl (h _ _ _ _ _)
        · rfl
      rw [this, ← hs]
  exact key _ rfl

theorem putPointer_frees (m : Mach) (die v a : Nat) : Frees m (putPointer m die v a) die := by
  refine ⟨rfl, rfl, rfl, ⟨fun t => wokenBy (pointerAt m die v) (natBytes 8 a).length t.stat, ?_⟩, fun b hb => ?_⟩
  · exact List.map_congr_left fun t _ => woken_thread _ _ t
  · exact cget_cwrite_outside _ _ _ _ (by rw [length_natBytes]; exact hb v)

theorem Frees.trans {m n k : Mach} {die : Nat} (h : Frees m n die) (j : Frees n k die) : Frees m k die := by
  refine ⟨j.co.trans h.co, j.gr.trans h.gr, j.pa.trans h.pa, ?_, fun a ha => ?_⟩
  · obtain ⟨f, hf⟩ := h.th
    obtain ⟨e, he⟩ := j.th
    refine ⟨fun t => e { t with stat := f t }, ?_⟩
    rw [he, hf, List.map_map]
    rfl
  · have : ∀ v, pointerAt n die v = pointerAt m die v := fun v => by unfold pointerAt partDies Mach.partOf; rw [h.pa]
    rw [j.me a (fun v => by rw [this]; exact ha v), h.me a ha]

theorem pointers_frees (die : Nat) : ∀ (l : List (Nat × Visitor)) (m : Mach), Frees m (l.foldl (fun m v => putPointer m die v.1 0) m) die
  | [], m => ⟨rfl, rfl, rfl, ⟨fun t => t.stat, (map_stat_self _).symm⟩, fun _ _ => rfl⟩
  | v :: l, m => (putPointer_frees m die v.1 0).trans (pointers_frees die l _)

theorem leaveHeadland_frees (m : Mach) (die gid : Nat) : Frees m (leaveHeadland m die gid) die := by
  have h := pointers_frees die ((m.die die).visitors.filter (fun v => v.2.gid == gid)) m
  exact ⟨h.co, h.gr, h.pa, h.th, h.me⟩

/-- Where no visitor context runs a thread of the group, nothing is written. -/
theorem leaveHeadland_none {m : Mach} {die gid : Nat} (h : ∀ v ∈ (m.die die).visitors, v.2.gid ≠ gid) :
    (leaveHeadland m die gid).mem = m.mem ∧ (leaveHeadland m die gid).threads = m.threads := by
  have : (m.die die).visitors.filter (fun v => v.2.gid == gid) = [] := by
    rw [List.filter_eq_nil_iff]
    intro v hv; simpa using h v hv
  unfold leaveHeadland
  rw [this]
  exact ⟨rfl, rfl⟩

/-- Two machines with the same memory, threads and cores. -/
def Alike (m z : Mach) : Prop := z.mem = m.mem ∧ z.threads = m.threads ∧ z.cores = m.cores

theorem Alike.trans {a b c : Mach} (h : Alike a b) (k : Alike b c) : Alike a c := ⟨k.1.trans h.1, k.2.1.trans h.2.1, k.2.2.trans h.2.2⟩

theorem alike_keeps (l : List Group) : ∀ m : Mach, Alike m (l.foldl (fun m h => m.updGroup h.gid (fun h => { h with keeps := false })) m) := by
  induction l with
  | nil => intro m; exact ⟨rfl, rfl, rfl⟩
  | cons x l ih => intro m; exact Alike.trans ⟨rfl, rfl, rfl⟩ (ih _)

theorem keeps_stat (gid : Nat) (l : List Group) : ∀ m : Mach, (∀ h, m.group? gid = some h → h.stat = .exited) →
    ∀ h, (l.foldl (fun m h => m.updGroup h.gid (fun h => { h with keeps := false })) m).group? gid = some h → h.stat = .exited := by
  induction l with
  | nil => intro m h; exact h
  | cons x l ih =>
    intro m h
    rw [List.foldl_cons]
    apply ih
    intro y hy
    rw [Mach.group?_updGroup m x.gid (fun h => { h with keeps := false }) (fun _ => rfl)] at hy
    rcases hg : m.group? gid with _ | z
    · rw [hg] at hy; simp at hy
    · rw [hg] at hy
      simp only [Option.map_some, Option.some.injEq] at hy
      subst hy
      split
      · exact h z hg
      · exact h z hg

/-- The end of a group after its threads have left: its state, its set's scratchpad, and its kernel. -/
def groupOver (z m : Mach) (g : Group) : Mach :=
  let m := z.updGroup g.gid (fun h => { h with stat := .exited, keeps := g.onCore && decide (1 < (m.recOf g.gid).setSize) })
  let m : Mach := if (setOf m g).all (fun h => h.stat == .exited || h.stat == .faulted) then
      (setOf m g).foldl (fun m h => m.updGroup h.gid (fun h => { h with keeps := false })) m
    else m
  closeIfDone (wakeKernel m g.kid) g.kid

theorem groupOver_form (z m : Mach) (g : Group) : (groupOver z m g).mem = z.mem ∧ (groupOver z m g).threads = z.threads ∧
    (groupOver z m g).cores = z.cores ∧ ∀ h, (groupOver z m g).group? g.gid = some h → h.stat = .exited := by
  unfold groupOver closeIfDone wakeKernel
  dsimp only
  generalize hm2 : Mach.updGroup z g.gid _ = m2
  have h2 : Alike z m2 := by rw [← hm2]; exact ⟨rfl, rfl, rfl⟩
  have h3 : ∀ h, m2.group? g.gid = some h → h.stat = .exited := by
    intro h hh
    rw [← hm2] at hh
    rw [Mach.group?_updGroup _ g.gid (fun y => { y with stat := .exited, keeps := g.onCore && decide (1 < (m.recOf g.gid).setSize) }) (fun _ => rfl)] at hh
    generalize ho : Mach.group? _ g.gid = o at hh
    rcases o with _ | y
    · simp at hh
    · simp only [Option.map_some, Option.some.injEq] at hh
      have hz : (y.gid == g.gid) = true := List.find?_some (p := fun x : Group => x.gid == g.gid) ho
      rw [if_pos hz] at hh
      rw [← hh]
  clear hm2
  have h4 : ∀ (c : Prop) [Decidable c], ∃ m3, (if c then (setOf m2 g).foldl (fun m h => m.updGroup h.gid (fun h => { h with keeps := false })) m2 else m2) = m3 ∧
      Alike m2 m3 ∧ ∀ h, m3.group? g.gid = some h → h.stat = .exited := by
    intro c hc
    split
    · exact ⟨_, rfl, alike_keeps _ _, keeps_stat _ _ _ h3⟩
    · exact ⟨_, rfl, ⟨rfl, rfl, rfl⟩, h3⟩
  obtain ⟨m3, e3, h4⟩ := h4 (((setOf m2 g).all (fun h => h.stat == .exited || h.stat == .faulted)) = true)
  rw [e3]
  obtain ⟨a, b, d⟩ := h2.trans h4.1
  have key : ∀ n : Mach, n.mem = m3.mem → n.threads = m3.threads → n.cores = m3.cores → n.groups = m3.groups →
      n.mem = z.mem ∧ n.threads = z.threads ∧ n.cores = z.cores ∧ ∀ h, n.group? g.gid = some h → h.stat = .exited := by
    intro n n1 n2 n3 n4
    refine ⟨n1.trans a, n2.trans b, n3.trans d, fun h hh => h4.2 h ?_⟩
    unfold Mach.group? at hh ⊢
    rw [← n4]; exact hh
  repeat' split
  all_goals exact key _ rfl rfl rfl rfl

/-- What a group's end leaves: the threads and memory of `z`, its own threads gone, its core's own state free, and the group
exited. -/
theorem endGroup_form (m : Mach) (g : Group) : ∃ z : Mach,
    z = leaveHeadland { (m.updCore g.core (fun k => leaveCk (k.without g.gid) g.gid)).updKernel g.kid (fun k => { k with
        endedG := g.gix :: k.endedG
        recent := if g.stat != .faulted && g.stat != .saved then lput k.recent g.die ((residentNs m g :: (lget k.recent g.die).getD []).take 64)
          else k.recent }) with threads := m.threads.filter (fun t => t.gid != g.gid) } g.die g.gid ∧
    (endGroup m g).mem = z.mem ∧ (endGroup m g).threads = z.threads ∧ (endGroup m g).cores = z.cores ∧
    (∀ h, (endGroup m g).group? g.gid = some h → h.stat = .exited) :=
  ⟨_, rfl, groupOver_form _ m g⟩

theorem away_iff (t : Thread) : t.stat.away = true ↔ t.stat = .transit ∨ ∃ p, t.stat = .parked p := by
  unfold TStat.away
  rcases t.stat <;> simp

theorem drain_iff (m : Mach) (g : Group) : mayDrain m g = true ↔ 90 ≤ progress m g ∧ ∀ t ∈ m.threads, t.gid = g.gid → t.stat ≠ .transit ∧ ∀ p, t.stat ≠ .parked p := by
  unfold mayDrain liveThreads
  simp only [Bool.and_eq_true, decide_eq_true_eq, Bool.not_eq_true', List.any_eq_false, List.mem_filter, and_congr_right_iff, beq_iff_eq, bne_iff_ne, ne_eq, and_imp]
  intro _
  constructor
  · intro h t ht hg
    by_cases he : t.stat = .exited
    · rw [he]; simp
    · have := h t ht hg he
      rw [away_iff] at this
      push Not at this
      exact this
  · intro h t ht hg he
    rw [away_iff]
    push Not
    exact h t ht hg

theorem find_upd (gid : Nat) (f : Group → Group) (hf : ∀ g, (f g).gid = g.gid) (m : Mach) (h : Group)
    (hh : (m.updGroup gid f).group? gid = some h) : ∃ g, m.group? gid = some g ∧ h = f g := by
  rw [Mach.group?_updGroup m gid f hf] at hh
  rcases hg : m.group? gid with _ | z
  · rw [hg] at hh; simp at hh
  · rw [hg] at hh
    have hz : (z.gid == gid) = true := List.find?_some (p := fun x : Group => x.gid == gid) hg
    simp only [Option.map_some, Option.some.injEq] at hh
    rw [if_pos hz] at hh
    exact ⟨z, rfl, hh.symm⟩

theorem lget_due (c : Nat) (F : Nat × Core → Nat × Core) (hF : ∀ e, (F e).1 = e.1 ∧ (F e).2.due = e.2.due) (l : List (Nat × Core)) :
    ((lget (l.map F) c).getD {}).due = ((lget l c).getD {}).due := by
  induction l with
  | nil => rfl
  | cons y l ih =>
    obtain ⟨h1, h2⟩ := hF y
    rw [List.map_cons]
    generalize hz : F y = z at *
    obtain ⟨i, v⟩ := z
    obtain ⟨j, w⟩ := y
    dsimp only at h1 h2
    subst h1
    simp only [lget]
    split
    · exact h2
    · exact ih

theorem meant_due (m : Mach) (gids : List Nat) (c : Nat) : ((markMeant m gids).core c).due = (m.core c).due := by
  unfold markMeant Mach.core
  dsimp only
  rw [lget_due]
  intro e; exact ⟨rfl, rfl⟩

theorem due_mem (m : Mach) (c cause : Nat) : cause ∈ ((addDue m c cause).core c).due := by
  unfold addDue
  rw [Mach.core_updCore_self]
  dsimp only
  split
  · next h => simpa using h
  · simp

theorem find_only {α : Type} {l : List α} {t : α} {f : α → Bool} (ht : t ∈ l) (h : ∀ u ∈ l, f u = true → u = t) :
    l.find? f = if f t then some t else none := by
  split
  · next hf =>
    rcases hx : l.find? f with _ | u
    · exact absurd hf (List.find?_eq_none.1 hx t ht)
    · rw [h u (List.mem_of_find?_eq_some hx) (List.find?_some hx)]
  · next hf =>
    rw [List.find?_eq_none]
    intro u hu hfu
    rw [h u hu hfu] at hfu
    exact hf hfu

theorem frec_layout (f : FRec) (h1 : f.kind < 2 ^ 16) (h2 : f.cause < 2 ^ 16) (h3 : f.access < 2 ^ 8) (h4 : f.flags < 2 ^ 8) (h5 : f.asid < 2 ^ 16)
    (h6 : f.addr < 2 ^ 64) (h7 : f.clause < 2 ^ 64) (h8 : f.place < 2 ^ 32) (h9 : f.timeline < 2 ^ 32) : f.bytes.length = 32 ∧ fieldAt f.bytes 0 2 = f.kind ∧
    fieldAt f.bytes 2 2 = f.cause ∧ fieldAt f.bytes 4 1 = f.access ∧ fieldAt f.bytes 5 1 = f.flags ∧
    fieldAt f.bytes 6 2 = f.asid ∧ fieldAt f.bytes 8 8 = f.addr ∧ fieldAt f.bytes 16 8 = f.clause ∧
    fieldAt f.bytes 24 4 = f.place ∧ fieldAt f.bytes 28 4 = f.timeline := by
  unfold FRec.bytes
  simp only [fieldAt_app_left, fieldAt_app_right, length_natBytes, List.length_append, fieldAt_nat, Nat.reduceAdd, Nat.reduceLeDiff, Nat.reduceSub, Nat.le_refl]
  simp only [Nat.reducePow] at *
  refine ⟨trivial, ?_, ?_, ?_, ?_, ?_, ?_, ?_, ?_, ?_⟩ <;> omega

theorem lowest_iff (lo n k : Nat) (used : List Nat) : lowestFree lo n used = some k ↔
    lo ≤ k ∧ k < lo + n ∧ k ∉ used ∧ ∀ i, lo ≤ i → i < k → i ∈ used := by
  unfold lowestFree
  rw [List.find?_eq_some_iff_getElem]
  constructor
  · rintro ⟨h1, i, hi, he, h2⟩
    simp only [List.length_map, List.length_range] at hi
    simp only [List.getElem_map, List.getElem_range] at he h2
    subst he
    refine ⟨by omega, by omega, by simpa using h1, fun j hj hk => ?_⟩
    have := h2 (j - lo) (by omega)
    rw [show lo + (j - lo) = j by omega] at this
    simpa using this
  · rintro ⟨h1, h2, h3, h4⟩
    refine ⟨by simpa using h3, k - lo, by simp; omega, by simp; omega, fun j hj => ?_⟩
    simp only [List.getElem_map, List.getElem_range]
    have := h4 (lo + j) (by omega) (by omega)
    simpa using this

theorem status_len (k : Kernel) : ((List.range 4).flatMap (fun d => natBytes 4 (k.rc.ranges.getD d (0, 0)).1 ++ natBytes 4 (k.rc.ranges.getD d (0, 0)).2)).length = 32 := by
  simp [List.range_succ, length_natBytes]

theorem status_layout (m : Mach) (q : Queue) (x : Ctx) (k : Kernel) (h0 : m.ctx? q.cid = some x) (h1 : x.num < 2 ^ 16) (h2 : q.num < 2 ^ 16) (h3 : q.gen < 2 ^ 32)
    (h4 : q.kids.length < 2 ^ 32) (h5 : q.seq < 2 ^ 64) (h6 : k.seq < 2 ^ 64) (h7 : q.session.getD 0 < 2 ^ 16) (h8 : q.kids.head?.bind m.kernel? = some k)
    (h9 : ∀ d, (k.rc.ranges.getD d (0, 0)).1 < 2 ^ 32 ∧ (k.rc.ranges.getD d (0, 0)).2 < 2 ^ 32) (b : List Byte) (hb : b = statusBytes m q) :
    b.length = 64 ∧ fieldAt b 0 4 = x.num * 2 ^ 16 + q.num ∧ fieldAt b 4 4 = q.gen ∧ fieldAt b 9 1 = q.dropLate.toNat ∧
    fieldAt b 8 1 = (match q.stat with | .active => (if q.holdTill.isSome then 1 else 0) | .destroyed => 3 | _ => 2) ∧
    fieldAt b 10 2 = q.session.getD 0 ∧ fieldAt b 12 4 = q.kids.length ∧ fieldAt b 16 8 = q.seq - 1 ∧ fieldAt b 24 8 = k.seq ∧
    ∀ d, d < 4 → fieldAt b (32 + 8 * d) 4 = (k.rc.ranges.getD d (0, 0)).1 ∧ fieldAt b (36 + 8 * d) 4 = (k.rc.ranges.getD d (0, 0)).2 := by
  unfold statusBytes at hb
  simp only [h0, h8] at hb
  simp only [List.range_succ, List.range_zero, List.nil_append, List.cons_append, List.flatMap_cons, List.flatMap_nil, List.append_nil] at hb
  have hq : q.shown = (match q.stat with | .active => (if q.holdTill.isSome then 1 else 0) | .destroyed => 3 | _ => 2) := by
    unfold Queue.shown; cases q.stat <;> rfl
  have hq2 : q.shown < 256 := by unfold Queue.shown; split <;> (try split) <;> omega
  have hd : q.dropLate.toNat < 256 := by cases q.dropLate <;> decide
  rw [← hq]
  have r0 := h9 0; have r1 := h9 1; have r2 := h9 2; have r3 := h9 3
  have hs : ∀ (l : List Byte) (P : Nat → Nat × Nat → Prop), (∀ d, d < 4 → P d (k.rc.ranges.getD d (0, 0))) ↔
      P 0 (k.rc.ranges.getD 0 (0, 0)) ∧ P 1 (k.rc.ranges.getD 1 (0, 0)) ∧ P 2 (k.rc.ranges.getD 2 (0, 0)) ∧ P 3 (k.rc.ranges.getD 3 (0, 0)) := by
    intro l P
    constructor
    · intro h; exact ⟨h 0 (by omega), h 1 (by omega), h 2 (by omega), h 3 (by omega)⟩
    · rintro ⟨a, b, c, e⟩ d hd
      interval_cases d <;> assumption
  rw [hs b (fun d v => fieldAt b (32 + 8 * d) 4 = v.1 ∧ fieldAt b (36 + 8 * d) 4 = v.2)]
  subst hb
  generalize k.rc.ranges.getD 0 (0, 0) = v0 at *
  generalize k.rc.ranges.getD 1 (0, 0) = v1 at *
  generalize k.rc.ranges.getD 2 (0, 0) = v2 at *
  generalize k.rc.ranges.getD 3 (0, 0) = v3 at *
  simp only [fieldAt_app_left, fieldAt_app_right, length_natBytes, List.length_append, fieldAt_nat, Nat.reduceMul, Nat.reduceAdd, Nat.reduceLeDiff, Nat.reduceSub, Nat.le_refl]
  simp only [Nat.reducePow] at *
  refine ⟨trivial, ?_, ?_, ?_, ?_, ?_, ?_, ?_, ?_, ⟨?_, ?_⟩, ⟨?_, ?_⟩, ⟨?_, ?_⟩, ⟨?_, ?_⟩⟩ <;> omega

theorem lo_mkD (a b : Word) : loW (mkD a b) = a := by
  apply BitVec.eq_of_getLsbD_eq; intro i hi
  simp only [mkD, loW, BitVec.getLsbD_append, BitVec.truncate_eq_setWidth, BitVec.getLsbD_setWidth]
  simp [hi]

theorem hi_mkD (a b : Word) : hiW (mkD a b) = b := by
  apply BitVec.eq_of_getLsbD_eq; intro i hi
  simp only [mkD, hiW, BitVec.getLsbD_append, BitVec.truncate_eq_setWidth, BitVec.getLsbD_setWidth, BitVec.getLsbD_ushiftRight]
  simp [hi]

theorem lget_key {β : Type} : ∀ {l : List (Nat × β)} {i : Nat} {v : β}, lget l i = some v → (i, v) ∈ l
  | (j, w) :: l, i, v, h => by
    unfold lget at h
    split at h
    · next hj => cases h; subst hj; simp
    · exact List.mem_cons_of_mem _ (lget_key h)

theorem side_get (t : Thread) (n base i : Nat) (hi : i < 32) : (lget (sideOf t n base) i).getD 0 = (if base + 2 * i + 1 < n then t.rdD (base + 2 * i) else 0) := by
  unfold sideOf carries
  have h : ∀ (f : Nat → Option DWord) (l : List Nat), lget (l.filterMap (fun i => (f i).map (fun v => (i, v)))) i = if i ∈ l then f i else none := by
    intro f l
    induction l with
    | nil => rfl
    | cons a l ih =>
      rw [List.filterMap_cons]
      by_cases ha : a = i
      · subst ha
        rcases hf : f a with _ | v
        · simp only [Option.map_none, ih]
          simp [hf]
        · simp only [Option.map_some, lget, if_true]
          simp
      · have : (i ∈ a :: l) ↔ i ∈ l := by simp [Ne.symm ha]
        rcases hf : f a with _ | v
        · simp only [Option.map_none, ih, this]
        · simp only [Option.map_some, lget, ha, if_false, ih, this]
  have e : (List.range 32).filterMap (fun i =>
      let v := t.rdD (base + 2 * i)
      if (decide (base + 2 * i + 1 < n) && v != 0) = true then some (i, v) else none) =
      (List.range 32).filterMap (fun i => ((if (decide (base + 2 * i + 1 < n) && t.rdD (base + 2 * i) != 0) = true then some (t.rdD (base + 2 * i)) else none).map (fun v => (i, v)))) := by
    congr 1; funext i; dsimp only; split <;> rfl
  rw [e, h (fun i => if (decide (base + 2 * i + 1 < n) && t.rdD (base + 2 * i) != 0) = true then some (t.rdD (base + 2 * i)) else none)]
  rw [if_pos (by simpa using hi)]
  by_cases h1 : base + 2 * i + 1 < n
  · by_cases h2 : t.rdD (base + 2 * i) = 0
    · simp [h1, h2]
    · have h3 : (t.rdD (base + 2 * i) != 0) = true := by simpa using h2
      simp only [h1, decide_true, h3, Bool.and_self, if_true, Option.getD_some]
  · simp only [decide_eq_false h1, Bool.false_and, Bool.false_eq_true, if_false, if_neg h1]
    rfl

theorem put_side (n base : Nat) : ∀ (l : List (Nat × DWord)) (t : Thread), (∀ e ∈ l, 2 ≤ base + 2 * e.1) → l.Pairwise (fun a b => a.1 ≠ b.1) →
    (putSide t n base l) = { t with w := (putSide t n base l).w } ∧
    (∀ k, k < base → (putSide t n base l).rd k = t.rd k) ∧ (∀ k, base + 64 ≤ k → (putSide t n base l).rd k = t.rd k) ∧
    ∀ i, i < 32 → (putSide t n base l).rdD (base + 2 * i) = (if base + 2 * i + 1 < n then (lget l i).getD (t.rdD (base + 2 * i)) else t.rdD (base + 2 * i)) := by
  intro l
  induction l with
  | nil => intro t _ _; simp [putSide, lget]
  | cons e l ih =>
    intro t h hp
    rw [List.pairwise_cons] at hp
    have e0 : putSide t n base (e :: l) = putSide (if e.1 < 32 ∧ carries n (base + 2 * e.1) then t.wrD (base + 2 * e.1) e.2 else t) n base l := rfl
    obtain ⟨i1, i2, i3, i4⟩ := ih (if e.1 < 32 ∧ carries n (base + 2 * e.1) then t.wrD (base + 2 * e.1) e.2 else t) (fun x hx => h x (by simp [hx])) hp.2
    have h0 := h e (by simp)
    rw [e0]
    refine ⟨?_, fun k hk => ?_, fun k hk => ?_, fun i hi => ?_⟩
    · rw [i1]; split <;> rfl
    · rw [i2 k hk]; split
      · rw [Thread.rd_wrD_ne _ (by omega) (by omega)]
      · rfl
    · rw [i3 k hk]; split
      · next h5 => rw [Thread.rd_wrD_ne _ (by omega) (by omega)]
      · rfl
    · rw [i4 i hi]
      obtain ⟨a, v⟩ := e
      simp only [lget, carries, decide_eq_true_eq] at *
      by_cases ha : a = i
      · subst ha
        have : lget l a = none := by
          rcases hl : lget l a with _ | w
          · rfl
          · exact absurd rfl (hp.1 _ (lget_key hl))
        rw [this]
        by_cases hc : base + 2 * a + 1 < n
        · simp only [hi, hc, and_self, if_true, Option.getD_none, Option.getD_some]
          exact Thread.rdD_wrD_self _ h0 _
        · simp only [hc, and_false, if_false]
      · simp only [ha, if_false]
        have : (if a < 32 ∧ base + 2 * a + 1 < n then t.wrD (base + 2 * a) v else t).rdD (base + 2 * i) = t.rdD (base + 2 * i) := by
          split
          · rw [rdD_other _ (by omega)]
          · rfl
        rw [this]

theorem side_ok (t : Thread) (n base : Nat) (hbase : base % 2 = 0) : (∀ e ∈ sideOf t n base, 2 ≤ base + 2 * e.1) ∧ (sideOf t n base).Pairwise (fun a b => a.1 ≠ b.1) := by
  unfold sideOf
  constructor
  · intro e he
    rw [List.mem_filterMap] at he
    obtain ⟨i, _, h⟩ := he
    dsimp only at h
    split at h
    · next hc =>
      cases h
      simp only [Bool.and_eq_true, bne_iff_ne, ne_eq] at hc
      by_contra hx
      have hb : base + 2 * i = 0 := by
        dsimp only at hx
        omega
      apply hc.2
      rw [hb]
      have h0 : t.rd 0 = 0 := Thread.rd_low t (by decide)
      have h1 : t.rd 1 = 0 := Thread.rd_low t (by decide)
      unfold Thread.rdD
      rw [h0, h1]
      rfl
    · cases h
  · apply List.Pairwise.filterMap (R := fun a b => a ≠ b)
    · intro a b hab x hx y hy
      dsimp only at hx hy
      split at hx <;> split at hy <;> simp at hx hy
      rw [← hx, ← hy]; exact hab
    · exact List.nodup_range

theorem image_regs (t u : Thread) (n : Nat) : (∀ i, (withImage u n (imageOf t n)).rd i = if i < 128 ∧ i / 2 * 2 + 1 < n then t.rd i else 0) ∧
    (withImage u n (imageOf t n)).pr = 0 ∧ (withImage u n (imageOf t n)).fstat = t.fstat &&& 31 ∧
    withImage u n (imageOf t n) = { u with w := (withImage u n (imageOf t n)).w, pr := (withImage u n (imageOf t n)).pr, fstat := (withImage u n (imageOf t n)).fstat } := by
  unfold withImage
  have ex : (imageOf t n).x = sideOf t n 0 := rfl
  have ef : (imageOf t n).f = sideOf t n 64 := rfl
  have ff : BitVec.ofNat 32 ((imageOf t n).fflags % 32) = t.fstat &&& 31 := by
    show BitVec.ofNat 32 (t.fstat.toNat % 32 % 32) = _
    apply BitVec.eq_of_toNat_eq
    have := t.fstat.isLt
    rw [BitVec.toNat_ofNat, BitVec.toNat_and]
    have e : BitVec.toNat (31 : BitVec 32) = 2 ^ 5 - 1 := rfl
    rw [e, Nat.and_two_pow_sub_one_eq_mod]
    omega
  rw [ex, ef, ff]
  generalize hz : ({ u with w := [], pr := 0, fstat := t.fstat &&& 31 } : Thread) = z
  obtain ⟨a1, a2, a3, a4⟩ := put_side n 0 (sideOf t n 0) z (side_ok t n 0 (by decide)).1 (side_ok t n 0 (by decide)).2
  obtain ⟨b1, b2, b3, b4⟩ := put_side n 64 (sideOf t n 64) (putSide z n 0 (sideOf t n 0)) (side_ok t n 64 (by decide)).1 (side_ok t n 64 (by decide)).2
  have z0 : ∀ k, z.rd k = 0 := by
    intro k; rw [← hz]; unfold Thread.rd rget lget; split <;> rfl
  have z0D : ∀ k, z.rdD k = 0 := by
    intro k; unfold Thread.rdD; rw [z0, z0]; rfl
  refine ⟨?_, ?_, ?_, ?_⟩
  · have hpair : ∀ v : Thread, ∀ p : Nat, v.rdD p = (if p + 1 < n then t.rdD p else 0) → ∀ i, i / 2 * 2 = p → p % 2 = 0 →
        v.rd i = if i / 2 * 2 + 1 < n then t.rd i else 0 := by
      intro v p hv i hi hp
      have h2 : i = p ∨ i = p + 1 := by omega
      rw [hi]
      have l1 : v.rd p = loW (v.rdD p) := by unfold Thread.rdD; rw [lo_mkD]
      have l2 : v.rd (p + 1) = hiW (v.rdD p) := by unfold Thread.rdD; rw [hi_mkD]
      have k1 : t.rd p = loW (t.rdD p) := by unfold Thread.rdD; rw [lo_mkD]
      have k2 : t.rd (p + 1) = hiW (t.rdD p) := by unfold Thread.rdD; rw [hi_mkD]
      rcases h2 with rfl | rfl
      · rw [l1, hv]; split
        · exact k1.symm
        · rfl
      · rw [l2, hv]; split
        · exact k2.symm
        · rfl
    intro i
    by_cases h1 : i < 64
    · rw [b2 i h1]
      have := a4 (i / 2) (by omega)
      simp only [Nat.zero_add, z0D] at this
      have hs := side_get t n 0 (i / 2) (by omega)
      simp only [Nat.zero_add] at hs
      rw [hs] at this
      rw [hpair _ (2 * (i / 2)) (by rw [this]; split <;> rfl) i (by omega) (by omega)]
      simp [show i < 128 by omega]
    · by_cases h2 : i < 128
      · have := b4 (i / 2 - 32) (by omega)
        have hs := side_get t n 64 (i / 2 - 32) (by omega)
        have hz1 : (putSide z n 0 (sideOf t n 0)).rdD (64 + 2 * (i / 2 - 32)) = 0 := by
          unfold Thread.rdD
          rw [a3 _ (by omega), a3 _ (by omega), z0, z0]; rfl
        rw [hz1, hs] at this
        rw [hpair _ (64 + 2 * (i / 2 - 32)) (by rw [this]; split <;> rfl) i (by omega) (by omega)]
        simp [h2]
      · rw [b3 i (by omega), a3 i (by omega), z0]
        simp [h2]
  · rw [b1, a1, ← hz]
  · rw [b1, a1, ← hz]
  · obtain ⟨w1, hw1⟩ : ∃ w, putSide (putSide z n 0 (sideOf t n 0)) n 64 (sideOf t n 64) = { z with w := w } := ⟨_, by rw [b1, a1]⟩
    rw [hw1, ← hz]

theorem field_table (f : Nat → DWord) (rest : List Byte) : ∀ (n k i : Nat), i < n →
    fieldAt ((List.range' k n).flatMap (fun i => natBytes 8 (f i).toNat) ++ rest) (8 * i) 8 = (f (k + i)).toNat := by
  intro n
  induction n with
  | zero => intro k i h; omega
  | succ n ih =>
    intro k i h
    rw [List.range'_succ, List.flatMap_cons, List.append_assoc]
    rcases i with _ | i
    · rw [fieldAt_app_left _ _ _ _ (by rw [length_natBytes]), Nat.mul_zero, fieldAt_nat]
      have := (f k).isLt
      rw [Nat.add_zero]; exact Nat.mod_eq_of_lt this
    · rw [fieldAt_app_right _ _ _ _ (by rw [length_natBytes]; omega), length_natBytes]
      have := ih (k + 1) i (by omega)
      rw [show 8 * (i + 1) - 8 = 8 * i by omega, this]
      congr 2; omega

theorem field_range (f : Nat → DWord) (rest : List Byte) (n i : Nat) (h : i < n) :
    fieldAt ((List.range n).flatMap (fun i => natBytes 8 (f i).toNat) ++ rest) (8 * i) 8 = (f i).toNat := by
  rw [List.range_eq_range', field_table f rest n 0 i h, Nat.zero_add]

theorem range_len (f : Nat → Nat) (n : Nat) : ((List.range n).flatMap (fun i => natBytes 8 (f i))).length = 8 * n := by
  induction n with
  | zero => rfl
  | succ n ih => rw [List.range_succ, List.flatMap_append, List.length_append, ih]; simp [length_natBytes]; omega

theorem record_layout (m : Mach) (t : Thread) (g : Image) (pc st : Nat) (x : Group) (c : Ctx) (b : List Byte) (h1 : m.group? t.gid = some x)
    (h2 : m.ctxOf t.gid = some c) (h3 : cidOf m t.gid = c.cid) (h4 : m.ctx? c.cid = some c) (hb : b = recordBytes m t g pc st)
    (k1 : pc < 2 ^ 64) (k2 : t.gen < 2 ^ 16) (k3 : t.slot < 2 ^ 11) (k4 : m.dieOf t.gid < 4) (k5 : x.width < 2 ^ 32) (k6 : st < 4)
    (k7 : (m.recOf t.gid).regs < 2 ^ 16) : b.length = 1024 ∧
    fieldAt b 0 8 = pc ∧ fieldAt b 8 8 = t.hsp.toNat ∧ fieldAt b 0x10 2 = c.satp.toNat / 2 ^ 44 % 2 ^ 16 ∧ fieldAt b 0x12 2 = t.gen ∧
    fieldAt b 0x14 4 = t.slot + m.coreOf t.gid % 64 * 2 ^ 11 + m.dieOf t.gid * 2 ^ 17 ∧ fieldAt b 0x18 4 = x.width ∧
    fieldAt b 0x1C 1 = st ∧ fieldAt b 0x1D 1 = c.secure.toNat + (if 65 < (m.recOf t.gid).regs then 2 else 0) ∧
    fieldAt b 0x1E 2 = (m.recOf t.gid).regs ∧ fieldAt b 0x20 8 = g.fflags % 32 + g.frm % 8 * 32 ∧ fieldAt b 0x28 24 = 0 ∧
    (∀ i, i < 32 → fieldAt b (0x40 + 8 * i) 8 = (xreg g i).toNat ∧ fieldAt b (0x140 + 8 * i) 8 = ((lget g.f i).getD 0).toNat) := by
  unfold recordBytes at hb
  simp only [h1, h2, h3, asidOf, h4, pte] at hb
  have hh := t.hsp.isLt
  have hw : c.secure.toNat + 2 * (carries (m.recOf t.gid).regs 64).toNat = c.secure.toNat + (if 65 < (m.recOf t.gid).regs then 2 else 0) := by
    unfold carries
    by_cases h : 65 < (m.recOf t.gid).regs
    · rw [decide_eq_true h, if_pos h]; rfl
    · rw [decide_eq_false h, if_neg h]; rfl
  have hl : c.secure.toNat < 2 := by cases c.secure <;> decide
  rw [hw] at hb
  have hlen : (if 65 < (m.recOf t.gid).regs then 2 else 0) ≤ 2 := by split <;> omega
  generalize (if 65 < (m.recOf t.gid).regs then 2 else 0) = w at *
  generalize c.secure.toNat = sec at *
  generalize m.dieOf t.gid = die at *
  generalize m.coreOf t.gid = core at *
  generalize (m.recOf t.gid).regs = regs at *
  generalize hX : (List.range 32).flatMap (fun i => natBytes 8 (xreg g i).toNat) = X at hb
  generalize hF : (List.range 32).flatMap (fun i => natBytes 8 ((lget g.f i).getD 0).toNat) = F at hb
  have lX : X.length = 256 := by rw [← hX, range_len]
  have lF : F.length = 256 := by rw [← hF, range_len]
  refine ⟨?_, ?_, ?_, ?_, ?_, ?_, ?_, ?_, ?_, ?_, ?_, ?_, ?_⟩
  · rw [hb]; simp only [List.length_append, length_natBytes, lX, lF]
  on_goal 12 =>
    intro i hi
    have q1 : fieldAt b (0x40 + 8 * i) 8 = fieldAt (X ++ []) (8 * i) 8 := by
      rw [hb, List.append_nil, fieldAt_app_left _ _ _ _ (by simp only [List.length_append, length_natBytes, lX, lF]; omega),
        fieldAt_app_left _ _ _ _ (by simp only [List.length_append, length_natBytes, lX, lF]; omega),
        fieldAt_app_right _ _ _ _ (by simp only [List.length_append, length_natBytes]; omega)]
      simp only [List.length_append, length_natBytes]
      congr 1; omega
    have q2 : fieldAt b (0x140 + 8 * i) 8 = fieldAt (F ++ []) (8 * i) 8 := by
      rw [hb, List.append_nil, fieldAt_app_left _ _ _ _ (by simp only [List.length_append, length_natBytes, lX, lF]; omega),
        fieldAt_app_right _ _ _ _ (by simp only [List.length_append, length_natBytes, lX, lF]; omega)]
      exact congrArg (fun z => fieldAt F z 8) (by simp only [List.length_append, length_natBytes, lX]; omega)
    have r1 := field_range (fun i => xreg g i) [] 32 i hi
    have r2 := field_range (fun i => (lget g.f i).getD 0) [] 32 i hi
    rw [hX] at r1
    rw [hF] at r2
    exact ⟨q1.trans r1, q2.trans r2⟩
  all_goals
    rw [hb]
    simp only [fieldAt_app_left, fieldAt_app_right, length_natBytes, List.length_append, lX, lF, fieldAt_nat, Nat.reduceAdd, Nat.reduceLeDiff, Nat.reduceSub, Nat.le_refl]
    first
    | (simp only [Nat.reducePow, Nat.zero_mod] at *; done)
    | (simp only [Nat.reducePow] at *; omega)

theorem homePush_cores (m : Mach) (l : Line) : (homePush m l).cores = m.cores := (still_homePush m l).co

theorem foldl_cores {β : Type} (f : Mach → β → Mach) (h : ∀ m b, (f m b).cores = m.cores) : ∀ (l : List β) (m : Mach), (l.foldl f m).cores = m.cores
  | [], _ => rfl
  | b :: l, m => (foldl_cores f h l _).trans (h m b)

theorem clusterLine_cores (m : Mach) (cl pa grain cls : Nat) (w : Bool) : (clusterLine m cl pa grain cls w).1.cores = m.cores := by
  unfold clusterLine
  refine foldl_cores _ ?_ _ _
  intro m b
  unfold clusterSector
  split
  · rfl
  · show (clusterRoom m cl b).cores = _
    unfold clusterRoom
    split
    · unfold clusterOut
      exact foldl_cores homePush homePush_cores _ _
    · rfl

theorem pushToCluster_cores (m : Mach) (cl : Nat) (l : Line) : (pushToCluster m cl l).cores = m.cores := by
  unfold pushToCluster
  split
  · rfl
  · exact clusterLine_cores m cl l.pa l.grain l.cls l.world

/-- A line map that keeps tags keeps a property of tags. -/
theorem pushLine_tags (m : Mach) (c : Nat) (l : Line) (P : Nat → Nat → Bool) (d : Nat)
    (h : (∀ x ∈ (m.core d).lines, P x.asid x.va = false) ∧ ∀ f ∈ (m.core d).fetched, P f.asid f.hdr = false) :
    (∀ x ∈ ((pushLine m c true l).core d).lines, P x.asid x.va = false) ∧ ∀ f ∈ ((pushLine m c true l).core d).fetched, P f.asid f.hdr = false := by
  have key : ∀ n : Mach, n.cores = ((pushToCluster m (clusterOf c) l).updCore c (fun k => { k with lines := k.lines.map (fun x => if x.pa == l.pa then x.asClean else x) })).cores →
      (∀ x ∈ (n.core d).lines, P x.asid x.va = false) ∧ ∀ f ∈ (n.core d).fetched, P f.asid f.hdr = false := by
    intro n hn
    have e : n.core d = ((pushToCluster m (clusterOf c) l).updCore c (fun k => { k with lines := k.lines.map (fun x => if x.pa == l.pa then x.asClean else x) })).core d := by
      unfold Mach.core; rw [hn]
    have e2 : ∀ q, (pushToCluster m (clusterOf c) l).core q = m.core q := by
      intro q; unfold Mach.core; rw [pushToCluster_cores]
    rw [e]
    by_cases hd : d = c
    · subst hd
      rw [Mach.core_updCore_self, e2]
      refine ⟨?_, h.2⟩
      intro x hx
      dsimp only at hx
      rw [List.mem_map] at hx
      obtain ⟨y, hy, rfl⟩ := hx
      have := h.1 y hy
      split
      · exact this
      · exact this
    · rw [Mach.core_updCore_ne _ _ hd, e2]; exact h
  unfold pushLine
  dsimp only
  rw [if_pos rfl]
  split
  · exact key _ rfl
  · exact key _ (homePush_cores _ _)

theorem foldl_keeps {α β : Type} (Q : α → Prop) (f : α → β → α) (h : ∀ a b, Q a → Q (f a b)) : ∀ (l : List β) (a : α), Q a → Q (l.foldl f a)
  | [], _, ha => ha
  | b :: l, a, ha => foldl_keeps Q f h l (f a b) (h a b ha)

/-- What each step of a fold sets up for its own element, and every step keeps, holds of every element after it. -/
theorem foldl_each {α β : Type} (Q : β → α → Prop) (f : α → β → α) (h1 : ∀ a b, Q b (f a b)) (h2 : ∀ a b c, Q c a → Q c (f a b)) :
    ∀ (l : List β) (a : α), ∀ c ∈ l, Q c (l.foldl f a)
  | b :: l, a, c, hc => by
    rcases List.mem_cons.1 hc with rfl | hc
    · exact foldl_keeps (Q c) f (fun a b => h2 a b c) l _ (h1 a c)
    · exact foldl_each Q f h1 h2 l _ c hc

/-- No line or fetched clause of core `c` has a tag that `P` names. -/
def NoTag (P : Nat → Nat → Bool) (c : Nat) (m : Mach) : Prop :=
  (∀ l ∈ (m.core c).lines, P l.asid l.va = false) ∧ ∀ f ∈ (m.core c).fetched, P f.asid f.hdr = false

theorem noTag_cores {P : Nat → Nat → Bool} {c : Nat} {m n : Mach} (h : n.cores = m.cores) (hm : NoTag P c m) : NoTag P c n := by
  unfold NoTag Mach.core at *; rw [h]; exact hm

theorem noTag_setCluster {P : Nat → Nat → Bool} {c : Nat} {m : Mach} (k : Nat) (l : List Line) (h : NoTag P c m) : NoTag P c (m.setCluster k l) :=
  noTag_cores rfl h

theorem fenceCore_keeps (va asid : Option Nat) (m : Mach) (b c : Nat) (h : NoTag (fenceHits va asid) c m) :
    NoTag (fenceHits va asid) c (fenceCore m va asid b) := by
  unfold fenceCore
  dsimp only
  have h1 : NoTag (fenceHits va asid) c (List.foldl (fun m (l : Line) => if (l.clean || l.cls != 1) = true then m else pushLine m b true l) m
      (List.filter (fun l => fenceHits va asid l.asid l.va) (m.core b).lines)) := by
    refine foldl_keeps _ _ ?_ _ _ h
    intro a l ha
    split
    · exact ha
    · exact pushLine_tags a b l _ c ha
  by_cases hc : c = b
  · subst hc
    unfold NoTag
    rw [Mach.core_updCore_self]
    simp
  · unfold NoTag
    rw [Mach.core_updCore_ne _ _ hc]
    exact h1

theorem fenceCore_own (va asid : Option Nat) (m : Mach) (c : Nat) : NoTag (fenceHits va asid) c (fenceCore m va asid c) := by
  unfold fenceCore NoTag
  dsimp only
  rw [Mach.core_updCore_self]
  simp

theorem fenceCluster_cores (m : Mach) (cl : Nat) : (fenceCluster m cl).cores = m.cores := by
  unfold fenceCluster
  exact (foldl_cores homePush homePush_cores _ _ : _ = _)

theorem asked {s : State} {p : Part} {msg : TMsg} {op sid : Nat} {b : List Byte} (h : Asks s.m p msg op sid b)
    {mine : Nat → List Byte → Bool} {sess : Bool} {fits : List Byte → Bool} {f : Mach → Part → Nat → List Byte → TAns} (hm : mine op b = true) :
    (¬ LengthFits msg b ∨ fits b = false → onRequest s p.pid msg mine sess fits f = replied s p msg s.m 1 sid []) ∧
    (LengthFits msg b → fits b = true →
      (sess = true → (∀ x ∈ p.sessions, x.sid ≠ sid) → onRequest s p.pid msg mine sess fits f = replied s p msg s.m 2 sid []) ∧
      (sess = true → (∃ x ∈ p.sessions, x.sid = sid) → 64 ≤ unanswered s.m p sid → onRequest s p.pid msg mine sess fits f = replied s p msg s.m 4 sid []) ∧
      ((sess = true → (∃ x ∈ p.sessions, x.sid = sid) ∧ unanswered s.m p sid < 64) → onRequest s p.pid msg mine sess fits f =
        replied s p msg (f s.m p sid b).m (f s.m p sid b).st (f s.m p sid b).sid (f s.m p sid b).body)) := by
  obtain ⟨h1, h2, h3, h4, h5, h6, h7, h8, h9, h10, h11, h12⟩ := h
  have k0 : ¬ (msg.vendor ≠ Config.vendorId ∨ msg.payload.length < 16 ∨ 1024 < msg.payload.length ∨ fieldAt msg.payload 0 1 ≠ 1 ∨ fieldAt msg.payload 1 1 ≠ 0 ∨
        (!mine (fieldAt msg.payload 2 1) (msg.payload.drop 16)) = true) := by
    rw [h6, ← h8, hm, h4, h5, h1]; simp; omega
  have hsome : s.m.zyn.recovery.isSome = false := by rw [h9]; rfl
  have k1 : ¬ ((!p.live) = true ∨ p.link ≠ .up) := by rw [h11, h12]; decide
  unfold onRequest LengthFits replied
  simp only [State.onMach]
  rw [if_neg k0, hsome]
  simp only [Bool.false_eq_true, if_false, h10]
  rw [if_neg k1, h7, ← h8]
  refine ⟨fun h => ?_, fun hl hf => ⟨fun hs hx => ?_, fun hs hx hu => ?_, fun h => ?_⟩⟩
  · rw [if_pos]
    rcases h with h | h
    · by_cases h' : fieldAt msg.payload 8 4 % 4 = 0
      · right; left; intro hc; exact h ⟨h', hc⟩
      · left; exact h'
    · right; right; rw [h]; rfl
  all_goals
    rw [if_neg (by
      rintro (h' | h' | h')
      · exact h' hl.1
      · exact h' hl.2
      · rw [hf] at h'; cases h')]
  · rw [if_pos]
    refine ⟨hs, ?_⟩
    simpa using hx
  · rw [if_neg, if_pos ⟨hs, hu⟩]
    rintro ⟨_, h⟩
    obtain ⟨x, hx, he⟩ := hx
    rw [Bool.not_eq_true', List.any_eq_false] at h
    exact h x hx (by simp [he])
  · rw [if_neg, if_neg]
    · rintro ⟨hs, hu⟩; have := (h hs).2; omega
    · rintro ⟨hs, h'⟩
      obtain ⟨x, hx, he⟩ := (h hs).1
      rw [Bool.not_eq_true', List.any_eq_false] at h'
      exact h' x hx (by simp [he])

theorem served {s : State} {p : Part} {msg : TMsg} {op sid : Nat} {b : List Byte} (h : Served s.m p msg op sid b)
    {mine : Nat → List Byte → Bool} {sess : Bool} {fits : List Byte → Bool} {f : Mach → Part → Nat → List Byte → TAns} (hm : mine op b = true)
    {m' : Mach} {st sid' : Nat} {body : List Byte}
    (hf : fits b = true) (ha : f s.m p sid b = ⟨m', st, sid', body⟩) :
    onRequest s p.pid msg mine sess fits f = replied s p msg m' st sid' body := by
  rw [((asked h.toAsks hm).2 h.length hf).2.2 (fun _ => ⟨h.mine, h.room⟩), ha]

theorem reply_layout (op sid st tag : Nat) (msg body : List Byte) (h1 : op < 2 ^ 8) (h2 : st < 2 ^ 8) (h3 : sid < 2 ^ 16) (h4 : fieldAt msg 2 1 = op)
    (h5 : fieldAt msg 6 2 = tag) (h6 : body.length < 2 ^ 32) (r : List Byte) (hr : r = replyBytes msg st sid body) :
    fieldAt r 0 1 = 1 ∧ fieldAt r 1 1 = 1 ∧ fieldAt r 2 1 = op ∧
    fieldAt r 3 1 = st ∧ fieldAt r 4 2 = sid ∧ fieldAt r 6 2 = tag ∧ fieldAt r 8 4 = body.length ∧ fieldAt r 12 4 = 0 ∧ r.drop 16 = body := by
  unfold replyBytes at hr
  rw [h4, h5] at hr
  have ht : tag < 2 ^ 16 := by
    rw [← h5]; unfold fieldAt
    have h := bytesNat_lt ((msg.drop 6).take 2)
    have h1 : ((msg.drop 6).take 2).length ≤ 2 := by simp
    calc _ < 256 ^ ((msg.drop 6).take 2).length := h
      _ ≤ 256 ^ 2 := Nat.pow_le_pow_right (by decide) h1
  refine ⟨?_, ?_, ?_, ?_, ?_, ?_, ?_, ?_, ?_⟩
  on_goal 9 =>
    rw [hr]
    rw [List.drop_append_of_le_length (by simp [length_natBytes])]
    rw [List.drop_of_length_le (by simp [length_natBytes])]
    rfl
  all_goals
    rw [hr]
    simp only [fieldAt_app_left, fieldAt_app_right, length_natBytes, List.length_append, fieldAt_nat, Nat.reduceAdd, Nat.reduceLeDiff, Nat.reduceSub, Nat.le_refl]
    first
    | (simp only [Nat.reducePow, Nat.zero_mod] at *; done)
    | (simp only [Nat.reducePow] at *; omega)

theorem dispose_law (s : State) (p : Part) (msg : TMsg) (sid a i n : Nat) (b : List Byte) (h : Served s.m p msg 7 sid b) (hl : b.length = 12)
    (hi : fieldAt b 0 4 = i) (hn : fieldAt b 4 4 = n) (ha : fieldAt b 8 4 = a) (ha2 : a ≤ 2) (h2n : a = 2 → n = 1) (held : List Quar) (hheld : held = p.quarantine.filter (fun q =>
      decide (i ≤ q.idx) && decide (q.idx < i + n))) :
    (held.length ≠ n → exec (disposeOf a p.pid msg) s = replied s p msg s.m 3 sid (natBytes 4 0)) ∧
    (held.length = n →
      (a = 0 → exec (disposeOf a p.pid msg) s = replied s p msg (held.foldl (fun m q => freeQuar m p q.idx) s.m) 0 sid (natBytes 4 n)) ∧
      (a = 1 → exec (disposeOf a p.pid msg) s = replied s p msg (held.foldl (fun m q => replayQuar m p q) s.m) 0 sid (natBytes 4 n)) ∧
      (a = 2 → exec (disposeOf a p.pid msg) s = replied s p msg s.m 0 sid (natBytes 4 n ++ cread s.m.mem (p.area + 576 * i) 576))) := by
  have hcount : p.quarantine.countP (fun q => decide (i ≤ q.idx) && decide (q.idx < i + n)) = held.length := by
    rw [hheld, List.countP_eq_length_filter]
  have key : ∀ (action : Nat) (f : Mach → Part → Nat → Nat → Mach × List Byte), fieldAt b 8 4 = action → action ≤ 2 → (action = 2 → n = 1) →
      (held.length ≠ n → onDispose s p.pid msg action f = replied s p msg s.m 3 sid (natBytes 4 0)) ∧
      (held.length = n → onDispose s p.pid msg action f = replied s p msg (f s.m p i n).1 0 sid (natBytes 4 n ++ (f s.m p i n).2)) := by
    intro action f h1 h2 h3
    have hf : (fun b : List Byte => b.length == 12 && decide (bodyWord b 2 ≤ 2) && (bodyWord b 2 != 2 || bodyWord b 1 == 1)) b = true := by
      show (b.length == 12 && decide (fieldAt b 8 4 ≤ 2) && (fieldAt b 8 4 != 2 || fieldAt b 4 4 == 1)) = true
      rw [h1, hl, decide_eq_true h2, hn]
      by_cases hc : action = 2
      · rw [h3 hc]; simp
      · simp [hc]
    have hmine : (fun o b => o == 7 && (bodyWord b 2 == action || (action == 0 && decide (2 < bodyWord b 2)))) 7 b = true := by
      show ((7 : Nat) == 7 && (fieldAt b 8 4 == action || _)) = true
      rw [h1]; simp
    unfold onDispose
    refine ⟨fun hc => ?_, fun hc => ?_⟩
    · refine served h hmine hf ?_
      show (if p.quarantine.countP (fun q => decide (fieldAt b 0 4 ≤ q.idx) && decide (q.idx < fieldAt b 0 4 + fieldAt b 4 4)) ≠ fieldAt b 4 4 then _ else _) = _
      rw [hi, hn, hcount, if_pos hc]
    · refine served h hmine hf ?_
      show (if p.quarantine.countP (fun q => decide (fieldAt b 0 4 ≤ q.idx) && decide (q.idx < fieldAt b 0 4 + fieldAt b 4 4)) ≠ fieldAt b 4 4 then _ else _) = _
      rw [hi, hn, hcount, if_neg (by omega)]
      show TAns.mk (f s.m p (fieldAt b 0 4) (fieldAt b 4 4)).1 0 sid (natBytes 4 (fieldAt b 4 4) ++ (f s.m p (fieldAt b 0 4) (fieldAt b 4 4)).2) = _
      rw [hi, hn]
  have hq : quarIn p i n = held := hheld.symm
  refine ⟨fun hc => ?_, fun hc => ⟨fun h0 => ?_, fun h0 => ?_, fun h0 => ?_⟩⟩
  · rcases Nat.lt_or_ge a 1 with ha0 | ha0
    · obtain rfl : a = 0 := by omega
      show execDisposeDiscard p.pid msg s = _
      unfold execDisposeDiscard
      exact (key 0 _ ha (by decide) h2n).1 hc
    · rcases Nat.lt_or_ge a 2 with ha1 | ha1
      · obtain rfl : a = 1 := by omega
        show execDisposeReplay p.pid msg s = _
        unfold execDisposeReplay
        exact (key 1 _ ha (by decide) h2n).1 hc
      · obtain rfl : a = 2 := by omega
        show execDisposeRead p.pid msg s = _
        unfold execDisposeRead
        exact (key 2 _ ha (by decide) h2n).1 hc
  · subst h0
    show execDisposeDiscard p.pid msg s = _
    unfold execDisposeDiscard
    refine ((key 0 _ ha (by decide) h2n).2 hc).trans ?_
    dsimp only
    rw [hq, List.append_nil]
  · subst h0
    show execDisposeReplay p.pid msg s = _
    unfold execDisposeReplay
    refine ((key 1 _ ha (by decide) h2n).2 hc).trans ?_
    dsimp only
    rw [hq, List.append_nil]
  · subst h0
    show execDisposeRead p.pid msg s = _
    unfold execDisposeRead
    exact (key 2 _ ha (by decide) h2n).2 hc

theorem bits_sum : ∀ (f : Nat → Bool) (n : Nat), ((List.range n).map (fun i => if f i = true then 2 ^ i else 0)).sum < 2 ^ n ∧
    ∀ i, i < n → (((List.range n).map (fun i => if f i = true then 2 ^ i else 0)).sum / 2 ^ i % 2 = 1 ↔ f i = true)
  | f, 0 => ⟨by simp, fun i h => absurd h (Nat.not_lt_zero i)⟩
  | f, n + 1 => by
    obtain ⟨h1, h2⟩ := bits_sum f n
    rw [List.range_succ, List.map_append, List.sum_append]
    generalize ((List.range n).map (fun i => if f i = true then 2 ^ i else 0)).sum = z at *
    simp only [List.map_cons, List.map_nil, List.sum_cons, List.sum_nil, Nat.add_zero]
    refine ⟨?_, fun i hi => ?_⟩
    · rw [Nat.pow_succ]; split <;> omega
    · rcases Nat.lt_or_ge i n with hin | hin
      · rw [← h2 i hin]
        have : (z + if f n = true then 2 ^ n else 0) / 2 ^ i % 2 = z / 2 ^ i % 2 := by
          split
          · obtain ⟨k, rfl⟩ : ∃ k, n = i + 1 + k := ⟨n - (i + 1), by omega⟩
            rw [show 2 ^ (i + 1 + k) = 2 ^ i * (2 * 2 ^ k) by rw [Nat.pow_add, Nat.pow_succ]; ring, Nat.add_mul_div_left _ _ (Nat.two_pow_pos i)]
            omega
          · rfl
        rw [this]
      · obtain rfl : i = n := by omega
        split
        · next h => rw [Nat.add_div_right _ (Nat.two_pow_pos i), Nat.div_eq_of_lt h1]; simp [h]
        · next h => rw [Nat.add_zero, Nat.div_eq_of_lt h1]; simp [h]

theorem quar_layout (l : Line) (e : List Byte) (h1 : l.asid < 2 ^ 16) (h2 : l.pa < 2 ^ 64) (h3 : l.data.length = 512) (he : e = quarEntry l) : e.length = 576 ∧
    fieldAt e 0 8 = l.pa ∧ fieldAt e 8 2 = l.asid ∧ fieldAt e 12 4 = 1 ∧ fieldAt e 16 48 = 0 ∧ e.drop 64 = l.data ∧
    ∀ i, i < 16 → (fieldAt e 10 2 / 2 ^ i % 2 = 1 ↔ ∃ d ∈ (l.dirty.drop (32 * i)).take 32, d = true) := by
  unfold quarEntry at he
  have hb := bits_sum (fun i => ((l.dirty.drop (32 * i)).take 32).any (fun d => d)) 16
  have hd : dirtySectors l = ((List.range 16).map (fun i => if (((l.dirty.drop (32 * i)).take 32).any (fun d => d)) = true then 2 ^ i else 0)).sum := rfl
  rw [← hd] at hb
  generalize dirtySectors l = z at *
  refine ⟨?_, ?_, ?_, ?_, ?_, ?_, ?_⟩
  · rw [he]; simp [length_natBytes, h3]
  on_goal 5 =>
    rw [he, List.drop_append_of_le_length (by simp [length_natBytes]), List.drop_of_length_le (by simp [length_natBytes])]; rfl
  on_goal 5 =>
    intro i hi
    have e1 : fieldAt e 10 2 = z := by
      rw [he]
      simp only [fieldAt_app_left, fieldAt_app_right, length_natBytes, List.length_append, fieldAt_nat, Nat.reduceAdd, Nat.reduceLeDiff, Nat.reduceSub, Nat.le_refl]
      have := hb.1
      simp only [Nat.reducePow] at *; omega
    rw [e1, hb.2 i hi, List.any_eq_true]
  all_goals
    rw [he]
    simp only [fieldAt_app_left, fieldAt_app_right, length_natBytes, List.length_append, fieldAt_nat, Nat.reduceAdd, Nat.reduceLeDiff, Nat.reduceSub, Nat.le_refl]
    first
    | (simp only [Nat.reducePow, Nat.zero_mod] at *; done)
    | (simp only [Nat.reducePow] at *; omega)

theorem insert_mem (l x : Line) : ∀ r : List Line, x ∈ insertLine l r ↔ x = l ∨ x ∈ r
  | [] => by simp [insertLine]
  | y :: r => by
    unfold insertLine
    split
    · simp
    · simp only [List.mem_cons, insert_mem l x r]; tauto

theorem insert_sorted (l : Line) : ∀ r : List Line, r.Pairwise (fun a b => a.pa ≤ b.pa) → (insertLine l r).Pairwise (fun a b => a.pa ≤ b.pa)
  | [], _ => by simp [insertLine]
  | y :: r, h => by
    unfold insertLine
    rw [List.pairwise_cons] at h
    split
    · next hlt =>
      rw [List.pairwise_cons, List.pairwise_cons]
      refine ⟨?_, h⟩
      intro z hz
      rcases List.mem_cons.1 hz with rfl | hz
      · omega
      · have := h.1 z hz; omega
    · next hlt =>
      rw [List.pairwise_cons]
      refine ⟨?_, insert_sorted l r h.2⟩
      intro z hz
      rcases (insert_mem l z r).1 hz with rfl | hz
      · omega
      · exact h.1 z hz

theorem sort_lines : ∀ (l r : List Line), r.Pairwise (fun a b => a.pa ≤ b.pa) →
    (l.foldl (fun r x => insertLine x r) r).Pairwise (fun a b => a.pa ≤ b.pa) ∧ ∀ x, x ∈ l.foldl (fun r x => insertLine x r) r ↔ x ∈ l ∨ x ∈ r
  | [], r, h => ⟨h, fun x => by simp⟩
  | y :: l, r, h => by
    obtain ⟨h1, h2⟩ := sort_lines l (insertLine y r) (insert_sorted y r h)
    refine ⟨h1, fun x => ?_⟩
    rw [List.foldl_cons, h2, insert_mem, List.mem_cons]; tauto

/-- New quarantine entries take the lowest numbers that no held entry has. -/
theorem quarNums_mem (p : Part) (n i : Nat) (h : i ∈ quarNums p n) : ∀ q ∈ p.quarantine, q.idx ≠ i := by
  have h1 := List.mem_of_mem_take h
  simpa using (List.mem_filter.mp h1).2

theorem covers_iff (a : Admit) (pkg pa n : Nat) (rd wr : Bool) : a.covers pkg pa n rd wr = true ↔
    (a.first ≤ pkg ∧ pkg < a.first + a.count ∧ a.base ≤ pa ∧ pa + n ≤ a.base + a.len ∧
      (rd = true → a.rights % 2 = 1) ∧ (wr = true → a.rights / 2 = 1)) := by
  unfold Admit.covers
  cases rd <;> cases wr <;> simp <;> tauto

/-- One entry of the partition table, as its dies are free (R401). -/
def formOne (m : Mach) (e : Nat × List Nat) : Mach :=
  let good := e.2.all (fun d => Config.dieDigest d == Config.imageDigest m.zyn.flash d)
  let m : Mach := if good then e.2.foldl releaseDie m
    else e.2.foldl (fun m d => Machine.measure (m.updDie d (fun x => { x with held := true })) (3 + d) 0) m
  { m with nextId := m.nextId + 2, parts := m.parts ++ [newPart m.nextId e.1 e.2 (if good then .running else .held)] }

/-- What the release of dies leaves as it was. -/
structure SameTable (m n : Mach) : Prop where
  parts : n.parts = m.parts
  next  : n.nextId = m.nextId
  flash : n.zyn.flash = m.zyn.flash
  table : n.zyn.table = m.zyn.table
  reco  : n.zyn.recovery = m.zyn.recovery
  mem   : n.mem = m.mem ∧ n.threads = m.threads ∧ n.groups = m.groups ∧ n.kernels = m.kernels ∧ n.ctxs = m.ctxs ∧ n.pkgSet = m.pkgSet

theorem SameTable.refl (m : Mach) : SameTable m m := ⟨rfl, rfl, rfl, rfl, rfl, rfl, rfl, rfl, rfl, rfl, rfl⟩

theorem SameTable.trans {a b c : Mach} (h : SameTable a b) (k : SameTable b c) : SameTable a c :=
  ⟨k.parts.trans h.parts, k.next.trans h.next, k.flash.trans h.flash, k.table.trans h.table, k.reco.trans h.reco,
    k.mem.1.trans h.mem.1, k.mem.2.1.trans h.mem.2.1, k.mem.2.2.1.trans h.mem.2.2.1, k.mem.2.2.2.1.trans h.mem.2.2.2.1,
    k.mem.2.2.2.2.1.trans h.mem.2.2.2.2.1, k.mem.2.2.2.2.2.trans h.mem.2.2.2.2.2⟩

theorem foldl_same {β : Type} (f : Mach → β → Mach) (h : ∀ m b, SameTable m (f m b)) : ∀ (l : List β) (m : Mach), SameTable m (l.foldl f m)
  | [], m => SameTable.refl m
  | b :: l, m => (h m b).trans (foldl_same f h l (f m b))

theorem takeSpares_same (m : Mach) (d : Nat) : SameTable m (takeSpares m d) := by
  unfold takeSpares
  refine foldl_same _ ?_ _ _
  intro m q
  split
  · exact ⟨rfl, rfl, rfl, rfl, rfl, rfl, rfl, rfl, rfl, rfl, rfl⟩
  · exact SameTable.refl m

theorem measured_same (m : Mach) (d i v : Nat) (f : Die → Die) : SameTable m (Machine.measure (m.updDie d f) i v) :=
  ⟨rfl, rfl, rfl, rfl, rfl, rfl, rfl, rfl, rfl, rfl, rfl⟩

theorem die_measure (m : Mach) (i v d : Nat) : (Machine.measure m i v).die d = m.die d := rfl

theorem meas_measure (m : Mach) (i v : Nat) : (Machine.measure m i v).zyn.meas = lput m.zyn.meas i v := rfl

theorem zyn_updDie (m : Mach) (d : Nat) (f : Die → Die) : (m.updDie d f).zyn = m.zyn := rfl

theorem releaseDie_same (m : Mach) (d : Nat) : SameTable m (releaseDie m d) :=
  (takeSpares_same m d).trans (measured_same _ _ _ _ _)

theorem takeSpares_die (m : Mach) (d e : Nat) (h : e ≠ d) : (takeSpares m d).die e = m.die e ∧ (takeSpares m d).zyn = m.zyn := by
  unfold takeSpares
  refine foldl_keeps (fun n : Mach => n.die e = m.die e ∧ n.zyn = m.zyn) _ ?_ _ _ ⟨rfl, rfl⟩
  intro n q hn
  split
  · refine ⟨?_, hn.2⟩
    rw [Mach.die_updDie_ne _ _ h]; exact hn.1
  · exact hn

theorem takeSpares_zyn (m : Mach) (d : Nat) : (takeSpares m d).zyn = m.zyn := by
  unfold takeSpares
  refine foldl_keeps (fun n : Mach => n.zyn = m.zyn) _ ?_ _ _ rfl
  intro n q hn
  split
  · exact hn
  · exact hn

/-- What the boot ROM has done with a die of an entry. -/
def Formed (flash : List Byte) (e : Nat × List Nat) (m : Mach) : Prop :=
  ∀ d ∈ e.2, (m.die d).held = !(e.2.all (fun d => Config.dieDigest d == Config.imageDigest flash d)) ∧
    ((e.2.all (fun d => Config.dieDigest d == Config.imageDigest flash d)) = true → (m.die d).clk = 0) ∧
    lget m.zyn.meas (3 + d) = some (if (e.2.all (fun d => Config.dieDigest d == Config.imageDigest flash d)) = true then Config.dieDigest d else 0)

theorem release_formed (l : List Nat) (m : Mach) : ∀ d ∈ l, ((l.foldl releaseDie m).die d).held = false ∧ ((l.foldl releaseDie m).die d).clk = 0 ∧
    lget (l.foldl releaseDie m).zyn.meas (3 + d) = some (Config.dieDigest d) := by
  refine foldl_each (fun d (n : Mach) => (n.die d).held = false ∧ (n.die d).clk = 0 ∧ lget n.zyn.meas (3 + d) = some (Config.dieDigest d)) _ ?_ ?_ l m
  · intro n d
    unfold releaseDie
    refine ⟨?_, ?_, ?_⟩
    · rw [die_measure, Mach.die_updDie_self]
    · rw [die_measure, Mach.die_updDie_self]; rfl
    · rw [meas_measure]; exact lget_lput_self _ _ _
  · intro n b c hc
    by_cases h : c = b
    · subst h
      unfold releaseDie
      refine ⟨?_, ?_, ?_⟩
      · rw [die_measure, Mach.die_updDie_self]
      · rw [die_measure, Mach.die_updDie_self]; rfl
      · rw [meas_measure]; exact lget_lput_self _ _ _
    · unfold releaseDie
      refine ⟨?_, ?_, ?_⟩
      · rw [die_measure, Mach.die_updDie_ne _ _ h, (takeSpares_die n b c h).1]; exact hc.1
      · rw [die_measure, Mach.die_updDie_ne _ _ h, (takeSpares_die n b c h).1]; exact hc.2.1
      · rw [meas_measure, zyn_updDie, lget_lput_ne _ _ (by omega), takeSpares_zyn]; exact hc.2.2

theorem hold_formed (l : List Nat) (m : Mach) : ∀ d ∈ l,
    ((l.foldl (fun m d => Machine.measure (m.updDie d (fun x => { x with held := true })) (3 + d) 0) m).die d).held = true ∧
    lget (l.foldl (fun m d => Machine.measure (m.updDie d (fun x => { x with held := true })) (3 + d) 0) m).zyn.meas (3 + d) = some 0 := by
  refine foldl_each (fun d (n : Mach) => (n.die d).held = true ∧ lget n.zyn.meas (3 + d) = some 0) _ ?_ ?_ l m
  · intro n d
    refine ⟨?_, by rw [meas_measure]; exact lget_lput_self _ _ _⟩
    rw [die_measure, Mach.die_updDie_self]
  · intro n b c hc
    by_cases h : c = b
    · subst h
      refine ⟨?_, by rw [meas_measure]; exact lget_lput_self _ _ _⟩
      rw [die_measure, Mach.die_updDie_self]
    · refine ⟨?_, ?_⟩
      · rw [die_measure, Mach.die_updDie_ne _ _ h]; exact hc.1
      · rw [meas_measure, zyn_updDie, lget_lput_ne _ _ (by omega)]; exact hc.2

theorem formOne_formed (m : Mach) (e : Nat × List Nat) : Formed m.zyn.flash e (formOne m e) := by
  unfold Formed formOne
  intro d hd
  rcases hg : e.2.all (fun d => Config.dieDigest d == Config.imageDigest m.zyn.flash d)
  · have := hold_formed e.2 m d hd
    simp only [Bool.false_eq_true, if_false]
    exact ⟨this.1, fun h => h.elim, this.2⟩
  · have := release_formed e.2 m d hd
    simp only [if_true]
    exact ⟨this.1, fun _ => this.2.1, this.2.2⟩

theorem formOne_other (m : Mach) (e : Nat × List Nat) (d : Nat) (h : d ∉ e.2) : (formOne m e).die d = m.die d ∧
    lget (formOne m e).zyn.meas (3 + d) = lget m.zyn.meas (3 + d) := by
  have k1 : ∀ (l : List Nat) (n : Mach), d ∉ l → (l.foldl releaseDie n).die d = n.die d ∧ lget (l.foldl releaseDie n).zyn.meas (3 + d) = lget n.zyn.meas (3 + d) := by
    intro l
    induction l with
    | nil => intro n _; exact ⟨rfl, rfl⟩
    | cons a l ih =>
      intro n hn
      have ha : d ≠ a := fun h => hn (by simp [h])
      obtain ⟨i1, i2⟩ := ih (releaseDie n a) (fun h => hn (by simp [h]))
      rw [List.foldl_cons, i1, i2]
      unfold releaseDie
      refine ⟨?_, ?_⟩
      · rw [die_measure, Mach.die_updDie_ne _ _ ha, (takeSpares_die n a d ha).1]
      · rw [meas_measure, zyn_updDie, lget_lput_ne _ _ (by omega), takeSpares_zyn]
  have k2 : ∀ (l : List Nat) (n : Mach), d ∉ l → (l.foldl (fun m d => Machine.measure (m.updDie d (fun x => { x with held := true })) (3 + d) 0) n).die d = n.die d ∧
      lget (l.foldl (fun m d => Machine.measure (m.updDie d (fun x => { x with held := true })) (3 + d) 0) n).zyn.meas (3 + d) = lget n.zyn.meas (3 + d) := by
    intro l
    induction l with
    | nil => intro n _; exact ⟨rfl, rfl⟩
    | cons a l ih =>
      intro n hn
      have ha : d ≠ a := fun h => hn (by simp [h])
      obtain ⟨i1, i2⟩ := ih (Machine.measure (n.updDie a (fun x => { x with held := true })) (3 + a) 0) (fun h => hn (by simp [h]))
      rw [List.foldl_cons, i1, i2]
      refine ⟨?_, ?_⟩
      · rw [die_measure, Mach.die_updDie_ne _ _ ha]
      · rw [meas_measure, zyn_updDie, lget_lput_ne _ _ (by omega)]
  unfold formOne
  dsimp only
  split
  · exact k1 e.2 m h
  · exact k2 e.2 m h

theorem formOne_meas (m : Mach) (e : Nat × List Nat) (i : Nat) (h : ∀ d ∈ e.2, i ≠ 3 + d) : lget (formOne m e).zyn.meas i = lget m.zyn.meas i := by
  have k1 : ∀ (l : List Nat) (n : Mach), (∀ d ∈ l, i ≠ 3 + d) → lget (l.foldl releaseDie n).zyn.meas i = lget n.zyn.meas i := by
    intro l
    induction l with
    | nil => intro n _; rfl
    | cons a l ih =>
      intro n hn
      rw [List.foldl_cons, ih (releaseDie n a) (fun d hd => hn d (by simp [hd]))]
      unfold releaseDie
      rw [meas_measure, zyn_updDie, lget_lput_ne _ _ (hn a (by simp)), takeSpares_zyn]
  have k2 : ∀ (l : List Nat) (n : Mach), (∀ d ∈ l, i ≠ 3 + d) →
      lget (l.foldl (fun m d => Machine.measure (m.updDie d (fun x => { x with held := true })) (3 + d) 0) n).zyn.meas i = lget n.zyn.meas i := by
    intro l
    induction l with
    | nil => intro n _; rfl
    | cons a l ih =>
      intro n hn
      rw [List.foldl_cons, ih _ (fun d hd => hn d (by simp [hd])), meas_measure, zyn_updDie, lget_lput_ne _ _ (hn a (by simp))]
  unfold formOne
  dsimp only
  split
  · exact k1 e.2 m h
  · exact k2 e.2 m h

theorem formOne_same (m : Mach) (e : Nat × List Nat) : (formOne m e).nextId = m.nextId + 2 ∧ (formOne m e).zyn.flash = m.zyn.flash ∧
    (formOne m e).parts = m.parts ++ [newPart m.nextId e.1 e.2 (if e.2.all (fun d => Config.dieDigest d == Config.imageDigest m.zyn.flash d) then .running else .held)] ∧
    (formOne m e).zyn.table = m.zyn.table ∧ (formOne m e).zyn.recovery = m.zyn.recovery ∧
    (formOne m e).mem = m.mem ∧ (formOne m e).threads = m.threads ∧ (formOne m e).groups = m.groups ∧ (formOne m e).kernels = m.kernels ∧
    (formOne m e).ctxs = m.ctxs ∧ (formOne m e).pkgSet = m.pkgSet := by
  have h : SameTable m (if e.2.all (fun d => Config.dieDigest d == Config.imageDigest m.zyn.flash d) = true then e.2.foldl releaseDie m
    else e.2.foldl (fun m d => Machine.measure (m.updDie d (fun x => { x with held := true })) (3 + d) 0) m) := by
    split
    · exact foldl_same _ releaseDie_same _ _
    · exact foldl_same _ (fun m d => measured_same _ _ _ _ _) _ _
  unfold formOne
  dsimp only
  exact ⟨by rw [h.next], h.flash, by rw [h.parts, h.next], h.table, h.reco, h.mem.1, h.mem.2.1, h.mem.2.2.1, h.mem.2.2.2.1, h.mem.2.2.2.2.1, h.mem.2.2.2.2.2⟩

theorem form_all (flash : List Byte) : ∀ (t : List (Nat × List Nat)) (m : Mach), t.Pairwise (fun a b => ∀ d ∈ a.2, d ∉ b.2) → m.zyn.flash = flash →
    (∀ e ∈ t, e.2 ≠ []) → (∀ p ∈ m.parts, ∀ e ∈ t, ∀ d ∈ p.dies, d ∉ e.2) → ∀ n, n = t.foldl (fun m e =>
      if m.parts.any (fun p => p.dies.any (fun d => e.2.contains d)) then m else formOne m e) m →
    n.parts = m.parts ++ t.zipIdx.map (fun x => newPart (m.nextId + 2 * x.2) x.1.1 x.1.2 (if x.1.2.all (fun d =>
        Config.dieDigest d == Config.imageDigest flash d) then .running else .held)) ∧ (∀ e ∈ t, Formed flash e n) ∧
    (∀ d, (∀ e ∈ t, d ∉ e.2) → n.die d = m.die d ∧ lget n.zyn.meas (3 + d) = lget m.zyn.meas (3 + d)) ∧
    (∀ i, (∀ e ∈ t, ∀ d ∈ e.2, i ≠ 3 + d) → lget n.zyn.meas i = lget m.zyn.meas i) ∧
    n.zyn.flash = m.zyn.flash ∧ n.zyn.table = m.zyn.table ∧ n.zyn.recovery = m.zyn.recovery ∧
    n.mem = m.mem ∧ n.threads = m.threads ∧ n.groups = m.groups ∧ n.kernels = m.kernels ∧ n.ctxs = m.ctxs ∧ n.pkgSet = m.pkgSet := by
  intro t
  induction t with
  | nil => intro m _ _ _ _ n hn; subst hn; simp
  | cons e t ih =>
    intro m hp hf hne hd n hn
    rw [List.pairwise_cons] at hp
    have hfree : (m.parts.any (fun p => p.dies.any (fun d => e.2.contains d))) = false := by
      rw [List.any_eq_false]
      intro p hpp
      rw [Bool.not_eq_true, List.any_eq_false]
      intro d hdd
      have := hd p hpp e (by simp) d hdd
      simpa using this
    rw [List.foldl_cons, hfree] at hn
    simp only [Bool.false_eq_true, if_false] at hn
    have hs := formOne_same m e
    have hown := formOne_formed m e
    rw [hf] at hown
    have hi := ih (formOne m e) hp.2 (hs.2.1.trans hf) (fun x hx => hne x (by simp [hx])) (by
      intro p hpp x hx d hdd
      rw [hs.2.2.1, List.mem_append, List.mem_singleton] at hpp
      rcases hpp with hpp | rfl
      · exact hd p hpp x (by simp [hx]) d hdd
      · exact hp.1 x hx d hdd) n hn
    obtain ⟨i1, i2, i3, im, i4, i5, i6, i7, i8, i9, i10, i11, i12⟩ := hi
    refine ⟨?_, ?_, ?_, ?_, i4.trans hs.2.1, i5.trans hs.2.2.2.1, i6.trans hs.2.2.2.2.1, i7.trans hs.2.2.2.2.2.1, i8.trans hs.2.2.2.2.2.2.1,
      i9.trans hs.2.2.2.2.2.2.2.1, i10.trans hs.2.2.2.2.2.2.2.2.1, i11.trans hs.2.2.2.2.2.2.2.2.2.1, i12.trans hs.2.2.2.2.2.2.2.2.2.2⟩
    · rw [i1, hs.2.2.1, hf, hs.1, List.append_assoc, List.zipIdx_cons, List.map_cons, List.singleton_append]
      congr 2
      rw [List.zipIdx_succ, List.map_map]
      apply List.map_congr_left
      intro x _
      simp only [Function.comp]
      congr 1
      omega
    · intro x hx
      rcases List.mem_cons.1 hx with rfl | hx
      · intro d hdd
        have h3 := i3 d (fun y hy => hp.1 y hy d hdd)
        rw [h3.1, h3.2]
        exact hown d hdd
      · exact i2 x hx
    · intro d hdd
      have h3 := i3 d (fun y hy => hdd y (by simp [hy]))
      have h4 := formOne_other m e d (hdd e (by simp))
      exact ⟨h3.1.trans h4.1, h3.2.trans h4.2⟩
    · intro i hi
      rw [im i (fun y hy => hi y (by simp [hy])), formOne_meas m e i (hi e (by simp))]

theorem formParts_eq (m : Mach) : formParts m = m.zyn.table.foldl (fun m e =>
      if m.parts.any (fun p => p.dies.any (fun d => e.2.contains d)) then m else formOne m e) (measureTables m) := rfl

theorem table_iff (t : List (Nat × List Nat)) : tableOk t = true ↔
    (∀ e ∈ t, e.2 ∈ [[0], [1], [2], [3], [0, 1], [2, 3], [0, 2], [1, 3], [0, 1, 2, 3]] ∧ e.2.head? = some e.1) ∧
    ∀ d, d < 4 → (t.filter (fun e => e.2.contains d)).length ≤ 1 := by
  unfold tableOk
  rw [Bool.and_eq_true, List.all_eq_true, List.all_eq_true]
  constructor
  · rintro ⟨h1, h2⟩
    refine ⟨fun e he => ?_, fun d hd => ?_⟩
    · have := h1 e he
      rw [Bool.and_eq_true] at this
      exact ⟨List.contains_iff_mem.1 this.1, by simpa using this.2⟩
    · have := h2 d (by simpa using hd)
      rw [← List.countP_eq_length_filter]; simpa using this
  · rintro ⟨h1, h2⟩
    refine ⟨fun e he => ?_, fun d hd => ?_⟩
    · rw [Bool.and_eq_true]
      exact ⟨List.contains_iff_mem.2 (h1 e he).1, by simpa using (h1 e he).2⟩
    · have := h2 d (by simpa using hd)
      rw [← List.countP_eq_length_filter] at this; simpa using this

/-- The entries of a legal table share no die. -/
theorem table_apart : ∀ t : List (Nat × List Nat), (∀ e ∈ t, ∀ d ∈ e.2, d < 4) → (∀ d, d < 4 → (t.filter (fun e => e.2.contains d)).length ≤ 1) →
    t.Pairwise (fun a b => ∀ d ∈ a.2, d ∉ b.2)
  | [], _, _ => List.Pairwise.nil
  | e :: t, h4, h => by
    rw [List.pairwise_cons]
    refine ⟨fun x hx d hd hx2 => ?_, table_apart t (fun y hy => h4 y (by simp [hy])) (fun d hd => ?_)⟩
    · have := h d (h4 e (by simp) d hd)
      rw [List.filter_cons_of_pos (by simpa using hd), List.length_cons] at this
      have hm : x ∈ t.filter (fun e => e.2.contains d) := List.mem_filter.2 ⟨hx, by simpa using hx2⟩
      have := List.length_pos_of_mem hm
      omega
    · have := h d hd
      rw [List.filter_cons] at this
      split at this
      · rw [List.length_cons] at this; omega
      · exact this

theorem legal_dies (l : List Nat) (h : l ∈ [[0], [1], [2], [3], [0, 1], [2, 3], [0, 2], [1, 3], [0, 1, 2, 3]]) : l ≠ [] ∧ ∀ d ∈ l, d < 4 := by
  simp only [List.mem_cons, List.not_mem_nil, or_false] at h
  rcases h with rfl | rfl | rfl | rfl | rfl | rfl | rfl | rfl | rfl <;> exact ⟨by decide, by decide⟩

theorem regions_iff (l : List (Nat × Nat)) (h1 : ∀ e ∈ l, e.1 < 16 ∧ e.2 < 2 ^ 64) (h2 : ∀ i, i < 16 → (l.filter (fun e => e.1 == i)).length ≤ 1) :
    (regionsOk l = true ↔ (∀ e ∈ l, e.2 / 2 ^ 56 % 64 = 0) ∧ (∀ e ∈ l, e.2 / 2 ^ 63 % 2 = 1 → e.2 % 2 ^ 28 ≠ 0) ∧
      ∀ e ∈ l, ∀ f ∈ l, e.2 / 2 ^ 63 % 2 = 1 → f.2 / 2 ^ 63 % 2 = 1 → e.1 ≠ f.1 →
        e.2 / 2 ^ 28 % 2 ^ 28 + e.2 % 2 ^ 28 ≤ f.2 / 2 ^ 28 % 2 ^ 28 ∨ f.2 / 2 ^ 28 % 2 ^ 28 + f.2 % 2 ^ 28 ≤ e.2 / 2 ^ 28 % 2 ^ 28) := by
  have e1 : ∀ w, pte w 63 1 = w / 2 ^ 63 % 2 := fun w => rfl
  have e2 : ∀ w, pte w 56 6 = w / 2 ^ 56 % 64 := fun w => rfl
  have e3 : ∀ w, pte w 0 28 = w % 2 ^ 28 := fun w => by unfold pte; rw [Nat.pow_zero, Nat.div_one]
  have e4 : ∀ w, pte w 28 28 = w / 2 ^ 28 % 2 ^ 28 := fun w => rfl
  unfold regionsOk regionSpan
  simp only [e1, e2, e3, e4, Bool.and_eq_true, List.all_eq_true, List.mem_filter, beq_iff_eq, decide_eq_true_eq, Bool.or_eq_true, bne_iff_ne, List.mem_range]
  constructor
  · rintro ⟨⟨⟨a, _⟩, b⟩, c⟩
    refine ⟨fun e he => (a e he).2, fun e he hv => b e ⟨he, hv⟩, fun e he f hf he1 hf1 hne => ?_⟩
    rcases c e ⟨he, he1⟩ f ⟨hf, hf1⟩ with (h | h) | h
    · exact absurd h hne
    · exact Or.inl h
    · exact Or.inr h
  · rintro ⟨a, b, c⟩
    refine ⟨⟨⟨fun e he => ⟨⟨(h1 e he).1, (h1 e he).2⟩, a e he⟩, fun i hi => ?_⟩, fun e he => b e he.1 he.2⟩, fun e he f hf => ?_⟩
    · rw [List.countP_eq_length_filter]; exact h2 i hi
    · by_cases hne : e.1 = f.1
      · exact Or.inl (Or.inl hne)
      · rcases c e he.1 f hf.1 he.2 hf.2 hne with h | h
        · exact Or.inl (Or.inr h)
        · exact Or.inr h

/-- The machine with its first measurements taken (R401). -/
def booted (m : Mach) : Mach :=
  (List.range 4).foldl (fun m d => Machine.measure m (3 + d) 0)
    (Machine.measure (Machine.measure (Machine.measure (resetPackage m) 1 (Config.fixedDigest 1)) 2 (Config.digest (resetPackage m).zyn.flash)) 9 (Config.fixedDigest 9))

theorem bootPackage_eq (m : Mach) : bootPackage m = if imageGood (booted m).zyn.flash = true then formParts (booted m)
  else measureTables { booted m with zyn := { (booted m).zyn with recovery := some [], recEnd := none } } := rfl

theorem booted_law (m : Mach) : (booted m).mem = [] ∧ (booted m).threads = [] ∧ (booted m).groups = [] ∧ (booted m).kernels = [] ∧ (booted m).ctxs = [] ∧
    (booted m).pkgSet = false ∧ (booted m).parts = [] ∧ (booted m).nextId = m.nextId ∧ (booted m).zyn.flash = m.zyn.flash ∧ (booted m).zyn.table = m.zyn.table ∧
    (booted m).zyn.recovery = none ∧ lget (booted m).zyn.meas 1 = some (Config.fixedDigest 1) ∧ lget (booted m).zyn.meas 2 = some (Config.digest m.zyn.flash) ∧
    lget (booted m).zyn.meas 9 = some (Config.fixedDigest 9) := by
  have e : booted m = Machine.measure (Machine.measure (Machine.measure (Machine.measure (Machine.measure (Machine.measure (Machine.measure (resetPackage m)
      1 (Config.fixedDigest 1)) 2 (Config.digest m.zyn.flash)) 9 (Config.fixedDigest 9)) 3 0) 4 0) 5 0) 6 0 := rfl
  rw [e]
  refine ⟨rfl, rfl, rfl, rfl, rfl, rfl, rfl, rfl, rfl, rfl, rfl, ?_, ?_, ?_⟩
  all_goals
    simp only [meas_measure]
    repeat first
      | rw [lget_lput_self]
      | rw [lget_lput_ne _ _ (by decide)]

theorem measured_law (m : Mach) : (measureTables m).parts = m.parts ∧ (measureTables m).nextId = m.nextId ∧ (measureTables m).zyn.flash = m.zyn.flash ∧
    (measureTables m).zyn.table = m.zyn.table ∧ (measureTables m).zyn.recovery = m.zyn.recovery ∧ (measureTables m).mem = m.mem ∧
    (measureTables m).threads = m.threads ∧ (measureTables m).groups = m.groups ∧ (measureTables m).kernels = m.kernels ∧
    (measureTables m).ctxs = m.ctxs ∧ (measureTables m).pkgSet = m.pkgSet ∧ ∀ i, i ≠ 7 → i ≠ 8 → lget (measureTables m).zyn.meas i = lget m.zyn.meas i := by
  refine ⟨rfl, rfl, rfl, rfl, rfl, rfl, rfl, rfl, rfl, rfl, rfl, fun i h7 h8 => ?_⟩
  show lget (lput (lput m.zyn.meas 7 _) 8 _) i = _
  rw [lget_lput_ne _ _ h8, lget_lput_ne _ _ h7]

theorem boot_law (m m' : Mach) (h : m' = bootPackage m) (ht : tableOk m.zyn.table = true) : m'.mem = [] ∧ m'.threads = [] ∧ m'.groups = [] ∧
    m'.kernels = [] ∧ m'.ctxs = [] ∧ m'.pkgSet = false ∧ m'.zyn.flash = m.zyn.flash ∧ m'.zyn.table = m.zyn.table ∧
    lget m'.zyn.meas 1 = some (Config.fixedDigest 1) ∧ lget m'.zyn.meas 2 = some (Config.digest m.zyn.flash) ∧
    lget m'.zyn.meas 9 = some (Config.fixedDigest 9) ∧
    (imageGood m.zyn.flash = false → m'.parts = [] ∧ m'.zyn.recovery = some []) ∧
    (imageGood m.zyn.flash = true → m'.zyn.recovery = none ∧
      m'.parts = m.zyn.table.zipIdx.map (fun x => newPart (m.nextId + 2 * x.2) x.1.1 x.1.2 (if x.1.2.all (fun d =>
        Config.dieDigest d == Config.imageDigest m.zyn.flash d) then .running else .held)) ∧
      ∀ e ∈ m.zyn.table, Formed m.zyn.flash e m') := by
  have b := booted_law m
  generalize hb : booted m = z at b
  obtain ⟨b1, b2, b3, b4, b5, b6, b7, b8, b9, b10, b11, b12, b13, b14⟩ := b
  rw [bootPackage_eq, hb, b9] at h
  rcases hg : imageGood m.zyn.flash
  · rw [hg] at h
    simp only [Bool.false_eq_true, if_false] at h
    obtain ⟨c1, c2, c3, c4, c5, c6, c7, c8, c9, c10, c11, c12⟩ := measured_law { z with zyn := { z.zyn with recovery := some [], recEnd := none } }
    rw [h]
    refine ⟨c6.trans b1, c7.trans b2, c8.trans b3, c9.trans b4, c10.trans b5, c11.trans b6, c3.trans b9, c4.trans b10, ?_, ?_, ?_, fun _ => ⟨c1.trans b7, c5⟩, fun h => by cases h⟩
    · rw [c12 1 (by decide) (by decide)]; exact b12
    · rw [c12 2 (by decide) (by decide)]; exact b13
    · rw [c12 9 (by decide) (by decide)]; exact b14
  · rw [hg] at h
    simp only [if_true] at h
    rw [formParts_eq] at h
    obtain ⟨c1, c2, c3, c4, c5, c6, c7, c8, c9, c10, c11, c12⟩ := measured_law z
    obtain ⟨t1, t2⟩ := (table_iff _).1 ht
    have hd : ∀ e ∈ z.zyn.table, e.2 ≠ [] ∧ ∀ d ∈ e.2, d < 4 := fun e he => legal_dies e.2 (t1 e (by rw [b10] at he; exact he)).1
    obtain ⟨f1, f2, f3, fm, f4, f5, f6, f7, f8, f9, f10, f11, f12⟩ := form_all m.zyn.flash z.zyn.table (measureTables z)
      (table_apart _ (fun e he => (hd e he).2) (by rw [b10]; exact t2)) (c3.trans b9) (fun e he => (hd e he).1)
      (by rw [c1, b7]; intro p hp; cases hp) m' h
    refine ⟨f7.trans (c6.trans b1), f8.trans (c7.trans b2), f9.trans (c8.trans b3), f10.trans (c9.trans b4), f11.trans (c10.trans b5), f12.trans (c11.trans b6),
      f4.trans (c3.trans b9), f5.trans (c4.trans b10), ?_, ?_, ?_, fun h => absurd h (by decide), fun _ => ⟨f6.trans (c5.trans b11), ?_, ?_⟩⟩
    · rw [fm 1 (fun e _ d _ => by omega), c12 1 (by decide) (by decide)]; exact b12
    · rw [fm 2 (fun e _ d _ => by omega), c12 2 (by decide) (by decide)]; exact b13
    · rw [fm 9 (fun e he d hdd => by have := (hd e he).2 d hdd; omega), c12 9 (by decide) (by decide)]; exact b14
    · rw [f1, c1, b7, c2, b8, b10, List.nil_append]
    · intro e he
      exact f2 e (by rw [b10]; exact he)

theorem scrub_mem (m : Mach) (p : Part) (a : Nat) : ((∃ d ∈ p.dies, homeDie a = some d) → cget (scrub m p).mem a = 0) ∧
    ((∀ d ∈ p.dies, homeDie a ≠ some d) → cget (scrub m p).mem a = cget m.mem a) := by
  have hf : ∀ (q : Nat → Bool) (l : List Host.Cell), lget (l.filter (fun c => q c.1)) a = if q a = true then lget l a else none := by
    intro q l
    induction l with
    | nil => simp [lget]
    | cons c l ih =>
      rw [List.filter_cons]
      by_cases hc : c.1 = a
      · split
        · next h => rw [hc] at h; rw [h]; simp [lget, hc]
        · next h => rw [hc] at h; rw [ih]; simp [h]
      · split
        · rw [lget, if_neg hc, ih, lget, if_neg hc]
        · rw [ih, lget, if_neg hc]
  have e : lget (scrub m p).mem a = if (!(match homeDie a with | some d => p.dies.contains d | none => false)) = true then lget m.mem a else none :=
    hf (fun a => !(match homeDie a with | some d => p.dies.contains d | none => false)) m.mem
  unfold cget
  rw [e]
  constructor
  · rintro ⟨d, hd, h⟩
    rw [h]; simp [hd]
  · intro h
    rcases hh : homeDie a with _ | d
    · simp
    · have : d ∉ p.dies := fun hd => h d hd hh
      simp [this]

theorem lget_filterMap_core (l : List (Nat × Core)) (p q : Nat → Bool) (c : Nat) (hc : q c = false) :
    lget ((l.filter (fun e => !q e.1 || e.2.fenced)).map (fun e => if q e.1 then (e.1, ({ fenced := true } : Core)) else e)) c = lget l c := by
  induction l with
  | nil => rfl
  | cons e l ih =>
    rw [List.filter_cons]
    by_cases he : e.1 = c
    · rw [he, hc]; simp [lget, he, hc]
    · split
      · rw [List.map_cons, lget, ih, lget, if_neg he]
        split <;> simp [he]
      · rw [ih, lget, if_neg he]



end Sys2Proof.Machine
end

