-- ==== Sys2Proof/Laws/PerInstr.lean ====
section
/-! SUPPORT. Facts about each instruction as syntax. The family `Encoding`: the words an
encoder writes for a well-formed instruction are what the decoder reads that instruction from. -/

namespace Sys2Proof

section

set_option Elab.async false

/-- A well-formed instruction's words have 64 bits each and decode to it (R61-R63); an event of
the table, which is no word, has none. -/
def Laws.Encoding.Statement (i : Instr) : Prop :=
  i.wf = true →
    match encode i with
    | [] => True
    | [w] => i.hasExt = false ∧ w < 2 ^ 64 ∧ ∀ ext, decodeWord w ext = .ok i
    | [w, e] => i.hasExt = true ∧ w < 2 ^ 64 ∧ e < 2 ^ 64 ∧ decodeWord w e = .ok i
    | _ => False

theorem enc_one {i : Instr} {w : Nat} (he : encode i = [w]) (hx : i.hasExt = false) (hw : i.wf = true) (hb : w < 2 ^ 64)
    (hd : ∀ ext, extractWord w ext = some i) : Laws.Encoding.Statement i := by
  intro _
  rw [he]
  exact ⟨hx, hb, fun ext => dec_ok (hd ext) hw (by rw [hx, he]; rfl)⟩

theorem enc_two {i : Instr} {w e : Nat} (he : encode i = [w, e]) (hx : i.hasExt = true) (hw : i.wf = true) (hb : w < 2 ^ 64) (hc : e < 2 ^ 64)
    (hd : extractWord w e = some i) : Laws.Encoding.Statement i := by
  intro _
  rw [he]
  exact ⟨hx, hb, hc, dec_ok hd hw (by rw [hx, he]; rfl)⟩

theorem enc_none {i : Instr} (he : encode i = []) : Laws.Encoding.Statement i := by
  intro _; rw [he]; trivial

theorem enc_rf {f : RF} (h : f.Fits) {i : Instr} (hw : i.wf = true) (he : encode i = [f.word]) (hx : i.hasExt = false)
    (hr : ∀ ext w, RF.ofWord w = f → extractFull w ext = some i) : Laws.Encoding.Statement i :=
  enc_one he hx hw (by have := (RF.full f h).2; omega) fun ext => extract_rf h (hr ext)

theorem enc_rf2 {f : RF} (h : f.Fits) {i : Instr} {e : Nat} (hw : i.wf = true) (he : encode i = [f.word, e]) (hx : i.hasExt = true) (hc : e < 2 ^ 64)
    (hr : ∀ w, RF.ofWord w = f → extractFull w e = some i) : Laws.Encoding.Statement i :=
  enc_two he hx hw (by have := (RF.full f h).2; omega) hc (extract_rf h hr)

theorem enc_if {f : IF} (h : f.Fits) {i : Instr} (hw : i.wf = true) (he : encode i = [f.word]) (hx : i.hasExt = false)
    (hr : ∀ ext w, IF.ofWord w = f → (RF.ofWord w).op = f.op → extractFull w ext = some i) : Laws.Encoding.Statement i :=
  enc_one he hx hw (by have := (IF.ofWord_word f h).2.2.2; omega) fun ext => extract_if h (hr ext)

theorem enc_ef {f : EF} (h : f.Fits) {i : Instr} (hw : i.wf = true) (he : encode i = [f.word]) (hx : i.hasExt = false)
    (hr : ∀ ext w, EF.ofWord w = f → (RF.ofWord w).op = f.op → extractFull w ext = some i) : Laws.Encoding.Statement i :=
  enc_one he hx hw (by have := (EF.ofWord_word f h).2.2.2; omega) fun ext => extract_ef h (hr ext)

theorem enc_ef2 {f : EF} (h : f.Fits) {i : Instr} {e : Nat} (hw : i.wf = true) (he : encode i = [f.word, e]) (hx : i.hasExt = true) (hc : e < 2 ^ 64)
    (hr : ∀ w, EF.ofWord w = f → (RF.ofWord w).op = f.op → extractFull w e = some i) : Laws.Encoding.Statement i :=
  enc_two he hx hw (by have := (EF.ofWord_word f h).2.2.2; omega) hc (extract_ef h hr)

theorem enc_mf {f : MF} (h : f.Fits) {i : Instr} (hw : i.wf = true) (he : encode i = [f.word]) (hx : i.hasExt = false)
    (hr : ∀ ext w, MF.ofWord w = f → (RF.ofWord w).op = f.op → extractFull w ext = some i) : Laws.Encoding.Statement i :=
  enc_one he hx hw (by have := (MF.ofWord_word f h).2.2.2; omega) fun ext => extract_mf h (hr ext)

theorem enc_paired {x : Paired} {op : CompactOp} (h : x.ok op = true) (hw : (pairedInstr op x).wf = true)
    (he : encode (pairedInstr op x) = [x.word op]) (hx : (pairedInstr op x).hasExt = false) : Laws.Encoding.Statement (pairedInstr op x) :=
  enc_one he hx hw (Paired.ofWord_word h).2.2 fun ext => extract_paired h ext


theorem okFmt_lt {f : WFmt} {n : Nat} (h : okFmt f n = true) : n < 256 := by
  cases f <;> simp only [okFmt, okPair, Bool.and_eq_true, decide_eq_true_eq] at h
  · exact h
  · exact h
  · exact h
  · exact h.1



theorem Laws.Encoding.nop (g : Guard) : Statement (.nop g) := by
  intro h
  have h' := h
  simp only [Instr.wf] at h'
  have hg : g.p < 8 := Guard.ok_lt (by tauto)
  refine enc_rf (f := (RF.zero g 0x000)) (by constructor <;> (try simp only [RF.zero]) <;> omega) h rfl rfl (fun ext w hw => ?_) h
  unfold extractFull
  rw [hw]
  show (some (Instr.nop g) : Option Instr) = _
  rfl

theorem Laws.Encoding.add (x : R3) : Statement (.add x) := by
  intro h
  have h' := h
  simp only [Instr.wf] at h'
  obtain ⟨f1, f2⟩ := R3.rf_law (x := x) (by tauto) (op := 0x001) (extra := 0) (by decide) (by omega)
  refine enc_rf f1 h rfl rfl (fun ext w hw => ?_) h
  unfold extractFull
  rw [hw]
  show (some (Instr.add (R3.ofRF (x.rf 0x001 0))) : Option Instr) = _
  rw [f2]

theorem Laws.Encoding.sub (x : R3) : Statement (.sub x) := by
  intro h
  have h' := h
  simp only [Instr.wf] at h'
  obtain ⟨f1, f2⟩ := R3.rf_law (x := x) (by tauto) (op := 0x002) (extra := 0) (by decide) (by omega)
  refine enc_rf f1 h rfl rfl (fun ext w hw => ?_) h
  unfold extractFull
  rw [hw]
  show (some (Instr.sub (R3.ofRF (x.rf 0x002 0))) : Option Instr) = _
  rw [f2]

theorem Laws.Encoding.mul (x : R3) : Statement (.mul x) := by
  intro h
  have h' := h
  simp only [Instr.wf] at h'
  obtain ⟨f1, f2⟩ := R3.rf_law (x := x) (by tauto) (op := 0x003) (extra := 0) (by decide) (by omega)
  refine enc_rf f1 h rfl rfl (fun ext w hw => ?_) h
  unfold extractFull
  rw [hw]
  show (some (Instr.mul (R3.ofRF (x.rf 0x003 0))) : Option Instr) = _
  rw [f2]

theorem Laws.Encoding.mulh (x : R3) : Statement (.mulh x) := by
  intro h
  have h' := h
  simp only [Instr.wf] at h'
  obtain ⟨f1, f2⟩ := R3.rf_law (x := x) (by tauto) (op := 0x004) (extra := 0) (by decide) (by omega)
  refine enc_rf f1 h rfl rfl (fun ext w hw => ?_) h
  unfold extractFull
  rw [hw]
  show (some (Instr.mulh (R3.ofRF (x.rf 0x004 0))) : Option Instr) = _
  rw [f2]

theorem Laws.Encoding.mulhu (x : R3) : Statement (.mulhu x) := by
  intro h
  have h' := h
  simp only [Instr.wf] at h'
  obtain ⟨f1, f2⟩ := R3.rf_law (x := x) (by tauto) (op := 0x005) (extra := 0) (by decide) (by omega)
  refine enc_rf f1 h rfl rfl (fun ext w hw => ?_) h
  unfold extractFull
  rw [hw]
  show (some (Instr.mulhu (R3.ofRF (x.rf 0x005 0))) : Option Instr) = _
  rw [f2]

theorem Laws.Encoding.mad (x : R4) : Statement (.mad x) := by
  intro h
  have h' := h
  simp only [Instr.wf] at h'
  obtain ⟨f1, f2⟩ := R4.rf_law (x := x) (by tauto) (op := 0x006) (by decide)
  refine enc_rf f1 h rfl rfl (fun ext w hw => ?_) h
  unfold extractFull
  rw [hw]
  show (some (Instr.mad (R4.ofRF (x.rf 0x006))) : Option Instr) = _
  rw [f2]

theorem Laws.Encoding.div (x : R3) : Statement (.div x) := by
  intro h
  have h' := h
  simp only [Instr.wf] at h'
  obtain ⟨f1, f2⟩ := R3.rf_law (x := x) (by tauto) (op := 0x007) (extra := 0) (by decide) (by omega)
  refine enc_rf f1 h rfl rfl (fun ext w hw => ?_) h
  unfold extractFull
  rw [hw]
  show (some (Instr.div (R3.ofRF (x.rf 0x007 0))) : Option Instr) = _
  rw [f2]

theorem Laws.Encoding.divu (x : R3) : Statement (.divu x) := by
  intro h
  have h' := h
  simp only [Instr.wf] at h'
  obtain ⟨f1, f2⟩ := R3.rf_law (x := x) (by tauto) (op := 0x008) (extra := 0) (by decide) (by omega)
  refine enc_rf f1 h rfl rfl (fun ext w hw => ?_) h
  unfold extractFull
  rw [hw]
  show (some (Instr.divu (R3.ofRF (x.rf 0x008 0))) : Option Instr) = _
  rw [f2]

theorem Laws.Encoding.rem (x : R3) : Statement (.rem x) := by
  intro h
  have h' := h
  simp only [Instr.wf] at h'
  obtain ⟨f1, f2⟩ := R3.rf_law (x := x) (by tauto) (op := 0x009) (extra := 0) (by decide) (by omega)
  refine enc_rf f1 h rfl rfl (fun ext w hw => ?_) h
  unfold extractFull
  rw [hw]
  show (some (Instr.rem (R3.ofRF (x.rf 0x009 0))) : Option Instr) = _
  rw [f2]

theorem Laws.Encoding.remu (x : R3) : Statement (.remu x) := by
  intro h
  have h' := h
  simp only [Instr.wf] at h'
  obtain ⟨f1, f2⟩ := R3.rf_law (x := x) (by tauto) (op := 0x00A) (extra := 0) (by decide) (by omega)
  refine enc_rf f1 h rfl rfl (fun ext w hw => ?_) h
  unfold extractFull
  rw [hw]
  show (some (Instr.remu (R3.ofRF (x.rf 0x00A 0))) : Option Instr) = _
  rw [f2]

theorem Laws.Encoding.and (x : R3) : Statement (.and x) := by
  intro h
  have h' := h
  simp only [Instr.wf] at h'
  obtain ⟨f1, f2⟩ := R3.rf_law (x := x) (by tauto) (op := 0x00B) (extra := 0) (by decide) (by omega)
  refine enc_rf f1 h rfl rfl (fun ext w hw => ?_) h
  unfold extractFull
  rw [hw]
  show (some (Instr.and (R3.ofRF (x.rf 0x00B 0))) : Option Instr) = _
  rw [f2]

theorem Laws.Encoding.or (x : R3) : Statement (.or x) := by
  intro h
  have h' := h
  simp only [Instr.wf] at h'
  obtain ⟨f1, f2⟩ := R3.rf_law (x := x) (by tauto) (op := 0x00C) (extra := 0) (by decide) (by omega)
  refine enc_rf f1 h rfl rfl (fun ext w hw => ?_) h
  unfold extractFull
  rw [hw]
  show (some (Instr.or (R3.ofRF (x.rf 0x00C 0))) : Option Instr) = _
  rw [f2]

theorem Laws.Encoding.xor (x : R3) : Statement (.xor x) := by
  intro h
  have h' := h
  simp only [Instr.wf] at h'
  obtain ⟨f1, f2⟩ := R3.rf_law (x := x) (by tauto) (op := 0x00D) (extra := 0) (by decide) (by omega)
  refine enc_rf f1 h rfl rfl (fun ext w hw => ?_) h
  unfold extractFull
  rw [hw]
  show (some (Instr.xor (R3.ofRF (x.rf 0x00D 0))) : Option Instr) = _
  rw [f2]

theorem Laws.Encoding.andn (x : R3) : Statement (.andn x) := by
  intro h
  have h' := h
  simp only [Instr.wf] at h'
  obtain ⟨f1, f2⟩ := R3.rf_law (x := x) (by tauto) (op := 0x00E) (extra := 0) (by decide) (by omega)
  refine enc_rf f1 h rfl rfl (fun ext w hw => ?_) h
  unfold extractFull
  rw [hw]
  show (some (Instr.andn (R3.ofRF (x.rf 0x00E 0))) : Option Instr) = _
  rw [f2]

theorem Laws.Encoding.shl (x : R3) : Statement (.shl x) := by
  intro h
  have h' := h
  simp only [Instr.wf] at h'
  obtain ⟨f1, f2⟩ := R3.rf_law (x := x) (by tauto) (op := 0x00F) (extra := 0) (by decide) (by omega)
  refine enc_rf f1 h rfl rfl (fun ext w hw => ?_) h
  unfold extractFull
  rw [hw]
  show (some (Instr.shl (R3.ofRF (x.rf 0x00F 0))) : Option Instr) = _
  rw [f2]

theorem Laws.Encoding.shr (x : R3) : Statement (.shr x) := by
  intro h
  have h' := h
  simp only [Instr.wf] at h'
  obtain ⟨f1, f2⟩ := R3.rf_law (x := x) (by tauto) (op := 0x010) (extra := 0) (by decide) (by omega)
  refine enc_rf f1 h rfl rfl (fun ext w hw => ?_) h
  unfold extractFull
  rw [hw]
  show (some (Instr.shr (R3.ofRF (x.rf 0x010 0))) : Option Instr) = _
  rw [f2]

theorem Laws.Encoding.sra (x : R3) : Statement (.sra x) := by
  intro h
  have h' := h
  simp only [Instr.wf] at h'
  obtain ⟨f1, f2⟩ := R3.rf_law (x := x) (by tauto) (op := 0x011) (extra := 0) (by decide) (by omega)
  refine enc_rf f1 h rfl rfl (fun ext w hw => ?_) h
  unfold extractFull
  rw [hw]
  show (some (Instr.sra (R3.ofRF (x.rf 0x011 0))) : Option Instr) = _
  rw [f2]

theorem Laws.Encoding.rol (x : R3) : Statement (.rol x) := by
  intro h
  have h' := h
  simp only [Instr.wf] at h'
  obtain ⟨f1, f2⟩ := R3.rf_law (x := x) (by tauto) (op := 0x012) (extra := 0) (by decide) (by omega)
  refine enc_rf f1 h rfl rfl (fun ext w hw => ?_) h
  unfold extractFull
  rw [hw]
  show (some (Instr.rol (R3.ofRF (x.rf 0x012 0))) : Option Instr) = _
  rw [f2]

theorem Laws.Encoding.shladd (sh : Nat) (x : R3) : Statement (.shladd sh x) := by
  intro h
  have h' := h
  simp only [Instr.wf, Bool.and_eq_true, decide_eq_true_eq] at h'
  have hs : sh < 64 := by have := h'.2; split at this <;> omega
  obtain ⟨f1, f2⟩ := R3.rf_law (x := x) (by tauto) (op := 0x013) (extra := sh) (by decide) (by omega)
  refine enc_rf f1 h rfl rfl (fun ext w hw => ?_) h
  unfold extractFull
  rw [hw]
  show (some (Instr.shladd ((sh + 128 * x.b.isImm.toNat) % 64) (R3.ofRF (x.rf 0x013 sh))) : Option Instr) = _
  have e0 : (sh + 128 * x.b.isImm.toNat) % 64 = sh := by omega
  rw [e0]
  rw [f2]

theorem Laws.Encoding.min (x : R3) : Statement (.min x) := by
  intro h
  have h' := h
  simp only [Instr.wf] at h'
  obtain ⟨f1, f2⟩ := R3.rf_law (x := x) (by tauto) (op := 0x014) (extra := 0) (by decide) (by omega)
  refine enc_rf f1 h rfl rfl (fun ext w hw => ?_) h
  unfold extractFull
  rw [hw]
  show (some (Instr.min (R3.ofRF (x.rf 0x014 0))) : Option Instr) = _
  rw [f2]

theorem Laws.Encoding.max (x : R3) : Statement (.max x) := by
  intro h
  have h' := h
  simp only [Instr.wf] at h'
  obtain ⟨f1, f2⟩ := R3.rf_law (x := x) (by tauto) (op := 0x015) (extra := 0) (by decide) (by omega)
  refine enc_rf f1 h rfl rfl (fun ext w hw => ?_) h
  unfold extractFull
  rw [hw]
  show (some (Instr.max (R3.ofRF (x.rf 0x015 0))) : Option Instr) = _
  rw [f2]

theorem Laws.Encoding.minu (x : R3) : Statement (.minu x) := by
  intro h
  have h' := h
  simp only [Instr.wf] at h'
  obtain ⟨f1, f2⟩ := R3.rf_law (x := x) (by tauto) (op := 0x016) (extra := 0) (by decide) (by omega)
  refine enc_rf f1 h rfl rfl (fun ext w hw => ?_) h
  unfold extractFull
  rw [hw]
  show (some (Instr.minu (R3.ofRF (x.rf 0x016 0))) : Option Instr) = _
  rw [f2]

theorem Laws.Encoding.maxu (x : R3) : Statement (.maxu x) := by
  intro h
  have h' := h
  simp only [Instr.wf] at h'
  obtain ⟨f1, f2⟩ := R3.rf_law (x := x) (by tauto) (op := 0x017) (extra := 0) (by decide) (by omega)
  refine enc_rf f1 h rfl rfl (fun ext w hw => ?_) h
  unfold extractFull
  rw [hw]
  show (some (Instr.maxu (R3.ofRF (x.rf 0x017 0))) : Option Instr) = _
  rw [f2]

theorem Laws.Encoding.abs (x : R2) : Statement (.abs x) := by
  intro h
  have h' := h
  simp only [Instr.wf] at h'
  obtain ⟨f1, f2⟩ := R2.rf_law (x := x) (by tauto) (op := 0x018) (extra := 0) (by decide) (by omega)
  refine enc_rf f1 h rfl rfl (fun ext w hw => ?_) h
  unfold extractFull
  rw [hw]
  show (some (Instr.abs (R2.ofRF (x.rf 0x018 0))) : Option Instr) = _
  rw [f2]

theorem Laws.Encoding.clz (x : R2) : Statement (.clz x) := by
  intro h
  have h' := h
  simp only [Instr.wf] at h'
  obtain ⟨f1, f2⟩ := R2.rf_law (x := x) (by tauto) (op := 0x019) (extra := 0) (by decide) (by omega)
  refine enc_rf f1 h rfl rfl (fun ext w hw => ?_) h
  unfold extractFull
  rw [hw]
  show (some (Instr.clz (R2.ofRF (x.rf 0x019 0))) : Option Instr) = _
  rw [f2]

theorem Laws.Encoding.popc (x : R2) : Statement (.popc x) := by
  intro h
  have h' := h
  simp only [Instr.wf] at h'
  obtain ⟨f1, f2⟩ := R2.rf_law (x := x) (by tauto) (op := 0x01A) (extra := 0) (by decide) (by omega)
  refine enc_rf f1 h rfl rfl (fun ext w hw => ?_) h
  unfold extractFull
  rw [hw]
  show (some (Instr.popc (R2.ofRF (x.rf 0x01A 0))) : Option Instr) = _
  rw [f2]

theorem Laws.Encoding.brev (x : R2) : Statement (.brev x) := by
  intro h
  have h' := h
  simp only [Instr.wf] at h'
  obtain ⟨f1, f2⟩ := R2.rf_law (x := x) (by tauto) (op := 0x01B) (extra := 0) (by decide) (by omega)
  refine enc_rf f1 h rfl rfl (fun ext w hw => ?_) h
  unfold extractFull
  rw [hw]
  show (some (Instr.brev (R2.ofRF (x.rf 0x01B 0))) : Option Instr) = _
  rw [f2]

theorem Laws.Encoding.bfx (x : Bf) : Statement (.bfx x) := by
  intro h
  have h' := h
  simp only [Instr.wf] at h'
  obtain ⟨f1, f2⟩ := Bf.rf_law (x := x) (by tauto) (op := 0x01C) (by decide)
  refine enc_rf f1 h rfl rfl (fun ext w hw => ?_) h
  unfold extractFull
  rw [hw]
  show (some (Instr.bfx (Bf.ofRF (x.rf 0x01C))) : Option Instr) = _
  rw [f2]

theorem Laws.Encoding.bfxu (x : Bf) : Statement (.bfxu x) := by
  intro h
  have h' := h
  simp only [Instr.wf] at h'
  obtain ⟨f1, f2⟩ := Bf.rf_law (x := x) (by tauto) (op := 0x01D) (by decide)
  refine enc_rf f1 h rfl rfl (fun ext w hw => ?_) h
  unfold extractFull
  rw [hw]
  show (some (Instr.bfxu (Bf.ofRF (x.rf 0x01D))) : Option Instr) = _
  rw [f2]

theorem Laws.Encoding.bfi (x : Bf) : Statement (.bfi x) := by
  intro h
  have h' := h
  simp only [Instr.wf] at h'
  obtain ⟨f1, f2⟩ := Bf.rf_law (x := x) (by tauto) (op := 0x01E) (by decide)
  refine enc_rf f1 h rfl rfl (fun ext w hw => ?_) h
  unfold extractFull
  rw [hw]
  show (some (Instr.bfi (Bf.ofRF (x.rf 0x01E))) : Option Instr) = _
  rw [f2]

theorem Laws.Encoding.sel (np : Bool) (sp : Nat) (x : R3) : Statement (.sel np sp x) := by
  intro h
  have b_np := toNat_lt np
  have h' := h
  simp only [Instr.wf, Bool.and_eq_true, decide_eq_true_eq] at h'
  obtain ⟨f1, f2⟩ := R3.rf_law (x := x) (by tauto) (op := 0x01F) (extra := (sp + 8 * np.toNat)) (by decide) (by omega)
  refine enc_rf f1 h rfl rfl (fun ext w hw => ?_) h
  unfold extractFull
  rw [hw]
  show (some (Instr.sel (bit (sp + 8 * np.toNat + 128 * x.b.isImm.toNat) 3) ((sp + 8 * np.toNat + 128 * x.b.isImm.toNat) % 8) (R3.ofRF (x.rf 0x01F (sp + 8 * np.toNat)))) : Option Instr) = _
  have e0 : bit (sp + 8 * np.toNat + 128 * x.b.isImm.toNat) 3 = np := by unfold bit; rw [show (sp + 8 * np.toNat + 128 * x.b.isImm.toNat) / 2 ^ 3 % 2 = np.toNat by omega]; exact beq_toNat _
  have e1 : (sp + 8 * np.toNat + 128 * x.b.isImm.toNat) % 8 = sp := by omega
  rw [e0, e1]
  rw [f2]

theorem Laws.Encoding.cmp (cc : Cond) (x : Cmp) : Statement (.cmp cc x) := by
  intro h
  have c_cc := (Cond.code_lt cc).1
  have h' := h
  simp only [Instr.wf] at h'
  obtain ⟨f1, f2⟩ := Cmp.rf_law (x := x) (by tauto) (op := 0x020) (extra := cc.code) (by decide) (by omega)
  refine enc_rf f1 h rfl rfl (fun ext w hw => ?_) h
  unfold extractFull
  rw [hw]
  show ((Cond.ofCode ((cc.code + 128 * x.b.isImm.toNat) % 16)).map (fun c' => Instr.cmp c' (Cmp.ofRF (x.rf 0x020 cc.code))) : Option Instr) = _
  have e0 : (cc.code + 128 * x.b.isImm.toNat) % 16 = cc.code := by omega
  have e1 : Cond.ofCode cc.code = some cc := (Cond.code_lt cc).2
  rw [e0, e1]
  rw [f2]
  rfl

theorem Laws.Encoding.set (cc : Cond) (x : R3) : Statement (.set cc x) := by
  intro h
  have c_cc := (Cond.code_lt cc).1
  have h' := h
  simp only [Instr.wf] at h'
  obtain ⟨f1, f2⟩ := R3.rf_law (x := x) (by tauto) (op := 0x021) (extra := cc.code) (by decide) (by omega)
  refine enc_rf f1 h rfl rfl (fun ext w hw => ?_) h
  unfold extractFull
  rw [hw]
  show ((Cond.ofCode ((cc.code + 128 * x.b.isImm.toNat) % 16)).map (fun c' => Instr.set c' (R3.ofRF (x.rf 0x021 cc.code))) : Option Instr) = _
  have e0 : (cc.code + 128 * x.b.isImm.toNat) % 16 = cc.code := by omega
  have e1 : Cond.ofCode cc.code = some cc := (Cond.code_lt cc).2
  rw [e0, e1]
  rw [f2]
  rfl

theorem Laws.Encoding.mov (x : R2) : Statement (.mov x) := by
  intro h
  have h' := h
  simp only [Instr.wf] at h'
  obtain ⟨f1, f2⟩ := R2.rf_law (x := x) (by tauto) (op := 0x022) (extra := 0) (by decide) (by omega)
  refine enc_rf f1 h rfl rfl (fun ext w hw => ?_) h
  unfold extractFull
  rw [hw]
  show (some (Instr.mov (R2.ofRF (x.rf 0x022 0))) : Option Instr) = _
  rw [f2]

theorem Laws.Encoding.movi (g : Guard) (kind d : Nat) (imm : Int) : Statement (.movi g kind d imm) := by
  intro h
  have h' := h
  simp only [Instr.wf, okPair, Bool.and_eq_true] at h'
  have hg : g.p < 8 := Guard.ok_lt (by tauto)
  obtain ⟨s1, s2⟩ := sext_unsext 33 imm (by decide) (by tauto)
  have hk : kind < 256 ∧ d < 256 := by
    have := h'.2
    split at this <;> simp only [Bool.and_eq_true, decide_eq_true_eq, Bool.false_eq_true] at this <;> omega
  refine enc_if (f := (⟨g, 0x023, d, kind, unsext 33 imm⟩ : IF)) (by constructor <;> dsimp only <;> omega) h rfl rfl (fun ext w hw ho => ?_) h
  unfold extractFull
  generalize RF.ofWord w = q at ho ⊢
  cases q
  cases ho
  rw [hw]
  show some (Instr.movi g kind d (sext 33 (unsext 33 imm))) = _
  rw [s1]

theorem Laws.Encoding.movx (g : Guard) (d val : Nat) : Statement (.movx g d val) := by
  intro h
  have h' := h
  simp only [Instr.wf, okPair, Bool.and_eq_true, decide_eq_true_eq] at h'
  have hg : g.p < 8 := Guard.ok_lt (by tauto)
  refine enc_rf2 (f := ({ RF.zero g 0x024 with d := d } : RF)) (by constructor <;> (try simp only [RF.zero]) <;> omega) h rfl rfl (by tauto) (fun w hw => ?_) h
  unfold extractFull
  rw [hw]
  show (some (Instr.movx g d val) : Option Instr) = _
  rfl

theorem Laws.Encoding.pand (x : P3) : Statement (.pand x) := by
  intro h
  have h' := h
  simp only [Instr.wf] at h'
  obtain ⟨f1, f2⟩ := P3.rf_law (x := x) (by tauto) (op := 0x025) (by decide)
  refine enc_rf f1 h rfl rfl (fun ext w hw => ?_) h
  unfold extractFull
  rw [hw]
  show (some (Instr.pand (P3.ofRF (x.rf 0x025))) : Option Instr) = _
  rw [f2]

theorem Laws.Encoding.por (x : P3) : Statement (.por x) := by
  intro h
  have h' := h
  simp only [Instr.wf] at h'
  obtain ⟨f1, f2⟩ := P3.rf_law (x := x) (by tauto) (op := 0x026) (by decide)
  refine enc_rf f1 h rfl rfl (fun ext w hw => ?_) h
  unfold extractFull
  rw [hw]
  show (some (Instr.por (P3.ofRF (x.rf 0x026))) : Option Instr) = _
  rw [f2]

theorem Laws.Encoding.pxor (x : P3) : Statement (.pxor x) := by
  intro h
  have h' := h
  simp only [Instr.wf] at h'
  obtain ⟨f1, f2⟩ := P3.rf_law (x := x) (by tauto) (op := 0x027) (by decide)
  refine enc_rf f1 h rfl rfl (fun ext w hw => ?_) h
  unfold extractFull
  rw [hw]
  show (some (Instr.pxor (P3.ofRF (x.rf 0x027))) : Option Instr) = _
  rw [f2]

theorem Laws.Encoding.smov (g : Guard) (u : Bool) (d : Src) (sreg : Nat) : Statement (.smov g u d sreg) := by
  intro h
  have b_u := toNat_lt u
  have h' := h
  simp only [Instr.wf, Bool.and_eq_true, decide_eq_true_eq] at h'
  have hg : g.p < 8 := Guard.ok_lt (by tauto)
  have hd := Src.dst_law (u := u) (d := d) (by tauto)
  refine enc_rf (f := ({ RF.zero g 0x028 with u := u, d := d.num, dk := d.isK, a := sreg } : RF)) (by constructor <;> (try simp only [RF.zero]) <;> omega) h rfl rfl (fun ext w hw => ?_) h
  unfold extractFull
  rw [hw]
  show (some (Instr.smov g u (Src.mk d.num d.isK false) sreg) : Option Instr) = _
  have e0 : Src.mk d.num d.isK false = d := hd.2
  rw [e0]

theorem Laws.Encoding.swr (g : Guard) (sreg a : Nat) : Statement (.swr g sreg a) := by
  intro h
  have h' := h
  simp only [Instr.wf, okPair, sregWritable, Bool.and_eq_true] at h'
  have hg : g.p < 8 := Guard.ok_lt (by tauto)
  have hs : sreg < 256 := by have := h'.1.2; simp only [Bool.or_eq_true, beq_iff_eq] at this; omega
  have ha : a < 256 := by have := h'.2; split at this <;> simp only [Bool.and_eq_true, decide_eq_true_eq] at this <;> omega
  refine enc_rf (f := ({ RF.zero g 0x029 with d := sreg, a := a } : RF)) (by constructor <;> (try simp only [RF.zero]) <;> omega) h rfl rfl (fun ext w hw => ?_) h
  unfold extractFull
  rw [hw]
  show (some (Instr.swr g sreg a) : Option Instr) = _
  rfl

theorem Laws.Encoding.rand (g : Guard) (d : Nat) : Statement (.rand g d) := by
  intro h
  have h' := h
  simp only [Instr.wf, Bool.and_eq_true, decide_eq_true_eq] at h'
  have hg : g.p < 8 := Guard.ok_lt (by tauto)
  refine enc_rf (f := ({ RF.zero g 0x02A with d := d } : RF)) (by constructor <;> (try simp only [RF.zero]) <;> omega) h rfl rfl (fun ext w hw => ?_) h
  unfold extractFull
  rw [hw]
  show (some (Instr.rand g d) : Option Instr) = _
  rfl

theorem Laws.Encoding.widf (g : Guard) (u : Bool) (n : Nat) (d : Src) : Statement (.widf g u n d) := by
  intro h
  have b_u := toNat_lt u
  have h' := h
  simp only [Instr.wf, Bool.and_eq_true, decide_eq_true_eq] at h'
  have hg : g.p < 8 := Guard.ok_lt (by tauto)
  have hd := Src.dst_law (u := u) (d := d) (by tauto)
  refine enc_rf (f := ({ RF.zero g 0x02B with u := u, d := d.num, dk := d.isK, spec := n } : RF)) (by constructor <;> (try simp only [RF.zero]) <;> omega) h rfl rfl (fun ext w hw => ?_) h
  unfold extractFull
  rw [hw]
  show (some (Instr.widf g u (n % 8) (Src.mk d.num d.isK false)) : Option Instr) = _
  have e0 : n % 8 = n := by omega
  have e1 : Src.mk d.num d.isK false = d := hd.2
  rw [e0, e1]

theorem Laws.Encoding.addPaired (x : Paired) : Statement (.addPaired x) := fun h =>
  enc_paired (op := .add) h h rfl rfl h

theorem Laws.Encoding.subPaired (x : Paired) : Statement (.subPaired x) := fun h =>
  enc_paired (op := .sub) h h rfl rfl h

theorem Laws.Encoding.andPaired (x : Paired) : Statement (.andPaired x) := fun h =>
  enc_paired (op := .and) h h rfl rfl h

theorem Laws.Encoding.orPaired (x : Paired) : Statement (.orPaired x) := fun h =>
  enc_paired (op := .or) h h rfl rfl h

theorem Laws.Encoding.xorPaired (x : Paired) : Statement (.xorPaired x) := fun h =>
  enc_paired (op := .xor) h h rfl rfl h

theorem Laws.Encoding.shlPaired (x : Paired) : Statement (.shlPaired x) := fun h =>
  enc_paired (op := .shl) h h rfl rfl h

theorem Laws.Encoding.shrPaired (x : Paired) : Statement (.shrPaired x) := fun h =>
  enc_paired (op := .shr) h h rfl rfl h

theorem Laws.Encoding.movPaired (x : Paired) : Statement (.movPaired x) := fun h =>
  enc_paired (op := .mov) h h rfl rfl h

theorem Laws.Encoding.minPaired (x : Paired) : Statement (.minPaired x) := fun h =>
  enc_paired (op := .min) h h rfl rfl h

theorem Laws.Encoding.maxPaired (x : Paired) : Statement (.maxPaired x) := fun h =>
  enc_paired (op := .max) h h rfl rfl h

theorem Laws.Encoding.faddPaired (x : Paired) : Statement (.faddPaired x) := fun h =>
  enc_paired (op := .fadd) h h rfl rfl h

theorem Laws.Encoding.fmulPaired (x : Paired) : Statement (.fmulPaired x) := fun h =>
  enc_paired (op := .fmul) h h rfl rfl h

theorem Laws.Encoding.fminPaired (x : Paired) : Statement (.fminPaired x) := fun h =>
  enc_paired (op := .fmin) h h rfl rfl h

theorem Laws.Encoding.fmaxPaired (x : Paired) : Statement (.fmaxPaired x) := fun h =>
  enc_paired (op := .fmax) h h rfl rfl h

theorem Laws.Encoding.hadd2Paired (x : Paired) : Statement (.hadd2Paired x) := fun h =>
  enc_paired (op := .hadd2) h h rfl rfl h

theorem Laws.Encoding.hmul2Paired (x : Paired) : Statement (.hmul2Paired x) := fun h =>
  enc_paired (op := .hmul2) h h rfl rfl h

theorem Laws.Encoding.shfl (g : Guard) (mode : ShflMode) (d a : Nat) (b : Src) (c : Nat) : Statement (.shfl g mode d a b c) := by
  intro h
  have c_mode := (ShflMode.code_lt mode).1
  have h' := h
  simp only [Instr.wf, Bool.and_eq_true, decide_eq_true_eq] at h'
  have hg : g.p < 8 := Guard.ok_lt (by tauto)
  have hb := Src.wi_law (d := b) (by tauto)
  have bi := toNat_lt b.isImm
  refine enc_rf (f := ({ RF.zero g 0x040 with d := d, a := a, b := b.num, c := c, spec := mode.code + 128 * b.isImm.toNat } : RF)) (by constructor <;> (try simp only [RF.zero]) <;> omega) h rfl rfl (fun ext w hw => ?_) h
  unfold extractFull
  rw [hw]
  show ((ShflMode.ofCode ((mode.code + 128 * b.isImm.toNat) % 4)).map (fun m => Instr.shfl g m d a (Src.mk b.num false (bit (mode.code + 128 * b.isImm.toNat) 7)) c) : Option Instr) = _
  have e0 : (mode.code + 128 * b.isImm.toNat) % 4 = mode.code := by omega
  have e1 : ShflMode.ofCode mode.code = some mode := (ShflMode.code_lt mode).2
  have e2 : bit (mode.code + 128 * b.isImm.toNat) 7 = b.isImm := bit_above mode.code 7 _ (by omega)
  have e3 : Src.mk b.num false b.isImm = b := hb.2.1
  rw [e0, e1, e2, e3]
  rfl

theorem Laws.Encoding.vote (g : Guard) (mode : VoteMode) (na : Bool) (d a c : Nat) : Statement (.vote g mode na d a c) := by
  intro h
  have c_mode := (VoteMode.code_lt mode).1
  have b_na := toNat_lt na
  have h' := h
  simp only [Instr.wf, Bool.and_eq_true, decide_eq_true_eq] at h'
  have hg : g.p < 8 := Guard.ok_lt (by tauto)
  have hd : d < 256 := by have := h'.1.1.2; split at this <;> omega
  refine enc_rf (f := ({ RF.zero g 0x041 with d := d, a := a, c := c, spec := mode.code + 4 * na.toNat } : RF)) (by constructor <;> (try simp only [RF.zero]) <;> omega) h rfl rfl (fun ext w hw => ?_) h
  unfold extractFull
  rw [hw]
  show ((VoteMode.ofCode ((mode.code + 4 * na.toNat) % 4)).map (fun m => Instr.vote g m (bit (mode.code + 4 * na.toNat) 2) d a c) : Option Instr) = _
  have e0 : (mode.code + 4 * na.toNat) % 4 = mode.code := by omega
  have e1 : VoteMode.ofCode mode.code = some mode := (VoteMode.code_lt mode).2
  have e2 : bit (mode.code + 4 * na.toNat) 2 = na := by unfold bit; rw [show (mode.code + 4 * na.toNat) / 2 ^ 2 % 2 = na.toNat by omega]; exact beq_toNat _
  rw [e0, e1, e2]
  rfl

theorem Laws.Encoding.redux (g : Guard) (op : RedOp) (d a c : Nat) : Statement (.redux g op d a c) := by
  intro h
  have c_op := (RedOp.code_lt op).1
  have h' := h
  simp only [Instr.wf, Bool.and_eq_true, decide_eq_true_eq] at h'
  have hg : g.p < 8 := Guard.ok_lt (by tauto)
  refine enc_rf (f := ({ RF.zero g 0x042 with d := d, a := a, c := c, spec := op.code } : RF)) (by constructor <;> (try simp only [RF.zero]) <;> omega) h rfl rfl (fun ext w hw => ?_) h
  unfold extractFull
  rw [hw]
  show ((RedOp.ofCode (op.code % 8)).map (fun o => Instr.redux g o d a c) : Option Instr) = _
  have e0 : op.code % 8 = op.code := by omega
  have e1 : RedOp.ofCode op.code = some op := (RedOp.code_lt op).2
  rw [e0, e1]
  rfl

theorem Laws.Encoding.matchL (g : Guard) (whole : Bool) (d a c : Nat) : Statement (.matchL g whole d a c) := by
  intro h
  have b_whole := toNat_lt whole
  have h' := h
  simp only [Instr.wf, Bool.and_eq_true, decide_eq_true_eq] at h'
  have hg : g.p < 8 := Guard.ok_lt (by tauto)
  refine enc_rf (f := ({ RF.zero g 0x043 with d := d, a := a, c := c, spec := whole.toNat } : RF)) (by constructor <;> (try simp only [RF.zero]) <;> omega) h rfl rfl (fun ext w hw => ?_) h
  unfold extractFull
  rw [hw]
  show (some (Instr.matchL g (bit whole.toNat 0) d a c) : Option Instr) = _
  have e0 : bit (whole.toNat) 0 = whole := by unfold bit; rw [show (whole.toNat) / 2 ^ 0 % 2 = whole.toNat by omega]; exact beq_toNat _
  rw [e0]

theorem Laws.Encoding.elect (g : Guard) (d c : Nat) : Statement (.elect g d c) := by
  intro h
  have h' := h
  simp only [Instr.wf, Bool.and_eq_true, decide_eq_true_eq] at h'
  have hg : g.p < 8 := Guard.ok_lt (by tauto)
  refine enc_rf (f := ({ RF.zero g 0x044 with d := d, c := c } : RF)) (by constructor <;> (try simp only [RF.zero]) <;> omega) h rfl rfl (fun ext w hw => ?_) h
  unfold extractFull
  rw [hw]
  show (some (Instr.elect g d c) : Option Instr) = _
  rfl

theorem Laws.Encoding.lsync (g : Guard) (d c : Nat) : Statement (.lsync g d c) := by
  intro h
  have h' := h
  simp only [Instr.wf, Bool.and_eq_true, decide_eq_true_eq] at h'
  have hg : g.p < 8 := Guard.ok_lt (by tauto)
  refine enc_rf (f := ({ RF.zero g 0x045 with d := d, c := c } : RF)) (by constructor <;> (try simp only [RF.zero]) <;> omega) h rfl rfl (fun ext w hw => ?_) h
  unfold extractFull
  rw [hw]
  show (some (Instr.lsync g d c) : Option Instr) = _
  rfl

theorem Laws.Encoding.bra (g : Guard) (target : Int) : Statement (.bra g target) := by
  intro h
  have h' := h
  simp only [Instr.wf, Bool.and_eq_true] at h'
  have hg : g.p < 8 := Guard.ok_lt (by tauto)
  obtain ⟨s1, s2⟩ := sext_unsext 33 target (by decide) (by tauto)
  refine enc_if (f := (⟨g, 0x080, 0, 0, unsext 33 target⟩ : IF)) (by constructor <;> dsimp only <;> omega) h rfl rfl (fun ext w hw ho => ?_) h
  unfold extractFull
  generalize RF.ofWord w = q at ho ⊢
  cases q
  cases ho
  rw [hw]
  show some (Instr.bra g (sext 33 (unsext 33 target))) = _
  rw [s1]

theorem Laws.Encoding.jmp (g : Guard) (a : Nat) : Statement (.jmp g a) := by
  intro h
  have h' := h
  simp only [Instr.wf, okPair, Bool.and_eq_true, decide_eq_true_eq] at h'
  have hg : g.p < 8 := Guard.ok_lt (by tauto)
  refine enc_rf (f := ({ RF.zero g 0x081 with a := a } : RF)) (by constructor <;> (try simp only [RF.zero]) <;> omega) h rfl rfl (fun ext w hw => ?_) h
  unfold extractFull
  rw [hw]
  show (some (Instr.jmp g a) : Option Instr) = _
  rfl

theorem Laws.Encoding.call (g : Guard) (target : Int) : Statement (.call g target) := by
  intro h
  have h' := h
  simp only [Instr.wf, Bool.and_eq_true] at h'
  have hg : g.p < 8 := Guard.ok_lt (by tauto)
  obtain ⟨s1, s2⟩ := sext_unsext 33 target (by decide) (by tauto)
  refine enc_if (f := (⟨g, 0x082, 0, 0, unsext 33 target⟩ : IF)) (by constructor <;> dsimp only <;> omega) h rfl rfl (fun ext w hw ho => ?_) h
  unfold extractFull
  generalize RF.ofWord w = q at ho ⊢
  cases q
  cases ho
  rw [hw]
  show some (Instr.call g (sext 33 (unsext 33 target))) = _
  rw [s1]

theorem Laws.Encoding.callr (g : Guard) (d a : Nat) : Statement (.callr g d a) := by
  intro h
  have h' := h
  simp only [Instr.wf, okPair, Bool.and_eq_true, decide_eq_true_eq] at h'
  have hg : g.p < 8 := Guard.ok_lt (by tauto)
  refine enc_rf (f := ({ RF.zero g 0x083 with d := d, a := a } : RF)) (by constructor <;> (try simp only [RF.zero]) <;> omega) h rfl rfl (fun ext w hw => ?_) h
  unfold extractFull
  rw [hw]
  show (some (Instr.callr g d a) : Option Instr) = _
  rfl

theorem Laws.Encoding.ret (g : Guard) (a : Nat) : Statement (.ret g a) := by
  intro h
  have h' := h
  simp only [Instr.wf, okPair, Bool.and_eq_true, decide_eq_true_eq] at h'
  have hg : g.p < 8 := Guard.ok_lt (by tauto)
  refine enc_rf (f := ({ RF.zero g 0x084 with a := a } : RF)) (by constructor <;> (try simp only [RF.zero]) <;> omega) h rfl rfl (fun ext w hw => ?_) h
  unfold extractFull
  rw [hw]
  show (some (Instr.ret g a) : Option Instr) = _
  rfl

theorem Laws.Encoding.rjarm (g : Guard) (j a : Nat) : Statement (.rjarm g j a) := by
  intro h
  have h' := h
  simp only [Instr.wf, Bool.and_eq_true, decide_eq_true_eq] at h'
  have hg : g.p < 8 := Guard.ok_lt (by tauto)
  refine enc_rf (f := ({ RF.zero g 0x085 with d := j, a := a } : RF)) (by constructor <;> (try simp only [RF.zero]) <;> omega) h rfl rfl (fun ext w hw => ?_) h
  unfold extractFull
  rw [hw]
  show (some (Instr.rjarm g j a) : Option Instr) = _
  rfl

theorem Laws.Encoding.rjwait (g : Guard) (j : Nat) : Statement (.rjwait g j) := by
  intro h
  have h' := h
  simp only [Instr.wf, Bool.and_eq_true, decide_eq_true_eq] at h'
  have hg : g.p < 8 := Guard.ok_lt (by tauto)
  refine enc_rf (f := ({ RF.zero g 0x086 with d := j } : RF)) (by constructor <;> (try simp only [RF.zero]) <;> omega) h rfl rfl (fun ext w hw => ?_) h
  unfold extractFull
  rw [hw]
  show (some (Instr.rjwait g j) : Option Instr) = _
  rfl

theorem Laws.Encoding.exit (g : Guard) : Statement (.exit g) := by
  intro h
  have h' := h
  simp only [Instr.wf] at h'
  have hg : g.p < 8 := Guard.ok_lt (by tauto)
  refine enc_rf (f := (RF.zero g 0x087)) (by constructor <;> (try simp only [RF.zero]) <;> omega) h rfl rfl (fun ext w hw => ?_) h
  unfold extractFull
  rw [hw]
  show (some (Instr.exit g) : Option Instr) = _
  rfl

theorem Laws.Encoding.brk (g : Guard) (n : Nat) : Statement (.brk g n) := by
  intro h
  have h' := h
  simp only [Instr.wf, Bool.and_eq_true, decide_eq_true_eq] at h'
  have hg : g.p < 8 := Guard.ok_lt (by tauto)
  refine enc_rf (f := ({ RF.zero g 0x088 with spec := n } : RF)) (by constructor <;> (try simp only [RF.zero]) <;> omega) h rfl rfl (fun ext w hw => ?_) h
  unfold extractFull
  rw [hw]
  show (some (Instr.brk g n) : Option Instr) = _
  rfl

theorem Laws.Encoding.yield (g : Guard) : Statement (.yield g) := by
  intro h
  have h' := h
  simp only [Instr.wf] at h'
  have hg : g.p < 8 := Guard.ok_lt (by tauto)
  refine enc_rf (f := (RF.zero g 0x089)) (by constructor <;> (try simp only [RF.zero]) <;> omega) h rfl rfl (fun ext w hw => ?_) h
  unfold extractFull
  rw [hw]
  show (some (Instr.yield g) : Option Instr) = _
  rfl

theorem Laws.Encoding.fadd (x : R3r) : Statement (.fadd x) := by
  intro h
  have h' := h
  simp only [Instr.wf] at h'
  obtain ⟨f1, f2⟩ := R3r.rf_law (x := x) (by tauto) (op := 0x100) (by decide)
  refine enc_rf f1 h rfl rfl (fun ext w hw => ?_) h
  unfold extractFull
  rw [hw]
  show (some (Instr.fadd (R3r.ofRF (x.rf 0x100))) : Option Instr) = _
  rw [f2]

theorem Laws.Encoding.fsub (x : R3) : Statement (.fsub x) := by
  intro h
  have h' := h
  simp only [Instr.wf] at h'
  obtain ⟨f1, f2⟩ := R3.rf_law (x := x) (by tauto) (op := 0x101) (extra := 0) (by decide) (by omega)
  refine enc_rf f1 h rfl rfl (fun ext w hw => ?_) h
  unfold extractFull
  rw [hw]
  show (some (Instr.fsub (R3.ofRF (x.rf 0x101 0))) : Option Instr) = _
  rw [f2]

theorem Laws.Encoding.fmul (x : R3r) : Statement (.fmul x) := by
  intro h
  have h' := h
  simp only [Instr.wf] at h'
  obtain ⟨f1, f2⟩ := R3r.rf_law (x := x) (by tauto) (op := 0x102) (by decide)
  refine enc_rf f1 h rfl rfl (fun ext w hw => ?_) h
  unfold extractFull
  rw [hw]
  show (some (Instr.fmul (R3r.ofRF (x.rf 0x102))) : Option Instr) = _
  rw [f2]

theorem Laws.Encoding.ffma (x : R4) : Statement (.ffma x) := by
  intro h
  have h' := h
  simp only [Instr.wf] at h'
  obtain ⟨f1, f2⟩ := R4.rf_law (x := x) (by tauto) (op := 0x103) (by decide)
  refine enc_rf f1 h rfl rfl (fun ext w hw => ?_) h
  unfold extractFull
  rw [hw]
  show (some (Instr.ffma (R4.ofRF (x.rf 0x103))) : Option Instr) = _
  rw [f2]

theorem Laws.Encoding.fmin (x : R3) : Statement (.fmin x) := by
  intro h
  have h' := h
  simp only [Instr.wf] at h'
  obtain ⟨f1, f2⟩ := R3.rf_law (x := x) (by tauto) (op := 0x104) (extra := 0) (by decide) (by omega)
  refine enc_rf f1 h rfl rfl (fun ext w hw => ?_) h
  unfold extractFull
  rw [hw]
  show (some (Instr.fmin (R3.ofRF (x.rf 0x104 0))) : Option Instr) = _
  rw [f2]

theorem Laws.Encoding.fmax (x : R3) : Statement (.fmax x) := by
  intro h
  have h' := h
  simp only [Instr.wf] at h'
  obtain ⟨f1, f2⟩ := R3.rf_law (x := x) (by tauto) (op := 0x105) (extra := 0) (by decide) (by omega)
  refine enc_rf f1 h rfl rfl (fun ext w hw => ?_) h
  unfold extractFull
  rw [hw]
  show (some (Instr.fmax (R3.ofRF (x.rf 0x105 0))) : Option Instr) = _
  rw [f2]

theorem Laws.Encoding.fcmp (cc : FCond) (x : Cmp) : Statement (.fcmp cc x) := by
  intro h
  have c_cc := (FCond.code_lt cc).1
  have h' := h
  simp only [Instr.wf] at h'
  obtain ⟨f1, f2⟩ := Cmp.rf_law (x := x) (by tauto) (op := 0x106) (extra := cc.code) (by decide) (by omega)
  refine enc_rf f1 h rfl rfl (fun ext w hw => ?_) h
  unfold extractFull
  rw [hw]
  show ((FCond.ofCode ((cc.code + 128 * x.b.isImm.toNat) % 16)).map (fun c' => Instr.fcmp c' (Cmp.ofRF (x.rf 0x106 cc.code))) : Option Instr) = _
  have e0 : (cc.code + 128 * x.b.isImm.toNat) % 16 = cc.code := by omega
  have e1 : FCond.ofCode cc.code = some cc := (FCond.code_lt cc).2
  rw [e0, e1]
  rw [f2]
  rfl

theorem Laws.Encoding.fclass (x : R2) : Statement (.fclass x) := by
  intro h
  have h' := h
  simp only [Instr.wf] at h'
  obtain ⟨f1, f2⟩ := R2.rf_law (x := x) (by tauto) (op := 0x107) (extra := 0) (by decide) (by omega)
  refine enc_rf f1 h rfl rfl (fun ext w hw => ?_) h
  unfold extractFull
  rw [hw]
  show (some (Instr.fclass (R2.ofRF (x.rf 0x107 0))) : Option Instr) = _
  rw [f2]

theorem Laws.Encoding.frnd (mode : FrMode) (x : R2) : Statement (.frnd mode x) := by
  intro h
  have c_mode := (FrMode.code_lt mode).1
  have h' := h
  simp only [Instr.wf] at h'
  obtain ⟨f1, f2⟩ := R2.rf_law (x := x) (by tauto) (op := 0x108) (extra := mode.code) (by decide) (by omega)
  refine enc_rf f1 h rfl rfl (fun ext w hw => ?_) h
  unfold extractFull
  rw [hw]
  show ((FrMode.ofCode (mode.code % 8)).map (fun m => Instr.frnd m (R2.ofRF (x.rf 0x108 mode.code))) : Option Instr) = _
  have e0 : mode.code % 8 = mode.code := by omega
  have e1 : FrMode.ofCode mode.code = some mode := (FrMode.code_lt mode).2
  rw [e0, e1]
  rw [f2]
  rfl

theorem Laws.Encoding.fcvt (g : Guard) (rnd : Rnd) (dst src : WFmt) (d a : Nat) : Statement (.fcvt g rnd dst src d a) := by
  intro h
  have c_rnd := (Rnd.code_lt rnd).1
  have c_dst := (WFmt.code_lt dst).1
  have c_src := (WFmt.code_lt src).1
  have h' := h
  simp only [Instr.wf, Bool.and_eq_true, decide_eq_true_eq] at h'
  have hg : g.p < 8 := Guard.ok_lt (by tauto)
  have hd := okFmt_lt (f := dst) (n := d) (by tauto)
  have ha := okFmt_lt (f := src) (n := a) (by tauto)
  refine enc_rf (f := ({ RF.zero g 0x109 with d := d, a := a, rnd := rnd.code, spec := src.code + 4 * dst.code } : RF)) (by constructor <;> (try simp only [RF.zero]) <;> omega) h rfl rfl (fun ext w hw => ?_) h
  unfold extractFull
  rw [hw]
  show (some (Instr.fcvt g (Rnd.ofCode rnd.code) (WFmt.ofCode ((src.code + 4 * dst.code) / 4 % 4)) (WFmt.ofCode ((src.code + 4 * dst.code) % 4)) d a) : Option Instr) = _
  have e0 : Rnd.ofCode rnd.code = rnd := (Rnd.code_lt rnd).2
  have e1 : (src.code + 4 * dst.code) / 4 % 4 = dst.code := by omega
  have e2 : (src.code + 4 * dst.code) % 4 = src.code := by omega
  have e3 : WFmt.ofCode dst.code = dst := (WFmt.code_lt dst).2
  have e4 : WFmt.ofCode src.code = src := (WFmt.code_lt src).2
  rw [e0, e1, e2, e3, e4]

theorem Laws.Encoding.icvt (g : Guard) (uns : Bool) (dst : WFmt) (d a : Nat) : Statement (.icvt g uns dst d a) := by
  intro h
  have b_uns := toNat_lt uns
  have c_dst := (WFmt.code_lt dst).1
  have h' := h
  simp only [Instr.wf, Bool.and_eq_true, decide_eq_true_eq] at h'
  have hg : g.p < 8 := Guard.ok_lt (by tauto)
  have hd := okFmt_lt (f := dst) (n := d) (by tauto)
  refine enc_rf (f := ({ RF.zero g 0x10A with d := d, a := a, spec := uns.toNat + 4 * dst.code } : RF)) (by constructor <;> (try simp only [RF.zero]) <;> omega) h rfl rfl (fun ext w hw => ?_) h
  unfold extractFull
  rw [hw]
  show (some (Instr.icvt g (bit (uns.toNat + 4 * dst.code) 0) (WFmt.ofCode ((uns.toNat + 4 * dst.code) / 4 % 4)) d a) : Option Instr) = _
  have e0 : (uns.toNat + 4 * dst.code) / 4 % 4 = dst.code := by omega
  have e1 : bit (uns.toNat + 4 * dst.code) 0 = uns := by unfold bit; rw [show (uns.toNat + 4 * dst.code) / 2 ^ 0 % 2 = uns.toNat by omega]; exact beq_toNat _
  have e2 : WFmt.ofCode dst.code = dst := (WFmt.code_lt dst).2
  rw [e0, e1, e2]

theorem Laws.Encoding.fcvti (g : Guard) (rnd : Rnd) (uns : Bool) (src : WFmt) (d a : Nat) : Statement (.fcvti g rnd uns src d a) := by
  intro h
  have c_rnd := (Rnd.code_lt rnd).1
  have b_uns := toNat_lt uns
  have c_src := (WFmt.code_lt src).1
  have h' := h
  simp only [Instr.wf, Bool.and_eq_true, decide_eq_true_eq] at h'
  have hg : g.p < 8 := Guard.ok_lt (by tauto)
  have ha := okFmt_lt (f := src) (n := a) (by tauto)
  refine enc_rf (f := ({ RF.zero g 0x10B with d := d, a := a, rnd := rnd.code, spec := src.code + 4 * uns.toNat } : RF)) (by constructor <;> (try simp only [RF.zero]) <;> omega) h rfl rfl (fun ext w hw => ?_) h
  unfold extractFull
  rw [hw]
  show (some (Instr.fcvti g (Rnd.ofCode rnd.code) (bit (src.code + 4 * uns.toNat) 2) (WFmt.ofCode ((src.code + 4 * uns.toNat) % 4)) d a) : Option Instr) = _
  have e0 : Rnd.ofCode rnd.code = rnd := (Rnd.code_lt rnd).2
  have e1 : bit (src.code + 4 * uns.toNat) 2 = uns := by unfold bit; rw [show (src.code + 4 * uns.toNat) / 2 ^ 2 % 2 = uns.toNat by omega]; exact beq_toNat _
  have e2 : (src.code + 4 * uns.toNat) % 4 = src.code := by omega
  have e3 : WFmt.ofCode src.code = src := (WFmt.code_lt src).2
  rw [e0, e1, e2, e3]

theorem Laws.Encoding.hadd2 (x : H3) : Statement (.hadd2 x) := by
  intro h
  have h' := h
  simp only [Instr.wf] at h'
  obtain ⟨f1, f2⟩ := H3.rf_law (x := x) (by tauto) (op := 0x10C) (c := 0) (by decide) (by omega)
  refine enc_rf f1 h rfl rfl (fun ext w hw => ?_) h
  unfold extractFull
  rw [hw]
  show (some (Instr.hadd2 (H3.ofRF (x.rf 0x10C 0))) : Option Instr) = _
  rw [f2]

theorem Laws.Encoding.hmul2 (x : H3) : Statement (.hmul2 x) := by
  intro h
  have h' := h
  simp only [Instr.wf] at h'
  obtain ⟨f1, f2⟩ := H3.rf_law (x := x) (by tauto) (op := 0x10D) (c := 0) (by decide) (by omega)
  refine enc_rf f1 h rfl rfl (fun ext w hw => ?_) h
  unfold extractFull
  rw [hw]
  show (some (Instr.hmul2 (H3.ofRF (x.rf 0x10D 0))) : Option Instr) = _
  rw [f2]

theorem Laws.Encoding.hfma2 (c : Nat) (x : H3) : Statement (.hfma2 c x) := by
  intro h
  have h' := h
  simp only [Instr.wf, Bool.and_eq_true, decide_eq_true_eq] at h'
  obtain ⟨f1, f2⟩ := H3.rf_law (x := x) (by tauto) (op := 0x10E) (c := c) (by decide) (by omega)
  refine enc_rf f1 h rfl rfl (fun ext w hw => ?_) h
  unfold extractFull
  rw [hw]
  show (some (Instr.hfma2 (c) (H3.ofRF (x.rf 0x10E c))) : Option Instr) = _
  rw [f2]

theorem Laws.Encoding.hmin2 (x : H3) : Statement (.hmin2 x) := by
  intro h
  have h' := h
  simp only [Instr.wf] at h'
  obtain ⟨f1, f2⟩ := H3.rf_law (x := x) (by tauto) (op := 0x10F) (c := 0) (by decide) (by omega)
  refine enc_rf f1 h rfl rfl (fun ext w hw => ?_) h
  unfold extractFull
  rw [hw]
  show (some (Instr.hmin2 (H3.ofRF (x.rf 0x10F 0))) : Option Instr) = _
  rw [f2]

theorem Laws.Encoding.hmax2 (x : H3) : Statement (.hmax2 x) := by
  intro h
  have h' := h
  simp only [Instr.wf] at h'
  obtain ⟨f1, f2⟩ := H3.rf_law (x := x) (by tauto) (op := 0x110) (c := 0) (by decide) (by omega)
  refine enc_rf f1 h rfl rfl (fun ext w hw => ?_) h
  unfold extractFull
  rw [hw]
  show (some (Instr.hmax2 (H3.ofRF (x.rf 0x110 0))) : Option Instr) = _
  rw [f2]

theorem Laws.Encoding.rcp (x : W2) : Statement (.rcp x) := by
  intro h
  have h' := h
  simp only [Instr.wf] at h'
  obtain ⟨f1, f2⟩ := W2.rf_law (x := x) (by tauto) (op := 0x111) (by decide)
  refine enc_rf f1 h rfl rfl (fun ext w hw => ?_) h
  unfold extractFull
  rw [hw]
  show (some (Instr.rcp (W2.ofRF (x.rf 0x111))) : Option Instr) = _
  rw [f2]

theorem Laws.Encoding.rsq (x : W2) : Statement (.rsq x) := by
  intro h
  have h' := h
  simp only [Instr.wf] at h'
  obtain ⟨f1, f2⟩ := W2.rf_law (x := x) (by tauto) (op := 0x112) (by decide)
  refine enc_rf f1 h rfl rfl (fun ext w hw => ?_) h
  unfold extractFull
  rw [hw]
  show (some (Instr.rsq (W2.ofRF (x.rf 0x112))) : Option Instr) = _
  rw [f2]

theorem Laws.Encoding.sqrt (x : W2) : Statement (.sqrt x) := by
  intro h
  have h' := h
  simp only [Instr.wf] at h'
  obtain ⟨f1, f2⟩ := W2.rf_law (x := x) (by tauto) (op := 0x113) (by decide)
  refine enc_rf f1 h rfl rfl (fun ext w hw => ?_) h
  unfold extractFull
  rw [hw]
  show (some (Instr.sqrt (W2.ofRF (x.rf 0x113))) : Option Instr) = _
  rw [f2]

theorem Laws.Encoding.exp2 (x : W2) : Statement (.exp2 x) := by
  intro h
  have h' := h
  simp only [Instr.wf] at h'
  obtain ⟨f1, f2⟩ := W2.rf_law (x := x) (by tauto) (op := 0x114) (by decide)
  refine enc_rf f1 h rfl rfl (fun ext w hw => ?_) h
  unfold extractFull
  rw [hw]
  show (some (Instr.exp2 (W2.ofRF (x.rf 0x114))) : Option Instr) = _
  rw [f2]

theorem Laws.Encoding.log2 (x : W2) : Statement (.log2 x) := by
  intro h
  have h' := h
  simp only [Instr.wf] at h'
  obtain ⟨f1, f2⟩ := W2.rf_law (x := x) (by tauto) (op := 0x115) (by decide)
  refine enc_rf f1 h rfl rfl (fun ext w hw => ?_) h
  unfold extractFull
  rw [hw]
  show (some (Instr.log2 (W2.ofRF (x.rf 0x115))) : Option Instr) = _
  rw [f2]

theorem Laws.Encoding.fdiv (x : R3) : Statement (.fdiv x) := by
  intro h
  have h' := h
  simp only [Instr.wf] at h'
  obtain ⟨f1, f2⟩ := R3.rf_law (x := x) (by tauto) (op := 0x116) (extra := 0) (by decide) (by omega)
  refine enc_rf f1 h rfl rfl (fun ext w hw => ?_) h
  unfold extractFull
  rw [hw]
  show (some (Instr.fdiv (R3.ofRF (x.rf 0x116 0))) : Option Instr) = _
  rw [f2]

theorem Laws.Encoding.feval (ft : Nat) (x : W2) : Statement (.feval ft x) := by
  intro h
  have h' := h
  simp only [Instr.wf, Bool.and_eq_true, decide_eq_true_eq] at h'
  obtain ⟨f1, f2⟩ := W2.rf_law (x := x) h'.1 (op := 0x117) (by decide)
  refine enc_rf (f := { x.rf 0x117 with spec := ft }) ⟨f1.p, f1.op, f1.d, f1.a, f1.b, f1.c, f1.rnd, by dsimp only; omega, f1.sel⟩ h rfl rfl (fun ext w hw => ?_) h
  unfold extractFull
  rw [hw]
  show some (Instr.feval (ft % 4) (W2.ofRF (x.rf 0x117))) = _
  rw [f2, show ft % 4 = ft by omega]

theorem Laws.Encoding.ftld (g : Guard) (ft a fl : Nat) : Statement (.ftld g ft a fl) := by
  intro h
  have h' := h
  simp only [Instr.wf, Bool.and_eq_true, decide_eq_true_eq] at h'
  have hg : g.p < 8 := Guard.ok_lt (by tauto)
  refine enc_rf (f := ({ RF.zero g 0x118 with a := a, spec := ft, sel := fl } : RF)) (by constructor <;> (try simp only [RF.zero]) <;> omega) h rfl rfl (fun ext w hw => ?_) h
  unfold extractFull
  rw [hw]
  show (some (Instr.ftld g (ft % 4) a fl) : Option Instr) = _
  have e0 : ft % 4 = ft := by omega
  rw [e0]

theorem Laws.Encoding.dot4 (x : Dot) : Statement (.dot4 x) := by
  intro h
  have h' := h
  simp only [Instr.wf] at h'
  obtain ⟨f1, f2⟩ := Dot.rf_law (x := x) (by tauto) (op := 0x119) (by decide)
  refine enc_rf f1 h rfl rfl (fun ext w hw => ?_) h
  unfold extractFull
  rw [hw]
  show (some (Instr.dot4 (Dot.ofRF (x.rf 0x119))) : Option Instr) = _
  rw [f2]

theorem Laws.Encoding.dot8 (x : Dot) : Statement (.dot8 x) := by
  intro h
  have h' := h
  simp only [Instr.wf] at h'
  obtain ⟨f1, f2⟩ := Dot.rf_law (x := x) (by tauto) (op := 0x11A) (by decide)
  refine enc_rf f1 h rfl rfl (fun ext w hw => ?_) h
  unfold extractFull
  rw [hw]
  show (some (Instr.dot8 (Dot.ofRF (x.rf 0x11A))) : Option Instr) = _
  rw [f2]

theorem Laws.Encoding.ncvt (x : Cv) : Statement (.ncvt x) := by
  intro h
  have h' := h
  simp only [Instr.wf] at h'
  obtain ⟨f1, f2⟩ := Cv.rf_law (x := x) (by tauto) (op := 0x11B) (by decide)
  refine enc_rf f1 h rfl rfl (fun ext w hw => ?_) h
  unfold extractFull
  rw [hw]
  show (some (Instr.ncvt (Cv.ofRF (x.rf 0x11B))) : Option Instr) = _
  rw [f2]

theorem Laws.Encoding.nunp (x : Cv) : Statement (.nunp x) := by
  intro h
  have h' := h
  simp only [Instr.wf] at h'
  obtain ⟨f1, f2⟩ := Cv.rf_law (x := x) (by tauto) (op := 0x11C) (by decide)
  refine enc_rf f1 h rfl rfl (fun ext w hw => ?_) h
  unfold extractFull
  rw [hw]
  show (some (Instr.nunp (Cv.ofRF (x.rf 0x11C))) : Option Instr) = _
  rw [f2]

theorem Laws.Encoding.ld (x : Ldg) : Statement (.ld x) := by
  intro h
  have h' := h
  simp only [Instr.wf] at h'
  obtain ⟨f1, f2⟩ := Ldg.mf_law (x := x) (by tauto)
  refine enc_mf f1 h rfl rfl (fun ext w hw ho => ?_) h
  unfold extractFull
  generalize RF.ofWord w = q at ho ⊢
  cases q
  cases ho
  rw [hw]
  show ((Ldg.ofMF x.mf).map Instr.ld : Option Instr) = _
  rw [f2]
  rfl

theorem Laws.Encoding.st (x : Stg) : Statement (.st x) := by
  intro h
  have h' := h
  simp only [Instr.wf] at h'
  obtain ⟨f1, f2⟩ := Stg.mf_law (x := x) (by tauto)
  refine enc_mf f1 h rfl rfl (fun ext w hw ho => ?_) h
  unfold extractFull
  generalize RF.ofWord w = q at ho ⊢
  cases q
  cases ho
  rw [hw]
  show ((Stg.ofMF x.mf).map Instr.st : Option Instr) = _
  rw [f2]
  rfl

theorem Laws.Encoding.lds (x : Lds) : Statement (.lds x) := by
  intro h
  have h' := h
  simp only [Instr.wf, Bool.and_eq_true] at h'
  obtain ⟨f1, f2⟩ := Lds.mf_law (x := x) (by tauto) (op := 0x1C2) (by decide)
  refine enc_mf f1 h rfl rfl (fun ext w hw ho => ?_) h
  unfold extractFull
  generalize RF.ofWord w = q at ho ⊢
  cases q
  cases ho
  rw [hw]
  show ((Lds.ofMF (x.mf 0x1C2)).map Instr.lds : Option Instr) = _
  rw [f2]
  rfl

theorem Laws.Encoding.sts (x : Sts) : Statement (.sts x) := by
  intro h
  have h' := h
  simp only [Instr.wf, Bool.and_eq_true] at h'
  obtain ⟨f1, f2⟩ := Sts.mf_law (x := x) (by tauto) (op := 0x1C3) (by decide)
  refine enc_mf f1 h rfl rfl (fun ext w hw ho => ?_) h
  unfold extractFull
  generalize RF.ofWord w = q at ho ⊢
  cases q
  cases ho
  rw [hw]
  show ((Sts.ofMF (x.mf 0x1C3)).map Instr.sts : Option Instr) = _
  rw [f2]
  rfl

theorem Laws.Encoding.ldx (x : Lds) : Statement (.ldx x) := by
  intro h
  have h' := h
  simp only [Instr.wf] at h'
  obtain ⟨f1, f2⟩ := Lds.mf_law (x := x) (by tauto) (op := 0x1C4) (by decide)
  refine enc_mf f1 h rfl rfl (fun ext w hw ho => ?_) h
  unfold extractFull
  generalize RF.ofWord w = q at ho ⊢
  cases q
  cases ho
  rw [hw]
  show ((Lds.ofMF (x.mf 0x1C4)).map Instr.ldx : Option Instr) = _
  rw [f2]
  rfl

theorem Laws.Encoding.stx (x : Sts) : Statement (.stx x) := by
  intro h
  have h' := h
  simp only [Instr.wf] at h'
  obtain ⟨f1, f2⟩ := Sts.mf_law (x := x) (by tauto) (op := 0x1C5) (by decide)
  refine enc_mf f1 h rfl rfl (fun ext w hw ho => ?_) h
  unfold extractFull
  generalize RF.ofWord w = q at ho ⊢
  cases q
  cases ho
  rw [hw]
  show ((Sts.ofMF (x.mf 0x1C5)).map Instr.stx : Option Instr) = _
  rw [f2]
  rfl

theorem Laws.Encoding.atom (x : Atm) : Statement (.atom x) := by
  intro h
  have h' := h
  simp only [Instr.wf] at h'
  obtain ⟨f1, f2⟩ := Atm.mf_law (x := x) (by tauto) (op := 0x1C6) (by decide)
  refine enc_mf f1 h rfl rfl (fun ext w hw ho => ?_) h
  unfold extractFull
  generalize RF.ofWord w = q at ho ⊢
  cases q
  cases ho
  rw [hw]
  show ((Atm.ofMF (x.mf 0x1C6)).map Instr.atom : Option Instr) = _
  rw [f2]
  rfl

theorem Laws.Encoding.red (x : Rdg) : Statement (.red x) := by
  intro h
  have h' := h
  simp only [Instr.wf] at h'
  obtain ⟨f1, f2⟩ := Rdg.mf_law (x := x) (by tauto)
  refine enc_mf f1 h rfl rfl (fun ext w hw ho => ?_) h
  unfold extractFull
  generalize RF.ofWord w = q at ho ⊢
  cases q
  cases ho
  rw [hw]
  show ((Rdg.ofMF x.mf).map Instr.red : Option Instr) = _
  rw [f2]
  rfl

theorem Laws.Encoding.atoms (x : Atm) : Statement (.atoms x) := by
  intro h
  have h' := h
  simp only [Instr.wf, Bool.and_eq_true] at h'
  obtain ⟨f1, f2⟩ := Atm.mf_law (x := x) (by tauto) (op := 0x1C8) (by decide)
  refine enc_mf f1 h rfl rfl (fun ext w hw ho => ?_) h
  unfold extractFull
  generalize RF.ofWord w = q at ho ⊢
  cases q
  cases ho
  rw [hw]
  show ((Atm.ofMF (x.mf 0x1C8)).map Instr.atoms : Option Instr) = _
  rw [f2]
  rfl

theorem Laws.Encoding.fence (g : Guard) (kind : FenceKind) (sc : Scope) : Statement (.fence g kind sc) := by
  intro h
  have c_kind := (FenceKind.code_lt kind).1
  have c_sc := (Scope.code_lt sc).1
  have h' := h
  simp only [Instr.wf] at h'
  have hg : g.p < 8 := Guard.ok_lt (by tauto)
  refine enc_rf (f := ({ RF.zero g 0x1C9 with spec := sc.code + 8 * kind.code } : RF)) (by constructor <;> (try simp only [RF.zero]) <;> omega) h rfl rfl (fun ext w hw => ?_) h
  unfold extractFull
  rw [hw]
  show (do let k ← FenceKind.ofCode ((sc.code + 8 * kind.code) / 8 % 4); let s ← Scope.ofCode ((sc.code + 8 * kind.code) % 8); pure (Instr.fence g k s) : Option Instr) = _
  have e0 : (sc.code + 8 * kind.code) / 8 % 4 = kind.code := by omega
  have e1 : (sc.code + 8 * kind.code) % 8 = sc.code := by omega
  have e2 : FenceKind.ofCode kind.code = some kind := (FenceKind.code_lt kind).2
  have e3 : Scope.ofCode sc.code = some sc := (Scope.code_lt sc).2
  rw [e0, e1, e2, e3]
  rfl

theorem Laws.Encoding.acqr (g : Guard) (a : Nat) : Statement (.acqr g a) := by
  intro h
  have h' := h
  simp only [Instr.wf, Bool.and_eq_true, decide_eq_true_eq] at h'
  have hg : g.p < 8 := Guard.ok_lt (by tauto)
  refine enc_rf (f := ({ RF.zero g 0x1CA with a := a } : RF)) (by constructor <;> (try simp only [RF.zero]) <;> omega) h rfl rfl (fun ext w hw => ?_) h
  unfold extractFull
  rw [hw]
  show (some (Instr.acqr g a) : Option Instr) = _
  rfl

theorem Laws.Encoding.waita (g : Guard) (global : Bool) (d a b : Nat) : Statement (.waita g global d a b) := by
  intro h
  have b_global := toNat_lt global
  have h' := h
  simp only [Instr.wf, okPair, Bool.and_eq_true, decide_eq_true_eq] at h'
  have hg : g.p < 8 := Guard.ok_lt (by tauto)
  have ha : a < 256 := by have := h'.1.2; split at this <;> simp only [Bool.and_eq_true, decide_eq_true_eq] at this <;> omega
  refine enc_rf (f := ({ RF.zero g 0x1CB with d := d, a := a, b := b, spec := global.toNat } : RF)) (by constructor <;> (try simp only [RF.zero]) <;> omega) h rfl rfl (fun ext w hw => ?_) h
  unfold extractFull
  rw [hw]
  show (some (Instr.waita g (bit global.toNat 0) d a b) : Option Instr) = _
  have e0 : bit (global.toNat) 0 = global := by unfold bit; rw [show (global.toNat) / 2 ^ 0 % 2 = global.toNat by omega]; exact beq_toNat _
  rw [e0]

theorem Laws.Encoding.cpy (g : Guard) (d a fl : Nat) : Statement (.cpy g d a fl) := by
  intro h
  have h' := h
  simp only [Instr.wf, okPair, Bool.and_eq_true, decide_eq_true_eq] at h'
  have hg : g.p < 8 := Guard.ok_lt (by tauto)
  refine enc_rf (f := ({ RF.zero g 0x1CC with d := d, a := a, sel := fl } : RF)) (by constructor <;> (try simp only [RF.zero]) <;> omega) h rfl rfl (fun ext w hw => ?_) h
  unfold extractFull
  rw [hw]
  show (some (Instr.cpy g d a fl) : Option Instr) = _
  rfl

theorem Laws.Encoding.tlwait (g : Guard) (tile : Bool) (a : Nat) : Statement (.tlwait g tile a) := by
  intro h
  have b_tile := toNat_lt tile
  have h' := h
  simp only [Instr.wf, okPair, Bool.and_eq_true, decide_eq_true_eq] at h'
  have hg : g.p < 8 := Guard.ok_lt (by tauto)
  refine enc_rf (f := ({ RF.zero g 0x1CD with a := a, spec := tile.toNat } : RF)) (by constructor <;> (try simp only [RF.zero]) <;> omega) h rfl rfl (fun ext w hw => ?_) h
  unfold extractFull
  rw [hw]
  show (some (Instr.tlwait g (bit tile.toNat 0) a) : Option Instr) = _
  have e0 : bit (tile.toNat) 0 = tile := by unfold bit; rw [show (tile.toNat) / 2 ^ 0 % 2 = tile.toNat by omega]; exact beq_toNat _
  rw [e0]

theorem Laws.Encoding.tlread (g : Guard) (fl : TlSel) (d : Nat) : Statement (.tlread g fl d) := by
  intro h
  have c_fl := (TlSel.code_lt fl).1
  have h' := h
  simp only [Instr.wf, okPair, Bool.and_eq_true, decide_eq_true_eq] at h'
  have hg : g.p < 8 := Guard.ok_lt (by tauto)
  refine enc_rf (f := ({ RF.zero g 0x1CE with d := d, spec := fl.code } : RF)) (by constructor <;> (try simp only [RF.zero]) <;> omega) h rfl rfl (fun ext w hw => ?_) h
  unfold extractFull
  rw [hw]
  show ((TlSel.ofCode (fl.code % 4)).map (fun s => Instr.tlread g s d) : Option Instr) = _
  have e0 : fl.code % 4 = fl.code := by omega
  have e1 : TlSel.ofCode fl.code = some fl := (TlSel.code_lt fl).2
  rw [e0, e1]
  rfl

theorem Laws.Encoding.pref (g : Guard) (sc : Scope) (a : Nat) (off : Int) : Statement (.pref g sc a off) := by
  intro h
  have c_sc := (Scope.code_lt sc).1
  have h' := h
  simp only [Instr.wf, okPair, Bool.and_eq_true, decide_eq_true_eq] at h'
  have hg : g.p < 8 := Guard.ok_lt (by tauto)
  obtain ⟨s1, s2⟩ := sext_unsext 17 off (by decide) (by tauto)
  refine enc_mf (f := (⟨g, 0x1CF, 0, a, 0, sc.code, 0, 0, unsext 17 off⟩ : MF)) (by constructor <;> dsimp only <;> omega) h rfl rfl (fun ext w hw ho => ?_) h
  unfold extractFull
  generalize RF.ofWord w = q at ho ⊢
  cases q
  cases ho
  rw [hw]
  show ((Scope.ofCode sc.code).map (fun s => Instr.pref g s a (sext 17 (unsext 17 off))) : Option Instr) = _
  rw [(Scope.code_lt sc).2, s1]
  rfl

theorem Laws.Encoding.chend (g : Guard) : Statement (.chend g) := by
  intro h
  have h' := h
  simp only [Instr.wf] at h'
  have hg : g.p < 8 := Guard.ok_lt (by tauto)
  refine enc_rf (f := (RF.zero g 0x240)) (by constructor <;> (try simp only [RF.zero]) <;> omega) h rfl rfl (fun ext w hw => ?_) h
  unfold extractFull
  rw [hw]
  show (some (Instr.chend g) : Option Instr) = _
  rfl

theorem Laws.Encoding.chstat (g : Guard) (fl : ChSel) (d : Nat) : Statement (.chstat g fl d) := by
  intro h
  have c_fl := (ChSel.code_lt fl).1
  have h' := h
  simp only [Instr.wf, okPair, Bool.and_eq_true, decide_eq_true_eq] at h'
  have hg : g.p < 8 := Guard.ok_lt (by tauto)
  refine enc_rf (f := ({ RF.zero g 0x241 with d := d, spec := fl.code } : RF)) (by constructor <;> (try simp only [RF.zero]) <;> omega) h rfl rfl (fun ext w hw => ?_) h
  unfold extractFull
  rw [hw]
  show ((ChSel.ofCode (fl.code % 4)).map (fun s => Instr.chstat g s d) : Option Instr) = _
  have e0 : fl.code % 4 = fl.code := by omega
  have e1 : ChSel.ofCode fl.code = some fl := (ChSel.code_lt fl).2
  rw [e0, e1]
  rfl

theorem Laws.Encoding.bar (x : Bar) : Statement (.bar x) := by
  intro h
  have h' := h
  simp only [Instr.wf, Bool.and_eq_true] at h'
  have hr : x.r < 256 := by first | exact h'.2 | exact okPair_lt h'.2 | (have := h'.2; simp only [beq_iff_eq] at this; omega)
  obtain ⟨f1, f2⟩ := Bar.rf_law (x := x) h'.1 (op := 0x242) (d := 0) (a := 0) (by decide) (by omega) (by omega)
  refine enc_rf f1 h rfl rfl (fun ext w hw => ?_) h
  unfold extractFull
  rw [hw]
  have hz : x.r = 0 := by have := h'.2; simpa using this
  show (Bar.ofRF (x.rf 0x242 0 0) 0).map Instr.bar = _
  rw [hz] at f2
  rw [f2]
  rfl

theorem Laws.Encoding.barv (x : Bar) : Statement (.barv x) := by
  intro h
  have h' := h
  simp only [Instr.wf, Bool.and_eq_true, decide_eq_true_eq] at h'
  have hr : x.r < 256 := h'.2
  obtain ⟨f1, f2⟩ := Bar.rf_law (x := x) h'.1 (op := 0x243) (d := x.r) (a := 0) (by decide) (by omega) (by omega)
  refine enc_rf f1 h rfl rfl (fun ext w hw => ?_) h
  unfold extractFull
  rw [hw]
  show (Bar.ofRF (x.rf 0x243 x.r 0) x.r).map Instr.barv = _
  rw [f2]
  rfl

theorem Laws.Encoding.barw (x : Bar) : Statement (.barw x) := by
  intro h
  have h' := h
  simp only [Instr.wf, Bool.and_eq_true, decide_eq_true_eq] at h'
  have hr : x.r < 256 := h'.2
  obtain ⟨f1, f2⟩ := Bar.rf_law (x := x) h'.1 (op := 0x244) (d := 0) (a := x.r) (by decide) (by omega) (by omega)
  refine enc_rf f1 h rfl rfl (fun ext w hw => ?_) h
  unfold extractFull
  rw [hw]
  show (Bar.ofRF (x.rf 0x244 0 x.r) x.r).map Instr.barw = _
  rw [f2]
  rfl

theorem Laws.Encoding.barst (x : Bar) : Statement (.barst x) := by
  intro h
  have h' := h
  simp only [Instr.wf, Bool.and_eq_true] at h'
  have hr : x.r < 256 := okPair_lt h'.2
  obtain ⟨f1, f2⟩ := Bar.rf_law (x := x) h'.1 (op := 0x245) (d := x.r) (a := 0) (by decide) (by omega) (by omega)
  refine enc_rf f1 h rfl rfl (fun ext w hw => ?_) h
  unfold extractFull
  rw [hw]
  show (Bar.ofRF (x.rf 0x245 x.r 0) x.r).map Instr.barst = _
  rw [f2]
  rfl

theorem Laws.Encoding.tzero (g : Guard) (tile : Nat) (free : Bool) (d : Nat) : Statement (.tzero g tile free d) := by
  intro h
  have b_free := toNat_lt free
  have h' := h
  simp only [Instr.wf, okPair, Bool.and_eq_true, decide_eq_true_eq] at h'
  have hg : g.p < 8 := Guard.ok_lt (by tauto)
  refine enc_rf (f := ({ RF.zero g 0x280 with d := d, spec := tile + 4 * free.toNat } : RF)) (by constructor <;> (try simp only [RF.zero]) <;> omega) h rfl rfl (fun ext w hw => ?_) h
  unfold extractFull
  rw [hw]
  show (some (Instr.tzero g ((tile + 4 * free.toNat) % 4) (bit (tile + 4 * free.toNat) 2) d) : Option Instr) = _
  have e0 : bit (tile + 4 * free.toNat) 2 = free := by unfold bit; rw [show (tile + 4 * free.toNat) / 2 ^ 2 % 2 = free.toNat by omega]; exact beq_toNat _
  have e1 : (tile + 4 * free.toNat) % 4 = tile := by omega
  rw [e0, e1]

theorem Laws.Encoding.tld (x : Tls) : Statement (.tld x) := by
  intro h
  have h' := h
  simp only [Instr.wf] at h'
  obtain ⟨f1, f2⟩ := Tls.rf_law (x := x) (by tauto) (op := 0x281) (by decide)
  refine enc_rf f1 h rfl rfl (fun ext w hw => ?_) h
  unfold extractFull
  rw [hw]
  show (some (Instr.tld (Tls.ofRF (x.rf 0x281))) : Option Instr) = _
  rw [f2]

theorem Laws.Encoding.tst (x : Tls) : Statement (.tst x) := by
  intro h
  have h' := h
  simp only [Instr.wf] at h'
  obtain ⟨f1, f2⟩ := Tls.rf_law (x := x) (by tauto) (op := 0x282) (by decide)
  refine enc_rf f1 h rfl rfl (fun ext w hw => ?_) h
  unfold extractFull
  rw [hw]
  show (some (Instr.tst (Tls.ofRF (x.rf 0x282))) : Option Instr) = _
  rw [f2]

theorem Laws.Encoding.tmma (g : Guard) (d a fl : Nat) : Statement (.tmma g d a fl) := by
  intro h
  have h' := h
  simp only [Instr.wf, okPair, Bool.and_eq_true, decide_eq_true_eq] at h'
  have hg : g.p < 8 := Guard.ok_lt (by tauto)
  refine enc_rf (f := ({ RF.zero g 0x283 with d := d, a := a, sel := fl } : RF)) (by constructor <;> (try simp only [RF.zero]) <;> omega) h rfl rfl (fun ext w hw => ?_) h
  unfold extractFull
  rw [hw]
  show (some (Instr.tmma g d a fl) : Option Instr) = _
  rfl

theorem Laws.Encoding.tdadd (g : Guard) (tx ty d a fl : Nat) : Statement (.tdadd g tx ty d a fl) := by
  intro h
  have h' := h
  simp only [Instr.wf, okPair, Bool.and_eq_true, decide_eq_true_eq] at h'
  have hg : g.p < 8 := Guard.ok_lt (by tauto)
  refine enc_rf (f := ({ RF.zero g 0x284 with d := d, a := a, spec := tx + 4 * ty, sel := fl } : RF)) (by constructor <;> (try simp only [RF.zero]) <;> omega) h rfl rfl (fun ext w hw => ?_) h
  unfold extractFull
  rw [hw]
  show (some (Instr.tdadd g ((tx + 4 * ty) % 4) ((tx + 4 * ty) / 4 % 4) d a fl) : Option Instr) = _
  have e0 : (tx + 4 * ty) % 4 = tx := by omega
  have e1 : (tx + 4 * ty) / 4 % 4 = ty := by omega
  rw [e0, e1]

theorem Laws.Encoding.twait (g : Guard) (tile d a : Nat) : Statement (.twait g tile d a) := by
  intro h
  have h' := h
  simp only [Instr.wf, Bool.and_eq_true, decide_eq_true_eq] at h'
  have hg : g.p < 8 := Guard.ok_lt (by tauto)
  refine enc_rf (f := ({ RF.zero g 0x285 with d := d, a := a, spec := tile } : RF)) (by constructor <;> (try simp only [RF.zero]) <;> omega) h rfl rfl (fun ext w hw => ?_) h
  unfold extractFull
  rw [hw]
  show (some (Instr.twait g (tile % 4) d a) : Option Instr) = _
  have e0 : tile % 4 = tile := by omega
  rw [e0]

theorem Laws.Encoding.tcode (g : Guard) (d a fl : Nat) : Statement (.tcode g d a fl) := by
  intro h
  have h' := h
  simp only [Instr.wf, okPair, Bool.and_eq_true, decide_eq_true_eq] at h'
  have hg : g.p < 8 := Guard.ok_lt (by tauto)
  refine enc_rf (f := ({ RF.zero g 0x286 with d := d, a := a, sel := fl } : RF)) (by constructor <;> (try simp only [RF.zero]) <;> omega) h rfl rfl (fun ext w hw => ?_) h
  unfold extractFull
  rw [hw]
  show (some (Instr.tcode g d a fl) : Option Instr) = _
  rfl

theorem Laws.Encoding.tlu (x : Fac) : Statement (.tlu x) := by
  intro h
  have h' := h
  simp only [Instr.wf, Bool.and_eq_true] at h'
  obtain ⟨f1, f2⟩ := Fac.rf_law (x := x) (by tauto) (op := 0x287) (e := 0) (by decide) (by omega) (by omega)
  refine enc_rf f1 h rfl rfl (fun ext w hw => ?_) h
  unfold extractFull
  rw [hw]
  show (some (Instr.tlu (Fac.ofRF (x.rf 0x287 0))) : Option Instr) = _
  rw [f2]

theorem Laws.Encoding.tchol (x : Fac) : Statement (.tchol x) := by
  intro h
  have h' := h
  simp only [Instr.wf, Bool.and_eq_true] at h'
  obtain ⟨f1, f2⟩ := Fac.rf_law (x := x) (by tauto) (op := 0x288) (e := 0) (by decide) (by omega) (by omega)
  refine enc_rf f1 h rfl rfl (fun ext w hw => ?_) h
  unfold extractFull
  rw [hw]
  show (some (Instr.tchol (Fac.ofRF (x.rf 0x288 0))) : Option Instr) = _
  rw [f2]

theorem Laws.Encoding.tqr (x : Fac) : Statement (.tqr x) := by
  intro h
  have h' := h
  simp only [Instr.wf] at h'
  obtain ⟨f1, f2⟩ := Fac.rf_law (x := x) (by tauto) (op := 0x289) (e := 0) (by decide) (by omega) (by omega)
  refine enc_rf f1 h rfl rfl (fun ext w hw => ?_) h
  unfold extractFull
  rw [hw]
  show (some (Instr.tqr (Fac.ofRF (x.rf 0x289 0))) : Option Instr) = _
  rw [f2]

theorem Laws.Encoding.ttrsm (tr unit up : Bool) (x : Fac) : Statement (.ttrsm tr unit up x) := by
  intro h
  have b_tr := toNat_lt tr
  have b_unit := toNat_lt unit
  have b_up := toNat_lt up
  have h' := h
  simp only [Instr.wf] at h'
  obtain ⟨f1, f2⟩ := Fac.rf_law (x := x) (by tauto) (op := 0x28A) (e := (16 * up.toNat + 32 * unit.toNat + 64 * tr.toNat)) (by decide) (by omega) (by omega)
  refine enc_rf f1 h rfl rfl (fun ext w hw => ?_) h
  unfold extractFull
  rw [hw]
  show (some (Instr.ttrsm (bit (x.tile + 4 * x.sec + ((16 * up.toNat + 32 * unit.toNat + 64 * tr.toNat))) 6) (bit (x.tile + 4 * x.sec + ((16 * up.toNat + 32 * unit.toNat + 64 * tr.toNat))) 5) (bit (x.tile + 4 * x.sec + ((16 * up.toNat + 32 * unit.toNat + 64 * tr.toNat))) 4) (Fac.ofRF (x.rf 0x28A (16 * up.toNat + 32 * unit.toNat + 64 * tr.toNat)))) : Option Instr) = _
  have ht : x.tile < 4 := by have := h'; unfold Fac.ok at this; simp only [Bool.and_eq_true, decide_eq_true_eq] at this; omega
  have hs : x.sec < 4 := by have := h'; unfold Fac.ok at this; simp only [Bool.and_eq_true, decide_eq_true_eq] at this; omega
  have e0 : bit (x.tile + 4 * x.sec + (16 * up.toNat + 32 * unit.toNat + 64 * tr.toNat)) 6 = tr := by unfold bit; rw [show (x.tile + 4 * x.sec + (16 * up.toNat + 32 * unit.toNat + 64 * tr.toNat)) / 2 ^ 6 % 2 = tr.toNat by omega]; exact beq_toNat _
  have e1 : bit (x.tile + 4 * x.sec + (16 * up.toNat + 32 * unit.toNat + 64 * tr.toNat)) 5 = unit := by unfold bit; rw [show (x.tile + 4 * x.sec + (16 * up.toNat + 32 * unit.toNat + 64 * tr.toNat)) / 2 ^ 5 % 2 = unit.toNat by omega]; exact beq_toNat _
  have e2 : bit (x.tile + 4 * x.sec + (16 * up.toNat + 32 * unit.toNat + 64 * tr.toNat)) 4 = up := by unfold bit; rw [show (x.tile + 4 * x.sec + (16 * up.toNat + 32 * unit.toNat + 64 * tr.toNat)) / 2 ^ 4 % 2 = up.toNat by omega]; exact beq_toNat _
  rw [e0, e1, e2]
  rw [f2]

theorem Laws.Encoding.pvap (g : Guard) (tile pv : Nat) (inv : Bool) (d fl : Nat) : Statement (.pvap g tile pv inv d fl) := by
  intro h
  have b_inv := toNat_lt inv
  have h' := h
  simp only [Instr.wf, okPair, Bool.and_eq_true, decide_eq_true_eq] at h'
  have hg : g.p < 8 := Guard.ok_lt (by tauto)
  refine enc_rf (f := ({ RF.zero g 0x28B with d := d, spec := tile + 4 * pv + 16 * inv.toNat, sel := fl } : RF)) (by constructor <;> (try simp only [RF.zero]) <;> omega) h rfl rfl (fun ext w hw => ?_) h
  unfold extractFull
  rw [hw]
  show (some (Instr.pvap g ((tile + 4 * pv + 16 * inv.toNat) % 4) ((tile + 4 * pv + 16 * inv.toNat) / 4 % 4) (bit (tile + 4 * pv + 16 * inv.toNat) 4) d fl) : Option Instr) = _
  have e0 : (tile + 4 * pv + 16 * inv.toNat) % 4 = tile := by omega
  have e1 : (tile + 4 * pv + 16 * inv.toNat) / 4 % 4 = pv := by omega
  have e2 : bit (tile + 4 * pv + 16 * inv.toNat) 4 = inv := by unfold bit; rw [show (tile + 4 * pv + 16 * inv.toNat) / 2 ^ 4 % 2 = inv.toNat by omega]; exact beq_toNat _
  rw [e0, e1, e2]

theorem Laws.Encoding.tstat (g : Guard) (fl : TsSel) (tile d : Nat) : Statement (.tstat g fl tile d) := by
  intro h
  have c_fl := (TsSel.code_lt fl).1
  have h' := h
  simp only [Instr.wf, okPair, Bool.and_eq_true, decide_eq_true_eq] at h'
  have hg : g.p < 8 := Guard.ok_lt (by tauto)
  refine enc_rf (f := ({ RF.zero g 0x28C with d := d, spec := tile + 4 * fl.code } : RF)) (by constructor <;> (try simp only [RF.zero]) <;> omega) h rfl rfl (fun ext w hw => ?_) h
  unfold extractFull
  rw [hw]
  show ((TsSel.ofCode ((tile + 4 * fl.code) / 4 % 4)).map (fun s => Instr.tstat g s ((tile + 4 * fl.code) % 4) d) : Option Instr) = _
  have e0 : (tile + 4 * fl.code) / 4 % 4 = fl.code := by omega
  have e1 : (tile + 4 * fl.code) % 4 = tile := by omega
  have e2 : TsSel.ofCode fl.code = some fl := (TsSel.code_lt fl).2
  rw [e0, e1, e2]
  rfl

theorem Laws.Encoding.handle (g : Guard) (id d : Nat) (off : Int) (entry : Nat) : Statement (.handle g id d off entry) := by
  intro h
  have h' := h
  simp only [Instr.wf, okPair, okEffect, Bool.and_eq_true, decide_eq_true_eq] at h'
  have hg : g.p < 8 := Guard.ok_lt (by tauto)
  obtain ⟨s1, s2⟩ := sext_unsext 17 off (by decide) (by tauto)
  refine enc_ef2 (f := (⟨g, 0x300, d, 0, id, unsext 17 off⟩ : EF)) (by constructor <;> dsimp only <;> omega) h rfl rfl (by tauto) (fun w hw ho => ?_) h
  unfold extractFull
  generalize RF.ofWord w = q at ho ⊢
  cases q
  cases ho
  rw [hw]
  show some (Instr.handle g id d (sext 17 (unsext 17 off)) entry) = _
  rw [s1]

theorem Laws.Encoding.endh (g : Guard) : Statement (.endh g) := by
  intro h
  have h' := h
  simp only [Instr.wf] at h'
  have hg : g.p < 8 := Guard.ok_lt (by tauto)
  refine enc_rf (f := (RF.zero g 0x301)) (by constructor <;> (try simp only [RF.zero]) <;> omega) h rfl rfl (fun ext w hw => ?_) h
  unfold extractFull
  rw [hw]
  show (some (Instr.endh g) : Option Instr) = _
  rfl

theorem Laws.Encoding.perform (g : Guard) (multi : Bool) (id : Nat) : Statement (.perform g multi id) := by
  intro h
  have b_multi := toNat_lt multi
  have h' := h
  simp only [Instr.wf, okEffect, Bool.and_eq_true, decide_eq_true_eq] at h'
  have hg : g.p < 8 := Guard.ok_lt (by tauto)
  refine enc_ef (f := (⟨g, 0x302, 0, 0, id, 4 * multi.toNat⟩ : EF)) (by constructor <;> dsimp only <;> omega) h rfl rfl (fun ext w hw ho => ?_) h
  unfold extractFull
  generalize RF.ofWord w = q at ho ⊢
  cases q
  cases ho
  rw [hw]
  show some (Instr.perform g (bit (4 * multi.toNat) 2) id) = _
  have e0 : bit (4 * multi.toNat) 2 = multi := by unfold bit; rw [show 4 * multi.toNat / 2 ^ 2 % 2 = multi.toNat by omega]; exact beq_toNat _
  rw [e0]

theorem Laws.Encoding.resume (g : Guard) (a : Nat) : Statement (.resume g a) := by
  intro h
  have h' := h
  simp only [Instr.wf, Bool.and_eq_true, decide_eq_true_eq] at h'
  have hg : g.p < 8 := Guard.ok_lt (by tauto)
  refine enc_rf (f := ({ RF.zero g 0x303 with a := a } : RF)) (by constructor <;> (try simp only [RF.zero]) <;> omega) h rfl rfl (fun ext w hw => ?_) h
  unfold extractFull
  rw [hw]
  show (some (Instr.resume g a) : Option Instr) = _
  rfl

theorem Laws.Encoding.drop (g : Guard) (a : Nat) : Statement (.drop g a) := by
  intro h
  have h' := h
  simp only [Instr.wf, Bool.and_eq_true, decide_eq_true_eq] at h'
  have hg : g.p < 8 := Guard.ok_lt (by tauto)
  refine enc_rf (f := ({ RF.zero g 0x304 with a := a } : RF)) (by constructor <;> (try simp only [RF.zero]) <;> omega) h rfl rfl (fun ext w hw => ?_) h
  unfold extractFull
  rw [hw]
  show (some (Instr.drop g a) : Option Instr) = _
  rfl

theorem Laws.Encoding.hret (g : Guard) : Statement (.hret g) := by
  intro h
  have h' := h
  simp only [Instr.wf] at h'
  have hg : g.p < 8 := Guard.ok_lt (by tauto)
  refine enc_rf (f := (RF.zero g 0x305)) (by constructor <;> (try simp only [RF.zero]) <;> omega) h rfl rfl (fun ext w hw => ?_) h
  unfold extractFull
  rw [hw]
  show (some (Instr.hret g) : Option Instr) = _
  rfl

theorem Laws.Encoding.hstat (g : Guard) (fl : HsSel) (d a : Nat) : Statement (.hstat g fl d a) := by
  intro h
  have c_fl := (HsSel.code_lt fl).1
  have h' := h
  simp only [Instr.wf, Bool.and_eq_true, decide_eq_true_eq] at h'
  have hg : g.p < 8 := Guard.ok_lt (by tauto)
  refine enc_rf (f := ({ RF.zero g 0x306 with d := d, a := a, spec := fl.code } : RF)) (by constructor <;> (try simp only [RF.zero]) <;> omega) h rfl rfl (fun ext w hw => ?_) h
  unfold extractFull
  rw [hw]
  show ((HsSel.ofCode (fl.code % 4)).map (fun s => Instr.hstat g s d a) : Option Instr) = _
  have e0 : fl.code % 4 = fl.code := by omega
  have e1 : HsSel.ofCode fl.code = some fl := (HsSel.code_lt fl).2
  rw [e0, e1]
  rfl

theorem Laws.Encoding.svc (g : Guard) (n : Nat) : Statement (.svc g n) := by
  intro h
  have h' := h
  simp only [Instr.wf, Bool.and_eq_true, decide_eq_true_eq] at h'
  have hg : g.p < 8 := Guard.ok_lt (by tauto)
  refine enc_if (f := (⟨g, 0x340, 0, 0, n⟩ : IF)) (by constructor <;> dsimp only <;> omega) h rfl rfl (fun ext w hw ho => ?_) h
  unfold extractFull
  generalize RF.ofWord w = q at ho ⊢
  cases q
  cases ho
  rw [hw]
  rfl

theorem Laws.Encoding.launch (g : Guard) (d a b : Nat) : Statement (.launch g d a b) := by
  intro h
  have h' := h
  simp only [Instr.wf, okPair, Bool.and_eq_true, decide_eq_true_eq] at h'
  have hg : g.p < 8 := Guard.ok_lt (by tauto)
  refine enc_rf (f := ({ RF.zero g 0x341 with d := d, a := a, b := b } : RF)) (by constructor <;> (try simp only [RF.zero]) <;> omega) h rfl rfl (fun ext w hw => ?_) h
  unfold extractFull
  rw [hw]
  show (some (Instr.launch g d a b) : Option Instr) = _
  rfl

theorem Laws.Encoding.sleep (g : Guard) (absT : Bool) (a : Nat) : Statement (.sleep g absT a) := by
  intro h
  have b_absT := toNat_lt absT
  have h' := h
  simp only [Instr.wf, okPair, Bool.and_eq_true, decide_eq_true_eq] at h'
  have hg : g.p < 8 := Guard.ok_lt (by tauto)
  refine enc_rf (f := ({ RF.zero g 0x342 with a := a, spec := absT.toNat } : RF)) (by constructor <;> (try simp only [RF.zero]) <;> omega) h rfl rfl (fun ext w hw => ?_) h
  unfold extractFull
  rw [hw]
  show (some (Instr.sleep g (bit absT.toNat 0) a) : Option Instr) = _
  have e0 : bit (absT.toNat) 0 = absT := by unfold bit; rw [show (absT.toNat) / 2 ^ 0 % 2 = absT.toNat by omega]; exact beq_toNat _
  rw [e0]

theorem Laws.Encoding.clauseIssue (core gid : Nat) (tixs : List Nat) : Statement (.clauseIssue core gid tixs) :=
  enc_none rfl

theorem Laws.Encoding.ftldFlip (core ft : Nat) : Statement (.ftldFlip core ft) :=
  enc_none rfl

theorem Laws.Encoding.loadDataArrive (gid tix id : Nat) : Statement (.loadDataArrive gid tix id) :=
  enc_none rfl

theorem Laws.Encoding.stxPerform (id : Nat) : Statement (.stxPerform id) :=
  enc_none rfl

theorem Laws.Encoding.stxAck (id : Nat) : Statement (.stxAck id) :=
  enc_none rfl

theorem Laws.Encoding.waitaWake (gid tix : Nat) : Statement (.waitaWake gid tix) :=
  enc_none rfl

theorem Laws.Encoding.waitaRepoll (gid tix : Nat) : Statement (.waitaRepoll gid tix) :=
  enc_none rfl

theorem Laws.Encoding.copyPiece (core : Nat) : Statement (.copyPiece core) :=
  enc_none rfl

theorem Laws.Encoding.copyComplete (core : Nat) : Statement (.copyComplete core) :=
  enc_none rfl

theorem Laws.Encoding.escapingReissue (gid tix : Nat) : Statement (.escapingReissue gid tix) :=
  enc_none rfl

theorem Laws.Encoding.brokenStopTimeout (gid tix : Nat) : Statement (.brokenStopTimeout gid tix) :=
  enc_none rfl

theorem Laws.Encoding.tdaddArrival (gid n : Nat) (peer : Option PeerAdd) : Statement (.tdaddArrival gid n peer) :=
  enc_none rfl

theorem Laws.Encoding.tdaddAck (gid n : Nat) : Statement (.tdaddAck gid n) :=
  enc_none rfl

theorem Laws.Encoding.tileCommandComplete (core gid n : Nat) : Statement (.tileCommandComplete core gid n) :=
  enc_none rfl

theorem Laws.Encoding.factorisationStep (core gid n : Nat) : Statement (.factorisationStep core gid n) :=
  enc_none rfl

theorem Laws.Encoding.builtinEffectDelivery (gid tix : Nat) : Statement (.builtinEffectDelivery gid tix) :=
  enc_none rfl

theorem Laws.Encoding.sleepWake (gid tix : Nat) : Statement (.sleepWake gid tix) :=
  enc_none rfl

theorem Laws.Encoding.chunkClose (core : Nat) : Statement (.chunkClose core) :=
  enc_none rfl

theorem Laws.Encoding.chunkTimerExpire (core : Nat) : Statement (.chunkTimerExpire core) :=
  enc_none rfl

theorem Laws.Encoding.signatureParityError (core : Nat) (committing : Bool) : Statement (.signatureParityError core committing) :=
  enc_none rfl

theorem Laws.Encoding.tidemarkGrant (core : Nat) : Statement (.tidemarkGrant core) :=
  enc_none rfl

theorem Laws.Encoding.runCountLimit (core : Nat) : Statement (.runCountLimit core) :=
  enc_none rfl

theorem Laws.Encoding.soloGrant (core : Nat) : Statement (.soloGrant core) :=
  enc_none rfl

theorem Laws.Encoding.rejoinCycleDetect (gid : Nat) (tixs : List Nat) : Statement (.rejoinCycleDetect gid tixs) :=
  enc_none rfl

theorem Laws.Encoding.ageingThreshold (gid tix : Nat) : Statement (.ageingThreshold gid tix) :=
  enc_none rfl

theorem Laws.Encoding.groupPlace (kid die core : Nat) : Statement (.groupPlace kid die core) :=
  enc_none rfl

theorem Laws.Encoding.groupExit (gid : Nat) : Statement (.groupExit gid) :=
  enc_none rfl

theorem Laws.Encoding.kernelClose (kid : Nat) : Statement (.kernelClose kid) :=
  enc_none rfl

theorem Laws.Encoding.stopRequest (core : Nat) : Statement (.stopRequest core) :=
  enc_none rfl

theorem Laws.Encoding.drainLimitExpire (core : Nat) : Statement (.drainLimitExpire core) :=
  enc_none rfl

theorem Laws.Encoding.groupSave (gid : Nat) : Statement (.groupSave gid) :=
  enc_none rfl

theorem Laws.Encoding.groupRestore (gid core : Nat) : Statement (.groupRestore gid core) :=
  enc_none rfl

theorem Laws.Encoding.coreGiveUp (core : Nat) : Statement (.coreGiveUp core) :=
  enc_none rfl

theorem Laws.Encoding.preemptTrigger (kid core : Nat) : Statement (.preemptTrigger kid core) :=
  enc_none rfl

theorem Laws.Encoding.kernelSuspend (kid : Nat) : Statement (.kernelSuspend kid) :=
  enc_none rfl

theorem Laws.Encoding.thermalMove (gid : Nat) : Statement (.thermalMove gid) :=
  enc_none rfl

theorem Laws.Encoding.thermalTrip (die : Nat) : Statement (.thermalTrip die) :=
  enc_none rfl

theorem Laws.Encoding.clockSettingChange (die mhz : Nat) : Statement (.clockSettingChange die mhz) :=
  enc_none rfl

theorem Laws.Encoding.supplyDroop (die : Nat) (on : Supply) : Statement (.supplyDroop die on) :=
  enc_none rfl

theorem Laws.Encoding.faultQueueConsume (cid n : Nat) : Statement (.faultQueueConsume cid n) :=
  enc_none rfl

theorem Laws.Encoding.commandRingProduce (part : Nat) (cmds : List RingCmd) : Statement (.commandRingProduce part cmds) :=
  enc_none rfl

theorem Laws.Encoding.createContext (part : Nat) : Statement (.createContext part) :=
  enc_none rfl

theorem Laws.Encoding.destroyContext (part : Nat) : Statement (.destroyContext part) :=
  enc_none rfl

theorem Laws.Encoding.stopMode (part : Nat) : Statement (.stopMode part) :=
  enc_none rfl

theorem Laws.Encoding.resumeThreadContinue (part : Nat) : Statement (.resumeThreadContinue part) :=
  enc_none rfl

theorem Laws.Encoding.resumeThreadRetry (part : Nat) : Statement (.resumeThreadRetry part) :=
  enc_none rfl

theorem Laws.Encoding.resumeThreadAbandon (part : Nat) : Statement (.resumeThreadAbandon part) :=
  enc_none rfl

theorem Laws.Encoding.resumeThreadValue (part : Nat) : Statement (.resumeThreadValue part) :=
  enc_none rfl

theorem Laws.Encoding.saveGroup (part : Nat) : Statement (.saveGroup part) :=
  enc_none rfl

theorem Laws.Encoding.serviceReply (part : Nat) : Statement (.serviceReply part) :=
  enc_none rfl

theorem Laws.Encoding.createQueue (part : Nat) : Statement (.createQueue part) :=
  enc_none rfl

theorem Laws.Encoding.quiesce (part : Nat) : Statement (.quiesce part) :=
  enc_none rfl

theorem Laws.Encoding.reopen (part : Nat) : Statement (.reopen part) :=
  enc_none rfl

theorem Laws.Encoding.destroyQueue (part : Nat) : Statement (.destroyQueue part) :=
  enc_none rfl

theorem Laws.Encoding.queueStatus (part : Nat) : Statement (.queueStatus part) :=
  enc_none rfl

theorem Laws.Encoding.admitAdd (part : Nat) : Statement (.admitAdd part) :=
  enc_none rfl

theorem Laws.Encoding.admitRemove (part : Nat) : Statement (.admitRemove part) :=
  enc_none rfl

theorem Laws.Encoding.bind (part : Nat) : Statement (.bind part) :=
  enc_none rfl

theorem Laws.Encoding.unbind (part : Nat) : Statement (.unbind part) :=
  enc_none rfl

theorem Laws.Encoding.setPackageNumber (part : Nat) : Statement (.setPackageNumber part) :=
  enc_none rfl

theorem Laws.Encoding.migrateOut (gid tix : Nat) : Statement (.migrateOut gid tix) :=
  enc_none rfl

theorem Laws.Encoding.visitorTake (die vis : Nat) : Statement (.visitorTake die vis) :=
  enc_none rfl

theorem Laws.Encoding.visitorDisplace (die vis : Nat) (img : Image) (pc : Nat) : Statement (.visitorDisplace die vis img pc) :=
  enc_none rfl

theorem Laws.Encoding.visitorLandUbhus (die vis : Nat) (img : Image) (pc : Jump) : Statement (.visitorLandUbhus die vis img pc) :=
  enc_none rfl

theorem Laws.Encoding.returnHome (gid tix : Nat) : Statement (.returnHome gid tix) :=
  enc_none rfl

theorem Laws.Encoding.visitorException (die vis : Nat) (img : Image) (pc : Nat) (exc : VisExc) : Statement (.visitorException die vis img pc exc) :=
  enc_none rfl

theorem Laws.Encoding.sfenceVma (die hart : Nat) (va asid : Option Nat) : Statement (.sfenceVma die hart va asid) :=
  enc_none rfl

theorem Laws.Encoding.wwidthWrite (die hart : Nat) (v : DWord) : Statement (.wwidthWrite die hart v) :=
  enc_none rfl

theorem Laws.Encoding.wstackWrite (die hart : Nat) (v : DWord) : Statement (.wstackWrite die hart v) :=
  enc_none rfl

theorem Laws.Encoding.widenedCallLanding (die hart : Nat) (img : Image) (pc cid : Nat) : Statement (.widenedCallLanding die hart img pc cid) :=
  enc_none rfl

theorem Laws.Encoding.widenedCallReturn (die hart : Nat) : Statement (.widenedCallReturn die hart) :=
  enc_none rfl

theorem Laws.Encoding.tretharAttach (part : Nat) (msg : TMsg) : Statement (.tretharAttach part msg) :=
  enc_none rfl

theorem Laws.Encoding.tretharCreateContext (part : Nat) (msg : TMsg) : Statement (.tretharCreateContext part msg) :=
  enc_none rfl

theorem Laws.Encoding.tretharCreateQueue (part : Nat) (msg : TMsg) : Statement (.tretharCreateQueue part msg) :=
  enc_none rfl

theorem Laws.Encoding.submit (part : Nat) (msg : TMsg) : Statement (.submit part msg) :=
  enc_none rfl

theorem Laws.Encoding.readStatus (part : Nat) (msg : TMsg) : Statement (.readStatus part msg) :=
  enc_none rfl

theorem Laws.Encoding.detach (part : Nat) (msg : TMsg) : Statement (.detach part msg) :=
  enc_none rfl

theorem Laws.Encoding.disposeDiscard (part : Nat) (msg : TMsg) : Statement (.disposeDiscard part msg) :=
  enc_none rfl

theorem Laws.Encoding.disposeReplay (part : Nat) (msg : TMsg) : Statement (.disposeReplay part msg) :=
  enc_none rfl

theorem Laws.Encoding.disposeRead (part : Nat) (msg : TMsg) : Statement (.disposeRead part msg) :=
  enc_none rfl

theorem Laws.Encoding.recoveryWrite (part : Nat) (msg : TMsg) : Statement (.recoveryWrite part msg) :=
  enc_none rfl

theorem Laws.Encoding.disposeReplayAck (part idx : Nat) : Statement (.disposeReplayAck part idx) :=
  enc_none rfl

theorem Laws.Encoding.holdTimeExpire (qid : Nat) : Statement (.holdTimeExpire qid) :=
  enc_none rfl

theorem Laws.Encoding.hostLinkUp (part port area : Nat) : Statement (.hostLinkUp part port area) :=
  enc_none rfl

theorem Laws.Encoding.hostLinkLoss (part : Nat) : Statement (.hostLinkLoss part) :=
  enc_none rfl

theorem Laws.Encoding.hostSnoop (part : Nat) (kind : Snoop) (pa : Nat) (bytes : List Byte) : Statement (.hostSnoop part kind pa bytes) :=
  enc_none rfl

theorem Laws.Encoding.goWritepull (part : Nat) (pa : Nat) : Statement (.goWritepull part pa) :=
  enc_none rfl

theorem Laws.Encoding.portFail (port : Nat) : Statement (.portFail port) :=
  enc_none rfl

theorem Laws.Encoding.flitCrcError (die port : Nat) : Statement (.flitCrcError die port) :=
  enc_none rfl

theorem Laws.Encoding.laneFail (die port : Nat) : Statement (.laneFail die port) :=
  enc_none rfl

theorem Laws.Encoding.fabricPortDown (die port : Nat) : Statement (.fabricPortDown die port) :=
  enc_none rfl

theorem Laws.Encoding.fabricRequestArrive (pkg pa n : Nat) (op : Option AtomOp) (wr : Bool) (val : Nat) : Statement (.fabricRequestArrive pkg pa n op wr val) :=
  enc_none rfl

theorem Laws.Encoding.setPartitionTable (table : List (Nat × List Nat)) : Statement (.setPartitionTable table) :=
  enc_none rfl

theorem Laws.Encoding.setRegionTable (die : Nat) (entries : List (Nat × Nat)) : Statement (.setRegionTable die entries) :=
  enc_none rfl

theorem Laws.Encoding.writeFirmwareImage (img : List Byte) : Statement (.writeFirmwareImage img) :=
  enc_none rfl

theorem Laws.Encoding.spdmRequest (req : SpdmReq) : Statement (.spdmRequest req) :=
  enc_none rfl

theorem Laws.Encoding.packageReset  : Statement (.packageReset ) :=
  enc_none rfl

theorem Laws.Encoding.partitionHeld (part : Nat) : Statement (.partitionHeld part) :=
  enc_none rfl

theorem Laws.Encoding.scrubComplete (part : Nat) : Statement (.scrubComplete part) :=
  enc_none rfl

theorem Laws.Encoding.fatalDieError (die : Nat) : Statement (.fatalDieError die) :=
  enc_none rfl

theorem Laws.Encoding.deviceMarkFailed (die dev : Nat) : Statement (.deviceMarkFailed die dev) :=
  enc_none rfl

theorem Laws.Encoding.patrolScrub (die : Nat) : Statement (.patrolScrub die) :=
  enc_none rfl

theorem Laws.Encoding.coreFence (core : Nat) (lost : List Nat) : Statement (.coreFence core lost) :=
  enc_none rfl

theorem Laws.Encoding.arbiterTakeover (die skip : Nat) : Statement (.arbiterTakeover die skip) :=
  enc_none rfl

theorem Laws.Encoding.softError (at_ : SoftAt) (correctable : Bool) : Statement (.softError at_ correctable) :=
  enc_none rfl

theorem Laws.Encoding.dirtyEvict (cache : CacheAt) (pa : Nat) : Statement (.dirtyEvict cache pa) :=
  enc_none rfl

theorem Laws.Encoding.replicaPropagation (id : Nat) : Statement (.replicaPropagation id) :=
  enc_none rfl

theorem Laws.Encoding.writeAcknowledgement (id : Nat) : Statement (.writeAcknowledgement id) :=
  enc_none rfl

theorem Laws.Encoding.headlandAccess (acc : HartAcc) : Statement (.headlandAccess acc) :=
  enc_none rfl

theorem Laws.Encoding.kernelCancel (kid : Nat) : Statement (.kernelCancel kid) :=
  enc_none rfl

theorem Laws.Encoding.partitionResetRequest (part : Nat) : Statement (.partitionResetRequest part) :=
  enc_none rfl

end

end Sys2Proof
end

