-- ==== Sys2Proof/Tests/Slice0.lean ====
section
/-!
SUPPORT. Tests: words of the spec's encodings and what they decode to, the spec's worked examples, an ill-formed term for each
check of well-formedness, and for each statement states and operands that meet its hypotheses.
-/

namespace Sys2Proof

set_option Elab.async false

open Sys2Proof.Machine

/-- No predicate: always. -/
def g0 : Guard := ⟨false, 0⟩

/-- Each word, extension above it, decodes to its instruction. -/
def reads (l : List (Nat × Instr)) : Bool := l.all (fun e => decide (decodeTableWord 64 e.1 = some e.2))

/-! Decoding. -/

/-- Tables 3-9, 5-1, 5-2, 5-3. -/
theorem test_decode_integerA : reads [
    (0x0000000000000000, .nop g0),
    (0x00200A0420018200, .add ⟨g0, true, false, .k 5, .w 2, .imm 16⟩),
    (0x0020080406000000, .add ⟨g0, false, false, .w 4, .w 2, .w 3⟩),
    (0x00400C0810001000, .sub ⟨g0, false, true, .w 6, .w 4, .w 8⟩),
    (0x00601207FE000200, .mul ⟨g0, false, false, .w 9, .w 3, .imm 255⟩),
    (0x008012060A004000, .mulh ⟨g0, false, false, .w 9, .k 3, .w 5⟩),
    (0x00A012060A002000, .mulhu ⟨g0, false, false, .w 9, .w 3, .k 5⟩),
    (0x00C012060A0E0000, .mad ⟨g0, false, .ne, .w 9, .w 3, .w 5, 7⟩),
    (0x00E212060A000000, .div ⟨⟨false, 1⟩, false, false, .w 9, .w 3, .w 5⟩),
    (0x011212060A000000, .divu ⟨⟨true, 1⟩, false, false, .w 9, .w 3, .w 5⟩),
    (0x0121FFFDFA000000, .rem ⟨g0, false, false, .w 255, .w 254, .w 253⟩),
    (0x014012060A000000, .remu ⟨g0, false, false, .w 9, .w 3, .w 5⟩),
    (0x016010080C001000, .and ⟨g0, false, true, .w 8, .w 4, .w 6⟩),
    (0x018010080C000000, .or ⟨g0, false, false, .w 8, .w 4, .w 6⟩),
    (0x01A07E080C018000, .xor ⟨g0, true, false, .k 63, .w 4, .w 6⟩),
    (0x01C010080C000000, .andn ⟨g0, false, false, .w 8, .w 4, .w 6⟩)] = true := by decide

/-- Tables 3-9, 5-1, 5-2, 5-3. -/
theorem test_decode_integerB : reads [
    (0x01E010083E000200, .shl ⟨g0, false, false, .w 8, .w 4, .imm 31⟩),
    (0x020010087E001200, .shr ⟨g0, false, true, .w 8, .w 4, .imm 63⟩),
    (0x022010080C000000, .sra ⟨g0, false, false, .w 8, .w 4, .w 6⟩),
    (0x024010080C000000, .rol ⟨g0, false, false, .w 8, .w 4, .w 6⟩),
    (0x0260145420001008, .shladd 2 ⟨g0, false, true, .w 10, .w 42, .w 16⟩),
    (0x028010080C000000, .min ⟨g0, false, false, .w 8, .w 4, .w 6⟩),
    (0x02A010080C000000, .max ⟨g0, false, false, .w 8, .w 4, .w 6⟩),
    (0x02C010080C000000, .minu ⟨g0, false, false, .w 8, .w 4, .w 6⟩),
    (0x02E010080C000000, .maxu ⟨g0, false, false, .w 8, .w 4, .w 6⟩),
    (0x0300100800000000, .abs ⟨g0, false, false, .w 8, .w 4⟩),
    (0x0320100800010000, .clz ⟨g0, true, false, .w 8, .w 4⟩),
    (0x0340100800000000, .popc ⟨g0, false, false, .w 8, .w 4⟩),
    (0x0360100800000000, .brev ⟨g0, false, false, .w 8, .w 4⟩)] = true := by decide

/-- Tables 5-1, 5-2, 5-3, 5-5, 5-7. -/
theorem test_decode_movesA : reads [
    (0x038010080C0A0300, .bfx ⟨g0, false, .w 8, .w 4, .imm 6, .imm 5⟩),
    (0x03A010080C0A0100, .bfxu ⟨g0, false, .w 8, .w 4, .w 6, .imm 5⟩),
    (0x03C010080C0A0000, .bfi ⟨g0, false, .w 8, .w 4, .w 6, .w 5⟩),
    (0x03E010080C00002C, .sel true 3 ⟨g0, false, false, .w 8, .w 4, .w 6⟩),
    (0x0402060C0E000018, .cmp .ltu ⟨⟨false, 1⟩, false, false, 3, .w 6, .w 7⟩),
    (0x042010080C000024, .set .geu ⟨g0, false, false, .w 8, .w 4, .w 6⟩),
    (0x0440100800004000, .mov ⟨g0, false, false, .w 8, .k 4⟩),
    (0x04601003FFFFFFFF, .movi g0 1 8 (-1)),
    (0x3F500000000000000480140000000000, .movx g0 10 0x3F50000000000000),
    (0x04A0060204000008, .pand ⟨g0, false, true, 3, 1, 2⟩),
    (0x04C0060204000004, .por ⟨g0, true, false, 3, 1, 2⟩),
    (0x04E0080000000000, .pxor ⟨g0, false, false, 4, 0, 0⟩),
    (0x0500100000000000, .smov g0 false (.w 8) 0),
    (0x05201A1000000000, .swr g0 13 8),
    (0x0540100000000000, .rand g0 8),
    (0x0560100000000014, .widf g0 false 5 (.w 8))] = true := by decide

/-- Tables 5-1, 5-2, 5-3, 5-5, 5-7. -/
theorem test_decode_movesB : reads [
    (0x0800100806120208, .shfl g0 .fall 8 4 (.imm 3) 9),
    (0x082010080012001C, .vote g0 .mask true 8 4 9),
    (0x0840201C001E0000, .redux g0 .add 16 14 15),
    (0x0860100800120004, .matchL g0 true 8 4 9),
    (0x0880060000120000, .elect g0 3 9),
    (0x08A0100000120000, .lsync g0 8 9)] = true := by decide

/-- Tables 3-7, 3-8. -/
theorem test_decode_paired : reads [
    (0x80040203160E0612, .addPaired ⟨4, 2, 3, ⟨.fmul, 7, 3, 9⟩⟩),
    (0x81060403040A0810, .subPaired ⟨6, 4, 3, ⟨.and, 5, 4, 8⟩⟩),
    (0x82060403060A0810, .andPaired ⟨6, 4, 3, ⟨.or, 5, 4, 8⟩⟩),
    (0x83060403080A0810, .orPaired ⟨6, 4, 3, ⟨.xor, 5, 4, 8⟩⟩),
    (0x840604030A0A0810, .xorPaired ⟨6, 4, 3, ⟨.shl, 5, 4, 8⟩⟩),
    (0x850604030E0A0800, .shlPaired ⟨6, 4, 3, ⟨.mov, 5, 4, 0⟩⟩),
    (0x860604030E0A0800, .shrPaired ⟨6, 4, 3, ⟨.mov, 5, 4, 0⟩⟩),
    (0x87060400100A0810, .movPaired ⟨6, 4, 0, ⟨.min, 5, 4, 8⟩⟩),
    (0x88060403120A0810, .minPaired ⟨6, 4, 3, ⟨.max, 5, 4, 8⟩⟩),
    (0x89060403140A0810, .maxPaired ⟨6, 4, 3, ⟨.fadd, 5, 4, 8⟩⟩),
    (0x8A060403160A0810, .faddPaired ⟨6, 4, 3, ⟨.fmul, 5, 4, 8⟩⟩),
    (0x8B060403180A0810, .fmulPaired ⟨6, 4, 3, ⟨.fmin, 5, 4, 8⟩⟩),
    (0x8C0604031A0A0810, .fminPaired ⟨6, 4, 3, ⟨.fmax, 5, 4, 8⟩⟩),
    (0x8D060403000A0810, .fmaxPaired ⟨6, 4, 3, ⟨.add, 5, 4, 8⟩⟩),
    (0x8E060403020A0810, .hadd2Paired ⟨6, 4, 3, ⟨.sub, 5, 4, 8⟩⟩),
    (0x8F060403040A0810, .hmul2Paired ⟨6, 4, 3, ⟨.and, 5, 4, 8⟩⟩)] = true := by decide

/-- Table 3-9 and the worked words of chapter 7. -/
theorem test_decode_control : reads [
    (0x1000000000000004, .bra g0 4),
    (0x1012000000000002, .bra ⟨true, 1⟩ 2),
    (0x10000001FFFFFFF0, .bra g0 (-16)),
    (0x1020002800000000, .jmp g0 20),
    (0x1040000000000018, .call g0 24),
    (0x1060043C00000000, .callr g0 2 30),
    (0x1080000400000000, .ret g0 2),
    (0x10A0061200000000, .rjarm g0 3 9),
    (0x10C0060000000000, .rjwait g0 3),
    (0x10E0000000000000, .exit g0),
    (0x1100000000000014, .brk g0 5),
    (0x1120000000000000, .yield g0)] = true := by decide

/-- Tables 6-3, 6-4, 6-5. -/
theorem test_decode_floatA : reads [
    (0x200014080A000400, .fadd ⟨g0, false, .rz, .w 10, .w 4, .w 5⟩),
    (0x202014080A000000, .fsub ⟨g0, false, false, .w 10, .w 4, .w 5⟩),
    (0x204014080A000C00, .fmul ⟨g0, false, .rm, .w 10, .w 4, .w 5⟩),
    (0x206014080A0C0800, .ffma ⟨g0, false, .rp, .w 10, .w 4, .w 5, 6⟩),
    (0x208014080A000000, .fmin ⟨g0, false, false, .w 10, .w 4, .w 5⟩),
    (0x20A014080A000000, .fmax ⟨g0, false, false, .w 10, .w 4, .w 5⟩),
    (0x20C006080A000018, .fcmp .un ⟨g0, false, false, 3, .w 4, .w 5⟩),
    (0x20E0140800000000, .fclass ⟨g0, false, false, .w 10, .w 4⟩),
    (0x2100140800000010, .frnd .away ⟨g0, false, false, .w 10, .w 4⟩),
    (0x2120140800000834, .fcvt g0 .rp .fa48 .fp16 10 4),
    (0x2140140800000024, .icvt g0 true .bf16 10 4),
    (0x216014080000041C, .fcvti g0 .rz true .fa48 10 4),
    (0x21800C0406000004, .hadd2 ⟨g0, true, 6, 2, 3⟩),
    (0x21A00C0406000000, .hmul2 ⟨g0, false, 6, 2, 3⟩),
    (0x21C00C0406080004, .hfma2 4 ⟨g0, true, 6, 2, 3⟩),
    (0x21E00C0406000000, .hmin2 ⟨g0, false, 6, 2, 3⟩)] = true := by decide

/-- Tables 6-3, 6-4, 6-5. -/
theorem test_decode_floatB : reads [
    (0x22000C0406000004, .hmax2 ⟨g0, true, 6, 2, 3⟩),
    (0x22200C0400000000, .rcp ⟨g0, 6, 2⟩),
    (0x22400C0400000000, .rsq ⟨g0, 6, 2⟩),
    (0x22600C0400000000, .sqrt ⟨g0, 6, 2⟩),
    (0x22800C0400000000, .exp2 ⟨g0, 6, 2⟩),
    (0x22A00C0400000000, .log2 ⟨g0, 6, 2⟩),
    (0x22C014080A000000, .fdiv ⟨g0, false, false, .w 10, .w 4, .w 5⟩),
    (0x22E0181800000004, .feval 1 ⟨g0, 12, 12⟩),
    (0x230000080000000A, .ftld g0 2 4 2),
    (0x232014080A0C0068, .dot4 ⟨g0, 10, 4, 5, 6, 2, 3⟩),
    (0x234014080A0C00E4, .dot8 ⟨g0, 10, 4, 5, 6, 1, 7⟩),
    (0x236010060C000068, .ncvt ⟨g0, 8, 3, 6, 2, 3⟩),
    (0x238010080C000020, .nunp ⟨g0, 8, 4, 6, 0, 1⟩)] = true := by decide

/-- Tables 8-4 to 8-7. -/
theorem test_decode_memoryA : reads [
    (0x3800100C001A0040, .ld ⟨g0, 8, 6, 64, .dword, .core, false, false, false, 1⟩),
    (0x3800120DC049FFFE, .ld ⟨g0, 9, 6, -2, .half, .cl, true, true, true, 0⟩),
    (0x382080140A91FFF8, .st ⟨g0, 10, 5, -8, .word, .die, true⟩),
    (0x3840300000200000, .lds ⟨g0, 24, 0, 0, .quad, false, 0, 0⟩),
    (0x386400363211FFFC, .sts ⟨⟨false, 2⟩, 27, 25, -4, .word, 0⟩),
    (0x3880120C44040001, .ldx ⟨g0, 9, 6, 1, .byte, true, 2, 2⟩),
    (0x38A0040C0E100010, .stx ⟨g0, 6, 7, 16, .word, 2⟩),
    (0x38C0182812902004, .atom ⟨g0, 12, 20, 9, 4, .word, .die, .add, 0⟩),
    (0x38C61C3020981000, .atom ⟨⟨false, 3⟩, 14, 24, 16, 0, .dword, .die, .cas, 0⟩),
    (0x38E080140B10DFFC, .red ⟨g0, 10, 5, -4, .word, .sys, .addBf16x2, true⟩),
    (0x390018281212A004, .atoms ⟨g0, 12, 20, 9, 4, .word, .core, .addF32, 1⟩),
    (0x3920000000000024, .fence g0 .rel .cl),
    (0x3940001200000000, .acqr g0 9),
    (0x396008180A000000, .waita g0 false 4 12 5),
    (0x3980100600000001, .cpy g0 8 3 1),
    (0x39A0000C00000004, .tlwait g0 true 6)] = true := by decide

/-- Tables 8-4 to 8-7. -/
theorem test_decode_memoryB : reads [
    (0x39C010000000000C, .tlread g0 .status 8),
    (0x39E0000C0081FE00, .pref g0 .die 6 (-512))] = true := by decide

/-- Tables 12-3, 14-6 and the worked words. -/
theorem test_decode_chunks : reads [
    (0x4800000000000000, .chend g0),
    (0x4804000000000000, .chend ⟨false, 2⟩),
    (0x4820100000000004, .chstat g0 .stat 8),
    (0x484000000000002C, .bar ⟨g0, .grp, 0, 0⟩),
    (0x48600A0000000020, .barv ⟨g0, .cl, 0, 5⟩),
    (0x4880000A00000020, .barw ⟨g0, .cl, 0, 5⟩),
    (0x48A01000000000A4, .barst ⟨g0, .die, 2, 8⟩),
    (0x48400000000000D8, .bar ⟨g0, .lv 6, 3, 0⟩)] = true := by decide

/-- Tables 17-2 to 17-4, 18-1 to 18-3. -/
theorem test_decode_tile : reads [
    (0x5000000000000014, .tzero g0 1 true 0),
    (0x502010060A000049, .tld ⟨g0, 2, 8, 3, 5, 1, 1⟩),
    (0x5048002426000081, .tst ⟨⟨false, 4⟩, 0, 0, 18, 19, 2, 1⟩),
    (0x5060140800000001, .tmma g0 10 4 1),
    (0x5080180C00000031, .tdadd g0 0 3 12 6 1),
    (0x50A0120E0000000C, .twait g0 3 9 7),
    (0x50C0100600000001, .tcode g0 8 3 1),
    (0x50E0100614000001, .tlu ⟨g0, 0, 0, 8, 3, 10, 0, 1⟩),
    (0x5100100614000005, .tchol ⟨g0, 1, 0, 8, 3, 10, 0, 1⟩),
    (0x5120100614080012, .tqr ⟨g0, 0, 1, 8, 3, 10, 4, 2⟩),
    (0x5140100614080119, .ttrsm true false false ⟨g0, 2, 1, 8, 3, 10, 4, 1⟩),
    (0x5160100000000049, .pvap g0 2 0 true 8 1),
    (0x5180100000000020, .tstat g0 .status 0 8)] = true := by decide

/-- Tables 20-4, 20-5, and chapter 10. -/
theorem test_decode_effects : reads [
    (0x10006000100000800009, .handle g0 0x40 8 9 0x1000),
    (0x6020000000000000, .endh g0),
    (0x6040000000800004, .perform g0 true 0x40),
    (0x6060003800000000, .resume g0 28),
    (0x6080003800000000, .drop g0 28),
    (0x60A0000000000000, .hret g0),
    (0x60C00C3800000008, .hstat g0 .tok 6 28),
    (0x6800000000000003, .svc g0 3),
    (0x68203C3050000000, .launch g0 30 24 40),
    (0x6840000C00000004, .sleep g0 true 6)] = true := by decide

/-! A small machine: partition 0 of die 0, one context, queue, kernel and group, and a clause in flight with one thread.
The die's translation unit holds four pages, one of each order class. -/

/-- A user page of 4 KiB at its own address, readable, writable and executable, of an order class. -/
def page (va cls : Nat) : Tlb := ⟨0, 0, va, 4096, 223 + va / 4096 * 2 ^ 10 + cls * 2 ^ 56⟩

/-- The thread, with some registers. -/
def tw (w : Regs) : Thread := { gid := 0, tix := 0, stat := .issuing, pos := ⟨4096, 0⟩, w := w }

/-- The clause in flight. -/
def rw0 : Running :=
  { rid := 0, core := 0, gid := 0, hdr := 4096, count := 15, setA := 0, setB := 1, tixs := [0], act := [0] }

/-- The group. -/
def gw : Group := { gid := 0, kid := 0, gix := 0, die := 0, core := 0 }

/-- The kernel. -/
def kw : Kernel :=
  { kid := 0, cid := 0, qid := 0, seq := 1, rc := { regs := 64, scratch := 4096, slots := [4] }, stat := .running }

/-- The machine. -/
def mw (w : Regs) : Mach :=
  { nextId := 1, cur := some 0, running := [rw0], threads := [tw w], groups := [gw], kernels := [kw]
    ctxs := [{ cid := 0, part := 0 }], queues := [{ qid := 0, part := 0, num := 1, cid := 0 }]
    parts := [{ pid := 0, dies := [0], stat := .running }]
    dies := [(0, { held := false, tlb := [page 0x10000 0, page 0x11000 1, page 0x12000 2, page 0x13000 3, page 4096 1] })] }

/-- The state. -/
def sw (w : Regs) : State := ⟨[], mw w⟩

/-- A property of the machine that an answer leaves; false of a fault or a refusal. -/
def gives (o : Host.Outcome State Fault Refusal) (p : Mach → Bool) : Bool :=
  match o with
  | .next s => p s.m
  | _ => false

/-- Register `n` of the thread after a word. -/
def reg (o : Host.Outcome State Fault Refusal) (n : Nat) : Option Word :=
  match o with
  | .next s => (s.m.thread? 0 0).map (fun t => t.rd n)
  | _ => none

/-- An answer that is a value. -/
def isOk {α β : Type} (x : Except α β) : Bool :=
  match x with
  | .ok _ => true
  | .error _ => false

theorem alone (w : Regs) : Alone (sw w) rw0 (tw w) g0 := ⟨rfl, rfl, rfl, rfl⟩

theorem escapes (w : Regs) : Escapes (sw w) rw0 (tw w) g0 := ⟨alone w, rfl, rfl⟩

/-! Witnesses: for each statement, states and operands that meet its hypotheses. -/

theorem wit_DecodeEncode : (Instr.nop g0).wf = true ∧ encode (.nop g0) ≠ [] ∧ isOk (decodeBytes (encodeBytes (.nop g0))) = true := by decide

theorem wit_StepRuns : State.reset.agenda = [] ∧
    (advance (State.reset.withFetchWord 64 0).m { move := .word 0 }).running.find? (fun x => x.rid == 0) ≠ none ∧
    (State.reset.withFetchWord 64 0).agenda = [{ move := .word 0 }] ∧
    isOk (decodeWord 0 0) = true ∧ isOk (decodeWord (2 ^ 62) 0) = false ∧
    (advance (State.reset.withFetchWord 64 0).m { move := .word 7 }).running.find? (fun x => x.rid == 7) = none ∧
    interlocked (mw []) rw0 (.nop g0) = false ∧
    interlocked ((mw []).updThread 0 0 (fun t => { t with loads := [⟨5, [(4, 0)], none⟩] })) rw0
      (.mov ⟨g0, false, false, .w 5, .w 4⟩) = true := by decide

theorem wit_MemoryCanonical : Memory.wf State.reset.m.mem = true ∧ goesOn State.reset = true := by decide

/-- A pack and its leader: what the statements about whole packs ask for. -/
theorem wit_pack : (sw []).m.curRun = some rw0 ∧ leader (sw []).m g0 = some (tw []) := by decide

theorem wit_Division : (∀ t ∈ (sw [(4, 0x80000000), (5, 0xFFFFFFFF)]).m.threads,
    srcW (curK (sw [(4, 0x80000000), (5, 0xFFFFFFFF)]).m) t (.w 4) = 0x80000000 ∧
    srcW (curK (sw [(4, 0x80000000), (5, 0xFFFFFFFF)]).m) t (.w 5) = 0xFFFFFFFF) := by decide

theorem wit_RemainingArithmetic : ∃ f g : Word → Word, f 0 = 32 ∧
    (∀ a, a ≠ 0 → (f a).toNat < 32 ∧ 2 ^ (31 - (f a).toNat) ≤ a.toNat ∧ a.toNat < 2 ^ (32 - (f a).toNat)) ∧
    (∀ a i, i < 32 → (g a).getLsbD (31 - i) = a.getLsbD i) := by
  refine ⟨fun a => if a = 0 then 32 else BitVec.ofNat 32 (31 - a.toNat.log2), BitVec.reverse, rfl, fun a h => ?_, fun a i hi => ?_⟩
  · have h0 : a.toNat ≠ 0 := fun e => h (BitVec.eq_of_toNat_eq e)
    have hl : a.toNat.log2 < 32 := (Nat.log2_lt h0).2 a.isLt
    simp only [h, if_false, BitVec.toNat_ofNat]
    rw [Nat.mod_eq_of_lt (by omega), show 31 - (31 - a.toNat.log2) = a.toNat.log2 by omega, show 32 - (31 - a.toNat.log2) = a.toNat.log2 + 1 by omega]
    exact ⟨by omega, Nat.log2_self_le h0, Nat.lt_log2_self⟩
  · rw [BitVec.getLsbD_reverse, BitVec.getMsbD_eq_getLsbD]
    simp only [show 31 - i < 32 by omega, decide_true, Bool.true_and]
    exact congrArg _ (by omega)

theorem wit_BitFields : ∀ d a b c : Word, ∃ v : Word, ∀ i, i < 32 → v.getLsbD i =
    if fieldPos b ≤ i ∧ i < fieldPos b + fieldBits b c then a.getLsbD (i - fieldPos b) else d.getLsbD i := by
  intro d a b c
  refine ⟨BitVec.ofFnLE (fun i : Fin 32 => if fieldPos b ≤ i ∧ i < fieldPos b + fieldBits b c then a.getLsbD (i - fieldPos b) else d.getLsbD i), fun i hi => ?_⟩
  simp [hi]

theorem wit_FalsePredicate : wordGuard (.nop ⟨false, 1⟩) = some ⟨false, 1⟩ ∧
    ∀ t ∈ (sw []).m.threads, t.guard ⟨false, 1⟩ = false := by decide

theorem wit_SpecialRegisters : sregWide 9 = true ∧ sregWide 0 = false ∧ (mw []).group? (tw []).gid = some gw ∧
    ((tw [(4, 64)]).rdD 4).toNat % 32 = 0 ∧ ((tw [(4, 33)]).rdD 4).toNat % 32 ≠ 0 := by decide

theorem seen_one {m : Mach} {g : Guard} {c : Nat} {t p q : Thread} (hp : p ∈ seen m g c t) (hq : q ∈ seen m g c t)
    (h : p.tix % 32 = q.tix % 32) : p = q := by
  unfold seen performers at hp hq
  cases hr : m.curRun with
  | none => rw [hr] at hp; simp at hp
  | some r =>
    rw [hr] at hp hq
    simp only [List.mem_filter, List.mem_filterMap, Bool.and_eq_true, beq_iff_eq] at hp hq
    obtain ⟨⟨i, -, hi⟩, ⟨-, hd⟩, -⟩ := hp
    obtain ⟨⟨j, -, hj⟩, ⟨-, he⟩, -⟩ := hq
    cases hti : m.thread? r.gid i with
    | none => simp [hti] at hi
    | some u =>
      cases htj : m.thread? r.gid j with
      | none => simp [htj] at hj
      | some v =>
        have ei : u = p := by simp only [hti] at hi; split at hi <;> simp_all
        have ej : v = q := by simp only [htj] at hj; split at hj <;> simp_all
        subst ei; subst ej
        have h1 := (thread?_gid hti).2
        have h2 := (thread?_gid htj).2
        have : i = j := by omega
        subst this
        rw [hti] at htj
        exact Option.some.inj htj

theorem wit_CrossLane (m : Mach) (t : Thread) (b : Src) (mode : ShflMode) (a c : Nat) : (∃ v : Word,
    (∀ p ∈ seen m g0 c t, ((p.tix % 32 : Nat) : Int) = sourceLane mode (t.tix % 32) (srcW (curK m) t b) → v = p.rd a) ∧
    ((∀ p ∈ seen m g0 c t, ((p.tix % 32 : Nat) : Int) ≠ sourceLane mode (t.tix % 32) (srcW (curK m) t b)) → v = t.rd a)) ∧
    ∃ k : Word, IsMask k (seen m g0 c t) := by
  by_cases h : ∃ p ∈ seen m g0 c t, ((p.tix % 32 : Nat) : Int) = sourceLane mode (t.tix % 32) (srcW (curK m) t b)
  · obtain ⟨p, hp, he⟩ := h
    exact ⟨⟨p.rd a, fun q hq e => by rw [seen_one hp hq (by omega)], fun hn => absurd he (hn p hp)⟩, _, laneMask_is _⟩
  · push Not at h
    exact ⟨⟨t.rd a, fun p hp e => absurd e (h p hp), fun _ => rfl⟩, _, laneMask_is _⟩

theorem wit_FloatArithmetic : ((fp 0x7FC00000).isNaN || (fp 0).isNaN) = true ∧ (fp 0x7F800000).isInf = true ∧
    finite (fp 0) = true ∧ finite (fp 1) = true ∧
    ((fp 0x7F800000).isInf && (fp 0).isZero || (fp 0x7F800000).isZero && (fp 0).isInf) = true ∧
    ((fp 0x7F800000).isInf && !(fp 1).isNaN && !(fp 1).isZero || (fp 1).isInf && !(fp 0x7F800000).isNaN && !(fp 0x7F800000).isZero) = true ∧
    ((fp 0x7F800000).isInf && finite (fp 0)) = true ∧ (finite (fp 1) && !(fp 1).isZero && (fp 0).isZero) = true ∧
    (finite (fp 1) && (fp 0xFF800000).isInf || (fp 1).isZero && finite (fp 0xFF800000) && !(fp 0xFF800000).isZero) = true := by decide

theorem numOf_one : fp 0x3F800000 = .fin false (2 ^ 23) (-23) := by decide

theorem numOf_least : fp 1 = .fin false 1 (-149) := by decide

theorem wit_numbers : numOf (fp 0x3F800000) = 1 ∧ numOf (fp 1) = 2 ^ (-149 : ℤ) ∧ numOf (fp 0x3F800000) + numOf (fp 0x3F800000) ≠ 0 ∧
    numOf (fp 1) * numOf (fp 1) ≠ 0 ∧ numOf (fp 0x3F800000) * numOf (fp 0x3F800000) + numOf (fp 1) ≠ 0 ∧
    Less (fp 1) (fp 0x3F800000) ∧ Less (fp 0xFF800000) (fp 1) ∧ Less (fp 1) (fp 0x7F800000) := by
  rw [numOf_one, numOf_least]
  refine ⟨by norm_num [numOf], by norm_num [numOf], by norm_num [numOf], by norm_num [numOf], by norm_num [numOf], ?_, ?_, ?_⟩
  · show (_ : ℚ) < _
    norm_num [numOf]
  · have : fp 0xFF800000 = .inf true := by decide
    rw [this]; rfl
  · have : fp 0x7F800000 = .inf false := by decide
    rw [this]; rfl

theorem wit_zero_sum : numOf (fp 0) + numOf (fp 0x80000000) = 0 := by
  have h : fp 0 = .fin false 0 (-149) := by decide
  have k : fp 0x80000000 = .fin true 0 (-149) := by decide
  rw [h, k]; norm_num [numOf]

theorem wit_FloatCompare : ZeroBelow (fp 0x80000000) (fp 0) ∧ (fp 0x7F800001).isSig = true ∧ (fp 0x7FC00000).isSig = false ∧
    (fp 1).isNaN = false ∧ (fp 0x7F800000).isInf = true ∧ finite (fp 0xBE99999A) = true := ⟨⟨by decide, by decide, by decide, by decide⟩, by decide⟩

theorem wit_FloatConversions : WFmt.fp16 ≠ .fa48 ∧ ((decodeF FP16 0x7E00).isNaN = true) ∧ (decodeF BF16 0xFF80).isInf = true ∧
    finite (decodeF FP16 1) = true ∧ (0 : Int) ≤ 2 ^ 32 - 1 ∧ (-2 ^ 31 : Int) ≤ 2 ^ 31 - 1 ∧
    IntRounds .rz (numOf (fp 0x3F800000)) 1 ∧ IntRounds .rp (numOf (fp 0x3F800000)) 1 := by
  rw [numOf_one]
  refine ⟨by decide, by decide, by decide, by decide, by decide, by decide, ?_, ?_⟩ <;> norm_num [IntRounds, numOf]

theorem wit_PackedHalves : (Instr.hadd2, fun fm => addF fm .ne) ∈ [(Instr.hadd2, fun fm => addF fm .ne), (.hmul2, fun fm => mulF fm .ne),
      (.hmin2, fun fm => minMaxF fm false), (.hmax2, fun fm => minMaxF fm true)] ∧
    finite (decodeF FP16 0x3C00) = true ∧ numOf (decodeF FP16 0x3C00) + numOf (decodeF FP16 0x3C00) ≠ 0 ∧
    numOf (decodeF FP16 0x3C00) * numOf (decodeF FP16 0x3C00) ≠ 0 ∧
    numOf (decodeF FP16 0x3C00) * numOf (decodeF FP16 0x3C00) + numOf (decodeF FP16 0x3C00) ≠ 0 := by
  have h : decodeF FP16 0x3C00 = .fin false (2 ^ 10) (-10) := by decide
  rw [h]
  refine ⟨by simp, by decide, ?_, ?_, ?_⟩ <;> norm_num [numOf]

theorem wit_SpecialFunctions : (fp 0x7FC00000).isNaN = true ∧ (fp 0x80000000).isZero = true ∧ (fp 0xFF800000).isInf = true ∧
    ((fp 0xFF800000).isInf && (fp 0xFF800000).sign || finite (fp 0xFF800000) && !(fp 0xFF800000).isZero && (fp 0xFF800000).sign) = true ∧
    finite (fp 0x3F800000) = true ∧ 0 < numOf (fp 0x3F800000) ∧ numOf (fp 0x3F800000) = 2 ^ (0 : ℤ) ∧ numOf (fp 0x3F800000) = (1 : ℤ) ∧
    numOf (fp 0x43000000) = (128 : ℤ) ∧ numOf (fp 0xC3170000) = (-151 : ℤ) := by
  have h : fp 0x43000000 = .fin false (2 ^ 23) (-16) := by decide
  have k : fp 0xC3170000 = .fin true (0x970000) (-16) := by decide
  rw [numOf_one, h, k]
  refine ⟨by decide, by decide, by decide, by decide, by decide, ?_, ?_, ?_, ?_, ?_⟩ <;> norm_num [numOf]

theorem wit_FunctionTables : (sw []).m.bad = [] ∧ ((tw [(4, 32)]).rd 4).toNat % 32 = 0 ∧ padOk (mw []) 0 32 1056 = true ∧
    ((tw [(4, 33)]).rd 4).toNat % 32 ≠ 0 ∧
    (((mw []).updCore 0 (fun k => { k with ftlds := [⟨0, 0, 1, 32, some 1⟩] })).core 0).ftlds.find? (fun x => x.ft == 1) = some ⟨0, 0, 1, 32, some 1⟩ ∧
    ftWord [] 0 < 2 ^ 32 ∧ finite (decodeF FP32 (addF FP32 .ne 0x3F800000 (BitVec.ofNat 32 (ftWord [] 0) ^^^ 0x80000000).toNat).1) = true ∧
    ftWord [] 8 % 2 = 0 ∧ ftWord (List.replicate 8 0 ++ [1]) 8 % 2 = 1 := by decide

theorem wit_SlotWords : slotOf [4] 0 = some .fa48 ∧ slotOf [0x10] 0 = some .q8f ∧ slotOf [0x12] 0 = some .q8i ∧
    (mw []).bad = [] ∧ 8 * 3 + 8 ≤ 32 ∧ finite (fp 0x3F800000) = true := by decide

theorem wit_ArithTrap : (16 : Nat) < 32 ∧ (tw []).fctl &&& BitVec.ofNat 32 16 = 0 ∧
    ({ tw [] with fctl := 16 } : Thread).fctl &&& BitVec.ofNat 32 16 ≠ 0 := by decide

theorem wit_Branches : ((tw [(4, 0x2000)]).rdD 4).toNat % 8 = 0 ∧ ((tw [(4, 0x2004)]).rdD 4).toNat % 8 ≠ 0 := by decide

/-- Two threads of the group. -/
def two (a b : Thread → Thread) (rj : List (Nat × Rejoin)) : Mach :=
  { mw [] with threads := [a (tw []), b { tw [] with tix := 1 }], groups := [{ gw with rj := rj }] }

theorem wit_RejoinBarriers : (mw []).group? 0 = some gw ∧ (gw.rejoin 3 0).named = 0 ∧
    ((two id id [(96, ⟨3, 0⟩)]).group? 0).map (fun g => (g.rejoin 3 0).named) = some 3 ∧
    (∀ i, i < 32 → (Rejoin.mk 3 3).named.getLsbD i = true → (Rejoin.mk 3 3).arrived.getLsbD i = true) ∧
    (Rejoin.mk 3 1).named.getLsbD 1 = true ∧ (Rejoin.mk 3 1).arrived.getLsbD 1 = false := by decide

theorem wit_RejoinBarriers_present : present (two id id []) 0 0 1 := ⟨{ tw [] with tix := 1 }, by decide, rfl, rfl, by decide⟩

/-- Threads 0 and 1 wait at barriers 1 and 2, each for the other (Table 7-5, case 1). -/
def cyc : Mach := two (fun t => { t with stat := .waiting (.rejoin 1 ⟨4096, 0⟩) }) (fun t => { t with stat := .waiting (.rejoin 2 ⟨4096, 0⟩) })
  [(32, ⟨3, 1⟩), (64, ⟨3, 2⟩)]

theorem wit_RejoinCycle : [0, 1].map (fun i => cyc.thread? 0 i) = cyc.threads.map some ∧ [0, 1].Pairwise (· < ·) ∧
    IsCycle cyc { gw with rj := [(32, ⟨3, 1⟩), (64, ⟨3, 2⟩)] } cyc.threads := by
  refine ⟨by decide, by decide, by decide, ?_⟩
  intro t ht
  have : t = cyc.threads.head (by decide) ∨ t = cyc.threads.getLast (by decide) := by
    revert ht; revert t; decide
  rcases this with rfl | rfl
  · refine ⟨1, ⟨4096, 0⟩, by decide, fun i hi hn ha hp => ⟨cyc.threads.getLast (by decide), by decide, ?_⟩⟩
    have : i = 1 := by clear hp; revert i; decide
    subst this; decide
  · refine ⟨2, ⟨4096, 0⟩, by decide, fun i hi hn ha hp => ⟨cyc.threads.head (by decide), by decide, ?_⟩⟩
    have : i = 0 := by clear hp; revert i; decide
    subst this; decide

theorem wit_ThreadEnd : haltedFor (mw []) (tw []) (fun _ => true) = none ∧ (∀ n, n < 12 → flagCount (mw []) (tw []) n = 0) ∧
    flagCount (mw []) { tw [] with loads := [⟨5, [], some 3⟩] } 3 ≠ 0 := by decide

/-- The thread stands ready before a clause in memory, whose words follow its header. -/
def atClause (code : List Nat) : Mach :=
  { mw [] with
    running := [], cur := none, threads := [{ tw [] with stat := .ready }]
    cores := [(0, { cid := some 0, fetched := [⟨0, 4096, code⟩] })] }

theorem wit_ClauseIssue : (atClause [0x00000FF000000000, 0]).thread? 0 0 = some { tw [] with stat := .ready } ∧
    groupRuns (atClause [0x00000FF000000000, 0]) 0 = true ∧
    packOk (atClause [0x00000FF000000000, 0]) 0 0 [0] [{ tw [] with stat := .ready }] = true ∧
    mayIssue (atClause [0x00000FF000000000, 0]) 0 0 [0] [{ tw [] with stat := .ready }] = true ∧
    coreIssues (atClause [0x00000FF000000000, 0]) 0 = true ∧
    (Header.ofWord 0x00000FF000000000).legal = true ∧
    firstBad (Header.ofWord 0x00000FF000000000) {} 16 0 [0] = none ∧
    ((atClause []).threads.any (startHeld (atClause []) (Header.ofWord 0x00000FF000000000))) = false ∧
    firstBad (Header.ofWord 0x00000FF000000000) {} 16 0 [2 ^ 62] = some (0, 2 ^ 62) ∧
    (Header.ofWord 0x40000FF000000000).legal = false ∧
    startHeld (mw []) (Header.ofWord 0x00008FF000000000) { tw [] with loads := [⟨5, [], some 3⟩] } = true ∧
    waitsOnFault (mw []) (Header.ofWord 0x00008FF000000000) { tw [] with loads := [⟨5, [], some 3⟩] } = none := by decide

theorem wit_ClauseIssue_fetch : fetchClause (atClause [0x00000FF000000000, 0]) (whoOf (atClause [0x00000FF000000000, 0]) 0) 4096 =
    .ok (atClause [0x00000FF000000000, 0]) [0x00000FF000000000, 0] := rfl

/-- The machine with its core changed. -/
def mc (w : Regs) (f : Core → Core) : Mach := (mw w).updCore 0 f

/-- Who the thread is. -/
def who0 : Who := whoOf (mw []) 0

/-- A translation of the thread's that succeeds on a page of the class. -/
def on (m : Mach) (acc : Acc) (va cls : Nat) : Bool :=
  match translate m who0 acc va with
  | .ok (_, x) => x.cls == cls && deviceMem x.pa && isOk (reachable m acc 0 x.pa 4)
  | .error _ => false

/-- How an atomic ends: 0 done, 1 error, 2 wait. -/
def atomEnd (x : AtomDone) : Nat :=
  match x with
  | .done _ _ => 0
  | .err _ => 1
  | .wait => 2

theorem mayAccess (w : Regs) (esc : Nat → Bool) (ea : Nat) : MayAccess (sw w).m rw0 (tw w) esc ea :=
  fun _ _ => ⟨fun _ => ⟨rfl, rfl⟩, fun _ _ => rfl⟩

/-- The open chunk's write set is full. -/
def full : Mach := mc [] (fun k => { k with openC := { k.openC with wr := List.replicate 1024 (0, 32) } })

theorem fullOf (m : Mach) (x : Xlat) (l : List (Nat × Nat)) (h : l.contains (x.pa / x.grain * x.grain, x.grain) = false)
    (hl : l.length = 1024) (hc : (m.core 0).comC = none) (hw : (m.core 0).openC.wr = l) : writeFull m 0 x = true := by
  simp [writeFull, hw, hc, hl, Config.writeSet, -List.contains_eq_mem, h]

theorem wit_LoadsAndStores_full (m : Mach) (x : Xlat) (h : translate full who0 .store 0x10000 = .ok (m, x)) :
    x.cls = 0 ∧ writeFull full 0 x = true := by
  have h1 : translate full who0 .store 0x10000 = (translate (mw []) who0 .store 0x10000).map (fun p => (full, p.2)) := rfl
  rw [h1] at h
  have h2 : translate (mw []) who0 .store 0x10000 = .ok (mw [], ⟨0x10000, 0, 32, false, (page 0x10000 0).leaf, 4096⟩) := rfl
  rw [h2] at h
  simp only [Except.map, Except.ok.injEq, Prod.mk.injEq] at h
  rw [← h.2]
  refine ⟨rfl, ?_⟩
  have h3 : (full.core 0).openC.wr = List.replicate 1024 (0, 32) := rfl
  have h4 : (full.core 0).comC = none := rfl
  have h5 : (List.replicate 1024 ((0, 32) : Nat × Nat)).contains (0x10000, 32) = false := by
    rw [List.contains_eq_any_beq, List.any_replicate]; rfl
  exact fullOf _ _ _ h5 List.length_replicate h4 h3

theorem wit_LoadsAndStores :
    globalEa (tw [(4, 0x11000)]) 4 2 % 4 ≠ 0 ∧ globalEa (tw [(4, 0x11000)]) 4 0 = 0x11000 ∧
    isOk (gRead (mw []) who0 .load .die 0x11000 4) = true ∧ isOk (gRead (mw []) who0 .load .die 0 4) = false ∧
    isOk (gRead (mw []) who0 .load .die 0x10000 4) = true ∧
    isOk (gWrite (mw []) who0 .cl 0 0 0x11000 [0, 0, 0, 0]) = true ∧ isOk (gWrite (mw []) who0 .cl 0 0 0 [0]) = false ∧
    ordActs (mw []) (tw []) 0x10000 = false ∧ ordActs (mw []) (tw []) 0x11000 = true ∧ ordActs (mw []) (tw []) 0x12000 = true ∧
    on (mw []) .store 0x11000 1 = true ∧ relReady (mw []) (tw []) 1 = true ∧
    relReady (mw []) { tw [] with prs := 1 } 1 = false ∧ isOk (gWrite (relPush (mw []) 0 1) who0 .cl 0 0 0x11000 [0]) = true ∧
    ((mw []).core 0).lines = [] ∧ isOk (translate (mw []) who0 .load 0) = false := by decide

theorem wit_AccessValues : on (mw []) .load 0x10000 0 = true ∧ on (mw []) .load 0x12000 2 = true ∧ on (mw []) .load 0x13000 3 = true ∧
    isOk (gRead (mw []) who0 .load .core 0x12000 4) = true ∧ isOk (gRead (mw []) who0 .load .core 0x13000 4) = true ∧
    isOk (gWrite (mw []) who0 .core 0 0 0x10000 [1]) = true ∧ isOk (gWrite (mw []) { who0 with part := [0, 1] } .core 0 0 0x12000 [1]) = true ∧
    isOk (gWrite (mw []) who0 .core 0 0 0x13000 [1]) = true := by decide

theorem wit_AtomicOperations : (fp 0x80000000).isNaN = false ∧ (fp 0).isNaN = false ∧ ZeroBelow (fp 0x80000000) (fp 0) ∧
    atomEnd (atomAt (mw []) who0 .die 0x10000 4 id) = 0 ∧ atomEnd (atomAt (mw []) who0 .die 0x13000 8 id) = 0 ∧
    atomEnd (atomAt (mw []) who0 .die 0x11000 4 id) = 0 ∧ atomEnd (atomAt (mw []) who0 .die 0x12000 4 id) = 1 ∧
    atomEnd (atomAt ((mw []).updCore 1 (fun k => { k with openC := { k.openC with solo := true, rd := [(0x10000, 32)] } }))
      who0 .die 0x10000 4 id) = 2 ∧
    ((mw []).partOf 0).map (fun p => p.pid) = some 0 ∧ (((mw []).part? 0).map (fun p => p.pid)) = some 0 ∧
    on (mw []) .atomic 0x10000 0 = true ∧ ((mw []).core 0).comC = none ∧ ((mw []).core 0).openC.reds.length < 1024 ∧
    on (mw []) .atomic 0x11000 1 = true ∧ pageClass (mw []) who0 0x11000 = some 1 ∧ globalEa (tw [(4, 0x11000)]) 4 2 % 4 ≠ 0 ∧
    scratchEa (tw [(4, 62)]) 4 1 % 4 ≠ 0 ∧ padIn (mw []) 0 4096 4 = false ∧ padOk (mw []) 0 4092 4 = true ∧
    undoFull (mw []) 0 0 4092 4 = false :=
  ⟨by decide, by decide, ⟨by decide, by decide, by decide, by decide⟩, by decide⟩

/-- The undo log, and the deferred reductions, are full. -/
def logged : Mach := mc [] (fun k => { k with openC := { k.openC with
  undo := List.replicate 8192 ⟨1, 0, []⟩, reds := List.replicate 1024 ⟨0, .add, 4, 0, 32⟩ } })

theorem wit_full : padOk logged 0 0 4 = true ∧ undoFull logged 0 0 0 4 = true ∧ 1024 ≤ (logged.core 0).openC.reds.length := by
  have h : (logged.core 0).openC.undo = List.replicate 8192 ⟨1, 0, []⟩ := rfl
  have h2 : (logged.core 0).openC.reds = List.replicate 1024 ⟨0, .add, 4, 0, 32⟩ := rfl
  have h3 : (logged.core 0).comC = none := rfl
  refine ⟨rfl, ?_, by rw [h2, List.length_replicate]⟩
  have h4 : undoNew logged 0 0 0 4 = 1 := by
    simp only [undoNew, h, List.any_replicate]; rfl
  simp only [undoFull, h, h3, h4, List.length_replicate]
  rfl

/-- Two groups of a cluster set. -/
def pair : Mach := { mw [] with
  groups := [gw, { gw with gid := 1, gix := 1, core := 1 }]
  kernels := [{ kw with rc := { kw.rc with clevel := 1, extents := [4], widths := [2] } }] }

theorem wit_Scratchpad : scratchEa (tw [(4, 62)]) 4 1 % 4 ≠ 0 ∧ padIn (mw []) 0 4096 4 = false ∧ padOk (mw []) 0 4092 4 = true ∧
    peerOf (mw []) 0 1 = none ∧ undoFull (mw []) 0 0 4092 4 = false ∧ (mw []).group? 0 = some gw ∧ (tw []).prs < 65535 ∧
    65535 ≤ ({ tw [] with prs := 65535 } : Thread).prs ∧
    ([⟨3, 0, 0, 1, 8, [1], false⟩] : List Stx).find? (fun y => y.id == 3) = some ⟨3, 0, 0, 1, 8, [1], false⟩ ∧
    ([⟨3, 0, 0, 1, 8, [1], true⟩] : List Stx).find? (fun y => y.id == 3 && y.done) = some ⟨3, 0, 0, 1, 8, [1], true⟩ := by decide

theorem wit_EscapingWords : escapeCause (.tzero g0 0 4 1) = some 6 ∧ wordGuard (.tzero g0 0 4 1) = some g0 ∧
    chunkEmpty (mc [] (fun k => { k with openC := { k.openC with rd := [(0, 32)] } })) 0 = false ∧ chunkEmpty (mw []) 0 = true ∧
    ((mc [] (fun k => { k with comC := some {} })).core 0).comC.isSome = true ∧
    (mw []).thread? 0 0 = some (tw []) ∧ (tw []).stat = .issuing ∧ (∀ x ∈ (mw []).running, x.rid = 0 → 0 ∉ x.stall) ∧
    (mw []).group? 0 = some gw ∧ waitsHere (mw []) 0 = true ∧ waitsHere { mw [] with groups := [{ gw with stat := .saved }] } 0 = false ∧
    ({ tw [] with stat := .escaping, escAt := some 1 } : Thread).escAt ≠ some ((mw []).core 0).openC.serial ∧
    atBoundary { mw [] with running := [] } 0 = true ∧ retryOn (mw []) 0 = false ∧ ((mw []).core 0).due = [] := by decide

/-- A line of the class, one byte of it dirty. -/
def lineW (pa cls : Nat) : Line := { pa := pa, size := 2, cls := cls, data := [1, 2], dirty := [true, false] }

theorem wit_FencesAndWaits : relReady (mw []) (tw []) 4 = true ∧ relReady (mw []) { tw [] with prs := 1 } 1 = false ∧
    (lineW 0 1).data.length = 2 ∧ (lineW 0 1).dirty.length = 2 ∧ (tw [(4, 2)]).rd 4 = 2 ∧ ((tw [(4, 2)]).rdD 4).toNat % 4 ≠ 0 ∧
    padOk (mw []) 0 4092 4 = true ∧ wordOf (padRead (mw []) 0 0 4) = (tw []).rd 5 ∧ wordOf (padRead (mw []) 0 0 4) ≠ (tw [(5, 1)]).rd 5 ∧
    on (mw []) .wait 0x10000 0 = true ∧ poisoned (mw []) 0x10000 4 = none ∧
    wordOf (homeRead (mw []) 0 0x10000 4) = (tw []).rd 5 ∧
    ((mw []).updThread 0 0 (fun t => { t with stat := .waiting (.addr true 0x10000 0x10000 0 5 false ⟨4096, 0⟩) })).thread? 0 0 =
      some { tw [] with stat := .waiting (.addr true 0x10000 0x10000 0 5 false ⟨4096, 0⟩) } := by decide

/-- A clean sector at an address. -/
def sector (pa : Nat) : Line := { pa := pa, size := 32, data := List.replicate 32 0, dirty := List.replicate 32 false }

theorem wit_MemoryEvents_order : ([⟨3, 0, 0, 1, 0x12000, [1]⟩, ⟨4, 0, 0, 1, 0x12000, [2]⟩] : List Repl).head? ≠ some ⟨4, 0, 0, 1, 0x12000, [2]⟩ ∧
    (sector 0x11000).grain ∈ [32, 128, 512] ∧ (sector 0x11000).pa % 32 = 0 ∧ (sector 0x11000).data.length = (sector 0x11000).size ∧
    (sector 0x11000).dirty.length = (sector 0x11000).size := by decide

theorem wit_MemoryEvents :
    ([⟨3, 0, 0, 1, 0x2000012000, [1]⟩] : List Repl).find? (fun y => y.id == 3) = some ⟨3, 0, 0, 1, 0x2000012000, [1]⟩ ∧
    lineAt ((mc [] (fun k => { k with lines := [lineW 0x11000 1] })).core 0).lines 0x11001 = some (lineW 0x11000 1) ∧
    lineAt (((mw []).setCluster 0 [lineW 0x11000 1]).cluster 0) 0x11000 = some (lineW 0x11000 1) ∧
    (((mw []).updPart 0 (fun p => { p with lines := [lineW 0x11000 1] })).part? 0).map (fun q => lineAt q.lines 0x11000) =
      some (some (lineW 0x11000 1)) ∧ (lineW 0x11000 1).clean = false := by decide

/-- The copy at the head of the engine. -/
def cp : Copy := { n := 1, gid := 0, tix := 0, dst := 0x11000, src := 0x11100, rows := 1, bytes := 4 }

/-- The machine with that copy. -/
def copying (x : Copy) : Mach := mc [] (fun k => { k with copyCtr := 1, copies := [x] })

theorem wit_CopyEngine : ((tw [(4, 32)]).rd 4).toNat % 64 ≠ 0 ∧ ((tw [(4, 64)]).rd 4).toNat % 64 = 0 ∧ padOk (mw []) 0 4096 64 = false ∧
    padOk (mw []) 0 64 64 = true ∧ 64 ≤ ((mc [] (fun k => { k with copies := List.replicate 64 cp })).core 0).copies.length ∧
    ((copying cp).core 0).copies.length < 64 ∧ (mw []).group? 0 = some gw ∧ ((copying cp).core 0).copies = [cp] ∧ cp.stopped = none ∧
    cp.status = 0 ∧ ((copying cp).die 0).fatal = false ∧ ({ cp with rows := 0 } : Copy).bad 4096 = true ∧ cp.bad 4096 = false ∧
    setPeer (mw []) 0 1 = none ∧ (mw []).thread? 0 0 = some (tw []) ∧ relReady (mw []) (tw []) 2 = true ∧
    isOk (pieceRead (copying cp) who0 cp 4) = true ∧ isOk (pieceRead (copying cp) who0 { cp with src := 0 } 4) = false ∧
    ({ cp with dsp := 1 } : Copy).padOf (mw []) 1 = some 0 ∧ isOk (engineXlat (mw []) who0 .engineW (pageParts 0x11000 4)) = true ∧
    isOk (engineXlat (mw []) who0 .engineW (pageParts 0x20000 4)) = false ∧ copyMark ((copying cp).core 0) = 0 ∧
    1 ≤ copyMark ((mc [] (fun k => { k with copyCtr := 1 })).core 0) ∧ tileMark ((mw []).core 0) = 0 ∧
    haltedFor (mw []) (tw []) (fun _ => true) = none ∧ (∀ k ∈ [1], 0 < k) := by decide

/-! Command rings. -/

/-- The partition. -/
def pt : Part := { pid := 0, dies := [0], stat := .running }

/-- The machine with one command on the partition's ring. -/
def ring (m : Mach) (code : Nat) (ops : List DWord) : Mach :=
  publishBytes (ringPut pt 0 [⟨code, ops⟩] m) (ringBase pt) (natBytes 8 1)

/-- The command at Consumer, as `RingHead` reads it. -/
def headIs (m : Mach) (code : Nat) (ops : List Nat) : Bool :=
  decide (m.part? pt.pid = some pt ∧ memNat m (ringBase pt + 8) 8 ≠ memNat m (ringBase pt) 8 ∧
    memNat m (ringEntry pt (memNat m (ringBase pt + 8) 8)) 4 = code ∧
    ops = (List.range 6).map (fun i => memNat m (ringEntry pt (memNat m (ringBase pt + 8) 8) + 8 + 8 * i) 8))

theorem ringHead {m : Mach} {code : Nat} {ops : List Nat} (h : headIs m code ops = true) : RingHead m pt code ops := by
  obtain ⟨a, b, c, d⟩ := of_decide_eq_true h
  exact ⟨a, .inl rfl, b, c, d⟩

/-- The thread waits for the reply to ticket 1. -/
def asking : Mach := (mw []).updThread 0 0 (fun t => { t with stat := .waiting (.svc 1) })

/-- A launch record of one group of 8 threads. -/
def rec1 : LaunchRec := { regs := 64, glevel := 1, clevel := 1, widths := [3], extents := [8], ranges := [(0, 1), (0, 0), (0, 0), (0, 0)] }

/-- The bytes of a record with the register count `n` and extents a, b, and what Range says of die 0. -/
def recBytes (n w a v b r : Nat) : List Byte :=
  List.replicate 0x30 0 ++ natBytes 2 n ++ [1, 1] ++ List.replicate 12 0 ++ natBytes 2 (w + 256 * v) ++ List.replicate 6 0 ++
    natBytes 4 a ++ natBytes 4 b ++ List.replicate (0x80 - 0x50) 0 ++ natBytes 4 0 ++ natBytes 4 r ++ List.replicate 56 0

theorem wit_SystemWords : ((tw [(4, 32)]).rdD 4).toNat % 64 ≠ 0 ∧ ((tw [(4, 0x11000)]).rdD 4).toNat % 64 = 0 ∧
    relReady (mw []) { tw [] with prs := 1 } 4 = false ∧ relReady (mw []) (tw []) 4 = true ∧
    isOk (engineXlat (relPush (mw []) 0 4) who0 .load (pageParts 0x11FC0 192)) = true ∧
    isOk (engineXlat (relPush (mw []) 0 4) who0 .load (pageParts 0 192)) = false ∧
    queueOf (mw []) 0 0 = none ∧ (queueOf (mw []) 0 65537).isSome = true ∧ (mw []).ctx? 0 = some { cid := 0, part := 0 } ∧
    (tw []).rdD 4 = 0 ∧ ((tw [(4, 1)]).rdD 4).toNat = 1 ∧
    ((mw []).updThread 0 0 (fun t => { t with stat := .waiting (.sleep 0) })).thread? 0 0 = some { tw [] with stat := .waiting (.sleep 0) } ∧
    ((mw []).group? 0).map (fun g => g.stat) = some .live := by decide

theorem wit_SystemWords_record : recFieldBad (recBytes 15 3 8 0 0 0) = true ∧ recFieldBad (recBytes 16 3 8 0 0 0) = false ∧
    (LaunchRec.ofBytes (recBytes 16 11 1025 0 0 0)).threads = 1025 ∧ recFieldBad (recBytes 16 11 1025 0 0 0) = false ∧
    (LaunchRec.ofBytes (recBytes 16 3 8 0 0 3)).rangesBad [0] = true ∧ (LaunchRec.ofBytes (recBytes 16 3 8 0 0 1)).rangesBad [0] = false ∧
    (LaunchRec.ofBytes (recBytes 16 3 8 0 0 0)).rangesBad [0] = false ∧ 65536 < 1024 * 72 ∧
    (LaunchRec.ofBytes (recBytes 72 10 1024 0 0 0)).threads = 1024 ∧ recFieldBad (recBytes 72 10 1024 0 0 0) = false ∧
    rec1.ranges.length = 4 ∧ (∃ r ∈ rec1.ranges, r.2 ≠ 0) ∧ rec1.rangesBad [0] = false ∧ (∀ r ∈ [(0, 0), ((0, 0) : Nat × Nat)], r.2 = 0) ∧
    ([0] : List Nat).filter (fun e => decide (e < 0)) = [] := by
  decide +kernel

theorem wit_SystemWords_reply : RingHead (ring asking 14 [1, 1, 5, 6]) pt 14 [1, 1, 5, 6, 0, 0] ∧
    ctxNum (ring asking 14 [1, 1, 5, 6]) pt 1 = some { cid := 0, part := 0 } ∧
    (∀ t ∈ (mw []).threads, ¬ (cidOf (mw []) t.gid = 0 ∧ t.stat = .waiting (.svc 1))) ∧
    (asking.threads.find? (fun t => cidOf asking t.gid == 0 && (match t.stat with | .waiting (.svc k) => k == 1 | _ => false))).isSome = true ∧
    asking.group? 0 = some gw ∧ (∀ r ∈ ({ cid := 0, part := 0 } : Ctx).replies, r.1 ≠ 1) :=
  ⟨ringHead (by decide +kernel),
  by decide,
  by decide,
  by decide,
  by decide,
  by decide⟩

/-- A kernel at the head of its queue, with a group of 8 threads pending on die 0. -/
def kp : Kernel := { kid := 0, cid := 0, qid := 0, seq := 1, rc := rec1 }

/-- The machine with that kernel. -/
def mk (k : Kernel) (f : Core → Core) : Mach :=
  { (mc [] f) with running := [], cur := none, threads := [], groups := [], kernels := [k]
                   ctxs := [{ cid := 0, part := 0, saveSize := 2 ^ 30 }]
                   queues := [{ qid := 0, part := 0, num := 1, cid := 0, kids := [0], dropLate := true }] }

/-- A saved group of that kernel. -/
def msav (rank : List Kernel) : Mach :=
  { mk { kp with placed := [(0, 1)], stat := .running, preempted := true } id with
    groups := [{ gw with stat := .saved }], kernels := { kp with placed := [(0, 1)], stat := .running, preempted := true } :: rank
    queues := [{ qid := 0, part := 0, num := 1, cid := 0, kids := [0] }, { qid := 1, part := 0, num := 2, cid := 0, kids := [1] }] }

/-- A kernel of a higher band. -/
def kq : Kernel := { kp with kid := 1, qid := 1, rc := { rec1 with band := 1 } }

theorem wit_GroupLife_place : (mk kp id).kernel? 0 = some kp ∧ kp.nextGix 0 = some 0 ∧ placeable (mk kp id) kp = true ∧
    kp.late 0 = false ∧ pendingFits (mk kp id) kp 0 = true ∧ outranked (mk kp id) kp 0 = false ∧ returnsFirst (mk kp id) kp 0 = false ∧ recRoom (mk kp id) kp = some [0] ∧
    (∀ c ∈ kp.rc.coresAt 0, sliceSkipped (mk kp id) c 0 = false) ∧
    pendingFits { (mk kp id) with ctxs := [{ cid := 0, part := 0 }] } kp 0 = false ∧
    (∃ i, i < 64 ∧ fitsOn { (mk kp id) with ctxs := [{ cid := 0, part := 0 }] } kp i = true) ∧
    (∀ i, i < 64 → fitsOn { mk kp id with dies := [] } kp i = false) ∧ placeable { mk kp id with dies := [] } kp = true ∧
    makesRoom (mk kp id) kp 0 = none ∧ kp.again = [] ∧ callOf (mk kp id) 0 kp = none ∧ rec1.stack = 0 ∧
    outranked { mk kp id with kernels := [kp, kq], queues := (msav []).queues } kp 0 = true := by decide +kernel

/-- The kernel, late. -/
def kl : Kernel := { kp with rc := { rec1 with deadline := 1 } }

/-- The machine with it, past its deadline. -/
def ml : Mach := { mk kl id with time := 2 }

theorem wit_GroupLife_late : placeable ml kl = true ∧ pendingFits ml kl 0 = true ∧ outranked ml kl 0 = false ∧ returnsFirst ml kl 0 = false ∧
    (∀ c ∈ kl.rc.coresAt 0, sliceSkipped ml c 0 = false) ∧ kl.stat = .queued ∧ kl.rc.deadline ≠ 0 ∧ kl.rc.deadline < ml.time ∧
    (ml.queue? 0).map (fun q => q.dropLate) = some true := by decide +kernel

/-- A group whose threads all wait for a member that is still pending. -/
def room : Mach :=
  let k : Kernel := { kp with rc := { rec1 with glevel := 0, clevel := 0, extents := [2], ranges := [(0, 2), (0, 0), (0, 0), (0, 0)] }
                              placed := [(0, 1)], stat := .running }
  { mk k id with
    groups := [gw], threads := [{ tw [] with stat := .waiting (.barrier 5 0 1 0 ⟨4096, 0⟩ true) }]
    barriers := [{ bid := 5, kid := 0, key := ⟨0, 2, 0, 1⟩, id := 0, arrived := [(0, 0)] }] }

theorem wit_GroupLife_room : (room.kernel? 0).bind (fun k => makesRoom room k 0) = some gw := by decide

theorem wit_GroupLife : (msav []).group? 0 = some { gw with stat := .saved } ∧
    (msav []).kernelOf 0 = some { kp with placed := [(0, 1)], stat := .running, preempted := true } ∧
    setReturns (msav []) { gw with stat := .saved } 0 = true ∧
    outranked (msav []) { kp with placed := [(0, 1)], stat := .running, preempted := true } 0 = false ∧
    outranked (msav [kq]) { kp with placed := [(0, 1)], stat := .running, preempted := true } 0 = true ∧
    setReturns (mw []) gw 0 = false ∧ ({ mw [] with threads := [] } : Mach).group? 0 = some gw ∧ gw.onCore = true ∧
    ({ gw with stat := .exited } : Group).onCore = false := by decide

/-- The kernel is closing; its completion word is at `a`. -/
def shut (a : Nat) : Mach := { mw [] with kernels := [{ kw with stat := .closing, rc := { kw.rc with done := a } }], threads := [] }

/-- A cancelled kernel that never ran, of a number. -/
def cut (kid seq : Nat) : Kernel := { kw with kid := kid, seq := seq, stat := .closing, status := 4 }

theorem wit_GroupLife_order : closesLater { mw [] with kernels := [cut 0 1, cut 1 2] } (cut 1 2) = true ∧
    closesLater { mw [] with kernels := [cut 0 1, cut 1 2] } (cut 0 1) = false ∧ (∀ v ∈ ((mw []).die 0).visitors, v.2.gid ≠ 0) := by decide

theorem wit_GroupLife_close : writesDone (shut 0) 0 = true ∧
    writesDone { shut 0 with hostWrs := [⟨9, 0, 0, 0, []⟩] } 0 = false ∧
    isOk (translate (shut 0x11000) who0 .store 0x11000) = true ∧ isOk (translate (shut 0x20000) who0 .store 0x20000) = false ∧
    on (shut 0x11000) .store 0x11000 1 = true ∧ drainingOf (shut 0x11000) kw = false ∧
    ((shut 0x11000).ctx? 0).isSome = true ∧ (writeDone (shut 0x11000) who0 kw ⟨0x11000, 1, 32, false, 0, 4096⟩).isSome = true ∧
    kw.status < 256 ∧ kw.stat ≠ .ended ∧ kw.stat ≠ .closing := by decide

theorem wit_BarrierObjects : (mw []).group? 0 = some gw ∧
    ((mw []).barriers.find? (fun b => b.kid == 0 && b.key == selKey kw.rc 0 0 0 .grp && b.id == 0)) = none ∧
    (([{ bid := 5, kid := 0, key := selKey kw.rc 0 0 0 .grp, id := 0 }] : List Barrier).find?
      (fun b => b.kid == 0 && b.key == selKey kw.rc 0 0 0 .grp && b.id == 0)).isSome = true ∧
    0 < extentProd rec1 0 1 ∧ 0 < extentProd rec1 1 2 ∧ 7 < rec1.threads ∧ rec1.glevel ≤ rec1.clevel ∧
    (mw []).kernel? 0 = some kw ∧ expectedOf kw ⟨0, 1, 0, 1⟩ = 1 ∧ expectedOf kw ⟨0, 1, 0, 2⟩ = 2 := by decide

/-- The machine with its group barrier. -/
def barred (b : Barrier) : Mach := { mw [] with barriers := [b] }

/-- The barrier that `.grp` names. -/
def bw : Barrier := { bid := 5, kid := 0, key := selKey kw.rc 0 0 0 .grp, id := 0 }

theorem wit_BarrierWords : barOf (barred bw) (tw []) .grp 0 = (barred bw, bw) ∧ bw.broken = none ∧
    barOf (barred { bw with broken := some 2 }) (tw []) .grp 0 = (barred { bw with broken := some 2 }, { bw with broken := some 2 }) ∧
    barOf (barred { bw with arrived := [(0, 0)] }) (tw []) .grp 0 = (barred { bw with arrived := [(0, 0)] }, { bw with arrived := [(0, 0)] }) ∧
    (gw.gix, (tw []).tix) ∉ bw.arrived ∧ relReady (barred bw) (tw []) (selReach kw.rc .grp) = true ∧
    relReady { barred bw with stxs := [⟨1, 0, 0, 1, 0, [], false⟩] } (tw []) (selReach kw.rc .grp) = false ∧
    bw.phase = (tw []).rd 4 ∧ bw.phase ≠ (tw [(4, 1)]).rd 4 := by decide

theorem wit_ChunkCloses : ({} : Core).run < 8 ∧ ({} : Core).lastSq < 8 ∧ ({} : Core).lastClose < 256 ∧
    ((mc [] (fun k => { k with due := [1] })).core 0).due ≠ [] ∧ ((mc [] (fun k => { k with due := [1] })).core 0).comC = none ∧
    (∀ r ∈ ({ mw [] with running := [] } : Mach).running, r.core ≠ 0) ∧ ((mw []).core 0).openC.empty = true ∧
    ((mc [] (fun k => { k with openC := { k.openC with rd := [(0, 32)] } })).core 0).openC.empty = false ∧
    (((mw []).updDie 0 (fun d => { d with clk := 262144 })).core 0).openC.opened + Config.chunkCycles ≤
      (((mw []).updDie 0 (fun d => { d with clk := 262144 })).die 0).clk ∧
    causesNow (mw []) 0 = [] ∧ causesNow (mc [] (fun k => { k with due := [1] })) 0 = [1] ∧
    (∀ t ∈ threadsOn (mw []) 0, t.stat ≠ .exited) ∧ ({ parity := true } : Chunk).meets [(0, 32)] = true := by decide

/-- A chunk commits that has written a grain. -/
def committing : Mach := mc [] (fun k => { k with comC := some { wr := [(0x10000, 32)], cells := [(0x10000, 1)] } })

theorem wit_Tidemarks : (committing.core 0).comC = some { wr := [(0x10000, 32)], cells := [(0x10000, 1)] } ∧
    (partOfCore committing 0).isSome = true ∧ (∀ x ∈ committing.stxs, committing.coreOf x.gid = 0 → x.done = true) ∧
    soloBlocks committing [0] (some 0) [(0x10000, 32)] = false ∧ (committing.die 0).fatal = false ∧
    storesDone { pair with stxs := [⟨1, 0, 0, 1, 0, [], false⟩] } 0 = false ∧
    soloBlocks (committing.updCore 1 (fun k => { k with openC := { solo := true, rd := [(0x10000, 32)] } })) [0] (some 0) [(0x10000, 32)] = true ∧
    committing.cores.Pairwise (fun a b => a.1 ≠ b.1) ∧ ({ rd := [(0x10000, 32)] } : Chunk).meets [(0x10000, 32)] = true ∧
    ({} : Chunk).meets [(0x10000, 32)] = false ∧ committing.thread? 0 0 = some (tw []) ∧
    [tw []].find? (fun x => x.gid == 0 && x.tix == 0) = some (tw []) ∧
    ((mc [] (fun k => { k with run := 4 })).core 0).run = 4 ∧ ((mw []).part? 0).map (fun p => p.solo) = some [] ∧
    ({ pt with solo := [0] } : Part).solo.head? = some 0 := by decide

/-- A slot word of FP32 in the third slot, and FA48 in the first. -/
def slots3 : List Word := [4, 4, 4]

/-- A command of the thread. -/
def cmd (op : TOp) : TCmd := { n := 1, gid := 0, tix := 0, tile := 0, op := op }

/-- The machine with that command in flight, on a tile whose first element is 1, of the group. -/
def tiled (x : TCmd) : Mach :=
  mc [] (fun k => { k with tileCtr := 1, tcmds := [x], tiles := [(0, { gid := 0, el := [(0, BitVec.ofNat 64 (round48 (fp 0x3F800000)))] }), (1, { gid := 9 })] })

theorem wit_TileCommands : slotOf kw.rc.slots 0 = some .fa48 ∧ ((tw [(4, 4)]).rd 4).toNat % 8 ≠ 0 ∧ kw.rc.scratch < 4088 + 31 * 0 + 32 * (Elem.fa48).bits / 8 ∧
    0 + 31 * 0 + 32 * (Elem.fa48).bits / 8 ≤ kw.rc.scratch ∧ padOk (mw []) 0 4096 64 = false ∧ padOk (mw []) 0 64 64 = true ∧ padOk (mw []) 0 4096 32 = false ∧
    padOk (mw []) 0 4064 32 = true ∧ (0 : Nat) < 2 ^ 64 := by decide

theorem wit_TileEnds : (cmd (.chol 1)).res = none ∧ ({ cmd (.chol 1) with res := some 8 } : TCmd).res = some 8 ∧ (0 : Nat) < 256 ∧
    foreign ((tiled (cmd (.chol 1))).core 0) 0 [1] none = true ∧ foreign ((tiled (cmd (.chol 1))).core 0) 0 [0] none = false ∧
    ((lget ((tiled (cmd (.chol 1))).core 0).tiles 0).map (fun x => x.waiters)) = some [] ∧ lget ((tiled (cmd (.chol 1))).core 0).tiles 2 = none ∧
    ((lget ((tiled (cmd (.chol 1))).core 0).tiles 0).map (fun x => x.inbound)) = some 0 ∧ tileStep ((tiled (cmd (.chol 1))).core 0) 0 < 256 := by decide

/-- The command may begin and no word that it meets is damaged. -/
def begins (x : TCmd) : Bool :=
  mayBegin (tiled x) ((tiled x).core 0) x && !cmdBad (tiled x) 0 x &&
    ((tiled x).core 0).tcmds.find? (fun y => y.gid == 0 && y.n == 1 && !(y.halt.isSome || y.sent)) == some x

/-- The step of a command on the tile and its register. -/
def stepsOk (x : TCmd) (i : Nat) : Bool := isOk (x.op.step (workOf ((tiled x).core 0) x) i none)

theorem wit_TileEvents : begins (cmd (.zero false)) = true ∧ begins (cmd (.zero true)) = true ∧ begins (cmd (.ld 0 0 4 [])) = true ∧
    begins (cmd (.st 0 0 4)) = true ∧ begins (cmd (.mma [] 4 4 [])) = true ∧ begins (cmd (.code [])) = true ∧ begins (cmd (.dadd 0 0)) = true ∧
    slotElem 4 = some .fa48 ∧ (cmd (.chol 1)).op.factor = true ∧ (cmd (.chol 1)).op.steps { gid := 0 } = 1 ∧
    mayBegin (mw []) ((mc [] (fun k => { k with tcmds := [cmd (.zero false), { cmd (.zero false) with n := 2 }] })).core 0) { cmd (.zero false) with n := 2 } = false ∧
    cmdBad { tiled (cmd (.st 0 0 4)) with bad := [.tile 0 0] } 0 (cmd (.st 0 0 4)) = true ∧
    (daddTarget pair 0 (cmd (.dadd 4 0)) 4).pkg = none ∧ (daddTarget pair 0 (cmd (.dadd 2 0)) 2).pkg = some 0 ∧
    fabricUp (mw []) 0 = false ∧ (mw []).group? 0 = some gw ∧ gw.stat ≠ .saving ∧ begins (cmd (.chol 1)) = true ∧
    arrayFree (tiled (cmd (.chol 1))) ((tiled (cmd (.chol 1))).core 0) (cmd (.chol 1)) = true := by decide

theorem wit_TileEvents_more : arrayFree (tiled { cmd (.chol 1) with begun := true }) ((tiled { cmd (.chol 1) with begun := true }).core 0)
      { cmd (.chol 1) with begun := true } = true ∧ gw.stat ≠ .faulted ∧ ({ gw with stat := .faulted } : Group).stat = .faulted ∧
    cmdBad (tiled { cmd (.chol 1) with begun := true }) 0 { cmd (.chol 1) with begun := true } = false := by decide

theorem wit_TileEvents_step : stepsOk (cmd (.chol 1)) 0 = true ∧ stepsOk (cmd (.chol 2)) 1 = false := by decide +kernel

/-- A drain-add to the group's own tile 0 at mode 0, and one to a core. -/
def da (g : Option Nat) : DAdd := { core := 1, n := 1, gid := 1, cid := 0, target := 0, toGid := g, ty := 0, el := [] }

/-- The machine with it on its way; the tile is at rest. -/
def adding (d : DAdd) : Mach :=
  { pair with
    dadds := [d]
    cores := (mc [] (fun k => { k with tiles := [(0, { gid := 0 })] })).cores }

theorem wit_TileEvents_dadd : (adding (da (some 0))).dadds.find? (fun y => y.gid == 1 && y.n == 1 && y.ans.isNone) = some (da (some 0)) ∧
    (∀ e ∈ (adding (da none)).dadds, e.core = 1 → e.n < 1 → e.ans = none → False) ∧
    tileOwner (adding (da none)) 0 0 = some gw ∧ (applyAdd (adding (da none)) 0 0 []).isSome = true ∧ cidOf (adding (da none)) 0 = 0 ∧
    tileOwner (adding (da none)) 0 1 = none ∧ ((adding (da none)).partOf 0).isSome = true ∧
    ((adding { da none with ans := some 0 }).dadds.find? (fun y => y.gid == 1 && y.n == 1 && y.ans.isSome)).isSome = true ∧
    (([{ cmd (.dadd 0 0) with gid := 1, sent := true }] : List TCmd).find? (fun y => y.gid == 1 && y.n == 1 && y.sent)).isSome = true ∧
    (∀ x ∈ ((adding (da none)).core 1).tcmds, daddAhead (adding (da none)) (da none) x = false) ∧
    daddPlace (adding (da none)) (da none) = daddPlace (adding (da none)) { da none with n := 0 } ∧
    daddAhead (adding (da none)) (daddTarget pair 1 { cmd (.dadd 0 0) with n := 2 } 0) (cmd (.dadd 0 0)) = true ∧
    (∀ y ∈ ((adding (da none)).core 0).tcmds, y.begun = true → 0 ∉ y.tiles) ∧ 0 + 1 < 2 ^ 32 ∧ 2 ^ 32 - 1 + 1 = 2 ^ 32 := by decide

/-- A frame of effect 100 whose stack top is 0x13800. -/
def fr0 (state : Nat) : Frame := { id := 100, entry := 4096, state := state, p := 1, exit := 4096, s := 2, top := 0x13800, ov := 0, depth := 1, link := 0 }

/-- The thread's registers: its stack pointer and first argument. -/
def sp0 : Regs := [(4, 0x13100)]

/-- The frame at the thread's handler stack pointer, and `h` below its top. -/
def hand (fr : Frame) (h : List Byte) : Mach :=
  { (mw sp0).updThread 0 0 (fun t => { t with hsp := 0x13100 }) with
    mem := cwrite (cwrite [] 0x13100 fr.bytes) (fr.top - 64) h }

/-- The thread there. -/
def ht : Thread := { tw sp0 with hsp := 0x13100 }

/-- A plan that may be performed. -/
def planned (m : Mach) (t : Thread) (p : Except FxStop FxPlan) : Bool :=
  match p with
  | .ok p => (fxProbe p.x.m p.x.who p.wrs).isNone && chunkEmpty m 0 && (m.core 0).comC.isNone && !l1Held m 0 t.gid t.tix
  | .error _ => false

/-- The effect that stops a plan. -/
def stopsOn (p : Except FxStop FxPlan) : Option Nat :=
  match p with
  | .error (.eff id _ _ _) => some id
  | _ => none

theorem wit_EffectWords : planned (mw sp0) (tw sp0) (handlePlan rw0 100 4 2 4096 (mw sp0) (tw sp0)) = true ∧
    planned (hand (fr0 1) []) ht (endhPlan (hand (fr0 1) []) ht) = true ∧
    planned (hand (fr0 0) []) ht (performPlan rw0 true 100 (hand (fr0 0) []) ht) = true ∧
    planned (hand (fr0 2) []) ht (resumePlan rw0 6 (hand (fr0 2) []) { ht with w := rput sp0 6 0x10001 }) = true ∧
    planned (hand (fr0 2) []) ht (dropPlan 6 (hand (fr0 2) []) { ht with w := rput sp0 6 0x20001 }) = true ∧
    planned (hand (fr0 2) []) ht (hretPlan (hand (fr0 2) []) ht) = true ∧
    planned (hand (fr0 2) []) ht (hstatPlan .depth 5 4 (hand (fr0 2) []) ht) = true := by decide +kernel

theorem wit_EffectWords_stops : stopsOn (handlePlan rw0 100 5 2 4096 (mw [(4, 0x13110)]) (tw [(4, 0x13110)])) = some 2 ∧
    stopsOn (endhPlan (mw []) (tw [])) = some 10 ∧ stopsOn (endhPlan (hand (fr0 2) []) ht) = some 10 ∧
    stopsOn (performPlan rw0 true 100 (mw [(4, 8)]) (tw [(4, 8)])) = some 2 ∧ stopsOn (performPlan rw0 false 100 (mw []) (tw [])) = some 10 ∧
    stopsOn (resumePlan rw0 6 (mw []) (tw [])) = some 8 ∧ stopsOn (dropPlan 6 (mw []) (tw [])) = some 8 ∧
    planned (hand (fr0 3) []) ht (endhPlan (hand (fr0 3) []) ht) = true ∧
    stopsOn (resumePlan rw0 6 (hand (fr0 2) (List.replicate 10 0 ++ [1, 0, 9])) { ht with w := rput sp0 6 0x10001 }) = some 8 ∧
    stopsOn (hretPlan (mw []) (tw [])) = some 10 ∧
    planned (hand { fr0 2 with ov := 1 } []) ht (hretPlan (hand { fr0 2 with ov := 1 } []) ht) = true ∧
    planned (hand (fr0 1) []) ht (handlePlan rw0 100 4 2 4096 (hand (fr0 1) []) ht) = true := by decide +kernel

/-- The thread has raised effect 100 or another. -/
def raisedM (e : Nat) : Mach :=
  (hand (fr0 1) []).updThread 0 0 (fun t => { t with stat := .raised, pend := some { eff := e } })

theorem wit_HandlerRecords : (∀ a ∈ [(fr0 1).entry, (fr0 1).exit, (fr0 1).top, (fr0 1).link], canonical a = true ∧ a < 2 ^ 64) ∧
    (fr0 1).top % 16 = 0 ∧ (raisedM 100).group? 0 = some gw ∧ gw.onCore = true ∧ retryOn (raisedM 100) 0 = false ∧ arriving (raisedM 100) ht = false ∧
    fxHotReads (raisedM 100) who0 [] = false ∧ fxHotReads (raisedM 100) who0 [(0x11000, 64)] = true ∧
    chunkEmpty ((raisedM 100).updCore 0 (fun k => { k with openC := { k.openC with rd := [(0, 32)] } })) 0 = false ∧
    arriving (raisedM 100) { ht with loads := [⟨5, [(4, 0)], none⟩] } = true ∧
    (match Fx.search 100 64 (fxOf (raisedM 100) ht) 0x13100 with | .ok (_, some (f, fr)) => f == 0x13100 && fr == fr0 1 | _ => false) = true ∧
    (match Fx.search 3 64 (fxOf (raisedM 3) ht) 0x13100 with | .ok (_, none) => true | _ => false) = true ∧
    (match deliverPlan (raisedM 100) ht { eff := 100 } who0 false with
      | .ok (.inl p) => planned (raisedM 100) ht (.ok p) | _ => false) = true := by decide +kernel

theorem wit_HandlerRecords_chain : Chain (fxOf (mw []) (tw [])) 0 [] (fxOf (mw []) (tw [])) 0 := ⟨rfl, rfl⟩

/-- A frame that links to itself: a search passes 64 frames. -/
def loopM : Mach := hand { fr0 1 with link := 0x13100 } []

theorem wit_HandlerRecords_loop :
    (match Fx.search 3 64 (fxOf loopM ht) 0x13100 with | .error (.eff 10 3 2 _) => true | _ => false) = true ∧
    (match Fx.search 10 64 (fxOf loopM ht) 0x13100 with | .error (.eff 10 10 2 _) => true | _ => false) = true := by decide +kernel

/-- Core 0 serves the context until `e`. -/
def sliced (e : Nat) (f : Core → Core) : Mach :=
  mc [] (fun k => f { k with cid := some 0, sliceEnd := some e })

/-- A group with the status and idempotence. -/
def grp (g : Group) (idem : Bool) : Mach :=
  { sliced 0 id with groups := [g], kernels := [{ kw with rc := { kw.rc with idem := idem } }] }

theorem wit_Leaving : ((sliced 5 id).core 0).sliceEnd = some 5 ∧ (ctxOn (sliced 5 id) 0).isSome = true ∧
    ((sliced 5 id).core 0).stopping = false ∧ 0 ≤ (0 : Nat) + 0 ∧ (grp gw true).group? 0 = some gw ∧
    (∀ h ∈ liveSet (grp gw true) gw, h.stat = .live) ∧ progress (grp gw true) gw < 90 ∧
    90 ≤ progress { grp gw true with threads := [] } gw ∧
    (∀ h ∈ liveSet (grp gw true) gw, ((grp gw true).recOf h.gid).idem = true ∧ h.escaped = false) ∧
    (∀ h ∈ setOf (grp gw true) gw, h.stat ≠ .exited ∧ h.stat ≠ .faulted) ∧
    (∃ h ∈ setOf { grp gw true with groups := [gw, { gw with gid := 1, stat := .exited }] } gw, h.stat = .exited) ∧
    (∃ h ∈ liveSet (grp gw false) gw, ((grp gw false).recOf h.gid).idem = false) ∧
    (∀ h ∈ liveSet { grp { gw with stat := .saving } true with running := [] } { gw with stat := .saving },
      saveReady { grp { gw with stat := .saving } true with running := [] } h = true) ∧
    (∃ h ∈ liveSet (grp { gw with stat := .saving } true) { gw with stat := .saving }, saveReady (grp { gw with stat := .saving } true) h = false) ∧
    (∀ h ∈ liveSet { grp gw true with time := 2000000 } gw, h.stat = .live ∧ h.placedAt + 2000000 ≤ 2000000) ∧
    liveSet { grp gw true with time := 2000000 } gw ≠ [] ∧ (pushAll (grp gw true) 0 true).group? 0 = some gw ∧
    holders { sliced 5 id with groups := [] } 0 = [] ∧ ((sliced 5 id).core 0).openC.empty = true ∧
    (pushAll (sliced 5 id) 0 true).time = 0 ∧ holders (sliced 5 id) 0 ≠ [] := by decide

/-- A head of a higher band, of another context, that fits nowhere on die 0. -/
def trig : Mach :=
  { sliced 500000 id with
    cores := (sliced 500000 id).cores ++ (List.range 63).map (fun i => (i + 1, { fenced := true }))
    time := 100000, kernels := [kw, { kq with cid := 1 }], ctxs := [{ cid := 0, part := 0 }, { cid := 1, part := 0, num := 2 }]
    queues := [{ qid := 0, part := 0, num := 1, cid := 0, kids := [0] }, { qid := 1, part := 0, num := 1, cid := 1, kids := [1] }] }

/-- The kernel's only group waits for the supervisor. -/
def served : Mach :=
  { asking with ctxs := [{ cid := 0, part := 0, threshold := 100 }] }

theorem wit_Leaving_trigger : trig.kernel? 1 = some { kq with cid := 1 } ∧ placeable trig { kq with cid := 1 } = true ∧
    ({ kq with cid := 1 } : Kernel).nextGix 0 = some 0 ∧ (∀ i, i < 64 → fitsOn trig { kq with cid := 1 } i = false) ∧
    mayTrigger trig { kq with cid := 1 } 0 = true ∧
    (∀ i, i < 64 → mayTrigger trig { kq with cid := 1 } i = true → takenBefore trig 0 i = true) ∧
    partDies trig 0 = [0] ∧ (∀ t ∈ (trig.die 0).trig, t.1 ≠ 1) ∧ served.kernel? 0 = some kw ∧
    (served.groups.filter (fun g => g.kid == 0 && g.stat == .live)).countP (inService served) = 1 ∧ kw.stat = .running := by decide +kernel

/-- A thread parked at a word that may be retried. -/
def parked (p : Park) : Mach := (mw []).updThread 0 0 (fun t => { t with stat := .parked p })

/-- A descriptor's bytes: `satp` of mode 14, a save area and a fault queue of the partition's, and limits. -/
def desc : List Byte :=
  natBytes 8 (14 * 2 ^ 60 + 5 * 2 ^ 44) ++ natBytes 8 0x100000 ++ natBytes 8 0x100000 ++ natBytes 8 0x300000 ++ natBytes 4 16 ++ natBytes 4 1000 ++
    List.replicate 8 0

theorem wit_SupervisorCommands : (mw []).ctx? 0 = some { cid := 0, part := 0 } ∧ memNat (mw []) 0x38 8 = 0 ∧ (0 : Nat) - 0 < 16 ∧
    (mw []).part? 0 = some pt ∧ memNat (mw []) (ringBase pt) 8 = 0 ∧ ownRange pt 0x100000 64 = true ∧
    (newContext (mw []) pt 0x100000 desc none).isSome = true ∧ (newContext (mw []) pt 0x100000 [] none).isNone = true ∧
    lowestFree 1 4095 [1] = some 2 ∧ parkedAt (parked (.fault 1 0x0102 true)) pt 0 = some (({ tw [] with
      stat := .parked (.fault 1 0x0102 true) } : Thread), .fault 1 0x0102 true) ∧ parkedAt (mw []) pt 0 = none := by decide +kernel

theorem wit_SupervisorCommands_ring : (∀ c ∈ [1, 2, 3, 4, 5], headIs (ring (mw []) c [1]) c [1, 0, 0, 0, 0, 0] = true) ∧
    (∀ r ∈ [0, 1, 2, 3], headIs (ring (parked (.group .ready)) 4 [0, BitVec.ofNat 64 r]) 4 [0, r, 0, 0, 0, 0] = true) ∧
    (ctxNum (ring (mw []) 2 [1]) pt 1).isSome = true ∧ ctxNum (ring (mw []) 2 [1]) pt 2 = none := by decide +kernel

/-- The command SAVE_GROUP of the thread's slot stands at the head, with the group that the partition saves. -/
def saver (g : Option Nat) (st : GStat) : Mach :=
  { ring (mw []) 5 [1, 0, 0] with parts := [{ pt with saving := g }], groups := [{ gw with stat := st }] }

theorem wit_SupervisorCommands_save : RingHead (saver none .live) pt 5 [1, 0, 0, 0, 0, 0] ∧
    RingHead (saver (some 0) .saved) { pt with saving := some 0 } 5 [1, 0, 0, 0, 0, 0] ∧ ctxNum (saver none .live) pt 1 = some { cid := 0, part := 0 } ∧
    (∀ u ∈ (saver none .live).threads, u.slot = 0 ∧ (saver none .live).coreOf u.gid = 0 ∧ cidOf (saver none .live) u.gid = 0) ∧
    (∀ st ∈ [GStat.live, .draining, .saving, .saved, .exited, .faulted], (saver (some 0) st).group? 0 = some { gw with stat := st }) ∧
    ({ saver (some 0) .live with groups := [] } : Mach).group? 0 = none ∧ (∀ u ∈ ({ saver none .live with threads := [] } : Mach).threads, u.slot ≠ 0) :=
  ⟨⟨by decide, .inl rfl, by decide +kernel, by decide +kernel, by decide +kernel⟩,
    ⟨by decide, .inl rfl, by decide +kernel, by decide +kernel, by decide +kernel⟩, by decide +kernel⟩

/-- The thread has landed, at rest, on a page of the other instruction set; another page is tagged for this one. -/
def landed : Mach :=
  { (mw []).updDie 0 (fun d => { d with tlb := { page 0x14000 1 with leaf := (page 0x14000 1).leaf + 2 ^ 54 } :: d.tlb }) with
    running := [], cur := none, threads := [{ tw [] with stat := .ready, pos := ⟨0x11000, 0⟩ }] }

/-- An image of zeros. -/
def im : Image := ⟨[], [], 0, 0⟩

/-- The thread runs in visitor context 3, and another record waits. -/
def visiting (q : List Transit) : Mach :=
  (landed.updThread 0 0 (fun t => { t with stat := .transit })).updDie 0 (fun d =>
    { d with vq := q, visitors := [(3, ⟨0, 0, im, 0x11000, 0⟩)] })

/-- Whose accesses those of visitor context 3 are. -/
def who3 : Who := { who0 with l1 := false, hart := some 11 }

/-- A transit record of the thread. -/
def tr : Transit := ⟨0, 0, im, 0x14000, none⟩

theorem wit_TransitImage : (mw []).group? 0 = some gw ∧ (mw []).ctxOf 0 = some { cid := 0, part := 0 } ∧ cidOf (mw []) 0 = 0 ∧
    (tw []).gen < 2 ^ 16 ∧ (tw []).slot < 2 ^ 11 ∧ (mw []).dieOf 0 < 4 ∧ gw.width < 2 ^ 32 ∧ ((mw []).recOf 0).regs < 2 ^ 16 := by decide

/-- A hart that holds its die's translations too. -/
def tlbs (h : Nat) (m : Mach) : Mach := updHart m 0 h (fun x => { x with tlb := (m.die 0).tlb })

theorem wit_Migration : landed.thread? 0 0 = some { tw [] with stat := .ready, pos := ⟨0x11000, 0⟩ } ∧ groupRuns landed 0 = true ∧
    awaited landed (tw []) = [] ∧ (∀ n, n < 12 → flagCount landed (tw []) n = 0) ∧
    isOk (translate landed who0 .fetch 0x11000) = true ∧ isaTag landed who0 0x11000 = some 0 ∧ gw.caller.map Prod.snd ≠ some 0x11000 ∧
    chunkEmpty landed 0 = true ∧ chunkEmpty (landed.updCore 0 (fun k => { k with openC := { rd := [(0, 32)] } })) 0 = false ∧
    relReady landed (tw []) 2 = true ∧ relReady landed { tw [] with prs := 1 } 2 = false ∧
    ((visiting [tr]).die 0).vq = [tr] ∧ lget ((visiting [tr]).die 0).visitors 4 = none ∧ ((visiting [tr]).die 0).held = false ∧
    lget ((visiting [tr]).die 0).visitors 3 = some ⟨0, 0, im, 0x11000, 0⟩ ∧ ((visiting [tr]).thread? 0 0).isSome = true ∧
    0 + 50000 ≤ ({ visiting [tr] with time := 50000 } : Mach).time ∧ hartLives (visiting []) 0 11 = true ∧
    isOk (translate (tlbs 11 (visiting [])) who3 .fetch 0x14000) = true ∧ isaTag (tlbs 11 (visiting [])) who3 0x14000 = some 1 ∧ 0x14004 % 8 ≠ 0 ∧
    isaTag (tlbs 11 (visiting [])) who3 0x11000 = some 0 ∧ isOk (translate (tlbs 11 (visiting [])) who3 .fetch 0) = false ∧
    relReady (visiting []) (tw []) 2 = true ∧ relReady (visiting []) { tw [] with prs := 1 } 2 = false ∧
    ((landed.updDie 0 (fun d => { d with homing := [tr] })).die 0).homing.find? (fun x => x.gid == 0 && x.tix == 0) = some tr ∧
    gw.stat ≠ .saved ∧ tr.park = none := by decide

theorem wit_Migration_exception :
    (match deliverPlan (visiting []) (tw []) (visRaise 0x11000 (.illegal 0)) who3 true with | .ok (.inr _) => true | _ => false) = true ∧
    (match deliverPlan (tlbs 11 (hand (fr0 1) [])) ht { eff := 100 } who3 true with
      | .ok (.inl p) => (fxProbe p.x.m p.x.who p.wrs).isNone && (hartStores p.x.who (0, 0) p.x.m p.wrs).isSome
      | _ => false) = true ∧
    (match deliverPlan (tlbs 11 loopM) ht { eff := 1 } who3 true, deliverPlan (tlbs 11 loopM) ht { eff := 10 } who3 true with
      | .error (.eff _ _ _ _), .error (.eff _ _ _ _) => true
      | _, _ => false) = true ∧
    (match deliverPlan (mw []) { tw [] with hsp := 0x20000 } (visRaise 0 (.illegal 0)) who3 true with
      | .error (.mem (.fault _ _) _ _ _) => true
      | _ => false) = true ∧
    (VisExc.linkLost 0 2 = .linkLost 0 2 ∧ (tw []).lost = false ∧ ({ tw [] with lost := true } : Thread).lost = true) := by decide +kernel

/-- An access of hart 2. -/
def ha (op : HartOp) (va : Nat) : HartAcc :=
  { die := 0, hart := 2, satp := BitVec.ofNat 64 (14 * 2 ^ 60), world := false, umode := true, op := op, va := va, n := 4, val := 0, aq := false, rl := false }

/-- A core's open chunk has touched page 0x10000. -/
def touched : Mach := mc [] (fun k => { k with openC := { pages := [(0, 16)] } })

theorem wit_HeadlandAccesses : (∀ x ∈ (mw []).repls, x.gid ≠ hartGid 0 2) ∧ touched.cores.map Prod.fst = [0] ∧
    ((touched.core 0).openC.pages.any (fun p => fenceHits none none p.1 (p.2 * 4096))) = true ∧ (partDies touched 0).contains 0 = true ∧
    hartLives (mw []) 0 2 = true ∧ accLives (mw []) (ha .load 0) = true ∧ accLives {} (ha .load 0) = false ∧
    hartOwner (mw []) 0 2 = (hartGid 0 2, 0) ∧ hartPending (mw []) (hartGid 0 2, 0) = false ∧
    hartPending { mw [] with hostWrs := [⟨9, hartGid 0 2, 0, 0, []⟩] } (hartGid 0 2, 0) = true ∧ 0x11002 % 4 ≠ 0 ∧
    isOk (hartRead (tlbs 2 (mw [])) (accWho (mw []) (ha .load 0)) .load true 0x11000 4) = true ∧
    isOk (hartRead (tlbs 2 (mw [])) (accWho (mw []) (ha .load 0)) .load true 0x10000 4) = true ∧
    isOk (hartRead (tlbs 2 (mw [])) (accWho (mw []) (ha .load 0)) .load true 0 4) = false ∧
    isOk (hartRead (tlbs 2 (mw [])) (accWho (mw []) (ha .load 0)) .atomic false 0x11000 4) = true ∧
    isOk (translate (tlbs 2 (mw [])) (accWho (mw []) (ha .store 0)) .store 0x11000) = true ∧
    isOk (reachable (mw []) .store 0 0x11000 4) = true ∧ isOk (reachable (mw []) .store 0 (2 ^ 48) 4) = false ∧
    (hartWrite (mw []) (accWho (mw []) (ha .store 0)) (hartGid 0 2, 0) ⟨0x11000, 1, 32, false, 0, 4096⟩ [0]).isSome = true ∧
    (hartOf (mw []) 0 2).resv = none ∧ (hartOf (updHart (mw []) 0 2 (fun h => { h with resv := some (0x11000, 4, 0) })) 0 2).resv =
      some (0x11000, 4, 0) ∧
    accLives (visiting []) { ha .load 0 with hart := 11 } = true ∧ (reachable (visiting []) .load 0 (2 ^ 48) 4).isOk = false := by decide

/-- The queue of widened calls, and hart 2 with calls. -/
def calling (calls : List WCall) (n : Nat) : Mach :=
  { updHart landed 0 2 (fun h => { h with busy := true, calls := calls }) with
    queues := [{ qid := 5, part := 0, num := 1023, cid := 0, cap := n }] }

/-- A call of the context's from the tagged page. -/
def call (kid : Option Nat) : WCall := { cid := 0, kid := kid, pc := 0x14000, img := im }

theorem wit_HeadlandAccesses_wide : ((calling [] 1).queues.find? (fun q => q.cid == 0 && q.num == 1023)).map (fun q => (q.cap, q.kids.length)) = some (1, 0) ∧
    ((calling [] 0).queues.find? (fun q => q.cid == 0 && q.num == 1023)).map (fun q => (q.cap, q.kids.length)) = some (0, 0) ∧
    (hartOf (calling [] 1) 0 2).busy = true ∧ (hartOf (calling [] 1) 0 2).calls = [] ∧ hartLives (calling [] 1) 0 2 = true ∧
    (∀ k ∈ [none, some 0], (hartOf (calling [call k] 1) 0 2).calls.find? (fun w => w.cid == 0 && w.pc == 0x14000 && w.img == im) = some (call k)) ∧
    call none ∈ (hartOf (calling [call none] 1) 0 2).calls ∧ (call none).cur = true ∧
    (∀ c ∈ (hartOf (calling [call none] 1) 0 2).calls, c.cur = true → c = call none) ∧
    (hartOf landed 0 2).busy = false ∧ landed.ctx? 0 = some { cid := 0, part := 0 } ∧ 0x14000 % 8 = 0 ∧ 0x14004 % 8 ≠ 0 ∧
    isOk (translate (tlbs 2 landed) { who0 with l1 := false, hart := some 2 } .fetch 0x14000) = true ∧
    isOk (translate (tlbs 2 landed) { who0 with l1 := false, hart := some 2 } .fetch 0) = false ∧
    isaTag (tlbs 2 landed) { who0 with l1 := false, hart := some 2 } 0x14000 = some 1 ∧ isaTag (tlbs 2 landed) { who0 with l1 := false, hart := some 2 } 0x11000 = some 0 ∧
    ({ kw with stat := .ended, status := 1 } : Kernel).final = 1 ∧ ({ kw with stat := .ended, status := 5 } : Kernel).final ≠ 1 ∧
    (mw []).groups.find? (fun g => g.kid == 0) = some gw := by decide

/-- The package number is set; an admission and a binding stand. -/
def bound : Part := { pt with admits := [⟨0, 5, 1, 0, 4096, 3⟩], binds := [⟨0, 0, 5, 1⟩] }

theorem wit_QueueCommands : (∀ c ∈ [6, 7, 8, 9, 10, 11, 12, 13], headIs (ring (mw []) c [65537]) c [65537, 0, 0, 0, 0, 0] = true) ∧
    headIs (ring (mw []) 6 [1, 1]) 6 [1, 1, 0, 0, 0, 0] = true ∧ (newQueue (mw []) pt 1 1 1 none).isSome = true ∧
    (newQueue (mw []) pt 1 4096 0 none).isSome = true ∧ (newQueue (mw []) pt 1 4097 0 none).isNone = true ∧
    (queueNum (mw []) pt 65537 false).map (fun q => q.stat) = some .active ∧ queueNum (mw []) pt 65536 false = none ∧
    ownRange pt 64 64 = true ∧ ownRange pt (72 * 2 ^ 30) 64 = false ∧ lowestFree 0 64 (bound.admits.map (fun a => a.num)) = some 1 ∧
    (ctxNum (mw []) pt 1).isSome = true ∧ bound.binds.find? (fun b => b.cid == 0 && b.pkg == 5 && b.ctx == 1) = some ⟨0, 0, 5, 1⟩ ∧
    (bound.binds.filter (fun b => b.cid == 0)).length < 64 ∧
    ({ mw [] with queues := [{ qid := 0, part := 0, num := 1, cid := 0, holdTill := some 0 }] } : Mach).queue? 0 =
      some { qid := 0, part := 0, num := 1, cid := 0, holdTill := some 0 } ∧ (mw []).kernel? 0 = some kw ∧
    ([0] : List Nat).head?.bind (mw []).kernel? = some kw := by decide +kernel

/-- A request of opcode `op` with a body. -/
def msgOf (op sid : Nat) (body : List Byte) : TMsg :=
  ⟨0, Config.vendorId, [1, 0, BitVec.ofNat 8 op, 0] ++ natBytes 2 sid ++ [0, 0] ++ natBytes 4 body.length ++ natBytes 4 0 ++ body⟩

/-- The partition with its link up, one session, and quarantined lines. -/
def pl : Part := { pt with link := .up, sessions := [⟨7, 0⟩], quarantine := [⟨0, 2 ^ 48, true⟩] }

/-- The machine with it, the context and queue of the session. -/
def linked : Mach :=
  { mw [] with
    parts := [pl], ctxs := [{ cid := 0, part := 0, session := some 7 }]
    queues := [{ qid := 0, part := 0, num := 1, cid := 0, session := some 7 }] }

theorem asks (op : Nat) (hop : op < 16) (sid : Nat) (hs : sid < 2 ^ 16) (body : List Byte) (hb : body.length ≤ 1008) :
    Asks linked pl (msgOf op sid body) op sid body := by
  refine ⟨rfl, ?_, ?_, rfl, rfl, ?_, ?_, rfl, rfl, rfl, rfl, rfl⟩
  · simp [msgOf, natBytes]
  · simp [msgOf, natBytes]; omega
  · show bytesNat [BitVec.ofNat 8 op] = op
    simp [bytesNat]; omega
  · show bytesNat (natBytes 2 sid) = sid
    simp [bytesNat, natBytes]; omega

theorem wit_TretharRequests : Asks linked pl (msgOf 2 7 []) 2 7 [] ∧ Asks linked pl (msgOf 1 0 (List.replicate 8 0)) 1 0 (List.replicate 8 0) ∧
    LengthFits (msgOf 6 7 []) [] ∧ Served linked pl (msgOf 6 7 []) 6 7 [] :=
  ⟨asks 2 (by decide) 7 (by decide) [] (by decide), asks 1 (by decide) 0 (by decide) _ (by decide), ⟨rfl, rfl⟩,
    ⟨asks 6 (by decide) 7 (by decide) [] (by decide), ⟨rfl, rfl⟩, ⟨⟨7, 0⟩, List.mem_singleton.2 rfl, rfl⟩, by decide⟩⟩

theorem wit_TretharRequests_served (op : Nat) (hop : op < 16) (body : List Byte) (h4 : body.length % 4 = 0) (hb : body.length ≤ 1008) :
    Served linked pl (msgOf op 7 body) op 7 body := by
  have e : fieldAt (msgOf op 7 body).payload 8 4 = body.length := by
    show bytesNat (natBytes 4 body.length) = body.length
    simp [bytesNat, natBytes]; omega
  exact ⟨asks op hop 7 (by decide) body hb, ⟨e ▸ h4, e⟩, ⟨⟨7, 0⟩, List.mem_singleton.2 rfl, rfl⟩, by decide⟩

theorem wit_TretharRequests_rest : (∀ x ∈ pl.sessions, x.sid ≠ 8) ∧ unanswered linked pl 7 < 64 ∧
    64 ≤ unanswered linked { pl with replies := List.replicate 64 (1, List.replicate 4 0 ++ [7, 0]) } 7 ∧
    (newContext linked pl 0x100000 desc (some 7)).isSome = true ∧ (ctxNum linked pl 1).map (fun x => x.session) = some (some 7) ∧
    (newQueue linked pl 1 1 0 (some 7)).isSome = true ∧ (newQueue linked pl 1 0 0 (some 7)).isNone = true ∧
    (queueNum linked pl 65537 false).map (fun q => q.session) = some (some 7) ∧ pl.sessions.find? (fun x => x.sid == 7) = some ⟨7, 0⟩ ∧
    lowestFree 1 65535 [7] = some 1 ∧ (pl.quarantine.filter (fun q => decide (0 ≤ q.idx) && decide (q.idx < 0 + 1))).length = 1 ∧
    (∃ q ∈ pl.quarantine, q.idx = 0 ∧ q.replay = true) ∧ linked.part? 0 = some pl := by decide +kernel

theorem wit_LinkEvents : (mw []).part? 0 = some pt ∧ pt.live = true ∧ pt.link = .down ∧ 1 / 2 ∈ pt.dies ∧ ownRange pt 0 84934656 = true ∧
    (List.replicate 512 (0 : Byte)).length = 512 ∧ linked.part? 0 = some pl ∧ pl.link = .up ∧ homeOf (2 ^ 48) = .host ∧ homeOf (2 ^ 48 + 64) = .host ∧
    lineAt pl.lines (2 ^ 48) = none ∧ lineAt [lineW (2 ^ 48) 1] (2 ^ 48) = some (lineW (2 ^ 48) 1) ∧ ((mw []).partOf (1 / 2)).isSome = true ∧
    1 ∉ (mw []).xfailed ∧ pt.linkPort ≠ some 1 ∧ ((mw []).ctxs.find? (fun x => x.part == 0 && x.stat != .gone)).isSome = true ∧
    homeDie 0 = some 0 ∧ (∃ a ∈ bound.admits, a.first ≤ 5 ∧ 5 < a.first + a.count ∧ a.base ≤ 0 ∧ 0 + 8 ≤ a.base + a.len ∧ a.rights % 2 = 1 ∧ a.rights / 2 = 1) ∧
    isOk (reachable (mw []) .load 0 0 8) = true ∧ poisoned (mw []) 0 8 = none ∧ fabricUp { mw [] with pkgSet := true } 0 = true ∧
    fabricUp (mw []) 0 = false := by decide +kernel

/-- A partition that drains, and one being scrubbed. -/
def leaving (st : PStat) : Mach := { mw [] with parts := [{ pt with stat := st }], kernels := [{ kw with stat := .ended }] }

theorem wit_ZynrakRequests : tableOk [(0, [0, 1]), (2, [2])] = true ∧ tableOk [(0, [0, 3])] = false ∧ (mw []).zyn.recovery = none ∧
    (∀ e ∈ [((3, 2 ^ 63 + 1) : Nat × Nat)], e.1 < 16 ∧ e.2 < 2 ^ 64) ∧ (([((3, 2 ^ 63 + 1) : Nat × Nat)].filter (fun e => e.1 == 3)).length ≤ 1) ∧
    regionsOk [(3, 2 ^ 63 + 1)] = true ∧ regionsOk [(3, 2 ^ 63)] = false ∧ (({} : Mach).die 3).held = true ∧ tableOk [] = true ∧
    (leaving .draining).part? 0 = some { pt with stat := .draining } ∧ (leaving .scrubbing).part? 0 = some { pt with stat := .scrubbing } ∧
    (∀ k ∈ (leaving .draining).kernels, k.stat = .ended) ∧ pt.live = true := by decide

/-- A piece of an image of 4 bytes, the last. -/
def piece : List Byte := (msgOf 8 0 (natBytes 4 (2 ^ 31) ++ natBytes 4 4 ++ [1, 2, 3, 4])).payload

theorem wit_ZynrakRequests_recovery : 16 ≤ piece.length ∧ piece.length ≤ 1024 ∧ fieldAt piece 0 1 = 1 ∧ fieldAt piece 1 1 = 0 ∧ fieldAt piece 2 1 = 8 ∧
    fieldAt piece 8 4 = 12 ∧ 2 ^ 31 ≤ fieldAt (piece.drop 16) 0 4 ∧ fieldAt (piece.drop 16) 4 4 = 4 ∧ (piece.drop 16).length = 8 + 4 ∧ fieldAt piece 4 2 = 0 ∧
    (specPut [] 0 [1, 2, 3, (4 : Byte)]).countP (fun c => decide (c.1 < 4)) = 4 := by decide +kernel

theorem wit_Reliability : 1200 ≤ 2000 ∧ ((mw []).die 0).fatal = false ∧ ((mw []).die 0).standby = false ∧
    ((measure ((mw []).updDie 0 (fun x => { x with held := true, fatal := true })) 3 0).partOf 0).isSome = true ∧ 12 ∉ ((mw []).die 0).failed ∧
    (tw []).stat ≠ .exited ∧ (mw []).running.find? (fun r => r.gid == 0 && r.tixs.contains 0) = some rw0 ∧ onCoreNow (mw []) 0 = true ∧
    onCoreNow (mw []) 1 = false ∧ padIn (mw []) 0 4095 1 = true ∧ (lget ((tiled (cmd (.chol 1))).core 0).tiles 0).map (fun t => t.gid) = some 0 ∧
    lget ((mc [] (fun k => { k with wown := [(3, 0)] })).core 0).wown (192 / 64) = some 0 ∧
    sectorSpec ((mc [] (fun k => { k with openC := { cells := [(64, 1)] } })).core 0) 64 = true ∧ sectorSpec ((mw []).core 0) 64 = false ∧
    lineAt ((mc [] (fun k => { k with lines := [lineW 0 1] })).core 0).lines 0 = some (lineW 0 1) ∧
    (((mw []).updPart 0 (fun p => { p with lines := [lineW 0 1] })).parts.find? (fun p => (lineAt p.lines 0).isSome)).isSome = true ∧
    (((mw []).updDie 0 (fun d => { d with droop := some (0, false) })).die 0).droop = some (0, false) ∧
    sectorDirty (lineW 0 1) 0 = true ∧ sectorDirty (lineW 0 1).asClean 0 = false ∧ (∀ p ∈ (mw []).parts, lineAt p.lines 0 = none) ∧
    deviceMem 0 = true ∧ 0 / 32 ∉ (mw []).poison := by decide

/-! Values: the spec's own worked examples. -/

/-- The machine whose group has these format slots. -/
def withSlots (w : Regs) (sl : List Word) : State := ⟨[], { mw w with kernels := [{ kw with rc := { kw.rc with slots := sl } }] }⟩

/-- The accrued flags of the thread after a word. -/
def flagsOf (o : Host.Outcome State Fault Refusal) : Option Word :=
  match o with
  | .next s => (s.m.thread? 0 0).map (fun t => t.fstat)
  | _ => none

/-- Result and flags. -/
def resF (i : Instr) (w : Regs) (n : Nat) : Option Word × Option Word := (reg (exec i (sw w)) n, flagsOf (exec i (sw w)))

/-- The check value below R113: the first of four words. -/
theorem test_rand_first : reg (exec (.rand g0 8) (sw [])) 8 = some 0x6627E8D5 := by decide +kernel

/-- The check value below R113: the fourth. -/
theorem test_rand_fourth : reg (exec (.rand g0 8) ⟨[], (mw []).updThread 0 0 (fun t => { t with rngc := 3 })⟩) 8 = some 0x9B00DBD8 := by
  decide +kernel

/-- The pack of Table 5-8: threads 0 to 7 with v(i) = 10·i in w4, all but 6 in it, 5 predicated off; p3 says v ≥ 30. -/
def pack58 : State := ⟨[], { mw [] with
  threads := (List.range 8).map (fun i => { tw [(4, BitVec.ofNat 32 (10 * i)), (9, 255)] with
    tix := i, pr := (if i = 5 then 0 else 2) ||| (if 3 ≤ i then 8 else 0) })
  running := [{ rw0 with tixs := [0, 1, 2, 3, 4, 5, 7], act := [0, 1, 2, 3, 4, 5, 7] }] }⟩

/-- Register 8 of lanes 0 to 5 and 7. -/
def lanes58 (i : Instr) : List (Option Word) :=
  match exec i pack58 with
  | .next s => [0, 1, 2, 3, 4, 5, 7].map (fun n => (s.m.thread? 0 n).map (fun t => t.rd 8))
  | _ => []

theorem test_lsync : lanes58 (.lsync ⟨false, 1⟩ 8 9) = [some 0x9F, some 0x9F, some 0x9F, some 0x9F, some 0x9F, some 0, some 0x9F] := by
  decide +kernel

theorem test_redux : lanes58 (.redux ⟨false, 1⟩ .add 8 4 9) = [some 170, some 170, some 170, some 170, some 170, some 0, some 170] := by
  decide +kernel

theorem test_shfl_fall : lanes58 (.shfl ⟨false, 1⟩ .fall 8 4 (.imm 1) 9) =
    [some 10, some 20, some 30, some 40, some 40, some 0, some 70] := by decide +kernel

theorem test_vote_mask : lanes58 (.vote ⟨false, 1⟩ .mask false 8 3 9) =
    [some 0x98, some 0x98, some 0x98, some 0x98, some 0x98, some 0, some 0x98] := by decide +kernel

theorem test_elect : (match exec (.elect ⟨false, 1⟩ 2 9) pack58 with
    | .next s => [0, 1, 2, 3, 4, 5, 7].map (fun n => (s.m.thread? 0 n).map (fun t => t.rdP 2))
    | _ => []) = [some true, some false, some false, some false, some false, some false, some false] := by decide +kernel

/-- Below R104. -/
theorem test_bfx : reg (exec (.bfxu ⟨g0, false, .w 8, .w 4, .imm 8, .imm 8⟩) (sw [(4, 0xF0A0)])) 8 = some 0xF0 ∧
    reg (exec (.bfx ⟨g0, false, .w 8, .w 4, .imm 8, .imm 8⟩) (sw [(4, 0xF0A0)])) 8 = some 0xFFFFFFF0 := by decide +kernel

/-- Table 6-7, in its order. -/
theorem test_fcvt : resF (.fcvt g0 .ne .bf16 .fp32 8 4) [(4, 0x3F818000)] 8 = (some 0x3F82, some 1) := by decide +kernel

theorem test_icvt : resF (.icvt g0 false .fp16 8 4) [(4, 100000)] 8 = (some 0x7C00, some 5) := by decide +kernel

theorem test_fcvti : resF (.fcvti g0 .ne false .fp32 8 4) [(4, 0xC0200000)] 8 = (some 0xFFFFFFFE, some 1) ∧
    resF (.fcvti g0 .rm false .fp32 8 4) [(4, 0xC0200000)] 8 = (some 0xFFFFFFFD, some 1) := by decide +kernel

theorem test_fcvti_uns : resF (.fcvti g0 .ne true .fp32 8 4) [(4, 0xBF800000)] 8 = (some 0, some 16) ∧
    resF (.fcvti g0 .ne true .fp32 8 4) [(4, 0xBE99999A)] 8 = (some 0, some 1) := by decide +kernel

theorem test_ncvt : reg (exec (.ncvt ⟨g0, 8, 4, 5, 0, 1⟩) (withSlots [(4, 0x45680000), (5, 0x3E000000), (8, 0x11111111)] [0x10])) 8 = some 0x11117E11 ∧
    flagsOf (exec (.ncvt ⟨g0, 8, 4, 5, 0, 1⟩) (withSlots [(4, 0x45680000), (5, 0x3E000000), (8, 0x11111111)] [0x10])) = some 1 := by decide +kernel

theorem test_nunp : reg (exec (.nunp ⟨g0, 8, 4, 5, 0, 2⟩) (withSlots [(4, 0x7F30C03C), (5, 0x40000000)] [0x10])) 8 = some 0x3F800000 ∧
    flagsOf (exec (.nunp ⟨g0, 8, 4, 5, 0, 2⟩) (withSlots [(4, 0x7F30C03C), (5, 0x40000000)] [0x10])) = some 0 := by decide +kernel

/-- Below R130. -/
theorem test_hadd2 : resF (.hadd2 ⟨g0, true, 8, 4, 5⟩) [(4, 0x3F803F80), (5, 0x3B800000)] 8 = (some 0x3F803F80, some 1) := by decide +kernel

/-- Below R135. -/
theorem test_dot4 : reg (exec (.dot4 ⟨g0, 20, 6, 7, 20, 0, 1⟩) (withSlots [(6, 0x7F30C03C), (7, 0xFC0302), (20, 0x41200000), (21, 0x3E800000)]
    [0x10, 0x12])) 20 = some 0x410C0000 := by decide +kernel

/-- FP32 of a number below 64. -/
def smallF (n : Nat) : Word := BitVec.ofNat 32 (if n = 0 then 0 else (127 + n.log2) * 2 ^ 23 + (n - 2 ^ n.log2) * 2 ^ (23 - n.log2))

/-- The table below R139: x0 = 0, e = −2, flags 0; c0 = s, c1 = 4, c2 = c3 = 0. -/
def table139 : List Byte :=
  natBytes 4 0 ++ natBytes 4 (2 ^ 32 - 2) ++ List.replicate 24 0 ++
    (List.range 64).flatMap (fun i => natBytes 4 (smallF i).toNat ++ natBytes 4 0x40800000 ++ natBytes 8 0)

theorem test_feval : [0x3FB00000, 0x41A00000, 0xBF800000].map (fun x => fevalF (table139, true) x |>.1) =
    [0x40B00000, 0x42A00000, 0xC0800000] := by decide +kernel

/-- Below Table 17-9: core 17 on die 1 of package 5. -/
theorem test_descriptor : descOk 0 0x5512 = true ∧ (daddTarget (mw []) 0 (cmd (.dadd 0x5512 0)) 0x5512).target = 1 * 64 + 17 ∧
    (daddTarget (mw []) 0 (cmd (.dadd 0x5512 0)) 0x5512).pkg = some 5 := by decide

/-! The checks of well-formedness: each refuses an ill-formed term. -/

/-- Every instruction is well formed. -/
def okAll (l : List Instr) : Bool := l.all Instr.wf

/-- None is. -/
def okNone (l : List Instr) : Bool := l.all (fun i => !i.wf)

theorem wf_guard : okAll [.nop ⟨true, 7⟩] = true ∧ okNone [.nop ⟨false, 8⟩, .nop ⟨true, 0⟩] = true := by decide

theorem wf_r3 : okAll [.add ⟨g0, true, false, .k 63, .k 63, .imm 255⟩, .add ⟨g0, false, true, .w 254, .w 4, .imm 1⟩] = true ∧
    okNone [.add ⟨g0, false, false, .k 1, .w 0, .w 0⟩, .add ⟨g0, false, false, .w 256, .w 0, .w 0⟩, .add ⟨g0, true, false, .k 64, .w 0, .w 0⟩,
      .add ⟨g0, false, false, .imm 0, .w 0, .w 0⟩, .add ⟨g0, false, false, .w 0, .k 64, .w 0⟩, .add ⟨g0, false, false, .w 0, .imm 0, .w 0⟩,
      .add ⟨g0, false, false, .w 0, .w 0, .imm 256⟩, .mulh ⟨g0, false, false, .w 0, .w 0, .imm 1⟩, .mul ⟨g0, false, true, .w 0, .w 0, .w 0⟩,
      .add ⟨g0, false, true, .w 1, .w 0, .w 0⟩, .add ⟨g0, false, true, .w 0, .w 1, .w 0⟩, .add ⟨g0, false, true, .w 0, .w 0, .w 1⟩,
      .add ⟨g0, true, true, .k 0, .w 0, .w 0⟩, .shladd 32 ⟨g0, false, false, .w 0, .w 0, .w 0⟩, .sel false 8 ⟨g0, false, false, .w 0, .w 0, .w 0⟩] = true := by
  decide

theorem wf_cmp_r2_r4 : okAll [.cmp .eq ⟨g0, false, false, 7, .w 0, .imm 3⟩, .mad ⟨g0, false, .ne, .w 0, .w 0, .w 0, 255⟩] = true ∧
    okNone [.cmp .eq ⟨g0, false, false, 8, .w 0, .w 0⟩, .cmp .eq ⟨g0, false, true, 0, .w 1, .w 0⟩, .cmp .eq ⟨g0, false, false, 0, .w 0, .imm 256⟩,
      .abs ⟨g0, false, true, .w 0, .w 0⟩, .mov ⟨g0, false, true, .w 1, .w 0⟩, .mov ⟨g0, false, false, .w 0, .imm 0⟩,
      .fadd ⟨g0, false, .ne, .w 0, .w 0, .imm 0⟩, .mad ⟨g0, false, .rz, .w 0, .w 0, .w 0, 0⟩, .ffma ⟨g0, false, .rz, .w 0, .w 0, .w 0, 256⟩] = true := by
  decide

theorem wf_plain : okNone [.bfx ⟨g0, false, .w 0, .w 0, .w 0, .k 0⟩, .bfi ⟨g0, false, .w 0, .w 0, .imm 256, .w 0⟩, .pand ⟨g0, false, false, 8, 0, 0⟩,
    .por ⟨g0, false, false, 0, 8, 0⟩, .pxor ⟨g0, false, false, 0, 0, 8⟩, .hadd2 ⟨g0, false, 256, 0, 0⟩, .hfma2 256 ⟨g0, false, 0, 0, 0⟩,
    .rcp ⟨g0, 0, 256⟩, .feval 4 ⟨g0, 0, 0⟩, .dot4 ⟨g0, 0, 0, 0, 1, 0, 0⟩, .dot8 ⟨g0, 0, 0, 0, 0, 8, 0⟩, .ncvt ⟨g0, 0, 0, 0, 8, 0⟩,
    .nunp ⟨g0, 0, 0, 0, 0, 8⟩, .fcvt g0 .ne .fp32 .fp32 0 0, .fcvt g0 .ne .fa48 .fp32 1 0, .icvt g0 false .fa48 1 0, .fcvti g0 .ne false .fa48 0 1,
    .ftld g0 4 0 0, .ftld g0 0 0 3] = true := by decide

theorem wf_special : okAll [.movi g0 0 0 (2 ^ 32 - 1), .smov g0 false (.w 4) 9, .swr g0 11 5] = true ∧
    okNone [.movi g0 0 0 (2 ^ 32), .movi g0 0 0 (-2 ^ 32 - 1), .movi g0 1 1 0, .movi g0 2 64 0, .movi g0 3 0 0, .movx g0 1 0, .movx g0 0 (2 ^ 64),
      .smov g0 false (.w 0) 22, .smov g0 false (.w 1) 9, .smov g0 true (.k 0) 9, .swr g0 0 0, .swr g0 13 1, .rand g0 256, .widf g0 false 6 (.w 0)] = true := by
  decide

theorem wf_cross : okAll [.vote g0 .mask false 255 0 0] = true ∧ okNone [.shfl g0 .fall 0 0 (.k 0) 0, .vote g0 .every false 8 0 0,
    .vote g0 .mask false 256 0 0, .vote g0 .every false 0 8 0, .redux g0 .add 256 0 0, .matchL g0 false 0 256 0, .elect g0 8 0, .lsync g0 0 256] = true := by
  decide

theorem wf_control : okAll [.bra g0 (2 ^ 32 - 1), .call g0 (-2 ^ 32)] = true ∧ okNone [.bra g0 (2 ^ 32), .call g0 (-2 ^ 32 - 1), .jmp g0 1, .callr g0 1 0,
    .callr g0 0 1, .ret g0 1, .rjarm g0 16 0, .rjwait g0 16, .brk g0 256, .svc g0 65536, .launch g0 1 0 0, .launch g0 0 1 0, .sleep g0 false 1] = true := by
  decide

theorem wf_memory : okAll [.ld ⟨g0, 4, 4, -65536, .quad, .core, false, false, false, 2⟩] = true ∧
    okNone [.ld ⟨g0, 2, 4, 0, .quad, .core, false, false, false, 0⟩, .ld ⟨g0, 1, 4, 0, .dword, .core, false, false, false, 0⟩,
      .ld ⟨g0, 0, 1, 0, .word, .core, false, false, false, 0⟩, .ld ⟨g0, 0, 0, 65536, .word, .core, false, false, false, 0⟩,
      .ld ⟨g0, 0, 0, 0, .word, .core, false, false, true, 0⟩, .ld ⟨g0, 0, 0, 0, .word, .core, false, false, false, 3⟩,
      .st ⟨g0, 1, 0, 0, .word, .core, false⟩, .lds ⟨g0, 0, 0, 0, .word, false, 1, 0⟩, .lds ⟨g0, 0, 0, 0, .word, false, 0, 1⟩,
      .ldx ⟨g0, 0, 0, 0, .word, false, 4, 0⟩, .sts ⟨g0, 0, 0, 0, .word, 1⟩, .stx ⟨g0, 0, 0, 0, .word, 4⟩, .acqr g0 256, .waita g0 true 0 1 0,
      .cpy g0 1 0 0, .tlwait g0 false 1, .tlread g0 .copy 1, .pref g0 .sys 0 0, .pref g0 .core 1 0, .chstat g0 .mark 1] = true := by decide

theorem wf_atomics : okAll [.atom ⟨g0, 0, 0, 4, 2047, .dword, .core, .cas, 0⟩] = true ∧
    okNone [.atom ⟨g0, 0, 0, 2, 0, .dword, .core, .cas, 0⟩, .atom ⟨g0, 0, 0, 1, 0, .word, .core, .cas, 0⟩, .atom ⟨g0, 0, 0, 1, 0, .dword, .core, .add, 0⟩,
      .atom ⟨g0, 0, 0, 0, 0, .half, .core, .add, 0⟩, .atom ⟨g0, 0, 0, 0, 0, .dword, .core, .addF32, 0⟩, .atom ⟨g0, 0, 0, 0, 2048, .word, .core, .add, 0⟩,
      .atom ⟨g0, 0, 1, 0, 0, .word, .core, .add, 0⟩, .atoms ⟨g0, 0, 0, 0, 0, .word, .cl, .add, 0⟩, .red ⟨g0, 0, 0, 0, .word, .core, .swap, false⟩,
      .red ⟨g0, 0, 0, 0, .word, .core, .cas, false⟩, .red ⟨g0, 1, 0, 0, .word, .core, .add, false⟩] = true := by decide

theorem wf_barriers_tiles : okAll [.bar ⟨g0, .lv 6, 3, 0⟩] = true ∧ okNone [.bar ⟨g0, .lv 7, 0, 0⟩, .bar ⟨g0, .grp, 4, 0⟩, .bar ⟨g0, .grp, 0, 1⟩,
    .barv ⟨g0, .grp, 0, 256⟩, .barst ⟨g0, .grp, 0, 1⟩, .tzero g0 4 false 0, .tzero g0 0 false 1, .tld ⟨g0, 4, 0, 0, 0, 0, 0⟩, .tst ⟨g0, 0, 1, 0, 0, 0, 0⟩,
    .tld ⟨g0, 0, 0, 0, 0, 8, 0⟩, .tst ⟨g0, 0, 0, 0, 0, 0, 3⟩, .tmma g0 1 0 0, .tdadd g0 4 0 0 0 0, .tdadd g0 0 4 0 0 0, .tdadd g0 0 0 0 1 0,
    .twait g0 4 0 0, .tcode g0 1 0 0, .tlu ⟨g0, 0, 0, 0, 0, 0, 1, 0⟩, .tlu ⟨g0, 0, 4, 0, 0, 0, 0, 0⟩, .tlu ⟨g0, 0, 0, 0, 0, 1, 0, 0⟩,
    .tchol ⟨g0, 0, 1, 0, 0, 0, 0, 0⟩, .pvap g0 0 4 false 0 0, .tstat g0 .fail 1 0, .tstat g0 .tile 0 1] = true := by decide

theorem wf_effects : okAll [.handle g0 1 0 0 8, .handle g0 11 0 0 8, .perform g0 false 0x40, .perform g0 false 65535] = true ∧
    okNone [.handle g0 0 0 0 8, .handle g0 12 0 0 8, .perform g0 false 0x3F, .perform g0 false 65536, .handle g0 1 1 0 8, .handle g0 1 0 65536 8,
      .handle g0 1 0 0 (2 ^ 64), .resume g0 256, .drop g0 256, .hstat g0 .depth 0 1, .hstat g0 .tok 256 0] = true := by decide

theorem wf_paired : okAll [.addPaired ⟨4, 6, 7, ⟨.fadd, 5, 6, 8⟩⟩, .movPaired ⟨4, 6, 0, ⟨.add, 5, 0, 1⟩⟩] = true ∧
    okNone [.addPaired ⟨4, 6, 7, ⟨.fadd, 6, 6, 8⟩⟩, .addPaired ⟨4, 6, 7, ⟨.fadd, 5, 8, 9⟩⟩, .hadd2Paired ⟨4, 6, 7, ⟨.hmul2, 5, 6, 7⟩⟩,
      .movPaired ⟨4, 6, 1, ⟨.add, 5, 6, 7⟩⟩, .addPaired ⟨256, 6, 7, ⟨.add, 5, 6, 7⟩⟩, .addPaired ⟨4, 6, 7, ⟨.mov, 5, 6, 1⟩⟩] = true := by decide

/-- Why the decoder rejects. -/
def whyNot {α : Type} (x : Except DecodeError α) : Option DecodeError :=
  match x with
  | .ok _ => none
  | .error e => some e

/-- Each rejection: an opcode without a row, a set bit that `nop` does not use, an odd pair of `sub.d`, predicate -p0, cut bytes. -/
theorem test_rejects : whyNot (decodeWord (2 ^ 62) 0) = some .unassigned ∧ whyNot (decodeWord 0x200 0) = some .unused ∧
    whyNot (decodeWord 0x00400A0810001000 0) = some .field ∧ whyNot (decodeWord (2 ^ 52) 0) = some .field ∧
    whyNot (decodeBytes [0, 0, 0]) = some .truncated := by decide

end Sys2Proof
end

section
/-!
PROOFS. The state right after reset.
-/

namespace Sys2Proof.Machine

/-- Settles O5: each part is what the fields of a fresh machine hold. -/
theorem resetState : Obligations.ResetState := by
  unfold Obligations.ResetState
  exact ⟨rfl, rfl, fun _ => ⟨rfl, rfl⟩, rfl, rfl, rfl, rfl, rfl, rfl, rfl, rfl, fun _ => rfl, rfl, rfl, fun _ => rfl⟩

end Sys2Proof.Machine
end

section
/-!
PROOFS. Headland accesses and widened calls (R18, R199, R253, R268, R365, R367, R368).
-/

namespace Sys2Proof.Machine

/-! `sfence.vma` (R199): what it empties, and what each of its parts leaves to the others. -/

theorem cluster_setCluster_ne (m : Mach) {k cl : Nat} (l : List Line) (h : k ≠ cl) : (m.setCluster cl l).cluster k = m.cluster k := by
  simp [Mach.setCluster, Mach.cluster, lget_lput_ne _ _ h]

theorem cluster_homePush (m : Mach) (l : Line) (k : Nat) : (homePush m l).cluster k = m.cluster k := by
  unfold homePush; split <;> rfl

theorem cluster_homePushes (l : List Line) (k : Nat) (m : Mach) : (l.foldl homePush m).cluster k = m.cluster k :=
  foldl_keeps (fun n => n.cluster k = m.cluster k) homePush (fun n x h => (cluster_homePush n x k).trans h) l m rfl

theorem cluster_clusterRoom_ne (m : Mach) {k cl : Nat} (pa : Nat) (h : k ≠ cl) : (clusterRoom m cl pa).cluster k = m.cluster k := by
  unfold clusterRoom
  split
  · exact (cluster_setCluster_ne _ _ h).trans (cluster_homePushes _ k m)
  · rfl

theorem cluster_clusterSector_ne (m : Mach) {k cl : Nat} (grain cls : Nat) (w : Bool) (b : Nat) (h : k ≠ cl) :
    (clusterSector m cl grain cls w b).cluster k = m.cluster k := by
  unfold clusterSector
  split
  · rfl
  · exact (cluster_setCluster_ne _ _ h).trans (cluster_clusterRoom_ne m b h)

theorem cluster_clusterLine_ne (m : Mach) {k cl : Nat} (pa grain cls : Nat) (w : Bool) (h : k ≠ cl) :
    (clusterLine m cl pa grain cls w).1.cluster k = m.cluster k :=
  foldl_keeps (fun n => n.cluster k = m.cluster k) _ (fun n b hn => (cluster_clusterSector_ne n grain cls w b h).trans hn) _ m rfl

theorem cluster_pushToCluster_ne (m : Mach) {k cl : Nat} (l : Line) (h : k ≠ cl) : (pushToCluster m cl l).cluster k = m.cluster k := by
  unfold pushToCluster
  split
  · rfl
  · exact (cluster_setCluster_ne _ _ h).trans (cluster_clusterLine_ne m l.pa l.grain l.cls l.world h)

theorem cluster_pushLine_ne (m : Mach) {k c : Nat} (far : Bool) (l : Line) (h : k ≠ clusterOf c) :
    (pushLine m c far l).cluster k = m.cluster k := by
  unfold pushLine
  dsimp only
  split
  · split
    · exact cluster_pushToCluster_ne m l h
    · exact (cluster_setCluster_ne _ _ h).trans ((cluster_homePush _ _ k).trans (cluster_pushToCluster_ne m l h))
  · exact cluster_pushToCluster_ne m l h

theorem cluster_fenceCore_ne (m : Mach) (va asid : Option Nat) {k c : Nat} (h : k ≠ clusterOf c) :
    (fenceCore m va asid c).cluster k = m.cluster k := by
  unfold fenceCore
  refine foldl_keeps (fun n => n.cluster k = m.cluster k) _ (fun n l hn => ?_) _ m rfl
  split
  · exact hn
  · exact (cluster_pushLine_ne n true l h).trans hn

theorem cluster_fenceCluster_self (m : Mach) (cl : Nat) : (fenceCluster m cl).cluster cl = [] := cluster_set _ _ _

theorem cluster_fenceCluster_ne (m : Mach) {k cl : Nat} (h : k ≠ cl) : (fenceCluster m cl).cluster k = m.cluster k :=
  (cluster_setCluster_ne _ _ h).trans (cluster_homePushes _ k m)

/-- What the fence does to one core: its own caches and its cluster's. -/
def fenceOne (va asid : Option Nat) (m : Mach) (c : Nat) : Mach := fenceCluster (fenceCore m va asid c) (clusterOf c)

/-- A core that the fence has passed: no matching line or clause, and an empty cluster cache. -/
def Fenced (va asid : Option Nat) (c : Nat) (m : Mach) : Prop := NoTag (fenceHits va asid) c m ∧ m.cluster (clusterOf c) = []

theorem fenceOne_own (va asid : Option Nat) (m : Mach) (c : Nat) : Fenced va asid c (fenceOne va asid m c) :=
  ⟨noTag_cores (fenceCluster_cores _ _) (fenceCore_own va asid m c), cluster_fenceCluster_self _ _⟩

theorem fenceOne_keeps (va asid : Option Nat) (m : Mach) (b c : Nat) (h : Fenced va asid c m) : Fenced va asid c (fenceOne va asid m b) := by
  obtain ⟨htag, hcl⟩ := h
  refine ⟨noTag_cores (fenceCluster_cores _ _) (fenceCore_keeps va asid m b c htag), ?_⟩
  by_cases hb : clusterOf c = clusterOf b
  · rw [hb]; exact cluster_fenceCluster_self _ _
  · exact (cluster_fenceCluster_ne _ hb).trans ((cluster_fenceCore_ne m va asid hb).trans hcl)

theorem fenceOne_each (va asid : Option Nat) (l : List Nat) (m : Mach) : ∀ c ∈ l, Fenced va asid c (l.foldl (fenceOne va asid) m) :=
  foldl_each (Fenced va asid) (fenceOne va asid) (fenceOne_own va asid) (fenceOne_keeps va asid) l m

/-- The cached translations that a fence leaves. -/
def cutTlb (va asid : Option Nat) (l : List Tlb) : List Tlb := l.filter (fun e => !fenceHits va asid e.asid e.va)

theorem cutTlb_misses {va asid : Option Nat} {l : List Tlb} : ∀ e ∈ cutTlb va asid l, fenceHits va asid e.asid e.va = false := by
  intro e he
  simpa using (List.mem_filter.1 he).2

theorem hartOf_updHart_self (m : Mach) (d h : Nat) (f : Hart → Hart) : hartOf (updHart m d h f) d h = f (hartOf m d h) := by
  simp [hartOf, updHart]

/-- A change of a hart leaves the translation caches of the dies. -/
theorem updHart_tlb (m : Mach) (d h : Nat) (f : Hart → Hart) (e : Nat) : ((updHart m d h f).die e).tlb = (m.die e).tlb := by
  unfold updHart
  by_cases he : e = d
  · subst he; rw [Mach.die_updDie_self]
  · rw [Mach.die_updDie_ne _ _ he]

theorem cutTlbs_each (va asid : Option Nat) (l : List Nat) (m : Mach) : ∀ d ∈ l,
    ∀ e ∈ ((l.foldl (fun m d => m.updDie d (fun x => { x with tlb := cutTlb va asid x.tlb })) m).die d).tlb, fenceHits va asid e.asid e.va = false := by
  refine foldl_each (fun d m => ∀ e ∈ (m.die d).tlb, fenceHits va asid e.asid e.va = false) _ (fun m d => ?_) (fun m b d h => ?_) l m
  · rw [Mach.die_updDie_self]; exact cutTlb_misses
  · by_cases hd : d = b
    · subst hd; rw [Mach.die_updDie_self]; exact cutTlb_misses
    · rw [Mach.die_updDie_ne _ _ hd]; exact h

theorem fenceTlbs_dies (m : Mach) (va asid : Option Nat) (dies : List Nat) (die hart : Nat) :
    ∀ d ∈ dies, ∀ e ∈ ((fenceTlbs m va asid dies die hart).die d).tlb, fenceHits va asid e.asid e.va = false := by
  intro d hd
  unfold fenceTlbs
  rw [updHart_tlb]
  exact cutTlbs_each va asid dies m d hd

theorem fenceTlbs_hart (m : Mach) (va asid : Option Nat) (dies : List Nat) (die hart : Nat) :
    ∀ e ∈ (hartOf (fenceTlbs m va asid dies die hart) die hart).tlb, fenceHits va asid e.asid e.va = false := by
  unfold fenceTlbs
  rw [hartOf_updHart_self]
  exact cutTlb_misses

theorem fenceTlbs_caches (m : Mach) (va asid : Option Nat) (dies : List Nat) (die hart : Nat) :
    (fenceTlbs m va asid dies die hart).cores = m.cores ∧ (fenceTlbs m va asid dies die hart).clusters = m.clusters := by
  unfold fenceTlbs
  refine foldl_keeps (fun n : Mach => n.cores = m.cores ∧ n.clusters = m.clusters) _ (fun _ _ h => ?_) dies m ⟨rfl, rfl⟩
  exact h

theorem fenced_fenceTlbs {m : Mach} {va asid : Option Nat} {c : Nat} (dies : List Nat) (die hart : Nat) (h : Fenced va asid c m) :
    Fenced va asid c (fenceTlbs m va asid dies die hart) := by
  obtain ⟨hco, hcl⟩ := fenceTlbs_caches m va asid dies die hart
  refine ⟨noTag_cores hco h.1, ?_⟩
  rw [← h.2, Mach.cluster, hcl, Mach.cluster]

/-- A tag matches where the ASID and the 2^39 bytes that hold the address do, `x0` matching any (R199, log 62). -/
theorem fenceHits_iff (va asid : Option Nat) (a v : Nat) : fenceHits va asid a v = true ↔
    (∀ n, asid = some n → n = a) ∧ ∀ n, va = some n → n % 2 ^ 48 / 2 ^ 39 = v % 2 ^ 48 / 2 ^ 39 := by
  unfold fenceHits
  cases asid <;> cases va <;> simp

/-- The cores of the partition of a die that the machine holds. -/
def fenceCores (m : Mach) (die : Nat) : List Nat := (m.cores.map Prod.fst).filter (fun c => (partDies m die).contains (c / 64))

/-- Those whose open chunk holds a page that a fence names. -/
def fenceBusy (m : Mach) (die : Nat) (va asid : Option Nat) : List Nat :=
  (fenceCores m die).filter (fun c => (m.core c).openC.pages.any (fun p => fenceHits va asid p.1 (p.2 * 4096)))

theorem exec_sfenceVma (die hart : Nat) (va asid : Option Nat) (s : State) :
    exec (.sfenceVma die hart va asid) s = execSfenceVma die hart va asid s := rfl

/-- A visitor context has no fence. -/
theorem sfenceVma_visitor {die hart : Nat} (va asid : Option Nat) (s : State) (h : 8 ≤ hart) : exec (.sfenceVma die hart va asid) s = .next s := by
  simp [exec_sfenceVma, execSfenceVma, State.onMach, h]

/-- A native hart's fence waits for the chunks that hold a page of it, or empties what it names. -/
theorem sfenceVma_native {die hart : Nat} (va asid : Option Nat) {s : State} (h : hart < 8) (hl : hartLives s.m die hart = true)
    (hr : ∀ x ∈ s.m.repls, x.gid ≠ hartGid die hart) : exec (.sfenceVma die hart va asid) s = .next ⟨s.agenda,
      if !(fenceBusy s.m die va asid).isEmpty then (fenceBusy s.m die va asid).foldl (fun m c => addDue m c 13) s.m
      else fenceTlbs ((fenceCores s.m die).foldl (fenceOne va asid) s.m) va asid (partDies s.m die) die hart⟩ := by
  have go : ¬ (8 ≤ hart ∨ (!hartLives s.m die hart) = true ∨ s.m.repls.any (fun x => x.gid == hartGid die hart) = true) := by
    simpa [hl, h] using hr
  rw [exec_sfenceVma, execSfenceVma, State.onMach, if_neg go]
  rfl

/-- The part of `HeadlandAccesses` on `sfence.vma` (R199). -/
theorem sfenceVma_effect (s : State) (die hart : Nat) (va asid : Option Nat) :
    (8 ≤ hart → exec (.sfenceVma die hart va asid) s = .next s) ∧
    (hart < 8 → hartLives s.m die hart = true → (∀ x ∈ s.m.repls, x.gid ≠ hartGid die hart) →
      (fenceBusy s.m die va asid ≠ [] → exec (.sfenceVma die hart va asid) s =
        .next ⟨s.agenda, (fenceBusy s.m die va asid).foldl (fun m c => addDue m c 13) s.m⟩) ∧
      (fenceBusy s.m die va asid = [] → ∃ m', exec (.sfenceVma die hart va asid) s = .next ⟨s.agenda, m'⟩ ∧
        (∀ c ∈ fenceCores s.m die, Fenced va asid c m') ∧
        (∀ d ∈ partDies s.m die, ∀ e ∈ (m'.die d).tlb, fenceHits va asid e.asid e.va = false) ∧
        ∀ e ∈ (hartOf m' die hart).tlb, fenceHits va asid e.asid e.va = false)) := by
  refine ⟨sfenceVma_visitor va asid s, fun h hl hr => ⟨fun hb => ?_, fun hb => ⟨_, ?_, ?_, fenceTlbs_dies _ va asid _ die hart,
    fenceTlbs_hart ((fenceCores s.m die).foldl (fenceOne va asid) s.m) va asid (partDies s.m die) die hart⟩⟩⟩
  · rw [sfenceVma_native va asid h hl hr, if_pos (by simpa using hb)]
  · rw [sfenceVma_native va asid h hl hr, if_neg (by simpa using hb)]
  · exact fun c hc => fenced_fenceTlbs _ die hart (fenceOne_each va asid _ s.m c hc)

/-! The CSRs of widened calls (Table 23-4). -/

theorem exec_wwidthWrite (die hart : Nat) (v : DWord) (s : State) : exec (.wwidthWrite die hart v) s = execWwidthWrite die hart v s := rfl

theorem exec_wstackWrite (die hart : Nat) (v : DWord) (s : State) : exec (.wstackWrite die hart v) s = execWstackWrite die hart v s := rfl

/-- `wwidth` holds at most 512 lanes, and `wstack` a multiple of 16 below 2^32 (Table 23-4). -/
theorem callCsrs_native {die hart : Nat} {s : State} (v : DWord) (h : hart < 8) (hl : hartLives s.m die hart = true) :
    exec (.wwidthWrite die hart v) s = .next ⟨s.agenda, updHart s.m die hart (fun h => { h with
      lanes := if 512 < v.toNat % 1024 then 512 else v.toNat % 1024, busy := v.getLsbD 63,
      calls := h.calls.map (fun w => { w with cur := false }) })⟩ ∧
    exec (.wstackWrite die hart v) s = .next ⟨s.agenda, updHart s.m die hart (fun h => { h with
      wstack := BitVec.ofNat 64 (v.toNat % 2 ^ 32 / 16 * 16) })⟩ := by
  have go : ¬ (8 ≤ hart ∨ (!hartLives s.m die hart) = true) := by simp [hl, h]
  have lanes : min 512 (v.toNat % 1024) = if 512 < v.toNat % 1024 then 512 else v.toNat % 1024 := by split <;> omega
  rw [exec_wwidthWrite, exec_wstackWrite, execWwidthWrite, execWstackWrite, State.onMach, State.onMach, if_neg go, if_neg go, lanes]
  exact ⟨rfl, rfl⟩

theorem callCsrs_visitor {die hart : Nat} {s : State} (v : DWord) (h : 8 ≤ hart) :
    exec (.wwidthWrite die hart v) s = .next s ∧ exec (.wstackWrite die hart v) s = .next s := by
  simp [exec_wwidthWrite, exec_wstackWrite, execWwidthWrite, execWstackWrite, State.onMach, h]

/-! The headland's accesses (R253, R268): what each shared operation does, by the outcome of its translation and of its
target. -/

/-- A failed access traps a native hart; on a visitor context LINK.LOST becomes an effect (R364, Table 23-3). -/
theorem hartFails_trap {a : HartAcc} {e : MemErr} (m : Mach) (w : Bool) (h : a.hart < 8 ∨ ∀ c, e ≠ .link c) :
    hartFails m a w e = hartGets m a (trapOf w a.va a.pc e) := by
  cases e with
  | fault k c => rfl
  | link c =>
    have hn : a.hart < 8 := h.resolve_right (fun h => h c rfl)
    simp only [hartFails, if_pos hn, hartTrap]

theorem hartFails_link {a : HartAcc} (m : Mach) (w : Bool) (c : Nat) (h : 8 ≤ a.hart) :
    hartFails m a w (.link c) = visRaises m a.die (a.hart - 8) a.img a.pc (.linkLost a.va c) :=
  if_neg (Nat.not_lt.2 h)

theorem hartSkew_native {a : HartAcc} (m : Mach) (w : Bool) (h : a.hart < 8) :
    hartSkew m a w = hartGets m a (.trap (if w then 6 else 4) a.va a.pc) := if_pos h

theorem hartSkew_visitor {a : HartAcc} (m : Mach) (w : Bool) (h : 8 ≤ a.hart) :
    hartSkew m a w = visRaises m a.die (a.hart - 8) a.img a.pc (.misalign a.va a.n) := if_neg (Nat.not_lt.2 h)

section
variable {m m1 : Mach} {a : HartAcc} {acc : Acc} {f : Mach → Xlat → Nat → Mach × HartRes × Option (List Byte)} {x : Xlat} {bs : List Byte}

theorem hartDo_fails {e : MemErr} (h : hartRead m (accWho m a) acc (!acc.writes) a.va a.n = .error e) :
    hartDo m a acc f = hartFails m a acc.writes e := by simp only [hartDo, h]

theorem hartDo_reads (h : hartRead m (accWho m a) acc (!acc.writes) a.va a.n = .ok (m1, bs, x))
    (hf : (f m1 x (bytesNat bs)).2.2 = none) :
    hartDo m a acc f = hartGets (f m1 x (bytesNat bs)).1 a (f m1 x (bytesNat bs)).2.1 := by simp only [hartDo, h, hf]

theorem hartDo_writes {w : List Byte} {m2 : Mach} (h : hartRead m (accWho m a) acc (!acc.writes) a.va a.n = .ok (m1, bs, x))
    (hf : (f m1 x (bytesNat bs)).2.2 = some w)
    (hw : hartWrite (f m1 x (bytesNat bs)).1 (accWho m a) (accOwner m a) x w = some m2) :
    hartDo m a acc f = hartGets m2 a (f m1 x (bytesNat bs)).2.1 := by simp only [hartDo, h, hf, hw]
end

section
variable {m m1 : Mach} {a : HartAcc} {x : Xlat}

theorem hartPut_untranslated {e : MemErr} (f : Mach → Mach) (h : translate m (accWho m a) .store a.va = .error e) :
    hartPut m a f = hartFails m a true e := by simp only [hartPut, h]

theorem hartPut_unreachable {e : MemErr} (f : Mach → Mach) (h : translate m (accWho m a) .store a.va = .ok (m1, x))
    (hr : reachable m1 .store (accWho m a).die x.pa a.n = .error e) : hartPut m a f = hartFails m a true e := by
  simp only [hartPut, h, hr]

theorem hartPut_written {m2 : Mach} (f : Mach → Mach) (h : translate m (accWho m a) .store a.va = .ok (m1, x))
    (hr : reachable m1 .store (accWho m a).die x.pa a.n = .ok ())
    (hw : hartWrite (f m1) (accWho m a) (accOwner m a) x (natBytes a.n a.val) = some m2) :
    hartPut m a f = hartGets m2 a (.val 0) := by simp only [hartPut, h, hr, hw]

/-- Whether a hart's reservation covers an access (R253). -/
theorem resvHolds_iff (m : Mach) (a : HartAcc) (x : Xlat) : resvHolds m a x = true ↔
    ∃ r, (hartOf m a.die a.hart).resv = some r ∧ r.1 ≤ x.pa ∧ x.pa + a.n ≤ r.1 + r.2.1 := by
  unfold resvHolds
  cases (hartOf m a.die a.hart).resv <;> simp

/-- A hart without its reservation. -/
def dropResv (a : HartAcc) (m : Mach) : Mach := updHart m a.die a.hart (fun h => { h with resv := none })

/-- LR reserves the bytes that it reads, or on a chunked page their grain (R253). -/
theorem takeResv_eq (m : Mach) (a : HartAcc) (x : Xlat) : ∃ r : Nat × Nat × Nat,
    (x.cls ≠ 0 → r.1 = x.pa ∧ r.2.1 = a.n) ∧ (x.cls = 0 → r.1 = x.pa / x.grain * x.grain ∧ r.2.1 = x.grain) ∧
    takeResv m a x = updHart m a.die a.hart (fun h => { h with resv := some r }) := by
  refine ⟨_, ?plain, ?chunked, rfl⟩
  case plain => intro hc; rw [if_neg hc]; exact ⟨rfl, rfl⟩
  case chunked => intro hc; rw [if_pos hc]; exact ⟨rfl, rfl⟩

theorem hartSc_untranslated {e : MemErr} (h : translate m (accWho m a) .store a.va = .error e) :
    hartSc m a = hartFails m a true e := by simp only [hartSc, h]

theorem hartSc_held (h : translate m (accWho m a) .store a.va = .ok (m1, x)) (hx : resvHolds m a x = true) :
    hartSc m a = hartPut m a (dropResv a) := by
  simp only [hartSc, h, hx, if_true]
  rfl

theorem hartSc_lost (h : translate m (accWho m a) .store a.va = .ok (m1, x)) (hx : ¬ resvHolds m a x = true) :
    hartSc m a = hartGets (dropResv a (if x.cls = 0 then (dieMark m1 a.die).1 else m1)) a (.val 1) := by
  simp only [hartSc, h, if_neg hx]
  rfl

/-- The cause of the trap of a failed fetch (Table 23-3). -/
def fetchCause (e : MemErr) : Nat :=
  match e with
  | .fault 1 _ => 12
  | .fault 3 _ => 25
  | .fault 4 _ => 26
  | _ => 1

theorem hartFetch_fails {e : MemErr} (h : translate m (accWho m a) .fetch a.va = .error e) :
    hartFetch m a = hartGets m a (.trap (fetchCause e) a.va a.pc) := by
  unfold hartFetch fetchCause
  simp only [h]
  split <;> simp_all

theorem hartFetch_ok (h : translate m (accWho m a) .fetch a.va = .ok (m1, x)) :
    hartFetch m a = if isaTag m1 (accWho m a) a.va = some 0 then m1 else hartGets m a (.trap 25 a.va a.pc) := by
  simp only [hartFetch, h]
end

/-! HEADLAND_ACCESS: one equation for each operation of a hart that may make its access. -/

/-- A hart may make an access now: a release waits for its writes. -/
def AccReady (m : Mach) (a : HartAcc) : Prop :=
  accLives m a = true ∧ (a.rl = true → hartPending m (hartOwner m a.die a.hart) = false)

theorem exec_headlandAccess (a : HartAcc) (s : State) : exec (.headlandAccess a) s = execHeadlandAccess a s := rfl

theorem headlandAccess_idle {s : State} {a : HartAcc}
    (h : accLives s.m a = false ∨ (a.rl = true ∧ hartPending s.m (hartOwner s.m a.die a.hart) = true)) :
    exec (.headlandAccess a) s = .next s := by
  rw [exec_headlandAccess, execHeadlandAccess, State.onMach]
  exact congrArg _ (congrArg (State.mk s.agenda) (if_pos (by simpa [accOwner] using h)))

section
variable {s : State} {a : HartAcc} (h : AccReady s.m a)
include h

theorem accReady_goes : ¬ ((!accLives s.m a) = true ∨ (a.rl = true ∧ hartPending s.m (accOwner s.m a) = true)) := by
  obtain ⟨hl, hr⟩ := h
  rintro (hd | ⟨h1, h2⟩)
  · simp [hl] at hd
  · rw [accOwner, hr h1] at h2; cases h2

theorem access_fence {rel acq : Bool} (ho : a.op = .fence rel acq) : exec (.headlandAccess a) s = .next ⟨s.agenda,
    if rel && hartPending s.m (accOwner s.m a) then s.m else hartGets s.m a (.val 0)⟩ := by
  rw [exec_headlandAccess, execHeadlandAccess, State.onMach, if_neg (accReady_goes h), ho]

theorem access_load (ho : a.op = .load) : exec (.headlandAccess a) s = .next ⟨s.agenda,
    if a.va % a.n ≠ 0 then hartSkew s.m a false else hartDo s.m a .load (fun m _ v => (m, .val v, none))⟩ := by
  rw [exec_headlandAccess, execHeadlandAccess, State.onMach, if_neg (accReady_goes h), ho]

theorem access_lr (ho : a.op = .lr) : exec (.headlandAccess a) s = .next ⟨s.agenda,
    if a.va % a.n ≠ 0 then hartSkew s.m a false else hartDo s.m a .load (fun m x v => (takeResv m a x, .val v, none))⟩ := by
  rw [exec_headlandAccess, execHeadlandAccess, State.onMach, if_neg (accReady_goes h), ho]

theorem access_store (ho : a.op = .store) : exec (.headlandAccess a) s = .next ⟨s.agenda,
    if a.va % a.n ≠ 0 then hartSkew s.m a true else hartPut s.m a id⟩ := by
  rw [exec_headlandAccess, execHeadlandAccess, State.onMach, if_neg (accReady_goes h), ho]

theorem access_sc (ho : a.op = .sc) : exec (.headlandAccess a) s = .next ⟨s.agenda,
    if a.va % a.n ≠ 0 then hartSkew s.m a true else hartSc s.m a⟩ := by
  rw [exec_headlandAccess, execHeadlandAccess, State.onMach, if_neg (accReady_goes h), ho]

theorem access_amo {op : AtomOp} (ho : a.op = .amo op) : exec (.headlandAccess a) s = .next ⟨s.agenda,
    if a.va % a.n ≠ 0 then hartSkew s.m a true
    else hartDo s.m a .atomic (fun m _ v => (m, .val v, some (natBytes a.n (atomNew op a.n v a.val 0))))⟩ := by
  rw [exec_headlandAccess, execHeadlandAccess, State.onMach, if_neg (accReady_goes h), ho]

theorem access_fetch (ho : a.op = .fetch) : exec (.headlandAccess a) s = .next ⟨s.agenda, hartFetch s.m a⟩ := by
  rw [exec_headlandAccess, execHeadlandAccess, State.onMach, if_neg (accReady_goes h), ho]

/-- A CSR read gives what `hartCsr` says (R18, Table 23-4). -/
theorem access_csr (ho : a.op ∈ [.rdCycle, .rdTime, .rdWwidth, .rdWstack]) :
    exec (.headlandAccess a) s = .next ⟨s.agenda, hartGets s.m a (.val (hartCsr s.m a a.op))⟩ := by
  rw [exec_headlandAccess, execHeadlandAccess, State.onMach, if_neg (accReady_goes h)]
  simp only [List.mem_cons, List.not_mem_nil, or_false] at ho
  rcases ho with ho | ho | ho | ho <;> rw [ho]
end

/-- The access ends with a machine and a result of its hart. -/
def AccDoes (s : State) (a : HartAcc) (m : Mach) (r : HartRes) : Prop :=
  exec (.headlandAccess a) s = .next ⟨s.agenda, hartGets m a r⟩

/-- The access is an exception of a visitor's thread (R364). -/
def AccRaises (s : State) (a : HartAcc) (e : VisExc) : Prop :=
  exec (.headlandAccess a) s = .next ⟨s.agenda, visRaises s.m a.die (a.hart - 8) a.img a.pc e⟩

/-- The access fails: LINK.LOST of a visitor's thread, or a trap. -/
def AccFails (s : State) (a : HartAcc) (w : Bool) (e : MemErr) : Prop :=
  (a.hart < 8 ∨ (∀ c, e ≠ .link c) → AccDoes s a s.m (trapOf w a.va a.pc e)) ∧
    ∀ c, 8 ≤ a.hart → e = .link c → AccRaises s a (.linkLost a.va c)

/-- The access is misaligned. -/
def AccSkews (s : State) (a : HartAcc) (w : Bool) : Prop :=
  (a.hart < 8 → AccDoes s a s.m (.trap (if w then 6 else 4) a.va a.pc)) ∧ (8 ≤ a.hart → AccRaises s a (.misalign a.va a.n))

section
variable {s : State} {a : HartAcc} {w : Bool}

theorem accFails_of_exec {e : MemErr} (hx : exec (.headlandAccess a) s = .next ⟨s.agenda, hartFails s.m a w e⟩) : AccFails s a w e := by
  refine ⟨fun h => ?_, fun c h he => ?_⟩
  · rw [AccDoes, hx, hartFails_trap _ _ h]
  · subst he
    rw [AccRaises, hx, hartFails_link _ _ _ h]

theorem accSkews_of_exec (hx : exec (.headlandAccess a) s = .next ⟨s.agenda, hartSkew s.m a w⟩) : AccSkews s a w := by
  refine ⟨fun h => ?_, fun h => ?_⟩
  · rw [AccDoes, hx, hartSkew_native _ _ h]
  · rw [AccRaises, hx, hartSkew_visitor _ _ h]
end

section
variable {s : State} {a : HartAcc} (h : AccReady s.m a)
include h

theorem misaligned_reads (hn : a.va % a.n ≠ 0) (ho : a.op = .load ∨ a.op = .lr) : AccSkews s a false := by
  apply accSkews_of_exec
  rcases ho with ho | ho
  · rw [access_load h ho, if_pos hn]
  · rw [access_lr h ho, if_pos hn]

theorem misaligned_writes (hn : a.va % a.n ≠ 0) (ho : a.op = .store ∨ a.op = .sc ∨ ∃ op, a.op = .amo op) : AccSkews s a true := by
  apply accSkews_of_exec
  rcases ho with ho | ho | ⟨op, ho⟩
  · rw [access_store h ho, if_pos hn]
  · rw [access_sc h ho, if_pos hn]
  · rw [access_amo h ho, if_pos hn]

theorem fence_does {rel acq : Bool} (ho : a.op = .fence rel acq)
    (hp : rel = true → hartPending s.m (hartOwner s.m a.die a.hart) = false) : AccDoes s a s.m (.val 0) := by
  have go : ¬ (rel && hartPending s.m (accOwner s.m a)) = true := by
    rw [Bool.and_eq_true]
    rintro ⟨h1, h2⟩
    rw [accOwner, hp h1] at h2; cases h2
  rw [AccDoes, access_fence h ho, if_neg go]

theorem fetch_does (ho : a.op = .fetch) :
    (∀ e, translate s.m (accWho s.m a) .fetch a.va = .error e → AccDoes s a s.m (.trap (fetchCause e) a.va a.pc)) ∧
    ∀ m x, translate s.m (accWho s.m a) .fetch a.va = .ok (m, x) →
      (isaTag m (accWho s.m a) a.va = some 0 → exec (.headlandAccess a) s = .next ⟨s.agenda, m⟩) ∧
      (isaTag m (accWho s.m a) a.va ≠ some 0 → AccDoes s a s.m (.trap 25 a.va a.pc)) := by
  unfold AccDoes
  rw [access_fetch h ho]
  refine ⟨fun e he => by rw [hartFetch_fails he], fun m x hx => ⟨fun ht => ?_, fun ht => ?_⟩⟩
  · rw [hartFetch_ok hx, if_pos ht]
  · rw [hartFetch_ok hx, if_neg ht]

theorem load_does (hn : a.va % a.n = 0) (ho : a.op = .load) :
    (∀ e, hartRead s.m (accWho s.m a) .load true a.va a.n = .error e → AccFails s a false e) ∧
    ∀ m bs x, hartRead s.m (accWho s.m a) .load true a.va a.n = .ok (m, bs, x) → AccDoes s a m (.val (bytesNat bs)) := by
  have hx := access_load h ho
  rw [if_neg (not_not.2 hn)] at hx
  refine ⟨fun e he => accFails_of_exec ?_, fun m bs x hr => ?_⟩
  · rw [hx, hartDo_fails he]; rfl
  · rw [AccDoes, hx, hartDo_reads hr rfl]

theorem lr_does (hn : a.va % a.n = 0) (ho : a.op = .lr) :
    (∀ e, hartRead s.m (accWho s.m a) .load true a.va a.n = .error e → AccFails s a false e) ∧
    ∀ m bs x, hartRead s.m (accWho s.m a) .load true a.va a.n = .ok (m, bs, x) → ∃ r : Nat × Nat × Nat,
      (x.cls ≠ 0 → r.1 = x.pa ∧ r.2.1 = a.n) ∧ (x.cls = 0 → r.1 = x.pa / x.grain * x.grain ∧ r.2.1 = x.grain) ∧
      AccDoes s a (updHart m a.die a.hart (fun h => { h with resv := some r })) (.val (bytesNat bs)) := by
  have hx := access_lr h ho
  rw [if_neg (not_not.2 hn)] at hx
  refine ⟨fun e he => accFails_of_exec ?_, fun m bs x hr => ?_⟩
  · rw [hx, hartDo_fails he]; rfl
  · obtain ⟨r, hplain, hchunk, ht⟩ := takeResv_eq m a x
    refine ⟨r, hplain, hchunk, ?_⟩
    rw [AccDoes, hx, hartDo_reads hr rfl, ht]

theorem store_does (hn : a.va % a.n = 0) (ho : a.op = .store) :
    (∀ e, translate s.m (accWho s.m a) .store a.va = .error e → AccFails s a true e) ∧
    ∀ m x, translate s.m (accWho s.m a) .store a.va = .ok (m, x) →
      (∀ e, reachable m .store (accWho s.m a).die x.pa a.n = .error e → AccFails s a true e) ∧
      (reachable m .store (accWho s.m a).die x.pa a.n = .ok () → ∀ m',
        hartWrite m (accWho s.m a) (hartOwner s.m a.die a.hart) x (natBytes a.n a.val) = some m' → AccDoes s a m' (.val 0)) := by
  have hx := access_store h ho
  rw [if_neg (not_not.2 hn)] at hx
  refine ⟨fun e he => accFails_of_exec ?_, fun m x ht => ⟨fun e he => accFails_of_exec ?_, fun hr m' hw => ?_⟩⟩
  · rw [hx, hartPut_untranslated id he]
  · rw [hx, hartPut_unreachable id ht he]
  · rw [AccDoes, hx, hartPut_written id ht hr hw]

theorem amo_does {op : AtomOp} (hn : a.va % a.n = 0) (ho : a.op = .amo op) :
    (∀ e, hartRead s.m (accWho s.m a) .atomic false a.va a.n = .error e → AccFails s a true e) ∧
    ∀ m bs x, hartRead s.m (accWho s.m a) .atomic false a.va a.n = .ok (m, bs, x) → ∀ m',
      hartWrite m (accWho s.m a) (hartOwner s.m a.die a.hart) x (natBytes a.n (atomNew op a.n (bytesNat bs) a.val 0)) = some m' →
      AccDoes s a m' (.val (bytesNat bs)) := by
  have hx := access_amo h ho
  rw [if_neg (not_not.2 hn)] at hx
  refine ⟨fun e he => accFails_of_exec ?_, fun m bs x hr m' hw => ?_⟩
  · rw [hx, hartDo_fails he]; rfl
  · rw [AccDoes, hx, hartDo_writes hr rfl hw]

theorem sc_does (hn : a.va % a.n = 0) (ho : a.op = .sc) :
    (∀ e, translate s.m (accWho s.m a) .store a.va = .error e → AccFails s a true e) ∧
    ∀ m x, translate s.m (accWho s.m a) .store a.va = .ok (m, x) →
      (¬ resvHolds s.m a x = true → x.cls ≠ 0 → AccDoes s a (dropResv a m) (.val 1)) ∧
      (¬ resvHolds s.m a x = true → x.cls = 0 → AccDoes s a (dropResv a (dieMark m a.die).1) (.val 1)) ∧
      (resvHolds s.m a x = true → reachable m .store (accWho s.m a).die x.pa a.n = .ok () → ∀ m',
        hartWrite (dropResv a m) (accWho s.m a) (hartOwner s.m a.die a.hart) x (natBytes a.n a.val) = some m' →
        AccDoes s a m' (.val 0)) := by
  have hx := access_sc h ho
  rw [if_neg (not_not.2 hn)] at hx
  refine ⟨fun e he => accFails_of_exec ?_, fun m x ht => ⟨fun hh hc => ?_, fun hh hc => ?_, fun hh hr m' hw => ?_⟩⟩
  · rw [hx, hartSc_untranslated he]
  · rw [AccDoes, hx, hartSc_lost ht hh, if_neg hc]
  · rw [AccDoes, hx, hartSc_lost ht hh, if_pos hc]
  · rw [AccDoes, hx, hartSc_held ht hh, hartPut_written _ ht hr hw]

theorem csr_does (ho : a.op ∈ [.rdCycle, .rdTime, .rdWwidth, .rdWstack]) : AccDoes s a s.m (.val (hartCsr s.m a a.op)) :=
  access_csr h ho
end

/-! Whose an access is. -/

/-- A native hart translates by its own `satp` and mode (R189). -/
theorem accWho_native (m : Mach) {a : HartAcc} (h : a.hart < 8) : accWho m a = {
    core := a.die * 64, die := a.die, asid := a.satp.toNat / 2 ^ 44 % 2 ^ 16, root := a.satp.toNat % 2 ^ 44, secure := a.world
    part := partDies m a.die, user := a.umode, mode := a.satp.toNat / 2 ^ 60 % 2 ^ 4, hart := some a.hart, sum := a.sum, mxr := a.mxr } := by
  simp only [accWho, if_pos h, pte, Nat.pow_zero, Nat.div_one]

/-- A visitor's access is its thread's, past its core's L1 (R360). -/
theorem accWho_visitor {m : Mach} {a : HartAcc} {v : Visitor} {t : Thread} (h : 8 ≤ a.hart)
    (hv : lget (m.die a.die).visitors (a.hart - 8) = some v) (ht : m.thread? v.gid v.tix = some t) :
    accWho m a = { whoOf m t.gid with l1 := false, hart := some a.hart } := by
  have hvis : visThread m a.die (a.hart - 8) = some t := by rw [visThread, hv]; exact ht
  simp only [accWho, if_neg (Nat.not_lt.2 h), hvis, visWho, Nat.add_sub_cancel' h]

/-! Widened calls (R367, R368). -/

theorem enterWide_full {m : Mach} {w : WCall} {q : Queue} (die hart : Nat) (hq : wideQueue m w.cid = some q)
    (hc : q.cap ≤ q.kids.length) : enterWide m die hart w = m := by
  simp only [enterWide, hq, if_pos hc]

/-- The kernel of a widened call: one group of the call's lanes, in the context's widening queue. -/
def wideKernel (m : Mach) (die hart : Nat) (w : WCall) (q : Queue) : Kernel :=
  { kid := m.nextId, cid := w.cid, qid := q.qid, seq := q.seq, rc := wideRec die w.pc w.lanes, hart := some hart }

theorem enterWide_enters {m : Mach} {w : WCall} {q : Queue} (die hart : Nat) (hq : wideQueue m w.cid = some q)
    (hc : q.kids.length < q.cap) : enterWide m die hart w =
      updHart (({ m with nextId := m.nextId + 1, kernels := m.kernels ++ [wideKernel m die hart w q] } : Mach).updQueue q.qid
        (fun q => { q with seq := q.seq + 1, kids := q.kids ++ [m.nextId] })) die hart (fun h => { h with
          calls := h.calls.map (fun c => if c = w then { w with kid := some m.nextId } else c) }) := by
  simp only [enterWide, hq, if_neg (Nat.not_le.2 hc)]
  rfl

/-- The call of an address and image that a hart has in flight. -/
def flightOf (m : Mach) (die hart cid pc : Nat) (img : Image) : Option WCall :=
  (hartOf m die hart).calls.find? (fun w => w.cid == cid && w.pc == pc && w.img == img)

theorem flightOf_none {m : Mach} {die hart cid pc : Nat} {img : Image}
    (h : ∀ w ∈ (hartOf m die hart).calls, ¬ (w.cid = cid ∧ w.pc = pc ∧ w.img = img)) : flightOf m die hart cid pc img = none := by
  refine List.find?_eq_none.2 (fun w hw hp => h w hw ?_)
  simpa [and_assoc] using hp

section
variable {m : Mach} {die hart cid pc : Nat} {img : Image}

theorem landAgain_none (h : flightOf m die hart cid pc img = none) : landAgain m die hart img pc cid = hartGot m die hart (.trap 25 pc pc) := by
  rw [flightOf] at h
  simp only [landAgain, h]

/-- The hart waits for the call again; its kernel is entered where the queue had no entry for it before. -/
theorem landAgain_some {w : WCall} (h : flightOf m die hart cid pc img = some w) :
    landAgain m die hart img pc cid = if w.kid.isNone = true
      then enterWide (updHart m die hart (fun h => { h with calls := waitFor w h.calls })) die hart { w with cur := true }
      else updHart m die hart (fun h => { h with calls := waitFor w h.calls }) := by
  rw [flightOf] at h
  simp only [landAgain, h]
end

/-- The cause of the trap of a landing that fails (Table 23-3). -/
def landCause (e : MemErr) : Nat :=
  match e with
  | .fault 1 _ => 12
  | .fault 2 _ => 1
  | .fault 4 _ => 26
  | _ => 25

theorem exec_widenedCallLanding (die hart pc cid : Nat) (img : Image) (s : State) :
    exec (.widenedCallLanding die hart img pc cid) s = execWidenedCallLanding die hart img pc cid s := rfl

section
variable {s : State} {die hart cid : Nat} {x : Ctx} (pc : Nat) (img : Image)
  (hh : hart < 8) (hl : hartLives s.m die hart = true) (hx : s.m.ctx? cid = some x) (he : x.stat ≠ .ending) (hg : x.stat ≠ .gone)
include hh hl hx he hg

theorem landing_fails {e : MemErr} (ht : translate s.m (nativeWho s.m die hart x) .fetch pc = .error e) :
    exec (.widenedCallLanding die hart img pc cid) s = .next ⟨s.agenda, hartGot s.m die hart (.trap (landCause e) pc pc)⟩ := by
  have go : ¬ (8 ≤ hart ∨ (!hartLives s.m die hart) = true) := by simp [hh, hl]
  have serves : ¬ (x.stat = .ending ∨ x.stat = .gone) := by simp [he, hg]
  simp only [exec_widenedCallLanding, execWidenedCallLanding, State.onMach, if_neg go, hx, if_neg serves, ht, landCause]
  split <;> simp_all

section
variable {m : Mach} {y : Xlat} (ht : translate s.m (nativeWho s.m die hart x) .fetch pc = .ok (m, y))
include ht

/-- A landing whose fetch passes: on a page of another tag it is none, and a misaligned header traps; else the hart waits again
for its call, waits for its own stores (R368), or a call begins. -/
theorem landing_ok : exec (.widenedCallLanding die hart img pc cid) s = .next ⟨s.agenda,
      if isaTag m (nativeWho s.m die hart x) pc ≠ some 1 then s.m
      else if pc % 8 ≠ 0 then hartGot s.m die hart (.trap 0 pc pc)
      else if (hartOf s.m die hart).busy then landAgain m die hart img pc cid
      else if s.m.repls.any (fun x => x.gid == hartGid die hart) then s.m
      else enterWide (updHart m die hart (fun h => { h with busy := true, calls := h.calls ++ [callAt s.m die hart img pc cid] })) die hart
        (callAt s.m die hart img pc cid)⟩ := by
  have go : ¬ (8 ≤ hart ∨ (!hartLives s.m die hart) = true) := by simp [hh, hl]
  have serves : ¬ (x.stat = .ending ∨ x.stat = .gone) := by simp [he, hg]
  simp only [exec_widenedCallLanding, execWidenedCallLanding, State.onMach, if_neg go, hx, if_neg serves, ht]

theorem landing_foreign (htag : isaTag m (nativeWho s.m die hart x) pc ≠ some 1) :
    exec (.widenedCallLanding die hart img pc cid) s = .next ⟨s.agenda, s.m⟩ := by
  rw [landing_ok pc img hh hl hx he hg ht, if_pos htag]

variable (htag : isaTag m (nativeWho s.m die hart x) pc = some 1)
include htag

theorem landing_misaligned (hp : pc % 8 ≠ 0) :
    exec (.widenedCallLanding die hart img pc cid) s = .next ⟨s.agenda, hartGot s.m die hart (.trap 0 pc pc)⟩ := by
  rw [landing_ok pc img hh hl hx he hg ht, if_neg (not_not.2 htag), if_pos hp]

theorem landing_again (hp : pc % 8 = 0) (hb : (hartOf s.m die hart).busy = true) :
    exec (.widenedCallLanding die hart img pc cid) s = .next ⟨s.agenda, landAgain m die hart img pc cid⟩ := by
  rw [landing_ok pc img hh hl hx he hg ht, if_neg (not_not.2 htag), if_neg (not_not.2 hp), if_pos hb]

theorem landing_waits (hp : pc % 8 = 0) (hb : (hartOf s.m die hart).busy = false) (hr : ∃ r ∈ s.m.repls, r.gid = hartGid die hart) :
    exec (.widenedCallLanding die hart img pc cid) s = .next ⟨s.agenda, s.m⟩ := by
  rw [landing_ok pc img hh hl hx he hg ht, if_neg (not_not.2 htag), if_neg (not_not.2 hp), if_neg (by simp [hb]), if_pos (by simpa using hr)]

theorem landing_calls (hp : pc % 8 = 0) (hb : (hartOf s.m die hart).busy = false) (hr : ∀ r ∈ s.m.repls, r.gid ≠ hartGid die hart) :
    exec (.widenedCallLanding die hart img pc cid) s = .next ⟨s.agenda,
      enterWide (updHart m die hart (fun h => { h with busy := true, calls := h.calls ++ [callAt s.m die hart img pc cid] })) die hart
        (callAt s.m die hart img pc cid)⟩ := by
  rw [landing_ok pc img hh hl hx he hg ht, if_neg (not_not.2 htag), if_neg (not_not.2 hp), if_neg (by simp [hb]), if_neg (by simpa using hr)]
end
end

/-- A call has the lanes and the stride of the hart's CSRs, one lane at least. -/
theorem callAt_eq (m : Mach) (die hart : Nat) (img : Image) (pc cid : Nat) : callAt m die hart img pc cid = {
    cid := cid, pc := pc, img := img, lanes := if (hartOf m die hart).lanes = 0 then 1 else (hartOf m die hart).lanes
    stride := (hartOf m die hart).wstack.toNat } := by
  have lanes : max 1 (hartOf m die hart).lanes = if (hartOf m die hart).lanes = 0 then 1 else (hartOf m die hart).lanes := by
    split <;> omega
  simp only [callAt, lanes]

theorem exec_widenedCallReturn (die hart : Nat) (s : State) : exec (.widenedCallReturn die hart) s = execWidenedCallReturn die hart s := rfl

/-- What the return of a call gives its hart: lane 0's a0 and a1, or scause 27 (R367). -/
def callResult (g : Option Group) (k : Kernel) (w : WCall) : HartRes :=
  match g with
  | some g => if k.final = 1 then .pair g.ret0 g.ret1 else .trap 27 w.pc w.pc
  | none => .trap 27 w.pc w.pc

theorem callResult_lost (g : Option Group) {k : Kernel} (w : WCall) (h : k.final ≠ 1) : callResult g k w = .trap 27 w.pc w.pc := by
  cases g with
  | none => rfl
  | some g => exact if_neg h

/-- Of the calls of a hart the one that it waits for is found, once its kernel has ended. -/
theorem waited_found {p : WCall → Bool} {l : List WCall} {w : WCall} (hw : w ∈ l) (hc : w.cur = true)
    (hu : ∀ c ∈ l, c.cur = true → c = w) (hp : p w = true) : l.find? (fun c => c.cur && p c) = some w := by
  have hsome : (l.find? (fun c => c.cur && p c)).isSome = true := List.find?_isSome.2 ⟨w, hw, by simp [hc, hp]⟩
  obtain ⟨c, hf⟩ := Option.isSome_iff_exists.1 hsome
  have hcur : c.cur = true := by
    have := List.find?_some hf
    simp only [Bool.and_eq_true] at this
    exact this.1
  rw [hf, hu c (List.mem_of_find?_eq_some hf) hcur]

theorem callReturn_effect {s : State} {die hart kid : Nat} {w : WCall} {k : Kernel} (hw : w ∈ (hartOf s.m die hart).calls)
    (hc : w.cur = true) (hu : ∀ c ∈ (hartOf s.m die hart).calls, c.cur = true → c = w) (hl : hartLives s.m die hart = true)
    (hk : w.kid = some kid) (hf : s.m.kernel? kid = some k) (hn : k.kid = kid) (he : k.stat = .ended)
    (hb : (hartOf s.m die hart).busy = true) :
    exec (.widenedCallReturn die hart) s = .next ⟨s.agenda, updHart ({ s.m with
      groups := s.m.groups.filter (fun g => g.kid != kid) } : Mach) die hart (fun h => { h with
        busy := false, calls := h.calls.erase w, got := callResult (s.m.groups.find? (fun g => g.kid == kid)) k w :: h.got })⟩ := by
  subst hn
  have hker : w.kid.bind s.m.kernel? = some k := by rw [hk]; exact hf
  have go : ¬ ((!(hartOf s.m die hart).busy) = true ∨ (!hartLives s.m die hart) = true) := by simp [hb, hl]
  simp only [exec_widenedCallReturn, execWidenedCallReturn, State.onMach]
  rw [waited_found hw hc hu (by simp only [hker, he]; rfl)]
  simp only [if_neg go, hker]
  rfl

/-- Settles O54, from the effect of each access, CSR write, fence, landing and return. -/
theorem headlandAccesses : Obligations.HeadlandAccesses := by
  unfold Obligations.HeadlandAccesses
  refine ⟨⟨?fence, fenceHits_iff, ?csrs, fun s a => headlandAccess_idle, ?access, ?who, ?trap⟩, ?enter, ?landing, ?back⟩
  case fence =>
    rintro s die hart va asid hit rfl
    obtain ⟨hvis, hnat⟩ := sfenceVma_effect s die hart va asid
    refine ⟨hvis, fun h hl hr => ⟨(hnat h hl hr).1, fun hb => ?_⟩⟩
    obtain ⟨m', hx, hcores, hdies, hown⟩ := (hnat h hl hr).2 hb
    exact ⟨m', hx, fun c hc => ⟨(hcores c hc).1.1, (hcores c hc).1.2, (hcores c hc).2⟩, hdies, hown⟩
  case csrs => exact fun s die hart v => ⟨callCsrs_native v, callCsrs_visitor v⟩
  case access =>
    rintro s a _ _ hl rfl hrl rfl
    have h : AccReady s.m a := ⟨hl, hrl⟩
    intro does raises fails
    refine ⟨fun rel acq ho => fence_does h ho, fun ho => ?_, fun ho => ?_, fun ho => ?_, fun ho => ?_, fetch_does h,
      fun hn => ⟨misaligned_reads h hn, misaligned_writes h hn⟩,
      fun hn => ⟨load_does h hn, lr_does h hn, store_does h hn, fun op => amo_does h hn, fun ho => ?sc⟩⟩
    case sc =>
      obtain ⟨hfail, hdo⟩ := sc_does h hn ho
      refine ⟨hfail, fun m x ht => ?_⟩
      have hdo := hdo m x ht
      rw [resvHolds_iff] at hdo
      exact hdo
    all_goals
      have hd := csr_does h (by simp [ho])
      rw [ho] at hd
      exact hd
  case who => exact fun s a => ⟨accWho_native s.m, fun v t => accWho_visitor⟩
  case trap => exact fun va pc w => ⟨rfl, fun c => ⟨rfl, rfl, rfl⟩⟩
  case enter =>
    intro m die hart w q hq
    refine ⟨enterWide_full die hart hq, ?_⟩
    rintro hc _ rfl
    exact ⟨rfl, rfl, rfl, rfl, rfl, rfl, rfl, rfl, rfl, rfl, enterWide_enters die hart hq hc⟩
  case landing =>
    rintro s die hart pc cid img x _ _ hh hl rfl hx he hg rfl
    refine ⟨fun e => landing_fails pc img hh hl hx he hg, fun m y ht => ?_⟩
    refine ⟨landing_foreign pc img hh hl hx he hg ht, landing_misaligned pc img hh hl hx he hg ht,
      fun htag hp => ⟨fun hb hnone => ?none, fun hb w hw => ?some, landing_waits pc img hh hl hx he hg ht htag hp, ?begins⟩⟩
    case none => exact landAgain_none (flightOf_none hnone) ▸ landing_again pc img hh hl hx he hg ht htag hp hb
    case some =>
      have hland := landing_again pc img hh hl hx he hg ht htag hp hb
      rw [landAgain_some hw] at hland
      exact ⟨fun hk => by rwa [if_neg (by simpa using hk)] at hland, fun hk => by rwa [if_pos (by simp [hk])] at hland⟩
    case begins =>
      rintro hb hr _ rfl
      exact callAt_eq s.m die hart img pc cid ▸ landing_calls pc img hh hl hx he hg ht htag hp hb hr
  case back =>
    intro s die hart w kid k hw hc hu hl hk hf hn he hb
    have hx := callReturn_effect hw hc hu hl hk hf hn he hb
    refine ⟨fun g hg h1 => ?_, fun h1 => ?_⟩
    · rw [hx, hg, callResult, if_pos h1]
    · rw [hx, callResult_lost _ _ h1]

end Sys2Proof.Machine
end

section
/-!
PROOFS. Clocks, fatal die errors, fences and soft errors (R16 to R18, R24, R400, R408 to R411).
-/

namespace Sys2Proof.Machine

/-! Clocks and droops (R16 to R18). -/

theorem exec_clockSettingChange (die mhz : Nat) (s : State) : exec (.clockSettingChange die mhz) s = execClockSettingChange die mhz s := rfl

theorem exec_supplyDroop (die : Nat) (on : Supply) (s : State) : exec (.supplyDroop die on) s = execSupplyDroop die on s := rfl

theorem clockSettingChange_legal {die mhz : Nat} (s : State) (hd : die < 4) (h1 : 1200 ≤ mhz) (h2 : mhz ≤ 2000) (h3 : mhz % 100 = 0) :
    exec (.clockSettingChange die mhz) s = .next ⟨s.agenda, s.m.updDie die (fun d => { d with mhz := mhz })⟩ := by
  rw [exec_clockSettingChange, execClockSettingChange, State.onMach, if_pos ⟨hd, h1, h2, h3⟩]

theorem clockSettingChange_refused {die mhz : Nat} (s : State) (h : 4 ≤ die ∨ mhz < 1200 ∨ 2000 < mhz ∨ mhz % 100 ≠ 0) :
    exec (.clockSettingChange die mhz) s = .next s := by
  rw [exec_clockSettingChange, execClockSettingChange, State.onMach, if_neg (by omega)]

/-- A droop that has begun keeps its beginning. -/
theorem supplyDroop_begins {die : Nat} (s : State) (outside : Bool) (hd : die < 4) :
    exec (.supplyDroop die (.droops outside)) s = .next ⟨s.agenda, s.m.updDie die (fun d => { d with
      droop := some (match d.droop with | some e => e.1 | none => s.m.time, outside) })⟩ := by
  have start : ∀ d : Die, (d.droop.map Prod.fst).getD s.m.time = match d.droop with | some e => e.1 | none => s.m.time := by
    intro d; cases d.droop <;> rfl
  rw [exec_supplyDroop, execSupplyDroop, State.onMach, if_pos hd]
  simp only [start]

theorem supplyDroop_ends {die : Nat} (s : State) (hd : die < 4) :
    exec (.supplyDroop die .recovers) s = .next ⟨s.agenda, s.m.updDie die (fun d => { d with droop := none })⟩ := by
  rw [exec_supplyDroop, execSupplyDroop, State.onMach, if_pos hd]

theorem supplyDroop_noDie {die : Nat} (s : State) (on : Supply) (hd : 4 ≤ die) : exec (.supplyDroop die on) s = .next s := by
  rw [exec_supplyDroop, execSupplyDroop, State.onMach, if_neg (by omega)]

/-- What a droop may stretch (R16): never more than the turn, nothing without a droop, and inside the envelope of R17 at most
300 ns, none of them later than 100 ns after the droop began. -/
theorem stretchRoom_bounds (d : Die) (now dt : Nat) : stretchRoom d now dt ≤ dt ∧ (d.droop = none → stretchRoom d now dt = 0) ∧
    ∀ since, d.droop = some (since, false) → stretchRoom d now dt ≤ 300 ∧ stretchRoom d now dt ≤ since + 100 - now := by
  unfold stretchRoom
  split
  next hn => exact ⟨Nat.zero_le _, fun _ => rfl, fun since hs => by simp [hn] at hs⟩
  next from_ ho => exact ⟨Nat.le_refl _, fun h => by simp [ho] at h, fun since hs => by simp [ho] at hs⟩
  next from_ hi =>
    refine ⟨by omega, fun h => by simp [hi] at h, fun since hs => ?_⟩
    obtain rfl : from_ = since := by rw [hi] at hs; simpa using hs
    omega

theorem tick_held {d : Die} (now dt want : Nat) (h : d.held = true) : d.tick now dt want = d := if_pos h

/-- A released die completes the cycles of its setting, less a third of the stretched time, and keeps what is left of one. -/
theorem tick_released {d : Die} (now dt want : Nat) (h : d.held = false) :
    (d.tick now dt want).hclk = d.hclk + 3 * dt ∧
    1000 * (d.tick now dt want).clk + (d.tick now dt want).phase =
      1000 * d.clk + d.phase + (dt * d.mhz - min want (stretchRoom d now dt) * d.mhz / 3) ∧
    (d.tick now dt want).phase < 1000 := by
  have ht : ¬ d.held = true := by simp [h]
  rw [Die.tick, if_neg ht]
  refine ⟨rfl, ?_, Nat.mod_lt _ (by decide)⟩
  have hdiv := Nat.div_add_mod (d.phase + milliIn d dt (min want (stretchRoom d now dt))) 1000
  rw [milliIn] at hdiv
  simp only [cyclesIn, milliIn]
  omega

theorem tick_clock (d : Die) (now dt want : Nat) : (d.held = true → d.tick now dt want = d) ∧
    (d.held = false → (d.tick now dt want).hclk = d.hclk + 3 * dt ∧ ∃ x, x ≤ dt ∧ x ≤ want ∧
      1000 * (d.tick now dt want).clk + (d.tick now dt want).phase = 1000 * d.clk + d.phase + (dt * d.mhz - x * d.mhz / 3) ∧
      (d.tick now dt want).phase < 1000 ∧ (d.droop = none → x = 0) ∧
      ∀ since, d.droop = some (since, false) → x ≤ 300 ∧ (x = 0 ∨ now + x ≤ since + 100)) := by
  refine ⟨tick_held now dt want, fun h => ?_⟩
  obtain ⟨hclk, hclock, hphase⟩ := tick_released now dt want h
  obtain ⟨hturn, hnone, hinside⟩ := stretchRoom_bounds d now dt
  refine ⟨hclk, min want (stretchRoom d now dt), by omega, by omega, hclock, hphase, fun hd => by simp [hnone hd], fun since hs => ?_⟩
  obtain ⟨h300, h100⟩ := hinside since hs
  omega

/-! Fatal die errors (R24, R400, R410). -/

theorem exec_fatalDieError (d : Nat) (s : State) : exec (.fatalDieError d) s = execFatalDieError d s := rfl

theorem exec_thermalTrip (d : Nat) (s : State) : exec (.thermalTrip d) s = execThermalTrip d s := rfl

theorem exec_arbiterTakeover (d skip : Nat) (s : State) : exec (.arbiterTakeover d skip) s = execArbiterTakeover d skip s := rfl

theorem exec_softError (x : SoftAt) (c : Bool) (s : State) : exec (.softError x c) s = execSoftError x c s := rfl

section
variable {d : Nat} (s : State) (hd : d < 4)
include hd

theorem fatalDieError_loses : exec (.fatalDieError d) s = .next ⟨s.agenda, loseDie s.m d⟩ := by
  rw [exec_fatalDieError, execFatalDieError, State.onMach, if_pos hd]

theorem thermalTrip_loses : exec (.thermalTrip d) s = .next ⟨s.agenda, loseDie s.m d⟩ := by
  rw [exec_thermalTrip, execThermalTrip, State.onMach, if_pos hd]

theorem l2tagError_loses : exec (.softError (.l2tags d) false) s = .next ⟨s.agenda, loseDie s.m d⟩ := by
  simp only [exec_softError, execSoftError, State.onMach, Bool.false_eq_true, if_false, if_pos hd]

/-- An error in both copies of the arbiter is fatal to the die. -/
theorem arbiterTakeover_again (skip : Nat) (h : (s.m.die d).standby = true) :
    exec (.arbiterTakeover d skip) s = .next ⟨s.agenda, loseDie s.m d⟩ := by
  rw [exec_arbiterTakeover, execArbiterTakeover, State.onMach, if_neg (Nat.not_le.2 hd), if_pos h]

/-- The standby takes over, and the tidemarks of the die's partition may skip. -/
theorem arbiterTakeover_first (skip : Nat) (h : (s.m.die d).standby = false) {m : Mach} (hm : m = s.m.updDie d (fun d => { d with standby := true })) :
    (∀ p, m.partOf d = some p → exec (.arbiterTakeover d skip) s = .next ⟨s.agenda, m.updPart p.pid (fun p => { p with
      grants := p.grants + skip })⟩) ∧
    (m.partOf d = none → exec (.arbiterTakeover d skip) s = .next ⟨s.agenda, m⟩) := by
  subst hm
  rw [exec_arbiterTakeover, execArbiterTakeover, State.onMach, if_neg (Nat.not_le.2 hd), if_neg (by simp [h])]
  exact ⟨fun p hp => by simp only [hp], fun hp => by simp only [hp]⟩
end

theorem loseDie_again {m : Mach} {d : Nat} (h : (m.die d).fatal = true) : loseDie m d = m := if_pos h

/-! Memory devices, fences and soft errors (R408, R409, R411). -/

theorem exec_deviceMarkFailed (die dev : Nat) (s : State) : exec (.deviceMarkFailed die dev) s = execDeviceMarkFailed die dev s := rfl

theorem exec_coreFence (core : Nat) (lost : List Nat) (s : State) : exec (.coreFence core lost) s = execCoreFence core lost s := rfl

theorem deviceMarkFailed_marks {die dev : Nat} (s : State) (h1 : die < 4) (h2 : dev < 13) (h3 : dev ∉ (s.m.die die).failed) :
    exec (.deviceMarkFailed die dev) s = .next ⟨s.agenda, s.m.updDie die (fun d => { d with failed := dev :: d.failed })⟩ := by
  rw [exec_deviceMarkFailed, execDeviceMarkFailed, State.onMach, if_neg (by simp [h1, h2, h3])]

theorem deviceMarkFailed_refused {die dev : Nat} (s : State) (h : 4 ≤ die ∨ 13 ≤ dev ∨ dev ∈ (s.m.die die).failed) :
    exec (.deviceMarkFailed die dev) s = .next s := by
  rw [exec_deviceMarkFailed, execDeviceMarkFailed, State.onMach, if_pos (by simpa using h)]

theorem coreFence_noCore {core : Nat} (lost : List Nat) (s : State) (h : 256 ≤ core) : exec (.coreFence core lost) s = .next s := by
  rw [exec_coreFence, execCoreFence, State.onMach, if_pos h]

/-- A thread parks where it stands: at its position, or at the word that its clause has reached. -/
theorem softPark_parks (m : Mach) (t : Thread) (h1 : t.stat ≠ .exited) (h2 : t.stat ≠ .transit) (h3 : ∀ f, t.stat ≠ .parked f) :
    (t.stat ≠ .issuing → softPark m t = superFault m t 5 0x0504 0 0 0 t.pos) ∧
    (t.stat = .issuing → ∀ r, m.running.find? (fun r => r.gid == t.gid && r.tixs.contains t.tix) = some r →
      softPark m t = superFault m t 5 0x0504 0 0 0 r.here) := by
  unfold softPark
  refine ⟨fun hi => ?_, fun hi r hr => by simp only [hi, hr]⟩
  split <;> simp_all

section
variable {m : Mach} {ls : List Line} {pa : Nat} {l : Line} (put : Mach → List Line → Mach) (h : lineAt ls pa = some l)
include h

/-- A dirty sector is poisoned, and the other dirty bytes of its line go home. -/
theorem softLine_dirty (hd : sectorDirty l pa = true) (hp : pa / 32 ∉ (put m (ls.filter (fun x => x.pa != l.pa))).poison) :
    softLine m ls pa put = homePush { put m (ls.filter (fun x => x.pa != l.pa)) with
      poison := pa / 32 :: (put m (ls.filter (fun x => x.pa != l.pa))).poison } (l.without (pa / 32 * 32) 32) := by
  simp [softLine, h, hd, hp]

/-- A clean sector is fetched again. -/
theorem softLine_clean (hd : sectorDirty l pa = false) : softLine m ls pa put = homePush (put m (ls.filter (fun x => x.pa != l.pa))) l := by
  simp [softLine, h, hd]
end

/-- What an error in a line of some cache does, where `exec` is `softLine` of that cache. -/
theorem softError_line {s : State} {x : SoftAt} {ls : List Line} {pa : Nat} (put : Mach → List Line → Mach)
    (hx : exec (.softError x false) s = .next ⟨s.agenda, softLine s.m ls pa put⟩) :
    ∀ l, lineAt ls pa = some l → ∀ m, m = put s.m (ls.filter (fun x => x.pa != l.pa)) →
      (sectorDirty l pa = true → pa / 32 ∉ m.poison → exec (.softError x false) s =
        .next ⟨s.agenda, homePush { m with poison := pa / 32 :: m.poison } (l.without (pa / 32 * 32) 32)⟩) ∧
      (sectorDirty l pa = false → exec (.softError x false) s = .next ⟨s.agenda, homePush m l⟩) := by
  rintro l hl _ rfl
  exact ⟨fun hd hp => by rw [hx, softLine_dirty put hl hd hp], fun hd => by rw [hx, softLine_clean put hl hd]⟩

theorem softError_corrected (s : State) (x : SoftAt) : exec (.softError x true) s = .next s := by
  simp only [exec_softError, execSoftError, State.onMach, if_true]

/-- An uncorrectable error in what belongs to a group on a core: its threads park, or the error waits for what reads it. -/
theorem softError_onCore {s : State} {gid : Nat} (tix off i : Nat) (h : onCoreNow s.m gid = true) :
    (∀ t, s.m.thread? gid tix = some t → exec (.softError (.registers gid tix) false) s = .next ⟨s.agenda, softPark s.m t⟩) ∧
    exec (.softError (.uniform gid) false) s = .next ⟨s.agenda, (s.m.threads.filter (fun t => t.gid == gid)).foldl (fun m t => softPark m t) s.m⟩ ∧
    (padIn s.m gid off 1 = true → exec (.softError (.scratch gid off) false) s = .next ⟨s.agenda, { s.m with bad := .scratch gid off :: s.m.bad }⟩) ∧
    (∀ t, lget (s.m.core (s.m.coreOf gid)).tiles i = some t → t.gid = gid →
      exec (.softError (.tile gid i) false) s = .next ⟨s.agenda, { s.m with bad := .tile gid i :: s.m.bad }⟩) ∧
    (lget (s.m.core (s.m.coreOf gid)).wown (off / 64) = some gid →
      exec (.softError (.wbuf gid off) false) s = .next ⟨s.agenda, { s.m with bad := .wbuf gid off :: s.m.bad }⟩) := by
  simp only [exec_softError, execSoftError, State.onMach, Bool.false_eq_true, if_false, h, if_true, Bool.true_and]
  refine ⟨fun t ht => by rw [ht], trivial, fun hp => by rw [if_pos hp], fun t ht hg => ?_, fun hw => by rw [if_pos (by simp [hw])]⟩
  simp only [ht, hg, beq_self_eq_true, if_true]

/-- The registers and buffers of a group that is on no core hold nothing of it. -/
theorem softError_offCore {s : State} {gid : Nat} (tix off i : Nat) (h : onCoreNow s.m gid = false) (x : SoftAt)
    (hx : x ∈ [.registers gid tix, .uniform gid, .scratch gid off, .tile gid i, .wbuf gid off]) :
    exec (.softError x false) s = .next ⟨s.agenda, s.m⟩ := by
  simp only [List.mem_cons, List.not_mem_nil, or_false] at hx
  rcases hx with rfl | rfl | rfl | rfl | rfl <;>
    simp only [exec_softError, execSoftError, State.onMach, Bool.false_eq_true, if_false, h, Bool.false_and]
  split <;> rfl

theorem softError_l1_spec {s : State} {c pa : Nat} (h : sectorSpec (s.m.core c) pa = true) :
    exec (.softError (.l1 c pa) false) s = .next ⟨s.agenda, squash s.m c 5⟩ := by
  simp only [exec_softError, execSoftError, State.onMach, Bool.false_eq_true, if_false, h, if_true]

theorem softError_l1_line {s : State} {c pa : Nat} (h : sectorSpec (s.m.core c) pa = false) :
    exec (.softError (.l1 c pa) false) s = .next ⟨s.agenda,
      softLine s.m (s.m.core c).lines pa (fun m ls => m.updCore c (fun k => { k with lines := ls }))⟩ := by
  simp only [exec_softError, execSoftError, State.onMach, Bool.false_eq_true, if_false, h]

theorem softError_cluster (s : State) (cl pa : Nat) : exec (.softError (.cluster cl pa) false) s = .next ⟨s.agenda,
    softLine s.m (s.m.cluster cl) pa (fun m ls => m.setCluster cl ls)⟩ := by
  simp only [exec_softError, execSoftError, State.onMach, Bool.false_eq_true, if_false]

theorem softError_l2_line {s : State} {pa : Nat} {p : Part} (d : Bool) (h : s.m.parts.find? (fun p => (lineAt p.lines pa).isSome) = some p) :
    exec (.softError (.l2 pa d) false) s = .next ⟨s.agenda,
      softLine s.m p.lines pa (fun m ls => m.updPart p.pid (fun p => { p with lines := ls }))⟩ := by
  simp only [exec_softError, execSoftError, State.onMach, Bool.false_eq_true, if_false, h]

/-- Device memory that no host line holds: a dirty sector of the L2 is poisoned, a clean one is fetched again. -/
theorem softError_l2_device {s : State} {pa : Nat} (h : ∀ p ∈ s.m.parts, lineAt p.lines pa = none) (hd : deviceMem pa = true)
    (hp : pa / 32 ∉ s.m.poison) :
    exec (.softError (.l2 pa true) false) s = .next ⟨s.agenda, { s.m with poison := pa / 32 :: s.m.poison }⟩ ∧
    exec (.softError (.l2 pa false) false) s = .next ⟨s.agenda, s.m⟩ := by
  have hf : s.m.parts.find? (fun p => (lineAt p.lines pa).isSome) = none := List.find?_eq_none.2 (fun p hp => by simp [h p hp])
  simp only [exec_softError, execSoftError, State.onMach, Bool.false_eq_true, if_false, hf]
  exact ⟨by rw [if_pos (by simp [hd, hp])], rfl⟩

theorem softError_secondTier {s : State} {pa p : Nat} (h : homeOf pa = .second p) (hp : pa / 32 ∉ s.m.poison) :
    exec (.softError (.secondTier pa) false) s = .next ⟨s.agenda, { s.m with poison := pa / 32 :: s.m.poison }⟩ := by
  have hc : ¬ s.m.poison.contains (pa / 32) = true := by simpa using hp
  simp only [exec_softError, execSoftError, State.onMach, Bool.false_eq_true, if_false, h, if_neg hc]

/-- Settles O59, from the effect of each event; a fatal error's by its stages in order. -/
theorem reliability : Obligations.Reliability := by
  unfold Obligations.Reliability
  refine ⟨?clocks, tick_clock, ?fatal, ?loses, fun m d => loseDie_again, fun _ _ _ => rfl, ?devices, ?fence, softError_corrected,
    softPark_parks, ?soft⟩
  case clocks =>
    exact fun s die mhz on outside => ⟨fun hd => ⟨clockSettingChange_legal s hd, supplyDroop_begins s outside hd, supplyDroop_ends s hd⟩,
      clockSettingChange_refused s, supplyDroop_noDie s on⟩
  case fatal =>
    exact fun s d skip hd => ⟨fatalDieError_loses s hd, thermalTrip_loses s hd, l2tagError_loses s hd,
      arbiterTakeover_again s hd skip, fun h m => arbiterTakeover_first s hd skip h⟩
  case loses =>
    intro m m1 d p hf hm1 hp low away m2 m3 m4 m5 m6 hlow haway h2 h3 h4 h5 h6
    have hlost : loseDie m d = if low = true ∧ p.live = true then startDrain m6 p.pid else m6 := by
      unfold loseDie
      rw [if_neg (by simp [hf])]
      subst hm1 h6 h5 h4 h3 h2 haway hlow
      -- In a module of its own the statement has matchers of its own, which only unfolding identifies with the model's.
      simp only [hp] <;> rfl
    exact ⟨fun h hl => hlost.trans (if_pos ⟨h, hl⟩), fun h => hlost.trans (if_neg (by simp [h]))⟩
  case devices =>
    exact fun s die dev => ⟨rfl, deviceMarkFailed_marks s, deviceMarkFailed_refused s⟩
  case fence =>
    refine fun s core lost => ⟨coreFence_noCore lost s, fun h => ⟨_, _, rfl, rfl, ?_⟩⟩
    rw [exec_coreFence, execCoreFence, State.onMach, if_neg (Nat.not_le.2 h)] <;> rfl
  case soft =>
    intro s gid tix off i c pa strikes
    refine ⟨softError_onCore tix off i, fun h => ?_, softError_l1_spec, ⟨fun h => ?_, ?_, fun p d hf => ?_⟩, softError_l2_device,
      fun p => softError_secondTier⟩
    · have hoff := softError_offCore tix off i h
      exact ⟨hoff _ (by simp), hoff _ (by simp), hoff _ (by simp), hoff _ (by simp), hoff _ (by simp)⟩
    · exact softError_line _ (softError_l1_line h)
    · exact softError_line _ (softError_cluster s c pa)
    · exact softError_line _ (softError_l2_line d hf)

end Sys2Proof.Machine
end

section
/-!
PROOFS. The encoding (R60 to R66): the instruction at the head of a byte stream and its words, in both directions.
-/

namespace Sys2Proof

/-! Byte streams: a word is 8 bytes, and what `decodeBytes` answers. -/

theorem leNat_word {w : Nat} (hw : w < 2 ^ 64) : leNat (leBytes 8 w) = w := by
  rw [leNat_leBytes, Nat.mod_eq_of_lt (by omega)]

theorem take_leBytes (w : Nat) (rest : List Byte) : (leBytes 8 w ++ rest).take 8 = leBytes 8 w :=
  List.take_left' (length_leBytes 8 w)

theorem drop_leBytes (w : Nat) (rest : List Byte) : (leBytes 8 w ++ rest).drop 8 = rest :=
  List.drop_left' (length_leBytes 8 w)

theorem leBytes_take {bs : List Byte} (h : 8 ≤ bs.length) : leBytes 8 (leNat (bs.take 8)) = bs.take 8 := by
  have hlen : (bs.take 8).length = 8 := by simp [h]
  simpa only [hlen] using leBytes_leNat (bs.take 8)

/-- What the head of a stream is: the bytes of one word or two are there, the word decodes, and the rest follows. -/
theorem decodeBytes_eq_ok {bs : List Byte} {i : Instr} {rest : List Byte} : decodeBytes bs = .ok (i, rest) ↔
    decodeWord (leNat (bs.take 8)) (leNat ((bs.drop 8).take 8)) = .ok i ∧
      (if i.hasExt then 16 ≤ bs.length ∧ rest = bs.drop 16 else 8 ≤ bs.length ∧ rest = bs.drop 8) := by
  unfold decodeBytes
  by_cases h8 : bs.length < 8
  · have h16 : ¬ 16 ≤ bs.length := by omega
    simp [h8, h16]
  · rcases hd : decodeWord (leNat (bs.take 8)) (leNat ((bs.drop 8).take 8)) with e | k
    · simp [h8]
    -- The branches of `decodeBytes` are those of the right side, by whether the word has an extension.
    · rw [if_neg h8, Except.ok.injEq]
      dsimp only
      by_cases hx : k.hasExt = true
      · grind
      · grind

/-! Encoding, then decoding. -/

/-- Every instruction of the table is covered by its own law; an event has no words. -/
theorem encoding_law (i : Instr) : Laws.Encoding.Statement i := by
  cases i with
  | nop g => exact Laws.Encoding.nop g
  | add x => exact Laws.Encoding.add x
  | sub x => exact Laws.Encoding.sub x
  | mul x => exact Laws.Encoding.mul x
  | mulh x => exact Laws.Encoding.mulh x
  | mulhu x => exact Laws.Encoding.mulhu x
  | mad x => exact Laws.Encoding.mad x
  | div x => exact Laws.Encoding.div x
  | divu x => exact Laws.Encoding.divu x
  | rem x => exact Laws.Encoding.rem x
  | remu x => exact Laws.Encoding.remu x
  | and x => exact Laws.Encoding.and x
  | or x => exact Laws.Encoding.or x
  | xor x => exact Laws.Encoding.xor x
  | andn x => exact Laws.Encoding.andn x
  | shl x => exact Laws.Encoding.shl x
  | shr x => exact Laws.Encoding.shr x
  | sra x => exact Laws.Encoding.sra x
  | rol x => exact Laws.Encoding.rol x
  | shladd sh x => exact Laws.Encoding.shladd sh x
  | min x => exact Laws.Encoding.min x
  | max x => exact Laws.Encoding.max x
  | minu x => exact Laws.Encoding.minu x
  | maxu x => exact Laws.Encoding.maxu x
  | abs x => exact Laws.Encoding.abs x
  | clz x => exact Laws.Encoding.clz x
  | popc x => exact Laws.Encoding.popc x
  | brev x => exact Laws.Encoding.brev x
  | bfx x => exact Laws.Encoding.bfx x
  | bfxu x => exact Laws.Encoding.bfxu x
  | bfi x => exact Laws.Encoding.bfi x
  | sel np sp x => exact Laws.Encoding.sel np sp x
  | cmp cc x => exact Laws.Encoding.cmp cc x
  | set cc x => exact Laws.Encoding.set cc x
  | mov x => exact Laws.Encoding.mov x
  | movi g kind d imm => exact Laws.Encoding.movi g kind d imm
  | movx g d val => exact Laws.Encoding.movx g d val
  | pand x => exact Laws.Encoding.pand x
  | por x => exact Laws.Encoding.por x
  | pxor x => exact Laws.Encoding.pxor x
  | smov g u d sreg => exact Laws.Encoding.smov g u d sreg
  | swr g sreg a => exact Laws.Encoding.swr g sreg a
  | rand g d => exact Laws.Encoding.rand g d
  | widf g u n d => exact Laws.Encoding.widf g u n d
  | addPaired x => exact Laws.Encoding.addPaired x
  | subPaired x => exact Laws.Encoding.subPaired x
  | andPaired x => exact Laws.Encoding.andPaired x
  | orPaired x => exact Laws.Encoding.orPaired x
  | xorPaired x => exact Laws.Encoding.xorPaired x
  | shlPaired x => exact Laws.Encoding.shlPaired x
  | shrPaired x => exact Laws.Encoding.shrPaired x
  | movPaired x => exact Laws.Encoding.movPaired x
  | minPaired x => exact Laws.Encoding.minPaired x
  | maxPaired x => exact Laws.Encoding.maxPaired x
  | faddPaired x => exact Laws.Encoding.faddPaired x
  | fmulPaired x => exact Laws.Encoding.fmulPaired x
  | fminPaired x => exact Laws.Encoding.fminPaired x
  | fmaxPaired x => exact Laws.Encoding.fmaxPaired x
  | hadd2Paired x => exact Laws.Encoding.hadd2Paired x
  | hmul2Paired x => exact Laws.Encoding.hmul2Paired x
  | shfl g mode d a b c => exact Laws.Encoding.shfl g mode d a b c
  | vote g mode na d a c => exact Laws.Encoding.vote g mode na d a c
  | redux g op d a c => exact Laws.Encoding.redux g op d a c
  | matchL g whole d a c => exact Laws.Encoding.matchL g whole d a c
  | elect g d c => exact Laws.Encoding.elect g d c
  | lsync g d c => exact Laws.Encoding.lsync g d c
  | bra g target => exact Laws.Encoding.bra g target
  | jmp g a => exact Laws.Encoding.jmp g a
  | call g target => exact Laws.Encoding.call g target
  | callr g d a => exact Laws.Encoding.callr g d a
  | ret g a => exact Laws.Encoding.ret g a
  | rjarm g j a => exact Laws.Encoding.rjarm g j a
  | rjwait g j => exact Laws.Encoding.rjwait g j
  | exit g => exact Laws.Encoding.exit g
  | brk g n => exact Laws.Encoding.brk g n
  | yield g => exact Laws.Encoding.yield g
  | fadd x => exact Laws.Encoding.fadd x
  | fsub x => exact Laws.Encoding.fsub x
  | fmul x => exact Laws.Encoding.fmul x
  | ffma x => exact Laws.Encoding.ffma x
  | fmin x => exact Laws.Encoding.fmin x
  | fmax x => exact Laws.Encoding.fmax x
  | fcmp cc x => exact Laws.Encoding.fcmp cc x
  | fclass x => exact Laws.Encoding.fclass x
  | frnd mode x => exact Laws.Encoding.frnd mode x
  | fcvt g rnd dst src d a => exact Laws.Encoding.fcvt g rnd dst src d a
  | icvt g uns dst d a => exact Laws.Encoding.icvt g uns dst d a
  | fcvti g rnd uns src d a => exact Laws.Encoding.fcvti g rnd uns src d a
  | hadd2 x => exact Laws.Encoding.hadd2 x
  | hmul2 x => exact Laws.Encoding.hmul2 x
  | hfma2 c x => exact Laws.Encoding.hfma2 c x
  | hmin2 x => exact Laws.Encoding.hmin2 x
  | hmax2 x => exact Laws.Encoding.hmax2 x
  | rcp x => exact Laws.Encoding.rcp x
  | rsq x => exact Laws.Encoding.rsq x
  | sqrt x => exact Laws.Encoding.sqrt x
  | exp2 x => exact Laws.Encoding.exp2 x
  | log2 x => exact Laws.Encoding.log2 x
  | fdiv x => exact Laws.Encoding.fdiv x
  | feval ft x => exact Laws.Encoding.feval ft x
  | ftld g ft a fl => exact Laws.Encoding.ftld g ft a fl
  | dot4 x => exact Laws.Encoding.dot4 x
  | dot8 x => exact Laws.Encoding.dot8 x
  | ncvt x => exact Laws.Encoding.ncvt x
  | nunp x => exact Laws.Encoding.nunp x
  | ld x => exact Laws.Encoding.ld x
  | st x => exact Laws.Encoding.st x
  | lds x => exact Laws.Encoding.lds x
  | sts x => exact Laws.Encoding.sts x
  | ldx x => exact Laws.Encoding.ldx x
  | stx x => exact Laws.Encoding.stx x
  | atom x => exact Laws.Encoding.atom x
  | red x => exact Laws.Encoding.red x
  | atoms x => exact Laws.Encoding.atoms x
  | fence g kind sc => exact Laws.Encoding.fence g kind sc
  | acqr g a => exact Laws.Encoding.acqr g a
  | waita g global d a b => exact Laws.Encoding.waita g global d a b
  | cpy g d a fl => exact Laws.Encoding.cpy g d a fl
  | tlwait g tile a => exact Laws.Encoding.tlwait g tile a
  | tlread g fl d => exact Laws.Encoding.tlread g fl d
  | pref g sc a off => exact Laws.Encoding.pref g sc a off
  | chend g => exact Laws.Encoding.chend g
  | chstat g fl d => exact Laws.Encoding.chstat g fl d
  | bar x => exact Laws.Encoding.bar x
  | barv x => exact Laws.Encoding.barv x
  | barw x => exact Laws.Encoding.barw x
  | barst x => exact Laws.Encoding.barst x
  | tzero g tile free d => exact Laws.Encoding.tzero g tile free d
  | tld x => exact Laws.Encoding.tld x
  | tst x => exact Laws.Encoding.tst x
  | tmma g d a fl => exact Laws.Encoding.tmma g d a fl
  | tdadd g tx ty d a fl => exact Laws.Encoding.tdadd g tx ty d a fl
  | twait g tile d a => exact Laws.Encoding.twait g tile d a
  | tcode g d a fl => exact Laws.Encoding.tcode g d a fl
  | tlu x => exact Laws.Encoding.tlu x
  | tchol x => exact Laws.Encoding.tchol x
  | tqr x => exact Laws.Encoding.tqr x
  | ttrsm tr unit up x => exact Laws.Encoding.ttrsm tr unit up x
  | pvap g tile pv inv d fl => exact Laws.Encoding.pvap g tile pv inv d fl
  | tstat g fl tile d => exact Laws.Encoding.tstat g fl tile d
  | handle g id d off entry => exact Laws.Encoding.handle g id d off entry
  | endh g => exact Laws.Encoding.endh g
  | perform g multi id => exact Laws.Encoding.perform g multi id
  | resume g a => exact Laws.Encoding.resume g a
  | drop g a => exact Laws.Encoding.drop g a
  | hret g => exact Laws.Encoding.hret g
  | hstat g fl d a => exact Laws.Encoding.hstat g fl d a
  | svc g n => exact Laws.Encoding.svc g n
  | launch g d a b => exact Laws.Encoding.launch g d a b
  | sleep g absT a => exact Laws.Encoding.sleep g absT a
  | _ => exact enc_none rfl

/-- A well-formed instruction that is no event is one word, or two of which the second is its extension (R62). -/
theorem encode_words {i : Instr} (hw : i.wf = true) (he : encode i ≠ []) :
    (∃ w, encode i = [w] ∧ i.hasExt = false ∧ w < 2 ^ 64 ∧ ∀ ext, decodeWord w ext = .ok i) ∨
    (∃ w e, encode i = [w, e] ∧ i.hasExt = true ∧ w < 2 ^ 64 ∧ e < 2 ^ 64 ∧ decodeWord w e = .ok i) := by
  have law := encoding_law i hw
  split at law
  · contradiction
  · exact .inl ⟨_, ‹_›, law⟩
  · exact .inr ⟨_, _, ‹_›, law⟩
  · exact law.elim

theorem decodeBytes_encodeBytes {i : Instr} (rest : List Byte) (hw : i.wf = true) (he : encode i ≠ []) :
    decodeBytes (encodeBytes i ++ rest) = .ok (i, rest) := by
  rw [decodeBytes_eq_ok]
  obtain ⟨w, henc, hx, hlt, hdec⟩ | ⟨w, e, henc, hx, hlt, hlt', hdec⟩ := encode_words hw he
  · have hbytes : encodeBytes i ++ rest = leBytes 8 w ++ rest := by simp [encodeBytes, henc]
    rw [hbytes, take_leBytes, drop_leBytes, leNat_word hlt, hx]
    exact ⟨hdec _, by simp [length_leBytes]⟩
  · have hbytes : encodeBytes i ++ rest = leBytes 8 w ++ (leBytes 8 e ++ rest) := by simp [encodeBytes, henc]
    have hdrop : (leBytes 8 w ++ (leBytes 8 e ++ rest)).drop 16 = rest := by
      rw [← List.drop_drop (i := 8) (j := 8), drop_leBytes, drop_leBytes]
    rw [hbytes, take_leBytes, drop_leBytes, take_leBytes, leNat_word hlt, leNat_word hlt', hx]
    exact ⟨hdec, by simp [length_leBytes, hdrop, ← Nat.add_assoc]⟩

/-! Decoding, then encoding. -/

theorem encodeBytes_of_decodeBytes {bs : List Byte} {i : Instr} {rest : List Byte} (h : decodeBytes bs = .ok (i, rest)) :
    i.wf = true ∧ encode i ≠ [] ∧ encodeBytes i ++ rest = bs := by
  obtain ⟨hdec, hrest⟩ := decodeBytes_eq_ok.1 h
  obtain ⟨hw, henc⟩ := decodeWord_ok hdec
  unfold encodeBytes
  rw [henc]
  split at hrest
  · next hx =>
    obtain ⟨hlen, rfl⟩ := hrest
    have hext := leBytes_take (bs := bs.drop 8) (by simp; omega)
    have hcut : (bs.drop 8).take 8 ++ bs.drop 16 = bs.drop 8 := by
      simpa using List.take_append_drop 8 (bs.drop 8)
    exact ⟨hw, by simp [hx], by simp [hx, leBytes_take (Nat.le_trans (by decide) hlen), hext, hcut]⟩
  · next hx =>
    obtain ⟨hlen, rfl⟩ := hrest
    exact ⟨hw, by simp [hx], by simp [hx, leBytes_take hlen]⟩

/-- Settles O1, from the law of each instruction and the check of `decodeWord` that the instruction encodes to its
word. -/
theorem decodeEncode : Obligations.DecodeEncode := by
  unfold Obligations.DecodeEncode
  exact ⟨fun _ rest hw he => decodeBytes_encodeBytes rest hw he, fun _ _ _ h => encodeBytes_of_decodeBytes h⟩

/-- Settles O2: each word of the tables, evaluated. -/
theorem specWords : Obligations.SpecWords := by
  unfold Obligations.SpecWords
  decide

end Sys2Proof
end

section
/-!
PROOFS. What a step runs (R50, R52, R55), and the time that passes before it.
-/

namespace Sys2Proof.Machine

/-- Ageing touches nothing of a thread but its ageing counter and mark (R157). -/
theorem age_keeps (t : Thread) (resident : Bool) (n : Nat) : let u := t.age resident n
    (u.gid, u.tix, u.pos, u.stat, u.w, u.pr, u.fstat, u.fctl, u.hsp) =
      (t.gid, t.tix, t.pos, t.stat, t.w, t.pr, t.fstat, t.fctl, t.hsp) := by
  unfold Thread.age
  split
  · split <;> rfl
  · rfl

theorem advance_keeps (m : Mach) (t : Turn) : (advance m t).time = m.time + t.dt ∧ (advance m t).mem = m.mem ∧
    (advance m t).running = m.running ∧ (advance m t).groups = m.groups ∧
    (advance m t).threads.map (fun x => (x.gid, x.tix, x.pos, x.stat, x.w, x.pr, x.fstat, x.fctl, x.hsp)) =
      m.threads.map (fun x => (x.gid, x.tix, x.pos, x.stat, x.w, x.pr, x.fstat, x.fctl, x.hsp)) := by
  refine ⟨rfl, rfl, rfl, rfl, ?_⟩
  simp only [advance, List.map_map]
  exact List.map_congr_left fun x _ => age_keeps x _ _

/-- The word at a clause's index, read as bytes, is the word decoded with the one after it. -/
theorem decodeWord_of_bytes {w e : Nat} {i : Instr} {more : List Byte} (h : decodeBytes (leBytes 8 w ++ leBytes 8 e) = .ok (i, more))
    (hw : w < 2 ^ 64) (he : e < 2 ^ 64) : decodeWord w e = .ok i := by
  have hdec := (decodeBytes_eq_ok.1 h).1
  have htake : (leBytes 8 e).take 8 = leBytes 8 e := List.take_of_length_le (length_leBytes 8 e).le
  rwa [take_leBytes, drop_leBytes, htake, leNat_word hw, leNat_word he] at hdec

section
variable {s : State} {r : Running} {i : Instr}

theorem stepWord_undecoded {e : DecodeError} (h : decodeWord (r.code.getD r.idx 0) (r.code.getD (r.idx + 1) 0) = .error e) :
    stepWord s r = .fault .undecodedWord := by
  simp only [stepWord, Running.wordAt, h]

theorem stepWord_waits (h : decodeWord (r.code.getD r.idx 0) (r.code.getD (r.idx + 1) 0) = .ok i)
    (hi : interlocked s.m r i = true) : stepWord s r = .next s := by
  simp only [stepWord, Running.wordAt, h, if_pos hi]

theorem stepWord_performs (h : decodeWord (r.code.getD r.idx 0) (r.code.getD (r.idx + 1) 0) = .ok i)
    (hi : interlocked s.m r i = false) : stepWord s r = after (exec i ⟨s.agenda, { s.m with cur := some r.rid }⟩)
      (fun m => settle (endWord m r.rid (if i.hasExt then 2 else 1))) := by
  simp only [stepWord, Running.wordAt, h, hi, Bool.false_eq_true, if_false, Instr.wordLen, State.onMach]

end

section
variable {s : State} {t : Turn} {rest : List Turn} {rid : Nat}

theorem step_event {i : Instr} (ha : s.agenda = t :: rest) (hm : t.move = .event i) :
    step s = after (exec i ⟨rest, advance s.m t⟩) settle := by
  simp only [step, ha, hm]

theorem step_word {r : Running} (ha : s.agenda = t :: rest) (hm : t.move = .word rid)
    (hr : (advance s.m t).running.find? (fun x => x.rid == rid) = some r) :
    step s = stepWord ⟨rest, advance s.m t⟩ r := by
  simp only [step, ha, hm, hr]

theorem step_ended (ha : s.agenda = t :: rest) (hm : t.move = .word rid)
    (hr : (advance s.m t).running.find? (fun x => x.rid == rid) = none) : step s = .next ⟨rest, advance s.m t⟩ := by
  simp only [step, ha, hm, hr]

end

/-- Settles O3, by the turn's move and, for a word, by whether it decodes and whether it waits. -/
theorem stepRuns : Obligations.StepRuns := by
  unfold Obligations.StepRuns
  refine ⟨fun s ha => ?idle, fun s t rest i => step_event, ?word, fun s t rest rid => step_ended, advance_keeps⟩
  case idle => simp only [step, ha]
  case word =>
    intro s t rest rid r ha hm hr
    rw [step_word ha hm hr]
    refine ⟨fun i more hb hw he => ?_, fun e => stepWord_undecoded⟩
    have hdec := decodeWord_of_bytes hb hw he
    exact ⟨(decodeWord_ok hdec).1, stepWord_performs (s := ⟨rest, advance s.m t⟩) hdec,
      stepWord_waits (s := ⟨rest, advance s.m t⟩) hdec⟩

end Sys2Proof.Machine
end

section
/-!
PROOFS. Compact operations and paired words (R63 to R65).
-/

namespace Sys2Proof.Machine

/-! A compact operation beside its full form (R64). -/

theorem writesFlt_fadd {x : R3r} (h : x.rnd = .ne) : WritesFlt (.fadd x) x.g x.u x.d (fun m t =>
    compactVal .fadd (srcW (curK m) t x.a) (srcW (curK m) t x.b)) :=
  writesFlt fun s => by simp only [exec, execFadd, h, compactVal]

theorem writesFlt_fmul {x : R3r} (h : x.rnd = .ne) : WritesFlt (.fmul x) x.g x.u x.d (fun m t =>
    compactVal .fmul (srcW (curK m) t x.a) (srcW (curK m) t x.b)) :=
  writesFlt fun s => by simp only [exec, execFmul, h, compactVal]

/-- The high half of a word. -/
theorem high_half (a : Word) : a.toNat / 65536 % 65536 = a.toNat / 65536 := Nat.mod_eq_of_lt (by omega)

theorem writesFlt_hadd2 {x : H3} (h : x.bf = false) : WritesFlt (.hadd2 x) x.g false (.w x.d) (fun _ t =>
    compactVal .hadd2 (t.rd x.a) (t.rd x.b)) :=
  writesFlt fun s => by simp [exec, execHadd2, halves, h, compactVal, high_half]

theorem writesFlt_hmul2 {x : H3} (h : x.bf = false) : WritesFlt (.hmul2 x) x.g false (.w x.d) (fun _ t =>
    compactVal .hmul2 (t.rd x.a) (t.rd x.b)) :=
  writesFlt fun s => by simp [exec, execHmul2, halves, h, compactVal, high_half]

/-- The compact operations that set no flag. -/
theorem compactVal_flags (a b : Word) :
    ∀ op ∈ [CompactOp.add, .sub, .and, .or, .xor, .shl, .shr, .mov, .min, .max], (compactVal op a b).2 = 0 := by
  intro op hop
  fin_cases hop <;> rfl

theorem writes32_mov {x : R2} (h : x.dd = false) (b : Word) :
    Writes32 (.mov x) x.g x.u x.d (fun m t => (compactVal .mov (srcW (curK m) t x.a) b).1) :=
  writes32 fun s => by simp [exec, execMov, h, alu2, compactVal]

/-- A word of the integer class computes on 32 bits the value that its meaning is given. -/
theorem computes32_alu3 {i : R3 → Instr} {v : Word → Word → Word} {w : DWord → DWord → DWord}
    (h : ∀ x s, exec (i x) s = .next (s.onMach (fun m => alu3 m x v w))) : Computes32 i v :=
  computes32 h fun _ _ => rfl

/-- Settles O17: each value is the one that the full form's meaning computes. -/
theorem compactOperations : Obligations.CompactOperations := by
  unfold Obligations.CompactOperations
  refine ⟨?add, ?sub, ?and, ?or, ?xor, ?shl, ?shr, fun _ => writes32_mov, ?min, ?max, fun _ => writesFlt_fadd,
    fun _ => writesFlt_fmul, fun _ => writesFlt fun _ => rfl, fun _ => writesFlt fun _ => rfl, fun _ => writesFlt_hadd2,
    fun _ => writesFlt_hmul2, compactVal_flags⟩
  all_goals exact computes32_alu3 fun _ _ => rfl

/-! Paired words (R65). -/

/-- No trap is taken where none of the flags is enabled, and a word's own writes leave the enables as they are. -/
theorem arithTrap_quiet {t u : Thread} {fl : Nat} (hctl : u.fctl = t.fctl) (h : t.traps fl = 0) (r : Running) (d : Dest) (op : Nat)
    (val : Word) : Thread.arithTrap r u d op val fl = u :=
  if_pos (by rw [← h, Thread.traps, Thread.traps, hctl])

theorem setFlags_or (t : Thread) (a b : Nat) :
    t.setFlags (a ||| b) = { t with fstat := t.fstat ||| BitVec.ofNat 32 (a % 32) ||| BitVec.ofNat 32 (b % 32) } := by
  have hor : (a ||| b) % 32 = a % 32 ||| b % 32 := Nat.or_mod_two_pow (n := 5)
  rw [Thread.setFlags, hor, BitVec.ofNat_or, BitVec.or_assoc]

theorem exec_pairedInstr (op : CompactOp) (x : Paired) (s : State) :
    exec (pairedInstr op x) s = .next (s.onMach (fun m => paired m op x)) := by
  cases op <;> rfl

theorem paired_eq {m : Mach} {r : Running} (h : m.curRun = some r) (op : CompactOp) (x : Paired) :
    paired m op x = lanes m r ⟨false, 0⟩ (pairedThread r op x) := by
  simp only [paired, h, vecWord_eq h]

/-- What one thread does: a trap of the first operation is reported before one of the second. -/
theorem pairedThread_eq (r : Running) (op : CompactOp) (x : Paired) (t : Thread) : pairedThread r op x t =
    (let u := compactVal op (t.rd x.a) (t.rd x.b)
     let v := compactVal x.snd.op (t.rd x.snd.a) (t.rd x.snd.b)
     let w := { (t.wr x.d u.1).wr x.snd.d v.1 with fstat := t.fstat ||| BitVec.ofNat 32 (u.2 % 32) ||| BitVec.ofNat 32 (v.2 % 32) }
     if t.traps u.2 ≠ 0 then Thread.arithTrap r w (.w x.d) 0 u.1 u.2
     else if t.traps v.2 ≠ 0 then Thread.arithTrap r w (.w x.snd.d) 1 v.1 v.2
     else w) := by
  simp only [pairedThread, setFlags_or]
  refine if_congr Iff.rfl rfl ?_
  split
  · rfl
  · next hv => exact arithTrap_quiet (by rfl) (not_not.1 hv) _ _ _ _

/-- Settles O18, for any first operation. -/
theorem pairedWords : Obligations.PairedWords := by
  unfold Obligations.PairedWords
  intro p hp x s r hr
  have hname : p.1 x = pairedInstr p.2 x := by fin_cases hp <;> rfl
  rw [hname, exec_pairedInstr, State.onMach, paired_eq hr, funext (pairedThread_eq r p.2 x)]

end Sys2Proof.Machine
end

section
/-!
PROOFS. Clause issue (R50, R68, R142) and the ageing threshold (R157).
-/

namespace Sys2Proof.Machine

/-- The flag of a command stands in the Wait field (R307). -/
def inWait (h : Header) (x : TCmd) : Bool :=
  match x.flag with
  | some n => bit h.wait n
  | none => false

/-! What `issueClause` does with a clause that has been fetched. -/

section
variable {m : Mach} {core gid : Nat} {tixs : List Nat} {ts : List Thread} {p : Pos} {code : List Nat}

theorem issueClause_badHeader (h : (Header.ofWord (code.headD 0)).legal = false) : issueClause m core gid tixs ts p code =
    ts.foldl (fun m u => withThread m u (raised (illegal p 16 (code.headD 0)))) m := by
  simp only [issueClause, h, Bool.false_eq_true, if_false, raiseEff_eq]

theorem issueClause_badWord {i w : Nat} (h : (Header.ofWord (code.headD 0)).legal = true)
    (hb : firstBad (Header.ofWord (code.headD 0)) (m.recOf gid) 16 0 (code.drop 1) = some (i, w)) :
    issueClause m core gid tixs ts p code = ts.foldl (fun m u => withThread m u (raised (illegal p i w))) m := by
  simp only [issueClause, h, if_true, hb, raiseEff_eq]

theorem issueClause_starts (h : (Header.ofWord (code.headD 0)).legal = true)
    (hb : firstBad (Header.ofWord (code.headD 0)) (m.recOf gid) 16 0 (code.drop 1) = none)
    (hs : ts.any (startHeld m (Header.ofWord (code.headD 0))) = false) :
    issueClause m core gid tixs ts p code = startClause m core gid tixs p (Header.ofWord (code.headD 0)) code := by
  simp only [issueClause, h, if_true, hb, hs, Bool.false_eq_true, if_false]

theorem issueClause_holds {t : Thread} (h : (Header.ofWord (code.headD 0)).legal = true)
    (hb : firstBad (Header.ofWord (code.headD 0)) (m.recOf gid) 16 0 (code.drop 1) = none)
    (hs : startHeld m (Header.ofWord (code.headD 0)) t = true) (hf : waitsOnFault m (Header.ofWord (code.headD 0)) t = none)
    (hc : haltedFor m t (inWait (Header.ofWord (code.headD 0))) = none) :
    issueClause m core gid tixs [t] p code = m.updThread gid t.tix (fun u => { u with
      stat := .held, pack := 0, holdW := (Header.ofWord (code.headD 0)).wait,
      holdS := [(Header.ofWord (code.headD 0)).setA, (Header.ofWord (code.headD 0)).setB] }) := by
  simp only [issueClause, h, if_true, hb, List.any_cons, List.any_nil, Bool.or_false, hs, List.foldl_cons, List.foldl_nil, hf]
  -- The model's lambda is `inWait`, but for a matcher that only unfolding identifies with it.
  split
  · next hc' => exact nomatch hc'.symm.trans hc
  · rfl

end

/-- A started clause stands in the machine's list; its threads issue, and a demoted thread of their group that is not
among them is demoted no longer (R142, R156). -/
theorem startClause_eq (m : Mach) (core gid : Nat) (tixs : List Nat) (p : Pos) (h : Header) (code : List Nat) :
    startClause m core gid tixs p h code = ({ m with
        nextId := m.nextId + 2
        running := m.running ++ [{
          rid := m.nextId + 1, core := core, gid := gid, hdr := p.hdr, count := h.count,
          setA := h.setA, setB := h.setB, yield := h.yield, code := code.drop 1, idx := p.idx, tixs := tixs, act := tixs }]
        threads := m.threads.map (fun u =>
          if u.gid = gid ∧ u.tix ∈ tixs then
            { u with
              stat := .issuing, pack := m.nextId + 1, ageing := 0, aged := false, poll := false, retrying := false
              demoted := u.demoted && decide (tixs.length = 1), nextChunk := none }
          else if u.gid = gid then { u with demoted := false } else u) } : Mach).updCore core (fun k =>
        { k with yielded := if h.yield then tixs.map (fun x => (gid, x)) else [] }) := by
  simp only [startClause, Bool.and_eq_true, beq_iff_eq, List.contains_iff_mem]

/-- A pending flag of the Wait field refuses the start. -/
theorem startHeld_of_pending {m : Mach} {h : Header} {t : Thread} {f : Nat} (hw : h.wait / 2 ^ f % 2 = 1) (hf : f < 12)
    (hc : flagCount m t f ≠ 0) : startHeld m h t = true := by
  unfold startHeld flagsRefuse
  have hany : (List.range 12).any (fun n => h.wait / 2 ^ n % 2 == 1 && flagCount m t n != 0) = true :=
    List.any_eq_true.2 ⟨f, List.mem_range.2 hf, by simp [hw, hc]⟩
  rw [hany, Bool.true_or]

theorem filterMap_of_map_some {α β : Type} {f : α → Option β} {l : List α} {r : List β} (h : l.map f = r.map some) :
    l.filterMap f = r := by
  have e := congrArg (List.filterMap id) h
  simpa [List.filterMap_map] using e

theorem exec_clauseIssue (core gid : Nat) (tixs : List Nat) (s : State) :
    exec (.clauseIssue core gid tixs) s = execClauseIssue core gid tixs s := rfl

/-- An issue that nothing stands against is what `issueClause` does with the fetched clause. -/
theorem clauseIssue_issues {s : State} {core gid : Nat} {tixs : List Nat} {ts : List Thread} {t : Thread} {m : Mach} {code : List Nat}
    (hts : tixs.map (fun i => s.m.thread? gid i) = ts.map some) (ht : ts.head? = some t) (hcore : s.m.coreOf gid = core)
    (hg : groupRuns s.m gid = true) (hp : packOk s.m core gid tixs ts = true) (hi : mayIssue s.m core gid tixs ts = true)
    (hc : coreIssues s.m core = true) (hf : fetchClause s.m (whoOf s.m gid) t.pos.hdr = .ok m code) :
    exec (.clauseIssue core gid tixs) s = .next ⟨s.agenda, issueClause m core gid tixs ts t.pos code⟩ := by
  have hmem : tixs.filterMap (fun i => s.m.thread? gid i) = ts := filterMap_of_map_some hts
  have hhead : ts.headD { gid := gid, tix := 0 } = t := by rw [List.headD_eq_head?_getD, ht, Option.getD_some]
  have hgo : ¬ (s.m.coreOf gid ≠ core ∨ (!groupRuns s.m gid) = true ∨ (!packOk s.m core gid tixs ts) = true ∨
      (!mayIssue s.m core gid tixs ts) = true ∨ (!coreIssues s.m core) = true) := by simp [hcore, hg, hp, hi, hc]
  simp only [exec_clauseIssue, execClauseIssue, State.onMach, hmem, if_neg hgo, hhead, hf]

theorem ageingThreshold_marks {s : State} {gid tix : Nat} {t : Thread} (ht : s.m.thread? gid tix = some t) :
    exec (.ageingThreshold gid tix) s = .next ⟨s.agenda, withThread s.m t (fun u =>
      if u.stat = .ready ∧ 4096 ≤ u.ageing then { u with aged := true } else u)⟩ := by
  obtain ⟨rfl, rfl⟩ := thread?_gid ht
  rfl

/-- Settles O30: a clause that may be issued is started, held or illegal, by its header, its words and its flags. -/
theorem clauseIssue : Obligations.ClauseIssue := by
  unfold Obligations.ClauseIssue
  refine ⟨fun s core gid tixs ts t m code hts ht hcore hg hp hi hc hf => ?_, fun s gid tix t => ageingThreshold_marks⟩
  have hexec := clauseIssue_issues hts ht hcore hg hp hi hc hf
  refine ⟨fun h hb hs => ?starts, fun i w h hb => ?badWord, fun h => ?badHeader, fun h hb ho hs hw hh => ?holds,
    fun f => startHeld_of_pending⟩
  case starts => rw [hexec, issueClause_starts h hb hs, startClause_eq]
  case badWord => rw [hexec, issueClause_badWord h hb]; rfl
  case badHeader => rw [hexec, issueClause_badHeader h]; rfl
  case holds =>
    subst ho
    obtain ⟨i, -, hthread⟩ := List.map_eq_singleton_iff.1 hts
    obtain ⟨rfl, -⟩ := thread?_gid hthread
    rw [hexec, issueClause_holds h hb hs hw hh, updThread_eq]

end Sys2Proof.Machine
end

section
/-!
PROOFS. The order of a pack's threads (R92, R93, R175): a word is performed thread by thread, and its meaning for one
thread does not read which others take part.
-/

namespace Sys2Proof.Machine

/-! A word in turn. -/

/-- `h` for each thread of the clause that performs the word (R93), in the order of the clause's list. -/
def inTurn (m : Mach) (r : Running) (g : Guard) (h : Mach → Running → Thread → Mach) : Mach :=
  r.act.foldl (fun m n =>
    match m.thread? r.gid n with
    | some t => if r.sel g t then h m r t else m
    | none => m) m

theorem seqWord_eq {m : Mach} {r : Running} (h : m.curRun = some r) (g : Guard) (f : Mach → Running → Thread → Mach) :
    seqWord m g f = inTurn m r g f := by
  rw [seqWord, h]
  rfl

/-- A stall is noted in its clause only, so the threads that come after are found as they were. -/
theorem thread?_stallAt (m : Mach) (rid tix g n : Nat) : (stallAt m rid tix).thread? g n = m.thread? g n := rfl

/-- A whole stall is the stall of each performer in turn: no turn changes who the later performers are. -/
theorem stallWord_eq {m : Mach} {r : Running} (h : m.curRun = some r) (g : Guard) :
    stallWord m g = inTurn m r g (fun m r t => stallAt m r.rid t.tix) := by
  rw [stallWord, h, performers_eq h, inTurn]
  simp only [List.foldl_filterMap]
  refine (List.foldl_rel (r := fun k k' => k = k' ∧ ∀ n, k.thread? r.gid n = m.thread? r.gid n) ⟨rfl, fun _ => rfl⟩ ?_).1
  rintro n - k _ ⟨rfl, hsame⟩
  rw [hsame n]
  cases m.thread? r.gid n with
  | none => exact ⟨rfl, hsame⟩
  | some t =>
    cases hs : r.sel g t with
    | false => simpa [hs] using hsame
    | true => simpa [hs, thread?_stallAt] using hsame

theorem mem_performers {m : Mach} {r : Running} (h : m.curRun = some r) (g : Guard) (t : Thread) :
    t ∈ performers m g ↔ ∃ n ∈ r.act, m.thread? r.gid n = some t ∧ r.sel g t = true := by
  rw [performers_eq h, List.mem_filterMap]
  refine exists_congr fun n => and_congr_right fun _ => ?_
  cases m.thread? r.gid n with
  | none => simp
  | some u =>
    simp only [Option.ite_none_right_eq_some, Option.some.injEq]
    exact ⟨fun ⟨hs, he⟩ => ⟨he, he ▸ hs⟩, fun ⟨he, hs⟩ => ⟨he ▸ hs, he⟩⟩

/-! What does not read who takes part. -/

/-- A thread's part in a word, `f`, is the same whichever threads of the pack still have the word to do. -/
def IgnoresAct {α : Type} (f : Mach → Running → Thread → α) : Prop :=
  ∀ m r t as, f m { r with act := as } t = f m r t

/-- An escaping word (R188) asks of the clause only its core, its position and its stalls. -/
theorem IgnoresAct.escDo {f : Mach → Running → Thread → Mach} (hf : IgnoresAct f) (cause len : Nat) :
    IgnoresAct (fun m r t => escDo m r t cause len (f m r t)) := by
  intro m r t as
  show Machine.escDo m r t cause len (f m { r with act := as } t) = _
  rw [hf]

/-! From a meaning to the order of its threads. -/

theorem inOrder_of_seqWord {i : Instr} {g : Guard} {f : Mach → Running → Thread → Mach}
    (hi : ∀ s, exec i s = .next (s.onMach (fun m => seqWord m g f))) (hf : IgnoresAct f) : InOrder i g := by
  refine ⟨f, hf, fun s r hr => ?_⟩
  rw [hi, State.onMach, seqWord_eq hr]
  rfl

theorem inOrder_of_escWord {i : Instr} {g : Guard} {f : Mach → Running → Thread → Mach} {cause len : Nat}
    (hi : ∀ s, exec i s = .next (s.onMach (fun m => escWord m g cause len f))) (hf : IgnoresAct f) : InOrder i g :=
  inOrder_of_seqWord hi (hf.escDo cause len)

theorem inOrder_of_fxWord {i : Instr} {g : Guard} {len : Nat} {esc quiet : Bool}
    {plan : Running → Mach → Thread → Except FxStop FxPlan} (hi : ∀ s, exec i s = .next (s.onMach (fun m => fxWord m g len esc plan quiet)))
    (hp : ∀ r as, plan { r with act := as } = plan r) : InOrder i g := by
  refine inOrder_of_seqWord (f := fun m r t => fxThread m r t len esc (plan r) quiet) hi (fun m r t as => ?_)
  show fxThread m { r with act := as } t len esc (plan { r with act := as }) quiet = _
  rw [hp]
  rfl

theorem inOrderOnceReady_of_seqWord {i : Instr} {g : Guard} {waits : Mach → Running → Thread → Bool}
    {f : Mach → Running → Thread → Mach} (hi : ∀ s, exec i s = .next (s.onMach (fun m => relWord m g waits (seqWord m g f))))
    (hw : IgnoresAct waits) (hf : IgnoresAct f) : InOrderOnceReady i g := by
  refine ⟨waits, f, fun m r t as => ⟨hw m r t as, hf m r t as⟩, fun s r hr => ?_⟩
  have hwaits : (performers s.m g).any (waits s.m r) = true ↔
      ∃ n ∈ r.act, ∃ t, s.m.thread? r.gid n = some t ∧ r.sel g t = true ∧ waits s.m r t = true := by
    simp only [List.any_eq_true, mem_performers hr]
    exact ⟨fun ⟨t, ⟨n, hn, ht, hs⟩, hwt⟩ => ⟨n, hn, t, ht, hs, hwt⟩, fun ⟨n, hn, t, ht, hs, hwt⟩ => ⟨t, ⟨n, hn, ht, hs⟩, hwt⟩⟩
  rw [hi, State.onMach, relWord, hr]
  by_cases hwait : (performers s.m g).any (waits s.m r) = true
  · simp only [hwait, if_true, if_pos (hwaits.1 hwait), stallWord_eq hr]
    rfl
  · simp only [hwait, if_neg (mt hwaits.2 hwait), seqWord_eq hr]
    rfl

theorem inOrderOnceReady_of_escWord {i : Instr} {g : Guard} {waits : Mach → Running → Thread → Bool}
    {f : Mach → Running → Thread → Mach} {cause len : Nat}
    (hi : ∀ s, exec i s = .next (s.onMach (fun m => relWord m g waits (escWord m g cause len f))))
    (hw : IgnoresAct waits) (hf : IgnoresAct f) : InOrderOnceReady i g :=
  inOrderOnceReady_of_seqWord hi hw (hf.escDo cause len)

/-- Settles O4: each word is one thread's part taken in turn, behind a whole stall where it releases; no part asks of
its clause more than its core, its position and its flags, so the threads that take part with it do not matter. -/
theorem packOrder : Obligations.PackOrder := by
  unfold Obligations.PackOrder
  refine ⟨?bra, ?jmp, ?call, ?callr, ?ret, ?rjarm, ?rjwait, ?exit, ?brk, ?swr, ?ftld, ?ld, ?st, ?lds, ?sts, ?ldx, ?stx,
    ?atom, ?red, ?atoms, ?fence, ?acqr, ?waita, ?cpy, ?tlwait, ?tlread, ?pref, ?chend, ?chstat, ?bar, ?barv, ?barw, ?barst,
    ?tzero, ?tld, ?tst, ?tmma, ?tdadd, ?twait, ?tcode, ?tlu, ?tchol, ?tqr, ?ttrsm, ?pvap, ?tstat,
    ?handle, ?endh, ?perform, ?resume, ?drop, ?hret, ?hstat, ?svc, ?launch, ?sleep⟩
  case bra | jmp | call | callr | ret | rjarm | rjwait | exit | brk | swr | ld | lds | sts | ldx | atom | atoms | acqr |
      tlread | pref | chend | chstat | barst | tstat =>
    intros
    exact inOrder_of_seqWord (fun _ => rfl) (fun _ _ _ _ => rfl)
  case ftld | stx | waita | cpy | tlwait | barw | tzero | tld | tst | tmma | tdadd | twait | tcode | tlu | tchol | tqr |
      ttrsm | pvap | sleep =>
    intros
    exact inOrder_of_escWord (fun _ => rfl) (fun _ _ _ _ => rfl)
  case handle | endh | perform | resume | drop | hret | hstat =>
    intros
    exact inOrder_of_fxWord (fun _ => rfl) (fun _ _ => rfl)
  case st | red | fence =>
    intros
    exact inOrderOnceReady_of_seqWord (fun _ => rfl) (fun _ _ _ _ => rfl) (fun _ _ _ _ => rfl)
  case bar | barv | svc | launch =>
    intros
    exact inOrderOnceReady_of_escWord (fun _ => rfl) (fun _ _ _ _ => rfl) (fun _ _ _ _ => rfl)

end Sys2Proof.Machine
end

section
/-!
PROOFS. Two-source integer operations, division and the rest of the integer arithmetic (R101 to R103).
-/

namespace Sys2Proof.Machine

/-! The values of Table 5-4, on the numbers that the operands are. -/

section
variable {n : Nat} (a b : BitVec n)

theorem sub_eq_ofInt : a - b = BitVec.ofInt n ((a.toNat : Int) - b.toNat) := by
  rw [Int.sub_eq_add_neg, BitVec.ofInt_add, BitVec.ofInt_neg, BitVec.sub_eq_add_neg]
  simp

theorem mul_eq_ofNat : a * b = BitVec.ofNat n (a.toNat * b.toNat) := by
  rw [BitVec.ofNat_mul]
  simp

theorem shlN_eq_ofNat : shlN a b = BitVec.ofNat n (a.toNat * 2 ^ (b.toNat % n)) :=
  BitVec.eq_of_toNat_eq (by simp [shlN, Nat.shiftLeft_eq])

theorem shrN_eq_ofNat : shrN a b = BitVec.ofNat n (a.toNat / 2 ^ (b.toNat % n)) := by
  rw [← Nat.shiftRight_eq_div_pow, ← BitVec.toNat_ushiftRight, BitVec.ofNat_toNat, BitVec.setWidth_eq, shrN]

theorem sraN_eq_ofInt : sraN a b = BitVec.ofInt n (a.toInt / 2 ^ (b.toNat % n)) := by
  have h := congrArg (BitVec.ofInt n) (BitVec.toInt_sshiftRight (x := a) (n := b.toNat % n))
  rwa [BitVec.ofInt_toInt, Int.shiftRight_eq_div_pow] at h

theorem minS_eq_ite : minS a b = if a.toInt ≤ b.toInt then a else b := by
  simp only [minS, BitVec.slt_iff_toInt_lt, ← not_le, ite_not]

theorem maxS_eq_ite : maxS a b = if b.toInt ≤ a.toInt then a else b := by
  simp only [maxS, BitVec.slt_iff_toInt_lt, ← not_le, ite_not]

theorem minU_eq_ite : minU a b = if a.toNat ≤ b.toNat then a else b := by
  simp only [minU, BitVec.ult_iff_toNat_lt, ← not_le, ite_not]

theorem maxU_eq_ite : maxU a b = if b.toNat ≤ a.toNat then a else b := by
  simp only [maxU, BitVec.ult_iff_toNat_lt, ← not_le, ite_not]

theorem shladd_eq_ofNat (sh : Nat) : (a <<< sh) + b = BitVec.ofNat n (a.toNat * 2 ^ sh + b.toNat) :=
  BitVec.eq_of_toNat_eq (by simp [Nat.shiftLeft_eq])

end

theorem rolN_eq (a b : Word) : rolN a b = if b.toNat % 32 = 0 then a
    else (a <<< (b.toNat % 32)) ||| (a >>> (32 - b.toNat % 32)) := by
  rw [rolN, BitVec.rotateLeft_def, Nat.mod_mod]
  split
  · next h => rw [h, Nat.sub_zero, BitVec.shiftLeft_zero, BitVec.ushiftRight_eq_zero le_rfl, BitVec.or_zero]
  · rfl

/-- Settles O7: each value is that of Table 5-4 on the numbers that the operands are. -/
theorem twoSourceOperations : Obligations.TwoSourceOperations := by
  unfold Obligations.TwoSourceOperations
  refine ⟨?add, ?addD, ?sub, ?subD, ?mul, ?mulh, ?mulhu, ?and, ?andD, ?or, ?orD, ?xor, ?xorD, ?andn, ?shl, ?shlD, ?shr,
    ?shrD, ?sra, ?sraD, ?rol, ?min, ?minD, ?max, ?maxD, ?minu, ?maxu⟩
  case mulh | mulhu | and | or | xor | andn => exact computes32_alu3 fun _ _ => rfl
  case andD | orD | xorD => exact computes64 (fun _ _ => rfl) fun _ _ => rfl
  case add => exact computes32 (fun _ _ => rfl) BitVec.add_def
  case addD => exact computes64 (fun _ _ => rfl) BitVec.add_def
  case sub => exact computes32 (fun _ _ => rfl) sub_eq_ofInt
  case subD => exact computes64 (fun _ _ => rfl) sub_eq_ofInt
  case mul => exact computes32 (fun _ _ => rfl) mul_eq_ofNat
  case shl => exact computes32 (fun _ _ => rfl) shlN_eq_ofNat
  case shlD => exact computes64 (fun _ _ => rfl) shlN_eq_ofNat
  case shr => exact computes32 (fun _ _ => rfl) shrN_eq_ofNat
  case shrD => exact computes64 (fun _ _ => rfl) shrN_eq_ofNat
  case sra => exact computes32 (fun _ _ => rfl) sraN_eq_ofInt
  case sraD => exact computes64 (fun _ _ => rfl) sraN_eq_ofInt
  case rol => exact computes32 (fun _ _ => rfl) rolN_eq
  case min => exact computes32 (fun _ _ => rfl) minS_eq_ite
  case minD => exact computes64 (fun _ _ => rfl) minS_eq_ite
  case max => exact computes32 (fun _ _ => rfl) maxS_eq_ite
  case maxD => exact computes64 (fun _ _ => rfl) maxS_eq_ite
  case minu => exact computes32 (fun _ _ => rfl) minU_eq_ite
  case maxu => exact computes32 (fun _ _ => rfl) maxU_eq_ite

/-! Division (R102). -/

theorem remS_eq (a b : Word) :
    remS a b = if b = 0 then a else BitVec.ofInt 32 (a.toInt - b.toInt * a.toInt.tdiv b.toInt) := by
  rw [remS, Int.tmod_def]

theorem divU_eq (a b : Word) : divU a b = if b = 0 then 0xFFFFFFFF else BitVec.ofNat 32 (a.toNat / b.toNat) := by
  rw [divU, ← BitVec.toNat_udiv, BitVec.ofNat_toNat, BitVec.setWidth_eq]
  rfl

theorem remU_eq (a b : Word) : remU a b = if b = 0 then a else BitVec.ofNat 32 (a.toNat % b.toNat) := by
  rw [remU, ← BitVec.toNat_umod, BitVec.ofNat_toNat, BitVec.setWidth_eq]
  rfl

/-- The one quotient that no word holds: the dividend stays (R102). -/
theorem divS_overflow : divS 0x80000000 0xFFFFFFFF = 0x80000000 := by decide

theorem remS_overflow : remS 0x80000000 0xFFFFFFFF = 0 := by decide

/-- A two-source word whose sources are the same two numbers in every thread gives each performer one result. -/
theorem exec_of_sources {i : R3 → Instr} {f : Word → Word → Word} (h : Computes32 i f) {x : R3} (hd : x.dd = false)
    (hu : x.u = false) {n : Nat} (hn : x.d = .w n) {s : State} {r : Running} (hr : s.m.curRun = some r) {a b : Word}
    (hsrc : ∀ t ∈ s.m.threads, srcW (curK s.m) t x.a = a ∧ srcW (curK s.m) t x.b = b) :
    exec (i x) s = .next ⟨s.agenda, lanes s.m r x.g (fun t => t.wr n (f a b))⟩ := by
  rw [(h x hd).1 n hn hu s r hr, lanes, lanes]
  congr 3
  refine List.map_congr_left fun t ht => ?_
  obtain ⟨ha, hb⟩ := hsrc t ht
  simp only [ha, hb]

/-- Settles O8; its corners are the two values that the quotient and the remainder have there. -/
theorem division : Obligations.Division := by
  unfold Obligations.Division
  have hdiv : Computes32 .div divS := computes32_alu3 fun _ _ => rfl
  have hrem : Computes32 .rem remS := computes32_alu3 fun _ _ => rfl
  refine ⟨hdiv, computes32 (fun _ _ => rfl) remS_eq, computes32 (fun _ _ => rfl) divU_eq,
    computes32 (fun _ _ => rfl) remU_eq, fun x hd hu n hn s r hr hcorner => ⟨?_, ?_⟩⟩
  · rw [exec_of_sources hdiv hd hu hn hr hcorner, divS_overflow]
  · rw [exec_of_sources hrem hd hu hn hr hcorner, remS_overflow]

/-! The rest of the arithmetic (R103). -/

theorem mad_eq_ofNat (a b c : Word) : a * b + c = BitVec.ofNat 32 (a.toNat * b.toNat + c.toNat) := by
  rw [BitVec.ofNat_add, ← mul_eq_ofNat, BitVec.ofNat_toNat, BitVec.setWidth_eq]

theorem abs_eq_natAbs (a : Word) : (if a.slt 0 then -a else a) = BitVec.ofNat 32 a.toInt.natAbs := by
  simp only [← BitVec.ofInt_natCast, BitVec.slt_iff_toInt_lt]
  split
  · next h => rw [Int.ofNat_natAbs_of_nonpos h.le, BitVec.ofInt_neg, BitVec.ofInt_toInt]
  · next h => rw [Int.natAbs_of_nonneg (not_lt.1 h), BitVec.ofInt_toInt]

/-- The leading zeros of a word are told by the powers of two about it. -/
theorem clzW_unique {f : Word → Word} (h0 : f 0 = 32)
    (h : ∀ a, a ≠ 0 → (f a).toNat < 32 ∧ 2 ^ (31 - (f a).toNat) ≤ a.toNat ∧ a.toNat < 2 ^ (32 - (f a).toNat)) (a : Word) :
    clzW a = f a := by
  unfold clzW
  split
  · next ha => rw [ha, h0]
  · next ha =>
    obtain ⟨hlt, hlo, hhi⟩ := h a ha
    have hne : a.toNat ≠ 0 := fun hz => ha (BitVec.eq_of_toNat_eq hz)
    have hlog : Nat.log2 a.toNat = 31 - (f a).toNat :=
      (Nat.log2_eq_iff hne).2 ⟨hlo, by rwa [show 31 - (f a).toNat + 1 = 32 - (f a).toNat by omega]⟩
    rw [hlog, show 31 - (31 - (f a).toNat) = (f a).toNat by omega, BitVec.ofNat_toNat, BitVec.setWidth_eq]

theorem sum_map_toNat (p : Nat → Bool) (l : List Nat) : (l.map (fun i => (p i).toNat)).sum = l.countP p := by
  induction l with
  | nil => rfl
  | cons i l ih => cases hp : p i <;> simp [hp, ih, Nat.add_comm]

theorem reverse_unique {f : Word → Word} (h : ∀ a i, i < 32 → (f a).getLsbD (31 - i) = a.getLsbD i) (a : Word) :
    a.reverse = f a := by
  refine BitVec.eq_of_getLsbD_eq fun i hi => ?_
  have hf := h a (31 - i) (by omega)
  rw [show 31 - (31 - i) = i by omega] at hf
  rw [BitVec.getLsbD_reverse, BitVec.getMsbD_eq_getLsbD, hf]
  simp [hi]

/-- Settles O9: each word by its value, and `clz` and `brev` by what their results are characterised by. -/
theorem remainingArithmetic : Obligations.RemainingArithmetic := by
  unfold Obligations.RemainingArithmetic
  refine ⟨fun x => writes32 fun s => ?mad, fun sh => computes32 (fun _ _ => rfl) (shladd_eq_ofNat · · sh),
    fun sh => computes64 (fun _ _ => rfl) (shladd_eq_ofNat · · sh), computes1 (fun _ _ => rfl) abs_eq_natAbs,
    fun f h0 h => computes1 (fun _ _ => rfl) (clzW_unique h0 h), computes1 (fun _ _ => rfl) fun a => ?popc,
    fun f h => computes1 (fun _ _ => rfl) (reverse_unique h)⟩
  case mad => simp only [exec, execMad, mad_eq_ofNat]
  case popc => rw [popcW, sum_map_toNat]

end Sys2Proof.Machine
end

section
/-!
PROOFS. Bit-field operations (R104).
-/

namespace Sys2Proof.Machine

theorem computesField {i : Bf → Instr} {v f : Word → Word → Word → Word → Word}
    (h : ∀ x s, exec (i x) s = .next (s.onMach (fun m => bitField m x v))) (e : ∀ d a b c, v d a b c = f d a b c) :
    ComputesField i f := by
  intro x
  exact writes32 fun s => by simp only [h, bitField, e]

/-- The bits of a mask of `n` ones that stand from bit `p`. -/
theorem getLsbD_onesAt {i : Nat} (n p : Nat) (hi : i < 32) :
    (BitVec.ofNat 32 ((2 ^ n - 1) * 2 ^ p)).getLsbD i = decide (p ≤ i ∧ i < p + n) := by
  have hsub : p ≤ i → (i - p < n ↔ i < p + n) := by omega
  rw [BitVec.getLsbD_ofNat, Nat.testBit_mul_two_pow, Nat.testBit_two_pow_sub_one, decide_eq_true hi, Bool.true_and,
    ← Bool.decide_and]
  exact decide_eq_decide.2 (and_congr_right hsub)

/-- `bfi` takes the field's bits from its source, and the others from its destination. -/
theorem getLsbD_bfiW {i : Nat} (d a b c : Word) (hi : i < 32) : (bfiW d a b c).getLsbD i =
    if fieldPos b ≤ i ∧ i < fieldPos b + fieldBits b c then a.getLsbD (i - fieldPos b) else d.getLsbD i := by
  have hmask : (BitVec.ofNat 32 ((2 ^ fieldLen b c - 1) * 2 ^ (b.toNat % 32))).getLsbD i =
      decide (fieldPos b ≤ i ∧ i < fieldPos b + fieldBits b c) := getLsbD_onesAt _ _ hi
  simp only [bfiW, BitVec.getLsbD_or, BitVec.getLsbD_and, BitVec.getLsbD_not, hmask, BitVec.getLsbD_shiftLeft]
  rw [← fieldPos]
  split
  · next h => simp [h, hi]
  · next h => simp [h, hi]

theorem bfiW_unique {f : Word → Word → Word → Word → Word}
    (h : ∀ d a b c i, i < 32 → (f d a b c).getLsbD i =
      if fieldPos b ≤ i ∧ i < fieldPos b + fieldBits b c then a.getLsbD (i - fieldPos b) else d.getLsbD i)
    (d a b c : Word) : bfiW d a b c = f d a b c :=
  BitVec.eq_of_getLsbD_eq fun i hi => by rw [getLsbD_bfiW d a b c hi, h d a b c i hi]

/-- Settles O10: `bfxu` and `bfx` by their values, and `bfi` bit by bit. -/
theorem bitFields : Obligations.BitFields := by
  unfold Obligations.BitFields
  exact ⟨computesField (fun _ _ => rfl) fun _ _ _ _ => rfl, computesField (fun _ _ => rfl) fun _ _ _ _ => rfl,
    fun f h => computesField (fun _ _ => rfl) (bfiW_unique h)⟩

end Sys2Proof.Machine
end

section
/-!
PROOFS. Comparisons, selects, moves, predicates, special registers and random numbers (R105 to R113).
-/

namespace Sys2Proof.Machine

/-! Comparisons and selects (R105, R106). -/

/-- A condition holds of two operands when it holds of the numbers that they are (Table 5-4). -/
theorem condHolds_eq_condOn {n : Nat} (c : Cond) (a b : BitVec n) : condHolds c a b = condOn c a b := by
  cases c with
  | eq => simp only [condHolds, condOn, beq_eq_decide, BitVec.toNat_eq]
  | ne => simp only [condHolds, condOn, bne, beq_eq_decide, BitVec.toNat_eq, decide_not]
  | lt | le | gt | ge => rfl
  | ltu | leu | gtu | geu => rfl

/-- Settles O11, from the conditions on numbers. -/
theorem compareAndSelect : Obligations.CompareAndSelect := by
  unfold Obligations.CompareAndSelect
  refine ⟨fun cc x hd => writesPred fun s => ?cmp, fun cc x hd => writesPred fun s => ?cmpD,
    fun cc => computes32 (fun _ _ => rfl) fun a b => ?set, fun _ _ => rfl, fun _ _ _ => writes32 fun _ => rfl⟩
  case cmp | cmpD => simp [exec, execCmp, hd, condHolds_eq_condOn]
  case set => rw [condHolds_eq_condOn]

/-! Moves (R108). -/

/-- `movi` to a uniform register is written once, where a thread performs it. -/
theorem uniformOnce_movi (g : Guard) (d : Nat) (imm : Int) :
    UniformOnce (.movi g 2 d imm) g d (fun _ _ => BitVec.ofInt 32 imm) := by
  intro s r l hr hl
  simp [exec, execMovi, State.onMach, hl, putK, hr, Mach.updGroup]

/-- Settles O12: each move by the destination form that its meaning sets. -/
theorem moves : Obligations.Moves := by
  unfold Obligations.Moves
  refine ⟨fun x hd => writes32_mov hd 0, fun x hd => writes64 fun s => ?_, fun _ _ _ => eachThread fun _ => rfl,
    fun _ _ _ => eachThread fun _ => rfl, uniformOnce_movi, fun _ _ _ => eachThread fun _ => rfl, fun _ _ => rfl⟩
  simp [exec, execMov, hd]

/-! Predicate registers (R107). -/

/-- The one bit of a power of two. -/
theorem getLsbD_one_shiftLeft {n p : Nat} (hp : p < n) (q : Nat) : (1#n <<< p).getLsbD q = decide (p = q) := by
  rw [← BitVec.twoPow, BitVec.getLsbD_twoPow, decide_eq_true hp, Bool.true_and]

/-- A read of a predicate after a write of one. -/
theorem Thread.rdP_wrP (t : Thread) {p q : Nat} (v : Bool) (hp : 0 < p) (hp8 : p < 8) (hq : 0 < q) (hq8 : q < 8) :
    (t.wrP p v).rdP q = if q = p then v else t.rdP q := by
  have hbit := getLsbD_one_shiftLeft hp8 q
  rw [wrP, if_neg hp.ne', rdP, if_neg hq.ne', rdP, if_neg hq.ne']
  cases v with
  | true =>
    rw [if_pos rfl, BitVec.getLsbD_or, hbit]
    obtain rfl | h := eq_or_ne p q
    · simp
    · simp [h, h.symm]
  | false =>
    rw [if_neg Bool.false_ne_true, BitVec.getLsbD_and, BitVec.getLsbD_not, hbit]
    obtain rfl | h := eq_or_ne p q
    · simp
    · simp [h, h.symm, hq8]

/-- Settles O13, with what a read of a predicate gives after a write of one. -/
theorem predicateCombinations : Obligations.PredicateCombinations := by
  unfold Obligations.PredicateCombinations
  exact ⟨Thread.rdP_zero, fun _ => eachThread fun _ => rfl, fun _ => eachThread fun _ => rfl, fun _ => eachThread fun _ => rfl,
    fun t p q v => t.rdP_wrP v⟩

/-! Special registers (R110, R111). -/

section
variable {m : Mach} {t : Thread} {x : Group} (h : m.group? t.gid = some x)
include h

theorem coreOf_eq : m.coreOf t.gid = x.core := by rw [Mach.coreOf, h]

theorem dieOf_eq : m.dieOf t.gid = x.die := by rw [Mach.dieOf, h]

theorem widT_eq : widT m t = widOf (m.recOf t.gid) x.gix t.tix := by rw [widT, h]

end

theorem loW_zeroExtend (v : Word) : loW (v.zeroExtend 64) = v := by
  rw [loW]
  simp

/-- A write of a special register by the one thread of its pack (R111). -/
theorem swr_alone {s : State} {r : Running} {t : Thread} {g : Guard} (h : Alone s r t g) {n a : Nat}
    (hn : n ≠ 13) : exec (.swr g n a) s = .next ⟨s.agenda, withThread s.m t (fun u =>
      sregWrite u n (if sregWide n then t.rdD a else (t.rd a).zeroExtend 64))⟩ := by
  simp only [exec, execSwr, State.onMach, seqWord_alone h]
  rw [if_neg (fun hx => hn hx.1), updThread_eq]

/-- `HSP` takes a multiple of 32. -/
theorem swr_hsp_aligned {s : State} {r : Running} {t : Thread} {g : Guard} (h : Alone s r t g) {a : Nat}
    (ha : (t.rdD a).toNat % 32 = 0) :
    exec (.swr g 13 a) s = .next ⟨s.agenda, withThread s.m t (fun u => { u with hsp := t.rdD a })⟩ := by
  simp only [exec, execSwr, State.onMach, seqWord_alone h]
  rw [if_neg (fun hx => hx.2 ha)]
  rfl

/-- Another value for `HSP` is not written and raises MISALIGN. -/
theorem swr_hsp_misaligned {s : State} {r : Running} {t : Thread} {g : Guard} (h : Alone s r t g) {a : Nat}
    (ha : (t.rdD a).toNat % 32 ≠ 0) : exec (.swr g 13 a) s =
      .next ⟨s.agenda, withThread s.m t (raised (misalignAt r (t.rdD a).toNat 32 1))⟩ := by
  simp only [exec, execSwr, State.onMach, seqWord_alone h]
  rw [if_pos ⟨trivial, ha⟩]
  rfl

/-- Settles O16: what each register reads and takes, and the words of `rand` by running Philox. -/
theorem specialRegisters : Obligations.SpecialRegisters := by
  unfold Obligations.SpecialRegisters
  refine ⟨fun g u d n hn => writes64 fun s => ?wide, fun g u d n hn => writes32 fun s => ?narrow,
    fun m t x h => ?reads, fun s r t g a h => ⟨?fstat, ?fctl, swr_alone h (by decide), swr_alone h (by decide),
      swr_hsp_aligned h, swr_hsp_misaligned h⟩, fun _ _ _ _ => writes32 fun _ => rfl,
    fun _ _ => eachThread fun _ => rfl, ?r0, ?r1, ?r2, ?r3⟩
  case wide => simp only [exec, execSmov, hn, if_true]
  case narrow => simp only [exec, execSmov, hn, Bool.false_eq_true, if_false, loW]
  case reads => simp [sregRead, h, coreOf_eq h, dieOf_eq h, widT_eq h, Nat.mul_comm 4]
  case fstat | fctl =>
    rw [swr_alone h (by decide)]
    simp [sregWrite, sregWide, loW_zeroExtend]
  all_goals decide

end Sys2Proof.Machine
end

section
/-!
PROOFS. Cross-lane words (R114 to R117).
-/

namespace Sys2Proof.Machine

/-! What a participant sees. -/

theorem viewOf_participants (m : Mach) (g : Guard) (c : Nat) (t : Thread) :
    viewOf (participants m g c) c t = seen m g c t := by
  simp only [viewOf, participants, List.filter_filter, seen, Thread.lane]
  congr 1
  funext p
  ac_rfl

/-- A cross-lane word gives each participant what its meaning makes of what the participant sees. -/
theorem eachParticipant {i : Instr} {g : Guard} {c : Nat} {h : Mach → Thread → List Thread → Thread} {f : Mach → Thread → Thread}
    (hi : ∀ s, exec i s = .next (s.onMach (fun m => crossWord m g c (h m)))) (hf : ∀ m t, h m t (seen m g c t) = f m t) :
    EachParticipant i g c f := by
  refine eachThread (f := fun m t => if (t.rd c).getLsbD (t.tix % 32) then f m t else t) fun s => ?_
  simp only [hi, State.onMach, crossWord, viewOf_participants, hf, Thread.lane]

/-! Masks of lanes. -/

theorem isMask_unique {v w : Word} {ps : List Thread} (hv : IsMask v ps) (hw : IsMask w ps) : v = w :=
  BitVec.eq_of_getLsbD_eq fun j hj => by rw [hv j hj, hw j hj]

theorem getLsbD_foldl_lanes (ps : List Thread) (w : Word) (j : Nat) :
    (ps.foldl (fun m p => m ||| (1#32 <<< p.lane)) w).getLsbD j = (w.getLsbD j || ps.any (fun p => p.tix % 32 == j)) := by
  induction ps generalizing w with
  | nil => simp
  | cons p ps ih =>
    have hlane : p.lane < 32 := Nat.mod_lt _ (by decide)
    rw [List.foldl_cons, ih, BitVec.getLsbD_or, getLsbD_one_shiftLeft hlane, List.any_cons, Bool.or_assoc]
    rfl

theorem isMask_laneMask (ps : List Thread) : IsMask (laneMask ps) ps := fun j _ => by
  rw [laneMask, getLsbD_foldl_lanes ps 0 j]
  simp

/-- A word whose result is the mask of some of what a participant sees. -/
theorem eachParticipant_mask {i : Instr} {g : Guard} {c d : Nat} {h : Mach → Thread → List Thread → Thread}
    {v : Mach → Thread → List Thread} {f : Mach → Thread → Word}
    (hi : ∀ s, exec i s = .next (s.onMach (fun m => crossWord m g c (h m))))
    (hv : ∀ m t, h m t (seen m g c t) = t.wr d (laneMask (v m t))) (hf : ∀ m t, IsMask (f m t) (v m t)) :
    EachParticipant i g c (fun m t => t.wr d (f m t)) :=
  eachParticipant hi fun m t => by rw [hv, isMask_unique (isMask_laneMask _) (hf m t)]

/-! Shuffles and votes (Table 5-7). -/

theorem shflLane_eq (mode : ShflMode) (i : Nat) (b : Word) : shflLane mode i b.toNat = sourceLane mode i b := by
  cases mode <;> rfl

/-- `shfl` gives the offer of the source lane where the thread sees it, and its own where it does not. -/
theorem shflVal_unique {k : Regs} {mode : ShflMode} {a : Nat} {b : Src} {t : Thread} {v : List Thread} {w : Word}
    (hsrc : ∀ p ∈ v, ((p.tix % 32 : Nat) : Int) = sourceLane mode (t.tix % 32) (srcW k t b) → w = p.rd a)
    (hown : (∀ p ∈ v, ((p.tix % 32 : Nat) : Int) ≠ sourceLane mode (t.tix % 32) (srcW k t b)) → w = t.rd a) :
    shflVal k mode a b t v = w := by
  unfold shflVal
  simp only [shflLane_eq, Thread.lane]
  split
  · next p hp =>
    have hlane := List.find?_some hp
    exact (hsrc p (List.mem_of_find?_eq_some hp) (beq_iff_eq.1 hlane)).symm
  · next hp => exact (hown fun p hpv => by simpa using List.find?_eq_none.1 hp p hpv).symm

/-- `vote.agree` asks for one answer of all, and negating the predicate does not change whether it is one. -/
theorem agree_negated (v : List Thread) (a : Nat) (na : Bool) :
    (v.all (fun p => p.rdP a != na) || v.all (fun p => !(p.rdP a != na))) =
      (v.all (fun p => p.rdP a) || v.all (fun p => !p.rdP a)) := by
  cases na with
  | false => simp
  | true => simp [Bool.or_comm]

/-! `redux` in any order (R117). -/

section
variable {n : Nat} (a b : BitVec n)

theorem toInt_minS : (minS a b).toInt = min a.toInt b.toInt := by
  rw [minS_eq_ite, apply_ite BitVec.toInt, min_def]

theorem toInt_maxS : (maxS a b).toInt = max a.toInt b.toInt := by
  rw [maxS_eq_ite, apply_ite BitVec.toInt, max_comm, max_def]

theorem toNat_minU : (minU a b).toNat = min a.toNat b.toNat := by
  rw [minU_eq_ite, apply_ite BitVec.toNat, min_def]

theorem toNat_maxU : (maxU a b).toNat = max a.toNat b.toNat := by
  rw [maxU_eq_ite, apply_ite BitVec.toNat, max_comm, max_def]

end

theorem redCombine_comm (op : RedOp) (a b : Word) : redCombine op a b = redCombine op b a := by
  cases op with
  | add => exact BitVec.add_comm a b
  | and => exact BitVec.and_comm a b
  | or => exact BitVec.or_comm a b
  | xor => exact BitVec.xor_comm a b
  | min => exact BitVec.eq_of_toInt_eq (by simp only [redCombine, toInt_minS, min_comm])
  | max => exact BitVec.eq_of_toInt_eq (by simp only [redCombine, toInt_maxS, max_comm])
  | minu => exact BitVec.eq_of_toNat_eq (by simp only [redCombine, toNat_minU, min_comm])
  | maxu => exact BitVec.eq_of_toNat_eq (by simp only [redCombine, toNat_maxU, max_comm])

theorem redCombine_assoc (op : RedOp) (a b c : Word) :
    redCombine op (redCombine op a b) c = redCombine op a (redCombine op b c) := by
  cases op with
  | add => exact BitVec.add_assoc a b c
  | and => exact BitVec.and_assoc a b c
  | or => exact BitVec.or_assoc a b c
  | xor => exact BitVec.xor_assoc a b c
  | min => exact BitVec.eq_of_toInt_eq (by simp only [redCombine, toInt_minS, min_assoc])
  | max => exact BitVec.eq_of_toInt_eq (by simp only [redCombine, toInt_maxS, max_assoc])
  | minu => exact BitVec.eq_of_toNat_eq (by simp only [redCombine, toNat_minU, min_assoc])
  | maxu => exact BitVec.eq_of_toNat_eq (by simp only [redCombine, toNat_maxU, max_assoc])

/-- Two offers that come after a third may change places. -/
theorem redCombine_right_comm (op : RedOp) (a b c : Word) :
    redCombine op (redCombine op a b) c = redCombine op (redCombine op a c) b := by
  rw [redCombine_assoc, redCombine_comm op b c, redCombine_assoc]

theorem redTotal_perm (op : RedOp) {l l' : List Word} (h : l.Perm l') : redTotal op l = redTotal op l' := by
  induction h with
  | nil => rfl
  | cons a h _ => exact h.foldl_eq' (fun b _ c _ x => redCombine_right_comm op x b c) a
  | swap a b l => exact congrArg (l.foldl (redCombine op)) (redCombine_comm op b a)
  | trans _ _ h₁ h₂ => exact h₁.trans h₂

/-! What each operation of `redux` totals to. -/

/-- The first two offers may be combined beforehand. -/
theorem redTotal_cons_cons (op : RedOp) (a b : Word) (l : List Word) :
    redTotal op (a :: b :: l) = redTotal op (redCombine op a b :: l) := rfl

theorem redTotal_add (l : List Word) : redTotal .add l = BitVec.ofNat 32 (l.map BitVec.toNat).sum := by
  cases l with
  | nil => rfl
  | cons a l =>
    induction l generalizing a with
    | nil => simp [redTotal]
    | cons b l ih =>
      have hsum : BitVec.ofNat 32 (redCombine .add a b).toNat = a + b := by rw [BitVec.ofNat_toNat, BitVec.setWidth_eq]; rfl
      rw [redTotal_cons_cons, ih, List.map_cons, List.sum_cons, BitVec.ofNat_add, hsum]
      simp [BitVec.ofNat_add, BitVec.add_assoc]

theorem getLsbD_redTotal_and (i : Nat) (a : Word) (l : List Word) :
    (redTotal .and (a :: l)).getLsbD i = (a :: l).all (fun a => a.getLsbD i) := by
  induction l generalizing a with
  | nil => simp [redTotal]
  | cons b l ih =>
    rw [redTotal_cons_cons, ih]
    simp [redCombine, Bool.and_assoc]

theorem getLsbD_redTotal_or (i : Nat) (l : List Word) : (redTotal .or l).getLsbD i = l.any (fun a => a.getLsbD i) := by
  cases l with
  | nil => simp [redTotal]
  | cons a l =>
    induction l generalizing a with
    | nil => simp [redTotal]
    | cons b l ih =>
      rw [redTotal_cons_cons, ih]
      simp [redCombine, Bool.or_assoc]

/-- An operation that gives the one of two offers that is least by `k` gives the least of them all. -/
theorem redTotal_least {α : Type} [LinearOrder α] {op : RedOp} {k : Word → α} (hinj : Function.Injective k)
    (hk : ∀ a b, k (redCombine op a b) = min (k a) (k b)) (l : List Word) :
    ∀ c ∈ l, redTotal op l ∈ l ∧ k (redTotal op l) ≤ k c := by
  cases l with
  | nil => exact fun _ hc => absurd hc List.not_mem_nil
  | cons a l =>
    induction l generalizing a with
    | nil => simp [redTotal]
    | cons b l ih =>
      have hpick : redCombine op a b = a ∨ redCombine op a b = b :=
        (min_choice _ _).imp (hinj <| (hk a b).trans ·) (hinj <| (hk a b).trans ·)
      have htotal := ih (redCombine op a b)
      obtain ⟨hmem, hfirst⟩ := htotal _ List.mem_cons_self
      rw [hk, le_min_iff] at hfirst
      obtain ⟨ha, hb⟩ := hfirst
      intro c hc
      rw [redTotal_cons_cons]
      refine ⟨?mem, ?le⟩
      case mem =>
        obtain h | h := List.mem_cons.1 hmem
        · rw [h]; simpa using hpick.imp_right Or.inl
        · exact List.mem_cons_of_mem _ (List.mem_cons_of_mem _ h)
      case le =>
        obtain rfl | rfl | hc := List.mem_cons.1 hc |>.imp_right List.mem_cons.1
        · exact ha
        · exact hb
        · exact (htotal c (List.mem_cons_of_mem _ hc)).2

/-- Settles O19: each word by what its meaning makes of what a participant sees, and `redux` by its totals. -/
theorem crossLane : Obligations.CrossLane := by
  unfold Obligations.CrossLane
  refine ⟨⟨?shfl, ?every, ?some, ?agree, ?mask, ?redux, ?matchAny, ?matchAll, ?elect, ?lsync⟩, fun l => ?totals⟩
  case every | some | redux | elect => intros; exact eachParticipant (fun _ => rfl) fun _ _ => rfl
  case shfl =>
    intro g mode d a b c f hf
    exact eachParticipant (fun _ => rfl) fun m t => congrArg (t.wr d) (shflVal_unique (hf m t).1 (hf m t).2)
  case agree =>
    intro g na d a c
    exact eachParticipant (fun _ => rfl) fun m t => congrArg (t.wrP d) (agree_negated _ a na)
  case mask | matchAny | lsync =>
    intros
    exact eachParticipant_mask (fun _ => rfl) (fun _ _ => rfl) ‹_›
  case matchAll =>
    intro g d a c f hf
    exact eachParticipant_mask (fun _ => rfl) (fun m t => by rw [apply_ite laneMask]; rfl) hf
  case totals =>
    have hint : Function.Injective (BitVec.toInt : Word → Int) := fun _ _ => BitVec.eq_of_toInt_eq
    have hnat : Function.Injective (BitVec.toNat : Word → Nat) := fun _ _ => BitVec.eq_of_toNat_eq
    refine ⟨fun op _ => redTotal_perm op, redTotal_add l, redTotal_least hint toInt_minS l,
      redTotal_least (OrderDual.toDual.injective.comp hint) toInt_maxS l, redTotal_least hnat toNat_minU l,
      redTotal_least (OrderDual.toDual.injective.comp hnat) toNat_maxU l, fun i hne _ => ?and,
      fun i _ => getLsbD_redTotal_or i l⟩
    case and =>
      obtain ⟨a, l, rfl⟩ := List.exists_cons_of_ne_nil hne
      exact getLsbD_redTotal_and i a l

end Sys2Proof.Machine
end

section
/-!
PROOFS. What the claims about the float class share: the shapes of a value, operations on finite values, and the
destination forms of a result with flags.
-/

namespace Sys2Proof.Machine

open Round

/-! The shapes of a value. -/

theorem eq_nan {v : FVal} (h : v.isNaN = true) : ∃ s, v = .nan s := by
  cases v with
  | nan s => exact ⟨s, rfl⟩
  | inf n | fin n m e => exact absurd h Bool.false_ne_true

theorem eq_inf {v : FVal} (h : v.isInf = true) : ∃ n, v = .inf n := by
  cases v with
  | inf n => exact ⟨n, rfl⟩
  | nan s | fin n m e => exact absurd h Bool.false_ne_true

theorem eq_fin {v : FVal} (h : finite v = true) : ∃ n m e, v = .fin n m e := by
  cases v with
  | fin n m e => exact ⟨n, m, e, rfl⟩
  | nan s | inf n => exact absurd h Bool.false_ne_true

theorem eq_zero {v : FVal} (h : v.isZero = true) : ∃ n e, v = .fin n 0 e := by
  cases v with
  | fin n m e => exact ⟨n, e, by rw [beq_iff_eq.1 h]⟩
  | nan s | inf n => exact absurd h Bool.false_ne_true

/-- A nonzero finite value is negative where its sign says so. -/
theorem sign_eq_decide {v : FVal} (hv : finite v = true) (h0 : v.isZero = false) :
    v.sign = decide (((numOf v : ℚ) : ℝ) < 0) := by
  obtain ⟨n, m, e, rfl⟩ := eq_fin hv
  have hm : m ≠ 0 := by simpa [FVal.isZero] using h0
  have hpos : (0 : ℝ) < m * 2 ^ e := by positivity
  rw [numOf_fin]
  cases n <;> simp [FVal.sign] <;> linarith

/-- A finite value that is not a zero is not the number 0. -/
theorem numOf_ne_zero {v : FVal} (hv : finite v = true) (h0 : v.isZero = false) : numOf v ≠ 0 := by
  obtain ⟨n, m, e, rfl⟩ := eq_fin hv
  simpa [num0, FVal.isZero] using h0

theorem isNaN_of_finite {v : FVal} (hv : finite v = true) : v.isNaN = false := by
  obtain ⟨n, m, e, rfl⟩ := eq_fin hv
  rfl

theorem isSig_of_finite {v : FVal} (hv : finite v = true) : v.isSig = false := by
  obtain ⟨n, m, e, rfl⟩ := eq_fin hv
  rfl

/-! Operations on finite values. -/

section
variable {a b c : FVal} (ha : finite a = true) (hb : finite b = true) (hc : finite c = true)
include ha

theorem addInvalid_of_finite (b : FVal) : a.addInvalid b = false := by
  obtain ⟨n, m, e, rfl⟩ := eq_fin ha
  rfl

include hb

theorem mulInvalid_of_finite : a.mulInvalid b = false := by
  obtain ⟨n, m, e, rfl⟩ := eq_fin ha
  obtain ⟨k, l, d, rfl⟩ := eq_fin hb
  simp [FVal.mulInvalid, FVal.isInf]

include hc

/-- A fused multiply and add of finite values is valid. -/
theorem fmaV_valid (z : Bool) : (fmaV a b c z).2 = false := by
  have hp := (mul_fin ha hb).1
  simp [fmaV, isSig_of_finite ha, isSig_of_finite hb, isSig_of_finite hc, mulInvalid_of_finite ha hb, addInvalid_of_finite hp]

end

section
variable (f : Fmt) (rnd : Rnd) {a b c : Nat} (ha : finite (decodeF f a) = true) (hb : finite (decodeF f b) = true)
include ha hb

/-- On finite codes no operation is invalid: the result is that of the rounding alone. -/
theorem addF_of_finite : addF f rnd a b = roundV f rnd ((decodeF f a).add (decodeF f b) (rnd == .rm)) := by
  simp [addF, isSig_of_finite ha, isSig_of_finite hb, addInvalid_of_finite ha]

theorem mulF_of_finite : mulF f rnd a b = roundV f rnd ((decodeF f a).mul (decodeF f b)) := by
  simp [mulF, isSig_of_finite ha, isSig_of_finite hb, mulInvalid_of_finite ha hb]

theorem fmaF_of_finite (hc : finite (decodeF f c) = true) :
    fmaF f rnd a b c = roundV f rnd (((decodeF f a).mul (decodeF f b)).add (decodeF f c) (rnd == .rm)) := by
  simp [fmaF, fmaV_valid ha hb hc]
  rfl

end

/-- A finite value rounded in FP32 to nearest: a zero for 0, else one rounding of the number. -/
theorem roundV_nearest {v : FVal} (hv : finite v = true) :
    (numOf v = 0 → ((roundV FP32 .ne v).1 = 0 ∨ (roundV FP32 .ne v).1 = 0x80000000) ∧ (roundV FP32 .ne v).2 = 0) ∧
    (numOf v ≠ 0 → Rounds FP32 .ne (decide (numOf v < 0)) ((numOf v : ℚ) : ℝ) (roundV FP32 .ne v).1 (roundV FP32 .ne v).2) := by
  constructor
  · intro h0
    obtain ⟨n, m, e, rfl⟩ := eq_fin hv
    rw [(num0 n m e).1 h0, roundV_zero]
    cases n <;> simp
  · intro h0
    have hsign : decide (((numOf v : ℚ) : ℝ) < 0) = decide (numOf v < 0) := decide_eq_decide.2 Rat.cast_lt_zero
    rw [← hsign]
    exact roundV_rounds FP32 (by decide) (by decide) .ne v hv _ rfl (by exact_mod_cast h0)

/-! Register words and destination forms. -/

/-- A code and its flags, as a register receives them. -/
def word32 (v : Nat × Nat) : Word × Nat := (BitVec.ofNat 32 v.1, v.2)

/-- NV where an operation is invalid, in the two spellings of it. -/
theorem ite_fNV (b : Bool) : (if b then fNV else 0) = nvIf b := by cases b <;> rfl

/-- A two-source FP32 word whose meaning is `fp3`. -/
theorem computesFlt {i : R3 → Instr} {v : Nat → Nat → Nat × Nat} {f : Word → Word → Word × Nat}
    (h : ∀ x s, exec (i x) s = .next (s.onMach (fun m => fp3 m x v))) (e : ∀ a b : Word, word32 (v a.toNat b.toNat) = f a b) :
    ComputesFlt i f := by
  intro x
  exact writesFlt fun s => by simp only [h, fp3, ← e, word32]

theorem setFP_each {m : Mach} {r : Running} (h : m.curRun = some r) (g : Guard) (p : Nat) (f : Thread → Bool × Nat) :
    setFP m g false p f = lanes m r g (fun t =>
      Thread.arithTrap r ((t.wrP p (f t).1).setFlags (f t).2) (.pred p) 0 (if (f t).1 then 1 else 0) (f t).2) := by
  simp only [setFP, h, vecWord_eq h, Bool.false_eq_true, if_false]

theorem setFP_leader {m : Mach} {r : Running} {l : Thread} {g : Guard} (h : m.curRun = some r) (hl : leader m g = some l)
    (p : Nat) (f : Thread → Bool × Nat) : setFP m g true p f = lanes m r g (fun t =>
      Thread.arithTrap r ((t.wrP p (f l).1).setFlags (f l).2) (.pred p) 0 (if (f l).1 then 1 else 0) (f l).2) := by
  simp only [setFP, h, hl, vecWord_eq h, if_true]

theorem writesFltPred {i : Instr} {g : Guard} {u : Bool} {p : Nat} {f : Mach → Thread → Bool × Nat}
    (h : ∀ s, exec i s = .next (s.onMach (fun m => setFP m g u p (f m)))) : WritesFltPred i g u p f := by
  refine ⟨?_, ?_⟩
  · rintro rfl s r hr
    rw [h, State.onMach, setFP_each hr]
  · rintro rfl s r l hr hl
    rw [h, State.onMach, setFP_leader hr hl]

theorem writesFlt_setWide {i : Instr} {g : Guard} {dst : WFmt} {d : Nat} {f : Thread → Nat × Nat}
    (h : ∀ s, exec i s = .next (s.onMach (fun m => setWide m g dst d f))) (hd : dst ≠ .fa48) :
    WritesFlt i g false (.w d) (fun _ t => word32 (f t)) :=
  writesFlt fun s => by
    cases dst with
    | fa48 => exact absurd rfl hd
    | fp32 | fp16 | bf16 => rw [h]; rfl

theorem writesFltPair_setWide {i : Instr} {g : Guard} {d : Nat} {f : Thread → Nat × Nat}
    (h : ∀ s, exec i s = .next (s.onMach (fun m => setWide m g .fa48 d f))) :
    WritesFltPair i g d (fun _ t => (BitVec.ofNat 64 ((f t).1 * 65536), (f t).2)) :=
  writesFltPair fun s => by rw [h]; rfl

end Sys2Proof.Machine
end

section
/-!
PROOFS. FP32 arithmetic (R123): each word is one exact operation and one rounding.
-/

namespace Sys2Proof.Machine

open Round

theorem word32_addF (rnd : Rnd) (a b : Word) : word32 (addF FP32 rnd a.toNat b.toNat) =
    once rnd ((fp a).add (fp b) (rnd == .rm)) ((fp a).isSig || (fp b).isSig || (fp a).addInvalid (fp b)) := by
  simp only [word32, addF, once, ite_fNV]
  rfl

theorem word32_mulF (rnd : Rnd) (a b : Word) : word32 (mulF FP32 rnd a.toNat b.toNat) =
    once rnd ((fp a).mul (fp b)) ((fp a).isSig || (fp b).isSig || (fp a).mulInvalid (fp b)) := by
  simp only [word32, mulF, once, ite_fNV]
  rfl

theorem word32_fmaF (rnd : Rnd) (a b c : Word) : word32 (fmaF FP32 rnd a.toNat b.toNat c.toNat) =
    (let v := fmaV (fp a) (fp b) (fp c) (rnd == .rm); once rnd v.1 v.2) := by
  simp only [word32, fmaF, once, ite_fNV]
  rfl

/-- The three exact operations of R123, on register words: what their laws state is what the words compute. -/
theorem isSum_addF : IsSum (fun rnd a b => word32 (addF FP32 rnd a.toNat b.toNat)) := by
  simpa only [word32_addF] using sumOk

theorem isProduct_mulF : IsProduct (fun rnd a b => word32 (mulF FP32 rnd a.toNat b.toNat)) := by
  simpa only [word32_mulF] using productOk

theorem isFused_fmaF : IsFused (fun rnd a b c => word32 (fmaF FP32 rnd a.toNat b.toNat c.toNat)) := by
  simpa only [word32_fmaF] using fusedOk

/-- Settles O20: each word computes one exact operation, rounded once, and `fsub` adds the opposite of b. -/
theorem floatArithmetic : Obligations.FloatArithmetic := by
  unfold Obligations.FloatArithmetic
  refine ⟨⟨_, isSum_addF, fun x => writesFlt fun s => rfl, ?fsub⟩, ⟨_, isProduct_mulF, fun x => writesFlt fun s => rfl⟩,
    ⟨_, isFused_fmaF, fun x => writesFlt fun s => rfl⟩, ⟨_, quotOk, computesFlt (fun _ _ => rfl) fun _ _ => rfl⟩⟩
  case fsub =>
    exact computesFlt (fun _ _ => rfl) fun a b => by rw [negC]

end Sys2Proof.Machine
end

section
/-!
PROOFS. FP32 minimum and maximum, comparison, class and rounding to an integral value (R124 to R127).
-/

namespace Sys2Proof.Machine

open Round

/-- Settles O21, from the laws of the minimum, the comparison, the class and the rounding to an integral value. -/
theorem floatCompare : Obligations.FloatCompare := by
  unfold Obligations.FloatCompare
  refine ⟨⟨_, computesFlt (fun _ _ => rfl) fun _ _ => rfl, fun a b => minmax false a b⟩,
    ⟨_, computesFlt (fun _ _ => rfl) fun _ _ => rfl, fun a b => minmax true a b⟩,
    ⟨fcondHolds, fun cc x => writesFltPred fun s => rfl, fun a b => ?fcmp⟩,
    ⟨fclassMask, computes1 (fun _ _ => rfl) fun _ => rfl, fclassOk⟩,
    ⟨fun mode a => word32 (frndF mode (fp a)), fun mode x => writesFlt fun s => rfl, frndOk⟩⟩
  case fcmp =>
    obtain ⟨heq, hne, hlt, hle, hgt, hge, hun, hord⟩ := fcondOk a b
    refine ⟨heq, hne, hlt, hle, hgt, hge, hun, hord, ?quiet, ?loud⟩
    case quiet | loud => intro cc hcc; fin_cases hcc <;> rfl

end Sys2Proof.Machine
end

section
/-!
PROOFS. Conversions between the wide formats and integers (R130 to R132).
-/

namespace Sys2Proof.Machine

open Round

/-- A value rounded into a wide format, with NV for a signalling NaN (R130). -/
def convF (f : Fmt) (rnd : Rnd) (v : FVal) : Nat × Nat :=
  ((roundV f rnd v).1, (roundV f rnd v).2 ||| if v.isSig then fNV else 0)

theorem convF_of_isSig (f : Fmt) (rnd : Rnd) {v : FVal} (h : v.isSig = false) : convF f rnd v = roundV f rnd v := by
  simp [convF, h]

/-- The wide formats have at least two bits of precision and two of exponent, as the laws of the rounding ask. -/
theorem two_le_fmtOf (w : WFmt) : 2 ≤ (fmtOf w).p ∧ 2 ≤ (fmtOf w).eb := by cases w <;> decide

theorem converts_convF (w : WFmt) (rnd : Rnd) (v : FVal) : Converts (fmtOf w) rnd v (convF (fmtOf w) rnd v) where
  nan h := by
    obtain ⟨s, rfl⟩ := eq_nan h
    exact Prod.ext rfl (Nat.zero_or _)
  inf h := by
    obtain ⟨n, rfl⟩ := eq_inf h
    exact convF_of_isSig _ _ rfl
  zero h := by
    obtain ⟨n, e, rfl⟩ := eq_zero h
    exact convF_of_isSig _ _ rfl
  num hv h0 := by
    rw [sign_eq_decide hv h0, convF_of_isSig _ _ (isSig_of_finite hv)]
    exact roundV_rounds _ (two_le_fmtOf w).1 (two_le_fmtOf w).2 rnd v hv _ rfl (by exact_mod_cast numOf_ne_zero hv h0)

/-- An integer as an exact value: 0 is not negative. -/
theorem ofInt_unit (i : Int) : FVal.ofInt i 0 false = .fin (decide (i < 0)) i.natAbs 0 := by
  unfold FVal.ofInt
  split
  · next h => subst h; rfl
  · rfl

theorem convF_ofInt (w : WFmt) (i : Int) :
    roundV (fmtOf w) .ne (FVal.ofInt i 0 false) = convF (fmtOf w) .ne (.fin (decide (i < 0)) i.natAbs 0) := by
  rw [ofInt_unit, convF_of_isSig _ _ rfl]

/-! Conversion into an integer range (R83, R132). -/

theorem toIntRange_finite {rnd : Rnd} {lo hi : Int} {v : FVal} (hv : finite v = true) {z : Int}
    (hz : IntRounds rnd (numOf v) z) : toIntRange rnd lo hi v =
      if z < lo then (lo, fNV) else if hi < z then (hi, fNV) else (z, if numOf v = z then 0 else fNX) := by
  obtain ⟨n, m, e, rfl⟩ := eq_fin hv
  obtain ⟨hround, hexact⟩ := roundAt_int rnd n m e
  have hvalue := intRounds_unique _ _ _ _ hround hz
  rw [hvalue] at hexact
  simp only [toIntRange, roundInt, hvalue]
  congr 3
  by_cases hq : numOf (.fin n m e) = z <;> simp_all

/-- Settles O22: a conversion is one rounding into its format or its range. -/
theorem floatConversions : Obligations.FloatConversions := by
  unfold Obligations.FloatConversions
  refine ⟨⟨fun dst rnd v => convF (fmtOf dst) rnd v, fun dst rnd v => converts_convF dst rnd v, ?fcvt, ?fcvtPair, ?icvt, ?icvtPair⟩,
    ⟨toIntRange, ?unsigned, ?signed, fun rnd lo hi v _ => ⟨?nan, ?inf, fun hv z hz => toIntRange_finite hv hz⟩⟩⟩
  case fcvt => exact fun g rnd dst src d a hd => writesFlt_setWide (fun s => rfl) hd
  case fcvtPair => exact fun g rnd src d a => writesFltPair_setWide fun s => rfl
  case icvt =>
    intro g uns dst d a hd
    exact writesFlt_setWide (fun s => by simp only [exec, execIcvt, convF_ofInt]) hd
  case icvtPair =>
    intro g uns d a
    exact writesFltPair_setWide fun s => by simp only [exec, execIcvt, convF_ofInt]
  case unsigned | signed => exact fun g rnd src d a => writesFlt fun s => rfl
  case nan =>
    intro h
    obtain ⟨s, rfl⟩ := eq_nan h
    rfl
  case inf =>
    intro h
    obtain ⟨n, rfl⟩ := eq_inf h
    rfl

end Sys2Proof.Machine
end

section
/-!
PROOFS. Packed 16-bit words (R129).
-/

namespace Sys2Proof.Machine

open Round

/-- A packed word whose halves are `op` of the sources' halves. -/
theorem writesFlt_halves {i : Instr} {x : H3} {op : Fmt → Nat → Nat → Thread → Nat → Nat × Nat}
    (h : ∀ s, exec i s = .next (s.onMach (fun m => halves m x op))) :
    WritesFlt i x.g false (.w x.d) (fun _ t =>
      let lo := op (if x.bf then BF16 else FP16) ((t.rd x.a).toNat % 2 ^ 16) ((t.rd x.b).toNat % 2 ^ 16) t 1
      let hi := op (if x.bf then BF16 else FP16) ((t.rd x.a).toNat / 2 ^ 16) ((t.rd x.b).toNat / 2 ^ 16) t 65536
      (BitVec.ofNat 32 (lo.1 + 2 ^ 16 * hi.1), lo.2 ||| hi.2)) :=
  writesFlt fun s => by simp only [h, halves, high_half, Nat.div_one]; rfl

/-- Settles O23: each half is the operation of its format, and on finite halves one rounding of the exact result. -/
theorem packedHalves : Obligations.PackedHalves := by
  unfold Obligations.PackedHalves
  refine ⟨?two, ?hfma, fun fm hfm a b c => ⟨?sum, ?product, ?fused⟩, by decide, by decide⟩
  case two =>
    intro x i op hop
    simp only [List.mem_cons, List.not_mem_nil, or_false, Prod.mk.injEq] at hop
    have hexec : ∀ s, exec (i x) s = .next (s.onMach (fun m => halves m x (fun fm a b _ _ => op fm a b))) := by
      obtain ⟨rfl, rfl⟩ | ⟨rfl, rfl⟩ | ⟨rfl, rfl⟩ | ⟨rfl, rfl⟩ := hop <;> exact fun _ => rfl
    have hwrites := writesFlt_halves hexec
    exact hwrites
  case hfma =>
    intro c x
    have hwrites := writesFlt_halves (i := .hfma2 c x) fun s => rfl
    simpa only [high_half, Nat.div_one, Nat.reducePow] using hwrites
  case sum =>
    intro ha hb h0
    obtain ⟨hfin, hval⟩ := add_fin (Rnd.ne == Rnd.rm) ha hb
    rw [addF_of_finite fm .ne ha hb]
    exact fin_rounds fm hfm _ hfin _ hval h0
  case product =>
    intro ha hb h0
    obtain ⟨hfin, hval⟩ := mul_fin ha hb
    rw [mulF_of_finite fm .ne ha hb]
    exact fin_rounds fm hfm _ hfin _ hval h0
  case fused =>
    intro ha hb hc h0
    obtain ⟨hpfin, hpval⟩ := mul_fin ha hb
    obtain ⟨hfin, hval⟩ := add_fin (Rnd.ne == Rnd.rm) hpfin hc
    rw [hpval] at hval
    rw [fmaF_of_finite fm .ne ha hb hc]
    exact fin_rounds fm hfm _ hfin _ hval h0

end Sys2Proof.Machine
end

section
/-!
PROOFS. Special functions (R128) and function tables (R136 to R139).
-/

namespace Sys2Proof.Machine

open Round

/-! The words of function tables. -/

theorem exec_feval {s : State} {r : Running} (hr : s.m.curRun = some r) (hbad : s.m.bad = []) (ft : Nat) (x : W2) :
    exec (.feval ft x) s = .next ⟨s.agenda, lanes s.m r x.g (fun t =>
      fpPut r t x.d (word32 (fevalF ((lget (s.m.core r.core).fts ft).getD {}).bank (t.rd x.a).toNat)))⟩ := by
  simp only [exec, execFeval, State.onMach, hr, hbad, List.contains_nil, Bool.false_eq_true, if_false, setF_each hr]
  rfl

section
variable {s : State} {r : Running} {t : Thread} {g : Guard} (h : Escapes s r t g) (ft a fl : Nat)
include h

theorem exec_ftld (ha : (t.rd a).toNat % 32 = 0) (hp : padOk s.m t.gid (t.rd a).toNat ftBytes = true) :
    exec (.ftld g ft a fl) s = .next ⟨s.agenda, creditWord (s.m.updCore r.core (fun k =>
      { k with ftlds := k.ftlds ++ [⟨t.gid, t.tix, ft, (t.rd a).toNat, r.flag fl⟩] })) r t 6 1⟩ := by
  simp only [exec, execFtld, State.onMach, escWord_alone h.toAlone 6 1 _ h.empty h.free, ha, hp, ne_eq, not_true_eq_false,
    if_false, Bool.not_true, Bool.false_eq_true]

/-- A misaligned image offset raises MISALIGN with the bytes of the image (log 40). -/
theorem exec_ftld_misaligned (ha : (t.rd a).toNat % 32 ≠ 0) : exec (.ftld g ft a fl) s =
    .next ⟨s.agenda, withThread s.m t (raised (misalignAt r (t.rd a).toNat ftBytes 1))⟩ := by
  simp only [exec, execFtld, State.onMach, escWord_alone h.toAlone 6 1 _ h.empty h.free, ne_eq, ha, not_false_eq_true, if_true,
    misalign_eq, credit_raised (alone_here h.toAlone)]

end

/-- A flip on a machine without soft errors (R137). -/
theorem exec_ftldFlip {s : State} {core ft : Nat} {x : Ftld}
    (hx : (s.m.core core).ftlds.find? (fun x => x.ft == ft) = some x) (hbad : s.m.bad = []) :
    exec (.ftldFlip core ft) s = .next ⟨s.agenda, s.m.updCore core (fun k => { k with
      ftlds := k.ftlds.erase x
      fts := lput k.fts ft (((lget k.fts ft).getD {}).flip (padRead s.m x.gid x.off ftBytes)
        (ftValid (padRead s.m x.gid x.off ftBytes))) })⟩ := by
  have hm : ({ s.m with bad := [] } : Mach) = s.m := by rw [← hbad]
  simp only [exec, execFtldFlip, State.onMach, hx, padBad, hbad, List.any_nil, List.filter_nil, Bool.false_eq_true, if_false, hm]

/-- A flip makes the new image current and keeps the old one beside it (R137). -/
theorem flip_banks (f : Ft) (img : List Byte) (ok : Bool) : (f.flip img ok).bank = (img, ok) ∧ (f.flip img ok).cur = !f.cur ∧
    (if f.cur then ((f.flip img ok).img1, (f.flip img ok).ok1) else ((f.flip img ok).img0, (f.flip img ok).ok0)) = f.bank := by
  cases hcur : f.cur <;> simp [Ft.flip, Ft.bank, hcur]

/-! The value of `feval` (R139). -/

/-- The offset of u in segment s: u less s × 2^e. -/
def segOffset (u : FVal) (s : Nat) (e : Int) : FVal := u.add (.fin true s e) false

theorem segOffset_val {u : FVal} (hu : finite u = true) (s : Nat) (e : Int) :
    finite (segOffset u s e) = true ∧ numOf (segOffset u s e) = numOf u - s * 2 ^ e := by
  obtain ⟨hfin, hval⟩ := add_fin (b := .fin true s e) false hu rfl
  have hstart : numOf (.fin true s e) = -(s * 2 ^ e) := by simp [numOf]
  exact ⟨hfin, by rw [segOffset, hval, hstart, sub_eq_add_neg]⟩

theorem fevalF_nan (img : List Byte) {x : Nat} (h : (decodeF FP32 x).isNaN = true) :
    fevalF (img, true) x = (0x7FC00000, if (decodeF FP32 x).isSig then fNV else 0) := by
  obtain ⟨s, hs⟩ := eq_nan h
  simp only [fevalF, hs, FVal.isNaN, FVal.isInf, FVal.isSig, Bool.not_true, Bool.false_eq_true, if_false, Bool.or_false, if_true]
  rfl

theorem fevalF_inf (img : List Byte) {x : Nat} (h : (decodeF FP32 x).isInf = true) :
    fevalF (img, true) x = (0x7FC00000, fNV) := by
  obtain ⟨n, hn⟩ := eq_inf h
  simp only [fevalF, hn, FVal.isNaN, FVal.isInf, FVal.isSig, Bool.not_true, Bool.false_eq_true, if_false, Bool.or_true, if_true]
  rfl

/-- The argument less the start of the table, with the flags of the difference (R139). -/
def fromStart (img : List Byte) (x : Word) : Nat × Nat :=
  addF FP32 .ne x.toNat (BitVec.ofNat 32 (ftWord img 0) ^^^ 0x80000000).toNat

/-- The polynomial of a segment at an offset, by Horner's rule, with every flag on the way (R139). -/
def evalSeg (img : List Byte) (s : Nat) (u t : Nat × Nat) : Nat × Nat :=
  let y2 := fmaF FP32 .ne (ftWord img (0x20 + 16 * s + 12)) t.1 (ftWord img (0x20 + 16 * s + 8))
  let y1 := fmaF FP32 .ne y2.1 t.1 (ftWord img (0x20 + 16 * s + 4))
  let y0 := fmaF FP32 .ne y1.1 t.1 (ftWord img (0x20 + 16 * s))
  (y0.1, u.2 ||| t.2 ||| y2.2 ||| y1.2 ||| y0.2)

/-- The value at a finite argument, by its segment. -/
theorem fevalF_finite {img : List Byte} {x : Word} (hx0 : ftWord img 0 < 2 ^ 32) (hx : finite (fp x) = true)
    (hu : finite (decodeF FP32 (fromStart img x).1) = true) :
    fevalF (img, true) x.toNat =
      (let u := fromStart img x
       let q := ⌊numOf (decodeF FP32 u.1) / 2 ^ ftExp img⌋
       let s := (min (max q 0) 63).toNat
       if (q < 0 ∨ 63 < q) ∧ ftWord img 8 % 2 = 1 then (0x7FC00000, u.2)
       else evalSeg img s u (roundV FP32 .ne (segOffset (decodeF FP32 u.1) s (ftExp img)))) := by
  obtain ⟨n, m, e, hfin⟩ := eq_fin hx
  have hdec : decodeF FP32 x.toNat = .fin n m e := hfin
  have hneg : negCode FP32 (ftWord img 0) = (BitVec.ofNat 32 (ftWord img 0) ^^^ 0x80000000).toNat := by
    rw [← negC, BitVec.toNat_ofNat, Nat.mod_eq_of_lt hx0]
  simp only [fevalF, hdec, hneg, FVal.isNaN, FVal.isInf, Bool.not_true, Bool.false_eq_true, if_false, Bool.or_self]
  rw [← fromStart, segOf_ok _ hu]
  rfl

/-- Settles O24: the special functions by their laws, and a function table by its words, its flip and its value. -/
theorem specialFunctions : Obligations.SpecialFunctions := by
  unfold Obligations.SpecialFunctions
  refine ⟨⟨⟨fun a => word32 (divF FP32 .ne (.fin false 1 0) (fp a)), fun x => writesFlt fun s => rfl, rcpOk⟩,
      ⟨fun a => word32 (rsqF FP32 (fp a)), fun x => writesFlt fun s => rfl, rsqOk⟩,
      ⟨fun a => word32 (sqrtF FP32 (fp a)), fun x => writesFlt fun s => rfl, sqrtOk⟩,
      ⟨fun a => word32 (log2F (fp a)), fun x => writesFlt fun s => rfl, log2Ok⟩,
      ⟨fun a => word32 (exp2F (fp a)), fun x => writesFlt fun s => rfl, exp2Ok⟩⟩,
    fun ft x s r hr hbad => exec_feval hr hbad ft x,
    fun s r t g ft a fl h => ⟨exec_ftld h ft a fl, exec_ftld_misaligned h ft a fl⟩,
    fun s core ft x hx hbad => exec_ftldFlip hx hbad, flip_banks,
    fun img x => ⟨rfl, fevalF_nan img, fevalF_inf img, ?value⟩⟩
  case value =>
    intro u q hx0 hx hu
    have hvalue := fevalF_finite hx0 hx hu
    refine ⟨?outside, ?inside⟩
    case outside =>
      intro hq htrap
      exact hvalue.trans (if_pos ⟨hq, htrap⟩)
    case inside =>
      intro hq
      obtain ⟨hfin, hnum⟩ := segOffset_val hu (min (max q 0) 63).toNat (ftExp img)
      obtain ⟨hzero, hrounds⟩ := roundV_nearest hfin
      rw [hnum] at hzero hrounds
      refine ⟨_, hzero, hrounds, hvalue.trans (if_neg ?_)⟩
      rintro ⟨hout, htrap⟩
      have hout : q < 0 ∨ 63 < q := hout
      omega

end Sys2Proof.Machine
end

section
/-!
PROOFS. Conversion through a format slot, and the dot products (R133 to R135).
-/

namespace Sys2Proof.Machine

open Round

/-! The words. -/

section
variable {s : State} {r : Running} {el : Elem} (hr : s.m.curRun = some r)
include hr

section
variable {x : Cv} (hslot : slotOf (s.m.recOf r.gid).slots x.slot = some el)
include hslot

theorem exec_ncvt (hel : el ≠ .fa48) : exec (.ncvt x) s = .next ⟨s.agenda, lanes s.m r x.g (fun t =>
    fpPut r t x.d (putPacked el.bits (t.rd x.d) x.pos (toElem el ((fp (t.rd x.a)).mul (fp (t.rd x.b)))).1,
      (toElem el ((fp (t.rd x.a)).mul (fp (t.rd x.b)))).2 ||| productNV (fp (t.rd x.a)) (fp (t.rd x.b))))⟩ := by
  simp only [exec, execNcvt, State.onMach, hr, hslot]
  cases el with
  | fa48 => exact absurd rfl hel
  | fp32 | fp16 | bf16 | q8f | q8w | q8i | q4l | q4i | q4t => simp only [setF_each hr]; rfl

theorem exec_nunp (hbad : s.m.bad = []) : exec (.nunp x) s = .next ⟨s.agenda, lanes s.m r x.g (fun t =>
    let a := decodeE el (codeTab s.m r.core) (packedAt el t x.a x.pos)
    fpPut r t x.d (BitVec.ofNat 32 (roundV FP32 .ne (a.mul (fp (t.rd x.b)))).1,
      (roundV FP32 .ne (a.mul (fp (t.rd x.b)))).2 ||| productNV a (fp (t.rd x.b))))⟩ := by
  simp only [exec, execNunp, State.onMach, hr, hslot, hbad, List.contains_nil, Bool.false_eq_true, and_false, if_false, setF_each hr]
  rfl

end

theorem exec_ncvt_fa48 {x : Cv} (hslot : slotOf (s.m.recOf r.gid).slots x.slot = some .fa48) :
    exec (.ncvt x) s = .next ⟨s.agenda, lanes s.m r x.g (fun t =>
      let v := toElem .fa48 ((fp (t.rd x.a)).mul (fp (t.rd x.b)))
      let fl := v.2 ||| productNV (fp (t.rd x.a)) (fp (t.rd x.b))
      Thread.arithTrap r ((t.wrD x.d (BitVec.ofNat 64 v.1)).setFlags fl) (.pair x.d) 0 (hiW (BitVec.ofNat 64 v.1)) fl)⟩ := by
  simp only [exec, execNcvt, State.onMach, hr, hslot, setFD_eq hr]
  rfl

theorem dotWord_eq {x : Dot} {ea eb : Elem} (ha : slotOf (s.m.recOf r.gid).slots x.sa = some ea)
    (hb : slotOf (s.m.recOf r.gid).slots x.sb = some eb) (n : Nat) : dotWord s.m x n = lanes s.m r x.g (fun t =>
      fpPut r t x.d (word32 (dotF ea eb (codeTab s.m r.core) n (t.rd x.a) (t.rd x.b) (t.rd x.c).toNat (t.rd (x.c + 1)).toNat))) := by
  simp only [dotWord, hr, ha, hb, setF_each hr]
  rfl

end

/-! An element of a packed register. -/

/-- The bits of element `pos`: the code's, and every other bit is kept. -/
theorem getLsbD_putPacked {bits pos i : Nat} (code : Nat) (old : Word) (hi : i < 32) :
    (putPacked bits old pos code).getLsbD i =
      if bits * pos ≤ i ∧ i < bits * pos + bits then code.testBit (i - bits * pos) else old.getLsbD i := by
  simp only [putPacked, BitVec.getLsbD_or, BitVec.getLsbD_and, BitVec.getLsbD_not, getLsbD_onesAt _ _ hi,
    BitVec.getLsbD_ofNat, Nat.testBit_mul_two_pow]
  split
  · next h => simp [h, hi]
  · next h => simp [h, hi]

/-! The value of a dot product (R135). -/

/-- Element `i` of a packed register. -/
def elemAt (el : Elem) (tab : List Nat) (w : Word) (i : Nat) : FVal :=
  decodeE el tab (w.toNat / 2 ^ (el.bits * i) % 2 ^ el.bits)

/-- The exact sum of the products of two packed registers' elements. -/
def dotSum (ea eb : Elem) (tab : List Nat) (n : Nat) (a b : Word) : FVal :=
  FVal.sum ((List.range n).map fun i => (elemAt ea tab a i).mul (elemAt eb tab b i))

/-- The number that the sum is where every element is finite. -/
def dotNum (ea eb : Elem) (tab : List Nat) (n : Nat) (a b : Word) : ℚ :=
  ((List.range n).map fun i => numOf (elemAt ea tab a i) * numOf (elemAt eb tab b i)).sum

section
variable {ea eb : Elem} {tab : List Nat} {n : Nat} {a b c sc : Word}
  (hab : ∀ i < n, finite (elemAt ea tab a i) = true ∧ finite (elemAt eb tab b i) = true)
include hab

theorem dotSum_val : finite (dotSum ea eb tab n a b) = true ∧ numOf (dotSum ea eb tab n a b) = dotNum ea eb tab n a b := by
  have hmem : ∀ i ∈ List.range n, finite ((elemAt ea tab a i).mul (elemAt eb tab b i)) = true ∧
      numOf ((elemAt ea tab a i).mul (elemAt eb tab b i)) = numOf (elemAt ea tab a i) * numOf (elemAt eb tab b i) := by
    intro i hi
    obtain ⟨ha, hb⟩ := hab i (List.mem_range.1 hi)
    exact mul_fin ha hb
  obtain ⟨hfin, hval⟩ := sumF ((List.range n).map fun i => (elemAt ea tab a i).mul (elemAt eb tab b i)) (by
    intro t ht
    obtain ⟨i, hi, rfl⟩ := List.mem_map.1 ht
    exact (hmem i hi).1)
  refine ⟨hfin, hval.trans ?_⟩
  rw [List.map_map]
  exact congrArg List.sum (List.map_congr_left fun i hi => (hmem i hi).2)

/-- On finite operands no operation of a dot product is invalid: its result is one rounding of the exact value. -/
theorem dotF_of_finite (hc : finite (fp c) = true) (hsc : finite (fp sc) = true) :
    dotF ea eb tab n a b c.toNat sc.toNat =
      roundV FP32 .ne (FVal.sum [fp c, (fp sc).mul (dotSum ea eb tab n a b)]) := by
  have hsfin := (dotSum_val hab).1
  have hsigs : ((List.range n).map (elemAt ea tab a) ++ (List.range n).map (elemAt eb tab b)).any FVal.isSig = false := by
    refine List.any_eq_false.2 fun v hv => ?_
    obtain hv | hv := List.mem_append.1 hv <;> obtain ⟨i, hi, rfl⟩ := List.mem_map.1 hv
    · simp [isSig_of_finite (hab i (List.mem_range.1 hi)).1]
    · simp [isSig_of_finite (hab i (List.mem_range.1 hi)).2]
  have hinvalid : ((List.range n).map fun i => (elemAt ea tab a i, elemAt eb tab b i)).any (fun p => p.1.mulInvalid p.2) = false := by
    refine List.any_eq_false.2 fun v hv => ?_
    obtain ⟨i, hi, rfl⟩ := List.mem_map.1 hv
    obtain ⟨ha, hb⟩ := hab i (List.mem_range.1 hi)
    simp [mulInvalid_of_finite ha hb]
  have hdecode : ∀ w : Word, decodeF FP32 w.toNat = fp w := fun _ => rfl
  have helem : ∀ el w i, decodeE el tab (w.toNat / 2 ^ (el.bits * i) % 2 ^ el.bits) = elemAt el tab w i := fun _ _ _ => rfl
  have hsum : FVal.sum ((List.range n).map fun i => (elemAt ea tab a i).mul (elemAt eb tab b i)) = dotSum ea eb tab n a b := rfl
  simp only [dotF, hdecode, helem, List.zip_map', List.map_map, Function.comp_def, hsum, hsigs, hinvalid, isNaN_of_finite hsfin,
    isSig_of_finite hc, isSig_of_finite hsc, mulInvalid_of_finite hsc hsfin, addInvalid_of_finite hc, Bool.false_and, Bool.and_false,
    Bool.or_self, Bool.false_eq_true, if_false, or0]

theorem rounds_dotF (hc : finite (fp c) = true) (hsc : finite (fp sc) = true)
    (h0 : numOf (fp c) + numOf (fp sc) * dotNum ea eb tab n a b ≠ 0) :
    Rounds32 .ne ((numOf (fp c) + numOf (fp sc) * dotNum ea eb tab n a b : ℚ) : ℝ)
      (word32 (dotF ea eb tab n a b c.toNat sc.toNat)) := by
  obtain ⟨hsfin, hsval⟩ := dotSum_val hab
  obtain ⟨hpfin, hpval⟩ := mul_fin hsc hsfin
  obtain ⟨hfin, hval⟩ := sumF [fp c, (fp sc).mul (dotSum ea eb tab n a b)] (by simp [hc, hpfin])
  rw [dotF_of_finite hab hc hsc]
  exact rounds32 .ne _ _ hfin (by simpa [hpval, hsval] using hval) h0

end

/-- Settles O25: each word by what it makes of its slot's format, and a dot product of finite elements is rounded once. -/
theorem slotWords : Obligations.SlotWords := by
  unfold Obligations.SlotWords
  refine ⟨fun x s r el hr hslot hel => exec_ncvt hr hslot hel, fun x s r hr hslot => exec_ncvt_fa48 hr hslot,
    fun x s r el hr hslot hbad => exec_nunp hr hslot hbad, ?dot,
    fun bits pos code i old _ hi => getLsbD_putPacked code old hi,
    fun ea eb tab n a b c sc hab hc hsc h0 => rounds_dotF hab hc hsc h0, by decide, by decide, by decide⟩
  case dot =>
    intro i n hi x s r ea eb hr ha hb
    have hexec : exec (i x) s = .next (s.onMach (fun m => dotWord m x n)) := by
      simp only [List.mem_cons, List.not_mem_nil, or_false, Prod.mk.injEq] at hi
      obtain ⟨rfl, rfl⟩ | ⟨rfl, rfl⟩ := hi <;> rfl
    rw [hexec, State.onMach, dotWord_eq hr ha hb]
    rfl

end Sys2Proof.Machine
end

section
/-!
PROOFS. Sticky flags and the ARITH trap (R119).
-/

namespace Sys2Proof.Machine

open Round

/-- The flags that trap are the ones that `FCTL` enables. -/
theorem traps_eq (t : Thread) {fl : Nat} (h : fl < 32) : t.traps fl = (t.fctl &&& BitVec.ofNat 32 fl).toNat := by
  have hfl : fl % 2 ^ 32 = fl := Nat.mod_eq_of_lt (by omega)
  have hand : (t.fctl.toNat &&& fl) % 2 ^ 5 = t.fctl.toNat % 2 ^ 5 &&& fl % 2 ^ 5 := Nat.and_mod_two_pow
  have hlt : t.fctl.toNat &&& fl < 2 ^ 5 := Nat.and_lt_two_pow _ h
  rw [BitVec.toNat_and, BitVec.toNat_ofNat, hfl, ← Nat.mod_eq_of_lt hlt, hand]
  rfl

theorem ofNat_mul_two_pow (w n k : Nat) : BitVec.ofNat w (n * 2 ^ k) = BitVec.ofNat w n <<< k := by
  rw [← Nat.shiftLeft_eq]
  exact BitVec.eq_of_toNat_eq (by simp [Nat.shiftLeft_eq])

/-- The fields of a2 of ARITH (Table 6-2) stand beside each other: the word's index, the flags, and those that trap. -/
theorem arith_a2 (i : Nat) {fl : Nat} (h : fl < 32) (w : Word) :
    BitVec.ofNat 64 (i % 16 + fl % 32 * 256 + w.toNat * 65536) =
      BitVec.ofNat 64 (i % 16) ||| BitVec.ofNat 64 fl <<< 8 ||| w.zeroExtend 64 <<< 16 := by
  have hfields : i % 16 + fl * 2 ^ 8 + w.toNat * 2 ^ 16 = i % 16 ||| fl * 2 ^ 8 ||| w.toNat * 2 ^ 16 := by
    rw [nat_or _ w.toNat 16 (by omega), nat_or _ fl 8 (by omega)]
  have hword : BitVec.ofNat 64 w.toNat = w.zeroExtend 64 := BitVec.ofNat_toNat 64 w
  rw [Nat.mod_eq_of_lt h, ← hword, ← ofNat_mul_two_pow, ← ofNat_mul_two_pow, ← BitVec.ofNat_or, ← BitVec.ofNat_or]
  exact congrArg _ hfields

/-- The position after one word is the next word of the clause, or the header after it. -/
theorem after_one (r : Running) :
    r.after 1 = (if r.idx + 1 ≤ r.count then ⟨r.hdr, r.idx + 1⟩ else ⟨(r.hdr + 8 * (r.count + 2)) % 2 ^ 64, 0⟩) := by
  simp only [Running.after, ← not_le, ite_not]
  rfl

/-- An enabled flag raises ARITH at the following word. -/
theorem arithTrap_raised (r : Running) {t : Thread} (d : Dest) (op : Nat) (v : Word) {fl : Nat} (h : t.traps fl ≠ 0) :
    Thread.arithTrap r t d op v fl = raised
      { eff := 3, a0 := BitVec.ofNat 64 r.hdr, a1 := BitVec.ofNat 64 op
        a2 := BitVec.ofNat 64 (r.idx % 16 + fl % 32 * 256 + t.traps fl * 65536)
        a3 := v.zeroExtend 64, save := r.after 1, word := r.here, dest := some d } t :=
  if_neg h

/-- Settles O26: no flag that is set traps, or one does, with the arguments of Table 6-2. -/
theorem arithTrap : Obligations.ArithTrap := by
  unfold Obligations.ArithTrap
  intro r t d op fl v h
  have htraps : t.traps fl = 0 ↔ t.fctl &&& BitVec.ofNat 32 fl = 0 := by
    rw [traps_eq t h, BitVec.toNat_eq]
    rfl
  refine ⟨?sticky, fun hoff => if_pos (htraps.2 hoff), fun hon => ?raises, after_one r⟩
  case sticky => rw [Thread.setFlags, Nat.mod_eq_of_lt h]
  case raises =>
    refine ⟨_, arithTrap_raised r d op v (mt htraps.1 hon), rfl, rfl, rfl, ?_, rfl, rfl, rfl, rfl, rfl⟩
    rw [traps_eq t h]
    exact arith_a2 r.idx h _

end Sys2Proof.Machine
end

section
/-!
PROOFS. Control transfers, rejoin barriers and the end of a thread (R144 to R154).
-/

namespace Sys2Proof.Machine

/-! Where a control transfer takes its thread (R143 to R146). -/

theorem target_eq (r : Running) (n : Int) : r.target n = (BitVec.ofNat 64 r.hdr + BitVec.ofInt 64 (8 * n)).toNat :=
  addr64_eq r.hdr n

section
variable {m : Mach} {r : Running} {t : Thread} {a : Nat}

/-- A jump through a pair that links nothing. -/
theorem jumpTo_aligned (h : (t.rdD a).toNat % 8 = 0) :
    jumpTo m r t a none = withThread m t (landedAt (t.rdD a).toNat) :=
  if_neg (not_not.2 h)

/-- A jump through a pair whose link goes to the thread as it stands; the target is read before it. -/
theorem jumpTo_aligned_link (d : Nat) (h : (t.rdD a).toNat % 8 = 0) :
    jumpTo m r t a (some d) = withThread m t (fun u => landedAt (t.rdD a).toNat (u.wrD d (linkOf r))) := by
  rw [← linkOf_eq]
  exact if_neg (not_not.2 h)

/-- The position stays at the instruction, and nothing is linked. -/
theorem jumpTo_misaligned (link : Option Nat) (h : (t.rdD a).toNat % 8 ≠ 0) :
    jumpTo m r t a link = withThread m t (raised {
      eff := 2, a0 := BitVec.ofNat 64 r.hdr, a1 := BitVec.ofNat 64 r.idx, a2 := t.rdD a, a3 := 0
      save := ⟨r.hdr, r.idx⟩, word := ⟨r.hdr, r.idx⟩ }) := by
  simp only [jumpTo, if_pos h, BitVec.ofNat_toNat, BitVec.setWidth_eq]
  rfl

end

section
variable {s : State} {r : Running} {t : Thread} {g : Guard} (h : Alone s r t g)
include h

theorem exec_bra_alone (n : Int) : exec (.bra g n) s = .next ⟨s.agenda,
    withThread s.m t (landedAt (BitVec.ofNat 64 r.hdr + BitVec.ofInt 64 (8 * n)).toNat)⟩ := by
  rw [seq_next h (fun _ => rfl), ← target_eq]
  rfl

theorem exec_call_alone (n : Int) : exec (.call g n) s = .next ⟨s.agenda, withThread s.m t (fun u =>
    landedAt (BitVec.ofNat 64 r.hdr + BitVec.ofInt 64 (8 * n)).toNat (u.wrD 2 (linkOf r)))⟩ := by
  rw [seq_next h (fun _ => rfl), ← target_eq, ← linkOf_eq]
  rfl

theorem exec_jmp_alone (a : Nat) : exec (.jmp g a) s = .next ⟨s.agenda, jumpTo s.m r t a none⟩ :=
  seq_next h (f := fun m r t => jumpTo m r t a none) (fun _ => rfl)

theorem exec_ret_alone (a : Nat) : exec (.ret g a) s = .next ⟨s.agenda, jumpTo s.m r t a none⟩ :=
  seq_next h (f := fun m r t => jumpTo m r t a none) (fun _ => rfl)

theorem exec_callr_alone (d a : Nat) : exec (.callr g d a) s = .next ⟨s.agenda, jumpTo s.m r t a (some d)⟩ :=
  seq_next h (f := fun m r t => jumpTo m r t a (some d)) (fun _ => rfl)

end

/-- Settles O27: a transfer through the header's address always lands; one through a pair lands or is misaligned. -/
theorem branches : Obligations.Branches := by
  unfold Obligations.Branches
  intro s r t g h
  refine ⟨exec_bra_alone h, exec_call_alone h, fun a d ha => ⟨?_, ?_, ?_⟩, fun a d i ha hi => ?misaligned⟩
  · rw [exec_jmp_alone h, jumpTo_aligned ha]
  · rw [exec_ret_alone h, jumpTo_aligned ha]
  · rw [exec_callr_alone h, jumpTo_aligned_link d ha]
  case misaligned =>
    simp only [List.mem_cons, List.not_mem_nil, or_false] at hi
    obtain rfl | rfl | rfl := hi
    · rw [exec_jmp_alone h, jumpTo_misaligned none ha]
    · rw [exec_ret_alone h, jumpTo_misaligned none ha]
    · rw [exec_callr_alone h, jumpTo_misaligned (some d) ha]

/-! The end of a thread, a breakpoint and a yield (R147, R148, R154). -/

/-- Some completion flag of the thread has an operation outstanding (R147). -/
def flagPending (m : Mach) (t : Thread) : Bool := (List.range 12).any (fun n => flagCount m t n != 0)

theorem flagPending_iff (m : Mach) (t : Thread) : flagPending m t = true ↔ ∃ n, n < 12 ∧ flagCount m t n ≠ 0 := by
  simp only [flagPending, List.any_eq_true, List.mem_range, bne_iff_ne]

/-- An exit that no stopped copy and no halted command holds up: held while a flag is pending, or done. -/
theorem exec_exit_alone {s : State} {r : Running} {t : Thread} {g : Guard} (h : Alone s r t g)
    (hc : ∀ c ∈ (s.m.core r.core).copies, ¬ (c.gid = t.gid ∧ c.tix = t.tix ∧ c.stopped.isSome = true))
    (hh : haltedFor s.m t (fun _ => true) = none) : exec (.exit g) s = .next ⟨s.agenda,
      if flagPending s.m t then withThread s.m t (fun u => { leftPack .held ⟨r.hdr, r.idx⟩ u with holdW := 4095, holdS := [] })
      else rejoinCheck (withThread s.m t (leftPack .exited ⟨(linkOf r).toNat, 0⟩)) t.gid (t.tix / 32)⟩ := by
  have hcopy : (s.m.core r.core).copies.find? (fun c => c.gid == t.gid && c.tix == t.tix && c.stopped.isSome) = none :=
    List.find?_eq_none.2 (fun c hm => by simpa [and_assoc] using hc c hm)
  rw [seq_next h (fun _ => rfl), hcopy, hh, linkOf_nat]
  rfl

theorem exec_brk_alone {s : State} {r : Running} {t : Thread} {g : Guard} (h : Alone s r t g) (n : Nat) :
    exec (.brk g n) s = .next ⟨s.agenda, withThread s.m t (raised {
      eff := 11, a0 := BitVec.ofNat 64 r.hdr, a1 := BitVec.ofNat 64 r.idx, a2 := BitVec.ofNat 64 n, a3 := 0
      save := ⟨(linkOf r).toNat, 0⟩, word := ⟨r.hdr, r.idx⟩ })⟩ := by
  rw [seq_next h (fun _ => rfl), linkOf_nat]
  rfl

theorem exec_yield_lanes {s : State} {r : Running} (h : s.m.curRun = some r) (g : Guard) :
    exec (.yield g) s = .next ⟨s.agenda, lanes s.m r g (fun u => { u with demoted := true, pack := 0 })⟩ := by
  rw [← vecWord_eq h]
  rfl

/-- Settles O29, by the thread's flags where it exits. -/
theorem threadEnd : Obligations.ThreadEnd := by
  unfold Obligations.ThreadEnd
  intro s r t g h
  refine ⟨fun hc hh => ⟨fun hnone => ?ended, fun n hn hne => ?held⟩, exec_brk_alone h, exec_yield_lanes h.run g⟩
  case ended =>
    have hp : ¬ flagPending s.m t = true := fun hp =>
      let ⟨n, hn, hne⟩ := (flagPending_iff s.m t).1 hp
      hne (hnone n hn)
    rw [exec_exit_alone h hc hh, if_neg hp]
    rfl
  case held => rw [exec_exit_alone h hc hh, if_pos ((flagPending_iff s.m t).2 ⟨n, hn, hne⟩)]

/-! Rejoin barriers: arming, waiting and the release (R149 to R152). -/

theorem exec_rjarm_alone {s : State} {r : Running} {t : Thread} {g : Guard} (h : Alone s r t g) (j a : Nat) :
    exec (.rjarm g j a) s = .next ⟨s.agenda, withGroup s.m t.gid (fun x => x.setRejoin j (t.tix / 32)
      { x.rejoin j (t.tix / 32) with named := (x.rejoin j (t.tix / 32)).named ||| t.rd a })⟩ := by
  rw [seq_next h (fun _ => rfl)]
  rfl

/-- A wait does nothing at a barrier that names no lane; at another it notes the arrival and checks for the release. -/
theorem exec_rjwait_alone {s : State} {r : Running} {t : Thread} {g : Guard} {x : Group} (h : Alone s r t g) (j : Nat)
    (hx : s.m.group? t.gid = some x) : exec (.rjwait g j) s = .next ⟨s.agenda,
      if (x.rejoin j (t.tix / 32)).named = 0 then s.m
      else rejoinRelease (withThread
        (withGroup s.m t.gid (fun y => y.setRejoin j (t.tix / 32) { x.rejoin j (t.tix / 32) with
          arrived := (x.rejoin j (t.tix / 32)).arrived ||| (1#32 <<< (t.tix % 32)) })) t
        (leftPack (.waiting (.rejoin j ⟨r.hdr, r.idx⟩)) ⟨(linkOf r).toNat, 0⟩)) t.gid j (t.tix / 32)⟩ := by
  rw [seq_next h (fun _ => rfl), hx, linkOf_nat]
  rfl

/-- The lanes that a barrier still waits for: named, not arrived, with a thread that has not exited (R151). -/
def missingLanes (m : Mach) (gid ls : Nat) (x : Rejoin) : Word := x.named &&& ~~~x.arrived &&& presentLanes m gid ls

theorem missingLanes_eq_zero {m : Mach} {gid ls : Nat} {x : Rejoin} (h : ∀ i, i < 32 → x.named.getLsbD i = true →
    x.arrived.getLsbD i = true ∨ ¬ present m gid ls i) : missingLanes m gid ls x = 0 := by
  refine (word_zero _).2 (fun i hi => Bool.eq_false_iff.2 (fun hbit => ?_))
  obtain ⟨hnamed, hout, hpresent⟩ := (missing_bit m x gid ls i hi).1 hbit
  rcases h i hi hnamed with harr | habsent
  · exact Bool.false_ne_true (hout.symm.trans harr)
  · exact habsent hpresent

theorem missingLanes_ne_zero {m : Mach} {gid ls i : Nat} {x : Rejoin} (hi : i < 32) (hn : x.named.getLsbD i = true)
    (ha : x.arrived.getLsbD i = false) (hp : present m gid ls i) : missingLanes m gid ls x ≠ 0 := fun hz =>
  Bool.false_ne_true (((word_zero _).1 hz i hi).symm.trans ((missing_bit m x gid ls i hi).2 ⟨hn, ha, hp⟩))

/-- A waiter of the barrier that is released (R152): ready, in a pack with the other waiters. -/
def releasedWaiter (gid j ls tag : Nat) (u : Thread) : Thread :=
  match inRjwait u with
  | some (i, _) => if u.gid = gid ∧ u.tix / 32 = ls ∧ i = j then { u with stat := .ready, landed := false, pack := tag } else u
  | none => u

theorem releasedWaiter_waiting {u : Thread} {i : Nat} {p : Pos} (h : u.stat = .waiting (.rejoin i p)) (gid j ls tag : Nat) :
    releasedWaiter gid j ls tag u =
      if u.gid = gid ∧ u.tix / 32 = ls ∧ i = j then { u with stat := .ready, landed := false, pack := tag } else u := by
  simp only [releasedWaiter, inRjwait, h]

/-- Only `rjwait` makes a thread a waiter: another status is none. -/
theorem releasedWaiter_other {u : Thread} (h : ∀ i p, u.stat ≠ .waiting (.rejoin i p)) (gid j ls tag : Nat) :
    releasedWaiter gid j ls tag u = u := by
  have hnone : inRjwait u = none := by
    unfold inRjwait
    split
    · next i p hs => exact absurd hs (h i p)
    · rfl
  rw [releasedWaiter, hnone]

section
variable {m : Mach} {gid j ls : Nat} {x : Group} (hx : m.group? gid = some x)
include hx

theorem rejoinRelease_stays (h : (x.rejoin j ls).named = 0 ∨ missingLanes m gid ls (x.rejoin j ls) ≠ 0) :
    rejoinRelease m gid j ls = m := by
  rw [rejoinRelease, hx]
  exact if_pos h

theorem rejoinRelease_releases (hn : (x.rejoin j ls).named ≠ 0) (hz : missingLanes m gid ls (x.rejoin j ls) = 0) :
    rejoinRelease m gid j ls = { m with
      nextId := m.nextId + 1
      groups := m.groups.map (fun y => if y.gid == gid then y.setRejoin j ls {} else y)
      threads := m.threads.map (releasedWaiter gid j ls (m.nextId + 1)) } := by
  rw [rejoinRelease, hx]
  refine (if_neg (not_or.2 ⟨hn, not_not.2 hz⟩)).trans ?_
  simp only [Mach.updGroup, Mach.mk.injEq, true_and, and_true]
  refine List.map_congr_left (fun u _ => ?_)
  split
  · next i p hs => simp only [releasedWaiter_waiting hs, Bool.and_eq_true, beq_iff_eq, and_assoc]
  · next hs => rw [releasedWaiter_other hs]

end

/-! Rejoin cycles (R153). -/

/-- The lanes that a thread still waits for at its rejoin barrier. -/
def waitsForLanes (m : Mach) (g : Group) (gid : Nat) (t : Thread) : Word :=
  match inRjwait t with
  | some (j, _) => missingLanes m gid (t.tix / 32) (g.rejoin j (t.tix / 32))
  | none => 0

/-- The model's test for a cycle of the threads `ts`, which were asked for by the indices `tixs`. -/
def cycleFound (m : Mach) (g : Group) (gid : Nat) (tixs : List Nat) (ts : List Thread) : Bool :=
  !ts.isEmpty && ts.length == tixs.length && tixs.Pairwise (· < ·) &&
    ts.all (fun t => (inRjwait t).isSome && (List.range 32).all (fun i =>
      !(waitsForLanes m g gid t).getLsbD i || tixs.contains (32 * (t.tix / 32) + i)))

/-- The barriers of the threads that wait are emptied, each in its lane set. -/
def clearBarriers (m : Mach) (gid : Nat) (ts : List Thread) : Mach := ts.foldl (fun m t => clr m gid t) m

/-- The release of a cycle: its barriers are emptied, and then its threads take REJOIN.CYCLE. -/
def releaseCycle (m : Mach) (gid : Nat) (ts : List Thread) : Mach := ts.foldl (rz ts) (clearBarriers m gid ts)

section
variable {s : State} {gid : Nat} {tixs : List Nat} {g : Group} {ts : List Thread} (hg : s.m.group? gid = some g)
  (hts : tixs.map (fun i => s.m.thread? gid i) = ts.map some)
include hg hts

theorem exec_rejoinCycleDetect : exec (.rejoinCycleDetect gid tixs) s = .next ⟨s.agenda,
    if !cycleFound s.m g gid tixs ts then s.m else releaseCycle s.m gid ts⟩ := by
  have hmem : tixs.filterMap (fun i => s.m.thread? gid i) = ts := filterMap_of_map_some hts
  show execRejoinCycleDetect gid tixs s = _
  simp only [execRejoinCycleDetect, State.onMach, hg, hmem]
  rfl

/-- What the test asks of one thread is what R153 asks of it. -/
theorem waitsWithin_iff (t : Thread) : ((inRjwait t).isSome = true ∧
      ∀ i, i < 32 → (waitsForLanes s.m g gid t).getLsbD i = true → 32 * (t.tix / 32) + i ∈ tixs) ↔
    ∃ j p, inRjwait t = some (j, p) ∧ ∀ i, i < 32 →
      (g.rejoin j (t.tix / 32)).named.getLsbD i = true → (g.rejoin j (t.tix / 32)).arrived.getLsbD i = false →
      present s.m g.gid (t.tix / 32) i → ∃ u ∈ ts, u.tix = 32 * (t.tix / 32) + i := by
  obtain ⟨-, -, htix, -⟩ := mem_both hts
  have hlisted : ∀ n, n ∈ tixs ↔ ∃ u ∈ ts, u.tix = n := fun n => by rw [← htix, List.mem_map]
  rw [group?_gid hg]
  cases hj : inRjwait t with
  | none => simp
  | some jp =>
    obtain ⟨j, p⟩ := jp
    have hbit : ∀ i, i < 32 → ((waitsForLanes s.m g gid t).getLsbD i = true ↔
        (g.rejoin j (t.tix / 32)).named.getLsbD i = true ∧ (g.rejoin j (t.tix / 32)).arrived.getLsbD i = false ∧
          present s.m gid (t.tix / 32) i) := fun i hi => by
      rw [waitsForLanes, hj]
      exact missing_bit s.m _ gid _ i hi
    constructor
    · rintro ⟨-, hin⟩
      exact ⟨j, p, rfl, fun i hi hn ha hp => (hlisted _).1 (hin i hi ((hbit i hi).2 ⟨hn, ha, hp⟩))⟩
    · rintro ⟨j', p', he, hin⟩
      cases he
      refine ⟨rfl, fun i hi hb => ?_⟩
      obtain ⟨hn, ha, hp⟩ := (hbit i hi).1 hb
      exact (hlisted _).2 (hin i hi hn ha hp)

theorem cycleFound_iff (hp : tixs.Pairwise (· < ·)) : cycleFound s.m g gid tixs ts = true ↔ IsCycle s.m g ts := by
  obtain ⟨-, -, -, hlen⟩ := mem_both hts
  have htest : cycleFound s.m g gid tixs ts = true ↔ ts ≠ [] ∧ ∀ t ∈ ts, (inRjwait t).isSome = true ∧
      ∀ i, i < 32 → (waitsForLanes s.m g gid t).getLsbD i = true → 32 * (t.tix / 32) + i ∈ tixs := by
    simp only [cycleFound, hlen, hp, beq_self_eq_true, decide_true, Bool.and_true, Bool.and_eq_true, Bool.or_eq_true,
      List.all_eq_true, List.mem_range, List.contains_iff_mem, Bool.not_eq_true', Bool.eq_false_iff, ne_eq, List.isEmpty_iff,
      ← imp_iff_not_or]
  simp only [htest, IsCycle, waitsWithin_iff hg hts]

end

section
variable {m : Mach} {gid : Nat} {tixs : List Nat} {g : Group} {ts : List Thread} (hg : m.group? gid = some g)
  (hts : tixs.map (fun i => m.thread? gid i) = ts.map some) (hlt : ∀ i ∈ tixs, i < 1024)
include hg hts hlt

/-- Emptying the barriers changes only the rejoin barriers of the group: those where a thread of `ts` waits. -/
theorem clearBarriers_spec : clearBarriers m gid ts = { m with groups := (clearBarriers m gid ts).groups } ∧
    (∀ h, h ≠ gid → (clearBarriers m gid ts).group? h = m.group? h) ∧
    ∃ g', (clearBarriers m gid ts).group? gid = some g' ∧ g' = { g with rj := g'.rj } ∧
      (∀ j ls, ls < 32 → ((∃ t ∈ ts, ∃ p, inRjwait t = some (j, p) ∧ t.tix / 32 = ls) → g'.rejoin j ls = {}) ∧
        ((∀ t ∈ ts, ∀ p, ¬ (inRjwait t = some (j, p) ∧ t.tix / 32 = ls)) → g'.rejoin j ls = g.rejoin j ls)) := by
  obtain ⟨hmem, -, -, -⟩ := mem_both hts
  exact clr_fold gid ts m g (fun t ht => hlt _ (hmem t ht).1) hg

theorem thread?_clearBarriers (h i : Nat) : (clearBarriers m gid ts).thread? h i = m.thread? h i := by
  obtain ⟨hframe, -, -⟩ := clearBarriers_spec hg hts hlt
  rw [hframe]
  rfl

variable (hp : tixs.Pairwise (· < ·))
include hp

/-- Raising REJOIN.CYCLE changes the threads of the cycle only. -/
theorem releaseCycle_spec :
    releaseCycle m gid ts = { clearBarriers m gid ts with threads := (releaseCycle m gid ts).threads } ∧
    (∀ t ∈ ts, ∀ j p, inRjwait t = some (j, p) →
      (releaseCycle m gid ts).thread? gid t.tix = some (raised (cycRaise ts t j p) t)) ∧
    (∀ h i, ¬ (h = gid ∧ i ∈ tixs) → (releaseCycle m gid ts).thread? h i = m.thread? h i) := by
  obtain ⟨hmem, -, htix, -⟩ := mem_both hts
  obtain ⟨hframe, hraised, hothers⟩ := rz_fold ts gid ts (clearBarriers m gid ts) (by rwa [htix]) (fun t ht =>
    let ⟨_, hfound, hgid⟩ := hmem t ht
    ⟨hgid, (thread?_clearBarriers hg hts hlt _ _).trans hfound⟩)
  refine ⟨hframe, hraised, fun h i hn => ?_⟩
  rw [← thread?_clearBarriers hg hts hlt]
  exact hothers h i (by rwa [htix])

theorem releaseCycle_frame : releaseCycle m gid ts =
    { m with threads := (releaseCycle m gid ts).threads, groups := (releaseCycle m gid ts).groups } := by
  obtain ⟨hclear, -, -⟩ := clearBarriers_spec hg hts hlt
  obtain ⟨hraise, -, -⟩ := releaseCycle_spec hg hts hlt hp
  exact comb hclear hraise

theorem group?_releaseCycle (h : Nat) : (releaseCycle m gid ts).group? h = (clearBarriers m gid ts).group? h := by
  obtain ⟨hframe, -, -⟩ := releaseCycle_spec hg hts hlt hp
  rw [hframe]
  rfl

end

/-- Settles O28: the words of a thread, the release by the lanes that are missing, and the release of a cycle. -/
theorem rejoinBarriers : Obligations.RejoinBarriers := by
  unfold Obligations.RejoinBarriers
  refine ⟨⟨fun s r t g j a h => exec_rjarm_alone h j a, fun s r t g j x h hx => ⟨fun hn => ?unnamed, fun hn => ?waits⟩,
    fun m gid j ls x hx => ⟨fun hall hn => rejoinRelease_releases hx hn (missingLanes_eq_zero hall),
      fun i hi hn ha hp => rejoinRelease_stays hx (.inr (missingLanes_ne_zero hi hn ha hp))⟩,
    fun x j ls i k v hls hk => ⟨rejoin_set x j ls i k v hls hk, rfl⟩⟩,
    fun s gid tixs g ts hg hts hp hlt => ⟨fun hcyc => ⟨releaseCycle s.m gid ts, ?detected, ?released⟩, fun hcyc => ?noCycle⟩⟩
  case unnamed => rw [exec_rjwait_alone h j hx, if_pos hn]
  case waits => rw [exec_rjwait_alone h j hx, if_neg hn]
  case detected =>
    rw [exec_rejoinCycleDetect hg hts, (cycleFound_iff hg hts hp).2 hcyc]
    rfl
  case released =>
    obtain ⟨-, hgroups, hbarriers⟩ := clearBarriers_spec hg hts hlt
    obtain ⟨-, hraised, hothers⟩ := releaseCycle_spec hg hts hlt hp
    simp only [group?_releaseCycle hg hts hlt hp]
    exact ⟨releaseCycle_frame hg hts hlt hp, fun t ht j p hj => ⟨_, laneMask_is _, hraised t ht j p hj⟩, hothers, hgroups,
      hbarriers⟩
  case noCycle =>
    rw [exec_rejoinCycleDetect hg hts, Bool.eq_false_iff.2 (mt (cycleFound_iff hg hts hp).1 hcyc)]
    rfl

end Sys2Proof.Machine
end

section
/-!
PROOFS. The bytes that accesses read and write (R161, R164, R166 and Table 8-2).
-/

namespace Sys2Proof.Machine

/-! Registers as bytes (R164, R166). -/

/-- The low bytes of a register, lowest first. -/
theorem natBytes_word (n : Nat) (w : Word) : natBytes n w.toNat = (List.range n).map (fun i => w.extractLsb' (8 * i) 8) := by
  simp only [natBytes_range, byte_ext]

/-- The number of a register's low bytes is the register cut to them. -/
theorem ofNat_bytesNat_word (k n : Nat) (w : Word) :
    BitVec.ofNat k (bytesNat (natBytes n w.toNat)) = (w.setWidth (8 * n)).setWidth k := by
  refine BitVec.eq_of_toNat_eq ?_
  rw [bytesNat_natBytes, BitVec.toNat_ofNat, BitVec.toNat_setWidth, BitVec.toNat_setWidth, pow_mul]
  rfl

section
variable (t : Thread) (b : Nat)

theorem storeBytes_word : storeBytes t b .word = natBytes 4 (t.rd b).toNat := rfl

theorem storeBytes_dword : storeBytes t b .dword = storeBytes t b .word ++ storeBytes t (b + 1) .word := by
  rw [storeBytes_word, storeBytes_word, ← natBytes_split, ← rdD_nat]
  rfl

theorem storeBytes_quad : storeBytes t b .quad = storeBytes t b .dword ++ storeBytes t (b + 2) .dword := rfl

theorem length_storeBytes (sz : Size) : (storeBytes t b sz).length = sizeN sz := by
  cases sz <;> simp [storeBytes, sizeN, length_natBytes]

theorem wordOf_storeBytes : wordOf (storeBytes t b .word) = t.rd b := word_of_bytes _

end

/-! A load takes back what a store puts down. -/

section
variable (t : Thread) (b d : Nat) (sx : Bool)

theorem loadRegs_storeBytes_byte : loadRegs d .byte sx (storeBytes t b .byte) =
    [(d, if sx then ((t.rd b).truncate 8).signExtend 32 else ((t.rd b).truncate 8).zeroExtend 32)] := by
  simp only [loadRegs, storeBytes, wordOf, ofNat_bytesNat_word]
  rfl

theorem loadRegs_storeBytes_half : loadRegs d .half sx (storeBytes t b .half) =
    [(d, if sx then ((t.rd b).truncate 16).signExtend 32 else ((t.rd b).truncate 16).zeroExtend 32)] := by
  simp only [loadRegs, storeBytes, wordOf, ofNat_bytesNat_word]
  rfl

theorem loadRegs_storeBytes_word : loadRegs d .word sx (storeBytes t b .word) = [(d, t.rd b)] := by
  simp only [loadRegs, wordOf_storeBytes]

theorem loadRegs_dword {xs ys : List Byte} (h : xs.length = 4) :
    loadRegs d .dword sx (xs ++ ys) = [(d, wordOf xs), (d + 1, wordOf ys)] := by
  simp only [loadRegs, List.take_left' h, List.drop_left' h]

theorem loadRegs_storeBytes_dword : loadRegs d .dword sx (storeBytes t b .dword) = [(d, t.rd b), (d + 1, t.rd (b + 1))] := by
  rw [storeBytes_dword, loadRegs_dword d sx (length_storeBytes t b .word), wordOf_storeBytes, wordOf_storeBytes]

/-- Sixteen bytes load as two pairs. -/
theorem loadRegs_quad {xs ys : List Byte} (hx : xs.length = 8) :
    loadRegs d .quad sx (xs ++ ys) = loadRegs d .dword sx xs ++ loadRegs (d + 2) .dword sx ys := by
  have h12 : (xs ++ ys).drop 12 = ys.drop 4 := by
    rw [show 12 = xs.length + 4 by omega, ← List.drop_drop, List.drop_left]
  simp only [loadRegs, List.drop_left' hx, h12, List.take_append_of_le_length (show 4 ≤ xs.length by omega),
    List.drop_append_of_le_length (show 4 ≤ xs.length by omega), List.cons_append, List.nil_append, Nat.add_assoc]
  rw [List.take_left' (by rw [List.length_drop]; omega)]

theorem loadRegs_storeBytes_quad : loadRegs d .quad sx (storeBytes t b .quad) =
    [(d, t.rd b), (d + 1, t.rd (b + 1)), (d + 2, t.rd (b + 2)), (d + 3, t.rd (b + 3))] := by
  rw [storeBytes_quad, loadRegs_quad d sx (length_storeBytes t b .dword),
    loadRegs_storeBytes_dword, loadRegs_storeBytes_dword]
  rfl

end

/-- Settles O32: a register's bytes by their numbers, and an access by the class of its page. -/
theorem accessValues : Obligations.AccessValues := by
  unfold Obligations.AccessValues
  refine ⟨fun t b d sx => ⟨natBytes_word 1 _, natBytes_word 2 _, natBytes_word 4 _, storeBytes_dword t b, storeBytes_quad t b,
    loadRegs_storeBytes_byte t b d sx, loadRegs_storeBytes_half t b d sx, loadRegs_storeBytes_word t b d sx,
    loadRegs_storeBytes_dword t b d sx, loadRegs_storeBytes_quad t b d sx⟩,
    fun _ _ _ _ _ _ _ _ h => gRead_ok h, fun _ _ _ _ _ _ _ _ h => gWrite_ok h⟩

end Sys2Proof.Machine
end

section
/-!
PROOFS. Loads, stores and prefetches of global memory (R159, R160, R166, R167, R187), and the shapes that the words of
memory share.
-/

namespace Sys2Proof.Machine

/-! The shape of a word that accesses memory: aligned or not (R160), on a page that lets it be performed now (R188, R276),
and after its release where it asks for one (R167, R177). -/

section
variable {s : State} {r : Running} {t : Thread} {g : Guard} {i : Instr} {esc : Nat → Bool} {a n : Nat} {off : Int}
  {waits : Mach → Running → Thread → Bool} {f : Mach → Running → Thread → Mach} (h : Alone s r t g)
include h

/-- A word that waits for a release, with none to wait for. -/
theorem released_next (hi : ∀ s, exec i s = .next (s.onMach (fun m => relWord m g waits (seqWord m g f))))
    (hw : waits s.m r t = false) : exec i s = .next ⟨s.agenda, f s.m r t⟩ := by
  rw [hi, State.onMach, relWord_alone h, hw, seqWord_alone h]
  rfl

theorem release_stalls {go : Mach → Mach} (hi : ∀ s, exec i s = .next (s.onMach (fun m => relWord m g waits (go m))))
    (hw : waits s.m r t = true) : exec i s = .next ⟨s.agenda, stalled s.m r t⟩ := by
  rw [hi, State.onMach, relWord_alone h, hw]
  rfl

variable (hm : MayAccess s.m r t esc (globalEa t a off))
include hm

section
variable (hi : ∀ s, exec i s = .next (s.onMach (fun m => seqWord m g (fun m r t => byClass m r t esc (eaG t a off)
  (if eaG t a off % n ≠ 0 then misalign m r t (eaG t a off) n 1 else f m r t)))))
include hi

theorem access_misaligned (hn : globalEa t a off % n ≠ 0) : exec i s = .next ⟨s.agenda,
    accessed s.m r t esc (globalEa t a off) (withThread s.m t (raised (misalignAt r (globalEa t a off) n 1)))⟩ := by
  rw [seq_next h hi, eaG_eq, byClass_accessed _ hm, if_pos hn, misalign_eq]

theorem access_aligned (hn : globalEa t a off % n = 0) :
    exec i s = .next ⟨s.agenda, accessed s.m r t esc (globalEa t a off) (f s.m r t)⟩ := by
  rw [seq_next h hi, eaG_eq, byClass_accessed _ hm, if_neg (not_not.2 hn)]

end

variable (hi : ∀ s, exec i s = .next (s.onMach (fun m => relWord m g waits (seqWord m g (fun m r t => byClass m r t esc (eaG t a off)
  (if eaG t a off % n ≠ 0 then misalign m r t (eaG t a off) n 1 else f m r t)))))) (hw : waits s.m r t = false)
include hi hw

theorem ordered_misaligned (hn : globalEa t a off % n ≠ 0) : exec i s = .next ⟨s.agenda,
    accessed s.m r t esc (globalEa t a off) (withThread s.m t (raised (misalignAt r (globalEa t a off) n 1)))⟩ := by
  rw [released_next h hi hw, eaG_eq, byClass_accessed _ hm, if_pos hn, misalign_eq]

theorem ordered_aligned (hn : globalEa t a off % n = 0) :
    exec i s = .next ⟨s.agenda, accessed s.m r t esc (globalEa t a off) (f s.m r t)⟩ := by
  rw [released_next h hi hw, eaG_eq, byClass_accessed _ hm, if_neg (not_not.2 hn)]

end

section
variable {m : Mach} {r : Running} {t : Thread} {rel : Bool} {sc : Scope} {n a : Nat} {off : Int}

/-- A release that is ready, or not asked for, does not wait. -/
theorem relWaits_ready (h : globalEa t a off % n = 0 → (rel && ordActs m t (globalEa t a off)) = true →
    relReady m t (scopeNum sc) = true) : relWaits rel sc n (fun t => eaG t a off) m r t = false := by
  refine Bool.eq_false_iff.2 (fun hw => ?_)
  simp only [relWaits, eaG_eq, Bool.and_eq_true, beq_iff_eq, Bool.not_eq_true'] at hw
  obtain ⟨⟨⟨⟨hrel, -⟩, hn⟩, hord⟩, hr⟩ := hw
  exact Bool.false_ne_true (hr.symm.trans (h hn (by simp [hrel, hord])))

theorem relWaits_waits (hn : globalEa t a off % n = 0) (ho : (rel && ordActs m t (globalEa t a off)) = true)
    (he : escNow m r.core = true) (hr : relReady m t (scopeNum sc) = false) :
    relWaits rel sc n (fun t => eaG t a off) m r t = true := by
  obtain ⟨hrel, hord⟩ := Bool.and_eq_true_iff.1 ho
  simp [relWaits, eaG_eq, hrel, hord, hn, he, hr]

/-- `.rel` and `.acq` act on the pages of classes 1 and 2 (R167). -/
theorem ordActs_iff (a : Nat) : ordActs m t a = true ↔ pageClass m (whoOf m t.gid) a = some 1 ∨ pageClass m (whoOf m t.gid) a = some 2 := by
  unfold ordActs
  cases pageClass m (whoOf m t.gid) a <;> simp

/-- An access that is escaping on its page may be performed only where an escaping word may (R188). -/
theorem escNow_of_mayAccess {esc : Nat → Bool} {a c : Nat} (h : MayAccess m r t esc a)
    (hc : pageClass m (whoOf m t.gid) a = some c) (he : esc c = true) : escNow m r.core = true := by
  obtain ⟨hempty, hfree⟩ := (h c hc).1 he
  simp [escNow, hempty, hfree]

end

/-! The shape of a scratchpad word: aligned or not, and on the own scratchpad inside the allocation or not (R160). -/

theorem padOk_outside {m : Mach} {gid off n : Nat} (h : padIn m gid off n = false) : padOk m gid off n = false := by
  simp [padOk, h]

theorem padFault_outside {m : Mach} {gid off n : Nat} (h : padIn m gid off n = false) (r : Running) (t : Thread) (acc : Acc) :
    padFault m r t gid n acc off = superFault m t 2 0x0203 acc.code 0 off ⟨r.hdr, r.idx⟩ :=
  if_neg (Bool.eq_false_iff.1 h)

section
variable {s : State} {r : Running} {t : Thread} {g : Guard} {i : Instr} {a n : Nat} {off : Int}
  {f : Mach → Running → Thread → Mach} (h : Alone s r t g)
include h

section
variable (hi : ∀ s, exec i s = .next (s.onMach (fun m => seqWord m g (fun m r t =>
  if eaS t a off % n ≠ 0 then misalign m r t (eaS t a off) n 1 else f m r t))))
include hi

theorem pad_misaligned (hn : scratchEa t a off % n ≠ 0) : exec i s = .next ⟨s.agenda,
    withThread s.m t (raised (misalignAt r (scratchEa t a off) n 1))⟩ := by
  rw [seq_next h hi, eaS_eq, if_pos hn, misalign_eq]

theorem pad_aligned (hn : scratchEa t a off % n = 0) : exec i s = .next ⟨s.agenda, f s.m r t⟩ := by
  rw [seq_next h hi, eaS_eq, if_neg (not_not.2 hn)]

end

variable {acc : Acc} (hi : ∀ s, exec i s = .next (s.onMach (fun m => seqWord m g (fun m r t =>
  if eaS t a off % n ≠ 0 then misalign m r t (eaS t a off) n 1
  else if !padOk m t.gid (eaS t a off) n then padFault m r t t.gid n acc (eaS t a off) else f m r t))))
  (hn : scratchEa t a off % n = 0)
include hi hn

theorem pad_outside (hp : padIn s.m t.gid (scratchEa t a off) n = false) : exec i s = .next ⟨s.agenda,
    superFault s.m t 2 0x0203 acc.code 0 (scratchEa t a off) ⟨r.hdr, r.idx⟩⟩ := by
  rw [pad_aligned h hi hn, eaS_eq, padOk_outside hp, if_pos (by rfl), padFault_outside hp]

theorem pad_inside (hp : padOk s.m t.gid (scratchEa t a off) n = true) : exec i s = .next ⟨s.agenda, f s.m r t⟩ := by
  rw [pad_aligned h hi hn, eaS_eq, hp, if_neg (by decide)]

end

theorem whoOf_core (m : Mach) (gid : Nat) : (whoOf m gid).core = m.coreOf gid := by
  unfold whoOf
  split <;> rfl

/-! `ld` (R166, R167). -/

section
variable {s : State} {r : Running} {t : Thread} {x : Ldg}
variable (h : Alone s r t x.g) (hm : MayAccess s.m r t (· == 3) (globalEa t x.a x.off))
include h hm

theorem ld_misaligned (hn : globalEa t x.a x.off % sizeN x.sz ≠ 0) : exec (.ld x) s = .next ⟨s.agenda,
    accessed s.m r t (· == 3) (globalEa t x.a x.off)
      (withThread s.m t (raised (misalignAt r (globalEa t x.a x.off) (sizeN x.sz) 1)))⟩ :=
  access_misaligned h hm (fun _ => rfl) hn

variable (hn : globalEa t x.a x.off % sizeN x.sz = 0)
include hn

theorem ld_stops {e : MemErr} (hg : gRead s.m (whoOf s.m t.gid) .load x.sc (globalEa t x.a x.off) (sizeN x.sz) = .error e) :
    exec (.ld x) s = .next ⟨s.agenda,
      accessed s.m r t (· == 3) (globalEa t x.a x.off) (stopped s.m r t 0 (globalEa t x.a x.off) e)⟩ := by
  rw [access_aligned h hm (fun _ => rfl) hn, eaG_eq, hg]
  dsimp only
  rw [memStop_eq]
  rfl

theorem ld_loads {m : Mach} {bs : List Byte}
    (hg : gRead s.m (whoOf s.m t.gid) .load x.sc (globalEa t x.a x.off) (sizeN x.sz) = .ok (m, bs)) : exec (.ld x) s = .next ⟨s.agenda,
    accessed s.m r t (· == 3) (globalEa t x.a x.off)
      (let m' := withLoad m t (loadRegs x.d x.sz x.sx bs) (r.flag x.sel) (fun u => { u with poll := u.poll || x.poll })
       if x.acq && ordActs s.m t (globalEa t x.a x.off) then acqDo m' r.core (scopeNum x.sc) else m')⟩ := by
  rw [access_aligned h hm (fun _ => rfl) hn, eaG_eq, hg,
    ← withLoad_eq m t _ _ (fun u => { u with poll := u.poll || x.poll }) (fun _ => ⟨rfl, rfl⟩)]

end

/-! `st` (R166, R167, R251). -/

section
variable {s : State} {r : Running} {t : Thread} {x : Stg}
variable (h : Alone s r t x.g) (hm : MayAccess s.m r t (· != 0) (globalEa t x.a x.off))
include h hm

theorem st_misaligned (hn : globalEa t x.a x.off % sizeN x.sz ≠ 0) : exec (.st x) s = .next ⟨s.agenda,
    accessed s.m r t (· != 0) (globalEa t x.a x.off)
      (withThread s.m t (raised (misalignAt r (globalEa t x.a x.off) (sizeN x.sz) 1)))⟩ :=
  ordered_misaligned h hm (fun _ => rfl) (relWaits_ready (fun hz => absurd hz hn)) hn

variable (hn : globalEa t x.a x.off % sizeN x.sz = 0)
include hn

section
variable (ho : (x.rel && ordActs s.m t (globalEa t x.a x.off)) = false)
include ho

theorem st_stops {e : MemErr}
    (hg : gWrite s.m (whoOf s.m t.gid) x.sc t.gid t.tix (globalEa t x.a x.off) (storeBytes t x.b x.sz) = .error e) :
    exec (.st x) s = .next ⟨s.agenda,
      accessed s.m r t (· != 0) (globalEa t x.a x.off) (stopped s.m r t 1 (globalEa t x.a x.off) e)⟩ := by
  rw [ordered_aligned h hm (fun _ => rfl) (relWaits_ready (by simp [ho])) hn, eaG_eq, relThen, ho, if_neg Bool.false_ne_true, hg]
  dsimp only
  rw [memStop_eq]
  rfl

/-- A chunked store past the write set's room leaves its pack instead. -/
theorem st_stores {m m' : Mach} {y : Xlat}
    (hg : gWrite s.m (whoOf s.m t.gid) x.sc t.gid t.tix (globalEa t x.a x.off) (storeBytes t x.b x.sz) = .ok m)
    (ht : translate s.m (whoOf s.m t.gid) .store (globalEa t x.a x.off) = .ok (m', y)) :
    exec (.st x) s = .next ⟨s.agenda, accessed s.m r t (· != 0) (globalEa t x.a x.off)
      (if y.cls = 0 ∧ writeFull s.m r.core y = true then wordEscapes s.m r t 3 else m)⟩ := by
  rw [ordered_aligned h hm (fun _ => rfl) (relWaits_ready (by simp [ho])) hn, eaG_eq, relThen, ho, if_neg Bool.false_ne_true, hg, ht]
  rfl

end

variable (ho : (x.rel && ordActs s.m t (globalEa t x.a x.off)) = true)
include ho

theorem st_waits (hr : relReady s.m t (scopeNum x.sc) = false) : exec (.st x) s = .next ⟨s.agenda, stalled s.m r t⟩ := by
  have he : escNow s.m r.core = true := by
    rcases (ordActs_iff _).1 (Bool.and_eq_true_iff.1 ho).2 with hc | hc
    · exact escNow_of_mayAccess hm hc rfl
    · exact escNow_of_mayAccess hm hc rfl
  exact release_stalls h (fun _ => rfl) (relWaits_waits hn ho he hr)

theorem st_releases {m : Mach} (hr : relReady s.m t (scopeNum x.sc) = true)
    (hg : gWrite (relPush s.m r.core (scopeNum x.sc)) (whoOf s.m t.gid) x.sc t.gid t.tix (globalEa t x.a x.off)
      (storeBytes t x.b x.sz) = .ok m)
    (hc : ∀ m' y, translate (relPush s.m r.core (scopeNum x.sc)) (whoOf s.m t.gid) .store (globalEa t x.a x.off) = .ok (m', y) →
      y.cls ≠ 0) :
    exec (.st x) s = .next ⟨s.agenda, accessed s.m r t (· != 0) (globalEa t x.a x.off) m⟩ := by
  rw [ordered_aligned h hm (fun _ => rfl) (relWaits_ready (fun _ _ => hr)) hn, eaG_eq, relThen, ho, if_pos rfl, hg]
  dsimp only
  split
  · next ht => rw [if_neg (fun hy => hc _ _ ht hy.1)]
  · rfl

end

/-! `pref` (R187). -/

/-- What a prefetch keeps: chunks, groups and clauses, and home and the threads where no cache of the cores holds a dirty
scoped byte. -/
def Prefetches (cs : List Nat) (m n : Mach) : Prop :=
  Calm m n ∧ ((∀ c ∈ cs, Tidy c m) → n.mem = m.mem ∧ n.threads = m.threads)

theorem prefetches_refl (cs : List Nat) (m : Mach) : Prefetches cs m m := ⟨Calm.refl m, fun _ => ⟨rfl, rfl⟩⟩

theorem Prefetches.of_tidily {cs : List Nat} {m n : Mach} {c : Nat} (hc : c ∈ cs) (h : Calm m n) (ht : Tidy c m → Tidily c m n) :
    Prefetches cs m n :=
  ⟨h, fun hcs => ⟨(ht (hcs c hc)).mem, (ht (hcs c hc)).thr⟩⟩

section
variable {s : State} {r : Running} {t : Thread} {g : Guard} (h : Alone s r t g) (sc : Scope) (a : Nat) (off : Int)
include h

theorem pref_untranslated {e : MemErr} (ht : translate s.m (whoOf s.m t.gid) .load (globalEa t a off) = .error e) :
    exec (.pref g sc a off) s = .next ⟨s.agenda, s.m⟩ := by
  rw [seq_next h (fun _ => rfl), eaG_eq]
  dsimp only
  rw [ht]

theorem pref_translated {m' : Mach} {x : Xlat} (ht : translate s.m (whoOf s.m t.gid) .load (globalEa t a off) = .ok (m', x)) :
    ∃ m, exec (.pref g sc a off) s = .next ⟨s.agenda, m⟩ ∧ Prefetches [r.core, s.m.coreOf t.gid] m' m := by
  refine ⟨_, seq_next h (fun _ => rfl), ?_⟩
  rw [eaG_eq]
  dsimp only
  rw [ht]
  dsimp only
  split
  · cases sc with
    | core =>
      have hp := pref_calm m' (whoOf s.m t.gid) (globalEa t a off % 2 ^ 48) x ((List.range 16).map (fun i => x.pa / 512 * 512 + 32 * i))
      exact .of_tidily (by rw [whoOf_core]; simp) hp.1 hp.2
    | cl =>
      dsimp only
      split
      · exact .of_tidily (c := r.core) (by simp) (calm_fold _ (fun m b => calm_sector m _ x.grain x.cls x.world b) _ m')
          (tidily_fold _ (fun m b => tidily_sector x.grain x.cls x.world b) _ m')
      · exact prefetches_refl _ _
    | die => exact prefetches_refl _ _
    | pkg => exact prefetches_refl _ _
    | sys => exact prefetches_refl _ _
  · exact prefetches_refl _ _

theorem pref_keeps : ∃ m, exec (.pref g sc a off) s = .next ⟨s.agenda, m⟩ ∧ Prefetches [r.core, s.m.coreOf t.gid] s.m m ∧
    ∀ e, translate s.m (whoOf s.m t.gid) .load (globalEa t a off) = .error e → m = s.m := by
  cases ht : translate s.m (whoOf s.m t.gid) .load (globalEa t a off) with
  | error e => exact ⟨s.m, pref_untranslated h sc a off ht, prefetches_refl _ _, fun _ _ => rfl⟩
  | ok y =>
    obtain ⟨m', x⟩ := y
    obtain ⟨m, hx, hcalm, hmem⟩ := pref_translated h sc a off ht
    obtain ⟨d, rfl⟩ := translate_ok ht
    exact ⟨m, hx, ⟨⟨hcalm.ch, hcalm.gr, hcalm.rn⟩, hmem⟩, fun e he => by cases he⟩

end

/-! LOAD_DATA_ARRIVE (R51). -/

theorem exec_loadDataArrive (gid tix id : Nat) (s : State) : exec (.loadDataArrive gid tix id) s =
    execLoadDataArrive gid tix id s := rfl

/-- Settles O31, by the outcome of each access. -/
theorem loadsAndStores : Obligations.LoadsAndStores := by
  unfold Obligations.LoadsAndStores
  refine ⟨fun s r t x h hm => ⟨ld_misaligned h hm, fun e hn => ld_stops h hm hn, fun m bs hn => ld_loads h hm hn⟩,
    fun s r t x h hm => ⟨st_misaligned h hm, fun e hn ho => st_stops h hm hn ho, fun m m' y hn ho hg ht hy => ?room,
      fun m m' y hn ho hg ht hc hw => ?full, fun hn ho => st_waits h hm hn ho, fun m hn ho => st_releases h hm hn ho⟩,
    fun s r t g sc a off h => ?pref, fun s gid tix id => ?arrive⟩
  case room => rw [st_stores h hm hn ho hg ht, if_neg hy]
  case full => rw [st_stores h hm hn ho hg ht, if_pos ⟨hc, hw⟩]
  case pref =>
    obtain ⟨m, hx, ⟨hcalm, hmem⟩, he⟩ := pref_keeps h sc a off
    exact ⟨m, hx, hcalm.gr, hcalm.rn, fun c => (hcalm.ch c).1, hmem, he⟩
  case arrive =>
    simp only [exec_loadDataArrive, execLoadDataArrive, State.onMach, putRegs_eq]
    rfl

end Sys2Proof.Machine
end

section
/-!
PROOFS. Atomic operations (R160, R171 to R175, Tables 8-7 and 8-8).
-/

namespace Sys2Proof.Machine

/-! The value that an operation leaves (Table 8-7). -/

/-- The operations on integers of 4 and 8 bytes. -/
theorem atomNew_integer {w n : Nat} (hw : w = 8 * n) (hn : 0 < n) (a b : BitVec w) (e : Nat) :
    atomNew .add n a.toNat b.toNat e = (a + b).toNat ∧
    atomNew .and n a.toNat b.toNat e = (a &&& b).toNat ∧
    atomNew .or n a.toNat b.toNat e = (a ||| b).toNat ∧
    atomNew .xor n a.toNat b.toNat e = (a ^^^ b).toNat ∧
    atomNew .min n a.toNat b.toNat e = (if b.toInt < a.toInt then b else a).toNat ∧
    atomNew .max n a.toNat b.toNat e = (if a.toInt < b.toInt then b else a).toNat ∧
    atomNew .minu n a.toNat b.toNat e = (if b.toNat < a.toNat then b else a).toNat ∧
    atomNew .maxu n a.toNat b.toNat e = (if a.toNat < b.toNat then b else a).toNat := by
  subst hw
  have hs : ∀ v : BitVec (8 * n), signedN n v.toNat = v.toInt := signed_eq (8 * n) (by omega)
  refine ⟨(BitVec.toNat_add a b).symm, (BitVec.toNat_and a b).symm, (BitVec.toNat_or a b).symm, (BitVec.toNat_xor a b).symm,
    ?_, ?_, ?_, ?_⟩
  · simp only [atomNew, hs, apply_ite BitVec.toNat]
  · simp only [atomNew, hs, apply_ite BitVec.toNat]
  · rw [apply_ite BitVec.toNat]
    change min a.toNat b.toNat = _
    split <;> omega
  · rw [apply_ite BitVec.toNat]
    change max a.toNat b.toNat = _
    split <;> omega

/-- The lesser and the greater are one of the two codes, or the NaN. -/
theorem minMaxF_mem (mx : Bool) (a b : Nat) : (minMaxF FP32 mx a b).1 ∈ [FP32.nanCode, a, b] := by
  unfold minMaxF
  dsimp only
  split_ifs <;> simp

theorem minMaxF_lt (mx : Bool) (a b : Word) : (minMaxF FP32 mx a.toNat b.toNat).1 < 2 ^ 32 := by
  have hmem := minMaxF_mem mx a.toNat b.toNat
  simp only [List.mem_cons, List.not_mem_nil, or_false] at hmem
  rcases hmem with h | h | h <;> rw [h]
  · decide
  · exact a.isLt
  · exact b.isLt

theorem minMaxF_eq {mx : Bool} {a b v : Word} (h : BitVec.ofNat 32 (minMaxF FP32 mx a.toNat b.toNat).1 = v) :
    (minMaxF FP32 mx a.toNat b.toNat).1 = v.toNat := by
  rw [← h, BitVec.toNat_ofNat, Nat.mod_eq_of_lt (minMaxF_lt mx a b)]

/-- Numbers in order, the lesser first. -/
theorem minMaxF_less {a b : Word} (ha : (fp a).isNaN = false) (hb : (fp b).isNaN = false)
    (h : Less (fp a) (fp b) ∨ ZeroBelow (fp a) (fp b)) :
    (minMaxF FP32 false a.toNat b.toNat).1 = a.toNat ∧ (minMaxF FP32 true a.toNat b.toNat).1 = b.toNat := by
  obtain ⟨-, -, hmin, -⟩ := Round.minmax false a b
  obtain ⟨-, -, -, hmax⟩ := Round.minmax true a b
  exact ⟨minMaxF_eq (hmin ha (.inr h)), minMaxF_eq (hmax ha hb h)⟩

theorem minMaxF_greater {a b : Word} (ha : (fp a).isNaN = false) (hb : (fp b).isNaN = false)
    (h : Less (fp b) (fp a) ∨ ZeroBelow (fp b) (fp a)) :
    (minMaxF FP32 false a.toNat b.toNat).1 = b.toNat ∧ (minMaxF FP32 true a.toNat b.toNat).1 = a.toNat := by
  obtain ⟨-, -, -, hmin⟩ := Round.minmax false a b
  obtain ⟨-, -, hmax, -⟩ := Round.minmax true a b
  exact ⟨minMaxF_eq (hmin ha hb h), minMaxF_eq (hmax ha (.inr h))⟩

/-! `atom` (R172). -/

/-- The atomic of an `atom` word at its address. -/
def atomOf (m : Mach) (t : Thread) (x : Atm) : AtomDone :=
  atomAt m (whoOf m t.gid) x.sc (globalEa t x.a x.off) (sizeN x.sz) (fun old =>
    atomNew x.op (sizeN x.sz) old (atomOperands x.op t x.b x.sz).1 (atomOperands x.op t x.b x.sz).2)

section
variable {s : State} {r : Running} {t : Thread} {x : Atm}
variable (h : Alone s r t x.g) (hm : MayAccess s.m r t (· != 2) (globalEa t x.a x.off))
include h hm

theorem atom_misaligned (hn : globalEa t x.a x.off % sizeN x.sz ≠ 0) : exec (.atom x) s = .next ⟨s.agenda,
    accessed s.m r t (· != 2) (globalEa t x.a x.off)
      (withThread s.m t (raised (misalignAt r (globalEa t x.a x.off) (sizeN x.sz) 1)))⟩ :=
  access_misaligned h hm (fun _ => rfl) hn

variable (hn : globalEa t x.a x.off % sizeN x.sz = 0)
include hn

theorem atom_stops {e : MemErr} (ha : atomOf s.m t x = .err e) :
    exec (.atom x) s = .next ⟨s.agenda,
      accessed s.m r t (· != 2) (globalEa t x.a x.off) (stopped s.m r t 2 (globalEa t x.a x.off) e)⟩ := by
  rw [atomOf] at ha
  rw [access_aligned h hm (fun _ => rfl) hn, eaG_eq]
  dsimp only
  rw [ha]
  dsimp only
  rw [memStop_eq]
  rfl

theorem atom_waits (ha : atomOf s.m t x = .wait) :
    exec (.atom x) s = .next ⟨s.agenda, accessed s.m r t (· != 2) (globalEa t x.a x.off) (stalled s.m r t)⟩ := by
  rw [atomOf] at ha
  rw [access_aligned h hm (fun _ => rfl) hn, eaG_eq]
  dsimp only
  rw [ha]
  rfl

theorem atom_does {m : Mach} {old : Nat} (ha : atomOf s.m t x = .done m old) :
    exec (.atom x) s = .next ⟨s.agenda, accessed s.m r t (· != 2) (globalEa t x.a x.off)
      (withLoad m t (loadRegs x.d x.sz false (natBytes (sizeN x.sz) old)) (r.flag x.sel)
        (fun u => if x.op = .cas ∧ old ≠ (atomOperands x.op t x.b x.sz).2 then { u with demoted := true } else u))⟩ := by
  rw [atomOf] at ha
  rw [access_aligned h hm (fun _ => rfl) hn, eaG_eq]
  dsimp only
  rw [ha]
  dsimp only
  rw [ite_upd]

end

/-! `red` (R173): at its point, or deferred in the open chunk. -/

section
variable {s : State} {r : Running} {t : Thread} {x : Rdg}
variable (h : Alone s r t x.g) (hm : MayAccess s.m r t (fun c => c == 1 || c == 3) (globalEa t x.a x.off))
include h hm

theorem red_misaligned (hn : globalEa t x.a x.off % sizeN x.sz ≠ 0) : exec (.red x) s = .next ⟨s.agenda,
    accessed s.m r t (fun c => c == 1 || c == 3) (globalEa t x.a x.off)
      (withThread s.m t (raised (misalignAt r (globalEa t x.a x.off) (sizeN x.sz) 1)))⟩ :=
  ordered_misaligned h hm (fun _ => rfl) (relWaits_ready (fun hz => absurd hz hn)) hn

theorem red_waits (hn : globalEa t x.a x.off % sizeN x.sz = 0) (hrel : x.rel = true)
    (hc : pageClass s.m (whoOf s.m t.gid) (globalEa t x.a x.off) = some 1) (hr : relReady s.m t (scopeNum x.sc) = false) :
    exec (.red x) s = .next ⟨s.agenda, stalled s.m r t⟩ := by
  have he : escNow s.m r.core = true := escNow_of_mayAccess hm hc rfl
  have ho : (x.rel && ordActs s.m t (globalEa t x.a x.off)) = true := by rw [hrel, (ordActs_iff _).2 (.inl hc)]; rfl
  exact release_stalls h (fun _ => rfl) (relWaits_waits hn ho he hr)

section
variable {m0 m : Mach} {y : Xlat} (hr : (x.rel && ordActs s.m t (globalEa t x.a x.off)) = true → relReady s.m t (scopeNum x.sc) = true)
  (hm0 : m0 = if x.rel && ordActs s.m t (globalEa t x.a x.off) then relPush s.m r.core (scopeNum x.sc) else s.m)
  (hn : globalEa t x.a x.off % sizeN x.sz = 0)
  (ht : translate m0 (whoOf s.m t.gid) .atomic (globalEa t x.a x.off) = .ok (m, y))
include hr hm0 hn ht

section
variable (hc : y.cls = 0) (ha : reachable m .atomic (whoOf s.m t.gid).die y.pa (sizeN x.sz) = .ok ())
include hc ha

theorem red_defers (hfree : (m0.core r.core).comC = none) (hroom : (m0.core r.core).openC.reds.length < 1024) :
    exec (.red x) s = .next ⟨s.agenda, accessed s.m r t (fun c => c == 1 || c == 3) (globalEa t x.a x.off)
      (m.updCore r.core (fun k => { k with
        openC := { k.openC.page (whoOf s.m t.gid).asid (globalEa t x.a x.off) with
                   reds := k.openC.reds ++ [⟨y.pa, x.op, sizeN x.sz, (atomOperands x.op t x.b x.sz).1, y.grain⟩] } }))⟩ := by
  rw [ordered_aligned h hm (fun _ => rfl) (relWaits_ready (fun _ => hr)) hn, eaG_eq, relThen, ← hm0]
  dsimp only
  rw [ht]
  dsimp only
  rw [if_pos hc, ha]
  dsimp only
  rw [hfree]
  dsimp only
  rw [if_neg (show ¬ Config.writeSet ≤ _ + 0 from Nat.not_le.2 hroom)]

theorem red_full (hfull : 1024 ≤ (m0.core r.core).openC.reds.length) :
    exec (.red x) s = .next ⟨s.agenda, accessed s.m r t (fun c => c == 1 || c == 3) (globalEa t x.a x.off) (wordEscapes m0 r t 3)⟩ := by
  rw [ordered_aligned h hm (fun _ => rfl) (relWaits_ready (fun _ => hr)) hn, eaG_eq, relThen, ← hm0]
  dsimp only
  rw [ht]
  dsimp only
  rw [if_pos hc, ha]
  dsimp only
  rw [if_pos (show Config.writeSet ≤ _ from Nat.le_add_right_of_le hfull)]
  rfl

end

theorem red_does {m' : Mach} {old : Nat} (hc : y.cls ≠ 0) (hd : deviceMem y.pa = true)
    (ha : atomAt m0 (whoOf s.m t.gid) x.sc (globalEa t x.a x.off) (sizeN x.sz) (fun old =>
      atomNew x.op (sizeN x.sz) old (atomOperands x.op t x.b x.sz).1 (atomOperands x.op t x.b x.sz).2) = .done m' old) :
    exec (.red x) s = .next ⟨s.agenda, accessed s.m r t (fun c => c == 1 || c == 3) (globalEa t x.a x.off) m'⟩ := by
  rw [ordered_aligned h hm (fun _ => rfl) (relWaits_ready (fun _ => hr)) hn, eaG_eq, relThen, ← hm0]
  dsimp only
  rw [ht]
  dsimp only
  rw [if_neg hc, ha]
  dsimp only
  rw [if_pos hd]

end

end

/-! `atoms` (R174): an atomic on the group's own scratchpad. -/

section
variable {s : State} {r : Running} {t : Thread} {x : Atm} (h : Alone s r t x.g)
include h

theorem atoms_misaligned (hn : scratchEa t x.a x.off % sizeN x.sz ≠ 0) : exec (.atoms x) s = .next ⟨s.agenda,
    withThread s.m t (raised (misalignAt r (scratchEa t x.a x.off) (sizeN x.sz) 1))⟩ :=
  pad_misaligned h (fun _ => rfl) hn

variable (hn : scratchEa t x.a x.off % sizeN x.sz = 0)
include hn

theorem atoms_outside (hp : padIn s.m t.gid (scratchEa t x.a x.off) (sizeN x.sz) = false) : exec (.atoms x) s = .next ⟨s.agenda,
    superFault s.m t 2 0x0203 2 0 (scratchEa t x.a x.off) ⟨r.hdr, r.idx⟩⟩ :=
  pad_outside (acc := .atomic) h (fun _ => rfl) hn hp

variable (hp : padOk s.m t.gid (scratchEa t x.a x.off) (sizeN x.sz) = true)
include hp

theorem atoms_full (hu : undoFull s.m r.core t.gid (scratchEa t x.a x.off) (sizeN x.sz) = true) :
    exec (.atoms x) s = .next ⟨s.agenda, wordEscapes s.m r t 4⟩ := by
  rw [pad_inside h (fun _ => rfl) hn hp, eaS_eq, if_pos hu]
  rfl

theorem atoms_does (hu : undoFull s.m r.core t.gid (scratchEa t x.a x.off) (sizeN x.sz) = false) :
    let ea := scratchEa t x.a x.off
    let v := atomOperands x.op t x.b x.sz
    let old := bytesNat (padRead s.m t.gid ea (sizeN x.sz))
    exec (.atoms x) s = .next ⟨s.agenda,
      withLoad (padWrite s.m r.core t.gid ea (natBytes (sizeN x.sz) (atomNew x.op (sizeN x.sz) old v.1 v.2))) t
        (loadRegs x.d x.sz false (natBytes (sizeN x.sz) old)) (r.flag x.sel)
        (fun u => if x.op = .cas ∧ old ≠ v.2 then { u with demoted := true } else u)⟩ := by
  rw [pad_inside h (fun _ => rfl) hn hp, eaS_eq, if_neg (Bool.eq_false_iff.1 hu)]
  dsimp only
  rw [ite_upd]

end

/-- Settles O33: Table 8-7 by each operation's value, and each word by what its access meets. -/
theorem atomicOperations : Obligations.AtomicOperations := by
  unfold Obligations.AtomicOperations
  refine ⟨⟨fun w n a b e hwn => ?integers, ⟨fun rnd a b => word32 (addF FP32 rnd a.toNat b.toNat), isSum_addF, fun _ _ _ => rfl⟩,
    fun a b e ha hb => ⟨minMaxF_less ha hb, minMaxF_greater ha hb⟩, fun _ _ _ _ _ _ _ _ h => atomAt_ok h⟩,
    fun s r t x h hm => ⟨atom_misaligned h hm, fun e hn => atom_stops h hm hn, atom_waits h hm, fun m old hn => atom_does h hm hn⟩,
    fun s r t x h hm => ⟨red_misaligned h hm, red_waits h hm, fun hr m0 hm0 => ⟨
      fun m y hn ht => red_defers h hm hr hm0 hn ht, fun m y hn ht => red_full h hm hr hm0 hn ht,
      fun m y m' old hn ht => red_does h hm hr hm0 hn ht⟩⟩,
    fun s r t x h => ⟨atoms_misaligned h, atoms_outside h, atoms_full h, atoms_does h⟩⟩
  case integers =>
    have hw : w = 8 * n ∧ 0 < n := by simp only [List.mem_cons, Prod.mk.injEq, List.not_mem_nil, or_false] at hwn; omega
    exact ⟨rfl, rfl, atomNew_integer hw.1 hw.2 a b e⟩

end Sys2Proof.Machine
end

section
/-!
PROOFS. The scratchpad, own and peer (R160, R168 to R170).
-/

namespace Sys2Proof.Machine

/-! Loads: `lds` and `ldx`. -/

section
variable {s : State} {r : Running} {t : Thread} {x : Lds} (h : Alone s r t x.g)
include h

theorem lds_misaligned (hn : scratchEa t x.a x.off % sizeN x.sz ≠ 0) : exec (.lds x) s = .next ⟨s.agenda,
    withThread s.m t (raised (misalignAt r (scratchEa t x.a x.off) (sizeN x.sz) 1))⟩ :=
  pad_misaligned h (fun _ => rfl) hn

theorem ldx_misaligned (hn : scratchEa t x.a x.off % sizeN x.sz ≠ 0) : exec (.ldx x) s = .next ⟨s.agenda,
    withThread s.m t (raised (misalignAt r (scratchEa t x.a x.off) (sizeN x.sz) 1))⟩ :=
  pad_misaligned h (fun _ => rfl) hn

variable (hn : scratchEa t x.a x.off % sizeN x.sz = 0)
include hn

theorem lds_outside (hp : padIn s.m t.gid (scratchEa t x.a x.off) (sizeN x.sz) = false) : exec (.lds x) s = .next ⟨s.agenda,
    superFault s.m t 2 0x0203 0 0 (scratchEa t x.a x.off) ⟨r.hdr, r.idx⟩⟩ :=
  pad_outside (acc := .load) h (fun _ => rfl) hn hp

theorem lds_loads (hp : padOk s.m t.gid (scratchEa t x.a x.off) (sizeN x.sz) = true) : exec (.lds x) s = .next ⟨s.agenda,
    withThread s.m t (fun u => { u with
      w := (loadRegs x.d x.sz x.sx (padRead s.m t.gid (scratchEa t x.a x.off) (sizeN x.sz))).foldl
        (fun w e => rput w e.1 e.2) u.w })⟩ := by
  rw [pad_inside h (fun _ => rfl) hn hp, eaS_eq, updThread_eq]
  simp only [putRegs_eq]

theorem ldx_noPeer (hp : peerOf s.m t.gid x.rank = none) : exec (.ldx x) s = .next ⟨s.agenda,
    superFault s.m t 2 0x0203 0 0 (scratchEa t x.a x.off) ⟨r.hdr, r.idx⟩⟩ := by
  rw [pad_aligned h (fun _ => rfl) hn, eaS_eq, hp]
  rfl

theorem ldx_loads {p : Nat} (hpeer : peerOf s.m t.gid x.rank = some p)
    (hp : padOk s.m p (scratchEa t x.a x.off) (sizeN x.sz) = true) : exec (.ldx x) s = .next ⟨s.agenda,
    withLoad s.m t (loadRegs x.d x.sz x.sx (padRead s.m p (scratchEa t x.a x.off) (sizeN x.sz))) (r.flag x.sel) id⟩ := by
  rw [pad_aligned h (fun _ => rfl) hn, eaS_eq, hpeer]
  dsimp only
  rw [hp, if_neg (by decide), withLoad_id]

end

/-! Stores: `sts`, and `stx`, which is escaping. -/

section
variable {s : State} {r : Running} {t : Thread} {x : Sts} (h : Alone s r t x.g)
include h

theorem sts_misaligned (hn : scratchEa t x.a x.off % sizeN x.sz ≠ 0) : exec (.sts x) s = .next ⟨s.agenda,
    withThread s.m t (raised (misalignAt r (scratchEa t x.a x.off) (sizeN x.sz) 1))⟩ :=
  pad_misaligned h (fun _ => rfl) hn

variable (hn : scratchEa t x.a x.off % sizeN x.sz = 0)
include hn

theorem sts_outside (hp : padIn s.m t.gid (scratchEa t x.a x.off) (sizeN x.sz) = false) : exec (.sts x) s = .next ⟨s.agenda,
    superFault s.m t 2 0x0203 1 0 (scratchEa t x.a x.off) ⟨r.hdr, r.idx⟩⟩ :=
  pad_outside (acc := .store) h (fun _ => rfl) hn hp

variable (hp : padOk s.m t.gid (scratchEa t x.a x.off) (sizeN x.sz) = true)
include hp

theorem sts_full (hu : undoFull s.m r.core t.gid (scratchEa t x.a x.off) (sizeN x.sz) = true) :
    exec (.sts x) s = .next ⟨s.agenda, wordEscapes s.m r t 4⟩ := by
  rw [pad_inside h (fun _ => rfl) hn hp, eaS_eq, if_pos hu]
  rfl

theorem sts_stores (hu : undoFull s.m r.core t.gid (scratchEa t x.a x.off) (sizeN x.sz) = false) :
    exec (.sts x) s = .next ⟨s.agenda, padWrite s.m r.core t.gid (scratchEa t x.a x.off) (storeBytes t x.b x.sz)⟩ := by
  rw [pad_inside h (fun _ => rfl) hn hp, eaS_eq, if_neg (Bool.eq_false_iff.1 hu)]

end

section
variable {s : State} {r : Running} {t : Thread} {x : Sts} (h : Escapes s r t x.g) (hn : scratchEa t x.a x.off % sizeN x.sz = 0)
include h hn

theorem stx_noPeer (hp : peerOf s.m t.gid x.rank = none) : exec (.stx x) s = .next ⟨s.agenda,
    creditWord (superFault s.m t 2 0x0203 1 0 (scratchEa t x.a x.off) ⟨r.hdr, r.idx⟩) r t 6 1⟩ := by
  rw [esc_next h (fun _ => rfl), eaS_eq, if_neg (not_not.2 hn), hp]
  rfl

variable {p : Nat} (hpeer : peerOf s.m t.gid x.rank = some p) (hp : padOk s.m p (scratchEa t x.a x.off) (sizeN x.sz) = true)
include hpeer hp

theorem stx_holds (hr : 65535 ≤ t.prs) : exec (.stx x) s = .next ⟨s.agenda, creditWord (stalled s.m r t) r t 6 1⟩ := by
  rw [esc_next h (fun _ => rfl), eaS_eq, if_neg (not_not.2 hn), hpeer]
  dsimp only
  rw [hp, if_neg (by decide), if_pos hr]
  rfl

theorem stx_issues (hr : t.prs < 65535) : exec (.stx x) s = .next ⟨s.agenda, creditWord (withThread { s.m with
      nextId := s.m.nextId + 1
      stxs := s.m.stxs ++ [⟨s.m.nextId, t.gid, t.tix, p, scratchEa t x.a x.off, storeBytes t x.b x.sz, false⟩] } t
        (fun u => { u with prs := u.prs + 1 })) r t 6 1⟩ := by
  rw [esc_next h (fun _ => rfl), eaS_eq, if_neg (not_not.2 hn), hpeer]
  dsimp only
  rw [hp, if_neg (by decide), if_neg (Nat.not_le.2 hr), updThread_eq]

end

/-! A peer store in flight: it is performed in its turn, and acknowledged later (R170). -/

theorem stxPerform_next {s : State} {id : Nat} {x : Stx} (hx : s.m.stxs.find? (fun y => y.id == id) = some x) (hd : x.done = false)
    (hf : s.m.stxs.find? (fun y => y.gid == x.gid && y.tix == x.tix && y.toGid == x.toGid && !y.done) = some x) :
    exec (.stxPerform id) s = .next ⟨s.agenda, padWriteOut { s.m with
      stxs := s.m.stxs.map (fun y => if y.id == id then { y with done := true } else y) } x.toGid x.off x.data⟩ := by
  rw [ev_next (fun _ => rfl), hx]
  dsimp only
  rw [hf, hd, if_neg (by simp)]

theorem stxAck_next {s : State} {id : Nat} {x : Stx} (hx : s.m.stxs.find? (fun y => y.id == id && y.done) = some x) :
    exec (.stxAck id) s = .next ⟨s.agenda, { s.m with
      stxs := s.m.stxs.filter (fun y => y.id != id)
      threads := s.m.threads.map (fun t => if t.gid == x.gid && t.tix == x.tix then { t with prs := t.prs - 1 } else t) }⟩ := by
  rw [ev_next (fun _ => rfl), hx]
  rfl

/-! A store of the group's own threads (R168, R169): its bytes, and the log of what they replace. -/

/-- The 8-byte words that a write meets are those that it logs. -/
theorem undoWord_mem {off n o : Nat} (h1 : off < 8 * o + 8) (h2 : 8 * o < off + n) :
    ∃ i ∈ List.range ((off + n - 1) / 8 - off / 8 + 1), (off / 8 + i) * 8 = 8 * o :=
  ⟨o - off / 8, List.mem_range.2 (by omega), by omega⟩

theorem undoLog_spec {m : Mach} {gid : Nat} {g : Group} (hg : m.group? gid = some g) (c off n : Nat) :
    (undoLog m c gid off n).groups = m.groups ∧ (undoLog m c gid off n).mem = m.mem ∧
    (∀ e ∈ (m.core c).openC.undo, e ∈ ((undoLog m c gid off n).core c).openC.undo) ∧
    (∀ o, off < 8 * o + 8 → 8 * o < off + n → (∀ e ∈ (m.core c).openC.undo, ¬ (e.gid = gid ∧ e.off = 8 * o)) →
      ⟨gid, 8 * o, cread g.spad (8 * o) 8⟩ ∈ ((undoLog m c gid off n).core c).openC.undo) := by
  obtain ⟨hkept, hnew⟩ := undo_fold gid g.spad (fun i => (off / 8 + i) * 8) (List.range ((off + n - 1) / 8 - off / 8 + 1))
    (m.core c).openC.undo
  unfold undoLog
  simp only [hg, Mach.core_updCore_self]
  refine ⟨rfl, rfl, hkept, fun o h1 h2 hfresh => ?_⟩
  obtain ⟨i, hi, he⟩ := undoWord_mem h1 h2
  have := hnew i hi
  simp only [he] at this
  exact this hfresh

theorem padWrite_spec {m : Mach} {gid : Nat} {g : Group} (hg : m.group? gid = some g) (c off : Nat) (bs : List Byte) :
    (padWrite m c gid off bs).group? gid = some { g with spad := cwrite g.spad off bs } ∧
    (∀ h, h ≠ gid → (padWrite m c gid off bs).group? h = m.group? h) ∧ (padWrite m c gid off bs).mem = m.mem ∧
    ((padWrite m c gid off bs).core c).openC.undo = ((undoLog m c gid off bs.length).core c).openC.undo := by
  obtain ⟨hgroups, hmem, -, -⟩ := undoLog_spec hg c off bs.length
  have hsame : ∀ h, (undoLog m c gid off bs.length).group? h = m.group? h := fun h => by rw [Mach.group?, hgroups, Mach.group?]
  obtain ⟨hself, hother, hpmem, hcores⟩ := padPut_ok _ gid off bs g ((hsame gid).trans hg)
  exact ⟨hself, fun h hh => (hother h hh).trans (hsame h), hpmem.trans hmem, by rw [padWrite, Mach.core, hcores, Mach.core]⟩

/-- Settles O34: each word by where its address lies, and a store by its bytes and by the words that it logs. -/
theorem scratchpad : Obligations.Scratchpad := by
  unfold Obligations.Scratchpad
  refine ⟨fun s r t x h => ⟨fun hn i hi => ?misaligned, lds_outside h, lds_loads h, ldx_noPeer h, fun p hn => ldx_loads h hn⟩,
    fun s r t x h => ⟨sts_misaligned h, sts_outside h, sts_full h, sts_stores h⟩,
    fun s r t x h => ⟨fun p hn => stx_issues h hn, fun p hn => stx_holds h hn, stx_noPeer h⟩,
    fun s id x => stxPerform_next, fun s id x => stxAck_next, fun m c gid off bs g hg => ?writes⟩
  case misaligned =>
    simp only [List.mem_cons, List.not_mem_nil, or_false] at hi
    obtain rfl | rfl := hi
    · exact lds_misaligned h hn
    · exact ldx_misaligned h hn
  case writes =>
    obtain ⟨hself, hother, hmem, hundo⟩ := padWrite_spec hg c off bs
    obtain ⟨-, -, hkept, hnew⟩ := undoLog_spec hg c off bs.length
    rw [hundo]
    exact ⟨_, hself, rfl, fun i hi => cget_cwrite_inside _ _ _ _ hi, fun a ha => cget_cwrite_outside _ _ _ _ ha, hother, hmem,
      hnew, hkept⟩

end Sys2Proof.Machine
end

section
/-!
PROOFS. Escaping words (R188, R226, R251, R267).
-/

namespace Sys2Proof.Machine

section
variable {s : State} {r : Running} {t : Thread} {g : Guard} (h : Alone s r t g)
include h

/-- An escaping word that first waits for a release, if only where it would be performed now. -/
theorem release_escapes_two {i : Instr} {c len : Nat} {w : Mach → Running → Thread → Bool} {f : Mach → Running → Thread → Mach}
    (hw : ∀ m r t, escNow m r.core = false → w m r t = false)
    (hi : ∀ s, exec i s = .next (s.onMach (fun m => relWord m g w (escWord m g c len f)))) :
    (chunkEmpty s.m r.core = false → exec i s = .next ⟨s.agenda, wordEscapes s.m r t c⟩) ∧
    (chunkEmpty s.m r.core = true → (s.m.core r.core).comC.isSome = true → exec i s = .next ⟨s.agenda, stalled s.m r t⟩) := by
  have go : escNow s.m r.core = false → exec i s = .next ⟨s.agenda, escWord s.m g c len f⟩ := fun hn => by
    rw [hi, State.onMach, relWord_alone h, hw _ _ _ hn, if_neg Bool.false_ne_true]
  refine ⟨fun he => ?_, fun he hc => ?_⟩
  · rw [go (by simp [escNow, he]), escWord_leaves h _ _ _ he]
  · rw [go (by simp [escNow, ← Option.not_isSome, hc]), seq_full h _ _ _ he hc]

/-- Each word of `escapeCause` is an escaping word of its cause; `barv`, `launch`, `bar` and `svc` wait for a release. -/
theorem escapes_or_stalls {i : Instr} {c : Nat} (hc : escapeCause i = some c) (hg : wordGuard i = some g) :
    (chunkEmpty s.m r.core = false → exec i s = .next ⟨s.agenda, wordEscapes s.m r t c⟩) ∧
    (chunkEmpty s.m r.core = true → (s.m.core r.core).comC.isSome = true → exec i s = .next ⟨s.agenda, stalled s.m r t⟩) := by
  have bars : ∀ x m r t, escNow m r.core = false → barWaits x m r t = false := fun x m r t hn => by simp [barWaits, hn]
  unfold escapeCause at hc
  split at hc <;> simp only [Option.some.injEq, reduceCtorEq, wordGuard] at hc hg <;> subst hc hg
  case h_4 | h_19 => exact release_escapes_two h (bars _) (fun _ => rfl)
  case h_16 | h_23 => exact release_escapes_two h (fun m r t hn => by simp [hn]) (fun _ => rfl)
  all_goals exact escapes_two (fun _ => rfl) h

end

/-! What an escaping word leaves in the checkpoint (R188, R226). -/

theorem credit_eq {m : Mach} {t u : Thread} (h : m.thread? t.gid t.tix = some u) (p : Pos) :
    credit m t.gid t.tix p = m.updCore (m.coreOf t.gid) (fun k => { k with
      ck := k.ck.withThread { u with pos := p, stat := if u.stat = .issuing then .ready else u.stat } }) := by
  obtain ⟨hgid, htix⟩ := thread?_gid h
  simp only [credit, h, Ckpt.withThread, hgid, htix]

section
variable {m : Mach} {r : Running} {t u : Thread} (h : m.thread? t.gid t.tix = some u) (cause len : Nat)
include h

theorem creditWord_issuing (hs : u.stat = .issuing) (hst : ∀ x ∈ m.running, x.rid = r.rid → t.tix ∉ x.stall) :
    creditWord m r t cause len =
      (let m' := m.updCore (m.coreOf t.gid) (fun k => { k with
        ck := k.ck.withThread { u with pos := r.after len, stat := .ready } })
       if cause = 7 then m' else withGroup m' t.gid (fun g => { g with escaped := true })) := by
  have hgo : stalledAt m r.rid t.tix = false := by simpa [stalledAt] using hst
  simp only [creditWord, h, hs, hgo, credit_eq h, Bool.false_eq_true, if_false, if_true]
  rfl

theorem creditWord_waiting {w : Wait} (hs : u.stat = .waiting w) : creditWord m r t cause len =
      (let m' := m.updCore (m.coreOf t.gid) (fun k => { k with ck := k.ck.withThread u })
       if cause = 7 then m' else withGroup m' t.gid (fun g => { g with escaped := true })) := by
  have hu : ({ u with pos := u.pos, stat := if u.stat = .issuing then .ready else u.stat } : Thread) = u := by
    rw [if_neg (by rw [hs]; simp)]
  simp only [creditWord, h, hs]
  rw [credit_eq h, hu]
  rfl

end

/-! ESCAPING_REISSUE (R188, R274). -/

section
variable {s : State} {gid tix : Nat} {t : Thread} (ht : s.m.thread? gid tix = some t)
include ht

theorem escapingReissue_idle
    (h : t.stat ≠ .escaping ∨ t.escAt = some (s.m.core (s.m.coreOf gid)).openC.serial ∨ waitsHere s.m gid = false) :
    exec (.escapingReissue gid tix) s = .next s := by
  rw [ev_next (fun _ => rfl), ht]
  dsimp only
  rw [if_pos (by simpa using h)]

variable (hs : t.stat = .escaping) (hn : t.escAt ≠ some (s.m.core (s.m.coreOf gid)).openC.serial) (hw : waitsHere s.m gid = true)
include hs hn hw

theorem escapingReissue_reissues
    (hr : t.escFor = 3 ∨ t.escFor = 4 ∨ ((s.m.core (s.m.coreOf gid)).openC.empty = true ∧ (s.m.core (s.m.coreOf gid)).comC = none ∧
      (s.m.core (s.m.coreOf gid)).due = []))
    (h10 : t.escFor = 10 → atBoundary s.m (s.m.coreOf gid) = true ∧ retryOn s.m (s.m.coreOf gid) = false) :
    exec (.escapingReissue gid tix) s = .next ⟨s.agenda, withThread s.m t (fun u =>
      { u with stat := .ready, escAt := none, retrying := decide (u.escFor = 10) })⟩ := by
  obtain ⟨rfl, rfl⟩ := thread?_gid ht
  rw [ev_next (fun _ => rfl), ht]
  dsimp only
  rw [if_neg (by simp [hs, hn, hw]), if_pos (by simpa using hr), if_neg (by simpa using h10)]
  rfl

theorem escapingReissue_closes (h3 : t.escFor ≠ 3) (h4 : t.escFor ≠ 4) (he : (s.m.core (s.m.coreOf gid)).openC.empty = false) :
    exec (.escapingReissue gid tix) s = .next ⟨s.agenda, addDue s.m (s.m.coreOf gid) t.escFor⟩ := by
  rw [ev_next (fun _ => rfl), ht]
  dsimp only
  rw [if_neg (by simp [hs, hn, hw]), if_neg (by simp [h3, h4, he]), if_neg (by simp [he])]

end

/-- Settles O35: the words by their shape, the credit by the thread's status, the reissue by what the thread waits for. -/
theorem escapingWords : Obligations.EscapingWords := by
  unfold Obligations.EscapingWords
  refine ⟨fun i c s r t g hc hg h => escapes_or_stalls h hc hg, addDue_eq, fun m r t u cause len h => ⟨creditWord_issuing h cause len,
    fun w => creditWord_waiting h cause len, fun hi hw => creditWord_left h hi hw cause len⟩, fun s gid tix t k ht hk => ?reissue⟩
  case reissue =>
    subst hk
    exact ⟨escapingReissue_idle ht, fun hs hn hw => ⟨escapingReissue_reissues ht hs hn hw, escapingReissue_closes ht hs hn hw⟩⟩

end Sys2Proof.Machine
end

section
/-!
PROOFS. Fences, promotion and address waits (R176 to R179).
-/

namespace Sys2Proof.Machine

/-! Fences (R177): what a release waits for, pushes and leaves clean, and what an acquire discards. -/

theorem relReady_iff (m : Mach) (t : Thread) (n : Nat) : relReady m t n = true ↔
    (∀ x ∈ m.stxs, x.gid = t.gid → x.tix = t.tix → x.done = true) ∧ (1 ≤ n → t.prs = 0) ∧
    (3 ≤ n → ∀ x ∈ m.repls, ¬ (x.gid = t.gid ∧ x.tix = t.tix)) ∧
    (4 ≤ n → ∀ x ∈ m.hostWrs, ¬ (x.gid = t.gid ∧ x.tix = t.tix)) := by
  have fromScope : ∀ (k : Nat) (b : Bool), (decide (n < k) || b) = true ↔ (k ≤ n → b = true) := fun k b => by
    rw [Bool.or_eq_true, decide_eq_true_iff, ← Nat.not_le, imp_iff_not_or]
  have none : ∀ {α : Type} (xs : List α) (p : α → Bool) (q : α → Prop), (∀ x, p x = true ↔ q x) →
      ((!xs.any p) = true ↔ ∀ x ∈ xs, ¬ q x) := fun xs p q hpq => by simp [← hpq]
  unfold relReady
  rw [Bool.and_eq_true, Bool.and_eq_true, Bool.and_eq_true, fromScope, fromScope, fromScope, and_assoc, and_assoc,
    none m.repls _ _ (fun x => by rw [Bool.and_eq_true, beq_iff_eq, beq_iff_eq]),
    none m.hostWrs _ _ (fun x => by rw [Bool.and_eq_true, beq_iff_eq, beq_iff_eq]), beq_iff_eq]
  simp

/-- The push of a release leaves no dirty scoped byte in the L1. -/
theorem pushAll_l1 (m : Mach) (c : Nat) (far : Bool) : ∀ l ∈ ((pushAll m c far).core c).lines, l.cls = 1 → l.clean = true := by
  have hl1 := fold_lines c far (m.core c).lines m (fun x hx hc => by
    by_cases hclean : x.clean = true
    · exact .inl hclean
    · exact .inr ⟨x, hx, rfl, Bool.eq_false_iff.2 hclean, hc⟩)
  unfold pushAll
  cases far with
  | false => exact hl1
  | true =>
    dsimp only
    rw [if_pos rfl, (fold_cluster c _ _ (fun x hx => .inr hx)).2 c]
    exact hl1

/-- The far push leaves none in the cluster cache either. -/
theorem pushAll_cluster (m : Mach) (c : Nat) : ∀ l ∈ (pushAll m c true).cluster (clusterOf c), l.clean = true := by
  unfold pushAll
  dsimp only
  rw [if_pos rfl]
  exact (fold_cluster c _ _ (fun x hx => .inr hx)).1

/-- From `.die` outward a release pushes home, and an acquire discards in the cluster cache too, and fetched clauses. -/
theorem relPush_far {n : Nat} (h : 2 ≤ n) (m : Mach) (c : Nat) : relPush m c n = pushAll m c true := by
  obtain ⟨k, rfl⟩ := Nat.exists_eq_add_of_le' h
  rfl

theorem acqDo_far {n : Nat} (h : 2 ≤ n) (m : Mach) (c : Nat) : acqDo m c n =
    ((m.updCore c (fun k => { k with lines := k.lines.filter (fun l => !l.clean || l.cls != 1) })).setCluster (clusterOf c)
      ((m.cluster (clusterOf c)).filter (fun l => !l.clean))).updCore c (fun k => { k with fetched := [] }) := by
  obtain ⟨k, rfl⟩ := Nat.exists_eq_add_of_le' h
  rfl

/-- A line that goes home puts down its dirty bytes and no others. -/
theorem cget_homePush (m : Mach) {l : Line} {i : Nat} (hd : l.data.length = l.size) (hm : l.dirty.length = l.size) (hi : i < l.size) :
    cget (homePush m l).mem (l.pa + i) = if l.dirty.getD i false then l.data.getD i 0 else cget m.mem (l.pa + i) := by
  by_cases hc : l.clean = true
  · have hi' : i < l.dirty.length := by omega
    have hclean : l.dirty.getD i false = false := by
      have := List.all_eq_true.1 hc l.dirty[i] (List.getElem_mem hi')
      simpa [hi'] using this
    rw [homePush_clean hc, hclean, if_neg Bool.false_ne_true]
  · have hmem : (homePush m l).mem = cwriteMask m.mem l.pa l.data l.dirty := by
      rw [homePush, if_neg hc]
      rfl
    rw [hmem, cwriteMask_get _ _ _ _ _ (hd.trans hm.symm), Nat.add_sub_cancel_left, hd]
    exact if_congr (by simp [hi]) rfl rfl

/-- What a fence does once the thread's accesses are ready for it. -/
def fenced (k : FenceKind) (m : Mach) (c n : Nat) : Mach :=
  match k with
  | .acq => acqDo m c n
  | .rel => relPush m c n
  | .ar => acqDo (relPush m c n) c n

section
variable {s : State} {r : Running} {t : Thread} {g : Guard} (h : Alone s r t g) (sc : Scope)
include h

theorem exec_fence_passes (k : FenceKind) (hr : k = .acq ∨ relReady s.m t (scopeNum sc) = true) :
    exec (.fence g k sc) s = .next ⟨s.agenda, fenced k s.m r.core (scopeNum sc)⟩ := by
  have hw : (k != .acq && !relReady s.m t (scopeNum sc)) = false := by
    rcases hr with rfl | hr
    · rfl
    · rw [hr, Bool.not_true, Bool.and_false]
  exact released_next h (waits := fun m _ t => k != .acq && !relReady m t (scopeNum sc))
    (f := fun m r _ => fenced k m r.core (scopeNum sc)) (fun _ => rfl) hw

theorem exec_fence_waits {k : FenceKind} (hr : relReady s.m t (scopeNum sc) = false) (hk : k ≠ .acq) :
    exec (.fence g k sc) s = .next ⟨s.agenda, stalled s.m r t⟩ := by
  have hw : (k != .acq && !relReady s.m t (scopeNum sc)) = true := by simp [hr, hk]
  exact release_stalls h (waits := fun m _ t => k != .acq && !relReady m t (scopeNum sc)) (fun _ => rfl) hw

/-- `acqr` (R178). -/
theorem exec_acqr (a : Nat) : exec (.acqr g a) s = .next ⟨s.agenda,
    acqDo ((if (t.rd a).toNat < 64 then [r.core / 64 * 64 + (t.rd a).toNat]
        else (List.range 64).map (fun i => r.core / 64 * 64 + i)).foldl
      (fun m c => dropClean (pushAll m c true) c true) s.m) r.core 2⟩ := by
  rw [seq_next h (fun _ => rfl)]

end

/-! `waita` (R179): the word is read at its point, and the thread goes on or waits there. -/

/-- What `waita` does once it may read the word at `wp`. -/
def waitsOn (m : Mach) (r : Running) (t : Thread) (glob : Bool) (d b ea wp : Nat) : Mach :=
  if watchRead m t glob ea wp ≠ t.rd b then acqDo (withThread m t (fun u => u.wr d (watchRead m t glob ea wp))) r.core 2
  else withThread m t
    (leftPack (.waiting (.addr glob ea wp (watchRead m t glob ea wp) d false ⟨r.hdr, r.idx⟩)) ⟨(linkOf r).toNat, 0⟩)

theorem waitsOn_changed {m : Mach} {r : Running} {t : Thread} {glob : Bool} {b ea wp : Nat} (d : Nat) {v : Word}
    (hv : watchRead m t glob ea wp = v) (h : v ≠ t.rd b) :
    waitsOn m r t glob d b ea wp = acqDo (withThread m t (fun u => u.wr d v)) r.core 2 := by
  rw [waitsOn, hv, if_pos h]

theorem waitsOn_same {m : Mach} {r : Running} {t : Thread} {glob : Bool} {b ea wp : Nat} (d : Nat) {v : Word}
    (hv : watchRead m t glob ea wp = v) (h : v = t.rd b) : waitsOn m r t glob d b ea wp =
      withThread m t (leftPack (.waiting (.addr glob ea wp v d false ⟨r.hdr, r.idx⟩)) ⟨(linkOf r).toNat, 0⟩) := by
  rw [waitsOn, hv, if_neg (not_not.2 h)]

section
variable {s : State} {r : Running} {t : Thread} {g : Guard} (h : Escapes s r t g) (d a b : Nat)
include h

theorem waita_own_misaligned (hn : (t.rd a).toNat % 4 ≠ 0) : exec (.waita g false d a b) s = .next ⟨s.agenda,
    withThread s.m t (raised (misalignAt r (t.rd a).toNat 4 1))⟩ := by
  rw [esc_next h (fun _ => rfl)]
  dsimp only
  rw [if_neg Bool.false_ne_true, if_pos hn, misalign_eq, credit_raised (alone_here h.toAlone)]

theorem waita_global_misaligned (hn : (t.rdD a).toNat % 4 ≠ 0) : exec (.waita g true d a b) s = .next ⟨s.agenda,
    withThread s.m t (raised (misalignAt r (t.rdD a).toNat 4 1))⟩ := by
  rw [esc_next h (fun _ => rfl)]
  dsimp only
  rw [if_pos rfl, if_pos hn, misalign_eq, credit_raised (alone_here h.toAlone)]

theorem waita_own (hn : (t.rd a).toNat % 4 = 0) (hp : padOk s.m t.gid (t.rd a).toNat 4 = true) :
    exec (.waita g false d a b) s = .next ⟨s.agenda, creditWord (waitsOn s.m r t false d b (t.rd a).toNat 0) r t 7 1⟩ := by
  rw [esc_next h (fun _ => rfl), waitsOn, linkOf_nat]
  dsimp only
  rw [if_neg Bool.false_ne_true, if_neg (not_not.2 hn), if_pos (by rfl), if_pos hp]
  rfl

/-- The word of another page is read as the translation leaves the machine, at the home of its address. -/
theorem waita_global {m : Mach} {x : Xlat} (hn : (t.rdD a).toNat % 4 = 0)
    (ht : translate s.m (whoOf s.m t.gid) .wait (t.rdD a).toNat = .ok (m, x))
    (hr : reachable m .wait (whoOf s.m t.gid).die x.pa 4 = .ok ()) (hp : poisoned m x.pa 4 = none) (hc : x.cls ≠ 1) :
    exec (.waita g true d a b) s = .next ⟨s.agenda, creditWord (waitsOn m r t true d b (t.rdD a).toNat x.pa) r t 7 1⟩ := by
  rw [esc_next h (fun _ => rfl), waitsOn, linkOf_nat]
  dsimp only
  rw [if_pos rfl, if_neg (not_not.2 hn), if_neg (by decide), ht]
  dsimp only
  rw [hr]
  dsimp only
  rw [hp]
  dsimp only
  rw [if_neg hc]
  rfl

end

theorem watchRead_own (m : Mach) (t : Thread) (ea wp : Nat) : watchRead m t false ea wp = wordOf (padRead m t.gid ea 4) := rfl

theorem watchRead_global {m m' : Mach} {who : Who} {acc : Acc} {va : Nat} {x : Xlat} (h : translate m who acc va = .ok (m', x))
    (t : Thread) (ea wp : Nat) : watchRead m' t true ea wp = wordOf (homeRead m' (m.dieOf t.gid) wp 4) := by
  obtain ⟨dies, rfl⟩ := translate_ok h
  rfl

/-! The end of an address wait: a wake, which may be spurious, or a poll that finds the word changed. -/

section
variable {s : State} {gid tix : Nat} {t : Thread} {glob : Bool} {ea wp d : Nat} {old : Word} {wk : Bool} {p : Pos}
  (ht : s.m.thread? gid tix = some t) (hs : t.stat = .waiting (.addr glob ea wp old d wk p)) (hw : waitsHere s.m gid = true)
include ht hs hw

theorem waitaWake_wakes : exec (.waitaWake gid tix) s = .next ⟨s.agenda, waitaDone s.m t d (watchRead s.m t glob ea wp)⟩ := by
  rw [ev_next (fun _ => rfl), hw, if_pos rfl, ht]
  dsimp only
  rw [hs]

theorem waitaRepoll_polls : exec (.waitaRepoll gid tix) s = .next ⟨s.agenda,
    if watchRead s.m t glob ea wp ≠ old then waitaDone s.m t d (watchRead s.m t glob ea wp) else s.m⟩ := by
  rw [ev_next (fun _ => rfl), hw, if_pos rfl, ht]
  dsimp only
  rw [hs]

end

theorem waita_away {s : State} {gid : Nat} (tix : Nat) (h : waitsHere s.m gid = false) :
    exec (.waitaWake gid tix) s = .next s ∧ exec (.waitaRepoll gid tix) s = .next s := by
  rw [ev_next (i := .waitaWake gid tix) (fun _ => rfl), ev_next (i := .waitaRepoll gid tix) (fun _ => rfl), h]
  exact ⟨rfl, rfl⟩

theorem waitsHere_iff {m : Mach} {gid : Nat} {g : Group} (h : m.group? gid = some g) :
    waitsHere m gid = true ↔ g.onCore = true ∧ g.stat ≠ .saving := by
  simp [waitsHere, h]

/-- What no squash undoes: the thread, and its state in both checkpoints of its core. -/
theorem updBoth_spec (m : Mach) (gid tix : Nat) (f : Thread → Thread) :
    (updBoth m gid tix f).threads = m.threads.map (fun t => if t.gid == gid && t.tix == tix then f t else t) ∧
    ((updBoth m gid tix f).core (m.coreOf gid)).ck.threads =
      (m.core (m.coreOf gid)).ck.threads.map (fun t => if t.gid == gid && t.tix == tix then f t else t) ∧
    ((updBoth m gid tix f).core (m.coreOf gid)).comCk.threads =
      (m.core (m.coreOf gid)).comCk.threads.map (fun t => if t.gid == gid && t.tix == tix then f t else t) := by
  have hcore : (updBoth m gid tix f).core (m.coreOf gid) = _ := Mach.core_updCore_self _ _ _
  rw [hcore]
  exact ⟨rfl, rfl, rfl⟩

/-- Settles O36: fences by what they wait for, push and discard; waits by the word that they read. -/
theorem fencesAndWaits : Obligations.FencesAndWaits := by
  unfold Obligations.FencesAndWaits
  refine ⟨fun s r t g sc h => ⟨exec_fence_passes h sc .acq (.inl rfl),
      fun hr => ⟨exec_fence_passes h sc .rel (.inr hr), exec_fence_passes h sc .ar (.inr hr)⟩,
      fun hr k hk => exec_fence_waits h sc hr hk⟩,
    relReady_iff, fun m c => ⟨rfl, rfl, pushAll_l1 m c false, fun n hn => ?pushed, rfl, fun n hn => acqDo_far hn m c⟩,
    fun m l i hd hm hi => cget_homePush m hd hm hi, fun s r t g a h => exec_acqr h a,
    fun s r t g d a b h => ⟨waita_own_misaligned h d a b, waita_global_misaligned h d a b,
      fun hn hp => ⟨fun hv => ?ownChanged, fun hv => ?ownSame⟩,
      fun m x hn ht hr hp hc => ⟨fun hv => ?globalChanged, fun hv => ?globalSame⟩⟩,
    fun s gid tix t glob ea wp d old wk p ht hs hw => ?wakes, fun s gid tix hw => waita_away tix hw, fun m gid g hg => waitsHere_iff hg,
    updBoth_spec⟩
  case pushed =>
    rw [relPush_far hn]
    exact ⟨pushAll_l1 m c true, pushAll_cluster m c⟩
  case ownChanged => rw [waita_own h d a b hn hp, waitsOn_changed d (watchRead_own s.m t _ _) hv]
  case ownSame => rw [waita_own h d a b hn hp, waitsOn_same d (watchRead_own s.m t _ _) hv]
  case globalChanged => rw [waita_global h d a b hn ht hr hp hc, waitsOn_changed d (watchRead_global ht t _ _) hv]
  case globalSame => rw [waita_global h d a b hn ht hr hp hc, waitsOn_same d (watchRead_global ht t _ _) hv]
  case wakes =>
    obtain ⟨rfl, rfl⟩ := thread?_gid ht
    rw [waitaWake_wakes ht hs hw, waitaRepoll_polls ht hs hw]
    exact ⟨rfl, rfl⟩

end Sys2Proof.Machine
end

section
/-!
PROOFS. The copy engine and its timeline (R180 to R186).
-/

namespace Sys2Proof.Machine

/-! `cpy` (R180): the parameter block of Table 8-10, and the copy that it makes. -/

/-- Four bytes are a word's number. -/
theorem toNat_wordOf_cread (l : List Host.Cell) (a : Nat) : (wordOf (cread l a 4)).toNat = bytesNat (cread l a 4) := by
  have hlt := bytesNat_lt (cread l a 4)
  rw [length_cread] at hlt
  rw [wordOf, BitVec.toNat_ofNat, Nat.mod_eq_of_lt (by omega)]

section
variable {m : Mach} {gid : Nat} {p : Group} (hp : m.group? gid = some p) (off : Nat)
include hp

theorem fieldAt_padRead {n o k : Nat} (h : o + k ≤ n) : fieldAt (padRead m gid off n) o k = bytesNat (cread p.spad (off + o) k) := by
  rw [fieldAt, fieldAt_pad hp off n o k h]

theorem parseCopy_fields (n tix at_ : Nat) (flag : Option Nat) (k : Copy) (hk : k = parseCopy (padRead m gid off 64) n gid tix at_ flag) :
    ∀ f ∈ [(0, 8, k.dst), (8, 8, k.src), (16, 4, k.rows), (20, 4, k.bytes), (24, 4, k.dstr), (28, 4, k.sstr),
      (32, 1, k.dsp), (33, 1, k.rank), (34, 1, k.ssp), (35, 1, k.flags), (36, 4, k.flagOff), (40, 4, k.flagVal.toNat)],
      f.2.2 = bytesNat (cread p.spad (off + f.1) f.2.1) := by
  subst hk
  have field : ∀ {o k} (_ : o + k ≤ 64 := by decide), fieldAt (padRead m gid off 64) o k = bytesNat (cread p.spad (off + o) k) :=
    fun h => fieldAt_padRead hp off h
  have flagVal : (wordOf (((padRead m gid off 64).drop 40).take 4)).toNat = bytesNat (cread p.spad (off + 40) 4) := by
    rw [fieldAt_pad hp off 64 40 4 (by decide), toNat_wordOf_cread]
  simp only [List.forall_mem_cons, parseCopy, flagVal]
  exact ⟨field, field, field, field, field, field, field, field, field, field, field, trivial, fun _ hf => absurd hf List.not_mem_nil⟩

/-- The block's reserved bytes are zero. -/
theorem parseCopy_zero (n tix at_ : Nat) (flag : Option Nat) : (parseCopy (padRead m gid off 64) n gid tix at_ flag).zero = true ↔
    ∀ i, 44 ≤ i → i < 64 → cget p.spad (off + i) = 0 := by
  have hrest : (padRead m gid off 64).drop 44 = cread p.spad (off + 44) 20 := by
    rw [← fieldAt_pad hp off 64 44 20 (by decide), List.take_of_length_le (by simp [padRead, hp])]
  simp only [parseCopy, hrest, cread_range, List.all_eq_true, List.mem_map, List.mem_range, beq_iff_eq, forall_exists_index, and_imp,
    forall_apply_eq_imp_iff₂]
  refine ⟨fun h i h1 h2 => ?_, fun h i hi => ?_⟩
  · rw [← h (i - 44) (by omega), show off + 44 + (i - 44) = off + i by omega]
  · rw [← h (44 + i) (by omega) (by omega), Nat.add_assoc]

end

section
variable {s : State} {r : Running} {t : Thread} {g : Guard} (h : Escapes s r t g) (d a fl : Nat)
include h

theorem cpy_misaligned (hn : (t.rd a).toNat % 64 ≠ 0) : exec (.cpy g d a fl) s = .next ⟨s.agenda,
    withThread s.m t (raised (misalignAt r (t.rd a).toNat 64 1))⟩ := by
  rw [esc_next h (fun _ => rfl)]
  dsimp only
  rw [if_pos hn, misalign_eq, credit_raised (alone_here h.toAlone)]

variable (hn : (t.rd a).toNat % 64 = 0)
include hn

theorem cpy_refused (hp : padOk s.m t.gid (t.rd a).toNat 64 = false) : exec (.cpy g d a fl) s = .next ⟨s.agenda,
    creditWord (padRefused s.m r t .load (t.rd a).toNat 64) r t 6 1⟩ := by
  rw [esc_next h (fun _ => rfl)]
  dsimp only
  rw [if_neg (not_not.2 hn), hp, if_pos (by rfl), pad_refused]

variable (hp : padOk s.m t.gid (t.rd a).toNat 64 = true)
include hp

theorem cpy_stalls (hc : 64 ≤ (s.m.core r.core).copies.length) : exec (.cpy g d a fl) s = .next ⟨s.agenda,
    creditWord (stalled s.m r t) r t 6 1⟩ := by
  rw [esc_next h (fun _ => rfl)]
  dsimp only
  rw [if_neg (not_not.2 hn), hp, if_neg (by decide), if_pos hc]
  rfl

theorem cpy_issues (hc : (s.m.core r.core).copies.length < 64) : exec (.cpy g d a fl) s = .next ⟨s.agenda,
    creditWord (withThread ((withGroup s.m t.gid (fun x =>
      { x with save := { x.save with topCopy := (s.m.core r.core).copyCtr + 1 } })).updCore r.core (fun c =>
      { c with copyCtr := (s.m.core r.core).copyCtr + 1, copies := insertCopy (parseCopy (padRead s.m t.gid (t.rd a).toNat 64)
        ((s.m.core r.core).copyCtr + 1) t.gid t.tix (t.rd a).toNat (r.flag fl)) c.copies })) t
        (fun u => u.wrD d (BitVec.ofNat 64 ((s.m.core r.core).copyCtr + 1)))) r t 6 1⟩ := by
  rw [esc_next h (fun _ => rfl)]
  dsimp only
  rw [if_neg (not_not.2 hn), hp, if_neg (by decide), if_neg (Nat.not_le.2 hc)]
  rfl

end

/-! COPY_PIECE (R181, R185, R186): the copy at the head is taken up, or its next piece performed. -/

/-- The release before a copy is ready once its thread has no peer store pending (R181). -/
theorem relReadyOf_iff (m : Mach) (gid tix : Nat) :
    relReadyOf m gid tix 2 = true ↔ ¬ m.stxs.any (fun y => y.gid == gid && y.tix == tix) = true := by
  rw [relReadyOf, relReady_iff]
  simp only [List.any_eq_true, Bool.and_eq_true, beq_iff_eq, not_exists, not_and, Nat.reduceLeDiff, false_implies, and_true,
    List.countP_eq_zero]
  exact ⟨fun h => h.2 (by decide), fun h => ⟨fun x hx hg ht => absurd ht (h x hx hg), fun _ => h⟩⟩

section
variable {s : State} {c : Nat} {x : Copy} {l : List Copy} (hx : (s.m.core c).copies = x :: l) (hstop : x.stopped = none)
  (hst : x.status = 0) (hf : (s.m.die (c / 64)).fatal = false)
include hx hstop hst hf

theorem copyPiece_starts (hs : x.started = false) : exec (.copyPiece c) s = .next ⟨s.agenda, copyStart s.m c x⟩ := by
  rw [ev_next (fun _ => rfl), hx]
  dsimp only
  rw [hstop, hst, hf, if_neg (by decide), hs, if_pos (by rfl)]

theorem copyPiece_performs (hs : x.started = true) (hr : x.row < x.rows) :
    exec (.copyPiece c) s = .next ⟨s.agenda, pieceDo s.m c x⟩ := by
  rw [ev_next (fun _ => rfl), hx]
  dsimp only
  rw [hstop, hst, hf, if_neg (by decide), hs, if_neg (by decide), if_pos hr]

end

section
variable {m : Mach} {x : Copy} (c : Nat)

theorem copyStart_bad (hb : x.bad (m.recOf x.gid).scratch = true) : copyStart m c x = withHead m c (fun y => { y with status := 1 }) := by
  rw [copyStart, if_pos hb, updHead_eq]

variable (hb : x.bad (m.recOf x.gid).scratch = false)
include hb

theorem copyStart_noPeer (hs : x.dsp = 2 ∨ x.ssp = 2) (hp : setPeer m x.gid x.rank = none) :
    copyStart m c x = withHead m c (fun y => { y with status := 3 }) := by
  rw [copyStart, if_neg (Bool.eq_false_iff.1 hb), if_pos (by simpa [hp] using hs), updHead_eq]

theorem copyStart_releases (hp : x.dsp = 2 ∨ x.ssp = 2 → setPeer m x.gid x.rank ≠ none) : copyStart m c x =
    if m.stxs.any (fun y => y.gid == x.gid && y.tix == x.tix) then m
    else withHead (relPush m c 2) c (fun y => { y with started := true }) := by
  have hpeer : ¬ ((x.dsp == 2 || x.ssp == 2) && (setPeer m x.gid x.rank).isNone) = true := by
    simpa [Option.isNone_iff_eq_none] using hp
  rw [copyStart, if_neg (Bool.eq_false_iff.1 hb), if_neg hpeer, updHead_eq, if_congr (relReadyOf_iff m x.gid x.tix) rfl rfl, ite_not]

end

section
variable {m : Mach} {x : Copy} (c : Nat)

theorem pieceDo_unread {va : Nat} {e : MemErr}
    (hr : pieceRead m (engineWho m x.gid) x (min 512 (x.bytes - x.col)) = .error (va, e)) :
    pieceDo m c x = engineStops m c x 4 va e := by
  simp only [pieceDo, hr, engineStop_eq]
  rfl

variable {n b : Nat} {m1 : Mach} {bs : List Byte} (hn : n = min 512 (x.bytes - x.col)) (hb : b = x.dst + x.row * x.dstr + x.col)
  (hr : pieceRead m (engineWho m x.gid) x n = .ok (m1, bs))
include hn hb hr

/-- To the weight buffer, whose units it comes to own (R295). -/
theorem pieceDo_weights (hd : x.dsp = 3) : pieceDo m c x = withHead (m1.updCore c (fun k => { k with
    wbuf := cwrite k.wbuf b bs, wown := ownUnits k.wown b n x.gid })) c (fun y => y.advance n) := by
  subst hn hb
  simp only [pieceDo, hr, hd, updHead_eq]

/-- To a scratchpad, the own or a peer's. -/
theorem pieceDo_pad {p : Nat} (hd : x.dsp = 1 ∨ x.dsp = 2) (hp : x.padOf m1 x.dsp = some p) :
    pieceDo m c x = withHead (padWriteOut m1 p b bs) c (fun y => y.advance n) := by
  subst hn hb
  obtain hd | hd := hd <;> rw [hd] at hp <;> simp only [pieceDo, hr, hd, hp, updHead_eq]

theorem pieceDo_untranslated (hd : x.dsp = 0) {va : Nat} {e : MemErr}
    (hx : engineXlat m1 (engineWho m x.gid) .engineW (pageParts (b % 2 ^ 64) n) = .error (va, e)) :
    pieceDo m c x = engineStops m1 c x 5 va e := by
  subst hn hb
  simp only [pieceDo, hr, hd, hx, engineStop_eq]
  rfl

theorem pieceDo_memory (hd : x.dsp = 0) {m2 : Mach} {xs : List (Nat × Nat × Xlat)}
    (hx : engineXlat m1 (engineWho m x.gid) .engineW (pageParts (b % 2 ^ 64) n) = .ok (m2, xs)) :
    pieceDo m c x = if rangeWaits m2 (engineWho m x.gid) xs then m2
      else withHead (engineWrites m2 (engineWho m x.gid) x.gid x.tix xs bs) c (fun y => y.advance n) := by
  subst hn hb
  simp only [pieceDo, hr, hd, hx, updHead_eq]

end

/-! COPY_COMPLETE (R182, R185). -/

section
variable {s : State} {c : Nat} {x : Copy} {l : List Copy} (hx : (s.m.core c).copies = x :: l)
include hx

theorem copyComplete_fails (hs : x.status ≠ 0) : exec (.copyComplete c) s = .next ⟨s.agenda,
    freeTl ((s.m.updCore c (fun k => { k with copyFail := x.n, copyStat := x.status })).updCore c (fun k =>
      { k with copies := l })) c false⟩ := by
  rw [ev_next (fun _ => rfl), hx]
  dsimp only
  rw [if_pos hs]

variable (hs : x.status = 0) (hst : x.started = true) (hstop : x.stopped = none) (hr : x.rows ≤ x.row)
include hs hst hstop hr

theorem copyComplete_plain (hf : x.flags ≠ 1) :
    exec (.copyComplete c) s = .next ⟨s.agenda, freeTl (s.m.updCore c (fun k => { k with copies := l })) c false⟩ := by
  rw [ev_next (fun _ => rfl), hx]
  dsimp only
  rw [if_neg (not_not.2 hs), hst, hstop, if_pos (by simp [hr]), if_neg hf]

theorem copyComplete_flag (hf : x.flags = 1) {p : Nat} (hp : x.padOf s.m x.dsp = some p) : exec (.copyComplete c) s = .next ⟨s.agenda,
    freeTl ((padWriteOut s.m p x.flagOff (natBytes 4 x.flagVal.toNat)).updCore c (fun k => { k with copies := l })) c false⟩ := by
  rw [ev_next (fun _ => rfl), hx]
  dsimp only
  rw [if_neg (not_not.2 hs), hst, hstop, if_pos (by simp [hr]), if_pos hf, hp]

end

/-! `tlwait` and `tlread` (R183 to R185, R285). -/

section
variable {s : State} {r : Running} {t : Thread} {g : Guard} (h : Escapes s r t g) {a n : Nat}
include h

section
variable (hn : n = min (t.rdD a).toNat (s.m.core r.core).copyCtr)
include hn

theorem tlwait_copy_reached (hm : n ≤ copyMark (s.m.core r.core)) :
    exec (.tlwait g false a) s = .next ⟨s.agenda, creditWord (acqDo s.m r.core 2) r t 7 1⟩ := by
  subst hn
  rw [esc_next h (fun _ => rfl)]
  simp only [Bool.false_eq_true, if_false]
  rw [if_pos hm]

theorem tlwait_copy_waits (hm : copyMark (s.m.core r.core) < n)
    (hc : ∀ x ∈ (s.m.core r.core).copies, x.gid = t.gid → x.tix = t.tix → x.stopped ≠ none → n < x.n) :
    exec (.tlwait g false a) s = .next ⟨s.agenda, creditWord (withThread s.m t
      (leftPack (.waiting (.copyTl n ⟨r.hdr, r.idx⟩)) ⟨(linkOf r).toNat, 0⟩)) r t 7 1⟩ := by
  subst hn
  have hnone : (s.m.core r.core).copies.find? (fun x => x.gid == t.gid && x.tix == t.tix && x.stopped.isSome &&
      decide (x.n ≤ min (t.rdD a).toNat (s.m.core r.core).copyCtr)) = none := by
    refine List.find?_eq_none.2 (fun x hx => ?_)
    simp only [Bool.and_eq_true, beq_iff_eq, decide_eq_true_eq, not_and, Option.isSome_iff_ne_none]
    exact fun ⟨⟨hg, ht⟩, hs⟩ => Nat.not_le.2 (hc x hx hg ht hs)
  rw [esc_next h (fun _ => rfl), linkOf_nat]
  simp only [Bool.false_eq_true, if_false]
  rw [if_neg (Nat.not_le.2 hm)]
  simp only [hnone]
  rfl

end

variable (hn : n = min (t.rdD a).toNat (s.m.core r.core).tileCtr)
include hn

theorem tlwait_tile_reached (hm : n ≤ tileMark (s.m.core r.core)) :
    exec (.tlwait g true a) s = .next ⟨s.agenda, creditWord (acqDo s.m r.core 2) r t 7 1⟩ := by
  subst hn
  rw [esc_next h (fun _ => rfl)]
  simp only [if_true]
  rw [if_pos hm]

variable (hm : tileMark (s.m.core r.core) < n)
include hm

theorem tlwait_tile_waits (hh : haltedFor s.m t (fun x => decide (x.n ≤ n)) = none) :
    exec (.tlwait g true a) s = .next ⟨s.agenda, creditWord (withThread s.m t
      (leftPack (.waiting (.tileTl n ⟨r.hdr, r.idx⟩)) ⟨(linkOf r).toNat, 0⟩)) r t 7 1⟩ := by
  subst hn
  rw [esc_next h (fun _ => rfl), linkOf_nat]
  simp only [if_true]
  rw [if_neg (Nat.not_le.2 hm)]
  simp only [hh]
  rfl

/-- A halted command of the thread is raised at the wait instead (R285). -/
theorem tlwait_tile_raises {x : TCmd} {e c : Nat} (hh : haltedFor s.m t (fun x => decide (x.n ≤ n)) = some x)
    (hx : x.halt = some (e, c)) (he : e ≠ 0) : exec (.tlwait g true a) s = .next ⟨s.agenda, withThread s.m t (raised {
      eff := e, a0 := BitVec.ofNat 64 x.n, a1 := BitVec.ofNat 64 (x.tile + x.step * 256 + x.opc * 65536)
      a2 := BitVec.ofNat 64 c, a3 := BitVec.ofNat 64 x.hdr, save := ⟨r.hdr, r.idx⟩, word := ⟨r.hdr, r.idx⟩
      cmd := some (x.n * 64 + x.step) })⟩ := by
  subst hn
  obtain ⟨k, rfl⟩ := Nat.exists_eq_succ_of_ne_zero he
  rw [esc_next h (fun _ => rfl)]
  simp only [if_true]
  rw [if_neg (Nat.not_le.2 hm)]
  simp only [hh, haltRaise, hx, raiseEff_eq]
  rw [credit_raised (alone_here h.toAlone)]
  rfl

end

theorem tlread_reads {s : State} {r : Running} {t : Thread} {g : Guard} (h : Alone s r t g) (fl : TlSel) (d : Nat) :
    exec (.tlread g fl d) s = .next ⟨s.agenda, withThread s.m t (fun u => u.wrD d (tlreadVal (s.m.core r.core) fl))⟩ := by
  rw [seq_next h (fun _ => rfl), updThread_eq]

/-- Settles O38: `cpy` by its operand, a piece by its spaces and the end of a copy by its status; waits by the mark. -/
theorem copyEngine : Obligations.CopyEngine := by
  unfold Obligations.CopyEngine
  refine ⟨⟨fun s r t g d a fl h => ⟨cpy_misaligned h d a fl, cpy_refused h d a fl, fun hn hp => ⟨cpy_stalls h d a fl hn hp,
      fun hc p hg => ⟨_, cpy_issues h d a fl hn hp hc, rfl, parseCopy_fields hg _ _ _ _ _ _ rfl, parseCopy_zero hg _ _ _ _ _⟩⟩⟩,
    fun s c x l hx hstop hst hf n b hn hb => ⟨fun hs hbad => ?bad, fun hs hbad => ⟨fun hsp hp => ?absent, fun hp => ?released⟩,
      fun hs hr m bs hread => ⟨fun hd => ?weights, fun p h1 h3 hp => ?pad,
        fun hd => ⟨fun m1 xs hxl => ?memory, fun va e hxl => ?unmapped⟩⟩,
      fun hs hr va e hread => ?unread⟩,
    fun x n => rfl, fun s c x l hx => ⟨copyComplete_fails hx, fun hs hst hstop hr => ⟨copyComplete_plain hx hs hst hstop hr,
      fun p hf => copyComplete_flag hx hs hst hstop hr hf⟩⟩⟩,
    fun ctr ns hk => markOf_le ns ctr hk,
    fun s r t g a h => ⟨fun n hn => ⟨tlwait_copy_reached h hn, tlwait_copy_waits h hn⟩,
      fun n hn => ⟨tlwait_tile_reached h hn, tlwait_tile_waits h hn, fun x e c hm => tlwait_tile_raises h hn hm⟩⟩,
    fun s r t g d h v hv => ?reads⟩
  case bad => rw [copyPiece_starts hx hstop hst hf hs, copyStart_bad c hbad]
  case absent => rw [copyPiece_starts hx hstop hst hf hs, copyStart_noPeer c hbad hsp hp]
  case released => rw [copyPiece_starts hx hstop hst hf hs, copyStart_releases c hbad hp]
  case weights => rw [copyPiece_performs hx hstop hst hf hs hr, pieceDo_weights c hn hb hread hd]
  case pad => rw [copyPiece_performs hx hstop hst hf hs hr, pieceDo_pad c hn hb hread (by omega) hp]
  case memory => rw [copyPiece_performs hx hstop hst hf hs hr, pieceDo_memory c hn hb hread hd hxl]
  case unmapped => rw [copyPiece_performs hx hstop hst hf hs hr, pieceDo_untranslated c hn hb hread hd hxl]
  case unread => rw [copyPiece_performs hx hstop hst hf hs hr, pieceDo_unread c (hn ▸ hread)]
  case reads =>
    rw [tlread_reads h]
    simp only [List.mem_cons, List.not_mem_nil, or_false] at hv
    obtain rfl | rfl | rfl | rfl := hv <;> rfl

end Sys2Proof.Machine
end

section
/-!
PROOFS. `launch`, `svc` and `sleep` (R204 to R207, R210, R212 to R214).
-/

namespace Sys2Proof.Machine

/-- The next ticket leaves a context its ASID. -/
theorem asidOf_ticket {m : Mach} {cid : Nat} {x : Ctx} (hx : m.ctx? cid = some x) (n : Ctx → Nat) :
    asidOf (m.updCtx cid (fun y => { y with ticket := n y })) cid = pte x.satp.toNat 44 16 := by
  have hcid : (x.cid == cid) = true := List.find?_some (p := fun y : Ctx => y.cid == cid) hx
  have hup : (m.updCtx cid (fun y => { y with ticket := n y })).ctx? cid = some { x with ticket := n x } := by
    refine (find_map_named _ _ (fun y => ?_) m.ctxs).trans ?_
    · split <;> rfl
    · rw [show m.ctxs.find? (fun c => c.cid == cid) = some x from hx, Option.map_some, if_pos hcid]
  rw [asidOf, hup]

/-! The words. -/

section
variable {s : State} {r : Running} {t : Thread} {g : Guard} (h : Escapes s r t g)
include h

section
variable (d a b : Nat)

theorem launch_misaligned (ha : (t.rdD a).toNat % 64 ≠ 0) : exec (.launch g d a b) s = .next ⟨s.agenda,
    withThread s.m t (raised (misalignAt r (t.rdD a).toNat 192 1))⟩ := by
  rw [rel_next h (fun _ => rfl), if_neg (by simp [ha])]
  dsimp only
  rw [if_pos ha, misalign_eq, credit_raised (alone_here h.toAlone)]

theorem launch_stalls (ha : (t.rdD a).toNat % 64 = 0) (hr : relReady s.m t 4 = false) :
    exec (.launch g d a b) s = .next ⟨s.agenda, stalled s.m r t⟩ := by
  rw [rel_next h (fun _ => rfl), if_pos (by simp [escNow_of h, ha, hr])]
  rfl

section
variable (ha : (t.rdD a).toNat % 64 = 0) (hr : relReady s.m t 4 = true)
include ha hr

/-- The record is read, and appended to the queue of the handle. -/
theorem launch_appends {m : Mach} {xs : List (Nat × Nat × Xlat)}
    (hx : engineXlat (relPush s.m r.core 4) (whoOf s.m t.gid) .load (pageParts (t.rdD a).toNat 192) = .ok (m, xs))
    {q : Mach × Nat} (hq : q = appendRec m (cidOf m t.gid) (t.rd b).toNat
      (xs.flatMap (fun p => homeRead m (whoOf s.m t.gid).die p.2.2.pa p.2.1)) (whoOf s.m t.gid).part) :
    exec (.launch g d a b) s = .next ⟨s.agenda,
      creditWord (withThread q.1 t (fun u => u.wrD d (BitVec.ofNat 64 q.2))) r t 6 1⟩ := by
  rw [rel_next h (fun _ => rfl), if_neg (by simp [hr])]
  dsimp only
  rw [if_neg (not_not.2 ha), hx, hq]
  rfl

theorem launch_untranslated {va : Nat} {e : MemErr}
    (hx : engineXlat (relPush s.m r.core 4) (whoOf s.m t.gid) .load (pageParts (t.rdD a).toNat 192) = .error (va, e)) :
    exec (.launch g d a b) s = .next ⟨s.agenda, creditWord (stopped (relPush s.m r.core 4) r t 0 va e) r t 6 1⟩ := by
  rw [rel_next h (fun _ => rfl), if_neg (by simp [hr])]
  dsimp only
  rw [if_neg (not_not.2 ha), hx]
  dsimp only
  rw [memStop_eq]
  rfl

end
end

theorem svc_stalls (n : Nat) (hr : relReady s.m t 4 = false) : exec (.svc g n) s = .next ⟨s.agenda, stalled s.m r t⟩ := by
  rw [rel_next h (fun _ => rfl), if_pos (by simp [escNow_of h, hr])]
  rfl

theorem svc_posts (n : Nat) (hr : relReady s.m t 4 = true) {m : Mach} {cid : Nat} {x : Ctx} (hm : m = relPush s.m r.core 4)
    (hc : cid = cidOf m t.gid) (hx : m.ctx? cid = some x) : exec (.svc g n) s = .next ⟨s.agenda, creditWord (withThread (postRec
        (m.updCtx cid (fun y => { y with ticket := if y.ticket < 2 ^ 32 - 1 then y.ticket + 1 else 1 })) cid {
          kind := 11, cause := n, access := 0, flags := 0, asid := pte x.satp.toNat 44 16, addr := (t.rdD 20).toNat, clause := r.hdr
          place := t.slot + m.coreOf t.gid % 64 * 2 ^ 11 + m.dieOf t.gid * 2 ^ 17 + r.idx % 16 * 2 ^ 19, timeline := x.ticket }) t
        (leftPack (.waiting (.svc x.ticket)) ⟨(linkOf r).toNat, 0⟩)) r t 8 1⟩ := by
  rw [rel_next h (fun _ => rfl), if_neg (by simp [hr]), linkOf_nat]
  dsimp only
  subst hm hc
  rw [hx, asidOf_ticket hx (fun y => nextTicket y.ticket)]
  rfl

section
variable (a : Nat) (ab : Bool) {w : Nat} (hw : w = if ab then (t.rdD a).toNat else min (s.m.time + (t.rdD a).toNat) (2 ^ 64 - 1))
include hw

theorem sleep_over (hp : w ≤ s.m.time) : exec (.sleep g ab a) s = .next ⟨s.agenda, creditWord s.m r t 7 1⟩ := by
  rw [esc_next h (fun _ => rfl)]
  dsimp only
  rw [← hw, if_pos hp]

theorem sleep_waits (hp : s.m.time < w) : exec (.sleep g ab a) s = .next ⟨s.agenda,
    creditWord (withThread s.m t (leftPack (.waiting (.sleep w)) ⟨(linkOf r).toNat, 0⟩)) r t 7 1⟩ := by
  rw [esc_next h (fun _ => rfl), linkOf_nat]
  dsimp only
  rw [← hw, if_neg (Nat.not_le.2 hp)]
  rfl

end
end

/-! The record's queue (R204 to R207, R210). -/

theorem shapeBad_iff (x : LaunchRec) : x.shapeBad = false ↔ x.threads ≤ 1024 ∧ x.setSize ≤ 4 ∧ x.groupCount ≤ 2 ^ 32 - 1 := by
  simp [LaunchRec.shapeBad, and_assoc]

section
variable {m : Mach} {cid hd : Nat} {bs : List Byte} {dies : List Nat}

theorem appendRec_noQueue (hq : queueOf m cid hd = none) : appendRec m cid hd bs dies = (m, 2 ^ 63 + 3) := by
  simp only [appendRec, hq]

section
variable {q : Queue} (hq : queueOf m cid hd = some q)
include hq

theorem appendRec_badField (hf : recFieldBad bs = true) : appendRec m cid hd bs dies = (m, 2 ^ 63 + 1) := by
  simp only [appendRec, hq, hf, if_true]

variable (hf : recFieldBad bs = false)
include hf

theorem appendRec_badShape (hs : (LaunchRec.ofBytes bs).shapeBad = true) : appendRec m cid hd bs dies = (m, 2 ^ 63 + 6) := by
  simp only [appendRec, hq, hf, hs, Bool.false_eq_true, if_false, if_true]

variable (hs : (LaunchRec.ofBytes bs).shapeBad = false)
include hs

theorem appendRec_badRanges (hr : (LaunchRec.ofBytes bs).rangesBad dies = true) :
    appendRec m cid hd bs dies = (m, 2 ^ 63 + 2) := by
  simp only [appendRec, hq, hf, hs, hr, Bool.false_eq_true, if_false, if_true]

variable (hr : (LaunchRec.ofBytes bs).rangesBad dies = false)
include hr

theorem appendRec_overRegs (hg : 65536 < (LaunchRec.ofBytes bs).threads * (LaunchRec.ofBytes bs).regs) :
    appendRec m cid hd bs dies = (m, 2 ^ 63 + 5) := by
  simp only [appendRec, hq, hf, hs, hr, Bool.false_eq_true, if_false, Config.regs, if_pos hg]

variable (hg : (LaunchRec.ofBytes bs).threads * (LaunchRec.ofBytes bs).regs ≤ 65536)
include hg

theorem appendRec_closed (hc : q.stat ≠ .active ∨ q.cap ≤ q.kids.length) : appendRec m cid hd bs dies = (m, 2 ^ 63 + 4) := by
  have hfull : q.stat ≠ .active ∨ q.full = true := hc.imp_right decide_eq_true
  simp only [appendRec, hq, hf, hs, hr, Bool.false_eq_true, if_false, Config.regs, if_neg (Nat.not_lt.2 hg), if_pos hfull]

theorem appendRec_queues (ha : q.stat = .active) (hl : q.kids.length < q.cap) : appendRec m cid hd bs dies =
    (({ m with nextId := m.nextId + 1, kernels := m.kernels ++ [{
          kid := m.nextId, cid := cid, qid := q.qid, seq := q.seq
          rc := { LaunchRec.ofBytes bs with ranges := (LaunchRec.ofBytes bs).cut dies } }] } : Mach).updQueue
        q.qid (fun q => { q with seq := q.seq + 1, kids := q.kids ++ [m.nextId] }), q.seq) := by
  have hfull : ¬ (q.stat ≠ .active ∨ q.full = true) := by simp [ha, Queue.full, hl]
  simp only [appendRec, hq, hf, hs, hr, Bool.false_eq_true, if_false, Config.regs, if_neg (Nat.not_lt.2 hg), if_neg hfull]

end
end

section
variable {x : LaunchRec} {dies : List Nat}

theorem cut_given (h : ∃ r ∈ x.ranges, r.2 ≠ 0) : x.cut dies = x.ranges := by
  rw [LaunchRec.cut, if_pos (by simpa using h)]

/-- A table of zero counts is cut into equal ranges of the partition's dies, in ascending order (R207). -/
theorem cut_zero (h : ∀ r ∈ x.ranges, r.2 = 0) {n d i : Nat}
    (hn : n = (x.groupCount + x.setSize * dies.length - 1) / (x.setSize * dies.length) * x.setSize) (hd : d < 4)
    (hi : i = (dies.filter (fun e => decide (e < d))).length) :
    (x.cut dies).getD d (0, 0) =
      if d ∈ dies ∧ i * n < x.groupCount then (i * n, min n (x.groupCount - i * n)) else (0, 0) := by
  subst hn hi
  rw [LaunchRec.cut, if_neg (by simpa using h)]
  simp only [List.getD_eq_getElem?_getD, List.getElem?_map, List.getElem?_range hd, Option.map_some, Option.getD_some,
    List.contains_iff_mem, ite_and]

/-- A table that R206 allows covers the groups, in whole sets, on dies of the partition. -/
theorem ranges_valid (hl : x.ranges.length = 4) (h : ∃ r ∈ x.ranges, r.2 ≠ 0) (hb : x.rangesBad dies = false) :
    (∀ gix, gix < x.groupCount → ∃ d, d < 4 ∧ (x.ranges.getD d (0, 0)).1 ≤ gix ∧
      gix < (x.ranges.getD d (0, 0)).1 + (x.ranges.getD d (0, 0)).2) ∧
    ∀ d, d < 4 → (x.ranges.getD d (0, 0)).2 ≠ 0 → d ∈ dies ∧ (x.ranges.getD d (0, 0)).1 % x.setSize = 0 ∧
      (x.ranges.getD d (0, 0)).2 % x.setSize = 0 := by
  have hne : (x.ranges.filter (fun r => r.2 != 0)).isEmpty = false := by simpa using h
  simp only [LaunchRec.rangesBad, hne, Bool.not_false, Bool.true_and, Bool.or_eq_false_iff, Bool.not_eq_false'] at hb
  obtain ⟨⟨⟨hdies, hsets⟩, -⟩, hcover⟩ := hb
  have at_mem : ∀ d, d < 4 → x.ranges.getD d (0, 0) ∈ x.ranges := fun d hd => by
    rw [List.getD_eq_getElem _ _ (hl ▸ hd)]
    exact List.getElem_mem _
  refine ⟨fun gix hg => ?_, fun d hd hc => ⟨?_, ?_⟩⟩
  · obtain ⟨r, hr, hin⟩ := covers [] _ _ _ _ hcover gix (Nat.zero_le _) hg
    obtain ⟨d, hd, rfl⟩ := List.getElem_of_mem (List.mem_filter.1 hr).1
    exact ⟨d, hl ▸ hd, by rwa [List.getD_eq_getElem _ _ hd]⟩
  · have := List.any_eq_false.1 hdies d (List.mem_range.2 hd)
    simpa [← List.getD_eq_getElem?_getD, hc] using this
  · have := List.any_eq_false.1 hsets _ (List.mem_filter.2 ⟨at_mem d hd, by simpa using hc⟩)
    simpa using this

end

/-! SLEEP_WAKE (R214). -/

section
variable {s : State} {gid tix w : Nat} {t : Thread} {g : Group} (ht : s.m.thread? gid tix = some t) (hg : s.m.group? gid = some g)
  (hs : t.stat = .waiting (.sleep w))
include ht hg hs

theorem sleepWake_next : exec (.sleepWake gid tix) s = .next ⟨s.agenda,
    if w ≤ s.m.time ∧ g.onCore ∧ g.stat ≠ .saving then updBoth s.m gid tix Thread.freed else s.m⟩ := by
  rw [ev_next (fun _ => rfl), ht, hg]
  dsimp only
  rw [hs]

theorem sleepWake_wakes (hw : w ≤ s.m.time) (hc : g.onCore = true) (hv : g.stat ≠ .saving) :
    exec (.sleepWake gid tix) s = .next ⟨s.agenda, updBoth s.m gid tix (fun u => { u with stat := .ready, landed := false })⟩ := by
  rw [sleepWake_next ht hg hs, if_pos ⟨hw, hc, hv⟩]
  rfl

theorem sleepWake_sleeps (h : s.m.time < w ∨ g.onCore = false ∨ g.stat = .saving) : exec (.sleepWake gid tix) s = .next s := by
  rw [sleepWake_next ht hg hs, if_neg]
  rintro ⟨hw, hc, hv⟩
  rcases h with h | h | h
  · omega
  · simp [h] at hc
  · exact hv h

end

/-! SERVICE_REPLY (R213). -/

/-- The thread waits for the reply to this ticket. -/
def asksFor (n : Nat) (t : Thread) : Bool :=
  match t.stat with
  | .waiting (.svc k) => k == n
  | _ => false

theorem asksFor_iff (n : Nat) (t : Thread) : asksFor n t = true ↔ t.stat = .waiting (.svc n) := by
  unfold asksFor
  split
  · next k hk => simp [hk]
  · next hn => simpa using hn n

section
variable {s : State} {p : Part} {ops : List Nat} {x : Ctx} (h : RingHead s.m p 14 ops) (hx : ctxNum s.m p (opAt ops 0) = some x)
include h hx

theorem serviceReply_refuses (hn : ∀ t ∈ s.m.threads, ¬ (cidOf s.m t.gid = x.cid ∧ t.stat = .waiting (.svc (opAt ops 1)))) :
    Refuses (.serviceReply p.pid) s p := by
  rw [Refuses, show exec (.serviceReply p.pid) s = execServiceReply p.pid s from rfl, execServiceReply]
  refine ring_refuse h rfl ?_
  have hnone : s.m.threads.find? (fun t => cidOf s.m t.gid == x.cid && asksFor (opAt ops 1) t) = none :=
    List.find?_eq_none.2 (fun t ht => by simpa [asksFor_iff] using hn t ht)
  simp only [hx]
  split
  · rfl
  · next t ht => exact absurd (hnone.symm.trans ht) (by simp)

/-- The ticket's thread goes on with the reply; where its group is saved, the reply waits for its restore. -/
theorem serviceReply_answers {t : Thread} {g : Group}
    (ht : s.m.threads.find? (fun t => cidOf s.m t.gid == x.cid && asksFor (opAt ops 1) t) = some t)
    (hg : s.m.group? t.gid = some g) (hr : ∀ r ∈ x.replies, r.1 ≠ opAt ops 1) {v0 v1 : DWord}
    (h0 : v0 = BitVec.ofNat 64 (opAt ops 2)) (h1 : v1 = BitVec.ofNat 64 (opAt ops 3)) :
    exec (.serviceReply p.pid) s = answers s p (wakeKernel (if g.stat = .saved
      then s.m.updCtx x.cid (fun x => { x with replies := x.replies ++ [(opAt ops 1, v0, v1)] })
      else acqDo (goOn s.m t (fun u => ((u.wrD ra0 v0).wrD (ra0 + 2) v1).freed)) g.core 4) g.kid) 1 0 := by
  subst h0 h1
  have hnew : ¬ x.replies.any (fun r => r.1 == opAt ops 1) = true := by
    simpa only [List.any_eq_true, beq_iff_eq, not_exists, not_and] using hr
  rw [show exec (.serviceReply p.pid) s = execServiceReply p.pid s from rfl, execServiceReply]
  refine ring_done h rfl ?_
  simp only [hx]
  split
  · next hn => exact absurd (hn.symm.trans ht) (by simp)
  · next u hu =>
    obtain rfl : t = u := Option.some.inj (ht.symm.trans hu)
    simp only [hg, if_neg hnew]
    split <;> rfl

end

/-- Settles O39: the words by what they wait for, a record by its limits in turn, a reply by where its thread's group is. -/
theorem systemWords : Obligations.SystemWords := by
  unfold Obligations.SystemWords
  refine ⟨fun s r t g d a b h => ⟨launch_misaligned h d a b, launch_stalls h d a b, fun ha hr =>
      ⟨fun m xs hx q hq => launch_appends h d a b ha hr hx hq, fun va e hx => launch_untranslated h d a b ha hr hx⟩⟩,
    fun m cid hd bs dies x hx => ?record, fun x dies n hn => ⟨cut_given, fun hz d hd i hi => ?cut⟩, fun x dies => ranges_valid,
    fun s r t g n h => ⟨svc_stalls h n, fun hr m cid x => svc_posts h n hr⟩,
    fun s r t g a ab w h hw => ⟨sleep_over h a ab hw, sleep_waits h a ab hw⟩,
    fun s gid tix w t g ht hg hs => ⟨sleepWake_wakes ht hg hs, sleepWake_sleeps ht hg hs⟩,
    fun s p ops x h hx => ⟨serviceReply_refuses h hx, fun t g ht hg hr v0 v1 h0 h1 => ?reply⟩⟩
  case record =>
    subst hx
    refine ⟨appendRec_noQueue, fun q hq => ⟨appendRec_badField hq, fun hf hs => appendRec_badShape hq hf ?_, fun hf h1 h2 h3 => ?_⟩⟩
    · rwa [← shapeBad_iff, Bool.not_eq_false] at hs
    · have hs := (shapeBad_iff _).2 ⟨h1, h2, h3⟩
      exact ⟨appendRec_badRanges hq hf hs, fun hr => ⟨appendRec_overRegs hq hf hs hr,
        fun hg => ⟨appendRec_closed hq hf hs hr hg, appendRec_queues hq hf hs hr hg⟩⟩⟩
  case cut =>
    rw [cut_zero hz hn hd hi]
    refine ⟨fun hm hl => if_pos ⟨hm, hl⟩, fun hno => ?_⟩
    rw [if_neg (by rcases hno with hno | hno <;> simp [hno])]
  case reply =>
    rw [serviceReply_answers h hx ht hg hr h0 h1]
    exact ⟨fun hs => by rw [if_pos hs], fun hs => by rw [if_neg hs]; rfl⟩

end Sys2Proof.Machine
end

section
/-!
PROOFS. The life of a group and of its kernel (R208, R209, R217 to R219, R221, R231).
-/

namespace Sys2Proof.Machine

/-! What fits (R219, R349). -/

theorem pendingFits_iff (m : Mach) (k : Kernel) (c : Nat) :
    pendingFits m k c = true ↔ fitsOn m k c = true ∧ ∃ l, recRoom m k = some l := by
  rw [pendingFits, Bool.and_eq_true, Option.isSome_iff_exists]

theorem coreFits_iff (m : Mach) (cid : Nat) (x : LaunchRec) (c : Nat) {hs rs : List Group} (hh : hs = holders m c)
    (hr : rs = hs.filter (fun g => g.onCore)) :
    coreFits m cid x c = true ↔ (m.die (c / 64)).held = false ∧ (m.die (c / 64)).fatal = false ∧ (m.core c).fenced = false ∧
      (m.core c).stopping = false ∧ (∀ g ∈ hs, g.stat ≠ .draining) ∧ ((m.core c).cid = none ∨ (m.core c).cid = some cid) ∧ rs.length + 1 ≤ 32 ∧
      (rs.map (fun g => (m.recOf g.gid).threads)).sum + x.threads ≤ 2048 ∧
      (rs.map (fun g => (m.recOf g.gid).threads * (m.recOf g.gid).regs)).sum + x.threads * x.regs ≤ 65536 ∧
      (hs.map (fun g => ((m.recOf g.gid).scratch + 767) / 768 * 768)).sum + (x.scratch + 767) / 768 * 768 ≤ 393216 := by
  subst hr hh
  simp only [coreFits, Bool.and_eq_true, Bool.not_eq_true', Bool.or_eq_true, Option.isNone_iff_eq_none, beq_iff_eq, List.any_eq_false,
    List.map_map, Function.comp_def, List.length_map, and_assoc, decide_eq_true_iff, ne_eq]
  rfl

theorem leastOf_mem : ∀ {l : List Nat} {a : Nat}, leastOf l = some a → a ∈ l
  | b :: l, a, h => by
    rw [leastOf] at h
    split at h
    · obtain rfl := Option.some.inj h
      exact List.mem_cons_self
    · next c hc =>
      obtain rfl := Option.some.inj h
      rcases min_choice b c with hm | hm <;> rw [hm]
      · exact List.mem_cons_self
      · exact List.mem_cons_of_mem _ (leastOf_mem hc)

/-- A record's place lies in the save area, and beside the records that are there. -/
theorem roomAt_fits {size len a : Nat} {used : List (Nat × Nat)} (h : roomAt size len used = some a) :
    a + len ≤ size ∧ ∀ u ∈ used, a + len ≤ u.1 ∨ u.1 + u.2 ≤ a := by
  simpa using (List.mem_filter.1 (leastOf_mem h)).2

theorem recPlaces_fit {size len : Nat} : ∀ {n : Nat} {used : List (Nat × Nat)} {l : List Nat}, recPlaces size len n used = some l →
    l.length = n ∧ ∀ a ∈ l, a + len ≤ size ∧ ∀ u ∈ used, a + len ≤ u.1 ∨ u.1 + u.2 ≤ a
  | 0, used, l, h => by
    cases h
    simp
  | n + 1, used, l, h => by
    rw [recPlaces] at h
    split at h
    · cases h
    · next a ha =>
      obtain ⟨l, hl, rfl⟩ := Option.map_eq_some_iff.1 h
      obtain ⟨hlen, hfit⟩ := recPlaces_fit hl
      refine ⟨by simp [hlen], fun b hb => ?_⟩
      rcases List.mem_cons.1 hb with rfl | hb
      · exact roomAt_fits ha
      · exact ⟨(hfit b hb).1, fun u hu => (hfit b hb).2 u (List.mem_cons_of_mem _ hu)⟩

theorem recRoom_fits {m : Mach} {k : Kernel} {x : Ctx} {l : List Nat} (h : recRoom m k = some l) (hx : m.ctx? k.cid = some x) :
    l.length = max 1 k.rc.setSize ∧ ∀ a ∈ l, a + k.rc.saveBytes ≤ x.saveSize ∧
      ∀ u ∈ recsOf m k.cid, a + k.rc.saveBytes ≤ u.1 ∨ u.1 + u.2 ≤ a := by
  simp only [recRoom, hx] at h
  split at h
  · cases h
  · exact recPlaces_fit h

/-! Where a group starts (R208, R209). -/

/-- Without a flushed group, the groups of a die come in ascending order. -/
theorem nextGix_iff {k : Kernel} (d g : Nat) (h : k.again = []) : k.nextGix d = some g ↔
    k.placedOn d < (k.rc.ranges.getD d (0, 0)).2 ∧ g = (k.rc.ranges.getD d (0, 0)).1 + k.placedOn d := by
  simp only [Kernel.nextGix, h, List.filter_nil, leastOf]
  split
  · next hl => simp only [Option.some.injEq, hl, true_and, eq_comm]
  · next hl => simp only [reduceCtorEq, hl, false_and]

theorem placeGroup_plain {m : Mach} {k : Kernel} (gix : Nat) {c : Nat} (a : Nat) (h : callOf m (c / 64) k = none) :
    placeGroup m k gix c a = (
    let m' := takeCore m c k.cid
    addDue (enterCk { m' with
      nextId := m.nextId + 1 + (k.rc.threads + 31) / 32
      groups := m'.groups ++ [{ gid := m.nextId, kid := k.kid, gix := gix, die := c / 64, core := c, placedAt := m'.time, recAt := a }]
      threads := m'.threads ++ (List.range k.rc.threads).map (fun i =>
        { startThread k.rc m.nextId gix i ((freeSlots m c k.rc.threads).getD i 0) with pack := m.nextId + 1 + i / 32 }) } c m.nextId) c 12) := by
  unfold placeGroup
  rw [h]

theorem spOf_lt (x : LaunchRec) (gix tix : Nat) : x.spOf gix tix < 2 ^ 64 := by
  unfold LaunchRec.spOf
  split
  · omega
  · exact Nat.mod_lt _ (by omega)

section
variable (x : LaunchRec) (gid gix tix slot : Nat)

theorem startThread_form : startThread x gid gix tix slot =
    { gid := gid, tix := tix, slot := slot, pos := ⟨x.entry, 0⟩, landed := true, w := (startThread x gid gix tix slot).w } := rfl

theorem startThread_args : (startThread x gid gix tix slot).rdD 20 = x.args := by
  rw [startThread, rSP, rdD_other _ (by decide), ra0, Thread.rdD_wrD_self _ (by decide)]

theorem startThread_sp : ((startThread x gid gix tix slot).rdD 4).toNat = x.spOf gix tix := by
  rw [startThread, rSP, Thread.rdD_wrD_self _ (by decide), BitVec.toNat_ofNat, Nat.mod_eq_of_lt (spOf_lt x gix tix)]

/-- Every other register of a new thread is 0 (R209). -/
theorem startThread_zero {n : Nat} (h : n ∉ [4, 5, 20, 21]) : (startThread x gid gix tix slot).rd n = 0 := by
  simp only [List.mem_cons, List.not_mem_nil, or_false, not_or] at h
  obtain ⟨h4, h5, h20, h21⟩ := h
  rw [startThread, rSP, Thread.rd_wrD_ne _ h4 h5, ra0, Thread.rd_wrD_ne _ h20 h21]
  simp [Thread.rd, rget, lget]

end

/-! GROUP_PLACE (R208, R221, R216, R241). -/

theorem dropsLate_iff (m : Mach) (k : Kernel) : dropsLate m k = true ↔
    k.stat = .queued ∧ k.rc.deadline ≠ 0 ∧ k.rc.deadline < m.time ∧ ∃ q, m.queue? k.qid = some q ∧ q.dropLate = true := by
  unfold dropsLate Kernel.late
  cases m.queue? k.qid <;> simp [and_assoc]

/-- No core of the placement skips its slice (R347). -/
theorem find_skipped {m : Mach} {l : List Nat} {cid : Nat} (h : ∀ c ∈ l, sliceSkipped m c cid = false) :
    l.find? (fun c => sliceSkipped m c cid) = none := by
  simpa using h

theorem placeNext_eq {m : Mach} {k : Kernel} {l : List Nat} (h : recRoom m k = some l) (core gix : Nat) :
    placeNext m k core gix = (
      let n := max 1 k.rc.setSize
      let m := (List.range n).foldl (fun m r => placeGroup m k (gix + r)
        (if k.rc.setSize ≤ 1 then core else core / 4 * 4 + (gix + r) % k.rc.setSize) (l.getD r 0)) m
      let m := m.updKernel k.kid (fun k => { k with
        stat := .running, again := k.again.filter (fun g => decide (g < gix) || decide (gix + n ≤ g))
        placed := if k.again.contains gix then k.placed else lput k.placed (core / 64) (k.placedOn (core / 64) + n) })
      m.updCtx k.cid (fun x => if x.stat = .ending ∨ x.stat = .gone then x else { x with stat := .serving })) := by
  rw [placeNext, h]
  rfl

section
variable {s : State} {kid die core gix : Nat} {k : Kernel} (hk : s.m.kernel? kid = some k) (hn : k.nextGix die = some gix)
  (hd : core / 64 = die) (hp : placeable s.m k = true)
include hk hn hd hp

/-- A late head of a drop-late queue ends at the instant of its first placement (R216, R380). -/
theorem groupPlace_drops (hf : pendingFits s.m k core = true) (ho : outranked s.m k core = false) (hr : returnsFirst s.m k die = false)
    (hs : ∀ c ∈ k.rc.coresAt core, sliceSkipped s.m c k.cid = false) (hl : dropsLate s.m k = true) :
    exec (.groupPlace kid die core) s = .next ⟨s.agenda, s.m.updKernel kid (fun k => { k with status := 3, stat := .closing })⟩ := by
  rw [ev_next (fun _ => rfl)]
  simp [hk, hn, hd, hp, hf, ho, hr, find_skipped hs, hl]

theorem groupPlace_places (hf : pendingFits s.m k core = true) (ho : outranked s.m k core = false) (hr : returnsFirst s.m k die = false)
    (hs : ∀ c ∈ k.rc.coresAt core, sliceSkipped s.m c k.cid = false) (hl : dropsLate s.m k = false) :
    exec (.groupPlace kid die core) s = .next ⟨s.agenda, placeNext s.m k core gix⟩ := by
  rw [ev_next (fun _ => rfl)]
  simp [hk, hn, hd, hp, hf, ho, hr, find_skipped hs, hl]

theorem groupPlace_yields (hf : pendingFits s.m k core = true) (ho : outranked s.m k core = true ∨ returnsFirst s.m k die = true) :
    exec (.groupPlace kid die core) s = .next s := by
  rw [ev_next (fun _ => rfl)]
  simp [hk, hn, hd, hp, hf, ho]

section
variable (hf : pendingFits s.m k core = false)
include hf

/-- Where the group fits on no core of the die, one that waits for it makes room (R241). -/
theorem groupPlace_noRoom (hu : ∀ i, i < 64 → fitsOn s.m k (die * 64 + i) = false) :
    exec (.groupPlace kid die core) s = .next ⟨s.agenda,
      (makesRoom s.m k die).elim s.m (fun g => beginSave s.m (liveSet s.m g) true false)⟩ := by
  have hany : (List.range 64).any (fun i => fitsOn s.m k (die * 64 + i)) = false := by simpa using hu
  rw [ev_next (fun _ => rfl)]
  simp only [hk, hn, hd, hp, hf, hany]
  cases makesRoom s.m k die <;> simp

theorem groupPlace_elsewhere (hu : ∃ i, i < 64 ∧ fitsOn s.m k (die * 64 + i) = true) :
    exec (.groupPlace kid die core) s = .next s := by
  have hany : (List.range 64).any (fun i => fitsOn s.m k (die * 64 + i)) = true := by simpa using hu
  rw [ev_next (fun _ => rfl)]
  simp [hk, hn, hd, hp, hf, hany]

end
end

/-! GROUP_RESTORE (R221, R228) and GROUP_EXIT (R231). -/

section
variable {s : State} {gid core : Nat} {g : Group} {k : Kernel} (hg : s.m.group? gid = some g) (hk : s.m.kernelOf gid = some k)
include hg hk

theorem groupRestore_returns (hs : g.stat = .saved) (hr : setReturns s.m g core = true) (ho : outranked s.m k core = false)
    (hc : ∀ c ∈ k.rc.coresAt core, sliceSkipped s.m c k.cid = false) : exec (.groupRestore gid core) s = .next ⟨s.agenda,
      let m := ctxServes ((liveSet s.m g).foldl (fun m h => restoreGroup m h (k.rc.coreFor core h.gix)) s.m) k.cid
      m.updKernel k.kid (fun k => { k with preempted := k.preempted && m.groups.any (fun h => h.kid == k.kid && h.stat == .saved) })⟩ := by
  rw [ev_next (fun _ => rfl)]
  simp only [hg, hk, find_skipped hc]
  rw [if_neg (by simp [hs, hr, ho])]

theorem groupRestore_stays (h : g.stat ≠ .saved ∨ setReturns s.m g core = false ∨ outranked s.m k core = true) :
    exec (.groupRestore gid core) s = .next s := by
  rw [ev_next (fun _ => rfl)]
  simp only [hg, hk]
  rw [if_pos (by simpa using h)]

end

section
variable {s : State} {gid : Nat} {g : Group} (hg : s.m.group? gid = some g)
include hg

theorem groupExit_ends (hc : g.onCore = true) (ht : ∀ t ∈ s.m.threads, t.gid ≠ gid) (hx : ∀ x ∈ (s.m.core g.core).copies, x.gid ≠ gid)
    (hy : ∀ x ∈ (s.m.core g.core).tcmds, x.gid ≠ gid) (hz : ∀ x ∈ (s.m.core g.core).ftlds, x.gid ≠ gid) :
    exec (.groupExit gid) s = .next ⟨s.agenda, endGroup s.m g⟩ := by
  rw [ev_next (fun _ => rfl), hg]
  dsimp only
  rw [if_pos (by simpa [hc, and_assoc] using ⟨ht, hx, hy, hz⟩)]

theorem groupExit_waits (h : g.onCore = false ∨ (∃ t ∈ s.m.threads, t.gid = gid) ∨ ∃ x ∈ (s.m.core g.core).tcmds, x.gid = gid) :
    exec (.groupExit gid) s = .next s := by
  rw [ev_next (fun _ => rfl), hg]
  dsimp only
  rw [if_neg]
  simp only [Bool.and_eq_true, Bool.not_eq_true', List.any_eq_false, beq_iff_eq]
  rintro ⟨⟨⟨⟨hc, ht⟩, -⟩, hy⟩, -⟩
  rcases h with h | ⟨t, hm, ht'⟩ | ⟨x, hm, hx⟩
  · simp [h] at hc
  · exact ht t hm ht'
  · exact hy x hm hx

end

/-! What the end of a group leaves. -/

section
variable (m : Mach) (g : Group)

theorem endGroup_threads : ∃ f : Thread → TStat,
    (endGroup m g).threads = (m.threads.filter (fun t => t.gid != g.gid)).map (fun t => { t with stat := f t }) := by
  obtain ⟨z, hz, -, hth, -⟩ := endGroup_form m g
  rw [hth, hz]
  exact (leaveHeadland_frees _ _ _).th

theorem endGroup_mem (a : Nat) (h : ∀ v, a < pointerAt m g.die v ∨ pointerAt m g.die v + 8 ≤ a) :
    cget (endGroup m g).mem a = cget m.mem a := by
  obtain ⟨z, hz, hmem, -⟩ := endGroup_form m g
  rw [hmem, hz]
  exact (leaveHeadland_frees _ _ _).me a h

theorem endGroup_quiet (h : ∀ v ∈ (m.die g.die).visitors, v.2.gid ≠ g.gid) :
    (endGroup m g).threads = m.threads.filter (fun t => t.gid != g.gid) ∧ (endGroup m g).mem = m.mem := by
  obtain ⟨z, hz, hmem, hth, -⟩ := endGroup_form m g
  rw [hmem, hth, hz]
  refine And.symm (leaveHeadland_none ?_)
  exact h

theorem endGroup_exited : ∀ h, (endGroup m g).group? g.gid = some h → h.stat = .exited := by
  obtain ⟨z, -, -, -, -, hst⟩ := endGroup_form m g
  exact hst

/-- Its core is without it. -/
theorem endGroup_core : (endGroup m g).core g.core = leaveCk ((m.core g.core).without g.gid) g.gid := by
  obtain ⟨z, hz, -, -, hco, -⟩ := endGroup_form m g
  rw [Mach.core, hco, hz, (leaveHeadland_frees _ _ _).co]
  exact Mach.core_updCore_self m g.core (fun k => leaveCk (k.without g.gid) g.gid)

end
/-! KERNEL_CLOSE (R218) and KERNEL_CANCEL (R217). -/

theorem closesLater_iff (m : Mach) (k : Kernel) : closesLater m k = true ↔ (k.stat = .closing ∧ k.status = 4 ∧ k.placed = []) ∧
    ∃ h ∈ m.kernels, h.qid = k.qid ∧ h.seq < k.seq ∧ h.stat = .closing ∧ h.status = 4 ∧ h.placed = [] := by
  simp [closesLater, and_assoc]

/-- The fields of the completion word. -/
theorem doneWord_fields {k : Kernel} (h : k.status < 256) :
    k.doneWord % 2 ^ 8 = (if k.status ≠ 0 then k.status else if k.faulted = 0 then 1 else 2) ∧
    k.doneWord / 2 ^ 8 % 2 ^ 24 = min k.faulted (2 ^ 24 - 1) ∧ k.doneWord / 2 ^ 32 = k.rc.tag.toNat := by
  have hfinal : k.final < 256 := by
    unfold Kernel.final
    repeat' split
    all_goals omega
  have hcount : min k.faulted (2 ^ 24 - 1) < 2 ^ 24 := by omega
  rw [← Kernel.final, Kernel.doneWord]
  omega

section
variable {s : State} {kid : Nat} {k : Kernel} (hk : s.m.kernel? kid = some k)
include hk

theorem kernelClose_waits (h : k.stat ≠ .closing ∨ writesDone s.m kid = false ∨ closesLater s.m k = true) :
    exec (.kernelClose kid) s = .next s := by
  rw [ev_next (fun _ => rfl), hk]
  dsimp only
  rw [if_pos (by simpa using h)]

section
variable {m : Mach} (hm : m = (s.m.groups.filter (fun g => g.kid == kid)).foldl (fun m g => pushAll m g.core true) s.m)
  (hs : k.stat = .closing) (hw : writesDone s.m kid = true) (hl : closesLater s.m k = false)
include hm hs hw hl

theorem kernelClose_plain (hd : k.rc.done = 0) : exec (.kernelClose kid) s = .next ⟨s.agenda, endKernel m k⟩ := by
  rw [ev_next (fun _ => rfl), hk]
  dsimp only
  rw [if_neg (by simp [hs, hw, hl]), if_pos hd, hm]

section
variable (hd : k.rc.done ≠ 0) {c : Ctx} (hc : m.ctx? k.cid = some c) {who : Who}
  (ho : who = { core := k.die * 64, die := k.die, asid := pte c.satp.toNat 44 16, root := pte c.satp.toNat 0 44
                secure := c.secure, part := partDies m k.die })
include hd hc ho

theorem kernelClose_faults {kind cause : Nat} (hx : Machine.translate m who .store k.rc.done = .error (.fault kind cause)) :
    exec (.kernelClose kid) s = .next ⟨s.agenda, endKernel (postRec m k.cid {
      kind := kind, cause := cause, access := 1, flags := 0, asid := asidOf m k.cid, addr := k.rc.done, clause := k.rc.entry
      place := k.die * 2 ^ 17, timeline := 0 }) k⟩ := by
  subst ho
  rw [ev_next (fun _ => rfl), hk]
  dsimp only
  rw [if_neg (by simp [hs, hw, hl]), if_neg hd, ← hm, hc]
  dsimp only
  rw [hx]
  rfl

theorem kernelClose_writes {m1 m2 : Mach} {x : Xlat} (hx : Machine.translate m who .store k.rc.done = .ok (m1, x))
    (hr : reachable m1 .store k.die x.pa 8 = .ok ()) (hh : drainingOf m1 k = false ∨ homeOf x.pa = .host)
    (hput : writeDone m1 who k x = some m2) : exec (.kernelClose kid) s = .next ⟨s.agenda, endKernel m2 k⟩ := by
  subst ho
  rw [ev_next (fun _ => rfl), hk]
  dsimp only
  rw [if_neg (by simp [hs, hw, hl]), if_neg hd, ← hm, hc]
  dsimp only
  rw [hx]
  dsimp only
  rw [if_neg (by simpa [imp_iff_not_or] using hh), hr]
  dsimp only
  rw [hput]

end
end

theorem kernelCancel_over (h : k.stat = .ended ∨ k.stat = .closing ∨ k.status ≠ 0) : exec (.kernelCancel kid) s = .next s := by
  rw [ev_next (fun _ => rfl), stopKernel, hk]
  dsimp only
  rw [if_pos h]

theorem kernelCancel_stops (h : ¬ (k.stat = .ended ∨ k.stat = .closing ∨ k.status ≠ 0)) : exec (.kernelCancel kid) s = .next ⟨s.agenda,
    let m := s.m.updKernel kid (fun k => { k with status := 4, again := [] })
    let m := m.updKernel kid (fun k => { k with faulted := k.faulted + (openGroups m kid).countP (fun g => g.stat != .faulted) })
    let m : Mach := { m with groups := m.groups.map (fun g =>
      if g.kid == kid && g.stat == .saving then { g with stat := .live } else g) }
    let m := breakBarriers m kid 3 0 k.rc.groupCount
    let m : Mach := { m with groups := m.groups.map (fun g =>
      if g.kid == kid && (g.stat == .live || g.stat == .draining) then { g with stat := .faulted } else g) }
    closeIfDone ((openGroups m kid).foldl stopGroup m) kid⟩ := by
  rw [ev_next (fun _ => rfl), stopKernel, hk]
  dsimp only
  rw [if_neg h]

end

/-- Settles O40: a placement by what fits and what comes first, a group's end by what it held, a kernel's by its writes. -/
theorem groupLife : Obligations.GroupLife := by
  unfold Obligations.GroupLife
  refine ⟨fun s kid die core gix k hk hn hd hp => ⟨fun hf ho hr hs => ⟨fun h1 h2 h3 q hq h4 => ?drops, fun hl l hroom => ?places⟩,
      fun hf ho => groupPlace_yields hk hn hd hp hf ho, fun hf hu => ⟨fun g hg => ?makes, fun hg => ?full⟩,
      fun hf hu => groupPlace_elsewhere hk hn hd hp hf hu⟩,
    pendingFits_iff, fun m k x l h hx => recRoom_fits h hx, fun k d g h => nextGix_iff d g h,
    fun m k gix c a h => placeGroup_plain gix a h,
    fun x gid gix tix slot => ⟨rfl, rfl, startThread_args x gid gix tix slot, startThread_sp x gid gix tix slot, fun h => if_neg h,
      fun h => if_pos h, fun n => startThread_zero x gid gix tix slot, startThread_form x gid gix tix slot⟩,
    fun m cid x c hs rs hh hr => coreFits_iff m cid x c hh hr,
    fun s gid core g k hg hk => ⟨groupRestore_returns hg hk, groupRestore_stays hg hk⟩,
    fun s gid g hg => ⟨groupExit_ends hg, groupExit_waits hg⟩,
    fun m g hg => ⟨endGroup_quiet m g, endGroup_threads m g, endGroup_mem m g, endGroup_exited m g, fun t ht => ?tiles, fun x hx => ?cmds⟩,
    fun s kid k m hk hm => ⟨kernelClose_waits hk, kernelClose_plain hk hm, fun hs hw hl hd c who hc ho =>
      ⟨fun kind cause => kernelClose_faults hk hm hs hw hl hd hc ho,
        fun m1 x hx hr hh m2 => kernelClose_writes hk hm hs hw hl hd hc ho hx hr hh⟩⟩,
    closesLater_iff, fun k => doneWord_fields,
    fun s kid k hk => ⟨kernelCancel_over hk, fun h1 h2 h3 => kernelCancel_stops hk (by simp [h1, h2, h3])⟩⟩
  case drops => exact groupPlace_drops hk hn hd hp hf ho hr hs ((dropsLate_iff _ _).2 ⟨h1, h2, h3, q, hq, h4⟩)
  case places =>
    have hlate : dropsLate s.m k = false := by
      refine Bool.eq_false_iff.2 (fun h => ?_)
      obtain ⟨h1, h2, h3, q, hq, h4⟩ := (dropsLate_iff _ _).1 h
      rcases hl with hl | hl | hl | hl
      · exact hl h1
      · exact h2 hl
      · omega
      · exact absurd (hl q hq) (by simp [h4])
    rw [groupPlace_places hk hn hd hp hf ho hr hs hlate, placeNext_eq hroom, hd]
  case makes => rw [groupPlace_noRoom hk hn hd hp hf hu, hg]; rfl
  case full => rw [groupPlace_noRoom hk hn hd hp hf hu, hg]; rfl
  case tiles =>
    rw [endGroup_core] at ht
    simpa using (List.mem_filter.1 ht).2
  case cmds =>
    rw [endGroup_core] at hx
    simpa using (List.mem_filter.1 hx).2

end Sys2Proof.Machine
end

section
/-!
PROOFS. The ways off a core: stop requests, saves and flushes, a core given up, pre-emption (R224, R225, R227 to R230, R346
to R348, R377, R382).
-/

namespace Sys2Proof.Machine

/-! The stop of a core, and what still drains a drain time after its slice (R225, R227, R347). -/

section
variable {s : State} {core e : Nat} {x : Ctx} (he : (s.m.core core).sliceEnd = some e) (hx : ctxOn s.m core = some x)
include he hx

theorem stopRequest_stops (hs : (s.m.core core).stopping = false) (ht : e ≤ s.m.time + x.drain) :
    exec (.stopRequest core) s = .next ⟨s.agenda, (residents s.m core).foldl (fun m g => chooseLeave m g.gid)
      (s.m.updCore core (fun k => { k with stopping := true }))⟩ := by
  rw [ev_next (fun _ => rfl)]
  simp [he, hx, hs, Nat.not_lt.2 ht]

theorem stopRequest_stays (h : (s.m.core core).stopping = true ∨ s.m.time + x.drain < e) : exec (.stopRequest core) s = .next s := by
  rw [ev_next (fun _ => rfl)]
  simp [he, hx, h]

theorem drainLimitExpire_early (h : s.m.time < e + x.drain) : exec (.drainLimitExpire core) s = .next s := by
  rw [ev_next (fun _ => rfl)]
  simp [he, hx, h]

theorem drainLimitExpire_saves (h : e + x.drain ≤ s.m.time) : exec (.drainLimitExpire core) s = .next ⟨s.agenda,
    (residents s.m core).foldl (fun m g => match m.group? g.gid with
      | some h => if h.stat = .draining then beginSave m ((liveSet m h).filter (fun y => y.stat == .draining)) false false else m
      | none => m) s.m⟩ := by
  rw [ev_next (fun _ => rfl), he, hx]
  exact congrArg (fun m : Mach => (.next ⟨s.agenda, m⟩ : Host.Outcome State Fault Refusal)) (if_neg (Nat.not_lt.2 h))

end

/-! The choice of Table 11-3 (R225, R229). -/

theorem mayFlush_iff (m : Mach) (g : Group) : mayFlush m g = true ↔ (m.recOf g.gid).idem = true ∧ g.escaped = false := by
  simp [mayFlush]

theorem mayFlush_false_iff (m : Mach) (g : Group) : mayFlush m g = false ↔ (m.recOf g.gid).idem = false ∨ g.escaped = true := by
  simp [mayFlush, imp_iff_not_or]

/-- A group may not drain below 90, or with a thread that is away. -/
theorem mayDrain_false_iff (m : Mach) (g : Group) : mayDrain m g = false ↔
    progress m g < 90 ∨ ∃ t ∈ m.threads, t.gid = g.gid ∧ (t.stat = .transit ∨ ∃ p, t.stat = .parked p) := by
  rw [← Bool.not_eq_true, drain_iff]
  simp [imp_iff_not_or]

/-- A set has ended in no member where its live members are all of it. -/
theorem liveSet_whole (m : Mach) (g : Group) : ((liveSet m g).length == (setOf m g).length) = true ↔
    ∀ h ∈ setOf m g, h.stat ≠ .exited ∧ h.stat ≠ .faulted := by
  simp [liveSet, List.length_filter_eq_length_iff]

section
variable {m : Mach} {g : Group} (hg : m.group? g.gid = some g) (hs : g.stat = .live) (hl : ∀ h ∈ liveSet m g, h.stat = .live)
include hg hs hl

/-- The rows of Table 11-3, in order, for a set that is live. -/
theorem chooseLeave_eq : chooseLeave m g.gid =
    if (liveSet m g).all (mayDrain m) then (liveSet m g).foldl (fun m h => m.updGroup h.gid (fun h => { h with stat := .draining })) m
    else if (liveSet m g).length == (setOf m g).length && (liveSet m g).all (mayFlush m) then (liveSet m g).foldl flushGroup m
    else beginSave m (liveSet m g) false false := by
  rw [chooseLeave, hg]
  dsimp only
  rw [if_neg (by simpa [hs] using hl)]

theorem chooseLeave_drains (h : ∀ h ∈ liveSet m g, mayDrain m h = true) :
    chooseLeave m g.gid = (liveSet m g).foldl (fun m h => m.updGroup h.gid (fun h => { h with stat := .draining })) m := by
  rw [chooseLeave_eq hg hs hl, if_pos (List.all_eq_true.2 h)]

section
variable (hd : ∃ h ∈ liveSet m g, mayDrain m h = false)
include hd

theorem chooseLeave_flushes (hw : ∀ h ∈ setOf m g, h.stat ≠ .exited ∧ h.stat ≠ .faulted) (hf : ∀ h ∈ liveSet m g, mayFlush m h = true) :
    chooseLeave m g.gid = (liveSet m g).foldl flushGroup m := by
  rw [chooseLeave_eq hg hs hl, if_neg (by simpa using hd),
    if_pos (Bool.and_eq_true_iff.2 ⟨(liveSet_whole m g).2 hw, List.all_eq_true.2 hf⟩)]

theorem chooseLeave_saves (h : (∃ h ∈ setOf m g, h.stat = .exited ∨ h.stat = .faulted) ∨ ∃ h ∈ liveSet m g, mayFlush m h = false) :
    chooseLeave m g.gid = beginSave m (liveSet m g) false false := by
  rw [chooseLeave_eq hg hs hl, if_neg (by simpa using hd), if_neg]
  rw [Bool.and_eq_true_iff, liveSet_whole, List.all_eq_true]
  rintro ⟨hw, hf⟩
  rcases h with ⟨y, hy, he⟩ | ⟨y, hy, hn⟩
  · exact he.elim (hw y hy).1 (hw y hy).2
  · simp [hf y hy] at hn

end
end

/-- The progress estimate of a group whose kernel is known (R224). -/
theorem progress_eq {m : Mach} {g : Group} {k : Kernel} (hk : m.kernel? g.kid = some k) :
    progress m g = (
      let t := (m.recOf g.gid).threads
      let x := t - (m.threads.filter (fun u => u.gid == g.gid && u.stat != .exited)).length
      let l := (lget k.recent g.die).getD []
      min 100 (max (100 * x / t) (if l.sum = 0 then 0 else 100 * (g.ns + (m.time - g.placedAt)) * l.length / l.sum))) := by
  rw [progress, hk]
  rfl

/-! The beginning of a save (R228, R230). -/

section
variable (m : Mach) (g : Group) (a b : Bool)

theorem beginSave_group {h : Group} (hg : m.group? g.gid = some g) (hh : (beginSave m [g] a b).group? g.gid = some h) :
    h.stat = .saving ∧ h.room = a ∧ h.avoid = if b then some g.core else none := by
  obtain ⟨y, hy, rfl⟩ := find_upd g.gid (fun y => { y with stat := .saving, room := a, avoid := if b then some y.core else none })
    (fun _ => rfl) m h hh
  obtain rfl := Option.some.inj (hg.symm.trans hy)
  exact ⟨rfl, rfl, rfl⟩

/-- The chunk of its core closes with cause 11. -/
theorem beginSave_due : 11 ∈ ((beginSave m [g] a b).core g.core).due := by
  rw [beginSave, meant_due]
  exact due_mem _ _ _

end

/-! GROUP_SAVE and THERMAL_MOVE (R228, R230). -/

section
variable {s : State} {gid : Nat} {g : Group} (hg : s.m.group? gid = some g)
include hg

theorem groupSave_saves (hs : g.stat = .saving) (hr : ∀ h ∈ liveSet s.m g, saveReady s.m h = true) :
    exec (.groupSave gid) s = .next ⟨s.agenda, (liveSet s.m g).foldl saveGroup s.m⟩ := by
  rw [ev_next (fun _ => rfl), hg]
  dsimp only
  rw [if_pos ⟨hs, List.all_eq_true.2 hr⟩]

theorem groupSave_waits (h : g.stat ≠ .saving ∨ ∃ h ∈ liveSet s.m g, saveReady s.m h = false) : exec (.groupSave gid) s = .next s := by
  rw [ev_next (fun _ => rfl), hg]
  dsimp only
  rw [if_neg]
  rintro ⟨hs, hr⟩
  rcases h with h | ⟨y, hy, hn⟩
  · exact h hs
  · simp [List.all_eq_true.1 hr y hy] at hn

theorem thermalMove_begins (hne : liveSet s.m g ≠ []) (hr : ∀ h ∈ liveSet s.m g, h.stat = .live ∧ h.placedAt + 2000000 ≤ s.m.time) :
    exec (.thermalMove gid) s = .next ⟨s.agenda, beginSave s.m (liveSet s.m g) false true⟩ := by
  rw [ev_next (fun _ => rfl), hg]
  dsimp only
  rw [if_pos (by simpa using ⟨hr, hne⟩)]

theorem thermalMove_stays (h : ∃ h ∈ liveSet s.m g, h.stat ≠ .live ∨ s.m.time < h.placedAt + 2000000) :
    exec (.thermalMove gid) s = .next s := by
  rw [ev_next (fun _ => rfl), hg]
  dsimp only
  rw [if_neg]
  obtain ⟨y, hy, hn⟩ := h
  simp only [Bool.and_eq_true, List.all_eq_true, beq_iff_eq, decide_eq_true_eq]
  rintro ⟨hr, -⟩
  obtain ⟨hs, ht⟩ := hr y hy
  exact hn.elim (· hs) (by omega)

end

/-! Bytes published one range after another, at offsets from a base. -/

/-- What the ranges make of what a thread waits for. -/
def wokenAll (a : Nat) (l : List (Nat × List Byte)) (st : TStat) : TStat := l.foldl (fun st w => wokenBy (a + w.1) w.2.length st) st

theorem wokenBy_other {a n : Nat} {st : TStat} (h : ∀ ea wp v d w n, st ≠ .waiting (.addr true ea wp v d w n)) : wokenBy a n st = st := by
  unfold wokenBy
  split
  · exact absurd rfl (h _ _ _ _ _ _)
  · rfl

/-- Only a thread that watches a word of memory wakes. -/
theorem wokenAll_other {a : Nat} {l : List (Nat × List Byte)} {st : TStat} (h : ∀ ea wp v d w n, st ≠ .waiting (.addr true ea wp v d w n)) :
    wokenAll a l st = st :=
  foldl_keeps (fun z => z = st) _ (fun z w hz => by rw [hz, wokenBy_other h]) l st rfl

theorem publishBytes_threads (m : Mach) (pa : Nat) (bs : List Byte) :
    (publishBytes m pa bs).threads = m.threads.map (fun t => { t with stat := wokenBy pa bs.length t.stat }) :=
  List.map_congr_left fun t _ => woken_thread _ _ t

theorem publishes_mem (a : Nat) (l : List (Nat × List Byte)) (m : Mach) :
    (l.foldl (fun m w => publishBytes m (a + w.1) w.2) m).mem = l.foldl (fun c w => cwrite c (a + w.1) w.2) m.mem :=
  (List.foldl_hom Mach.mem (fun m w => (publishBytes_mem m (a + w.1) w.2).symm)).symm

theorem publishes_threads (a : Nat) : ∀ (l : List (Nat × List Byte)) (m : Mach),
    (l.foldl (fun m w => publishBytes m (a + w.1) w.2) m).threads = m.threads.map (fun t => { t with stat := wokenAll a l t.stat })
  | [], m => (map_stat_self m.threads).symm
  | w :: l, m => by
    rw [List.foldl_cons, publishes_threads a l, publishBytes_threads, List.map_map]
    rfl

/-! The save record (R228, R349). -/

section
variable (m : Mach) (gid : Nat)

theorem writeRecord_eq {g : Group} {x : Ctx} (hg : m.group? gid = some g) (hx : m.ctxOf gid = some x) : writeRecord m gid =
    (recordSections m g).foldl (fun m w => publishBytes m (x.saveBase + g.recAt + w.1) w.2) m := by
  rw [writeRecord, hg, hx]

theorem writeRecord_groups : (writeRecord m gid).groups = m.groups := by
  unfold writeRecord
  split
  · next g x _ _ =>
    exact foldl_keeps (fun n => n.groups = m.groups) (fun m (w : Nat × List Byte) =>
      publishBytes m (x.saveBase + g.recAt + w.1) w.2) (fun _ _ hn => hn) _ m rfl
  · rfl

/-- A thread may wake where the record is written to the word that it watches; nothing else becomes of it. -/
theorem writeRecord_threads : ∃ (a : Nat) (l : List (Nat × List Byte)),
    (writeRecord m gid).threads = m.threads.map (fun t => { t with stat := wokenAll a l t.stat }) := by
  unfold writeRecord
  split
  · exact ⟨_, _, publishes_threads _ _ m⟩
  · exact ⟨0, [], (map_stat_self m.threads).symm⟩

end

/-! A group saved (R228). -/

/-- A group in its record, with the time that it has been resident. -/
def Group.setDown (x : Group) (ns : Nat) (r : SaveRec) : Group := { x with stat := .saved, ns := ns, save := r }

/-- The machine with a group in its record, before the save area has it. `p` is the machine after the group's release. -/
def setDown (p : Mach) (g : Group) : Mach :=
  let q := p.updGroup g.gid (fun x => x.setDown (residentNs p g) (recordOf (p.core g.core) g))
  { q with threads := q.threads.map (fun t => if t.gid == g.gid then t.saved else t) }

theorem saveGroup_eq (m : Mach) (g : Group) : saveGroup m g =
    (writeRecord (setDown (pushAll m g.core true) g) g.gid).updCore g.core (fun k => leaveCk (k.without g.gid) g.gid) := by
  unfold saveGroup setDown Group.setDown
  rfl

theorem setDown_group {p : Mach} {g : Group} (hg : p.group? g.gid = some g) :
    (setDown p g).group? g.gid = some (g.setDown (residentNs p g) (recordOf (p.core g.core) g)) := by
  refine (Mach.group?_updGroup p g.gid (fun x => x.setDown (residentNs p g) (recordOf (p.core g.core) g)) (fun _ => rfl) g.gid).trans ?_
  simp [hg]

section
variable {m p : Mach} {g : Group} (hp : p = pushAll m g.core true)
include hp

theorem saveGroup_group (hg : p.group? g.gid = some g) {h : Group} (hh : (saveGroup m g).group? g.gid = some h) :
    h = g.setDown (residentNs p g) (recordOf (p.core g.core) g) := by
  have hgr : (saveGroup m g).group? g.gid = (setDown p g).group? g.gid := by
    rw [Mach.group?, saveGroup_eq, Mach.updCore_groups, writeRecord_groups, hp]
    rfl
  rw [hgr, setDown_group hg] at hh
  exact (Option.some.inj hh).symm

theorem saveGroup_threads : ∃ (a : Nat) (l : List (Nat × List Byte)),
    (saveGroup m g).threads = (setDown p g).threads.map (fun t => { t with stat := wokenAll a l t.stat }) := by
  rw [saveGroup_eq, Mach.updCore_threads, ← hp]
  exact writeRecord_threads _ _

/-- Where no thread watches a word of memory, none wakes. -/
theorem saveGroup_unwoken (h : ∀ t ∈ (setDown p g).threads, ∀ ea wp v d w n, t.stat ≠ .waiting (.addr true ea wp v d w n)) :
    (saveGroup m g).threads = (setDown p g).threads := by
  obtain ⟨a, l, hth⟩ := saveGroup_threads hp
  refine hth.trans ((List.map_congr_left fun t ht => ?_).trans (map_stat_self _))
  rw [wokenAll_other (h t ht)]

theorem saveGroup_mem {h : Group} {x : Ctx} (hh : (setDown p g).group? g.gid = some h) (hx : (setDown p g).ctxOf g.gid = some x) :
    (saveGroup m g).mem = (recordSections (setDown p g) h).foldl (fun c w => cwrite c (x.saveBase + h.recAt + w.1) w.2) p.mem := by
  rw [saveGroup_eq, Mach.updCore_mem, ← hp, writeRecord_eq _ _ hh hx, publishes_mem]
  rfl

end

/-- Its core is without its commands and its tiles. -/
theorem saveGroup_frees (m : Mach) (g : Group) : (∀ x ∈ ((saveGroup m g).core g.core).tcmds, x.gid ≠ g.gid) ∧
    ∀ x ∈ ((saveGroup m g).core g.core).tiles, x.2.gid ≠ g.gid := by
  rw [saveGroup_eq, Mach.core_updCore_self]
  exact ⟨fun x hx => by simpa using (List.mem_filter.1 hx).2, fun x hx => by simpa using (List.mem_filter.1 hx).2⟩

/-! CORE_GIVE_UP (R346, R347). -/

/-- The core of a context after it is given up: an overrun is carried (R347). -/
def Core.givenUp (k : Core) (cid extra : Nat) : Core :=
  { k with
    cid := none, sliceEnd := none, stopping := false, lines := [], fetched := []
    overrun := if extra = 0 then k.overrun else lput k.overrun cid ((lget k.overrun cid).getD 0 + extra) }

/-- The machine after a core is given up, but for the record of a long overrun and the state of the context. -/
def givenUp (m : Mach) (core cid extra : Nat) : Mach :=
  (m.updCore core (fun k => k.givenUp cid extra)).updDie (core / 64) (fun d => { d with trig := d.trig.filter (fun t => t.2 != core) })

section
variable {s : State} {core e : Nat} {x : Ctx} (hc : (s.m.core core).cid = some x.cid) (he : (s.m.core core).sliceEnd = some e)
include hc he

theorem coreGiveUp_waits (h : (∃ g, g ∈ holders s.m core) ∨ (s.m.core core).openC.empty = false ∨ (s.m.core core).comC ≠ none) :
    exec (.coreGiveUp core) s = .next s := by
  rw [ev_next (fun _ => rfl)]
  simp only [hc, he]
  rw [if_pos]
  simp only [Bool.or_eq_true, Bool.not_eq_true', List.isEmpty_eq_false_iff_exists_mem, Option.isSome_iff_ne_none, or_assoc]
  exact h

section
variable {m m' : Mach} (hh : holders s.m core = []) (ho : (s.m.core core).openC.empty = true) (hcom : (s.m.core core).comC = none)
  (hm : m = pushAll s.m core true) (hm' : m' = givenUp m core x.cid (s.m.time - e)) (ht : m.time = s.m.time)
  (hx : m'.ctx? x.cid = some x)
include hh ho hcom hm hm' ht hx

theorem coreGiveUp_eq : exec (.coreGiveUp core) s = .next ⟨s.agenda, ctxAway (if x.drain < s.m.time - e then postRec m' x.cid {
    kind := 7, cause := 0, asid := pte x.satp.toNat 44 16, addr := s.m.time - e
    place := core % 64 * 2 ^ 11 + core / 64 * 2 ^ 17 } else m') x.cid⟩ := by
  have hasid : asidOf m' x.cid = pte x.satp.toNat 44 16 := by rw [asidOf, hx]
  rw [← hasid, ev_next (fun _ => rfl)]
  simp only [hc, he]
  rw [if_neg (by simp [hh, ho, hcom]), ← hm, ht]
  unfold givenUp Core.givenUp at hm'
  rw [← hm', hx]

theorem coreGiveUp_inTime (h : s.m.time - e ≤ x.drain) : exec (.coreGiveUp core) s = .next ⟨s.agenda, ctxAway m' x.cid⟩ := by
  rw [coreGiveUp_eq hc he hh ho hcom hm hm' ht hx, if_neg (Nat.not_lt.2 h)]

theorem coreGiveUp_late (h : x.drain < s.m.time - e) : exec (.coreGiveUp core) s = .next ⟨s.agenda, ctxAway (postRec m' x.cid {
    kind := 7, cause := 0, asid := pte x.satp.toNat 44 16, addr := s.m.time - e
    place := core % 64 * 2 ^ 11 + core / 64 * 2 ^ 17 }) x.cid⟩ := by
  rw [coreGiveUp_eq hc he hh ho hcom hm hm' ht hx, if_pos h]

end
end

/-! PREEMPT_TRIGGER (R377). -/

theorem late_iff (k : Kernel) (now : Nat) : k.late now = false ↔ k.rc.deadline = 0 ∨ now ≤ k.rc.deadline := by
  simp [Kernel.late, imp_iff_not_or]

theorem mayTrigger_iff (m : Mach) (h : Kernel) (c : Nat) : mayTrigger m h c = true ↔ (∃ y, (m.core c).cid = some y ∧ y ≠ h.cid) ∧
    (m.core c).sliceStart + 100000 ≤ m.time ∧ ∃ b, bestOn m c = some b ∧ h.above b = true := by
  cases hc : (m.core c).cid <;> cases hb : bestOn m c <;> simp [mayTrigger, hc, hb, and_assoc]

theorem preemptTrigger_cuts {s : State} {kid core : Nat} {h : Kernel} {x : Ctx} {p : Part} (hk : s.m.kernel? kid = some h)
    (hx : s.m.ctx? h.cid = some x) (hp : s.m.part? x.part = some p) (hpl : placeable s.m h = true) (hl : h.late s.m.time = false)
    (hn : (h.nextGix (core / 64)).isSome = true) (hf : ∀ i, i < 64 → fitsOn s.m h (core / 64 * 64 + i) = false)
    (hd : partDies s.m (core / 64) = p.dies) (ht : mayTrigger s.m h core = true)
    (hb : ∀ i, i < 64 → mayTrigger s.m h (core / 64 * 64 + i) = true → takenBefore s.m core (core / 64 * 64 + i) = true)
    (hg : ∀ t ∈ (s.m.die (core / 64)).trig, t.1 ≠ kid) : exec (.preemptTrigger kid core) s = .next ⟨s.agenda,
      (s.m.updCore core (fun k => { k with sliceEnd := k.sliceEnd.map (fun e => min e s.m.time) })).updDie (core / 64) (fun x =>
        { x with trig := (kid, core) :: x.trig })⟩ := by
  have hfits : ((List.range 64).map (fun i => core / 64 * 64 + i)).any (fitsOn s.m h) = false := by simpa using hf
  have hbest : ((List.range 64).map (fun i => core / 64 * 64 + i)).all (fun c => !mayTrigger s.m h c || takenBefore s.m core c) = true := by
    simpa [imp_iff_not_or] using hb
  have htrig : (s.m.die (core / 64)).trig.any (fun t => t.1 == kid) = false := by simpa using hg
  rw [ev_next (fun _ => rfl)]
  simp only [hk, hx, hp, hpl, hl, hn, hfits, hd, ht, hbest, htrig]
  rw [if_pos (by simp)]

/-! KERNEL_SUSPEND (R348, R382). -/

/-- The threshold is a percentage, rounded up to groups. -/
theorem threshold_met (th n c : Nat) : (th * n + 99) / 100 ≤ c ↔ th * n ≤ 100 * c := by omega

section
variable {s : State} {kid : Nat} {k : Kernel} {x : Ctx} {gs : List Group} (hk : s.m.kernel? kid = some k) (hx : s.m.ctx? k.cid = some x)
  (hgs : gs = s.m.groups.filter (fun g => g.kid == kid && g.stat == .live))
include hk hx hgs

theorem kernelSuspend_saves (hs : k.stat = .running) (h0 : k.status = 0) (ht : x.threshold ≠ 0) (hne : gs ≠ [])
    (h : x.threshold * gs.length ≤ 100 * gs.countP (inService s.m)) : exec (.kernelSuspend kid) s = .next ⟨s.agenda,
      beginSave (s.m.updKernel kid (fun k => { k with stat := .suspended, preempted := true }))
        (s.m.groups.filter (fun g => g.kid == kid && (g.stat == .live || g.stat == .draining))) false false⟩ := by
  rw [ev_next (fun _ => rfl), hk]
  dsimp only
  rw [hx, ← hgs, if_pos ⟨hs, h0, ht, by simpa using hne, (threshold_met _ _ _).2 h⟩]

theorem kernelSuspend_stays (h : x.threshold = 0 ∨ gs = [] ∨ 100 * gs.countP (inService s.m) < x.threshold * gs.length) :
    exec (.kernelSuspend kid) s = .next s := by
  rw [ev_next (fun _ => rfl), hk]
  dsimp only
  rw [hx, ← hgs, if_neg]
  rintro ⟨-, -, ht, hne, hc⟩
  replace hc := (threshold_met x.threshold gs.length _).1 hc
  rcases h with h | h | h
  · exact ht h
  · simp [h] at hne
  · omega

end

/-- Settles O50: each way off a core by the conditions of its event, and a save by the record that it writes. -/
theorem leaving : Obligations.Leaving := by
  unfold Obligations.Leaving
  refine ⟨fun s core e x he hx => ⟨stopRequest_stops he hx, stopRequest_stays he hx, drainLimitExpire_early he hx,
      fun h => (drainLimitExpire_saves he hx h).trans rfl⟩,
    fun m g hg hs hl => ⟨fun h => chooseLeave_drains hg hs hl (fun y hy => (drain_iff m y).2 (h y hy)), fun hd => ?chooses⟩,
    fun m g t x r l ht hx hr k hk ms hms hl => ?progress,
    fun m g hg _ a b => ⟨fun h => beginSave_group m g a b hg, beginSave_due m g a b, rfl, rfl⟩,
    fun s gid g hg => ⟨groupSave_saves hg, groupSave_waits hg, thermalMove_begins hg, thermalMove_stays hg⟩,
    fun m p g k hp hg hk => ⟨fun h hh => ?group, fun q hq => ?area, saveGroup_frees m g⟩,
    fun s core e x k hk hc he hx => ?gives,
    fun s kid core h x p hk hx hp hpl hl hn hf hd ht hb hg => preemptTrigger_cuts hk hx hp hpl ((late_iff _ _).2 hl)
      (Option.isSome_iff_exists.2 hn) hf hd ht hb hg,
    mayTrigger_iff,
    fun s kid k x gs hk hx hgs hs h0 => ⟨kernelSuspend_saves hk hx hgs hs h0, kernelSuspend_stays hk hx hgs⟩⟩
  case chooses =>
    simp only [← mayDrain_false_iff] at hd
    simp only [← mayFlush_iff, ← mayFlush_false_iff]
    exact ⟨chooseLeave_flushes hg hs hl hd, chooseLeave_saves hg hs hl hd⟩
  case progress =>
    subst ht hx hr hms hl
    exact progress_eq hk
  case group =>
    subst hk
    exact saveGroup_group hp hg hh
  case area =>
    subst hk
    obtain rfl : q = setDown p g := hq
    obtain ⟨a, l, hth⟩ := saveGroup_threads hp
    exact ⟨⟨_, hth⟩, saveGroup_unwoken hp, fun h x => saveGroup_mem hp⟩
  case gives =>
    subst hk
    exact ⟨coreGiveUp_waits hc he, fun hh ho hcom m m' hm hm' ht hx' =>
      ⟨coreGiveUp_inTime hc he hh ho hcom hm hm' ht hx', coreGiveUp_late hc he hh ho hcom hm hm' ht hx'⟩⟩

end Sys2Proof.Machine
end

section
/-!
PROOFS. Barrier objects and the words that name them (R233 to R235, R237 to R240, R243).
-/

namespace Sys2Proof.Machine

/-! The object that a name means (R233). -/

section
variable {m : Mach} {t : Thread} {g : Group} (hg : m.group? t.gid = some g) (sel : BarSel) (id : Nat)
include hg

theorem barOf_group : barOf m t sel id = getBarrier m g.kid (selKey (m.recOf t.gid) g.gix t.tix g.die sel) id := by
  rw [barOf, hg]

theorem gixOf_group : gixOf m t.gid = g.gix := by rw [gixOf, hg]

end

theorem getBarrier_found {m : Mach} {kid id : Nat} {key : BarKey} {b : Barrier}
    (h : m.barriers.find? (fun b => b.kid == kid && b.key == key && b.id == id) = some b) : getBarrier m kid key id = (m, b) := by
  rw [getBarrier, h]

/-- An object that is named first starts in phase 0 with no arrivals (R234). -/
theorem getBarrier_new {m : Mach} {kid id : Nat} {key : BarKey}
    (h : m.barriers.find? (fun b => b.kid == kid && b.key == key && b.id == id) = none) :
    ∃ b, getBarrier m kid key id = ({ m with barriers := b :: m.barriers, nextId := m.nextId + 1 }, b) ∧ b.bid = m.nextId ∧
      b.kid = kid ∧ b.key = key ∧ b.id = id ∧ b.phase = 0 ∧ b.arrived = [] := by
  rw [getBarrier, h]
  exact ⟨_, rfl, rfl, rfl, rfl, rfl, rfl, rfl⟩

/-! Members (R233). -/

theorem BarKey.has_iff (k : BarKey) (g t : Nat) :
    k.has g t = true ↔ (k.gLo ≤ g ∧ g < k.gLo + k.gN) ∧ k.tLo ≤ t ∧ t < k.tLo + k.tN := by
  simp [BarKey.has, and_assoc]

section
variable (x : LaunchRec) (gix tix die g' t' : Nat)

/-- Below the group level: the threads of the one group that share the upper fields of `TIX`. -/
theorem selKey_has_below {l : Nat} (hl : l < x.glevel) (hn : 0 < extentProd x 0 l) :
    (selKey x gix tix die (.lv l)).has g' t' = true ↔ g' = gix ∧ t' / extentProd x 0 l = tix / extentProd x 0 l := by
  have key : selKey x gix tix die (.lv l) = ⟨gix, 1, tix / extentProd x 0 l * extentProd x 0 l, extentProd x 0 l⟩ := if_pos hl
  rw [key, BarKey.has_iff, div_has _ _ _ hn]
  exact and_congr_left' (by dsimp only; omega)

/-- From the group level up: all threads of the groups that share the upper fields of `GIX`. -/
theorem selKey_has_above {l : Nat} (hl : ¬ l < x.glevel) (hn : 0 < extentProd x x.glevel l) :
    (selKey x gix tix die (.lv l)).has g' t' = true ↔
      g' / extentProd x x.glevel l = gix / extentProd x x.glevel l ∧ t' < x.threads := by
  have key : selKey x gix tix die (.lv l) =
      ⟨gix / extentProd x x.glevel l * extentProd x x.glevel l, extentProd x x.glevel l, 0, x.threads⟩ := if_neg hl
  rw [key, BarKey.has_iff, div_has _ _ _ hn]
  exact and_congr_right' (by dsimp only; omega)

theorem selKey_has_die : (selKey x gix tix die .die).has g' t' = true ↔ (x.ranges.getD die (0, 0)).1 ≤ g' ∧
    g' < (x.ranges.getD die (0, 0)).1 + (x.ranges.getD die (0, 0)).2 ∧ t' < x.threads := by
  have key : selKey x gix tix die .die =
      ⟨(x.ranges.getD die (0, 0)).1, (x.ranges.getD die (0, 0)).2, 0, x.threads⟩ := rfl
  rw [key, BarKey.has_iff, and_assoc]
  exact and_congr_right' (and_congr_right' (by dsimp only; omega))

end

/-! Reach (R239). -/

section
variable {x : LaunchRec} {l : Nat}

theorem selReach_core (h : l ≤ x.glevel) : selReach x (.lv l) = 0 := if_pos h

theorem selReach_cl (hg : x.glevel < l) (hc : l ≤ x.clevel) : selReach x (.lv l) = 1 :=
  (if_neg (Nat.not_le.2 hg)).trans (if_pos hc)

theorem selReach_pkg (hg : x.glevel < l) (hc : x.clevel < l) : selReach x (.lv l) = 3 :=
  (if_neg (Nat.not_le.2 hg)).trans (if_neg (Nat.not_le.2 hc))

end

/-! Release (R235). -/

section
variable {m : Mach} {b : Barrier} {k : Kernel} (hb : m.barrier? b.bid = some b) (hk : m.kernel? b.kid = some k)
include hb hk

theorem checkBarrier_releases (hbr : b.broken = none) (ha : b.arrived ≠ []) (hn : expectedOf k b.key ≤ b.arrived.length) :
    (checkBarrier m b.bid).barrier? b.bid = some { b with phase := b.phase + 1, arrived := [] } := by
  have hgo : ¬ (b.broken.isSome = true ∨ b.arrived.length = 0 ∨ b.arrived.length < expectedOf k b.key) := by
    simp [hbr, ha, hn]
  rw [checkBarrier, hb]
  dsimp only
  rw [hk]
  dsimp only
  rw [if_neg hgo, Mach.barrier?, freeWaiters, freeWaiters_bar]
  exact find_barrier hb

theorem checkBarrier_stays (h : b.broken ≠ none ∨ b.arrived = [] ∨ b.arrived.length < expectedOf k b.key) :
    checkBarrier m b.bid = m := by
  have hstay : b.broken.isSome = true ∨ b.arrived.length = 0 ∨ b.arrived.length < expectedOf k b.key := by
    rwa [Option.isSome_iff_ne_none, List.length_eq_zero_iff]
  rw [checkBarrier, hb]
  dsimp only
  rw [hk]
  exact if_pos hstay

end

/-- Settles O41: names by the search for their object, members and reach by the level, a release by its condition. -/
theorem barrierObjects : Obligations.BarrierObjects := by
  unfold Obligations.BarrierObjects
  refine ⟨fun m t g sel id hg => ⟨fun b h => ?found, fun h => ?new⟩,
    fun x gix tix die g' t' l _ _ hn hm => ⟨?levels, rfl, rfl, rfl, selKey_has_die x gix tix die g' t'⟩,
    fun x hx => ⟨selReach_core (Nat.le_refl _), rfl, fun l =>
      ⟨selReach_core, selReach_cl, fun hc => selReach_pkg (Nat.lt_of_le_of_lt hx hc) hc⟩⟩,
    fun m b k hb hk => ⟨checkBarrier_releases hb hk, checkBarrier_stays hb hk⟩⟩
  case found => rw [barOf_group hg, getBarrier_found h]
  case new =>
    rw [barOf_group hg]
    exact getBarrier_new h
  case levels =>
    split
    next hl => exact selKey_has_below x gix tix die g' t' hl hn
    next hl => exact selKey_has_above x gix tix die g' t' hl hm

/-! The words (R237, R238, R240). Each meets the object that it names broken, waits on it, or arrives. -/

theorem barWait_eq (m : Mach) (r : Running) (t : Thread) (b : Barrier) (x : Bar) (p : Word) (past : Bool) :
    barWait m r t b x p past = withThread m t (waitsAt r x b p past) := by
  unfold waitsAt
  rw [linkOf_nat]
  rfl

/-- To name an object leaves groups and threads as they are. -/
theorem barOf_group? {m m' : Mach} {t : Thread} {sel : BarSel} {id : Nat} {b : Barrier} (h : barOf m t sel id = (m', b)) (gid : Nat) :
    m'.group? gid = m.group? gid := by
  obtain ⟨-, hgroups, -, -⟩ := barOf_thread h
  rw [Mach.group?, Mach.group?, hgroups]

theorem barOf_thread? {m m' : Mach} {t : Thread} {sel : BarSel} {id : Nat} {b : Barrier} (h : barOf m t sel id = (m', b)) (gid tix : Nat) :
    m'.thread? gid tix = m.thread? gid tix := by
  obtain ⟨hthreads, -, -, -⟩ := barOf_thread h
  rw [Mach.thread?, Mach.thread?, hthreads]

theorem credit_meetsBroken {m : Mach} {t : Thread} (h : m.thread? t.gid t.tix = some t) (r : Running) (x : Bar) (c now cause len : Nat) :
    creditWord (withThread m t (meetsBroken r x c now)) r t cause len = withThread m t (meetsBroken r x c now) :=
  creditWord_left (thread?_withThread h _ rfl rfl) (by simp [meetsBroken, raised]) (by simp [meetsBroken, raised]) cause len

section
variable {m m' : Mach} {r : Running} {t : Thread} {x : Bar} {b : Barrier} (hb : barOf m t x.sel x.id = (m', b))
include hb

theorem waitPast_eq (p : Word) : waitPast m r t x p = match b.broken with
    | some c => withThread m' t (meetsBroken r x c m'.time)
    | none => if b.phase = p then withThread m' t (waitsAt r x b p true)
        else acqDo m' r.core (selReach (m'.recOf t.gid) x.sel) := by
  rw [waitPast, hb, ← barWait_eq]
  dsimp only
  cases b.broken with
  | some c => exact meets_eq _ _ _ _ _
  | none => rfl

theorem arrive_broken (k : Mach → Word → Mach) {c : Nat} (hc : b.broken = some c) :
    arrive m r t x k = withThread m' t (meetsBroken r x c m'.time) := by
  rw [arrive, hb]
  dsimp only
  rw [hc]
  exact meets_eq _ _ _ _ _

variable {g : Group} (hg : m.group? t.gid = some g) (hn : b.broken = none)
include hg hn

theorem arrive_again (k : Mach → Word → Mach) (ha : (g.gix, t.tix) ∈ b.arrived) :
    arrive m r t x k = withThread m' t (waitsAt r x b b.phase false) := by
  have hg' : m'.group? t.gid = some g := (barOf_group? hb t.gid).trans hg
  rw [arrive, hb]
  dsimp only
  rw [hn, gixOf_group hg']
  exact (if_pos (List.contains_iff_mem.2 ha)).trans (barWait_eq _ _ _ _ _ _ _)

theorem arrive_counts (k : Mach → Word → Mach) (ha : (g.gix, t.tix) ∉ b.arrived) :
    arrive m r t x k = k (arrived m' r t x b g.gix) b.phase := by
  have hg' : m'.group? t.gid = some g := (barOf_group? hb t.gid).trans hg
  rw [arrive, hb]
  dsimp only
  rw [hn, gixOf_group hg']
  exact if_neg (mt List.contains_iff_mem.1 ha)

end

section
variable {s : State} {r : Running} {t : Thread} {x : Bar} {g : Group} {m : Mach} {b : Barrier}
  (hb : barOf s.m t x.sel x.id = (m, b)) (hg : s.m.group? t.gid = some g) (h : Escapes s r t x.g)

include hb hg h in
/-- An arrival waits for its fence alone: at an object that is not broken, first in its phase, with the release not ready. -/
theorem barWaits_iff : barWaits x s.m r t = true ↔
    b.broken = none ∧ (g.gix, t.tix) ∉ b.arrived ∧ relReady s.m t (selReach (s.m.recOf t.gid) x.sel) = false := by
  simp [barWaits, hb, escNow_of h, gixOf_group hg, and_assoc]

include h in
/-- What `bar` and `barv` do where they wait for no fence. -/
theorem arrives_next (hw : barWaits x s.m r t = false) :
    exec (.bar x) s = .next ⟨s.agenda, creditWord (arrive s.m r t x (fun m p => waitPast m r t x p)) r t 7 1⟩ ∧
    exec (.barv x) s = .next ⟨s.agenda, creditWord (arrive s.m r t x (fun m p => withThread m t (fun u => u.wr x.r p))) r t 6 1⟩ := by
  rw [rel_next h (i := .bar x) (fun _ => rfl), rel_next h (i := .barv x) (fun _ => rfl), hw]
  exact ⟨rfl, rfl⟩

include h in
theorem exec_barw : exec (.barw x) s = .next ⟨s.agenda, creditWord (waitPast s.m r t x (t.rd x.r)) r t 7 1⟩ :=
  esc_next h (f := fun m r t => waitPast m r t x (t.rd x.r)) (fun _ => rfl)

include hb h in
theorem barWords_broken {c : Nat} (hc : b.broken = some c) : ∀ i ∈ [Instr.bar x, .barv x, .barw x],
    exec i s = .next ⟨s.agenda, withThread m t (meetsBroken r x c m.time)⟩ := by
  have hw : barWaits x s.m r t = false := by simp [barWaits, hb, hc]
  have hthere : m.thread? t.gid t.tix = some t := (barOf_thread? hb t.gid t.tix).trans (alone_here h.toAlone)
  obtain ⟨hbar, hbarv⟩ := arrives_next h hw
  rw [arrive_broken hb _ hc, credit_meetsBroken hthere] at hbar hbarv
  have hwait : waitPast s.m r t x (t.rd x.r) = withThread m t (meetsBroken r x c m.time) := by rw [waitPast_eq hb, hc]
  have hbarw : exec (.barw x) s = .next ⟨s.agenda, withThread m t (meetsBroken r x c m.time)⟩ := by
    rw [exec_barw h, hwait, credit_meetsBroken hthere]
  exact List.forall_mem_cons.2 ⟨hbar, List.forall_mem_cons.2 ⟨hbarv, List.forall_mem_singleton.2 hbarw⟩⟩

include hb hg h

theorem arrivals_stall (hn : b.broken = none) (ha : (g.gix, t.tix) ∉ b.arrived)
    (hr : relReady s.m t (selReach (s.m.recOf t.gid) x.sel) = false) :
    ∀ i ∈ [Instr.bar x, .barv x], exec i s = .next ⟨s.agenda, stalled s.m r t⟩ := by
  have hw : barWaits x s.m r t = true := (barWaits_iff hb hg h).2 ⟨hn, ha, hr⟩
  exact List.forall_mem_cons.2 ⟨release_stalls h.toAlone (fun _ => rfl) hw,
    List.forall_mem_singleton.2 (release_stalls h.toAlone (fun _ => rfl) hw)⟩

theorem arrivals_again (hn : b.broken = none) (ha : (g.gix, t.tix) ∈ b.arrived) :
    exec (.bar x) s = .next ⟨s.agenda, creditWord (withThread m t (waitsAt r x b b.phase false)) r t 7 1⟩ ∧
    exec (.barv x) s = .next ⟨s.agenda, creditWord (withThread m t (waitsAt r x b b.phase false)) r t 6 1⟩ := by
  have hw : barWaits x s.m r t = false := Bool.eq_false_iff.2 (mt (barWaits_iff hb hg h).1 (by simp [ha]))
  obtain ⟨hbar, hbarv⟩ := arrives_next h hw
  rw [hbar, hbarv, arrive_again hb hg hn _ ha, arrive_again hb hg hn _ ha]
  exact ⟨rfl, rfl⟩

theorem arrivals_count (hn : b.broken = none) (ha : (g.gix, t.tix) ∉ b.arrived)
    (hr : relReady s.m t (selReach (s.m.recOf t.gid) x.sel) = true) :
    exec (.bar x) s = .next ⟨s.agenda, creditWord (waitPast (arrived m r t x b g.gix) r t x b.phase) r t 7 1⟩ ∧
    exec (.barv x) s = .next ⟨s.agenda, creditWord (withThread (arrived m r t x b g.gix) t (fun u => u.wr x.r b.phase)) r t 6 1⟩ := by
  have hw : barWaits x s.m r t = false := Bool.eq_false_iff.2 (mt (barWaits_iff hb hg h).1 (by simp [hr]))
  obtain ⟨hbar, hbarv⟩ := arrives_next h hw
  rw [hbar, hbarv, arrive_counts hb hg hn _ ha, arrive_counts hb hg hn _ ha]
  exact ⟨rfl, rfl⟩

end

section
variable {s : State} {r : Running} {t : Thread} {x : Bar} {m : Mach} {b : Barrier} (hb : barOf s.m t x.sel x.id = (m, b))
include hb

theorem barw_waits (h : Escapes s r t x.g) (hn : b.broken = none) (hp : b.phase = t.rd x.r) : exec (.barw x) s =
    .next ⟨s.agenda, creditWord (withThread m t (waitsAt r x b b.phase true)) r t 7 1⟩ := by
  have hwait : waitPast s.m r t x (t.rd x.r) = withThread m t (waitsAt r x b b.phase true) := by
    rw [waitPast_eq hb, hn, ← hp]
    exact if_pos rfl
  rw [exec_barw h, hwait]

theorem barw_passes (h : Escapes s r t x.g) (hn : b.broken = none) (hp : b.phase ≠ t.rd x.r) : exec (.barw x) s =
    .next ⟨s.agenda, creditWord (acqDo m r.core (selReach (m.recOf t.gid) x.sel)) r t 7 1⟩ := by
  have hpass : waitPast s.m r t x (t.rd x.r) = acqDo m r.core (selReach (m.recOf t.gid) x.sel) := by
    rw [waitPast_eq hb, hn]
    exact if_neg hp
  rw [exec_barw h, hpass]

theorem barst_writes (h : Alone s r t x.g) :
    exec (.barst x) s = .next ⟨s.agenda, withThread m t (fun u => u.wrD x.r (barState b))⟩ := by
  rw [seq_next h (fun _ => rfl), hb]
  rfl

end

/-- 1 ms after BAR.BROKEN the thread's stop is no longer held (R243). -/
theorem brokenStopTimeout_next (s : State) (gid tix : Nat) :
    exec (.brokenStopTimeout gid tix) s = .next ⟨s.agenda, s.m.updThread gid tix (fun t =>
      { t with brokenAt := match t.brokenAt with
        | some x => if x + 1000000 ≤ s.m.time then none else some x
        | none => none })⟩ := by
  rw [ev_next (fun _ => rfl)]
  exact congrArg (fun f => (.next ⟨s.agenda, s.m.updThread gid tix f⟩ : Host.Outcome State Fault Refusal))
    (funext fun t => broken_step t s.m.time)

/-- Settles O42: each word by what it finds at the object that it names. -/
theorem barrierWords : Obligations.BarrierWords := by
  unfold Obligations.BarrierWords
  refine ⟨fun s r t x g m b hb hg h => ⟨fun c hc => barWords_broken hb h hc, fun hn ha => ?again,
      arrivals_stall hb hg h, fun hn ha hr => ?counts, fun hn => ⟨barw_waits hb h hn, barw_passes hb h hn⟩⟩,
    fun s r t x m b hb h => ⟨barState b, barst_writes hb h, barst_val b⟩, brokenStopTimeout_next⟩
  case again =>
    obtain ⟨hbar, hbarv⟩ := arrivals_again hb hg h hn ha
    exact List.forall_mem_cons.2 ⟨⟨_, _, hbar⟩, List.forall_mem_singleton.2 ⟨_, _, hbarv⟩⟩
  case counts =>
    obtain ⟨hbar, hbarv⟩ := arrivals_count hb hg h hn ha hr
    rw [waitPast_eq rfl] at hbar
    exact ⟨hbarv, hbar⟩

end Sys2Proof.Machine
end

section
/-!
PROOFS. What closes a chunk, and the words `chend` and `chstat` (R249 to R251, R257, R259 to R261).
-/

namespace Sys2Proof.Machine

/-! The words (R260, R261). -/

section
variable {s : State} {r : Running} {t : Thread} {g : Guard} (h : Alone s r t g)
include h

theorem chend_next : exec (.chend g) s = .next ⟨s.agenda,
    addDue (withThread s.m t (fun u => { u with nextChunk := some (s.m.core r.core).openC.serial })) r.core 1⟩ := by
  rw [seq_next h (fun _ => rfl)]
  rfl

theorem chstat_next (fl : ChSel) (d : Nat) : exec (.chstat g fl d) s = .next ⟨s.agenda,
    withThread s.m t (fun u => u.wrD d (chstatVal (s.m.core r.core) fl))⟩ := by
  rw [seq_next h (fun _ => rfl)]
  rfl

end

/-! The causes of a close (R251) and the timer of cause 5 (R257). -/

theorem exitWaits_iff (m : Mach) (c : Nat) : exitWaits m c = true ↔ ∃ t ∈ threadsOn m c, t.stat = .exited := by
  simp [exitWaits]

theorem readFull_iff (x : Chunk) : x.readFull = true ↔ x.rd ≠ [] ∧ Config.sigFull x.rd = true := by
  simp [Chunk.readFull]

theorem timerOut_iff (m : Mach) (c : Nat) : timerOut m c = true ↔
    (m.core c).openC.opened + Config.chunkCycles ≤ (m.die (c / 64)).clk ∧
      (chunkEmpty m c = false ∨ ∃ t ∈ threadsOn m c, t.stat = .exited) := by
  rw [timerOut, Bool.and_eq_true, decide_eq_true_iff, Bool.or_eq_true, Bool.not_eq_true', exitWaits_iff, clkOf]

theorem mem_causesNow (m : Mach) (c x : Nat) : x ∈ causesNow m c ↔ x ∈ (m.core c).due ∨
    (x = 2 ∧ (m.core c).openC.rd ≠ [] ∧ Config.sigFull (m.core c).openC.rd = true) ∨
    (x = 5 ∧ (m.core c).openC.opened + Config.chunkCycles ≤ (m.die (c / 64)).clk ∧
      (chunkEmpty m c = false ∨ ∃ t ∈ threadsOn m c, t.stat = .exited)) := by
  rw [causesNow, List.mem_append, List.mem_append, List.mem_ite_nil_right, List.mem_ite_nil_right, List.mem_singleton,
    List.mem_singleton, and_comm (b := x = 2), and_comm (b := x = 5), readFull_iff, timerOut_iff, or_assoc]

theorem chunkTimerExpire_due {s : State} {c : Nat} (hold : (s.m.core c).openC.opened + Config.chunkCycles ≤ (s.m.die (c / 64)).clk)
    (h : chunkEmpty s.m c = false ∨ ∃ t ∈ threadsOn s.m c, t.stat = .exited) :
    exec (.chunkTimerExpire c) s = .next ⟨s.agenda, addDue s.m c 5⟩ := by
  rw [ev_next (fun _ => rfl), (timerOut_iff s.m c).2 ⟨hold, h⟩]
  rfl

theorem chunkTimerExpire_idle {s : State} {c : Nat} (he : chunkEmpty s.m c = true) (hx : ∀ t ∈ threadsOn s.m c, t.stat ≠ .exited) :
    exec (.chunkTimerExpire c) s = .next ⟨s.agenda, s.m⟩ := by
  have hout : timerOut s.m c = false := by
    refine Bool.eq_false_iff.2 fun h => ?_
    obtain ⟨-, hopen | ⟨t, ht, hstat⟩⟩ := (timerOut_iff s.m c).1 h
    · simp [he] at hopen
    · exact hx t ht hstat
  rw [ev_next (fun _ => rfl), hout]
  rfl

/-! The close (R250): at a clause boundary with no earlier chunk committing, and else not at all. -/

/-- An open chunk that is not empty begins to commit, and the next one opens. -/
def Core.commits (k : Core) (cause now : Nat) (ck : Ckpt) : Core := { k with
  comC := some k.openC, comCk := k.ck, ck := ck, lastClose := cause, due := []
  openC := { serial := k.openC.serial + 1, opened := now }
  soloNext := k.soloHas && !k.openC.solo }

/-- After an empty open chunk the next one opens at once, solo where the core holds the grant. -/
def Core.reopens (k : Core) (serial now : Nat) (ck : Ckpt) : Core := { k with
  openC := { serial := serial + 1, opened := now, solo := k.openC.solo || k.soloHas }
  soloNext := false, ck := ck, due := [] }

theorem closeChunk_held {m : Mach} {c : Nat} (h : (m.core c).comC ≠ none ∨ ∃ r ∈ m.running, r.core = c) : closeChunk m c = m := by
  have hheld : ((m.core c).comC.isSome || !atBoundary m c) = true := by
    simpa [atBoundary, Option.isSome_iff_ne_none] using h
  rw [closeChunk, if_pos hheld]

section
variable {m : Mach} {c : Nat} (hc : (m.core c).comC = none) (hb : ∀ r ∈ m.running, r.core ≠ c)
include hc hb

theorem closeChunk_open : ¬ ((m.core c).comC.isSome || !atBoundary m c) = true := by
  simp [hc, (boundary_iff m c).2 hb]

theorem closeChunk_commits (he : (m.core c).openC.empty = false) : closeChunk m c =
    m.updCore c (fun k => k.commits (minCause (causesNow m c)) (m.die (c / 64)).clk (checkpoint m c)) := by
  rw [closeChunk, if_neg (closeChunk_open hc hb), if_neg (by simp [he])]
  rfl

theorem closeChunk_reopens (he : (m.core c).openC.empty = true) : closeChunk m c =
    (freeExited m c (threadsOn m c)).updCore c (fun k => k.reopens (m.core c).openC.serial (m.die (c / 64)).clk
      (checkpoint (freeExited m c (threadsOn m c)) c)) := by
  rw [closeChunk, if_neg (closeChunk_open hc hb), if_pos he]
  rfl

end

section
variable {s : State} {c : Nat}

theorem chunkClose_noCause (h : causesNow s.m c = []) : exec (.chunkClose c) s = .next ⟨s.agenda, s.m⟩ := by
  rw [ev_next (fun _ => rfl), h]
  rfl

theorem chunkClose_cause (h : causesNow s.m c ≠ []) : exec (.chunkClose c) s = .next ⟨s.agenda, closeChunk s.m c⟩ := by
  rw [ev_next (fun _ => rfl), if_neg (by simpa using h)]

theorem chunkClose_stays (h : causesNow s.m c = [] ∨ (s.m.core c).comC ≠ none ∨ ∃ r ∈ s.m.running, r.core = c) :
    exec (.chunkClose c) s = .next ⟨s.agenda, s.m⟩ := by
  by_cases hn : causesNow s.m c = []
  · exact chunkClose_noCause hn
  · rw [chunkClose_cause hn, closeChunk_held (h.resolve_left hn)]

/-- The lowest of the causes that hold is the one that is kept (R251). -/
theorem chunkClose_commits (h : causesNow s.m c ≠ []) (hc : (s.m.core c).comC = none) (hb : ∀ r ∈ s.m.running, r.core ≠ c)
    (he : (s.m.core c).openC.empty = false) : ∃ cause ∈ causesNow s.m c, (∀ d ∈ causesNow s.m c, cause ≤ d) ∧
      exec (.chunkClose c) s = .next ⟨s.agenda,
        s.m.updCore c (fun k => k.commits cause (s.m.die (c / 64)).clk (checkpoint s.m c))⟩ := by
  obtain ⟨hmem, hle⟩ := minCause_mem _ h
  exact ⟨_, hmem, hle, by rw [chunkClose_cause h, closeChunk_commits hc hb he]⟩

end

/-- A signature with a parity error holds every grain (R249). -/
theorem meets_of_parity {k : Chunk} {gs : List (Nat × Nat)} (hk : k.parity = true) (hg : gs ≠ []) : k.meets gs = true := by
  obtain ⟨g, l, rfl⟩ := List.exists_cons_of_ne_nil hg
  simp [Chunk.meets, hk]

/-- Settles O43: each word and event by its equation, a close by whether the open chunk is empty. -/
theorem chunkCloses : Obligations.ChunkCloses := by
  unfold Obligations.ChunkCloses
  refine ⟨fun s r t g h => ⟨chend_next h, fun d => ⟨chstat_next h .mark d, chstat_next h .stat d, chstat_next h .sq d⟩⟩,
    chs_fields, mem_causesNow,
    fun s c => ⟨chunkClose_stays, fun h hc hb => ⟨chunkClose_commits h hc hb, fun he => ⟨_, rfl, ?reopens⟩⟩⟩,
    fun s c hold => ⟨chunkTimerExpire_due hold, chunkTimerExpire_idle⟩, rfl,
    fun s c => ⟨rfl, rfl, fun _ _ => meets_of_parity⟩⟩
  case reopens =>
    rw [chunkClose_cause h, closeChunk_reopens hc hb he]
    rfl

end Sys2Proof.Machine
end

section
/-!
PROOFS. Tidemarks, squashes and solo priority (R252, R253, R255, R256).
-/

namespace Sys2Proof.Machine

/-! The grant of a tidemark (R252). -/

theorem storesDone_iff (m : Mach) (c : Nat) : storesDone m c = true ↔ ∀ x ∈ m.stxs, m.coreOf x.gid = c → x.done = true := by
  simp [storesDone, imp_not_comm (a := Stx.done _ = false)]

section
variable {s : State} {c : Nat} {y : Chunk} {p : Part} (hy : (s.m.core c).comC = some y) (hp : partOfCore s.m c = some p)
include hy hp

theorem tidemarkGrant_eq : exec (.tidemarkGrant c) s = .next ⟨s.agenda,
    if !storesDone s.m c || soloBlocks s.m p.dies (some c) y.grains || (s.m.die (c / 64)).fatal then s.m
    else trimCk (freeExited (endCommit (conflicts (publishReds (publishCells (nextMark s.m p.pid).1 y.cells) y.reds)
      p.dies (some c) y.grains 1) c p.pid (nextMark s.m p.pid).2 y.solo) c (s.m.core c).ck.threads) c⟩ := by
  rw [ev_next (fun _ => rfl), hy, hp]

/-- It waits for the stores before the close, for another party's solo chunk, and on a die that has failed. -/
theorem tidemarkGrant_waits (h : storesDone s.m c = false ∨ soloBlocks s.m p.dies (some c) y.grains = true ∨
    (s.m.die (c / 64)).fatal = true) : exec (.tidemarkGrant c) s = .next ⟨s.agenda, s.m⟩ := by
  rw [tidemarkGrant_eq hy hp, if_pos (by simpa [or_assoc] using h)]

theorem tidemarkGrant_publishes (hpid : s.m.part? p.pid = some p)
    (hst : ∀ x ∈ s.m.stxs, s.m.coreOf x.gid = c → x.done = true)
    (hsolo : soloBlocks s.m p.dies (some c) y.grains = false) (hdie : (s.m.die (c / 64)).fatal = false) :
    exec (.tidemarkGrant c) s = .next ⟨s.agenda, trimCk (freeExited (endCommit (conflicts (publishReds (publishCells
      (s.m.updPart p.pid (fun q => { q with grants := q.grants + 1 })) y.cells) y.reds) p.dies (some c) y.grains 1)
        c p.pid (p.grants + 1) y.solo) c (s.m.core c).ck.threads) c⟩ := by
  rw [tidemarkGrant_eq hy hp, if_neg (by simp [(storesDone_iff s.m c).2 hst, hsolo, hdie]), nextMark_eq hpid]

end

/-! Commits against the chunks of other cores (R253). -/

/-- One of a core's chunks holds a grain of these. -/
def Core.hit (k : Core) (gs : List (Nat × Nat)) : Bool :=
  k.openC.meets gs || (match k.comC with | some y => y.meets gs | none => false)

theorem Core.hit_iff (k : Core) (gs : List (Nat × Nat)) :
    k.hit gs = true ↔ k.openC.meets gs = true ∨ ∃ y, k.comC = some y ∧ y.meets gs = true := by
  unfold Core.hit
  cases k.comC <;> simp

theorem Core.hit_false_iff (k : Core) (gs : List (Nat × Nat)) :
    k.hit gs = false ↔ k.openC.meets gs = false ∧ ∀ y, k.comC = some y → y.meets gs = false := by
  unfold Core.hit
  cases k.comC <;> simp

/-- The cores that a commit of core `c` squashes. -/
def squashedBy (m : Mach) (dies : List Nat) (c : Nat) (gs : List (Nat × Nat)) : List (Nat × Core) :=
  m.cores.filter (fun e => some e.1 != some c && dies.contains (e.1 / 64) && e.2.hit gs)

theorem mem_squashedBy {m : Mach} {dies : List Nat} {c : Nat} {gs : List (Nat × Nat)} {e : Nat × Core} :
    e ∈ squashedBy m dies c gs ↔ e ∈ m.cores ∧ e.1 ≠ c ∧ e.1 / 64 ∈ dies ∧ e.2.hit gs = true := by
  simp [squashedBy, and_assoc]

theorem conflicts_eq (m : Mach) (dies : List Nat) (c kind : Nat) (gs : List (Nat × Nat)) : conflicts m dies (some c) gs kind =
    (squashedBy m dies c gs).foldl (fun m e => squash m e.1 kind) m := rfl

section
variable {m : Mach} (hp : m.cores.Pairwise (fun a b => a.1 ≠ b.1)) {dies : List Nat} {c d : Nat} {k : Core}
  {gs : List (Nat × Nat)} (hk : (d, k) ∈ m.cores) (kind : Nat)
include hp hk

theorem conflicts_squash (hc : d ≠ c) (hd : d / 64 ∈ dies) (hit : k.hit gs = true) :
    ((conflicts m dies (some c) gs kind).core d).sq = k.sq + 1 ∧ ((conflicts m dies (some c) gs kind).core d).comC = none := by
  have hin : (d, k) ∈ squashedBy m dies c gs := mem_squashedBy.2 ⟨hk, hc, hd, hit⟩
  rw [conflicts_eq, ← core_of hp hk]
  exact (squashes_core kind d _ (hp.filter _) m).2 ⟨_, hin, rfl⟩

theorem conflicts_spare (h : d / 64 ∉ dies ∨ k.hit gs = false) : (conflicts m dies (some c) gs kind).core d = k := by
  have hout : ∀ e ∈ squashedBy m dies c gs, e.1 ≠ d := by
    rintro ⟨d', k'⟩ he rfl
    obtain ⟨hk', -, hdie, hit⟩ := mem_squashedBy.1 he
    rw [← core_of hp hk', core_of hp hk] at hit
    exact h.elim (fun hn => hn hdie) (fun hn => Bool.false_ne_true (hn.symm.trans hit))
  rw [conflicts_eq, (squashes_core kind d (squashedBy m dies c gs) (hp.filter _) m).1 hout, core_of hp hk]

end

/-! Solo priority (R256). -/

section
variable {s : State} {c : Nat} {p : Part} (hp : partOfCore s.m c = some p)
include hp

theorem runCountLimit_eq : exec (.runCountLimit c) s = .next ⟨s.agenda,
    if (s.m.core c).run = 4 ∧ !p.solo.contains c then s.m.updPart p.pid (fun p => { p with solo := p.solo ++ [c] }) else s.m⟩ := by
  rw [ev_next (fun _ => rfl), hp]

theorem runCountLimit_asks (hr : (s.m.core c).run = 4) (hc : c ∉ p.solo) : exec (.runCountLimit c) s =
    .next ⟨s.agenda, s.m.updPart p.pid (fun p => { p with solo := p.solo ++ [c] })⟩ := by
  rw [runCountLimit_eq hp, if_pos ⟨hr, by simpa using hc⟩]

theorem runCountLimit_stays (h : (s.m.core c).run ≠ 4 ∨ c ∈ p.solo) : exec (.runCountLimit c) s = .next ⟨s.agenda, s.m⟩ := by
  rw [runCountLimit_eq hp, if_neg (by simpa [Classical.or_iff_not_imp_left] using h)]

theorem soloGrant_eq : exec (.soloGrant c) s = .next ⟨s.agenda,
    if p.solo.head? = some c then s.m.updCore c (fun k => { k with soloHas := true }) else s.m⟩ := by
  rw [ev_next (fun _ => rfl), hp]

end

/-- Settles O44: the tidemark by what holds it up, squashes by the cores whose chunks are hit. -/
theorem tidemarks : Obligations.Tidemarks := by
  unfold Obligations.Tidemarks
  refine ⟨fun s c y p hy hp => ⟨tidemarkGrant_publishes hy hp, tidemarkGrant_waits hy hp⟩, publishCells_mem, fun _ _ _ => ⟨rfl, rfl⟩,
    fun m dies c kind gs hp => ?conflicts, ?squash, fun _ _ _ _ _ => rfl,
    fun s c p hp => ⟨runCountLimit_asks hp, runCountLimit_stays hp, fun h => ?granted, fun h => ?refused⟩⟩
  case conflicts =>
    obtain ⟨hmem, hown⟩ := conflicts_keep m dies c gs kind
    exact ⟨hmem, hown, fun d k hk hc => ⟨fun hd h => conflicts_squash hp hk kind hc hd ((k.hit_iff gs).2 h),
      fun h => conflicts_spare hp hk kind (h.imp_right (k.hit_false_iff gs).2)⟩⟩
  case squash =>
    rintro m c kind _ _ rfl rfl
    exact ⟨squash_core m c kind, squash_run m c kind, squash_thread m c kind⟩
  case granted => rw [soloGrant_eq hp, if_pos h]
  case refused => rw [soloGrant_eq hp, if_neg h]

end Sys2Proof.Machine
end

section
/-!
PROOFS. The canonical form of memory: what each shared operation does to it. The lemmas stand in the order of the model's own
files; `f_canon` says that `f` keeps the form. Few of them write memory (`wf_cwrite` and its kin in Laws/Table.lean); the rest
say that an operation passes on what it was given.
-/

namespace Sys2Proof.Machine

/-- The memory is in its canonical form. -/
def Mach.Canon (m : Mach) : Prop := Memory.wf m.mem = true

/-- Where an outcome is a next state, its memory is in the canonical form. -/
def NextCanon (o : Host.Outcome State Fault Refusal) : Prop := ∀ s, o = .next s → s.m.Canon

theorem nextCanon_next {s : State} (h : s.m.Canon) : NextCanon (.next s) := by
  rintro _ ⟨⟩
  exact h

theorem nextCanon_onMach {s : State} {f : Mach → Mach} (h : (f s.m).Canon) : NextCanon (.next (s.onMach f)) :=
  nextCanon_next h

theorem Mach.Canon.of_mem {m m' : Mach} (h : m.Canon) (e : m'.mem = m.mem) : m'.Canon := by
  unfold Mach.Canon
  rwa [e]

theorem foldl_canon {α : Type} {f : Mach → α → Mach} {m : Mach} (l : List α) (h : m.Canon)
    (hf : ∀ m x, m.Canon → (f m x).Canon) : (l.foldl f m).Canon := by
  induction l generalizing m with
  | nil => exact h
  | cons x l ih => exact ih (hf m x h)

/-! Machine/Table.lean. -/

theorem Mach.updCore_canon {m : Mach} {c} {f : Core → Core} (hm : m.Canon) : (Mach.updCore m c f).Canon :=
  hm

theorem Mach.updDie_canon {m : Mach} {d} {f : Die → Die} (hm : m.Canon) : (Mach.updDie m d f).Canon :=
  hm

theorem Mach.setCluster_canon {m : Mach} {c l} (hm : m.Canon) : (Mach.setCluster m c l).Canon :=
  hm

theorem Mach.updThread_canon {m : Mach} {gid tix} {f : Thread → Thread} (hm : m.Canon) : (Mach.updThread m gid tix f).Canon :=
  hm

theorem Mach.updGroup_canon {m : Mach} {gid} {f : Group → Group} (hm : m.Canon) : (Mach.updGroup m gid f).Canon :=
  hm

theorem Mach.updKernel_canon {m : Mach} {kid} {f : Kernel → Kernel} (hm : m.Canon) : (Mach.updKernel m kid f).Canon :=
  hm

theorem Mach.updCtx_canon {m : Mach} {cid} {f : Ctx → Ctx} (hm : m.Canon) : (Mach.updCtx m cid f).Canon :=
  hm

theorem Mach.updQueue_canon {m : Mach} {qid} {f : Queue → Queue} (hm : m.Canon) : (Mach.updQueue m qid f).Canon :=
  hm

theorem Mach.updPart_canon {m : Mach} {pid} {f : Part → Part} (hm : m.Canon) : (Mach.updPart m pid f).Canon :=
  hm

theorem Mach.updBarrier_canon {m : Mach} {bid} {f : Barrier → Barrier} (hm : m.Canon) : (Mach.updBarrier m bid f).Canon :=
  hm

theorem Mach.updRun_canon {m : Mach} {rid} {f : Running → Running} (hm : m.Canon) : (Mach.updRun m rid f).Canon :=
  hm

/-! Machine/Mem.lean. -/

theorem keepLeaf_canon {m : Mach} {who va leaf size} (hm : m.Canon) : (keepLeaf m who va leaf size).Canon := by
  unfold keepLeaf
  grind [Mach.updDie_canon]

theorem walkXlat_canon {m : Mach} {who acc va} {m' y} (e : walkXlat m who acc va = .ok (m', y)) (hm : m.Canon) : m'.Canon := by
  unfold walkXlat at e
  grind [keepLeaf_canon]

theorem translate_canon {m : Mach} {who acc va} {m' y} (e : translate m who acc va = .ok (m', y)) (hm : m.Canon) :
    m'.Canon := by
  unfold translate at e
  grind [=> walkXlat_canon]

theorem wakeWatch_canon {m : Mach} {pa n : Nat} (hm : m.Canon) : (wakeWatch m pa n).Canon := hm

theorem homePush_canon {m : Mach} {l : Line} (hm : m.Canon) : (homePush m l).Canon := by
  unfold homePush
  split
  · exact hm
  · exact wf_cwriteMask _ _ _ hm

theorem clusterOut_canon {m : Mach} {cl tag} (hm : m.Canon) : (clusterOut m cl tag).Canon := by
  unfold clusterOut
  grind [foldl_canon, homePush_canon, Mach.setCluster_canon]

theorem clusterRoom_canon {m : Mach} {cl pa} (hm : m.Canon) : (clusterRoom m cl pa).Canon := by
  unfold clusterRoom
  grind [clusterOut_canon]

theorem clusterSector_canon {m : Mach} {cl grain cls w b} (hm : m.Canon) : (clusterSector m cl grain cls w b).Canon := by
  unfold clusterSector
  grind [clusterRoom_canon, Mach.setCluster_canon]

theorem clusterLine_canon {m : Mach} {cl pa grain cls w} (hm : m.Canon) : (clusterLine m cl pa grain cls w).1.Canon := by
  unfold clusterLine
  grind [foldl_canon, clusterSector_canon]

theorem pushToCluster_canon {m : Mach} {cl l} (hm : m.Canon) : (pushToCluster m cl l).Canon := by
  unfold pushToCluster
  grind [clusterLine_canon, Mach.setCluster_canon]

theorem pushLine_canon {m : Mach} {c far l} (hm : m.Canon) : (pushLine m c far l).Canon := by
  unfold pushLine
  grind [pushToCluster_canon, Mach.updCore_canon, homePush_canon, Mach.setCluster_canon]

theorem pushAll_canon {m : Mach} {c far} (hm : m.Canon) : (pushAll m c far).Canon := by
  unfold pushAll
  grind [foldl_canon, pushLine_canon, Mach.setCluster_canon, homePush_canon]

theorem dropClean_canon {m : Mach} {c far} (hm : m.Canon) : (dropClean m c far).Canon := by
  unfold dropClean
  grind [Mach.updCore_canon, Mach.setCluster_canon]

theorem l1Out_canon {m : Mach} {c tag} (hm : m.Canon) : (l1Out m c tag).Canon :=
  Mach.updCore_canon (foldl_canon _ hm fun _ _ h => pushToCluster_canon h)

theorem l1Room_canon {m : Mach} {c pa} (hm : m.Canon) : (l1Room m c pa).Canon := by
  unfold l1Room
  grind [l1Out_canon]

theorem l1Sector_canon {m : Mach} {who va x b} (hm : m.Canon) : (l1Sector m who va x b).Canon := by
  unfold l1Sector
  grind [l1Room_canon, clusterLine_canon, Mach.updCore_canon]

theorem l1Tag_canon {m : Mach} {who va x} (hm : m.Canon) : (l1Tag m who va x).Canon := by
  unfold l1Tag
  grind [foldl_canon, pushLine_canon, Mach.updCore_canon]

theorem l1Line_canon {m : Mach} {who va x} (hm : m.Canon) : (l1Line m who va x).1.Canon := by
  unfold l1Line
  grind [foldl_canon, l1Sector_canon, l1Tag_canon]

theorem l1Chunked_canon {m : Mach} {who va x} (hm : m.Canon) : (l1Chunked m who va x).Canon := by
  unfold l1Chunked
  grind [l1Line_canon]

theorem pushForL1_canon {m : Mach} {c pa n} (hm : m.Canon) : (pushForL1 m c pa n).Canon := by
  unfold pushForL1
  grind [Mach.updCore_canon, pushToCluster_canon]

theorem pushForCl_canon {m : Mach} {c pa n} (hm : m.Canon) : (pushForCl m c pa n).Canon := by
  unfold pushForCl
  grind [Mach.setCluster_canon, homePush_canon]

theorem pushFor_canon {m : Mach} {c point pa n} (hm : m.Canon) : (pushFor m c point pa n).Canon := by
  unfold pushFor
  grind [pushForL1_canon, pushForCl_canon]

theorem homeWrite_canon {m : Mach} {die pa : Nat} {bs : List Byte} (hm : m.Canon) : (homeWrite m die pa bs).Canon := by
  unfold homeWrite
  grind [Mach.Canon, wf_cwrite, Mach.updPart_mem]

theorem holderOut_canon {m : Mach} {p : Nat} {l : Line} (hm : m.Canon) : (holderOut m p l).Canon := by
  unfold holderOut
  grind [Mach.Canon, wf_cwriteMask, Mach.updPart_mem]

theorem hostFetch_canon {m : Mach} {die pa} (hm : m.Canon) : (hostFetch m die pa).Canon := by
  unfold hostFetch
  grind [holderOut_canon, Mach.updPart_canon]

theorem hostOwner_canon {m : Mach} {who pa} (hm : m.Canon) : (hostOwner m who pa).Canon := by
  unfold hostOwner
  grind [Mach.updPart_canon]

theorem scopedRead_canon {m : Mach} {who sc va x n} {m' y} (e : scopedRead m who sc va x n = .ok (m', y)) (hm : m.Canon) :
    m'.Canon := by
  unfold scopedRead at e
  grind [l1Line_canon, pushFor_canon, clusterLine_canon, hostFetch_canon]

theorem refresh_canon {m : Mach} {c far pa bs} (hm : m.Canon) : (refresh m c far pa bs).Canon := by
  unfold refresh
  grind [Mach.updCore_canon, Mach.setCluster_canon]

theorem scopedWrite_canon {m : Mach} {who sc va x bs} {m' : Mach} (e : scopedWrite m who sc va x bs = .ok m') (hm : m.Canon) :
    m'.Canon := by
  unfold scopedWrite at e
  grind [l1Line_canon, Mach.updCore_canon, clusterLine_canon, Mach.setCluster_canon, refresh_canon, pushFor_canon,
    homeWrite_canon]

theorem chunkRead_canon {m : Mach} {who va x n} (hm : m.Canon) : (chunkRead m who va x n).1.Canon := by
  unfold chunkRead
  grind [Mach.updCore_canon]

theorem chunkWrite_canon {m : Mach} {who va x bs} (hm : m.Canon) : (chunkWrite m who va x bs).Canon :=
  Mach.updCore_canon hm

theorem replWrite_canon {m : Mach} {who : Who} {gid tix pa : Nat} {bs : List Byte} (hm : m.Canon) :
    (replWrite m who gid tix pa bs).Canon :=
  foldl_canon _ (wf_cwrite bs pa hm) (fun _ _ h => h)

theorem hostWrite_canon {m : Mach} {who gid tix pa bs} (hm : m.Canon) : (hostWrite m who gid tix pa bs).Canon :=
  (hostOwner_canon (homeWrite_canon hm)).of_mem rfl

theorem gRead_canon {m : Mach} {who acc sc va n} {m' y} (e : gRead m who acc sc va n = .ok (m', y)) (hm : m.Canon) :
    m'.Canon := by
  unfold gRead at e
  grind [=> translate_canon, chunkRead_canon, l1Chunked_canon, => scopedRead_canon]

theorem gWrite_canon {m : Mach} {who sc gid tix va bs} {m' : Mach} (e : gWrite m who sc gid tix va bs = .ok m') (hm : m.Canon) :
    m'.Canon := by
  unfold gWrite at e
  grind [=> translate_canon, chunkWrite_canon, l1Chunked_canon, => scopedWrite_canon, wakeWatch_canon, hostWrite_canon,
    hostFetch_canon, replWrite_canon, homeWrite_canon]

theorem nextMark_canon {m : Mach} {pid} (hm : m.Canon) : (nextMark m pid).1.Canon := by
  unfold nextMark
  grind [Mach.updPart_canon]

theorem dieMark_canon {m : Mach} {d} (hm : m.Canon) : (dieMark m d).1.Canon := by
  unfold dieMark
  grind [nextMark_canon]

theorem hartRead_canon {m : Mach} {who acc mark va n} {m' y} (e : hartRead m who acc mark va n = .ok (m', y)) (hm : m.Canon) :
    m'.Canon := by
  unfold hartRead at e
  grind [=> translate_canon, dieMark_canon]

theorem engineXlat_canon {m m' : Mach} {who : Who} {acc : Acc} {l : List (Nat × Nat)} {xs : List (Nat × Nat × Xlat)}
    (e : engineXlat m who acc l = .ok (m', xs)) (hm : m.Canon) : m'.Canon := by
  fun_induction engineXlat m who acc l generalizing xs <;> grind [=> translate_canon]

theorem undoLog_canon {m : Mach} {c gid off n} (hm : m.Canon) : (undoLog m c gid off n).Canon := by
  unfold undoLog
  grind [Mach.updCore_canon, foldl_canon]

theorem wakePad_canon {m : Mach} {gid old new} (hm : m.Canon) : (wakePad m gid old new).Canon :=
  hm

theorem padPut_canon {m : Mach} {gid off bs} (hm : m.Canon) : (padPut m gid off bs).Canon := by
  unfold padPut
  grind [Mach.Canon, wakePad_canon, Mach.updGroup_canon]

theorem padWrite_canon {m : Mach} {c gid off bs} (hm : m.Canon) : (padWrite m c gid off bs).Canon :=
  padPut_canon (undoLog_canon hm)

theorem padWriteOut_canon {m : Mach} {gid off bs} (hm : m.Canon) : (padWriteOut m gid off bs).Canon := by
  unfold padWriteOut
  grind [padPut_canon, Mach.updCore_canon]

/-! Machine/Squash.lean. -/

theorem replay_canon {m : Mach} {u} (hm : m.Canon) : (replay m u).Canon :=
  foldl_canon _ hm fun _ _ h => padPut_canon h

theorem rollBack_canon {m : Mach} {c ck} (hm : m.Canon) : (rollBack m c ck).Canon :=
  hm

theorem squash_canon {m : Mach} {c kind} (hm : m.Canon) : (squash m c kind).Canon := by
  unfold squash
  grind [replay_canon, Mach.updCore_canon, rollBack_canon]

theorem conflicts_canon {m : Mach} {dies but gs kind} (hm : m.Canon) : (conflicts m dies but gs kind).Canon :=
  foldl_canon _ hm fun _ _ h => squash_canon h

theorem publishBytes_canon {m : Mach} {pa : Nat} {bs : List Byte} (hm : m.Canon) : (publishBytes m pa bs).Canon :=
  wf_cwrite bs pa hm

/-! Machine/Ops.lean. -/

theorem vecWord_canon {m : Mach} {g} {f : Thread → Thread} (hm : m.Canon) : (vecWord m g f).Canon := by
  unfold vecWord
  grind [Mach.Canon]

theorem seqWord_canon {m : Mach} {g} {f : Mach → Running → Thread → Mach} (hm : m.Canon) (hm1 : ∀ y0 y1 y2,
    y0.Canon → (f y0 y1 y2).Canon) :
    (seqWord m g f).Canon := by
  unfold seqWord
  grind [foldl_canon]

theorem stallAt_canon {m : Mach} {rid tix} (hm : m.Canon) : (stallAt m rid tix).Canon :=
  Mach.updRun_canon hm

theorem updCk_canon {m : Mach} {gid tix} {f : Thread → Thread} (hm : m.Canon) : (updCk m gid tix f).Canon :=
  Mach.updCore_canon hm

theorem updBoth_canon {m : Mach} {gid tix} {f : Thread → Thread} (hm : m.Canon) : (updBoth m gid tix f).Canon :=
  updCk_canon (Mach.updThread_canon hm)

theorem credit_canon {m : Mach} {gid tix p} (hm : m.Canon) : (credit m gid tix p).Canon := by
  unfold credit
  grind [Mach.updCore_canon]

theorem markEsc_canon {m : Mach} {gid} (hm : m.Canon) : (markEsc m gid).Canon :=
  Mach.updGroup_canon hm

theorem addDue_canon {m : Mach} {c cause} (hm : m.Canon) : (addDue m c cause).Canon :=
  Mach.updCore_canon hm

theorem escape_canon {m : Mach} {r t cause} (hm : m.Canon) : (escape m r t cause).Canon :=
  addDue_canon (Mach.updThread_canon hm)

theorem stallWord_canon {m : Mach} {g} (hm : m.Canon) : (stallWord m g).Canon := by
  unfold stallWord
  grind [foldl_canon, stallAt_canon]

theorem relWord_canon {m : Mach} {g} {waits : Mach → Running → Thread → Bool} {go : Mach} (hm : m.Canon) (hm1 : go.Canon) :
    (relWord m g waits go).Canon := by
  unfold relWord
  grind [stallWord_canon]

theorem creditWord_canon {m : Mach} {r t cause len} (hm : m.Canon) : (creditWord m r t cause len).Canon := by
  unfold creditWord
  grind [credit_canon, markEsc_canon]

theorem escDo_canon {m : Mach} {r t cause len} {go : Mach} (hm : m.Canon) (hm1 : go.Canon) :
    (escDo m r t cause len go).Canon := by
  unfold escDo
  grind [escape_canon, stallAt_canon, creditWord_canon]

theorem escWord_canon {m : Mach} {g cause len} {f : Mach → Running → Thread → Mach} (hm : m.Canon) (hm1 : ∀ y0 y1 y2,
    y0.Canon → (f y0 y1 y2).Canon) :
    (escWord m g cause len f).Canon := by
  unfold escWord
  grind [seqWord_canon, escDo_canon]

theorem writeRec_canon {m : Mach} {x f} (hm : m.Canon) : (writeRec m x f).Canon :=
  Mach.updPart_canon (Mach.updCtx_canon (publishBytes_canon (publishBytes_canon hm)))

theorem postRec_canon {m : Mach} {cid f} (hm : m.Canon) : (postRec m cid f).Canon := by
  unfold postRec
  grind [writeRec_canon, Mach.updCtx_canon]

theorem parkThread_canon {m : Mach} {gid tix p} (hm : m.Canon) : (parkThread m gid tix p).Canon := by
  unfold parkThread
  grind [Mach.updThread_canon, Mach.Canon, Mach.updGroup_canon]

theorem superFault_canon {m : Mach} {t kind cause acc flags addr p at_} (hm : m.Canon) :
    (superFault m t kind cause acc flags addr p at_).Canon :=
  postRec_canon (addDue_canon (parkThread_canon (Mach.updThread_canon hm)))

theorem raiseEff_canon {m : Mach} {t x} (hm : m.Canon) : (raiseEff m t x).Canon :=
  Mach.updThread_canon hm

theorem misalign_canon {m : Mach} {r t a2 a3 len} (hm : m.Canon) : (misalign m r t a2 a3 len).Canon :=
  raiseEff_canon hm

theorem linkLost_canon {m : Mach} {r t ea cause} (hm : m.Canon) : (linkLost m r t ea cause).Canon :=
  raiseEff_canon hm

theorem memStop_canon {m : Mach} {r t acc ea e} (hm : m.Canon) : (memStop m r t acc ea e).Canon := by
  unfold memStop
  grind [superFault_canon, linkLost_canon]

theorem padStop_canon {m : Mach} {r t acc ea} (hm : m.Canon) : (padStop m r t acc ea).Canon :=
  superFault_canon hm

theorem padFault_canon {m : Mach} {r t gid n acc ea} (hm : m.Canon) : (padFault m r t gid n acc ea).Canon := by
  unfold padFault
  grind [superFault_canon, padStop_canon]

theorem Fx.readN_canon {x y : Fx} {k a n : Nat} {acc bs : List Byte} (e : Fx.readN k x a n acc = .ok (y, bs)) (hm : x.m.Canon) :
    y.m.Canon := by
  induction k generalizing x a n acc with
  | zero => grind [Fx.readN]
  | succ k ih =>
    simp only [Fx.readN] at e
    split at e
    · grind
    split at e
    · cases e
    next m bs got =>
    refine ih e ?_
    split at got
    · cases hr : hartRead x.m x.who .load true a (min n 8) with
      | error z => simp [hr, Except.map] at got
      | ok r =>
        simp only [hr, Except.map, Except.ok.injEq, Prod.mk.injEq] at got
        exact got.1 ▸ hartRead_canon hr hm
    · exact gRead_canon got hm

theorem Fx.read_canon {x y : Fx} {a n : Nat} {bs : List Byte} (e : x.read a n = .ok (y, bs)) (hm : x.m.Canon) : y.m.Canon :=
  Fx.readN_canon e hm

theorem Fx.frame_canon {x y : Fx} {f : Nat} {fr : Frame} (e : x.frame f = .ok (y, fr)) (hm : x.m.Canon) : y.m.Canon := by
  unfold Fx.frame at e
  grind [=> Fx.read_canon]

theorem Fx.search_canon {x y : Fx} {eff n f : Nat} {r : Option (Nat × Frame)} (e : Fx.search eff n x f = .ok (y, r))
    (hm : x.m.Canon) : y.m.Canon := by
  fun_induction Fx.search eff n x f <;> grind [=> Fx.frame_canon]

theorem fxSim_canon {m : Mach} {who : Who} {gid tix k a : Nat} {bs : List Byte} (hm : m.Canon) :
    (fxSim m who gid tix k a bs).Canon := by
  fun_induction fxSim m who gid tix k a bs <;> grind [=> gWrite_canon]

theorem fxStore_canon {m m' : Mach} {who : Who} {gid tix k a : Nat} {bs : List Byte}
    (e : fxStore m who gid tix k a bs = .ok m') (hm : m.Canon) : m'.Canon := by
  fun_induction fxStore m who gid tix k a bs <;> grind [=> gWrite_canon]

theorem fxSolo_canon {m : Mach} {who gid tix a bs} {m' : Mach} (e : fxSolo m who gid tix a bs = .ok m') (hm : m.Canon) :
    m'.Canon := by
  unfold fxSolo at e
  grind [=> translate_canon, dieMark_canon, Mach.updCore_canon, publishBytes_canon, conflicts_canon, => fxStore_canon]

theorem fxPuts_canon {m m' : Mach} {who : Who} {gid tix : Nat} {esc : Bool} {l : List (Nat × List Byte)}
    (e : fxPuts m who gid tix esc l = .ok m') (hm : m.Canon) : m'.Canon := by
  fun_induction fxPuts m who gid tix esc l <;> grind [=> fxSolo_canon, => fxStore_canon]

/-- What a plan carries keeps the memory's form: the machine of its reads, and what it does to the machine. -/
def FxPlan.Canon (p : FxPlan) : Prop := p.x.m.Canon ∧ ∀ m, m.Canon → (p.k m).Canon

theorem FxPlan.canon_mk {x : Fx} {wrs f esc k quiet} (hx : x.m.Canon) (hk : ∀ m, m.Canon → (k m).Canon) :
    FxPlan.Canon ⟨x, wrs, f, esc, k, quiet⟩ :=
  ⟨hx, hk⟩

theorem FxPlan.canon_mk_id {x : Fx} {wrs f esc quiet} (hx : x.m.Canon) : FxPlan.Canon ⟨x, wrs, f, esc, id, quiet⟩ :=
  ⟨hx, fun _ h => h⟩

theorem fxCredit_canon {m : Mach} {gid tix q} (hm : m.Canon) : (fxCredit m gid tix q).Canon :=
  markEsc_canon (credit_canon hm)

theorem deliverPlan_canon {m : Mach} {t : Thread} {x : Raise} {who : Who} {hart : Bool} {p : FxPlan}
    (e : deliverPlan m t x who hart = .ok (.inl p)) (hm : m.Canon) : p.Canon := by
  unfold deliverPlan at e
  split at e
  · cases e
  · cases e
  next hs =>
  cases e
  exact ⟨Fx.search_canon hs hm, fun _ h => h⟩

theorem parkEffect_canon {m : Mach} {t x} (hm : m.Canon) : (parkEffect m t x).Canon :=
  postRec_canon (addDue_canon (parkThread_canon (Mach.updThread_canon hm)))

theorem markL1_canon {m : Mach} {gid tix} (hm : m.Canon) : (markL1 m gid tix).Canon :=
  hm

theorem fxStart_canon {m : Mach} {c : Nat} {p : FxPlan} {esc : Bool} (hp : p.Canon) : (fxStart m c p esc).Canon := by
  unfold fxStart
  split
  · exact Mach.updCore_canon hp.1
  · exact hp.1

theorem fxApply_canon {m : Mach} {gid tix : Nat} {p : FxPlan} {fault : MemErr → Acc → Nat → Mach} {wait : Option Nat → Mach}
    (hp : p.Canon) (hf : ∀ e a n, (fault e a n).Canon) (hw : ∀ w, (wait w).Canon) :
    (fxApply m gid tix p fault wait).1.Canon := by
  simp only [fxApply]
  split
  · exact hw _
  split
  · exact hf _ _ _
  split
  · exact hw _
  split
  · exact hw _
  split
  · exact hw _
  split
  · exact hf _ _ _
  next m' puts =>
  have hm' := fxPuts_canon puts (fxStart_canon hp)
  refine hp.2 _ (Mach.updThread_canon ?_)
  split
  · exact markL1_canon hm'
  · exact hm'

theorem deliverFault_canon {m : Mach} {t x e acc a} (hm : m.Canon) : (deliverFault m t x e acc a).Canon := by
  unfold deliverFault
  grind [superFault_canon, raiseEff_canon]

theorem deliver_canon {m : Mach} {gid tix : Nat} (hm : m.Canon) : (deliver m gid tix).Canon := by
  unfold deliver
  split
  · exact hm
  next t _ =>
  split
  · exact hm
  split
  · exact hm
  extract_lets who c late go depth
  have hlate {rds n} (hn : n.Canon) : (late rds n).Canon := by
    simp only [late]
    split
    · exact addDue_canon hm
    · exact hn
  have hgo {x n} (hn : n.Canon) : (go x n).Canon := by
    simp only [go]
    split
    · exact hlate (deliverFault_canon hm)
    · exact hlate hn
    · exact hlate (parkEffect_canon hm)
    next p plan =>
    have hr : (fxApply m gid tix p (fun e acc a => deliverFault m t x e acc a)
        (fun w => match w with | some cause => addDue m c cause | none => m)).1.Canon := by
      refine fxApply_canon (deliverPlan_canon plan hm) (fun _ _ _ => deliverFault_canon hm) fun w => ?_
      split
      · exact addDue_canon hm
      · exact hm
    split
    · split
      · exact fxCredit_canon hr
      · exact hr
    · exact hr
  refine hgo ?_
  split
  · exact parkEffect_canon hm
  · exact hgo (parkEffect_canon hm)

/-! Machine/Operands.lean. -/

theorem putK_canon {m : Mach} {n v} (hm : m.Canon) : (putK m n v).Canon := by
  unfold putK
  grind [Mach.updGroup_canon]

theorem setW_canon {m : Mach} {g u d} {f : Thread → Word} (hm : m.Canon) : (setW m g u d f).Canon := by
  unfold setW
  grind [putK_canon, vecWord_canon]

theorem setD_canon {m : Mach} {g u d} {f : Thread → DWord} (hm : m.Canon) : (setD m g u d f).Canon := by
  unfold setD
  grind [vecWord_canon]

theorem setP_canon {m : Mach} {g u p} {f : Thread → Bool} (hm : m.Canon) : (setP m g u p f).Canon := by
  unfold setP
  grind [vecWord_canon]

theorem alu3_canon {m : Mach} {x} {f : Word → Word → Word} {f64 : DWord → DWord → DWord} (hm : m.Canon) :
    (alu3 m x f f64).Canon := by
  unfold alu3
  grind [setD_canon, setW_canon]

theorem alu2_canon {m : Mach} {x} {f : Word → Word} (hm : m.Canon) : (alu2 m x f).Canon :=
  setW_canon hm

theorem setF_canon {m : Mach} {g u d} {f : Thread → Word × Nat} (hm : m.Canon) : (setF m g u d f).Canon := by
  unfold setF
  grind [Mach.updThread_canon, putK_canon, vecWord_canon]

theorem setFP_canon {m : Mach} {g u p} {f : Thread → Bool × Nat} (hm : m.Canon) : (setFP m g u p f).Canon := by
  unfold setFP
  grind [vecWord_canon]

theorem setFD_canon {m : Mach} {g n} {f : Thread → DWord × Nat} (hm : m.Canon) : (setFD m g n f).Canon := by
  unfold setFD
  grind [vecWord_canon]

theorem fp3_canon {m : Mach} {x} {f : Nat → Nat → Nat × Nat} (hm : m.Canon) : (fp3 m x f).Canon :=
  setF_canon hm

/-! Machine/Meet.lean. -/

theorem relPush_canon {m : Mach} {c sc} (hm : m.Canon) : (relPush m c sc).Canon := by
  unfold relPush
  grind [pushAll_canon]

theorem acqDo_canon {m : Mach} {c sc} (hm : m.Canon) : (acqDo m c sc).Canon := by
  unfold acqDo
  grind [dropClean_canon, Mach.updCore_canon]

theorem getBarrier_canon {m : Mach} {kid key id} (hm : m.Canon) : (getBarrier m kid key id).1.Canon := by
  unfold getBarrier
  grind [Mach.Canon]

theorem freeWaiter_canon {m : Mach} {b t} (hm : m.Canon) : (freeWaiter m b t).Canon := by
  unfold freeWaiter
  grind [updBoth_canon, acqDo_canon]

theorem freeWaiters_canon {m : Mach} {b} (hm : m.Canon) : (freeWaiters m b).Canon :=
  foldl_canon _ hm fun _ _ h => freeWaiter_canon h

theorem checkBarrier_canon {m : Mach} {bid} (hm : m.Canon) : (checkBarrier m bid).Canon := by
  unfold checkBarrier
  grind [freeWaiters_canon, Mach.updBarrier_canon]

theorem exitsCommit_canon {m : Mach} {kid l} (hm : m.Canon) : (exitsCommit m kid l).Canon :=
  foldl_canon _ (Mach.updKernel_canon hm) fun _ _ h => checkBarrier_canon (Mach.updBarrier_canon h)

theorem breakBarriers_canon {m : Mach} {kid cause lo n} (hm : m.Canon) : (breakBarriers m kid cause lo n).Canon := by
  unfold breakBarriers
  grind [Mach.updKernel_canon, foldl_canon, freeWaiters_canon, Mach.updBarrier_canon]

/-! Machine/Barrier.lean. -/

theorem barOf_canon {m : Mach} {t sel id} (hm : m.Canon) : (barOf m t sel id).1.Canon := by
  unfold barOf
  grind [getBarrier_canon]

theorem barRaise_canon {m : Mach} {r t sel id cause} (hm : m.Canon) : (barRaise m r t sel id cause).Canon :=
  Mach.updThread_canon (raiseEff_canon hm)

theorem barWait_canon {m : Mach} {r t b x p past} (hm : m.Canon) : (barWait m r t b x p past).Canon :=
  Mach.updThread_canon hm

theorem arrive_canon {m : Mach} {r t x} {k : Mach → Word → Mach} (hm : m.Canon) (hm1 : ∀ y0 y1, y0.Canon → (k y0 y1).Canon) :
    (arrive m r t x k).Canon := by
  unfold arrive
  grind [barOf_canon, barRaise_canon, barWait_canon, markEsc_canon, relPush_canon, Mach.updBarrier_canon, checkBarrier_canon]

theorem waitPast_canon {m : Mach} {r t x p} (hm : m.Canon) : (waitPast m r t x p).Canon := by
  unfold waitPast
  grind [barOf_canon, barRaise_canon, barWait_canon, acqDo_canon]

/-! Machine/Tide.lean. -/

theorem freeExited_canon {m : Mach} {c ts} (hm : m.Canon) : (freeExited m c ts).Canon := by
  unfold freeExited
  grind [foldl_canon, Mach.Canon, Mach.updGroup_canon, exitsCommit_canon]

theorem trimCk_canon {m : Mach} {c} (hm : m.Canon) : (trimCk m c).Canon :=
  Mach.updCore_canon hm

theorem closeChunk_canon {m : Mach} {c} (hm : m.Canon) : (closeChunk m c).Canon := by
  unfold closeChunk
  grind [freeExited_canon, Mach.updCore_canon]

theorem publishCells_canon {m : Mach} {l : List (Nat × Byte)} (hm : m.Canon) : (publishCells m l).Canon := by
  fun_induction publishCells m l <;> grind [publishBytes_canon]

/-! Machine/Memory.lean. -/

theorem addLoad_canon {m : Mach} {gid tix regs flag} (hm : m.Canon) : (addLoad m gid tix regs flag).Canon :=
  Mach.updThread_canon hm

theorem l1Do_canon {m : Mach} {r t} {go : Mach} (hm : m.Canon) (hm1 : go.Canon) : (l1Do m r t go).Canon := by
  unfold l1Do
  grind [stallAt_canon, Mach.updRun_canon]

theorem byClass_canon {m : Mach} {r t} {esc : Nat → Bool} {ea} {go : Mach} (hm : m.Canon) (hm1 : go.Canon) :
    (byClass m r t esc ea go).Canon := by
  unfold byClass
  grind [escDo_canon, l1Do_canon]

theorem relThen_canon {m : Mach} {r t rel sc ea} {go : Mach → Mach} (hm : m.Canon) (hm1 : ∀ y0, y0.Canon → (go y0).Canon) :
    (relThen m r t rel sc ea go).Canon := by
  unfold relThen
  grind [relPush_canon]

theorem atomAt_canon {m m' : Mach} {who : Who} {sc : Scope} {ea n old : Nat} {f : Nat → Nat}
    (e : atomAt m who sc ea n f = .done m' old) (hm : m.Canon) : m'.Canon := by
  unfold atomAt at e
  split at e
  · cases e
  next m x ht =>
  have hm := translate_canon ht hm
  split at e
  · cases e
  split at e
  · cases e
  split at e
  · grind [nextMark_canon, publishBytes_canon, Mach.updCore_canon, conflicts_canon]
  · grind [=> scopedRead_canon, => scopedWrite_canon, wakeWatch_canon]
  · grind [wakeWatch_canon, homeWrite_canon]

theorem waitaDone_canon {m : Mach} {t d x} (hm : m.Canon) : (waitaDone m t d x).Canon :=
  acqDo_canon (updBoth_canon hm)

/-! Machine/Chunk.lean. -/

theorem publishReds_canon {m : Mach} {l : List Red} (hm : m.Canon) : (publishReds m l).Canon := by
  fun_induction publishReds m l <;> grind [publishBytes_canon]

theorem endCommit_canon {m : Mach} {c pid mark solo} (hm : m.Canon) : (endCommit m c pid mark solo).Canon := by
  unfold endCommit
  grind [Mach.updCore_canon, Mach.updPart_canon]

/-! Machine/Image.lean. -/

theorem putRecord_canon {m : Mach} {t g pc state} (hm : m.Canon) : (putRecord m t g pc state).Canon :=
  publishBytes_canon hm

theorem putRecState_canon {m : Mach} {t state} (hm : m.Canon) : (putRecState m t state).Canon :=
  publishBytes_canon hm

theorem putPointer_canon {m : Mach} {d v a} (hm : m.Canon) : (putPointer m d v a).Canon :=
  publishBytes_canon hm

/-! Machine/Record.lean. -/

theorem writeRecord_canon {m : Mach} {gid} (hm : m.Canon) : (writeRecord m gid).Canon := by
  unfold writeRecord
  grind [foldl_canon, publishBytes_canon]

/-! Machine/Copy.lean. -/

theorem freeTl_canon {m : Mach} {c tile} (hm : m.Canon) : (freeTl m c tile).Canon := by
  unfold freeTl
  grind [foldl_canon, acqDo_canon, updBoth_canon]

theorem updHead_canon {m : Mach} {c} {f : Copy → Copy} (hm : m.Canon) : (updHead m c f).Canon :=
  Mach.updCore_canon hm

theorem parkWaiter_canon {m : Mach} {c x} (hm : m.Canon) : (parkWaiter m c x).Canon := by
  unfold parkWaiter
  grind [addDue_canon, parkThread_canon]

theorem engineFault_canon {m : Mach} {c x kind cause acc va} (hm : m.Canon) : (engineFault m c x kind cause acc va).Canon :=
  parkWaiter_canon (postRec_canon (updHead_canon hm))

theorem engineStop_canon {m : Mach} {c x acc va e} (hm : m.Canon) : (engineStop m c x acc va e).Canon := by
  unfold engineStop
  grind [engineFault_canon, updHead_canon]

theorem engineWrite_canon {m : Mach} {who gid tix x bs} (hm : m.Canon) : (engineWrite m who gid tix x bs).Canon := by
  unfold engineWrite
  grind [nextMark_canon, conflicts_canon, publishBytes_canon, replWrite_canon, wakeWatch_canon, homeWrite_canon,
    hostWrite_canon]

theorem engineWrites_canon {m : Mach} {who : Who} {gid tix : Nat} {l : List (Nat × Nat × Xlat)} {bs : List Byte} (hm :
    m.Canon) :
    (engineWrites m who gid tix l bs).Canon := by
  fun_induction engineWrites m who gid tix l bs <;> grind [engineWrite_canon]

theorem pieceRead_canon {m : Mach} {who x n} {m' y} (e : pieceRead m who x n = .ok (m', y)) (hm : m.Canon) : m'.Canon := by
  unfold pieceRead at e
  grind [=> engineXlat_canon]

theorem pieceDo_canon {m : Mach} {c x} (hm : m.Canon) : (pieceDo m c x).Canon := by
  unfold pieceDo
  grind [=> pieceRead_canon, engineStop_canon, => engineXlat_canon, updHead_canon, engineWrites_canon, Mach.updCore_canon,
    padWriteOut_canon]

theorem copyStart_canon {m : Mach} {c x} (hm : m.Canon) : (copyStart m c x).Canon := by
  unfold copyStart
  grind [updHead_canon, relPush_canon]

/-! Machine/System.lean. -/

theorem appendRec_canon {m : Mach} {cid handle b dies} (hm : m.Canon) : (appendRec m cid handle b dies).1.Canon := by
  unfold appendRec
  grind [Mach.Canon, Mach.updQueue_canon]

/-! Machine/Array.lean. -/

theorem putResult_canon {m : Mach} {x st est} (hm : m.Canon) : (putResult m x st est).Canon := by
  unfold putResult
  grind [updBoth_canon]

theorem finishCmd_canon {m : Mach} {c x st est} (hm : m.Canon) : (finishCmd m c x st est).Canon :=
  freeTl_canon (putResult_canon (Mach.updCore_canon hm))

theorem issueCmd_canon {m : Mach} {r t d ok x} (hm : m.Canon) : (issueCmd m r t d ok x).Canon := by
  unfold issueCmd
  grind [Mach.updThread_canon, Mach.updCore_canon, Mach.updGroup_canon, finishCmd_canon]

theorem serveTile_canon {c i : Nat} {ws : List Nat} {m : Mach} (hm : m.Canon) : (serveTile c i ws m).Canon := by
  fun_induction serveTile c i ws m <;> grind [Mach.updCore_canon, updBoth_canon]

theorem serve_canon {m : Mach} {c i} (hm : m.Canon) : (serve m c i).Canon := by
  unfold serve
  grind [serveTile_canon]

theorem applyAdd_canon {m : Mach} {c i x} {m' : Mach} (e : applyAdd m c i x = some m') (hm : m.Canon) : m'.Canon := by
  unfold applyAdd at e
  grind [serve_canon, Mach.updCore_canon]

theorem haltRaise_canon {m : Mach} {t x p} (hm : m.Canon) : (haltRaise m t x p).Canon := by
  unfold haltRaise
  grind [superFault_canon, raiseEff_canon]

theorem updCmd_canon {m : Mach} {c x} {f : TCmd → TCmd} (hm : m.Canon) : (updCmd m c x f).Canon :=
  Mach.updCore_canon hm

theorem haltNotify_canon {m : Mach} {x} (hm : m.Canon) : (haltNotify m x).Canon := by
  unfold haltNotify
  grind [haltRaise_canon]

theorem haltCmd_canon {m : Mach} {c x h} (hm : m.Canon) : (haltCmd m c x h).Canon := by
  unfold haltCmd
  grind [finishCmd_canon, haltNotify_canon, updCmd_canon]

theorem softHalt_canon {m : Mach} {c x} (hm : m.Canon) : (softHalt m c x).Canon :=
  haltCmd_canon hm

theorem tileGood_canon {m : Mach} {gid i} (hm : m.Canon) : (tileGood m gid i).Canon :=
  hm

theorem waitMeets_canon {m : Mach} {t} (hm : m.Canon) : (waitMeets m t).Canon := by
  unfold waitMeets
  grind [parkWaiter_canon, haltRaise_canon]

theorem resumeCmd_canon {m : Mach} {gid n v} (hm : m.Canon) : (resumeCmd m gid n v).Canon :=
  Mach.updGroup_canon (Mach.updCore_canon hm)

theorem dropCmd_canon {m : Mach} {gid n} (hm : m.Canon) : (dropCmd m gid n).Canon := by
  unfold dropCmd
  grind [finishCmd_canon, Mach.updCore_canon, Mach.updGroup_canon, putResult_canon]

/-! Machine/Int.lean. -/

theorem paired_canon {m : Mach} {op x} (hm : m.Canon) : (paired m op x).Canon := by
  unfold paired
  grind [vecWord_canon]

theorem predOp_canon {m : Mach} {x} {f : Bool → Bool → Bool} (hm : m.Canon) : (predOp m x f).Canon :=
  vecWord_canon hm

theorem bitField_canon {m : Mach} {x} {f : Word → Word → Word → Word → Word} (hm : m.Canon) : (bitField m x f).Canon :=
  setW_canon hm

/-! Machine/Vector.lean. -/

theorem setWide_canon {m : Mach} {g dst d} {f : Thread → Nat × Nat} (hm : m.Canon) : (setWide m g dst d f).Canon := by
  unfold setWide
  grind [setFD_canon, setF_canon]

theorem fp1_canon {m : Mach} {x} {f : FVal → Nat × Nat} (hm : m.Canon) : (fp1 m x f).Canon :=
  setF_canon hm

theorem halves_canon {m : Mach} {x} {f : Fmt → Nat → Nat → Thread → Nat → Nat × Nat} (hm : m.Canon) : (halves m x f).Canon :=
  setF_canon hm

theorem dotWord_canon {m : Mach} {x n} (hm : m.Canon) : (dotWord m x n).Canon := by
  unfold dotWord
  grind [setF_canon]

theorem tableFault_canon {m : Mach} {g} (hm : m.Canon) : (tableFault m g).Canon :=
  seqWord_canon hm (fun _ _ _ h => superFault_canon h)

/-! Machine/Tile.lean. -/

theorem tlsCheck_canon {m : Mach} {r t o st bits acc} {go : Mach} (hm : m.Canon) (hm1 : go.Canon) :
    (tlsCheck m r t o st bits acc go).Canon := by
  unfold tlsCheck
  grind [misalign_canon, padStop_canon]

theorem updTile_canon {m : Mach} {c i} {f : Tile → Tile} (hm : m.Canon) : (updTile m c i f).Canon :=
  Mach.updCore_canon hm

theorem zeroDo_canon {m : Mach} {c x free} (hm : m.Canon) : (zeroDo m c x free).Canon := by
  unfold zeroDo
  grind [updTile_canon, Mach.updCore_canon]

theorem performCmd_canon {m : Mach} {c x} (hm : m.Canon) : (performCmd m c x).Canon := by
  unfold performCmd
  grind [finishCmd_canon, zeroDo_canon, tileGood_canon, updTile_canon, foldl_canon, padWriteOut_canon, Mach.Canon,
    Mach.updCore_canon]

theorem finishFactor_canon {m : Mach} {c x} (hm : m.Canon) : (finishFactor m c x).Canon :=
  finishCmd_canon (updTile_canon hm)

theorem answerAdd_canon {m : Mach} {d st} (hm : m.Canon) : (answerAdd m d st).Canon :=
  hm

theorem daddArrive_canon {m : Mach} {d} (hm : m.Canon) : (daddArrive m d).Canon := by
  unfold daddArrive
  grind [answerAdd_canon, Mach.Canon, => applyAdd_canon]

theorem peerArrive_canon {m : Mach} {a} (hm : m.Canon) : (peerArrive m a).Canon := by
  unfold peerArrive
  grind [Mach.Canon, => applyAdd_canon]

/-! Machine/Place.lean. -/

theorem skipSlice_canon {m : Mach} {c cid} (hm : m.Canon) : (skipSlice m c cid).Canon :=
  Mach.updCore_canon hm

theorem takeCore_canon {m : Mach} {c cid} (hm : m.Canon) : (takeCore m c cid).Canon := by
  unfold takeCore
  grind [Mach.Canon, Mach.updCore_canon]

theorem ctxServes_canon {m : Mach} {cid} (hm : m.Canon) : (ctxServes m cid).Canon :=
  Mach.updCtx_canon hm

theorem enterCk_canon {m : Mach} {c gid} (hm : m.Canon) : (enterCk m c gid).Canon :=
  Mach.updCore_canon hm

theorem placeGroup_canon {m : Mach} {k gix c at_} (hm : m.Canon) : (placeGroup m k gix c at_).Canon := by
  unfold placeGroup
  grind [takeCore_canon, acqDo_canon, Mach.Canon, addDue_canon, enterCk_canon]

theorem placeNext_canon {m : Mach} {k c gix} (hm : m.Canon) : (placeNext m k c gix).Canon :=
  ctxServes_canon (Mach.updKernel_canon (foldl_canon _ hm fun _ _ h => placeGroup_canon h))

theorem markMeant_canon {m : Mach} {gids} (hm : m.Canon) : (markMeant m gids).Canon :=
  hm

theorem beginSave_canon {m : Mach} {gs room avoid} (hm : m.Canon) : (beginSave m gs room avoid).Canon :=
  markMeant_canon (foldl_canon _ hm fun _ _ h => addDue_canon (Mach.updGroup_canon h))

theorem rewait_canon {m : Mach} {t} (hm : m.Canon) : (rewait m t).Canon := by
  unfold rewait
  grind [freeWaiter_canon, updBoth_canon, Mach.updCtx_canon]

theorem reRecord_canon {m : Mach} {t} (hm : m.Canon) : (reRecord m t).Canon := by
  unfold reRecord
  grind [putRecord_canon, putPointer_canon]

theorem restoreGroup_canon {m : Mach} {g c} (hm : m.Canon) : (restoreGroup m g c).Canon := by
  unfold restoreGroup
  grind [takeCore_canon, Mach.updGroup_canon, Mach.Canon, foldl_canon, reRecord_canon, acqDo_canon, enterCk_canon,
    Mach.updCore_canon, rewait_canon, serve_canon, addDue_canon, freeTl_canon]

/-! Machine/Leave.lean. -/

theorem leaveHeadland_canon {m : Mach} {die gid} (hm : m.Canon) : (leaveHeadland m die gid).Canon :=
  Mach.updDie_canon (foldl_canon _ hm fun _ _ h => putPointer_canon h)

theorem flushSquash_canon {m : Mach} {c} (hm : m.Canon) : (flushSquash m c).Canon :=
  Mach.updCore_canon (squash_canon hm)

theorem flushGroup_canon {m : Mach} {g} (hm : m.Canon) : (flushGroup m g).Canon := by
  unfold flushGroup
  grind [Mach.updCore_canon, flushSquash_canon, Mach.updKernel_canon, leaveHeadland_canon, Mach.Canon]

theorem chooseLeave_canon {m : Mach} {gid} (hm : m.Canon) : (chooseLeave m gid).Canon := by
  unfold chooseLeave
  grind [foldl_canon, Mach.updGroup_canon, flushGroup_canon, beginSave_canon]

theorem saveGroup_canon {m : Mach} {g} (hm : m.Canon) : (saveGroup m g).Canon := by
  unfold saveGroup
  grind [pushAll_canon, Mach.updGroup_canon, Mach.Canon, Mach.updCore_canon, writeRecord_canon]

theorem closeIfDone_canon {m : Mach} {kid} (hm : m.Canon) : (closeIfDone m kid).Canon := by
  unfold closeIfDone
  grind [Mach.updKernel_canon]

theorem wakeKernel_canon {m : Mach} {kid} (hm : m.Canon) : (wakeKernel m kid).Canon := by
  unfold wakeKernel
  grind [Mach.updKernel_canon]

theorem endGroup_canon {m : Mach} {g} (hm : m.Canon) : (endGroup m g).Canon := by
  unfold endGroup
  grind [Mach.updCore_canon, Mach.updKernel_canon, leaveHeadland_canon, Mach.Canon, Mach.updGroup_canon, foldl_canon,
    closeIfDone_canon, wakeKernel_canon]

theorem stopFactors_canon {m : Mach} {g} (hm : m.Canon) : (stopFactors m g).Canon :=
  foldl_canon _ (Mach.updCore_canon hm) fun _ _ h => finishCmd_canon h

theorem stopThreads_canon {m : Mach} {g} (hm : m.Canon) : (stopThreads m g).Canon :=
  leaveHeadland_canon (foldl_canon _ hm fun _ _ h => updBoth_canon h)

theorem stopGroup_canon {m : Mach} {g} (hm : m.Canon) : (stopGroup m g).Canon := by
  unfold stopGroup
  grind [endGroup_canon, addDue_canon, stopThreads_canon, stopFactors_canon]

theorem faultGroup_canon {m : Mach} {gid} (hm : m.Canon) : (faultGroup m gid).Canon := by
  unfold faultGroup
  grind [breakBarriers_canon, Mach.updKernel_canon, Mach.updGroup_canon, stopGroup_canon]

theorem stopKernel_canon {m : Mach} {kid st lost} (hm : m.Canon) : (stopKernel m kid st lost).Canon := by
  unfold stopKernel
  grind [Mach.updKernel_canon, Mach.Canon, breakBarriers_canon, closeIfDone_canon, foldl_canon, stopGroup_canon]

theorem endEmpty_canon {m : Mach} {cid} (hm : m.Canon) : (endEmpty m cid).Canon := by
  unfold endEmpty
  grind [Mach.Canon, Mach.updPart_canon, Mach.updCtx_canon]

theorem endKernel_canon {m : Mach} {k} (hm : m.Canon) : (endKernel m k).Canon := by
  unfold endKernel
  grind [Mach.updKernel_canon, Mach.updQueue_canon, endEmpty_canon, Mach.Canon]

theorem writeDone_canon {m : Mach} {who k x} {m' : Mach} (e : writeDone m who k x = some m') (hm : m.Canon) : m'.Canon := by
  unfold writeDone at e
  grind [nextMark_canon, conflicts_canon, publishBytes_canon, replWrite_canon, wakeWatch_canon, homeWrite_canon,
    hostWrite_canon]

theorem doneFault_canon {m : Mach} {k kind cause} (hm : m.Canon) : (doneFault m k kind cause).Canon :=
  postRec_canon hm

theorem ctxAway_canon {m : Mach} {cid} (hm : m.Canon) : (ctxAway m cid).Canon := by
  unfold ctxAway
  grind [Mach.updCtx_canon]

/-! Machine/Commands.lean. -/

theorem postHeld_canon {cid : Nat} {l : List FRec} {m : Mach} (hm : m.Canon) : (postHeld cid l m).Canon := by
  fun_induction postHeld cid l m <;> grind [writeRec_canon, Mach.updCtx_canon]

theorem ringPut_canon {p : Part} {n : Nat} {l : List RingCmd} {m : Mach} (hm : m.Canon) : (ringPut p n l m).Canon := by
  fun_induction ringPut p n l m <;> grind [publishBytes_canon]

theorem ringDone_canon {m : Mach} {p n st res} (hm : m.Canon) : (ringDone m p n st res).Canon :=
  Mach.updPart_canon (publishBytes_canon (publishBytes_canon (publishBytes_canon hm)))

/-- The machines of an answer keep the memory's form. -/
def Answer.Canon : Answer → Prop
  | .done m _ => m.Canon
  | .refuse => True
  | .wait m => m.Canon

theorem ringDo_canon {s : State} {pid code : Nat} {mine : List Nat → Bool} {f : Mach → Part → List Nat → Answer}
    (hm : s.m.Canon) (hf : ∀ m p ops, m.Canon → (f m p ops).Canon) : NextCanon (ringDo s pid code mine f) := by
  refine nextCanon_onMach ?_
  grind [ringDone_canon, Answer.Canon]

theorem newContext_canon {m : Mach} {p desc b session} {m' y} (e : newContext m p desc b session = some (m',
    y)) (hm : m.Canon) :
    m'.Canon := by
  unfold newContext at e
  grind [Mach.Canon]

theorem destroyCtx_canon {m : Mach} {x} (hm : m.Canon) : (destroyCtx m x).Canon :=
  endEmpty_canon (foldl_canon _ (Mach.updCtx_canon hm) fun _ _ h => stopKernel_canon h)

theorem goOn_canon {m : Mach} {t} {f : Thread → Thread} (hm : m.Canon) : (goOn m t f).Canon :=
  updBoth_canon hm

theorem letGo_canon {m : Mach} {t} {f : Thread → Thread} (hm : m.Canon) : (letGo m t f).Canon :=
  goOn_canon hm

theorem putKBoth_canon {m : Mach} {t n v} (hm : m.Canon) : (putKBoth m t n v).Canon :=
  Mach.updCore_canon (Mach.updGroup_canon hm)

theorem resumeGroup_canon {m : Mach} {gid} (hm : m.Canon) : (resumeGroup m gid).Canon := by
  unfold resumeGroup
  grind [Mach.updGroup_canon, foldl_canon, goOn_canon, Mach.updThread_canon]

theorem updCopyOf_canon {m : Mach} {gid n} {f : Copy → Copy} (hm : m.Canon) : (updCopyOf m gid n f).Canon :=
  Mach.updGroup_canon (Mach.updCore_canon hm)

theorem quiesceQueue_canon {m : Mach} {q} (hm : m.Canon) : (quiesceQueue m q).Canon := by
  unfold quiesceQueue
  grind [Mach.updQueue_canon, foldl_canon, stopKernel_canon]

theorem newQueue_canon {m : Mach} {p cn cap flags session} {m' y} (e : newQueue m p cn cap flags session = some (m',
    y)) (hm : m.Canon) :
    m'.Canon := by
  unfold newQueue at e
  grind [Mach.Canon]

/-! Machine/CrossLane.lean. -/

theorem crossWord_canon {m : Mach} {g c} {f : Thread → List Thread → Thread} (hm : m.Canon) : (crossWord m g c f).Canon :=
  vecWord_canon hm

/-! Machine/Control.lean. -/

theorem jumpTo_canon {m : Mach} {r t a link} (hm : m.Canon) : (jumpTo m r t a link).Canon := by
  unfold jumpTo
  grind [raiseEff_canon, Mach.updThread_canon]

theorem rejoinRelease_canon {m : Mach} {gid j ls} (hm : m.Canon) : (rejoinRelease m gid j ls).Canon := by
  unfold rejoinRelease
  grind [Mach.updGroup_canon, Mach.Canon]

theorem rejoinCheck_canon {m : Mach} {gid ls} (hm : m.Canon) : (rejoinCheck m gid ls).Canon :=
  foldl_canon _ hm fun _ _ h => rejoinRelease_canon h

theorem fetchWords_canon {m m' : Mach} {who : Who} {n va : Nat} {acc code : List Nat}
    (e : fetchWords who n m va acc = .ok m' code) (hm : m.Canon) : m'.Canon := by
  fun_induction fetchWords who n m va acc <;> grind [=> translate_canon]

theorem fetchClause_canon {m m' : Mach} {who : Who} {hdr : Nat} {code : List Nat} (e : fetchClause m who hdr = .ok m' code)
    (hm : m.Canon) : m'.Canon := by
  unfold fetchClause at e
  grind [=> fetchWords_canon, Mach.updCore_canon]

theorem startClause_canon {m : Mach} {c gid tixs p h code} (hm : m.Canon) : (startClause m c gid tixs p h code).Canon :=
  Mach.updCore_canon hm

theorem issueClause_canon {m : Mach} {c gid tixs ts p code} (hm : m.Canon) : (issueClause m c gid tixs ts p code).Canon := by
  unfold issueClause
  grind [foldl_canon, raiseEff_canon, addDue_canon, parkThread_canon, haltRaise_canon, Mach.updThread_canon, startClause_canon]

/-! Machine/Effects.lean. -/

theorem fxOf_canon {m : Mach} {t : Thread} (hm : m.Canon) : (fxOf m t).m.Canon := hm

theorem fxThread_canon {m : Mach} {r : Running} {t : Thread} {len : Nat} {esc : Bool} {plan : Mach → Thread → Except FxStop
    FxPlan}
    {quiet : Bool} (hm : m.Canon) (hp : ∀ p, plan m t = .ok p → p.Canon) : (fxThread m r t len esc plan quiet).Canon := by
  unfold fxThread
  grind [fxApply_canon, escape_canon, memStop_canon, raiseEff_canon, stallAt_canon, fxCredit_canon, FxPlan.Canon]

theorem fxWord_canon {m : Mach} {g : Guard} {len : Nat} {esc : Bool} {plan : Running → Mach → Thread → Except FxStop FxPlan}
    {quiet : Bool} (hm : m.Canon) (hp : ∀ r m t p, plan r m t = .ok p → m.Canon → p.Canon) :
    (fxWord m g len esc plan quiet).Canon :=
  seqWord_canon hm fun _ _ _ h => fxThread_canon h fun _ e => hp _ _ _ _ e h

theorem Fx.find_canon {x y : Fx} {tok n f : Nat} {r : Found} (e : Fx.find tok n x f = .ok (y, r)) (hm : x.m.Canon) :
    y.m.Canon := by
  fun_induction Fx.find tok n x f <;> grind [=> Fx.frame_canon]

theorem Fx.header_canon {x y : Fx} {a : Nat} {h : RecHdr} (e : x.header a = .ok (y, h)) (hm : x.m.Canon) : y.m.Canon := by
  unfold Fx.header at e
  grind [=> Fx.read_canon]

theorem Fx.readAfter_canon {x y : Fx} {t : Thread} {ws : List (Nat × List Byte)} {a n : Nat} {bs : List Byte}
    (e : x.readAfter t ws a n = .ok (y, bs)) (hm : x.m.Canon) : y.m.Canon := by
  unfold Fx.readAfter at e
  grind [=> Fx.read_canon]

theorem handlePlan_canon {r : Running} {id d : Nat} {off : Int} {entry : Nat} {m : Mach} {t : Thread} {p : FxPlan}
    (e : handlePlan r id d off entry m t = .ok p) (hm : m.Canon) : p.Canon := by
  unfold handlePlan at e
  grind [=> Fx.frame_canon, FxPlan.canon_mk_id, fxOf_canon]

theorem performPlan_canon {r : Running} {multi : Bool} {id : Nat} {m : Mach} {t : Thread} {p : FxPlan}
    (e : performPlan r multi id m t = .ok p) (hm : m.Canon) : p.Canon := by
  unfold performPlan at e
  grind [=> Fx.search_canon, => Fx.readAfter_canon, FxPlan.canon_mk_id, fxOf_canon]

theorem resumeMach_canon {t h g v} {m : Mach} (hm : m.Canon) : (resumeMach t h g v m).Canon := by
  unfold resumeMach
  grind [Mach.updGroup_canon, resumeCmd_canon]

theorem resumePlan_canon {r : Running} {a : Nat} {m : Mach} {t : Thread} {p : FxPlan}
    (e : resumePlan r a m t = .ok p) (hm : m.Canon) : p.Canon := by
  simp only [resumePlan] at e
  split at e
  · cases e
  · cases e
  next x f fr hf =>
  split at e
  · cases e
  next x h hh =>
  have hx := Fx.header_canon hh (Fx.find_canon hf (fxOf_canon hm))
  split at e
  · cases e
  split at e
  · cases e
  split at e
  · cases e
  next y snap hs =>
  have hy : y.m.Canon := by grind [=> Fx.readAfter_canon]
  split at e
  · cases e
  next hb =>
  cases e
  exact ⟨Fx.readAfter_canon hb hy, fun _ h => resumeMach_canon h⟩

theorem toResumer_canon {x : Fx} {t : Thread} {nreg f : Nat} {fr : Frame} {v : DWord} {p : FxPlan}
    (e : toResumer x t nreg f fr v = .ok p) (hm : x.m.Canon) : p.Canon := by
  unfold toResumer at e
  grind [=> Fx.header_canon, => Fx.readAfter_canon, FxPlan.canon_mk_id]

theorem endhPlan_canon {m : Mach} {t : Thread} {p : FxPlan} (e : endhPlan m t = .ok p) (hm : m.Canon) : p.Canon := by
  unfold endhPlan at e
  grind [=> Fx.frame_canon, => toResumer_canon, FxPlan.canon_mk_id, fxOf_canon]

theorem Fx.active_canon {x y : Fx} {n f : Nat} {r : Option (Nat × Frame)} (e : Fx.active n x f = .ok (y, r)) (hm : x.m.Canon) :
    y.m.Canon := by
  fun_induction Fx.active n x f <;> grind [=> Fx.frame_canon]

theorem dropMach_canon {gid ns} {m : Mach} (hm : m.Canon) : (dropMach gid ns m).Canon :=
  foldl_canon _ hm fun _ _ h => dropCmd_canon h

theorem hretPlan_canon {m : Mach} {t : Thread} {p : FxPlan} (e : hretPlan m t = .ok p) (hm : m.Canon) : p.Canon := by
  unfold hretPlan at e
  grind [=> Fx.active_canon, => Fx.header_canon, => toResumer_canon, FxPlan.canon_mk, FxPlan.Canon, fxOf_canon, dropMach_canon]

theorem dropPlan_canon {a : Nat} {m : Mach} {t : Thread} {p : FxPlan} (e : dropPlan a m t = .ok p) (hm : m.Canon) : p.Canon
    := by
  unfold dropPlan at e
  grind [=> Fx.find_canon, FxPlan.canon_mk, fxOf_canon, dropMach_canon]

theorem hstatPlan_canon {fl : HsSel} {d a : Nat} {m : Mach} {t : Thread} {p : FxPlan} (e : hstatPlan fl d a m t = .ok p)
    (hm : m.Canon) : p.Canon := by
  unfold hstatPlan at e
  grind [=> Fx.frame_canon, => Fx.find_canon, => Fx.header_canon, FxPlan.canon_mk_id, fxOf_canon]

/-! Machine/Factor.lean. -/

theorem factorIssue_canon {x : Fac} {opc : Nat} {op : Nat → Nat → TOp} {ok : Nat → Nat → Bool} {s : State} (hm : s.m.Canon) :
    (factorIssue x opc op ok s).m.Canon :=
  escWord_canon hm fun _ _ _ h => issueCmd_canon h

theorem beginCmd_canon {m : Mach} {c x} (hm : m.Canon) : (beginCmd m c x).Canon := by
  unfold beginCmd
  grind [updCmd_canon, Mach.updCore_canon]

theorem stepCmd_canon {m : Mach} {c x} (hm : m.Canon) : (stepCmd m c x).Canon := by
  unfold stepCmd
  grind [haltCmd_canon, Mach.updCore_canon]

/-! Machine/Link.lean. -/

theorem reply_canon {m : Mach} {p msg st sid body} (hm : m.Canon) : (reply m p msg st sid body).Canon :=
  Mach.updPart_canon hm

theorem onRequest_canon {s : State} {pid : Nat} {msg : TMsg} {mine : Nat → List Byte → Bool} {sess : Bool}
    {fits : List Byte → Bool} {f : Mach → Part → Nat → List Byte → TAns} (hm : s.m.Canon)
    (hf : ∀ m p sid b, m.Canon → (f m p sid b).m.Canon) : NextCanon (onRequest s pid msg mine sess fits f) := by
  refine nextCanon_onMach ?_
  grind [reply_canon, Mach.Canon]

theorem endSession_canon {m : Mach} {p x} (hm : m.Canon) : (endSession m p x).Canon :=
  Mach.updPart_canon hm

theorem endSessions_canon {m : Mach} {p} (hm : m.Canon) : (endSessions m p).Canon :=
  foldl_canon _ hm fun _ _ h => endSession_canon h

theorem handOver_canon {body : List Byte} {sid : Nat} {a : Mach × List Byte} {q : Queue} (hm : a.1.Canon) :
    (handOver body sid a q).1.Canon := by
  unfold handOver
  grind [Mach.updQueue_canon, quiesceQueue_canon]

theorem foldl_handOver_canon {body : List Byte} {sid : Nat} {a : Mach × List Byte} (l : List Queue) (hm : a.1.Canon) :
    (l.foldl (handOver body sid) a).1.Canon := by
  induction l generalizing a with
  | nil => exact hm
  | cons q l ih => exact ih (handOver_canon hm)

theorem freeQuar_canon {m : Mach} {p i} (hm : m.Canon) : (freeQuar m p i).Canon :=
  Mach.updPart_canon (publishBytes_canon hm)

theorem onDispose_canon {s : State} {part : Nat} {msg : TMsg} {action : Nat} {f : Mach → Part → Nat → Nat → Mach × List Byte}
    (hm : s.m.Canon) (hf : ∀ m p i n, m.Canon → (f m p i n).1.Canon) : NextCanon (onDispose s part msg action f) := by
  refine onRequest_canon hm fun m p sid b h => ?_
  grind

theorem replayQuar_canon {m : Mach} {p q} (hm : m.Canon) : (replayQuar m p q).Canon := by
  unfold replayQuar
  grind [foldl_canon, publishBytes_canon, Mach.updPart_canon]

theorem quarLines_canon {p ls} {m : Mach} (hm : m.Canon) : (quarLines p ls m).Canon :=
  foldl_canon _ hm fun _ _ h => Mach.updPart_canon (publishBytes_canon h)

theorem loseCtx_canon {m : Mach} {x n} (hm : m.Canon) : (loseCtx m x n).Canon :=
  postRec_canon (foldl_canon _ hm fun _ _ h => updBoth_canon h)

theorem dropHostWrs_canon {m : Mach} {p} (hm : m.Canon) : (dropHostWrs m p).Canon :=
  hm

theorem linkLoss_canon {m : Mach} {pid keep} (hm : m.Canon) : (linkLoss m pid keep).Canon := by
  unfold linkLoss
  grind [dropHostWrs_canon, Mach.updPart_canon, foldl_canon, quarLines_canon, loseCtx_canon, endSessions_canon]

theorem updPort_canon {m : Mach} {d i} {f : FPort → FPort} (hm : m.Canon) : (updPort m d i f).Canon :=
  Mach.updDie_canon hm

theorem noRoute_canon {m : Mach} {d} (hm : m.Canon) : (noRoute m d).Canon := by
  unfold noRoute
  grind [Mach.Canon]

/-! Machine/Migrate.lean. -/

theorem updHart_canon {m : Mach} {d h} {f : Hart → Hart} (hm : m.Canon) : (updHart m d h f).Canon :=
  Mach.updDie_canon hm

theorem hartGot_canon {m : Mach} {d h r} (hm : m.Canon) : (hartGot m d h r).Canon :=
  updHart_canon hm

theorem hartWrite_canon {m : Mach} {who own x bs} {m' : Mach} (e : hartWrite m who own x bs = some m') (hm : m.Canon) :
    m'.Canon := by
  unfold hartWrite at e
  grind [conflicts_canon, publishBytes_canon, dieMark_canon, replWrite_canon, wakeWatch_canon, homeWrite_canon, hostWrite_canon]

theorem hartStore_canon {m m' : Mach} {who : Who} {own : Nat × Nat} {k a : Nat} {bs : List Byte}
    (e : hartStore who own k m a bs = some m') (hm : m.Canon) : m'.Canon := by
  fun_induction hartStore who own k m a bs <;> grind [=> translate_canon, => hartWrite_canon]

theorem hartStores_canon {m m' : Mach} {who : Who} {own : Nat × Nat} {l : List (Nat × List Byte)}
    (e : hartStores who own m l = some m') (hm : m.Canon) : m'.Canon := by
  fun_induction hartStores who own m l <;> grind [=> hartStore_canon]

theorem departs_canon {m : Mach} {t} (hm : m.Canon) : (departs m t).Canon :=
  Mach.updDie_canon (updBoth_canon (putRecord_canon (relPush_canon hm)))

theorem leavesVisitor_canon {m : Mach} {die vis t img pc state} (hm : m.Canon) :
    (leavesVisitor m die vis t img pc state).Canon :=
  putPointer_canon (putRecord_canon (Mach.updDie_canon hm))

theorem goesHome_canon {m : Mach} {die vis t img pc park} (hm : m.Canon) : (goesHome m die vis t img pc park).Canon :=
  Mach.updDie_canon (leavesVisitor_canon hm)

theorem parksHome_canon {m : Mach} {die vis t img x} (hm : m.Canon) : (parksHome m die vis t img x).Canon :=
  goesHome_canon (updBoth_canon hm)

theorem visDeliver_canon {m : Mach} {die vis : Nat} {t : Thread} {img : Image} {x : Raise} {onDeep : Mach} (hm : m.Canon)
    (hd : onDeep.Canon) : (visDeliver m die vis t img x onDeep).Canon := by
  unfold visDeliver
  grind [=> deliverPlan_canon, => hartStores_canon, hartGot_canon, parksHome_canon, goesHome_canon, updBoth_canon, FxPlan.Canon]

theorem visRaises_canon {m : Mach} {die vis img pc exc} (hm : m.Canon) : (visRaises m die vis img pc exc).Canon := by
  unfold visRaises
  grind [visDeliver_canon, parksHome_canon]

theorem fenceCore_canon {m : Mach} {va asid c} (hm : m.Canon) : (fenceCore m va asid c).Canon := by
  unfold fenceCore
  grind [foldl_canon, pushLine_canon, Mach.updCore_canon]

theorem fenceCluster_canon {m : Mach} {cl} (hm : m.Canon) : (fenceCluster m cl).Canon := by
  unfold fenceCluster
  grind [Mach.setCluster_canon, foldl_canon, homePush_canon]

theorem fenceTlbs_canon {m : Mach} {va asid dies die hart} (hm : m.Canon) : (fenceTlbs m va asid dies die hart).Canon :=
  updHart_canon (foldl_canon _ hm fun _ _ h => Mach.updDie_canon h)

theorem hartGets_canon {m : Mach} {a r} (hm : m.Canon) : (hartGets m a r).Canon :=
  hartGot_canon hm

theorem hartFails_canon {m : Mach} {a writes e} (hm : m.Canon) : (hartFails m a writes e).Canon := by
  unfold hartFails
  grind [hartGets_canon, visRaises_canon]

theorem hartSkew_canon {m : Mach} {a writes} (hm : m.Canon) : (hartSkew m a writes).Canon := by
  unfold hartSkew
  grind [hartGets_canon, visRaises_canon]

theorem hartDo_canon {m : Mach} {a : HartAcc} {acc : Acc} {f : Mach → Xlat → Nat → Mach × HartRes × Option (List Byte)}
    (hm : m.Canon) (hf : ∀ m x n, m.Canon → (f m x n).1.Canon) : (hartDo m a acc f).Canon := by
  unfold hartDo
  grind [=> hartRead_canon, => hartWrite_canon, hartFails_canon, hartGets_canon]

theorem hartPut_canon {m : Mach} {a} {f : Mach → Mach} (hm : m.Canon) (hm1 : ∀ y0, y0.Canon → (f y0).Canon) :
    (hartPut m a f).Canon := by
  unfold hartPut
  grind [=> translate_canon, hartFails_canon, => hartWrite_canon, hartGets_canon]

theorem takeResv_canon {m : Mach} {a x} (hm : m.Canon) : (takeResv m a x).Canon :=
  updHart_canon hm

theorem hartSc_canon {m : Mach} {a} (hm : m.Canon) : (hartSc m a).Canon := by
  unfold hartSc
  grind [updHart_canon, => translate_canon, hartFails_canon, hartPut_canon, hartGets_canon, dieMark_canon]

theorem hartFetch_canon {m : Mach} {a} (hm : m.Canon) : (hartFetch m a).Canon := by
  unfold hartFetch
  grind [hartGets_canon, => translate_canon]

theorem enterWide_canon {m : Mach} {die hart w} (hm : m.Canon) : (enterWide m die hart w).Canon := by
  unfold enterWide
  grind [Mach.Canon, Mach.updQueue_canon, updHart_canon]

theorem landAgain_canon {m : Mach} {die hart img pc cid} (hm : m.Canon) : (landAgain m die hart img pc cid).Canon := by
  unfold landAgain
  grind [hartGot_canon, updHart_canon, enterWide_canon]

/-! Machine/Partition.lean. -/

theorem measure_canon {m : Mach} {i v} (hm : m.Canon) : (measure m i v).Canon :=
  hm

theorem measureTables_canon {m : Mach} (hm : m.Canon) : (measureTables m).Canon :=
  measure_canon (measure_canon hm)

theorem takeSpares_canon {m : Mach} {d} (hm : m.Canon) : (takeSpares m d).Canon := by
  unfold takeSpares
  grind [foldl_canon, Mach.updDie_canon, Mach.updCore_canon]

theorem releaseDie_canon {m : Mach} {d} (hm : m.Canon) : (releaseDie m d).Canon :=
  measure_canon (Mach.updDie_canon (takeSpares_canon hm))

theorem formParts_canon {m : Mach} (hm : m.Canon) : (formParts m).Canon := by
  unfold formParts
  grind [foldl_canon, releaseDie_canon, measure_canon, Mach.updDie_canon, Mach.Canon, measureTables_canon]

theorem booted_canon {m : Mach} : (booted m).Canon := by
  unfold Mach.Canon
  rw [(booted_law m).1]
  exact wf_nil

theorem bootPackage_canon {m : Mach} : (bootPackage m).Canon := by
  rw [bootPackage_eq]
  split
  · exact formParts_canon booted_canon
  · exact measureTables_canon ((booted_canon (m := m)).of_mem rfl)

theorem startDrain_canon {m : Mach} {pid} (hm : m.Canon) : (startDrain m pid).Canon := by
  unfold startDrain
  grind [Mach.updPart_canon, foldl_canon, destroyCtx_canon, endSessions_canon]

theorem scrub_canon {m : Mach} {p : Part} (hm : m.Canon) : (scrub m p).Canon := by
  unfold scrub
  exact wf_filter _ hm

theorem bootReply_canon {m : Mach} {b st body} (hm : m.Canon) : (bootReply m b st body).Canon :=
  hm

theorem recoverPiece_canon {m : Mach} {b cells} (hm : m.Canon) : (recoverPiece m b cells).Canon := by
  unfold recoverPiece
  grind [bootReply_canon, Mach.Canon, bootPackage_canon]

theorem dropDie_canon {m : Mach} {d} (hm : m.Canon) : (dropDie m d).Canon := by
  unfold dropDie
  grind [Mach.Canon, foldl_canon, endGroup_canon]

theorem transitLost_canon {m : Mach} {t pos} (hm : m.Canon) : (transitLost m t pos).Canon :=
  faultGroup_canon (postRec_canon hm)

theorem loseDie_canon {m : Mach} {d} (hm : m.Canon) : (loseDie m d).Canon := by
  unfold loseDie
  grind [Mach.updDie_canon, measure_canon, foldl_canon, Mach.updPart_canon, stopKernel_canon, dropDie_canon, squash_canon,
    linkLoss_canon, transitLost_canon, startDrain_canon]

theorem softPark_canon {m : Mach} {t} (hm : m.Canon) : (softPark m t).Canon := by
  unfold softPark
  grind [superFault_canon]

theorem softLine_canon {m : Mach} {ls pa} {put : Mach → List Line → Mach} (hm : m.Canon) (hm1 : ∀ y0 y1,
    y0.Canon → (put y0 y1).Canon) :
    (softLine m ls pa put).Canon := by
  unfold softLine
  grind [Mach.Canon, homePush_canon]

/-! Machine/Sched.lean. -/

theorem advance_canon {m : Mach} {t} (hm : m.Canon) : (advance m t).Canon :=
  hm

theorem endWord_canon {m : Mach} {rid len} (hm : m.Canon) : (endWord m rid len).Canon := by
  unfold endWord
  grind [Mach.Canon, Mach.updRun_canon]

theorem settle_canon {m : Mach} (hm : m.Canon) : (settle m).Canon := by
  unfold settle
  grind [Mach.Canon, foldl_canon, waitMeets_canon]

end Sys2Proof.Machine
end

section
/-!
PROOFS. The canonical form of memory: every instruction and event keeps it, and so does every step (log 2).
-/

namespace Sys2Proof.Machine

/-! Machine/Barrier.lean. -/

theorem execBar_canon {x} {s : State} (hm : s.m.Canon) : NextCanon (execBar x s) :=
  nextCanon_onMach (relWord_canon hm (escWord_canon hm (fun _ _ _ h => arrive_canon h (fun _ _ h1 => waitPast_canon h1))))

theorem execBarv_canon {x} {s : State} (hm : s.m.Canon) : NextCanon (execBarv x s) :=
  nextCanon_onMach (relWord_canon hm (escWord_canon hm (fun _ _ _ h => arrive_canon h (fun _ _ h1 => Mach.updThread_canon h1))))

theorem execBarst_canon {x} {s : State} (hm : s.m.Canon) : NextCanon (execBarst x s) := by
  refine nextCanon_onMach ?_
  grind [seqWord_canon, barOf_canon, Mach.updThread_canon]

/-! Machine/Memory.lean. -/

theorem execLd_canon {x} {s : State} (hm : s.m.Canon) : NextCanon (execLd x s) := by
  refine nextCanon_onMach ?_
  grind [seqWord_canon, byClass_canon, misalign_canon, => gRead_canon, memStop_canon, addLoad_canon, Mach.updThread_canon,
    acqDo_canon]

theorem execSt_canon {x} {s : State} (hm : s.m.Canon) : NextCanon (execSt x s) := by
  refine nextCanon_onMach ?_
  grind [relWord_canon, seqWord_canon, byClass_canon, misalign_canon, relThen_canon, => gWrite_canon, memStop_canon,
    => translate_canon, escape_canon]

theorem execLds_canon {x} {s : State} (hm : s.m.Canon) : NextCanon (execLds x s) := by
  refine nextCanon_onMach ?_
  grind [seqWord_canon, misalign_canon, padFault_canon, Mach.updThread_canon]

theorem execSts_canon {x} {s : State} (hm : s.m.Canon) : NextCanon (execSts x s) := by
  refine nextCanon_onMach ?_
  grind [seqWord_canon, misalign_canon, padFault_canon, escape_canon, padWrite_canon]

theorem execLdx_canon {x} {s : State} (hm : s.m.Canon) : NextCanon (execLdx x s) := by
  refine nextCanon_onMach ?_
  grind [seqWord_canon, misalign_canon, padStop_canon, padFault_canon, addLoad_canon]

theorem execStx_canon {x} {s : State} (hm : s.m.Canon) : NextCanon (execStx x s) := by
  refine nextCanon_onMach ?_
  grind [escWord_canon, misalign_canon, padStop_canon, padFault_canon, stallAt_canon, Mach.Canon, Mach.updThread_canon]

theorem execAtom_canon {x} {s : State} (hm : s.m.Canon) : NextCanon (execAtom x s) := by
  refine nextCanon_onMach ?_
  grind [seqWord_canon, byClass_canon, misalign_canon, => atomAt_canon, memStop_canon, stallAt_canon, addLoad_canon,
    Mach.updThread_canon]

theorem execRed_canon {x} {s : State} (hm : s.m.Canon) : NextCanon (execRed x s) := by
  refine nextCanon_onMach ?_
  grind [relWord_canon, seqWord_canon, byClass_canon, misalign_canon, relThen_canon, => translate_canon, memStop_canon,
    escape_canon, Mach.updCore_canon, => atomAt_canon, stallAt_canon, Mach.Canon]

theorem execAtoms_canon {x} {s : State} (hm : s.m.Canon) : NextCanon (execAtoms x s) := by
  refine nextCanon_onMach ?_
  grind [seqWord_canon, misalign_canon, padFault_canon, escape_canon, padWrite_canon, addLoad_canon, Mach.updThread_canon]

theorem execFence_canon {g kind sc} {s : State} (hm : s.m.Canon) : NextCanon (execFence g kind sc s) := by
  refine nextCanon_onMach ?_
  grind [relWord_canon, seqWord_canon, acqDo_canon, relPush_canon]

theorem execAcqr_canon {g a} {s : State} (hm : s.m.Canon) : NextCanon (execAcqr g a s) :=
  nextCanon_onMach (seqWord_canon hm (fun _ _ _ h => acqDo_canon (foldl_canon _ h fun _ _ h1 => dropClean_canon
    (pushAll_canon h1))))

theorem execWaita_canon {g global d a b} {s : State} (hm : s.m.Canon) : NextCanon (execWaita g global d a b s) := by
  refine nextCanon_onMach ?_
  grind [escWord_canon, acqDo_canon, Mach.updThread_canon, misalign_canon, padFault_canon, => translate_canon, memStop_canon,
    pushFor_canon]

theorem execPref_canon {g sc a off} {s : State} (hm : s.m.Canon) : NextCanon (execPref g sc a off s) := by
  refine nextCanon_onMach ?_
  grind [seqWord_canon, => translate_canon, foldl_canon, l1Sector_canon, l1Tag_canon, clusterSector_canon]

theorem execStxPerform_canon {id} {s : State} (hm : s.m.Canon) : NextCanon (execStxPerform id s) := by
  refine nextCanon_onMach ?_
  grind [padWriteOut_canon, Mach.Canon]

theorem execStxAck_canon {id} {s : State} (hm : s.m.Canon) : NextCanon (execStxAck id s) := by
  refine nextCanon_onMach ?_
  grind [Mach.Canon, Mach.updThread_canon]

theorem execWaitaWake_canon {gid tix} {s : State} (hm : s.m.Canon) : NextCanon (execWaitaWake gid tix s) := by
  refine nextCanon_onMach ?_
  grind [waitaDone_canon]

theorem execWaitaRepoll_canon {gid tix} {s : State} (hm : s.m.Canon) : NextCanon (execWaitaRepoll gid tix s) := by
  refine nextCanon_onMach ?_
  grind [waitaDone_canon]

theorem execEscapingReissue_canon {gid tix} {s : State} (hm : s.m.Canon) : NextCanon (execEscapingReissue gid tix s) := by
  refine nextCanon_onMach ?_
  grind [Mach.updThread_canon, addDue_canon]

theorem execReplicaPropagation_canon {id : Nat} {s : State} (hm : s.m.Canon) : NextCanon (execReplicaPropagation id s) := by
  refine nextCanon_onMach ?_
  grind [wakeWatch_canon, wf_cwrite, Mach.Canon]

theorem execDirtyEvict_canon {cache pa} {s : State} (hm : s.m.Canon) : NextCanon (execDirtyEvict cache pa s) := by
  refine nextCanon_onMach ?_
  grind [l1Out_canon, clusterOut_canon, holderOut_canon]

/-! Machine/Chunk.lean. -/

theorem execChunkClose_canon {core} {s : State} (hm : s.m.Canon) : NextCanon (execChunkClose core s) := by
  refine nextCanon_onMach ?_
  grind [closeChunk_canon]

theorem execChunkTimerExpire_canon {c : Nat} {s : State} (hm : s.m.Canon) : NextCanon (execChunkTimerExpire c s) := by
  refine nextCanon_onMach ?_
  split
  · exact addDue_canon hm
  · exact hm

theorem execSignatureParityError_canon {core committing} {s : State} (hm : s.m.Canon) :
    NextCanon (execSignatureParityError core committing s) := by
  refine nextCanon_onMach ?_
  grind [Mach.updCore_canon, addDue_canon]

theorem execTidemarkGrant_canon {core} {s : State} (hm : s.m.Canon) : NextCanon (execTidemarkGrant core s) := by
  refine nextCanon_onMach ?_
  grind [nextMark_canon, publishReds_canon, publishCells_canon, conflicts_canon, endCommit_canon, trimCk_canon,
    freeExited_canon]

theorem execRunCountLimit_canon {core} {s : State} (hm : s.m.Canon) : NextCanon (execRunCountLimit core s) := by
  refine nextCanon_onMach ?_
  grind [Mach.updPart_canon]

theorem execSoloGrant_canon {core} {s : State} (hm : s.m.Canon) : NextCanon (execSoloGrant core s) := by
  refine nextCanon_onMach ?_
  grind [Mach.updCore_canon]

/-! Machine/Copy.lean. -/

theorem execCpy_canon {g d a fl} {s : State} (hm : s.m.Canon) : NextCanon (execCpy g d a fl s) := by
  refine nextCanon_onMach ?_
  grind [escWord_canon, misalign_canon, padFault_canon, stallAt_canon, Mach.updGroup_canon, Mach.updThread_canon,
    Mach.updCore_canon]

theorem execCopyPiece_canon {core} {s : State} (hm : s.m.Canon) : NextCanon (execCopyPiece core s) := by
  refine nextCanon_onMach ?_
  grind [copyStart_canon, pieceDo_canon]

theorem execCopyComplete_canon {core} {s : State} (hm : s.m.Canon) : NextCanon (execCopyComplete core s) := by
  refine nextCanon_onMach ?_
  grind [freeTl_canon, Mach.updCore_canon, padWriteOut_canon]

/-! Machine/System.lean. -/

theorem execLaunch_canon {g d a b} {s : State} (hm : s.m.Canon) : NextCanon (execLaunch g d a b s) := by
  refine nextCanon_onMach ?_
  grind [relWord_canon, escWord_canon, misalign_canon, relPush_canon, => engineXlat_canon, memStop_canon, appendRec_canon,
    Mach.updThread_canon]

theorem execSvc_canon {g n} {s : State} (hm : s.m.Canon) : NextCanon (execSvc g n s) :=
  nextCanon_onMach (relWord_canon hm (escWord_canon hm (fun _ _ _ h => Mach.updThread_canon (postRec_canon (Mach.updCtx_canon
    (relPush_canon h))))))

theorem execSleep_canon {g absT a} {s : State} (hm : s.m.Canon) : NextCanon (execSleep g absT a s) := by
  refine nextCanon_onMach ?_
  grind [escWord_canon, Mach.updThread_canon]

theorem execSleepWake_canon {gid tix} {s : State} (hm : s.m.Canon) : NextCanon (execSleepWake gid tix s) := by
  refine nextCanon_onMach ?_
  grind [updBoth_canon]

/-! Machine/Int.lean. -/

theorem execMov_canon {x} {s : State} (hm : s.m.Canon) : NextCanon (execMov x s) := by
  refine nextCanon_onMach ?_
  grind [setD_canon, alu2_canon]

theorem execMovi_canon {g kind d imm} {s : State} (hm : s.m.Canon) : NextCanon (execMovi g kind d imm s) := by
  refine nextCanon_onMach ?_
  grind [vecWord_canon, putK_canon]

theorem execSmov_canon {g u d sreg} {s : State} (hm : s.m.Canon) : NextCanon (execSmov g u d sreg s) := by
  refine nextCanon_onMach ?_
  grind [setD_canon, setW_canon]

theorem execSwr_canon {g sreg a} {s : State} (hm : s.m.Canon) : NextCanon (execSwr g sreg a s) := by
  refine nextCanon_onMach ?_
  grind [seqWord_canon, misalign_canon, Mach.updThread_canon]

/-! Machine/Vector.lean. -/

theorem execFeval_canon {ft x} {s : State} (hm : s.m.Canon) : NextCanon (execFeval ft x s) := by
  refine nextCanon_onMach ?_
  grind [tableFault_canon, setF_canon]

theorem execFtld_canon {g ft a fl} {s : State} (hm : s.m.Canon) : NextCanon (execFtld g ft a fl s) := by
  refine nextCanon_onMach ?_
  grind [escWord_canon, misalign_canon, padFault_canon, Mach.updCore_canon]

theorem execNcvt_canon {x} {s : State} (hm : s.m.Canon) : NextCanon (execNcvt x s) := by
  refine nextCanon_onMach ?_
  grind [setFD_canon, setF_canon]

theorem execNunp_canon {x} {s : State} (hm : s.m.Canon) : NextCanon (execNunp x s) := by
  refine nextCanon_onMach ?_
  grind [tableFault_canon, setF_canon]

theorem execFtldFlip_canon {core ft} {s : State} (hm : s.m.Canon) : NextCanon (execFtldFlip core ft s) := by
  refine nextCanon_onMach ?_
  grind [Mach.Canon, Mach.updCore_canon]

/-! Machine/Tile.lean. -/

theorem execTld_canon {x} {s : State} (hm : s.m.Canon) : NextCanon (execTld x s) := by
  refine nextCanon_onMach ?_
  grind [escWord_canon, tlsCheck_canon, issueCmd_canon]

theorem execTst_canon {x} {s : State} (hm : s.m.Canon) : NextCanon (execTst x s) := by
  refine nextCanon_onMach ?_
  grind [escWord_canon, tlsCheck_canon, issueCmd_canon]

theorem execTmma_canon {g d a fl} {s : State} (hm : s.m.Canon) : NextCanon (execTmma g d a fl s) := by
  refine nextCanon_onMach ?_
  grind [escWord_canon, misalign_canon, padFault_canon, issueCmd_canon]

theorem execTcode_canon {g d a fl} {s : State} (hm : s.m.Canon) : NextCanon (execTcode g d a fl s) := by
  refine nextCanon_onMach ?_
  grind [escWord_canon, misalign_canon, padFault_canon, issueCmd_canon]

theorem execTwait_canon {g tile d a} {s : State} (hm : s.m.Canon) : NextCanon (execTwait g tile d a s) := by
  refine nextCanon_onMach ?_
  grind [escWord_canon, Mach.updThread_canon, Mach.updCore_canon]

theorem execTlwait_canon {g tile a} {s : State} (hm : s.m.Canon) : NextCanon (execTlwait g tile a s) := by
  refine nextCanon_onMach ?_
  grind [escWord_canon, Mach.updThread_canon, acqDo_canon, haltRaise_canon, parkWaiter_canon]

theorem execTileCommandComplete_canon {core gid n} {s : State} (hm : s.m.Canon) :
    NextCanon (execTileCommandComplete core gid n s) := by
  refine nextCanon_onMach ?_
  grind [finishFactor_canon, softHalt_canon, performCmd_canon]

theorem execTdaddArrival_canon {gid n peer} {s : State} (hm : s.m.Canon) : NextCanon (execTdaddArrival gid n peer s) := by
  refine nextCanon_onMach ?_
  grind [peerArrive_canon, daddArrive_canon]

theorem execTdaddAck_canon {gid n} {s : State} (hm : s.m.Canon) : NextCanon (execTdaddAck gid n s) := by
  refine nextCanon_onMach ?_
  grind [Mach.Canon, finishCmd_canon]

/-! Machine/Place.lean. -/

theorem execGroupPlace_canon {kid die core} {s : State} (hm : s.m.Canon) : NextCanon (execGroupPlace kid die core s) := by
  refine nextCanon_onMach ?_
  grind [skipSlice_canon, Mach.updKernel_canon, placeNext_canon, beginSave_canon]

theorem execGroupRestore_canon {gid core} {s : State} (hm : s.m.Canon) : NextCanon (execGroupRestore gid core s) := by
  refine nextCanon_onMach ?_
  grind [skipSlice_canon, ctxServes_canon, foldl_canon, restoreGroup_canon, Mach.updKernel_canon]

/-! Machine/Leave.lean. -/

theorem execStopRequest_canon {core} {s : State} (hm : s.m.Canon) : NextCanon (execStopRequest core s) := by
  refine nextCanon_onMach ?_
  grind [foldl_canon, chooseLeave_canon, Mach.updCore_canon]

theorem execDrainLimitExpire_canon {core} {s : State} (hm : s.m.Canon) : NextCanon (execDrainLimitExpire core s) := by
  refine nextCanon_onMach ?_
  grind [foldl_canon, beginSave_canon]

theorem execGroupSave_canon {gid} {s : State} (hm : s.m.Canon) : NextCanon (execGroupSave gid s) := by
  refine nextCanon_onMach ?_
  grind [foldl_canon, saveGroup_canon]

theorem execGroupExit_canon {gid} {s : State} (hm : s.m.Canon) : NextCanon (execGroupExit gid s) := by
  refine nextCanon_onMach ?_
  grind [endGroup_canon]

theorem execKernelClose_canon {kid : Nat} {s : State} (hm : s.m.Canon) : NextCanon (execKernelClose kid s) := by
  refine nextCanon_onMach ?_
  split
  · exact hm
  split
  · exact hm
  have := foldl_canon (s.m.groups.filter (fun g => g.kid == kid)) hm fun m g h => pushAll_canon (c := g.core) (far := true) h
  grind [endKernel_canon, => translate_canon, doneFault_canon, => writeDone_canon]

theorem execCoreGiveUp_canon {core} {s : State} (hm : s.m.Canon) : NextCanon (execCoreGiveUp core s) := by
  refine nextCanon_onMach ?_
  grind [pushAll_canon, Mach.updCore_canon, Mach.updDie_canon, postRec_canon, ctxAway_canon]

theorem execPreemptTrigger_canon {kid core} {s : State} (hm : s.m.Canon) : NextCanon (execPreemptTrigger kid core s) := by
  refine nextCanon_onMach ?_
  grind [Mach.updDie_canon, Mach.updCore_canon]

theorem execKernelSuspend_canon {kid} {s : State} (hm : s.m.Canon) : NextCanon (execKernelSuspend kid s) := by
  refine nextCanon_onMach ?_
  grind [beginSave_canon, Mach.updKernel_canon]

theorem execThermalMove_canon {gid} {s : State} (hm : s.m.Canon) : NextCanon (execThermalMove gid s) := by
  refine nextCanon_onMach ?_
  grind [beginSave_canon]

theorem execClockSettingChange_canon {die mhz} {s : State} (hm : s.m.Canon) : NextCanon (execClockSettingChange die mhz s) := by
  refine nextCanon_onMach ?_
  grind [Mach.updDie_canon]

theorem execSupplyDroop_canon {die on} {s : State} (hm : s.m.Canon) : NextCanon (execSupplyDroop die on s) := by
  refine nextCanon_onMach ?_
  grind [Mach.updDie_canon]

/-! Machine/Commands.lean. -/

theorem execFaultQueueConsume_canon {cid n} {s : State} (hm : s.m.Canon) : NextCanon (execFaultQueueConsume cid n s) := by
  refine nextCanon_onMach ?_
  grind [postHeld_canon, publishBytes_canon]

theorem execCommandRingProduce_canon {part cmds} {s : State} (hm : s.m.Canon) :
    NextCanon (execCommandRingProduce part cmds s) := by
  refine nextCanon_onMach ?_
  grind [publishBytes_canon, ringPut_canon]

theorem execCreateContext_canon {part} {s : State} (hm : s.m.Canon) : NextCanon (execCreateContext part s) := by
  refine ringDo_canon hm fun m p ops h => ?_
  grind [ringDo_canon, Answer.Canon, => newContext_canon]

theorem execDestroyContext_canon {part} {s : State} (hm : s.m.Canon) : NextCanon (execDestroyContext part s) := by
  refine ringDo_canon hm fun m p ops h => ?_
  grind [ringDo_canon, Answer.Canon, destroyCtx_canon]

theorem execStopMode_canon {part} {s : State} (hm : s.m.Canon) : NextCanon (execStopMode part s) := by
  refine ringDo_canon hm fun m p ops h => ?_
  grind [ringDo_canon, Answer.Canon, Mach.updCtx_canon]

theorem execResumeThreadContinue_canon {part} {s : State} (hm : s.m.Canon) : NextCanon (execResumeThreadContinue part s) := by
  refine ringDo_canon hm fun m p ops h => ?_
  grind [ringDo_canon, Answer.Canon, resumeGroup_canon, letGo_canon]

theorem execResumeThreadRetry_canon {part} {s : State} (hm : s.m.Canon) : NextCanon (execResumeThreadRetry part s) := by
  refine ringDo_canon hm fun m p ops h => ?_
  grind [ringDo_canon, Answer.Canon, letGo_canon, updCopyOf_canon]

theorem execResumeThreadAbandon_canon {part} {s : State} (hm : s.m.Canon) : NextCanon (execResumeThreadAbandon part s) := by
  refine ringDo_canon hm fun m p ops h => ?_
  grind [ringDo_canon, Answer.Canon, faultGroup_canon, dropCmd_canon, letGo_canon, updCopyOf_canon]

theorem execResumeThreadValue_canon {part} {s : State} (hm : s.m.Canon) : NextCanon (execResumeThreadValue part s) := by
  refine ringDo_canon hm fun m p ops h => ?_
  grind [ringDo_canon, Answer.Canon, putKBoth_canon, letGo_canon, resumeCmd_canon]

theorem execSaveGroup_canon {part} {s : State} (hm : s.m.Canon) : NextCanon (execSaveGroup part s) := by
  refine ringDo_canon hm fun m p ops h => ?_
  grind [ringDo_canon, Answer.Canon, Mach.updPart_canon, beginSave_canon]

theorem execServiceReply_canon {part} {s : State} (hm : s.m.Canon) : NextCanon (execServiceReply part s) := by
  refine ringDo_canon hm fun m p ops h => ?_
  grind [ringDo_canon, Answer.Canon, wakeKernel_canon, Mach.updCtx_canon, goOn_canon, acqDo_canon]

theorem execCreateQueue_canon {part} {s : State} (hm : s.m.Canon) : NextCanon (execCreateQueue part s) := by
  refine ringDo_canon hm fun m p ops h => ?_
  grind [ringDo_canon, Answer.Canon, => newQueue_canon]

theorem execQuiesce_canon {part} {s : State} (hm : s.m.Canon) : NextCanon (execQuiesce part s) := by
  refine ringDo_canon hm fun m p ops h => ?_
  grind [ringDo_canon, Answer.Canon, quiesceQueue_canon]

theorem execReopen_canon {part} {s : State} (hm : s.m.Canon) : NextCanon (execReopen part s) := by
  refine ringDo_canon hm fun m p ops h => ?_
  grind [ringDo_canon, Answer.Canon, Mach.updQueue_canon]

theorem execDestroyQueue_canon {part} {s : State} (hm : s.m.Canon) : NextCanon (execDestroyQueue part s) := by
  refine ringDo_canon hm fun m p ops h => ?_
  grind [ringDo_canon, Answer.Canon, quiesceQueue_canon, endEmpty_canon, Mach.updQueue_canon]

theorem execQueueStatus_canon {part} {s : State} (hm : s.m.Canon) : NextCanon (execQueueStatus part s) := by
  refine ringDo_canon hm fun m p ops h => ?_
  grind [ringDo_canon, Answer.Canon, publishBytes_canon]

theorem execHoldTimeExpire_canon {qid} {s : State} (hm : s.m.Canon) : NextCanon (execHoldTimeExpire qid s) := by
  refine nextCanon_onMach ?_
  grind [quiesceQueue_canon]

theorem execAdmitAdd_canon {part} {s : State} (hm : s.m.Canon) : NextCanon (execAdmitAdd part s) := by
  refine ringDo_canon hm fun m p ops h => ?_
  grind [ringDo_canon, Answer.Canon, Mach.updPart_canon]

theorem execAdmitRemove_canon {part} {s : State} (hm : s.m.Canon) : NextCanon (execAdmitRemove part s) := by
  refine ringDo_canon hm fun m p ops h => ?_
  grind [ringDo_canon, Answer.Canon, Mach.updPart_canon]

theorem execBind_canon {part} {s : State} (hm : s.m.Canon) : NextCanon (execBind part s) := by
  refine ringDo_canon hm fun m p ops h => ?_
  grind [ringDo_canon, Answer.Canon, Mach.updPart_canon]

theorem execUnbind_canon {part} {s : State} (hm : s.m.Canon) : NextCanon (execUnbind part s) := by
  refine ringDo_canon hm fun m p ops h => ?_
  grind [ringDo_canon, Answer.Canon, Mach.updPart_canon]

theorem execSetPackageNumber_canon {part} {s : State} (hm : s.m.Canon) : NextCanon (execSetPackageNumber part s) := by
  refine ringDo_canon hm fun m p ops h => ?_
  grind [ringDo_canon, Answer.Canon, Mach.Canon]

/-! Machine/Control.lean. -/

theorem execRjwait_canon {g j} {s : State} (hm : s.m.Canon) : NextCanon (execRjwait g j s) := by
  refine nextCanon_onMach ?_
  grind [seqWord_canon, Mach.updGroup_canon, Mach.updThread_canon, rejoinRelease_canon]

theorem execExit_canon {g} {s : State} (hm : s.m.Canon) : NextCanon (execExit g s) := by
  refine nextCanon_onMach ?_
  grind [seqWord_canon, addDue_canon, parkThread_canon, Mach.updThread_canon, haltRaise_canon, rejoinCheck_canon]

theorem execClauseIssue_canon {core gid tixs} {s : State} (hm : s.m.Canon) : NextCanon (execClauseIssue core gid tixs s) := by
  refine nextCanon_onMach ?_
  grind [=> fetchClause_canon, foldl_canon, superFault_canon, raiseEff_canon, issueClause_canon]

theorem execRejoinCycleDetect_canon {gid : Nat} {tixs : List Nat} {s : State} (hm : s.m.Canon) :
    NextCanon (execRejoinCycleDetect gid tixs s) := by
  refine nextCanon_onMach ?_
  split
  · exact hm
  dsimp only
  split
  · exact hm
  · refine foldl_canon _ (foldl_canon _ hm fun m t h => ?_) fun m t h => ?_
    · split
      · exact Mach.updGroup_canon h
      · exact h
    · split
      · exact raiseEff_canon h
      · exact h

/-! Machine/Effects.lean. -/

theorem execHandle_canon {g id d off entry} {s : State} (hm : s.m.Canon) : NextCanon (execHandle g id d off entry s) := by
  refine nextCanon_onMach ?_
  grind [fxWord_canon, => handlePlan_canon]

theorem execEndh_canon {g} {s : State} (hm : s.m.Canon) : NextCanon (execEndh g s) := by
  refine nextCanon_onMach ?_
  grind [fxWord_canon, => endhPlan_canon]

theorem execPerform_canon {g multi id} {s : State} (hm : s.m.Canon) : NextCanon (execPerform g multi id s) := by
  refine nextCanon_onMach ?_
  grind [fxWord_canon, => performPlan_canon]

theorem execResume_canon {g a} {s : State} (hm : s.m.Canon) : NextCanon (execResume g a s) := by
  refine nextCanon_onMach ?_
  grind [fxWord_canon, => resumePlan_canon]

theorem execDrop_canon {g a} {s : State} (hm : s.m.Canon) : NextCanon (execDrop g a s) := by
  refine nextCanon_onMach ?_
  grind [fxWord_canon, => dropPlan_canon]

theorem execHret_canon {g} {s : State} (hm : s.m.Canon) : NextCanon (execHret g s) := by
  refine nextCanon_onMach ?_
  grind [fxWord_canon, => hretPlan_canon]

theorem execHstat_canon {g fl d a} {s : State} (hm : s.m.Canon) : NextCanon (execHstat g fl d a s) := by
  refine nextCanon_onMach ?_
  grind [fxWord_canon, => hstatPlan_canon]

theorem execBuiltinEffectDelivery_canon {gid tix} {s : State} (hm : s.m.Canon) :
    NextCanon (execBuiltinEffectDelivery gid tix s) := by
  refine nextCanon_onMach ?_
  grind [deliver_canon]

/-! Machine/Factor.lean. -/

theorem execFactorisationStep_canon {core gid n} {s : State} (hm : s.m.Canon) :
    NextCanon (execFactorisationStep core gid n s) := by
  refine nextCanon_onMach ?_
  grind [finishCmd_canon, softHalt_canon, stepCmd_canon, beginCmd_canon]

/-! Machine/Link.lean. -/

theorem execTretharAttach_canon {part : Nat} {msg : TMsg} {s : State} (hm : s.m.Canon) : NextCanon (execTretharAttach part
    msg s) := by
  refine onRequest_canon hm fun m p sid b h => ?_
  grind [foldl_canon, endSession_canon, Mach.updPart_canon, foldl_handOver_canon]

theorem execTretharCreateContext_canon {part msg} {s : State} (hm : s.m.Canon) :
    NextCanon (execTretharCreateContext part msg s) := by
  refine onRequest_canon hm fun m p sid b h => ?_
  grind [onRequest_canon, => newContext_canon, publishBytes_canon]

theorem execTretharCreateQueue_canon {part msg} {s : State} (hm : s.m.Canon) :
    NextCanon (execTretharCreateQueue part msg s) := by
  refine onRequest_canon hm fun m p sid b h => ?_
  grind [onRequest_canon, => newQueue_canon]

theorem execSubmit_canon {part msg} {s : State} (hm : s.m.Canon) : NextCanon (execSubmit part msg s) := by
  refine onRequest_canon hm fun m p sid b h => ?_
  grind [onRequest_canon, appendRec_canon]

theorem execReadStatus_canon {part msg} {s : State} (hm : s.m.Canon) : NextCanon (execReadStatus part msg s) := by
  refine onRequest_canon hm fun m p sid b h => ?_
  grind [onRequest_canon]

theorem execDetach_canon {part msg} {s : State} (hm : s.m.Canon) : NextCanon (execDetach part msg s) := by
  refine onRequest_canon hm fun m p sid b h => ?_
  grind [onRequest_canon, endSession_canon]

theorem execDisposeDiscard_canon {part msg} {s : State} (hm : s.m.Canon) : NextCanon (execDisposeDiscard part msg s) := by
  refine onDispose_canon hm fun m p i k h => ?_
  grind [onDispose_canon, foldl_canon, freeQuar_canon]

theorem execDisposeReplay_canon {part msg} {s : State} (hm : s.m.Canon) : NextCanon (execDisposeReplay part msg s) := by
  refine onDispose_canon hm fun m p i k h => ?_
  grind [onDispose_canon, foldl_canon, replayQuar_canon]

theorem execDisposeReplayAck_canon {part idx} {s : State} (hm : s.m.Canon) : NextCanon (execDisposeReplayAck part idx s) := by
  refine nextCanon_onMach ?_
  grind [freeQuar_canon]

theorem execDisposeRead_canon {part msg} {s : State} (hm : s.m.Canon) : NextCanon (execDisposeRead part msg s) := by
  refine onDispose_canon hm fun m p i k h => ?_
  grind [onDispose_canon]

theorem execHostLinkUp_canon {part port area} {s : State} (hm : s.m.Canon) : NextCanon (execHostLinkUp part port area s) := by
  refine nextCanon_onMach ?_
  grind [Mach.updPart_canon]

theorem execHostSnoop_canon {part : Nat} {kind : Snoop} {pa : Nat} {bytes : List Byte} {s : State} (hm : s.m.Canon) :
    NextCanon (execHostSnoop part kind pa bytes s) := by
  refine nextCanon_onMach ?_
  grind [wakeWatch_canon, wf_cwrite, wf_cwriteMask, Mach.Canon, Mach.updPart_mem]

theorem execPortFail_canon {port} {s : State} (hm : s.m.Canon) : NextCanon (execPortFail port s) := by
  refine nextCanon_onMach ?_
  grind [Mach.Canon, postRec_canon]

theorem execLaneFail_canon {die port} {s : State} (hm : s.m.Canon) : NextCanon (execLaneFail die port s) := by
  refine nextCanon_onMach ?_
  grind [noRoute_canon, updPort_canon]

theorem execFabricPortDown_canon {die port} {s : State} (hm : s.m.Canon) : NextCanon (execFabricPortDown die port s) := by
  refine nextCanon_onMach ?_
  grind [noRoute_canon, updPort_canon]

theorem execFabricRequestArrive_canon {pkg pa n op wr val} {s : State} (hm : s.m.Canon) :
    NextCanon (execFabricRequestArrive pkg pa n op wr val s) := by
  refine nextCanon_onMach ?_
  grind [Mach.Canon, wakeWatch_canon, homeWrite_canon]

/-! Machine/Migrate.lean. -/

theorem execMigrateOut_canon {gid tix} {s : State} (hm : s.m.Canon) : NextCanon (execMigrateOut gid tix s) := by
  refine nextCanon_onMach ?_
  grind [=> translate_canon, rejoinCheck_canon, Mach.updThread_canon, addDue_canon, departs_canon]

theorem execVisitorTake_canon {die vis} {s : State} (hm : s.m.Canon) : NextCanon (execVisitorTake die vis s) := by
  refine nextCanon_onMach ?_
  grind [Mach.updDie_canon, updHart_canon, putPointer_canon, putRecState_canon]

theorem execVisitorDisplace_canon {die vis img pc} {s : State} (hm : s.m.Canon) :
    NextCanon (execVisitorDisplace die vis img pc s) := by
  refine nextCanon_onMach ?_
  grind [Mach.updDie_canon, leavesVisitor_canon]

theorem execVisitorLandUbhus_canon {die vis img pc} {s : State} (hm : s.m.Canon) :
    NextCanon (execVisitorLandUbhus die vis img pc s) := by
  refine nextCanon_onMach ?_
  grind [hartGot_canon, => translate_canon, goesHome_canon]

theorem execReturnHome_canon {gid tix} {s : State} (hm : s.m.Canon) : NextCanon (execReturnHome gid tix s) := by
  refine nextCanon_onMach ?_
  grind [putRecState_canon, addDue_canon, Mach.updDie_canon, updBoth_canon, acqDo_canon, parkEffect_canon, Mach.updThread_canon]

theorem execSfenceVma_canon {die hart va asid} {s : State} (hm : s.m.Canon) : NextCanon (execSfenceVma die hart va asid s) := by
  refine nextCanon_onMach ?_
  grind [foldl_canon, addDue_canon, fenceCluster_canon, fenceCore_canon, fenceTlbs_canon]

theorem execHeadlandAccess_canon {acc} {s : State} (hm : s.m.Canon) : NextCanon (execHeadlandAccess acc s) := by
  refine nextCanon_onMach ?_
  grind [hartGets_canon, hartSkew_canon, hartDo_canon, hartPut_canon, takeResv_canon, hartSc_canon, hartFetch_canon]

theorem execWwidthWrite_canon {die hart v} {s : State} (hm : s.m.Canon) : NextCanon (execWwidthWrite die hart v s) := by
  refine nextCanon_onMach ?_
  grind [updHart_canon]

theorem execWstackWrite_canon {die hart v} {s : State} (hm : s.m.Canon) : NextCanon (execWstackWrite die hart v s) := by
  refine nextCanon_onMach ?_
  grind [updHart_canon]

theorem execWidenedCallLanding_canon {die hart img pc cid} {s : State} (hm : s.m.Canon) :
    NextCanon (execWidenedCallLanding die hart img pc cid s) := by
  refine nextCanon_onMach ?_
  grind [hartGot_canon, => translate_canon, landAgain_canon, enterWide_canon, updHart_canon]

theorem execWidenedCallReturn_canon {die hart} {s : State} (hm : s.m.Canon) : NextCanon (execWidenedCallReturn die hart s) := by
  refine nextCanon_onMach ?_
  grind [Mach.Canon, updHart_canon]

/-! Machine/Partition.lean. -/

theorem execPartitionHeld_canon {part} {s : State} (hm : s.m.Canon) : NextCanon (execPartitionHeld part s) := by
  refine nextCanon_onMach ?_
  grind [linkLoss_canon, Mach.updPart_canon, foldl_canon, Mach.updDie_canon]

theorem execScrubComplete_canon {part} {s : State} (hm : s.m.Canon) : NextCanon (execScrubComplete part s) := by
  refine nextCanon_onMach ?_
  grind [formParts_canon, scrub_canon]

theorem execPartitionResetRequest_canon {part} {s : State} (hm : s.m.Canon) : NextCanon (execPartitionResetRequest part s) := by
  refine nextCanon_onMach ?_
  grind [startDrain_canon]

theorem execSetPartitionTable_canon {table} {s : State} (hm : s.m.Canon) : NextCanon (execSetPartitionTable table s) := by
  refine nextCanon_onMach ?_
  grind [Mach.Canon, formParts_canon, foldl_canon, startDrain_canon]

theorem execSetRegionTable_canon {die entries} {s : State} (hm : s.m.Canon) : NextCanon (execSetRegionTable die entries s) := by
  refine nextCanon_onMach ?_
  grind [measureTables_canon, Mach.updDie_canon]

theorem execWriteFirmwareImage_canon {img} {s : State} (hm : s.m.Canon) : NextCanon (execWriteFirmwareImage img s) := by
  refine nextCanon_onMach ?_
  grind [Mach.Canon]

theorem execRecoveryWrite_canon {part msg} {s : State} (hm : s.m.Canon) : NextCanon (execRecoveryWrite part msg s) := by
  refine nextCanon_onMach ?_
  grind [recoverPiece_canon, reply_canon]

theorem execFatalDieError_canon {die} {s : State} (hm : s.m.Canon) : NextCanon (execFatalDieError die s) := by
  refine nextCanon_onMach ?_
  grind [loseDie_canon]

theorem execThermalTrip_canon {die} {s : State} (hm : s.m.Canon) : NextCanon (execThermalTrip die s) := by
  refine nextCanon_onMach ?_
  grind [loseDie_canon]

theorem execArbiterTakeover_canon {die skip} {s : State} (hm : s.m.Canon) : NextCanon (execArbiterTakeover die skip s) := by
  refine nextCanon_onMach ?_
  grind [loseDie_canon, Mach.updDie_canon, Mach.updPart_canon]

theorem execDeviceMarkFailed_canon {die dev} {s : State} (hm : s.m.Canon) : NextCanon (execDeviceMarkFailed die dev s) := by
  refine nextCanon_onMach ?_
  grind [Mach.updDie_canon]

theorem execCoreFence_canon {core lost} {s : State} (hm : s.m.Canon) : NextCanon (execCoreFence core lost s) := by
  refine nextCanon_onMach ?_
  grind [Mach.updCore_canon, foldl_canon, faultGroup_canon, beginSave_canon]

theorem execSoftError_canon {at_ correctable} {s : State} (hm : s.m.Canon) : NextCanon (execSoftError at_ correctable s) := by
  refine nextCanon_onMach ?_
  grind [Mach.Canon, softPark_canon, foldl_canon, squash_canon, softLine_canon, Mach.updCore_canon, Mach.setCluster_canon,
    Mach.updPart_canon, Mach.updDie_canon, dropClean_canon, loseDie_canon]

/-- Every instruction and event keeps the form. -/
theorem exec_canon {s : State} (hm : s.m.Canon) (i : Instr) : NextCanon (exec i s) := by
  cases i with
  | nop => exact nextCanon_next hm
  | add => exact nextCanon_onMach (alu3_canon hm)
  | sub => exact nextCanon_onMach (alu3_canon hm)
  | mul => exact nextCanon_onMach (alu3_canon hm)
  | mulh => exact nextCanon_onMach (alu3_canon hm)
  | mulhu => exact nextCanon_onMach (alu3_canon hm)
  | mad => exact nextCanon_onMach (setW_canon hm)
  | div => exact nextCanon_onMach (alu3_canon hm)
  | divu => exact nextCanon_onMach (alu3_canon hm)
  | rem => exact nextCanon_onMach (alu3_canon hm)
  | remu => exact nextCanon_onMach (alu3_canon hm)
  | and => exact nextCanon_onMach (alu3_canon hm)
  | or => exact nextCanon_onMach (alu3_canon hm)
  | xor => exact nextCanon_onMach (alu3_canon hm)
  | andn => exact nextCanon_onMach (alu3_canon hm)
  | shl => exact nextCanon_onMach (alu3_canon hm)
  | shr => exact nextCanon_onMach (alu3_canon hm)
  | sra => exact nextCanon_onMach (alu3_canon hm)
  | rol => exact nextCanon_onMach (alu3_canon hm)
  | shladd => exact nextCanon_onMach (alu3_canon hm)
  | min => exact nextCanon_onMach (alu3_canon hm)
  | max => exact nextCanon_onMach (alu3_canon hm)
  | minu => exact nextCanon_onMach (alu3_canon hm)
  | maxu => exact nextCanon_onMach (alu3_canon hm)
  | abs => exact nextCanon_onMach (alu2_canon hm)
  | clz => exact nextCanon_onMach (alu2_canon hm)
  | popc => exact nextCanon_onMach (alu2_canon hm)
  | brev => exact nextCanon_onMach (alu2_canon hm)
  | bfx => exact nextCanon_onMach (bitField_canon hm)
  | bfxu => exact nextCanon_onMach (bitField_canon hm)
  | bfi => exact nextCanon_onMach (bitField_canon hm)
  | sel => exact nextCanon_onMach (setW_canon hm)
  | cmp => exact nextCanon_onMach (setP_canon hm)
  | set => exact nextCanon_onMach (alu3_canon hm)
  | mov => exact execMov_canon hm
  | movi => exact execMovi_canon hm
  | movx => exact nextCanon_onMach (vecWord_canon hm)
  | pand => exact nextCanon_onMach (predOp_canon hm)
  | por => exact nextCanon_onMach (predOp_canon hm)
  | pxor => exact nextCanon_onMach (predOp_canon hm)
  | smov => exact execSmov_canon hm
  | swr => exact execSwr_canon hm
  | rand => exact nextCanon_onMach (vecWord_canon hm)
  | widf => exact nextCanon_onMach (setW_canon hm)
  | addPaired => exact nextCanon_onMach (paired_canon hm)
  | subPaired => exact nextCanon_onMach (paired_canon hm)
  | andPaired => exact nextCanon_onMach (paired_canon hm)
  | orPaired => exact nextCanon_onMach (paired_canon hm)
  | xorPaired => exact nextCanon_onMach (paired_canon hm)
  | shlPaired => exact nextCanon_onMach (paired_canon hm)
  | shrPaired => exact nextCanon_onMach (paired_canon hm)
  | movPaired => exact nextCanon_onMach (paired_canon hm)
  | minPaired => exact nextCanon_onMach (paired_canon hm)
  | maxPaired => exact nextCanon_onMach (paired_canon hm)
  | faddPaired => exact nextCanon_onMach (paired_canon hm)
  | fmulPaired => exact nextCanon_onMach (paired_canon hm)
  | fminPaired => exact nextCanon_onMach (paired_canon hm)
  | fmaxPaired => exact nextCanon_onMach (paired_canon hm)
  | hadd2Paired => exact nextCanon_onMach (paired_canon hm)
  | hmul2Paired => exact nextCanon_onMach (paired_canon hm)
  | shfl => exact nextCanon_onMach (crossWord_canon hm)
  | vote => exact nextCanon_onMach (crossWord_canon hm)
  | redux => exact nextCanon_onMach (crossWord_canon hm)
  | matchL => exact nextCanon_onMach (crossWord_canon hm)
  | elect => exact nextCanon_onMach (crossWord_canon hm)
  | lsync => exact nextCanon_onMach (crossWord_canon hm)
  | bra => exact nextCanon_onMach (seqWord_canon hm (fun _ _ _ h => Mach.updThread_canon h))
  | jmp => exact nextCanon_onMach (seqWord_canon hm (fun _ _ _ h => jumpTo_canon h))
  | call => exact nextCanon_onMach (seqWord_canon hm (fun _ _ _ h => Mach.updThread_canon h))
  | callr => exact nextCanon_onMach (seqWord_canon hm (fun _ _ _ h => jumpTo_canon h))
  | ret => exact nextCanon_onMach (seqWord_canon hm (fun _ _ _ h => jumpTo_canon h))
  | rjarm => exact nextCanon_onMach (seqWord_canon hm (fun _ _ _ h => Mach.updGroup_canon h))
  | rjwait => exact execRjwait_canon hm
  | exit => exact execExit_canon hm
  | brk => exact nextCanon_onMach (seqWord_canon hm (fun _ _ _ h => raiseEff_canon h))
  | yield => exact nextCanon_onMach (vecWord_canon hm)
  | fadd => exact nextCanon_onMach (setF_canon hm)
  | fsub => exact nextCanon_onMach (fp3_canon hm)
  | fmul => exact nextCanon_onMach (setF_canon hm)
  | ffma => exact nextCanon_onMach (setF_canon hm)
  | fmin => exact nextCanon_onMach (fp3_canon hm)
  | fmax => exact nextCanon_onMach (fp3_canon hm)
  | fcmp => exact nextCanon_onMach (setFP_canon hm)
  | fclass => exact nextCanon_onMach (alu2_canon hm)
  | frnd => exact nextCanon_onMach (setF_canon hm)
  | fcvt => exact nextCanon_onMach (setWide_canon hm)
  | icvt => exact nextCanon_onMach (setWide_canon hm)
  | fcvti => exact nextCanon_onMach (setF_canon hm)
  | hadd2 => exact nextCanon_onMach (halves_canon hm)
  | hmul2 => exact nextCanon_onMach (halves_canon hm)
  | hfma2 => exact nextCanon_onMach (halves_canon hm)
  | hmin2 => exact nextCanon_onMach (halves_canon hm)
  | hmax2 => exact nextCanon_onMach (halves_canon hm)
  | rcp => exact nextCanon_onMach (fp1_canon hm)
  | rsq => exact nextCanon_onMach (fp1_canon hm)
  | sqrt => exact nextCanon_onMach (fp1_canon hm)
  | exp2 => exact nextCanon_onMach (fp1_canon hm)
  | log2 => exact nextCanon_onMach (fp1_canon hm)
  | fdiv => exact nextCanon_onMach (fp3_canon hm)
  | feval => exact execFeval_canon hm
  | ftld => exact execFtld_canon hm
  | dot4 => exact nextCanon_onMach (dotWord_canon hm)
  | dot8 => exact nextCanon_onMach (dotWord_canon hm)
  | ncvt => exact execNcvt_canon hm
  | nunp => exact execNunp_canon hm
  | ld => exact execLd_canon hm
  | st => exact execSt_canon hm
  | lds => exact execLds_canon hm
  | sts => exact execSts_canon hm
  | ldx => exact execLdx_canon hm
  | stx => exact execStx_canon hm
  | atom => exact execAtom_canon hm
  | red => exact execRed_canon hm
  | atoms => exact execAtoms_canon hm
  | fence => exact execFence_canon hm
  | acqr => exact execAcqr_canon hm
  | waita => exact execWaita_canon hm
  | cpy => exact execCpy_canon hm
  | tlwait => exact execTlwait_canon hm
  | tlread => exact nextCanon_onMach (seqWord_canon hm (fun _ _ _ h => Mach.updThread_canon h))
  | pref => exact execPref_canon hm
  | chend => exact nextCanon_onMach (seqWord_canon hm (fun _ _ _ h => addDue_canon (Mach.updThread_canon h)))
  | chstat => exact nextCanon_onMach (seqWord_canon hm (fun _ _ _ h => Mach.updThread_canon h))
  | bar => exact execBar_canon hm
  | barv => exact execBarv_canon hm
  | barw => exact nextCanon_onMach (escWord_canon hm (fun _ _ _ h => waitPast_canon h))
  | barst => exact execBarst_canon hm
  | tzero => exact nextCanon_onMach (escWord_canon hm (fun _ _ _ h => issueCmd_canon h))
  | tld => exact execTld_canon hm
  | tst => exact execTst_canon hm
  | tmma => exact execTmma_canon hm
  | tdadd => exact nextCanon_onMach (escWord_canon hm (fun _ _ _ h => issueCmd_canon h))
  | twait => exact execTwait_canon hm
  | tcode => exact execTcode_canon hm
  | tlu => exact nextCanon_next (factorIssue_canon hm)
  | tchol => exact nextCanon_next (factorIssue_canon hm)
  | tqr => exact nextCanon_next (factorIssue_canon hm)
  | ttrsm => exact nextCanon_next (factorIssue_canon hm)
  | pvap => exact nextCanon_onMach (escWord_canon hm (fun _ _ _ h => issueCmd_canon h))
  | tstat => exact nextCanon_onMach (seqWord_canon hm (fun _ _ _ h => Mach.updThread_canon h))
  | handle => exact execHandle_canon hm
  | endh => exact execEndh_canon hm
  | perform => exact execPerform_canon hm
  | resume => exact execResume_canon hm
  | drop => exact execDrop_canon hm
  | hret => exact execHret_canon hm
  | hstat => exact execHstat_canon hm
  | svc => exact execSvc_canon hm
  | launch => exact execLaunch_canon hm
  | sleep => exact execSleep_canon hm
  | clauseIssue => exact execClauseIssue_canon hm
  | ftldFlip => exact execFtldFlip_canon hm
  | loadDataArrive => exact nextCanon_onMach (updBoth_canon hm)
  | stxPerform => exact execStxPerform_canon hm
  | stxAck => exact execStxAck_canon hm
  | waitaWake => exact execWaitaWake_canon hm
  | waitaRepoll => exact execWaitaRepoll_canon hm
  | copyPiece => exact execCopyPiece_canon hm
  | copyComplete => exact execCopyComplete_canon hm
  | escapingReissue => exact execEscapingReissue_canon hm
  | brokenStopTimeout => exact nextCanon_onMach (Mach.updThread_canon hm)
  | tdaddArrival => exact execTdaddArrival_canon hm
  | tdaddAck => exact execTdaddAck_canon hm
  | tileCommandComplete => exact execTileCommandComplete_canon hm
  | factorisationStep => exact execFactorisationStep_canon hm
  | builtinEffectDelivery => exact execBuiltinEffectDelivery_canon hm
  | sleepWake => exact execSleepWake_canon hm
  | chunkClose => exact execChunkClose_canon hm
  | chunkTimerExpire => exact execChunkTimerExpire_canon hm
  | signatureParityError => exact execSignatureParityError_canon hm
  | tidemarkGrant => exact execTidemarkGrant_canon hm
  | runCountLimit => exact execRunCountLimit_canon hm
  | soloGrant => exact execSoloGrant_canon hm
  | rejoinCycleDetect => exact execRejoinCycleDetect_canon hm
  | ageingThreshold => exact nextCanon_onMach (Mach.updThread_canon hm)
  | groupPlace => exact execGroupPlace_canon hm
  | groupExit => exact execGroupExit_canon hm
  | kernelClose => exact execKernelClose_canon hm
  | stopRequest => exact execStopRequest_canon hm
  | drainLimitExpire => exact execDrainLimitExpire_canon hm
  | groupSave => exact execGroupSave_canon hm
  | groupRestore => exact execGroupRestore_canon hm
  | coreGiveUp => exact execCoreGiveUp_canon hm
  | preemptTrigger => exact execPreemptTrigger_canon hm
  | kernelSuspend => exact execKernelSuspend_canon hm
  | thermalMove => exact execThermalMove_canon hm
  | thermalTrip => exact execThermalTrip_canon hm
  | clockSettingChange => exact execClockSettingChange_canon hm
  | supplyDroop => exact execSupplyDroop_canon hm
  | faultQueueConsume => exact execFaultQueueConsume_canon hm
  | commandRingProduce => exact execCommandRingProduce_canon hm
  | createContext => exact execCreateContext_canon hm
  | destroyContext => exact execDestroyContext_canon hm
  | stopMode => exact execStopMode_canon hm
  | resumeThreadContinue => exact execResumeThreadContinue_canon hm
  | resumeThreadRetry => exact execResumeThreadRetry_canon hm
  | resumeThreadAbandon => exact execResumeThreadAbandon_canon hm
  | resumeThreadValue => exact execResumeThreadValue_canon hm
  | saveGroup => exact execSaveGroup_canon hm
  | serviceReply => exact execServiceReply_canon hm
  | createQueue => exact execCreateQueue_canon hm
  | quiesce => exact execQuiesce_canon hm
  | reopen => exact execReopen_canon hm
  | destroyQueue => exact execDestroyQueue_canon hm
  | queueStatus => exact execQueueStatus_canon hm
  | admitAdd => exact execAdmitAdd_canon hm
  | admitRemove => exact execAdmitRemove_canon hm
  | bind => exact execBind_canon hm
  | unbind => exact execUnbind_canon hm
  | setPackageNumber => exact execSetPackageNumber_canon hm
  | migrateOut => exact execMigrateOut_canon hm
  | visitorTake => exact execVisitorTake_canon hm
  | visitorDisplace => exact execVisitorDisplace_canon hm
  | visitorLandUbhus => exact execVisitorLandUbhus_canon hm
  | returnHome => exact execReturnHome_canon hm
  | visitorException => exact nextCanon_onMach (visRaises_canon hm)
  | sfenceVma => exact execSfenceVma_canon hm
  | wwidthWrite => exact execWwidthWrite_canon hm
  | wstackWrite => exact execWstackWrite_canon hm
  | widenedCallLanding => exact execWidenedCallLanding_canon hm
  | widenedCallReturn => exact execWidenedCallReturn_canon hm
  | tretharAttach part msg =>
    show NextCanon (execTretharAttach part msg s)
    exact execTretharAttach_canon hm
  | tretharCreateContext => exact execTretharCreateContext_canon hm
  | tretharCreateQueue => exact execTretharCreateQueue_canon hm
  | submit => exact execSubmit_canon hm
  | readStatus => exact execReadStatus_canon hm
  | detach => exact execDetach_canon hm
  | disposeDiscard => exact execDisposeDiscard_canon hm
  | disposeReplay => exact execDisposeReplay_canon hm
  | disposeRead => exact execDisposeRead_canon hm
  | recoveryWrite => exact execRecoveryWrite_canon hm
  | disposeReplayAck => exact execDisposeReplayAck_canon hm
  | holdTimeExpire => exact execHoldTimeExpire_canon hm
  | hostLinkUp => exact execHostLinkUp_canon hm
  | hostLinkLoss => exact nextCanon_onMach (linkLoss_canon hm)
  | hostSnoop => exact execHostSnoop_canon hm
  | goWritepull => exact nextCanon_onMach (Mach.updPart_canon hm)
  | portFail => exact execPortFail_canon hm
  | flitCrcError => exact nextCanon_onMach (hm)
  | laneFail => exact execLaneFail_canon hm
  | fabricPortDown => exact execFabricPortDown_canon hm
  | fabricRequestArrive => exact execFabricRequestArrive_canon hm
  | setPartitionTable => exact execSetPartitionTable_canon hm
  | setRegionTable => exact execSetRegionTable_canon hm
  | writeFirmwareImage => exact execWriteFirmwareImage_canon hm
  | spdmRequest => exact nextCanon_onMach (hm)
  | packageReset => exact nextCanon_onMach bootPackage_canon
  | partitionHeld => exact execPartitionHeld_canon hm
  | scrubComplete => exact execScrubComplete_canon hm
  | fatalDieError => exact execFatalDieError_canon hm
  | deviceMarkFailed => exact execDeviceMarkFailed_canon hm
  | patrolScrub => exact nextCanon_onMach (hm)
  | coreFence => exact execCoreFence_canon hm
  | arbiterTakeover => exact execArbiterTakeover_canon hm
  | softError => exact execSoftError_canon hm
  | dirtyEvict => exact execDirtyEvict_canon hm
  | replicaPropagation => exact execReplicaPropagation_canon hm
  | writeAcknowledgement => exact nextCanon_onMach (hm)
  | headlandAccess => exact execHeadlandAccess_canon hm
  | kernelCancel => exact nextCanon_onMach (stopKernel_canon hm)
  | partitionResetRequest => exact execPartitionResetRequest_canon hm

theorem after_canon {o : Host.Outcome State Fault Refusal} {f : Mach → Mach} (ho : NextCanon o)
    (hf : ∀ m, m.Canon → (f m).Canon) : NextCanon (after o f) := by
  cases o with
  | next s => exact nextCanon_onMach (hf _ (ho s rfl))
  | fault r => nofun
  | refused r => nofun

theorem stepWord_canon {s : State} {r : Running} (hm : s.m.Canon) : NextCanon (stepWord s r) := by
  unfold stepWord
  split
  · nofun
  split
  · exact nextCanon_next hm
  · refine after_canon (exec_canon ?_ _) fun _ h => settle_canon (endWord_canon h)
    exact hm.of_mem rfl

theorem step_canon {s : State} (hm : s.m.Canon) : NextCanon (step s) := by
  unfold step
  split
  · exact nextCanon_next hm
  next t rest _ =>
  have hm' : (State.mk rest (advance s.m t)).m.Canon := advance_canon hm
  dsimp only
  split
  · exact after_canon (exec_canon hm' _) fun _ h => settle_canon h
  split
  · exact nextCanon_next hm'
  · exact stepWord_canon hm'

/-- Settles O6: what a turn does is time passing, one word or event, and what settles after it, and each keeps the form. -/
theorem memoryCanonical : Obligations.MemoryCanonical := by
  unfold Obligations.MemoryCanonical
  exact fun s s' hm h => step_canon hm s' h

end Sys2Proof.Machine
end

section
/-!
PROOFS. The Zynrak die and recovery (R397, R399 to R402, R404).
-/

namespace Sys2Proof.Machine

theorem setPartitionTable_eq (s : State) (t : List (Nat × List Nat)) : exec (.setPartitionTable t) s = .next ⟨s.agenda,
    if (!tableOk t) = true ∨ s.m.zyn.recovery.isSome = true then s.m
    else formParts ((s.m.parts.filter (fun p => !t.contains (p.pid, p.dies))).foldl (fun m p => startDrain m p.pid)
      { s.m with zyn := { s.m.zyn with table := t } })⟩ :=
  rfl

theorem setRegionTable_eq (s : State) (d : Nat) (l : List (Nat × Nat)) : exec (.setRegionTable d l) s = .next ⟨s.agenda,
    if 4 ≤ d ∨ (!(s.m.die d).held) = true ∨ (!regionsOk l) = true ∨ s.m.zyn.recovery.isSome = true then s.m
    else measureTables (s.m.updDie d (fun d => { d with regions := l }))⟩ :=
  rfl

theorem writeFirmwareImage_eq (s : State) (img : List Byte) : exec (.writeFirmwareImage img) s = .next ⟨s.agenda,
    if imageGood img && s.m.zyn.recovery.isNone then { s.m with zyn := { s.m.zyn with flash := img } } else s.m⟩ :=
  rfl

theorem imageGood_iff (img : List Byte) : imageGood img = true ↔
    Config.signed img = true ∧ Config.minVersion ≤ Config.version img ∧ img.length ≤ Config.flashArea := by
  simp [imageGood, and_assoc]

section
variable {s : State} {part : Nat} {p : Part} (hp : s.m.part? part = some p)
include hp

theorem partitionResetRequest_eq : exec (.partitionResetRequest part) s = .next ⟨s.agenda,
    if p.live then startDrain s.m part else s.m⟩ := by
  rw [ev_next (fun _ => rfl), hp]

theorem startDrain_live (hl : p.live = true) : startDrain s.m part =
    (p.sessions.foldl (fun m x => endSession m p x)) (((s.m.updPart part (fun p => { p with stat := .draining })).ctxs.filter
      (fun x => x.part == part && x.stat != .gone && x.stat != .ending)).foldl destroyCtx
        (s.m.updPart part (fun p => { p with stat := .draining }))) := by
  unfold startDrain
  rw [hp]
  have h : p.stat = .running ∨ p.stat = .degraded := by simpa [Part.live] using hl
  rcases h with h | h <;> simp only [h] <;> rfl

theorem partitionHeld_stays (hs : p.stat ≠ .draining) : exec (.partitionHeld part) s = .next s := by
  rw [ev_next (fun _ => rfl), hp]
  dsimp only
  rw [if_pos (.inl hs)]

theorem partitionHeld_scrubs (hs : p.stat = .draining)
    (hk : ∀ k ∈ s.m.kernels, k.stat ≠ .ended → ∀ x, s.m.ctx? k.cid = some x → x.part ≠ part) :
    exec (.partitionHeld part) s = .next ⟨s.agenda, (p.dies.foldl (fun m d => m.updDie d (fun x => { x with held := true }))
      (linkLoss s.m part false)).updPart part (fun p => { p with stat := .scrubbing })⟩ := by
  rw [ev_next (fun _ => rfl), hp]
  dsimp only
  rw [if_neg]
  rintro (h | h)
  · exact h hs
  · obtain ⟨k, hm, h⟩ := List.any_eq_true.1 h
    cases hx : s.m.ctx? k.cid with
    | none => simp [hx] at h
    | some x =>
      simp only [hx, Bool.and_eq_true, beq_iff_eq, bne_iff_ne] at h
      exact hk k hm h.2 x hx h.1

theorem scrubComplete_eq : exec (.scrubComplete part) s = .next ⟨s.agenda,
    if p.stat = .scrubbing then formParts (scrub s.m p) else s.m⟩ := by
  rw [ev_next (fun _ => rfl), hp]

end

theorem recoveryWrite_piece {s : State} {part : Nat} {msg : TMsg} {b : List Byte} {cells : List Host.Cell}
    (hv : msg.vendor = Config.vendorId) (hb : b = msg.payload) (h16 : 16 ≤ b.length) (h1024 : b.length ≤ 1024)
    (hver : fieldAt b 0 1 = 1) (hkind : fieldAt b 1 1 = 0) (hop : fieldAt b 2 1 = 8) (hr : s.m.zyn.recovery = some cells) :
    exec (.recoveryWrite part msg) s = .next ⟨s.agenda, recoverPiece s.m b cells⟩ := by
  subst hb
  rw [ev_next (fun _ => rfl), if_neg (by simp [hv, hver, hkind, hop]; omega), hr]

theorem recoverPiece_ill {m : Mach} {b : List Byte} {cells : List Host.Cell} (h : fieldAt b 8 4 ≠ (b.drop 16).length ∨
    (b.drop 16).length ≠ 8 + fieldAt (b.drop 16) 4 4 ∨ fieldAt (b.drop 16) 4 4 % 4 ≠ 0 ∨ fieldAt (b.drop 16) 4 4 < 4 ∨
    1000 < fieldAt (b.drop 16) 4 4 ∨ fieldAt (b.drop 16) 0 4 % 2 ^ 31 % 4 ≠ 0) : recoverPiece m b cells = bootReply m b 1 [] := by
  unfold recoverPiece
  exact if_pos h

/-- What a piece that keeps its limits leaves: the bytes held so far, and the end of the image where it is known. -/
def heldPiece (m : Mach) (b : List Byte) (held : List Host.Cell) (end_ : Option Nat) : Mach :=
  match end_ with
  | none => bootReply { m with zyn := { m.zyn with recovery := some held } } b 0 (natBytes 4 held.length ++ natBytes 4 0)
  | some e =>
    if !pieceWhole held e then
      bootReply { m with zyn := { m.zyn with recovery := some held, recEnd := some e } } b 0
        (natBytes 4 held.length ++ natBytes 4 0)
    else if imageGood (cread held 0 e) then
      bootPackage (bootReply { m with zyn := { m.zyn with flash := cread held 0 e } } b 0
        (natBytes 4 held.length ++ natBytes 4 1))
    else bootReply { m with zyn := { m.zyn with recovery := some [], recEnd := none } } b 0
      (natBytes 4 held.length ++ natBytes 4 2)

section
variable {m : Mach} {b : List Byte} {cells : List Host.Cell} {off len : Nat}
  (hl : fieldAt b 8 4 = (b.drop 16).length) (hlen : (b.drop 16).length = 8 + fieldAt (b.drop 16) 4 4)
  (h4 : fieldAt (b.drop 16) 4 4 % 4 = 0) (hlo : 4 ≤ fieldAt (b.drop 16) 4 4) (hhi : fieldAt (b.drop 16) 4 4 ≤ 1000)
  (hoff : fieldAt (b.drop 16) 0 4 % 2 ^ 31 % 4 = 0) (hsid : fieldAt b 4 2 = 0)
include hl hlen h4 hlo hhi hoff hsid

theorem recoverPiece_past (h : Config.flashArea < fieldAt (b.drop 16) 0 4 % 2 ^ 31 + fieldAt (b.drop 16) 4 4) :
    recoverPiece m b cells = bootReply m b 1 [] := by
  unfold recoverPiece
  simp only [bodyWord, Nat.mul_zero, Nat.mul_one]
  rw [if_neg (by omega), if_neg (by omega), if_pos h]

/-- A piece that keeps its limits is held, and the image is checked once it is whole. -/
theorem recoverPiece_held (h : fieldAt (b.drop 16) 0 4 % 2 ^ 31 + fieldAt (b.drop 16) 4 4 ≤ Config.flashArea) :
    recoverPiece m b cells = heldPiece m b (specPut cells (fieldAt (b.drop 16) 0 4 % 2 ^ 31) ((b.drop 16).drop 8))
      (if 2 ^ 31 ≤ fieldAt (b.drop 16) 0 4 then some (fieldAt (b.drop 16) 0 4 % 2 ^ 31 + fieldAt (b.drop 16) 4 4)
        else m.zyn.recEnd) := by
  unfold recoverPiece
  simp only [bodyWord, Nat.mul_zero, Nat.mul_one]
  rw [if_neg (by omega), if_neg (by omega), if_neg (by omega)]
  rfl

end

theorem heldPiece_waits {m : Mach} {b : List Byte} {held : List Host.Cell} {end_ : Option Nat}
    (hw : ∀ e, end_ = some e → held.countP (fun c => decide (c.1 < e)) ≠ e) (hr : end_ = none → m.zyn.recEnd = none) :
    heldPiece m b held end_ = bootReply { m with zyn := { m.zyn with recovery := some held, recEnd := end_ } } b 0
      (natBytes 4 held.length ++ natBytes 4 0) := by
  cases end_ with
  | none => simp [heldPiece, hr rfl]
  | some e => exact if_pos (by simp [pieceWhole, hw e rfl])

theorem heldPiece_whole {m : Mach} {b : List Byte} {held : List Host.Cell} {e : Nat}
    (hw : held.countP (fun c => decide (c.1 < e)) = e) : heldPiece m b held (some e) =
      if imageGood (cread held 0 e) then bootPackage (bootReply { m with zyn := { m.zyn with flash := cread held 0 e } } b 0
        (natBytes 4 held.length ++ natBytes 4 1))
      else bootReply { m with zyn := { m.zyn with recovery := some [], recEnd := none } } b 0
        (natBytes 4 held.length ++ natBytes 4 2) :=
  if_neg (by simp [pieceWhole, hw])

theorem recoveryWrite_runs {s : State} {p : Part} {msg : TMsg} {sid : Nat} {b : List Byte} (h : Asks s.m p msg 8 sid b) :
    exec (.recoveryWrite p.pid msg) s = replied s p msg s.m 3 sid [] := by
  obtain ⟨hv, h16, h1024, hver, hkind, hop, hsid, -, hr, hp, hlive, hup⟩ := h
  rw [ev_next (fun _ => rfl), if_neg (by simp [hv, hver, hkind, hop]; omega), hr, hp]
  dsimp only
  rw [if_pos ⟨hlive, hup⟩, hsid]
  rfl

/-- No group of the partition's contexts is left. -/
theorem scrub_groups {m : Mach} {p : Part} {g : Group} {k : Kernel} {x : Ctx} (hg : g ∈ (scrub m p).groups) (hk : k ∈ m.kernels)
    (hkg : k.kid = g.kid) (hx : x ∈ m.ctxs) (hxk : x.cid = k.cid) : x.part ≠ p.pid := by
  intro hxp
  have hg : g.kid ∉ (m.kernels.filter (fun k => ((m.ctxs.filter (fun x => x.part == p.pid)).map (fun x => x.cid)).contains k.cid)).map
      (fun k => k.kid) := by
    simpa [scrub] using (List.mem_filter.1 hg).2
  refine hg (List.mem_map.2 ⟨k, List.mem_filter.2 ⟨hk, ?_⟩, hkg⟩)
  simpa using ⟨x, ⟨hx, hxp⟩, hxk⟩

/-- Settles O58: the requests by what refuses each, a reset by what the boot ROM leaves (`boot_law`), a drained partition by its
state, recovery by the limits of a piece and what is then held. -/
theorem zynrakRequests : Obligations.ZynrakRequests := by
  unfold Obligations.ZynrakRequests
  refine ⟨table_iff, fun s t => ⟨fun h => ?_, fun h hr => ?_⟩, regions_iff, fun s d l => ⟨fun h => ?_, fun hd hh hl hr => ?_⟩,
    fun m => rfl, fun s img hr good hg => ⟨fun h => ?_, fun h => ?_⟩, fun _ _ => rfl, fun s m' ht he => ?_, fun s => ⟨_, rfl⟩,
    fun s part p hp => ⟨fun hl => ?_, fun hl => ?_, fun hs hk => ?_, fun hs => ?_, fun hs => ?_, fun hs => ?_⟩,
    scrub_mem, fun m p => ⟨?groups, fun x => ?ctx, fun q => ?queue, fun c hc => ?core⟩, ?piece, fun s p msg sid b h => ?runs⟩
  · rw [setPartitionTable_eq, if_pos (by simp [h])]
  · rw [setPartitionTable_eq, if_neg (by simp [h, hr])]
  · rw [setRegionTable_eq, if_pos (by rcases h with h | h | h <;> simp [h])]
  · rw [setRegionTable_eq, if_neg (by simp [hh, hl, hr]; omega)]
  · rw [writeFirmwareImage_eq, (imageGood_iff img).2 (hg ▸ h), hr]
    rfl
  · rw [writeFirmwareImage_eq, Bool.eq_false_iff.2 fun h' => h (hg ▸ (imageGood_iff img).1 h')]
    rfl
  · cases he
    obtain ⟨h1, h2, h3, h4, h5, h6, h7, h8, h9, h10, h11, hbad, hgood⟩ := boot_law s.m _ rfl ht
    refine ⟨h1, h2, h3, h4, h5, h6, h7, h8, h9, h10, h11, hbad, fun hi => ?_⟩
    obtain ⟨hrec, hparts, hform⟩ := hgood hi
    exact ⟨hrec, hparts, fun e he good hg d hd => hg ▸ hform e he d hd⟩
  · rw [partitionResetRequest_eq hp, if_pos hl, startDrain_live hp hl]
  · rw [partitionResetRequest_eq hp, hl]
    rfl
  · exact partitionHeld_scrubs hp hs hk
  · exact partitionHeld_stays hp hs
  · rw [scrubComplete_eq hp, if_pos hs]
  · rw [scrubComplete_eq hp, if_neg hs]
  case groups => exact fun g hg k hk hkg x hx hxk => scrub_groups hg hk hkg hx hxk
  case ctx => simp [scrub]
  case queue => simp [scrub]
  case core =>
    exact congrArg (·.getD {}) (lget_filterMap_core m.cores (fun _ => true) (fun c => p.dies.contains (c / 64)) c (by simpa using hc))
  case piece =>
    rintro s part sid off len last cells msg b body hv hb h16 h1024 hver hkind hop hr rfl rfl rfl hlast
    simp only [recoveryWrite_piece hv hb h16 h1024 hver hkind hop hr]
    refine ⟨fun h => ?_, fun hl hlen h4 hlo hhi hoff hsid => ⟨fun h => ?_, ?_⟩⟩
    · rw [recoverPiece_ill h]
    · rw [recoverPiece_past hl hlen h4 hlo hhi hoff hsid h]
    · rintro h held rfl end_ rfl
      have hend : (if last = true then some (fieldAt (b.drop 16) 0 4 % 2 ^ 31 + fieldAt (b.drop 16) 4 4) else s.m.zyn.recEnd) =
          if 2 ^ 31 ≤ fieldAt (b.drop 16) 0 4 then some (fieldAt (b.drop 16) 0 4 % 2 ^ 31 + fieldAt (b.drop 16) 4 4)
          else s.m.zyn.recEnd := if_congr hlast rfl rfl
      rw [hend, recoverPiece_held hl hlen h4 hlo hhi hoff hsid h]
      refine ⟨fun hw => ⟨_, rfl, ?_⟩, fun e img he hw himg => ⟨fun hi => ?_, fun hi => ?_⟩⟩
      · rw [heldPiece_waits hw (by split <;> simp)]
      · rw [he, heldPiece_whole hw, ← himg, if_pos hi]
      · rw [he, heldPiece_whole hw, ← himg, hi]
        rfl
  case runs => exact recoveryWrite_runs h

end Sys2Proof.Machine
end

section
/-!
PROOFS. O37 MemoryEvents: replicas, acknowledgements and evictions.
-/

namespace Sys2Proof.Machine

/-! R266: a replicated store reaches its copy when it is the first of its thread at its bytes. -/

/-- A thread whose poll waits on a written address is among the threads with its value landed. -/
theorem wakeWatch_wakes {m : Mach} {t : Thread} (ht : t ∈ m.threads) {pa n ea wp : Nat} {v : Word} {d : Nat} {p : Pos}
    (hs : t.stat = .waiting (.addr true ea wp v d false p)) (h1 : pa < wp + 4) (h2 : wp < pa + n) :
    { t with stat := .waiting (.addr true ea wp v d true p) } ∈ (wakeWatch m pa n).threads := by
  refine List.mem_map.2 ⟨t, ht, ?_⟩
  simp only [hs, h1, h2, decide_true, Bool.and_self, if_true]

/-! R388: what a push to a cluster cache leaves in the line it meets. -/

theorem cluster_setCluster (m : Mach) (cl : Nat) (l : List Line) : (m.setCluster cl l).cluster cl = l := by
  simp [Mach.cluster, Mach.setCluster]

theorem Line.has_iff (l : Line) (pa : Nat) : l.has pa = true ↔ l.pa ≤ pa ∧ pa < l.pa + l.size := by simp [Line.has]

/-- A line that stands keeps its tag in the cache, so no tag goes out for a sector of the same 512 bytes. -/
theorem outTag_of_mem {ls : List Line} {c : Line} (hc : c ∈ ls) {n pa : Nat} (h : c.pa / 512 = pa / 512) :
    outTag ls n pa = none := by
  have hm : pa / 512 ∈ tagsOf ls := by
    simp only [tagsOf, List.mem_eraseDups, List.mem_map]
    exact ⟨c, hc, h⟩
  simp [outTag, hm]

/-- A sector of the same 512 bytes comes in without moving the line that stands at an address. -/
theorem clusterSector_keeps {m : Mach} {cl pa b : Nat} {c : Line} (h : lineAt (m.cluster cl) pa = some c)
    (hc : c.pa = pa) (hb : b % 32 = 0) (hpa : pa % 32 = 0) (ht : b / 512 = pa / 512)
    (grain cls : Nat) (w : Bool) : lineAt ((clusterSector m cl grain cls w b).cluster cl) pa = some c := by
  unfold clusterSector
  split
  · exact h
  next hn =>
    have hout : outTag (m.cluster cl) Config.clusterTags b = none :=
      outTag_of_mem (List.mem_of_find?_eq_some h) (by rw [hc, ht])
    have hne : b ≠ pa := fun hbp => hn (by rw [hbp, h]; rfl)
    have hmiss : (homeSector m b cls grain w).has pa = false := by
      rw [Bool.eq_false_iff, ne_eq, Line.has_iff]
      simp only [homeSector]
      omega
    simp only [clusterRoom, hout, cluster_setCluster]
    rw [lineAt, List.find?_cons_of_neg (by simp [hmiss])]
    exact h

theorem sectorsOf_near {pa grain b : Nat} (hg : grain ∈ [32, 128, 512]) (hb : b ∈ sectorsOf pa grain) :
    b % 32 = 0 ∧ b / 512 = pa / 512 := by
  obtain ⟨i, hi, rfl⟩ := List.mem_map.1 hb
  have hi := List.mem_range.1 hi
  simp only [List.mem_cons, List.not_mem_nil, or_false] at hg
  rcases hg with rfl | rfl | rfl <;> omega

theorem clusterSectors_keep {cl pa : Nat} {c : Line} (hc : c.pa = pa) (hpa : pa % 32 = 0)
    (grain cls : Nat) (w : Bool) (bs : List Nat) (hbs : ∀ b ∈ bs, b % 32 = 0 ∧ b / 512 = pa / 512) :
    ∀ m : Mach, lineAt (m.cluster cl) pa = some c →
      lineAt ((bs.foldl (fun m b => clusterSector m cl grain cls w b) m).cluster cl) pa = some c := by
  induction bs with
  | nil => exact fun m h => h
  | cons b bs ih =>
    intro m h
    obtain ⟨hb, ht⟩ := hbs b (by simp)
    exact ih (fun x hx => hbs x (by simp [hx])) _ (clusterSector_keeps h hc hb hpa ht grain cls w)

/-- The line that a push meets is the line that stood there. -/
theorem clusterLine_of_hit {m : Mach} {cl : Nat} {l c : Line} (h : lineAt (m.cluster cl) l.pa = some c) (hc : c.pa = l.pa)
    (hg : l.grain ∈ [32, 128, 512]) (hpa : l.pa % 32 = 0) :
    (clusterLine m cl l.pa l.grain l.cls l.world).2 = c := by
  have := clusterSectors_keep hc hpa l.grain l.cls l.world _ (fun b hb => sectorsOf_near hg hb) m h
  simp only [clusterLine, this, Option.getD_some]

theorem lineAt_setLine {ls : List Line} {l : Line} {pa : Nat} (h : l.has pa = true) : lineAt (setLine ls l) pa = some l := by
  simp [lineAt, setLine, h]

theorem pushToCluster_merges {m : Mach} {cl : Nat} {l c : Line} (h : lineAt (m.cluster cl) l.pa = some c) (hc : c.pa = l.pa)
    (hd : l.clean = false) (hg : l.grain ∈ [32, 128, 512]) (hpa : l.pa % 32 = 0) (hsz : c.size = 32) :
    lineAt ((pushToCluster m cl l).cluster cl) l.pa = some { c with
      data := (mergeMask c.data c.dirty l.data l.dirty).1, dirty := (mergeMask c.data c.dirty l.data l.dirty).2 } := by
  simp only [pushToCluster, hd, Bool.false_eq_true, if_false, cluster_setCluster, clusterLine_of_hit h hc hg hpa]
  refine lineAt_setLine ?_
  rw [Line.has_iff]
  simp only [hc, hsz]
  omega

/-- Settles O37. The first clause is the guard of R266 said through the first of a filter; the last follows the line
that stands in the cluster cache through the fill of the sectors around it. -/
theorem memoryEvents : Obligations.MemoryEvents := by
  unfold Obligations.MemoryEvents
  refine ⟨?_, fun _ _ => rfl, ?_, ?_, ?_, ?_⟩
  case refine_1 =>
    intro s id x early hx he
    rw [he, List.head?_filter, ev_next (fun _ => rfl), hx]
    refine ⟨fun hne => ?_, fun hfirst => ?_⟩
    · simp only [bne_iff_ne, ne_eq, hne, not_false_iff, if_true]
    · simp only [hfirst, bne_self_eq_false, Bool.false_eq_true, if_false]
      exact ⟨_, rfl, rfl, fun i hi => cget_cwrite_inside _ _ _ _ hi, fun a ha => cget_cwrite_outside _ _ _ _ ha,
        fun t ht ea wp v d p hs h1 h2 => wakeWatch_wakes ht hs h1 h2⟩
  case refine_2 =>
    intro s c pa l h
    rw [ev_next (fun _ => rfl)]
    simp only [h, Option.isSome_some, if_true]
    rfl
  case refine_3 =>
    intro s cl pa l h
    rw [ev_next (fun _ => rfl)]
    simp only [h, Option.isSome_some, if_true, clusterOut, cluster_homePushes]
  case refine_4 =>
    intro s p pa q l hq h
    rw [ev_next (fun _ => rfl)]
    simp only [hq, h]
    rfl
  case refine_5 =>
    intro m cl l c h hc hd hg hpa hsz hls hcd hcm hld hlm
    refine ⟨_, pushToCluster_merges h hc hd hg hpa hsz, rfl, fun i hi => ?_⟩
    exact mergeMask_get c.data c.dirty l.data l.dirty (by omega) (by omega) (by omega) i (by omega)

end Sys2Proof.Machine
end

section
/-!
PROOFS. O52 TransitImage: the register image and the transit record.
-/

namespace Sys2Proof.Machine

/-! R358 and R359: the common register image and the transit record. -/

theorem rdD_zero (t : Thread) : t.rdD 0 = 0 := by
  simp only [Thread.rdD, Thread.rd, rget_low _ (Nat.zero_lt_two), rget_low _ (Nat.one_lt_two)]
  decide

/-- The image holds the x register of every pair, `x0` by reading 0 on both sides. -/
theorem xreg_imageOf (t : Thread) (n i : Nat) (hi : i < 32) :
    xreg (imageOf t n) i = (if 2 * i + 1 < n then t.rdD (2 * i) else 0) := by
  have h := side_get t n 0 i hi
  rw [Nat.zero_add] at h
  by_cases h0 : i = 0
  · subst h0
    simp [xreg, rdD_zero]
  · simp only [xreg, h0, if_false]
    exact h

/-- Settles O52, from the layout of the record and the law of the image. -/
theorem transitImage : Obligations.TransitImage := by
  unfold Obligations.TransitImage
  refine ⟨?_, fun t u n => image_regs t u n, ?_, fun _ _ => rfl⟩
  case refine_1 =>
    intro t n i hi
    exact ⟨xreg_imageOf t n i hi, side_get t n 64 i hi, rfl, rfl⟩
  case refine_2 =>
    intro m t g pc st x c b h1 h2 h3 h4 hb k1 k2 k3 k4 k5 k6 k7
    exact record_layout m t g pc st x c b h1 h2 h3 h4 hb k1 k2 k3 k4 k5 k6 k7

end Sys2Proof.Machine
end

section
/-!
PROOFS. O56 TretharRequests: the requests of Trethar messages.
-/

namespace Sys2Proof.Machine

/-! R384 to R386: every request of a session runs through one front door; its arm says only what it does inside. -/

/-- The test of the body that a request of a session makes. -/
def bodyFits : Nat → List Byte → Bool
  | 2, b => b.length == 48
  | 3, b => b.length == 12
  | 4, b => b.length == 200 && bodyWord b 1 == 0
  | 5, b => b.length == 4
  | _, b => b.isEmpty

theorem bodyFits_iff (op : Nat) (b : List Byte) : bodyFits op b = true ↔ BodyFits op b := by
  unfold bodyFits BodyFits
  split <;> simp

/-- Each request of a session enters by `onRequest` with its own opcode and its own test of the body. -/
theorem requestOf_enters {op : Nat} (hop : op ∈ [2, 3, 4, 5, 6]) (part : Nat) (msg : TMsg) (s : State) :
    ∃ f, exec (requestOf op part msg) s = onRequest s part msg (opcodeIs op) true (bodyFits op) f := by
  simp only [List.mem_cons, List.not_mem_nil, or_false] at hop
  rcases hop with rfl | rfl | rfl | rfl | rfl
  · exact ⟨_, (show _ = execTretharCreateContext part msg s from rfl).trans (by unfold execTretharCreateContext; rfl)⟩
  · exact ⟨_, (show _ = execTretharCreateQueue part msg s from rfl).trans (by unfold execTretharCreateQueue; rfl)⟩
  · exact ⟨_, (show _ = execSubmit part msg s from rfl).trans (by unfold execSubmit; rfl)⟩
  · exact ⟨_, (show _ = execReadStatus part msg s from rfl).trans (by unfold execReadStatus; rfl)⟩
  · exact ⟨_, (show _ = execDetach part msg s from rfl).trans (by unfold execDetach; rfl)⟩

theorem opcodeIs_self (op : Nat) (b : List Byte) : opcodeIs op op b = true := by simp [opcodeIs]

theorem onRequest_unheard {s : State} {pid : Nat} {msg : TMsg} {mine : Nat → List Byte → Bool} {sess : Bool}
    {fits : List Byte → Bool} {f : Mach → Part → Nat → List Byte → TAns}
    (h : msg.vendor ≠ Config.vendorId ∨ fieldAt msg.payload 0 1 ≠ 1 ∨ fieldAt msg.payload 1 1 ≠ 0) :
    onRequest s pid msg mine sess fits f = .next s := by
  unfold onRequest
  simp only [State.onMach]
  rw [if_pos (by tauto)]

/-! The queue that a request names must be its session's. -/

theorem sessionQueue_mine {m : Mach} {p : Part} {sid h : Nat} {q : Queue} (hq : queueNum m p h false = some q)
    (hs : q.session = some sid) : sessionQueue m p sid h = some q := by
  simp [sessionQueue, hq, hs]

theorem sessionQueue_other {m : Mach} {p : Part} {sid h : Nat}
    (hq : ∀ q, queueNum m p h false = some q → q.session ≠ some sid) : sessionQueue m p sid h = none := by
  rcases h' : queueNum m p h false with _ | q
  · simp [sessionQueue, h']
  · simp [sessionQueue, h', hq q h']

/-! The end of a session, and the hand-over of its queues to the next one (R381, R386). -/

theorem endSession_parts (m : Mach) (p : Part) (x : Session) : (endSession m p x).parts =
    m.parts.map (fun y => if y.pid = p.pid then { y with sessions := y.sessions.filter (fun y => y.sid != x.sid) } else y) := by
  simp [endSession, Mach.updPart]

theorem endSession_queues (m : Mach) (p : Part) (x : Session) : (endSession m p x).queues =
    m.queues.map (fun q => if q.part = p.pid ∧ q.session = some x.sid then { q with
      session := none, orphanOf := some x.req
      holdTill := if q.stat = .active then some (m.time + p.hold) else none } else q) := by
  simp [endSession, Mach.updPart]

theorem endSession_ctxs (m : Mach) (p : Part) (x : Session) : (endSession m p x).ctxs =
    m.ctxs.map (fun c => if c.part = p.pid ∧ c.session = some x.sid then { c with session := none } else c) := by
  simp [endSession, Mach.updPart]

theorem handOver_kept {b : List Byte} {m : Mach} {q : Queue}
    (h : q.stat = .active ∧ q.holdTill ≠ none ∧ namedGen b (handleOf m q) = some q.gen) (sid : Nat) (out : List Byte) :
    handOver b sid (m, out) q =
      (m.updQueue q.qid (fun q => { q with session := some sid, holdTill := none, orphanOf := none }), out) := by
  unfold handOver
  rw [if_pos (by simpa [Option.isSome_iff_ne_none] using h)]

theorem handOver_lost {b : List Byte} {m m' : Mach} {q q' : Queue}
    (h : ¬ (q.stat = .active ∧ q.holdTill ≠ none ∧ namedGen b (handleOf m q) = some q.gen))
    (hm : m' = (if q.stat = .active then quiesceQueue m q else m).updQueue q.qid (fun q => { q with orphanOf := none }))
    (hq : m'.queue? q.qid = some q') (sid : Nat) (out : List Byte) : handOver b sid (m, out) q =
      (m', out ++ natBytes 4 (handleOf m q) ++ natBytes 4 q'.shown ++ natBytes 4 q'.gen) := by
  unfold handOver
  rw [if_neg (by simpa [Option.isSome_iff_ne_none] using h)]
  simp only [← hm, hq]

/-! TRETHAR_ATTACH (R386). -/

theorem attachFits_iff (msg : TMsg) (b : List Byte) :
    (fieldAt msg.payload 2 1 == 1 && b.length == 8 + 8 * bodyWord b 1 && decide (bodyWord b 1 ≤ 64) &&
      decide (bodyWord b 0 ≤ 1)) = true ↔
    fieldAt msg.payload 2 1 = 1 ∧ b.length = 8 + 8 * fieldAt b 4 4 ∧ fieldAt b 4 4 ≤ 64 ∧ fieldAt b 0 4 ≤ 1 := by
  simp only [Bool.and_eq_true, beq_iff_eq, decide_eq_true_eq, and_assoc]
  exact Iff.rfl

/-- The machine in which an ATTACH takes its session: with action 1 the requester's older sessions have ended. -/
def attachStart (m : Mach) (p : Part) (msg : TMsg) (b : List Byte) : Mach :=
  if bodyWord b 0 = 1 then (p.sessions.filter (fun x => x.req == msg.req)).foldl (fun m x => endSession m p x) m else m

theorem attachStart_eq {m m' : Mach} {p : Part} {msg : TMsg} {b : List Byte} (h0 : fieldAt b 0 4 = 0 → m' = m)
    (h1 : fieldAt b 0 4 = 1 → m' = (p.sessions.filter (fun x => x.req == msg.req)).foldl (fun m x => endSession m p x) m)
    (h : fieldAt b 0 4 ≤ 1) : attachStart m p msg b = m' := by
  unfold attachStart
  split
  next hb => exact (h1 hb).symm
  next hb =>
    have : fieldAt b 0 4 ≠ 1 := hb
    exact (h0 (by omega)).symm

section attach
variable {s : State} {p : Part} {msg : TMsg} {sid : Nat} {b : List Byte}

theorem attach_badLength (h : Asks s.m p msg 1 sid b)
    (hb : ¬ LengthFits msg b ∨ b.length ≠ 8 + 8 * fieldAt b 4 4 ∨ 64 < fieldAt b 4 4 ∨ 1 < fieldAt b 0 4) :
    exec (.tretharAttach p.pid msg) s = replied s p msg s.m 1 sid [] := by
  show execTretharAttach p.pid msg s = _
  unfold execTretharAttach
  refine (asked h (by rfl)).1 (hb.imp_right fun hb => ?_)
  rw [Bool.eq_false_iff, ne_eq, attachFits_iff]
  omega

variable (h : Asks s.m p msg 1 sid b) (hl : LengthFits msg b) (hn : b.length = 8 + 8 * fieldAt b 4 4)
  (hc : fieldAt b 4 4 ≤ 64) (ha : fieldAt b 0 4 ≤ 1) {m : Mach} (hm : attachStart s.m p msg b = m) {p1 : Part}
  (hp : m.part? p.pid = some p1)
include h hl hn hc ha hm hp

theorem attach_full (hf : 16 ≤ p1.sessions.length) :
    exec (.tretharAttach p.pid msg) s = replied s p msg m 3 0 [] := by
  show execTretharAttach p.pid msg s = _
  unfold execTretharAttach
  refine (((asked h (by rfl)).2 hl ((attachFits_iff msg b).2 ⟨h.opcode, hn, hc, ha⟩)).2.2 (by nofun)).trans ?_
  unfold attachStart at hm
  simp only [hm, hp, hf, if_true]
  generalize lowestFree 1 65535 (p1.sessions.map (fun x => x.sid)) = free
  cases free <;> rfl

theorem attach_taken (hf : p1.sessions.length < 16) {n : Nat}
    (hfree : lowestFree 1 65535 (p1.sessions.map (fun x => x.sid)) = some n) {m1 : Mach} {r : Mach × List Byte}
    (hm1 : m1 = m.updPart p.pid (fun p => { p with sessions := p.sessions ++ [⟨n, msg.req⟩] }))
    (hr : r = (m1.queues.filter (fun q => q.part == p.pid && q.orphanOf == some msg.req && q.stat != .destroyed)).foldl
      (handOver b n) (m1, [])) : exec (.tretharAttach p.pid msg) s =
        replied s p msg r.1 0 0 (natBytes 4 n ++ natBytes 4 p.quarantine.length ++ r.2) := by
  show execTretharAttach p.pid msg s = _
  unfold execTretharAttach
  refine (((asked h (by rfl)).2 hl ((attachFits_iff msg b).2 ⟨h.opcode, hn, hc, ha⟩)).2.2 (by nofun)).trans ?_
  unfold attachStart at hm
  simp only [hm, hp, Nat.not_le.2 hf, if_false, hfree, ← hm1, ← hr]

end attach

section session
variable {s : State} {p : Part} {msg : TMsg} {sid : Nat} {b : List Byte}

theorem createContext_given (h : Served s.m p msg 2 sid b) (hb : b.length = 48) {m : Mach} {n : Nat}
    (hn : newContext s.m p (descFor s.m p) b (some sid) = some (m, n)) : exec (.tretharCreateContext p.pid msg) s =
      replied s p msg (publishBytes m (descFor s.m p) (b ++ natBytes 16 0)) 0 sid (natBytes 4 n) := by
  show execTretharCreateContext p.pid msg s = _
  unfold execTretharCreateContext
  exact served h (opcodeIs_self 2 b) (by simp [hb]) (by simp only [hn])

theorem createContext_refused (h : Served s.m p msg 2 sid b) (hb : b.length = 48)
    (hn : newContext s.m p (descFor s.m p) b (some sid) = none) :
    exec (.tretharCreateContext p.pid msg) s = replied s p msg s.m 3 sid (natBytes 4 0) := by
  show execTretharCreateContext p.pid msg s = _
  unfold execTretharCreateContext
  exact served h (opcodeIs_self 2 b) (by simp [hb]) (by simp only [hn])

theorem createQueue_given (h : Served s.m p msg 3 sid b) (hb : b.length = 12) {x : Ctx}
    (hx : ctxNum s.m p (fieldAt b 0 4) = some x) (hs : x.session = some sid) {m : Mach} {n : Nat}
    (hn : newQueue s.m p (fieldAt b 0 4) (fieldAt b 4 4) (fieldAt b 8 4) (some sid) = some (m, n)) :
    exec (.tretharCreateQueue p.pid msg) s = replied s p msg m 0 sid (natBytes 4 n) := by
  show execTretharCreateQueue p.pid msg s = _
  unfold execTretharCreateQueue
  refine served h (opcodeIs_self 3 b) (by simp [hb]) ?_
  simp only [bodyWord, Nat.reduceMul, hx, hs, ne_eq, not_true_eq_false, if_false, hn]

theorem createQueue_refused (h : Served s.m p msg 3 sid b) (hb : b.length = 12)
    (hn : ∀ x, ctxNum s.m p (fieldAt b 0 4) = some x → x.session = some sid →
      newQueue s.m p (fieldAt b 0 4) (fieldAt b 4 4) (fieldAt b 8 4) (some sid) = none) :
    exec (.tretharCreateQueue p.pid msg) s = replied s p msg s.m 3 sid (natBytes 4 0) := by
  show execTretharCreateQueue p.pid msg s = _
  unfold execTretharCreateQueue
  refine served h (opcodeIs_self 3 b) (by simp [hb]) ?_
  simp only [bodyWord, Nat.reduceMul]
  rcases hx : ctxNum s.m p (fieldAt b 0 4) with _ | x
  · rfl
  · by_cases hs : x.session = some sid
    · simp only [hs, ne_eq, not_true_eq_false, if_false, hn x hx hs]
    · simp only [ne_eq, hs, not_false_eq_true, if_true]

theorem submit_given (h : Served s.m p msg 4 sid b) (hb : b.length = 200) (hz : fieldAt b 4 4 = 0) {q : Queue} {m : Mach}
    {v : Nat} (hq : queueNum s.m p (fieldAt b 0 4) false = some q) (hs : q.session = some sid)
    (ha : appendRec s.m q.cid (fieldAt b 0 4) (b.drop 8) p.dies = (m, v)) :
    exec (.submit p.pid msg) s = replied s p msg m 0 sid (natBytes 8 v) := by
  show execSubmit p.pid msg s = _
  unfold execSubmit
  refine served h (opcodeIs_self 4 b) (by simp [hb, bodyWord, hz]) ?_
  simp only [bodyWord, Nat.reduceMul, sessionQueue_mine hq hs, ha]

theorem submit_refused (h : Served s.m p msg 4 sid b) (hb : b.length = 200) (hz : fieldAt b 4 4 = 0)
    (hq : ∀ q, queueNum s.m p (fieldAt b 0 4) false = some q → q.session ≠ some sid) :
    exec (.submit p.pid msg) s = replied s p msg s.m 3 sid [] := by
  show execSubmit p.pid msg s = _
  unfold execSubmit
  refine served h (opcodeIs_self 4 b) (by simp [hb, bodyWord, hz]) ?_
  simp only [bodyWord, Nat.reduceMul, sessionQueue_other hq]

theorem readStatus_given (h : Served s.m p msg 5 sid b) (hb : b.length = 4) {q : Queue}
    (hq : queueNum s.m p (fieldAt b 0 4) false = some q) (hs : q.session = some sid) :
    exec (.readStatus p.pid msg) s = replied s p msg s.m 0 sid (statusBytes s.m q) := by
  show execReadStatus p.pid msg s = _
  unfold execReadStatus
  refine served h (opcodeIs_self 5 b) (by simp [hb]) ?_
  simp only [bodyWord, Nat.reduceMul, sessionQueue_mine hq hs]

theorem readStatus_refused (h : Served s.m p msg 5 sid b) (hb : b.length = 4)
    (hq : ∀ q, queueNum s.m p (fieldAt b 0 4) false = some q → q.session ≠ some sid) :
    exec (.readStatus p.pid msg) s = replied s p msg s.m 3 sid [] := by
  show execReadStatus p.pid msg s = _
  unfold execReadStatus
  refine served h (opcodeIs_self 5 b) (by simp [hb]) ?_
  simp only [bodyWord, Nat.reduceMul, sessionQueue_other hq]

theorem detach_ends (h : Served s.m p msg 6 sid b) (hb : b = []) {x : Session}
    (hx : p.sessions.find? (fun x => x.sid == sid) = some x) :
    exec (.detach p.pid msg) s = replied s p msg (endSession s.m p x) 0 sid [] := by
  show execDetach p.pid msg s = _
  unfold execDetach
  exact served h (opcodeIs_self 6 b) (by simp [hb]) (by simp only [hx])

end session

theorem disposeReplayAck_eq {s : State} {part : Nat} {p : Part} (hp : s.m.part? part = some p) (i : Nat) :
    exec (.disposeReplayAck part i) s = .next ⟨s.agenda,
      if p.quarantine.any (fun q => q.idx == i && q.replay) then freeQuar s.m p i else s.m⟩ := by
  rw [ev_next (fun _ => rfl), hp]

/-- Settles O56: the front door of the requests, then what each one does inside. -/
theorem tretharRequests : Obligations.TretharRequests := by
  unfold Obligations.TretharRequests
  refine ⟨?layout, ?door, ?unheard, ?inside, ?ends, ?attach, ?hand, ?dispose, ?ack, fun _ _ _ => rfl⟩
  case layout =>
    exact fun op sid st tag msg body h1 h2 h3 h4 h5 h6 r hr => reply_layout op sid st tag msg body h1 h2 h3 h4 h5 h6 r hr
  case door =>
    intro s p msg op sid b hop h
    obtain ⟨f, hf⟩ := requestOf_enters hop p.pid msg s
    obtain ⟨hbad, hgood⟩ := asked (sess := true) (fits := bodyFits op) (f := f) h (opcodeIs_self op b)
    rw [hf]
    refine ⟨fun hx => hbad (hx.imp_right fun hx => ?_), fun hl hb => ?_⟩
    · rwa [Bool.eq_false_iff, ne_eq, bodyFits_iff]
    · obtain ⟨hnone, hmany, -⟩ := hgood hl ((bodyFits_iff op b).2 hb)
      exact ⟨hnone rfl, hmany rfl⟩
  case unheard =>
    intro s p msg op b _ hop h
    obtain ⟨f, hf⟩ := requestOf_enters hop p.pid msg s
    rw [hf, onRequest_unheard h]
  case inside =>
    intro s p msg sid b
    refine ⟨fun h hb => ⟨fun m n hn => createContext_given h hb hn, fun hn => createContext_refused h hb hn⟩,
      fun h hb => ⟨fun x hx hs => ⟨fun m n hn => createQueue_given h hb hx hs hn, fun hn =>
          createQueue_refused h hb fun _ _ _ => hn⟩,
        fun hs => createQueue_refused h hb fun x hx hxs => absurd hxs (hs x hx)⟩,
      fun h hb hz => ⟨fun q m v hq hs ha => submit_given h hb hz hq hs ha, fun hq => submit_refused h hb hz hq⟩,
      fun h hb => ⟨fun q hq hs => readStatus_given h hb hq hs, fun hq => readStatus_refused h hb hq⟩,
      fun h hb x hx => detach_ends h hb hx⟩
  case ends =>
    rintro m p x m' rfl
    exact ⟨endSession_queues m p x, endSession_ctxs m p x, endSession_parts m p x, rfl⟩
  case attach =>
    intro s p msg sid b h
    refine ⟨attach_badLength h, fun hl hn hc m p1 h0 h1 ha hp => ?_⟩
    have hm := attachStart_eq h0 h1 ha
    exact ⟨attach_full h hl hn hc ha hm hp, fun n hf hfree m1 r hm1 hr =>
      attach_taken h hl hn hc ha hm hp hf hfree hm1 hr⟩
  case hand =>
    exact fun b sid m out q => ⟨fun h => handOver_kept h sid out, fun h m' q' hm hq => handOver_lost h hm hq sid out⟩
  case dispose =>
    exact fun s p msg sid a i n b h hl hi hn ha ha2 h2n held hheld =>
      dispose_law s p msg sid a i n b h hl hi hn ha ha2 h2n held hheld
  case ack =>
    intro s p part i hp
    rw [disposeReplayAck_eq hp]
    refine ⟨fun h => ?_, fun h => ?_⟩
    · rw [if_pos (by simpa using h)]
    · rw [if_neg (by simpa using h)]

end Sys2Proof.Machine
end

section
/-!
PROOFS. O55 QueueCommands: the commands of queues, admissions and bindings.
-/

namespace Sys2Proof.Machine

/-! R373 and R378 to R380: the commands of queues. -/

section queues
variable {s : State} {p : Part} {ops : List Nat}

theorem createQueue_refuses (h : RingHead s.m p 6 ops) (ho : 2 ^ 16 ≤ opAt ops 3) : Refuses (.createQueue p.pid) s p := by
  show execCreateQueue p.pid s = _
  unfold execCreateQueue
  refine ring_refuse h rfl ?_
  simp only [ho, if_true]

theorem createQueue_none (h : RingHead s.m p 6 ops) (ho : opAt ops 3 < 2 ^ 16) (hn : newQueue s.m p (opAt ops 0) (opAt ops 1)
    (opAt ops 2) (if opAt ops 3 = 0 then none else some (opAt ops 3)) = none) : Refuses (.createQueue p.pid) s p := by
  show execCreateQueue p.pid s = _
  unfold execCreateQueue
  refine ring_refuse h rfl ?_
  simp only [Nat.not_le.2 ho, if_false, hn]

theorem createQueue_done (h : RingHead s.m p 6 ops) (ho : opAt ops 3 < 2 ^ 16) {m : Mach} {r : Nat}
    (hn : newQueue s.m p (opAt ops 0) (opAt ops 1) (opAt ops 2) (if opAt ops 3 = 0 then none else some (opAt ops 3)) =
      some (m, r)) : exec (.createQueue p.pid) s = answers s p m 1 r := by
  show execCreateQueue p.pid s = _
  unfold execCreateQueue
  refine ring_done h rfl ?_
  simp only [Nat.not_le.2 ho, if_false, hn]

theorem newQueue_eq {m : Mach} {cn n : Nat} {x : Ctx} (hx : ctxNum m p cn = some x) (hn : lowestFree 0 1023
    ((m.queues.filter (fun q => q.cid == x.cid && q.stat != .destroyed)).map (fun q => q.num)) = some n) (cap flags : Nat)
    (o : Option Nat) : newQueue m p cn cap flags o =
      if x.stat = .ending ∨ cap = 0 ∨ 4096 < cap ∨ 1 < flags then none
      else some ({ m with nextId := m.nextId + 1, queues := m.queues ++ [{ qid := m.nextId, part := p.pid, num := n, cid := x.cid
                                                                           cap := cap, dropLate := flags == 1, session := o }] },
        cn * 65536 + n) := by
  unfold newQueue
  simp only [hx, hn]

theorem quiesce_done (h : RingHead s.m p 7 ops) {q : Queue} (hq : queueNum s.m p (opAt ops 0) false = some q)
    (ha : q.stat = .active) : exec (.quiesce p.pid) s = answers s p (quiesceQueue s.m q) 1 0 := by
  show execQuiesce p.pid s = _
  unfold execQuiesce
  refine ring_done h rfl ?_
  simp only [hq, ha, if_true]

theorem quiesce_refuses (h : RingHead s.m p 7 ops)
    (hq : ∀ q, queueNum s.m p (opAt ops 0) false = some q → q.stat ≠ .active) : Refuses (.quiesce p.pid) s p := by
  show execQuiesce p.pid s = _
  unfold execQuiesce
  refine ring_refuse h rfl ?_
  rcases hx : queueNum s.m p (opAt ops 0) false with _ | q
  · rfl
  · simp only [hq q hx, if_false]

theorem reopen_done (h : RingHead s.m p 8 ops) {q : Queue} (hq : queueNum s.m p (opAt ops 0) false = some q)
    (ha : q.stat = .quiesced) : exec (.reopen p.pid) s = answers s p
      (s.m.updQueue q.qid (fun q => { q with stat := .active, gen := q.nextGen })) 1 0 := by
  show execReopen p.pid s = _
  unfold execReopen
  refine ring_done h rfl ?_
  simp only [hq, ha, if_true]

theorem reopen_refuses (h : RingHead s.m p 8 ops)
    (hq : ∀ q, queueNum s.m p (opAt ops 0) false = some q → q.stat ≠ .quiesced) : Refuses (.reopen p.pid) s p := by
  show execReopen p.pid s = _
  unfold execReopen
  refine ring_refuse h rfl ?_
  rcases hx : queueNum s.m p (opAt ops 0) false with _ | q
  · rfl
  · simp only [hq q hx, if_false]

theorem destroyQueue_done (h : RingHead s.m p 9 ops) {q : Queue} (hq : queueNum s.m p (opAt ops 0) false = some q)
    (ha : q.stat ≠ .drained) : exec (.destroyQueue p.pid) s = answers s p (endEmpty
      ((if q.stat = .active then quiesceQueue s.m q else s.m).updQueue q.qid (fun q => { q with stat := .drained })) q.cid)
      1 0 := by
  show execDestroyQueue p.pid s = _
  unfold execDestroyQueue
  refine ring_done h rfl ?_
  simp only [hq, ha, if_false]

theorem destroyQueue_refuses (h : RingHead s.m p 9 ops)
    (hq : ∀ q, queueNum s.m p (opAt ops 0) false = some q → q.stat = .drained) : Refuses (.destroyQueue p.pid) s p := by
  show execDestroyQueue p.pid s = _
  unfold execDestroyQueue
  refine ring_refuse h rfl ?_
  rcases hx : queueNum s.m p (opAt ops 0) false with _ | q
  · rfl
  · simp only [hq q hx, if_true]

theorem queueStatus_done (h : RingHead s.m p 10 ops) {q : Queue} (hq : queueNum s.m p (opAt ops 0) true = some q)
    (ha : opAt ops 1 % 64 = 0) (ho : ownRange p (opAt ops 1) 64 = true) :
    exec (.queueStatus p.pid) s = answers s p (publishBytes s.m (opAt ops 1) (statusBytes s.m q)) 1 0 := by
  show execQueueStatus p.pid s = _
  unfold execQueueStatus
  refine ring_done h rfl ?_
  simp [hq, ha, ho]

theorem queueStatus_refuses (h : RingHead s.m p 10 ops) (hq : queueNum s.m p (opAt ops 0) true = none ∨
    opAt ops 1 % 64 ≠ 0 ∨ ownRange p (opAt ops 1) 64 = false) : Refuses (.queueStatus p.pid) s p := by
  show execQueueStatus p.pid s = _
  unfold execQueueStatus
  refine ring_refuse h rfl ?_
  rcases hx : queueNum s.m p (opAt ops 0) true with _ | q
  · rfl
  · simp only [hx, reduceCtorEq, false_or] at hq
    simp only [Bool.not_eq_true', hq, if_true]

theorem queueNum_not_reserved {m : Mach} {hd : Nat} {q : Queue} (hq : queueNum m p hd false = some q) : q.num ≠ 1023 := by
  obtain ⟨x, -, hx⟩ := Option.bind_eq_some_iff.1 hq
  rcases hf : queueOf m x.cid hd with _ | r
  · simp [hf] at hx
  · obtain rfl : r = q := by simpa [hf] using hx
    unfold queueOf at hf
    split at hf
    · cases hf
    · have := List.find?_some hf
      simp only [Bool.and_eq_true, bne_iff_ne, ne_eq] at this
      exact this.1.2

theorem holdTimeExpire_eq {qid w : Nat} {q : Queue} (hq : s.m.queue? qid = some q) (hw : q.holdTill = some w) :
    exec (.holdTimeExpire qid) s =
      .next ⟨s.agenda, if q.stat = .active ∧ w ≤ s.m.time then quiesceQueue s.m q else s.m⟩ := by
  rw [ev_next (fun _ => rfl), hq]
  simp only [hw]

theorem nextGen_eq (q : Queue) (h : q.gen < 2 ^ 32) : q.nextGen = if q.gen = 2 ^ 32 - 1 then 1 else q.gen + 1 := by
  unfold Queue.nextGen
  by_cases hg : q.gen = 2 ^ 32 - 1
  · simp [hg]
  · rw [if_neg hg, if_neg (by omega), Nat.mod_eq_of_lt (by omega)]

end queues

/-! R406: admissions. -/

section admissions
variable {s : State} {p : Part} {ops : List Nat}

theorem admitAdd_done (h : RingHead s.m p 11 ops) (h5 : opAt ops 5 = 0) {n : Nat}
    (hn : lowestFree 0 64 (p.admits.map (fun a => a.num)) = some n) (h0 : opAt ops 0 ≤ 8191) (h1 : 1 ≤ opAt ops 1)
    (h01 : opAt ops 0 + opAt ops 1 ≤ 8192) (h2 : opAt ops 2 % 4096 = 0) (h3 : opAt ops 3 % 4096 = 0)
    (ho : ownRange p (opAt ops 2) (opAt ops 3) = true) (h4 : 1 ≤ opAt ops 4) (h4' : opAt ops 4 ≤ 3)
    (hl : p.admits.length < 64) :
    exec (.admitAdd p.pid) s = answers s p (s.m.updPart p.pid (fun p => { p with admits := p.admits ++ [{
      num := n, first := opAt ops 0, count := opAt ops 1, base := opAt ops 2, len := opAt ops 3, rights := opAt ops 4 }] }))
      1 n := by
  show execAdmitAdd p.pid s = _
  unfold execAdmitAdd
  refine ring_done h (by simp [h5]) ?_
  simp only [hn, Option.getD_some]
  rw [if_neg]
  simp only [h5, h2, h3, ho, ne_eq, not_true_eq_false, Bool.not_true, Bool.false_eq_true, false_or]
  omega

theorem admitAdd_refuses (h : RingHead s.m p 11 ops) (h5 : opAt ops 5 ≠ 1) (hb : opAt ops 5 ≠ 0 ∨ 8191 < opAt ops 0 ∨
    opAt ops 1 = 0 ∨ 8192 < opAt ops 0 + opAt ops 1 ∨ opAt ops 2 % 4096 ≠ 0 ∨ opAt ops 3 % 4096 ≠ 0 ∨
    ownRange p (opAt ops 2) (opAt ops 3) = false ∨ opAt ops 4 = 0 ∨ 3 < opAt ops 4 ∨ 64 ≤ p.admits.length) :
    Refuses (.admitAdd p.pid) s p := by
  show execAdmitAdd p.pid s = _
  unfold execAdmitAdd
  refine ring_refuse h (by simp [h5]) ?_
  rw [if_pos]
  simp only [Bool.not_eq_true']
  have hsum : 8192 < opAt ops 0 + opAt ops 1 → 8191 < opAt ops 0 ∨ 8192 - opAt ops 0 < opAt ops 1 := fun hlt => by omega
  tauto

theorem admitRemove_done (h : RingHead s.m p 11 ops) (h5 : opAt ops 5 = 1) (hz : ∀ i ∈ [1, 2, 3, 4], opAt ops i = 0)
    (ha : ∃ a ∈ p.admits, a.num = opAt ops 0) :
    exec (.admitRemove p.pid) s = answers s p (s.m.updPart p.pid (fun p => { p with
      admits := p.admits.filter (fun a => a.num != opAt ops 0) })) 1 (opAt ops 0) := by
  show execAdmitRemove p.pid s = _
  unfold execAdmitRemove
  refine ring_done h (by simp [h5]) ?_
  rw [if_neg]
  have hz' : [1, 2, 3, 4].any (fun i => opAt ops i != 0) = false := by simpa [List.any_eq_false] using hz
  have ha' : p.admits.any (fun a => a.num == opAt ops 0) = true := by simpa using ha
  simp [hz', ha']

theorem admitRemove_refuses (h : RingHead s.m p 11 ops) (h5 : opAt ops 5 = 1)
    (hb : (∃ i ∈ [1, 2, 3, 4], opAt ops i ≠ 0) ∨ ∀ a ∈ p.admits, a.num ≠ opAt ops 0) : Refuses (.admitRemove p.pid) s p := by
  show execAdmitRemove p.pid s = _
  unfold execAdmitRemove
  refine ring_refuse h (by simp [h5]) ?_
  rw [if_pos]
  refine hb.imp (fun hz => ?_) fun ha => ?_
  · rw [List.any_eq_true]
    exact hz.imp fun i hi => hi.imp_right bne_iff_ne.2
  · simpa using ha

end admissions

/-! R396: bindings of contexts of other packages, and the package number. -/

section bindings
variable {s : State} {p : Part} {ops : List Nat}

theorem bindBad_iff (m : Mach) (ops : List Nat) : bindBad m ops = true ↔ 8191 < opAt ops 1 ∨
    (m.pkgSet = true ∧ opAt ops 1 = m.pkg) ∨ opAt ops 2 = 0 ∨ 4095 < opAt ops 2 ∨ opAt ops 4 ≠ 0 ∨ opAt ops 5 ≠ 0 := by
  simp [bindBad, or_assoc]

theorem bindBad_false {m : Mach} (h1 : opAt ops 1 ≤ 8191) (hp : m.pkgSet = true → opAt ops 1 ≠ m.pkg) (h2 : 1 ≤ opAt ops 2)
    (h2' : opAt ops 2 ≤ 4095) (h4 : opAt ops 4 = 0) (h5 : opAt ops 5 = 0) : bindBad m ops = false := by
  rw [Bool.eq_false_iff, ne_eq, bindBad_iff]
  rintro (h | ⟨hs, he⟩ | h)
  · omega
  · exact hp hs he
  · omega

theorem bind_done (h : RingHead s.m p 12 ops) {x : Ctx} (hx : ctxNum s.m p (opAt ops 0) = some x)
    (hok : bindBad s.m ops = false) (h3 : opAt ops 3 = 0) (hs : s.m.pkgSet = true)
    (hl : (p.binds.filter (fun b => b.cid == x.cid)).length < 64) {n : Nat}
    (hn : lowestFree 0 64 ((p.binds.filter (fun b => b.cid == x.cid)).map (fun b => b.num)) = some n) :
    exec (.bind p.pid) s = answers s p (s.m.updPart p.pid (fun p => { p with
      binds := p.binds ++ [⟨n, x.cid, opAt ops 1, opAt ops 2⟩] })) 1 n := by
  show execBind p.pid s = _
  unfold execBind
  refine ring_done h (by simp [h3]) ?_
  simp only [hx, hn, Option.getD_some]
  rw [if_neg (by simp [h3, hok, hs, hl])]

theorem bind_refuses (h : RingHead s.m p 12 ops) {x : Ctx} (hx : ctxNum s.m p (opAt ops 0) = some x) (h3 : opAt ops 3 ≠ 1)
    (hb : opAt ops 3 ≠ 0 ∨ bindBad s.m ops = true ∨ s.m.pkgSet = false ∨
      64 ≤ (p.binds.filter (fun b => b.cid == x.cid)).length) : Refuses (.bind p.pid) s p := by
  show execBind p.pid s = _
  unfold execBind
  refine ring_refuse h (by simp [h3]) ?_
  simp only [hx]
  rw [if_pos (by simpa using hb)]

theorem unbind_done (h : RingHead s.m p 12 ops) {x : Ctx} (hx : ctxNum s.m p (opAt ops 0) = some x)
    (hok : bindBad s.m ops = false) (h3 : opAt ops 3 = 1) {b : Bind}
    (hb : p.binds.find? (fun b => b.cid == x.cid && b.pkg == opAt ops 1 && b.ctx == opAt ops 2) = some b) :
    exec (.unbind p.pid) s = answers s p (s.m.updPart p.pid (fun p => { p with
      binds := p.binds.filter (fun c => c != b) })) 1 b.num := by
  show execUnbind p.pid s = _
  unfold execUnbind
  refine ring_done h (by simp [h3]) ?_
  simp only [hx, hb, hok, Bool.false_eq_true, if_false]

theorem unbind_refuses (h : RingHead s.m p 12 ops) {x : Ctx} (hx : ctxNum s.m p (opAt ops 0) = some x) (h3 : opAt ops 3 = 1)
    (hb : ∀ b ∈ p.binds, ¬ (b.cid = x.cid ∧ b.pkg = opAt ops 1 ∧ b.ctx = opAt ops 2)) : Refuses (.unbind p.pid) s p := by
  show execUnbind p.pid s = _
  unfold execUnbind
  refine ring_refuse h (by simp [h3]) ?_
  have hnone : p.binds.find? (fun b => b.cid == x.cid && b.pkg == opAt ops 1 && b.ctx == opAt ops 2) = none := by
    simpa [and_assoc] using hb
  simp only [hx, hnone]

theorem setPackageNumber_done (h : RingHead s.m p 13 ops) (h0 : opAt ops 0 ≤ 8191)
    (hz : ∀ i ∈ [1, 2, 3, 4, 5], opAt ops i = 0) (hp : s.m.pkgSet = true → s.m.pkg = opAt ops 0) :
    exec (.setPackageNumber p.pid) s = answers s p { s.m with pkg := opAt ops 0, pkgSet := true } 1 (opAt ops 0) := by
  show execSetPackageNumber p.pid s = _
  unfold execSetPackageNumber
  refine ring_done h rfl ?_
  have hz' : [1, 2, 3, 4, 5].any (fun i => opAt ops i != 0) = false := by simpa [List.any_eq_false] using hz
  rw [if_neg]
  simp only [hz', Bool.false_eq_true, false_or]
  rintro (hlt | ⟨hs, hne⟩)
  · omega
  · exact hne (hp hs)

theorem setPackageNumber_refuses (h : RingHead s.m p 13 ops) (hb : 8191 < opAt ops 0 ∨
    (∃ i ∈ [1, 2, 3, 4, 5], opAt ops i ≠ 0) ∨ (s.m.pkgSet = true ∧ s.m.pkg ≠ opAt ops 0)) :
    Refuses (.setPackageNumber p.pid) s p := by
  show execSetPackageNumber p.pid s = _
  unfold execSetPackageNumber
  refine ring_refuse h rfl ?_
  rw [if_pos]
  refine hb.imp_right (Or.imp_left fun hz => ?_)
  rw [List.any_eq_true]
  exact hz.imp fun i hi => hi.imp_right bne_iff_ne.2

end bindings

/-- Settles O55: one pair of lemmas per command, what it does and what it refuses. -/
theorem queueCommands : Obligations.QueueCommands := by
  unfold Obligations.QueueCommands
  refine ⟨?create, ?new, lowest_iff, ?queues, ?reserved, fun _ _ => rfl, nextGen_eq, ?status, ?hold, ?admission, ?bind, ?number⟩
  case create =>
    intro s p ops h
    refine ⟨createQueue_refuses h, ?_⟩
    rintro ho o rfl
    exact ⟨createQueue_none h ho, fun m r hn => createQueue_done h ho hn⟩
  case new =>
    intro m p cn cap flags n o x hx hn
    rw [newQueue_eq hx hn]
    refine ⟨fun hs h1 h2 h3 => if_neg ?_, fun hb => if_pos hb⟩
    simp only [hs, false_or]
    omega
  case queues =>
    intro s p ops
    refine ⟨fun h => ⟨fun q hq => ⟨quiesce_done h hq, fun hs => quiesce_refuses h ?_⟩, fun hq => quiesce_refuses h ?_⟩,
      fun h => ⟨fun q hq => ⟨reopen_done h hq, fun hs => reopen_refuses h ?_⟩, fun hq => reopen_refuses h ?_⟩,
      fun h => ⟨fun q hq => ⟨fun hs => destroyQueue_done h hq ?_, fun hs => destroyQueue_refuses h ?_⟩,
        fun hq => destroyQueue_refuses h ?_⟩,
      fun h => ⟨fun q hq => queueStatus_done h hq, queueStatus_refuses h⟩⟩
    case refine_5 => rcases hs with hs | hs <;> simp [hs]
    case refine_1 | refine_3 | refine_6 => exact fun r hr => Option.some.inj (hq.symm.trans hr) ▸ hs
    case refine_2 | refine_4 | refine_7 => exact fun r hr => absurd (hq.symm.trans hr) nofun
  case reserved => exact fun m p hd q hq => queueNum_not_reserved hq
  case status =>
    exact fun m q x k h0 h1 h2 h3 h4 h5 h6 h7 h8 h9 b hb => status_layout m q x k h0 h1 h2 h3 h4 h5 h6 h7 h8 h9 b hb
  case hold =>
    intro s qid w q hq hw
    rw [holdTimeExpire_eq hq hw]
    refine ⟨fun ha ht => by rw [if_pos ⟨ha, ht⟩], fun hn => ?_⟩
    rw [if_neg]
    rintro ⟨ha, ht⟩
    rcases hn with hn | hn
    · exact hn ha
    · omega
  case admission =>
    intro s p ops h
    exact ⟨fun h5 n hn h0 h1 h01 h2 h3 ho h4 h4' hl => admitAdd_done h h5 hn h0 h1 h01 h2 h3 ho h4 h4' hl,
      admitAdd_refuses h, admitRemove_done h, admitRemove_refuses h⟩
  case bind =>
    intro s p ops x h hx
    refine ⟨fun h1 hp h2 h2' h4 h5 => ?_, fun h3 hb => bind_refuses h hx h3 ?_, unbind_refuses h hx⟩
    · have hok := bindBad_false h1 hp h2 h2' h4 h5
      exact ⟨fun n h3 hs hl hn => bind_done h hx hok h3 hs hl hn, fun b h3 hb => unbind_done h hx hok h3 hb⟩
    · rw [bindBad_iff]
      tauto
  case number => exact fun s p ops h => ⟨setPackageNumber_done h, setPackageNumber_refuses h⟩

end Sys2Proof.Machine
end

section
/-!
PROOFS. O51 SupervisorCommands: fault queue, command ring, contexts and parked threads.
-/

namespace Sys2Proof.Machine

/-! R352: the fault queue. -/

theorem postRec_writes {m : Mach} {cid : Nat} {x : Ctx} (hx : m.ctx? cid = some x) (hh : x.held = [])
    (hr : x.produced - memNat m (x.desc + 0x38) 8 < x.entries) (f : FRec) : postRec m cid f = writeRec m x f := by
  simp [postRec, hx, hh, hr]

theorem postRec_holds {m : Mach} {cid : Nat} {x : Ctx} (hx : m.ctx? cid = some x)
    (hr : x.held ≠ [] ∨ x.entries ≤ x.produced - memNat m (x.desc + 0x38) 8) (f : FRec) :
    postRec m cid f = m.updCtx cid (fun c => { c with held := c.held ++ [f] }) := by
  unfold postRec
  simp only [hx]
  rw [if_neg]
  simp only [Bool.and_eq_true, List.isEmpty_iff, decide_eq_true_eq]
  rintro ⟨hh, hlt⟩
  rcases hr with hr | hr
  · exact hr hh
  · omega

theorem faultQueueConsume_eq {s : State} {cid : Nat} {x : Ctx} (hx : s.m.ctx? cid = some x) (n : Nat) :
    exec (.faultQueueConsume cid n) s = .next ⟨s.agenda, if x.produced < memNat s.m (x.desc + 0x38) 8 + n then s.m
      else postHeld cid x.held (publishBytes s.m (x.desc + 0x38) (natBytes 8 (memNat s.m (x.desc + 0x38) 8 + n)))⟩ := by
  rw [ev_next (fun _ => rfl), hx]

theorem postHeld_cons {m : Mach} {cid : Nat} {x : Ctx} (hx : m.ctx? cid = some x) (f : FRec) (l : List FRec) :
    postHeld cid (f :: l) m = if x.produced - memNat m (x.desc + 0x38) 8 < x.entries then
      postHeld cid l ((writeRec m x f).updCtx cid (fun x => { x with held := l })) else m := by
  simp only [postHeld, hx]

/-! R405: the command ring. -/

theorem live_iff (p : Part) : p.live = true ↔ p.stat = .running ∨ p.stat = .degraded := by
  simp [Part.live]

theorem commandRingProduce_eq {s : State} {part : Nat} {p : Part} (hp : s.m.part? part = some p) (hl : p.live = true)
    (cmds : List RingCmd) : exec (.commandRingProduce part cmds) s = .next ⟨s.agenda,
      if memNat s.m (ringBase p + 8) 8 + 4096 < memNat s.m (ringBase p) 8 + cmds.length then s.m
      else publishBytes (ringPut p (memNat s.m (ringBase p) 8) cmds s.m) (ringBase p)
        (natBytes 8 (memNat s.m (ringBase p) 8 + cmds.length))⟩ := by
  rw [ev_next (fun _ => rfl), hp]
  simp only [hl, Bool.not_true, Bool.false_eq_true, false_or]

/-! R343: the commands of contexts. -/

section contexts
variable {s : State} {p : Part} {ops : List Nat}

theorem createContext_bad (h : RingHead s.m p 1 ops) (hb : opAt ops 0 % 64 ≠ 0 ∨ ownRange p (opAt ops 0) 64 = false ∨
    newContext s.m p (opAt ops 0) (cread s.m.mem (opAt ops 0) 48) none = none) : Refuses (.createContext p.pid) s p := by
  show execCreateContext p.pid s = _
  unfold execCreateContext
  refine ring_refuse h rfl ?_
  dsimp only
  split
  · rfl
  next hc =>
    rcases hb with hb | hb | hb
    · exact absurd (.inl hb) hc
    · exact absurd (.inr (by rw [hb]; rfl)) hc
    · rw [hb]

theorem createContext_done (h : RingHead s.m p 1 ops) (h0 : opAt ops 0 % 64 = 0) (ho : ownRange p (opAt ops 0) 64 = true)
    {m : Mach} {n : Nat} (hn : newContext s.m p (opAt ops 0) (cread s.m.mem (opAt ops 0) 48) none = some (m, n)) :
    exec (.createContext p.pid) s = answers s p m 1 n := by
  show execCreateContext p.pid s = _
  unfold execCreateContext
  refine ring_done h rfl ?_
  simp [h0, ho, hn]

theorem newContext_eq {m : Mach} {desc n : Nat} {b : List Byte} {ses : Option Nat} {x : Ctx}
    (hn : lowestFree 1 4095 ((m.ctxs.filter (fun x => x.part == p.pid && x.stat != .gone)).map (fun x => x.num)) = some n)
    (hx : { Ctx.ofDesc b desc m.nextId p.pid n with session := ses } = x) : newContext m p desc b ses =
      if descBad m p b x then none else some ({ m with
        nextId := m.nextId + 2, ctxs := m.ctxs ++ [x]
        queues := m.queues ++ [{ qid := m.nextId + 1, part := p.pid, num := 1023, cid := m.nextId, cap := 4096 }] }, n) := by
  unfold newContext
  simp only [hn, hx]

/-- A descriptor that is not bad meets every limit of Table 21-1. -/
theorem descBad_false {m : Mach} {b : List Byte} {x : Ctx} (h : descBad m p b x = false) : x.satp.toNat / 2 ^ 60 % 2 ^ 4 = 14 ∧
    (∀ y ∈ m.ctxs, y.part = p.pid → y.stat ≠ .gone → y.satp.toNat / 2 ^ 44 % 2 ^ 16 ≠ x.satp.toNat / 2 ^ 44 % 2 ^ 16) ∧
    (x.secure = true → Config.supervisorSecure p.pid = true) ∧ x.saveBase % 4096 = 0 ∧ x.saveSize % 4096 = 0 ∧
    ownRange p x.saveBase (max 1 x.saveSize) = true ∧ inWorld m x.secure x.saveBase x.saveSize = true ∧ x.fqBase % 32 = 0 ∧
    ownRange p x.fqBase (32 * x.entries) = true ∧ (∃ i, 4 ≤ i ∧ i ≤ 16 ∧ x.entries = 2 ^ i) ∧ 1000 ≤ x.drain ∧
    x.drain ≤ 10000000 ∧ x.threshold ≤ 100 ∧ fieldAt b 0x29 1 ≤ 3 ∧ fieldAt b 0x2A 6 = 0 := by
  simp only [descBad, pte, Bool.or_eq_false_iff, bne_eq_false_iff_eq, decide_eq_false_iff_not, Nat.not_lt, Bool.not_eq_false',
    and_assoc, List.any_eq_true, List.mem_range, Bool.and_eq_true, decide_eq_true_eq, beq_iff_eq, List.any_eq_false,
    Bool.and_eq_false_iff] at h
  obtain ⟨hmode, hasid, hsec, hsb, hss, hown, hworld, ⟨i, hi, hi4, hent⟩, hfq, hfo, hd, hd', ht, hf, hz⟩ := h
  refine ⟨hmode, fun y hy hyp hys he => ?_, fun hs => ?_, hsb, hss, hown, hworld, hfq, hfo, ⟨i, hi4, by omega, hent⟩, hd, hd', ht,
    hf, hz⟩
  · exact hasid y hy ⟨hyp, bne_iff_ne.2 hys, he⟩
  · simpa [hs] using hsec

theorem destroyContext_done (h : RingHead s.m p 2 ops) {x : Ctx} (hx : ctxNum s.m p (opAt ops 0) = some x)
    (hs : x.stat ≠ .ending) : exec (.destroyContext p.pid) s = answers s p (destroyCtx s.m x) 1 0 := by
  show execDestroyContext p.pid s = _
  unfold execDestroyContext
  refine ring_done h rfl ?_
  simp only [hx, hs, if_false]

theorem destroyContext_refuses (h : RingHead s.m p 2 ops)
    (hx : ∀ x, ctxNum s.m p (opAt ops 0) = some x → x.stat = .ending) : Refuses (.destroyContext p.pid) s p := by
  show execDestroyContext p.pid s = _
  unfold execDestroyContext
  refine ring_refuse h rfl ?_
  rcases hc : ctxNum s.m p (opAt ops 0) with _ | x
  · rfl
  · simp only [hx x hc, if_true]

theorem stopMode_done (h : RingHead s.m p 3 ops) {x : Ctx} (hx : ctxNum s.m p (opAt ops 0) = some x) :
    exec (.stopMode p.pid) s = answers s p
      (s.m.updCtx x.cid (fun x => { x with stopGroup := memNat s.m (x.desc + 0x29) 1 / 2 % 2 == 1 })) 1 0 := by
  show execStopMode p.pid s = _
  unfold execStopMode
  refine ring_done h rfl ?_
  simp only [hx]

theorem stopMode_refuses (h : RingHead s.m p 3 ops) (hx : ctxNum s.m p (opAt ops 0) = none) :
    Refuses (.stopMode p.pid) s p := by
  show execStopMode p.pid s = _
  unfold execStopMode
  refine ring_refuse h rfl ?_
  simp only [hx]

end contexts

/-! R344: SAVE_GROUP names the group of the one thread at its core and slot, and asks again until that is saved. -/

section saves
variable {s : State} {p : Part} {ops : List Nat}

theorem ring_wait {code : Nat} (h : RingHead s.m p code ops) {mine : List Nat → Bool} {f : Mach → Part → List Nat → Answer}
    (hm : mine ops = true) {m : Mach} (hf : f s.m p ops = .wait m) : ringDo s p.pid code mine f = .next ⟨s.agenda, m⟩ := by
  rw [ring_do h f hm, hf]

theorem saveGroup_noCtx (h : RingHead s.m p 5 ops) (hx : ctxNum s.m p (opAt ops 0) = none) :
    Refuses (.saveGroup p.pid) s p := by
  show execSaveGroup p.pid s = _
  unfold execSaveGroup
  refine ring_refuse h rfl ?_
  simp only [hx]

variable {x : Ctx} (h : RingHead s.m p 5 ops) (hx : ctxNum s.m p (opAt ops 0) = some x)
include h hx

theorem saveGroup_asked {gid : Nat} {g : Group} (hs : p.saving = some gid) (hg : s.m.group? gid = some g) :
    (g.stat = .saving → exec (.saveGroup p.pid) s = .next s) ∧
    (g.stat = .saved → exec (.saveGroup p.pid) s = answers s p s.m 1 0) ∧
    (g.stat = .exited ∨ g.stat = .faulted → Refuses (.saveGroup p.pid) s p) := by
  simp only [Refuses, show exec (.saveGroup p.pid) s = execSaveGroup p.pid s from rfl, execSaveGroup]
  refine ⟨fun hst => ring_wait h rfl ?_, fun hst => ring_done h rfl ?_, fun hst => ring_refuse h rfl ?_⟩
  · simp only [hx, hs, hg, hst, if_true]
  · simp only [hx, hs, hg, hst, reduceCtorEq, if_false, or_self]
  · have hn : g.stat ≠ .saving := by rcases hst with hst | hst <;> simp [hst]
    simp only [hx, hs, hg, hn, if_false, hst, if_true]

theorem saveGroup_gone {gid : Nat} (hs : p.saving = some gid) (hg : s.m.group? gid = none) :
    Refuses (.saveGroup p.pid) s p := by
  show execSaveGroup p.pid s = _
  unfold execSaveGroup
  refine ring_refuse h rfl ?_
  simp only [hx, hs, hg]

/-- The thread that SAVE_GROUP names. -/
def namedBy (m : Mach) (ops : List Nat) (x : Ctx) (u : Thread) : Prop :=
  u.slot = opAt ops 2 ∧ m.coreOf u.gid = opAt ops 1 ∧ cidOf m u.gid = x.cid ∧
    ∃ g, m.group? u.gid = some g ∧ (g.stat = .live ∨ g.stat = .draining ∨ g.stat = .saving)

theorem saveGroup_names (hs : p.saving = none) {t : Thread} {g : Group} (ht : t ∈ s.m.threads) (hg : s.m.group? t.gid = some g)
    (hn : ∀ u ∈ s.m.threads, namedBy s.m ops x u ↔ u = t) {m : Mach}
    (hm : m = s.m.updPart p.pid (fun p => { p with saving := some g.gid })) :
    exec (.saveGroup p.pid) s = .next ⟨s.agenda, if g.stat = .saving then m else beginSave m (liveSet s.m g) false false⟩ := by
  show execSaveGroup p.pid s = _
  unfold execSaveGroup
  refine ring_wait h rfl ?_
  simp only [hx, hs]
  rw [find_only ht ?only, if_pos ?here]
  case only =>
    intro u hu hf
    refine (hn u hu).1 ?_
    simp only [Bool.and_eq_true, beq_iff_eq, and_assoc] at hf
    obtain ⟨h1, h2, h3, h4⟩ := hf
    split at h4
    next g' hg' => exact ⟨h1, h2, h3, g', hg', by simpa [or_assoc] using h4⟩
    next => cases h4
  case here =>
    obtain ⟨h1, h2, h3, g', hg', h4⟩ := (hn t ht).2 rfl
    obtain rfl : g = g' := Option.some.inj (hg.symm.trans hg')
    simpa [h1, h2, h3, hg, or_assoc] using h4
  · have hl : liveSet m g = liveSet s.m g := by rw [hm]; rfl
    simp only [Option.bind_some, hg, ← hm, hl]

theorem saveGroup_unnamed (hs : p.saving = none) (hn : ∀ u ∈ s.m.threads, ¬ namedBy s.m ops x u) :
    Refuses (.saveGroup p.pid) s p := by
  show execSaveGroup p.pid s = _
  unfold execSaveGroup
  refine ring_refuse h rfl ?_
  simp only [hx, hs]
  rw [List.find?_eq_none.2 ?none]
  · rfl
  · intro u hu hf
    refine hn u hu ?_
    simp only [Bool.and_eq_true, beq_iff_eq, and_assoc] at hf
    obtain ⟨h1, h2, h3, h4⟩ := hf
    split at h4
    next g' hg' => exact ⟨h1, h2, h3, g', hg', by simpa [or_assoc] using h4⟩
    next => cases h4

end saves

/-! R415: what RESUME_THREAD does with a parked thread, by action and by what parked it. -/

section resume
variable {s : State} {p : Part} {ops : List Nat} (h : RingHead s.m p 4 ops)
include h

theorem resumeContinue_badAction (ha : opAt ops 1 = 0 ∨ 3 < opAt ops 1)
    (hb : opAt ops 1 ≠ 0 ∨ parkedAt s.m p (opAt ops 0) = none) : Refuses (.resumeThreadContinue p.pid) s p := by
  show execResumeThreadContinue p.pid s = _
  unfold execResumeThreadContinue
  refine ring_refuse h (by simpa using ha) ?_
  have hn : (if opAt ops 1 = 0 then parkedAt s.m p (opAt ops 0) else none) = none := by
    rw [ite_eq_right_iff]
    tauto
  simp only [hn]

theorem resumeRetry_unparked (ha : opAt ops 1 = 1) (hk : parkedAt s.m p (opAt ops 0) = none) :
    Refuses (.resumeThreadRetry p.pid) s p := by
  show execResumeThreadRetry p.pid s = _
  unfold execResumeThreadRetry
  refine ring_refuse h (by simp [ha]) ?_
  simp only [hk]

theorem resumeAbandon_unparked (ha : opAt ops 1 = 2) (hk : parkedAt s.m p (opAt ops 0) = none) :
    Refuses (.resumeThreadAbandon p.pid) s p := by
  show execResumeThreadAbandon p.pid s = _
  unfold execResumeThreadAbandon
  refine ring_refuse h (by simp [ha]) ?_
  simp only [hk]

theorem resumeValue_unparked (ha : opAt ops 1 = 3) (hk : parkedAt s.m p (opAt ops 0) = none) :
    Refuses (.resumeThreadValue p.pid) s p := by
  show execResumeThreadValue p.pid s = _
  unfold execResumeThreadValue
  refine ring_refuse h (by simp [ha]) ?_
  simp only [hk]

section continues
variable (ha : opAt ops 1 = 0) {t : Thread}
include ha

theorem resumeContinue_group {b : Back} (hk : parkedAt s.m p (opAt ops 0) = some (t, .group b)) :
    exec (.resumeThreadContinue p.pid) s = answers s p (resumeGroup s.m t.gid) 1 0 := by
  show execResumeThreadContinue p.pid s = _
  unfold execResumeThreadContinue
  refine ring_done h (by simp [ha]) ?_
  simp only [ha, if_true, hk]

theorem resumeContinue_effect {r : Raise} (hk : parkedAt s.m p (opAt ops 0) = some (t, .effect r)) :
    (r.eff = 11 ∨ r.eff = 3 → exec (.resumeThreadContinue p.pid) s =
      answers s p (letGo s.m t (fun t => t.goSaved r.save)) 1 0) ∧
    (r.eff ≠ 11 → r.eff ≠ 3 → Refuses (.resumeThreadContinue p.pid) s p) := by
  simp only [Refuses, show exec (.resumeThreadContinue p.pid) s = execResumeThreadContinue p.pid s from rfl,
    execResumeThreadContinue]
  refine ⟨fun he => ring_done h (by simp [ha]) ?_, fun h11 h3 => ring_refuse h (by simp [ha]) ?_⟩
  · simp only [ha, if_true, hk, he]
  · simp only [ha, if_true, hk, h11, h3, or_self, if_false]

theorem resumeContinue_refuses {k : Park} (hk : parkedAt s.m p (opAt ops 0) = some (t, k))
    (hf : (∃ a c b, k = .fault a c b) ∨ ∃ n b, k = .copy n b) : Refuses (.resumeThreadContinue p.pid) s p := by
  show execResumeThreadContinue p.pid s = _
  unfold execResumeThreadContinue
  refine ring_refuse h (by simp [ha]) ?_
  rcases hf with ⟨a, c, b, rfl⟩ | ⟨n, b, rfl⟩ <;> simp only [ha, if_true, hk]

end continues

section retries
variable (ha : opAt ops 1 = 1) {t : Thread}
include ha

theorem resumeRetry_fault {kind c : Nat} {retry : Bool} (hk : parkedAt s.m p (opAt ops 0) = some (t, .fault kind c retry)) :
    (retry = true → kind ≤ 4 → exec (.resumeThreadRetry p.pid) s = answers s p (letGo s.m t Thread.retried) 1 0) ∧
    (retry = false ∨ 4 < kind → Refuses (.resumeThreadRetry p.pid) s p) := by
  simp only [Refuses, show exec (.resumeThreadRetry p.pid) s = execResumeThreadRetry p.pid s from rfl, execResumeThreadRetry]
  refine ⟨fun hr hle => ring_done h (by simp [ha]) ?_, fun hr => ring_refuse h (by simp [ha]) ?_⟩
  · simp only [hk, hr, hle, and_self, if_true]
  · have hn : ¬ (retry = true ∧ kind ≤ 4) := by
      rintro ⟨h1, h2⟩
      rcases hr with hr | hr
      · rw [hr] at h1; cases h1
      · omega
    simp only [hk, hn, if_false]

theorem resumeRetry_copy {n kind c : Nat} {b : Back} (hk : parkedAt s.m p (opAt ops 0) = some (t, .copy n b))
    (hc : copyFault s.m t.gid n = some (kind, c)) :
    (kind = 1 ∨ kind = 2 → exec (.resumeThreadRetry p.pid) s = answers s p
      (letGo (updCopyOf s.m t.gid n (fun x => { x with stopped := none })) t (fun t => { t with stat := b.stat })) 1 0) ∧
    (kind ≠ 1 → kind ≠ 2 → Refuses (.resumeThreadRetry p.pid) s p) := by
  simp only [Refuses, show exec (.resumeThreadRetry p.pid) s = execResumeThreadRetry p.pid s from rfl, execResumeThreadRetry]
  refine ⟨fun hr => ring_done h (by simp [ha]) ?_, fun h1 h2 => ring_refuse h (by simp [ha]) ?_⟩
  · simp only [hk, hc, hr, if_true]
  · simp only [hk, hc, h1, h2, or_self, if_false]

theorem resumeRetry_refuses {k : Park} (hk : parkedAt s.m p (opAt ops 0) = some (t, k))
    (hf : (∃ b, k = .group b) ∨ ∃ r, k = .effect r) : Refuses (.resumeThreadRetry p.pid) s p := by
  show execResumeThreadRetry p.pid s = _
  unfold execResumeThreadRetry
  refine ring_refuse h (by simp [ha]) ?_
  rcases hf with ⟨b, rfl⟩ | ⟨r, rfl⟩ <;> simp only [hk]

end retries

section abandons
variable (ha : opAt ops 1 = 2) {t : Thread}
include ha

theorem resumeAbandon_fault {a c : Nat} {b : Bool} (hk : parkedAt s.m p (opAt ops 0) = some (t, .fault a c b)) :
    exec (.resumeThreadAbandon p.pid) s = answers s p (faultGroup s.m t.gid) 1 0 := by
  show execResumeThreadAbandon p.pid s = _
  unfold execResumeThreadAbandon
  refine ring_done h (by simp [ha]) ?_
  simp only [hk]

/-- The tile command on which an abandoned thread stopped is dropped with it. -/
def droppedFor (m : Mach) (gid : Nat) (r : Raise) : Mach := match r.cmd with | some n => dropCmd m gid n | none => m

theorem resumeAbandon_effect {r : Raise} (hk : parkedAt s.m p (opAt ops 0) = some (t, .effect r)) :
    exec (.resumeThreadAbandon p.pid) s = answers s p (faultGroup (droppedFor s.m t.gid r) t.gid) 1 0 := by
  show execResumeThreadAbandon p.pid s = _
  unfold execResumeThreadAbandon
  refine ring_done h (by simp [ha]) ?_
  simp only [hk]
  rfl

theorem resumeAbandon_copy {n : Nat} {b : Back} (hk : parkedAt s.m p (opAt ops 0) = some (t, .copy n b)) :
    exec (.resumeThreadAbandon p.pid) s = answers s p (letGo (updCopyOf s.m t.gid n
      (fun x => { x with stopped := none, status := 2 })) t (fun t => { t with stat := b.stat })) 1 0 := by
  show execResumeThreadAbandon p.pid s = _
  unfold execResumeThreadAbandon
  refine ring_done h (by simp [ha]) ?_
  simp only [hk]

theorem resumeAbandon_group {b : Back} (hk : parkedAt s.m p (opAt ops 0) = some (t, .group b)) :
    Refuses (.resumeThreadAbandon p.pid) s p := by
  show execResumeThreadAbandon p.pid s = _
  unfold execResumeThreadAbandon
  refine ring_refuse h (by simp [ha]) ?_
  simp only [hk]

end abandons

section values
variable (ha : opAt ops 1 = 3) {t : Thread}
include ha

/-- ARITH takes the value in its destination, a uniform register in the group too. -/
def valueInGroup (m : Mach) (t : Thread) (d : Dest) (v : Nat) : Mach :=
  match d with
  | .k n => putKBoth m t n (BitVec.ofNat 32 v)
  | _ => m

theorem resumeValue_arith {r : Raise} (hk : parkedAt s.m p (opAt ops 0) = some (t, .effect r)) (he : r.eff = 3) {d : Dest}
    (hd : r.dest = some d) : exec (.resumeThreadValue p.pid) s = answers s p (letGo (valueInGroup s.m t d (opAt ops 2)) t
      (fun u => (u.putDest d (BitVec.ofNat 64 (opAt ops 2))).goSaved r.save)) 1 0 := by
  show execResumeThreadValue p.pid s = _
  unfold execResumeThreadValue
  refine ring_done h (by simp [ha]) ?_
  simp only [hk, he, if_true, hd]
  cases d <;> rfl

theorem resumeValue_command {r : Raise} (hk : parkedAt s.m p (opAt ops 0) = some (t, .effect r)) (he : r.eff = 4 ∨ r.eff = 5)
    {n : Nat} (hn : r.cmd = some n) : exec (.resumeThreadValue p.pid) s = answers s p
      (letGo (resumeCmd s.m t.gid n (opAt ops 2)) t (fun u => u.goSaved r.save)) 1 0 := by
  show execResumeThreadValue p.pid s = _
  unfold execResumeThreadValue
  refine ring_done h (by simp [ha]) ?_
  have h3 : r.eff ≠ 3 := by omega
  simp only [hk, h3, if_false, he, if_true, hn]

theorem resumeValue_break {r : Raise} (hk : parkedAt s.m p (opAt ops 0) = some (t, .effect r)) (he : r.eff = 11) :
    exec (.resumeThreadValue p.pid) s = answers s p (letGo s.m t (fun u => u.goSaved r.save)) 1 0 := by
  show execResumeThreadValue p.pid s = _
  unfold execResumeThreadValue
  refine ring_done h (by simp [ha]) ?_
  simp only [hk, he, if_true, Nat.reduceEqDiff, or_self, if_false]

theorem resumeValue_noValue {k : Park} (hk : parkedAt s.m p (opAt ops 0) = some (t, k))
    (hf : ∀ r, k = .effect r → r.eff ∉ [3, 4, 5, 11]) : Refuses (.resumeThreadValue p.pid) s p := by
  show execResumeThreadValue p.pid s = _
  unfold execResumeThreadValue
  refine ring_refuse h (by simp [ha]) ?_
  cases k with
  | effect r =>
    have := hf r rfl
    simp only [List.mem_cons, List.not_mem_nil, or_false, not_or] at this
    obtain ⟨h3, h4, h5, h11⟩ := this
    simp only [hk, h3, h4, h5, h11, or_self, if_false]
  | _ => simp only [hk]

end values
end resume

/-- Settles O51: the equations of the fault queue and the ring, then two lemmas per command. -/
theorem supervisorCommands : Obligations.SupervisorCommands := by
  unfold Obligations.SupervisorCommands
  refine ⟨?post, ?layout, ?consume, ?held, ?produce, fun _ _ _ _ _ => rfl, ?create, ?new, fun _ _ _ _ => descBad_false,
    ?contexts, ?resume⟩
  case post =>
    intro m cid f x hx hc
    refine ⟨fun hh hr => ?_, fun hr => postRec_holds hx hr f⟩
    rw [postRec_writes hx hh hr, ← hc]
    rfl
  case layout => exact fun f h1 h2 h3 h4 h5 h6 h7 h8 h9 => frec_layout f h1 h2 h3 h4 h5 h6 h7 h8 h9
  case consume =>
    intro s cid n c x hx hc
    rw [faultQueueConsume_eq hx, hc]
    exact ⟨fun hle => by rw [if_neg (Nat.not_lt.2 hle)], fun hlt => by rw [if_pos hlt]⟩
  case held =>
    refine fun m cid f l x => ⟨rfl, fun hx => ?_⟩
    rw [postHeld_cons hx]
    exact ⟨fun hr => if_pos hr, fun hr => if_neg (Nat.not_lt.2 hr)⟩
  case produce =>
    intro s part n p cmds hp hn hl
    rw [commandRingProduce_eq hp ((live_iff p).2 hl), hn]
    exact ⟨fun hle => by rw [if_neg (Nat.not_lt.2 hle)], fun hlt => by rw [if_pos hlt]⟩
  case create =>
    rintro s p ops a h rfl
    exact ⟨createContext_bad h, fun h0 ho m n hn => createContext_done h h0 ho hn⟩
  case new =>
    intro m p desc b ses n x hn hx
    rw [newContext_eq hn hx.symm]
    exact ⟨fun hb => if_pos hb, fun hb => if_neg (by rw [hb]; decide)⟩
  case contexts =>
    intro s p ops
    refine ⟨fun h => ⟨fun hx => destroyContext_refuses h fun x hx' => absurd (hx.symm.trans hx') nofun,
        fun x hx => ⟨fun hs => destroyContext_refuses h fun y hy => Option.some.inj (hx.symm.trans hy) ▸ hs,
          destroyContext_done h hx⟩⟩,
      fun h => ⟨stopMode_refuses h, fun x hx => stopMode_done h hx⟩, saveGroup_noCtx, ?_⟩
    rintro h x named hx rfl
    refine ⟨saveGroup_unnamed h hx, fun t g hs ht hg hn m hm => ?_, fun gid g hs hg => saveGroup_asked h hx hs hg,
      fun gid hs hg => saveGroup_gone h hx hs hg⟩
    rw [saveGroup_names h hx hs ht hg hn hm]
    refine ⟨fun hst => ?_, fun hst => by rw [if_pos hst]⟩
    rw [if_neg (by rcases hst with hst | hst <;> simp [hst])]
  case resume =>
    intro s p ops h
    refine ⟨resumeContinue_badAction h, fun hk => ⟨fun ha => resumeRetry_unparked h ha hk,
      fun ha => resumeAbandon_unparked h ha hk, fun ha => resumeValue_unparked h ha hk⟩, fun t k hk => ?_⟩
    refine ⟨fun ha => ⟨?_, ?_, resumeContinue_refuses h ha hk⟩, fun ha => ⟨?_, ?_, resumeRetry_refuses h ha hk⟩,
      fun ha => ⟨?_, ?_, ?_, ?_⟩, fun ha v hv => ⟨?_, fun hf => resumeValue_noValue h ha hk fun r hr => absurd hr (hf r)⟩⟩
    · rintro b rfl
      exact resumeContinue_group h ha hk
    · rintro r rfl
      exact resumeContinue_effect h ha hk
    · rintro kind c retry rfl
      exact resumeRetry_fault h ha hk
    · rintro n b kind c rfl hc
      exact resumeRetry_copy h ha hk hc
    · rintro a c b rfl
      exact resumeAbandon_fault h ha hk
    · rintro r m rfl rfl
      exact resumeAbandon_effect h ha hk
    · rintro n b rfl
      exact resumeAbandon_copy h ha hk
    · rintro b rfl
      exact resumeAbandon_group h ha hk
    · rintro r rfl
      subst hv
      exact ⟨fun d he hd => resumeValue_arith h ha hk he hd, fun n he hn => resumeValue_command h ha hk he hn,
        resumeValue_break h ha hk, fun hn => resumeValue_noValue h ha hk fun r' hr => by cases hr; exact hn⟩

end Sys2Proof.Machine
end

section
/-!
PROOFS. O57 LinkEvents: the host link, second-tier ports and the fabric.
-/

namespace Sys2Proof.Machine

section link
variable {s : State} {p : Part} {part : Nat}

/-! R387 and R389: the host link comes up, answers snoops, and goes down. -/

theorem hostLinkUp_eq (hp : s.m.part? part = some p) (port area : Nat) : exec (.hostLinkUp part port area) s =
    .next ⟨s.agenda, if !p.live ∨ p.link ≠ .down ∨ !p.dies.contains (port / 2) ∨ (s.m.die (port / 2)).fatal ∨
      !ownRange p area quarBytes ∨ (p.linkPort.isSome ∧ (p.linkPort ≠ some port ∨ p.area ≠ area)) then s.m
      else s.m.updPart part (fun p => { p with link := .up, linkPort := some port, area := area })⟩ := by
  rw [ev_next (fun _ => rfl), hp]

theorem hostLinkLoss_eq (part : Nat) : exec (.hostLinkLoss part) s = .next ⟨s.agenda, linkLoss s.m part true⟩ := rfl

/-- The numbers that no held entry has are at least as many as are asked for. -/
theorem length_quarNums (p : Part) (n : Nat) : (quarNums p n).length = n := by
  have hheld : ((List.range (n + p.quarantine.length)).filter (fun i => p.quarantine.any (fun q => q.idx == i))).length ≤
      p.quarantine.length := by
    rw [← List.length_map (f := fun q : Quar => q.idx) (as := p.quarantine)]
    refine List.Nodup.length_le_of_subset (List.nodup_range.filter _) fun i hi => ?_
    simpa using (List.mem_filter.1 hi).2
  have hall := List.length_eq_length_filter_add (l := List.range (n + p.quarantine.length))
    (fun i => p.quarantine.any (fun q => q.idx == i))
  rw [List.length_range] at hall
  rw [quarNums, List.length_take]
  omega

theorem quarNums_sorted (p : Part) (n : Nat) : (quarNums p n).Pairwise (fun a b => a < b) :=
  (List.pairwise_lt_range.filter _).sublist (List.take_sublist _ _)

/-- Below a number that is taken, every number is taken or held. -/
theorem quarNums_lowest (p : Part) {n i j : Nat} (hj : j ∈ quarNums p n) (hi : i < j) :
    i ∈ quarNums p n ∨ ∃ q ∈ p.quarantine, q.idx = i := by
  by_cases hh : ∃ q ∈ p.quarantine, q.idx = i
  · exact .inr hh
  · refine .inl ?_
    unfold quarNums at hj ⊢
    have hjL := List.mem_of_mem_take hj
    have hsort := List.pairwise_lt_range (n := n + p.quarantine.length) |>.filter
      (fun i => !p.quarantine.any (fun q => q.idx == i))
    have hiL : i ∈ (List.range (n + p.quarantine.length)).filter (fun i => !p.quarantine.any (fun q => q.idx == i)) := by
      have hjr := List.mem_range.1 (List.mem_filter.1 hjL).1
      refine List.mem_filter.2 ⟨List.mem_range.2 (by omega), ?_⟩
      simpa using hh
    rw [← List.take_append_drop n (List.filter _ _)] at hsort hiL
    rcases List.mem_append.1 hiL with h | h
    · exact h
    · exact absurd ((List.pairwise_append.1 hsort).2.2 j hj i h) (by omega)

theorem hostLinkLoss_down (hp : s.m.part? part = some p) (hl : p.link ≠ .up) : exec (.hostLinkLoss part) s = .next s := by
  rw [hostLinkLoss_eq, linkLoss, hp]
  simp only [ne_eq, hl, not_false_eq_true, if_true]

/-- A link that fails puts its dirty lines in quarantine, tells every context that lost some, and ends the sessions. -/
theorem hostLinkLoss_up (hp : s.m.part? part = some p) (hl : p.link = .up) {dirty : List Line} {m1 m2 : Mach}
    (hd : dirty = (p.lines.filter (fun l => !l.clean)).foldl (fun r x => insertLine x r) [])
    (h1 : m1 = quarLines p ((quarNums p dirty.length).zip dirty)
      (dropHostWrs (s.m.updPart part (fun p => { p with link := .lost, lines := [], wbs := [] })) p))
    (h2 : m2 = (m1.ctxs.filter (fun x => x.part == part && x.stat != .gone)).foldl (fun m x =>
      let n := dirty.countP (fun l => l.asid == pte x.satp.toNat 44 16)
      if n = 0 then m else loseCtx m x n) m1) :
    exec (.hostLinkLoss part) s = .next ⟨s.agenda, (p.sessions.foldl (fun m x => endSession m p x) m2).updPart part
      (fun p => { p with link := .down })⟩ := by
  rw [hostLinkLoss_eq, linkLoss, hp]
  simp only [hl, ne_eq, not_true_eq_false, if_false, if_true, ← hd, ← h1]
  rw [h2]
  rfl

/-- A snoop that the link does not carry to the host's memory. -/
theorem hostSnoop_ignored (hp : s.m.part? part = some p) {pa : Nat} {bytes : List Byte}
    (h : p.link ≠ .up ∨ homeOf pa ≠ .host ∨ 512 < pa % 512 + bytes.length) (kind : Snoop) :
    exec (.hostSnoop part kind pa bytes) s = .next s := by
  rw [ev_next (fun _ => rfl), hp]
  simp only [h, if_true]

section snoops
variable (hp : s.m.part? part = some p) {pa : Nat} {bytes : List Byte} (hl : p.link = .up) (hh : homeOf pa = .host)
  (hb : pa % 512 + bytes.length ≤ 512)
include hp hl hh hb

/-- The bytes that an invalidating snoop leaves in host memory. -/
def hostPut (m : Mach) (pa : Nat) (bytes : List Byte) : Mach :=
  wakeWatch { m with mem := cwrite m.mem pa bytes } pa bytes.length

/-- An answer to the outside. -/
def sent (m : Mach) (r : List Nat) : Mach := { m with outbox := r :: m.outbox }

theorem hostSnoop_miss (hn : lineAt p.lines (pa / 512 * 512) = none) (kind : Snoop) :
    exec (.hostSnoop part kind pa bytes) s = .next ⟨s.agenda,
      let m := sent s.m [pa, if (lineAt p.wbs (pa / 512 * 512)).isSome then 1 else 0]
      if kind = .inv then hostPut m pa bytes else m⟩ := by
  rw [ev_next (fun _ => rfl), hp]
  simp only [hl, hh, Nat.not_lt.2 hb, ne_eq, not_true_eq_false, or_self, if_false, hn]
  cases kind <;> rfl

theorem hostSnoop_hit {l : Line} (hn : lineAt p.lines (pa / 512 * 512) = some l) {home : Mach}
    (hm : home = { s.m with mem := cwriteMask s.m.mem l.pa l.data l.dirty }) :
    exec (.hostSnoop part .inv pa bytes) s = .next ⟨s.agenda, hostPut (sent (home.updPart part
      (fun p => { p with lines := p.lines.filter (fun x => x.pa != l.pa) })) [pa, 2, bytesNat l.data]) pa bytes⟩ ∧
    exec (.hostSnoop part .data pa bytes) s = .next ⟨s.agenda, sent (home.updPart part
      (fun p => { p with lines := setLine p.lines l.asClean })) [pa, 3, bytesNat l.data]⟩ ∧
    exec (.hostSnoop part .cur pa bytes) s = .next ⟨s.agenda, sent s.m [pa, 4, bytesNat l.data]⟩ := by
  have hc : ¬ (p.link ≠ .up ∨ homeOf pa ≠ .host ∨ 512 < pa % 512 + bytes.length) := by
    rw [hl, hh]
    simpa using hb
  refine ⟨?_, ?_, ?_⟩ <;> rw [ev_next (fun _ => rfl), hp] <;> simp only [hc, if_false, hn, ← hm] <;> rfl

end snoops
end link

/-! R391 and R393: second-tier ports and fabric ports. -/

section ports
variable {s : State}

/-- The machine after a second-tier port has failed: no cache holds a line behind it. -/
def portFailed (m : Mach) (port : Nat) : Mach := { m with
  xfailed := port :: m.xfailed
  cores := m.cores.map (fun e => (e.1, { e.2 with lines := e.2.lines.filter (fun l => homeOf l.pa != .second port) }))
  clusters := m.clusters.map (fun e => (e.1, e.2.filter (fun l => homeOf l.pa != .second port))) }

theorem portFail_posts {port : Nat} {p : Part} (hp : s.m.partOf (port / 2) = some p) (h8 : port < 8) (hx : port ∉ s.m.xfailed)
    (hl : p.linkPort ≠ some port) :
    (∀ x, s.m.ctxs.find? (fun x => x.part == p.pid && x.stat != .gone) = some x → exec (.portFail port) s =
      .next ⟨s.agenda, postRec (portFailed s.m port) x.cid
        { kind := 5, cause := 0x0503, asid := asidOf (portFailed s.m port) x.cid, addr := port }⟩) ∧
    (s.m.ctxs.find? (fun x => x.part == p.pid && x.stat != .gone) = none →
      exec (.portFail port) s = .next ⟨s.agenda, portFailed s.m port⟩) := by
  have hc : ¬ (s.m.xfailed.contains port = true ∨ p.linkPort = some port ∨ 8 ≤ port) := by
    simp [hx, hl, h8]
  refine ⟨fun x hf => ?_, fun hf => ?_⟩ <;> rw [ev_next (fun _ => rfl), hp] <;> simp only [hc, if_false, hf] <;> rfl

theorem laneFail_eq (die port : Nat) : exec (.laneFail die port) s = .next ⟨s.agenda, if 4 ≤ die ∨ 6 ≤ port then s.m
    else noRoute (updPort s.m die port (fun f => { failed := f.failed + 1, up := f.up && decide (f.failed < 2) })) die⟩ := rfl

theorem fabricPortDown_eq (die port : Nat) : exec (.fabricPortDown die port) s = .next ⟨s.agenda,
    if 4 ≤ die ∨ 6 ≤ port then s.m else noRoute (updPort s.m die port (fun f => { f with up := false })) die⟩ := rfl

theorem noRoute_up {m : Mach} {d : Nat} (h : fabricUp m d = true) : noRoute m d = m := by
  rw [noRoute, if_pos h]

theorem noRoute_down {m : Mach} {d : Nat} (h : fabricUp m d = false) : noRoute m d = { m with
    dadds := m.dadds.map (fun x => if x.pkg ≠ none ∧ x.core / 64 = d ∧ x.ans = none then { x with ans := some 3 } else x) } := by
  rw [noRoute, if_neg (by rw [h]; decide)]
  simp only [Bool.and_eq_true, beq_iff_eq, and_assoc, Option.isSome_iff_ne_none, Option.isNone_iff_eq_none]

end ports

/-! R394 and R395: a request that arrives over the fabric. -/

section fabric
variable {s : State} {pkg pa n d : Nat} {p : Part} (hd : homeDie pa = some d) (hp : s.m.partOf d = some p)
include hd hp

/-- The test of R394: the partition lives, an admission covers the access, and the memory answers it. -/
def fabricAnswers (m : Mach) (p : Part) (pkg d pa n : Nat) (rd wr : Bool) : Bool :=
  p.live && p.admits.any (fun a => a.covers pkg pa n rd wr) && (reachable m .load d pa n).isOk &&
    (!rd || (poisoned m pa n).isNone)

theorem fabricRequest_refused {op : Option AtomOp} {wr : Bool}
    (h : fabricAnswers s.m p pkg d pa n (op.isSome || !wr) (op.isSome || wr) = false) (val : Nat) :
    exec (.fabricRequestArrive pkg pa n op wr val) s = .next ⟨s.agenda, sent s.m [pkg, pa, 0, 0]⟩ := by
  rw [ev_next (fun _ => rfl), hd, Option.bind_some, hp]
  unfold fabricAnswers at h
  simp only [Option.getD_some, h, Bool.not_false, if_true]
  rfl

theorem fabricRequest_atomic {o : AtomOp} {wr : Bool} (h : fabricAnswers s.m p pkg d pa n true true = true) (val : Nat) :
    exec (.fabricRequestArrive pkg pa n (some o) wr val) s = .next ⟨s.agenda, sent (wakeWatch (homeWrite s.m d pa
      (natBytes n (atomNew o n (memNat s.m pa n) (val % 2 ^ (8 * n)) (val / 2 ^ (8 * n))))) pa n)
        [pkg, pa, 1, memNat s.m pa n]⟩ := by
  rw [ev_next (fun _ => rfl), hd, Option.bind_some, hp]
  simp only [fabricAnswers, Bool.not_true, Bool.false_or] at h
  simp only [Option.getD_some, Option.isSome_some, Bool.not_true, Bool.false_or, Bool.true_or, h, Bool.false_eq_true, if_false]
  rfl

theorem fabricRequest_write (h : fabricAnswers s.m p pkg d pa n false true = true) (val : Nat) :
    exec (.fabricRequestArrive pkg pa n none true val) s = .next ⟨s.agenda,
      sent (wakeWatch (homeWrite s.m d pa (natBytes n val)) pa n) [pkg, pa, 1, 0]⟩ := by
  rw [ev_next (fun _ => rfl), hd, Option.bind_some, hp]
  unfold fabricAnswers at h
  simp only [Option.getD_some, Option.isSome_none, Bool.false_or, Bool.not_true, h, Bool.false_eq_true, if_false, if_true]
  rfl

theorem fabricRequest_read (h : fabricAnswers s.m p pkg d pa n true false = true) (val : Nat) :
    exec (.fabricRequestArrive pkg pa n none false val) s = .next ⟨s.agenda, sent s.m [pkg, pa, 1, memNat s.m pa n]⟩ := by
  rw [ev_next (fun _ => rfl), hd, Option.bind_some, hp]
  simp only [fabricAnswers, Bool.not_true, Bool.false_or] at h
  simp only [Option.getD_some, Option.isSome_none, Bool.false_or, Bool.not_true, Bool.not_false, h, Bool.false_eq_true, if_false]
  rfl

omit hd hp in
theorem fabricAnswers_true {m : Mach} {rd wr : Bool} (hl : p.live = true) (hr : reachable m .load d pa n = .ok ())
    (ha : ∃ a ∈ p.admits, a.covers pkg pa n rd wr = true) (hq : rd = true → poisoned m pa n = none) :
    fabricAnswers m p pkg d pa n rd wr = true := by
  simp only [fabricAnswers, hl, hr, List.any_eq_true.2 ha, Except.isOk, Except.toBool, Bool.and_true, Bool.true_and]
  cases rd with
  | false => rfl
  | true => simp [hq rfl]

omit hd hp in
theorem fabricAnswers_false {m : Mach} {rd wr : Bool} (ha : ¬ ∃ a ∈ p.admits, a.covers pkg pa n rd wr = true) :
    fabricAnswers m p pkg d pa n rd wr = false := by
  have hn : p.admits.any (fun a => a.covers pkg pa n rd wr) = false := by
    rw [Bool.eq_false_iff, ne_eq, List.any_eq_true]
    exact ha
  simp only [fabricAnswers, hn, Bool.and_false, Bool.false_and]

end fabric

/-- Settles O57: one lemma per event of the links, with the quarantine numbers said by their order. -/
theorem linkEvents : Obligations.LinkEvents := by
  unfold Obligations.LinkEvents
  refine ⟨?up, ?entry, fun _ _ _ => rfl, ?numbers, ?sorted, ?loss, ?lost, ?snoop, fun _ _ _ => rfl, ?port, ?lane, ?route,
    ?request⟩
  case up =>
    intro s p part port area hp
    rw [hostLinkUp_eq hp]
    refine ⟨fun hl hd hm hf ho hk => ?_, fun hb => ?_⟩
    · rw [if_neg]
      have ho : ownRange p area quarBytes = true := ho
      simp only [hl, hd, List.contains_iff_mem.2 hm, hf, ho, Bool.not_true, Bool.false_eq_true, ne_eq, not_true_eq_false,
        false_or]
      rcases hk with hk | ⟨hk, ha⟩
      · simp [hk]
      · simp [hk, ha]
    · have hb : p.link ≠ .down ∨ port / 2 ∉ p.dies ∨ ownRange p area quarBytes = false := hb
      rw [if_pos]
      rcases hb with hb | hb | hb <;> simp [hb]
  case entry => exact fun l e h1 h2 h3 he => quar_layout l e h1 h2 h3 he
  case numbers =>
    exact fun p n => ⟨length_quarNums p n, quarNums_sorted p n, fun i hi => quarNums_mem p n i hi,
      fun i j hj hi => quarNums_lowest p hj hi⟩
  case sorted =>
    intro l
    obtain ⟨hs, hm⟩ := sort_lines l [] List.Pairwise.nil
    exact ⟨hs, fun x => by rw [hm]; simp⟩
  case loss =>
    exact fun s p part hp => ⟨hostLinkLoss_down hp, fun hl dirty m1 m2 hd h1 h2 => hostLinkLoss_up hp hl hd h1 h2⟩
  case lost =>
    intro m m' x n hm
    rw [loseCtx, hm]
  case snoop =>
    intro s p part pa kind bytes hp
    refine ⟨fun h => hostSnoop_ignored hp h kind, fun hl hh hb => ⟨fun hn r hr => ?_, fun l hn home hm => ?_⟩⟩
    · rw [hostSnoop_miss hp hl hh hb hn kind, hr]
      exact ⟨fun hk => by rw [hk]; rfl, fun hk => by simp only [hk, if_false]; rfl⟩
    · obtain ⟨hinv, hdata, hcur⟩ := hostSnoop_hit hp hl hh hb hn hm
      exact ⟨fun hk => by rw [hk, hinv, hm]; rfl, fun hk => by rw [hk, hdata, hm]; rfl, fun hk => by rw [hk, hcur]; rfl⟩
  case port =>
    rintro s port p hp h8 hx hl m rfl
    exact portFail_posts hp h8 hx hl
  case lane =>
    intro s die port
    rw [laneFail_eq, fabricPortDown_eq]
    refine ⟨rfl, fun h => by simp only [h, if_true, and_self], fun hd hp f hf => ?_⟩
    have hn : ¬ (4 ≤ die ∨ 6 ≤ port) := by omega
    rw [hf, if_neg hn, if_neg hn]
    exact ⟨rfl, rfl⟩
  case route => exact fun m d => ⟨noRoute_up, noRoute_down⟩
  case request =>
    intro s pkg pa n val d op wr p hd hp out put may
    have hmay : ∀ rd wr, may rd wr ↔ ∃ a ∈ p.admits, a.covers pkg pa n rd wr = true := fun rd wr => by
      simp only [may, covers_iff]
    rw [hmay]
    refine ⟨fun hm => fabricRequest_refused hd hp (fabricAnswers_false hm) val, fun hl hr hm => ⟨?_, ?_, ?_⟩⟩
    · rintro rfl rfl
      exact fabricRequest_write hd hp (fabricAnswers_true hl hr hm nofun) val
    · rintro rfl rfl hq
      exact fabricRequest_read hd hp (fabricAnswers_true hl hr hm fun _ => hq) val
    · rintro o rfl hq
      exact fabricRequest_atomic hd hp (fabricAnswers_true hl hr hm fun _ => hq) val

end Sys2Proof.Machine
end

section
/-!
PROOFS. O53 Migration: a thread leaves its core, runs in a visitor context, and comes home.
-/

namespace Sys2Proof.Machine

/-! R356 and R357: a thread that has landed on an RV64 page leaves. -/

section departure
variable {s : State} {t : Thread} {g : Group} {m : Mach} {x : Xlat}

/-- The thread may go: nothing of it is outstanding, and it stands at the head of a clause that it has landed on. -/
theorem migrateOut_eq (ht : s.m.thread? t.gid t.tix = some t) (hg : s.m.group? t.gid = some g)
    (hst : t.stat = .ready ∨ t.stat = .held) (hl : t.landed = true) (hi : t.pos.idx = 0) (hr : groupRuns s.m t.gid = true)
    (hn : ∀ r ∈ s.m.running, r.gid = t.gid → t.tix ∉ r.tixs) (ha : awaited s.m t = []) (hf : ∀ n, n < 12 → flagCount s.m t n = 0)
    (hx : Machine.translate s.m (whoOf s.m t.gid) .fetch t.pos.hdr = .ok (m, x)) (hisa : isaTag m (whoOf s.m t.gid) t.pos.hdr = some 0)
    (hc : g.caller.map Prod.snd ≠ some t.pos.hdr) : exec (.migrateOut t.gid t.tix) s = .next ⟨s.agenda,
      if !chunkEmpty m g.core then addDue m g.core 9
      else if (m.core g.core).comC.isSome || !relReady m t 2 then m else departs m t⟩ := by
  have hrun : s.m.running.any (fun r => r.gid == t.gid && r.tixs.contains t.tix) = false := by
    rw [Bool.eq_false_iff, ne_eq, List.any_eq_true]
    rintro ⟨r, hr, he⟩
    simp only [Bool.and_eq_true, beq_iff_eq, List.contains_iff_mem] at he
    exact hn r hr he.1 he.2
  have hflags : (List.range 12).all (fun n => flagCount s.m t n == 0) = true := by
    simpa using hf
  have hready : (t.stat == .ready || t.stat == .held) = true := by simpa using hst
  rw [ev_next (fun _ => rfl), ht, hg]
  simp only [hready, hl, hi, hr, hrun, ha, hflags, hx, hisa, beq_self_eq_true, Bool.not_false, List.isEmpty_nil, Bool.and_self,
    if_true, hc, if_false]

end departure

/-! R360: a visitor context takes a thread, and gives it up after its 50 µs. -/

section visitors
variable {s : State} {die vis : Nat} {t : Thread}

theorem visitorTake_eq {x : Transit} {l : List Transit} (hq : (s.m.die die).vq = x :: l) (hv : vis < 32)
    (hfree : lget (s.m.die die).visitors vis = none) (hh : (s.m.die die).held = false) (ht : s.m.thread? x.gid x.tix = some t) :
    exec (.visitorTake die vis) s = .next ⟨s.agenda,
      let m := updHart (s.m.updDie die (fun d => { d with
        vq := l, visitors := lput d.visitors vis ⟨x.gid, x.tix, x.img, x.pc, s.m.time⟩ })) die (8 + vis) (fun h => { h with resv := none })
      putPointer (putRecState m t 1) die vis (recordAddr m t)⟩ := by
  have hc : ¬ (32 ≤ vis ∨ (lget (s.m.die die).visitors vis).isSome = true ∨ (s.m.die die).held = true) := by
    simp [hv, hfree, hh]
  rw [ev_next (fun _ => rfl)]
  simp only [hq, hc, if_false, ht]

variable {v : Visitor} (hv : lget (s.m.die die).visitors vis = some v) (ht : s.m.thread? v.gid v.tix = some t)
include hv ht

theorem visitorDisplace_eq (img : Image) (pc : Nat) : exec (.visitorDisplace die vis img pc) s = .next ⟨s.agenda,
    if (s.m.die die).held ∨ (s.m.die die).vq.isEmpty ∨ s.m.time < v.since + 50000 then s.m
    else (leavesVisitor s.m die vis t img pc 0).updDie die (fun d => { d with
      vq := d.vq ++ [⟨v.gid, v.tix, img, pc, none⟩] })⟩ := by
  rw [ev_next (fun _ => rfl)]
  simp only [hv, ht]

theorem visThread_of : visThread s.m die vis = some t := by
  rw [visThread, hv, Option.bind_some, ht]

/-! R361: a jump to a Ubhus page brings the thread home, when the fetch of its target passes its checks. -/

/-- The trap of a landing whose target's translation fails (Table 23-3). -/
def landTrap : MemErr → Nat
  | .fault 3 _ => 25
  | .fault 4 _ => 26
  | _ => 24

variable (hl : hartLives s.m die (8 + vis) = true)
include hl

theorem visitorLand_fails {pc sepc : Nat} {e : MemErr} (he : Machine.translate s.m (visWho s.m vis t) .fetch pc = .error e)
    (img : Image) : exec (.visitorLandUbhus die vis img ⟨pc, sepc⟩) s =
      .next ⟨s.agenda, hartGot s.m die (8 + vis) (.trap (landTrap e) pc sepc)⟩ := by
  rw [ev_next (fun _ => rfl), visThread_of hv ht]
  simp only [hl, Bool.not_true, Bool.false_eq_true, if_false, he]
  rcases e with ⟨k, c⟩ | c
  · rcases k with _ | _ | _ | _ | _ | k <;> rfl
  · rfl

theorem visitorLand_eq {pc sepc : Nat} {m : Mach} {x : Xlat}
    (hx : Machine.translate s.m (visWho s.m vis t) .fetch pc = .ok (m, x)) (img : Image) :
    exec (.visitorLandUbhus die vis img ⟨pc, sepc⟩) s = .next ⟨s.agenda,
      if isaTag m (visWho s.m vis t) pc ≠ some 1 then s.m
      else if pc % 8 ≠ 0 then hartGot s.m die (8 + vis) (.trap 0 pc sepc)
      else if !relReady m t 2 then s.m else goesHome m die vis t img pc none⟩ := by
  rw [ev_next (fun _ => rfl), visThread_of hv ht]
  simp only [hl, Bool.not_true, Bool.false_eq_true, if_false, hx]

end visitors

/-! R362: a returning thread re-enters its home slot. -/

section home
variable {s : State} {t : Thread} {g : Group} {x : Transit} (ht : s.m.thread? t.gid t.tix = some t)
  (hg : s.m.group? t.gid = some g)
  (hx : (s.m.die g.die).homing.find? (fun x => x.gid == t.gid && x.tix == t.tix) = some x)
include ht hg hx

theorem returnHome_saved (hs : g.stat = .saved ∨ g.stat = .saving) :
    exec (.returnHome t.gid t.tix) s = .next ⟨s.agenda, putRecState s.m t 3⟩ := by
  rw [ev_next (fun _ => rfl), ht, hg]
  simp only [hx, hs, if_true]

variable (hs : g.stat ≠ .saved) (hs' : g.stat ≠ .saving) (hb : ∀ r ∈ s.m.running, r.core ≠ g.core)
include hs hs' hb

omit ht hg hx hs hs' in
theorem atBoundary_of : atBoundary s.m g.core = true := by
  simpa [atBoundary] using hb

theorem returnHome_fullChunk (hc : chunkEmpty s.m g.core = false) :
    exec (.returnHome t.gid t.tix) s = .next ⟨s.agenda, addDue s.m g.core 9⟩ := by
  rw [ev_next (fun _ => rfl), ht, hg]
  simp only [hx, hs, hs', or_self, if_false, atBoundary_of hb, Bool.not_true, Bool.false_eq_true, hc, Bool.not_false, if_true]

theorem returnHome_enters (hc : chunkEmpty s.m g.core = true) (hcom : (s.m.core g.core).comC = none) (hp : x.park = none) :
    exec (.returnHome t.gid t.tix) s = .next ⟨s.agenda,
      let m := s.m.updDie g.die (fun d => { d with homing := d.homing.filter (fun y => !(y.gid == t.gid && y.tix == t.tix)) })
      acqDo (updBoth m t.gid t.tix (fun u => { withImage u (m.recOf t.gid).regs x.img with
        pos := ⟨x.pc, 0⟩, landed := true, stat := .ready, pack := 0 })) g.core 2⟩ := by
  rw [ev_next (fun _ => rfl), ht, hg]
  simp only [hx, hs, hs', or_self, if_false, atBoundary_of hb, Bool.not_true, Bool.false_eq_true, hc, hcom, Option.isSome_none, hp]

end home

/-! R364: the exception of a visitor's code is delivered at home. -/

theorem putSide_gid (t : Thread) (n base : Nat) (l : List (Nat × DWord)) : (putSide t n base l).gid = t.gid :=
  foldl_keeps (fun u : Thread => u.gid = t.gid) _ (fun u e h => by split <;> simp [h]) l t rfl

theorem withImage_gid (t : Thread) (n : Nat) (g : Image) : (withImage t n g).gid = t.gid := by
  simp only [withImage, putSide_gid]

section delivery
variable {m : Mach} {die vis : Nat} {u : Thread} {x : Raise} (img : Image) (deep : Mach)

theorem visDeliver_unhandled {rds : List (Nat × Nat)} (h : deliverPlan m u x (visWho m vis u) true = .ok (.inr rds)) :
    visDeliver m die vis u img x deep = parksHome m die vis u img x := by
  simp only [visDeliver, h]

theorem visDeliver_readFault {k c a : Nat} {w : Acc} {rds : List (Nat × Nat)}
    (h : deliverPlan m u x (visWho m vis u) true = .error (.mem (.fault k c) w a rds)) :
    visDeliver m die vis u img x deep = hartGot m die (8 + vis) (trapOf false a x.word.hdr (.fault k c)) := by
  simp only [visDeliver, h]

theorem visDeliver_deep {a b c : Nat} {rds : List (Nat × Nat)}
    (h : deliverPlan m u x (visWho m vis u) true = .error (.eff a b c rds)) : visDeliver m die vis u img x deep = deep := by
  simp only [visDeliver, h]

section handled
variable {p : FxPlan} (h : deliverPlan m u x (visWho m vis u) true = .ok (.inl p))
include h

theorem visDeliver_writeFault {k c a : Nat} (hp : fxProbe p.x.m p.x.who p.wrs = some (.fault k c, a)) :
    visDeliver m die vis u img x deep = hartGot m die (8 + vis) (trapOf true a x.word.hdr (.fault k c)) := by
  simp only [visDeliver, h, hp]

/-- A thread that goes home to its handler's entry: what no squash takes back goes with it (R357, R359). -/
def entersHandler (m' : Mach) (die vis : Nat) (u v : Thread) (nreg : Nat) : Mach :=
  goesHome (updBoth m' u.gid u.tix (fun c => { c with
    hsp := v.hsp, gen := v.gen, arith := v.arith, halts := v.halts, lost := v.lost })) die vis v (imageOf v nreg) v.pos.hdr none

theorem visDeliver_enters (hp : fxProbe p.x.m p.x.who p.wrs = none) {m' : Mach}
    (hw : hartStores p.x.who (u.gid, u.tix) p.x.m p.wrs = some m') :
    visDeliver m die vis u img x deep = entersHandler m' die vis u (p.f u) (m.recOf u.gid).regs := by
  simp only [visDeliver, h, hp, hw]
  rfl

end handled
end delivery

section exceptions
variable {s : State} {die vis : Nat} {t : Thread} {v : Visitor} (hv : lget (s.m.die die).visitors vis = some v)
  (ht : s.m.thread? v.gid v.tix = some t) (hl : hartLives s.m die (8 + vis) = true)
include hv ht hl

theorem visitorException_eq (img : Image) (pc : Nat) (e : VisExc) : exec (.visitorException die vis img pc e) s =
    .next ⟨s.agenda, if decide (e = .linkLost 0 2) ∧ !t.lost then s.m else
      let u := { withImage t (s.m.recOf t.gid).regs img with lost := t.lost && !decide (e = .linkLost 0 2) }
      let x := visRaise pc e
      let depth : Raise := { x with eff := 10, a2 := BitVec.ofNat 64 x.eff, a3 := 2 }
      visDeliver s.m die vis u img x (visDeliver s.m die vis u img depth (parksHome s.m die vis u img depth))⟩ := by
  rw [ev_next (fun _ => rfl)]
  unfold visRaises
  rw [visThread_of hv ht]
  simp only [hl, Bool.not_true, Bool.false_eq_true, false_or]
  rcases e with bits | ⟨ea, size⟩ | c | ⟨ea, cause⟩
  case linkLost => rcases ea with _ | ea <;> rcases cause with _ | _ | _ | cause <;> rfl
  all_goals rfl

end exceptions

theorem visRaise_word (pc : Nat) (e : VisExc) : (visRaise pc e).word = ⟨pc, 0⟩ := by cases e <;> rfl

theorem visWho_imaged (m : Mach) (vis : Nat) (t : Thread) (n : Nat) (g : Image) (b : Bool) :
    visWho m vis { withImage t n g with lost := b } = visWho m vis t := by
  show ({ whoOf m (withImage t n g).gid with l1 := false, hart := some (8 + vis) } : Who) = _
  rw [withImage_gid]
  rfl

/-- Settles O53, by the parts of a migration in their order: departure, the visitor context, the way home, exceptions. -/
theorem migration : Obligations.Migration := by
  unfold Obligations.Migration
  refine ⟨?departs, ?takes, ?visits, ?returns, fun _ _ _ _ _ _ => ⟨rfl, rfl, rfl, rfl⟩, ?raises⟩
  case departs =>
    intro s t g m x ht hg hst hl hi hr hn ha hf hx hisa hc
    rw [migrateOut_eq ht hg hst hl hi hr hn ha hf hx hisa hc]
    refine ⟨fun h => by rw [h]; rfl, fun h hb => ?_, fun h hcom hrel img m1 himg hm1 => ?_⟩
    · have : ((m.core g.core).comC.isSome || !relReady m t 2) = true := by
        rcases hb with hb | hb <;> simp [hb, Option.isSome_iff_ne_none]
      simp only [h, this, Bool.not_true, Bool.false_eq_true, if_false, if_true]
    · simp only [h, hcom, hrel, Option.isSome_none, Bool.not_true, Bool.or_self, Bool.false_eq_true, if_false]
      rw [himg, hm1]
      rfl
  case takes => exact fun s die vis x l t hq hv hfree hh ht => visitorTake_eq hq hv hfree hh ht
  case visits =>
    intro s die vis pc sepc img v t hv ht
    refine ⟨fun hh hq hw => ?_, fun hb => ?_, fun hl who (hwho : who = visWho s.m vis t) => ⟨fun e he => ?_, fun m x hx => ?_⟩⟩
    · rw [visitorDisplace_eq hv ht, if_neg]
      · rfl
      · simp only [hh, Bool.false_eq_true, List.isEmpty_iff, hq, false_or]
        omega
    · rw [visitorDisplace_eq hv ht, if_pos]
      rw [List.isEmpty_iff]
      exact .inr hb
    · rw [hwho] at he
      exact visitorLand_fails hv ht hl he img
    · rw [hwho] at hx ⊢
      have he := visitorLand_eq hv ht hl (sepc := sepc) hx img
      refine ⟨fun hisa => he.trans ?_, fun hisa => ⟨fun h8 => he.trans ?_, fun h8 hr => he.trans ?_, fun h8 hr => he.trans ?_⟩⟩
      · rw [if_pos hisa]
      all_goals rw [if_neg (not_not_intro hisa)]
      · rw [if_pos h8]
      · rw [if_neg (not_not_intro h8), if_pos (by rw [hr]; rfl)]
      · rw [if_neg (not_not_intro h8), if_neg (by rw [hr]; decide)]
        rfl
  case returns =>
    intro s t g x ht hg hx
    exact ⟨returnHome_saved ht hg hx, fun hs hs' hb => ⟨returnHome_fullChunk ht hg hx hs hs' hb,
      returnHome_enters ht hg hx hs hs' hb⟩⟩
  case raises =>
    intro s die vis pc img e v t hv ht hl
    refine ⟨fun he hlost => ?_, fun hlost who u x depth hwho hu hx hd => ?_⟩
    · rw [visitorException_eq hv ht hl, if_pos (by simp [he, hlost])]
    · have hex : exec (.visitorException die vis img pc e) s = .next ⟨s.agenda,
          visDeliver s.m die vis u img x (visDeliver s.m die vis u img depth (parksHome s.m die vis u img depth))⟩ := by
        rw [visitorException_eq hv ht hl, if_neg, hd, hx, hu]
        rintro ⟨he, hnl⟩
        rw [hlost (of_decide_eq_true he)] at hnl
        cases hnl
      have hw : who = visWho s.m vis u := by
        rw [hwho, hu, visWho_imaged]
        rfl
      have hpc : x.word.hdr = pc := by rw [hx, visRaise_word]
      rw [hex, hw]
      refine ⟨fun rds h => ?_, fun k c w a rds h => ?_, fun p h => ⟨fun k c a hp => ?_, fun m' hp hm => ?_⟩,
        fun b c d rds h => ⟨fun rds h' => ?_, fun b c d rds h' => ?_, fun p m' h' hp hm => ?_⟩⟩
      · rw [visDeliver_unhandled _ _ h]
        rfl
      · rw [visDeliver_readFault _ _ h, hpc]
      · rw [visDeliver_writeFault _ _ h hp, hpc]
      · rw [visDeliver_enters _ _ h hp hm]
        rfl
      · rw [visDeliver_deep _ _ h, visDeliver_unhandled _ _ h']
        rfl
      · rw [visDeliver_deep _ _ h, visDeliver_deep _ _ h']
        rfl
      · rw [visDeliver_deep _ _ h, visDeliver_enters _ _ h' hp hm]
        rfl

end Sys2Proof.Machine
end

section
/-!
PROOFS. O45 TileCommands: the commands of the tile class.
-/

namespace Sys2Proof.Machine

/-! R287 to R297 and R313 to R317: what each word of the tile class issues. -/

section words
variable {s : State} {r : Running} {t : Thread} {g : Guard} (h : Escapes s r t g)
include h

/-- A word of the class that has passed its checks issues one command. -/
theorem issues_of {i : Instr} {f : Mach → Running → Thread → Mach} {d : Nat} {ok : Bool} {x : TCmd} {y : Nat → TCmd}
    (hi : ∀ s, exec i s = .next (s.onMach (fun m => escWord m g 6 1 f))) (hf : f s.m r t = issueCmd s.m r t d ok x)
    (hy : ∀ n, y n = { x with n := n, gid := t.gid, tix := t.tix, hdr := r.hdr }) :
    exec i s = .next ⟨s.agenda, creditWord (issued s.m r t d ok y) r t 6 1⟩ := by
  rw [esc_next h hi, hf, issued_eq _ _ _ _ _ _ _ hy]

/-- A word that raises before it issues takes no credit. -/
theorem raises_of {i : Instr} {f : Mach → Running → Thread → Mach} {x : Raise}
    (hi : ∀ s, exec i s = .next (s.onMach (fun m => escWord m g 6 1 f))) (hf : f s.m r t = withThread s.m t (raised x)) :
    exec i s = .next ⟨s.agenda, withThread s.m t (raised x)⟩ := by
  rw [esc_next h hi, hf, credit_raised (alone_here h.toAlone)]

theorem tzero_issues (k : Nat) (fr : Bool) (d : Nat) : exec (.tzero g k fr d) s = .next ⟨s.agenda,
    creditWord (issued s.m r t d true (commandOf r t k 0x280 (.zero fr) none)) r t 6 1⟩ :=
  issues_of h (fun _ => rfl) rfl (fun _ => rfl)

theorem tdadd_issues (tx ty d a fl : Nat) : exec (.tdadd g tx ty d a fl) s = .next ⟨s.agenda,
    creditWord (issued s.m r t d (descOk s.m.pkg (t.rdD a).toNat)
      (commandOf r t tx 0x284 (.dadd (t.rdD a).toNat ty) (r.flag fl))) r t 6 1⟩ :=
  issues_of h (fun _ => rfl) rfl (fun _ => rfl)

theorem pvap_issues (tile pv : Nat) (inv : Bool) (d fl : Nat) : exec (.pvap g tile pv inv d fl) s = .next ⟨s.agenda,
    creditWord (issued s.m r t d true (commandOf r t tile 0x28B (.pvap pv inv) (r.flag fl))) r t 6 1⟩ :=
  issues_of h (fun _ => rfl) rfl (fun _ => rfl)

/-! `tld` and `tst` (R288, R289). -/

section loads
variable {y : Tls} (hy : y.g = g) {e : Elem} (he : slotOf (s.m.recOf t.gid).slots y.slot = some e)
include hy he

theorem tld_checks : exec (.tld y) s = .next ⟨s.agenda, creditWord (tlsCheck s.m r t (t.rd y.a).toNat (t.rd y.b).toNat e.bits .load
    (issued s.m r t y.d true (fun n => { commandOf r t y.tile 0x281 (.ld (t.rd y.a).toNat (t.rd y.b).toNat
      (slotWord s.m t.gid y.slot) (capture s.m r.core e).1) (r.flag y.sel) n with bank := (capture s.m r.core e).2 })))
      r t 6 1⟩ := by
  subst hy
  rw [esc_next h (fun _ => rfl)]
  simp only [he]
  rw [issued_eq _ _ _ _ _ _ _ (fun _ => rfl)]
  rfl

theorem tst_checks : exec (.tst y) s = .next ⟨s.agenda, creditWord (tlsCheck s.m r t (t.rd y.a).toNat (t.rd y.b).toNat e.bits .store
    (issued s.m r t y.d true (commandOf r t y.tile 0x282 (.st (t.rd y.a).toNat (t.rd y.b).toNat
      (slotWord s.m t.gid y.slot)) (r.flag y.sel)))) r t 6 1⟩ := by
  subst hy
  rw [esc_next h (fun _ => rfl)]
  simp only [he]
  rw [issued_eq _ _ _ _ _ _ _ (fun _ => rfl)]
  rfl

end loads

omit h in
theorem tlsCheck_misaligned {o st bits : Nat} (hm : o % 8 ≠ 0 ∨ st % 8 ≠ 0) (acc : Acc) (go : Mach) :
    tlsCheck s.m r t o st bits acc go = withThread s.m t (raised (misalignAt r o 8 1)) := by
  rw [tlsCheck, if_pos hm, misalign_eq]

section range
variable {o st bits : Nat} (ho : o % 8 = 0) (hst : st % 8 = 0)
include ho hst

omit h in
theorem tlsCheck_outside (hx : (s.m.recOf t.gid).scratch < o + 31 * st + 32 * bits / 8) (acc : Acc) (go : Mach) :
    tlsCheck s.m r t o st bits acc go = superFault s.m t 2 0x0203 acc.code 0 o ⟨r.hdr, r.idx⟩ := by
  rw [tlsCheck, if_neg (by simp [ho, hst]), if_pos hx]
  rfl

omit h in
theorem tlsCheck_fits (hx : o + 31 * st + 32 * bits / 8 ≤ (s.m.recOf t.gid).scratch) (acc : Acc) (go : Mach) :
    tlsCheck s.m r t o st bits acc go = go := by
  rw [tlsCheck, if_neg (by simp [ho, hst]), if_neg (Nat.not_lt.2 hx)]

end range

/-! `tmma` and `tcode` (R291 to R293). -/

section blocks
variable (d a fl : Nat)

theorem tmma_misaligned : Misaligned (.tmma g d a fl) s r t (t.rd a).toNat 64 := fun hm =>
  raises_of h (fun _ => rfl) ((if_pos hm).trans (misalign_eq ..))

theorem tcode_misaligned : Misaligned (.tcode g d a fl) s r t (t.rd a).toNat 32 := fun hm =>
  raises_of h (fun _ => rfl) ((if_pos hm).trans (misalign_eq ..))

theorem tmma_refused (ho : (t.rd a).toNat % 64 = 0) (hp : padOk s.m t.gid (t.rd a).toNat 64 = false) :
    exec (.tmma g d a fl) s = .next ⟨s.agenda, creditWord (padRefused s.m r t .load (t.rd a).toNat 64) r t 6 1⟩ := by
  rw [esc_next h (fun _ => rfl)]
  dsimp only
  rw [if_neg (not_not.2 ho), hp, if_pos (by rfl), pad_refused]

theorem tcode_refused (ho : (t.rd a).toNat % 32 = 0) (hp : padOk s.m t.gid (t.rd a).toNat 32 = false) :
    exec (.tcode g d a fl) s = .next ⟨s.agenda, creditWord (padRefused s.m r t .load (t.rd a).toNat 32) r t 6 1⟩ := by
  rw [esc_next h (fun _ => rfl)]
  dsimp only
  rw [if_neg (not_not.2 ho), hp, if_pos (by rfl), pad_refused]

theorem tmma_issues (ho : (t.rd a).toNat % 64 = 0) (hp : padOk s.m t.gid (t.rd a).toNat 64 = true) {bs : List Byte} {b : Mma}
    (hbs : bs = padRead s.m t.gid (t.rd a).toNat 64) (hb : b = Mma.ofBytes bs) : exec (.tmma g d a fl) s = .next ⟨s.agenda,
      creditWord (issued s.m r t d (b.ok (slotWord s.m t.gid b.aslot) (slotWord s.m t.gid b.bslot) (s.m.recOf t.gid).scratch)
        (fun n => { commandOf r t (b.tile % 4) 0x283 (.mma bs (BitVec.ofNat 32 (slotWord s.m t.gid b.aslot))
          (BitVec.ofNat 32 (slotWord s.m t.gid b.bslot))
          (capture s.m r.core ((slotElem (slotWord s.m t.gid b.bslot)).getD .fp32)).1) (r.flag fl) n with
            bank := (capture s.m r.core ((slotElem (slotWord s.m t.gid b.bslot)).getD .fp32)).2 })) r t 6 1⟩ := by
  subst hb hbs
  rw [esc_next h (fun _ => rfl)]
  dsimp only
  rw [if_neg (not_not.2 ho), hp, if_neg (by decide), issued_eq _ _ _ _ _ _ _ (fun _ => rfl)]
  rfl

theorem tcode_issues (ho : (t.rd a).toNat % 32 = 0) (hp : padOk s.m t.gid (t.rd a).toNat 32 = true) :
    exec (.tcode g d a fl) s = .next ⟨s.agenda, creditWord (issued s.m r t d true (commandOf r t 0 0x286
      (.code ((List.range 16).map (fun i => fieldAt (padRead s.m t.gid (t.rd a).toNat 32) (2 * i) 2))) (r.flag fl))) r t 6 1⟩ := by
  rw [esc_next h (fun _ => rfl)]
  dsimp only
  rw [if_neg (not_not.2 ho), hp, if_neg (by decide), issued_eq _ _ _ _ _ _ _ (fun _ => rfl)]
  rfl

end blocks

/-! The factorisations (R313 to R316). -/

theorem factor_issues {x : Fac} (hg : x.g = g) {opc : Nat} {op : Nat → Nat → TOp} {ok : Nat → Nat → Bool} {i : Instr}
    (hi : ∀ s, exec i s = .next (factorIssue x opc op ok s)) : exec i s = .next ⟨s.agenda,
      creditWord (issued s.m r t x.d (ok (t.rd x.a).toNat (t.rd x.c).toNat) (fun n =>
        { commandOf r t x.tile opc (op (t.rd x.a).toNat (t.rd x.c).toNat) (r.flag x.sel) n with res := some x.b })) r t 6 1⟩ := by
  subst hg
  exact issues_of h hi rfl (fun _ => rfl)

omit h in
theorem sizeOk_eq (n : Nat) : sizeOk n = inSize n := by
  simp only [sizeOk, inSize, Bool.decide_and]

end words

/-! R285: the tiles and pivot files that a command names become its group's (log 34). -/

theorem foreign_iff (k : Core) (gid : Nat) (tiles : List Nat) (pv : Option Nat) : foreign k gid tiles pv = true ↔
    (∃ i ∈ tiles, ∃ t, lget k.tiles i = some t ∧ t.gid ≠ gid) ∨ ∃ i p, pv = some i ∧ lget k.pvs i = some p ∧ p.gid ≠ gid := by
  unfold foreign
  rw [Bool.or_eq_true, List.any_eq_true]
  refine or_congr (exists_congr fun i => and_congr_right fun _ => ?_) ?_
  · rcases lget k.tiles i with _ | t <;> simp
  · rcases pv with _ | i
    · simp
    · rcases hp : lget k.pvs i with _ | p <;> simp [hp]

theorem claim_pvs (k : Core) (gid : Nat) (tiles : List Nat) (pv : Option Nat) (i : Nat) :
    lget (claim k gid tiles pv).pvs i = if lget k.pvs i = none ∧ pv = some i then some { gid := gid } else lget k.pvs i := by
  unfold claim
  rcases pv with _ | j
  · simp
  · dsimp only
    split
    next hj =>
      obtain ⟨p, hp⟩ := Option.isSome_iff_exists.1 hj
      rw [if_neg]
      rintro ⟨hn, hi⟩
      rw [← Option.some.inj hi, hp] at hn
      cases hn
    next hj =>
      by_cases hi : i = j
      · subst hi
        have hn : lget k.pvs i = none := by simpa using hj
        simp [hn]
      · rw [lget_lput_ne _ _ hi, if_neg]
        rintro ⟨-, h⟩
        exact hi (Option.some.inj h).symm

/-! Table 17-9: the peer descriptors of `tdadd`. -/

/-- Below 2^25 the fields of a descriptor above a bit are 0 when the descriptor is below it. -/
theorem peer_zero {d : Nat} (hd : d < 2 ^ 25) : d / 4096 % 8192 = 0 ↔ d < 4096 := by omega

theorem die_peer_zero {d : Nat} (hd : d < 2 ^ 25) : d / 1024 % 4 = 0 ∧ d / 4096 % 8192 = 0 ↔ d < 1024 := by
  rw [peer_zero hd]
  omega

theorem core_die_peer_zero {d : Nat} (hd : d < 2 ^ 25) :
    d / 16 % 64 = 0 ∧ d / 1024 % 4 = 0 ∧ d / 4096 % 8192 = 0 ↔ d < 16 := by
  rw [die_peer_zero hd]
  omega

theorem descOk_iff (pkg d : Nat) : descOk pkg d = true ↔ d < 2 ^ 25 ∧
    ((d % 4 = 0 ∧ d < 16) ∨ (d % 4 = 1 ∧ d / 4 % 4 = 0 ∧ d < 1024) ∨ (d % 4 = 2 ∧ d / 4 % 4 = 0 ∧ d / 2 ^ 12 ≠ pkg)) := by
  have hsize : d / 2 ^ 25 = 0 ↔ d < 2 ^ 25 := by omega
  have hmode : d % 4 = 0 ∨ d % 4 = 1 ∨ d % 4 = 2 ∨ d % 4 = 3 := by omega
  unfold descOk
  simp only [Bool.and_eq_true, beq_iff_eq, hsize]
  refine and_congr_right fun hd => ?_
  rcases hmode with h | h | h | h <;> simp only [h, Bool.and_eq_true, beq_iff_eq, bne_iff_ne, ne_eq, and_assoc]
  · rw [core_die_peer_zero hd]
    simp
  · rw [die_peer_zero hd]
    simp
  · have hp : d / 4096 % 8192 = d / 2 ^ 12 := by omega
    rw [hp]
    simp
  · simp

/-- Settles O45: one lemma per word, then who owns the tiles and which descriptors are legal. -/
theorem tileCommands : Obligations.TileCommands := by
  unfold Obligations.TileCommands
  refine ⟨?words, fun k gid tiles pv => ⟨foreign_iff k gid tiles pv, rfl, foldl_claim gid tiles k.tiles, claim_pvs k gid tiles pv⟩,
    fun pkg d _ => descOk_iff pkg d⟩
  intro s r t g h credit K x slotW tab
  refine ⟨tzero_issues h, ?loads, ?blocks, tdadd_issues h, pvap_issues h, ?factors⟩
  case loads =>
    rintro y e hy he o st rfl rfl
    have hld := tld_checks h hy he
    have hst := tst_checks h hy he
    refine ⟨fun hm i hi => ?_, fun ho hs hx => ⟨hld.trans ?_, hst.trans ?_⟩, fun ho hs hx => ⟨hld.trans ?_, hst.trans ?_⟩⟩
    · simp only [List.mem_cons, List.not_mem_nil, or_false] at hi
      rcases hi with rfl | rfl
      · rw [hld, tlsCheck_misaligned hm, credit_raised (alone_here h.toAlone)]
      · rw [hst, tlsCheck_misaligned hm, credit_raised (alone_here h.toAlone)]
    · rw [tlsCheck_outside ho hs hx]
      rfl
    · rw [tlsCheck_outside ho hs hx]
      rfl
    · rw [tlsCheck_fits ho hs hx]
      rfl
    · rw [tlsCheck_fits ho hs hx]
      rfl
  case blocks =>
    rintro d a fl o rfl
    exact ⟨tmma_misaligned h d a fl, tcode_misaligned h d a fl, tmma_refused h d a fl, tcode_refused h d a fl,
      fun bs b hbs hb ho hp => tmma_issues h d a fl ho hp hbs hb, fun img himg ho hp => himg ▸ tcode_issues h d a fl ho hp⟩
  case factors =>
    rintro y n k hg rfl rfl go
    refine ⟨(factor_issues h hg fun _ => rfl).trans ?_, (factor_issues h hg fun _ => rfl).trans ?_,
      (factor_issues h hg fun _ => rfl).trans ?_, fun tr unit up => (factor_issues h hg fun _ => rfl).trans ?_⟩
    · rw [sizeOk_eq]
    · rw [sizeOk_eq]
    · rw [sizeOk_eq]
      simp only [go, Bool.decide_and, Bool.and_assoc]
      rfl
    · rw [sizeOk_eq, sizeOk_eq]

end Sys2Proof.Machine
end

section
/-!
PROOFS. O46 TileEnds: how a tile command ends; twait and tstat.
-/

namespace Sys2Proof.Machine

/-! Table 18-4: the result words of a command that ends. -/

theorem resultWord_toNat {x : TCmd} {st : Nat} (hs : st < 256) (hx : x.step < 256) :
    (resultWord x st).toNat = st + 2 ^ 8 * x.step + (if x.resumed then 2 ^ 16 else 0) := by
  have : (if x.resumed then 65536 else 0) ≤ 65536 := by split <;> omega
  rw [resultWord, BitVec.toNat_ofNat, Nat.mod_eq_of_lt (by omega)]
  rfl

theorem finishCmd_silent {x : TCmd} (h : x.res = none) (m : Mach) (c st est : Nat) : finishCmd m c x st est =
    freeTl (m.updCore c (fun k => { k with tcmds := k.tcmds.filter (fun y => !x.same y)
                                           tileFail := if st = 0 then k.tileFail else x.n
                                           tileStat := if st = 0 then k.tileStat else st })) c true := by
  simp only [finishCmd, putResult, h]

theorem finishCmd_result {x : TCmd} {b : Nat} (h : x.res = some b) (m : Mach) (c st est : Nat) : finishCmd m c x st est =
    freeTl (updBoth (m.updCore c (fun k => { k with tcmds := k.tcmds.filter (fun y => !x.same y)
                                                    tileFail := if st = 0 then k.tileFail else x.n
                                                    tileStat := if st = 0 then k.tileStat else st })) x.gid x.tix
      (fun t => (t.wr b (resultWord x st)).wr (b + 1) (BitVec.ofNat 32 est))) c true := by
  simp only [finishCmd, putResult, h]

/-! `twait` (R299): the tile, claimed where nobody owns it, gives up its arrivals or takes a waiter. -/

section twait
variable {s : State} {r : Running} {t : Thread} {g : Guard} (h : Escapes s r t g) (tile d a : Nat)
include h

theorem twait_foreign (hf : foreign (s.m.core r.core) t.gid [tile] none = true) : exec (.twait g tile d a) s =
    .next ⟨s.agenda, creditWord (withThread s.m t (fun u => u.wr d 0xFFFFFFFF)) r t 7 1⟩ := by
  rw [esc_next h (fun _ => rfl)]
  simp only [hf, if_true]
  rfl

/-- The tile that `twait` finds: a tile that nobody owns is the group's, and empty. -/
def claimed (k : Core) (gid tile : Nat) : Tile := (lget k.tiles tile).getD { gid := gid }

omit h in
theorem lget_claim_tile (k : Core) (gid tile : Nat) : lget (claim k gid [tile] none).tiles tile = some (claimed k gid tile) := by
  refine (foldl_claim gid [tile] k.tiles tile).trans ?_
  unfold claimed
  rcases lget k.tiles tile with _ | tl <;> simp

omit h in
theorem lget_claim_other (k : Core) (gid : Nat) {tile i : Nat} (hi : i ≠ tile) :
    lget (claim k gid [tile] none).tiles i = lget k.tiles i := by
  refine (foldl_claim gid [tile] k.tiles i).trans ?_
  simp [hi]

/-- What `twait` makes of the machine: the tile becomes `x` and the thread `f`. -/
def tileTurns (m : Mach) (r : Running) (t : Thread) (tile : Nat) (x : Tile) (f : Thread → Thread) : Mach :=
  withThread ((m.updCore r.core (fun k => claim k t.gid [tile] none)).updCore r.core (fun k => { k with
    tiles := lput k.tiles tile x })) t f

omit h in
theorem tileTurns_tiles (m : Mach) (x : Tile) (f : Thread → Thread) (i : Nat) :
    lget ((tileTurns m r t tile x f).core r.core).tiles i =
      lget ((m.updCore r.core (fun k => { k with tiles := lput k.tiles tile x })).core r.core).tiles i := by
  have hcore : (tileTurns m r t tile x f).core r.core = ((m.updCore r.core (fun k => claim k t.gid [tile] none)).updCore r.core
    (fun k => { k with tiles := lput k.tiles tile x })).core r.core := rfl
  rw [hcore, Mach.core_updCore_self, Mach.core_updCore_self, Mach.core_updCore_self]
  by_cases hi : i = tile
  · subst hi
    rw [lget_lput_self, lget_lput_self]
  · rw [lget_lput_ne _ _ hi, lget_lput_ne _ _ hi, lget_claim_other _ _ hi]

omit h in
theorem tileTurns_form (m : Mach) (x : Tile) (f : Thread → Thread) : ∃ l, tileTurns m r t tile x f =
    { m with threads := (tileTurns m r t tile x f).threads, cores := (m.updCore r.core (fun k => { k with tiles := l })).cores } := by
  refine ⟨lput (claim (m.core r.core) t.gid [tile] none).tiles tile x, ?_⟩
  unfold tileTurns
  rw [upd_upd]
  rfl

theorem twait_eq (hf : foreign (s.m.core r.core) t.gid [tile] none = false) : exec (.twait g tile d a) s =
    let tl := claimed (s.m.core r.core) t.gid tile
    .next ⟨s.agenda, creditWord (if (t.rd a).toNat = 0 ∨ (tl.waiters.isEmpty ∧ (t.rd a).toNat ≤ tl.inbound) then
      tileTurns s.m r t tile { tl with inbound := tl.inbound - (t.rd a).toNat }
        (fun u => u.wr d (BitVec.ofNat 32 (tl.inbound - (t.rd a).toNat)))
    else tileTurns s.m r t tile { tl with waiters := tl.waiters ++ [t.tix] }
      (fun u => u.leave (.waiting (.tile tile (t.rd a).toNat d)) ⟨r.nextHdr, 0⟩)) r t 7 1⟩ := by
  rw [esc_next h (fun _ => rfl)]
  simp only [hf, Bool.false_eq_true, if_false, Mach.core_updCore_self, lget_claim_tile]
  rfl

end twait

/-! `tstat` (R300): Table 17-11. -/

theorem tstat_eq {s : State} {r : Running} {t : Thread} {g : Guard} (h : Alone s r t g) (fl : TsSel) (tile d : Nat) :
    exec (.tstat g fl tile d) s =
      .next ⟨s.agenda, withThread s.m t (fun u => u.wrD d (tstatVal (s.m.core r.core) t.gid fl tile))⟩ := by
  rw [seq_next h (fun _ => rfl)]
  have hth : s.m.updThread t.gid t.tix (fun u => u.wrD d (tstatVal (s.m.core r.core) u.gid fl tile)) =
      withThread s.m t (fun u => u.wrD d (tstatVal (s.m.core r.core) t.gid fl tile)) := by
    unfold Mach.updThread withThread
    congr 1
    refine List.map_congr_left fun u _ => ?_
    split
    next hu =>
      simp only [Bool.and_eq_true, beq_iff_eq] at hu
      simp only [hu.1]
    next => rfl
  rw [hth]

theorem tileState_lt (k : Core) (i : Nat) : tileState k i < 4 := by
  unfold tileState
  dsimp only
  split
  · decide
  · split
    · decide
    · split <;> decide

theorem tileState_eq {k : Core} {i : Nat} {tl : Tile} (h : lget k.tiles i = some tl) : tileState k i =
    if ∃ x ∈ k.tcmds, i ∈ x.tiles ∧ x.halt ≠ none then 3 else if ∃ x ∈ k.tcmds, i ∈ x.tiles then 2 else 1 := by
  have hhalt : (k.tcmds.filter (fun x => x.tiles.contains i)).any (fun x => x.halt.isSome) = true ↔
      ∃ x ∈ k.tcmds, i ∈ x.tiles ∧ x.halt ≠ none := by
    simp only [List.any_eq_true, List.mem_filter, List.contains_iff_mem, Option.isSome_iff_ne_none, and_assoc]
  have hon : (k.tcmds.filter (fun x => x.tiles.contains i)).isEmpty = true ↔ ¬ ∃ x ∈ k.tcmds, i ∈ x.tiles := by
    simp [List.filter_eq_nil_iff]
  unfold tileState
  simp only [h, Option.isNone_some, Bool.false_eq_true, if_false]
  by_cases h3 : ∃ x ∈ k.tcmds, i ∈ x.tiles ∧ x.halt ≠ none
  · rw [if_pos (hhalt.2 h3), if_pos h3]
  · rw [if_neg (mt hhalt.1 h3), if_neg h3]
    by_cases h2 : ∃ x ∈ k.tcmds, i ∈ x.tiles
    · rw [if_pos h2, if_neg (fun he => hon.1 he h2)]
    · rw [if_neg h2, if_pos (hon.2 h2)]

/-- The fields of a tile's status word. -/
theorem tstatVal_fields {k : Core} {i gid : Nat} {tl : Tile} (h : lget k.tiles i = some tl) (hin : tl.inbound < 2 ^ 32)
    (hst : tileStep k i < 256) : let v := tstatVal k gid .tile i
    v.toNat / 2 ^ 32 = tl.inbound ∧ v.toNat / 2 ^ 8 % 2 ^ 8 = tileStep k i ∧ (v.getLsbD 4 = true ↔ tl.gid = gid) ∧
      v.toNat % 2 ^ 4 = tileState k i := by
  have hs := tileState_lt k i
  have hown : (if tl.gid = gid then 16 else 0) = 16 * (if tl.gid = gid then 1 else 0) := by split <;> rfl
  have hbit : (if tl.gid = gid then 1 else 0) < 2 := by split <;> decide
  have hv : (tstatVal k gid .tile i).toNat =
      tl.inbound * 2 ^ 32 + tileStep k i * 256 + 16 * (if tl.gid = gid then 1 else 0) + tileState k i := by
    simp only [tstatVal, h, hown, BitVec.toNat_ofNat]
    omega
  refine ⟨by omega, by omega, ?_, by omega⟩
  rw [BitVec.getLsbD, Nat.testBit_eq_decide_div_mod_eq, decide_eq_true_eq, hv]
  by_cases ho : tl.gid = gid
  · simp only [ho, if_true, iff_true]
    omega
  · simp only [ho, if_false, iff_false]
    omega

/-- Settles O46: the end of a command, then `twait` and `tstat`. -/
theorem tileEnds : Obligations.TileEnds := by
  unfold Obligations.TileEnds
  refine ⟨fun m c x st est => ⟨_, rfl, fun h => finishCmd_silent h m c st est, fun b h hs hx =>
    ⟨resultWord x st, resultWord_toNat hs hx, finishCmd_result h m c st est⟩⟩, ?wait, ?stat⟩
  case wait =>
    intro s r t g tile d a h
    refine ⟨twait_foreign h tile d a, ?_⟩
    intro tl n hf hn htl on
    have he := twait_eq h tile d a hf
    have htl : claimed (s.m.core r.core) t.gid tile = tl := htl.symm
    simp only [htl, ← hn] at he
    refine ⟨fun hgo => ?_, fun h0 hw => ?_⟩
    · rw [if_pos (by simpa using hgo)] at he
      exact ⟨_, he, tileTurns_tiles tile s.m _ _, rfl, tileTurns_form tile s.m _ _⟩
    · rw [if_neg] at he
      · exact ⟨_, he, tileTurns_tiles tile s.m _ _, rfl, tileTurns_form tile s.m _ _⟩
      · rintro (h | ⟨hnil, hle⟩)
        · exact h0 h
        · rcases hw with hw | hw
          · exact hw (List.isEmpty_iff.1 hnil)
          · omega
  case stat =>
    rintro s r t g tile d h K rfl put
    refine ⟨tstat_eq h .fail tile d, tstat_eq h .status tile d, fun hn => ?_, fun tl htl hin hst => ?_⟩
    · rw [tstat_eq h, tstatVal, hn]
    · obtain ⟨h1, h2, h3, h4⟩ := tstatVal_fields (gid := t.gid) htl hin hst
      exact ⟨_, tstat_eq h .tile tile d, h1, h2, h3, h4.trans (tileState_eq htl)⟩

end Sys2Proof.Machine
end

section
/-!
PROOFS. O47 TileEvents: tile commands are performed; drain-adds arrive.
-/

namespace Sys2Proof.Machine

/-! R280, R283 and R284: a command is performed in its place, and completes. -/

theorem padOf_eq (m : Mach) (gid : Nat) : padOf m gid = ((m.group? gid).map (·.spad)).getD [] := by
  unfold padOf
  rcases m.group? gid with _ | g <;> rfl

/-- The elements of a tile; a tile that nobody owns holds zeros. -/
def elementsOf (k : Core) (i : Nat) : List (Nat × DWord) := ((lget k.tiles i).map (·.el)).getD []

section complete
variable {s : State} {c gid n : Nat} {x : TCmd}
  (hx : (s.m.core c).tcmds.find? (fun y => y.gid == gid && y.n == n && !(y.halt.isSome || y.sent)) = some x)
include hx

theorem found_unsent : x.sent = false := by
  have := List.find?_some hx
  simp only [Bool.and_eq_true, Bool.not_eq_true', Bool.or_eq_false_iff] at this
  exact this.2.2

theorem complete_waits (hf : x.op.factor = false) (hb : mayBegin s.m (s.m.core c) x = false) :
    exec (.tileCommandComplete c gid n) s = .next s := by
  rw [ev_next (fun _ => rfl)]
  simp only [hx, hf, hb, Bool.false_eq_true, if_false]

theorem complete_halts (hf : x.op.factor = false) (hb : mayBegin s.m (s.m.core c) x = true) (hbad : cmdBad s.m c x = true) :
    exec (.tileCommandComplete c gid n) s = .next ⟨s.agenda, softHalt s.m c x⟩ := by
  rw [ev_next (fun _ => rfl)]
  simp only [hx, hf, hb, hbad, Bool.false_eq_true, if_false, if_true]

theorem complete_performs (hf : x.op.factor = false) (hb : mayBegin s.m (s.m.core c) x = true) (hbad : cmdBad s.m c x = false) :
    exec (.tileCommandComplete c gid n) s = .next ⟨s.agenda, performCmd s.m c x⟩ := by
  rw [ev_next (fun _ => rfl)]
  simp only [hx, hf, hb, hbad, Bool.false_eq_true, if_false, if_true]

omit hx in
theorem finishFactor_eq (m : Mach) : finishFactor m c x = finishCmd (updTile m c x.tile (fun tl => { tl with step := 0 })) c x 0
    (x.op.estimateOf (elementsOf (m.core c) x.tile) x.mx) := by
  unfold finishFactor elementsOf
  rcases lget (m.core c).tiles x.tile with _ | tl <;> rfl

theorem complete_factor (hf : x.op.factor = true) {pv : Pv}
    (hpv : pv = (x.op.pv?.bind (fun i => lget (s.m.core c).pvs i)).getD { gid := x.gid }) :
    (x.step = x.op.steps pv → x.begun = true → exec (.tileCommandComplete c gid n) s = .next ⟨s.agenda, finishFactor s.m c x⟩) ∧
    (x.step ≠ x.op.steps pv → exec (.tileCommandComplete c gid n) s = .next s) := by
  subst hpv
  have he : exec (.tileCommandComplete c gid n) s = .next ⟨s.agenda,
      if (x.begun || mayBegin s.m (s.m.core c) x) &&
        x.step == x.op.steps ((x.op.pv?.bind (fun i => lget (s.m.core c).pvs i)).getD { gid := x.gid })
      then finishFactor s.m c x else s.m⟩ := by
    rw [ev_next (fun _ => rfl)]
    rcases hp : x.op.pv? with _ | i <;>
      simp only [hx, hf, if_true, hp, Option.bind_none, Option.bind_some, Option.getD_none]
  rw [he]
  refine ⟨fun h1 h2 => ?_, fun h1 => ?_⟩
  · rw [h2, if_pos (by simp [h1])]
  · rw [if_neg (by simp [h1])]

end complete

/-! What a command that is no factorisation does. -/

section perform
variable {m : Mach} {c : Nat} {x : TCmd}

theorem perform_zero {fr : Bool} (h : x.op = .zero fr) :
    performCmd m c x = finishCmd (zeroDo (tileGood m x.gid x.tile) c x fr) c x 0 0 := by
  simp only [performCmd, h]

theorem zeroDo_keep (m : Mach) : zeroDo m c x false = updTile m c x.tile (fun tl => { tl with el := [] }) := rfl

theorem zeroDo_free {m : Mach} (h : ∀ y ∈ (m.core c).tcmds, x.n < y.n → y.gid = x.gid → x.tile ∉ y.tiles) :
    zeroDo m c x true = m.updCore c (fun k => { k with tiles := ldel k.tiles x.tile }) := by
  have hn : (m.core c).tcmds.any (fun y => decide (x.n < y.n) && y.gid == x.gid && y.tiles.contains x.tile) = false := by
    rw [Bool.eq_false_iff, ne_eq, List.any_eq_true]
    rintro ⟨y, hy, hc⟩
    simp only [Bool.and_eq_true, decide_eq_true_eq, beq_iff_eq, List.contains_iff_mem] at hc
    exact h y hy hc.1.1 hc.1.2 hc.2
  simp only [zeroDo, Bool.not_true, Bool.false_eq_true, if_false, hn]

theorem zeroDo_named {m : Mach} (h : ∃ y ∈ (m.core c).tcmds, x.n < y.n ∧ y.gid = x.gid ∧ x.tile ∈ y.tiles) :
    zeroDo m c x true = updTile m c x.tile (fun tl => { tl with el := [], inbound := 0, step := 0 }) := by
  have hn : (m.core c).tcmds.any (fun y => decide (x.n < y.n) && y.gid == x.gid && y.tiles.contains x.tile) = true := by
    obtain ⟨y, hy, h1, h2, h3⟩ := h
    exact List.any_eq_true.2 ⟨y, hy, by simp [h1, h2, h3]⟩
  simp only [zeroDo, Bool.not_true, Bool.false_eq_true, if_false, hn, if_true]

theorem perform_ld {off st w : Nat} {code : List Nat} {e : Elem} (h : x.op = .ld off st w code) (he : slotElem w = some e) :
    performCmd m c x = finishCmd (updTile (tileGood m x.gid x.tile) c x.tile (fun tl =>
      { tl with el := loadTile (padOf m x.gid) off st e code })) c x 0 0 := by
  simp only [performCmd, h, he]

theorem perform_st {off st w : Nat} {e : Elem} (h : x.op = .st off st w) (he : slotElem w = some e) :
    performCmd m c x = finishCmd ((List.range 32).foldl (fun n i =>
      padWriteOut n x.gid (off + i * st) (drainRow (elementsOf (m.core c) x.tile) e i)) m) c x 0 0 := by
  simp only [performCmd, h, he, elementsOf]
  rcases lget (m.core c).tiles x.tile with _ | tl <;> rfl

theorem perform_mma {blk : List Byte} {sa sb : Word} {code : List Nat} (h : x.op = .mma blk sa sb code) :
    performCmd m c x = finishCmd (updTile m c x.tile (fun tl => { tl with
      el := mmaTile (Mma.ofBytes blk) sa.toNat sb.toNat code (padOf m x.gid) (m.core c).wbuf tl.el })) c x 0 0 := by
  simp only [performCmd, h]

theorem perform_code {img : List Nat} (h : x.op = .code img) :
    performCmd m c x = finishCmd (({ m with bad := m.bad.filter (fun b => b != .codeTab c) } : Mach).updCore c (fun k =>
      { k with code0 := if k.codeCur then img else k.code0, code1 := if k.codeCur then k.code1 else img
               codeCur := !k.codeCur })) c x 0 0 := by
  have hk : ∀ k : Core, (if k.codeCur then { k with code0 := img, codeCur := false } else { k with code1 := img, codeCur := true }) =
      { k with code0 := if k.codeCur then img else k.code0, code1 := if k.codeCur then k.code1 else img, codeCur := !k.codeCur } := by
    intro k
    rcases hc : k.codeCur <;> simp
  simp only [performCmd, h, hk]

theorem perform_dadd {desc ty : Nat} (h : x.op = .dadd desc ty) (hs : x.sent = false) :
    performCmd m c x = if (daddTarget m c x desc).pkg.isSome && !fabricUp m (c / 64) then finishCmd m c x 3 0
      else
        let n := m.updCore c (fun k => { k with tcmds := k.tcmds.map (fun y => if x.same y then { y with sent := true } else y) })
        { n with dadds := n.dadds ++ [{ daddTarget m c x desc with ty := ty, el := elementsOf (m.core c) x.tile }] } := by
  simp only [performCmd, h, hs, Bool.false_eq_true, if_false, elementsOf]
  rcases lget (m.core c).tiles x.tile with _ | tl <;> rfl

end perform

/-! R287 to R292: the elements that a load, an add and a multiply leave. -/

theorem loadTile_get (pad : List Host.Cell) (off st : Nat) (e : Elem) (code : List Nat) {i j : Nat} (hi : i < 32) (hj : j < 32) :
    tget (loadTile pad off st e code) i j =
      (BitVec.ofNat 64 (round48 (decodeE e code (packedMem pad (off + i * st) e.bits j)))).toNat := by
  unfold loadTile
  rw [tget_block (fun _ i j => round48 (decodeE e code (packedMem pad (off + i * st) e.bits j)))
    (fun i j _ => round48 (decodeE e code (packedMem pad (off + i * st) e.bits j))) (fun _ _ _ => rfl) 32 32 (Nat.le_refl _) _ _ _ hj,
    if_pos ⟨hi, hj⟩]

theorem addTile_get (a b : List (Nat × DWord)) {i j : Nat} (hi : i < 32) (hj : j < 32) :
    tget (addTile a b) i j = (BitVec.ofNat 64 (round48 (FVal.sum [tval a i j, tval b i j]))).toNat := by
  unfold addTile
  rw [tget_block (fun l i j => round48 (FVal.sum [tval l i j, tval b i j]))
    (fun i j v => round48 (FVal.sum [val48 v, tval b i j])) (fun _ _ _ => rfl) 32 32 (Nat.le_refl _) _ _ _ hj, if_pos ⟨hi, hj⟩]
  rfl

theorem mmaTile_get {k : Mma} {wa wb : Nat} {ea eb : Elem} (ha : slotElem wa = some ea) (hb : slotElem wb = some eb)
    (hn : k.n ≤ 32) (code : List Nat) (pad wbuf : List Host.Cell) (a : List (Nat × DWord)) (i : Nat) {j : Nat} (hj : j < 32) :
    tget (mmaTile k wa wb code pad wbuf a) i j = if i < k.m ∧ j < k.n then
      (BitVec.ofNat 64 (mmaElem k wa wb ea eb code pad wbuf i j (tget a i j))).toNat else tget a i j := by
  simp only [mmaTile, ha, hb]
  exact tget_block (fun l i j => mmaElem k wa wb ea eb code pad wbuf i j (tget l i j))
    (fun i j v => mmaElem k wa wb ea eb code pad wbuf i j v) (fun _ _ _ => rfl) k.m k.n hn a i j hj

/-! R306 to R308: a step of a factorisation. -/

section steps
variable {s : State} {c gid n : Nat} {x : TCmd} {g : Group} (hg : s.m.group? x.gid = some g)
  (hx : (s.m.core c).tcmds.find? (fun y => y.gid == gid && y.n == n && y.op.factor && y.halt.isNone) = some x)
include hg hx

omit hx in
theorem endsFaulted_iff : endsFaulted s.m x.gid = true ↔ g.stat = .faulted := by
  simp [endsFaulted, hg]

theorem frozen_iff : frozen s.m x = true ↔ g.stat = .saving := by
  have hf := List.find?_some hx
  simp only [Bool.and_eq_true] at hf
  simp [frozen, savingGid, hg, hf.1.2]

theorem step_faulted (h : g.stat = .faulted) :
    exec (.factorisationStep c gid n) s = .next ⟨s.agenda, finishCmd s.m c x 2 0⟩ := by
  rw [ev_next (fun _ => rfl)]
  simp only [hx, (endsFaulted_iff hg).2 h, if_true]

theorem step_saving (h : g.stat = .saving) : exec (.factorisationStep c gid n) s = .next s := by
  have hf : endsFaulted s.m x.gid = false := by
    rw [Bool.eq_false_iff, ne_eq, endsFaulted_iff hg, h]
    decide
  rw [ev_next (fun _ => rfl)]
  simp only [hx, hf, (frozen_iff hg hx).2 h, Bool.false_eq_true, if_false, Bool.true_or, if_true]

variable (hs : g.stat ≠ .saving) (hf : g.stat ≠ .faulted)
include hs hf

theorem step_eq (hbad : cmdBad s.m c x = false)
    (hmay : (if x.begun then arrayFree s.m (s.m.core c) x else mayBegin s.m (s.m.core c) x) = true) :
    exec (.factorisationStep c gid n) s =
      .next ⟨s.agenda, if x.begun then stepCmd s.m c x else beginCmd s.m c x⟩ := by
  have h1 : endsFaulted s.m x.gid = false := by rwa [Bool.eq_false_iff, ne_eq, endsFaulted_iff hg]
  have h2 : frozen s.m x = false := by rwa [Bool.eq_false_iff, ne_eq, frozen_iff hg hx]
  rw [ev_next (fun _ => rfl)]
  simp only [hx, h1, h2, hmay, hbad, Bool.false_eq_true, if_false, Bool.not_true, Bool.or_self]

omit hg hx hs hf in
theorem stepCmd_done {m : Mach} (h : x.op.steps (workOf (m.core c) x).pv ≤ x.step) : stepCmd m c x = m := by
  simp only [stepCmd, h, if_true]

omit hg hx hs hf in
theorem stepCmd_ok {m : Mach} {w : Work} (h : x.step < x.op.steps (workOf (m.core c) x).pv)
    (hw : x.op.step (workOf (m.core c) x) x.step x.val = .ok w) : stepCmd m c x =
      m.updCore c (fun k => { putWork k x w with tcmds := (putWork k x w).tcmds.map (fun y =>
        if x.same y then { y with step := x.step + 1, val := none, holds := true } else y) }) := by
  simp only [stepCmd, Nat.not_le.2 h, if_false, hw]
  rw [upd_upd]

omit hx hs in
theorem stepCmd_halts {h : Nat × Nat} (hlt : x.step < x.op.steps (workOf (s.m.core c) x).pv)
    (hw : x.op.step (workOf (s.m.core c) x) x.step x.val = .error h) : stepCmd s.m c x =
      haltNotify (s.m.updCore c (fun k => { k with tcmds := k.tcmds.map (fun y =>
        if x.same y then { y with halt := some h, val := none, holds := false } else y) })) { x with halt := some h } := by
  have h1 : endsFaulted s.m x.gid = false := by rwa [Bool.eq_false_iff, ne_eq, endsFaulted_iff hg]
  simp only [stepCmd, Nat.not_le.2 hlt, if_false, hw, haltCmd, h1, Bool.false_eq_true]
  rfl

end steps

/-! R297 to R299 and R413: drain-adds. -/

section arrival
variable {s : State} {gid n : Nat} {d : DAdd}

theorem arrival_waits (hd : s.m.dadds.find? (fun y => y.gid == gid && y.n == n && y.ans.isNone) = some d)
    (hw : (∃ e ∈ s.m.dadds, e.core = d.core ∧ e.n < d.n ∧ e.ans = none ∧ daddPlace s.m e = daddPlace s.m d) ∨
      ∃ x ∈ (s.m.core d.core).tcmds, daddAhead s.m d x = true) : exec (.tdaddArrival gid n none) s = .next s := by
  have h : daddWaits s.m d = true := by
    simpa [daddWaits, and_assoc] using hw
  rw [ev_next (fun _ => rfl)]
  simp only [hd, h, if_true]

theorem arrival_goes (hd : s.m.dadds.find? (fun y => y.gid == gid && y.n == n && y.ans.isNone) = some d)
    (he : ∀ e ∈ s.m.dadds, e.core = d.core → e.n < d.n → e.ans = none → daddPlace s.m e ≠ daddPlace s.m d)
    (hx : ∀ x ∈ (s.m.core d.core).tcmds, daddAhead s.m d x = false) :
    exec (.tdaddArrival gid n none) s = .next ⟨s.agenda, daddArrive s.m d⟩ := by
  have h : daddWaits s.m d = false := by
    simp only [daddWaits, Bool.or_eq_false_iff, List.any_eq_false, Bool.and_eq_true, beq_iff_eq, decide_eq_true_eq,
      Option.isNone_iff_eq_none, Bool.not_eq_true]
    exact ⟨fun e hem ⟨⟨⟨h1, h2⟩, h3⟩, h4⟩ => he e hem h1 h2 h3 h4, hx⟩
  rw [ev_next (fun _ => rfl)]
  simp only [hd, h, Bool.false_eq_true, if_false]

variable {m : Mach}

theorem daddArrive_illegal (h : d.ok = false) : daddArrive m d = answerAdd m d 3 := by
  simp only [daddArrive, h, Bool.not_false, if_true]

section sent
variable (hok : d.ok = true)
include hok

theorem daddArrive_peer (hp : d.pkg ≠ none) : ∃ st, (st = 0 ∨ st = 3) ∧
    daddArrive m d = answerAdd { m with nextId := m.nextId + 1 } d st := by
  refine ⟨if Config.peerAccepts m.nextId then 0 else 3, by split <;> simp, ?_⟩
  simp only [daddArrive, hok, Bool.not_true, Bool.false_eq_true, if_false, Option.isSome_iff_ne_none.2 hp, if_true]

variable (hp : d.pkg = none)
include hp

section toGroup
variable {g : Nat} (hg : d.toGid = some g)
include hg

theorem daddArrive_gone (h : m.group? g = none ∨ ∃ gr, m.group? g = some gr ∧ (gr.stat = .exited ∨ gr.stat = .faulted)) :
    daddArrive m d = answerAdd m d 3 := by
  rcases h with h | ⟨gr, h, hs⟩
  · simp only [daddArrive, hok, hp, hg, h, Bool.not_true, Bool.false_eq_true, if_false, Option.isSome_none]
  · simp only [daddArrive, hok, hp, hg, h, hs, Bool.not_true, Bool.false_eq_true, if_false, Option.isSome_none, if_true]

variable {gr : Group} (hgr : m.group? g = some gr)
include hgr

theorem daddArrive_saved (hs : gr.stat = .saved) : daddArrive m d = m := by
  simp only [daddArrive, hok, hp, hg, hgr, hs, Bool.not_true, Bool.false_eq_true, if_false, Option.isSome_none, reduceCtorEq,
    or_self, if_true]

variable (h1 : gr.stat ≠ .exited) (h2 : gr.stat ≠ .faulted) (h3 : gr.stat ≠ .saved)
include h1 h2 h3

theorem daddArrive_applied {o : Group} {m' : Mach} (ho : tileOwner m gr.core d.ty = some o) (hog : o.gid = g)
    (ha : applyAdd m gr.core d.ty d.el = some m') : daddArrive m d = answerAdd m' d 0 := by
  simp only [daddArrive, hok, hp, hg, hgr, h1, h2, h3, ho, hog, ha, Bool.not_true, Bool.false_eq_true, if_false,
    Option.isSome_none, or_self, Option.map_some, ne_eq, not_true_eq_false]

theorem daddArrive_refused (ho : ∀ o, tileOwner m gr.core d.ty = some o → o.gid ≠ g) :
    daddArrive m d = answerAdd m d 3 := by
  have hne : (tileOwner m gr.core d.ty).map (fun o => o.gid) ≠ some g := by
    rw [ne_eq, Option.map_eq_some_iff]
    rintro ⟨o, h, hog⟩
    exact ho o h hog
  simp only [daddArrive, hok, hp, hg, hgr, h1, h2, h3, Bool.not_true, Bool.false_eq_true, if_false, Option.isSome_none, or_self,
    hne, ne_eq, not_false_eq_true, if_true]

end toGroup

theorem daddArrive_named {m' : Mach} {o : Group} (hg : d.toGid = none) (ho : tileOwner m d.target d.ty = some o)
    (hc : cidOf m o.gid = d.cid) (ha : applyAdd m d.target d.ty d.el = some m') : daddArrive m d = answerAdd m' d 0 := by
  simp only [daddArrive, hok, hp, hg, ho, hc, ha, Bool.not_true, Bool.false_eq_true, if_false, Option.isSome_none, if_true]

theorem daddArrive_stranger (hg : d.toGid = none) (ho : ∀ o, tileOwner m d.target d.ty = some o → cidOf m o.gid ≠ d.cid) :
    daddArrive m d = answerAdd m d 3 := by
  rcases h : tileOwner m d.target d.ty with _ | o
  · simp only [daddArrive, hok, hp, hg, h, Bool.not_true, Bool.false_eq_true, if_false, Option.isSome_none]
  · simp only [daddArrive, hok, hp, hg, h, ho o h, Bool.not_true, Bool.false_eq_true, if_false, Option.isSome_none]

end sent
end arrival

/-- A peer's drain-add is applied when its package and context are bound to the owner's (R395). -/
theorem peerArrive_bound {m m' : Mach} {a : PeerAdd} {o : Group} {p : Part} (ho : tileOwner m a.core a.tile = some o)
    (hp : m.partOf (a.core / 64) = some p) (hb : ∃ b ∈ p.binds, b.pkg = a.pkg ∧ b.ctx = a.ctx ∧ b.cid = cidOf m o.gid)
    (ha : applyAdd m a.core a.tile a.el = some m') :
    peerArrive m a = { m' with outbox := [a.pkg, a.ctx, 0] :: m'.outbox } := by
  have hany : p.binds.any (fun b => b.pkg == a.pkg && b.ctx == a.ctx && b.cid == cidOf m o.gid) = true := by
    simpa [List.any_eq_true, and_assoc] using hb
  simp only [peerArrive, ho, hp, hany, Bool.not_true, Bool.false_eq_true, if_false, ha]

theorem tdaddAck_eq {s : State} {gid n : Nat} {d : DAdd} {x : TCmd}
    (hd : s.m.dadds.find? (fun y => y.gid == gid && y.n == n && y.ans.isSome) = some d)
    (hx : (s.m.core (s.m.coreOf d.gid)).tcmds.find? (fun y => y.gid == d.gid && y.n == n && y.sent) = some x) :
    exec (.tdaddAck gid n) s = .next ⟨s.agenda, finishCmd { s.m with
      dadds := s.m.dadds.filter (fun y => !(y.gid == gid && y.n == n)) } (s.m.coreOf d.gid) x (d.ans.getD 0) 0⟩ := by
  rw [ev_next (fun _ => rfl)]
  simp only [hd, hx]

theorem tileBegun_iff (k : Core) (i : Nat) : tileBegun k i = true ↔ ∃ y ∈ k.tcmds, y.begun = true ∧ i ∈ y.tiles := by
  simp [tileBegun]

theorem applyAdd_eq {m : Mach} {c i : Nat} {tl : Tile} (h : lget (m.core c).tiles i = some tl) (x : List (Nat × DWord)) :
    applyAdd m c i x = if tileBegun (m.core c) i || decide (2 ^ 32 ≤ tl.inbound + 1) then none
      else some (serve (m.updCore c (fun k => { k with
        tiles := lput k.tiles i { tl with el := addTile tl.el x, inbound := tl.inbound + 1 } })) c i) := by
  simp only [applyAdd, h]

/-- Settles O47: what each command does, the steps of the factorisations, and the ways of a drain-add. -/
theorem tileEvents : Obligations.TileEvents := by
  unfold Obligations.TileEvents
  refine ⟨?complete, ?values, ?steps, ?arrivals, ?peer, fun s gid n d x hd hx => tdaddAck_eq hd hx, ?apply⟩
  case complete =>
    intro s c gid n x hx done el pad
    have hpad : padOf s.m x.gid = pad := padOf_eq s.m x.gid
    have hel : elementsOf (s.m.core c) x.tile = el := rfl
    refine ⟨complete_waits hx, complete_halts hx, fun hb hbad => ?_, fun pv hf hpv => ?_⟩
    · have hdo := fun hf => complete_performs hx hf hb hbad
      refine ⟨fun h => ?_, fun h => ⟨fun hy => ?_, fun hy => ?_⟩, fun off st w code e h he => ?_, fun off st w e h he => ?_,
        fun blk sa sb code h => ?_, fun img h => ?_, fun desc ty h => ?_⟩
      all_goals have hrun := hdo (by rw [h]; rfl)
      · rw [perform_zero h, zeroDo_keep] at hrun
        exact hrun
      · rw [perform_zero h, zeroDo_free (m := tileGood s.m x.gid x.tile) hy] at hrun
        exact hrun
      · rw [perform_zero h, zeroDo_named (m := tileGood s.m x.gid x.tile) hy] at hrun
        exact hrun
      · rw [perform_ld h he, hpad] at hrun
        exact hrun
      · rw [perform_st h he, hel] at hrun
        exact hrun
      · rw [perform_mma h, hpad] at hrun
        exact hrun
      · rw [perform_code h] at hrun
        exact hrun
      · rw [perform_dadd h (found_unsent hx), hel] at hrun
        refine ⟨fun hs => ?_, fun hp hu => ?_⟩
        · rw [if_neg] at hrun
          · exact hrun
          · rcases hs with hs | hs <;> simp [hs]
        · rw [if_pos (by simp [Option.isSome_iff_ne_none, hp, hu])] at hrun
          exact hrun
    · obtain ⟨hdone, hwait⟩ := complete_factor hx hf hpv
      refine ⟨fun h1 h2 => ?_, hwait⟩
      rw [hdone h1 h2, finishFactor_eq, hel]
  case values =>
    exact fun pad wbuf off st e code a b k wa wb ea eb ha hb hn i j hi hj => ⟨loadTile_get pad off st e code hi hj,
      addTile_get a b hi hj, mmaTile_get ha hb hn code pad wbuf a i hj⟩
  case steps =>
    rintro s c gid n x g hg hx W rfl
    refine ⟨step_faulted hg hx, step_saving hg hx, fun hs hf hbad => ⟨fun hb hmay => ?_, fun hb hfree => ?_⟩⟩
    · rw [step_eq hg hx hs hf hbad (by rw [hb]; exact hmay), hb]
      rfl
    · have he := step_eq hg hx hs hf hbad (by rw [hb]; exact hfree)
      rw [hb, if_pos rfl] at he
      refine ⟨fun h => by rw [he, stepCmd_done h], fun w hlt hw => by rw [he, stepCmd_ok hlt hw], fun h hlt hw => ?_⟩
      rw [he, stepCmd_halts hg hf hlt hw]
  case arrivals =>
    intro s gid n d hd
    refine ⟨arrival_waits hd, fun he hx => ?_⟩
    rw [arrival_goes hd he hx]
    refine ⟨fun hok => by rw [daddArrive_illegal hok], fun g hok hp hg => ⟨fun gr hgr h1 h2 h3 => ⟨fun o m ho hog ha => ?_, fun ho => ?_⟩,
      fun gr hgr hs => ?_, fun h => ?_⟩, fun hok hp hg => ⟨fun o m ho hc ha => ?_, fun ho => ?_⟩, fun hok hp => ?_⟩
    · rw [daddArrive_applied hok hp hg hgr h1 h2 h3 ho hog ha]
    · rw [daddArrive_refused hok hp hg hgr h1 h2 h3 ho]
    · rw [daddArrive_saved hok hp hg hgr hs]
    · rw [daddArrive_gone hok hp hg h]
    · rw [daddArrive_named hok hp hg ho hc ha]
    · rw [daddArrive_stranger hok hp hg ho]
    · obtain ⟨st, hst, ha⟩ := daddArrive_peer (m := s.m) hok hp
      exact ⟨st, hst, by rw [ha]⟩
  case peer =>
    intro s a gid n o p m ho hp hb ha
    rw [ev_next (fun _ => rfl)]
    simp only [peerArrive_bound ho hp hb ha]
  case apply =>
    intro m c i tl x h
    rw [applyAdd_eq h]
    refine ⟨fun hlt hn => if_neg ?_, fun hb => if_pos ?_⟩
    · simp only [Bool.or_eq_true, tileBegun_iff, decide_eq_true_eq, not_or, not_exists, not_and]
      exact ⟨hn, Nat.not_le.2 hlt⟩
    · simp only [Bool.or_eq_true, tileBegun_iff, decide_eq_true_eq]
      exact hb.symm.imp_right fun he => Nat.le_of_eq he.symm

end Sys2Proof.Machine
end

section
/-!
PROOFS. HandlerRecords: the layouts and searches of handler frames, and the delivery of a built-in effect
-/

namespace Sys2Proof.Machine

/-! How the searches stop (R327, R332): a chain walked past, then its end, its 64th frame, or a frame that answers. -/

section walks
variable {x y z : Fx} {f g : Nat} {fr : Frame} {l : List (Nat × Frame)} (hc : Chain x f l y g)
include hc

theorem search_ends {e : Nat} (hp : ∀ z ∈ l, z.2.state = 2 ∨ z.2.id ≠ e) (hg : g = 0) (hl : l.length ≤ 64) :
    Fx.search e 64 x f = .ok (y, none) := by
  rw [search_chain e l 64 x y f g hc hp hl, hg, search_zero]

theorem search_too_deep {e : Nat} (hp : ∀ z ∈ l, z.2.state = 2 ∨ z.2.id ≠ e) (hg : g ≠ 0) (hl : l.length = 64) :
    Fx.search e 64 x f = .error (.eff 10 e 2 y.rds) := by
  rw [search_chain e l 64 x y f g hc hp hl.le, hl]
  exact if_neg hg

theorem search_answers {e : Nat} (hp : ∀ z ∈ l, z.2.state = 2 ∨ z.2.id ≠ e) (hl : l.length < 64) (hg : g ≠ 0)
    (hf : y.frame g = .ok (z, fr)) (hs : fr.state ≠ 2) (hi : fr.id = e) : Fx.search e 64 x f = .ok (z, some (g, fr)) := by
  obtain ⟨k, hk⟩ : ∃ k, 64 - l.length = k + 1 := ⟨63 - l.length, by omega⟩
  rw [search_chain e l 64 x y f g hc hp hl.le, hk, Fx.search, if_neg hg, hf]
  exact if_pos ⟨hs, hi⟩

theorem find_ends {tok : Nat} (hp : ∀ z ∈ l, z.2.depth ≠ tok % 2 ^ 16) (hl : g = 0 ∧ l.length ≤ 64 ∨ l.length = 64) :
    Fx.find tok 64 x f = .ok (y, .dead 2) := by
  rcases hl with ⟨hg, hl⟩ | hl
  · rw [find_chain tok l 64 x y f g hc hp hl, hg, find_zero]
  · rw [find_chain tok l 64 x y f g hc hp hl.le, hl]
    rfl

/-- The frame at the token's depth is found: what is left is what it says of the token's generation. -/
theorem find_at_depth {tok : Nat} (hp : ∀ z ∈ l, z.2.depth ≠ tok % 2 ^ 16) (hl : l.length < 64) (hg : g ≠ 0)
    (hf : y.frame g = .ok (z, fr)) (hd : fr.depth = tok % 2 ^ 16) : Fx.find tok 64 x f =
      if tok / 2 ^ 16 = 0 ∨ (tok / 2 ^ 16 ≠ fr.p ∧ tok / 2 ^ 16 ≠ fr.s) then .ok (z, .dead 1)
      else if fr.state ≠ 2 then .ok (z, .dead 4) else .ok (z, .live g fr) := by
  obtain ⟨k, hk⟩ : ∃ k, 64 - l.length = k + 1 := ⟨63 - l.length, by omega⟩
  rw [find_chain tok l 64 x y f g hc hp hl.le, hk, Fx.find, if_neg hg, hf]
  exact if_neg (not_not.2 hd)

theorem find_stale {tok : Nat} (hp : ∀ z ∈ l, z.2.depth ≠ tok % 2 ^ 16) (hl : l.length < 64) (hg : g ≠ 0)
    (hf : y.frame g = .ok (z, fr)) (hd : fr.depth = tok % 2 ^ 16)
    (ht : tok / 2 ^ 16 = 0 ∨ tok / 2 ^ 16 ∉ [fr.p, fr.s]) : Fx.find tok 64 x f = .ok (z, .dead 1) := by
  rw [find_at_depth hc hp hl hg hf hd, if_pos]
  simpa [not_or] using ht

theorem find_current {tok : Nat} (hp : ∀ z ∈ l, z.2.depth ≠ tok % 2 ^ 16) (hl : l.length < 64) (hg : g ≠ 0)
    (hf : y.frame g = .ok (z, fr)) (hd : fr.depth = tok % 2 ^ 16) (h0 : tok / 2 ^ 16 ≠ 0)
    (ht : tok / 2 ^ 16 ∈ [fr.p, fr.s]) : Fx.find tok 64 x f = .ok (z, if fr.state = 2 then .live g fr else .dead 4) := by
  have hm : tok / 2 ^ 16 = fr.p ∨ tok / 2 ^ 16 = fr.s := by simpa using ht
  rw [find_at_depth hc hp hl hg hf hd, if_neg (by rintro (h | ⟨hp, hs⟩); exacts [h0 h, hm.elim hp hs])]
  by_cases hs : fr.state = 2
  · rw [if_neg (not_not.2 hs), if_pos hs]
  · rw [if_pos hs, if_neg hs]

theorem active_ends (hp : ∀ z ∈ l, z.2.state ≠ 2) (hl : g = 0 ∧ l.length ≤ 64 ∨ l.length = 64) :
    Fx.active 64 x f = .ok (y, none) := by
  rcases hl with ⟨hg, hl⟩ | hl
  · rw [active_chain l 64 x y f g hc hp hl, hg, active_zero]
  · rw [active_chain l 64 x y f g hc hp hl.le, hl]
    rfl

theorem active_answers (hp : ∀ z ∈ l, z.2.state ≠ 2) (hl : l.length < 64) (hg : g ≠ 0)
    (hf : y.frame g = .ok (z, fr)) (hs : fr.state = 2) : Fx.active 64 x f = .ok (z, some (g, fr)) := by
  obtain ⟨k, hk⟩ : ∃ k, 64 - l.length = k + 1 := ⟨63 - l.length, by omega⟩
  rw [active_chain l 64 x y f g hc hp hl.le, hk, Fx.active, if_neg hg, hf]
  exact if_pos hs

end walks

theorem length_savedBody (t : Thread) (n : Nat) : (savedBody t n).length = 96 := by
  rw [saved_body, flat_len]
  rfl

theorem length_fullBody (t : Thread) (n : Nat) : (fullBody t n).length = 4 * n := by
  rw [full_body, flat_len, List.length_range]

/-! The delivery of a built-in effect (R330). -/

/-- A raised thread of a group that runs: its effect may be delivered. -/
structure Deliverable (s : State) (t : Thread) (g : Group) (x : Raise) : Prop where
  group : s.m.group? t.gid = some g
  thread : s.m.thread? t.gid t.tix = some t
  onCore : g.onCore = true
  stays : g.stat ≠ .saving
  calm : retryOn s.m g.core = false
  raised : t.stat = .raised
  pending : t.pend = some x

/-- A search that read a scoped or direct page decides nothing while the core's chunk holds something (R331). -/
def tooSoon (m : Mach) (t : Thread) (rds : List (Nat × Nat)) : Bool :=
  fxHotReads m (whoOf m t.gid) rds && !chunkEmpty m (m.coreOf t.gid)

theorem tooSoon_eq_false {m : Mach} {t : Thread} {rds : List (Nat × Nat)}
    (h : fxHotReads m (whoOf m t.gid) rds = false ∨ chunkEmpty m (m.coreOf t.gid) = true) : tooSoon m t rds = false := by
  rcases h with h | h <;> simp [tooSoon, h]

section delivery
variable {s : State} {t : Thread} {g : Group} {x : Raise} (h : Deliverable s t g x)
include h

theorem delivery_eq : exec (.builtinEffectDelivery t.gid t.tix) s = .next ⟨s.agenda, deliver s.m t.gid t.tix⟩ := by
  rw [ev_next (fun _ => rfl)]
  simp only [h.group, h.onCore, h.calm, Bool.not_false, and_true, true_and]
  rw [if_pos h.stays]

theorem deliver_arriving (ha : arriving s.m t = true) : deliver s.m t.gid t.tix = s.m := by
  simp only [deliver, h.thread, h.pending, ha, or_true, if_true]

variable (ha : arriving s.m t = false)
include ha

theorem deliver_no_handler {fx : Fx} (hs : Fx.search x.eff 64 (fxOf s.m t) t.hsp.toNat = .ok (fx, none)) :
    deliver s.m t.gid t.tix =
      if tooSoon s.m t fx.rds then addDue s.m (s.m.coreOf t.gid) 6 else parkEffect s.m t x := by
  unfold fxOf at hs
  simp only [deliver, deliverPlan, h.thread, h.pending, h.raised, ha, hs]
  rfl

/-- HANDLER.DEPTH raised by a search that met too many frames: its own search decides what becomes of it. -/
def tooDeep (x : Raise) : Raise :=
  { eff := 10, a0 := BitVec.ofNat 64 x.word.hdr, a1 := BitVec.ofNat 64 x.word.idx
    a2 := BitVec.ofNat 64 x.eff, a3 := 2, save := x.save, word := x.word }

theorem deliver_depth_itself {e a2 a3 : Nat} {rds : List (Nat × Nat)}
    (hs : Fx.search x.eff 64 (fxOf s.m t) t.hsp.toNat = .error (.eff e a2 a3 rds)) (hx : x.eff = 10)
    (hn : tooSoon s.m t rds = false) : deliver s.m t.gid t.tix = parkEffect s.m t x := by
  unfold fxOf at hs
  unfold tooSoon at hn
  simp only [hx] at hs
  simp only [deliver, deliverPlan, h.thread, h.pending, h.raised, ha, hx, hs, hn]
  rfl

theorem deliver_too_deep {e a2 a3 : Nat} {rds rds' : List (Nat × Nat)}
    (hs : Fx.search x.eff 64 (fxOf s.m t) t.hsp.toNat = .error (.eff e a2 a3 rds)) (hx : x.eff ≠ 10)
    (hn : tooSoon s.m t rds = false)
    (hd : (∃ fx : Fx, Fx.search 10 64 (fxOf s.m t) t.hsp.toNat = .ok (fx, none) ∧ fx.rds = rds') ∨
      Fx.search 10 64 (fxOf s.m t) t.hsp.toNat = .error (.eff 10 10 2 rds'))
    (hn' : tooSoon s.m t rds' = false) : deliver s.m t.gid t.tix = parkEffect s.m t (tooDeep x) := by
  unfold fxOf at hs hd
  unfold tooSoon at hn hn'
  rcases hd with ⟨fx, hd, rfl⟩ | hd <;>
    · simp only [deliver, deliverPlan, h.thread, h.pending, h.raised, ha, hx, hs, hd, hn, hn']
      rfl

/-- What a delivery plans when the frame at `f` answers: a full record below the frame's top, and the handler entered. -/
def deliveryPlan (m : Mach) (t : Thread) (x : Raise) (fx : Fx) (f : Nat) (fr : Frame) : FxPlan where
  x := fx
  wrs := [(below fr.top (64 + 4 * (m.recOf t.gid).regs),
      fullBody t (m.recOf t.gid).regs ++ recHeader t x.save 1 x.eff (4 * (m.recOf t.gid).regs) 0 false false 0),
    (f, { fr with state := 2, p := nextGen t.gen : Frame }.bytes)]
  f := fun u =>
    let v := ((((enterThread u f fr x.eff (below fr.top (64 + 4 * (m.recOf t.gid).regs))).wrD 20 x.a0).wrD 22 x.a1).wrD
      24 x.a2).wrD 26 x.a3
    { v with
      arith := match x.dest with | some d => lput v.arith (nextGen t.gen) d | none => ldel v.arith (nextGen t.gen)
      halts := match x.cmd with | some k => lput v.halts (nextGen t.gen) k | none => ldel v.halts (nextGen t.gen) }

/-- What the delivery leaves: the writes made, and a thread that acted on its own credited with its turn. -/
def delivered (w : Mach) (t : Thread) (p : FxPlan) : Mach :=
  if fxEscapes p then (match (acted w t p).thread? t.gid t.tix with
    | some u => fxCredit (acted w t p) t.gid t.tix u.pos
    | none => acted w t p) else acted w t p

theorem deliver_handled {fx : Fx} {f : Nat} {fr : Frame} {w : Mach}
    (hs : Fx.search x.eff 64 (fxOf s.m t) t.hsp.toNat = .ok (fx, some (f, fr)))
    (hm : MayAct s.m t (deliveryPlan s.m t x fx f fr)) (hw : Writes s.m t (deliveryPlan s.m t x fx f fr) w) :
    deliver s.m t.gid t.tix = delivered w t (deliveryPlan s.m t x fx f fr) := by
  have hp : deliverPlan s.m t x (whoOf s.m t.gid) false = .ok (.inl (deliveryPlan s.m t x fx f fr)) := by
    unfold fxOf at hs
    simp only [deliverPlan, hs]
    rfl
  simp only [deliver, h.thread, h.pending, h.raised, ha, hp, fxApply_may hm hw]
  rfl

end delivery

theorem parkEffect_eq (m : Mach) (t : Thread) (x : Raise) : parkEffect m t x = (
      let m := addDue (parkThread (withThread m t (fun u => { u with
        pend := none, brokenAt := if x.eff = 6 then none else u.brokenAt })) t.gid t.tix (.effect x)) (m.coreOf t.gid) 10
      postRec m (cidOf m t.gid) {
        kind := 6, cause := x.eff, access := 0, asid := asidOf m (cidOf m t.gid), addr := x.a2.toNat
        clause := x.word.hdr
        place := t.slot + m.coreOf t.gid % 64 * 2 ^ 11 + m.dieOf t.gid * 2 ^ 17 + x.word.idx % 16 * 2 ^ 19 }) := rfl

/-- Settles O49: the layouts and what a restored record gives are the model's laws, each search is walked along its
chain to where it stops, and a delivery is the plan for the frame that answers, or the thread parked. -/
theorem handlerRecords : Obligations.HandlerRecords := by
  unfold Obligations.HandlerRecords
  refine ⟨⟨frame_layout, header_layout, ?bodies, fun u f eff sp fr hd => enter_law u f eff sp fr hd, ?searches⟩, ?delivery⟩
  case bodies =>
    exact fun t u n h => ⟨length_savedBody t n, length_fullBody t n, fun full => return_law t u n h full _ rfl⟩
  case searches =>
    intro x y f g l hc
    refine ⟨fun e hp => ⟨search_ends hc hp, search_too_deep hc hp, ?_⟩, fun tok hp => ⟨find_ends hc hp, ?_⟩,
      fun hp => ⟨active_ends hc hp, ?_⟩⟩
    · exact fun z fr hl hg hf hs hi => search_answers hc hp hl hg hf hs hi
    · exact fun z fr hl hg hf hd => ⟨find_stale hc hp hl hg hf hd, find_current hc hp hl hg hf hd⟩
    · exact fun z fr hl hg hf hs => active_answers hc hp hl hg hf hs
  case delivery =>
    intro s t g x hg ht hon hst hre hra hpe
    have h : Deliverable s t g x := ⟨hg, ht, hon, hst, hre, hra, hpe⟩
    rw [delivery_eq h]
    refine ⟨fun ha => by rw [deliver_arriving h ha], fun ha fx n low hn => ⟨?handled, fun hs => ?unhandled⟩,
      fun y => parkEffect_eq s.m t y, fun ha y rds hs hy hr => ?deep⟩
    case handled =>
      rintro f fr hs rfl p hx hq he hk hwr hf w hm hw
      have hp : p = deliveryPlan s.m t x fx f fr := by
        subst hn
        cases p
        simp only at hx hq he hk hwr hf
        rw [hx, hq, he, hk, hwr, hf]
        rfl
      rw [hp] at hm hw ⊢
      rw [deliver_handled h ha hs hm hw]
      rfl
    case unhandled =>
      rw [deliver_no_handler h ha hs]
      refine ⟨fun hh hc => ?_, fun hh => ?_⟩
      · rw [if_pos (by simp [tooSoon, hh, hc])]
      · rw [tooSoon_eq_false hh, if_neg Bool.false_ne_true]
    case deep =>
      refine ⟨fun hx => ?_, fun hx rds' hd hr' => ?_⟩
      · rw [deliver_depth_itself h ha hs hx (tooSoon_eq_false hr)]
      · rw [deliver_too_deep h ha hs hx (tooSoon_eq_false hr) hd (tooSoon_eq_false hr'), hy]
        rfl

end Sys2Proof.Machine
end

section
/-!
PROOFS. EffectWords: what the effect instructions plan
-/

namespace Sys2Proof.Machine

section plans
variable {m : Mach} {t : Thread} {r : Running} {x y z q : Fx} {fr : Frame} {h : RecHdr}

/-! `handle` (R326): a frame is pushed below the stack pointer. -/

/-- The frame that a `handle` is pushed over: its depth, and the reads that found it. -/
theorem handlePlan_eq {id d entry dp : Nat} {off : Int}
    (ho : t.hsp = 0 ∧ dp = 1 ∧ x = fxOf m t ∨
      t.hsp ≠ 0 ∧ (fxOf m t).frame t.hsp.toNat = .ok (x, fr) ∧ dp = fr.depth + 1) :
    handlePlan r id d off entry m t =
      if (t.rdD 4).toNat % 32 ≠ 0 then .error (.eff 2 (t.rdD 4).toNat 32 [])
      else if (t.rdD d).toNat % 16 ≠ 0 then .error (.eff 2 (t.rdD d).toNat 16 [])
      else if entry % 8 ≠ 0 ∨ canonical entry = false then .error (.eff 2 entry 8 [])
      else if 65535 < dp then .error (.eff 10 0 3 x.rds)
      else .ok {
        x := x
        wrs := [(below (t.rdD 4).toNat 32, Frame.bytes ⟨id, entry, 1, 0, addr64 ((r.hdr : Int) + 8 * off), 0, (t.rdD d).toNat,
          0, dp, t.hsp.toNat⟩)]
        f := fun u => { u.wrD 4 (BitVec.ofNat 64 (below (t.rdD 4).toNat 32)) with
          hsp := BitVec.ofNat 64 (below (t.rdD 4).toNat 32) } } := by
  rcases ho with ⟨h0, rfl, rfl⟩ | ⟨h0, hf, rfl⟩
  · simp only [handlePlan, h0, BitVec.ofNat_eq_ofNat, BitVec.toNat_ofNat, Nat.zero_mod, if_true, Bool.not_eq_true']
    rfl
  · have h1 : t.hsp.toNat ≠ 0 := fun hz => h0 (BitVec.eq_of_toNat_eq hz)
    simp only [handlePlan, h1, hf, if_false, Bool.not_eq_true']
    rfl

/-! `perform` (R328): the handler of the frame that answers is entered above the record of the performer. -/

/-- The record that `perform` writes below the top of the frame that answers. -/
def performRec (m : Mach) (t : Thread) (r : Running) (id : Nat) (multi : Bool) (z : Nat) : List Byte :=
  savedBody t (m.recOf t.gid).regs ++ recHeader t ⟨r.nextHdr, 0⟩ 0 id 96 0 false multi z

theorem performPlan_enters {multi : Bool} {id f z : Nat} {snap : List Byte}
    (hm : multi = true → (t.rdD 4).toNat % 16 = 0 ∧ (t.rdD 4).toNat ≤ f)
    (hz : z = if multi then f - (t.rdD 4).toNat else 0) (hle : z ≤ 4096)
    (hs : Fx.search id 64 (fxOf m t) t.hsp.toNat = .ok (x, some (f, fr)))
    (hr : x.readAfter t [(below fr.top 160, performRec m t r id multi z)] (t.rdD 4).toNat z = .ok (y, snap)) :
    performPlan r multi id m t = .ok {
      x := y
      wrs := (below fr.top 160, performRec m t r id multi z) ::
        pieces (z / 16 + 1) (below (below fr.top 160) z) snap ++
        [(f, (if multi then { fr with state := 2, s := nextGen t.gen } else { fr with state := 2, p := nextGen t.gen }).bytes)]
      f := fun u => { enterThread u f fr id (below (below fr.top 160) z) with pend := u.pend } } := by
  have aligned : ¬(multi = true ∧ (t.rdD rSP).toNat % 16 ≠ 0) := fun ⟨h1, h2⟩ => h2 (hm h1).1
  have fits : ¬(multi = true ∧ f < (t.rdD rSP).toNat ∨ 4096 < z) := by
    rintro (⟨h1, h2⟩ | h1)
    · exact absurd (hm h1).2 (by simpa [rSP] using h2)
    · omega
  unfold performRec at *
  simp only [performPlan, if_neg aligned, hs]
  simp only [rSP, ← hz] at *
  simp only [if_neg fits, hr]

theorem performPlan_misaligned {id : Nat} {multi : Bool} (hm : multi = true) (hsp : (t.rdD 4).toNat % 16 ≠ 0) :
    performPlan r multi id m t = .error (.eff 2 (t.rdD 4).toNat 16 []) :=
  if_pos ⟨hm, hsp⟩

theorem performPlan_no_handler {id : Nat} {multi : Bool} (hm : multi = true → (t.rdD 4).toNat % 16 = 0)
    (hs : Fx.search id 64 (fxOf m t) t.hsp.toNat = .ok (x, none)) :
    performPlan r multi id m t = .error (.eff 10 id 1 x.rds) := by
  have aligned : ¬(multi = true ∧ (t.rdD rSP).toNat % 16 ≠ 0) := fun ⟨h1, h2⟩ => h2 (hm h1)
  simp only [performPlan, if_neg aligned, hs]

theorem performPlan_segment {id f : Nat} {multi : Bool} (hm : multi = true → (t.rdD 4).toNat % 16 = 0)
    (hs : Fx.search id 64 (fxOf m t) t.hsp.toNat = .ok (x, some (f, fr))) (h1 : multi = true)
    (hf : f < (t.rdD 4).toNat ∨ 4096 < f - (t.rdD 4).toNat) :
    performPlan r multi id m t = .error (.eff 10 id 5 x.rds) := by
  simp only [performPlan, rSP, hm h1, hs, h1, ne_eq, not_true_eq_false, and_false, if_true, if_false, true_and]
  exact if_pos hf

/-! The return to a resumer (R333, R334), `endh` (R333). -/

theorem toResumer_returns {f n : Nat} {v : DWord} {bs : List Byte} (hh : x.header ((fr.top + 96) % 2 ^ 64) = .ok (y, h))
    (hr : y.readAfter t [(f, { fr with top := h.prev, ov := if h.ov then 1 else 0, state := 2 : Frame }.bytes)] fr.top 96 =
      .ok (z, bs)) :
    toResumer x t n f fr v = .ok {
      x := z
      wrs := [(f, { fr with top := h.prev, ov := if h.ov then 1 else 0, state := 2 : Frame }.bytes)]
      f := fun u => (returnThread u n h bs false).wrD 20 v } := by
  simp only [toResumer, hh, hr]
  rfl

theorem endhPlan_no_frame (h0 : t.hsp = 0) : endhPlan m t = .error (.eff 10 0 3 []) :=
  if_pos (by rw [h0]; rfl)

section endh
variable (h0 : t.hsp.toNat ≠ 0) (hf : (fxOf m t).frame t.hsp.toNat = .ok (x, fr))
include h0 hf

theorem endhPlan_pops (h1 : fr.state = 1) : endhPlan m t = .ok {
    x := x, wrs := [(t.hsp.toNat, { fr with state := 0, p := 0, s := 0 : Frame }.bytes)]
    f := fun u => { u.wrD 4 (BitVec.ofNat 64 ((t.hsp.toNat + 32) % 2 ^ 64)) with hsp := BitVec.ofNat 64 fr.link } } := by
  simp only [endhPlan, h0, hf, h1, if_false, if_true]
  rfl

theorem endhPlan_resumer (h3 : fr.state = 3) :
    endhPlan m t = toResumer x t (m.recOf t.gid).regs t.hsp.toNat fr (t.rdD 20) := by
  simp only [endhPlan, h0, hf, h3, if_false, if_true, Nat.reduceEqDiff]
  rfl

theorem endhPlan_unended (h1 : fr.state ≠ 1) (h3 : fr.state ≠ 3) : endhPlan m t = .error (.eff 10 0 4 x.rds) := by
  simp only [endhPlan, h0, hf, h1, h3, if_false]

end endh

/-! A token that finds no record (R332): `resume` and `drop` raise, `hstat` reads 0. -/

section dead
variable {a c : Nat} (hk : Fx.find (t.rd a).toNat 64 (fxOf m t) t.hsp.toNat = .ok (x, .dead c))
include hk

theorem resumePlan_dead : resumePlan r a m t = .error (.eff 8 (t.rd a).toNat c x.rds) := by
  simp only [resumePlan, hk]

theorem dropPlan_dead : dropPlan a m t = .error (.eff 8 (t.rd a).toNat c x.rds) := by
  simp only [dropPlan, hk]

theorem hstatPlan_dead (d : Nat) : hstatPlan .tok d a m t = .ok { x := x, wrs := [], f := fun u => u.wr d 0 } := by
  simp only [hstatPlan, hk]
  rfl

end dead

/-! A token whose frame is live: `resume` (R331), `drop` (R335), `hstat.tok` (R337). -/

section live
variable {a f : Nat} (hk : Fx.find (t.rd a).toNat 64 (fxOf m t) t.hsp.toNat = .ok (x, .live f fr))
  (hh : x.header (below fr.top 64) = .ok (y, h))
include hk hh

theorem resumePlan_not_resumable (hr : h.resumable = false) :
    resumePlan r a m t = .error (.eff 8 (t.rd a).toNat 3 y.rds) := by
  simp only [resumePlan, hk, hh, hr]
  rfl

theorem resumePlan_misaligned (hr : h.resumable = true) (hsp : (t.rdD 4).toNat % 16 ≠ 0) :
    resumePlan r a m t = .error (.eff 2 (t.rdD 4).toNat 16 y.rds) := by
  simp only [resumePlan, hk, hh, hr, Bool.not_true, Bool.false_eq_true, if_false]
  exact if_pos hsp

/-- What `resume` writes before it reads the body back: the resumer's record, and the frame in state 3. -/
def resumeWrites (m : Mach) (t : Thread) (r : Running) (a f : Nat) (fr : Frame) : List (Nat × List Byte) :=
  [(below (t.rdD 4).toNat 160, savedBody t (m.recOf t.gid).regs ++
      recHeader t ⟨r.nextHdr, 0⟩ 2 0 96 fr.top (fr.ov == 1) false 0),
    (f, { fr with top := below (t.rdD 4).toNat 160, ov := 1, state := 3
                  p := if (t.rd a).toNat / 2 ^ 16 = fr.s then fr.p else 0 : Frame }.bytes)]

theorem resumePlan_resumes {size : Nat} {ws : List (Nat × List Byte)} {snap bs : List Byte} (hr : h.resumable = true)
    (hsp : (t.rdD 4).toNat % 16 = 0) (hsize : size = if h.kind = 1 then 4 * (m.recOf t.gid).regs else 96)
    (hws : ws = resumeWrites m t r a f fr)
    (hsnap : (if (t.rd a).toNat / 2 ^ 16 = fr.s then y.readAfter t ws (below (below fr.top (64 + size)) h.seg) h.seg
      else .ok (y, [])) = .ok (z, snap))
    (hbs : z.readAfter t (ws ++ pieces (snap.length / 16 + 1) h.sp snap) (below fr.top (64 + size)) size = .ok (q, bs)) :
    resumePlan r a m t = .ok {
      x := q
      wrs := ws ++ pieces (snap.length / 16 + 1) h.sp snap
      f := fun u =>
        let w := resumeValue t h ((t.rd a).toNat / 2 ^ 16) (t.rdD 20) (returnThread u (m.recOf t.gid).regs h bs (h.kind == 1))
        if (t.rd a).toNat / 2 ^ 16 = fr.s then w else w.forget ((t.rd a).toNat / 2 ^ 16)
      esc := h.halted, k := resumeMach t h ((t.rd a).toNat / 2 ^ 16) (t.rdD 20) } := by
  unfold resumeWrites at hws
  simp only [Nat.reducePow] at *
  simp only [resumePlan, hk, hh, hr, rSP, hsp, ← hsize, ← hws, hsnap, hbs, Bool.not_true, Bool.false_eq_true, if_false,
    ne_eq, not_true_eq_false]
  rfl

theorem dropPlan_drops {gs ns : List Nat}
    (hgs : gs = (if (t.rd a).toNat / 2 ^ 16 = fr.s then [] else [(t.rd a).toNat / 2 ^ 16]) ++ Fx.lost 256 x [(h.hsp, f)])
    (hns : ns = haltsOf t gs) : dropPlan a m t = .ok {
      x := x, wrs := [(f, (if (t.rd a).toNat / 2 ^ 16 = fr.s then { fr with s := 0 } else { fr with p := 0 } : Frame).bytes)]
      f := fun u => u.forgetAll gs, esc := !ns.isEmpty, k := dropMach t.gid ns } := by
  simp only [dropPlan, hk, hh]
  rw [hns, hgs]
  rfl

theorem hstatPlan_live (d : Nat) : hstatPlan .tok d a m t =
    if (t.rd a).toNat / 2 ^ 16 = fr.s then .ok { x := x, wrs := [], f := fun u => u.wr d 2 }
    else .ok { x := y, wrs := [], f := fun u => u.wr d (if h.resumable then 1 else 3) } := by
  simp only [hstatPlan, hk, hh]
  cases h.resumable <;> rfl

end live

/-! The other forms of `hstat` (R337). -/

theorem hstatPlan_gen (d a : Nat) :
    hstatPlan .gen d a m t = .ok { x := fxOf m t, wrs := [], f := fun u => u.wr d (BitVec.ofNat 32 t.gen) } := rfl

theorem hstatPlan_depth_zero (d a : Nat) (h0 : t.hsp = 0) :
    hstatPlan .depth d a m t = .ok { x := fxOf m t, wrs := [], f := fun u => u.wr d 0 } :=
  if_pos h0

theorem hstatPlan_depth (d a : Nat) (h0 : t.hsp ≠ 0) (hf : (fxOf m t).frame t.hsp.toNat = .ok (x, fr)) :
    hstatPlan .depth d a m t = .ok { x := x, wrs := [], f := fun u => u.wr d (BitVec.ofNat 32 fr.depth) } := by
  simp only [hstatPlan, h0, hf, if_false]

/-! The generations that an ending handler loses, and the commands they hold halted (R335, R336). -/

theorem mem_haltsOf {gs : List Nat} {k : Nat} : k ∈ haltsOf t gs ↔ ∃ g ∈ gs, g ≠ 0 ∧ lget t.halts g = some k := by
  simp only [haltsOf, Thread.haltOf, List.mem_filterMap, List.mem_filter, bne_iff_ne, and_assoc]

theorem lost_at_end {j a z : Nat} {l : List (Nat × Nat)} (he : a = z ∨ a = 0) :
    Fx.lost (j + 1) x ((a, z) :: l) = Fx.lost j x l :=
  if_pos he

theorem lost_active {j a z : Nat} {l : List (Nat × Nat)} (hz : a ≠ z) (h0 : a ≠ 0) (hf : x.frame a = .ok (y, fr))
    (hs : fr.state = 2) (hov : fr.ov ≠ 1) (hh : y.header (below fr.top 64) = .ok (q, h)) :
    Fx.lost (j + 1) x ((a, z) :: l) = fr.p :: Fx.lost j y ((h.hsp, a) :: (fr.link, z) :: l) := by
  rw [Fx.lost, if_neg (not_or.2 ⟨hz, h0⟩)]
  simp only [hf, hs, hov, hh, if_true, if_false]
  rfl

/-! `hret` (R336). -/

theorem hretPlan_no_handler (ha : Fx.active 64 (fxOf m t) t.hsp.toNat = .ok (x, none)) :
    hretPlan m t = .error (.eff 10 0 4 x.rds) := by
  simp only [hretPlan, ha]

/-- A thread whose handler ends: the lost generations forgotten, and a BROKEN that the handler answered. -/
def hretEnds (h : RecHdr) (gs : List Nat) (u : Thread) : Thread :=
  { u.forgetAll gs with brokenAt := if h.kind = 1 ∧ h.eff = 6 then none else u.brokenAt }

section hret
variable {f : Nat} {gs k : List Nat} (ha : Fx.active 64 (fxOf m t) t.hsp.toNat = .ok (x, some (f, fr)))
  (hh : x.header (below fr.top 64) = .ok (y, h))
  (hgs : gs = fr.p :: Fx.lost 256 y [(t.hsp.toNat, f), (h.hsp, f)]) (hk : k = haltsOf t gs)
include ha hh hgs hk

theorem hretPlan_exits (hov : fr.ov ≠ 1) : ∃ p, hretPlan m t = .ok p ∧ p.x = y ∧ p.esc = !k.isEmpty ∧ p.k = dropMach t.gid k ∧
    p.wrs = [(f, { fr with p := 0, state := 0, s := 0 : Frame }.bytes)] ∧
    p.f t = hretEnds h gs ({ t.wrD 4 (BitVec.ofNat 64 ((f + 32) % 2 ^ 64)) with
      hsp := BitVec.ofNat 64 fr.link }.goTo fr.exit) := by
  simp only [hretPlan, ha, hh, hov, if_false, ← hgs, ← hk]
  exact ⟨_, rfl, rfl, rfl, rfl, rfl, rfl⟩

theorem hretPlan_resumer (hov : fr.ov = 1) {q : FxPlan} (hq : toResumer y t (m.recOf t.gid).regs f
      { fr with p := 0, s := if h.multi then 0 else fr.s } (t.rdD 20) = .ok q) :
    ∃ p, hretPlan m t = .ok p ∧ p.x = q.x ∧ p.esc = !k.isEmpty ∧ p.k = dropMach t.gid k ∧ p.wrs = q.wrs ∧
      p.f t = hretEnds h gs (q.f t) := by
  simp only [hov] at hq
  simp only [hretPlan, ha, hh, hov, if_true, ← hgs, ← hk, ra0, hq]
  exact ⟨_, rfl, rfl, rfl, rfl, rfl, rfl⟩

end hret

end plans

/-- Settles O48: each effect word performs its plan, and each plan is computed along the branches of its definition. -/
theorem effectWords : Obligations.EffectWords := by
  unfold Obligations.EffectWords
  refine ⟨fun s r t g h a d id off entry fl multi => ?words, ?plans⟩
  case words =>
    exact ⟨performs h _ 2 false (fun r => handlePlan r id d off entry) (fun _ => rfl),
      performs h _ 1 false (fun _ => endhPlan) (fun _ => rfl),
      performs h _ 1 multi (fun r => performPlan r multi id) (fun _ => rfl),
      performs h _ 1 false (fun r => resumePlan r a) (fun _ => rfl),
      performs h _ 1 false (fun _ => dropPlan a) (fun _ => rfl),
      performs h _ 1 false (fun _ => hretPlan) (fun _ => rfl),
      performs h _ 1 false (fun _ => hstatPlan fl d a) (fun _ => rfl)⟩
  case plans =>
    rintro m t r x fr sp v n rfl rfl rfl
    refine ⟨?handle, fun multi id f y z snap => performPlan_enters, fun multi id => ⟨performPlan_misaligned, ?perform⟩,
      ?resumer, endhPlan_no_frame, ?endh, ?token, ?hstat, fun gs k => mem_haltsOf, ?lost, hretPlan_no_handler, ?hret⟩
    case handle =>
      rintro id d off entry dp _ rfl ho
      exact handlePlan_eq ho
    case perform =>
      exact fun hm => ⟨performPlan_no_handler hm, fun f hs h1 hf => performPlan_segment hm hs h1 hf⟩
    case resumer =>
      intro f h y z bs hh hr
      rw [BitVec.ofNat_toNat, BitVec.setWidth_eq]
      exact toResumer_returns hh hr
    case endh =>
      rintro _ rfl h0 hf
      rw [BitVec.ofNat_toNat, BitVec.setWidth_eq]
      exact ⟨endhPlan_pops h0 hf, endhPlan_resumer h0 hf, endhPlan_unended h0 hf⟩
    case token =>
      rintro a _ _ rfl rfl k hk
      refine ⟨fun c hc => ?dead, fun f y h hl hh => ?live⟩
      case dead =>
        subst hc
        exact ⟨resumePlan_dead hk, dropPlan_dead hk, hstatPlan_dead hk⟩
      case live =>
        subst hl
        refine ⟨resumePlan_not_resumable hk hh, resumePlan_misaligned hk hh, ?_, fun gs ns => dropPlan_drops hk hh,
          hstatPlan_live hk hh⟩
        intro size z q bs snap ws hr hsp hsize hws hsnap hbs
        rw [BitVec.ofNat_toNat, BitVec.setWidth_eq]
        exact resumePlan_resumes hk hh hr hsp hsize hws hsnap hbs
    case hstat =>
      exact fun d a => ⟨hstatPlan_gen d a, hstatPlan_depth_zero d a, hstatPlan_depth d a⟩
    case lost =>
      exact fun j a z l => ⟨lost_at_end, fun hz h0 y hf hs hov q h hh => lost_active hz h0 hf hs hov hh⟩
    case hret =>
      rintro f y h ha hh gs k _ hgs hk rfl
      rw [BitVec.ofNat_toNat, BitVec.setWidth_eq]
      exact ⟨hretPlan_exits ha hh hgs hk, fun hov q hq => hretPlan_resumer ha hh hgs hk hov hq⟩

end Sys2Proof.Machine
end
